-- ==== Sys2Proof/Word.lean ====
section
/-!
DEFINITION. Words and the plain data types the syntax and the state share: register widths (R6, R30, R76, R169,
R297), the agents of ownership (R335), Fonak headers (R402), link flits (R396) and the inputs that come from
outside the package.
-/

namespace Sys2Proof

/-- A 64-bit register value. -/
abbrev Word := BitVec 64
/-- One byte of memory. -/
abbrev Byte := BitVec 8
/-- A vector register at the largest VLMAX, 4096 x 64 bits (R28, R76). -/
abbrev VReg := BitVec 262144
/-- A mask register at the largest VLMAX (R30). -/
abbrev MReg := BitVec 4096
/-- An accumulator tile, 16 KiB (R169, R297). -/
abbrev Tile := BitVec 131072
/-- A 128-byte line (R6). -/
abbrev Line := BitVec 1024

/-- The agents that may own the device (R335). -/
inductive Agent where
  /-- no agent -/
  | nobody
  /-- the PCIe host -/
  | pcie
  /-- the I3C controller -/
  | i3c
  /-- the fabric-remote manager -/
  | remote
  deriving DecidableEq, Repr

/-- A firmware image as the boot flash holds it (R333): its bytes, the public key and the XMSS signature that come with it,
and its version. The spec gives no layout, so the model keeps the four apart (log entry 5). -/
structure BootImage where
  body : List Byte
  key : List Byte
  signature : List Byte
  version : Nat
  deriving DecidableEq, Repr, Inhabited

/-- An interrupt message on its way to the owner it was sent to (R328): the agent, the EPOCH of its ownership and the number. -/
structure Message where
  owner : Agent
  epoch : BitVec 30
  number : BitVec 11
  deriving DecidableEq, Repr

/-- A window of the PCIe port (R320): control space behind BAR0, or memory behind BAR2. -/
inductive Bar where
  | control
  | window
  deriving DecidableEq, Repr

/-- An offset in a window of the PCIe port (R320). -/
structure HostAddr where
  bar : Bar
  offset : Nat
  deriving DecidableEq, Repr

/-- An offset in the control space of a die (R322). -/
structure CtlPlace where
  die : Nat
  offset : Nat
  deriving DecidableEq, Repr

/-- A write of some bytes of a dword. -/
structure DwordWrite where
  mask : BitVec 8
  value : Word
  deriving DecidableEq, Repr

/-- A command dword with its arguments, written by an agent to the mailbox of a die (R361). -/
structure MbCmd where
  die : Nat
  agent : Agent
  a0 : Word
  a1 : Word
  a2 : Word
  a3 : Word
  deriving DecidableEq, Repr

/-- A stream: the requests of one source to one destination in one plane (R403). -/
structure StreamKey where
  src : Nat
  dst : Nat
  plane : Nat
  deriving DecidableEq, Repr

/-- A request as its 24-byte header and its data describe it (R402). -/
structure FonakReq where
  key : StreamKey
  /-- the dies of the two ends; those of a stream inside the package are its ends themselves -/
  srcDie : Nat
  dstDie : Nat
  /-- the address space whose key its line takes inside the package (R137), which the header has no field for -/
  space : Nat
  eseq : BitVec 20
  resend : Bool
  op : BitVec 6
  line : Nat
  attr : BitVec 16
  gmask : BitVec 4
  psn : BitVec 4
  bmask : BitVec 128
  data : Line
  compare : Word
  body : List (BitVec 32)
  regs : List Word
  reserved : Bool
  deriving DecidableEq, Repr

/-- A completion: it carries the ESEQ of its request (R403), and a header of its own (R402). -/
structure FonakDone where
  key : StreamKey
  srcDie : Nat
  dstDie : Nat
  eseq : BitVec 20
  resend : Bool
  op : BitVec 6
  line : Nat
  attr : BitVec 16
  data : Line
  psn : BitVec 4
  regs : List Word
  deriving DecidableEq, Repr

/-- What a plane carries: a request, or the completion of one (R402). -/
inductive Txn where
  | req (r : FonakReq)
  | done (d : FonakDone)
  deriving DecidableEq, Repr

/-- One end of a link (R396 to R400): a module of one of the four die boundaries or, from boundary 4 on, a link of the on-die
mesh of die `boundary - 4` (R398). -/
structure ModuleId where
  boundary : Nat
  plane : Nat
  module : Nat
  upper : Bool
  deriving DecidableEq, Repr

/-- The fields of a flit (R396). -/
structure Flit where
  crc : BitVec 32
  nul : Bool
  ack : BitVec 7
  nak : Bool
  lseq : BitVec 7
  payload : BitVec 2000
  deriving DecidableEq, Repr

/-- The result of the lane test of a module (R399): the faulty lanes of each 32-lane half of its two directions, of which
direction 0 is the one toward the lower-numbered die. -/
structure LaneTest where
  lower0 : Nat
  upper0 : Nat
  lower1 : Nat
  upper1 : Nat
  deriving DecidableEq, Repr

/-- Where a detected error stands (R345, R379). -/
inductive ErrSite where
  /-- no stored value is concerned -/
  | nowhere
  /-- a 32-byte granule of memory, by its number -/
  | memory (granule : Nat)
  /-- granule `g` of vector register `r` of a hart -/
  | vreg (uid r g : Nat)
  /-- granule `g` of mask register `r` of a hart -/
  | mreg (uid r g : Nat)
  /-- granule `g` of tile `r` of a hart -/
  | tile (uid r g : Nat)
  /-- granule `g` of the strip store buffer entry of a hart for a line -/
  | strip (uid line g : Nat)
  /-- a way of the L2 of a die holding a line of an address space -/
  | l2line (die asid line : Nat)
  /-- the tag entry of an L2 line that DEC-TED cannot correct -/
  | l2tag (die asid line : Nat)
  /-- a clean line of an L1 or of an instruction cache -/
  | l1line (die core asid line : Nat)
  /-- an entry of a translation slice of a die -/
  | translation (die front asid page : Nat)
  /-- granule `g` of the twin of a line that a die has checked out -/
  | twin (line writer g : Nat)
  /-- granule `g` of a line in a die's remote-data cache for a job -/
  | rdcLine (die asid line g : Nat)
  /-- element group `g` of the instruction that a hart in checked mode executes next, whose two computations differ, with
  whether the third agrees with one of them -/
  | checked (uid g : Nat) (agrees : Bool)
  /-- a pass of the OPA that the matrix unit performs next for a hart in checked mode -/
  | checkedPass (uid : Nat) (agrees : Bool)
  /-- the tag entry of a memory-side cache block -/
  | mscTag (stack block : Nat)
  /-- the cached control block of a queue -/
  | qcb (qid : Nat)
  /-- an accumulator of a bank engine -/
  | accumulator (bank n : Nat)
  /-- a column sum that the reduction unit of a drain forms -/
  | columnSum (cmd j : Nat)
  /-- an entry of a bushel -/
  | bushel (bank n : Nat)
  /-- an entry of a codebook -/
  | codebook (bank n : Nat)
  /-- the microprogram store, run registers or row latch of a bank -/
  | engine (bank : Nat)
  /-- one pass of an OPA whose residue differs, with the second computation's outcome -/
  | outerProduct (uid tile i j : Nat) (secondAgrees : Bool)
  deriving DecidableEq, Repr

/-- One detected error (R344 to R347). -/
structure ErrEvent where
  uncorrected : Bool
  kind : BitVec 8
  asid : Nat
  addr : Word
  misc : Word
  site : ErrSite
  deriving DecidableEq, Repr

/-- What a scrub read finds in a granule (R384, R385). -/
inductive ScrubFound where
  /-- the stored value is good -/
  | good
  /-- one symbol was wrong; the array holds the corrected value again -/
  | corrected
  /-- the value could not be corrected -/
  | lost
  deriving DecidableEq, Repr

/-- The parts that can be retired and the spares that replace them (R357, R359). -/
inductive Part where
  | row (bank row : Nat)
  | column (bank column : Nat)
  | bank (bank : Nat)
  | channel (die channel : Nat)
  | core (die core : Nat)
  | cacheRow (stack row : Nat)
  | module (m : ModuleId)
  | stack (stack : Nat)
  | terak
  deriving DecidableEq, Repr

/-- A firmware processor that Terak watches (R413). -/
inductive Processor where
  | frontEnd (die : Nat)
  | stackManager (stack : Nat)
  deriving DecidableEq, Repr

/-- What a Terak tells the coordinator of its domain (R410, R411). -/
inductive PlaneNote where
  /-- a plane is lost -/
  | lost (plane : Nat)
  /-- the device has drained for the quiesce of a plane (step 3) -/
  | drained (plane : Nat)
  deriving DecidableEq, Repr

/-- A consumer of the power budget (R343). -/
inductive Consumer where
  | die (d : Nat)
  | stack (s : Nat)
  | boundaries
  | ports
  | other
  deriving DecidableEq, Repr

/-- A hart that waits for a place (R65, R66): a saved one by its number, or the next new hart of a packet on a die. -/
inductive WaitingHart where
  | saved (uid : Nat)
  | fresh (die qid packet : Nat)
  deriving DecidableEq, Repr

/-- An uncached bank-linear request (R119, R292): where it reads or writes within one granule or line, and what. -/
structure OrdReq where
  id : Nat
  row : Nat
  byte : Nat
  size : Nat
  /-- what a store writes, the bytes from `byte` on that it writes, and the mark that a wholly written granule takes -/
  store : Option (BitVec 256)
  mask : BitVec 32
  psn : Bool
  /-- a read of the scrub, with what it finds in its granule (R385) -/
  scrub : Option ScrubFound
  uid : Nat
  deriving DecidableEq, Repr

/-- The kind of an access, for permissions and causes (R114). -/
inductive Access where
  | load
  | store
  | atomic
  | fetch
  deriving DecidableEq, Repr

/-- The fault values of a cause (R366). -/
structure FaultVals where
  cause : BitVec 8
  vec : Bool
  epc : Word
  elem : Nat
  va : Word
  stride : Word
  remain : Word
  /-- which of FAULTVA, FAULTSTRIDE and FAULTREMAIN the cause's row gives a value -/
  given : Bool
  deriving DecidableEq, Repr

end Sys2Proof
end

