-- ==== Sys2Proof/Syntax.lean ====
section
/-!
DEFINITION. The instruction set whole: one constructor for each row of the opcode table.
The first 181 are the words a hart executes (R181 to R187), then the pool marker (R186), the eleven µops of a bank
engine (R288), and the events by which the other agents of the device act (the firmware, the engines, the links and
the host), which have no bits of their own.
-/

namespace Sys2Proof

/-- One constructor per row of the opcode table; bit fields have their exact widths. -/
inductive Instr where
  /-- ADD (R204): Writes xd with the sum of xa and xb, modulo 2^64. -/
  | add (d : BitVec 5) (a : BitVec 5) (b : BitVec 5)
  /-- SUB (R204): Writes xd with xa minus xb. -/
  | sub (d : BitVec 5) (a : BitVec 5) (b : BitVec 5)
  /-- AND (R204): Writes xd with the bitwise AND of xa and xb. -/
  | and (d : BitVec 5) (a : BitVec 5) (b : BitVec 5)
  /-- OR (R204): Writes xd with the bitwise OR of xa and xb. -/
  | or (d : BitVec 5) (a : BitVec 5) (b : BitVec 5)
  /-- XOR (R204): Writes xd with the bitwise XOR of xa and xb. -/
  | xor (d : BitVec 5) (a : BitVec 5) (b : BitVec 5)
  /-- SLL (R204): Shifts xa left by xb[5:0]. -/
  | sll (d : BitVec 5) (a : BitVec 5) (b : BitVec 5)
  /-- SRL (R204): Shifts xa right logically by xb[5:0]. -/
  | srl (d : BitVec 5) (a : BitVec 5) (b : BitVec 5)
  /-- SRA (R204): Shifts xa right arithmetically by xb[5:0]. -/
  | sra (d : BitVec 5) (a : BitVec 5) (b : BitVec 5)
  /-- SLT (R204): Writes 1 when xa is less than xb as signed values, and 0 otherwise. -/
  | slt (d : BitVec 5) (a : BitVec 5) (b : BitVec 5)
  /-- SLTU (R204): Writes 1 when xa is less than xb as unsigned values, and 0 otherwise. -/
  | sltu (d : BitVec 5) (a : BitVec 5) (b : BitVec 5)
  /-- MIN (R204): Writes the signed minimum of xa and xb. -/
  | min (d : BitVec 5) (a : BitVec 5) (b : BitVec 5)
  /-- MAX (R204): Writes the signed maximum of xa and xb. -/
  | max (d : BitVec 5) (a : BitVec 5) (b : BitVec 5)
  /-- MINU (R204): Writes the unsigned minimum of xa and xb. -/
  | minu (d : BitVec 5) (a : BitVec 5) (b : BitVec 5)
  /-- MAXU (R204): Writes the unsigned maximum of xa and xb. -/
  | maxu (d : BitVec 5) (a : BitVec 5) (b : BitVec 5)
  /-- CLZ (R204): Counts the leading zero bits of xa. -/
  | clz (d : BitVec 5) (a : BitVec 5)
  /-- CTZ (R204): Counts the trailing zero bits of xa. -/
  | ctz (d : BitVec 5) (a : BitVec 5)
  /-- POPC (R204): Counts the set bits of xa. -/
  | popc (d : BitVec 5) (a : BitVec 5)
  /-- MUL (R204): Writes the low 64 bits of the product of xa and xb. -/
  | mul (d : BitVec 5) (a : BitVec 5) (b : BitVec 5)
  /-- MULH (R204): Writes the high 64 bits of the signed 128-bit product. -/
  | mulh (d : BitVec 5) (a : BitVec 5) (b : BitVec 5)
  /-- MULHU (R204): Writes the high 64 bits of the unsigned 128-bit product. -/
  | mulhu (d : BitVec 5) (a : BitVec 5) (b : BitVec 5)
  /-- DIV (R204): Writes the signed quotient, rounded toward zero, with the division-by-zero values of R79. -/
  | div (d : BitVec 5) (a : BitVec 5) (b : BitVec 5)
  /-- DIVU (R204): Writes the unsigned quotient. -/
  | divu (d : BitVec 5) (a : BitVec 5) (b : BitVec 5)
  /-- REM (R204): Writes the signed remainder, which has the sign of the dividend. -/
  | rem (d : BitVec 5) (a : BitVec 5) (b : BitVec 5)
  /-- REMU (R204): Writes the unsigned remainder. -/
  | remu (d : BitVec 5) (a : BitVec 5) (b : BitVec 5)
  /-- ADDI (R205): Adds the sign-extended imm15 to xa. -/
  | addi (d : BitVec 5) (a : BitVec 5) (i : BitVec 15)
  /-- ANDI (R205): ANDs xa with the sign-extended imm15. -/
  | andi (d : BitVec 5) (a : BitVec 5) (i : BitVec 15)
  /-- ORI (R205): ORs xa with the sign-extended imm15. -/
  | ori (d : BitVec 5) (a : BitVec 5) (i : BitVec 15)
  /-- XORI (R205): XORs xa with the sign-extended imm15. -/
  | xori (d : BitVec 5) (a : BitVec 5) (i : BitVec 15)
  /-- SLTI (R205): Compares xa with imm15 as signed values. -/
  | slti (d : BitVec 5) (a : BitVec 5) (i : BitVec 15)
  /-- SLTIU (R205): Compares xa with the sign-extended imm15 as unsigned values. -/
  | sltiu (d : BitVec 5) (a : BitVec 5) (i : BitVec 15)
  /-- SLLI (R205): Shifts xa left by imm15[5:0]. -/
  | slli (d : BitVec 5) (a : BitVec 5) (s : BitVec 6)
  /-- SRLI (R205): Shifts xa right logically by imm15[5:0]. -/
  | srli (d : BitVec 5) (a : BitVec 5) (s : BitVec 6)
  /-- SRAI (R205): Shifts xa right arithmetically by imm15[5:0]. -/
  | srai (d : BitVec 5) (a : BitVec 5) (s : BitVec 6)
  /-- LUI (R206): Writes imm20 << 12, sign-extended from bit 31. -/
  | lui (d : BitVec 5) (i : BitVec 20)
  /-- AUIPC (R206): Writes PC plus imm20 << 12, sign-extended. -/
  | auipc (d : BitVec 5) (i : BitVec 20)
  /-- JAL (R208): Writes PC+4 to xd and jumps by 4 × imm20. -/
  | jal (d : BitVec 5) (i : BitVec 20)
  /-- JALR (R208): Jumps to xa + imm15 after checking alignment and range, and writes PC+4 to xd. -/
  | jalr (d : BitVec 5) (a : BitVec 5) (i : BitVec 15)
  /-- BEQ (R207): Branches when xa equals xb. -/
  | beq (a : BitVec 5) (b : BitVec 5) (i : BitVec 15)
  /-- BNE (R207): Branches when xa differs from xb. -/
  | bne (a : BitVec 5) (b : BitVec 5) (i : BitVec 15)
  /-- BLT (R207): Branches when xa < xb as signed values. -/
  | blt (a : BitVec 5) (b : BitVec 5) (i : BitVec 15)
  /-- BGE (R207): Branches when xa >= xb as signed values. -/
  | bge (a : BitVec 5) (b : BitVec 5) (i : BitVec 15)
  /-- BLTU (R207): Branches when xa < xb as unsigned values. -/
  | bltu (a : BitVec 5) (b : BitVec 5) (i : BitVec 15)
  /-- BGEU (R207): Branches when xa >= xb as unsigned values. -/
  | bgeu (a : BitVec 5) (b : BitVec 5) (i : BitVec 15)
  /-- LB (R209): Loads a sign-extended byte. -/
  | lb (d : BitVec 5) (a : BitVec 5) (r : BitVec 2) (i : BitVec 13)
  /-- LH (R209): Loads a sign-extended half. -/
  | lh (d : BitVec 5) (a : BitVec 5) (r : BitVec 2) (i : BitVec 13)
  /-- LW (R209): Loads a sign-extended word. -/
  | lw (d : BitVec 5) (a : BitVec 5) (r : BitVec 2) (i : BitVec 13)
  /-- LD (R209): Loads a dword. -/
  | ld (d : BitVec 5) (a : BitVec 5) (r : BitVec 2) (i : BitVec 13)
  /-- LBU (R209): Loads a zero-extended byte. -/
  | lbu (d : BitVec 5) (a : BitVec 5) (r : BitVec 2) (i : BitVec 13)
  /-- LHU (R209): Loads a zero-extended half. -/
  | lhu (d : BitVec 5) (a : BitVec 5) (r : BitVec 2) (i : BitVec 13)
  /-- LWU (R209): Loads a zero-extended word. -/
  | lwu (d : BitVec 5) (a : BitVec 5) (r : BitVec 2) (i : BitVec 13)
  /-- LDACQ (R210): Loads a dword and then performs the acquire actions of its scope. -/
  | ldacq (d : BitVec 5) (a : BitVec 5) (r : BitVec 2) (o : BitVec 10) (s : BitVec 2)
  /-- SB (R209): Stores the low byte of xb. -/
  | sb (b : BitVec 5) (a : BitVec 5) (i : BitVec 15)
  /-- SH (R209): Stores the low half of xb. -/
  | sh (b : BitVec 5) (a : BitVec 5) (i : BitVec 15)
  /-- SW (R209): Stores the low word of xb. -/
  | sw (b : BitVec 5) (a : BitVec 5) (i : BitVec 15)
  /-- SD (R209): Stores the dword xb. -/
  | sd (b : BitVec 5) (a : BitVec 5) (i : BitVec 15)
  /-- SDREL (R210): Performs the release actions of its scope and then stores a dword. -/
  | sdrel (b : BitVec 5) (a : BitVec 5) (o : BitVec 12) (s : BitVec 2)
  /-- LDREF (R211): Loads a word when its tag is set and 0 otherwise, as an acquire when AQ is set. -/
  | ldref (d : BitVec 5) (a : BitVec 5) (r : BitVec 2) (o : BitVec 10) (q : BitVec 1) (s : BitVec 2)
  /-- SDREF (R212): Stores a reference into a container field after the escape check, and sets the field's tag. -/
  | sdref (b : BitVec 5) (a : BitVec 5) (o : BitVec 12)
  /-- SPUB (R213): Checks the container's scope, forks a publication walk, and stores the reference when the walk ends. -/
  | spub (b : BitVec 5) (a : BitVec 5) (o : BitVec 12) (s : BitVec 2)
  /-- RTAG (R215): Reads the tag of an 8-byte word. -/
  | rtag (d : BitVec 5) (a : BitVec 5) (i : BitVec 15)
  /-- OBJINIT (R216): Writes an object header with PSCOPE 0 and clears the tags of the object's words. -/
  | objinit (s : BitVec 5) (a : BitVec 5) (i : BitVec 15)
  /-- AMOADD (R217): Adds xb to a dword indivisibly and returns the old value. -/
  | amoadd (d : BitVec 5) (a : BitVec 5) (b : BitVec 5) (m : BitVec 1) (l : BitVec 1) (q : BitVec 1) (s : BitVec 2)
  /-- AMOSWAP (R217): Swaps xb into a dword indivisibly and returns the old value. -/
  | amoswap (d : BitVec 5) (a : BitVec 5) (b : BitVec 5) (m : BitVec 1) (l : BitVec 1) (q : BitVec 1) (s : BitVec 2)
  /-- AMOCAS (R217): Writes xb when the old value equals xd, and returns the old value. -/
  | amocas (d : BitVec 5) (a : BitVec 5) (b : BitVec 5) (m : BitVec 1) (l : BitVec 1) (q : BitVec 1) (s : BitVec 2)
  /-- AMOMIN (R217): Writes the signed minimum of the dword and xb indivisibly. -/
  | amomin (d : BitVec 5) (a : BitVec 5) (b : BitVec 5) (m : BitVec 1) (l : BitVec 1) (q : BitVec 1) (s : BitVec 2)
  /-- AMOMAX (R217): Writes the signed maximum of the dword and xb indivisibly. -/
  | amomax (d : BitVec 5) (a : BitVec 5) (b : BitVec 5) (m : BitVec 1) (l : BitVec 1) (q : BitVec 1) (s : BitVec 2)
  /-- AMOMINU (R217): Writes the unsigned minimum of the dword and xb indivisibly. -/
  | amominu (d : BitVec 5) (a : BitVec 5) (b : BitVec 5) (m : BitVec 1) (l : BitVec 1) (q : BitVec 1) (s : BitVec 2)
  /-- AMOMAXU (R217): Writes the unsigned maximum of the dword and xb indivisibly. -/
  | amomaxu (d : BitVec 5) (a : BitVec 5) (b : BitVec 5) (m : BitVec 1) (l : BitVec 1) (q : BitVec 1) (s : BitVec 2)
  /-- AMOAND (R217): ANDs xb into a dword indivisibly. -/
  | amoand (d : BitVec 5) (a : BitVec 5) (b : BitVec 5) (m : BitVec 1) (l : BitVec 1) (q : BitVec 1) (s : BitVec 2)
  /-- AMOOR (R217): ORs xb into a dword indivisibly. -/
  | amoor (d : BitVec 5) (a : BitVec 5) (b : BitVec 5) (m : BitVec 1) (l : BitVec 1) (q : BitVec 1) (s : BitVec 2)
  /-- AMOXOR (R217): XORs xb into a dword indivisibly. -/
  | amoxor (d : BitVec 5) (a : BitVec 5) (b : BitVec 5) (m : BitVec 1) (l : BitVec 1) (q : BitVec 1) (s : BitVec 2)
  /-- ALRB (R219): Opens an atomic line region, whose body is gathered and shipped to the line's home. -/
  | alrb
  /-- ALRE (R219): Closes an atomic line region and writes the registers returned by the home, with the encoded class and scope. -/
  | alre (l : BitVec 1) (q : BitVec 1) (s : BitVec 2)
  /-- FENCE (R147): Orders the accesses of its kind at its scope, with markers in all eight planes for die scope or wider. -/
  | fence (k : BitVec 3) (s : BitVec 2)
  /-- VDRAIN (R222): Waits until every older vector memory element has performed at core scope. -/
  | vdrain
  /-- BINIT (R225): Binds a barrier register to a barrier object of the hart's league. -/
  | binit (n : BitVec 3)
  /-- BARR (R225): Arrives at a barrier phase with release, and returns the phase number. -/
  | barr (d : BitVec 5) (n : BitVec 3)
  /-- BWAIT (R225): Waits until a barrier phase completes, and commits as an acquire. -/
  | bwait (a : BitVec 5) (n : BitVec 3)
  /-- LJOIN (R42): Asks to join a league and writes a status. -/
  | ljoin (d : BitVec 5) (a : BitVec 5)
  /-- LLEAVE (R43): Leaves the league, counts the hart's pending arrivals and unbinds its barrier registers. -/
  | lleave
  /-- WAITC (R223): Waits until a completion register reaches its target, and joins the engine operations it counts. -/
  | waitc (d : BitVec 5) (a : BitVec 5) (k : BitVec 4)
  /-- SPALLOC (R226): Pins and zero-fills one scratchpad line, and writes a status. -/
  | spalloc (d : BitVec 5) (a : BitVec 5)
  /-- SPFREE (R226): Unpins a scratchpad line of the hart and discards its contents. -/
  | spfree (a : BitVec 5)
  /-- ECALL (R227): Raises cause 0x12. -/
  | ecall
  /-- EBREAK (R227): Raises cause 0x11. -/
  | ebreak
  /-- ERET (R369): Leaves the handler and resumes at EPC and ELEMSTART. -/
  | eret
  /-- WFI (R227): Makes the hart not ready until a k register changes, a barrier phase completes or 1024 cc pass. -/
  | wfi
  /-- YIELD (R227): Lets the dispatcher pre-empt the hart when a waiting hart of equal or higher class would fit. -/
  | yield
  /-- HALT (R227): Waits for pending wait points and then retires the hart. -/
  | halt
  /-- CSRR (R228): Reads a CSR. -/
  | csrr (d : BitVec 5) (c : BitVec 12)
  /-- CSRW (R228): Writes a CSR and returns its old value. -/
  | csrw (d : BitVec 5) (a : BitVec 5) (c : BitVec 12)
  /-- CSRS (R228): Sets bits of a CSR and returns its old value. -/
  | csrs (d : BitVec 5) (a : BitVec 5) (c : BitVec 12)
  /-- CSRC (R228): Clears bits of a CSR and returns its old value. -/
  | csrc (d : BitVec 5) (a : BitVec 5) (c : BitVec 12)
  /-- VSETL (R236): Sets vl and, when furlongs are rewindable, opens a new furlong with a snapshot. -/
  | vsetl (d : BitVec 5) (a : BitVec 5) (b : BitVec 5)
  /-- VDECL (R241): Changes the hart's declared register count when room allows. -/
  | vdecl (d : BitVec 5) (a : BitVec 5)
  /-- VMODE (R242): Writes a mode register and returns its old value. -/
  | vmode (m : BitVec 2) (d : BitVec 5) (a : BitVec 5)
  /-- IXSET (R243): Writes the BASE, BOUND and CUR fields of an index register. -/
  | ixset (n : BitVec 4) (a : BitVec 5) (d : BitVec 5)
  /-- IXBND (R243): Writes the BOUND field of an index register. -/
  | ixbnd (n : BitVec 4) (a : BitVec 5) (d : BitVec 5)
  /-- IXSTEP (R243): Writes the STEP field of an index register. -/
  | ixstep (n : BitVec 4) (a : BitVec 5) (d : BitVec 5)
  /-- IXLANE (R243): Writes the LVEC and LANE fields of an index register. -/
  | ixlane (n : BitVec 4) (a : BitVec 5) (d : BitVec 5)
  /-- VMVX (R244): Moves one vector element to a scalar register. -/
  | vmvx (m : BitVec 2) (d : BitVec 5) (v : BitVec 6) (b : BitVec 5)
  /-- VMVV (R244): Copies a vector register under the guard. -/
  | vmvv (m : BitVec 2) (d : BitVec 6) (a : BitVec 6)
  /-- VADD (R245): Element-wise add. -/
  | vadd (m : BitVec 2) (d : BitVec 6) (a : BitVec 6) (b : BitVec 6)
  /-- VSUB (R245): Element-wise subtract. -/
  | vsub (m : BitVec 2) (d : BitVec 6) (a : BitVec 6) (b : BitVec 6)
  /-- VMUL (R245): Element-wise multiply. -/
  | vmul (m : BitVec 2) (d : BitVec 6) (a : BitVec 6) (b : BitVec 6)
  /-- VMAC (R245): Element-wise fused multiply-add into vd. -/
  | vmac (m : BitVec 2) (d : BitVec 6) (a : BitVec 6) (b : BitVec 6)
  /-- VNMAC (R245): Element-wise fused multiply-subtract from vd. -/
  | vnmac (m : BitVec 2) (d : BitVec 6) (a : BitVec 6) (b : BitVec 6)
  /-- VMIN (R246): Element-wise minimum. -/
  | vmin (m : BitVec 2) (d : BitVec 6) (a : BitVec 6) (b : BitVec 6)
  /-- VMAX (R246): Element-wise maximum. -/
  | vmax (m : BitVec 2) (d : BitVec 6) (a : BitVec 6) (b : BitVec 6)
  /-- VABS (R245): Element-wise absolute value. -/
  | vabs (m : BitVec 2) (d : BitVec 6) (a : BitVec 6)
  /-- VNEG (R245): Element-wise negation. -/
  | vneg (m : BitVec 2) (d : BitVec 6) (a : BitVec 6)
  /-- VAND (R245): Element-wise bitwise AND. -/
  | vand (m : BitVec 2) (d : BitVec 6) (a : BitVec 6) (b : BitVec 6)
  /-- VOR (R245): Element-wise bitwise OR. -/
  | vor (m : BitVec 2) (d : BitVec 6) (a : BitVec 6) (b : BitVec 6)
  /-- VXOR (R245): Element-wise bitwise XOR. -/
  | vxor (m : BitVec 2) (d : BitVec 6) (a : BitVec 6) (b : BitVec 6)
  /-- VSLL (R245): Element-wise shift left. -/
  | vsll (m : BitVec 2) (d : BitVec 6) (a : BitVec 6) (b : BitVec 6)
  /-- VSRL (R245): Element-wise logical shift right. -/
  | vsrl (m : BitVec 2) (d : BitVec 6) (a : BitVec 6) (b : BitVec 6)
  /-- VSRA (R245): Element-wise arithmetic shift right. -/
  | vsra (m : BitVec 2) (d : BitVec 6) (a : BitVec 6) (b : BitVec 6)
  /-- VCMPEQ (R246): Writes an equality compare into a mask register. -/
  | vcmpeq (m : BitVec 2) (d : BitVec 6) (a : BitVec 6) (b : BitVec 6)
  /-- VCMPNE (R246): Writes an inequality compare into a mask register. -/
  | vcmpne (m : BitVec 2) (d : BitVec 6) (a : BitVec 6) (b : BitVec 6)
  /-- VCMPLT (R246): Writes a less-than compare into a mask register. -/
  | vcmplt (m : BitVec 2) (d : BitVec 6) (a : BitVec 6) (b : BitVec 6)
  /-- VCMPLE (R246): Writes a less-or-equal compare into a mask register. -/
  | vcmple (m : BitVec 2) (d : BitVec 6) (a : BitVec 6) (b : BitVec 6)
  /-- VMERGE (R247): Selects between va and vb by the guard. -/
  | vmerge (m : BitVec 2) (d : BitVec 6) (a : BitVec 6) (b : BitVec 6)
  /-- VDIV (R245): Element-wise divide. -/
  | vdiv (m : BitVec 2) (d : BitVec 6) (a : BitVec 6) (b : BitVec 6)
  /-- VSQRT (R248): Correctly rounded square root. -/
  | vsqrt (m : BitVec 2) (d : BitVec 6) (a : BitVec 6)
  /-- VRCP (R248): Correctly rounded reciprocal. -/
  | vrcp (m : BitVec 2) (d : BitVec 6) (a : BitVec 6)
  /-- VRSQ (R248): Correctly rounded reciprocal square root. -/
  | vrsq (m : BitVec 2) (d : BitVec 6) (a : BitVec 6)
  /-- VEXP2 (R248): Correctly rounded power of two. -/
  | vexp2 (m : BitVec 2) (d : BitVec 6) (a : BitVec 6)
  /-- VLOG2 (R248): Correctly rounded base-2 logarithm. -/
  | vlog2 (m : BitVec 2) (d : BitVec 6) (a : BitVec 6)
  /-- VCLASS (R249): Writes the class bits of each float element. -/
  | vclass (m : BitVec 2) (d : BitVec 6) (a : BitVec 6)
  /-- VCONJ (R250): Negates the odd elements of interleaved complex data. -/
  | vconj (m : BitVec 2) (d : BitVec 6) (a : BitVec 6)
  /-- VCVT (R252): Converts elements from the source type to md.ETYPE. -/
  | vcvt (m : BitVec 2) (d : BitVec 6) (a : BitVec 6) (t : BitVec 4)
  /-- VQNT (R253): Quantises to e2m1 codes with e8m0 block scales. -/
  | vqnt (m : BitVec 2) (d : BitVec 6) (a : BitVec 6) (b : BitVec 6)
  /-- VDQNT (R254): Dequantises e2m1 codes with block scales. -/
  | vdqnt (m : BitVec 2) (d : BitVec 6) (a : BitVec 6) (b : BitVec 6)
  /-- VQI8 (R255): Quantises float activations to i8 with a zero point, saturating. -/
  | vqi8 (m : BitVec 2) (d : BitVec 6) (a : BitVec 6) (b : BitVec 6)
  /-- VSHRR (R256): Rounding right shift of integer elements. -/
  | vshrr (m : BitVec 2) (d : BitVec 6) (a : BitVec 6) (b : BitVec 6)
  /-- VREDSUM (R257): Sums active elements along the fixed tree into element 0. -/
  | vredsum (m : BitVec 2) (d : BitVec 6) (a : BitVec 6)
  /-- VREDMAX (R257): Maximum reduction. -/
  | vredmax (m : BitVec 2) (d : BitVec 6) (a : BitVec 6)
  /-- VREDMIN (R257): Minimum reduction. -/
  | vredmin (m : BitVec 2) (d : BitVec 6) (a : BitVec 6)
  /-- VREDAND (R257): Bitwise AND reduction. -/
  | vredand (m : BitVec 2) (d : BitVec 6) (a : BitVec 6)
  /-- VREDOR (R257): Bitwise OR reduction. -/
  | vredor (m : BitVec 2) (d : BitVec 6) (a : BitVec 6)
  /-- VSCANSUM (R258): Prefix sum along the tree of R107. -/
  | vscansum (m : BitVec 2) (d : BitVec 6) (a : BitVec 6)
  /-- VSLIDEUP (R259): Slides elements up by k. -/
  | vslideup (m : BitVec 2) (d : BitVec 6) (a : BitVec 6) (b : BitVec 5)
  /-- VSLIDEDN (R259): Slides elements down by k. -/
  | vslidedn (m : BitVec 2) (d : BitVec 6) (a : BitVec 6) (b : BitVec 5)
  /-- VGATHR (R259): Gathers elements of va by the indices in vb. -/
  | vgathr (m : BitVec 2) (d : BitVec 6) (a : BitVec 6) (b : BitVec 6)
  /-- VCOMPRESS (R260): Packs the active elements to the front of vd. -/
  | vcompress (m : BitVec 2) (d : BitVec 6) (a : BitVec 6)
  /-- VEXPAND (R259): Spreads consecutive elements onto the active positions. -/
  | vexpand (m : BitVec 2) (d : BitVec 6) (a : BitVec 6)
  /-- VBCAST (R259): Broadcasts a scalar register into every active element. -/
  | vbcast (m : BitVec 2) (d : BitVec 6) (a : BitVec 5)
  /-- VIOTA (R259): Writes the count of active elements below each element. -/
  | viota (m : BitVec 2) (d : BitVec 6)
  /-- MAND (R261): Bitwise AND of masks. -/
  | mand (m : BitVec 2) (d : BitVec 6) (a : BitVec 6) (b : BitVec 6)
  /-- MOR (R261): Bitwise OR of masks. -/
  | mor (m : BitVec 2) (d : BitVec 6) (a : BitVec 6) (b : BitVec 6)
  /-- MXOR (R261): Bitwise XOR of masks. -/
  | mxor (m : BitVec 2) (d : BitVec 6) (a : BitVec 6) (b : BitVec 6)
  /-- MNOT (R261): Bitwise NOT of a mask. -/
  | mnot (m : BitVec 2) (d : BitVec 6) (a : BitVec 6)
  /-- MPOP (R261): Counts the set mask bits below vl into xd. -/
  | mpop (m : BitVec 2) (d : BitVec 5) (a : BitVec 6)
  /-- MFIRST (R261): Writes the index of the lowest set mask bit below vl. -/
  | mfirst (m : BitVec 2) (d : BitVec 5) (a : BitVec 6)
  /-- MSETVL (R261): Shortens vl to end at the first set mask bit. -/
  | msetvl (m : BitVec 2) (d : BitVec 5) (a : BitVec 6)
  /-- VLD (R262): Unit-stride vector load. -/
  | vld (m : BitVec 2) (d : BitVec 6) (a : BitVec 5) (r : BitVec 2)
  /-- VLDS (R262): Strided vector load. -/
  | vlds (m : BitVec 2) (d : BitVec 6) (a : BitVec 5) (b : BitVec 5) (r : BitVec 2)
  /-- VLDG (R262): Gather vector load. -/
  | vldg (m : BitVec 2) (d : BitVec 6) (a : BitVec 5) (i : BitVec 6) (r : BitVec 2)
  /-- VLDSEG (R262): Segment vector load into consecutive registers. -/
  | vldseg (m : BitVec 2) (d : BitVec 6) (a : BitVec 5) (n : BitVec 3) (r : BitVec 2)
  /-- VST (R262): Unit-stride vector store. -/
  | vst (m : BitVec 2) (d : BitVec 6) (a : BitVec 5)
  /-- VSTS (R262): Strided vector store. -/
  | vsts (m : BitVec 2) (d : BitVec 6) (a : BitVec 5) (b : BitVec 5)
  /-- VSTSC (R262): Scatter vector store. -/
  | vstsc (m : BitVec 2) (d : BitVec 6) (a : BitVec 5) (i : BitVec 6)
  /-- VSTSEG (R262): Segment vector store from consecutive registers. -/
  | vstseg (m : BitVec 2) (d : BitVec 6) (a : BitVec 5) (n : BitVec 3)
  /-- MMODE (R303): Sets MTYPE and NT and allocates zeroed tiles. -/
  | mmode (d : BitVec 5) (a : BitVec 5)
  /-- OPA (R304): Accumulates an outer product into a tile, optionally negating either operand. -/
  | opa (m : BitVec 2) (y : BitVec 1) (x : BitVec 1) (n : BitVec 3) (a : BitVec 6) (b : BitVec 6)
  /-- AZERO (R305): Zeroes a tile. -/
  | azero (n : BitVec 3)
  /-- ACLD (R306): Loads tile elements from strided memory. -/
  | acld (n : BitVec 3) (a : BitVec 5) (b : BitVec 5)
  /-- ACRD (R307): Reads a tile row or column into a vector register. -/
  | acrd (m : BitVec 2) (n : BitVec 3) (d : BitVec 6) (c : BitVec 1) (b : BitVec 5)
  /-- ACST (R308): Stores a tile through the scale, activation and conversion epilogue. -/
  | acst (m : BitVec 2) (n : BitVec 3) (a : BitVec 5) (c : BitVec 5)
  /-- MEXIT (R303): Releases every tile of the hart. -/
  | mexit
  /-- CBLD (R280): Loads the codebook of every bank of a set. -/
  | cbld (k : BitVec 4) (m : BitVec 3) (p : BitVec 1) (a : BitVec 5)
  /-- TBLD (R281): Fixes a table shape and builds the pecks of every bank of a set. -/
  | tbld (m : BitVec 2) (f : BitVec 1) (d : BitVec 5) (v : BitVec 6) (c : BitVec 5)
  /-- LKA (R282): Runs a lookup run in every bank of a set. -/
  | lka (k : BitVec 4) (m : BitVec 3) (a : BitVec 5)
  /-- NBSET (R279): Checks and writes a bank-set register, and returns a status. -/
  | nbset (d : BitVec 5) (m : BitVec 3) (a : BitVec 5)
  /-- NBLD (R283): Loads a microprogram into every bank of a set. -/
  | nbld (k : BitVec 4) (m : BitVec 3) (a : BitVec 5)
  /-- NBRUN (R284): Starts the microprogram of every bank of a set from a run block. -/
  | nbrun (k : BitVec 4) (m : BitVec 3) (a : BitVec 5)
  /-- NBSTAT (R285): Samples, and optionally clears, the status of a bank set. -/
  | nbstat (d : BitVec 5) (m : BitVec 3) (c : BitVec 1)
  /-- NBDRAIN (R286): Drains accumulators through the reduction unit to memory or a stream. -/
  | nbdrain (s : BitVec 1) (c : BitVec 5) (m : BitVec 3) (a : BitVec 5)
  /-- TCOPY (R311): Issues a tile copy, optionally transposing and conjugating. -/
  | tcopy (k : BitVec 4) (s : BitVec 5)
  /-- TSTAT (R314): Reads, and optionally clears, the copy fault record. -/
  | tstat (d : BitVec 5) (s : BitVec 2) (c : BitVec 1)
  /-- POOL_MARKER (R186): Executing a pool marker raises cause 0x02. -/
  | poolMarker (n : BitVec 25)
  /-- REND (R290): Ends the run in this bank. -/
  | rend
  /-- RACT (R289): Latches a row. -/
  | ract (n : BitVec 2) (i : BitVec 1)
  /-- RADD (R289): Adds the latch into a row with saturation. -/
  | radd (n : BitVec 2) (i : BitVec 1) (w : BitVec 2)
  /-- RSHADD (R289): Adds the shifted and optionally negated latch into a row. -/
  | rshadd (n : BitVec 2) (i : BitVec 1) (w : BitVec 2) (s : BitVec 4) (g : BitVec 1)
  /-- RCOPY (R289): Writes the latch to a row. -/
  | rcopy (n : BitVec 2) (i : BitVec 1)
  /-- RCLR (R289): Clears a row. -/
  | rclr (n : BitVec 2) (i : BitVec 1)
  /-- RACC (R289): Adds the elements of a row into accumulators. -/
  | racc (n : BitVec 2) (i : BitVec 1) (w : BitVec 2)
  /-- RLKA (R289): Runs a lookup run over the accesses of a row. -/
  | rlka (n : BitVec 2) (i : BitVec 1)
  /-- RBR (R290): Branches the microprogram. -/
  | rbr (t : BitVec 6)
  /-- RLOOP (R290): Decrements a loop counter and branches while it is not zero. -/
  | rloop (c : BitVec 1) (t : BitVec 6)
  /-- RSYNC (R290): Marks a sync point, which is counted on the completion register. -/
  | rsync
  /-- POWER_GOOD (R332): Terak starts from ROM, reads fuses, applies repairs and verifies the stack-manager image. -/
  | powerGood (img : BootImage)
  /-- STACK_MANAGERS_READY (R332): All stack managers report ready and Terak verifies and releases the front ends. -/
  | stackManagersReady (img : BootImage)
  /-- ORDINARY_REQUEST_DATA_MOVED (R294): An ordinary bank request's data have moved, so it completes and the controller may start the next pending request. -/
  | ordinaryRequestDataMoved (bank : Nat)
  /-- NOTIFY_WRITE (R55): An 8-byte write to a slot's notify register advances WRITEIDX and may request mapping. -/
  | notifyWrite (die slot bytes : Nat) (value : Word) (writer : Option Nat)
  /-- QUEUE_MAP (R56): The front end installs a queue in a slot and reads its WRITEIDX. -/
  | queueMap (die qid : Nat)
  /-- QUEUE_IDLE_TIMEOUT (R56): A queue idle for 20 µs is unmapped. -/
  | queueIdleTimeout (die slot : Nat)
  /-- PACKET_ENTER_WINDOW (R62): The front end reads the next packet into the queue's window. -/
  | packetEnterWindow (die slot : Nat)
  /-- PACKET_LAUNCH (R62): A window entry whose wait is satisfied launches. -/
  | packetLaunch (die slot : Nat)
  /-- PACKET_COMPLETE (R62): A LAUNCH packet whose harts have all retired completes, changes tokens and writes its completion word. -/
  | packetComplete (die slot idx : Nat)
  /-- DISPATCH (R65): The dispatcher places waiting harts on cores that fit them. -/
  | dispatch (die : Nat)
  /-- PRIORITY_PREEMPT_TIMEOUT (R66): A hart waiting 50 µs causes lower-class harts to be pre-empted. -/
  | priorityPreemptTimeout (who : WaitingHart)
  /-- HART_PREEMPT (R38): A hart is stopped at a boundary and its state is saved. -/
  | hartPreempt (uid : Nat)
  /-- HART_PROMOTION (R70): A ready hart left unissued for 64 cycles becomes promoted. -/
  | hartPromotion (uid : Nat)
  /-- VRF_BANK_DROWSY (R31): A register-file bank without access for 2048 cc becomes drowsy. -/
  | vrfBankDrowsy (die core bank : Nat)
  /-- VRF_REFRESH_STEP (R31): A register-file bank runs its own refresh step. -/
  | vrfRefreshStep (die core bank : Nat)
  /-- WFI_TIMEOUT (R227): 1024 cc pass and a WFI commits. -/
  | wfiTimeout (uid : Nat)
  /-- KERNEL_WATCHDOG_EXPIRY (R377): RUNCOUNT reaches WDLIMIT and cause 0x10 is taken. -/
  | kernelWatchdogExpiry (uid : Nat)
  /-- WATCHDOG_GRACE_EXPIRY (R377): RUNCOUNT reaches WDLIMIT + 65,536 and the hart ends. -/
  | watchdogGraceExpiry (uid : Nat)
  /-- TRAP_ENTRY (R365): The oldest instruction's cause is taken: HM is set, the position and fault registers are written and PC becomes TVEC. -/
  | trapEntry (uid : Nat) (vals : FaultVals)
  /-- PAGE_FAULT_SERVICE (R373): The pager takes a fault message and makes the pages resident. -/
  | pageFaultService (uid : Nat) (entries : List (Nat × Word)) (backingOk : Bool)
  /-- FURLONG_COMMIT (R238): A furlong's buffered stores enter the write-through buffer once its older instructions commit. -/
  | furlongCommit (uid : Nat)
  /-- FURLONG_REWIND (R395): A consumption of poison inside a rewindable furlong restores the snapshot and restarts at the VSETL. -/
  | furlongRewind (uid : Nat)
  /-- JOB_END_BY_ERROR (R355): The front end stops the job, fails its queues with 0x06, writes the job-end record and scrubs. -/
  | jobEndByError (asid uid : Nat)
  /-- MEMORY_FRONT_REQUEST (R115): A request that misses or bypasses L2 is translated at its memory front and sent to its home. -/
  | memoryFrontRequest (die asid : Nat) (va : Word) (acc : Access)
  /-- BLOOM_SLICE_CLEAR (R135): A filter slice reaches 65,536 misses and is cleared. -/
  | bloomSliceClear (stack slice : Nat)
  /-- ATOMIC_AT_HOME (R153): An atomic performs at its home L2 slice or memory-side unit after recalling checkouts. -/
  | atomicAtHome (pa : Nat) (op : BitVec 4) (operand expected : Word) (memSide : Bool)
  /-- REGION_AT_HOME (R219): A shipped region body runs indivisibly against its line at the home. -/
  | regionAtHome (uid : Nat)
  /-- WALK_START (R162): A forked walk obtains a walk slot and starts. -/
  | walkStart (id : Nat)
  /-- WALK_OBJECT_VISIT (R159): The walk visits an object header indivisibly and widens and marks it. -/
  | walkObjectVisit (id : Nat)
  /-- WALK_COMPLETE (R159): The walk ends and the SPUB's store performs with release. -/
  | walkComplete (id : Nat)
  /-- BANK_COMMAND_START (R275): A bank starts the next command of its queue. -/
  | bankCommandStart (bank : Nat)
  /-- BANK_COMMAND_COMPLETE (R277): Every bank of a set has finished a command and kN is incremented. -/
  | bankCommandComplete (cmd : Nat)
  /-- REDUCTION_DRAIN (R287): The reduction unit sums the accumulators across the set and delivers or writes each column. -/
  | reductionDrain (cmd : Nat)
  /-- ROW_OPERATION_END (R294): At the end of a row operation the controller starts the next or suspends the engine. -/
  | rowOperationEnd (bank : Nat)
  /-- BANK_ORDINARY_REQUEST (R292): An uncached bank-linear request becomes pending at its bank. -/
  | bankOrdinaryRequest (bank : Nat) (req : OrdReq)
  /-- SUSPENSION_WINDOW_END (R294): The 200 ns or 16-request window ends, and the engine resumes after a precharge. -/
  | suspensionWindowEnd (bank : Nat)
  /-- ARBITRATION_WINDOW_BOUNDARY (R20): A 1024-ec window ends and the stack's arbitration fractions apply anew. -/
  | arbitrationWindowBoundary (stack : Nat)
  /-- POWER_BUDGET_EXCEEDED (R343): A consumer's draw over 1 ms exceeds its budget and cycles are withheld. -/
  | powerBudgetExceeded (who : Consumer)
  /-- MATRIX_OPERATION (R301): The matrix unit performs a hart's next queued matrix operation. -/
  | matrixOperation (uid : Nat)
  /-- TCOPY_ROW (R311): The tile-copy engine reads and writes one source row. -/
  | tcopyRow (id : Nat)
  /-- TCOPY_COMPLETE (R312): The last row is written and kN is incremented. -/
  | tcopyComplete (id : Nat)
  /-- TCOPY_STOP (R313): A copy stops at a row and fills the copy fault record. -/
  | tcopyStop (id : Nat) (cause : BitVec 8) (va : Word)
  /-- ERROR_BANK_EVENT (R347): A detected error increments a counter and updates the bank's record. -/
  | errorBankEvent (bankId : BitVec 32) (ev : ErrEvent)
  /-- ERROR_BANK_READ_AND_CLEAR (R348): Firmware takes a bank's record and clears V and OVFCOUNT. -/
  | errorBankReadAndClear (bankId : BitVec 32) (act : BitVec 16)
  /-- ERROR_COUNT_WINDOW_END (R357): A 24-hour counting window ends and the event counts restart. -/
  | errorCountWindowEnd (bankId : BitVec 32)
  /-- COMPLETION_TIMEOUT (R356): A remote read, atomic or region without completion in 50 µs completes with poison. -/
  | completionTimeout (key : StreamKey) (eseq : BitVec 20)
  /-- POSTED_WRITE_TIMEOUT (R356): A posted write unacknowledged in 50 µs is class 3 and ends the writer's job. -/
  | postedWriteTimeout (key : StreamKey) (eseq : BitVec 20)
  /-- PCIE_ATOMICOP_COMPLETION (R326): An AtomicOp completion returns and completes the AMO, poisoned if its status is not Successful. -/
  | pcieAtomicopCompletion (uid : Nat) (ok : Bool) (old : Word)
  /-- REPAIR_COMMIT (R359): Terak writes a repair record to its persistent log. -/
  | repairCommit (idx : Nat)
  /-- CORE_REPLACE (R358): A core's harts are pre-empted and its logical number is given to a spare. -/
  | coreReplace (die core : Nat)
  /-- ROW_SPARE_COPY (R386): A retired row is copied to a spare row at a row boundary. -/
  | rowSpareCopy (bank row : Nat)
  /-- CHANNEL_COPY (R387): A column, bank or channel is copied to its target and remapped. -/
  | channelCopy (part : Part) (target : Nat)
  /-- CACHE_ROW_SPARE (R388): A cache-die row is spared, or its tag ways are disabled. -/
  | cacheRowSpare (stack row : Nat)
  /-- SCRUB_READ (R385): The stack manager reads and corrects a granule in its daily scrub. -/
  | scrubRead (granule : Nat) (found : ScrubFound)
  /-- SRAM_RAIL_CHANGE (R383): The power controller moves the SRAM rail across VT and switches the L2 mode. -/
  | sramRailChange (die : Nat) (below : Bool)
  /-- FLIT_RECEIVE (R397): A boundary flit is checked, accepted or discarded, and ACK and NAK are processed. -/
  | flitReceive (m : ModuleId) (flit : Flit)
  /-- NUL_FLIT_TIMER (R397): An idle direction sends a NUL flit every 16 flit times. -/
  | nulFlitTimer (m : ModuleId)
  /-- LANE_LOCK_LOSS (R399): The physical layer loses lock on a lane and the module retrains. -/
  | laneLockLoss (m : ModuleId)
  /-- MODULE_RETRAIN_END (R399): The lane test ends and the module runs at x64, at x32 or is retired. -/
  | moduleRetrainEnd (m : ModuleId) (test : LaneTest)
  /-- FONAK_READ (R404): A read transaction is accepted at its destination and performed. -/
  | fonakRead (req : FonakReq)
  /-- FONAK_POSTED_WRITE (R404): A posted write with byte mask performs once at its home. -/
  | fonakPostedWrite (req : FonakReq)
  /-- FONAK_ATOMIC (R404): An atomic transaction performs once, or its recorded completion is returned. -/
  | fonakAtomic (req : FonakReq)
  /-- FONAK_REGION (R404): A region transaction performs once, or its recorded completion is returned. -/
  | fonakRegion (req : FonakReq)
  /-- FONAK_FENCE_MARKER (R147): A fence marker is acknowledged once the plane's earlier requests have performed. -/
  | fonakFenceMarker (req : FonakReq)
  /-- FONAK_INTERRUPT (R328): An interrupt transaction is delivered. -/
  | fonakInterrupt (req : FonakReq)
  /-- FONAK_CHECKOUT (R129): The home copies a line into a twin and returns it to the writer. -/
  | fonakCheckout (req : FonakReq)
  /-- FONAK_CHECK_IN (R129): The home writes the bytes that differ from the twin and frees the twin. -/
  | fonakCheckIn (req : FonakReq)
  /-- FONAK_RECALL (R130): The writer's L2 checks a recalled line in. -/
  | fonakRecall (req : FonakReq)
  /-- FONAK_COMPLETION (R404): A completion with or without data reaches its source or is discarded as stale. -/
  | fonakCompletion (fin : FonakDone)
  /-- FONAK_MULTICAST_WRITE (R330): A member performs a multicast write at MCBASE + 8i. -/
  | fonakMulticastWrite (req : FonakReq) (group : Nat)
  /-- ESEQ_GAP_TIMEOUT (R403): A gap open for 2 µs makes the destination send a resend request. -/
  | eseqGapTimeout (key : StreamKey)
  /-- RESEND_REQUEST (R403): The source resends every outstanding request of the stream from the named ESEQ. -/
  | resendRequest (key : StreamKey) (eseq : BitVec 20)
  /-- ROUTER_CREDIT_TIMEOUT (R408): A router returning no credit for 10 µs is declared dead. -/
  | routerCreditTimeout (plane x y : Nat)
  /-- PLANE_DEAD (R410): A plane is declared dead, logged and reported to the coordinator. -/
  | planeDead (plane : Nat)
  /-- PLANE_QUIESCE (R411): Requesters stop starting plane transactions. -/
  | planeQuiesce (plane : Nat)
  /-- PLANE_DRAIN_COMPLETE (R411): Live planes have drained, dead-plane requests are marked and the device reports. -/
  | planeDrainComplete (plane : Nat)
  /-- PLANE_REMAP (R412): PLANEMAP is rewritten, moving the dead plane's buckets onto the live ones. -/
  | planeRemap (plane : Nat)
  /-- PLANE_RESUME (R411): Marked requests are resent in their new planes, then new traffic follows. -/
  | planeResume (plane : Nat)
  /-- FIRMWARE_HEARTBEAT (R413): A firmware processor writes its heartbeat to Terak. -/
  | firmwareHeartbeat (who : Processor)
  /-- FIRMWARE_WATCHDOG_EXPIRY (R413): A missed heartbeat makes Terak reset and re-verify the processor, or escalate. -/
  | firmwareWatchdogExpiry (who : Processor) (img : BootImage)
  /-- DEADMAN_REFRESH (R415): Terak refreshes its hardware deadman timer. -/
  | deadmanRefresh
  /-- DEADMAN_EXPIRY (R415): 1 s passes without a refresh, every processor is held in reset and FAIL is set. -/
  | deadmanExpiry
  /-- CLASS5_DECLARE (R362): Terak holds every processor in reset, sets BOOTSTAT.FAIL and serves only reads and attestation. -/
  | class5Declare (part : Part) (bankId : Option (BitVec 32))
  /-- FRONT_ENDS_READY (R332): All front ends report ready, the cores are released, the caches are set to normal and READY is set. -/
  | frontEndsReady
  /-- CLAIM (R336): A CLAIM write takes ownership when none is held and EXPECT equals EPOCH. -/
  | claim (who : Agent) (value : Word)
  /-- HANDOFF (R336): An owner's HANDOFF passes or releases ownership when EXPECT equals EPOCH. -/
  | handoff (who : Agent) (value : Word)
  /-- POWER_WRITE (R342): An owner's write of POWER changes the cap or the arbitration mode. -/
  | powerWrite (who : Agent) (value : Word)
  /-- REGISTER_WRITE (R335): A write to a register with no row of its own, ignored and counted in NOWNWR when from a non-owner. -/
  | registerWrite (who : Agent) (p : CtlPlace) (v : DwordWrite)
  /-- LEASE_WARNING (R363): At three quarters of the lease an error message is sent to the owner. -/
  | leaseWarning
  /-- LEASE_EXPIRY (R363): The lease expires and Terak revokes the owner. -/
  | leaseExpiry
  /-- BAR2_READ (R321): A host read through BAR2 is translated and performed at system scope. -/
  | bar2Read (p : HostAddr) (size : Nat)
  /-- BAR2_WRITE (R321): A host posted write through BAR2 is translated and performed. -/
  | bar2Write (p : HostAddr) (data : List Byte)
  /-- JOBCREATE (R340): Checks a job descriptor, then carves areas, loads a key, assigns banks and records the job. -/
  | jobcreate (c : MbCmd)
  /-- JOBEND (R338): Ends a job by command and fails its queues with 0x07. -/
  | jobend (c : MbCmd)
  /-- SETROOT (R338): Registers an ASID's page-table root. -/
  | setroot (c : MbCmd)
  /-- INVAL (R116): Invalidates a page's translations and cached lines. -/
  | inval (c : MbCmd)
  /-- QSTOP (R338): Disables a queue, waits for its packets, unmaps it and drops its QCB entry. -/
  | qstop (c : MbCmd)
  /-- SETQTAB (R338): Sets the QCB table while no job exists. -/
  | setqtab (c : MbCmd)
  /-- KREG (R338): Records or removes a kernel entry and its VLMAX range. -/
  | kreg (c : MbCmd)
  /-- SETBAR2 (R338): Sets the BAR2 window on D0's mailbox. -/
  | setbar2 (c : MbCmd)
  /-- SETDEV (R338): Writes DEVSELF on every die. -/
  | setdev (c : MbCmd)
  /-- SETPCAP (R338): Writes a path capability entry in every memory front. -/
  | setpcap (c : MbCmd)
  /-- SETMCAST (R338): Records or clears this device's MCBASE for a multicast group. -/
  | setmcast (c : MbCmd)
  /-- ATTEST (R341): Terak writes a signed attestation report to a buffer. -/
  | attest (c : MbCmd)
  /-- READLOG (R361): Copies entries of this die's error log. -/
  | readlog (c : MbCmd)
  /-- SETERRMSG (R361): Sets the error message number and enable. -/
  | seterrmsg (c : MbCmd)
  /-- JOBSTAT (R418): Copies a job-end record or the failure records of a living job. -/
  | jobstat (c : MbCmd)
  /-- QRESTART (R361): Clears a failed queue's error and retries or skips the failed packet. -/
  | qrestart (c : MbCmd)
  /-- REPAIRS (R361): Copies the persistent repair log. -/
  | repairs (c : MbCmd)
  /-- PACKAGE_RESET (R362): A package reset holds everything in reset, clears counters and FAIL, undoes uncommitted repairs and leads into start-up. -/
  | packageReset
  /-- DEBUGGER_HALT (R73): A debugger halts a hart at a position, and RUNCOUNT stops counting. -/
  | debuggerHalt (uid : Nat)
  /-- DEBUGGER_RESUME (R73): A debugger releases a halted hart, which resumes from its position and counts RUNCOUNT again. -/
  | debuggerResume (uid : Nat)
  /-- ERROR_MESSAGE_DELIVERED (R351): An undelivered error message is delivered to the owner, ending the coalescing of further messages. -/
  | errorMessageDelivered
  /-- RESENDS_COMPLETE_SIGNAL (R411): A source signals that a stream's resends are complete, and the destination may drop that stream's duplicate filter. -/
  | resendsCompleteSignal (key : StreamKey)
  /-- CHANNEL_COPY_ROW (R387): One row of a channel copy is finished, the bank's copy pointer advances, and requests waiting on that row proceed. -/
  | channelCopyRow (id : Nat)
  deriving DecidableEq, Repr

end Sys2Proof
end

