-- ==== Sys2Proof/Decode.lean ====
section
/-!
DEFINITION. Decoding and encoding (R181 to R188, R288, and the tables of the instruction chapters).
A word is decoded by a table of rows, each a mask, a pattern and the fields it yields; a word that no row matches is
rejected by name. The encoder below is written from the same encoding tables.
-/

namespace Sys2Proof

/-- Why a word is no instruction (R181, R290). A hart that executes such a word takes cause 0x01. -/
inductive DecodeError where
  /-- the major opcode is not assigned (R187) -/
  | reservedMajor (major : BitVec 7)
  /-- the major opcode is assigned, but the selector is not, or an unused bit is set (R181) -/
  | reservedSelectorOrBit (major : BitVec 7)
  /-- a µop with a reserved OPC or a set unused bit (R288) -/
  | reservedMicroOp (opc : BitVec 4)
  /-- fewer bytes than an instruction word has -/
  | truncated
  deriving DecidableEq, Repr

/-- One row of the table of 32-bit words: a word matches when its bits under `mask` are `pat`. -/
structure Row where
  mask : BitVec 32
  pat : BitVec 32
  build : BitVec 32 → Instr

/-- One row of the table of 16-bit µops (R288). -/
structure MicroRow where
  mask : BitVec 16
  pat : BitVec 16
  build : BitVec 16 → Instr

/-- Rows 0 to 25 of the word table: ADD to ANDI. -/
def rows0 : List Row :=
  [⟨0xFE0003FF#32, 0x02000000#32, fun w => .add (w.extractLsb' 20 5) (w.extractLsb' 15 5) (w.extractLsb' 10 5)⟩,
   ⟨0xFE0003FF#32, 0x02000001#32, fun w => .sub (w.extractLsb' 20 5) (w.extractLsb' 15 5) (w.extractLsb' 10 5)⟩,
   ⟨0xFE0003FF#32, 0x02000002#32, fun w => .and (w.extractLsb' 20 5) (w.extractLsb' 15 5) (w.extractLsb' 10 5)⟩,
   ⟨0xFE0003FF#32, 0x02000003#32, fun w => .or (w.extractLsb' 20 5) (w.extractLsb' 15 5) (w.extractLsb' 10 5)⟩,
   ⟨0xFE0003FF#32, 0x02000004#32, fun w => .xor (w.extractLsb' 20 5) (w.extractLsb' 15 5) (w.extractLsb' 10 5)⟩,
   ⟨0xFE0003FF#32, 0x02000005#32, fun w => .sll (w.extractLsb' 20 5) (w.extractLsb' 15 5) (w.extractLsb' 10 5)⟩,
   ⟨0xFE0003FF#32, 0x02000006#32, fun w => .srl (w.extractLsb' 20 5) (w.extractLsb' 15 5) (w.extractLsb' 10 5)⟩,
   ⟨0xFE0003FF#32, 0x02000007#32, fun w => .sra (w.extractLsb' 20 5) (w.extractLsb' 15 5) (w.extractLsb' 10 5)⟩,
   ⟨0xFE0003FF#32, 0x02000008#32, fun w => .slt (w.extractLsb' 20 5) (w.extractLsb' 15 5) (w.extractLsb' 10 5)⟩,
   ⟨0xFE0003FF#32, 0x02000009#32, fun w => .sltu (w.extractLsb' 20 5) (w.extractLsb' 15 5) (w.extractLsb' 10 5)⟩,
   ⟨0xFE0003FF#32, 0x0200000A#32, fun w => .min (w.extractLsb' 20 5) (w.extractLsb' 15 5) (w.extractLsb' 10 5)⟩,
   ⟨0xFE0003FF#32, 0x0200000B#32, fun w => .max (w.extractLsb' 20 5) (w.extractLsb' 15 5) (w.extractLsb' 10 5)⟩,
   ⟨0xFE0003FF#32, 0x0200000C#32, fun w => .minu (w.extractLsb' 20 5) (w.extractLsb' 15 5) (w.extractLsb' 10 5)⟩,
   ⟨0xFE0003FF#32, 0x0200000D#32, fun w => .maxu (w.extractLsb' 20 5) (w.extractLsb' 15 5) (w.extractLsb' 10 5)⟩,
   ⟨0xFE007FFF#32, 0x0200000E#32, fun w => .clz (w.extractLsb' 20 5) (w.extractLsb' 15 5)⟩,
   ⟨0xFE007FFF#32, 0x0200000F#32, fun w => .ctz (w.extractLsb' 20 5) (w.extractLsb' 15 5)⟩,
   ⟨0xFE007FFF#32, 0x02000010#32, fun w => .popc (w.extractLsb' 20 5) (w.extractLsb' 15 5)⟩,
   ⟨0xFE0003FF#32, 0x04000000#32, fun w => .mul (w.extractLsb' 20 5) (w.extractLsb' 15 5) (w.extractLsb' 10 5)⟩,
   ⟨0xFE0003FF#32, 0x04000001#32, fun w => .mulh (w.extractLsb' 20 5) (w.extractLsb' 15 5) (w.extractLsb' 10 5)⟩,
   ⟨0xFE0003FF#32, 0x04000002#32, fun w => .mulhu (w.extractLsb' 20 5) (w.extractLsb' 15 5) (w.extractLsb' 10 5)⟩,
   ⟨0xFE0003FF#32, 0x04000003#32, fun w => .div (w.extractLsb' 20 5) (w.extractLsb' 15 5) (w.extractLsb' 10 5)⟩,
   ⟨0xFE0003FF#32, 0x04000004#32, fun w => .divu (w.extractLsb' 20 5) (w.extractLsb' 15 5) (w.extractLsb' 10 5)⟩,
   ⟨0xFE0003FF#32, 0x04000005#32, fun w => .rem (w.extractLsb' 20 5) (w.extractLsb' 15 5) (w.extractLsb' 10 5)⟩,
   ⟨0xFE0003FF#32, 0x04000006#32, fun w => .remu (w.extractLsb' 20 5) (w.extractLsb' 15 5) (w.extractLsb' 10 5)⟩,
   ⟨0xFE000000#32, 0x06000000#32, fun w => .addi (w.extractLsb' 20 5) (w.extractLsb' 15 5) (w.extractLsb' 0 15)⟩,
   ⟨0xFE000000#32, 0x08000000#32, fun w => .andi (w.extractLsb' 20 5) (w.extractLsb' 15 5) (w.extractLsb' 0 15)⟩]

/-- Rows 26 to 51 of the word table: ORI to SB. -/
def rows1 : List Row :=
  [⟨0xFE000000#32, 0x0A000000#32, fun w => .ori (w.extractLsb' 20 5) (w.extractLsb' 15 5) (w.extractLsb' 0 15)⟩,
   ⟨0xFE000000#32, 0x0C000000#32, fun w => .xori (w.extractLsb' 20 5) (w.extractLsb' 15 5) (w.extractLsb' 0 15)⟩,
   ⟨0xFE000000#32, 0x0E000000#32, fun w => .slti (w.extractLsb' 20 5) (w.extractLsb' 15 5) (w.extractLsb' 0 15)⟩,
   ⟨0xFE000000#32, 0x10000000#32, fun w => .sltiu (w.extractLsb' 20 5) (w.extractLsb' 15 5) (w.extractLsb' 0 15)⟩,
   ⟨0xFE007FC0#32, 0x12000000#32, fun w => .slli (w.extractLsb' 20 5) (w.extractLsb' 15 5) (w.extractLsb' 0 6)⟩,
   ⟨0xFE007FC0#32, 0x12001000#32, fun w => .srli (w.extractLsb' 20 5) (w.extractLsb' 15 5) (w.extractLsb' 0 6)⟩,
   ⟨0xFE007FC0#32, 0x12002000#32, fun w => .srai (w.extractLsb' 20 5) (w.extractLsb' 15 5) (w.extractLsb' 0 6)⟩,
   ⟨0xFE000000#32, 0x14000000#32, fun w => .lui (w.extractLsb' 20 5) (w.extractLsb' 0 20)⟩,
   ⟨0xFE000000#32, 0x16000000#32, fun w => .auipc (w.extractLsb' 20 5) (w.extractLsb' 0 20)⟩,
   ⟨0xFE000000#32, 0x18000000#32, fun w => .jal (w.extractLsb' 20 5) (w.extractLsb' 0 20)⟩,
   ⟨0xFE000000#32, 0x1A000000#32, fun w => .jalr (w.extractLsb' 20 5) (w.extractLsb' 15 5) (w.extractLsb' 0 15)⟩,
   ⟨0xFE000000#32, 0x1C000000#32, fun w => .beq (w.extractLsb' 20 5) (w.extractLsb' 15 5) (w.extractLsb' 0 15)⟩,
   ⟨0xFE000000#32, 0x1E000000#32, fun w => .bne (w.extractLsb' 20 5) (w.extractLsb' 15 5) (w.extractLsb' 0 15)⟩,
   ⟨0xFE000000#32, 0x20000000#32, fun w => .blt (w.extractLsb' 20 5) (w.extractLsb' 15 5) (w.extractLsb' 0 15)⟩,
   ⟨0xFE000000#32, 0x22000000#32, fun w => .bge (w.extractLsb' 20 5) (w.extractLsb' 15 5) (w.extractLsb' 0 15)⟩,
   ⟨0xFE000000#32, 0x24000000#32, fun w => .bltu (w.extractLsb' 20 5) (w.extractLsb' 15 5) (w.extractLsb' 0 15)⟩,
   ⟨0xFE000000#32, 0x26000000#32, fun w => .bgeu (w.extractLsb' 20 5) (w.extractLsb' 15 5) (w.extractLsb' 0 15)⟩,
   ⟨0xFE000000#32, 0x28000000#32, fun w => .lb (w.extractLsb' 20 5) (w.extractLsb' 15 5) (w.extractLsb' 13 2) (w.extractLsb' 0 13)⟩,
   ⟨0xFE000000#32, 0x2A000000#32, fun w => .lh (w.extractLsb' 20 5) (w.extractLsb' 15 5) (w.extractLsb' 13 2) (w.extractLsb' 0 13)⟩,
   ⟨0xFE000000#32, 0x2C000000#32, fun w => .lw (w.extractLsb' 20 5) (w.extractLsb' 15 5) (w.extractLsb' 13 2) (w.extractLsb' 0 13)⟩,
   ⟨0xFE000000#32, 0x2E000000#32, fun w => .ld (w.extractLsb' 20 5) (w.extractLsb' 15 5) (w.extractLsb' 13 2) (w.extractLsb' 0 13)⟩,
   ⟨0xFE000000#32, 0x30000000#32, fun w => .lbu (w.extractLsb' 20 5) (w.extractLsb' 15 5) (w.extractLsb' 13 2) (w.extractLsb' 0 13)⟩,
   ⟨0xFE000000#32, 0x32000000#32, fun w => .lhu (w.extractLsb' 20 5) (w.extractLsb' 15 5) (w.extractLsb' 13 2) (w.extractLsb' 0 13)⟩,
   ⟨0xFE000000#32, 0x34000000#32, fun w => .lwu (w.extractLsb' 20 5) (w.extractLsb' 15 5) (w.extractLsb' 13 2) (w.extractLsb' 0 13)⟩,
   ⟨0xFE000004#32, 0x36000000#32, fun w => .ldacq (w.extractLsb' 20 5) (w.extractLsb' 15 5) (w.extractLsb' 13 2) (w.extractLsb' 3 10) (w.extractLsb' 0 2)⟩,
   ⟨0xFE000000#32, 0x38000000#32, fun w => .sb (w.extractLsb' 20 5) (w.extractLsb' 15 5) (w.extractLsb' 0 15)⟩]

/-- Rows 52 to 77 of the word table: SH to BWAIT. -/
def rows2 : List Row :=
  [⟨0xFE000000#32, 0x3A000000#32, fun w => .sh (w.extractLsb' 20 5) (w.extractLsb' 15 5) (w.extractLsb' 0 15)⟩,
   ⟨0xFE000000#32, 0x3C000000#32, fun w => .sw (w.extractLsb' 20 5) (w.extractLsb' 15 5) (w.extractLsb' 0 15)⟩,
   ⟨0xFE000000#32, 0x3E000000#32, fun w => .sd (w.extractLsb' 20 5) (w.extractLsb' 15 5) (w.extractLsb' 0 15)⟩,
   ⟨0xFE000004#32, 0x40000000#32, fun w => .sdrel (w.extractLsb' 20 5) (w.extractLsb' 15 5) (w.extractLsb' 3 12) (w.extractLsb' 0 2)⟩,
   ⟨0xFE000000#32, 0x42000000#32, fun w => .ldref (w.extractLsb' 20 5) (w.extractLsb' 15 5) (w.extractLsb' 13 2) (w.extractLsb' 3 10) (w.extractLsb' 2 1) (w.extractLsb' 0 2)⟩,
   ⟨0xFE000007#32, 0x44000000#32, fun w => .sdref (w.extractLsb' 20 5) (w.extractLsb' 15 5) (w.extractLsb' 3 12)⟩,
   ⟨0xFE000004#32, 0x46000000#32, fun w => .spub (w.extractLsb' 20 5) (w.extractLsb' 15 5) (w.extractLsb' 3 12) (w.extractLsb' 0 2)⟩,
   ⟨0xFE000000#32, 0x48000000#32, fun w => .rtag (w.extractLsb' 20 5) (w.extractLsb' 15 5) (w.extractLsb' 0 15)⟩,
   ⟨0xFE000000#32, 0x4A000000#32, fun w => .objinit (w.extractLsb' 20 5) (w.extractLsb' 15 5) (w.extractLsb' 0 15)⟩,
   ⟨0xFE00020F#32, 0x4C000000#32, fun w => .amoadd (w.extractLsb' 20 5) (w.extractLsb' 15 5) (w.extractLsb' 10 5) (w.extractLsb' 8 1) (w.extractLsb' 7 1) (w.extractLsb' 6 1) (w.extractLsb' 4 2)⟩,
   ⟨0xFE00020F#32, 0x4C000001#32, fun w => .amoswap (w.extractLsb' 20 5) (w.extractLsb' 15 5) (w.extractLsb' 10 5) (w.extractLsb' 8 1) (w.extractLsb' 7 1) (w.extractLsb' 6 1) (w.extractLsb' 4 2)⟩,
   ⟨0xFE00020F#32, 0x4C000002#32, fun w => .amocas (w.extractLsb' 20 5) (w.extractLsb' 15 5) (w.extractLsb' 10 5) (w.extractLsb' 8 1) (w.extractLsb' 7 1) (w.extractLsb' 6 1) (w.extractLsb' 4 2)⟩,
   ⟨0xFE00020F#32, 0x4C000003#32, fun w => .amomin (w.extractLsb' 20 5) (w.extractLsb' 15 5) (w.extractLsb' 10 5) (w.extractLsb' 8 1) (w.extractLsb' 7 1) (w.extractLsb' 6 1) (w.extractLsb' 4 2)⟩,
   ⟨0xFE00020F#32, 0x4C000004#32, fun w => .amomax (w.extractLsb' 20 5) (w.extractLsb' 15 5) (w.extractLsb' 10 5) (w.extractLsb' 8 1) (w.extractLsb' 7 1) (w.extractLsb' 6 1) (w.extractLsb' 4 2)⟩,
   ⟨0xFE00020F#32, 0x4C000005#32, fun w => .amominu (w.extractLsb' 20 5) (w.extractLsb' 15 5) (w.extractLsb' 10 5) (w.extractLsb' 8 1) (w.extractLsb' 7 1) (w.extractLsb' 6 1) (w.extractLsb' 4 2)⟩,
   ⟨0xFE00020F#32, 0x4C000006#32, fun w => .amomaxu (w.extractLsb' 20 5) (w.extractLsb' 15 5) (w.extractLsb' 10 5) (w.extractLsb' 8 1) (w.extractLsb' 7 1) (w.extractLsb' 6 1) (w.extractLsb' 4 2)⟩,
   ⟨0xFE00020F#32, 0x4C000007#32, fun w => .amoand (w.extractLsb' 20 5) (w.extractLsb' 15 5) (w.extractLsb' 10 5) (w.extractLsb' 8 1) (w.extractLsb' 7 1) (w.extractLsb' 6 1) (w.extractLsb' 4 2)⟩,
   ⟨0xFE00020F#32, 0x4C000008#32, fun w => .amoor (w.extractLsb' 20 5) (w.extractLsb' 15 5) (w.extractLsb' 10 5) (w.extractLsb' 8 1) (w.extractLsb' 7 1) (w.extractLsb' 6 1) (w.extractLsb' 4 2)⟩,
   ⟨0xFE00020F#32, 0x4C000009#32, fun w => .amoxor (w.extractLsb' 20 5) (w.extractLsb' 15 5) (w.extractLsb' 10 5) (w.extractLsb' 8 1) (w.extractLsb' 7 1) (w.extractLsb' 6 1) (w.extractLsb' 4 2)⟩,
   ⟨0xFFFFFFFF#32, 0x4E000000#32, fun _ => .alrb⟩,
   ⟨0xFFFFFF0F#32, 0x4E000001#32, fun w => .alre (w.extractLsb' 7 1) (w.extractLsb' 6 1) (w.extractLsb' 4 2)⟩,
   ⟨0xFFFFFE0F#32, 0x50000000#32, fun w => .fence (w.extractLsb' 6 3) (w.extractLsb' 4 2)⟩,
   ⟨0xFFFFFFFF#32, 0x50000001#32, fun _ => .vdrain⟩,
   ⟨0xFFFFFF8F#32, 0x50000002#32, fun w => .binit (w.extractLsb' 4 3)⟩,
   ⟨0xFE0FFF8F#32, 0x50000003#32, fun w => .barr (w.extractLsb' 20 5) (w.extractLsb' 4 3)⟩,
   ⟨0xFFF07F8F#32, 0x50000004#32, fun w => .bwait (w.extractLsb' 15 5) (w.extractLsb' 4 3)⟩]

/-- Rows 78 to 103 of the word table: LJOIN to VSUB. -/
def rows3 : List Row :=
  [⟨0xFE007FFF#32, 0x50000005#32, fun w => .ljoin (w.extractLsb' 20 5) (w.extractLsb' 15 5)⟩,
   ⟨0xFFFFFFFF#32, 0x50000006#32, fun _ => .lleave⟩,
   ⟨0xFE007F0F#32, 0x50000007#32, fun w => .waitc (w.extractLsb' 20 5) (w.extractLsb' 15 5) (w.extractLsb' 4 4)⟩,
   ⟨0xFE007FFF#32, 0x52000000#32, fun w => .spalloc (w.extractLsb' 20 5) (w.extractLsb' 15 5)⟩,
   ⟨0xFFF07FFF#32, 0x52000001#32, fun w => .spfree (w.extractLsb' 15 5)⟩,
   ⟨0xFFFFFFFF#32, 0x54000000#32, fun _ => .ecall⟩,
   ⟨0xFFFFFFFF#32, 0x54000001#32, fun _ => .ebreak⟩,
   ⟨0xFFFFFFFF#32, 0x54000002#32, fun _ => .eret⟩,
   ⟨0xFFFFFFFF#32, 0x54000003#32, fun _ => .wfi⟩,
   ⟨0xFFFFFFFF#32, 0x54000004#32, fun _ => .yield⟩,
   ⟨0xFFFFFFFF#32, 0x54000005#32, fun _ => .halt⟩,
   ⟨0xFE0FF000#32, 0x56000000#32, fun w => .csrr (w.extractLsb' 20 5) (w.extractLsb' 0 12)⟩,
   ⟨0xFE007000#32, 0x56001000#32, fun w => .csrw (w.extractLsb' 20 5) (w.extractLsb' 15 5) (w.extractLsb' 0 12)⟩,
   ⟨0xFE007000#32, 0x56002000#32, fun w => .csrs (w.extractLsb' 20 5) (w.extractLsb' 15 5) (w.extractLsb' 0 12)⟩,
   ⟨0xFE007000#32, 0x56003000#32, fun w => .csrc (w.extractLsb' 20 5) (w.extractLsb' 15 5) (w.extractLsb' 0 12)⟩,
   ⟨0xFFC1041F#32, 0x60000000#32, fun w => .vsetl (w.extractLsb' 17 5) (w.extractLsb' 11 5) (w.extractLsb' 5 5)⟩,
   ⟨0xFFC107FF#32, 0x60000001#32, fun w => .vdecl (w.extractLsb' 17 5) (w.extractLsb' 11 5)⟩,
   ⟨0xFE4107FF#32, 0x60000002#32, fun w => .vmode (w.extractLsb' 23 2) (w.extractLsb' 17 5) (w.extractLsb' 11 5)⟩,
   ⟨0xFFE1041F#32, 0x60000003#32, fun w => .ixset (w.extractLsb' 17 4) (w.extractLsb' 11 5) (w.extractLsb' 5 5)⟩,
   ⟨0xFFE1041F#32, 0x60000004#32, fun w => .ixbnd (w.extractLsb' 17 4) (w.extractLsb' 11 5) (w.extractLsb' 5 5)⟩,
   ⟨0xFFE1041F#32, 0x60000005#32, fun w => .ixstep (w.extractLsb' 17 4) (w.extractLsb' 11 5) (w.extractLsb' 5 5)⟩,
   ⟨0xFFE1041F#32, 0x60000006#32, fun w => .ixlane (w.extractLsb' 17 4) (w.extractLsb' 11 5) (w.extractLsb' 5 5)⟩,
   ⟨0xFE40041F#32, 0x60000007#32, fun w => .vmvx (w.extractLsb' 23 2) (w.extractLsb' 17 5) (w.extractLsb' 11 6) (w.extractLsb' 5 5)⟩,
   ⟨0xFE0007FF#32, 0x60000008#32, fun w => .vmvv (w.extractLsb' 23 2) (w.extractLsb' 17 6) (w.extractLsb' 11 6)⟩,
   ⟨0xFE00001F#32, 0x62000000#32, fun w => .vadd (w.extractLsb' 23 2) (w.extractLsb' 17 6) (w.extractLsb' 11 6) (w.extractLsb' 5 6)⟩,
   ⟨0xFE00001F#32, 0x62000001#32, fun w => .vsub (w.extractLsb' 23 2) (w.extractLsb' 17 6) (w.extractLsb' 11 6) (w.extractLsb' 5 6)⟩]

/-- Rows 104 to 129 of the word table: VMUL to VCONJ. -/
def rows4 : List Row :=
  [⟨0xFE00001F#32, 0x62000002#32, fun w => .vmul (w.extractLsb' 23 2) (w.extractLsb' 17 6) (w.extractLsb' 11 6) (w.extractLsb' 5 6)⟩,
   ⟨0xFE00001F#32, 0x62000003#32, fun w => .vmac (w.extractLsb' 23 2) (w.extractLsb' 17 6) (w.extractLsb' 11 6) (w.extractLsb' 5 6)⟩,
   ⟨0xFE00001F#32, 0x62000004#32, fun w => .vnmac (w.extractLsb' 23 2) (w.extractLsb' 17 6) (w.extractLsb' 11 6) (w.extractLsb' 5 6)⟩,
   ⟨0xFE00001F#32, 0x62000005#32, fun w => .vmin (w.extractLsb' 23 2) (w.extractLsb' 17 6) (w.extractLsb' 11 6) (w.extractLsb' 5 6)⟩,
   ⟨0xFE00001F#32, 0x62000006#32, fun w => .vmax (w.extractLsb' 23 2) (w.extractLsb' 17 6) (w.extractLsb' 11 6) (w.extractLsb' 5 6)⟩,
   ⟨0xFE0007FF#32, 0x62000007#32, fun w => .vabs (w.extractLsb' 23 2) (w.extractLsb' 17 6) (w.extractLsb' 11 6)⟩,
   ⟨0xFE0007FF#32, 0x62000008#32, fun w => .vneg (w.extractLsb' 23 2) (w.extractLsb' 17 6) (w.extractLsb' 11 6)⟩,
   ⟨0xFE00001F#32, 0x62000009#32, fun w => .vand (w.extractLsb' 23 2) (w.extractLsb' 17 6) (w.extractLsb' 11 6) (w.extractLsb' 5 6)⟩,
   ⟨0xFE00001F#32, 0x6200000A#32, fun w => .vor (w.extractLsb' 23 2) (w.extractLsb' 17 6) (w.extractLsb' 11 6) (w.extractLsb' 5 6)⟩,
   ⟨0xFE00001F#32, 0x6200000B#32, fun w => .vxor (w.extractLsb' 23 2) (w.extractLsb' 17 6) (w.extractLsb' 11 6) (w.extractLsb' 5 6)⟩,
   ⟨0xFE00001F#32, 0x6200000C#32, fun w => .vsll (w.extractLsb' 23 2) (w.extractLsb' 17 6) (w.extractLsb' 11 6) (w.extractLsb' 5 6)⟩,
   ⟨0xFE00001F#32, 0x6200000D#32, fun w => .vsrl (w.extractLsb' 23 2) (w.extractLsb' 17 6) (w.extractLsb' 11 6) (w.extractLsb' 5 6)⟩,
   ⟨0xFE00001F#32, 0x6200000E#32, fun w => .vsra (w.extractLsb' 23 2) (w.extractLsb' 17 6) (w.extractLsb' 11 6) (w.extractLsb' 5 6)⟩,
   ⟨0xFE00001F#32, 0x6200000F#32, fun w => .vcmpeq (w.extractLsb' 23 2) (w.extractLsb' 17 6) (w.extractLsb' 11 6) (w.extractLsb' 5 6)⟩,
   ⟨0xFE00001F#32, 0x62000010#32, fun w => .vcmpne (w.extractLsb' 23 2) (w.extractLsb' 17 6) (w.extractLsb' 11 6) (w.extractLsb' 5 6)⟩,
   ⟨0xFE00001F#32, 0x62000011#32, fun w => .vcmplt (w.extractLsb' 23 2) (w.extractLsb' 17 6) (w.extractLsb' 11 6) (w.extractLsb' 5 6)⟩,
   ⟨0xFE00001F#32, 0x62000012#32, fun w => .vcmple (w.extractLsb' 23 2) (w.extractLsb' 17 6) (w.extractLsb' 11 6) (w.extractLsb' 5 6)⟩,
   ⟨0xFE00001F#32, 0x62000013#32, fun w => .vmerge (w.extractLsb' 23 2) (w.extractLsb' 17 6) (w.extractLsb' 11 6) (w.extractLsb' 5 6)⟩,
   ⟨0xFE00001F#32, 0x62000014#32, fun w => .vdiv (w.extractLsb' 23 2) (w.extractLsb' 17 6) (w.extractLsb' 11 6) (w.extractLsb' 5 6)⟩,
   ⟨0xFE0007FF#32, 0x62000015#32, fun w => .vsqrt (w.extractLsb' 23 2) (w.extractLsb' 17 6) (w.extractLsb' 11 6)⟩,
   ⟨0xFE0007FF#32, 0x62000016#32, fun w => .vrcp (w.extractLsb' 23 2) (w.extractLsb' 17 6) (w.extractLsb' 11 6)⟩,
   ⟨0xFE0007FF#32, 0x62000017#32, fun w => .vrsq (w.extractLsb' 23 2) (w.extractLsb' 17 6) (w.extractLsb' 11 6)⟩,
   ⟨0xFE0007FF#32, 0x62000018#32, fun w => .vexp2 (w.extractLsb' 23 2) (w.extractLsb' 17 6) (w.extractLsb' 11 6)⟩,
   ⟨0xFE0007FF#32, 0x62000019#32, fun w => .vlog2 (w.extractLsb' 23 2) (w.extractLsb' 17 6) (w.extractLsb' 11 6)⟩,
   ⟨0xFE0007FF#32, 0x6200001A#32, fun w => .vclass (w.extractLsb' 23 2) (w.extractLsb' 17 6) (w.extractLsb' 11 6)⟩,
   ⟨0xFE0007FF#32, 0x6200001B#32, fun w => .vconj (w.extractLsb' 23 2) (w.extractLsb' 17 6) (w.extractLsb' 11 6)⟩]

/-- Rows 130 to 155 of the word table: VCVT to VLD. -/
def rows5 : List Row :=
  [⟨0xFE00061F#32, 0x64000000#32, fun w => .vcvt (w.extractLsb' 23 2) (w.extractLsb' 17 6) (w.extractLsb' 11 6) (w.extractLsb' 5 4)⟩,
   ⟨0xFE00001F#32, 0x64000001#32, fun w => .vqnt (w.extractLsb' 23 2) (w.extractLsb' 17 6) (w.extractLsb' 11 6) (w.extractLsb' 5 6)⟩,
   ⟨0xFE00001F#32, 0x64000002#32, fun w => .vdqnt (w.extractLsb' 23 2) (w.extractLsb' 17 6) (w.extractLsb' 11 6) (w.extractLsb' 5 6)⟩,
   ⟨0xFE00001F#32, 0x64000003#32, fun w => .vqi8 (w.extractLsb' 23 2) (w.extractLsb' 17 6) (w.extractLsb' 11 6) (w.extractLsb' 5 6)⟩,
   ⟨0xFE00001F#32, 0x64000004#32, fun w => .vshrr (w.extractLsb' 23 2) (w.extractLsb' 17 6) (w.extractLsb' 11 6) (w.extractLsb' 5 6)⟩,
   ⟨0xFE0007FF#32, 0x66000000#32, fun w => .vredsum (w.extractLsb' 23 2) (w.extractLsb' 17 6) (w.extractLsb' 11 6)⟩,
   ⟨0xFE0007FF#32, 0x66000001#32, fun w => .vredmax (w.extractLsb' 23 2) (w.extractLsb' 17 6) (w.extractLsb' 11 6)⟩,
   ⟨0xFE0007FF#32, 0x66000002#32, fun w => .vredmin (w.extractLsb' 23 2) (w.extractLsb' 17 6) (w.extractLsb' 11 6)⟩,
   ⟨0xFE0007FF#32, 0x66000003#32, fun w => .vredand (w.extractLsb' 23 2) (w.extractLsb' 17 6) (w.extractLsb' 11 6)⟩,
   ⟨0xFE0007FF#32, 0x66000004#32, fun w => .vredor (w.extractLsb' 23 2) (w.extractLsb' 17 6) (w.extractLsb' 11 6)⟩,
   ⟨0xFE0007FF#32, 0x66000005#32, fun w => .vscansum (w.extractLsb' 23 2) (w.extractLsb' 17 6) (w.extractLsb' 11 6)⟩,
   ⟨0xFE00041F#32, 0x68000000#32, fun w => .vslideup (w.extractLsb' 23 2) (w.extractLsb' 17 6) (w.extractLsb' 11 6) (w.extractLsb' 5 5)⟩,
   ⟨0xFE00041F#32, 0x68000001#32, fun w => .vslidedn (w.extractLsb' 23 2) (w.extractLsb' 17 6) (w.extractLsb' 11 6) (w.extractLsb' 5 5)⟩,
   ⟨0xFE00001F#32, 0x68000002#32, fun w => .vgathr (w.extractLsb' 23 2) (w.extractLsb' 17 6) (w.extractLsb' 11 6) (w.extractLsb' 5 6)⟩,
   ⟨0xFE0007FF#32, 0x68000003#32, fun w => .vcompress (w.extractLsb' 23 2) (w.extractLsb' 17 6) (w.extractLsb' 11 6)⟩,
   ⟨0xFE0007FF#32, 0x68000004#32, fun w => .vexpand (w.extractLsb' 23 2) (w.extractLsb' 17 6) (w.extractLsb' 11 6)⟩,
   ⟨0xFE0107FF#32, 0x68000005#32, fun w => .vbcast (w.extractLsb' 23 2) (w.extractLsb' 17 6) (w.extractLsb' 11 5)⟩,
   ⟨0xFE01FFFF#32, 0x68000006#32, fun w => .viota (w.extractLsb' 23 2) (w.extractLsb' 17 6)⟩,
   ⟨0xFE00001F#32, 0x6A000000#32, fun w => .mand (w.extractLsb' 23 2) (w.extractLsb' 17 6) (w.extractLsb' 11 6) (w.extractLsb' 5 6)⟩,
   ⟨0xFE00001F#32, 0x6A000001#32, fun w => .mor (w.extractLsb' 23 2) (w.extractLsb' 17 6) (w.extractLsb' 11 6) (w.extractLsb' 5 6)⟩,
   ⟨0xFE00001F#32, 0x6A000002#32, fun w => .mxor (w.extractLsb' 23 2) (w.extractLsb' 17 6) (w.extractLsb' 11 6) (w.extractLsb' 5 6)⟩,
   ⟨0xFE0007FF#32, 0x6A000003#32, fun w => .mnot (w.extractLsb' 23 2) (w.extractLsb' 17 6) (w.extractLsb' 11 6)⟩,
   ⟨0xFE4007FF#32, 0x6A000004#32, fun w => .mpop (w.extractLsb' 23 2) (w.extractLsb' 17 5) (w.extractLsb' 11 6)⟩,
   ⟨0xFE4007FF#32, 0x6A000005#32, fun w => .mfirst (w.extractLsb' 23 2) (w.extractLsb' 17 5) (w.extractLsb' 11 6)⟩,
   ⟨0xFE4007FF#32, 0x6A000006#32, fun w => .msetvl (w.extractLsb' 23 2) (w.extractLsb' 17 5) (w.extractLsb' 11 6)⟩,
   ⟨0xFE000FCF#32, 0x6C000000#32, fun w => .vld (w.extractLsb' 23 2) (w.extractLsb' 17 6) (w.extractLsb' 12 5) (w.extractLsb' 4 2)⟩]

/-- Rows 156 to 180 of the word table: VLDS to POOL_MARKER. -/
def rows6 : List Row :=
  [⟨0xFE00080F#32, 0x6C000001#32, fun w => .vlds (w.extractLsb' 23 2) (w.extractLsb' 17 6) (w.extractLsb' 12 5) (w.extractLsb' 6 5) (w.extractLsb' 4 2)⟩,
   ⟨0xFE00000F#32, 0x6C000002#32, fun w => .vldg (w.extractLsb' 23 2) (w.extractLsb' 17 6) (w.extractLsb' 12 5) (w.extractLsb' 6 6) (w.extractLsb' 4 2)⟩,
   ⟨0xFE0001CF#32, 0x6C000003#32, fun w => .vldseg (w.extractLsb' 23 2) (w.extractLsb' 17 6) (w.extractLsb' 12 5) (w.extractLsb' 9 3) (w.extractLsb' 4 2)⟩,
   ⟨0xFE000FFF#32, 0x6C000004#32, fun w => .vst (w.extractLsb' 23 2) (w.extractLsb' 17 6) (w.extractLsb' 12 5)⟩,
   ⟨0xFE00083F#32, 0x6C000005#32, fun w => .vsts (w.extractLsb' 23 2) (w.extractLsb' 17 6) (w.extractLsb' 12 5) (w.extractLsb' 6 5)⟩,
   ⟨0xFE00003F#32, 0x6C000006#32, fun w => .vstsc (w.extractLsb' 23 2) (w.extractLsb' 17 6) (w.extractLsb' 12 5) (w.extractLsb' 6 6)⟩,
   ⟨0xFE0001FF#32, 0x6C000007#32, fun w => .vstseg (w.extractLsb' 23 2) (w.extractLsb' 17 6) (w.extractLsb' 12 5) (w.extractLsb' 9 3)⟩,
   ⟨0xFFFE083F#32, 0x70000000#32, fun w => .mmode (w.extractLsb' 12 5) (w.extractLsb' 6 5)⟩,
   ⟨0xFFF20000#32, 0x70100000#32, fun w => .opa (w.extractLsb' 18 2) (w.extractLsb' 16 1) (w.extractLsb' 15 1) (w.extractLsb' 12 3) (w.extractLsb' 6 6) (w.extractLsb' 0 6)⟩,
   ⟨0xFFFF8FFF#32, 0x70200000#32, fun w => .azero (w.extractLsb' 12 3)⟩,
   ⟨0xFFFF8820#32, 0x70300000#32, fun w => .acld (w.extractLsb' 12 3) (w.extractLsb' 6 5) (w.extractLsb' 0 5)⟩,
   ⟨0xFFF38000#32, 0x70400000#32, fun w => .acrd (w.extractLsb' 18 2) (w.extractLsb' 12 3) (w.extractLsb' 6 6) (w.extractLsb' 5 1) (w.extractLsb' 0 5)⟩,
   ⟨0xFFF38820#32, 0x70500000#32, fun w => .acst (w.extractLsb' 18 2) (w.extractLsb' 12 3) (w.extractLsb' 6 5) (w.extractLsb' 0 5)⟩,
   ⟨0xFFFFFFFF#32, 0x70600000#32, fun _ => .mexit⟩,
   ⟨0xFFFF0E00#32, 0x72000000#32, fun w => .cbld (w.extractLsb' 12 4) (w.extractLsb' 6 3) (w.extractLsb' 5 1) (w.extractLsb' 0 5)⟩,
   ⟨0xFFF00020#32, 0x72100000#32, fun w => .tbld (w.extractLsb' 18 2) (w.extractLsb' 17 1) (w.extractLsb' 12 5) (w.extractLsb' 6 6) (w.extractLsb' 0 5)⟩,
   ⟨0xFFFF0E20#32, 0x72200000#32, fun w => .lka (w.extractLsb' 12 4) (w.extractLsb' 6 3) (w.extractLsb' 0 5)⟩,
   ⟨0xFFFE0E20#32, 0x72300000#32, fun w => .nbset (w.extractLsb' 12 5) (w.extractLsb' 6 3) (w.extractLsb' 0 5)⟩,
   ⟨0xFFFF0E20#32, 0x72400000#32, fun w => .nbld (w.extractLsb' 12 4) (w.extractLsb' 6 3) (w.extractLsb' 0 5)⟩,
   ⟨0xFFFF0E20#32, 0x72500000#32, fun w => .nbrun (w.extractLsb' 12 4) (w.extractLsb' 6 3) (w.extractLsb' 0 5)⟩,
   ⟨0xFFFE0E1F#32, 0x72600000#32, fun w => .nbstat (w.extractLsb' 12 5) (w.extractLsb' 6 3) (w.extractLsb' 5 1)⟩,
   ⟨0xFFFC0E20#32, 0x72700000#32, fun w => .nbdrain (w.extractLsb' 17 1) (w.extractLsb' 12 5) (w.extractLsb' 6 3) (w.extractLsb' 0 5)⟩,
   ⟨0xFFFF083F#32, 0x74000000#32, fun w => .tcopy (w.extractLsb' 12 4) (w.extractLsb' 6 5)⟩,
   ⟨0xFFFE0F1F#32, 0x74100000#32, fun w => .tstat (w.extractLsb' 12 5) (w.extractLsb' 6 2) (w.extractLsb' 5 1)⟩,
   ⟨0xFE000000#32, 0xFE000000#32, fun w => .poolMarker (w.extractLsb' 0 25)⟩]

/-- The table of 32-bit words (R187). -/
def rows : List Row :=
  rows0 ++ rows1 ++ rows2 ++ rows3 ++ rows4 ++ rows5 ++ rows6

/-- The table of 16-bit µops (R288). -/
def microRows : List MicroRow :=
  [⟨0xFFFF#16, 0x0000#16, fun _ => .rend⟩,
   ⟨0xF1FF#16, 0x1000#16, fun w => .ract (w.extractLsb' 10 2) (w.extractLsb' 9 1)⟩,
   ⟨0xF07F#16, 0x2000#16, fun w => .radd (w.extractLsb' 10 2) (w.extractLsb' 9 1) (w.extractLsb' 7 2)⟩,
   ⟨0xF003#16, 0x3000#16, fun w => .rshadd (w.extractLsb' 10 2) (w.extractLsb' 9 1) (w.extractLsb' 7 2) (w.extractLsb' 3 4) (w.extractLsb' 2 1)⟩,
   ⟨0xF1FF#16, 0x4000#16, fun w => .rcopy (w.extractLsb' 10 2) (w.extractLsb' 9 1)⟩,
   ⟨0xF1FF#16, 0x5000#16, fun w => .rclr (w.extractLsb' 10 2) (w.extractLsb' 9 1)⟩,
   ⟨0xF07F#16, 0x6000#16, fun w => .racc (w.extractLsb' 10 2) (w.extractLsb' 9 1) (w.extractLsb' 7 2)⟩,
   ⟨0xF1FF#16, 0x7000#16, fun w => .rlka (w.extractLsb' 10 2) (w.extractLsb' 9 1)⟩,
   ⟨0xFFC0#16, 0x8000#16, fun w => .rbr (w.extractLsb' 0 6)⟩,
   ⟨0xF7C0#16, 0x9000#16, fun w => .rloop (w.extractLsb' 11 1) (w.extractLsb' 0 6)⟩,
   ⟨0xFFFF#16, 0xA000#16, fun _ => .rsync⟩]

/-- A word matches a row. -/
def Row.hits (r : Row) (w : BitVec 32) : Bool := w &&& r.mask == r.pat

/-- A µop matches a row. -/
def MicroRow.hits (r : MicroRow) (w : BitVec 16) : Bool := w &&& r.mask == r.pat

/-- No word matches two rows: some bit that both masks look at differs in their patterns. -/
def Row.apart (r q : Row) : Bool := (r.mask &&& q.mask &&& (r.pat ^^^ q.pat)) != 0#32

/-- The same of two µop rows. -/
def MicroRow.apart (r q : MicroRow) : Bool := (r.mask &&& q.mask &&& (r.pat ^^^ q.pat)) != 0#16

/-- The assigned major opcodes (R187). -/
def majorAssigned (m : BitVec 7) : Bool :=
  let n := m.toNat
  (1 ≤ n && n ≤ 0x2B) || (0x30 ≤ n && n ≤ 0x36) || (0x38 ≤ n && n ≤ 0x3A) || n == 0x7F

/-- The instruction of a 32-bit word, or the reason why it is none. -/
def decodeWord (w : BitVec 32) : Except DecodeError Instr :=
  match rows.find? (fun r => r.hits w) with
  | some r => .ok (r.build w)
  | none =>
    let m := w.extractLsb' 25 7
    if majorAssigned m then .error (.reservedSelectorOrBit m) else .error (.reservedMajor m)

/-- The µop of a half-word, or the reason why it is none (R288, R290). -/
def decodeMicro (w : BitVec 16) : Except DecodeError Instr :=
  match microRows.find? (fun r => r.hits w) with
  | some r => .ok (r.build w)
  | none => .error (.reservedMicroOp (w.extractLsb' 12 4))

/-- A little-endian word from four bytes (R6, R181). -/
def wordOfBytes (b0 b1 b2 b3 : Byte) : BitVec 32 := b3 ++ b2 ++ b1 ++ b0

/-- The four bytes of a word, lowest address first. -/
def bytesOfWord (w : BitVec 32) : List Byte :=
  [w.extractLsb' 0 8, w.extractLsb' 8 8, w.extractLsb' 16 8, w.extractLsb' 24 8]

/-- Decodes the instruction at the head of a string of bytes and returns the rest. -/
def decodeBytes : List Byte → Except DecodeError (Instr × List Byte)
  | b0 :: b1 :: b2 :: b3 :: rest => (decodeWord (wordOfBytes b0 b1 b2 b3)).map (·, rest)
  | _ => .error .truncated

/-- Decodes the µop at the head of a string of bytes and returns the rest. -/
def decodeMicroBytes : List Byte → Except DecodeError (Instr × List Byte)
  | b0 :: b1 :: rest => (decodeMicro (b1 ++ b0)).map (·, rest)
  | _ => .error .truncated

/-- The decoder on a word as the opcode table numbers its bits: 32-bit hart words and 16-bit µops. -/
def decodeTableWord (nbits w : Nat) : Option Instr :=
  if nbits = 32 then
    match decodeBytes (bytesOfWord (BitVec.ofNat 32 w)) with
    | .ok (i, _) => some i
    | .error _ => none
  else if nbits = 16 then
    let v := BitVec.ofNat 16 w
    match decodeMicroBytes [v.extractLsb' 0 8, v.extractLsb' 8 8] with
    | .ok (i, _) => some i
    | .error _ => none
  else none

/-- A field at bit `lo` of a word. -/
def field (lo : Nat) {n : Nat} (v : BitVec n) : BitVec 32 := v.setWidth 32 <<< lo

/-- A field at bit `lo` of a µop. -/
def microField (lo : Nat) {n : Nat} (v : BitVec n) : BitVec 16 := v.setWidth 16 <<< lo

/-- The 32-bit word of a hart instruction or pool marker; the other rows have none. -/
def encodeWord (i : Instr) : Option (BitVec 32) :=
  match i with
  | .add d a b => some (0x02000000#32 ||| field 20 d ||| field 15 a ||| field 10 b)
  | .sub d a b => some (0x02000001#32 ||| field 20 d ||| field 15 a ||| field 10 b)
  | .and d a b => some (0x02000002#32 ||| field 20 d ||| field 15 a ||| field 10 b)
  | .or d a b => some (0x02000003#32 ||| field 20 d ||| field 15 a ||| field 10 b)
  | .xor d a b => some (0x02000004#32 ||| field 20 d ||| field 15 a ||| field 10 b)
  | .sll d a b => some (0x02000005#32 ||| field 20 d ||| field 15 a ||| field 10 b)
  | .srl d a b => some (0x02000006#32 ||| field 20 d ||| field 15 a ||| field 10 b)
  | .sra d a b => some (0x02000007#32 ||| field 20 d ||| field 15 a ||| field 10 b)
  | .slt d a b => some (0x02000008#32 ||| field 20 d ||| field 15 a ||| field 10 b)
  | .sltu d a b => some (0x02000009#32 ||| field 20 d ||| field 15 a ||| field 10 b)
  | .min d a b => some (0x0200000A#32 ||| field 20 d ||| field 15 a ||| field 10 b)
  | .max d a b => some (0x0200000B#32 ||| field 20 d ||| field 15 a ||| field 10 b)
  | .minu d a b => some (0x0200000C#32 ||| field 20 d ||| field 15 a ||| field 10 b)
  | .maxu d a b => some (0x0200000D#32 ||| field 20 d ||| field 15 a ||| field 10 b)
  | .clz d a => some (0x0200000E#32 ||| field 20 d ||| field 15 a)
  | .ctz d a => some (0x0200000F#32 ||| field 20 d ||| field 15 a)
  | .popc d a => some (0x02000010#32 ||| field 20 d ||| field 15 a)
  | .mul d a b => some (0x04000000#32 ||| field 20 d ||| field 15 a ||| field 10 b)
  | .mulh d a b => some (0x04000001#32 ||| field 20 d ||| field 15 a ||| field 10 b)
  | .mulhu d a b => some (0x04000002#32 ||| field 20 d ||| field 15 a ||| field 10 b)
  | .div d a b => some (0x04000003#32 ||| field 20 d ||| field 15 a ||| field 10 b)
  | .divu d a b => some (0x04000004#32 ||| field 20 d ||| field 15 a ||| field 10 b)
  | .rem d a b => some (0x04000005#32 ||| field 20 d ||| field 15 a ||| field 10 b)
  | .remu d a b => some (0x04000006#32 ||| field 20 d ||| field 15 a ||| field 10 b)
  | .addi d a i => some (0x06000000#32 ||| field 20 d ||| field 15 a ||| field 0 i)
  | .andi d a i => some (0x08000000#32 ||| field 20 d ||| field 15 a ||| field 0 i)
  | .ori d a i => some (0x0A000000#32 ||| field 20 d ||| field 15 a ||| field 0 i)
  | .xori d a i => some (0x0C000000#32 ||| field 20 d ||| field 15 a ||| field 0 i)
  | .slti d a i => some (0x0E000000#32 ||| field 20 d ||| field 15 a ||| field 0 i)
  | .sltiu d a i => some (0x10000000#32 ||| field 20 d ||| field 15 a ||| field 0 i)
  | .slli d a s => some (0x12000000#32 ||| field 20 d ||| field 15 a ||| field 0 s)
  | .srli d a s => some (0x12001000#32 ||| field 20 d ||| field 15 a ||| field 0 s)
  | .srai d a s => some (0x12002000#32 ||| field 20 d ||| field 15 a ||| field 0 s)
  | .lui d i => some (0x14000000#32 ||| field 20 d ||| field 0 i)
  | .auipc d i => some (0x16000000#32 ||| field 20 d ||| field 0 i)
  | .jal d i => some (0x18000000#32 ||| field 20 d ||| field 0 i)
  | .jalr d a i => some (0x1A000000#32 ||| field 20 d ||| field 15 a ||| field 0 i)
  | .beq a b i => some (0x1C000000#32 ||| field 20 a ||| field 15 b ||| field 0 i)
  | .bne a b i => some (0x1E000000#32 ||| field 20 a ||| field 15 b ||| field 0 i)
  | .blt a b i => some (0x20000000#32 ||| field 20 a ||| field 15 b ||| field 0 i)
  | .bge a b i => some (0x22000000#32 ||| field 20 a ||| field 15 b ||| field 0 i)
  | .bltu a b i => some (0x24000000#32 ||| field 20 a ||| field 15 b ||| field 0 i)
  | .bgeu a b i => some (0x26000000#32 ||| field 20 a ||| field 15 b ||| field 0 i)
  | .lb d a r i => some (0x28000000#32 ||| field 20 d ||| field 15 a ||| field 13 r ||| field 0 i)
  | .lh d a r i => some (0x2A000000#32 ||| field 20 d ||| field 15 a ||| field 13 r ||| field 0 i)
  | .lw d a r i => some (0x2C000000#32 ||| field 20 d ||| field 15 a ||| field 13 r ||| field 0 i)
  | .ld d a r i => some (0x2E000000#32 ||| field 20 d ||| field 15 a ||| field 13 r ||| field 0 i)
  | .lbu d a r i => some (0x30000000#32 ||| field 20 d ||| field 15 a ||| field 13 r ||| field 0 i)
  | .lhu d a r i => some (0x32000000#32 ||| field 20 d ||| field 15 a ||| field 13 r ||| field 0 i)
  | .lwu d a r i => some (0x34000000#32 ||| field 20 d ||| field 15 a ||| field 13 r ||| field 0 i)
  | .ldacq d a r o s => some (0x36000000#32 ||| field 20 d ||| field 15 a ||| field 13 r ||| field 3 o ||| field 0 s)
  | .sb b a i => some (0x38000000#32 ||| field 20 b ||| field 15 a ||| field 0 i)
  | .sh b a i => some (0x3A000000#32 ||| field 20 b ||| field 15 a ||| field 0 i)
  | .sw b a i => some (0x3C000000#32 ||| field 20 b ||| field 15 a ||| field 0 i)
  | .sd b a i => some (0x3E000000#32 ||| field 20 b ||| field 15 a ||| field 0 i)
  | .sdrel b a o s => some (0x40000000#32 ||| field 20 b ||| field 15 a ||| field 3 o ||| field 0 s)
  | .ldref d a r o q s => some (0x42000000#32 ||| field 20 d ||| field 15 a ||| field 13 r ||| field 3 o ||| field 2 q ||| field 0 s)
  | .sdref b a o => some (0x44000000#32 ||| field 20 b ||| field 15 a ||| field 3 o)
  | .spub b a o s => some (0x46000000#32 ||| field 20 b ||| field 15 a ||| field 3 o ||| field 0 s)
  | .rtag d a i => some (0x48000000#32 ||| field 20 d ||| field 15 a ||| field 0 i)
  | .objinit s a i => some (0x4A000000#32 ||| field 20 s ||| field 15 a ||| field 0 i)
  | .amoadd d a b m l q s => some (0x4C000000#32 ||| field 20 d ||| field 15 a ||| field 10 b ||| field 8 m ||| field 7 l ||| field 6 q ||| field 4 s)
  | .amoswap d a b m l q s => some (0x4C000001#32 ||| field 20 d ||| field 15 a ||| field 10 b ||| field 8 m ||| field 7 l ||| field 6 q ||| field 4 s)
  | .amocas d a b m l q s => some (0x4C000002#32 ||| field 20 d ||| field 15 a ||| field 10 b ||| field 8 m ||| field 7 l ||| field 6 q ||| field 4 s)
  | .amomin d a b m l q s => some (0x4C000003#32 ||| field 20 d ||| field 15 a ||| field 10 b ||| field 8 m ||| field 7 l ||| field 6 q ||| field 4 s)
  | .amomax d a b m l q s => some (0x4C000004#32 ||| field 20 d ||| field 15 a ||| field 10 b ||| field 8 m ||| field 7 l ||| field 6 q ||| field 4 s)
  | .amominu d a b m l q s => some (0x4C000005#32 ||| field 20 d ||| field 15 a ||| field 10 b ||| field 8 m ||| field 7 l ||| field 6 q ||| field 4 s)
  | .amomaxu d a b m l q s => some (0x4C000006#32 ||| field 20 d ||| field 15 a ||| field 10 b ||| field 8 m ||| field 7 l ||| field 6 q ||| field 4 s)
  | .amoand d a b m l q s => some (0x4C000007#32 ||| field 20 d ||| field 15 a ||| field 10 b ||| field 8 m ||| field 7 l ||| field 6 q ||| field 4 s)
  | .amoor d a b m l q s => some (0x4C000008#32 ||| field 20 d ||| field 15 a ||| field 10 b ||| field 8 m ||| field 7 l ||| field 6 q ||| field 4 s)
  | .amoxor d a b m l q s => some (0x4C000009#32 ||| field 20 d ||| field 15 a ||| field 10 b ||| field 8 m ||| field 7 l ||| field 6 q ||| field 4 s)
  | .alrb => some (0x4E000000#32)
  | .alre l q s => some (0x4E000001#32 ||| field 7 l ||| field 6 q ||| field 4 s)
  | .fence k s => some (0x50000000#32 ||| field 6 k ||| field 4 s)
  | .vdrain => some (0x50000001#32)
  | .binit n => some (0x50000002#32 ||| field 4 n)
  | .barr d n => some (0x50000003#32 ||| field 20 d ||| field 4 n)
  | .bwait a n => some (0x50000004#32 ||| field 15 a ||| field 4 n)
  | .ljoin d a => some (0x50000005#32 ||| field 20 d ||| field 15 a)
  | .lleave => some (0x50000006#32)
  | .waitc d a k => some (0x50000007#32 ||| field 20 d ||| field 15 a ||| field 4 k)
  | .spalloc d a => some (0x52000000#32 ||| field 20 d ||| field 15 a)
  | .spfree a => some (0x52000001#32 ||| field 15 a)
  | .ecall => some (0x54000000#32)
  | .ebreak => some (0x54000001#32)
  | .eret => some (0x54000002#32)
  | .wfi => some (0x54000003#32)
  | .yield => some (0x54000004#32)
  | .halt => some (0x54000005#32)
  | .csrr d c => some (0x56000000#32 ||| field 20 d ||| field 0 c)
  | .csrw d a c => some (0x56001000#32 ||| field 20 d ||| field 15 a ||| field 0 c)
  | .csrs d a c => some (0x56002000#32 ||| field 20 d ||| field 15 a ||| field 0 c)
  | .csrc d a c => some (0x56003000#32 ||| field 20 d ||| field 15 a ||| field 0 c)
  | .vsetl d a b => some (0x60000000#32 ||| field 17 d ||| field 11 a ||| field 5 b)
  | .vdecl d a => some (0x60000001#32 ||| field 17 d ||| field 11 a)
  | .vmode m d a => some (0x60000002#32 ||| field 23 m ||| field 17 d ||| field 11 a)
  | .ixset n a d => some (0x60000003#32 ||| field 17 n ||| field 11 a ||| field 5 d)
  | .ixbnd n a d => some (0x60000004#32 ||| field 17 n ||| field 11 a ||| field 5 d)
  | .ixstep n a d => some (0x60000005#32 ||| field 17 n ||| field 11 a ||| field 5 d)
  | .ixlane n a d => some (0x60000006#32 ||| field 17 n ||| field 11 a ||| field 5 d)
  | .vmvx m d v b => some (0x60000007#32 ||| field 23 m ||| field 17 d ||| field 11 v ||| field 5 b)
  | .vmvv m d a => some (0x60000008#32 ||| field 23 m ||| field 17 d ||| field 11 a)
  | .vadd m d a b => some (0x62000000#32 ||| field 23 m ||| field 17 d ||| field 11 a ||| field 5 b)
  | .vsub m d a b => some (0x62000001#32 ||| field 23 m ||| field 17 d ||| field 11 a ||| field 5 b)
  | .vmul m d a b => some (0x62000002#32 ||| field 23 m ||| field 17 d ||| field 11 a ||| field 5 b)
  | .vmac m d a b => some (0x62000003#32 ||| field 23 m ||| field 17 d ||| field 11 a ||| field 5 b)
  | .vnmac m d a b => some (0x62000004#32 ||| field 23 m ||| field 17 d ||| field 11 a ||| field 5 b)
  | .vmin m d a b => some (0x62000005#32 ||| field 23 m ||| field 17 d ||| field 11 a ||| field 5 b)
  | .vmax m d a b => some (0x62000006#32 ||| field 23 m ||| field 17 d ||| field 11 a ||| field 5 b)
  | .vabs m d a => some (0x62000007#32 ||| field 23 m ||| field 17 d ||| field 11 a)
  | .vneg m d a => some (0x62000008#32 ||| field 23 m ||| field 17 d ||| field 11 a)
  | .vand m d a b => some (0x62000009#32 ||| field 23 m ||| field 17 d ||| field 11 a ||| field 5 b)
  | .vor m d a b => some (0x6200000A#32 ||| field 23 m ||| field 17 d ||| field 11 a ||| field 5 b)
  | .vxor m d a b => some (0x6200000B#32 ||| field 23 m ||| field 17 d ||| field 11 a ||| field 5 b)
  | .vsll m d a b => some (0x6200000C#32 ||| field 23 m ||| field 17 d ||| field 11 a ||| field 5 b)
  | .vsrl m d a b => some (0x6200000D#32 ||| field 23 m ||| field 17 d ||| field 11 a ||| field 5 b)
  | .vsra m d a b => some (0x6200000E#32 ||| field 23 m ||| field 17 d ||| field 11 a ||| field 5 b)
  | .vcmpeq m d a b => some (0x6200000F#32 ||| field 23 m ||| field 17 d ||| field 11 a ||| field 5 b)
  | .vcmpne m d a b => some (0x62000010#32 ||| field 23 m ||| field 17 d ||| field 11 a ||| field 5 b)
  | .vcmplt m d a b => some (0x62000011#32 ||| field 23 m ||| field 17 d ||| field 11 a ||| field 5 b)
  | .vcmple m d a b => some (0x62000012#32 ||| field 23 m ||| field 17 d ||| field 11 a ||| field 5 b)
  | .vmerge m d a b => some (0x62000013#32 ||| field 23 m ||| field 17 d ||| field 11 a ||| field 5 b)
  | .vdiv m d a b => some (0x62000014#32 ||| field 23 m ||| field 17 d ||| field 11 a ||| field 5 b)
  | .vsqrt m d a => some (0x62000015#32 ||| field 23 m ||| field 17 d ||| field 11 a)
  | .vrcp m d a => some (0x62000016#32 ||| field 23 m ||| field 17 d ||| field 11 a)
  | .vrsq m d a => some (0x62000017#32 ||| field 23 m ||| field 17 d ||| field 11 a)
  | .vexp2 m d a => some (0x62000018#32 ||| field 23 m ||| field 17 d ||| field 11 a)
  | .vlog2 m d a => some (0x62000019#32 ||| field 23 m ||| field 17 d ||| field 11 a)
  | .vclass m d a => some (0x6200001A#32 ||| field 23 m ||| field 17 d ||| field 11 a)
  | .vconj m d a => some (0x6200001B#32 ||| field 23 m ||| field 17 d ||| field 11 a)
  | .vcvt m d a t => some (0x64000000#32 ||| field 23 m ||| field 17 d ||| field 11 a ||| field 5 t)
  | .vqnt m d a b => some (0x64000001#32 ||| field 23 m ||| field 17 d ||| field 11 a ||| field 5 b)
  | .vdqnt m d a b => some (0x64000002#32 ||| field 23 m ||| field 17 d ||| field 11 a ||| field 5 b)
  | .vqi8 m d a b => some (0x64000003#32 ||| field 23 m ||| field 17 d ||| field 11 a ||| field 5 b)
  | .vshrr m d a b => some (0x64000004#32 ||| field 23 m ||| field 17 d ||| field 11 a ||| field 5 b)
  | .vredsum m d a => some (0x66000000#32 ||| field 23 m ||| field 17 d ||| field 11 a)
  | .vredmax m d a => some (0x66000001#32 ||| field 23 m ||| field 17 d ||| field 11 a)
  | .vredmin m d a => some (0x66000002#32 ||| field 23 m ||| field 17 d ||| field 11 a)
  | .vredand m d a => some (0x66000003#32 ||| field 23 m ||| field 17 d ||| field 11 a)
  | .vredor m d a => some (0x66000004#32 ||| field 23 m ||| field 17 d ||| field 11 a)
  | .vscansum m d a => some (0x66000005#32 ||| field 23 m ||| field 17 d ||| field 11 a)
  | .vslideup m d a b => some (0x68000000#32 ||| field 23 m ||| field 17 d ||| field 11 a ||| field 5 b)
  | .vslidedn m d a b => some (0x68000001#32 ||| field 23 m ||| field 17 d ||| field 11 a ||| field 5 b)
  | .vgathr m d a b => some (0x68000002#32 ||| field 23 m ||| field 17 d ||| field 11 a ||| field 5 b)
  | .vcompress m d a => some (0x68000003#32 ||| field 23 m ||| field 17 d ||| field 11 a)
  | .vexpand m d a => some (0x68000004#32 ||| field 23 m ||| field 17 d ||| field 11 a)
  | .vbcast m d a => some (0x68000005#32 ||| field 23 m ||| field 17 d ||| field 11 a)
  | .viota m d => some (0x68000006#32 ||| field 23 m ||| field 17 d)
  | .mand m d a b => some (0x6A000000#32 ||| field 23 m ||| field 17 d ||| field 11 a ||| field 5 b)
  | .mor m d a b => some (0x6A000001#32 ||| field 23 m ||| field 17 d ||| field 11 a ||| field 5 b)
  | .mxor m d a b => some (0x6A000002#32 ||| field 23 m ||| field 17 d ||| field 11 a ||| field 5 b)
  | .mnot m d a => some (0x6A000003#32 ||| field 23 m ||| field 17 d ||| field 11 a)
  | .mpop m d a => some (0x6A000004#32 ||| field 23 m ||| field 17 d ||| field 11 a)
  | .mfirst m d a => some (0x6A000005#32 ||| field 23 m ||| field 17 d ||| field 11 a)
  | .msetvl m d a => some (0x6A000006#32 ||| field 23 m ||| field 17 d ||| field 11 a)
  | .vld m d a r => some (0x6C000000#32 ||| field 23 m ||| field 17 d ||| field 12 a ||| field 4 r)
  | .vlds m d a b r => some (0x6C000001#32 ||| field 23 m ||| field 17 d ||| field 12 a ||| field 6 b ||| field 4 r)
  | .vldg m d a i r => some (0x6C000002#32 ||| field 23 m ||| field 17 d ||| field 12 a ||| field 6 i ||| field 4 r)
  | .vldseg m d a n r => some (0x6C000003#32 ||| field 23 m ||| field 17 d ||| field 12 a ||| field 9 n ||| field 4 r)
  | .vst m d a => some (0x6C000004#32 ||| field 23 m ||| field 17 d ||| field 12 a)
  | .vsts m d a b => some (0x6C000005#32 ||| field 23 m ||| field 17 d ||| field 12 a ||| field 6 b)
  | .vstsc m d a i => some (0x6C000006#32 ||| field 23 m ||| field 17 d ||| field 12 a ||| field 6 i)
  | .vstseg m d a n => some (0x6C000007#32 ||| field 23 m ||| field 17 d ||| field 12 a ||| field 9 n)
  | .mmode d a => some (0x70000000#32 ||| field 12 d ||| field 6 a)
  | .opa m y x n a b => some (0x70100000#32 ||| field 18 m ||| field 16 y ||| field 15 x ||| field 12 n ||| field 6 a ||| field 0 b)
  | .azero n => some (0x70200000#32 ||| field 12 n)
  | .acld n a b => some (0x70300000#32 ||| field 12 n ||| field 6 a ||| field 0 b)
  | .acrd m n d c b => some (0x70400000#32 ||| field 18 m ||| field 12 n ||| field 6 d ||| field 5 c ||| field 0 b)
  | .acst m n a c => some (0x70500000#32 ||| field 18 m ||| field 12 n ||| field 6 a ||| field 0 c)
  | .mexit => some (0x70600000#32)
  | .cbld k m p a => some (0x72000000#32 ||| field 12 k ||| field 6 m ||| field 5 p ||| field 0 a)
  | .tbld m f d v c => some (0x72100000#32 ||| field 18 m ||| field 17 f ||| field 12 d ||| field 6 v ||| field 0 c)
  | .lka k m a => some (0x72200000#32 ||| field 12 k ||| field 6 m ||| field 0 a)
  | .nbset d m a => some (0x72300000#32 ||| field 12 d ||| field 6 m ||| field 0 a)
  | .nbld k m a => some (0x72400000#32 ||| field 12 k ||| field 6 m ||| field 0 a)
  | .nbrun k m a => some (0x72500000#32 ||| field 12 k ||| field 6 m ||| field 0 a)
  | .nbstat d m c => some (0x72600000#32 ||| field 12 d ||| field 6 m ||| field 5 c)
  | .nbdrain s c m a => some (0x72700000#32 ||| field 17 s ||| field 12 c ||| field 6 m ||| field 0 a)
  | .tcopy k s => some (0x74000000#32 ||| field 12 k ||| field 6 s)
  | .tstat d s c => some (0x74100000#32 ||| field 12 d ||| field 6 s ||| field 5 c)
  | .poolMarker n => some (0xFE000000#32 ||| field 0 n)
  | .rend => none
  | .ract _ _ => none
  | .radd _ _ _ => none
  | .rshadd _ _ _ _ _ => none
  | .rcopy _ _ => none
  | .rclr _ _ => none
  | .racc _ _ _ => none
  | .rlka _ _ => none
  | .rbr _ => none
  | .rloop _ _ => none
  | .rsync => none
  | .notifyWrite _ _ _ _ _ => none
  | .queueMap _ _ => none
  | .queueIdleTimeout _ _ => none
  | .packetEnterWindow _ _ => none
  | .packetLaunch _ _ => none
  | .packetComplete _ _ _ => none
  | .dispatch _ => none
  | .priorityPreemptTimeout _ => none
  | .hartPreempt _ => none
  | .hartPromotion _ => none
  | .vrfBankDrowsy _ _ _ => none
  | .vrfRefreshStep _ _ _ => none
  | .wfiTimeout _ => none
  | .kernelWatchdogExpiry _ => none
  | .watchdogGraceExpiry _ => none
  | .trapEntry _ _ => none
  | .pageFaultService _ _ _ => none
  | .furlongCommit _ => none
  | .furlongRewind _ => none
  | .jobEndByError _ _ => none
  | .memoryFrontRequest _ _ _ _ => none
  | .bloomSliceClear _ _ => none
  | .atomicAtHome _ _ _ _ _ => none
  | .regionAtHome _ => none
  | .walkStart _ => none
  | .walkObjectVisit _ => none
  | .walkComplete _ => none
  | .bankCommandStart _ => none
  | .bankCommandComplete _ => none
  | .reductionDrain _ => none
  | .rowOperationEnd _ => none
  | .bankOrdinaryRequest _ _ => none
  | .suspensionWindowEnd _ => none
  | .arbitrationWindowBoundary _ => none
  | .powerBudgetExceeded _ => none
  | .matrixOperation _ => none
  | .tcopyRow _ => none
  | .tcopyComplete _ => none
  | .tcopyStop _ _ _ => none
  | .errorBankEvent _ _ => none
  | .errorBankReadAndClear _ _ => none
  | .errorCountWindowEnd _ => none
  | .completionTimeout _ _ => none
  | .postedWriteTimeout _ _ => none
  | .pcieAtomicopCompletion _ _ _ => none
  | .repairCommit _ => none
  | .coreReplace _ _ => none
  | .rowSpareCopy _ _ => none
  | .channelCopy _ _ => none
  | .cacheRowSpare _ _ => none
  | .scrubRead _ _ => none
  | .sramRailChange _ _ => none
  | .flitReceive _ _ => none
  | .nulFlitTimer _ => none
  | .laneLockLoss _ => none
  | .moduleRetrainEnd _ _ => none
  | .fonakRead _ => none
  | .fonakPostedWrite _ => none
  | .fonakAtomic _ => none
  | .fonakRegion _ => none
  | .fonakFenceMarker _ => none
  | .fonakInterrupt _ => none
  | .fonakCheckout _ => none
  | .fonakCheckIn _ => none
  | .fonakRecall _ => none
  | .fonakCompletion _ => none
  | .fonakMulticastWrite _ _ => none
  | .eseqGapTimeout _ => none
  | .resendRequest _ _ => none
  | .routerCreditTimeout _ _ _ => none
  | .planeDead _ => none
  | .planeQuiesce _ => none
  | .planeDrainComplete _ => none
  | .planeRemap _ => none
  | .planeResume _ => none
  | .firmwareHeartbeat _ => none
  | .firmwareWatchdogExpiry _ _ => none
  | .deadmanRefresh => none
  | .deadmanExpiry => none
  | .class5Declare _ _ => none
  | .powerGood _ => none
  | .stackManagersReady _ => none
  | .frontEndsReady => none
  | .claim _ _ => none
  | .handoff _ _ => none
  | .powerWrite _ _ => none
  | .registerWrite _ _ _ => none
  | .leaseWarning => none
  | .leaseExpiry => none
  | .bar2Read _ _ => none
  | .bar2Write _ _ => none
  | .jobcreate _ => none
  | .jobend _ => none
  | .setroot _ => none
  | .inval _ => none
  | .qstop _ => none
  | .setqtab _ => none
  | .kreg _ => none
  | .setbar2 _ => none
  | .setdev _ => none
  | .setpcap _ => none
  | .setmcast _ => none
  | .attest _ => none
  | .readlog _ => none
  | .seterrmsg _ => none
  | .jobstat _ => none
  | .qrestart _ => none
  | .repairs _ => none
  | .packageReset => none
  | .debuggerHalt _ => none
  | .debuggerResume _ => none
  | .errorMessageDelivered => none
  | .resendsCompleteSignal _ => none
  | .channelCopyRow _ => none
  | .ordinaryRequestDataMoved _ => none

/-- The 16-bit half-word of a µop; the other rows have none. -/
def encodeMicro (i : Instr) : Option (BitVec 16) :=
  match i with
  | .add _ _ _ => none
  | .sub _ _ _ => none
  | .and _ _ _ => none
  | .or _ _ _ => none
  | .xor _ _ _ => none
  | .sll _ _ _ => none
  | .srl _ _ _ => none
  | .sra _ _ _ => none
  | .slt _ _ _ => none
  | .sltu _ _ _ => none
  | .min _ _ _ => none
  | .max _ _ _ => none
  | .minu _ _ _ => none
  | .maxu _ _ _ => none
  | .clz _ _ => none
  | .ctz _ _ => none
  | .popc _ _ => none
  | .mul _ _ _ => none
  | .mulh _ _ _ => none
  | .mulhu _ _ _ => none
  | .div _ _ _ => none
  | .divu _ _ _ => none
  | .rem _ _ _ => none
  | .remu _ _ _ => none
  | .addi _ _ _ => none
  | .andi _ _ _ => none
  | .ori _ _ _ => none
  | .xori _ _ _ => none
  | .slti _ _ _ => none
  | .sltiu _ _ _ => none
  | .slli _ _ _ => none
  | .srli _ _ _ => none
  | .srai _ _ _ => none
  | .lui _ _ => none
  | .auipc _ _ => none
  | .jal _ _ => none
  | .jalr _ _ _ => none
  | .beq _ _ _ => none
  | .bne _ _ _ => none
  | .blt _ _ _ => none
  | .bge _ _ _ => none
  | .bltu _ _ _ => none
  | .bgeu _ _ _ => none
  | .lb _ _ _ _ => none
  | .lh _ _ _ _ => none
  | .lw _ _ _ _ => none
  | .ld _ _ _ _ => none
  | .lbu _ _ _ _ => none
  | .lhu _ _ _ _ => none
  | .lwu _ _ _ _ => none
  | .ldacq _ _ _ _ _ => none
  | .sb _ _ _ => none
  | .sh _ _ _ => none
  | .sw _ _ _ => none
  | .sd _ _ _ => none
  | .sdrel _ _ _ _ => none
  | .ldref _ _ _ _ _ _ => none
  | .sdref _ _ _ => none
  | .spub _ _ _ _ => none
  | .rtag _ _ _ => none
  | .objinit _ _ _ => none
  | .amoadd _ _ _ _ _ _ _ => none
  | .amoswap _ _ _ _ _ _ _ => none
  | .amocas _ _ _ _ _ _ _ => none
  | .amomin _ _ _ _ _ _ _ => none
  | .amomax _ _ _ _ _ _ _ => none
  | .amominu _ _ _ _ _ _ _ => none
  | .amomaxu _ _ _ _ _ _ _ => none
  | .amoand _ _ _ _ _ _ _ => none
  | .amoor _ _ _ _ _ _ _ => none
  | .amoxor _ _ _ _ _ _ _ => none
  | .alrb => none
  | .alre _ _ _ => none
  | .fence _ _ => none
  | .vdrain => none
  | .binit _ => none
  | .barr _ _ => none
  | .bwait _ _ => none
  | .ljoin _ _ => none
  | .lleave => none
  | .waitc _ _ _ => none
  | .spalloc _ _ => none
  | .spfree _ => none
  | .ecall => none
  | .ebreak => none
  | .eret => none
  | .wfi => none
  | .yield => none
  | .halt => none
  | .csrr _ _ => none
  | .csrw _ _ _ => none
  | .csrs _ _ _ => none
  | .csrc _ _ _ => none
  | .vsetl _ _ _ => none
  | .vdecl _ _ => none
  | .vmode _ _ _ => none
  | .ixset _ _ _ => none
  | .ixbnd _ _ _ => none
  | .ixstep _ _ _ => none
  | .ixlane _ _ _ => none
  | .vmvx _ _ _ _ => none
  | .vmvv _ _ _ => none
  | .vadd _ _ _ _ => none
  | .vsub _ _ _ _ => none
  | .vmul _ _ _ _ => none
  | .vmac _ _ _ _ => none
  | .vnmac _ _ _ _ => none
  | .vmin _ _ _ _ => none
  | .vmax _ _ _ _ => none
  | .vabs _ _ _ => none
  | .vneg _ _ _ => none
  | .vand _ _ _ _ => none
  | .vor _ _ _ _ => none
  | .vxor _ _ _ _ => none
  | .vsll _ _ _ _ => none
  | .vsrl _ _ _ _ => none
  | .vsra _ _ _ _ => none
  | .vcmpeq _ _ _ _ => none
  | .vcmpne _ _ _ _ => none
  | .vcmplt _ _ _ _ => none
  | .vcmple _ _ _ _ => none
  | .vmerge _ _ _ _ => none
  | .vdiv _ _ _ _ => none
  | .vsqrt _ _ _ => none
  | .vrcp _ _ _ => none
  | .vrsq _ _ _ => none
  | .vexp2 _ _ _ => none
  | .vlog2 _ _ _ => none
  | .vclass _ _ _ => none
  | .vconj _ _ _ => none
  | .vcvt _ _ _ _ => none
  | .vqnt _ _ _ _ => none
  | .vdqnt _ _ _ _ => none
  | .vqi8 _ _ _ _ => none
  | .vshrr _ _ _ _ => none
  | .vredsum _ _ _ => none
  | .vredmax _ _ _ => none
  | .vredmin _ _ _ => none
  | .vredand _ _ _ => none
  | .vredor _ _ _ => none
  | .vscansum _ _ _ => none
  | .vslideup _ _ _ _ => none
  | .vslidedn _ _ _ _ => none
  | .vgathr _ _ _ _ => none
  | .vcompress _ _ _ => none
  | .vexpand _ _ _ => none
  | .vbcast _ _ _ => none
  | .viota _ _ => none
  | .mand _ _ _ _ => none
  | .mor _ _ _ _ => none
  | .mxor _ _ _ _ => none
  | .mnot _ _ _ => none
  | .mpop _ _ _ => none
  | .mfirst _ _ _ => none
  | .msetvl _ _ _ => none
  | .vld _ _ _ _ => none
  | .vlds _ _ _ _ _ => none
  | .vldg _ _ _ _ _ => none
  | .vldseg _ _ _ _ _ => none
  | .vst _ _ _ => none
  | .vsts _ _ _ _ => none
  | .vstsc _ _ _ _ => none
  | .vstseg _ _ _ _ => none
  | .mmode _ _ => none
  | .opa _ _ _ _ _ _ => none
  | .azero _ => none
  | .acld _ _ _ => none
  | .acrd _ _ _ _ _ => none
  | .acst _ _ _ _ => none
  | .mexit => none
  | .cbld _ _ _ _ => none
  | .tbld _ _ _ _ _ => none
  | .lka _ _ _ => none
  | .nbset _ _ _ => none
  | .nbld _ _ _ => none
  | .nbrun _ _ _ => none
  | .nbstat _ _ _ => none
  | .nbdrain _ _ _ _ => none
  | .tcopy _ _ => none
  | .tstat _ _ _ => none
  | .poolMarker _ => none
  | .rend => some (0x0000#16)
  | .ract n i => some (0x1000#16 ||| microField 10 n ||| microField 9 i)
  | .radd n i w => some (0x2000#16 ||| microField 10 n ||| microField 9 i ||| microField 7 w)
  | .rshadd n i w s g => some (0x3000#16 ||| microField 10 n ||| microField 9 i ||| microField 7 w ||| microField 3 s ||| microField 2 g)
  | .rcopy n i => some (0x4000#16 ||| microField 10 n ||| microField 9 i)
  | .rclr n i => some (0x5000#16 ||| microField 10 n ||| microField 9 i)
  | .racc n i w => some (0x6000#16 ||| microField 10 n ||| microField 9 i ||| microField 7 w)
  | .rlka n i => some (0x7000#16 ||| microField 10 n ||| microField 9 i)
  | .rbr t => some (0x8000#16 ||| microField 0 t)
  | .rloop c t => some (0x9000#16 ||| microField 11 c ||| microField 0 t)
  | .rsync => some (0xA000#16)
  | .notifyWrite _ _ _ _ _ => none
  | .queueMap _ _ => none
  | .queueIdleTimeout _ _ => none
  | .packetEnterWindow _ _ => none
  | .packetLaunch _ _ => none
  | .packetComplete _ _ _ => none
  | .dispatch _ => none
  | .priorityPreemptTimeout _ => none
  | .hartPreempt _ => none
  | .hartPromotion _ => none
  | .vrfBankDrowsy _ _ _ => none
  | .vrfRefreshStep _ _ _ => none
  | .wfiTimeout _ => none
  | .kernelWatchdogExpiry _ => none
  | .watchdogGraceExpiry _ => none
  | .trapEntry _ _ => none
  | .pageFaultService _ _ _ => none
  | .furlongCommit _ => none
  | .furlongRewind _ => none
  | .jobEndByError _ _ => none
  | .memoryFrontRequest _ _ _ _ => none
  | .bloomSliceClear _ _ => none
  | .atomicAtHome _ _ _ _ _ => none
  | .regionAtHome _ => none
  | .walkStart _ => none
  | .walkObjectVisit _ => none
  | .walkComplete _ => none
  | .bankCommandStart _ => none
  | .bankCommandComplete _ => none
  | .reductionDrain _ => none
  | .rowOperationEnd _ => none
  | .bankOrdinaryRequest _ _ => none
  | .suspensionWindowEnd _ => none
  | .arbitrationWindowBoundary _ => none
  | .powerBudgetExceeded _ => none
  | .matrixOperation _ => none
  | .tcopyRow _ => none
  | .tcopyComplete _ => none
  | .tcopyStop _ _ _ => none
  | .errorBankEvent _ _ => none
  | .errorBankReadAndClear _ _ => none
  | .errorCountWindowEnd _ => none
  | .completionTimeout _ _ => none
  | .postedWriteTimeout _ _ => none
  | .pcieAtomicopCompletion _ _ _ => none
  | .repairCommit _ => none
  | .coreReplace _ _ => none
  | .rowSpareCopy _ _ => none
  | .channelCopy _ _ => none
  | .cacheRowSpare _ _ => none
  | .scrubRead _ _ => none
  | .sramRailChange _ _ => none
  | .flitReceive _ _ => none
  | .nulFlitTimer _ => none
  | .laneLockLoss _ => none
  | .moduleRetrainEnd _ _ => none
  | .fonakRead _ => none
  | .fonakPostedWrite _ => none
  | .fonakAtomic _ => none
  | .fonakRegion _ => none
  | .fonakFenceMarker _ => none
  | .fonakInterrupt _ => none
  | .fonakCheckout _ => none
  | .fonakCheckIn _ => none
  | .fonakRecall _ => none
  | .fonakCompletion _ => none
  | .fonakMulticastWrite _ _ => none
  | .eseqGapTimeout _ => none
  | .resendRequest _ _ => none
  | .routerCreditTimeout _ _ _ => none
  | .planeDead _ => none
  | .planeQuiesce _ => none
  | .planeDrainComplete _ => none
  | .planeRemap _ => none
  | .planeResume _ => none
  | .firmwareHeartbeat _ => none
  | .firmwareWatchdogExpiry _ _ => none
  | .deadmanRefresh => none
  | .deadmanExpiry => none
  | .class5Declare _ _ => none
  | .powerGood _ => none
  | .stackManagersReady _ => none
  | .frontEndsReady => none
  | .claim _ _ => none
  | .handoff _ _ => none
  | .powerWrite _ _ => none
  | .registerWrite _ _ _ => none
  | .leaseWarning => none
  | .leaseExpiry => none
  | .bar2Read _ _ => none
  | .bar2Write _ _ => none
  | .jobcreate _ => none
  | .jobend _ => none
  | .setroot _ => none
  | .inval _ => none
  | .qstop _ => none
  | .setqtab _ => none
  | .kreg _ => none
  | .setbar2 _ => none
  | .setdev _ => none
  | .setpcap _ => none
  | .setmcast _ => none
  | .attest _ => none
  | .readlog _ => none
  | .seterrmsg _ => none
  | .jobstat _ => none
  | .qrestart _ => none
  | .repairs _ => none
  | .packageReset => none
  | .debuggerHalt _ => none
  | .debuggerResume _ => none
  | .errorMessageDelivered => none
  | .resendsCompleteSignal _ => none
  | .channelCopyRow _ => none
  | .ordinaryRequestDataMoved _ => none

/-- The bytes of an instruction in memory, lowest address first; an event has none. -/
def encode (i : Instr) : List Byte :=
  match encodeWord i, encodeMicro i with
  | some w, _ => bytesOfWord w
  | none, some h => [h.extractLsb' 0 8, h.extractLsb' 8 8]
  | none, none => []

/-- The word of an instruction as FAULTVA reports it (R366); zero for what has no word. -/
def wordOf (i : Instr) : BitVec 32 := (encodeWord i).getD 0#32

end Sys2Proof
end

