-- ==== Sys2Proof/Config.lean ====
section
/-!
DEFINITION. What the spec leaves open or gives to the implementation. Every constant here is opaque: nothing can be
proved about the value it gives. The times at the end are sums of such values.
-/

namespace Sys2Proof

/-- The cycles that one step of a core takes, by the model's own step counter: time is outside the model, so
RUNCOUNT and CYCLE advance by free amounts (R73, R171, R229). Log entry 2. -/
opaque Config.stepCycles : Nat → Nat

/-- What the bytes of an address hold when nothing the spec says fixes them, by a counter: the rows of an ended
encrypted job (R138), a remote reply that never came. Log entry 3. -/
opaque Config.freeByte : Nat → Byte

/-- The hash that chooses the set of a line in a die's twin area (R130) or remote-data cache (R132). Log entry 4. -/
opaque Config.lineHash : Nat → Nat

/-- The hash that chooses the set of a block among the 98,304 sets of a memory-side cache (R134). Log entry 4. -/
opaque Config.blockHash : Nat → Nat

/-- The XMSS signature over the bytes of an attestation report (R334, R341), by the number of one-time keys left, of which
each is used once: 9732 bytes by index. Log entry 5. -/
opaque Config.signature : Nat → List Byte → Nat → Byte

/-- The image in the boot flash that a start-up step verifies, by the step (R333). Log entry 5. -/
opaque Config.bootImage : Nat → BootImage

/-- The SHAKE256 digest of the public key that is fused into the package (R333). Log entry 5. -/
opaque Config.fusedKeyDigest : BitVec 512

/-- The address regions that a job has registered for paging when it is created, by a counter: first address and length
(R374). Log entry 79. -/
opaque Config.pagedRegions : Nat → List (Nat × Nat)

/-- The address that a fabric-remote owner has registered for interrupt messages, by the EPOCH of its ownership (R328): no
rule says how it registers one. Log entry 5. -/
opaque Config.intrAddress : Nat → Nat

/-- The AES-256-XTS key pair drawn for a job, by a counter (R340). Log entry 5. -/
opaque Config.keyPair : Nat → BitVec 512

/-- How long a step takes beyond the first attosecond, by the model's own step counter. Log entry 2. -/
opaque Config.stepTime : Nat → Nat

/-- The round trip of a module in ns (R397): about 8. Log entry 2. -/
opaque Config.roundTrip : Nat

/-- The CRC-16 of a flit of the on-die mesh (R398): no rule gives its polynomial. Log entry 84. -/
opaque Config.meshCrc : Nat → Nat

/-- The primary router of an agent of a die, by the die and the line that it sends requests for or is the home of: its place in
the 8 x 8 routers of the die (R407). No rule gives the place of an agent. Log entry 85. -/
opaque Config.primaryRouter : Nat → Nat → BitVec 6

/-- How many devices the domain of a package holds once it has been given its number, by the model's own step counter (R409).
Log entry 86. -/
opaque Config.domainSize : Nat → Nat

/-- The minor release of Terak that is loaded (R1, R341). Log entry 2. -/
opaque Config.terakMinor : BitVec 16

/-- The bytes of a record of the persistent repair log as REPAIRS copies it: the spec gives no layout of a record, only
that it names the part, its spare and the log SEQ (R359, R361). Log entry 25. -/
opaque Config.repairRecord : Part → Option Nat → Nat → List Byte

/-- The time since power-good in attoseconds at a value of the step counter: it goes on at every step. Log entry 2. -/
def Config.elapsed : Nat → Nat
  | 0 => 0
  | n + 1 => Config.elapsed n + Config.stepTime n + 1

/-- Time in ns as the two ends of a link count it (R397). Log entry 2. -/
def Config.linkTime (tick : Nat) : Nat := Config.elapsed tick / 10 ^ 9

/-- Terak's wall time in µs since power-good (R349). Log entry 2. -/
def Config.wallTime (tick : Nat) : Nat := Config.elapsed tick / 10 ^ 12

end Sys2Proof
end

