-- ==== Sys2Proof/Machine/State.lean ====
section
/-!
DEFINITION. The state of the whole package as plain data: the hart in focus and every other hart, the memory and its
caches, the bank engines, the matrix, copy and walk engines, queues and jobs, the boundary links, the error
architecture and Terak. State.reset is the package right after power-on, before the first start-up step (R332).
-/

namespace Sys2Proof.Machine

open Sys2Proof

/-! ## Harts (R22) -/

/-- Whether a hart slot is in use and by what (R65, R69, R37). -/
inductive Phase where
  /-- no hart -/
  | absent
  /-- pre-empted and saved, waiting to be placed again -/
  | waiting
  /-- placed on a core -/
  | resident
  /-- retired by HALT (R69) -/
  | retired
  /-- ended without retiring (R367, R355) -/
  | ended
  deriving DecidableEq, Repr

/-- Why a resident hart is not ready, beyond an instruction that merely waits (R70, R73). -/
inductive Wait where
  /-- ready -/
  | none
  /-- stopped at a page fault that the pager has been told of (R373) -/
  | pager (msg : FaultVals)
  /-- in a WFI: the k registers and barrier phases seen when it began (R227) -/
  | wfi (k : List Word) (phases : List (BitVec 32))
  /-- a cause has been raised and its entry waits for the furlong's commit (R239) -/
  | trap (v : FaultVals)
  deriving DecidableEq, Repr

/-- Logical place of a resident hart (R14). -/
structure Place where
  die : Nat
  core : Nat
  slot : Nat
  deriving DecidableEq, Repr

/-- What a barrier register is bound to (R45, R169). -/
structure Binding where
  league : Nat
  object : BitVec 3
  deriving DecidableEq, Repr

/-- The per-hart CSRs held as state (R171 to R174); CHK, FRW, ENC, ASID, SPBASE and PLANEMAP belong to the job or
the package. -/
structure Csrs where
  hm : Bool
  sove : Bool
  cause : Word
  epc : Word
  elemStart : Word
  faultVa : Word
  faultStride : Word
  faultRemain : Word
  tvec : Word
  scratch : Word
  flags : Word
  slip : Word
  walkSpill : Word
  walkMax : Word
  runCount : Word
  wdLimit : Word
  hartId : Word
  deriving DecidableEq, Repr

/-- A progress record: the register, its index and the PC of its producer (R38, R364). -/
structure ProgressRec where
  /-- the producer is an instruction of a trap handler, whose records no other code uses (R368) -/
  handler : Bool
  mask : Bool
  reg : Nat
  pi : Nat
  pc : Word
  deriving DecidableEq, Repr

/-- One entry of the strip store buffer (R238). -/
structure StripEntry where
  line : Nat
  data : Line
  bytes : BitVec 128
  psn : BitVec 4
  deriving DecidableEq, Repr

/-- An open rewindable furlong (R237 to R240). -/
structure Furlong where
  start : Word
  snapMask : BitVec 32
  snapX : Vector Word 32
  snapMd : Vector (BitVec 32) 4
  snapIx : Vector Word 16
  /-- registers the furlong has read before writing them -/
  xRead : BitVec 32
  xWritten : BitVec 32
  vRead : BitVec 48
  vWritten : BitVec 48
  mRead : BitVec 12
  mWritten : BitVec 12
  /-- granules of vector and mask registers written whole since the furlong opened (R394): 1024 for each vector
  register, 16 for each mask register -/
  vGranules : BitVec 49152
  mGranules : BitVec 192
  /-- this is the re-execution of a rewound furlong (R395) -/
  rewound : Bool
  /-- the furlong has been rewound and its VSETL is to execute again (R240) -/
  again : Bool
  deriving DecidableEq, Repr

/-- An operation of a hart's matrix queue with the operand values it holds claims on (R301, R310). -/
inductive MatOp where
  | outer (tile : BitVec 3) (na nb : Bool) (md : BitVec 32) (m : Nat) (a b : BitVec 4096)
  | zero (tile : BitVec 3)
  deriving DecidableEq, Repr

/-- A stopped copy (R313, R314). -/
structure CopyFault where
  /-- the copy's number, which says when it was issued -/
  id : Nat
  row : BitVec 12
  k : BitVec 4
  cause : BitVec 8
  pc : Word
  va : Word
  deriving DecidableEq, Repr

/-- An open atomic line region (R155, R218, R219): the ALRB, the body and its line. -/
structure Region where
  alrb : Word
  alre : Word
  body : List (BitVec 32)
  line : Nat
  pa : Nat
  deriving DecidableEq, Repr

/-- What a remote home has returned to a waiting hart (R324). -/
structure Reply where
  op : BitVec 6
  line : Nat
  data : Line
  psn : BitVec 4
  regs : List Word
  /-- caches of the die may take the line: nothing on the die has overtaken the read (R140) -/
  keep : Bool
  deriving DecidableEq, Repr

/-- The pinned scratchpad line of a pre-empted hart (R125). -/
structure SavedPin where
  line : Nat
  data : Line
  psn : BitVec 4
  deriving DecidableEq, Repr

/-- A hart (R22, R67). -/
structure Hart where
  uid : Nat
  phase : Phase
  place : Place
  asid : Nat
  prio : Nat
  queue : Nat
  packet : Nat
  vlLo : Nat
  vlHi : Nat
  waitCount : Nat
  promoted : Nat
  dbgHalted : Bool
  /-- its last attempt could not issue: the next instruction waits (R70) -/
  held : Bool
  /-- the dispatcher has stopped it; its save waits for its engines and its accesses (R37, R41) -/
  leaving : Bool
  /-- it has fetched since it was placed (R73) -/
  fetched : Bool
  wait : Wait
  pc : Word
  x : Vector Word 32
  v : Vector VReg 48
  vPi : Vector Nat 48
  /-- bits of each vector register, from bit 0 up to its highest written element, that a save holds (R38) -/
  vDirty : Vector Nat 48
  m : Vector MReg 12
  mPi : Vector Nat 12
  vl : Nat
  md : Vector (BitVec 32) 4
  ix : Vector Word 16
  b : Vector (Option Binding) 8
  k : Vector Word 16
  bs : Vector Word 8
  vlMax : Nat
  nregs : Nat
  aTiles : Nat
  mType : BitVec 4
  nt : Nat
  tiles : Vector Tile 8
  matQ : List MatOp
  csr : Csrs
  league : Option Nat
  copyFault : Option CopyFault
  /-- the record has been delivered at a wait point (R314) -/
  copyTold : Bool
  stopped : List CopyFault
  startElem : Nat
  /-- the element at which the instruction at the PC started, from which it has come to `startElem` (R32) -/
  elemFrom : Nat
  posWritten : Bool
  /-- it waits in a BWAIT (R49) -/
  atBarrier : Bool
  /-- its watchdog has expired and the grace runs (R377) -/
  expired : Bool
  records : List ProgressRec
  furlong : Option Furlong
  strip : List StripEntry
  region : Option Region
  /-- the atomic at the PC has passed its path check: its PC (R327, R406) -/
  pathAt : Option Word
  /-- pages of 64 KiB that the pager keeps resident until the instruction commits (R373) -/
  kept : List Nat
  /-- element groups of the instruction at the PC of which no two computations agree (R393) -/
  split : List Nat
  /-- the same of the oldest operation of its matrix queue -/
  opaSplit : Bool
  replies : List Reply
  pins : List SavedPin
  /-- poisoned granules of vector registers, mask registers and tiles: register and granule (R352) -/
  vPsn : List (Nat × Nat)
  mPsn : List (Nat × Nat)
  tPsn : List (Nat × Nat)
  deriving DecidableEq, Repr

/-! ## Memory and caches (R110 to R138) -/

/-- A line of a core's L1 or instruction cache (R124, R128). -/
structure CoreLine where
  die : Nat
  core : Nat
  asid : Nat
  line : Nat
  /-- its global physical line number, and the leaf under which it was filled (R115); zero for a scratchpad line -/
  pa : Nat
  leaf : Word
  way : Nat
  rrpv : Nat
  data : Line
  tags : BitVec 16
  psn : BitVec 4
  /-- the hart that pinned it as scratchpad (R125) -/
  pin : Option Nat
  deriving DecidableEq, Repr

/-- A line of a die's L2 (R126, R129, R146). -/
structure L2Line where
  die : Nat
  asid : Nat
  line : Nat
  /-- its global physical line number, and the leaf under which it was filled (R115) -/
  pa : Nat
  leaf : Word
  way : Nat
  rrpv : Nat
  data : Line
  tags : BitVec 16
  psn : BitVec 4
  dirty : BitVec 128
  writers : BitVec 48
  /-- cores of the die that have acquired at die scope or wider since the line was written: what they release covers the
  line too (R144; log entry 46) -/
  heirs : BitVec 48
  /-- checked out under R129 -/
  out : Bool
  deriving DecidableEq, Repr

/-- A translation held by a memory front (R115). -/
structure Tlb where
  die : Nat
  front : Nat
  asid : Nat
  /-- the first address of the page, and log2 of its size -/
  page : Nat
  bits : Nat
  pte : Word
  deriving DecidableEq, Repr

/-- A twin record of a home die with its line (R129, R130), in the twin area of the job of an ASID. -/
structure Twin where
  die : Nat
  asid : Nat
  set : Nat
  way : Nat
  line : Nat
  writer : Nat
  data : Line
  tags : BitVec 16
  psn : BitVec 4
  deriving DecidableEq, Repr

/-- A record of a die's remote-data cache with its line (R132), in the area of the job of an ASID. -/
structure RdcLine where
  die : Nat
  asid : Nat
  set : Nat
  way : Nat
  line : Nat
  gen : BitVec 16
  data : Line
  tags : BitVec 16
  psn : BitVec 4
  deriving DecidableEq, Repr

/-- A block of a memory-side cache: its sectors' valid and dirty bits (R134). -/
structure MscBlock where
  stack : Nat
  block : Nat
  way : Nat
  rrpv : Nat
  valid : BitVec 8
  dirty : BitVec 8
  /-- the reserved rows by which its lines were placed (R120) -/
  bl : Nat
  deriving DecidableEq, Repr

/-- A second-touch filter slice (R135). -/
structure Bloom where
  stack : Nat
  slice : Nat
  bits : BitVec 65536
  misses : Nat
  deriving DecidableEq, Repr

/-- Memory, its caches and their bookkeeping. -/
structure MemSys where
  /-- every byte of the device's interleaved and bank-linear regions that is not what an unlisted address reads as -/
  bytes : List Host.Cell
  /-- numbers of the 32-byte granules that carry a poison mark, ascending (R352) -/
  poison : List Nat
  /-- granules written whole since their line's tags came into doubt: line and granules (R381) -/
  sure : List (Nat × BitVec 4)
  /-- 16-byte blocks held encrypted, with their key slot (R137); the other blocks are plaintext -/
  keys : List (Nat × Nat)
  l1 : List CoreLine
  icache : List CoreLine
  l2 : List L2Line
  tlb : List Tlb
  twins : List Twin
  /-- round-robin pointers of twin sets that have moved (R130): home die, job, set and pointer -/
  twinPtr : List (Nat × Nat × Nat × Nat)
  rdc : List RdcLine
  gen : Vector (BitVec 16) 4
  msc : List MscBlock
  blooms : List Bloom
  /-- memory-side caches in victim-only mode, by stack (R136) -/
  victimOnly : Vector Bool 16
  /-- tag ways of a memory-side cache taken out of use (R388): stack, and the cache row 16 x set + way -/
  mscDisabled : List (Nat × Nat)
  /-- dies whose L2 is in DEC-TED mode (R382), and whose SRAM rail is below VT (R383) -/
  decTed : Vector Bool 4
  railLow : Vector Bool 4
  /-- drowsy banks of register files: die, core, bank (R31) -/
  drowsy : List (Nat × Nat × Nat)
  deriving DecidableEq, Repr

/-! ## Bank engines (R267) -/

/-- A column class of a shape (R268): its index width, group size, source class, activation vector, and the first
sub-array of its pecks (R269). -/
structure ColClass where
  num : Nat
  b : Nat
  g : Nat
  src : Nat
  tok : Nat
  sub : Nat
  deriving DecidableEq, Repr

/-- The shape of a bank: its enabled classes in class order and its window (R268). -/
structure Shape where
  classes : List ColClass
  kw : Nat
  deriving DecidableEq, Repr

/-- A command as it stands in a bank's queue, its payload captured at issue (R275). -/
inductive BankOp where
  | codebook (data : BitVec 128) (psn : BitVec 16)
  /-- the differences d of the slice, by class, k-group and position flattened per class, and which are poisoned -/
  | build (shape : Shape) (d : List (List Int)) (psn : List (List Bool))
  | lookup (start q abase row : Nat)
  | store (data : BitVec 1024) (psn : BitVec 64)
  | run (block : BitVec 256) (row span : Nat)
  | drain
  deriving DecidableEq, Repr

/-- A bank's view of a queued command: the command's number and payload. -/
structure BankCmd where
  cmd : Nat
  op : BankOp
  deriving DecidableEq, Repr

/-- What a running command is doing: rows of a lookup still to go, or a microprogram (R282, R284). -/
inductive BankRun where
  | idle
  | lookup (cmd start q abase row done : Nat)
  | program (cmd row span : Nat)
  deriving DecidableEq, Repr

/-- A bank engine (R267) with its ordinary requests (R292). -/
structure Bank where
  codebook : BitVec 128
  codebookPsn : BitVec 16
  bushel : BitVec 98304
  bushelPsn : BitVec 4096
  /-- the mod-3 residue of each bushel entry, two bits each (R389) -/
  bushelRes : BitVec 8192
  shape : Option Shape
  acc : BitVec 32768
  /-- the mod-3 residue of each accumulator, two bits each (R389) -/
  accRes : BitVec 2048
  accPsn : BitVec 1024
  /-- accumulators whose residue mismatch is still to be logged (R389) -/
  mismatched : List Nat
  micro : BitVec 1024
  microPsn : BitVec 64
  latch : BitVec 8192
  latchPsn : BitVec 32
  upc : Nat
  p : Vector (BitVec 14) 4
  lc : Vector (BitVec 16) 2
  ab : BitVec 10
  qb : BitVec 16
  qn : BitVec 16
  sat : Bool
  rsat : Bool
  err : Bool
  errCode : BitVec 8
  /-- NV, DZ, OF, UF, NX of f32 drains, as FLAGS numbers them -/
  flags : BitVec 5
  queue : List BankCmd
  run : BankRun
  susp : Bool
  pending : List OrdReq
  /-- the request whose data are moving, and how many have started in the window (R294) -/
  moving : Option OrdReq
  started : Nat
  /-- a suspension has ended and the next row operation comes first (R294) -/
  resumed : Bool
  deriving DecidableEq, Repr

/-- A bank command in flight over its set (R275, R277). -/
structure Cmd where
  id : Nat
  uid : Nat
  asid : Nat
  k : Nat
  bank : Nat
  count : Nat
  /-- per bank of the set: sync points passed and whether it has ended -/
  state : List (Nat × Nat × Bool)
  /-- how many times kN has been increased for it -/
  counted : Nat
  /-- the control word, drain block and shifts of an NBDRAIN -/
  drain : Option (Word × BitVec 256 × List (BitVec 8))
  stream : Bool
  /-- columns whose sum the reduction unit forms wrongly (R390) -/
  badSums : List Nat
  deriving DecidableEq, Repr

/-! ## Copies and walks -/

/-- A tile copy in flight (R311): its quad, where it stands and the hart it belongs to. -/
structure Copy where
  id : Nat
  uid : Nat
  place : Place
  asid : Nat
  pc : Word
  k : Nat
  src : Word
  dst : Word
  strides : Word
  shape : Word
  row : Nat
  /-- the bytes of its current row that it has read, and how many pieces of the row it has written (R311) -/
  got : List Byte
  put : Nat
  /-- its destination range in the range scoreboard of its core (R168) -/
  range : Option (Nat × Nat)
  deriving DecidableEq, Repr

/-- How a walk stands (R162, R214). -/
inductive WalkState where
  | queued
  | active
  /-- stopped: cause, FAULTVA, objects counted, entries on the stack -/
  | stopped (cause : BitVec 8) (va : Word) (count depth : Nat)
  deriving DecidableEq, Repr

/-- A walk forked by an SPUB (R159). -/
structure Walk where
  id : Nat
  uid : Nat
  die : Nat
  core : Nat
  asid : Nat
  scope : BitVec 2
  field : Word
  ref : Word
  stack : List (Word × Bool)
  count : Nat
  state : WalkState
  deriving DecidableEq, Repr

/-! ## Queues, jobs and leagues -/

/-- A packet's harts on one die not yet placed: the next number and the end of the range (R64). -/
structure Range where
  die : Nat
  next : Nat
  stop : Nat
  deriving DecidableEq, Repr

/-- An entry of a queue's window (R62). -/
structure Entry where
  idx : Nat
  packet : BitVec 1024
  eligible : Bool
  launched : Bool
  complete : Bool
  failed : Bool
  /-- the error code of its failure (R60), 0 if none -/
  code : Nat
  ranges : List Range
  alive : Nat
  /-- when it launched, as a number that grows with every launch -/
  order : Nat
  /-- cores that have received a hart of the packet (R128) -/
  cores : List (Nat × Nat)
  deriving DecidableEq, Repr

/-- A hardware queue slot with a mapped queue (R54, R56, R62). -/
structure Slot where
  die : Nat
  slot : Nat
  qid : Nat
  writeIdx : Nat
  readIdx : Nat
  retireIdx : Nat
  tokens : Word
  window : List Entry
  /-- the step at which it last turned idle (R56) -/
  idleSince : Nat
  deriving DecidableEq, Repr

/-- A failed queue's failure record (R367). -/
structure FailRecord where
  qid : Nat
  asid : Nat
  hartId : Word
  epc : Word
  elem : Nat
  cause : Word
  deriving DecidableEq, Repr

/-- A job-end record (R355, R418). -/
structure JobEnd where
  asid : Nat
  seq : Nat
  harts : List FailRecord
  deriving DecidableEq, Repr

/-- A job (R339, R340). -/
structure Job where
  asid : Nat
  enc : Bool
  chk : Bool
  frw : Bool
  bl : Nat
  rdcGib : Nat
  twinQ : Nat
  spBase : Word
  banks : BitVec 65536
  rb : Vector Nat 4
  rn : Vector Nat 4
  carve : Vector Nat 4
  key : Nat
  kernels : List (Word × Nat × Nat)
  /-- regions registered for paging (R374): first address and length -/
  paged : List (Nat × Nat)
  /-- dies whose interleaved space was barred to new jobs when it was created (R357) -/
  barred : List Nat
  deriving DecidableEq, Repr

/-- A barrier object (R45, R225). -/
structure Barrier where
  c : BitVec 32
  /-- harts that arrived at the current phase -/
  arrived : List Nat
  /-- completed phases and their phase scopes (R47) -/
  scopes : List (BitVec 32 × BitVec 2)
  /-- harts that have arrived one phase ahead (R46, R225) -/
  early : List Nat
  deriving DecidableEq, Repr

/-- A member of a league with its next phase per barrier (R225). -/
structure Member where
  uid : Nat
  next : Vector (BitVec 32) 8
  deriving DecidableEq, Repr

/-- A league (R42 to R47). -/
structure League where
  id : Nat
  owner : Nat
  members : List Member
  objects : Vector Barrier 8
  deriving DecidableEq, Repr

/-- The front ends: queues, slots, jobs, leagues and configuration (R50 to R66, R337 to R340). -/
structure FrontEnd where
  qtab : Nat
  qcount : Nat
  slots : List Slot
  /-- queues whose mapping request waits, oldest first (R57) -/
  mapWait : List Nat
  /-- windows of failed queues that are no longer mapped, by queue (R57, R361) -/
  held : List (Nat × List Entry)
  /-- mailbox commands that still run, by CMD, oldest first (R361) -/
  running : List (Nat × MbCmd)
  /-- those of them whose writer was not the owner when it wrote an owner-only command (R336) -/
  refused : List (Nat × MbCmd)
  /-- cached control blocks of queues that are not mapped (R53): die, queue and image -/
  qcbCache : List (Nat × Nat × BitVec 1024)
  errCount : Vector Nat 4
  jobs : List Job
  jobEnds : List JobEnd
  fails : List FailRecord
  roots : List (Nat × Nat)
  leagues : List League
  bar2 : Nat × Nat
  devSelf : BitVec 19
  devSet : Bool
  pcap : List (Nat × Word)
  mcast : List (Nat × Nat)
  errMsg : Option (BitVec 11)
  errMsgOut : Bool
  /-- interrupt messages sent to an owner, newest last (R328) -/
  outbox : List Message
  /-- posted writes of the PCIe host that have yet to perform, oldest first: the window, the offset and the bytes (R321) -/
  posted : List (Bar × Nat × List Byte)
  /-- the last value a host read through BAR2 returned (R321) -/
  hostData : List Byte
  /-- CMD, ARG0 to ARG3 and STATUS of each die's mailbox (R361) -/
  mailbox : Vector (Vector Word 6) 4
  deriving DecidableEq, Repr

/-! ## Links, streams and planes (R396 to R412) -/

/-- One end of a link (R397, R400). -/
structure ModEnd where
  id : ModuleId
  txNext : BitVec 7
  rxNext : BitVec 7
  lastAcc : BitVec 7
  /-- when it last sent a NAK since it last accepted a flit -/
  nakAt : Option Nat
  /-- the numbered flits that no ACK covers yet, with what they carry, oldest first -/
  replay : List (BitVec 7 × Txn)
  /-- the LSEQ that was NAKed last, and how many of its sends in a row -/
  nakSeq : BitVec 7
  nakRow : Nat
  /-- wall times in µs of the NAKs it has received lately -/
  nakTimes : List Nat
  nakCnt : BitVec 16
  retrains : BitVec 8
  failLanes : BitVec 8
  repaired : BitVec 8
  width : BitVec 2
  state : BitVec 2
  /-- transactions that wait to be sent, those that a retrain has handed back first -/
  handedBack : List Txn
  /-- the flits on their way to the other end, newest last -/
  sent : List Flit
  /-- the payloads that it has accepted and passed to the transaction layer, newest last -/
  delivered : List (BitVec 2000)
  deriving DecidableEq, Repr

/-- The source side of a stream (R403). -/
structure Stream where
  key : StreamKey
  next : BitVec 20
  outstanding : List FonakReq
  /-- harts that wait for completions: ESEQ and hart -/
  waiting : List (BitVec 20 × Nat)
  /-- its plane or a router on its way has died: its requests are to be sent again, and their timeouts stand still (R405,
  R411) -/
  marked : Bool
  /-- outstanding reads whose data no cache of their die may take (R140) -/
  stale : List (BitVec 20)
  deriving DecidableEq, Repr

/-- The destination side: its duplicate filter (R404). -/
structure Filter where
  key : StreamKey
  expected : BitVec 20
  recorded : List (BitVec 20 × Option FonakDone)
  /-- a request beyond the next expected one has been discarded, and none has been accepted since (R403) -/
  gap : Bool
  resendAsked : Option (BitVec 20)
  deriving DecidableEq, Repr

/-- How far the quiesce protocol has come for a plane (R411). -/
inductive Quiesce where
  | running
  | quiesced (plane : Nat)
  | drained (plane : Nat)
  | remapped (plane : Nat)
  deriving DecidableEq, Repr

/-- The boundary links and the planes. -/
structure Fabric where
  modules : List ModEnd
  /-- entries of MODMAP that are not identity: boundary, plane, index, module (R401) -/
  modMap : List (Nat × Nat × Nat × Nat)
  streams : List Stream
  filters : List Filter
  /-- completions and requests that left for another device, newest last -/
  sent : List FonakReq
  returned : List FonakDone
  planeMap : Vector (BitVec 3) 64
  /-- PLANEMAP as harts read it: the new one from step 5 of the quiesce protocol on (R412) -/
  shownMap : Vector (BitVec 3) 64
  dead : BitVec 8
  deadRouters : List (Nat × Nat × Nat)
  /-- the dead routers that the tables now in force avoid: plane and router (R408) -/
  routed : List (Nat × Nat × Nat)
  quiesce : Quiesce
  /-- the boundary modules that the last request between two dies crossed, in the order of its hops (R12, R401):
  boundary, plane and module -/
  lastRoute : List (Nat × Nat × Nat)
  /-- requests for bank-linear lines that wait at their bank, and fence markers behind them, oldest first: the number of
  their ordinary requests, 0 for a marker (R119, R147) -/
  atBank : List (Nat × FonakReq)
  /-- what Terak has told the coordinator, newest last (R410, R411) -/
  told : List PlaneNote
  deriving DecidableEq, Repr

/-! ## Errors (R344 to R363) and Terak (R332 to R343) -/

/-- An error bank (R346). -/
structure ErrBank where
  id : BitVec 32
  v : Bool
  uc : Bool
  psn : Bool
  ovf : BitVec 16
  kind : BitVec 8
  asid : BitVec 16
  addr : Word
  misc : Word
  ce : BitVec 32
  ue : BitVec 32
  snap : BitVec 32
  /-- where the record's error stands, part of the unit's own detail -/
  site : ErrSite
  deriving DecidableEq, Repr

/-- An entry of a die's error log (R349). -/
structure LogEntry where
  die : Nat
  seq : Nat
  time : Nat
  bank : BitVec 32
  asid : BitVec 16
  act : BitVec 16
  status : Word
  addr : Word
  misc : Word
  count : Word
  snap : BitVec 32
  deriving DecidableEq, Repr

/-- A repair record (R359). -/
structure Repair where
  part : Part
  spare : Option Nat
  seq : Nat
  committed : Bool
  deriving DecidableEq, Repr

/-- A channel copy in progress (R387). -/
structure ChanCopy where
  id : Nat
  part : Part
  target : Nat
  row : Nat
  deriving DecidableEq, Repr

/-- Error banks, logs, repairs and spares. -/
structure Errors where
  banks : List ErrBank
  log : List LogEntry
  nextSeq : Vector Nat 4
  repairs : List Repair
  copies : List ChanCopy
  /-- events of a part in its bank's counting window (R357): bank id, part, corrected events (for a core: residue
  mismatches), uncorrected ones -/
  counts : List (BitVec 32 × Part × Nat × Nat)
  /-- logical cores, channels, rows and banks that live on a spare: die or bank, logical, physical -/
  coreMap : List (Nat × Nat × Nat)
  chanMap : List (Nat × Nat × Nat)
  rowMap : List (Nat × Nat × Nat)
  bankMap : List Nat
  columnMap : List (Nat × Nat × Nat)
  /-- cores closed to placement: die and logical core (R358) -/
  closedCores : List (Nat × Nat)
  /-- dies whose interleaved space is barred to new jobs (R357) -/
  barred : List Nat
  deriving DecidableEq, Repr

/-- Terak: start-up, ownership, power, measurement log and watchdogs. -/
structure Terak where
  /-- start-up steps of R332 that have ended -/
  stage : BitVec 3
  ready : Bool
  fail : BitVec 8
  failPart : BitVec 32
  /-- image versions below this are refused (R333) -/
  rollback : Nat
  mlog : List (Nat × BitVec 512)
  keysLeft : Nat
  /-- an attestation report that has been signed and is still being copied to its buffer (R334) -/
  report : Option (List Byte)
  agent : Agent
  epoch : BitVec 30
  nOwnWr : BitVec 16
  leaseMs : BitVec 32
  leaseOn : Bool
  /-- wall time at which the lease last restarted (R336, R363) -/
  leaseAt : Nat
  arb : BitVec 2
  cap : BitVec 2
  /-- the arbitration mode each stack has taken up at its window boundary (R20) -/
  stackArb : Vector (BitVec 2) 16
  /-- wall times of the restarts of the firmware processors, and of the last heartbeat of each (R413) -/
  restarts : List (Processor × Nat)
  heartbeats : List (Processor × Nat)
  /-- processors that Terak has reset and not yet released again (R413, R414) -/
  restarting : List Processor
  /-- wall time of the last refresh of the deadman timer (R415) -/
  deadman : Nat
  /-- firmware processors released from reset: stack managers and front ends -/
  released : Bool × Bool
  keySlots : List (Nat × BitVec 512)
  /-- fuses: the four physical cores of each die that are spares (R14, R332) -/
  spareCores : Vector (List Nat) 4
  deriving DecidableEq, Repr

/-- Who moves next: a hart, a bank engine, or an event. -/
inductive Turn where
  | hart (uid : Nat)
  | bank (bank : Nat)
  | event (i : Instr)
  | engines
  /-- the next duty of the firmware and of the hardware beside the engines -/
  | duty
  deriving DecidableEq, Repr

/-- The package. -/
structure State where
  /-- the hart whose instruction `exec` executes -/
  hart : Hart
  others : List Hart
  mm : MemSys
  banks : List (Nat × Bank)
  /-- the bank whose µop `exec` executes -/
  bankSel : Nat
  cmds : List Cmd
  copies : List Copy
  walks : List Walk
  fe : FrontEnd
  fab : Fabric
  err : Errors
  terak : Terak
  /-- cycles of the cores that have run harts since they left reset: die, core and count (R171) -/
  cycles : List (Nat × Nat × Nat)
  /-- the slots that the matrix unit and the tile-copy engine of a core served last: die, core and slot (R72) -/
  matLast : List (Nat × Nat × Nat)
  copyLast : List (Nat × Nat × Nat)
  agenda : List Turn
  /-- steps taken: the argument of the free values of Config -/
  tick : Nat
  /-- the next number for a hart, command, copy or walk -/
  fresh : Nat
  /-- the last value a home returned to an event-driven atomic (R153) -/
  homeReply : Option Word
  /-- what remote homes have returned to engine operations, by the operation's number (R324) -/
  engineReplies : List (Nat × Reply)
  deriving DecidableEq, Repr

/-- Why a machine stops with a fault. No meaning of this model raises one: every exception of the spec is taken, and
every unstated value is free. The type is closed and has one reason, kept so that a statement can say it never
occurs. Safe: it can only make a run shorter. -/
inductive Fault where
  /-- raised by no meaning -/
  | never
  deriving DecidableEq, Repr

/-- Why the model gives no meaning to an instruction. -/
inductive Refusal where
  /-- raised only by an arm of `exec` that has no meaning yet; safe, the run stops there -/
  | notModelled (mnemonic : String)
  deriving DecidableEq, Repr

/-! ## Reset -/

/-- Mode registers at launch: i8, nearest-even, unguarded (R67, R175). -/
def mdReset : BitVec 32 := 0x780#32

/-- CSRs at reset: every one zero, SLIP at its smallest legal value (R25, R171). -/
def Csrs.reset : Csrs :=
  { hm := false, sove := false, cause := 0, epc := 0, elemStart := 0, faultVa := 0, faultStride := 0,
    faultRemain := 0, tvec := 0, scratch := 0, flags := 0, slip := 1, walkSpill := 0, walkMax := 0, runCount := 0,
    wdLimit := 0, hartId := 0 }

/-- A hart slot that holds no hart: every register at its launch value, or zero (R30, R67). -/
def Hart.reset : Hart :=
  { uid := 0, phase := .absent, place := ⟨0, 0, 0⟩, asid := 0, prio := 0, queue := 0, packet := 0, vlLo := 7,
    vlHi := 7, waitCount := 0, promoted := 0, dbgHalted := false, held := false, leaving := false,
    fetched := false, wait := .none, pc := 0,
    x := Vector.replicate 32 0#64, v := Vector.replicate 48 0#262144, vPi := Vector.replicate 48 128,
    vDirty := Vector.replicate 48 0, m := Vector.replicate 12 0#4096, mPi := Vector.replicate 12 128, vl := 128,
    md := Vector.replicate 4 mdReset, ix := Vector.replicate 16 0#64, b := Vector.replicate 8 none,
    k := Vector.replicate 16 0#64, bs := Vector.replicate 8 0#64, vlMax := 128, nregs := 6, aTiles := 0,
    mType := 0#4, nt := 0, tiles := Vector.replicate 8 0#131072, matQ := [], csr := Csrs.reset, league := none,
    copyFault := none, copyTold := false, stopped := [], startElem := 0, elemFrom := 0, posWritten := false, atBarrier := false, expired := false, records := [], furlong := none,
    strip := [], region := none, pathAt := none, kept := [], split := [], opaSplit := false, replies := [], pins := [], vPsn := [], mPsn := [], tPsn := [] }

/-- A bank engine at job start: all zero (R267). -/
def Bank.reset : Bank :=
  { codebook := 0, codebookPsn := 0, bushel := 0, bushelPsn := 0, bushelRes := 0, shape := none, acc := 0, accRes := 0, accPsn := 0,
    mismatched := [],
    micro := 0, microPsn := 0, latch := 0, latchPsn := 0, upc := 0, p := Vector.replicate 4 0#14,
    lc := Vector.replicate 2 0#16, ab := 0, qb := 0, qn := 0, sat := false, rsat := false, err := false,
    errCode := 0, flags := 0, queue := [], run := .idle, susp := false, pending := [], moving := none,
    started := 0, resumed := false }

/-- The memory system at power-on; caches are empty, memory-side caches are set to victim-only at step 1. -/
def MemSys.reset : MemSys :=
  { bytes := [], poison := [], sure := [], keys := [], l1 := [], icache := [], l2 := [], tlb := [], twins := [], twinPtr := [], rdc := [],
    gen := Vector.replicate 4 0#16, msc := [], blooms := [], victimOnly := Vector.replicate 16 true,
    mscDisabled := [], decTed := Vector.replicate 4 false, railLow := Vector.replicate 4 false, drowsy := [] }

/-- Entry 255 of the path capability table at reset (R327). -/
def pcapDefault : Word := 0x80000#64 <<< 44 ||| 0x7FFFF#64 <<< 44 ||| 0xC00000#64 ||| 0x3FF#64 <<< 12

/-- The front ends at power-on. -/
def FrontEnd.reset : FrontEnd :=
  { qtab := 0, qcount := 0, slots := [], mapWait := [], held := [], running := [], refused := [], qcbCache := [], errCount := Vector.replicate 4 0, jobs := [],
    jobEnds := [], fails := [], roots := [], leagues := [], bar2 := (0, 0), devSelf := 0, devSet := false,
    pcap := [], mcast := [], errMsg := none, errMsgOut := false, outbox := [], posted := [], hostData := [],
    mailbox := Vector.replicate 4 (Vector.replicate 6 0#64) }

/-- PLANEMAP at reset: bucket b uses plane b mod 8 (R149). -/
def planeMapReset : Vector (BitVec 3) 64 :=
  ⟨((List.range 64).map (fun b => BitVec.ofNat 3 b)).toArray, by simp⟩

/-- The fabric at power-on (R400, R401, R149). -/
def Fabric.reset : Fabric :=
  { modules := [], modMap := [], streams := [], filters := [], sent := [], returned := [], planeMap := planeMapReset,
    shownMap := planeMapReset, dead := 0, deadRouters := [], routed := [], quiesce := .running, lastRoute := [], atBank := [], told := [] }

/-- The error architecture at power-on (R346). -/
def Errors.reset : Errors :=
  { banks := [], log := [], nextSeq := Vector.replicate 4 0, repairs := [], copies := [], counts := [], coreMap := [],
    chanMap := [], rowMap := [], bankMap := [], columnMap := [], closedCores := [], barred := [] }

/-- Terak at power-on (R332, R335, R342, R417). The spec leaves the choice of the fused spares to test: the model takes the
last four cores of each die (log entry 50). -/
def Terak.reset : Terak :=
  { stage := 0, ready := false, fail := 0, failPart := 0, rollback := 0, mlog := [], keysLeft := 1048576, report := none,
    agent := .nobody, epoch := 0, nOwnWr := 0, leaseMs := 10000#32, leaseOn := false, leaseAt := 0, arb := 2,
    cap := 2, stackArb := Vector.replicate 16 2#2, restarts := [], heartbeats := [], restarting := [], deadman := 0,
    released := (false, false), keySlots := [], spareCores := Vector.replicate 4 [48, 49, 50, 51] }

/-- The package at power-good: Terak has not yet ended its first step, no job exists and every hart slot is empty. -/
def State.reset : State :=
  { hart := Hart.reset, others := [], mm := MemSys.reset, banks := [], bankSel := 0, cmds := [], copies := [],
    walks := [], fe := FrontEnd.reset, fab := Fabric.reset, err := Errors.reset, terak := Terak.reset, cycles := [], matLast := [],
    copyLast := [], agenda := [], tick := 0, fresh := 1, homeReply := none, engineReplies := [] }

end Sys2Proof.Machine
end

