-- ==== Sys2Proof/Machine/Bits.lean ====
section
/-!
DEFINITION. Bit fields, element slices, byte strings and the canonical sparse memory that the rest of the machine is
built on.
-/

namespace Sys2Proof.Machine

open Sys2Proof

/-- One bit of a field as a truth value. -/
def isSet (b : BitVec 1) : Bool := b == 1#1

/-- A field sign-extended to a word (R182). -/
def sext {n : Nat} (v : BitVec n) : Word := v.signExtend 64

/-- A field zero-extended to a word. -/
def zext {n : Nat} (v : BitVec n) : Word := v.setWidth 64

/-- A word holding 1 or 0. -/
def boolWord (b : Bool) : Word := if b then 1#64 else 0#64

/-- Bits `lo` to `lo + w - 1` of a number. -/
def bitsOf (n lo w : Nat) : Nat := (n >>> lo) % 2 ^ w

/-- A number read as a two's complement integer of width `w`. -/
def toSigned (w n : Nat) : Int := if n % 2 ^ w < 2 ^ (w - 1) then (n % 2 ^ w : Nat) else (n % 2 ^ w : Nat) - (2 ^ w : Nat)

/-- The low `w` bits of an integer. -/
def ofSigned (w : Nat) (i : Int) : Nat := (i % (2 ^ w : Nat)).toNat

/-- Element `e` of width `w` of a register or line (R76). -/
def getElt {n : Nat} (r : BitVec n) (w e : Nat) : Nat := bitsOf r.toNat (w * e) w

/-- A register with element `e` of width `w` replaced (R76). -/
def setElt {n : Nat} (r : BitVec n) (w e v : Nat) : BitVec n :=
  let m : BitVec n := BitVec.ofNat n (2 ^ w - 1) <<< (w * e)
  (r &&& ~~~m) ||| ((BitVec.ofNat n (v % 2 ^ w)) <<< (w * e))

/-- A register with bit `e` set to a truth value. -/
def setBit {n : Nat} (r : BitVec n) (e : Nat) (v : Bool) : BitVec n := setElt r 1 e (if v then 1 else 0)

/-- Writes a list of elements, the first at element `e`. -/
def setElts {n : Nat} (r : BitVec n) (w : Nat) : Nat → List Nat → BitVec n
  | _, [] => r
  | e, v :: vs => setElts (setElt r w e v) w (e + 1) vs

/-- The little-endian number of a byte string (R6). -/
def natOfBytes : List Byte → Nat
  | [] => 0
  | b :: bs => b.toNat + 256 * natOfBytes bs

/-- The `k` little-endian bytes of a number (R6). -/
def bytesOfNat : Nat → Nat → List Byte
  | 0, _ => []
  | k + 1, n => BitVec.ofNat 8 n :: bytesOfNat k (n / 256)

/-- The fold of a list of numbers by exclusive or. -/
def xorAll (l : List Nat) : Nat := l.foldl (· ^^^ ·) 0

/-- The count of set bits of a number below bit `n`. -/
def popCount (n v : Nat) : Nat := (List.range n).countP (fun i => v.testBit i)

/-- The lowest set bit of a number below bit `n`. -/
def lowBit (n v : Nat) : Option Nat := (List.range n).find? (fun i => v.testBit i)

/-- A list with the first entry that satisfies `p` replaced. -/
def replaceFirst {α : Type} (p : α → Bool) (f : α → α) : List α → List α
  | [] => []
  | a :: l => if p a then f a :: l else a :: replaceFirst p f l

/-- A list with every entry that satisfies `p` changed. -/
def changeAll {α : Type} (p : α → Bool) (f : α → α) (l : List α) : List α :=
  l.map (fun a => if p a then f a else a)

/-- Places a value in an association list by its key, before any other entry of the key. -/
def putKey {β : Type} (k : Nat) (b : β) (l : List (Nat × β)) : List (Nat × β) :=
  (k, b) :: l.filter (fun e => e.1 != k)

/-- The value of a key. -/
def getKey {β : Type} (k : Nat) (l : List (Nat × β)) : Option β := (l.find? (fun e => e.1 == k)).map (·.2)

/-! ## Memory as sorted cells -/

namespace Memory

/-- What a byte that the list does not name reads as: start-up scrubs every row to zero (R332). -/
def unlisted : Byte := 0#8

/-- The byte at an address. -/
def get : List Host.Cell → Nat → Byte
  | [], _ => unlisted
  | c :: l, a => if c.1 = a then c.2 else if c.1 < a then get l a else unlisted

/-- Writes the byte at an address and keeps the canonical form. -/
def set : List Host.Cell → Nat → Byte → List Host.Cell
  | [], a, b => if b = unlisted then [] else [(a, b)]
  | c :: l, a, b =>
    if c.1 < a then c :: set l a b
    else if c.1 = a then (if b = unlisted then l else (a, b) :: l)
    else (if b = unlisted then c :: l else (a, b) :: c :: l)

/-- Every cell of a list lies above an address and differs from what an unlisted byte reads as, addresses rising. -/
def wfAbove : Nat → List Host.Cell → Bool
  | _, [] => true
  | n, c :: l => decide (n ≤ c.1) && decide (c.2 ≠ unlisted) && wfAbove (c.1 + 1) l

/-- The canonical form: addresses strictly rising, no cell equal to what an unlisted address reads as. -/
def wf (l : List Host.Cell) : Bool := wfAbove 0 l

/-- `k` bytes from an address. -/
def read (l : List Host.Cell) (a : Nat) : Nat → List Byte
  | 0 => []
  | k + 1 => get l a :: read l (a + 1) k

/-- Writes bytes from an address. -/
def write (l : List Host.Cell) (a : Nat) : List Byte → List Host.Cell
  | [] => l
  | b :: bs => write (set l a b) (a + 1) bs

/-- Removes every cell of a range: its bytes read zero again. -/
def scrub (l : List Host.Cell) (lo hi : Nat) : List Host.Cell := l.filter (fun c => c.1 < lo || hi ≤ c.1)

end Memory

end Sys2Proof.Machine
end

