-- ==== Sys2Proof/Machine/Aes.lean ====
section
/-!
DEFINITION. AES-256 in the XTS mode, under which the base dies hold the lines of an encrypted job (R137): FIPS 197 and
IEEE 1619, which the spec names and does not repeat (log entry 19). A block is 16 bytes, its lowest address in bits 7 to 0.
-/

namespace Sys2Proof.Machine

open Sys2Proof

/-- The substitution of each byte, byte `b` at bits 8b and up. -/
def aesBox : BitVec 2048 := BitVec.ofNat 2048
  0x16BB54B00F2D99416842E6BF0D89A18CDF2855CEE9871E9B948ED9691198F8E19E1DC186B95735610EF6034866B53E708A8BBD4B1F74DDE8C6B4A61C2E2578BA08AE7A65EAF4566CA94ED58D6D37C8E779E4959162ACD3C25C2406490A3A32E0DB0B5EDE14B8EE4688902A22DC4F816073195D643D7EA7C41744975FEC130CCDD2F3FF1021DAB6BCF5389D928F40A351A89F3C507F02F94585334D43FBAAEFD0CF584C4A39BECB6A5BB1FC20ED00D153842FE329B3D63B52A05A6E1B1A2C830975B227EBE28012079A059618C323C7041531D871F1E5A534CCF73F362693FDB7C072A49CAFA2D4ADF04759FA7DC982CA76ABD7FE2B670130C56F6BF27B777C63

/-- Its inverse. -/
def aesUnbox : BitVec 2048 := BitVec.ofNat 2048
  0x7D0C2155631469E126D677BA7E042B17619953833CBBEBC8B0F52AAE4D3BE0A0EF9CC9939F7AE52D0D4AB519A97F51605FEC8027591012B131C7078833A8DD1FF45ACD78FEC0DB9A2079D2C64B3E56FC1BBE18AA0E62B76F89C5291D711AF1476EDF751CE837F9E28535ADE72274AC9673E6B4F0CECFF297EADC674F4111913A6B8A130103BDAFC1020F3FCA8F1E2CD00645B3B80558E4F70AD3BC8C00ABD890849D8DA75746155EDAB9EDFD5048706C92B6655DCC5CA4D41698688664F6F87225D18B6D49A25B76B224D92866A12E084EC3FA420B954CEE3D23C2A632947B54CBE9DEC444438E3487FF2F9B8239E37CFBD7F3819EA340BF38A53630D56A0952

/-- The double of a byte in the field of the cipher. -/
def aesDouble (b : Nat) : Nat := if b < 128 then 2 * b else (2 * b) ^^^ 0x11B

/-- The product of a byte with a constant below 16. -/
def aesTimes (k b : Nat) : Nat :=
  let b2 := aesDouble b
  let b4 := aesDouble b2
  let part := fun (i v : Nat) => if k.testBit i then v else 0
  part 0 b ^^^ part 1 b2 ^^^ part 2 b4 ^^^ part 3 (aesDouble b4)

/-- Each byte of a list through a substitution. -/
def aesSub (box : BitVec 2048) (l : List Nat) : List Nat := l.map (getElt box 8)

/-- The bytes of two lists combined by exclusive or. -/
def aesXor (a b : List Nat) : List Nat := a.zipWith (fun (x y : Nat) => x ^^^ y) b

/-- The next eight words of the key schedule, from the last eight and the constant of the round. -/
def aesKeyStep (last : List (List Nat)) (rcon : Nat) : List (List Nat) :=
  let w := fun (i : Nat) => last.getD i []
  let turned := aesSub aesBox ((w 7).drop 1 ++ (w 7).take 1)
  let a := aesXor (w 0) (aesXor turned [rcon, 0, 0, 0])
  let b := aesXor (w 1) a
  let c := aesXor (w 2) b
  let d := aesXor (w 3) c
  let e := aesXor (w 4) (aesSub aesBox d)
  let f := aesXor (w 5) e
  let g := aesXor (w 6) f
  [a, b, c, d, e, f, g, aesXor (w 7) g]

/-- The key schedule: `n` further groups of eight words. -/
def aesWords : Nat → Nat → List (List Nat) → List (List Nat)
  | 0, _, last => last
  | n + 1, rcon, last => last ++ aesWords n (aesDouble rcon) (aesKeyStep last rcon)

/-- The 15 round keys of a 256-bit key, 16 bytes each. -/
def aesRoundKeys (key : BitVec 256) : List (List Nat) :=
  let words := aesWords 7 1 ((List.range 8).map (fun i => (List.range 4).map (fun j => getElt key 8 (4 * i + j))))
  (List.range 15).map (fun r => ((words.drop (4 * r)).take 4).flatten)

/-- The rows of a block turned by `k` times their number, the block held by columns. -/
def aesRows (k : Nat) (l : List Nat) : List Nat :=
  (List.range 16).map (fun i => l.getD ((i + 4 * k * (i % 4)) % 16) 0)

/-- Each column of a block multiplied by the circulant matrix of a first row. -/
def aesColumns (row l : List Nat) : List Nat :=
  (List.range 16).map (fun i => (List.range 4).foldl (fun (v j : Nat) =>
    v ^^^ aesTimes (row.getD ((j + 4 - i % 4) % 4) 0) (l.getD (i / 4 * 4 + j) 0)) 0)

/-- The block of a list of bytes, and its bytes. -/
def aesBlock (l : List Nat) : BitVec 128 := BitVec.ofNat 128 (l.foldr (fun (b n : Nat) => b + 256 * n) 0)
def aesBytes (b : BitVec 128) : List Nat := (List.range 16).map (getElt b 8)

/-- One block enciphered: 13 rounds and the last, which mixes no columns. -/
def aesEncrypt (key : BitVec 256) (b : BitVec 128) : BitVec 128 :=
  let ks := aesRoundKeys key
  let mid := ((ks.drop 1).take 13).foldl (fun (l k : List Nat) => aesXor (aesColumns [2, 3, 1, 1] (aesRows 1 (aesSub aesBox l))) k)
    (aesXor (aesBytes b) (ks.getD 0 []))
  aesBlock (aesXor (aesRows 1 (aesSub aesBox mid)) (ks.getD 14 []))

/-- One block deciphered. -/
def aesDecrypt (key : BitVec 256) (b : BitVec 128) : BitVec 128 :=
  let ks := (aesRoundKeys key).reverse
  let mid := ((ks.drop 1).take 13).foldl (fun (l k : List Nat) => aesColumns [14, 11, 13, 9] (aesXor (aesSub aesUnbox (aesRows 3 l)) k))
    (aesXor (aesBytes b) (ks.getD 0 []))
  aesBlock (aesXor (aesSub aesUnbox (aesRows 3 mid)) (ks.getD 14 []))

/-- The mask of block `j` of a data unit: its tweak enciphered under the second key and doubled `j` times. -/
def xtsMask (pair : BitVec 512) (unit j : Nat) : BitVec 128 :=
  (List.range j).foldl (fun (t : BitVec 128) (_ : Nat) => if t.getLsbD 127 then (t <<< 1) ^^^ 0x87#128 else t <<< 1)
    (aesEncrypt (pair.extractLsb' 256 256) (BitVec.ofNat 128 unit))

/-- One 16-byte block of a line enciphered under a key pair: the data unit is the line, and the tweak is its global physical
number (R137). -/
def xtsEncrypt (pair : BitVec 512) (unit j : Nat) (d : BitVec 128) : BitVec 128 :=
  let t := xtsMask pair unit j
  aesEncrypt (pair.extractLsb' 0 256) (d ^^^ t) ^^^ t

/-- The same block deciphered. -/
def xtsDecrypt (pair : BitVec 512) (unit j : Nat) (d : BitVec 128) : BitVec 128 :=
  let t := xtsMask pair unit j
  aesDecrypt (pair.extractLsb' 0 256) (d ^^^ t) ^^^ t

end Sys2Proof.Machine
end

