-- ==== Sys2Proof/Machine/Num.lean ====
section
/-!
DEFINITION. Number formats and exact arithmetic (R75 to R109): decoding of every format, rounding of an exact value
once, conversions, and the functions of R248 by exact integer arithmetic with a sticky bit.
-/

namespace Sys2Proof.Machine

open Sys2Proof

/-! ## Flags: a value of six bits as FLAGS numbers them (R174) -/

/-- Inexact, underflow, overflow, divide by zero, invalid, integer clamp. -/
def flNX : BitVec 6 := 1#6
def flUF : BitVec 6 := 2#6
def flOF : BitVec 6 := 4#6
def flDZ : BitVec 6 := 8#6
def flNV : BitVec 6 := 16#6
def flSAT : BitVec 6 := 32#6

/-- A result with the flags it raises. -/
abbrev Flagged := Nat × BitVec 6

/-- A floating-point format (R81): width, precision, least exponent, and the largest finite code without sign. -/
structure Fmt where
  width : Nat
  p : Nat
  emin : Int
  maxCode : Nat
  /-- infinity and NaN in the style of IEEE 754, NaN alone (e4m3), or neither (e2m1) -/
  hasInf : Bool
  hasNan : Bool
  deriving DecidableEq, Repr

def fmtF16 : Fmt := ⟨16, 11, -14, 0x7BFF, true, true⟩
def fmtBf16 : Fmt := ⟨16, 8, -126, 0x7F7F, true, true⟩
def fmtF32 : Fmt := ⟨32, 24, -126, 0x7F7FFFFF, true, true⟩
def fmtF64 : Fmt := ⟨64, 53, -1022, 0x7FEFFFFFFFFFFFFF, true, true⟩
def fmtE4m3 : Fmt := ⟨8, 4, -6, 0x7E, false, true⟩
def fmtE2m1 : Fmt := ⟨4, 2, 0, 7, false, false⟩

/-- An element type (R75). -/
inductive EType where
  | int (w : Nat) (signed : Bool)
  | flt (f : Fmt)
  deriving DecidableEq, Repr

/-- The element type of an ETYPE code; the reserved codes give none (R75). -/
def etypeOf (c : Nat) : Option EType :=
  match c with
  | 0 => some (.int 8 true) | 1 => some (.int 16 true) | 2 => some (.int 32 true) | 3 => some (.int 64 true)
  | 4 => some (.int 8 false) | 5 => some (.int 16 false) | 6 => some (.int 32 false) | 7 => some (.int 64 false)
  | 8 => some (.flt fmtF16) | 9 => some (.flt fmtBf16) | 10 => some (.flt fmtF32) | 11 => some (.flt fmtF64)
  | 12 => some (.flt fmtE4m3) | 13 => some (.flt fmtE2m1)
  | _ => none

/-- The width of an element type. -/
def EType.width : EType → Nat
  | .int w _ => w
  | .flt f => f.width

/-- A decoded value: a NaN with its signalling mark, an infinity, or sign, magnitude and power of two. -/
inductive FVal where
  | nan (signalling : Bool)
  | inf (neg : Bool)
  | fin (neg : Bool) (mag : Nat) (exp : Int)
  deriving DecidableEq, Repr

/-- The code of +infinity in a format that has it. -/
def Fmt.infCode (f : Fmt) : Nat := f.maxCode + 1

/-- The canonical quiet NaN (R83); in e2m1 a NaN becomes +0 (R88). -/
def Fmt.canonNan (f : Fmt) : Nat :=
  if f.hasInf then f.infCode + 2 ^ (f.p - 2) else if f.hasNan then 0x7F else 0

/-- The sign bit of a format. -/
def Fmt.signBit (f : Fmt) : Nat := 2 ^ (f.width - 1)

/-- Decodes a code (R81). -/
def decodeF (f : Fmt) (code : Nat) : FVal :=
  let c := code % 2 ^ f.width
  let neg := decide (f.signBit ≤ c)
  let a := c % f.signBit
  if f.hasInf && a == f.infCode then .inf neg
  else if a > f.maxCode && f.hasNan then .nan (f.hasInf && a % 2 ^ (f.p - 1) < 2 ^ (f.p - 2))
  else
    let e := a / 2 ^ (f.p - 1)
    let fr := a % 2 ^ (f.p - 1)
    if e = 0 then .fin neg fr (f.emin - (f.p - 1 : Nat))
    else .fin neg (fr + 2 ^ (f.p - 1)) (f.emin - (f.p - 1 : Nat) + ((e - 1 : Nat) : Int))

/-- What an inexact value does to the magnitude `lo`: `rest` compares the discarded part with one half. -/
def roundsUp (rm : Nat) (neg odd : Bool) (rest : Ordering) (inexact : Bool) : Bool :=
  match rm with
  | 0 => rest == .gt || (rest == .eq && odd)
  | 1 => false
  | 2 => inexact && neg
  | 3 => inexact && !neg
  | _ => rest != .lt

/-- `mag * 2^exp` divided by `2^q`: the floor, how the rest compares with one half, and whether there is a rest. -/
def scaleTo (mag : Nat) (exp q : Int) : Nat × Ordering × Bool :=
  if q ≤ exp then (mag * 2 ^ (exp - q).toNat, .lt, false)
  else
    let sh := (q - exp).toNat
    let lo := mag / 2 ^ sh
    let r := mag % 2 ^ sh
    (lo, compare (2 * r) (2 ^ sh), r != 0)

/-- The result of an overflow (R87). -/
def overflowF (f : Fmt) (rm : Nat) (neg : Bool) : Flagged :=
  let s := if neg then f.signBit else 0
  if f.hasInf then
    let toMax := rm == 1 || (rm == 2 && !neg) || (rm == 3 && neg)
    (s + (if toMax then f.maxCode else f.infCode), flOF ||| flNX)
  else (s + f.maxCode, flNX)

/-- Rounds an exact value once (R86). A zero keeps its sign. -/
def roundF (f : Fmt) (rm : Nat) (neg : Bool) (mag : Nat) (exp : Int) : Flagged :=
  let s := if neg then f.signBit else 0
  if mag = 0 then (s, 0#6)
  else
    let e : Int := (mag.log2 : Int) + exp
    let qmin := f.emin - (f.p - 1 : Nat)
    let q := max e f.emin - (f.p - 1 : Nat)
    let (lo, rest, inexact) := scaleTo mag exp q
    let lo' := if roundsUp rm neg (lo % 2 == 1) rest inexact then lo + 1 else lo
    let code := lo' + (q - qmin).toNat * 2 ^ (f.p - 1)
    let fl := (if inexact then flNX else 0#6) ||| (if inexact && decide (e < f.emin) then flUF else 0#6)
    if code > f.maxCode then
      let (c, g) := overflowF f rm neg
      (c, fl ||| g)
    else (s + code, fl)

/-- An exact value as a code: infinities and NaNs as the destination has them (R83, R88). -/
def packF (f : Fmt) (rm : Nat) : FVal → Flagged
  | .nan sig => (f.canonNan, if sig || !f.hasNan then flNV else 0#6)
  | .inf neg => if f.hasInf then ((if neg then f.signBit else 0) + f.infCode, 0#6)
                else ((if neg then f.signBit else 0) + f.maxCode, flNX)
  | .fin neg mag exp => roundF f rm neg mag exp

/-! ## Exact sums and products -/

/-- The signed magnitude of a finite value at the power of two `e`, at or below its own. -/
def alignTo (neg : Bool) (mag : Nat) (exp e : Int) : Int :=
  let n : Int := (mag * 2 ^ (exp - e).toNat : Nat)
  if neg then -n else n

/-- An exact sum; an exact zero of unlike signs is +0, or -0 under RM 2 (R82). -/
def addFin (rm : Nat) (n1 : Bool) (m1 : Nat) (e1 : Int) (n2 : Bool) (m2 : Nat) (e2 : Int) : FVal :=
  let e := min e1 e2
  let t := alignTo n1 m1 e1 e + alignTo n2 m2 e2 e
  if t = 0 then .fin (if n1 == n2 then n1 else rm == 2) 0 0
  else .fin (decide (t < 0)) t.natAbs e

/-- Whether any operand is a signalling NaN raises invalid; any NaN gives a NaN. -/
def nanFlags (vs : List FVal) : Option (BitVec 6) :=
  if vs.any (fun v => match v with | .nan _ => true | _ => false) then
    some (if vs.any (fun v => v == .nan true) then flNV else 0#6)
  else none

/-- A sum of two values before rounding, with its flags. -/
def addV (rm : Nat) (a b : FVal) : FVal × BitVec 6 :=
  match nanFlags [a, b] with
  | some fl => (.nan false, fl)
  | none =>
    match a, b with
    | .inf n1, .inf n2 => if n1 == n2 then (.inf n1, 0#6) else (.nan false, flNV)
    | .inf n, _ => (.inf n, 0#6)
    | _, .inf n => (.inf n, 0#6)
    | .fin n1 m1 e1, .fin n2 m2 e2 => (addFin rm n1 m1 e1 n2 m2 e2, 0#6)
    | _, _ => (.nan false, 0#6)

/-- The value with its sign inverted. -/
def negV : FVal → FVal
  | .nan s => .nan s
  | .inf n => .inf (!n)
  | .fin n m e => .fin (!n) m e

/-- A product before rounding, with its flags. -/
def mulV (a b : FVal) : FVal × BitVec 6 :=
  match nanFlags [a, b] with
  | some fl => (.nan false, fl)
  | none =>
    match a, b with
    | .inf n1, .inf n2 => (.inf (n1 != n2), 0#6)
    | .inf n1, .fin n2 m _ => if m = 0 then (.nan false, flNV) else (.inf (n1 != n2), 0#6)
    | .fin n1 m _, .inf n2 => if m = 0 then (.nan false, flNV) else (.inf (n1 != n2), 0#6)
    | .fin n1 m1 e1, .fin n2 m2 e2 => (.fin (n1 != n2) (m1 * m2) (e1 + e2), 0#6)
    | _, _ => (.nan false, 0#6)

/-- A product added to a third value, before the one rounding. -/
def fmaV (rm : Nat) (c a b : FVal) : FVal × BitVec 6 :=
  let (p, f1) := mulV a b
  let (r, f2) := addV rm c p
  let sig := if c == .nan true then flNV else 0#6
  (r, f1 ||| f2 ||| sig)

/-- A quotient before rounding: enough quotient bits, with a sticky bit for a rest. -/
def divV (a b : FVal) : FVal × BitVec 6 :=
  match nanFlags [a, b] with
  | some fl => (.nan false, fl)
  | none =>
    match a, b with
    | .inf _, .inf _ => (.nan false, flNV)
    | .inf n1, .fin n2 _ _ => (.inf (n1 != n2), 0#6)
    | .fin n1 _ _, .inf n2 => (.fin (n1 != n2) 0 0, 0#6)
    | .fin n1 m1 e1, .fin n2 m2 e2 =>
      if m2 = 0 then (if m1 = 0 then (.nan false, flNV) else (.inf (n1 != n2), flDZ))
      else
        let k := 128 + m2.log2
        let q := m1 * 2 ^ k / m2
        let st := if m1 * 2 ^ k % m2 = 0 then 0 else 1
        (.fin (n1 != n2) (2 * q + st) (e1 - e2 - (k : Int) - 1), 0#6)
    | _, _ => (.nan false, 0#6)

/-- Rounds a value with flags already raised. -/
def finish (f : Fmt) (rm : Nat) (r : FVal × BitVec 6) : Flagged :=
  let (c, fl) := packF f rm r.1
  (c, fl ||| r.2)

/-! ## Roots, exponentials and logarithms (R248) -/

/-- The floor of a square root, by bits from `b` down. -/
def isqrtAux (n : Nat) : Nat → Nat → Nat
  | 0, r => r
  | b + 1, r => if (r + 2 ^ b) * (r + 2 ^ b) ≤ n then isqrtAux n b (r + 2 ^ b) else isqrtAux n b r

/-- The floor of a square root. -/
def isqrt (n : Nat) : Nat := isqrtAux n (n.log2 / 2 + 1) 0

/-- The square root of a positive value, with a sticky bit. -/
def sqrtPos (mag : Nat) (exp : Int) : FVal :=
  let odd := exp % 2 != 0
  let m := (if odd then 2 * mag else mag) * 2 ^ 256
  let e := (if odd then exp - 1 else exp) - 256
  let r := isqrt m
  .fin false (2 * r + (if r * r = m then 0 else 1)) (e / 2 - 1)

/-- One over the square root of a positive value, with a sticky bit. -/
def rsqrtPos (mag : Nat) (exp : Int) : FVal :=
  let odd := exp % 2 != 0
  let m := if odd then 2 * mag else mag
  let e := if odd then exp - 1 else exp
  let k := 160 + m.log2
  let r := isqrt (2 ^ (2 * k) / m)
  .fin false (2 * r + (if r * r * m = 2 ^ (2 * k) then 0 else 1)) (-(e / 2) - (k : Int) - 1)

/-- The working precision of the exponential and the logarithm. -/
def expBits : Nat := 320

/-- The floor of ln 2 x 2^320. -/
def ln2Fixed : Nat :=
  0xB17217F7D1CF79ABC9E3B39803F2F6AF40F343267298B62D8A0D175B8BAAFA2BE7B876206DEBAC98

/-- Terms y^n / n! of the exponential series at the working precision, summed. -/
def expSeries (y : Nat) : Nat → Nat → Nat → Nat → Nat
  | 0, _, _, acc => acc
  | fuel + 1, n, term, acc =>
    let t := term * y / 2 ^ expBits / n
    expSeries y fuel (n + 1) t (acc + t)

/-- 2^x of a finite non-zero value: exact for an integer, else the floor at the working precision with a sticky bit. -/
def exp2Fin (neg : Bool) (mag : Nat) (exp : Int) : FVal :=
  let e : Int := (mag.log2 : Int) + exp
  if e ≥ 16 then (if neg then .fin false 1 (-100000) else .fin false 1 100000)
  else
    let prec : Nat := 1200
    let fx : Nat := if exp ≥ 0 then mag * 2 ^ (prec + exp.toNat) else mag * 2 ^ prec / 2 ^ (-exp).toNat
    let v : Int := if neg then -(fx : Int) else fx
    let whole := v / (2 ^ prec : Nat)
    let frac := (v % (2 ^ prec : Nat)).toNat
    if frac = 0 then .fin false 1 whole
    else
      let y := frac / 2 ^ (prec - expBits) * ln2Fixed / 2 ^ expBits
      let a := expSeries y 100 1 (2 ^ expBits) (2 ^ expBits)
      let m := min (max a (2 ^ expBits)) (2 ^ (expBits + 1) - 1)
      .fin false (2 * m + 1) (whole - expBits - 1)

/-- Bits of a base-two logarithm by repeated squaring of y in [1, 2) held with 600 fraction bits. -/
def log2Bits : Nat → Nat → Nat → Nat
  | 0, _, acc => acc
  | fuel + 1, y, acc =>
    let z := y * y / 2 ^ 600
    if z ≥ 2 ^ 601 then log2Bits fuel (z / 2) (2 * acc + 1) else log2Bits fuel z (2 * acc)

/-- log2 of a positive value: exact for a power of two, else the floor with a sticky bit. -/
def log2Pos (mag : Nat) (exp : Int) : FVal :=
  let l := mag.log2
  let e : Int := (l : Int) + exp
  if mag = 2 ^ l then (if e = 0 then .fin false 0 0 else .fin (decide (e < 0)) e.natAbs 0)
  else
    let s : Int := e * (2 ^ 256 : Nat) + (log2Bits 256 (mag * 2 ^ 600 / 2 ^ l) 0 : Nat)
    if s ≥ 0 then .fin false (2 * s.toNat + 1) (-257) else .fin true (2 * (-s - 1).toNat + 1) (-257)

/-- The unary functions of R248 on a decoded value. -/
inductive RealFn where
  | sqrt | rcp | rsq | exp2 | log2
  deriving DecidableEq, Repr

/-- A function of R248 with its special operands, before rounding. -/
def realFn (fn : RealFn) (a : FVal) : FVal × BitVec 6 :=
  match fn, a with
  | _, .nan s => (.nan false, if s then flNV else 0#6)
  | .sqrt, .inf n => if n then (.nan false, flNV) else (.inf false, 0#6)
  | .sqrt, .fin n m e => if m = 0 then (.fin n 0 0, 0#6) else if n then (.nan false, flNV) else (sqrtPos m e, 0#6)
  | .rcp, .inf n => (.fin n 0 0, 0#6)
  | .rcp, .fin n m e => if m = 0 then (.inf n, flDZ) else divV (.fin false 1 0) (.fin n m e)
  | .rsq, .inf n => if n then (.nan false, flNV) else (.fin false 0 0, 0#6)
  | .rsq, .fin n m e => if m = 0 then (.inf n, flDZ) else if n then (.nan false, flNV) else (rsqrtPos m e, 0#6)
  | .exp2, .inf n => if n then (.fin false 0 0, 0#6) else (.inf false, 0#6)
  | .exp2, .fin n m e => if m = 0 then (.fin false 1 0, 0#6) else (exp2Fin n m e, 0#6)
  | .log2, .inf n => if n then (.nan false, flNV) else (.inf false, 0#6)
  | .log2, .fin n m e => if m = 0 then (.inf true, flDZ) else if n then (.nan false, flNV) else (log2Pos m e, 0#6)

/-! ## Comparison, minimum and maximum (R246) -/

/-- The order of two values that are no NaN; -0 equals +0. -/
def cmpV (a b : FVal) : Ordering :=
  match a, b with
  | .inf n1, .inf n2 => compare (if n1 then 0 else 1) (if n2 then 0 else 1)
  | .inf n, _ => if n then .lt else .gt
  | _, .inf n => if n then .gt else .lt
  | .fin n1 m1 e1, .fin n2 m2 e2 => let e := min e1 e2; compare (alignTo n1 m1 e1 e) (alignTo n2 m2 e2 e)
  | _, _ => .eq

/-- The smaller or larger of two float codes; -0 lies below +0, one NaN yields to the other operand. -/
def minMaxF (f : Fmt) (wantMax : Bool) (a b : Nat) : Flagged :=
  let va := decodeF f a
  let vb := decodeF f b
  let isN : FVal → Bool := fun v => match v with | .nan _ => true | _ => false
  let fl := if va == .nan true || vb == .nan true then flNV else 0#6
  if isN va && isN vb then (f.canonNan, fl)
  else if isN va then (b, fl)
  else if isN vb then (a, fl)
  else
    let aLess := match cmpV va vb with
      | .lt => true
      | .gt => false
      | .eq => decide (f.signBit ≤ a % 2 ^ f.width)
    (if aLess != wantMax then a else b, 0#6)

/-- The four compares of R246 on float codes. -/
def cmpF (f : Fmt) (k : Nat) (a b : Nat) : Bool × BitVec 6 :=
  let va := decodeF f a
  let vb := decodeF f b
  match nanFlags [va, vb] with
  | some fl => (k == 1, if k ≥ 2 then flNV else fl)
  | none =>
    let o := cmpV va vb
    (match k with | 0 => o == .eq | 1 => o != .eq | 2 => o == .lt | _ => o != .gt, 0#6)

/-! ## Integers (R78, R79) -/

/-- The least and greatest value of an integer type. -/
def intMin (w : Nat) (signed : Bool) : Int := if signed then -(2 ^ (w - 1) : Nat) else 0
def intMax (w : Nat) (signed : Bool) : Int := if signed then (2 ^ (w - 1) : Nat) - 1 else (2 ^ w : Nat) - 1

/-- An element read as the integer it holds. -/
def intVal (w : Nat) (signed : Bool) (n : Nat) : Int := if signed then toSigned w n else (n % 2 ^ w : Nat)

/-- Narrows an exact result: wrap, or clamp and set SATF (R78). -/
def narrow (w : Nat) (signed sat : Bool) (v : Int) : Flagged :=
  if intMin w signed ≤ v ∧ v ≤ intMax w signed then (ofSigned w v, 0#6)
  else if sat then (ofSigned w (if v < 0 then intMin w signed else intMax w signed), flSAT)
  else (ofSigned w v, 0#6)

/-- Integer division of elements (R79). -/
def divInt (w : Nat) (signed sat : Bool) (a b : Nat) : Flagged :=
  let x := intVal w signed a
  let y := intVal w signed b
  if y = 0 then (2 ^ w - 1, 0#6) else narrow w signed sat (x.tdiv y)

/-- Rounds `mag * 2^exp` to an integer (R90): the integer and whether it is inexact. -/
def roundInt (rm : Nat) (neg : Bool) (mag : Nat) (exp : Int) : Int × Bool :=
  let (lo, rest, inexact) := scaleTo mag exp 0
  let n := if roundsUp rm neg (lo % 2 == 1) rest inexact then lo + 1 else lo
  (if neg then -(n : Int) else n, inexact)

/-- A conversion from a value to an integer type (R90). -/
def toIntF (w : Nat) (signed sat : Bool) (rm : Nat) (v : FVal) : Flagged :=
  match v with
  | .nan _ => (0, flNV)
  | .inf n => (ofSigned w (if n then intMin w signed else intMax w signed), flNV)
  | .fin neg mag exp =>
    let (k, inexact) := roundInt rm neg mag exp
    if intMin w signed ≤ k ∧ k ≤ intMax w signed then (ofSigned w k, if inexact then flNX else 0#6)
    else if sat then (ofSigned w (if k < 0 then intMin w signed else intMax w signed), flNV ||| flSAT)
    else (ofSigned w k, flNV)

/-- An integer as a value. -/
def ofIntV (i : Int) : FVal := .fin (decide (i < 0)) i.natAbs 0

/-- A conversion of one element between any two types (R88 to R91, R252). -/
def convert (src dst : EType) (sat : Bool) (rm : Nat) (a : Nat) : Flagged :=
  match src, dst with
  | .int w1 s1, .int w2 s2 => narrow w2 s2 sat (intVal w1 s1 a)
  | .int w1 s1, .flt f => packF f rm (ofIntV (intVal w1 s1 a))
  | .flt f, .int w2 s2 => toIntF w2 s2 sat rm (decodeF f a)
  | .flt f1, .flt f2 => packF f2 rm (decodeF f1 a)

/-! ## Slices (R102 to R105) -/

/-- The significand of an operand cut to `s` slices: `M`, and the power of two of its last bit. -/
def sliced (f : Fmt) (s : Nat) (mag : Nat) (exp : Int) : Nat × Int :=
  let ex := if mag = 0 then f.emin else exp + (f.p - 1 : Nat)
  let m := if 8 * s ≥ f.p then mag * 2 ^ (8 * s - f.p) else mag / 2 ^ (f.p - 8 * s)
  (m, ex + 1 - (8 * s : Nat))

/-- Slice `i`, most significant first. -/
def sliceOf (m s i : Nat) : Nat := bitsOf m (8 * (s - 1 - i)) 8

/-- The sum of the kept slice products (R103). -/
def sliceSum (s : Nat) (tri : Bool) (ma mb : Nat) : Nat :=
  ((List.range s).map (fun i => ((List.range s).map (fun j =>
    if tri && i + j > s - 1 then 0 else sliceOf ma s i * sliceOf mb s j * 2 ^ (8 * (2 * s - 2 - i - j)))).sum)).sum

/-- P_s of two values, with the special cases of R105. -/
def slicedProduct (f : Fmt) (s : Nat) (tri : Bool) (a b : FVal) : FVal × BitVec 6 :=
  match a, b with
  | .fin n1 m1 e1, .fin n2 m2 e2 =>
    if m1 = 0 ∨ m2 = 0 then (.fin (n1 != n2) 0 0, 0#6)
    else
      let (ma, xa) := sliced f s m1 e1
      let (mb, xb) := sliced f s m2 e2
      (.fin (n1 != n2) (sliceSum s tri ma mb) (xa + xb), 0#6)
  | _, _ => mulV a b

end Sys2Proof.Machine
end

