-- ==== Sys2Proof/Machine/Regs.lean ====
section
/-!
DEFINITION. Access to registers, harts, jobs and banks by name: the one place where x0 reads zero and discards
writes (R169), and where a hart, a job or a bank is found.
-/

namespace Sys2Proof.Machine

open Sys2Proof

/-! ## The hart in focus -/

/-- Reads an x register; x0 reads zero (R169). -/
def Hart.getX (h : Hart) (r : BitVec 5) : Word :=
  if r = 0#5 then 0#64 else h.x[r.toNat]'(have := r.isLt; by omega)

/-- Writes an x register; a write to x0 is discarded (R169, R202). -/
def Hart.setX (h : Hart) (r : BitVec 5) (v : Word) : Hart :=
  if r = 0#5 then h else { h with x := h.x.set r.toNat v (have := r.isLt; by omega) }

/-- Reads an x register of the hart in focus. -/
def State.getX (s : State) (r : BitVec 5) : Word := s.hart.getX r

/-- Writes an x register of the hart in focus. -/
def State.setX (s : State) (r : BitVec 5) (v : Word) : State := { s with hart := s.hart.setX r v }

/-- An address arithmetic result wrapped to the 57 bits of PC (R207). -/
def wrapPc (v : Word) : Word := v &&& 0x01FFFFFFFFFFFFFF#64

/-- The instruction at the PC starts at element 0, and nothing that an earlier one has left half done concerns it. -/
def Hart.atStart (h : Hart) : Hart := { h with startElem := 0, elemFrom := 0, pathAt := none, kept := [], split := [] }

/-- Sets the PC of the hart in focus; the instruction there starts at element 0. -/
def State.setPc (s : State) (v : Word) : State := { s with hart := { s.hart.atStart with pc := v } }

/-- Moves past the instruction. -/
def State.advance (s : State) : State := s.setPc (wrapPc (s.hart.pc + 4#64))

/-- Writes an x register and moves past the instruction: the shape of every scalar result. -/
def State.result (s : State) (r : BitVec 5) (v : Word) : State := (s.setX r v).advance

/-- Reads completion register kN. -/
def Hart.getK (h : Hart) (n : BitVec 4) : Word := h.k[n.toNat]'(have := n.isLt; by omega)

/-- Adds one to completion register kN, modulo 2^64 (R169). -/
def Hart.bumpK (h : Hart) (n : Nat) : Hart :=
  if hn : n < 16 then { h with k := h.k.set n (h.k[n] + 1#64) } else h

/-- Reads a mode register (R175). -/
def Hart.getMd (h : Hart) (n : BitVec 2) : BitVec 32 := h.md[n.toNat]'(have := n.isLt; by omega)

/-- Writes a mode register. -/
def Hart.setMd (h : Hart) (n : BitVec 2) (v : BitVec 32) : Hart :=
  { h with md := h.md.set n.toNat v (have := n.isLt; by omega) }

/-- Reads an index register (R177). -/
def Hart.getIx (h : Hart) (n : BitVec 4) : Word := h.ix[n.toNat]'(have := n.isLt; by omega)

/-- Writes an index register. -/
def Hart.setIx (h : Hart) (n : BitVec 4) (v : Word) : Hart :=
  { h with ix := h.ix.set n.toNat v (have := n.isLt; by omega) }

/-- Reads a bank-set register (R180). -/
def Hart.getBs (h : Hart) (n : BitVec 3) : Word := h.bs[n.toNat]'(have := n.isLt; by omega)

/-- Writes a bank-set register. -/
def Hart.setBs (h : Hart) (n : BitVec 3) (v : Word) : Hart :=
  { h with bs := h.bs.set n.toNat v (have := n.isLt; by omega) }

/-- Reads a barrier register's binding (R45). -/
def Hart.getB (h : Hart) (n : BitVec 3) : Option Binding := h.b[n.toNat]'(have := n.isLt; by omega)

/-- Reads a vector register by number; a number past v47 reads zero. -/
def Hart.getV (h : Hart) (r : Nat) : VReg := h.v[r]?.getD 0

/-- Writes a vector register by number, its elements up to bit `n`, and notes how far it has been written (R38). -/
def Hart.setVTo (h : Hart) (r n : Nat) (v : VReg) : Hart :=
  if hr : r < 48 then { h with v := h.v.set r v, vDirty := h.vDirty.set r (max h.vDirty[r] n) } else h

/-- Writes a vector register by number, whole. -/
def Hart.setV (h : Hart) (r : Nat) (v : VReg) : Hart := h.setVTo r (64 * h.vlMax) v

/-- The progress index of a vector register (R32). -/
def Hart.setPi (h : Hart) (r e : Nat) : Hart := if hr : r < 48 then { h with vPi := h.vPi.set r e } else h

/-- Reads a mask register by number. -/
def Hart.getM (h : Hart) (r : Nat) : MReg := h.m[r]?.getD 0

/-- Writes a mask register by number. -/
def Hart.setM (h : Hart) (r : Nat) (v : MReg) : Hart :=
  if hr : r < 12 then { h with m := h.m.set r v } else h

/-- Reads a tile by number. -/
def Hart.getTile (h : Hart) (r : Nat) : Tile := h.tiles[r]?.getD 0

/-- Writes a tile by number. -/
def Hart.setTile (h : Hart) (r : Nat) (v : Tile) : Hart :=
  if hr : r < 8 then { h with tiles := h.tiles.set r v } else h

/-- Raises sticky flags (R84, R174). -/
def Hart.raiseFlags (h : Hart) (fl : BitVec 6) : Hart :=
  { h with csr := { h.csr with flags := h.csr.flags ||| zext fl } }

/-! ## Every hart -/

/-- Every hart of the package, the one in focus first. -/
def State.harts (s : State) : List Hart := s.hart :: s.others

/-- A hart by its number. -/
def State.hartOf (s : State) (uid : Nat) : Option Hart := s.harts.find? (fun h => h.uid == uid)

/-- Changes the hart of a number, in focus or not. -/
def State.onHart (s : State) (uid : Nat) (f : Hart → Hart) : State :=
  if s.hart.uid = uid then { s with hart := f s.hart }
  else { s with others := changeAll (fun h => h.uid == uid) f s.others }

/-- The instruction of the hart in focus could not issue (R70). -/
def State.hold (s : State) : State := { s with hart := { s.hart with held := true } }

/-- Changes every hart. -/
def State.onHarts (s : State) (f : Hart → Hart) : State := { s with hart := f s.hart, others := s.others.map f }

/-- Brings the hart of a number into focus. -/
def State.focusOn (s : State) (uid : Nat) : State :=
  if s.hart.uid = uid then s
  else match s.others.find? (fun h => h.uid == uid) with
    | none => s
    | some h => { s with hart := h, others := s.others.filter (fun g => g.uid != uid) ++ [s.hart] }

/-- Runs a change with a hart in focus and returns the focus. -/
def State.withHart (s : State) (uid : Nat) (f : State → State) : State :=
  if s.hart.uid = uid then f s
  else match s.hartOf uid with
    | none => s
    | some _ => (f (s.focusOn uid)).focusOn s.hart.uid

/-- A hart is on a core. -/
def Hart.isResident (h : Hart) : Bool := h.phase == .resident

/-- A hart can fetch: resident, not halted by a debugger, not waiting, and not stopped for its save, which still lets it
take a reply that has come for it (R37). -/
def Hart.isReady (h : Hart) : Bool := h.isResident && !h.dbgHalted && !(h.leaving && h.replies == []) && h.wait == .none

/-- A cause of the hart has been raised and waits for its entry (R239). -/
def Hart.trapWaits (h : Hart) : Bool :=
  match h.wait with
  | .trap _ => true
  | _ => false

/-- The harts resident on a core. -/
def State.onCore (s : State) (die core : Nat) : List Hart :=
  s.harts.filter (fun h => h.isResident && h.place.die == die && h.place.core == core)

/-! ## Jobs -/

/-- The living job of an ASID (R339). -/
def State.jobOf (s : State) (asid : Nat) : Option Job := s.fe.jobs.find? (fun j => j.asid == asid)

/-- A fact of the job of an ASID; ASID 0 and dead jobs give the default. -/
def State.jobGet {α : Type} (s : State) (asid : Nat) (f : Job → α) (d : α) : α :=
  match s.jobOf asid with
  | some j => f j
  | none => d

/-- STATUS.FRW of the hart in focus: its job's furlongs are rewindable (R172). -/
def State.frw (s : State) : Bool := s.jobGet s.hart.asid (·.frw) false

/-- STATUS.CHK of the hart in focus. -/
def State.chk (s : State) : Bool := s.jobGet s.hart.asid (·.chk) false

/-- Reserved bank-linear rows of an address space (R121); ASID 0 has none. -/
def State.blOf (s : State) (asid : Nat) : Nat := s.jobGet asid (·.bl) 0

/-- The scratchpad base of an address space (R125). -/
def State.spBaseOf (s : State) (asid : Nat) : Option Word := (s.jobOf asid).map (·.spBase)

/-! ## Banks -/

/-- A bank engine; one that nothing has touched holds its job-start state (R267). -/
def State.bank (s : State) (b : Nat) : Bank := (getKey b s.banks).getD Bank.reset

/-- Writes a bank engine. -/
def State.setBank (s : State) (b : Nat) (k : Bank) : State := { s with banks := putKey b k s.banks }

/-- Changes a bank engine. -/
def State.onBank (s : State) (b : Nat) (f : Bank → Bank) : State := s.setBank b (f (s.bank b))

end Sys2Proof.Machine
end

