-- ==== Sys2Proof/Machine/Routes.lean ====
section
/-!
DEFINITION. The routers of a plane and the turn rule (R407), the tables that lead around dead routers (R408), and the way
between two dies (R11, R12).
-/

namespace Sys2Proof.Machine

open Sys2Proof

/-! ## The mesh (R407) -/

/-- Live routers of a plane as a set: router (X, Y) is bit 16 Y + X. `dead` lists plane and router. -/
def liveRouters (dead : List (Nat × Nat × Nat)) (p : Nat) : BitVec 256 :=
  dead.foldl (fun (v : BitVec 256) (d : Nat × Nat × Nat) =>
    if d.1 = p then v &&& ~~~(1#256 <<< (16 * d.2.2 + d.2.1)) else v) (~~~0#256)

/-- Routers of column 0 and of column 15. -/
def westColumn : BitVec 256 := BitVec.ofNat 256 ((List.range 16).map (fun y => 2 ^ (16 * y))).sum
def eastColumn : BitVec 256 := westColumn <<< 15

/-- One hop of a set of routers: west, east, north or south. -/
def hop (d : Nat) (v : BitVec 256) : BitVec 256 :=
  match d with
  | 0 => (v &&& ~~~westColumn) >>> 1
  | 1 => (v &&& ~~~eastColumn) <<< 1
  | 2 => v >>> 16
  | _ => v <<< 16

/-- The direction against a direction. -/
def against (d : Nat) : Nat := match d with | 0 => 1 | 1 => 0 | 2 => 3 | _ => 2

/-- Sets of routers by how routes stand there: by virtual channel, whether they may still hop toward the channel's first
direction, and the last hop. Set 10 vc + 5 spent + last, where last is 0 to 3 for a hop west, east, north or south and 4 for
none. -/
abbrev Routes := List (BitVec 256)

/-- One of the 20 sets. -/
def Routes.at (r : Routes) (vc : Nat) (spent : Bool) (last : Nat) : BitVec 256 :=
  r.getD (10 * vc + (if spent then 5 else 0) + last) 0#256

/-- A hop `d` may follow on a channel under the turn rule (R407): on VC0 no westward hop follows another direction, on VC1
no eastward one; no route reverses. -/
def turnOk (vc : Nat) (spent : Bool) (last d : Nat) : Bool := !(spent && d == vc) && !(decide (last < 4) && d == against last)

/-- After a hop `d` on a channel its first direction may be spent. -/
def spentBy (vc : Nat) (spent : Bool) (d : Nat) : Bool := spent || d != vc

/-- One more hop, or the one change from VC0 to VC1, of every route. A route that has just changed has made no hop on VC1. -/
def Routes.grow (live : BitVec 256) (r : Routes) : Routes :=
  (List.range 20).map (fun n =>
    let (vc, spent, l) := (n / 10, n / 5 % 2 == 1, n % 5)
    let change := if vc = 1 ∧ !spent then r.at 0 false l ||| r.at 0 true l else 0#256
    let came := if l = 4 then 0#256
      else (List.range 10).foldl (fun (v : BitVec 256) (q : Nat) =>
        let was := q / 5 == 1
        if turnOk vc was (q % 5) l && spentBy vc was l == spent then v ||| hop l (r.at vc was (q % 5)) else v) 0#256
    (r.at vc spent l ||| change ||| came) &&& live)

/-- Every router that some route from a router reaches. -/
def reachFrom (live : BitVec 256) : Nat → Routes → BitVec 256
  | 0, r => r.foldl (· ||| ·) 0#256
  | fuel + 1, r =>
    let n := r.grow live
    if n = r then r.foldl (· ||| ·) 0#256 else reachFrom live fuel n

/-- The routes of a router that has sent nothing yet. -/
def routesAt (i : Nat) : Routes := (List.range 20).map (fun n => if n = 4 then 1#256 <<< i else 0#256)

/-- The router that serves the agent of a primary router (R407): the primary, else the one west of it, or east of it in
column 0. -/
def serves (live : BitVec 256) (i : Nat) : Option Nat :=
  let other := if i % 16 = 0 then i + 1 else i - 1
  if live.getLsbD i then some i else if live.getLsbD other then some other else none

/-- Every live agent of a plane reaches every other under the turn rule (R408). -/
def connected (live : BitVec 256) : Bool :=
  let ends := (List.range 256).map (serves live)
  ends.all (fun e => match e with
    | none => false
    | some i =>
      let seen := reachFrom live 1024 (routesAt i)
      ends.all (fun g => g.any (fun j => seen.getLsbD j)))

/-! ## Routing tables (R407, R408) -/

/-- The routers from which a route that stands as each set says reaches a destination in one hop more. -/
def Routes.toward (live : BitVec 256) (r : Routes) : Routes :=
  (List.range 20).map (fun n =>
    let (vc, spent, l) := (n / 10, n / 5 % 2 == 1, n % 5)
    let onto := fun (c : Nat) (was : Bool) => (List.range 4).foldl (fun (v : BitVec 256) (d : Nat) =>
      if turnOk c was l d then v ||| hop (against d) (r.at c (spentBy c was d) d) else v) 0#256
    (r.at vc spent l ||| onto vc spent ||| (if vc = 0 then onto 1 false else 0#256)) &&& live)

/-- The sets from which a destination is reached in 0, 1, 2, … hops, farthest first, until a start is among them. -/
def nearer (live : BitVec 256) (start : Nat) : Nat → Routes → List Routes → Option (List Routes)
  | 0, _, _ => none
  | fuel + 1, r, l =>
    if (r.at 0 false 4).getLsbD start then some l else nearer live start fuel (r.toward live) (r :: l)

/-- The router one hop on. -/
def stepTo (d i : Nat) : Nat := match d with | 0 => i - 1 | 1 => i + 1 | 2 => i - 16 | _ => i + 16

/-- The hops of a shortest route: at each router VC0 before VC1, then the first hop that leads nearer in the order west, east,
north, south (R408). Gives each router entered, with its channel. -/
def follow : List Routes → Nat → Nat → Bool → Nat → List (Nat × Nat)
  | [], _, _, _, _ => []
  | r :: l, i, vc, spent, last =>
    let tries := ((List.range 4).map (fun d => (vc, spent, d))) ++ (if vc = 0 then (List.range 4).map (fun d => (1, false, d)) else [])
    match tries.find? (fun (t : Nat × Bool × Nat) =>
      turnOk t.1 t.2.1 last t.2.2 && ((hop t.2.2 (1#256 <<< i)) &&& r.at t.1 (spentBy t.1 t.2.1 t.2.2) t.2.2) != 0#256) with
    | some t => (stepTo t.2.2 i, t.1) :: follow l (stepTo t.2.2 i) t.1 (spentBy t.1 t.2.1 t.2.2) t.2.2
    | none => []

/-- The table entry of a router for a destination: the shortest route that obeys the turn rule and keeps to live routers, as
the routers that it enters with the channel of each hop; none where the destination cannot be reached (R408). With every router
live it goes X first, then Y, on VC0 (R407). -/
def tableRoute (live : BitVec 256) (i j : Nat) : Option (List (Nat × Nat)) :=
  if live.getLsbD i && live.getLsbD j then
    (nearer live i 256 ((List.range 20).map (fun _ => 1#256 <<< j)) []).map (fun l => follow l i 0 false 4)
  else none

/-- The routers of a plane from one agent to another by their primary routers: each is reached at its other router when its
primary is dead (R408). -/
def agentRoute (live : BitVec 256) (i j : Nat) : Option (List Nat) :=
  (serves live i).bind (fun a => (serves live j).bind (fun b => (tableRoute live a b).map (fun l => a :: l.map (·.1))))

/-! ## The way between two dies (R11, R12) -/

/-- The dies that a request passes after its source (R12): the east-west boundary of its source's row first, then the
north-south one. Dies 0 and 1 are the northern row, dies 0 and 2 the western column (R11). -/
def dieRoute (src dst : Nat) : List Nat :=
  let mid := src / 2 * 2 + dst % 2
  if src = dst then [] else if mid = src ∨ mid = dst then [dst] else [mid, dst]

/-- The boundary that joins two neighbouring dies: D0-D1, D2-D3, D0-D2 and D1-D3 in that order (R11). -/
def boundaryOf (a b : Nat) : Nat :=
  if a / 2 = b / 2 then a / 2 else 2 + a % 2

/-- The die of a router (R407). -/
def dieOfRouter (i : Nat) : Nat := i % 16 / 8 + 2 * (i / 16 / 8)

/-- The primary router of the agent of a die that a line concerns. -/
def primaryOf (die ln : Nat) : Nat :=
  let n := (Config.primaryRouter die ln).toNat
  16 * (8 * (die / 2) + n / 8) + 8 * (die % 2) + n % 8

/-- The die boundaries that a list of routers crosses, each as the die left and the die entered. -/
def diesOf : List Nat → List (Nat × Nat)
  | i :: j :: l =>
    if dieOfRouter i = dieOfRouter j then diesOf (j :: l) else (dieOfRouter i, dieOfRouter j) :: diesOf (j :: l)
  | _ => []

/-- The routers that a request for a line passes between two dies under the tables that avoid the routers of a list. -/
def routersOn (avoid : List (Nat × Nat × Nat)) (p src dst ln : Nat) : List Nat :=
  (agentRoute (liveRouters avoid p) (primaryOf src ln) (primaryOf dst ln)).getD []

/-- The hops between dies that a request for a line takes in a plane: the default of R12 while every router of the plane is
healthy, else as the tables lead it (R408). -/
def Fabric.dieHops (f : Fabric) (p src dst ln : Nat) : List (Nat × Nat) :=
  if f.routed.all (fun d => d.1 != p) then (src :: dieRoute src dst).zip (dieRoute src dst)
  else diesOf (routersOn f.routed p src dst ln)

/-- Routers of a plane that have died since its tables were written. -/
def Fabric.freshlyDead (f : Fabric) (p : Nat) : List (Nat × Nat × Nat) :=
  f.deadRouters.filter (fun d => d.1 == p && !f.routed.contains d)

/-- The way of a request for a line between two dies runs through a router that has died since (R405, R408). -/
def Fabric.ranThrough (f : Fabric) (p src dst ln : Nat) : Bool :=
  let fresh := f.freshlyDead p
  fresh != [] && (routersOn f.routed p src dst ln).any (fun i => fresh.any (fun d => 16 * d.2.2 + d.2.1 == i))

end Sys2Proof.Machine
end

