-- ==== Sys2Proof/Machine/Module.lean ====
section
/-!
DEFINITION. What a plane carries: headers (R402), flits and their check (R396, R398), the ends of links with their replay
buffers (R397), streams and filters (R403, R404) and the module maps (R401).
-/

namespace Sys2Proof.Machine

open Sys2Proof

/-! ## Headers (R402) -/

/-- Fields one above another from bit 0: each a value and its width. -/
def packBits : List (Nat × Nat) → Nat
  | [] => 0
  | f :: l => f.1 % 2 ^ f.2 + 2 ^ f.2 * packBits l

/-- An end of a stream as device and die: `self` is this device's number. -/
def endOf (self die n : Nat) : Nat := if n < 4 then 4 * self + n else 4 * (n - 4) + die

/-- The 24-byte header of a transaction. -/
def txnHeader (self : Nat) (x : Txn) : Nat :=
  let lay := fun (key : StreamKey) (srcDie dstDie : Nat) (eseq : BitVec 20) (resend : Bool) (op : BitVec 6) (line : Nat)
      (gmask psn : BitVec 4) (attr : BitVec 16) =>
    packBits [(op.toNat, 6), (if resend then 1 else 0, 1), (key.plane, 3), (eseq.toNat, 20), (endOf self srcDie key.src, 21),
      (endOf self dstDie key.dst, 21), (line, 57), (gmask.toNat, 4), (psn.toNat, 4), (attr.toNat, 16)]
  match x with
  | .req r => lay r.key r.srcDie r.dstDie r.eseq r.resend r.op r.line r.gmask r.psn r.attr
  -- a completion goes the other way
  | .done d =>
    lay ⟨d.key.dst, d.key.src, d.key.plane⟩ d.dstDie d.srcDie d.eseq d.resend d.op d.line (if d.op == 9#6 then 15 else 0) d.psn d.attr

/-- The data granules of a transaction. -/
def txnData : Txn → Line
  | .req r => r.data
  | .done d => d.data

/-- The payload of the flit that carries a transaction: its header, then the data granules that GMASK names, in order (R396,
R402). -/
def txnPayload (self : Nat) (x : Txn) : BitVec 2000 :=
  let h := txnHeader self x
  let granules := ((List.range 4).filter (fun g => (bitsOf h 129 4).testBit g)).map (fun g => (getElt (txnData x) 256 g, 256))
  BitVec.ofNat 2000 (packBits ((h, 192) :: granules))

/-- The data granules that stand behind a header under its GMASK. -/
def granulesOf (gmask payload : Nat) : Line :=
  let at' := (List.range 4).filter (fun g => gmask.testBit g)
  (at'.zip (List.range 4)).foldl (fun (v : Line) (g : Nat × Nat) => setElt v 256 g.1 (bitsOf payload (192 + 256 * g.2) 256)) 0#1024

/-- The bytes of the granules of a mask. -/
def granuleBytes (gmask : Nat) : BitVec 128 :=
  BitVec.ofNat 128 ((List.range 4).map (fun g => if gmask.testBit g then (2 ^ 32 - 1) * 2 ^ (32 * g) else 0)).sum

/-- What a payload that a peer has sent stands for, by its header and granules alone (R402). -/
def txnOf (self : Nat) (payload : BitVec 2000) : Txn :=
  let h := payload.toNat
  let dev := fun (e : Nat) => if e / 4 = self then e % 4 else 4 + e / 4
  let op := BitVec.ofNat 6 (bitsOf h 0 6)
  let src := bitsOf h 30 21
  let dst := bitsOf h 51 21
  -- both ends on this device make a stream between dies
  let a := if src / 4 = self ∧ dst / 4 = self then dev src else 4 + src / 4
  let b := if src / 4 = self ∧ dst / 4 = self then dev dst else 4 + dst / 4
  let eseq := BitVec.ofNat 20 (bitsOf h 10 20)
  let again := bitsOf h 6 1 == 1
  let attr := BitVec.ofNat 16 (bitsOf h 137 16)
  let gm := bitsOf h 129 4
  if op = 9#6 ∨ op = 10#6 then
    .done { key := ⟨b, a, bitsOf h 7 3⟩, srcDie := dst % 4, dstDie := src % 4, eseq := eseq, resend := again, op := op,
            line := bitsOf h 72 57, attr := attr, data := granulesOf gm h, psn := BitVec.ofNat 4 (bitsOf h 133 4), regs := [] }
  else
    .req { key := ⟨a, b, bitsOf h 7 3⟩, srcDie := src % 4, dstDie := dst % 4, space := 0, eseq := eseq, resend := again, op := op,
           line := bitsOf h 72 57, attr := attr, gmask := BitVec.ofNat 4 gm, psn := BitVec.ofNat 4 (bitsOf h 133 4),
           bmask := granuleBytes gm, data := granulesOf gm h, compare := 0, body := [], regs := [],
           reserved := bitsOf h 153 39 != 0 }

/-- A transaction as it is sent again (R405). -/
def sentAgain : Txn → Txn
  | .req r => .req { r with resend := true }
  | .done d => .done { d with resend := true }

/-- The line that a transaction concerns, and the dies from which and to which it travels inside the package. -/
def txnLine : Txn → Nat
  | .req r => r.line
  | .done d => d.line
def txnPath : Txn → Nat × Nat
  | .req r => (r.key.src, r.key.dst)
  | .done d => (d.key.dst, d.key.src)

/-! ## Flits (R396, R398) -/

/-- One bit, and one byte, of the CRC-32 of IEEE 802.3 in its usual form: bits reflected (log entry 84). -/
def crcBit (c : Nat) : Nat := if c % 2 = 1 then (c / 2) ^^^ 0xEDB88320 else c / 2
def crcByte (c b : Nat) : Nat := crcBit (crcBit (crcBit (crcBit (crcBit (crcBit (crcBit (crcBit (c ^^^ b))))))))

/-- The CRC-32 of `n` bytes of a number from its lowest on: all ones to begin with, complemented at the end (log entry 84). -/
def crc32 (n v : Nat) : Nat := (List.range n).foldl (fun (c : Nat) (i : Nat) => crcByte c (bitsOf v (8 * i) 8)) 0xFFFFFFFF ^^^ 0xFFFFFFFF

/-- LHDR. -/
def flitHeader (f : Flit) : Nat := packBits [(f.lseq.toNat, 7), (if f.nak then 1 else 0, 1), (f.ack.toNat, 7), (if f.nul then 1 else 0, 1)]

/-- Bytes 0 to 251 of a flit: payload and link header. -/
def flitCovered (f : Flit) : Nat := packBits [(f.payload.toNat, 2000), (flitHeader f, 16)]

/-- The check value that belongs to a flit: on a boundary module a CRC-32, on a link of the on-die mesh a CRC-16. -/
def flitCheck (onDie : Bool) (f : Flit) : BitVec 32 :=
  if onDie then BitVec.ofNat 32 (Config.meshCrc (flitCovered f) % 65536) else BitVec.ofNat 32 (crc32 252 (flitCovered f))

/-- The 256 bytes of a flit. -/
def flitBits (f : Flit) : BitVec 2048 := BitVec.ofNat 2048 (packBits [(flitCovered f, 2016), (f.crc.toNat, 32)])

/-- A link of the on-die mesh. -/
def onDie (m : ModuleId) : Bool := decide (4 ≤ m.boundary)

/-! ## Ends of links (R397, R399, R400) -/

/-- An end of a module as it comes out of training (R399, R400): ACK reads 0x7F until the first flit is accepted. -/
def ModEnd.fresh (m : ModuleId) : ModEnd :=
  { id := m, txNext := 0, rxNext := 0, lastAcc := 0x7F, nakAt := none, replay := [], nakSeq := 0, nakRow := 0, nakTimes := [],
    nakCnt := 0, retrains := 0, failLanes := 0, repaired := 0, width := 0, state := 0, handedBack := [], sent := [],
    delivered := [] }

/-- An end of a module. -/
def Fabric.modEnd (f : Fabric) (m : ModuleId) : ModEnd := (f.modules.find? (fun e => e.id == m)).getD (ModEnd.fresh m)

/-- Stores an end of a module. -/
def Fabric.setEnd (f : Fabric) (e : ModEnd) : Fabric :=
  { f with modules := e :: f.modules.filter (fun x => x.id != e.id) }

/-- The other end of a module. -/
def peerOf (m : ModuleId) : ModuleId := { m with upper := !m.upper }

/-- MODSTAT (R400). -/
def ModEnd.status (e : ModEnd) : Word :=
  (BitVec.zeroExtend 64 e.nakCnt <<< 48) ||| (BitVec.zeroExtend 64 e.retrains <<< 40)
    ||| (BitVec.zeroExtend 64 e.failLanes <<< 24) ||| (BitVec.zeroExtend 64 e.repaired <<< 16)
    ||| (BitVec.zeroExtend 64 e.width <<< 2) ||| BitVec.zeroExtend 64 e.state

/-- Sends a flit: each carries the LSEQ of the last flit accepted in the other direction, and its check value. -/
def ModEnd.emit (e : ModEnd) (nul nak : Bool) (lseq : BitVec 7) (payload : BitVec 2000) : ModEnd :=
  let f : Flit := ⟨0, nul, e.lastAcc, nak, lseq, payload⟩
  { e with sent := e.sent ++ [{ f with crc := flitCheck (onDie e.id) f }] }

/-- Sends a NUL flit, which takes no LSEQ. -/
def ModEnd.emitNul (e : ModEnd) (nak : Bool) : ModEnd := e.emit true nak 0#7 0

/-- Sends transactions in order under new LSEQs; each stays in the replay buffer of 64 flits until an ACK covers it, and what
the buffer has no room for waits, as does everything while the module is not up. -/
def ModEnd.transmit (self : Nat) (e : ModEnd) : List Txn → ModEnd
  | [] => e
  | x :: l =>
    if e.state ≠ 0 ∨ e.replay.length ≥ 64 then { e with handedBack := e.handedBack ++ (x :: l) }
    else ({ e.emit false false e.txNext (txnPayload self x) with txNext := e.txNext + 1, replay := e.replay ++ [(e.txNext, x)] }).transmit self l

/-- Sends what waits at an end, in order, and then more. -/
def ModEnd.push (self : Nat) (e : ModEnd) (l : List Txn) : ModEnd := ({ e with handedBack := [] }).transmit self (e.handedBack ++ l)

/-! ## Streams and filters (R403, R404) -/

/-- The stream of a key; one never used starts at ESEQ 0. -/
def Fabric.stream (f : Fabric) (key : StreamKey) : Stream :=
  (f.streams.find? (fun t => t.key == key)).getD ⟨key, 0, [], [], false, []⟩

/-- Stores a stream. -/
def Fabric.setStream (f : Fabric) (t : Stream) : Fabric :=
  { f with streams := t :: f.streams.filter (fun u => u.key != t.key) }

/-- The duplicate filter of a key (R404). -/
def Fabric.filterOf (f : Fabric) (key : StreamKey) : Filter :=
  (f.filters.find? (fun t => t.key == key)).getD ⟨key, 0, [], false, none⟩

/-- Stores a duplicate filter. -/
def Fabric.setFilter (f : Fabric) (t : Filter) : Fabric :=
  { f with filters := t :: f.filters.filter (fun u => u.key != t.key) }

/-- A filter that has accepted a request: the last 16,384 stay recorded, an atomic or region with its completion. -/
def Filter.record (g : Filter) (eseq : BitVec 20) (fin : Option FonakDone) : Filter :=
  { g with expected := eseq + 1, gap := false, resendAsked := none, recorded := (eseq, fin) :: g.recorded.take 16383 }

/-! ## Modules on the way (R401) -/

/-- An entry of MODMAP. -/
def Fabric.modAt (f : Fabric) (boundary plane i : Nat) : Nat :=
  ((f.modMap.find? (fun e => e.1 == boundary && e.2.1 == plane && e.2.2.1 == i)).map (·.2.2.2)).getD i

/-- The entry of MODMAP that carries a line (R401). -/
def moduleIndex (ln : Nat) : Nat := bitsOf ln 0 4 ^^^ bitsOf ln 4 4 ^^^ bitsOf ln 8 4 ^^^ bitsOf ln 12 4

/-- The module on which a line crosses a boundary. -/
def Fabric.moduleOf (f : Fabric) (boundary plane ln : Nat) : Nat := f.modAt boundary plane (moduleIndex ln)

/-- The ends from which a transaction for a line leaves, hop by hop, on its way between two dies in a plane. -/
def Fabric.hopsOf (f : Fabric) (p src dst ln : Nat) : List ModuleId :=
  (f.dieHops p src dst ln).map (fun h =>
    let b := boundaryOf h.1 h.2
    ⟨b, p, f.moduleOf b p ln, decide (h.2 < h.1)⟩)

/-- Nothing waits or is on its way at either end of a module: every numbered flit has been accepted. -/
def Fabric.idle (f : Fabric) (m : ModuleId) : Bool :=
  let e := f.modEnd m
  let g := f.modEnd (peerOf m)
  e.state == 0 && g.state == 0 && e.handedBack == [] && g.handedBack == [] && e.txNext == g.rxNext && g.txNext == e.rxNext

/-- A request that is sent, performed and completed in one step takes a flit of its own from one end of a module to the other:
it carries an ACK for all that the other end has sent (R397). -/
def Fabric.pass (f : Fabric) (m : ModuleId) : Fabric :=
  let e := f.modEnd m
  let g := f.modEnd (peerOf m)
  (f.setEnd { e with txNext := e.txNext + 1 }).setEnd
    { g with rxNext := g.rxNext + 1, lastAcc := e.txNext, nakAt := none, replay := [], nakRow := 0 }

/-- Puts a transaction on the module of its next hop after the end it has come in at, none at its source; false where it is
there. A way that runs through a router which has died loses it (R405, R408). -/
def Fabric.launch (f : Fabric) (self p : Nat) (came : Option ModuleId) (x : Txn) : Fabric × Bool :=
  let (src, dst) := txnPath x
  let hops := if 4 ≤ src ∨ 4 ≤ dst then [] else f.hopsOf p src dst (txnLine x)
  let rest := match came with
    | none => hops
    | some m => ((hops.dropWhile (fun (h : ModuleId) => !(h.boundary == m.boundary && h.upper != m.upper))).drop 1)
  match rest with
  | [] => (f, false)
  | m :: _ => if f.ranThrough p src dst (txnLine x) then (f, true) else (f.setEnd ((f.modEnd m).push self [x]), true)

end Sys2Proof.Machine
end

