-- ==== Sys2Proof/Machine/Mem.lean ====
section
/-!
DEFINITION. Memory as programs see it (R110 to R138): physical addresses, planes, page walks and translations, the
home of a line, memory-side caches, the L2 with checkouts and twins, remote-data caches and the L1.
-/

namespace Sys2Proof.Machine

open Sys2Proof

/-- Who makes an access: the hart or engine operation by its number, its core and its address space. -/
structure Who where
  uid : Nat
  die : Nat
  core : Nat
  asid : Nat
  deriving DecidableEq, Repr

/-- Why an access does not finish in this step. -/
inductive AccStop where
  /-- a check or a translation fails with a cause (R114, R203) -/
  | fault (cause : BitVec 8)
  /-- the requester is not ready until something else has happened -/
  | wait (s : State)
  /-- the access would consume poison (R354); `own` says that every poisoned granule was written by the open furlong
  (R394) -/
  | poison (own : Bool)
  deriving DecidableEq, Repr

/-- An access: it changes the state or stops. -/
abbrev A := StateT State (Except AccStop)

/-- An access fails with a cause. -/
def A.fault {α : Type} (c : BitVec 8) : A α := fun _ => .error (.fault c)

/-- An access waits. -/
def A.wait {α : Type} : A α := fun s => .error (.wait s)

/-- An access meets poison. -/
def A.poison {α : Type} : A α := fun _ => .error (.poison false)

/-- The hart in focus as a requester. -/
def State.who (s : State) : Who := ⟨s.hart.uid, s.hart.place.die, s.hart.place.core, s.hart.asid⟩

/-! ## Physical addresses (R111, R120, R121) -/

def paDev (pa : Nat) : Nat := bitsOf pa 44 19
def paDie (pa : Nat) : Nat := bitsOf pa 42 2
def paRegion (pa : Nat) : Nat := bitsOf pa 40 2
def paOff (pa : Nat) : Nat := bitsOf pa 0 40

/-- Composes a global physical address (R111). -/
def mkPa (dev die region off : Nat) : Nat := dev * 2 ^ 44 + die * 2 ^ 42 + region * 2 ^ 40 + off

/-- The address lies on this device. -/
def State.isLocal (s : State) (pa : Nat) : Bool := paDev pa == s.fe.devSelf.toNat

/-- Bytes of the interleaved region of a die under `bl` reserved rows (R120). -/
def interleavedBytes (bl : Nat) : Nat := 2039 * 64 * (12288 - bl) * 128

/-- An address is one its region populates (R111, R120, R121). -/
def populated (bl pa : Nat) : Bool :=
  match paRegion pa with
  | 0 => decide (paOff pa < interleavedBytes bl)
  | 1 => bitsOf pa 38 2 == paDie pa && decide (bitsOf pa 27 11 ≤ 2038) && decide (bitsOf pa 10 14 < bl)
  | 2 => true
  | _ => false

/-- The bucket of a line (R148). -/
def bucketOf (ln : Nat) : Nat :=
  ((List.range 6).map (fun i =>
    xorAll (((List.range 10).filter (fun k => i + 6 * k ≤ 56)).map (fun k => bitsOf ln (i + 6 * k) 1)) * 2 ^ i)).sum

/-- The plane of a line (R148, R149). -/
def State.planeOf (s : State) (ln : Nat) : Nat := (s.fab.planeMap[bucketOf ln]?.getD 0#3).toNat

/-- The physical place of a logical core or channel of a die, when it has been moved to a spare. -/
def physOf (l : List (Nat × Nat × Nat)) (die n : Nat) : Nat :=
  ((l.find? (fun e => e.1 == die && e.2.1 == n)).map (·.2.2)).getD n

/-- Where an interleaved line of a die lives: channel, bank, row and sector (R120). -/
def placeLine (bl l : Nat) : Nat × Nat × Nat × Nat :=
  let j := l / 2039
  let u := j / 8
  (l % 2039, j % 8, bl + u / 8, u % 8)

/-! ## Streams (R402, R403) -/

/-- The stream between two dies of the package in the plane of a line. -/
def State.dieStream (s : State) (src dst ln : Nat) : StreamKey := ⟨src, dst, s.planeOf ln⟩

/-- The stream from this device to another; devices are numbered above the four dies. -/
def State.devStream (s : State) (dev ln : Nat) : StreamKey := ⟨4 + s.fe.devSelf.toNat, 4 + dev, s.planeOf ln⟩

/-- The ends from which a request for a line leaves, hop by hop, on its way between two dies in the plane of the line. -/
def State.hopsOf (s : State) (src dst ln : Nat) : List ModuleId := s.fab.hopsOf (s.planeOf ln) src dst ln

/-- The boundary modules that a request for a line crosses in its plane, hop by hop. -/
def State.routeOf (s : State) (src dst ln : Nat) : List (Nat × Nat × Nat) :=
  (s.hopsOf src dst ln).map (fun m => (m.boundary, m.plane, m.module))

/-- A request for a line can go its way between two dies at once: earlier requests of its stream have performed (R403), and every
module on its way and on the way back is up and has carried all that it was given (R397, R399). -/
def State.wayClear (s : State) (src dst ln : Nat) : Bool :=
  let key := s.dieStream src dst ln
  src == dst || ((s.fab.stream key).next == (s.fab.filterOf key).expected
    && (s.hopsOf src dst ln ++ s.hopsOf dst src ln).all s.fab.idle && !s.fab.ranThrough key.plane src dst ln)

/-- A request between two dies that is sent, performed and completed in one step: it goes its way over the boundaries and its
completion comes back, it takes the next ESEQ of its stream, and its filter records it (R12, R397, R403, R404; log entry
87). -/
def State.cross (s : State) (src dst ln : Nat) : State :=
  if src = dst then s
  else if !s.wayClear src dst ln then { s with fab := { s.fab with lastRoute := s.routeOf src dst ln } }
  else
    let key := s.dieStream src dst ln
    let t := s.fab.stream key
    let fab := s.fab.setStream { t with next := t.next + 1 }
    let fab := fab.setFilter ((s.fab.filterOf key).record t.next none)
    let fab := (s.hopsOf src dst ln ++ s.hopsOf dst src ln).foldl Fabric.pass fab
    { s with fab := { fab with lastRoute := s.routeOf src dst ln } }

/-- The die of a requester: a hart or engine operation, or by its number a front end, a memory front or the PCIe host. -/
def State.reqDie (s : State) (uid : Nat) : Option Nat :=
  match s.hartOf uid with
  | some h => some h.place.die
  | none =>
    if 2 ^ 64 ≤ uid then some (uid % 4)
    else match s.copies.find? (fun c => c.id == uid), s.walks.find? (fun w => w.id == uid) with
      | some c, _ => some c.place.die
      | none, some w => some w.die
      | none, none => ((s.cmds.find? (fun c => c.id == uid)).bind (fun c => s.hartOf c.uid)).map (·.place.die)

/-- The die from which a hart or an engine operation sends its requests; a front end without a number of its own is D0's. -/
def State.dieOf (s : State) (uid : Nat) : Nat := (s.reqDie uid).getD 0

/-- Puts a transaction that comes in at an end, or starts, on its next module; false where it is at its goal. -/
def State.sendOn (s : State) (came : Option ModuleId) (x : Txn) : State × Bool :=
  let (f, out) := s.fab.launch s.fe.devSelf.toNat (s.planeOf (txnLine x)) came x
  ({ s with fab := f }, out)

/-- Sends a request to another device or die and keeps it outstanding (R324, R403). -/
def State.sendReq (s : State) (uid : Nat) (r : FonakReq) : State :=
  let t := s.fab.stream r.key
  let r' := { r with eseq := t.next, srcDie := if r.key.src < 4 then r.key.src else s.dieOf uid }
  let fab := s.fab.setStream { t with next := t.next + 1, outstanding := t.outstanding ++ [r'],
                                      waiting := t.waiting ++ [(t.next, uid)] }
  let s' := { s with fab := { fab with sent := fab.sent ++ [r'] } }
  if r.key.src < 4 then (s'.sendOn none (.req r')).1 else s'

/-- A request with no data (R402). -/
def plainReq (key : StreamKey) (op : BitVec 6) (ln : Nat) : FonakReq :=
  { key := key, srcDie := 0, dstDie := if key.dst < 4 then key.dst else paDie (ln * 128), space := 0, eseq := 0, resend := false, op := op, line := ln, attr := 0, gmask := 0, psn := 0, bmask := 0,
    data := 0, compare := 0, body := [], regs := [], reserved := false }

/-- Whether a hart already has a request of this kind outstanding for a line. -/
def State.asked (s : State) (uid : Nat) (op : BitVec 6) (ln : Nat) : Bool :=
  s.fab.streams.any (fun t => t.outstanding.any (fun r =>
    r.op == op && r.line == ln && t.waiting.any (fun w => w.1 == r.eseq && w.2 == uid)))

/-- The replies that have come for a hart or an engine operation. -/
def State.repliesOf (s : State) (uid : Nat) : List Reply :=
  match s.hartOf uid with
  | some h => h.replies
  | none => (s.engineReplies.filter (fun e => e.1 == uid)).map (·.2)

/-- A stream takes another request (R403): fewer than 16,384 outstanding, 2048 of them atomics or regions; and no request
leaves by a plane port before DEVSELF has been written (R323). -/
def State.mayAsk (s : State) (key : StreamKey) (op : BitVec 6) : Bool :=
  let l := (s.fab.stream key).outstanding
  let heavy := fun (o : BitVec 6) => o == 2#6 || o == 3#6
  (s.fe.devSet || key.plane == 8 || decide (key.src < 4)) && decide (l.length < 16384)
    && (!heavy op || decide ((l.filter (fun r => heavy r.op)).length < 2048))

/-- Waits until a stream takes another request. -/
def needRoom (key : StreamKey) (op : BitVec 6) : A Unit := fun s =>
  if s.mayAsk key op then .ok ((), s) else .error (.wait s)

/-- Transactions may start in a plane: while a dead plane is being taken out none may start anywhere (R411), and while one is
given new routes the others carry on (R408). -/
def Fabric.planeOpen (f : Fabric) (p : Nat) : Bool :=
  match f.quiesce with
  | .running => true
  | .quiesced q | .drained q | .remapped q => !f.dead.getLsbD q && p != q

/-- Asks another device or die and waits for its reply; a reply that has come is used (R324, R404). No request starts in a plane
that is being quiesced (R411). -/
def askRemote (who : Who) (r : FonakReq) : A Reply := fun s =>
  match (s.repliesOf who.uid).find? (fun p => p.op == r.op && p.line == r.line) with
  | some p => .ok (p, s)
  | none => .error (.wait (if s.asked who.uid r.op r.line || !s.mayAsk r.key r.op || !s.fab.planeOpen (s.planeOf r.line) then s
      else s.sendReq who.uid r))

/-! ## The home of a line -/

/-- The data, tags and poison of a line. -/
structure LineVal where
  data : Line
  tags : BitVec 16
  psn : BitVec 4
  deriving DecidableEq, Repr

/-- A job whose reach range holds a die-local interleaved line, and the physical address of its tag half-word
(R122). -/
def State.tagAddr (s : State) (ln : Nat) : Option Nat :=
  let d := paDie (ln * 128)
  let l := bitsOf ln 0 33
  if paRegion (ln * 128) ≠ 0 ∨ ¬ s.isLocal (ln * 128) then none
  else (s.fe.jobs.find? (fun j => j.rb[d]?.getD 0 ≤ l && l < j.rb[d]?.getD 0 + j.rn[d]?.getD 0)).map (fun j =>
    let rb := j.rb[d]?.getD 0
    mkPa s.fe.devSelf.toNat d 0 ((rb + j.rn[d]?.getD 0) * 128 + 2 * (l - rb)))

/-- A granule carries a poison mark (R352). -/
def State.poisoned (s : State) (granule : Nat) : Bool := s.mm.poison.contains granule

/-- Marks or clears a granule, keeping the list ascending without repeats. -/
def setPoison (l : List Nat) (g : Nat) (on : Bool) : List Nat :=
  let rest := l.filter (fun x => x != g)
  if on then rest.filter (fun x => x < g) ++ g :: rest.filter (fun x => g < x) else rest

/-- The marks of a line's own granules (R352). -/
def State.ownMarks (s : State) (ln : Nat) : BitVec 4 :=
  BitVec.ofNat 4 ((List.range 4).map (fun i => if s.poisoned (4 * ln + i) then 2 ^ i else 0)).sum

/-- The granules of a line that have been written whole since its tags came into doubt (R381). -/
def State.sureOf (s : State) (ln : Nat) : BitVec 4 := (getKey ln s.mm.sure).getD 0#4

/-- A line as its home holds it, with the tags of a reach-managed line. While its tag half-word lies in a poisoned granule
every granule that has not been written whole since counts as poisoned too (R122, R381). -/
def State.homeLine (s : State) (ln : Nat) : LineVal :=
  let own := s.ownMarks ln
  let (tags, psn) := match s.tagAddr ln with
    | none => (0#16, own)
    | some a => (BitVec.ofNat 16 (natOfBytes (Memory.read s.mm.bytes a 2)),
                 if s.poisoned (a / 32) then own ||| ~~~(s.sureOf ln) else own)
  ⟨BitVec.ofNat 1024 (natOfBytes (Memory.read s.mm.bytes (ln * 128) 128)), tags, psn⟩

/-- A granule of memory turns out to be lost: it carries a mark, and the tags that lie in it are in doubt anew (R352,
R381). -/
def State.losePoison (s : State) (g : Nat) : State :=
  let tagged := fun (ln : Nat) => (s.tagAddr ln).any (fun a => a / 32 == g)
  { s with mm := { s.mm with poison := setPoison s.mm.poison g true, sure := s.mm.sure.filter (fun e => !tagged e.1) } }

/-- The word mask of a byte mask: words with any byte set. -/
def wordsOf (mask : BitVec 128) : BitVec 16 :=
  BitVec.ofNat 16 ((List.range 16).map (fun i => if getElt mask 8 i = 0 then 0 else 2 ^ i)).sum

/-- The granules a byte mask covers wholly. -/
def wholeGranules (mask : BitVec 128) : BitVec 4 :=
  BitVec.ofNat 4 ((List.range 4).map (fun i => if getElt mask 32 i = 2 ^ 32 - 1 then 2 ^ i else 0)).sum

/-- The granules a byte mask touches. -/
def touchedGranules (mask : BitVec 128) : BitVec 4 :=
  BitVec.ofNat 4 ((List.range 4).map (fun i => if getElt mask 32 i = 0 then 0 else 2 ^ i)).sum

/-- The line bits under a byte mask. -/
def spread (mask : BitVec 128) : Line :=
  setElts 0#1024 8 0 ((List.range 128).map (fun i => if mask.getLsbD i then 255 else 0))

/-- A line value with the masked bytes of another laid over it, and the tags of a set of words: granules covered wholly
take its poison bits, granules covered in part keep theirs (R122, R352). -/
def LineVal.merge (old new : LineVal) (mask : BitVec 128) (words : BitVec 16) : LineVal :=
  let m := spread mask
  let whole := wholeGranules mask
  let part := touchedGranules mask &&& ~~~whole
  ⟨(old.data &&& ~~~m) ||| (new.data &&& m), (old.tags &&& ~~~words) ||| (new.tags &&& words),
   (old.psn &&& ~~~whole) ||| (new.psn &&& whole) ||| (new.psn &&& part)⟩

/-- A store's bytes over a line: every word that it touches takes the store's tag (R122). -/
def LineVal.overlay (old new : LineVal) (mask : BitVec 128) : LineVal := old.merge new mask (wordsOf mask)

/-- Writes the masked bytes of a line at its home, and the tags of a set of words, with poison (R122, R352); a granule written
whole is out of doubt (R381). -/
def State.putWords (s : State) (ln : Nat) (v : LineVal) (mask : BitVec 128) (words : BitVec 16) : State :=
  let r := ({ s.homeLine ln with psn := s.ownMarks ln }).merge v mask words
  let bytes := (List.range 128).foldl (fun b i =>
    if mask.getLsbD i then Memory.set b (ln * 128 + i) (BitVec.ofNat 8 (getElt r.data 8 i)) else b) s.mm.bytes
  let bytes := match s.tagAddr ln with
    | none => bytes
    | some a => if words = 0 then bytes else Memory.write bytes a (bytesOfNat 2 r.tags.toNat)
  let psn := (List.range 4).foldl (fun p i => setPoison p (4 * ln + i) (r.psn.getLsbD i)) s.mm.poison
  let sure := match s.tagAddr ln with
    | none => s.mm.sure
    | some a => if s.poisoned (a / 32) && wholeGranules mask != 0 then putKey ln (s.sureOf ln ||| wholeGranules mask) s.mm.sure
                else s.mm.sure
  { s with mm := { s.mm with bytes := bytes, poison := psn, sure := sure } }

/-- Writes the masked bytes of a line at its home, with the tags of every word touched and poison (R122, R352). -/
def State.putHome (s : State) (ln : Nat) (v : LineVal) (mask : BitVec 128) : State := s.putWords ln v mask (wordsOf mask)

/-! ## Encryption (R137) -/

/-- The key slot under which an address space encrypts a line; 0 for none. Bank-linear rows are plaintext. -/
def State.keyOf (s : State) (space ln : Nat) : Nat := if paRegion (ln * 128) = 0 then s.jobGet space (·.key) 0 else 0

/-- The key slot under which a 16-byte block is held. -/
def State.blockKey (s : State) (blk : Nat) : Nat := (getKey blk s.mm.keys).getD 0

/-- A block held under one key slot as a requester of another sees it: its ciphertext under the first, deciphered with the
second; slot 0 stands for none. -/
def State.recipher (s : State) (held key blk : Nat) (d : BitVec 128) : BitVec 128 :=
  let pair := fun (k : Nat) => (getKey k s.terak.keySlots).getD 0#512
  let c := if held = 0 then d else xtsEncrypt (pair held) (blk / 8) (blk % 8) d
  if key = 0 then c else xtsDecrypt (pair key) (blk / 8) (blk % 8) c

/-- The blocks of a line that are held under another key slot than a requester's. -/
def State.foreign (s : State) (key ln : Nat) : List Nat := (List.range 8).filter (fun i => s.blockKey (8 * ln + i) != key)

/-- The data of a line as a requester's key shows them. -/
def State.dataAs (s : State) (key ln : Nat) (data : Line) : Line :=
  (s.foreign key ln).foldl (fun (d : Line) (i : Nat) =>
    setElt d 128 i (s.recipher (s.blockKey (8 * ln + i)) key (8 * ln + i) (BitVec.ofNat 128 (getElt data 128 i))).toNat) data

/-- A line as its home gives it to an address space: deciphered with the key of that space. -/
def State.homeAs (s : State) (space ln : Nat) : LineVal :=
  let v := s.homeLine ln
  let key := s.keyOf space ln
  let tags := match s.tagAddr ln with
    | none => v.tags
    | some a => if s.blockKey (a / 16) = key then v.tags
                else BitVec.ofNat 16 (getElt (s.dataAs key (a / 128) (s.homeLine (a / 128)).data) 16 (a % 128 / 2))
  { v with data := s.dataAs key ln v.data, tags := tags }

/-- A block that a write touches comes under the writer's key: the base die reads, deciphers, merges and encrypts it. -/
def State.rekey (s : State) (space ln : Nat) (mask : BitVec 128) : State :=
  let key := s.keyOf space ln
  let hit := (s.foreign key ln).filter (fun i => getElt mask 16 i != 0)
  if hit = [] then s
  else
    let d := s.dataAs key ln (s.homeLine ln).data
    let bytes := hit.foldl (fun (b : List Host.Cell) (i : Nat) => Memory.write b (ln * 128 + 16 * i) (bytesOfNat 16 (getElt d 128 i))) s.mm.bytes
    let keys := hit.foldl (fun (l : List (Nat × Nat)) (i : Nat) =>
      if key = 0 then l.filter (fun e => e.1 != 8 * ln + i) else putKey (8 * ln + i) key l) s.mm.keys
    { s with mm := { s.mm with bytes := bytes, keys := keys } }

/-! ## Memory-side caches (R134 to R136) -/

/-- The lowest way not in use, or the victim of R127 among the unpinned entries with their aged counts: a list of
way, count and pin. Gives the way and by how much every unpinned count ages. -/
def pickWay (ways : Nat) (l : List (Nat × Nat × Bool)) : Nat × Nat :=
  match (List.range ways).find? (fun w => !(l.any (fun e => e.1 == w))) with
  | some w => (w, 0)
  | none =>
    let free := l.filter (fun e => !e.2.2)
    let top := (free.map (·.2.1)).foldl max 0
    let cands := (free.filter (fun e => e.2.1 == top)).map (·.1)
    (cands.foldl min ways, 3 - top)

/-- The stack, block number and sector of an interleaved line of an address space, on the physical channel of its logical one
(R120, R135). The global half is ASID 0's, which has no reserved rows (log entry 66). -/
def State.mscPlace (s : State) (space ln : Nat) : Nat × Nat × Nat :=
  let (n, bank, row, sec) := placeLine (s.blOf space) (bitsOf ln 0 33)
  let c := physOf s.err.chanMap (paDie (ln * 128)) n
  (4 * paDie (ln * 128) + c / 512, (c % 512) * 98304 + bank * 12288 + row, sec)

/-- The line of a sector of a block (R120). -/
def State.blockLine (s : State) (b : MscBlock) (sec : Nat) : Nat :=
  let die := b.stack / 4
  let phys := b.stack % 4 * 512 + b.block / 98304
  let n := ((List.range 2039).find? (fun n => physOf s.err.chanMap die n == phys)).getD phys
  let j := ((b.block % 12288 - b.bl) * 8 + sec) * 8 + b.block / 12288 % 8
  mkPa s.fe.devSelf.toNat die 0 ((j * 2039 + n) * 128) / 128

/-- Allocates a block with one sector in its memory-side cache, never in a disabled way (R388). -/
def State.mscAlloc (s : State) (stack block sec bl : Nat) (dirty : Bool) : State :=
  let set := Config.blockHash block % 98304
  let mates := s.mm.msc.filter (fun b => b.stack == stack && Config.blockHash b.block % 98304 == set)
  let off := ((List.range 16).filter (fun w => s.mm.mscDisabled.contains (stack, 16 * set + w))).map (fun w => (w, 0, true))
  let (way, age) := pickWay 16 (mates.map (fun b => (b.way, b.rrpv, false)) ++ off)
  let kept := s.mm.msc.filter (fun b => !(b.stack == stack && Config.blockHash b.block % 98304 == set && b.way == way))
  let aged := changeAll (fun b => b.stack == stack && Config.blockHash b.block % 98304 == set)
    (fun b => { b with rrpv := b.rrpv + age }) kept
  let bit : BitVec 8 := 1#8 <<< sec
  if way ≥ 16 then s
  else { s with mm := { s.mm with msc := ⟨stack, block, way, 2, bit, if dirty then bit else 0, bl⟩ :: aged } }

/-- Changes the record of a block of a memory-side cache. -/
def State.onBlock (s : State) (stack block : Nat) (f : MscBlock → MscBlock) : State :=
  { s with mm := { s.mm with msc := replaceFirst (fun b => b.stack == stack && b.block == block) f s.mm.msc } }

/-- The record of a block that a memory-side cache holds. -/
def State.blockOf (s : State) (stack block : Nat) : Option MscBlock :=
  s.mm.msc.find? (fun b => b.stack == stack && b.block == block)

/-- The three filter positions of a block (R135). -/
def bloomBits (n : Nat) : List Nat :=
  [0x9E3779B1, 0x85EBCA77, 0xC2B2AE3D].map (fun k => bitsOf (n * k) 16 16)

/-- The L2 of a line's home die holds the line. -/
def State.inHomeL2 (s : State) (ln : Nat) : Bool := s.mm.l2.any (fun e => e.pa == ln && e.die == paDie (ln * 128))

/-- A sector of a block leaves its memory-side cache. The block keeps its way until it is replaced (log entry 67). -/
def MscBlock.without (b : MscBlock) (bit : BitVec 8) : MscBlock :=
  { b with valid := b.valid &&& ~~~bit, dirty := b.dirty &&& ~~~bit }

/-- A sector of a block is served: it becomes valid, and dirty by a write. -/
def MscBlock.served (b : MscBlock) (bit : BitVec 8) (write : Bool) : MscBlock :=
  { b with rrpv := 0, valid := b.valid ||| bit, dirty := if write then b.dirty ||| bit else b.dirty }

/-- A memory-side cache serves a read or write of a sector; only its own bookkeeping changes (R134 to R136). In victim-only
mode a read that hits takes the sector out; a write that is no eviction goes to the sector of a block that the cache holds and
else past it (log entry 68), and where the home die's L2 holds the line, of which the cache is exclusive, past it always. -/
def State.mscTouch (s : State) (space ln : Nat) (write : Bool) : State :=
  if paRegion (ln * 128) ≠ 0 then s
  else
    let (stack, block, sec) := s.mscPlace space ln
    let bit : BitVec 8 := 1#8 <<< sec
    let victim := s.mm.victimOnly[stack]?.getD false
    match s.blockOf stack block with
    | some _ => s.onBlock stack block (fun b =>
        if victim && (!write || s.inHomeL2 ln) then b.without bit else b.served bit write)
    | none =>
      if victim then s
      else
        let slice := block / 98304 / 64
        let bl := (s.mm.blooms.find? (fun b => b.stack == stack && b.slice == slice)).getD ⟨stack, slice, 0, 0⟩
        let hit := (bloomBits block).all (fun i => bl.bits.getLsbD i)
        let bits := (bloomBits block).foldl (fun v i => v ||| (1#65536 <<< i)) bl.bits
        let bl' : Bloom := if bl.misses + 1 = 65536 then ⟨stack, slice, 0, 0⟩ else ⟨stack, slice, bits, bl.misses + 1⟩
        let rest := s.mm.blooms.filter (fun b => !(b.stack == stack && b.slice == slice))
        let s' := { s with mm := { s.mm with blooms := bl' :: rest } }
        if hit then s'.mscAlloc stack block sec (s.blOf space) write else s'

/-- A home serves a line: its memory-side cache takes the line's sector and, for a reach-managed line, that of its tags
(R122, R134). -/
def State.mscServe (s : State) (space ln : Nat) (write : Bool) : State :=
  let t := s.mscTouch space ln write
  match s.tagAddr ln with
  | none => t
  | some a => t.mscTouch space (a / 128) write

/-- A line that its die's L2 evicts enters the memory-side cache as a sector in victim-only mode (R136): dirty if any of
its bytes is dirty. A block that the cache holds takes it in. -/
def State.mscVictim (s : State) (space ln : Nat) (dirty : Bool) : State :=
  let (stack, block, sec) := s.mscPlace space ln
  match s.blockOf stack block with
  | some _ => s.onBlock stack block (fun b => b.served (1#8 <<< sec) dirty)
  | none => s.mscAlloc stack block sec (s.blOf space) dirty

/-! ## A base die serves its lines -/

/-- A line as its home gives it to an address space, by way of its memory-side cache (R134, R137). -/
def State.homeRead (s : State) (space ln : Nat) : State × LineVal := (s.mscServe space ln false, s.homeAs space ln)

/-- Masked bytes of a line and the tags of a set of words are written at its home by an address space, by way of its
memory-side cache (R122, R134, R137). -/
def State.homeWrite (s : State) (space ln : Nat) (v : LineVal) (mask : BitVec 128) (words : BitVec 16) : State :=
  if mask = 0 ∧ words = 0 then s
  else
    let t := match s.tagAddr ln with
      | some a => if words = 0 then s else s.rekey space (a / 128) (BitVec.ofNat 128 (3 * 2 ^ (a % 128)))
      | none => s
    ((t.rekey space ln mask).mscServe space ln true).putWords ln v mask words

/-! ## Twins, check-in, write-back and eviction (R126, R129, R130) -/

/-- Bytes of two lines that differ; a granule that is poisoned in either counts as differing whole, since its differing
bytes cannot be known (R129, R353). -/
def differing (a b : LineVal) : BitVec 128 :=
  BitVec.ofNat 128 (((List.range 128).map (fun i =>
    if getElt a.data 8 i != getElt b.data 8 i || a.psn.getLsbD (i / 32) || b.psn.getLsbD (i / 32) then 2 ^ i else 0)).sum)

/-- Words of two lines whose tags differ (R129). -/
def differingTags (a b : LineVal) : BitVec 16 := a.tags ^^^ b.tags

/-- Drops a twin record. -/
def State.freeTwin (s : State) (ln writer : Nat) : State :=
  { s with mm := { s.mm with twins := s.mm.twins.filter (fun t => !(t.line == ln && t.writer == writer)) } }

/-- An L2 line names the same entry. -/
def L2Line.same (a b : L2Line) : Bool := a.die == b.die && a.asid == b.asid && a.line == b.line

/-- Replaces an L2 entry. -/
def State.putL2 (s : State) (e : L2Line) : State :=
  { s with mm := { s.mm with l2 := replaceFirst (fun x => x.same e) (fun _ => e) s.mm.l2 } }

/-- Bytes and tags that a die brings to a line of an address space: they are written at its home, and the home die's own
copies of the line take them (R129, R140). -/
def State.takeIn (s : State) (space src ln : Nat) (v : LineVal) (mask : BitVec 128) (words : BitVec 16) : State :=
  let t := s.homeWrite space ln v mask words
  let l2 := changeAll (fun (e : L2Line) => e.pa == ln && e.die == paDie (ln * 128) && e.die != src && !e.out)
    (fun e => let r := (LineVal.mk e.data e.tags e.psn).merge v mask words
              { e with data := r.data, tags := r.tags, psn := r.psn, dirty := e.dirty &&& ~~~mask }) t.mm.l2
  { t with mm := { t.mm with l2 := l2 } }

/-- A check-in against its twin: exactly the bytes and the tags that differ are written (R129, R353). -/
def State.takeTwin (s : State) (space src ln : Nat) (v : LineVal) (t : Twin) : State :=
  let old : LineVal := ⟨t.data, t.tags, t.psn⟩
  s.takeIn space src ln v (differing v old) (differingTags v old)

/-- The check-in of a checked-out line: the home takes what differs from the twin and frees it; the line stays in the
writer's L2 as a clean line (R129). -/
def State.checkIn (s : State) (e : L2Line) : State :=
  let v : LineVal := ⟨e.data, e.tags, e.psn⟩
  let s1 := match s.mm.twins.find? (fun t => t.line == e.pa && t.writer == e.die) with
    | none => s
    | some t => ((s.takeTwin e.asid e.die e.pa v t).freeTwin e.pa e.die).cross e.die (paDie (e.pa * 128)) e.pa
  s1.putL2 { e with out := false, dirty := 0, writers := 0, heirs := 0 }

/-- The write-back of a dirty line homed on its own die, under its byte mask (R126). -/
def State.writeBack (s : State) (e : L2Line) : State :=
  if e.out then s.checkIn e
  else if e.dirty = 0 then s
  else (s.homeWrite e.asid e.pa ⟨e.data, e.tags, e.psn⟩ e.dirty (wordsOf e.dirty)).putL2
         { e with dirty := 0, writers := 0, heirs := 0 }

/-- The L2 entry of a line on a die. -/
def State.findL2 (s : State) (die asid line : Nat) : Option L2Line :=
  s.mm.l2.find? (fun e => e.die == die && e.asid == asid && e.line == line)

/-- Writes back or checks in every L2 line that satisfies `p`, each as it then stands. -/
def State.cleanL2 (s : State) (p : L2Line → Bool) : State :=
  (s.mm.l2.filter p).foldl (fun t e => match t.findL2 e.die e.asid e.line with
    | some x => t.writeBack x
    | none => t) s

/-- Drops every L2 line that satisfies `p`. -/
def State.dropL2 (s : State) (p : L2Line → Bool) : State :=
  { s with mm := { s.mm with l2 := s.mm.l2.filter (fun e => !p e) } }

/-- Evicts a line from the L2: written back or checked in, then dropped; in victim-only mode a line homed on its own
die goes to its memory-side cache (R126, R136). -/
def State.evictL2 (s : State) (e : L2Line) : State :=
  let s1 := (s.writeBack e).dropL2 (fun x => x.same e)
  if paDie (e.pa * 128) == e.die && s.isLocal (e.pa * 128) && paRegion (e.pa * 128) == 0
      && s.mm.victimOnly[(s.mscPlace e.asid e.pa).1]?.getD false
  then s1.mscVictim e.asid e.pa (e.dirty != 0) else s1

/-! ## The L2 (R126, R127) -/

/-- The slice of a virtual line (R126). -/
def l2Slice (asid line : Nat) : Nat :=
  xorAll ((List.range 8).map (fun k => bitsOf (line * 128) (7 + 6 * k) 6)) ^^^ bitsOf (line * 128) 55 2
    ^^^ bitsOf asid 0 6 ^^^ bitsOf asid 6 6 ^^^ bitsOf asid 12 4

/-- Two virtual lines fall into one set of one slice. -/
def l2SameSet (a1 l1 a2 l2 : Nat) : Bool := l2Slice a1 l1 == l2Slice a2 l2 && l1 % 1024 == l2 % 1024

/-- The way of the L2 of a die that a line is filled into under R127, and by how much its set ages. In DEC-TED mode ways 14 and 15
hold no lines (R382). -/
def State.pickL2 (s : State) (die : Nat) (mates : List L2Line) : Nat × Nat :=
  let ways := if s.mm.decTed[die]?.getD false then 14 else 16
  pickWay ways (mates.map (fun e => (e.way, e.rrpv, decide (ways ≤ e.way))))

/-- The lines of a set of the L2 of a die. -/
def State.l2Mates (s : State) (die asid line : Nat) : List L2Line :=
  s.mm.l2.filter (fun e => e.die == die && l2SameSet e.asid e.line asid line)

/-- Fills a line into the L2 of a die, evicting under R127. -/
def State.fillL2 (s : State) (die asid line ln : Nat) (leaf : Word) (rrpv : Nat) (v : LineVal) : State :=
  let mates := s.l2Mates die asid line
  let (way, age) := s.pickL2 die mates
  let s1 := match mates.find? (fun e => e.way == way) with
    | none => s
    | some e => s.evictL2 e
  let aged := changeAll (fun e => e.die == die && l2SameSet e.asid e.line asid line)
    (fun e => { e with rrpv := min 3 (e.rrpv + age) }) s1.mm.l2
  { s1 with mm := { s1.mm with l2 := ⟨die, asid, line, ln, leaf, way, rrpv, v.data, v.tags, v.psn, 0, 0, 0, false⟩ :: aged } }

/-! ## Remote-data cache (R132, R133) -/

/-- Sets of a die's remote-data cache for a job; none for ASID 0. -/
def State.rdcSets (s : State) (asid : Nat) : Nat := s.jobGet asid (·.rdcGib) 0 * 1048576

/-- The current record of a line in a die's remote-data cache for a job. -/
def State.rdcHit (s : State) (asid die ln : Nat) : Option RdcLine :=
  s.mm.rdc.find? (fun r => r.die == die && r.asid == asid && r.line == ln && r.gen == s.mm.gen[die]?.getD 0)

/-- Invalidates a die's remote-data cache record of a line, in whichever job's area it stands. -/
def State.rdcDrop (s : State) (die ln : Nat) : State :=
  { s with mm := { s.mm with rdc := s.mm.rdc.filter (fun r => !(r.die == die && r.line == ln)) } }

/-- Fills a line into a job's remote-data cache of a die: an invalid or stale way, else the way of the line hash (R132). -/
def State.rdcFill (s : State) (asid die ln : Nat) (v : LineVal) : State :=
  let n := s.rdcSets asid
  if n = 0 then s
  else
    let set := Config.lineHash ln % n
    let g := s.mm.gen[die]?.getD 0
    let live := s.mm.rdc.filter (fun r => r.die == die && r.asid == asid && r.set == set && r.gen == g)
    let way := ((List.range 7).find? (fun w => !(live.any (fun r => r.way == w)))).getD (Config.lineHash ln % 7)
    let rest := s.mm.rdc.filter (fun r => !(r.die == die && r.asid == asid && r.set == set && r.way == way))
    { s with mm := { s.mm with rdc := ⟨die, asid, set, way, ln, g, v.data, v.tags, v.psn⟩ :: rest } }

/-- The generation of a die advances, and the sets whose index equals it modulo 65,536 are cleared (R133). -/
def State.bumpGen (s : State) (die : Nat) : State :=
  if hd : die < 4 then
    let g := s.mm.gen[die] + 1#16
    { s with mm := { s.mm with gen := s.mm.gen.set die g,
                               rdc := s.mm.rdc.filter (fun r => !(r.die == die && r.set % 65536 == g.toNat)) } }
  else s

/-! ## Fetching a line from its home -/

/-- No plane is being quiesced and every module that is not retired has carried all that it was given: what may use any plane
may start (R399, R411). -/
def State.planesMove (s : State) : Bool :=
  s.fab.quiesce == .running && s.fab.modules.all (fun e => e.state == 2 || s.fab.idle e.id)

/-- A transaction for a line may start from a die: its plane takes one, and for a line of this device the way to its home is
clear. -/
def State.wayOpen (s : State) (die ln : Nat) : Bool :=
  s.fab.planeOpen (s.planeOf ln) && (!s.isLocal (ln * 128) || s.wayClear die (paDie (ln * 128)) ln)

/-- Waits until a transaction for a line may start from a die, and with it the recall of the line from the dies that have it
checked out (R399, R411). -/
def needWay (die ln : Nat) : A Unit := fun s =>
  if s.wayOpen die ln && s.mm.l2.all (fun e => e.pa != ln || !e.out || s.wayOpen e.die ln) then .ok ((), s) else .error (.wait s)

/-- Waits until the line that a fill of the L2 of a die evicts may go home: a checked-in one needs its way too (R126, R411). -/
def needVictim (die asid line : Nat) : A Unit := fun s =>
  let mates := s.l2Mates die asid line
  if mates.all (fun e => e.way != (s.pickL2 die mates).1 || !e.out || s.wayOpen die e.pa) then .ok ((), s) else .error (.wait s)

/-- Nothing on its die has overtaken the read of a line that a requester has had answered: caches may take it (R140). -/
def State.keeps (s : State) (uid ln : Nat) : Bool := !((s.repliesOf uid).any (fun p => p.op == 0#6 && p.line == ln && !p.keep))

/-- A line as a reader on a die gets it from its home: its own die's base die, another die, or another device. `give` is what
the home of this device answers. -/
def fetchFrom (who : Who) (ln : Nat) (give : State → State × LineVal) : A LineVal := do
  let s ← get
  if s.isLocal (ln * 128) then
    needWay who.die ln
    let (t, v) := give (s.cross who.die (paDie (ln * 128)) ln)
    set t
    return v
  else
    let r ← askRemote who (plainReq (s.devStream (paDev (ln * 128)) ln) 0 ln)
    return ⟨r.data, 0, r.psn⟩

/-- A line as a reader of an address space gets it from its home. -/
def fetchHome (who : Who) (space ln : Nat) : A LineVal := fetchFrom who ln (fun s => s.homeRead space ln)

/-- A line of a page table as a walk reads it. It is no line that the job maps, so it is read as it is held (R137; log entry
19). -/
def fetchTable (who : Who) (ln : Nat) : A LineVal := fetchFrom who ln (fun s => (s.mscServe who.asid ln false, s.homeLine ln))

/-- A line that missed the L2 on a page without MS: the remote-data cache first for a line homed elsewhere (R132). -/
def throughRdc (who : Who) (ln : Nat) (fetch : A LineVal) : A LineVal := do
  let s ← get
  if s.isLocal (ln * 128) && paDie (ln * 128) == who.die then fetch
  else match (if s.rdcSets who.asid = 0 then none else s.rdcHit who.asid who.die ln) with
    | some r => return ⟨r.data, r.tags, r.psn⟩
    | none =>
      let v ← fetch
      modify (fun t => if t.keeps who.uid ln then t.rdcFill who.asid who.die ln v else t)
      return v

/-- The fill of a line of a page without MS. -/
def fetchCached (who : Who) (space ln : Nat) : A LineVal := throughRdc who ln (fetchHome who space ln)

/-! ## Page tables (R112 to R115) -/

/-- The address space whose tables translate an address (R110). -/
def spaceOf (asid : Nat) (va : Word) : Nat := if va.getLsbD 56 then 0 else asid

/-- The memory front of a virtual address (R115). -/
def frontOf (va : Word) : Nat :=
  (xorAll ((List.range 20).map (fun k => bitsOf va.toNat (16 + 2 * k) 2))) ^^^ bitsOf va.toNat 56 1

/-- Fields of a page-table entry (R113). -/
def pteV (p : Word) : Bool := p.getLsbD 0
def pteLeaf (p : Word) : Bool := p.getLsbD 1
def pteRd (p : Word) : Bool := p.getLsbD 2
def pteW (p : Word) : Bool := p.getLsbD 3
def pteX (p : Word) : Bool := p.getLsbD 4
def pteWin (p : Word) : Nat := bitsOf p.toNat 5 2
def pteMs (p : Word) : Bool := p.getLsbD 7
def pteAddr (p : Word) : Nat := bitsOf p.toNat 12 51 * 4096
def pteReserved (p : Word) : Bool := p.getLsbD 63 || bitsOf p.toNat 8 4 != 0

/-- The cause of an absent page by the kind of access (R114). -/
def absentCause : Access → BitVec 8
  | .load => 5#8
  | .store => 6#8
  | .atomic => 6#8
  | .fetch => 7#8

/-- A table entry, read at its physical home as any physical access is (R111, R115): one that lies in no memory fails, and
a poisoned one is consumed. Control space is no memory (log entry 47). -/
def readEntry (who : Who) (pa : Nat) : A Word := do
  let s ← get
  let ln := pa / 128
  if paRegion pa ≥ 2 || !populated (s.blOf who.asid) pa then A.fault 8#8
  let v ← throughRdc who ln (fetchTable who ln)
  if v.psn.getLsbD (bitsOf pa 5 2) then A.poison
  return BitVec.ofNat 64 (getElt v.data 64 (bitsOf pa 3 4))

/-- The index of a virtual address and the page bits of a leaf, by level 0 (root) to 3 (R112). -/
def levelIndex (va : Word) (level : Nat) : Nat × Nat :=
  match level with
  | 0 => (bitsOf va.toNat 39 17, 39)
  | 1 => (bitsOf va.toNat 30 9, 30)
  | 2 => (bitsOf va.toNat 21 9, 21)
  | _ => (bitsOf va.toNat 16 5, 16)

/-- The walk from a table: structural in the levels left (R112, R114). Gives the leaf and its page bits. -/
def walkFrom (who : Who) (va : Word) (acc : Access) : Nat → Nat → Nat → A (Word × Nat)
  | 0, _, _ => A.fault 8#8
  | fuel + 1, level, table => do
    let (idx, bits) := levelIndex va level
    let p ← readEntry who (table + 8 * idx)
    if !pteV p then A.fault (absentCause acc)
    else if pteReserved p || (level == 0 && pteLeaf p) || (level == 3 && !pteLeaf p) then A.fault 8#8
    else if pteLeaf p then
      if pteAddr p % 2 ^ bits ≠ 0 then A.fault 8#8 else return (p, bits)
    else walkFrom who va acc fuel (level + 1) (pteAddr p)

/-- The leaf suits its window, its region and the job's ranges (R114, R121, R122). -/
def leafSuits (s : State) (space : Nat) (p : Word) (bits : Nat) : Bool :=
  let pa := pteAddr p
  match pteWin p with
  | 0 => paRegion pa == 0 || (paRegion pa == 2 && pteMs p)
  | 1 => paRegion pa == 1 && space != 0 && decide (2 ^ bits ≤ s.blOf space * 1024)
  | 2 =>
    let d := paDie pa
    let l := paOff pa / 128
    match s.jobOf space with
    | none => false
    | some j => paRegion pa == 0 && s.isLocal pa && decide (j.rb[d]?.getD 0 ≤ l)
        && decide (l + 2 ^ bits / 128 ≤ j.rb[d]?.getD 0 + j.rn[d]?.getD 0)
  | _ => false

/-- An interleaved address of a die whose interleaved space was barred when the job was created (R357, R360). -/
def State.barredTo (s : State) (space pa : Nat) : Bool :=
  paRegion pa == 0 && s.isLocal pa && (s.jobOf space).any (fun j => j.barred.contains (paDie pa))

/-- The access is permitted by the leaf (R114, R217). -/
def permitted (acc : Access) (p : Word) : Bool :=
  match acc with
  | .load => pteRd p
  | .store => pteW p
  | .atomic => pteRd p && pteW p
  | .fetch => pteX p

/-- Two pages fall into one of the 512 sets of a front's translation slice (R115): the set is the page number modulo 512
(log entry 47). -/
def Tlb.mates (a b : Tlb) : Bool :=
  a.die == b.die && a.front == b.front && a.page / 2 ^ a.bits % 512 == b.page / 2 ^ b.bits % 512

/-- A translation enters its front's slice of 4096, 8 ways to a set; a full set gives up its oldest (R115, log entry 47). -/
def fillTlb (l : List Tlb) (t : Tlb) : List Tlb :=
  t :: (l.filter t.mates).take 7 ++ l.filter (fun u => !t.mates u)

/-- The leaf of a virtual address: the front's slice, else a walk that fills it (R112, R115). -/
def leafOf (who : Who) (va : Word) (acc : Access) : A (Word × Nat) := do
  let s ← get
  let space := spaceOf who.asid va
  let front := frontOf va
  let found := s.mm.tlb.find? (fun t => t.die == who.die && t.front == front && t.asid == space
    && t.page == va.toNat / 2 ^ t.bits * 2 ^ t.bits)
  match found with
  | some t => return (t.pte, t.bits)
  | none =>
    match getKey space s.fe.roots with
    | none => A.fault (absentCause acc)
    | some root =>
      let (p, bits) ← walkFrom who va acc 4 0 root
      let e : Tlb := ⟨who.die, front, space, va.toNat / 2 ^ bits * 2 ^ bits, bits, p⟩
      modify (fun t => { t with mm := { t.mm with tlb := (fillTlb t.mm.tlb e) } })
      return (p, bits)

/-- Translates a virtual address for an access (R114, R115). The address of a host bridge (R325) is tested like any other global
physical address, with the job's own BL (log entry 75). -/
def translate (who : Who) (va : Word) (acc : Access) : A (Nat × Word) := do
  let (p, bits) ← leafOf who va acc
  let s ← get
  let space := spaceOf who.asid va
  if !leafSuits s space p bits then A.fault 8#8
  else if !permitted acc p then A.fault 8#8
  else
    let pa := pteAddr p + va.toNat % 2 ^ bits
    if !populated (s.blOf space) pa || s.barredTo space pa then A.fault 8#8 else return (pa, p)

end Sys2Proof.Machine
end

