-- ==== Sys2Proof/Machine/Order.lean ====
section
/-!
DEFINITION. Gathering a line at its home (R153), release and acquire actions by scope (R143, R145), leagues and barrier
phases (R42 to R47, R225).
-/

namespace Sys2Proof.Machine

open Sys2Proof

/-! ## Gathering a line at its home -/

/-- Changes the lines of the L1s. -/
def State.mapL1 (s : State) (f : List CoreLine → List CoreLine) : State :=
  { s with mm := { s.mm with l1 := f s.mm.l1 } }

/-- Every checkout of a line is recalled and every dirty copy written back; at a memory-side unit every cached copy
is then discarded, elsewhere the copies take the new line when it is written (R153, R154). -/
def State.gather (s : State) (ln : Nat) (memSide : Bool) : State :=
  let s1 := s.cleanL2 (fun e => e.pa == ln && (e.out || (e.dirty != 0)))
  if memSide then
    let s2 := s1.dropL2 (fun e => e.pa == ln)
    { s2 with mm := { s2.mm with l1 := s2.mm.l1.filter (fun c => c.pa != ln || c.pin.isSome),
                                 rdc := s2.mm.rdc.filter (fun r => r.line != ln) } }
  else s1

/-- Reads of other devices' lines that a die has under way are overtaken: each requester still takes its data, but no cache of
the die does, so that a later load cannot find them there (R140, R144). -/
def State.spoilReads (s : State) (die : Nat) (hit : Nat → Bool) : State :=
  let here := fun (uid : Nat) => s.reqDie uid == some die
  let spoil := fun (p : Reply) => if p.op == 0#6 && hit p.line then { p with keep := false } else p
  let streams := s.fab.streams.map (fun (t : Stream) => { t with stale := t.stale ++ (t.outstanding.filter (fun r =>
    r.op == 0#6 && hit r.line && t.waiting.any (fun w => w.1 == r.eseq && here w.2))).map (·.eseq) })
  let replies := changeAll (fun (e : Nat × Reply) => here e.1) (fun e => (e.1, spoil e.2)) s.engineReplies
  ({ s with fab := { s.fab with streams := streams }, engineReplies := replies }).onHarts (fun h =>
    if h.place.die = die then { h with replies := h.replies.map spoil } else h)

/-- A die's clean copies of a line are dropped after an operation at its home, so that the die's later loads reach the
home's value (R140): its L1 copies, and where the die is not the home its L2 copy, its remote-data cache record and what its
reads of another device still bring. -/
def State.dropCopies (s : State) (die ln : Nat) : State :=
  let home := s.isLocal (ln * 128) && paDie (ln * 128) == die
  let s1 := (s.dropL2 (fun e => !home && e.die == die && e.pa == ln)).rdcDrop die ln
  let s2 := s1.mapL1 (fun l => l.filter (fun c => !(c.die == die && c.pa == ln) || c.pin.isSome))
  if s.isLocal (ln * 128) then s2 else s2.spoilReads die (fun l => l == ln)

/-- The home die's own L2 copy of a line. -/
def State.homeCopy (s : State) (ln : Nat) : Option L2Line :=
  s.mm.l2.find? (fun e => e.pa == ln && e.die == paDie (ln * 128))

/-- A line as its home serves an indivisible operation: the copy of the home's L2 slice, else its memory (R153). -/
def State.served (s : State) (space ln : Nat) : LineVal :=
  match s.homeCopy ln with
  | some e => ⟨e.data, e.tags, e.psn⟩
  | none => s.homeAs space ln

/-- A plain or indivisible read finds the line in the home die's L2, or the memory-side cache serves it (R134, R153). -/
def State.readServed (s : State) (space ln : Nat) : State := if (s.homeCopy ln).isSome then s else s.mscServe space ln false

/-- An indivisible operation writes masked bytes of a line at its home (R146, R153). A copy in the home's L2 slice takes
them: written by a core of that die, they stay dirty there under the core's writer bit; written from elsewhere, or with no
such copy, memory takes them at once, since no core of the die could release them (log entry 48). One that writes nothing
reads the line where it stands. -/
def State.serveWrite (s : State) (space ln : Nat) (v : LineVal) (mask : BitVec 128) (core : Option Nat) : State :=
  if mask = 0 then s.readServed space ln
  else match s.homeCopy ln, core with
  | some _, some c =>
    let l2 := changeAll (fun (e : L2Line) => e.pa == ln && e.die == paDie (ln * 128))
      (fun e => let r := (LineVal.mk e.data e.tags e.psn).overlay v mask
                { e with data := r.data, tags := r.tags, psn := r.psn, dirty := e.dirty ||| mask,
                         writers := e.writers ||| (1#48 <<< c), rrpv := 0 }) s.mm.l2
    { s with mm := { s.mm with l2 := l2 } }
  | _, _ => s.takeIn space 4 ln v mask (wordsOf mask)

/-- A line as its home L2 slice or home memory gives it to an address space, every dirty copy gathered: a plain read at system
scope. -/
def State.seen (s : State) (space ln : Nat) : LineVal := (s.gather ln false).homeAs space ln

/-- A plain write at system scope of the masked bytes of a line at its home; no cached copy outlives it. -/
def State.writeSeen (s : State) (space ln : Nat) (v : LineVal) (mask : BitVec 128) : State :=
  (s.gather ln true).homeWrite space ln v mask (wordsOf mask)

/-- A fence at system scope sends its marker behind the hart's stores in every stream that holds some (R147, R324). -/
def State.sendMarkers (s : State) (uid : Nat) : State :=
  let mine := fun (t : Stream) (r : FonakReq) => t.waiting.any (fun w => w.1 == r.eseq && w.2 == uid)
  let need := s.fab.streams.filter (fun t => t.outstanding.any (fun r => (r.op == 1#6 || r.op == 11#6) && mine t r)
    && !t.outstanding.any (fun r => r.op == 4#6 && mine t r))
  need.foldl (fun (u : State) (t : Stream) => if u.mayAsk t.key 4 then u.sendReq uid (plainReq t.key 4 0) else u) s

/-! ## Release and acquire actions (R145) -/

/-- The stores of a hart that have left it and not yet performed at their home: posted writes and multicast writes that no
acknowledgement has reached, and bank-linear stores that wait for their bank (R119, R131, R145). -/
def State.unacked (s : State) (uid : Nat) : Bool :=
  s.fab.streams.any (fun t => t.outstanding.any (fun r =>
    (r.op == 1#6 || r.op == 4#6 || r.op == 11#6) && t.waiting.any (fun w => w.1 == r.eseq && w.2 == uid)))
  || s.banks.any (fun b => (b.2.moving.toList ++ b.2.pending).any (fun r => r.uid == uid && r.store.isSome))

/-- The lines a package release of a core makes visible: the dirty lines homed on the die and the checked-out lines that it
wrote (R145, R146), or that another core wrote before it acquired (R144). -/
def releasable (die core : Nat) (e : L2Line) : Bool :=
  e.die == die && (e.writers ||| e.heirs).getLsbD core && (e.out || (e.dirty != 0 && paDie (e.pa * 128) == die))

/-- Release actions of a hart of a core at a scope; a die-scope release finds every store already in the L2 (R145). R145
lists the lines whose writer mask includes the core; the transitive closure of R144 asks for those too that reached the
core by a die-scope synchronisation, and the model writes back both (log entry 46). -/
def State.release (s : State) (die core : Nat) (scope : BitVec 2) : State :=
  if scope.toNat ≤ 1 then s else s.cleanL2 (releasable die core)

/-- A core has acquired on its die: what other cores of the die have written before is its to release (R144). -/
def State.inherit (s : State) (die core : Nat) : State :=
  let l2 := changeAll (fun (e : L2Line) => e.die == die && (e.out || e.dirty != 0))
    (fun e => { e with heirs := e.heirs ||| (1#48 <<< core) }) s.mm.l2
  { s with mm := { s.mm with l2 := l2 } }

/-- Acquire actions of a hart of a core at a scope (R145): the L1 drops its unpinned lines; at package scope the
die's checked-out lines are checked in, its clean lines homed elsewhere dropped, its generation advances, and what its reads
of other devices still bring enters no cache (R144). -/
def State.acquire (s : State) (die core : Nat) (scope : BitVec 2) : State :=
  if scope = 0#2 then s
  else
    let s0 := s.inherit die core
    let s1 := s0.mapL1 (fun l => l.filter (fun c => !(c.die == die && c.core == core) || c.pin.isSome))
    if scope = 1#2 then s1
    else
      let s2 := s1.cleanL2 (fun e => e.die == die && e.out)
      let s3 := s2.dropL2 (fun e => e.die == die && e.dirty == 0 && !e.out
        && !(s.isLocal (e.pa * 128) && paDie (e.pa * 128) == die))
      (s3.spoilReads die (fun _ => true)).bumpGen die

/-- Release actions of the hart in focus. -/
def State.releaseMine (s : State) (scope : BitVec 2) : State := s.release s.hart.place.die s.hart.place.core scope

/-- Acquire actions of the hart in focus. -/
def State.acquireMine (s : State) (scope : BitVec 2) : State := s.acquire s.hart.place.die s.hart.place.core scope

/-! ## Leagues (R42 to R47) -/

/-- A league by its id. -/
def State.leagueOf (s : State) (id : Nat) : Option League := s.fe.leagues.find? (fun l => l.id == id)

/-- Stores a league. -/
def State.putLeague (s : State) (l : League) : State :=
  { s with fe := { s.fe with leagues := l :: s.fe.leagues.filter (fun k => k.id != l.id) } }

/-- A barrier object at league creation (R45). -/
def Barrier.reset : Barrier := ⟨0, [], [], []⟩

/-- A barrier object of a league. -/
def League.object (l : League) (n : BitVec 3) : Barrier := l.objects[n.toNat]'(have := n.isLt; by omega)

/-- Stores a barrier object. -/
def League.setObject (l : League) (n : BitVec 3) (b : Barrier) : League :=
  { l with objects := l.objects.set n.toNat b (have := n.isLt; by omega) }

/-- The phase a member's next arrival counts toward (R225). -/
def Member.nextOf (m : Member) (n : BitVec 3) : BitVec 32 := m.next[n.toNat]'(have := n.isLt; by omega)

/-- The phase scope: the narrowest of core, die and package that covers every current member and arrival; one that is
not resident makes it package (R47). -/
def State.phaseScope (s : State) (uids : List Nat) : BitVec 2 :=
  let ps := uids.map (fun u => (s.hartOf u).bind (fun h => if h.isResident then some h.place else none))
  match ps.head? with
  | some (some p) =>
    if ps.all (fun q => q.any (fun r => r.die == p.die && r.core == p.core)) then 0#2
    else if ps.all (fun q => q.any (fun r => r.die == p.die)) then 1#2 else 2#2
  | _ => 2#2

/-- The release actions of every arrival of a phase (R47). A hart that has left its core may have left dirty lines on
any core, so every dirty line of its address space is released. -/
def State.releaseArrivals (s : State) (scope : BitVec 2) (uids : List Nat) : State :=
  uids.foldl (fun t u =>
    match t.hartOf u with
    | some h => if h.isResident then t.release h.place.die h.place.core scope
                else t.cleanL2 (fun e => e.asid == h.asid && (e.out || e.dirty != 0))
    | none => t) s

/-- Completes phases of a barrier object while no member still owes an arrival to the current one (R46). A phase is not
complete before the release actions of its arrivals are: their stores to other devices and to banks have performed
(R47, R145). -/
def State.settlePhases (s : State) (id : Nat) (n : BitVec 3) : Nat → State
  | 0 => s
  | fuel + 1 =>
    match s.leagueOf id with
    | none => s
    | some l =>
      let b := l.object n
      if l.members = [] ∨ l.members.any (fun m => m.nextOf n == b.c) ∨ b.arrived.any s.unacked then s
      else
        let uids := l.members.map (·.uid) ++ b.arrived
        -- an arrival by a hart that has left makes the scope package
        let scope := if b.arrived.any (fun u => !(l.members.any (fun m => m.uid == u))) then 2#2 else s.phaseScope uids
        if scope = 2#2 && !s.planesMove then s else
        let s1 := s.releaseArrivals scope b.arrived
        -- harts one phase ahead have already arrived at the phase that now starts
        (s1.putLeague (l.setObject n ⟨b.c + 1#32, b.early, (b.c, scope) :: b.scopes, []⟩)).settlePhases id n fuel

/-- Completes phases of every barrier object of a league. -/
def State.settleLeague (s : State) (id : Nat) : State :=
  (List.range 8).foldl (fun t n => t.settlePhases id (BitVec.ofNat 3 n) 3) s

/-- Completes the phases that waited for stores of their arrivals to perform (R47). -/
def State.settleLeagues (s : State) : State := s.fe.leagues.foldl (fun t l => t.settleLeague l.id) s

/-- Changes every barrier register of a hart. -/
def Hart.mapB (h : Hart) (f : Option Binding → Option Binding) : Hart :=
  (List.range 8).foldl (fun (g : Hart) (n : Nat) =>
    if hn : n < 8 then { g with b := g.b.set n (f g.b[n]) } else g) h

/-- A hart leaves its league: its owed arrivals count, its barrier registers bound to the league are unbound, and an
empty league dissolves (R43). -/
def State.leaveLeague (s : State) (uid : Nat) : State :=
  match (s.hartOf uid).bind (·.league) with
  | none => s
  | some id =>
    let unbind : Option Binding → Option Binding := fun x =>
      match x with
      | some y => if y.league = id then none else some y
      | none => none
    let s1 := s.onHart uid (fun h => { h.mapB unbind with league := none })
    match s1.leagueOf id with
    | none => s1
    | some l =>
      let rest := l.members.filter (fun m => m.uid != uid)
      if rest = [] then { s1 with fe := { s1.fe with leagues := s1.fe.leagues.filter (fun k => k.id != id) } }
      else
        let owed := fun (n : BitVec 3) => l.members.any (fun m => m.uid == uid && m.nextOf n == (l.object n).c)
        let l1 := (List.range 8).foldl (fun (k : League) (i : Nat) =>
          let n := BitVec.ofNat 3 i
          if owed n then k.setObject n { (k.object n) with arrived := uid :: (k.object n).arrived } else k)
          { l with members := rest }
        (s1.putLeague l1).settleLeague id

/-- Dissolves every league a job owns (R43, R355). -/
def State.dissolveLeagues (s : State) (asid : Nat) : State :=
  let ids := (s.fe.leagues.filter (fun l => l.owner == asid)).map (·.id)
  let s1 := s.onHarts (fun h => match h.league with
    | some id => if ids.contains id then { h with league := none, b := Vector.replicate 8 none } else h
    | none => h)
  { s1 with fe := { s1.fe with leagues := s1.fe.leagues.filter (fun l => l.owner != asid) } }

/-- The smallest per-core count c of the co-residency rule for one hart (R49). -/
def coResident (footprint tiles : Nat) : Nat :=
  let a := min 16 (4194304 / footprint)
  if tiles = 0 then a else min a (8 / tiles)

/-- A hart's footprint in bytes (R28). -/
def Hart.footprint (h : Hart) : Nat := h.nregs * h.vlMax * 8

end Sys2Proof.Machine
end

