-- ==== Sys2Proof/Machine/Queue.lean ====
section
/-!
DEFINITION. Queues: control blocks, slots, notify writes, mapping and unmapping, packet failure and interrupts
(R50 to R62, R328).
-/

namespace Sys2Proof.Machine

open Sys2Proof

/-! ## Control blocks (R50) -/

/-- A field of a control block: the dword at a byte offset, its high and low bit. -/
def qField (q : Line) (off hi lo : Nat) : Nat := bitsOf q.toNat (8 * off + lo) (hi - lo + 1)

/-- A control block with a field replaced. -/
def qSet (q : Line) (off hi lo v : Nat) : Line :=
  let w := hi - lo + 1
  let m : Line := BitVec.ofNat 1024 (2 ^ w - 1) <<< (8 * off + lo)
  (q &&& ~~~m) ||| (BitVec.ofNat 1024 (v % 2 ^ w) <<< (8 * off + lo))

/-- The line number of a queue's control block: the table base plus q x 128 (R50). -/
def State.qcbLine (s : State) (qid : Nat) : Nat := s.fe.qtab / 128 + qid

/-- The control block as the front end of its home die sees it: the cached one, whose WRITEIDX is always memory's, else
memory (R53, R55). -/
def State.qcb (s : State) (qid : Nat) : Line :=
  let m := (s.seen 0 (s.qcbLine qid)).data
  match s.fe.qcbCache.find? (fun e => e.2.1 == qid) with
  | some (_, _, q) => qSet q 0x10 63 0 (qField m 0x10 63 0)
  | none => m

/-- The bytes of a control block that the device writes whole: all but WRITEIDX. -/
def qcbMask : BitVec 128 := ~~~(0xFF#128 <<< 16)

/-- Writes a control block through to memory, and to the cache if it holds the block (R53). -/
def State.putQcb (s : State) (qid : Nat) (q : Line) : State :=
  let s1 := s.writeSeen 0 (s.qcbLine qid) ⟨q, 0, 0⟩ qcbMask
  let cache := changeAll (fun (e : Nat × Nat × BitVec 1024) => e.2.1 == qid) (fun e => (e.1, e.2.1, q)) s1.fe.qcbCache
  { s1 with fe := { s1.fe with qcbCache := cache } }

/-- Changes one field of a control block. -/
def State.setQ (s : State) (qid off hi lo v : Nat) : State := s.putQcb qid (qSet (s.qcb qid) off hi lo v)

/-- Raises WRITEIDX, indivisibly at the block's line (R55). -/
def State.raiseWrite (s : State) (qid widx : Nat) : State :=
  let q := s.qcb qid
  let v := max (qField q 0x10 43 0) widx
  s.writeSeen 0 (s.qcbLine qid) ⟨qSet q 0x10 43 0 v, 0, 0⟩ (0xFF#128 <<< 16)

def State.qAsid (s : State) (qid : Nat) : Nat := qField (s.qcb qid) 8 31 16
def State.qHome (s : State) (qid : Nat) : Nat := qField (s.qcb qid) 8 11 10
def State.qErr (s : State) (qid : Nat) : Bool := qField (s.qcb qid) 8 9 9 == 1
def State.qEn (s : State) (qid : Nat) : Bool := qField (s.qcb qid) 8 8 8 == 1
def State.qMapped (s : State) (qid : Nat) : Bool := qField (s.qcb qid) 0x38 8 8 == 1
def State.qWrite (s : State) (qid : Nat) : Nat := qField (s.qcb qid) 0x10 43 0

/-- A control block enters the cache of its home die; a full set gives up the block of an unmapped queue (R53):
which of several the rule leaves open, and the model gives up the one that entered first (log entry 65). -/
def State.cacheQcb (s : State) (die qid : Nat) : State :=
  if s.fe.qcbCache.any (fun e => e.2.1 == qid) then s
  else
    let mates := s.fe.qcbCache.filter (fun e => e.1 == die && e.2.1 % 512 == qid % 512)
    let old := (mates.filter (fun e => !(s.fe.slots.any (fun t => t.qid == e.2.1)))).head?
    let kept := match old with
      | some v => if mates.length ≥ 8 then s.fe.qcbCache.filter (fun e => e.2.1 != v.2.1) else s.fe.qcbCache
      | none => s.fe.qcbCache
    { s.readServed 0 (s.qcbLine qid) with fe := { s.fe with qcbCache := kept ++ [(die, qid, s.qcb qid)] } }

/-- The block of a queue leaves the cache (QSTOP, R53). -/
def State.uncacheQcb (s : State) (qid : Nat) : State :=
  { s with fe := { s.fe with qcbCache := s.fe.qcbCache.filter (fun e => e.2.1 != qid) } }

/-! ## Slots (R54, R56) -/

/-- The slot that holds a queue. -/
def State.slotOf (s : State) (qid : Nat) : Option Slot := s.fe.slots.find? (fun t => t.qid == qid)

/-- A slot by its place. -/
def State.slotAt (s : State) (die n : Nat) : Option Slot := s.fe.slots.find? (fun t => t.die == die && t.slot == n)

/-- A slot's queue is idle: its window is empty and every written packet has entered (R56). -/
def Slot.idle (t : Slot) : Bool := t.window.isEmpty && t.readIdx == t.writeIdx

/-- Stores a slot; one that turns idle notes when (R56). -/
def State.putSlot (s : State) (t : Slot) : State :=
  let put := fun (u : Slot) => if t.idle && !u.idle then { t with idleSince := s.tick } else t
  { s with fe := { s.fe with slots := replaceFirst (fun u => u.die == t.die && u.slot == t.slot) put s.fe.slots } }

/-- Changes an entry of a queue's window. -/
def State.onEntry (s : State) (qid idx : Nat) (f : Entry → Entry) : State :=
  match s.slotOf qid with
  | some t => s.putSlot { t with window := changeAll (fun e => e.idx == idx) f t.window }
  | none => s

/-- An event is counted in a die's front-end error counter (R54, R55, R328). -/
def State.countErr (s : State) (die : Nat) : State :=
  if hd : die < 4 then { s with fe := { s.fe with errCount := s.fe.errCount.set die (s.fe.errCount[die] + 1) } } else s

/-- Unmaps a queue: READIDX, RETIREIDX and TOKENS are written back, then MAPPED cleared, then the slot freed
(R53, R56). The window of a failed queue is kept for QRESTART (R361). -/
def State.unmapQueue (s : State) (qid : Nat) : State :=
  match s.slotOf qid with
  | none => s
  | some t =>
    let q := s.qcb qid
    let q := qSet (qSet (qSet q 0x18 43 0 t.readIdx) 0x20 43 0 t.retireIdx) 0x28 63 0 t.tokens.toNat
    let s1 := s.putQcb qid (qSet q 0x38 8 8 0)
    let held := if t.window = [] then s1.fe.held else putKey qid t.window s1.fe.held
    { s1 with fe := { s1.fe with slots := s1.fe.slots.filter (fun u => u.qid != qid), held := held } }

/-- A free hardware slot of a die for a queue that is mapped (R56): no rule says which of several, and the model takes the lowest
number (log entry 63). -/
def State.freeSlot (s : State) (die : Nat) : Option Nat :=
  (List.range 256).find? (fun n => !(s.fe.slots.any (fun t => t.die == die && t.slot == n)))

/-- The set of a queue in its die's QCB cache has a way for a mapped queue: at most 6 of 8 (R53). -/
def State.wayFree (s : State) (die qid : Nat) : Bool :=
  decide ((s.fe.slots.filter (fun t => t.die == die && t.qid % 512 == qid % 512)).length < 6)

/-- Installs a queue in a slot, sets MAPPED, then takes the greater of WRITEIDX and the slot's own (R56). -/
def State.installQueue (s : State) (die n qid : Nat) : State :=
  let s0 := s.cacheQcb die qid
  let q := s0.qcb qid
  let t : Slot := { die := die, slot := n, qid := qid, writeIdx := qField q 0x10 43 0, readIdx := qField q 0x18 43 0,
                    retireIdx := qField q 0x20 43 0, tokens := BitVec.ofNat 64 (qField q 0x28 63 0),
                    window := (getKey qid s0.fe.held).getD [], idleSince := s.tick }
  let fe := { s0.fe with slots := s0.fe.slots ++ [t], mapWait := s0.fe.mapWait.filter (fun x => x != qid),
                         held := s0.fe.held.filter (fun e => e.1 != qid) }
  { s0 with fe := fe }.putQcb qid (qSet (qSet q 0x38 7 0 n) 0x38 8 8 1)

/-- Of two slots the one that has been idle longer. -/
def longerIdle (a b : Slot) : Slot := if b.idleSince < a.idleSince then b else a

/-- The queue idle longest among those whose unmapping frees the slot or the way that a mapping needs (R56). -/
def State.idleVictim (s : State) (die qid : Nat) : Option Nat :=
  match s.fe.slots.filter (fun t => t.die == die && t.idle && (s.wayFree die qid || t.qid % 512 == qid % 512)) with
  | [] => none
  | t :: l => some (l.foldl longerIdle t).qid

/-- Maps a queue on its home die, unmapping an idle victim for room; with no room the request waits (R56, R57). -/
def State.mapQueue (s : State) (qid : Nat) : State :=
  let die := s.qHome qid
  if (s.slotOf qid).isSome ∨ s.qErr qid ∨ ¬ s.qEn qid then s
  else
    match s.freeSlot die, s.wayFree die qid with
    | some n, true => s.installQueue die n qid
    | _, _ =>
      match s.idleVictim die qid with
      | none => if s.fe.mapWait.contains qid then s else { s with fe := { s.fe with mapWait := s.fe.mapWait ++ [qid] } }
      | some v =>
        let s1 := s.unmapQueue v
        match s1.freeSlot die with
        | some n => s1.installQueue die n qid
        | none => s1

/-- Serves waiting mapping requests in the order of their arrival: one that finds a free slot and way, or a queue that has
turned idle, is mapped (R56, R57). -/
def State.serveMapWait (s : State) : State :=
  s.fe.mapWait.foldl (fun t q =>
    if ((t.freeSlot (t.qHome q)).isSome && t.wayFree (t.qHome q) q) || (t.idleVictim (t.qHome q) q).isSome then
      { t with fe := { t.fe with mapWait := t.fe.mapWait.filter (fun x => x != q) } }.mapQueue q
    else t) s

/-- A notify write (R55). A host write of another size than 8 bytes is discarded and counted (R54). -/
def State.notify (s : State) (die n bytes : Nat) (value : Word) (writer : Option Nat) : State :=
  if bytes ≠ 8 then s.countErr die
  else
    let qid := bitsOf value.toNat 44 20
    let widx := bitsOf value.toNat 0 44
    if qid ≥ s.fe.qcount then s.countErr die
    else if writer.any (fun a => a != s.qAsid qid) then s
    else
      let s1 := s.raiseWrite qid widx
      match s1.slotAt die n with
      | some t =>
        if t.qid = qid then s1.putSlot { t with writeIdx := max t.writeIdx widx }
        else if s1.qEn qid && !s1.qErr qid && !s1.qMapped qid then s1.mapQueue qid
        else match s1.slotOf qid with
          | some u => s1.putSlot { u with writeIdx := max u.writeIdx widx }
          | none => s1
      | none =>
        if s1.qEn qid && !s1.qErr qid && !s1.qMapped qid then s1.mapQueue qid
        else match s1.slotOf qid with
          | some u => s1.putSlot { u with writeIdx := max u.writeIdx widx }
          | none => s1

/-! ## Interrupts and failure -/

/-- Sends an interrupt message to the owner, or drops and counts it when there is none (R328, R351). -/
def State.interrupt (s : State) (die : Nat) (msg : BitVec 11) : State :=
  if s.terak.agent = .nobody then s.countErr die else { s with fe := { s.fe with outbox := s.fe.outbox ++ [⟨s.terak.agent, s.terak.epoch, msg⟩] } }

/-- A queue with QERR whose launched packets have all completed or been ended is unmapped (R57). -/
def State.dropFailed (s : State) (qid : Nat) : State :=
  match s.slotOf qid with
  | some t =>
    if s.qErr qid && t.window.all (fun e => !e.launched || e.complete || (e.failed && e.alive == 0 && e.ranges == []))
    then (s.unmapQueue qid).serveMapWait else s
  | none => s

/-- A packet fails: QERR and QERRCODE are set unless QERR is set already; none of its tokens is set (R60). -/
def State.failPacket (s : State) (qid idx code : Nat) : State :=
  let s1 := if s.qErr qid then s else s.putQcb qid (qSet (qSet (s.qcb qid) 8 39 32 code) 8 9 9 1)
  let fail := fun (e : Entry) => if e.failed then e else { e with failed := true, code := code }
  let s2 := match s1.slotOf qid with
    | some t => s1.putSlot { t with window := changeAll (fun e => e.idx == idx) fail t.window }
    | none => s1
  s2.dropFailed qid

/-- A packet's number of living harts falls by one (R62, R69); a failed queue whose last work that was is unmapped
(R57). -/
def State.packetHartGone (s : State) (qid idx : Nat) : State :=
  (s.onEntry qid idx (fun e => { e with alive := e.alive - 1 })).dropFailed qid

end Sys2Proof.Machine
end

