-- ==== Sys2Proof/Machine/Access.lean ====
section
/-!
DEFINITION. One access of a hart or engine to memory: the L1, scratchpad, the strip store buffer, and the windows of
R118 with their loads, stores, atomics and instruction fetches (R124, R125, R152 to R154, R203, R209, R217, R238).
-/

namespace Sys2Proof.Machine

open Sys2Proof

/-! ## L1 and instruction cache (R124, R127, R128) -/

/-- Changes the lines of the instruction caches. -/
def State.mapIcache (s : State) (f : List CoreLine → List CoreLine) : State :=
  { s with mm := { s.mm with icache := f s.mm.icache } }

/-- The entry of a line in a core's cache. -/
def findCore (l : List CoreLine) (die core asid line : Nat) : Option CoreLine :=
  l.find? (fun c => c.die == die && c.core == core && c.asid == asid && c.line == line)

/-- Lines of one set of a core's cache. -/
def setMates (sets : Nat) (l : List CoreLine) (die core line : Nat) : List CoreLine :=
  l.filter (fun c => c.die == die && c.core == core && c.line % sets == line % sets)

/-- Fills a line into a core's cache of 8 ways, replacing under R127. -/
def fillCore (sets : Nat) (l : List CoreLine) (c : CoreLine) : List CoreLine :=
  let mates := setMates sets l c.die c.core c.line
  let (way, age) := pickWay 8 (mates.map (fun e => (e.way, e.rrpv, e.pin.isSome)))
  let here := fun (e : CoreLine) => e.die == c.die && e.core == c.core && e.line % sets == c.line % sets
  let kept := l.filter (fun e => !(here e && e.way == way))
  { c with way := way } :: changeAll (fun e => here e && e.pin.isNone) (fun e => { e with rrpv := min 3 (e.rrpv + age) }) kept

/-- A hit sets the prediction of the entry to zero (R127). -/
def hitCore (l : List CoreLine) (die core asid line : Nat) : List CoreLine :=
  changeAll (fun c => c.die == die && c.core == core && c.asid == asid && c.line == line)
    (fun c => { c with rrpv := 0 }) l

/-- Writes masked bytes into a core's copies of a line (R124). -/
def writeCore (l : List CoreLine) (die core asid line : Nat) (v : LineVal) (mask : BitVec 128) : List CoreLine :=
  changeAll (fun c => c.die == die && c.core == core && c.asid == asid && c.line == line)
    (fun c => let r := (LineVal.mk c.data c.tags c.psn).overlay v mask
              { c with data := r.data, tags := r.tags, psn := r.psn, rrpv := 0 }) l

/-! ## Address classes -/

/-- An address lies in the scratchpad range of its job (R125). -/
def State.inScratch (s : State) (asid : Nat) (va : Word) : Bool :=
  match s.spBaseOf asid with
  | some b => decide (b.toNat ≤ va.toNat) && decide (va.toNat < b.toNat + 393216)
  | none => false

/-- How an access is served (R118, R209, R322); a cached one with the leaf its caches hold the line under (R115). -/
inductive Window where
  | scratch
  | cached (pa : Nat) (leaf : Word)
  | memSide (pa : Nat) (reach : Bool)
  | bankLinear (pa : Nat)
  | control (pa : Nat)
  deriving DecidableEq, Repr

/-- The window of a translated address. -/
def windowOf (pa : Nat) (p : Word) : Window :=
  if paRegion pa = 2 then .control pa
  else if pteWin p = 1 then .bankLinear pa
  else if pteMs p then .memSide pa (pteWin p == 2)
  else .cached pa p

/-- The leaf and the physical line under which a cache on the way of an access holds its line: such an access needs no
translation (R115). A load or fetch of a hart passes its core's cache first; every access passes its die's L2. -/
def State.heldLeaf (s : State) (who : Who) (va : Word) (acc : Access) : Option (Nat × Word) :=
  let space := spaceOf who.asid va
  let line := va.toNat / 128
  let core := fun (l : List CoreLine) =>
    if (s.hartOf who.uid).isSome then
      ((findCore l who.die who.core space line).filter (fun c => c.pin.isNone)).map (fun c => (c.pa, c.leaf))
    else none
  let first := match acc with
    | .load => core s.mm.l1
    | .fetch => core s.mm.icache
    | _ => none
  first.or ((s.findL2 who.die space line).map (fun e => (e.pa, e.leaf)))

/-- The physical address of an access and its leaf: as the caches hold them, else translated (R114, R115). -/
def locate (who : Who) (va : Word) (acc : Access) : A (Nat × Word) := do
  match (← get).heldLeaf who va acc with
  | some (ln, p) => if permitted acc p then return (ln * 128 + va.toNat % 128, p) else A.fault 8#8
  | none => translate who va acc

/-- Control space refuses an access: a load finds DEVSELF and the notify registers, an aligned store of 8 bytes the
notify registers and the multicast window, and nothing else is listed for harts; notify registers are reached through an
ASID 0 mapping (R54, R322, R330). -/
def controlRefuses (space pa size : Nat) (acc : Access) : Bool :=
  let off := paOff pa
  let notify := decide (off < 0x800) && space == 0
  match acc with
  | .load => !(notify || off / 8 * 8 == 0x20000)
  | .store => size != 8 || !(notify || (decide (0x1000000000 ≤ off) && decide (off < 0x1010000000)))
  | _ => true

/-- The checks of R203 in their order: canonical bits, alignment, a pinned scratchpad line, translation, what control
space refuses; and the window the access is served in. -/
def classify (who : Who) (va : Word) (align : Nat) (acc : Access) : A Window := do
  let s ← get
  if va.toNat ≥ 2 ^ 57 then A.fault 8#8
  else if va.toNat % align ≠ 0 then A.fault 4#8
  else if s.inScratch who.asid va then
    match findCore s.mm.l1 who.die who.core who.asid (va.toNat / 128) with
    | some c => if c.pin.isSome then return .scratch else A.fault 8#8
    | none => A.fault 8#8
  else
    let (pa, p) ← locate who va acc
    if paRegion pa = 2 ∧ controlRefuses (spaceOf who.asid va) pa align acc then A.fault 8#8
    else return windowOf pa p

/-- The byte mask of `size` bytes at an address within its line. -/
def byteMask (va size : Nat) : BitVec 128 := BitVec.ofNat 128 ((2 ^ size - 1) * 2 ^ (va % 128))

/-- A line value holding a number at an address within the line. -/
def placeBytes (va : Nat) (v : Nat) (tag : Bool) : LineVal :=
  ⟨BitVec.ofNat 1024 (v * 2 ^ (8 * (va % 128))), if tag then (~~~0#16) else 0#16, 0⟩

/-- Another hart's copy into this byte range is in flight on the core (R168). -/
def State.rangeBusy (s : State) (who : Who) (lo size : Nat) : Bool :=
  s.copies.any (fun c => c.place.die == who.die && c.place.core == who.core &&
    c.range.any (fun r => decide (r.1 < lo + size) && decide (lo < r.2)))

/-! ## Strip store buffer (R238) -/

/-- The buffered bytes of a hart laid over a line: the words they touch carry no tag (R122, R211). -/
def State.forward (s : State) (uid line : Nat) (v : LineVal) : LineVal :=
  match (s.hartOf uid).bind (fun h => h.strip.find? (fun e => e.line == line)) with
  | none => v
  | some e => v.overlay ⟨e.data, 0, e.psn⟩ e.bytes

/-- The strip store buffer of a hart holds this granule poisoned: the open furlong has written it (R394). -/
def State.ownStrip (s : State) (uid line g : Nat) : Bool :=
  ((s.hartOf uid).bind (fun h => h.strip.find? (fun e => e.line == line))).any (fun e => e.psn.getLsbD g)

/-- Buffers a store; stores to one line coalesce, the younger bytes standing. -/
def Hart.buffer (h : Hart) (line : Nat) (v : LineVal) (mask : BitVec 128) : Hart :=
  let old := (h.strip.find? (fun e => e.line == line)).getD ⟨line, 0, 0, 0⟩
  let r := (LineVal.mk old.data 0 old.psn).overlay v mask
  { h with strip := h.strip.filter (fun e => e.line != line) ++
             [StripEntry.mk line r.data (old.bytes ||| mask) r.psn] }

/-- A free entry of the core's 2048, or the line already buffered (R238, R239). -/
def State.stripRoom (s : State) (who : Who) (line : Nat) : Bool :=
  let held := ((s.onCore who.die who.core).map (fun h => h.strip.length)).sum
  (s.hart.strip.any (fun e => e.line == line)) || decide (held < 2048)

/-! ## Reading a line -/

/-- A line through the die's L2, past every L1: the L2, else its home, filling the L2 (R126, R132) unless the read has been
overtaken (R140). -/
def readL2 (who : Who) (va pa : Nat) (leaf : Word) (rd : Nat) : A LineVal := do
  let asid := spaceOf who.asid (BitVec.ofNat 64 va)
  match (← get).findL2 who.die asid (va / 128) with
  | some e =>
    modify (fun t => t.putL2 { e with rrpv := 0 })
    return ⟨e.data, e.tags, e.psn⟩
  | none =>
    needVictim who.die asid (va / 128)
    let v ← fetchCached who asid (pa / 128)
    modify (fun t => if t.keeps who.uid (pa / 128) then t.fillL2 who.die asid (va / 128) (pa / 128) leaf rd v else t)
    return v

/-- The line that a cached load reads: the L1, the die's L2, or its home, filling both (R124 to R127, R132). -/
def readCached (who : Who) (va pa : Nat) (leaf : Word) (rd : Nat) : A LineVal := do
  let line := va / 128
  let asid := spaceOf who.asid (BitVec.ofNat 64 va)
  match findCore (← get).mm.l1 who.die who.core asid line with
  | some c =>
    modify (fun t => t.mapL1 (fun l => hitCore l who.die who.core asid line))
    return ⟨c.data, c.tags, c.psn⟩
  | none =>
    let v ← readL2 who va pa leaf rd
    let c : CoreLine := ⟨who.die, who.core, asid, line, pa / 128, leaf, 0, rd, v.data, v.tags, v.psn, none⟩
    modify (fun t => if t.keeps who.uid (pa / 128) then t.mapL1 (fun l => fillCore 512 l c) else t)
    return v

/-! ## Ordinary requests to a bank (R119, R292 to R294) -/

/-- The bank of a bank-linear address (R121). -/
def paBank (pa : Nat) : Nat := bitsOf pa 24 16

/-- A µop that makes a row operation (R292). -/
def isRowUop : Instr → Bool
  | .ract _ _ => true
  | .radd _ _ _ => true
  | .rshadd _ _ _ _ _ => true
  | .rcopy _ _ => true
  | .rclr _ _ => true
  | .racc _ _ _ => true
  | .rlka _ _ => true
  | _ => false

/-- The next thing that a bank engine does is a row operation: a row of a lookup run, or a row µop (R292). -/
def Bank.nextIsRow (k : Bank) : Bool :=
  match k.run with
  | .idle => false
  | .lookup _ _ _ _ _ _ => true
  | .program _ _ _ =>
    match decodeMicro (BitVec.ofNat 16 (getElt k.micro 16 k.upc)) with
    | .ok i => decide (k.upc < 64) && isRowUop i
    | .error _ => false

/-- A bank serves an ordinary request as it comes: none waits there and its engine makes no row operation (R294). -/
def Bank.free (k : Bank) : Bool := k.moving.isNone && k.pending == [] && !k.susp && !k.nextIsRow

/-- The request of a requester for an address that waits at a bank or whose data move there. -/
def Bank.holds (k : Bank) (uid pa : Nat) : Bool :=
  (k.moving.toList ++ k.pending).any (fun r => r.uid == uid && r.row * 1024 + r.byte == pa % 2 ^ 24 && r.store.isNone)

/-- An ordinary load of `size` bytes at an address. -/
def loadReq (uid pa size : Nat) : OrdReq := ⟨0, bitsOf pa 10 14, bitsOf pa 0 10, size, none, 0, false, none, uid⟩

/-- The completion code under which a bank returns the data of an ordinary load to its requester, and the address as its
line. -/
def bankReply : BitVec 6 := 0x3F#6

/-- Puts ordinary requests behind those that a bank already holds (R292). -/
def State.askBank (s : State) (bank : Nat) (l : List OrdReq) : State :=
  let k := s.bank bank
  s.setBank bank { k with pending := k.pending ++ l }

/-- A load of bank-linear bytes: served at once by a bank that is free, else an ordinary request whose data come when the
bank has moved them (R119, R294). -/
def bankLoad (who : Who) (pa size : Nat) : A LineVal := do
  let s ← get
  match (s.repliesOf who.uid).find? (fun p => p.op == bankReply && p.line == pa) with
  | some p => return ⟨p.data, 0, p.psn⟩
  | none =>
    let k := s.bank (paBank pa)
    if !s.isLocal pa || k.free then fetchHome who 0 (pa / 128)
    else fun t => .error (.wait (if k.holds who.uid pa then t else t.askBank (paBank pa) [loadReq who.uid pa size]))

/-- The ordinary requests of a store to a line, one for each granule that it writes: a whole granule moves as one (R292,
R352). -/
def storeReqs (uid : Nat) (v : LineVal) (mask : BitVec 128) (line : Nat) : List OrdReq :=
  ((List.range 4).filter (fun g => getElt mask 32 g != 0)).map (fun g =>
    ⟨0, bitsOf line 3 14, bitsOf line 0 3 * 128 + 32 * g, 32, some (BitVec.ofNat 256 (getElt v.data 256 g)),
     BitVec.ofNat 32 (getElt mask 32 g), v.psn.getLsbD g, none, uid⟩)

/-- The line that a load of `size` bytes reads in any window, with the hart's own buffered bytes over it. -/
def readLine (who : Who) (va size rd : Nat) (w : Window) : A LineVal := do
  let s ← get
  match w with
  | .scratch =>
    match findCore s.mm.l1 who.die who.core who.asid (va / 128) with
    | some c => return s.forward who.uid (va / 128) ⟨c.data, c.tags, c.psn⟩
    | none => A.fault 8#8
  | .cached pa leaf =>
    let v ← readCached who va pa leaf rd
    return (← get).forward who.uid (va / 128) v
  | .memSide pa _ => fetchHome who (spaceOf who.asid (BitVec.ofNat 64 va)) (pa / 128)
  | .bankLinear pa => bankLoad who pa size
  | .control pa =>
    -- DEVSELF reads its number and a notify register reads zero (R54, R322)
    if !s.isLocal pa then fetchHome who 0 (pa / 128)
    else if paOff pa / 8 * 8 = 0x20000 then return placeBytes (va / 8 * 8) s.fe.devSelf.toNat false
    else return placeBytes va 0 false

/-- A load in the window its checks have found: its value and the tag of its 8-byte word; poison in its granule stops
it (R209, R354). -/
def loadFrom (who : Who) (va : Word) (size rd : Nat) (w : Window) : A (Nat × Bool) := do
  if (← get).rangeBusy who va.toNat size then A.wait
  else
    let v ← readLine who va.toNat size rd w
    let g := va.toNat % 128 / 32
    if v.psn.getLsbD g then fun s => .error (.poison (s.ownStrip who.uid (va.toNat / 128) g))
    else return (bitsOf v.data.toNat (8 * (va.toNat % 128)) (8 * size), v.tags.getLsbD (va.toNat % 128 / 8))

/-- A load: the checks of R203, then the access. -/
def loadAt (who : Who) (va : Word) (size rd : Nat) : A (Nat × Bool) := do
  let w ← classify who va size .load
  loadFrom who va size rd w

/-! ## Writing a line -/

/-- The requester's core marks a line of its L2 written (R146). -/
def markWritten (e : L2Line) (core : Nat) (v : LineVal) (mask : BitVec 128) : L2Line :=
  let r := (LineVal.mk e.data e.tags e.psn).overlay v mask
  { e with data := r.data, tags := r.tags, psn := r.psn, dirty := e.dirty ||| mask,
           writers := e.writers ||| (1#48 <<< core) }

/-- Recalls the line of the twin record in a way: its writer checks it in, which frees the record (R130). -/
def State.recallTwin (s : State) (mates : List Twin) (way : Nat) : State :=
  match mates.find? (fun t => t.way == way) with
  | some t =>
    match s.mm.l2.find? (fun e => e.out && e.die == t.writer && e.pa == t.line) with
    | some e => s.checkIn e
    | none => s.freeTwin t.line t.writer
  | none => s

/-- Sets the round-robin pointer of a twin set. -/
def State.setTwinPtr (s : State) (home asid set ptr : Nat) : State :=
  let rest := s.mm.twinPtr.filter (fun p => !(p.1 == home && p.2.1 == asid && p.2.2.1 == set))
  { s with mm := { s.mm with twinPtr := (home, asid, set, ptr) :: rest } }

/-- The set of the twin area of a job at the home of a line that takes the line's twin, the records that it holds, and its pointer
(R130). -/
def State.twinSet (s : State) (asid ln : Nat) : Nat × List Twin × Nat :=
  let home := paDie (ln * 128)
  let n := (if s.jobGet asid (·.twinQ) 2 = 0 then 2 else s.jobGet asid (·.twinQ) 2) * 262144
  let set := Config.lineHash ln % n
  (set, s.mm.twins.filter (fun t => t.die == home && t.asid == asid && t.set == set),
   ((s.mm.twinPtr.find? (fun p => p.1 == home && p.2.1 == asid && p.2.2.1 == set)).map (·.2.2.2)).getD 0)

/-- The lowest free way of a twin set. -/
def freeTwinWay (mates : List Twin) : Option Nat := (List.range 7).find? (fun w => !(mates.any (fun t => t.way == w)))

/-- Waits until the line that a full twin set recalls may go home (R130, R411). -/
def needRecall (asid ln : Nat) : A Unit := fun s =>
  let (_, mates, ptr) := s.twinSet asid ln
  if (freeTwinWay mates).isSome || mates.all (fun t => t.way != ptr || s.wayOpen t.writer t.line) then .ok ((), s) else .error (.wait s)

/-- Checks a line out of its home die: the current line, with what the home die's own L2 holds dirty of it written back
first, becomes a twin in the area of its job there and replaces the writer's copy (R129, R130). A full twin set recalls the line its pointer
names. -/
def State.checkOut (s : State) (asid space die ln : Nat) : State × LineVal :=
  let home := paDie (ln * 128)
  let (set, mates, ptr) := s.twinSet asid ln
  let (s1, way) : State × Nat := match freeTwinWay mates with
    | some w => (s, w)
    | none => ((s.recallTwin mates ptr).setTwinPtr home asid set ((ptr + 1) % 7), ptr)
  let (s2, v) := (s1.cleanL2 (fun e => e.pa == ln && e.die == home && e.dirty != 0)).homeRead space ln
  ({ s2 with mm := { s2.mm with twins := ⟨home, asid, set, way, ln, die, v.data, v.tags, v.psn⟩ :: s2.mm.twins } }, v)

/-- A store to a cached page, by where its line is homed (R124, R126, R129, R131). -/
def writeCached (who : Who) (va pa : Nat) (leaf : Word) (v : LineVal) (mask : BitVec 128) : A Unit := do
  let s ← get
  let line := va / 128
  let asid := spaceOf who.asid (BitVec.ofNat 64 va)
  let ln := pa / 128
  -- a hit sets RRPV 0, the store's own fill leaves 2 (R127)
  let hit := (s.findL2 who.die asid line).isSome
  let mark := fun (e : L2Line) => let m := markWritten e who.core v mask; if hit then { m with rrpv := 0 } else m
  let l1 := fun (t : State) => t.mapL1 (fun l => writeCore l who.die who.core asid line v mask)
  if !s.isLocal pa then
    needWay who.die ln
    needRoom (s.devStream (paDev pa) ln) 1
    -- posted write of the bytes it writes; an L2 copy stays clean, the RDC record goes (R131), and no read that it overtakes
    -- fills a cache (R140)
    let req := { plainReq (s.devStream (paDev pa) ln) 1 ln with
                 bmask := mask, data := v.data, gmask := touchedGranules mask, psn := v.psn }
    modify (fun t =>
      let t := (l1 t).sendReq who.uid req
      let t := (t.rdcDrop who.die ln).spoilReads who.die (fun l => l == ln)
      match t.findL2 who.die asid line with
      | some e => let r := (LineVal.mk e.data e.tags e.psn).overlay v mask
                  t.putL2 { e with data := r.data, tags := r.tags, psn := r.psn, rrpv := 0 }
      | none => t)
  else if paDie pa = who.die then
    if !hit then
      needVictim who.die asid line
      let old ← fetchHome who asid ln
      modify (fun t => t.fillL2 who.die asid line ln leaf 2 old)
    modify (fun t => match t.findL2 who.die asid line with
      | some e => (l1 t).putL2 (mark e)
      | none => t)
  else
    if !((s.findL2 who.die asid line).any (fun e => e.out)) then
      needWay who.die ln
      needVictim who.die asid line
      needRecall who.asid ln
      modify (fun t =>
        let (t1, cur) := t.checkOut who.asid asid who.die ln
        let t2 := (t1.cross who.die (paDie pa) ln).rdcDrop who.die ln
        let t3 := if (t2.findL2 who.die asid line).isSome then t2 else t2.fillL2 who.die asid line ln leaf 2 cur
        match t3.findL2 who.die asid line with
        | some e => t3.putL2 { e with data := cur.data, tags := cur.tags, psn := cur.psn, out := true }
        | none => t3)
    modify (fun t => match t.findL2 who.die asid line with
      | some e => (l1 t).putL2 (mark e)
      | none => t)

/-- A store performed at the home base die: MS pages and bank-linear pages whose bank is free (R119, R123). -/
def writeHome (who : Who) (space pa : Nat) (v : LineVal) (mask : BitVec 128) : A Unit := do
  needWay who.die (pa / 128)
  let s ← get
  let ln := pa / 128
  if s.isLocal pa then
    set ((s.cross who.die (paDie pa) ln).homeWrite space ln v mask (wordsOf mask))
  else
    needRoom (s.devStream (paDev pa) ln) 1
    set (s.sendReq who.uid { (plainReq (s.devStream (paDev pa) ln) 1 ln) with
           bmask := mask, data := v.data, gmask := touchedGranules mask, psn := v.psn })

/-- A store to a bank-linear page: performed at once by a bank that is free; else it leaves the hart as ordinary requests,
which wait at the bank (R119, R294). -/
def bankStore (who : Who) (pa : Nat) (v : LineVal) (mask : BitVec 128) : A Unit := do
  let s ← get
  if !s.isLocal pa || (s.bank (paBank pa)).free then writeHome who 0 pa v mask
  else
    needWay who.die (pa / 128)
    set ((s.cross who.die (paDie pa) (pa / 128)).askBank (paBank pa) (storeReqs who.uid v mask (pa / 128)))

/-- A multicast write leaves for its group (R330): the dword at an offset of the window, under a requester's number. -/
def State.sendMulticast (s : State) (uid pa : Nat) (value : Nat) : State :=
  let ln := pa / 128
  s.sendReq uid { (plainReq (s.devStream s.fe.devSelf.toNat ln) 11 ln) with
    bmask := byteMask pa 8, data := (placeBytes pa value false).data,
    attr := BitVec.ofNat 16 (bitsOf (paOff pa) 12 16), gmask := touchedGranules (byteMask pa 8) }

/-- A store that control space takes: a notify, or a multicast write (R54, R322, R330). -/
def writeControl (who : Who) (pa : Nat) (value : Nat) : A Unit := do
  let s ← get
  if !s.isLocal pa then writeHome who 0 pa (placeBytes pa value false) (byteMask pa 8)
  else if paOff pa < 0x800 then
    -- only a hart may be the writer of another job (R55)
    set (s.notify (paDie pa) (paOff pa / 8) 8 (BitVec.ofNat 64 value) ((s.hartOf who.uid).map (fun _ => who.asid)))
  else
    needWay who.die (pa / 128)
    needRoom (s.devStream s.fe.devSelf.toNat (pa / 128)) 11
    set (s.sendMulticast who.uid pa value)

/-- Where the buffered stores of a furlong go: each line with its physical address and leaf, none in the scratchpad. A
store into a range that another copy is writing waits (R168). -/
def locateStrip (who : Who) : List StripEntry → A (List (StripEntry × Option (Nat × Word)))
  | [] => pure []
  | e :: es => do
    let va := BitVec.ofNat 64 (e.line * 128)
    let s ← get
    if (List.range 128).any (fun i => e.bytes.getLsbD i && s.rangeBusy who (e.line * 128 + i) 1) then A.wait
    else
      let at' ← if s.inScratch who.asid va then pure none else (fun r => some r) <$> locate who va .store
      let rest ← locateStrip who es
      return (e, at') :: rest

/-- The buffered stores of the hart in focus enter memory as if issued now (R238, R239). -/
def performStrip (who : Who) : List (StripEntry × Option (Nat × Word)) → A Unit
  | [] => pure ()
  | (e, at') :: es => do
    let v : LineVal := ⟨e.data, 0, e.psn⟩
    match at' with
    | none => modify (fun t => t.mapL1 (fun l => writeCore l who.die who.core who.asid e.line v e.bytes))
    | some (pa, leaf) => writeCached who (e.line * 128) pa leaf v e.bytes
    performStrip who es

/-- Commits the open furlong of the hart in focus: it performs its buffered stores, all in one step or, while one of them
must wait, none, and runs pass-through from here on (R238, R239). -/
def commitFurlong : A Unit := do
  let s ← get
  if s.hart.strip = [] then set { s with hart := { s.hart with furlong := none } }
  else
    let l ← locateStrip s.who s.hart.strip
    let t ← get
    match performStrip s.who l t with
    | .ok (_, u) => set { u with hart := { u.hart with furlong := none, strip := [] } }
    | .error (.wait _) => A.wait
    | .error x => fun _ => .error x

/-- A store of `size` bytes, checks first (R203, R209). `tag` is set by reference stores alone (R122). -/
def storeLine (who : Who) (va : Word) (size : Nat) (value : Nat) (tag : Bool) (w : Window) : A Unit := do
  let v := placeBytes va.toNat value tag
  let mask := byteMask va.toNat size
  let s ← get
  let buffered := s.hart.uid == who.uid && s.hart.furlong.isSome
  if s.rangeBusy who va.toNat size then A.wait
  else
    match w with
    | .control pa => do
      if buffered then commitFurlong
      writeControl who pa value
    | .memSide pa _ => do
      if buffered then commitFurlong
      writeHome who (spaceOf who.asid va) pa v mask
    | .bankLinear pa => do
      if buffered then commitFurlong
      bankStore who pa v mask
    | .scratch =>
      if buffered && s.stripRoom who (va.toNat / 128) then
        modify (fun t => { t with hart := t.hart.buffer (va.toNat / 128) v mask })
      else
        if buffered then commitFurlong
        modify (fun t => t.mapL1 (fun l => writeCore l who.die who.core who.asid (va.toNat / 128) v mask))
    | .cached pa leaf =>
      if buffered && !tag && s.isLocal pa && s.stripRoom who (va.toNat / 128) then
        modify (fun t => { t with hart := t.hart.buffer (va.toNat / 128) v mask })
      else
        if buffered then commitFurlong
        writeCached who va.toNat pa leaf v mask

/-- A store: its checks and its effect. -/
def storeAt (who : Who) (va : Word) (size : Nat) (value : Nat) : A Unit := do
  let w ← classify who va size .store
  storeLine who va size value false w

/-- A releasing store performs at its scope (R139): at package scope or wider the cached line it wrote on its die is
written back or checked in. -/
def State.shown (s : State) (die : Nat) (w : Window) (scope : BitVec 2) : State :=
  match w with
  | .cached pa _ =>
    if scope.toNat ≤ 1 then s
    else s.cleanL2 (fun e => e.die == die && e.pa == pa / 128 && (e.out || e.dirty != 0))
  | _ => s

/-! ## Atomics at the home (R153, R154, R217) -/

/-- The new value of an atomic, or none when a compare fails (R217). -/
def atomicNew (op : BitVec 4) (old operand expected : Word) : Option Word :=
  match op.toNat with
  | 0 => some (old + operand)
  | 1 => some operand
  | 2 => if old = expected then some operand else none
  | 3 => some (if old.slt operand then old else operand)
  | 4 => some (if old.slt operand then operand else old)
  | 5 => some (if old.ult operand then old else operand)
  | 6 => some (if old.ult operand then operand else old)
  | 7 => some (old &&& operand)
  | 8 => some (old ||| operand)
  | _ => some (old ^^^ operand)

/-- An atomic performs at the home of its dword on this device: the old value and whether it was poisoned. `core` is the
core of the home die that issued it, if one did (R146). -/
def State.atomicHome (s : State) (space pa : Nat) (op : BitVec 4) (operand expected : Word) (memSide : Bool)
    (core : Option Nat) : State × Word × Bool :=
  let ln := pa / 128
  let s1 := s.gather ln memSide
  let v := s1.served space ln
  let psn := v.psn.getLsbD (bitsOf pa 5 2)
  let old := BitVec.ofNat 64 (getElt v.data 64 (bitsOf pa 3 4))
  let s2 := match atomicNew op old operand expected with
    | some new => s1.serveWrite space ln (placeBytes pa new.toNat false) (byteMask pa 8) core
    | none => s1.readServed space ln
  (s2.dropCopies (paDie pa) ln, old, psn)

/-! ## Instruction fetch -/

/-- The word at a PC, through the instruction cache, which stores do not update (R128, R181, R203). The geometry of
64 sets of 8 ways is the model's (log entry 13). -/
def fetchWord (who : Who) (pc : Word) : A (BitVec 32) := do
  let s ← get
  if pc.toNat ≥ 2 ^ 57 then A.fault 8#8
  else if s.inScratch who.asid pc then A.fault 8#8
  else
    let (pa, p) ← locate who pc .fetch
    let line := pc.toNat / 128
    let asid := spaceOf who.asid pc
    let pick := fun (v : LineVal) => BitVec.ofNat 32 (getElt v.data 32 (pc.toNat % 128 / 4))
    let bad := fun (v : LineVal) => v.psn.getLsbD (pc.toNat % 128 / 32)
    match windowOf pa p with
    | .cached _ _ =>
      match findCore s.mm.icache who.die who.core asid line with
      | some c =>
        let v : LineVal := ⟨c.data, c.tags, c.psn⟩
        if bad v then A.poison
        else
          modify (fun t => t.mapIcache (fun l => hitCore l who.die who.core asid line))
          return pick v
      | none =>
        let v ← readL2 who pc.toNat pa p 2
        if bad v then A.poison
        else
          let c : CoreLine := ⟨who.die, who.core, asid, line, pa / 128, p, 0, 2, v.data, v.tags, v.psn, none⟩
          modify (fun t => t.mapIcache (fun l => fillCore 64 l c))
          return pick v
    | .control _ => A.fault 8#8
    | .bankLinear _ =>
      let v ← bankLoad who pa 4
      if bad v then A.poison else return pick v
    | _ =>
      let v ← fetchHome who asid (pa / 128)
      if bad v then A.poison else return pick v

end Sys2Proof.Machine
end

