-- ==== Sys2Proof/WellFormed.lean ====
section
/-!
DEFINITION. Well-formed instructions: the field values that an instruction's own description reserves although its
bits match the instruction (R181). Such a word decodes, and its meaning raises cause 0x01.
-/

namespace Sys2Proof

/-- With neither AQ nor RL the scope code must be zero (R211, R217, R218). -/
def scopeNeedsClass (l q : BitVec 1) (s : BitVec 2) : Bool := l == 1#1 || q == 1#1 || s == 0#2

/-- A field that must hold a mask number holds 0 to 11 (R233). -/
def isMask (m : BitVec 6) : Bool := m.toNat ≤ 11

/-- A register pair starts at an even register from 2 to 30 (R278, R300). -/
def isPair (c : BitVec 5) : Bool := c.toNat % 2 == 0 && c != 0#5

/-- A register quad starts at a multiple of 4 from 4 to 28 (R300). -/
def isQuad (c : BitVec 5) : Bool := c.toNat % 4 == 0 && c != 0#5

/-- No field of the instruction holds a value that the instruction reserves. -/
def Instr.wf (i : Instr) : Bool :=
  match i with
  | .add _ _ _ => true
  | .sub _ _ _ => true
  | .and _ _ _ => true
  | .or _ _ _ => true
  | .xor _ _ _ => true
  | .sll _ _ _ => true
  | .srl _ _ _ => true
  | .sra _ _ _ => true
  | .slt _ _ _ => true
  | .sltu _ _ _ => true
  | .min _ _ _ => true
  | .max _ _ _ => true
  | .minu _ _ _ => true
  | .maxu _ _ _ => true
  | .clz _ _ => true
  | .ctz _ _ => true
  | .popc _ _ => true
  | .mul _ _ _ => true
  | .mulh _ _ _ => true
  | .mulhu _ _ _ => true
  | .div _ _ _ => true
  | .divu _ _ _ => true
  | .rem _ _ _ => true
  | .remu _ _ _ => true
  | .addi _ _ _ => true
  | .andi _ _ _ => true
  | .ori _ _ _ => true
  | .xori _ _ _ => true
  | .slti _ _ _ => true
  | .sltiu _ _ _ => true
  | .slli _ _ _ => true
  | .srli _ _ _ => true
  | .srai _ _ _ => true
  | .lui _ _ => true
  | .auipc _ _ => true
  | .jal _ _ => true
  | .jalr _ _ _ => true
  | .beq _ _ _ => true
  | .bne _ _ _ => true
  | .blt _ _ _ => true
  | .bge _ _ _ => true
  | .bltu _ _ _ => true
  | .bgeu _ _ _ => true
  | .lb _ _ _ _ => true
  | .lh _ _ _ _ => true
  | .lw _ _ _ _ => true
  | .ld _ _ _ _ => true
  | .lbu _ _ _ _ => true
  | .lhu _ _ _ _ => true
  | .lwu _ _ _ _ => true
  | .ldacq _ _ _ _ _ => true
  | .sb _ _ _ => true
  | .sh _ _ _ => true
  | .sw _ _ _ => true
  | .sd _ _ _ => true
  | .sdrel _ _ _ _ => true
  | .ldref _ _ _ _ q s => scopeNeedsClass 0#1 q s
  | .sdref _ _ _ => true
  | .spub _ _ _ s => s != 0#2
  | .rtag _ _ _ => true
  | .objinit _ _ _ => true
  | .amoadd _ _ _ _ l q s => scopeNeedsClass l q s
  | .amoswap _ _ _ _ l q s => scopeNeedsClass l q s
  | .amocas _ _ _ _ l q s => scopeNeedsClass l q s
  | .amomin _ _ _ _ l q s => scopeNeedsClass l q s
  | .amomax _ _ _ _ l q s => scopeNeedsClass l q s
  | .amominu _ _ _ _ l q s => scopeNeedsClass l q s
  | .amomaxu _ _ _ _ l q s => scopeNeedsClass l q s
  | .amoand _ _ _ _ l q s => scopeNeedsClass l q s
  | .amoor _ _ _ _ l q s => scopeNeedsClass l q s
  | .amoxor _ _ _ _ l q s => scopeNeedsClass l q s
  | .alrb => true
  | .alre l q s => scopeNeedsClass l q s
  | .fence k _ => k != 7#3
  | .vdrain => true
  | .binit _ => true
  | .barr _ _ => true
  | .bwait _ _ => true
  | .ljoin _ _ => true
  | .lleave => true
  | .waitc _ _ _ => true
  | .spalloc _ _ => true
  | .spfree _ => true
  | .ecall => true
  | .ebreak => true
  | .eret => true
  | .wfi => true
  | .yield => true
  | .halt => true
  | .csrr _ _ => true
  | .csrw _ _ _ => true
  | .csrs _ _ _ => true
  | .csrc _ _ _ => true
  | .vsetl _ _ _ => true
  | .vdecl _ _ => true
  | .vmode _ _ _ => true
  | .ixset _ _ _ => true
  | .ixbnd _ _ _ => true
  | .ixstep _ _ _ => true
  | .ixlane _ _ _ => true
  | .vmvx _ _ _ _ => true
  | .vmvv _ _ _ => true
  | .vadd _ _ _ _ => true
  | .vsub _ _ _ _ => true
  | .vmul _ _ _ _ => true
  | .vmac _ _ _ _ => true
  | .vnmac _ _ _ _ => true
  | .vmin _ _ _ _ => true
  | .vmax _ _ _ _ => true
  | .vabs _ _ _ => true
  | .vneg _ _ _ => true
  | .vand _ _ _ _ => true
  | .vor _ _ _ _ => true
  | .vxor _ _ _ _ => true
  | .vsll _ _ _ _ => true
  | .vsrl _ _ _ _ => true
  | .vsra _ _ _ _ => true
  | .vcmpeq _ d _ _ => isMask d
  | .vcmpne _ d _ _ => isMask d
  | .vcmplt _ d _ _ => isMask d
  | .vcmple _ d _ _ => isMask d
  | .vmerge _ _ _ _ => true
  | .vdiv _ _ _ _ => true
  | .vsqrt _ _ _ => true
  | .vrcp _ _ _ => true
  | .vrsq _ _ _ => true
  | .vexp2 _ _ _ => true
  | .vlog2 _ _ _ => true
  | .vclass _ _ _ => true
  | .vconj _ _ _ => true
  | .vcvt _ _ _ t => t.toNat ≤ 13
  | .vqnt _ _ _ _ => true
  | .vdqnt _ _ _ _ => true
  | .vqi8 _ _ _ _ => true
  | .vshrr _ _ _ _ => true
  | .vredsum _ _ _ => true
  | .vredmax _ _ _ => true
  | .vredmin _ _ _ => true
  | .vredand _ _ _ => true
  | .vredor _ _ _ => true
  | .vscansum _ _ _ => true
  | .vslideup _ _ _ _ => true
  | .vslidedn _ _ _ _ => true
  | .vgathr _ _ _ _ => true
  | .vcompress _ _ _ => true
  | .vexpand _ _ _ => true
  | .vbcast _ _ _ => true
  | .viota _ _ => true
  | .mand _ d a b => isMask d && isMask a && isMask b
  | .mor _ d a b => isMask d && isMask a && isMask b
  | .mxor _ d a b => isMask d && isMask a && isMask b
  | .mnot _ d a => isMask d && isMask a
  | .mpop _ _ a => isMask a
  | .mfirst _ _ a => isMask a
  | .msetvl _ _ a => isMask a
  | .vld _ _ _ _ => true
  | .vlds _ _ _ _ _ => true
  | .vldg _ _ _ _ _ => true
  | .vldseg _ d _ n _ => n != 0#3 && d.toNat ≤ 47
  | .vst _ _ _ => true
  | .vsts _ _ _ _ => true
  | .vstsc _ _ _ _ => true
  | .vstseg _ d _ n => n != 0#3 && d.toNat ≤ 47
  | .mmode _ _ => true
  | .opa _ _ _ _ _ _ => true
  | .azero _ => true
  | .acld _ _ _ => true
  | .acrd _ _ _ _ _ => true
  | .acst _ _ _ c => isPair c
  | .mexit => true
  | .cbld _ _ _ _ => true
  | .tbld _ _ _ _ c => isPair c
  | .lka _ _ _ => true
  | .nbset _ _ _ => true
  | .nbld _ _ _ => true
  | .nbrun _ _ _ => true
  | .nbstat _ _ _ => true
  | .nbdrain _ _ _ _ => true
  | .tcopy _ s => isQuad s
  | .tstat _ s _ => s != 3#2
  | .poolMarker _ => true
  | .rend => true
  | .ract _ _ => true
  | .radd _ _ w => w != 3#2
  | .rshadd _ _ w _ _ => w != 3#2
  | .rcopy _ _ => true
  | .rclr _ _ => true
  | .racc _ _ w => w != 3#2
  | .rlka _ _ => true
  | .rbr _ => true
  | .rloop _ _ => true
  | .rsync => true
  | .notifyWrite _ _ _ _ _ => true
  | .queueMap _ _ => true
  | .queueIdleTimeout _ _ => true
  | .packetEnterWindow _ _ => true
  | .packetLaunch _ _ => true
  | .packetComplete _ _ _ => true
  | .dispatch _ => true
  | .priorityPreemptTimeout _ => true
  | .hartPreempt _ => true
  | .hartPromotion _ => true
  | .vrfBankDrowsy _ _ _ => true
  | .vrfRefreshStep _ _ _ => true
  | .wfiTimeout _ => true
  | .kernelWatchdogExpiry _ => true
  | .watchdogGraceExpiry _ => true
  | .trapEntry _ _ => true
  | .pageFaultService _ _ _ => true
  | .furlongCommit _ => true
  | .furlongRewind _ => true
  | .jobEndByError _ _ => true
  | .memoryFrontRequest _ _ _ _ => true
  | .bloomSliceClear _ _ => true
  | .atomicAtHome _ _ _ _ _ => true
  | .regionAtHome _ => true
  | .walkStart _ => true
  | .walkObjectVisit _ => true
  | .walkComplete _ => true
  | .bankCommandStart _ => true
  | .bankCommandComplete _ => true
  | .reductionDrain _ => true
  | .rowOperationEnd _ => true
  | .bankOrdinaryRequest _ _ => true
  | .suspensionWindowEnd _ => true
  | .arbitrationWindowBoundary _ => true
  | .powerBudgetExceeded _ => true
  | .matrixOperation _ => true
  | .tcopyRow _ => true
  | .tcopyComplete _ => true
  | .tcopyStop _ _ _ => true
  | .errorBankEvent _ _ => true
  | .errorBankReadAndClear _ _ => true
  | .errorCountWindowEnd _ => true
  | .completionTimeout _ _ => true
  | .postedWriteTimeout _ _ => true
  | .pcieAtomicopCompletion _ _ _ => true
  | .repairCommit _ => true
  | .coreReplace _ _ => true
  | .rowSpareCopy _ _ => true
  | .channelCopy _ _ => true
  | .cacheRowSpare _ _ => true
  | .scrubRead _ _ => true
  | .sramRailChange _ _ => true
  | .flitReceive _ _ => true
  | .nulFlitTimer _ => true
  | .laneLockLoss _ => true
  | .moduleRetrainEnd _ _ => true
  | .fonakRead _ => true
  | .fonakPostedWrite _ => true
  | .fonakAtomic _ => true
  | .fonakRegion _ => true
  | .fonakFenceMarker _ => true
  | .fonakInterrupt _ => true
  | .fonakCheckout _ => true
  | .fonakCheckIn _ => true
  | .fonakRecall _ => true
  | .fonakCompletion _ => true
  | .fonakMulticastWrite _ _ => true
  | .eseqGapTimeout _ => true
  | .resendRequest _ _ => true
  | .routerCreditTimeout _ _ _ => true
  | .planeDead _ => true
  | .planeQuiesce _ => true
  | .planeDrainComplete _ => true
  | .planeRemap _ => true
  | .planeResume _ => true
  | .firmwareHeartbeat _ => true
  | .firmwareWatchdogExpiry _ _ => true
  | .deadmanRefresh => true
  | .deadmanExpiry => true
  | .class5Declare _ _ => true
  | .powerGood _ => true
  | .stackManagersReady _ => true
  | .frontEndsReady => true
  | .claim _ _ => true
  | .handoff _ _ => true
  | .powerWrite _ _ => true
  | .registerWrite _ _ _ => true
  | .leaseWarning => true
  | .leaseExpiry => true
  | .bar2Read _ _ => true
  | .bar2Write _ _ => true
  | .jobcreate _ => true
  | .jobend _ => true
  | .setroot _ => true
  | .inval _ => true
  | .qstop _ => true
  | .setqtab _ => true
  | .kreg _ => true
  | .setbar2 _ => true
  | .setdev _ => true
  | .setpcap _ => true
  | .setmcast _ => true
  | .attest _ => true
  | .readlog _ => true
  | .seterrmsg _ => true
  | .jobstat _ => true
  | .qrestart _ => true
  | .repairs _ => true
  | .packageReset => true
  | .debuggerHalt _ => true
  | .debuggerResume _ => true
  | .errorMessageDelivered => true
  | .resendsCompleteSignal _ => true
  | .channelCopyRow _ => true
  | .ordinaryRequestDataMoved _ => true

end Sys2Proof
end

