-- ==== Sys2Proof/Machine/Ops.lean ====
section
/-!
DEFINITION. The named operations of a hart: what an instruction's meaning may do, taking an exception (R364 to R367)
and returning from one (R369), page faults (R373), and the end of a hart (R69, R367) and of a job (R138, R355).
-/

namespace Sys2Proof.Machine

open Sys2Proof

/-! ## Units that the harts of a core share (R72) -/

/-- The slot of a core that a shared unit served last. -/
def lastSlot (l : List (Nat × Nat × Nat)) (die core : Nat) : Option Nat :=
  (l.find? (fun e => e.1 == die && e.2.1 == core)).map (·.2.2)

/-- A shared unit of a core has served a slot. -/
def putSlotServed (l : List (Nat × Nat × Nat)) (p : Place) : List (Nat × Nat × Nat) :=
  (p.die, p.core, p.slot) :: l.filter (fun e => !(e.1 == p.die && e.2.1 == p.core))

/-- The slot that a shared unit serves next: in slot order after the last, among those that have something ready. -/
def nextSlot (last : Option Nat) (ready : List Nat) : Option Nat :=
  ((List.range 16).map (fun k => ((last.map (· + 1)).getD 0 + k) % 16)).find? (fun n => ready.contains n)

/-! ## Replies -/

/-- The reply reaches the hart, engine operation, front end, memory front or host that asked; one that has ended has no use
for it. -/
def State.deliver (s : State) (uid : Nat) (p : Reply) : State :=
  match s.hartOf uid with
  | some h => if h.isResident then s.onHart uid (fun g => { g with replies := g.replies ++ [p] }) else s
  | none =>
    if s.copies.any (fun c => c.id == uid) || s.walks.any (fun w => w.id == uid) || s.cmds.any (fun c => c.id == uid)
        || decide (2 ^ 64 ≤ uid)
    then { s with engineReplies := s.engineReplies ++ [(uid, p)] } else s

/-- A hart gives up a load that it waits for: what comes back reaches nobody. -/
def State.abandon (s : State) (uid : Nat) : State :=
  let load := fun (r : OrdReq) => r.uid == uid && r.store.isNone
  let banks := s.banks.map (fun b => (b.1, { b.2 with pending := b.2.pending.filter (fun r => !load r),
                                                      moving := b.2.moving.map (fun r => if load r then { r with uid := 0 } else r) }))
  let streams := s.fab.streams.map (fun (t : Stream) => { t with waiting := t.waiting.filter (fun w =>
    !(w.2 == uid && t.outstanding.any (fun r => r.eseq == w.1 && r.op == 0#6))) })
  ({ s with banks := banks, fab := { s.fab with streams := streams } }).onHart uid (fun h => { h with replies := [] })

/-! ## Ending a hart -/

/-- The furlong of the hart in focus commits outside any instruction (R239), or must wait: the state it waits in. A
buffered store that can no longer be performed is dropped. -/
def State.closing (s : State) : Except State State :=
  match commitFurlong s with
  | .ok (_, t) => .ok t
  | .error (.wait t) => .error t
  | .error _ => .ok { s with hart := { s.hart with furlong := none, strip := [] } }

/-- The lines a hart has pinned are unpinned and discarded (R125). -/
def State.unpin (s : State) (uid : Nat) : State := s.mapL1 (fun l => l.filter (fun c => c.pin != some uid))

/-- A hart's slot, footprint, tiles and pins are freed; it leaves its league and its packet loses a living hart
(R43, R69). -/
def State.freeHart (s : State) (uid : Nat) (phase : Phase) : State :=
  match s.hartOf uid with
  | none => s
  | some h =>
    let s1 := ((s.leaveLeague uid).unpin uid).onHart uid (fun g =>
      { g with phase := phase, wait := .none, matQ := [], region := none, strip := [], furlong := none, nt := 0 })
    s1.packetHartGone h.queue h.packet

/-- The word of CAUSE (R173). -/
def causeWord (v : FaultVals) : Word := (if v.vec then 0x100#64 else 0#64) ||| zext v.cause

/-- A cause waits for its entry, which the commit of the furlong holds up (R239). -/
def State.pend (s : State) (v : FaultVals) : State := { s with hart := { s.hart with wait := .trap v } }

/-- A hart ends without trap entry: its failure record is kept and its packet fails with 0x05 (R367). -/
def State.endHart (s : State) (v : FaultVals) : State :=
  let h := s.hart
  match s.closing with
  | .error t => t.pend v
  | .ok s0 =>
    let rec' : FailRecord := ⟨h.queue, h.asid, h.csr.hartId, v.epc, v.elem, causeWord v⟩
    let s1 := s0.freeHart h.uid .ended
    let s2 := { s1 with fe := { s1.fe with fails := s1.fe.fails ++ [rec'] } }
    s2.failPacket h.queue h.packet 5

/-! ## Taking an exception (R365, R366, R367) -/

/-- The vector registers that outstanding stream drains of a hart still deliver into (R287). -/
def State.streamRegs (s : State) (uid : Nat) : BitVec 48 :=
  (s.cmds.filter (fun c => c.stream && c.uid == uid)).foldl (fun (b : BitVec 48) (c : Cmd) =>
    match c.drain with
    | some (w, _, _) => if c.state.all (fun e => e.2.2) then b else b ||| (1#48 <<< bitsOf w.toNat 24 6)
    | none => b) 0#48

/-- No instruction of the hart produces a vector register any more, beside the stream drains named: every other progress
index is VLMAX (R32). -/
def Hart.restPi (h : Hart) (streams : BitVec 48) : Vector Nat 48 :=
  (List.range 48).foldl (fun (v : Vector Nat 48) (r : Nat) => if streams.getLsbD r then v else v.setIfInBounds r h.vlMax) h.vPi

/-- The CSRs after trap entry (R365). -/
def Csrs.entered (c : Csrs) (v : FaultVals) : Csrs :=
  let c1 := { c with hm := true, cause := causeWord v, epc := wrapPc v.epc &&& ~~~3#64, elemStart := BitVec.ofNat 64 v.elem }
  if v.given then { c1 with faultVa := v.va, faultStride := v.stride, faultRemain := v.remain } else c1

/-- The grace of an expired watchdog has run out (R377). -/
def Hart.graceDue (h : Hart) : Bool :=
  h.isResident && !h.dbgHalted && h.expired && h.csr.wdLimit != 0#64
    && decide (h.csr.wdLimit.toNat + 65536 ≤ h.csr.runCount.toNat)

/-- Trap entry: STATUS.HM, CAUSE, EPC and ELEMSTART, the fault registers, then PC := TVEC (R365); an open furlong commits
before it, and while that commit waits the cause stands over (R239). The instruction stopped produces nothing any more: how
far it has come is its ELEMSTART (R32, R366). It is not taken while HM = 1 or TVEC = 0, nor once the watchdog's grace has run out: the hart then ends
(R367, R377). -/
def State.trapEntry (s : State) (v : FaultVals) : State :=
  if s.hart.csr.hm || s.hart.csr.tvec == 0#64 || s.hart.graceDue then s.endHart v
  else
    match s.closing with
    | .error t => t.pend v
    | .ok t =>
      { t with hart := { t.hart.atStart with csr := t.hart.csr.entered v, pc := t.hart.csr.tvec,
                                             vPi := t.hart.restPi (t.streamRegs t.hart.uid), posWritten := false,
                                             region := none, wait := .none, atBarrier := false } }

/-- A cause raised by the oldest instruction: a page fault goes to the die's pager first and writes no CSR (R373);
every other cause is taken (R364). -/
def State.raise (s : State) (v : FaultVals) : State :=
  if v.cause == 5#8 || v.cause == 6#8 || v.cause == 7#8 then
    { s with hart := { s.hart with wait := .pager v, startElem := v.elem } }
  else s.trapEntry v

/-- Returning from a handler (R369): HM := 0 and the hart resumes at (EPC, ELEMSTART); records survive only when the
handler has written neither. -/
def State.trapReturn (s : State) : State :=
  let c := s.hart.csr
  { s with hart := { s.hart with csr := { c with hm := false }, pc := c.epc, startElem := c.elemStart.toNat,
                                 elemFrom := c.elemStart.toNat,
                                 records := if s.hart.posWritten then [] else s.hart.records.filter (fun r => !r.handler),
                                 posWritten := false } }

/-- The records that a vector instruction at the PC takes up (R39): outside a handler those of the program, in one those
that a pre-emption of the handler left (R368). -/
def Hart.recordsHere (h : Hart) : List ProgressRec := h.records.filter (fun r => r.pc == h.pc && r.handler == h.csr.hm)

/-- An instruction that is placed again restarts at the progress index of the registers it was producing, and their records
are cleared (R39). The instruction at EPC starts at its ELEMSTART, which is what its own record holds. -/
def Hart.takeRecords (h : Hart) : Hart :=
  match h.recordsHere with
  | [] => h
  | r :: l =>
    let from' := if h.startElem = 0 then (l.map (·.pi)).foldl min r.pi else h.startElem
    { h with startElem := from', elemFrom := if h.startElem = 0 then from' else h.elemFrom,
             records := h.records.filter (fun q => !(q.pc == h.pc && q.handler == h.csr.hm)) }

/-! ## What an instruction may do -/

/-- Why an instruction does not complete in this step. -/
inductive Stop where
  /-- it raises a cause, with what has already performed in the state -/
  | trap (s : State) (v : FaultVals)
  /-- it is not ready; it is tried again from the state given -/
  | stall (s : State)
  /-- it has met a pending outcome, which has been taken -/
  | taken (s : State)
  /-- it consumes poison at an element; whether every poisoned granule was written since its furlong opened -/
  | poison (s : State) (elem : Nat) (own : Bool)
  deriving DecidableEq, Repr

/-- A meaning written in steps. -/
abbrev M := StateT State (Except Stop)

/-- The position of a hart: its PC, or the ALRB of its open region (R23, R219). -/
def Hart.position (h : Hart) : Word :=
  match h.region with
  | some r => r.alrb
  | none => h.pc

/-- Whether a word belongs to majors 0x30 to 0x3A. -/
def vectorMajor (w : BitVec 32) : Bool := decide (0x30 ≤ (w.extractLsb' 25 7).toNat) && decide ((w.extractLsb' 25 7).toNat ≤ 0x3A)

/-- The element index of a hart's position (R23): that of a vector instruction, 0 at any other. -/
def State.positionElem (s : State) (h : Hart) : Nat :=
  if h.startElem = 0 ∨ h.region.isSome then 0
  else match fetchWord ⟨h.uid, h.place.die, h.place.core, h.asid⟩ h.pc s with
    | .ok (w, _) => if vectorMajor w then h.startElem else 0
    | .error _ => 0

/-- The fault values of a cause at the position of the hart in focus. -/
def State.cause (s : State) (c : BitVec 8) (va stride remain : Word) : FaultVals :=
  { cause := c, vec := false, epc := s.hart.position, elem := 0, va := va, stride := stride, remain := remain, given := true }

/-- Raises a cause. -/
def M.trap {α : Type} (v : FaultVals) : M α := fun s => .error (.trap s v)

/-- Raises a cause at the PC with its three fault values. -/
def M.cause {α : Type} (c : BitVec 8) (va stride remain : Word) : M α := fun s =>
  .error (.trap s (s.cause c va stride remain))

/-- Raises a cause with CAUSE.VEC set, as instructions of majors 0x30 to 0x3A do (R365). -/
def M.vcause {α : Type} (c : BitVec 8) (va stride remain : Word) : M α := fun s =>
  .error (.trap s { s.cause c va stride remain with vec := true })

/-- Takes the recorded cause of a stopped walk or copy at its wait point: at TVEC, the pager having failed already
(R214, R313, R314). -/
def M.outcome {α : Type} (t : State) (v : FaultVals) : M α := fun _ => .error (.taken (t.trapEntry v))

/-- The instruction waits. -/
def M.stall {α : Type} : M α := fun s => .error (.stall s)

/-- The fork edge of an engine operation (R166): it issues once the hart's stores to other devices and to banks have
performed; every other earlier access of the hart has performed with its instruction. -/
def M.fork : M Unit := do
  let s ← get
  if s.unacked s.hart.uid then M.stall

/-- The illegal-instruction cause: FAULTVA is the word (R366). -/
def State.illegalVals (s : State) (w : BitVec 32) : FaultVals :=
  { cause := 1#8, vec := vectorMajor w, epc := s.hart.position, elem := 0, va := zext w, stride := 0, remain := 0, given := true }

/-- Raises the illegal-instruction cause for an instruction. -/
def M.illegal {α : Type} (i : Instr) : M α := fun s => .error (.trap s (s.illegalVals (wordOf i)))

/-- An access within an instruction; its stops become the instruction's, with the fault values of the cause. -/
def M.access {α : Type} (fv : State → BitVec 8 → FaultVals) (elem : Nat) (a : A α) : M α := fun s =>
  match a s with
  | .ok r => .ok r
  | .error (.fault c) => .error (.trap s (fv s c))
  | .error (.wait t) => .error (.stall t)
  | .error (.poison own) => .error (.poison s elem own)

/-- A scalar access: FAULTVA is the address, FAULTSTRIDE 0 and FAULTREMAIN 1 (R366). -/
def M.scalar {α : Type} (va : Word) (a : A α) : M α := M.access (fun s c => s.cause c va 0#64 1#64) 0 a

/-! ## Scrub and job end (R138, R355) -/

/-- Table entries that memory lists in a table, as indices. -/
def tableIdx (bytes : List Host.Cell) (base size : Nat) : List Nat :=
  ((bytes.filter (fun c => base ≤ c.1 && c.1 < base + size)).map (fun c => (c.1 - base) / 8)).eraseDups

/-- The leaf pages of a table: physical base, size and window, by levels left. -/
def leafPages (bytes : List Host.Cell) : Nat → Nat → Nat → List (Nat × Nat × Nat)
  | 0, _, _ => []
  | fuel + 1, level, base =>
    let size := match level with | 0 => 1048576 | 3 => 256 | _ => 4096
    (tableIdx bytes base size).flatMap (fun i =>
      let p : Word := BitVec.ofNat 64 (natOfBytes (Memory.read bytes (base + 8 * i) 8))
      if !pteV p then []
      else if pteLeaf p then [(pteAddr p, 2 ^ (levelIndex 0 level).2, pteWin p)]
      else leafPages bytes fuel (level + 1) (pteAddr p))

/-- Clears poison of a range of bytes. -/
def State.clearPoison (s : State) (lo hi : Nat) : State :=
  { s with mm := { s.mm with poison := s.mm.poison.filter (fun g => g * 32 < lo || hi ≤ g * 32) } }

/-- The blocks of a range are plaintext again. -/
def State.clearKeys (s : State) (lo hi : Nat) : State :=
  { s with mm := { s.mm with keys := s.mm.keys.filter (fun k => k.1 * 16 < lo || hi ≤ k.1 * 16) } }

/-- Scrubs a range to zero with whole-granule writes (R138, R385). -/
def State.scrubRange (s : State) (lo hi : Nat) : State :=
  (({ s with mm := { s.mm with bytes := Memory.scrub s.mm.bytes lo hi } }).clearPoison lo hi).clearKeys lo hi

/-- The bytes of a range hold what no key can decrypt any more: free bytes (R137, R138). -/
def State.freeRange (s : State) (lo hi : Nat) : State :=
  let bs := (List.range (hi - lo)).map (fun i => Config.freeByte (s.tick * 2 ^ 64 + lo + i))
  ({ s with mm := { s.mm with bytes := Memory.write s.mm.bytes lo bs } }).clearKeys lo hi

/-- The bank of a bank-linear address belongs to a set of banks. -/
def inBanks (banks : BitVec 65536) (pa : Nat) : Bool := paRegion pa == 1 && banks.getLsbD (bitsOf pa 24 16)

/-- A hart of an ended job keeps nothing in its registers and tiles (R138, R299). -/
def Hart.scrubbed (h : Hart) : Hart :=
  { h with v := Hart.reset.v, m := Hart.reset.m, tiles := Hart.reset.tiles, nt := 0, vPsn := [], mPsn := [], tPsn := [], pins := [] }

/-- The tag regions of a job's reach ranges: first address and end (R122). -/
def State.tagRegions (s : State) (j : Job) : List (Nat × Nat) :=
  (List.range 4).filterMap (fun d =>
    let rn := j.rn[d]?.getD 0
    if rn = 0 then none
    else
      let lo := mkPa s.fe.devSelf.toNat d 0 ((j.rb[d]?.getD 0 + rn) * 128)
      some (lo, lo + 2 * rn))

/-- The scrub of an ended job (R138): its harts' registers and tiles, its bank engines and rows, then its pages, the tags of
its reach ranges, its RDC and its twins, without encryption to zero, with it by erasing its key. -/
def State.jobScrub (s : State) (j : Job) : State :=
  let pages : List (Nat × Nat × Nat) := match getKey j.asid s.fe.roots with
    | some root => (leafPages s.mm.bytes 4 0 root).filter (fun p => p.2.2 != 1 && paRegion p.1 == 0)
    | none => []
  let s1 := { s with mm := { s.mm with bytes := s.mm.bytes.filter (fun c => !inBanks j.banks c.1),
                                       poison := s.mm.poison.filter (fun g => !inBanks j.banks (g * 32)) },
                     banks := s.banks.filter (fun b => !j.banks.getLsbD b.1) }
  let ranges := pages.map (fun p => (p.1, p.1 + p.2.1)) ++ s.tagRegions j
  let s2 := ranges.foldl (fun (t : State) (p : Nat × Nat) => if j.enc then t.freeRange p.1 p.2 else t.scrubRange p.1 p.2) s1
  let s3 := { s2 with terak := { s2.terak with keySlots := s2.terak.keySlots.filter (fun k => !j.enc || k.1 != j.key) } }
  let mm := s3.mm
  let mm' := { mm with l1 := mm.l1.filter (fun c => c.asid != j.asid), icache := mm.icache.filter (fun c => c.asid != j.asid),
                       l2 := mm.l2.filter (fun c => c.asid != j.asid), tlb := mm.tlb.filter (fun c => c.asid != j.asid),
                       rdc := mm.rdc.filter (fun c => c.asid != j.asid), twins := mm.twins.filter (fun c => c.asid != j.asid),
                       twinPtr := mm.twinPtr.filter (fun c => c.2.1 != j.asid) }
  ({ s3 with mm := mm' }).onHarts (fun h => if h.asid = j.asid then h.scrubbed else h)

/-- The queues of an address space. -/
def State.queuesOf (s : State) (asid : Nat) : List Nat := (List.range s.fe.qcount).filter (fun q => s.qAsid q == asid)

/-- Ends a job (R355, R338): placement stops, its harts stop, its leagues dissolve, its engine operations are
discarded, its queues fail with the code, a job-end record is written when one is due, and the scrub follows. -/
def State.endJob (s : State) (asid code : Nat) (record : Option (Nat × Nat)) : State :=
  match s.jobOf asid with
  | none => s
  | some j =>
    let mine := s.harts.filter (fun h => h.asid == asid && h.isResident)
    let recs := mine.map (fun h => (⟨h.queue, asid, h.csr.hartId, h.position, s.positionElem h,
      if record.any (fun r => r.2 == h.uid) then 0xF#64 else 0#64⟩ : FailRecord))
    let s1 := s.dissolveLeagues asid
    -- lines checked out by the job are checked in before the scrub, those of the global half in its twin area too (R129)
    let s2 := s1.cleanL2 (fun e => e.out && (e.asid == asid
      || s1.mm.twins.any (fun t => t.line == e.pa && t.writer == e.die && t.asid == asid)))
    let s3 := s2.onHarts (fun h => if h.asid = asid ∧ h.phase ≠ .absent ∧ h.phase ≠ .retired then
      { h with phase := .ended, wait := .none, matQ := [], region := none, strip := [], furlong := none, replies := [] } else h)
    let s4 := { s3 with cmds := s3.cmds.filter (fun c => c.asid != asid), copies := s3.copies.filter (fun c => c.asid != asid),
                        walks := s3.walks.filter (fun w => w.asid != asid) }
    let s5 := (s4.queuesOf asid).foldl (fun t q =>
      t.putQcb q (qSet (qSet (t.qcb q) 8 39 32 code) 8 9 9 1)) s4
    let s6 := match record with
      | some (seq, _) => { s5 with fe := { s5.fe with jobEnds := ⟨asid, seq, recs⟩ :: s5.fe.jobEnds } }
      | none => s5
    let s7 := s6.jobScrub j
    let slots := (s7.queuesOf asid)
    let s8 := slots.foldl (fun t q => t.unmapQueue q) s7
    let s9 := { s8 with fe := { s8.fe with jobs := s8.fe.jobs.filter (fun k => k.asid != asid),
                                           fails := s8.fe.fails.filter (fun f => f.asid != asid),
                                           held := s8.fe.held.filter (fun e => !slots.contains e.1),
                                           mapWait := s8.fe.mapWait.filter (fun q => !slots.contains q),
                                           roots := s8.fe.roots.filter (fun r => r.1 != asid) } }
    s9.serveMapWait

end Sys2Proof.Machine
end

