-- ==== Sys2Proof/Machine/Retire.lean ====
section
/-!
DEFINITION. The error log, the error banks and their drain (R345 to R351), where an address lives (R120, R121), and the
limits at which parts are retired (R357, R359, R360).
-/

namespace Sys2Proof.Machine

open Sys2Proof

/-! ## Error log (R349) -/

/-- Appends an entry to a die's error log, a ring of 4096 entries (R349). -/
def State.logEntry (s : State) (die : Nat) (e : LogEntry) : State :=
  if hd : die < 4 then
    let seq := s.err.nextSeq[die]
    let mine := (s.err.log.filter (fun x => x.die == die))
    let keep := if mine.length ≥ 4096 then s.err.log.filter (fun x => !(x.die == die && x.seq + 4096 ≤ seq)) else s.err.log
    let time := Config.wallTime s.tick
    { s with err := { s.err with log := keep ++ [{ e with die := die, seq := seq, time := time }],
                                 nextSeq := s.err.nextSeq.set die (seq + 1) } }
  else s

/-- Sends an error message to the owner unless one is undelivered; with ERRMSG unset it is dropped and counted
(R351). -/
def State.errorMessage (s : State) (die : Nat) : State :=
  match s.fe.errMsg with
  | none => s.countErr die
  | some m =>
    if s.fe.errMsgOut then s
    else if s.terak.agent = .nobody then s.countErr die
    else { s with fe := { s.fe with outbox := s.fe.outbox ++ [⟨s.terak.agent, s.terak.epoch, m⟩], errMsgOut := true } }

/-! ## Error banks (R345 to R348) -/

/-- A bank id: die, unit kind, instance (R345). -/
def bankIdOf (die unit inst : Nat) : BitVec 32 := BitVec.ofNat 32 (die * 2 ^ 30 + unit * 2 ^ 24 + inst)

def idDie (b : BitVec 32) : Nat := bitsOf b.toNat 30 2
def idUnit (b : BitVec 32) : Nat := bitsOf b.toNat 24 6
def idInst (b : BitVec 32) : Nat := bitsOf b.toNat 0 24

/-- The physical core of a logical one: its spare, else the core that the fuses give it. Logical numbers go to the cores that
are no spares, in ascending order (R14; log entry 50). -/
def State.corePhys (s : State) (die n : Nat) : Nat :=
  let spares := s.terak.spareCores[die]?.getD []
  physOf s.err.coreMap die (((List.range 52).filter (fun c => !spares.contains c)).getD n n)

/-- The error bank of a core: banks are numbered by physical core (R345). -/
def State.coreBank (s : State) (p : Place) : BitVec 32 := bankIdOf p.die 1 (s.corePhys p.die p.core)

/-- The error bank of the pseudo-channel of a bank engine. -/
def State.channelBank (s : State) (bank : Nat) : BitVec 32 :=
  bankIdOf (bank / 16384) 5 (physOf s.err.chanMap (bank / 16384) (bank / 8 % 2048))

/-- An error bank; one that nothing has touched is at its reset value (R346). -/
def State.errBank (s : State) (id : BitVec 32) : ErrBank :=
  (s.err.banks.find? (fun b => b.id == id)).getD
    { id := id, v := false, uc := false, psn := false, ovf := 0, kind := 0, asid := 0, addr := 0, misc := 0, ce := 0,
      ue := 0, snap := 0, site := .nowhere }

/-- Stores an error bank. -/
def State.putErrBank (s : State) (b : ErrBank) : State :=
  { s with err := { s.err with banks := b :: s.err.banks.filter (fun c => c.id != b.id) } }

/-- Adds one, stopping at the top (R346). -/
def satInc (v : BitVec 16) : BitVec 16 := if v = 0xFFFF#16 then v else v + 1#16

/-- One event in a bank (R347): its counter, then the record. -/
def ErrBank.event (b : ErrBank) (uc psn : Bool) (kind : BitVec 8) (asid : Nat) (addr misc : Word)
    (site : ErrSite := .nowhere) : ErrBank :=
  let b1 := if uc then { b with ue := b.ue + 1#32 } else { b with ce := b.ce + 1#32 }
  let take := fun (c : ErrBank) => { c with v := true, uc := uc, psn := psn, kind := kind, asid := BitVec.ofNat 16 asid,
                                            addr := addr, misc := misc, snap := if uc then c.ue else c.ce, site := site }
  if !b.v then take b1
  else if uc && !b.uc then take { b1 with ovf := satInc b1.ovf }
  else { b1 with ovf := satInc b1.ovf }

/-- A detected error enters its bank. -/
def State.bankError (s : State) (id : BitVec 32) (uc psn : Bool) (kind : BitVec 8) (asid : Nat) (addr misc : Word)
    (site : ErrSite := .nowhere) : State :=
  s.putErrBank ((s.errBank id).event uc psn kind asid addr misc site)

/-- EBSTATUS (R346). -/
def ErrBank.status (b : ErrBank) : Word :=
  (if b.v then 1#64 <<< 63 else 0) ||| (if b.uc then 1#64 <<< 62 else 0) ||| (if b.psn then 1#64 <<< 61 else 0)
    ||| (zext b.ovf <<< 32) ||| (zext b.kind <<< 24) ||| (zext (b.asid.setWidth 8) <<< 16)

/-- EBCOUNT (R346). -/
def ErrBank.count (b : ErrBank) : Word := (zext b.ue <<< 32) ||| zext b.ce

/-- A record is taken by one read-and-clear and becomes a log entry (R348, R349). -/
def State.drainRecord (s : State) (id : BitVec 32) (act : Nat) : State :=
  let b := s.errBank id
  if !b.v then s
  else
    let e : LogEntry := { die := idDie id, seq := 0, time := 0, bank := id, asid := b.asid, act := BitVec.ofNat 16 act,
                          status := b.status, addr := b.addr, misc := b.misc, count := b.count, snap := b.snap }
    (s.logEntry (idDie id) e).putErrBank { b with v := false, ovf := 0 }

/-- A drained record of class 2 or 3 sends an error message; one that only brings in a spare or retires a part is class 4
and waits for the commit (R351). -/
def State.drainBank (s : State) (id : BitVec 32) (act : Nat) : State :=
  let b := s.errBank id
  let s1 := s.drainRecord id act
  if b.v && b.uc && (b.psn || (act != 4 && act != 5)) then s1.errorMessage (idDie id) else s1

/-! ## Where an address lives (R120, R121) -/

/-- The bank id and row of a physical address of this device; the job of an ASID gives BL. -/
def State.bankRow (s : State) (asid pa : Nat) : Nat × Nat :=
  if paRegion pa = 1 then (bitsOf pa 24 16, bitsOf pa 10 14)
  else
    let (c, b, row, _) := placeLine (s.blOf asid) (bitsOf pa 7 33)
    (paDie pa * 16384 + c * 8 + b, row)

/-- The column position of an address in its row: which 32 bytes. -/
def State.columnOf (s : State) (asid pa : Nat) : Nat :=
  if paRegion pa = 1 then bitsOf pa 5 5
  else
    let (_, _, _, sec) := placeLine (s.blOf asid) (bitsOf pa 7 33)
    sec * 4 + bitsOf pa 5 2

/-- The pages a job's tables map: physical base, size and window. -/
def State.jobPages (s : State) (asid : Nat) : List (Nat × Nat × Nat) :=
  match getKey asid s.fe.roots with
  | some root => leafPages s.mm.bytes 4 0 root
  | none => []

/-- Some interleaved line of a range of bytes satisfies `p` on its channel; 2039 consecutive lines meet every channel. -/
def anyChannel (pa size : Nat) (p : Nat → Bool) : Bool :=
  (List.range (min 2039 (size / 128))).any (fun i => p ((paOff pa / 128 + i) % 2039))

/-- The jobs with interleaved memory on channels of a die that satisfy `p`. -/
def State.jobsOn (s : State) (die : Nat) (p : Nat → Bool) : List Nat :=
  (s.fe.jobs.filter (fun j => (s.jobPages j.asid).any (fun g =>
    g.2.2 != 1 && paRegion g.1 == 0 && s.isLocal g.1 && paDie g.1 == die && anyChannel g.1 g.2.1 p))).map (·.asid)

/-! ## Banks and the processors that drain them (R345, R349) -/

/-- The front-end cores run: released by Terak (R332) and not held in reset (R362). -/
def State.frontEndsUp (s : State) : Bool := s.terak.released.2 && s.terak.fail == 0

/-- The front-end core of a die runs: it is not being restarted (R414). -/
def State.frontEndAt (s : State) (die : Nat) : Bool := s.frontEndsUp && !s.terak.restarting.contains (.frontEnd die)

/-- The lower-numbered die of a boundary (R345): D0–D1, D2–D3, D0–D2, D1–D3. -/
def lowerDie (boundary : Nat) : Nat := match boundary with | 0 => 0 | 1 => 2 | 2 => 0 | _ => 1

/-- The package has a bank of this id (R345). -/
def bankExists (id : BitVec 32) : Bool :=
  let n := idInst id
  match idUnit id with
  | 1 => decide (n < 52)
  | 2 => decide (n < 64)
  | 3 | 6 | 0xB => decide (n < 4)
  | 4 | 0xA => n == 0
  | 5 => decide (n < 2048)
  | 7 => decide (n < 32) && lowerDie (n / 8) == idDie id
  | 8 => decide (n < 8) && n / 2 == idDie id
  | 9 => n == 0 && idDie id == 0
  | _ => false

/-- The firmware processor that drains a bank, or none for Terak (R349). The banks of the processors themselves are
Terak's (log entry 60). -/
def drainer (id : BitVec 32) : Option Processor :=
  match idUnit id with
  | 5 => some (.stackManager (4 * idDie id + idInst id / 512))
  | 6 => some (.stackManager (4 * idDie id + idInst id))
  | 0xA | 0xB => none
  | _ => some (.frontEnd (idDie id))

/-- The stack managers run (R332, R362). -/
def State.managersUp (s : State) : Bool := s.terak.released.1

/-- The manager of a stack runs: it is not being restarted (R414). -/
def State.managerAt (s : State) (stack : Nat) : Bool := s.managersUp && !s.terak.restarting.contains (.stackManager stack)

/-- A processor runs: after class 5 all are held in reset, and Terak drains no bank (R333, R362). -/
def State.drainerUp (s : State) : Option Processor → Bool
  | some (.stackManager k) => s.managerAt k
  | some (.frontEnd d) => s.frontEndAt d
  | none => s.terak.fail == 0

/-- The spare that holds a part now, once a repair has taken effect. -/
def State.spareIn (s : State) (p : Part) : Option Nat :=
  let at' := fun (l : List (Nat × Nat × Nat)) (a b : Nat) => (l.find? (fun e => e.1 == a && e.2.1 == b)).map (·.2.2)
  match p with
  | .core d c => at' s.err.coreMap d c
  | .channel d c => at' s.err.chanMap d c
  | .row b row => at' s.err.rowMap b row
  | .column b c => at' s.err.columnMap b c
  | .bank b => if s.err.bankMap.contains b then some 8 else none
  | .cacheRow k row => at' s.err.rowMap (65536 + k) row
  | _ => none

/-- The banks that a channel copy moves (R386): a column's and a bank's own, or the eight of a channel. -/
def Part.banks : Part → List Nat
  | .column b _ => [b]
  | .bank b => [b]
  | .channel d c => (List.range 8).map (fun i => d * 16384 + c * 8 + i)
  | _ => []

/-! ## Retirement (R357, R360) -/

/-- A part has been retired, and no spare serves it yet; the spare that serves it can be retired in its turn. -/
def State.retired (s : State) (p : Part) : Bool :=
  match (s.err.repairs.filter (fun r => r.part == p)).getLast? with
  | none => false
  | some r => !(r.committed && r.spare.isSome && s.spareIn p == r.spare)

/-- Spares already given to parts of a kind. -/
def State.sparesUsed (s : State) (p : Part → Bool) : List Nat := (s.err.repairs.filter (fun r => p r.part)).filterMap (·.spare)

/-- The first spare of a list that no part of a kind has. -/
def State.spareFor (s : State) (l : List Nat) (p : Part → Bool) : Option Nat :=
  l.find? (fun n => !(s.sparesUsed p).contains n)

/-- Asks Terak for a repair (R359). -/
def State.askRepair (s : State) (p : Part) (spare : Option Nat) : State :=
  let die := match p with
    | .core d _ => d
    | .channel d _ => d
    | .row b _ => b / 16384
    | .column b _ => b / 16384
    | .bank b => b / 16384
    | .cacheRow k _ => k / 4
    | .stack k => k / 4
    | .module m => lowerDie m.boundary
    | .terak => 0
  let seq := s.err.nextSeq[die]?.getD 0
  { s with err := { s.err with repairs := s.err.repairs ++ [⟨p, spare, seq, false⟩] } }

/-- Jobs end for a loss that has one log entry (R355). -/
def State.endJobs (s : State) (seq : Nat) (asids : List Nat) : State :=
  asids.foldl (fun (t : State) (a : Nat) => t.endJob a 6 (some (seq, 0))) s

/-- A pseudo-channel is lost with no spare (R357): the jobs whose memory it held end, and its die's interleaved space is
barred to new jobs. -/
def State.loseChannel (s : State) (die c : Nat) : State :=
  let linear := (s.fe.jobs.filter (fun j => j.bl != 0 && (Part.banks (.channel die c)).any (fun b => j.banks.getLsbD b))).map (·.asid)
  let asids := ((s.jobsOn die (fun k => k == c)) ++ linear).eraseDups
  let t := s.endJobs (s.err.nextSeq[die]?.getD 0) asids
  let t1 := if asids = [] then t else t.errorMessage die
  { t1 with err := { t1.err with barred := if t1.err.barred.contains die then t1.err.barred else die :: t1.err.barred } }

/-- A pseudo-channel is retired. The action to log comes with it. -/
def State.retireChannel (s : State) (die c : Nat) : State × Nat :=
  let p := Part.channel die c
  if s.retired p then (s, 0)
  else
    let mine := fun (q : Part) => match q with
      | .channel d _ => d == die
      | _ => false
    match s.spareFor ((List.range 9).map (2039 + ·)) mine with
    | some n => (s.askRepair p (some n), 4)
    | none => ((s.askRepair p none).loseChannel die c, 5)

/-- A bank is retired to the repair bank of its channel, or its channel is retired. -/
def State.retireBank (s : State) (b : Nat) : State × Nat :=
  if s.retired (.bank b) then (s, 0)
  else
    let mate := fun (q : Part) => match q with
      | .bank x => x / 8 == b / 8
      | _ => false
    match s.spareFor [8] mate with
    | some n => (s.askRepair (.bank b) (some n), 4)
    | none => s.retireChannel (b / 16384) (b / 8 % 2048)

/-- How often a bank has been moved, to the repair bank of its channel or with its channel to a spare: each time it has fresh
spares, numbered on from those before. -/
def State.movesOf (s : State) (b : Nat) : Nat :=
  (s.err.repairs.filter (fun r => r.spare.isSome && (r.part == .bank b || r.part == .channel (b / 16384) (b / 8 % 2048)))).length

/-- A row is retired to a spare row of its bank; the eighth of a bank since it last moved retires the bank. -/
def State.retireRow (s : State) (b row : Nat) : State × Nat :=
  if s.retired (.row b row) then (s, 0)
  else
    let mate := fun (q : Part) => match q with
      | .row x _ => x == b
      | _ => false
    let first := 64 * s.movesOf b
    match s.spareFor ((List.range 64).map (first + ·)) mate with
    | some n =>
      let t := s.askRepair (.row b row) (some n)
      if (t.err.repairs.filter (fun r => mate r.part && r.spare.any (fun k => first ≤ k))).length ≥ 8 then
        let u := t.retireBank b
        (u.1, max 4 u.2)
      else (t, 4)
    | none => s.retireBank b

/-- A column position is retired to a spare column of its bank, or the bank is retired. -/
def State.retireColumn (s : State) (b c : Nat) : State × Nat :=
  if s.retired (.column b c) then (s, 0)
  else
    let mate := fun (q : Part) => match q with
      | .column x _ => x == b
      | _ => false
    match s.spareFor ((List.range 4).map (4 * s.movesOf b + ·)) mate with
    | some n => (s.askRepair (.column b c) (some n), 4)
    | none => s.retireBank b

/-- A core is retired: with no spare left its logical number is absent from placement. -/
def State.retireCore (s : State) (die c : Nat) : State × Nat :=
  if s.retired (.core die c) then (s, 0)
  else
    let mine := fun (q : Part) => match q with
      | .core d _ => d == die
      | _ => false
    match s.spareFor (s.terak.spareCores[die]?.getD []) mine with
    | some n => (s.askRepair (.core die c) (some n), 4)
    | none => (s.askRepair (.core die c) none, 5)

/-- Retires the parts of a bank that have reached their limits (R357); 0 when there is none, else the action. -/
def State.checkLimits (s : State) (id : BitVec 32) : State × Nat :=
  let due := s.err.counts.filter (fun e => e.1 == id && (match e.2.1 with
    | .row _ _ => decide (16 ≤ e.2.2.1) || decide (1 ≤ e.2.2.2)
    | .column _ _ => decide (64 ≤ e.2.2.1)
    | .channel _ _ => decide (1024 ≤ e.2.2.1) || decide (1 ≤ e.2.2.2)
    | .core _ _ => decide (2 ≤ e.2.2.1) || decide (1 ≤ e.2.2.2)
    | _ => false))
  let t := { s with err := { s.err with counts := s.err.counts.filter (fun e => !due.contains e) } }
  due.foldl (fun (a : State × Nat) (e : BitVec 32 × Part × Nat × Nat) =>
    let r := match e.2.1 with
      | .row b row => a.1.retireRow b row
      | .column b c => a.1.retireColumn b c
      | .channel d c => a.1.retireChannel d c
      | .core d c => a.1.retireCore d c
      | _ => (a.1, 0)
    (r.1, max a.2 r.2)) (t, 0)

/-! ## Draining (R349 to R351, R357) -/

/-- The action a drained record is logged with (R349): the retirement it led to, else the poison it created. What a
consumption of poison does is logged when it happens. -/
def drainAct (retired : Nat) (psn : Bool) : Nat := if retired ≠ 0 then retired else if psn then 1 else 0

/-- A record is taken: the parts of its bank that have reached their limits are retired, and it is logged with the action given,
else with what that led to (R349, R357). -/
def State.takeRecord (s : State) (id : BitVec 32) (act : Option Nat) : State :=
  let (t, r) := s.checkLimits id
  t.drainBank id (act.getD (drainAct r (s.errBank id).psn))

/-- A bank among others: uncorrected records first, then by bank id (R350). -/
def insertBank (b : ErrBank) : List ErrBank → List ErrBank
  | [] => [b]
  | c :: l => if (b.uc && !c.uc) || (b.uc == c.uc && decide (b.id.toNat < c.id.toNat)) then b :: c :: l else c :: insertBank b l

/-- The records that wait for a processor, in the order in which it takes them (R350). The spec orders the banks that raise
their requests in one cycle; the model takes every bank that waits in that order (log entry 80). -/
def State.drainOrder (s : State) (p : Option Processor) : List ErrBank :=
  (s.err.banks.filter (fun b => b.v && drainer b.id == p)).foldl (fun (l : List ErrBank) (b : ErrBank) => insertBank b l) []

/-- A record is the next that its processor takes, and the processor runs. -/
def State.mayDrain (s : State) (b : ErrBank) : Bool :=
  b.v && s.drainerUp (drainer b.id) && ((s.drainOrder (drainer b.id)).head?.map (·.id)) == some b.id

/-- The record that a bank holds is drained before another event is logged from it, after those of its processor that come
first (R349, R350). -/
def State.flushBank (s : State) (id : BitVec 32) : State :=
  if !(s.errBank id).v || !s.drainerUp (drainer id) then s
  else
    let before := ((s.drainOrder (drainer id)).map (·.id)).takeWhile (fun k => k != id)
    (before ++ [id]).foldl (fun (t : State) (k : BitVec 32) => t.takeRecord k none) s

/-- A class 2 or 3 event of a front end: it enters its bank and is drained at once with its action (R347, R349, R351). -/
def State.logEvent (s : State) (asid act : Nat) (id : BitVec 32) (kind : BitVec 8) (addr misc : Word) : State :=
  ((s.flushBank id).bankError id true false kind asid addr misc).takeRecord id (some act)

/-- A class 4 loss of a part that keeps its own record: it enters its bank and is drained with its action, after what the
bank held; its message waits for the commit (R351). -/
def State.logLoss (s : State) (id : BitVec 32) (kind : BitVec 8) (addr misc : Word) (act : Nat) : State :=
  ((s.flushBank id).bankError id true false kind 0 addr misc).drainRecord id act

/-- A loss is fatal to jobs: it is logged as class 3 against each, with ACT 3, and each ends (R355, R380). -/
def State.jobFatal (s : State) (id : BitVec 32) (kind : BitVec 8) (addr misc : Word) (asids : List Nat) : State :=
  asids.foldl (fun (t : State) (a : Nat) =>
    let u := t.logEvent a 3 id kind addr misc
    u.endJob a 6 (some ((u.err.nextSeq[idDie id]?.getD 0) - 1, 0))) s

end Sys2Proof.Machine
end

