-- ==== Sys2Proof/Machine/Run.lean ====
section
/-!
DEFINITION. Running a meaning: the consumption of poison (R354), rewinds (R240, R395), what a meaning answers, and the CSRs
(R170 to R174, R228).
-/

namespace Sys2Proof.Machine

open Sys2Proof

/-! ## Poison (R354) and rewinds (R240, R395) -/

/-- The hart in whose own storage an error stands. -/
def ErrSite.ofHart : ErrSite → Option Nat
  | .vreg uid _ _ | .mreg uid _ _ | .tile uid _ _ | .strip uid _ _ | .checked uid _ _ | .outerProduct uid _ _ _ _
  | .checkedPass uid _ => some uid
  | _ => none

/-- The consumption of poison is logged once (R395): as the record of the poison's creation, if the core's bank still holds it.
A rewind adds no entry when that record has been drained (log entry 81); a job that ends has an entry of its own. -/
def State.logPoison (s : State) (h : Hart) (act : Nat) : State :=
  let id := s.coreBank h.place
  let b := s.errBank id
  if b.v && b.uc && b.psn && ErrSite.ofHart b.site == some h.uid then s.takeRecord id (some act)
  else if act = 2 then s else s.logEvent h.asid act id 2#8 0#64 0#64

/-- A rewind restores the snapshot and resumes at the VSETL that opened the furlong (R240, R395). -/
def State.rewind (s : State) : State :=
  match s.hart.furlong with
  | none => s
  | some f =>
    let h := s.hart
    let x := (List.range 32).foldl (fun (g : Hart) (i : Nat) =>
      if 1 ≤ i && f.snapMask.getLsbD i then g.setX (BitVec.ofNat 5 i) (f.snapX[i]?.getD 0) else g) h
    { s with hart := { x.atStart with md := f.snapMd, ix := f.snapIx, strip := [], pc := f.start,
                                      furlong := some { f with again := true } } }

/-- Class 3: the job ends, with this hart's cause 0x0F in its job-end record (R354, R355). -/
def State.poisonEndsJob (s : State) (h : Hart) : State :=
  let t := s.logPoison h 3
  t.endJob h.asid 6 (some ((t.err.nextSeq[h.place.die]?.getD 0) - 1, h.uid))

/-- The hart in focus consumes poison (R354): a furlong that wrote every poisoned granule it read is rewound, once;
anywhere else the job ends. -/
def State.consumePoison (s : State) (own : Bool) : State :=
  let h := s.hart
  match h.furlong with
  | some f =>
    if own && !f.rewound && !f.again then
      (s.logPoison h 2).rewind
    else s.poisonEndsJob h
  | none => s.poisonEndsJob h

/-! ## Running a meaning -/

/-- The replies that an instruction has used are gone once it completes. -/
def State.clearReplies (s : State) : State :=
  if s.hart.replies = [] then s else { s with hart := { s.hart with replies := [] } }

/-- What a meaning answers. -/
abbrev Res := Host.Outcome State Fault Refusal

/-- The next state of a meaning written in steps. -/
def settle (m : M Unit) (s : State) : Host.Outcome State Fault Refusal :=
  match m s with
  | .ok (_, t) => .next t.clearReplies
  | .error (.trap t v) => .next (t.clearReplies.raise v)
  | .error (.stall t) => .next t.hold
  | .error (.taken t) => .next t
  | .error (.poison t e own) => .next ({ t with hart := { t.hart with startElem := e } }.consumePoison own)

/-- Moves past the instruction. -/
def M.advance : M Unit := modify State.advance

/-- Writes an x register and moves past the instruction. -/
def M.result (d : BitVec 5) (v : Word) : M Unit := modify (fun s => s.result d v)

/-! ## CSRs (R170 to R174, R228) -/

/-- STATUS as software reads it (R172). -/
def State.statusWord (s : State) : Word :=
  let c := s.hart.csr
  (if s.chk then 0x80#64 else 0) ||| (if s.frw then 0x40#64 else 0)
    ||| (if s.jobGet s.hart.asid (·.enc) false then 0x20#64 else 0) ||| (if c.sove then 2#64 else 0)
    ||| (if c.hm then 1#64 else 0)

/-- LEAGUE as software reads it (R44). -/
def Hart.leagueWord (h : Hart) : Word :=
  match h.league with
  | some id => (1#64 <<< 63) ||| BitVec.ofNat 64 (id % 4096)
  | none => 0#64

/-- PLANEMAPn: buckets 8n to 8n + 7, one byte each (R149). -/
def State.planeMapWord (s : State) (n : Nat) : Word :=
  BitVec.ofNat 64 ((List.range 8).map (fun i => (s.fab.shownMap[8 * n + i]?.getD 0#3).toNat * 256 ^ i)).sum

/-- The access classes of R170. -/
inductive CsrClass where
  | r
  | rw
  | h
  deriving DecidableEq, Repr

/-- The class of an assigned CSR number (R171). -/
def csrClass (n : BitVec 12) : Option CsrClass :=
  let k := n.toNat
  if k = 0 ∨ (7 ≤ k ∧ k ≤ 0xC) then some .rw
  else if 1 ≤ k ∧ k ≤ 6 then some .h
  else if (0x10 ≤ k ∧ k ≤ 0x12) ∨ (0x20 ≤ k ∧ k ≤ 0x26) ∨ (0x30 ≤ k ∧ k ≤ 0x37) then some .r
  else none

/-- Cycles of a core since it left reset (R171), as far as steps have counted them (log entry 2). -/
def State.cyclesOf (s : State) (p : Place) : Nat :=
  ((s.cycles.find? (fun e => e.1 == p.die && e.2.1 == p.core)).map (·.2.2)).getD 0

/-- The value of a CSR; an unassigned number reads zero here and is refused before (R171). -/
def State.readCsr (s : State) (n : BitVec 12) : Word :=
  let c := s.hart.csr
  match n.toNat with
  | 0 => s.statusWord | 1 => c.cause | 2 => c.epc | 3 => c.elemStart | 4 => c.faultVa | 5 => c.faultStride
  | 6 => c.faultRemain | 7 => c.tvec | 8 => c.scratch | 9 => c.flags | 0xA => c.slip | 0xB => c.walkSpill
  | 0xC => c.walkMax
  | 0x10 => BitVec.ofNat 64 (s.cyclesOf s.hart.place)
  | 0x11 => c.runCount | 0x12 => c.wdLimit | 0x20 => c.hartId | 0x21 => s.hart.leagueWord
  | 0x22 => BitVec.ofNat 64 s.hart.vlMax | 0x23 => BitVec.ofNat 64 s.hart.nregs | 0x24 => BitVec.ofNat 64 s.hart.asid
  | 0x25 => s.jobGet s.hart.asid (·.spBase) 0#64 | 0x26 => BitVec.ofNat 64 s.hart.vl
  | k => if 0x30 ≤ k ∧ k ≤ 0x37 then s.planeMapWord (k - 0x30) else 0#64

/-- SLIP clamped: 0 gives 1, above 256 gives 256 (R25). -/
def clampSlip (v : Word) : Word := if v = 0#64 then 1#64 else if v.toNat > 256 then 256#64 else v

/-- A permitted write of a CSR: only the held bits are kept (R171, R172, R228). -/
def Csrs.write (c : Csrs) (n : BitVec 12) (v : Word) : Csrs :=
  match n.toNat with
  | 0 => { c with sove := v.getLsbD 1 }
  | 1 => { c with cause := v &&& 0x1FF#64 }
  | 2 => { c with epc := wrapPc v &&& ~~~3#64 }
  | 3 => { c with elemStart := v }
  | 4 => { c with faultVa := v }
  | 5 => { c with faultStride := v }
  | 6 => { c with faultRemain := v }
  | 7 => { c with tvec := wrapPc v &&& ~~~3#64 }
  | 8 => { c with scratch := v }
  | 9 => { c with flags := v &&& 0x3F#64 }
  | 0xA => { c with slip := clampSlip v }
  | 0xB => { c with walkSpill := v &&& ~~~7#64 }
  | 0xC => { c with walkMax := v }
  | _ => c

/-- Writes a CSR of the hart in focus; a write of EPC or ELEMSTART is remembered for ERET (R369). -/
def State.writeCsr (s : State) (n : BitVec 12) (v : Word) : State :=
  { s with hart := { s.hart with csr := s.hart.csr.write n v,
                                 posWritten := s.hart.posWritten || n == 2#12 || n == 3#12 } }

/-- A CSR instruction (R228): `new` gives the value to write from the old one, or none for a read. FLAGS waits for the
hart's matrix queue (R174, R304). -/
def csrAccess (i : Instr) (d : BitVec 5) (n : BitVec 12) (new : Option (Word → Word)) : M Unit := do
  let s ← get
  match csrClass n with
  | none => M.illegal i
  | some cls =>
    if new.isSome && (cls == .r || (cls == .h && !s.hart.csr.hm)) then M.cause 3#8 (zext n) 0#64 0#64
    else if n == 9#12 && s.hart.matQ != [] then M.stall
    else
      let old := s.readCsr n
      let s1 := match new with
        | some f => s.writeCsr n (f old)
        | none => s
      set (s1.result d old)

end Sys2Proof.Machine
end

