-- ==== Sys2Proof/Machine/Integer.lean ====
section
/-!
DEFINITION. Scalar integer instructions (R202, R204 to R206). None sets FLAGS and none traps on its values.
-/

namespace Sys2Proof.Machine

open Sys2Proof

/-! ## Operations on 64-bit values (R204) -/

def shiftCount (b : Word) : Nat := bitsOf b.toNat 0 6
def leadingZeros (a : Word) : Word := if a = 0#64 then 64#64 else BitVec.ofNat 64 (63 - a.toNat.log2)
def trailingZeros (a : Word) : Word := BitVec.ofNat 64 ((lowBit 64 a.toNat).getD 64)
def countOnes (a : Word) : Word := BitVec.ofNat 64 (popCount 64 a.toNat)
def mulHigh (a b : Word) : Word := BitVec.ofInt 64 (a.toInt * b.toInt / 2 ^ 64)
def mulHighU (a b : Word) : Word := BitVec.ofNat 64 (a.toNat * b.toNat / 2 ^ 64)
/-- Division as R79 states it, SAT taken as 0: by zero the quotient is all ones and the remainder the dividend. -/
def quotS (a b : Word) : Word := if b = 0#64 then ~~~0#64 else a.sdiv b
def quotU (a b : Word) : Word := if b = 0#64 then ~~~0#64 else a / b
def remS (a b : Word) : Word := if b = 0#64 then a else a.srem b
def remU (a b : Word) : Word := if b = 0#64 then a else a % b

/-! ## Register forms -/

/-- ADD (R204). -/
def execAdd (d a b : BitVec 5) (s : State) : Res := .next (s.result d (s.getX a + s.getX b))
/-- SUB (R204). -/
def execSub (d a b : BitVec 5) (s : State) : Res := .next (s.result d (s.getX a - s.getX b))
/-- AND (R204). -/
def execAnd (d a b : BitVec 5) (s : State) : Res := .next (s.result d (s.getX a &&& s.getX b))
/-- OR (R204). -/
def execOr (d a b : BitVec 5) (s : State) : Res := .next (s.result d (s.getX a ||| s.getX b))
/-- XOR (R204). -/
def execXor (d a b : BitVec 5) (s : State) : Res := .next (s.result d (s.getX a ^^^ s.getX b))
/-- SLL (R204). -/
def execSll (d a b : BitVec 5) (s : State) : Res := .next (s.result d (s.getX a <<< shiftCount (s.getX b)))
/-- SRL (R204). -/
def execSrl (d a b : BitVec 5) (s : State) : Res := .next (s.result d (s.getX a >>> shiftCount (s.getX b)))
/-- SRA (R204). -/
def execSra (d a b : BitVec 5) (s : State) : Res := .next (s.result d (BitVec.sshiftRight (s.getX a) (shiftCount (s.getX b))))
/-- SLT (R204). -/
def execSlt (d a b : BitVec 5) (s : State) : Res := .next (s.result d (boolWord (BitVec.slt (s.getX a) (s.getX b))))
/-- SLTU (R204). -/
def execSltu (d a b : BitVec 5) (s : State) : Res := .next (s.result d (boolWord (BitVec.ult (s.getX a) (s.getX b))))
/-- MIN (R204). -/
def execMin (d a b : BitVec 5) (s : State) : Res := .next (s.result d (if BitVec.slt (s.getX b) (s.getX a) then s.getX b else s.getX a))
/-- MAX (R204). -/
def execMax (d a b : BitVec 5) (s : State) : Res := .next (s.result d (if BitVec.slt (s.getX a) (s.getX b) then s.getX b else s.getX a))
/-- MINU (R204). -/
def execMinu (d a b : BitVec 5) (s : State) : Res := .next (s.result d (if BitVec.ult (s.getX b) (s.getX a) then s.getX b else s.getX a))
/-- MAXU (R204). -/
def execMaxu (d a b : BitVec 5) (s : State) : Res := .next (s.result d (if BitVec.ult (s.getX a) (s.getX b) then s.getX b else s.getX a))
/-- MUL (R204). -/
def execMul (d a b : BitVec 5) (s : State) : Res := .next (s.result d (s.getX a * s.getX b))
/-- MULH (R204). -/
def execMulh (d a b : BitVec 5) (s : State) : Res := .next (s.result d (mulHigh (s.getX a) (s.getX b)))
/-- MULHU (R204). -/
def execMulhu (d a b : BitVec 5) (s : State) : Res := .next (s.result d (mulHighU (s.getX a) (s.getX b)))
/-- DIV (R204). -/
def execDiv (d a b : BitVec 5) (s : State) : Res := .next (s.result d (quotS (s.getX a) (s.getX b)))
/-- DIVU (R204). -/
def execDivu (d a b : BitVec 5) (s : State) : Res := .next (s.result d (quotU (s.getX a) (s.getX b)))
/-- REM (R204). -/
def execRem (d a b : BitVec 5) (s : State) : Res := .next (s.result d (remS (s.getX a) (s.getX b)))
/-- REMU (R204). -/
def execRemu (d a b : BitVec 5) (s : State) : Res := .next (s.result d (remU (s.getX a) (s.getX b)))
/-- CLZ (R204). -/
def execClz (d a : BitVec 5) (s : State) : Res := .next (s.result d (leadingZeros (s.getX a)))
/-- CTZ (R204). -/
def execCtz (d a : BitVec 5) (s : State) : Res := .next (s.result d (trailingZeros (s.getX a)))
/-- POPC (R204). -/
def execPopc (d a : BitVec 5) (s : State) : Res := .next (s.result d (countOnes (s.getX a)))

/-! ## Immediate forms (R205, R206) -/

/-- ADDI (R205). -/
def execAddi (d a : BitVec 5) (i : BitVec 15) (s : State) : Res := .next (s.result d (s.getX a + sext i))
/-- ANDI (R205). -/
def execAndi (d a : BitVec 5) (i : BitVec 15) (s : State) : Res := .next (s.result d (s.getX a &&& sext i))
/-- ORI (R205). -/
def execOri (d a : BitVec 5) (i : BitVec 15) (s : State) : Res := .next (s.result d (s.getX a ||| sext i))
/-- XORI (R205). -/
def execXori (d a : BitVec 5) (i : BitVec 15) (s : State) : Res := .next (s.result d (s.getX a ^^^ sext i))
/-- SLTI (R205). -/
def execSlti (d a : BitVec 5) (i : BitVec 15) (s : State) : Res := .next (s.result d (boolWord (BitVec.slt (s.getX a) (sext i))))
/-- SLTIU (R205). -/
def execSltiu (d a : BitVec 5) (i : BitVec 15) (s : State) : Res := .next (s.result d (boolWord (BitVec.ult (s.getX a) (sext i))))
/-- SLLI (R205). -/
def execSlli (d a : BitVec 5) (h : BitVec 6) (s : State) : Res := .next (s.result d (s.getX a <<< h.toNat))
/-- SRLI (R205). -/
def execSrli (d a : BitVec 5) (h : BitVec 6) (s : State) : Res := .next (s.result d (s.getX a >>> h.toNat))
/-- SRAI (R205). -/
def execSrai (d a : BitVec 5) (h : BitVec 6) (s : State) : Res := .next (s.result d (BitVec.sshiftRight (s.getX a) h.toNat))

/-- `imm20 << 12`, sign-extended from bit 31 (R206). -/
def upperImm (i : BitVec 20) : Word := sext (i ++ 0#12)

/-- LUI (R206). -/
def execLui (d : BitVec 5) (i : BitVec 20) (s : State) : Res := .next (s.result d (upperImm i))
/-- AUIPC (R206): the address of the AUIPC itself is added. -/
def execAuipc (d : BitVec 5) (i : BitVec 20) (s : State) : Res := .next (s.result d (s.hart.pc + upperImm i))

end Sys2Proof.Machine
end

