-- ==== Sys2Proof/Machine/LoadStore.lean ====
section
/-!
DEFINITION. Scalar loads and stores (R209) and their acquire and release forms (R210), with the wait points of walks
that acquires and fences are (R161, R214).
-/

namespace Sys2Proof.Machine

open Sys2Proof

/-! ## Wait points of walks (R161, R214) -/

/-- The walks of the hart in focus whose store an operation at a scope must follow; with no scope, all (R161). -/
def State.walksAhead (s : State) (scope : Option (BitVec 2)) : List Walk :=
  s.walks.filter (fun w => w.uid == s.hart.uid && (match scope with
    | some c => decide (w.scope.toNat ≤ c.toNat)
    | none => true))

/-- A walk stopped at poison (R354). -/
def Walk.poisoned (w : Walk) : Bool :=
  match w.state with
  | .stopped c _ _ _ => c == 0xF#8
  | _ => false

/-- The walk whose outcome a wait point takes first: one that met poison before every other, then the one issued first
(R214, R354). -/
def State.walkAhead (s : State) (scope : Option (BitVec 2)) : Option Walk :=
  let l := s.walksAhead scope
  (l.find? Walk.poisoned).or l.head?

/-- Forgets a walk. -/
def State.dropWalk (s : State) (id : Nat) : State := { s with walks := s.walks.filter (fun w => w.id != id) }

/-- The instruction is a wait point: it waits for walks that have not ended, and takes the outcome of one that stopped,
the earliest issued first (R214, R372). -/
def M.waitWalks (scope : Option (BitVec 2)) : M Unit := fun s =>
  match s.walkAhead scope with
  | none => .ok ((), s)
  | some w =>
    match w.state with
    | .stopped c va count depth =>
      let t := s.dropWalk w.id
      if c = 0xF#8 then .error (.poison t 0 false)
      else if c = 0xB#8 then M.outcome t (s.cause c va (BitVec.ofNat 64 count) (BitVec.ofNat 64 depth)) s
      else M.outcome t (s.cause c va 0#64 1#64) s
    | _ => .error (.stall s)

/-! ## Release and acquire by an instruction (R145) -/

/-- Actions at package scope or wider may use any plane: they wait while one is being quiesced (R411). -/
def M.needPlanes (scope : BitVec 2) : M Unit := fun s =>
  if scope.toNat ≤ 1 || s.planesMove then .ok ((), s) else .error (.stall s)

/-- Performs the release actions of a scope; from die scope on, posted writes to other devices must have been
acknowledged first (log entry 10). -/
def M.release (scope : BitVec 2) : M Unit := do
  M.needPlanes scope
  modify (·.releaseMine scope)
  let s ← get
  if scope ≠ 0#2 ∧ s.unacked s.hart.uid then M.stall

/-- Performs the acquire actions of a scope. -/
def M.acquire (scope : BitVec 2) : M Unit := modify (·.acquireMine scope)

/-- A window in which the actions of R145 have no meaning, or that a reference or atomic may not name (R210, R217). -/
def Window.isPlainOnly : Window → Bool
  | .scratch => true
  | .bankLinear _ => true
  | _ => false

/-! ## Loads (R209, R210) -/

/-- A scalar load of `size` bytes, sign- or zero-extended. -/
def scalarLoad (d a : BitVec 5) (r : BitVec 2) (i : BitVec 13) (size : Nat) (signed : Bool) : M Unit := do
  let s ← get
  let va := s.getX a + sext i
  let (v, _) ← M.scalar va (loadAt s.who va size r.toNat)
  M.result d (if signed then BitVec.ofInt 64 (toSigned (8 * size) v) else BitVec.ofNat 64 v)

/-- LB (R209). -/
def execLb (d a : BitVec 5) (r : BitVec 2) (i : BitVec 13) (s : State) : Res := settle (scalarLoad d a r i 1 true) s
/-- LH (R209). -/
def execLh (d a : BitVec 5) (r : BitVec 2) (i : BitVec 13) (s : State) : Res := settle (scalarLoad d a r i 2 true) s
/-- LW (R209). -/
def execLw (d a : BitVec 5) (r : BitVec 2) (i : BitVec 13) (s : State) : Res := settle (scalarLoad d a r i 4 true) s
/-- LD (R209). -/
def execLd (d a : BitVec 5) (r : BitVec 2) (i : BitVec 13) (s : State) : Res := settle (scalarLoad d a r i 8 false) s
/-- LBU (R209). -/
def execLbu (d a : BitVec 5) (r : BitVec 2) (i : BitVec 13) (s : State) : Res := settle (scalarLoad d a r i 1 false) s
/-- LHU (R209). -/
def execLhu (d a : BitVec 5) (r : BitVec 2) (i : BitVec 13) (s : State) : Res := settle (scalarLoad d a r i 2 false) s
/-- LWU (R209). -/
def execLwu (d a : BitVec 5) (r : BitVec 2) (i : BitVec 13) (s : State) : Res := settle (scalarLoad d a r i 4 false) s

/-- LDACQ (R210): the load, then the acquire actions of its scope. -/
def execLdacq (d a : BitVec 5) (r : BitVec 2) (o : BitVec 10) (sc : BitVec 2) (s : State) : Res := settle (do
  M.waitWalks (some sc)
  M.needPlanes sc
  let s ← get
  let va := s.getX a + (sext o <<< 3)
  let w ← M.scalar va (classify s.who va 8 .load)
  if w.isPlainOnly then M.cause 8#8 va 0#64 1#64
  else
    let (v, _) ← M.scalar va (loadFrom s.who va 8 r.toNat w)
    M.acquire sc
    M.result d (BitVec.ofNat 64 v)) s

/-! ## Stores (R209, R210) -/

/-- A scalar store of the low `size` bytes of a register. -/
def scalarStore (b a : BitVec 5) (i : BitVec 15) (size : Nat) : M Unit := do
  let s ← get
  let va := s.getX a + sext i
  M.scalar va (storeAt s.who va size (bitsOf (s.getX b).toNat 0 (8 * size)))
  M.advance

/-- SB (R209). -/
def execSb (b a : BitVec 5) (i : BitVec 15) (s : State) : Res := settle (scalarStore b a i 1) s
/-- SH (R209). -/
def execSh (b a : BitVec 5) (i : BitVec 15) (s : State) : Res := settle (scalarStore b a i 2) s
/-- SW (R209). -/
def execSw (b a : BitVec 5) (i : BitVec 15) (s : State) : Res := settle (scalarStore b a i 4) s
/-- SD (R209). -/
def execSd (b a : BitVec 5) (i : BitVec 15) (s : State) : Res := settle (scalarStore b a i 8) s

/-- SDREL (R210): the release actions of its scope, then the store, which performs at that scope (R139, R143). -/
def execSdrel (b a : BitVec 5) (o : BitVec 12) (sc : BitVec 2) (s : State) : Res := settle (do
  let s ← get
  let va := s.getX a + (sext o <<< 3)
  let w ← M.scalar va (classify s.who va 8 .store)
  if w.isPlainOnly then M.cause 8#8 va 0#64 1#64
  else
    M.release sc
    M.scalar va (storeLine s.who va 8 (s.getX b).toNat false w)
    modify (fun t => t.shown s.hart.place.die w sc)
    M.advance) s

end Sys2Proof.Machine
end

