-- ==== Sys2Proof/Machine/Reference.lean ====
section
/-!
DEFINITION. Reference instructions on the objects of reach-managed windows (R156 to R163, R211 to R216).
-/

namespace Sys2Proof.Machine

open Sys2Proof

/-- The window is a reach-managed page (R122). -/
def Window.isReach : Window → Bool
  | .cached _ leaf => pteWin leaf == 2
  | .memSide _ r => r
  | _ => false

/-- The physical address a window serves, when it has one. -/
def Window.pa : Window → Option Nat
  | .scratch => none
  | .cached pa _ => some pa
  | .memSide pa _ => some pa
  | .bankLinear pa => some pa
  | .control pa => some pa

/-- The window is served past the caches, at its base die. -/
def Window.isMemSide : Window → Bool
  | .memSide _ _ => true
  | _ => false

/-- Fields of an object header (R156). -/
def hdrLength (h : Word) : Nat := bitsOf h.toNat 0 32
def hdrScope (h : Word) : Nat := bitsOf h.toNat 32 2
def hdrMark (h : Word) : Bool := h.getLsbD 34

/-- The dword at a physical address of this device as its home holds it, every dirty copy of its line gathered first;
and whether its granule is poisoned. -/
def State.homeWord (s : State) (space pa : Nat) : State × Word × Bool :=
  let (t, v) := (s.gather (pa / 128) false).homeRead space (pa / 128)
  (t, BitVec.ofNat 64 (getElt v.data 64 (bitsOf pa 3 4)), v.psn.getLsbD (bitsOf pa 5 2))

/-- Reads the header of an object as a checked 8-byte load of a reach-managed page at its home (R212). -/
def readHeader (who : Who) (va : Word) : A Word := do
  let w ← classify who va 8 .load
  match w.isReach, w.pa with
  | true, some pa =>
    needWay who.die (pa / 128)
    let (t, h, psn) := (← get).homeWord who.asid pa
    set (t.cross who.die (paDie pa) (pa / 128))
    if psn then A.poison else return h
  | _, _ => A.fault 8#8

/-- LDREF (R211): a reference is delivered only from a field whose tag is set. -/
def execLdref (d a : BitVec 5) (r : BitVec 2) (o : BitVec 10) (q : BitVec 1) (sc : BitVec 2) (s : State) : Res :=
  settle (do
    if !(Instr.wf (.ldref d a r o q sc)) then M.illegal (.ldref d a r o q sc)
    else
      if isSet q then
        M.waitWalks (some sc)
        M.needPlanes sc
      let s ← get
      let va := s.getX a + (sext o <<< 3)
      let w ← M.scalar va (classify s.who va 8 .load)
      if !w.isReach then M.cause 8#8 va 0#64 1#64
      else
        let (v, tag) ← M.scalar va (loadFrom s.who va 8 r.toNat w)
        if isSet q then M.acquire sc
        M.result d (if tag then BitVec.ofNat 64 v else 0#64)) s

/-- The checks that SDREF and SPUB share up to the reference (R212): the field's address, its window, the
container's PSCOPE and the PSCOPE of the referenced object, 3 for null. -/
def refChecks (c v : Word) (o : BitVec 12) : M (Word × Window × Nat × Nat) := do
  let who := (← get).who
  let a := c + (sext o <<< 3)
  if c.extractLsb' 0 3 ≠ 0#3 then M.cause 4#8 c 0#64 1#64
  else
    let hc ← M.scalar c (readHeader who c)
    let off := (sext o <<< 3).toInt
    if off < 8 ∨ off ≥ 8 * hdrLength hc then M.cause 8#8 a 0#64 1#64
    else
      let pt ← (if v = 0#64 then pure 3
        else if v.extractLsb' 0 3 ≠ 0#3 then M.cause 8#8 v 0#64 1#64
        else do
          let w ← M.scalar v (classify who v 8 .load)
          if !w.isReach then M.cause 8#8 v 0#64 1#64
          else
            let (h, _) ← M.scalar v (loadFrom who v 8 2 w)
            pure (hdrScope (BitVec.ofNat 64 h)))
      let w ← M.scalar a (classify who a 8 .store)
      if !w.isReach then M.cause 8#8 a 0#64 1#64
      else return (a, w, hdrScope hc, pt)

/-- SDREF (R212): the escape check, then the store with the field's tag set. -/
def execSdref (b a : BitVec 5) (o : BitVec 12) (s : State) : Res := settle (do
  M.waitWalks none
  let s ← get
  let v := s.getX b
  let (va, w, pc, pt) ← refChecks (s.getX a) v o
  if pt < pc then M.cause 0xA#8 va (BitVec.ofNat 64 pc) (BitVec.ofNat 64 pt)
  else
    M.scalar va (storeLine s.who va 8 v.toNat true w)
    M.advance) s

/-- SPUB (R213): the checks, then the walk is forked and the hart goes on. -/
def execSpub (b a : BitVec 5) (o : BitVec 12) (sc : BitVec 2) (s : State) : Res := settle (do
  if !(Instr.wf (.spub b a o sc)) then M.illegal (.spub b a o sc)
  else
    M.waitWalks none
    let s ← get
    let v := s.getX b
    let (va, _, pc, _) ← refChecks (s.getX a) v o
    if sc.toNat < pc then M.cause 0xA#8 va (BitVec.ofNat 64 pc) (zext sc)
    else
      M.fork
      modify (fun t =>
        let w : Walk := { id := t.fresh, uid := t.hart.uid, die := t.hart.place.die, core := t.hart.place.core,
                          asid := t.hart.asid, scope := sc, field := va, ref := v,
                          stack := if v = 0#64 then [] else [(v, false)], count := 0, state := .queued }
        { t with walks := t.walks ++ [w], fresh := t.fresh + 1 })
      M.advance) s

/-- RTAG (R215): the tag of a word; zero at an interleaved address. -/
def execRtag (d a : BitVec 5) (i : BitVec 15) (s : State) : Res := settle (do
  let s ← get
  let va := s.getX a + sext i
  let w ← M.scalar va (classify s.who va 8 .load)
  match w with
  | .cached _ _ | .memSide _ _ =>
    if !w.isReach then M.result d 0#64
    else
      let (_, tag) ← M.scalar va (loadFrom s.who va 8 2 w)
      M.result d (boolWord tag)
  | _ => M.cause 8#8 va 0#64 1#64) s

/-- The first address of a range, page by page of 64 KiB, that is not in a reach-managed page a store may write. -/
def checkReach (who : Who) (stop : Nat) : Nat → Nat → M Unit
  | 0, _ => pure ()
  | fuel + 1, va => do
    let w ← M.scalar (BitVec.ofNat 64 va) (classify who (BitVec.ofNat 64 va) 8 .store)
    if !w.isReach then M.cause 8#8 (BitVec.ofNat 64 va) 0#64 1#64
    else
      let next := (va / 65536 + 1) * 65536
      if next ≥ stop then pure () else checkReach who stop fuel next

/-- A line value with the tags of a set of words cleared and its header dword written (R216): no other byte changes, and
every mark of poison stands. -/
def LineVal.initWords (v : LineVal) (words : BitVec 16) (header : Option (Nat × Word)) : LineVal :=
  ⟨match header with | some (o, h) => setElt v.data 64 o h.toNat | none => v.data, v.tags &&& ~~~words, v.psn⟩

/-- Initialises the words of one line that an object covers (R216): the line is brought into the writer's L2 as a store
brings it, and the words become dirty there with the bytes that it holds; a memory-side line is written at its home. -/
def initLine (who : Who) (start stop line : Nat) (header : Word) : A Unit := do
  let lo := max start (line * 128)
  let hi := min stop ((line + 1) * 128)
  let mask := byteMask lo (hi - lo)
  let here := if line * 128 ≤ start ∧ start < (line + 1) * 128 then some (start % 128 / 8, header) else none
  let w ← classify who (BitVec.ofNat 64 lo) 8 .store
  match w with
  | .cached pa leaf =>
    -- an empty store brings the line in, checked out when it is homed on another die
    writeCached who lo pa leaf ⟨0, 0, 0⟩ 0#128
    let asid := spaceOf who.asid (BitVec.ofNat 64 lo)
    modify (fun t => match t.findL2 who.die asid line with
      | some e =>
        let v := (LineVal.mk e.data e.tags e.psn).initWords (wordsOf mask) here
        let u := t.putL2 { e with data := v.data, tags := v.tags, dirty := e.dirty ||| mask }
        u.mapL1 (fun l => writeCore l who.die who.core asid line v mask)
      | none => t)
  | .memSide pa _ =>
    let space := spaceOf who.asid (BitVec.ofNat 64 lo)
    let v ← fetchHome who space (pa / 128)
    writeHome who space pa (v.initWords (wordsOf mask) here) mask
  | _ => A.fault 8#8

/-- Initialises the lines of an object in ascending order. -/
def initLines (who : Who) (start stop : Nat) (header : Word) : Nat → Nat → A Unit
  | 0, _ => pure ()
  | n + 1, line => do
    initLine who start stop line header
    initLines who start stop header n (line + 1)

/-- OBJINIT (R216). -/
def execObjinit (b a : BitVec 5) (i : BitVec 15) (s : State) : Res := settle (do
  let s ← get
  let va := s.getX a + sext i
  let h := s.getX b
  let len := hdrLength h
  -- the checks of a store at the header come before those of R216 (R376)
  let _ ← M.scalar va (classify s.who va 8 .store)
  if len = 0 then M.cause 8#8 va 0#64 1#64
  else
    let stop := va.toNat + 8 * len
    checkReach s.who stop (len / 8192 + 2) va.toNat
    let first := va.toNat / 128
    let header := (h &&& 0xFFFFFFF800000000#64) ||| zext (h.extractLsb' 0 32)
    M.scalar va (initLines s.who va.toNat stop header ((stop - 1) / 128 - first + 1) first)
    M.advance) s

end Sys2Proof.Machine
end

