-- ==== Sys2Proof/Machine/Atomic.lean ====
section
/-!
DEFINITION. Scalar atomics (R153, R154, R217), their paths to other devices (R326, R327) and atomic line regions
(R155, R218 to R220).
-/

namespace Sys2Proof.Machine

open Sys2Proof

/-! ## Path capability (R327) -/

/-- Entry `n` of the path capability table. -/
def State.pcapEntry (s : State) (n : Nat) : Word := (getKey n s.fe.pcap).getD (if n = 255 then pcapDefault else 0#64)

/-- The entry for a device: the lowest-numbered valid one whose range holds it, else entry 255 (R327). -/
def State.pathCap (s : State) (dev : Nat) : Word :=
  let hit := (List.range 256).find? (fun n =>
    let e := s.pcapEntry n
    e.getLsbD 63 && decide (bitsOf e.toNat 25 19 ≤ dev) && decide (dev ≤ bitsOf e.toNat 44 19))
  s.pcapEntry (hit.getD 255)

def capViaPcie (e : Word) : Bool := e.getLsbD 24
def capAlr (e : Word) : Bool := e.getLsbD 23
def capMsa (e : Word) : Bool := e.getLsbD 22
def capOp (e : Word) (op : Nat) : Bool := e.getLsbD (12 + op)

/-! ## Atomics (R217) -/

/-- Where an atomic goes: its physical address and whether its page is a memory-side one. -/
def Window.atomicPa : Window → Option (Nat × Bool)
  | .cached pa _ => some (pa, false)
  | .memSide pa _ => some (pa, true)
  | _ => none

/-- The request that carries an atomic to another device (R402). -/
def atomicReq (key : StreamKey) (pa : Nat) (op : BitVec 4) (operand expected : Word) (attr : Nat) : FonakReq :=
  { (plainReq key 2 (pa / 128)) with
    attr := BitVec.ofNat 16 (op.toNat + attr), bmask := byteMask pa 8, data := (placeBytes pa operand.toNat false).data,
    gmask := touchedGranules (byteMask pa 8), compare := expected }

/-- The stream of AtomicOps over the PCIe port (R326): it lies beside the eight planes. -/
def State.pcieStream (s : State) (dev : Nat) : StreamKey := ⟨4 + s.fe.devSelf.toNat, 4 + dev, 8⟩

/-- The core that an access at a line's home comes from, when it is one of the home die (R146). -/
def Who.coreAt (who : Who) (ln : Nat) : Option Nat := if paDie (ln * 128) = who.die then some who.core else none

/-- An indivisible operation brings its line to where it performs (R127, R134, R153): into the home's L2 slice, under the
requester's address, when the requester is on the home die and the slice has no copy; else it performs at the base die. -/
def State.bringHome (s : State) (who : Who) (va : Word) (ln : Nat) (leaf : Option Word) : State :=
  match leaf with
  | some p =>
    if (s.homeCopy ln).isSome || paDie (ln * 128) != who.die then s
    else
      let (t, v) := s.homeRead (spaceOf who.asid va) ln
      t.fillL2 who.die (spaceOf who.asid va) (va.toNat / 128) ln p 2 v
  | none => s

/-- The leaf of a cached window, under which an operation performs at an L2 slice. -/
def Window.leaf : Window → Option Word
  | .cached _ p => some p
  | _ => none

/-- An atomic performs at its home: the old value, or poison. At a home on another die or device it is a request of a stream
(R403, R404), or over PCIe of its AtomicOps. R326 wants the OPMASK bits of the other AMOs clear there: one that software leaves set
lets the AMO go the same way (log entry 76). -/
def atomicAt (who : Who) (va : Word) (pa : Nat) (leaf : Option Word) (op : BitVec 4) (operand expected : Word)
    (attr : Nat) : A Word := do
  let s ← get
  let ln := pa / 128
  if s.isLocal pa && paDie pa == who.die then
    needWay who.die ln
    needVictim who.die (spaceOf who.asid va) (va.toNat / 128)
    -- every copy of the line in the package is gathered before the line is brought to where the operation performs
    let s1 := (s.gather ln leaf.isNone).bringHome who va ln leaf
    let (t, old, psn) := s1.atomicHome (spaceOf who.asid va) pa op operand expected leaf.isNone (who.coreAt ln)
    set (t.dropCopies who.die ln)
    if psn then A.poison else return old
  else
    let key := if s.isLocal pa then s.dieStream who.die (paDie pa) ln
      else if capViaPcie (s.pathCap (paDev pa)) then s.pcieStream (paDev pa) else s.devStream (paDev pa) ln
    let r ← askRemote who { atomicReq key pa op operand expected attr with space := spaceOf who.asid va }
    set ((← get).dropCopies who.die ln)
    if r.psn.getLsbD (bitsOf pa 5 2) then A.poison
    else return BitVec.ofNat 64 (getElt r.data 64 (bitsOf pa 3 4))

/-- An atomic of the scalar unit (R217): checks, release actions, the operation at its home, acquire actions. With the
release bit the line it wrote is shown at its scope (R139, R143). -/
def scalarAtomic (i : Instr) (op : BitVec 4) (d a b : BitVec 5) (ms l q : BitVec 1) (sc : BitVec 2) : M Unit := do
  if !i.wf then M.illegal i
  else
    if isSet q then
      M.waitWalks (some sc)
      M.needPlanes sc
    let s ← get
    let va := s.getX a
    let w ← M.scalar va (classify s.who va 8 .atomic)
    match w.atomicPa with
    | none => M.cause 8#8 va 0#64 1#64
    | some (pa, mem) =>
      let cap := s.pathCap (paDev pa)
      if !s.isLocal pa && s.hart.pathAt != some s.hart.pc && (!capOp cap op.toNat || (isSet ms && !capMsa cap)) then
        M.cause 0xD#8 va (BitVec.ofNat 64 (paDev pa)) 0#64
      else
        -- an atomic that has passed goes on whatever SETPCAP does while it waits (R406)
        if !s.isLocal pa then modify (fun t => { t with hart := { t.hart with pathAt := some t.hart.pc } })
        if isSet l then M.release sc
        let attr := 16 * sc.toNat + 64 * q.toNat + 128 * l.toNat + (if isSet ms || mem then 256 else 0)
        let leaf := if isSet ms || mem then none else w.leaf
        let old ← M.scalar va (atomicAt s.who va pa leaf op (s.getX b) (s.getX d) attr)
        if isSet l then modify (fun t => t.shown (paDie pa) w sc)
        if isSet q then M.acquire sc
        M.result d old

/-- AMOADD (R217). -/
def execAmoadd (d a b : BitVec 5) (ms l q : BitVec 1) (sc : BitVec 2) (s : State) : Res :=
  settle (scalarAtomic (.amoadd d a b ms l q sc) 0#4 d a b ms l q sc) s
/-- AMOSWAP (R217). -/
def execAmoswap (d a b : BitVec 5) (ms l q : BitVec 1) (sc : BitVec 2) (s : State) : Res :=
  settle (scalarAtomic (.amoswap d a b ms l q sc) 1#4 d a b ms l q sc) s
/-- AMOCAS (R217). -/
def execAmocas (d a b : BitVec 5) (ms l q : BitVec 1) (sc : BitVec 2) (s : State) : Res :=
  settle (scalarAtomic (.amocas d a b ms l q sc) 2#4 d a b ms l q sc) s
/-- AMOMIN (R217). -/
def execAmomin (d a b : BitVec 5) (ms l q : BitVec 1) (sc : BitVec 2) (s : State) : Res :=
  settle (scalarAtomic (.amomin d a b ms l q sc) 3#4 d a b ms l q sc) s
/-- AMOMAX (R217). -/
def execAmomax (d a b : BitVec 5) (ms l q : BitVec 1) (sc : BitVec 2) (s : State) : Res :=
  settle (scalarAtomic (.amomax d a b ms l q sc) 4#4 d a b ms l q sc) s
/-- AMOMINU (R217). -/
def execAmominu (d a b : BitVec 5) (ms l q : BitVec 1) (sc : BitVec 2) (s : State) : Res :=
  settle (scalarAtomic (.amominu d a b ms l q sc) 5#4 d a b ms l q sc) s
/-- AMOMAXU (R217). -/
def execAmomaxu (d a b : BitVec 5) (ms l q : BitVec 1) (sc : BitVec 2) (s : State) : Res :=
  settle (scalarAtomic (.amomaxu d a b ms l q sc) 6#4 d a b ms l q sc) s
/-- AMOAND (R217). -/
def execAmoand (d a b : BitVec 5) (ms l q : BitVec 1) (sc : BitVec 2) (s : State) : Res :=
  settle (scalarAtomic (.amoand d a b ms l q sc) 7#4 d a b ms l q sc) s
/-- AMOOR (R217). -/
def execAmoor (d a b : BitVec 5) (ms l q : BitVec 1) (sc : BitVec 2) (s : State) : Res :=
  settle (scalarAtomic (.amoor d a b ms l q sc) 8#4 d a b ms l q sc) s
/-- AMOXOR (R217). -/
def execAmoxor (d a b : BitVec 5) (ms l q : BitVec 1) (sc : BitVec 2) (s : State) : Res :=
  settle (scalarAtomic (.amoxor d a b ms l q sc) 9#4 d a b ms l q sc) s

/-! ## Atomic line regions (R218 to R220) -/

/-- An access of a body: its size, and whether it stores. -/
def memShape : Instr → Option (Nat × Bool)
  | .lb _ _ _ _ => some (1, false)
  | .lbu _ _ _ _ => some (1, false)
  | .lh _ _ _ _ => some (2, false)
  | .lhu _ _ _ _ => some (2, false)
  | .lw _ _ _ _ => some (4, false)
  | .lwu _ _ _ _ => some (4, false)
  | .ld _ _ _ _ => some (8, false)
  | .sb _ _ _ => some (1, true)
  | .sh _ _ _ => some (2, true)
  | .sw _ _ _ => some (4, true)
  | .sd _ _ _ => some (8, true)
  | _ => none

/-- An instruction that a body may hold, by its major opcode (R218). -/
def bodyWord (w : BitVec 32) : Option Instr :=
  let m := (w.extractLsb' 25 7).toNat
  if m = 1 ∨ (3 ≤ m ∧ m ≤ 9) ∨ m = 0xA ∨ (0x14 ≤ m ∧ m ≤ 0x1A) ∨ (0x1C ≤ m ∧ m ≤ 0x1F) then
    match decodeWord w with
    | .ok i => some i
    | .error _ => none
  else none

/-- The line under a region as its home sees it, with the registers the body works on. -/
structure HomeRun where
  x : Vector Word 32
  v : LineVal
  mask : BitVec 128
  written : BitVec 32
  poisoned : Bool
  deriving DecidableEq, Repr

/-- Reads a register of a body. -/
def HomeRun.getX (h : HomeRun) (r : BitVec 5) : Word := if r = 0#5 then 0#64 else h.x[r.toNat]'(have := r.isLt; by omega)

/-- Writes a register of a body. -/
def HomeRun.setX (h : HomeRun) (r : BitVec 5) (v : Word) : HomeRun :=
  if r = 0#5 then h
  else { h with x := h.x.set r.toNat v (have := r.isLt; by omega), written := h.written ||| (1#32 <<< r.toNat) }

/-- The value an integer instruction of a body writes (R204 to R206). -/
def bodyValue (g : BitVec 5 → Word) : Instr → Option (BitVec 5 × Word)
  | .add d a b => some (d, g a + g b)
  | .sub d a b => some (d, g a - g b)
  | .and d a b => some (d, g a &&& g b)
  | .or d a b => some (d, g a ||| g b)
  | .xor d a b => some (d, g a ^^^ g b)
  | .sll d a b => some (d, g a <<< shiftCount (g b))
  | .srl d a b => some (d, g a >>> shiftCount (g b))
  | .sra d a b => some (d, BitVec.sshiftRight (g a) (shiftCount (g b)))
  | .slt d a b => some (d, boolWord (BitVec.slt (g a) (g b)))
  | .sltu d a b => some (d, boolWord (BitVec.ult (g a) (g b)))
  | .min d a b => some (d, if BitVec.slt (g b) (g a) then g b else g a)
  | .max d a b => some (d, if BitVec.slt (g a) (g b) then g b else g a)
  | .minu d a b => some (d, if BitVec.ult (g b) (g a) then g b else g a)
  | .maxu d a b => some (d, if BitVec.ult (g a) (g b) then g b else g a)
  | .clz d a => some (d, leadingZeros (g a))
  | .ctz d a => some (d, trailingZeros (g a))
  | .popc d a => some (d, countOnes (g a))
  | .addi d a i => some (d, g a + sext i)
  | .andi d a i => some (d, g a &&& sext i)
  | .ori d a i => some (d, g a ||| sext i)
  | .xori d a i => some (d, g a ^^^ sext i)
  | .slti d a i => some (d, boolWord (BitVec.slt (g a) (sext i)))
  | .sltiu d a i => some (d, boolWord (BitVec.ult (g a) (sext i)))
  | .slli d a h => some (d, g a <<< h.toNat)
  | .srli d a h => some (d, g a >>> h.toNat)
  | .srai d a h => some (d, BitVec.sshiftRight (g a) h.toNat)
  | .lui d i => some (d, upperImm i)
  | _ => none

/-- The address of a body's access. -/
def bodyAddress (g : BitVec 5 → Word) : Instr → Word
  | .lb _ a _ i => g a + sext i
  | .lbu _ a _ i => g a + sext i
  | .lh _ a _ i => g a + sext i
  | .lhu _ a _ i => g a + sext i
  | .lw _ a _ i => g a + sext i
  | .lwu _ a _ i => g a + sext i
  | .ld _ a _ i => g a + sext i
  | .sb _ a i => g a + sext i
  | .sh _ a i => g a + sext i
  | .sw _ a i => g a + sext i
  | .sd _ a i => g a + sext i
  | _ => 0#64

/-- The register an access of a body loads into, with its extension, or stores from. -/
def bodyLoad : Instr → Option (BitVec 5 × Bool)
  | .lb d _ _ _ => some (d, true)
  | .lh d _ _ _ => some (d, true)
  | .lw d _ _ _ => some (d, true)
  | .ld d _ _ _ => some (d, false)
  | .lbu d _ _ _ => some (d, false)
  | .lhu d _ _ _ => some (d, false)
  | .lwu d _ _ _ => some (d, false)
  | _ => none
def bodyStore : Instr → BitVec 5
  | .sb b _ _ => b
  | .sh b _ _ => b
  | .sw b _ _ => b
  | .sd b _ _ => b
  | _ => 0#5

/-- Why a body cannot run at its home: a misaligned access, or one outside the line, at a word offset. -/
inductive BodyStop where
  | misaligned (va : Word)
  | outside (k : Nat)
  deriving DecidableEq, Repr

/-- One instruction of a body at its home. Of an access that is misaligned and outside the line R220 states no order of the two
causes: the model tests alignment first (log entry 71). -/
def HomeRun.one (h : HomeRun) (line k : Nat) (i : Instr) : Except BodyStop HomeRun :=
  match memShape i with
  | none => match bodyValue h.getX i with
    | some (d, v) => .ok (h.setX d v)
    | none => .ok h
  | some (size, _) =>
    let va := bodyAddress h.getX i
    if va.toNat % size ≠ 0 then .error (.misaligned va)
    else if va.toNat / 128 ≠ line then .error (.outside k)
    else
      match bodyLoad i with
      | some (d, signed) =>
        let n := bitsOf h.v.data.toNat (8 * (va.toNat % 128)) (8 * size)
        let h' := { h with poisoned := h.poisoned || h.v.psn.getLsbD (va.toNat % 128 / 32) }
        .ok (h'.setX d (if signed then BitVec.ofInt 64 (toSigned (8 * size) n) else BitVec.ofNat 64 n))
      | none =>
        let n := bitsOf (h.getX (bodyStore i)).toNat 0 (8 * size)
        let m := byteMask va.toNat size
        .ok { h with v := h.v.overlay (placeBytes va.toNat n false) m, mask := h.mask ||| m }

/-- A body at its home, in order (R219). -/
def HomeRun.all (h : HomeRun) (line : Nat) : Nat → List Instr → Except BodyStop HomeRun
  | _, [] => .ok h
  | k, i :: l => match h.one line k i with
    | .error e => .error e
    | .ok h' => h'.all line (k + 1) l

/-- The address of the first access, from register values as they stand after the instructions before it (R219). -/
def firstAccess (h : HomeRun) : Nat → List Instr → Option (Nat × Instr × Word)
  | _, [] => none
  | k, i :: l => match memShape i with
    | some _ => some (k, i, bodyAddress h.getX i)
    | none => match bodyValue h.getX i with
      | some (d, v) => firstAccess (h.setX d v) (k + 1) l
      | none => firstAccess h (k + 1) l

/-- What the gathering of a body finds (R218). -/
inductive Gathered where
  | body (l : List (BitVec 32 × Instr)) (alre : Instr)
  | bad (k : Nat)
  deriving DecidableEq, Repr

/-- Words are fetched from the word after ALRB until an ALRE; `k` is the word offset from ALRB. A failing fetch raises
its cause with the word's address (R220). -/
def gatherBody (who : Who) (alrb : Word) : Nat → Nat → M Gathered
  | 0, k => pure (.bad (k - 1))
  | fuel + 1, k => do
    let va := wrapPc (alrb + BitVec.ofNat 64 (4 * k))
    let w ← M.scalar va (fetchWord who va)
    match decodeWord w with
    | .ok (.alre l q sc) => if Instr.wf (.alre l q sc) then pure (.body [] (.alre l q sc)) else pure (.bad k)
    | _ =>
      match bodyWord w with
      | none => pure (.bad k)
      | some i => do
        match ← gatherBody who alrb fuel (k + 1) with
        | .bad n => pure (.bad n)
        | .body l e => pure (.body ((w, i) :: l) e)

/-- Cause 0x0E at an ALRB: FAULTVA is the address of the offending word and FAULTSTRIDE its offset (R366). -/
def regionCause {α : Type} (alrb : Word) (k : Nat) : M α :=
  fun s => .error (.trap s { s.cause 0xE#8 (wrapPc (alrb + BitVec.ofNat 64 (4 * k))) (BitVec.ofNat 64 k) 0#64 with epc := alrb })

/-- ALRB (R218, R219): gathers and checks the body, translates its line, and opens the region. The instructions of the
body are not executed here; the step after this one is the ALRE (log entry 16). The first access is tested for
alignment before everything else (log entry 71). -/
def execAlrb (s : State) : Res := settle (do
  let s ← get
  let pc := s.hart.pc
  match ← gatherBody s.who pc 25 1 with
  | .bad k => regionCause pc k
  | .body l alre =>
    let is := l.map (·.2)
    let mems := is.filterMap memShape
    if mems.length > 8 then
      -- the ninth access is the offending word
      let at9 := ((List.range is.length).filter (fun k => ((is[k]?).bind memShape).isSome)).getD 8 0
      regionCause pc (at9 + 1)
    else
      match firstAccess ⟨s.hart.x, ⟨0, 0, 0⟩, 0, 0, false⟩ 1 is with
      | none => regionCause pc (is.length + 1)
      | some (_, i, va) =>
        let size := ((memShape i).getD (1, false)).1
        let acc := if mems.any (·.2) then Access.store else Access.load
        if va.toNat % size ≠ 0 then M.cause 4#8 va 0#64 1#64
        else
          let w ← M.scalar va (classify s.who va size acc)
          -- loads of a body that also stores need RD beside W (R114)
          if mems.any (·.2) && mems.any (fun m => !m.2) then
            let _ ← M.scalar va (classify s.who va size .load)
          match w.atomicPa with
          | none => M.cause 8#8 va 0#64 1#64
          | some (pa, _) =>
            let cap := (← get).pathCap (paDev pa)
            if !s.isLocal pa && (!capAlr cap || capViaPcie cap) then
              M.cause 0xD#8 va (BitVec.ofNat 64 (paDev pa)) 0#64
            else
              let skip := BitVec.ofNat 64 (4 * (is.length + 1))
              let r : Region := { alrb := pc, alre := wrapPc (pc + skip), body := l.map (·.1), line := va.toNat / 128, pa := pa }
              let keep := match alre with
                | .alre _ _ _ => true
                | _ => false
              modify (fun t => if keep then { t with hart := { t.hart with region := some r, pc := r.alre } } else t)) s

/-- The instructions of a body. -/
def bodyInstrs (l : List (BitVec 32)) : List Instr := l.filterMap bodyWord

/-- Runs a body indivisibly against its line at the home on this device (R219): the registers written, or why not. `core`
is the core of the home die that shipped it, if one did (R146). -/
def State.regionHome (s : State) (space pa line : Nat) (memSide : Bool) (core : Option Nat) (x : Vector Word 32)
    (body : List Instr) : State × Except BodyStop HomeRun :=
  let t := s.gather (pa / 128) memSide
  match (HomeRun.mk x (t.served space (pa / 128)) 0 0 false).all line 1 body with
  | .error e => (t, .error e)
  | .ok h =>
    let u := t.serveWrite space (pa / 128) h.v h.mask core
    (u.dropCopies (paDie pa) (pa / 128), .ok h)

/-- The region runs at its home: on this die at once, on another die or device as a request of a stream (R219, R404). -/
def regionAt (who : Who) (r : Region) (leaf : Option Word) (attr : Nat) : A (Except BodyStop HomeRun) := do
  let s ← get
  let is := bodyInstrs r.body
  let ln := r.pa / 128
  let memSide := leaf.isNone
  let va := BitVec.ofNat 64 (r.line * 128)
  if s.isLocal r.pa && paDie r.pa == who.die then
    needWay who.die ln
    needVictim who.die (spaceOf who.asid va) r.line
    let s1 := (s.gather ln memSide).bringHome who va ln leaf
    let (t, out) := s1.regionHome (spaceOf who.asid va) r.pa r.line memSide (who.coreAt ln) s.hart.x is
    match out with
    | .error e => return .error e
    | .ok h =>
      set (t.dropCopies who.die ln)
      return .ok h
  else
    let key := if s.isLocal r.pa then s.dieStream who.die (paDie r.pa) ln else s.devStream (paDev r.pa) ln
    let req := { (plainReq key 3 ln) with
                 space := spaceOf who.asid va, attr := BitVec.ofNat 16 (if memSide then attr + 256 else attr), body := r.body,
                 compare := BitVec.ofNat 64 (r.line * 128), regs := s.hart.x.toList }
    let p ← askRemote who req
    set ((← get).dropCopies who.die (r.pa / 128))
    -- a body that the home could not run names why in two words
    match p.regs with
    | [0#64, k] => return .error (.outside k.toNat)
    | [_, va] => return .error (.misaligned va)
    | _ => pure ()
    let h0 : HomeRun := ⟨s.hart.x, ⟨p.data, 0, p.psn⟩, 0, 0, p.psn != 0⟩
    return .ok ((List.range 32).foldl (fun (h : HomeRun) (k : Nat) => h.setX (BitVec.ofNat 5 k) (p.regs.getD k 0#64)) h0)

/-- Runs the open region of the hart in focus at its home and commits its registers with the encoded class and scope
(R219, R220). -/
def State.runRegion (l q : BitVec 1) (sc : BitVec 2) (s : State) : Res := settle (do
  if !(Instr.wf (.alre l q sc)) then M.illegal (.alre l q sc)
  else
    let s ← get
    match s.hart.region with
    | none => M.cause 0xE#8 s.hart.pc 0#64 0#64
    | some r =>
      if isSet q then
        M.waitWalks (some sc)
        M.needPlanes sc
      if isSet l then M.release sc
      let n := r.body.length
      let attr := 16 * sc.toNat + 64 * q.toNat + 128 * l.toNat + 512 * ((bodyInstrs r.body).filterMap memShape).length
      let fv := fun (t : State) (c : BitVec 8) =>
        { t.cause c (BitVec.ofNat 64 (r.line * 128)) 0#64 1#64 with epc := r.alrb }
      let w ← M.access fv 0 (classify s.who (BitVec.ofNat 64 (r.line * 128)) 1
        (if ((bodyInstrs r.body).filterMap memShape).any (·.2) then .store else .load))
      match ← M.access fv 0 (regionAt s.who r (if w.isMemSide then none else w.leaf) attr) with
      | .error (.misaligned va) => fun t => .error (.trap t { s.cause 4#8 va 0#64 1#64 with epc := r.alrb })
      | .error (.outside k) => regionCause r.alrb k
      | .ok h =>
        if h.poisoned then (fun t => .error (.poison t 0 false))
        else
          if isSet l then modify (fun t => t.shown (paDie r.pa) w sc)
          if isSet q then M.acquire sc
          modify (fun t =>
            let g := (List.range 32).foldl (fun (g : Hart) (k : Nat) =>
              if h.written.getLsbD k then g.setX (BitVec.ofNat 5 k) (h.x[k]?.getD 0#64) else g) t.hart
            let next := wrapPc (r.alrb + BitVec.ofNat 64 (4 * (n + 2)))
            { t with hart := { g with region := none } }.setPc next)) s

/-- ALRE (R219, R220). -/
def execAlre (l q : BitVec 1) (sc : BitVec 2) (s : State) : Res := s.runRegion l q sc

end Sys2Proof.Machine
end

