-- ==== Sys2Proof/Machine/Bank.lean ====
section
/-!
DEFINITION. What every bank-engine command shares: engine errors (R291), the end of a command in a bank and the count
of a command over its set (R277, R290).
-/

namespace Sys2Proof.Machine

open Sys2Proof

/-- Records an engine error; a bank keeps its first code (R291). -/
def Bank.record (k : Bank) (code : BitVec 8) : Bank :=
  if k.err then k else { k with err := true, errCode := code }

/-- The engine runs nothing. -/
def Bank.stopRun (k : Bank) : Bank := { k with run := .idle }

/-- A command by its number. -/
def State.cmdOf (s : State) (id : Nat) : Option Cmd := s.cmds.find? (fun c => c.id == id)

/-- Changes a command. -/
def State.onCmd (s : State) (id : Nat) (f : Cmd → Cmd) : State :=
  { s with cmds := changeAll (fun c => c.id == id) f s.cmds }

/-- Sync points that every bank of the set has passed or ended before (R290). -/
def Cmd.passed (c : Cmd) : Nat :=
  let top := (c.state.map (fun e => e.2.1)).foldl max 0
  (c.state.map (fun e => if e.2.2 then top else e.2.1)).foldl min top

/-- Every bank of a command's set has ended it (R277). -/
def Cmd.ended (c : Cmd) : Bool := c.state.all (fun e => e.2.2)

/-- Every bank of the set holds the drain at the head of its queue and runs nothing. -/
def State.drainDue (s : State) (c : Cmd) : Bool :=
  (List.range c.count).all (fun i =>
    let k := s.bank (c.bank + i)
    k.run == .idle && (match k.queue with
      | q :: _ => q.cmd == c.id && q.op == .drain
      | [] => false))

/-- Adds to kN of a command's hart what a count still lacks (R277, R290). -/
def State.countTo (s : State) (c : Cmd) (level : Nat) : State :=
  let s1 := (List.range (level - c.counted)).foldl (fun (t : State) _ => t.onHart c.uid (·.bumpK c.k)) s
  s1.onCmd c.id (fun d => { d with counted := max d.counted level })

/-- Counts the sync points of a command that its whole set has passed. -/
def State.countSyncs (s : State) (id : Nat) : State :=
  match s.cmdOf id with
  | some c => s.countTo c c.passed
  | none => s

/-- A bank has passed a sync point of a command (R290). -/
def State.cmdSync (s : State) (b id : Nat) : State :=
  (s.onCmd id (fun c => { c with state := changeAll (fun e => e.1 == b) (fun e => (e.1, e.2.1 + 1, e.2.2)) c.state })).countSyncs id

/-- A command has ended in a bank (R277): the bank's queue moves on. -/
def State.cmdEnded (s : State) (b id : Nat) : State :=
  let s1 := s.onBank b (fun k => { k with queue := k.queue.filter (fun q => q.cmd != id), run := .idle })
  (s1.onCmd id (fun c => { c with state := changeAll (fun e => e.1 == b) (fun e => (e.1, e.2.1, true)) c.state })).countSyncs id

/-- The command a bank runs. -/
def Bank.running (k : Bank) : Option Nat :=
  match k.run with
  | .idle => none
  | .lookup cmd _ _ _ _ _ => some cmd
  | .program cmd _ _ => some cmd

/-- A run ends in a bank, with an engine error or none (R290, R291). -/
def State.endRun (s : State) (b : Nat) (code : Option (BitVec 8)) : State :=
  let s1 := match code with
    | some e => s.onBank b (·.record e)
    | none => s
  match (s.bank b).running with
  | some id => s1.cmdEnded b id
  | none => s1.onBank b Bank.stopRun

/-! ## Rows (R121, R273, R293) -/

/-- The physical address of a row of a bank. -/
def State.rowPa (s : State) (b row : Nat) : Nat :=
  mkPa s.fe.devSelf.toNat (b / 16384) 1 (b * 2 ^ 24 + row * 1024)

/-- The 1 KiB of a row. -/
def State.rowData (s : State) (b row : Nat) : BitVec 8192 :=
  BitVec.ofNat 8192 (natOfBytes (Memory.read s.mm.bytes (s.rowPa b row) 1024))

/-- The poison marks of the 32 granules of a row. -/
def State.rowPsn (s : State) (b row : Nat) : BitVec 32 :=
  BitVec.ofNat 32 ((List.range 32).map (fun i => if s.poisoned (s.rowPa b row / 32 + i) then 2 ^ i else 0)).sum

/-- Writes a row whole, with its marks. -/
def State.putRow (s : State) (b row : Nat) (data : BitVec 8192) (psn : BitVec 32) : State :=
  let pa := s.rowPa b row
  { s with mm := { s.mm with
      bytes := Memory.write s.mm.bytes pa (bytesOfNat 1024 data.toNat),
      poison := (List.range 32).foldl (fun (p : List Nat) (i : Nat) => setPoison p (pa / 32 + i) (psn.getLsbD i)) s.mm.poison } }

/-! ## Accumulators (R99, R389) -/

/-- The clamp to i32 (R99): the value and whether it clamped. -/
def clamp32 (v : Int) : Int × Bool :=
  if v < -2147483648 then (-2147483648, true) else if v > 2147483647 then (2147483647, true) else (v, false)

/-- The mod-3 residue of an accumulator's value (R389). -/
def residue (v : Int) : Nat := (v % 3).toNat

/-- Accumulator `n` as a signed integer. -/
def Bank.accAt (k : Bank) (n : Nat) : Int := toSigned 32 (getElt k.acc 32 n)

/-- Stores an accumulator with its residue and mark. -/
def Bank.putAcc (k : Bank) (n : Nat) (v : Int) (psn : Bool) : Bank :=
  { k with acc := setElt k.acc 32 n (ofSigned 32 v), accRes := setElt k.accRes 2 n (residue v),
           accPsn := setBit k.accPsn n psn }

/-- The stored residue of an accumulator is not that of its value (R389). -/
def Bank.badResidue (k : Bank) (n : Nat) : Bool := getElt k.accRes 2 n != residue (k.accAt n)

/-- A residue mismatch records error 6 and poisons the accumulator (R389). -/
def Bank.mismatch (k : Bank) (n : Nat) : Bank := { (k.record 6) with accPsn := setBit k.accPsn n true }

/-- Folds a sum into an accumulator (R99): a clamp sets SAT; a poisoned term poisons it (R353). The residue of the unclamped
sum is predicted from the accumulator's and the terms' residues; one that the sum formed does not have is a mismatch, still to
be logged (R389). -/
def Bank.addAcc (k : Bank) (n : Nat) (v : Int) (res : Nat) (psn : Bool) : Bank :=
  let sum := k.accAt n + v
  let (r, c) := clamp32 sum
  let bad := residue sum != (getElt k.accRes 2 n + res) % 3
  let k0 := if bad then { k.mismatch n with mismatched := k.mismatched ++ [n] } else k
  let k1 := k0.putAcc n r (psn || k0.accPsn.getLsbD n)
  if c then { k1 with sat := true } else k1

/-- The mismatches that a bank has found are logged, class 2 with TYPE 0x04 (R389). -/
def State.logResidues (s : State) (b : Nat) : State :=
  match (s.bank b).mismatched with
  | [] => s
  | l => l.foldl (fun (t : State) (n : Nat) => t.bankError (t.channelBank b) true true 4#8 0 (BitVec.ofNat 64 n) 0#64)
      (s.onBank b (fun k => { k with mismatched := [] }))

/-- Every accumulator is poisoned (R353, R379). -/
def Bank.poisonAll (k : Bank) : Bank := { k with accPsn := ~~~0#1024 }

/-- A marked or broken µop, run register or latch ends the command with every accumulator poisoned (R353, R379). -/
def State.poisonRun (s : State) (b : Nat) : State := (s.onBank b Bank.poisonAll).endRun b none

/-! ## Shapes and lookups (R268 to R274) -/

/-- Pecks of a class: one for each k-group. -/
def ColClass.pecks (c : ColClass) (kw : Nat) : Nat := (kw + c.g - 1) / c.g

/-- Sub-arrays that a peck of a class occupies (R269). -/
def pecksSize (b g : Nat) : Nat := if b * g ≤ 8 then 1 else 2 ^ (b * g - 8)

/-- The class whose fields a class is looked up with. -/
def Shape.source (sh : Shape) (c : ColClass) : ColClass := (sh.classes.find? (fun d => d.num == c.src)).getD c

/-- The bushel position of an entry of the peck of k-group `j` of a class. -/
def ColClass.entry (c : ColClass) (j p : Nat) : Nat := (c.sub + j * pecksSize c.b c.g) * 256 + p

/-- The field of k-group `j` of a class for column `col` of an access (R272). -/
def ColClass.field (c : ColClass) (access : BitVec 256) (j col : Nat) : Nat :=
  let l := pecksSize c.b c.g
  bitsOf access.toNat (16 * (c.sub + j * l) + 8 * l * col) (c.b * c.g)

/-- The bushel entries that one class looks up for one column of an access. -/
def Shape.looked (sh : Shape) (c : ColClass) (access : BitVec 256) (col : Nat) : List Nat :=
  (List.range (c.pecks sh.kw)).map (fun j => c.entry j ((sh.source c).field access j col))

/-- A bushel entry as the 24-bit integer it holds (R98). -/
def Bank.bushelAt (k : Bank) (n : Nat) : Int := toSigned 24 (getElt k.bushel 24 n)

/-- One access of a lookup run (R274) as column pair `q` of `nq` from accumulator `abase`. -/
def Bank.lookup (k : Bank) (sh : Shape) (access : BitVec 256) (psn : Bool) (q nq abase : Nat) : Bank :=
  (List.range sh.classes.length).foldl (fun (k1 : Bank) (o : Nat) =>
    match sh.classes[o]? with
    | none => k1
    | some c => [0, 1].foldl (fun (k2 : Bank) (col : Nat) =>
        let es := sh.looked c access col
        let sum := (es.map k2.bushelAt).sum
        let res := (es.map (getElt k2.bushelRes 2)).sum
        let bad := psn || es.any (fun n => k2.bushelPsn.getLsbD n)
        k2.addAcc ((abase + 2 * nq * o + 2 * q + col) % 1024) sum res bad) k1) k

/-- Accesses of a row, taken from `lo` up to below `hi`, as column pairs counted from `q0`. -/
def Bank.lookupRow (k : Bank) (sh : Shape) (row : BitVec 8192) (psn : BitVec 32) (lo hi q0 nq abase : Nat) : Bank :=
  ((List.range 32).filter (fun i => lo ≤ i && decide (i < hi))).foldl (fun (k1 : Bank) (i : Nat) =>
    k1.lookup sh (BitVec.ofNat 256 (getElt row 256 i)) (psn.getLsbD i) (q0 + (i - lo)) nq abase) k

/-! ## Who may move (R37, R277, R387) -/

/-- A bank engine stands still: a channel copy moves its bank (R387), or the hart whose command it runs has been
pre-empted (R37). -/
def State.bankHeld (s : State) (b : Nat) : Bool :=
  s.err.copies.any (fun c => (Part.banks c.part).contains b) ||
  match (s.bank b).running with
  | none => false
  | some id => (s.cmdOf id).any (fun c => (s.hartOf c.uid).any (fun h => h.phase == .waiting))

/-- The next thing that a bank engine does is a row operation (R292, R294); one that stands still makes none. -/
def State.engineRow (s : State) (b : Nat) : Bool := (s.bank b).nextIsRow && !s.bankHeld b

end Sys2Proof.Machine
end

