-- ==== Sys2Proof/Machine/Engine.lean ====
section
/-!
DEFINITION. Accesses of the engines that work for a hart: tile copies, bank commands and drains (R165 to R168). An
engine operation is a requester of its own, under its own number, so no strip store buffer stands between it and memory.
-/

namespace Sys2Proof.Machine

open Sys2Proof

/-- The windows an engine of R276 may not touch: bank-linear, scratchpad and control space. -/
def Window.isRefused : Window → Bool
  | .cached _ _ => false
  | .memSide _ _ => false
  | _ => true

/-- Checks a range line by line in ascending order, as R203 and R114 do for each page of it (R276, row 5). -/
def checkRange (who : Who) (acc : Access) (stop : Nat) : Nat → Nat → M Unit
  | 0, _ => pure ()
  | fuel + 1, va => do
    if va ≥ stop then pure ()
    else
      let fv := fun (s : State) (c : BitVec 8) =>
        { s.cause c (BitVec.ofNat 64 va) 1#64 (BitVec.ofNat 64 (stop - va)) with vec := true }
      let w ← M.access fv 0 (classify who (BitVec.ofNat 64 va) 1 acc)
      if w.isRefused then M.trap (fv (← get) 8#8)
      checkRange who acc stop fuel ((va / 128 + 1) * 128)

/-- Checks a byte range that a command reads or writes. -/
def M.range (acc : Access) (va : Word) (len : Nat) : M Unit := do
  let s ← get
  checkRange s.who acc (va.toNat + len) (len / 128 + 2) va.toNat

/-- The line that an engine reads: a cached one through its die's L2, past every L1 (R166, R312). -/
def engineLine (who : Who) (va size : Nat) : Window → A LineVal
  | .cached pa leaf => readL2 who va pa leaf 2
  | w => readLine who va size 2 w

/-- Reads `k` bytes that lie within one line: their number and whether their granules carry a mark. -/
def engineRead (who : Who) (va : Word) (k : Nat) : A (Nat × Bool) := do
  let w ← classify who va 1 .load
  let v ← engineLine who va.toNat k w
  let o := va.toNat % 128
  return (bitsOf v.data.toNat (8 * o) (8 * k), (List.range 4).any (fun g =>
    v.psn.getLsbD g && decide (32 * g < o + k) && decide (o < 32 * g + 32)))

/-- Reads bytes of a command's operand; the range has been checked, and a fault all the same is the command's. -/
def M.engineRead (va : Word) (k : Nat) : M (Nat × Bool) := do
  M.fork
  let s ← get
  M.access (fun t c => { t.cause c va 1#64 (BitVec.ofNat 64 k) with vec := true }) 0 (Machine.engineRead s.who va k)

/-- The L1 of a requester's core discards its copy of a line, unless it is pinned (R167). -/
def State.forgetL1 (s : State) (who : Who) (va : Nat) : State :=
  let asid := spaceOf who.asid (BitVec.ofNat 64 va)
  s.mapL1 (fun l => l.filter (fun c =>
    !(c.die == who.die && c.core == who.core && c.asid == asid && c.line == va / 128) || c.pin.isSome))

/-- Writes bytes within one line for an engine, with the poison they carry; the issuing core's L1 keeps no copy of the line
(R167). -/
def engineWrite (who : Who) (va : Word) (k : Nat) (v : Nat) (psn : Bool) : A Unit := do
  let w ← classify who va 1 .store
  let mask := byteMask va.toNat k
  let l := { (placeBytes va.toNat v false) with psn := if psn then touchedGranules mask else 0#4 }
  match w with
  | .scratch => modify (fun t => t.mapL1 (fun c => writeCore c who.die who.core who.asid (va.toNat / 128) l mask))
  | .cached pa leaf => do
    writeCached who va.toNat pa leaf l mask
    modify (fun t => t.forgetL1 who va.toNat)
  | .memSide pa _ => writeHome who (spaceOf who.asid va) pa l mask
  | .bankLinear pa => bankStore who pa l mask
  | .control _ => A.fault 8#8

/-- Writes a byte string for an engine, cut at the 32-byte granules: the number of bytes, then the bytes with the mark
of each. -/
def engineWrites (who : Who) : Nat → Word → List (Byte × Bool) → A Unit
  | 0, _, _ => pure ()
  | fuel + 1, va, l => do
    if l = [] then pure ()
    else
      let k := min l.length (32 - va.toNat % 32)
      let now := l.take k
      engineWrite who va k (natOfBytes (now.map (·.1))) (now.any (·.2))
      engineWrites who fuel (va + BitVec.ofNat 64 k) (l.drop k)

/-- Forgets the replies of an engine operation. -/
def State.dropReplies (s : State) (id : Nat) : State :=
  { s with engineReplies := s.engineReplies.filter (fun e => e.1 != id) }

end Sys2Proof.Machine
end

