-- ==== Sys2Proof/Machine/Operands.lean ====
section
/-!
DEFINITION. Vector operands: the mode register's fields (R175), activity (R231), specifiers and index registers
(R177 to R179), the order of a vector instruction's checks (R233), poisoned sources (R354) and the writing of results
(R230 to R232).
-/

namespace Sys2Proof.Machine

open Sys2Proof

/-! ## Modes and activity -/

/-- A mode register's fields (R175). -/
structure Mode where
  etype : Nat
  rm : Nat
  guard : Nat
  ginv : Bool
  zero : Bool
  sat : Bool
  slices : Nat
  tri : Bool
  deriving DecidableEq, Repr

/-- Reads the fields of a mode register (R175). -/
def modeOf (v : BitVec 32) : Mode :=
  { etype := bitsOf v.toNat 0 4, rm := bitsOf v.toNat 4 3, guard := bitsOf v.toNat 7 4, ginv := v.getLsbD 11,
    zero := v.getLsbD 12, sat := v.getLsbD 13, slices := bitsOf v.toNat 14 3, tri := v.getLsbD 17 }

/-- The selected mode of the hart in focus (R176). -/
def State.mode (s : State) (md : BitVec 2) : Mode := modeOf (s.hart.getMd md)

/-- The width of a mode's element type; a reserved code has none and counts as 8. -/
def Mode.width (m : Mode) : Nat := ((etypeOf m.etype).map EType.width).getD 8

/-- Element `e` is active (R231). -/
def Hart.active (h : Hart) (m : Mode) (e : Nat) : Bool :=
  decide (e < h.vl) && (m.guard == 15 || ((h.getM m.guard).getLsbD e != m.ginv))

/-- The type sets of R245: arithmetic, integer, signed, float, the float sources of R253 and any type. -/
def typesA (c : Nat) : Bool := c ≤ 11
def typesI (c : Nat) : Bool := c ≤ 7
def typesS (c : Nat) : Bool := c ≤ 3 || (8 ≤ c && c ≤ 11)
def typesF (c : Nat) : Bool := 8 ≤ c && c ≤ 11
def typesAny (c : Nat) : Bool := c ≤ 13

/-! ## Specifiers (R178) -/

/-- Fields of an index register (R177). -/
def ixBase (v : Word) : Nat := bitsOf v.toNat 0 6
def ixBound (v : Word) : Nat := bitsOf v.toNat 6 6
def ixCur (v : Word) : Nat := bitsOf v.toNat 12 6
def ixStep (v : Word) : Nat := bitsOf v.toNat 18 4
def ixLane (v : Word) : Bool := v.getLsbD 22
def ixLvec (v : Word) : Nat := bitsOf v.toNat 23 6

/-- The registers an operand names: one for all elements, or one for each element in per-lane mode. -/
inductive Regs where
  | one (r : Nat)
  | lanes (l : List Nat)
  deriving DecidableEq, Repr

/-- The register of element `e`. -/
def Regs.at (r : Regs) (e : Nat) : Nat :=
  match r with
  | .one k => k
  | .lanes l => l.getD e 0

/-- The index register that an indirect specifier names. -/
def Hart.ixOf (h : Hart) (spec : Nat) : Word := h.getIx (BitVec.ofNat 4 (spec - 48))

/-- The register of element `e` in per-lane mode (R178): BASE plus an offset of the instruction's element width. -/
def Hart.laneReg (h : Hart) (ix : Word) (w e : Nat) : Nat := ixBase ix + getElt (h.getV (ixLvec ix)) w e

/-- The registers of an operand before any check. -/
def Hart.regsOf (h : Hart) (w spec : Nat) : Regs :=
  if spec ≤ 47 then .one spec
  else
    let ix := h.ixOf spec
    if ixLane ix then .lanes ((List.range h.vl).map (h.laneReg ix w)) else .one (ixBase ix + ixCur ix)

/-- The check of element `e` of an operand (R29, R178): the register number that fails. -/
def Hart.regFails (h : Hart) (w spec e : Nat) : Option Nat :=
  if spec ≤ 47 then (if spec ≥ h.nregs then some spec else none)
  else
    let ix := h.ixOf spec
    if ixLane ix && decide (ixLvec ix ≥ h.nregs) then some (ixLvec ix)
    else
      let r := if ixLane ix then h.laneReg ix w e else ixBase ix + ixCur ix
      if r ≥ h.nregs ∨ r ≥ ixBound ix then some r else none

/-- An operand resolves element by element. -/
def Hart.perLane (h : Hart) (spec : Nat) : Bool := decide (48 ≤ spec) && ixLane (h.ixOf spec)

/-- The first failure of an operand: element, register and specifier. A direct specifier or a scalar-mode index
register fails at element 0, with no element active too, which the spec leaves open (log entry 57); a per-lane one at its
lowest active element that fails (R178, R366). -/
def Hart.specFails (h : Hart) (m : Mode) (w spec : Nat) : Option (Nat × Nat × Nat) :=
  if h.perLane spec then
    ((List.range h.vl).find? (fun e => h.active m e && (h.regFails w spec e).isSome)).map
      (fun e => (e, (h.regFails w spec e).getD 0, spec))
  else (h.regFails w spec 0).map (fun r => (0, r, spec))

/-- The failure reported for several operands: the lowest element, then the operand named first. -/
def firstFailure : List (Option (Nat × Nat × Nat)) → Option (Nat × Nat × Nat)
  | [] => none
  | none :: l => firstFailure l
  | some f :: l => match firstFailure l with
    | none => some f
    | some g => if g.1 < f.1 then some g else some f

/-- Checks the registers of an instruction's operands before any is accessed (R178, R233). -/
def checkRegs (m : Mode) (w : Nat) (specs : List Nat) : M Unit := do
  let h := (← get).hart
  match firstFailure (specs.map (h.specFails m w)) with
  | none => pure ()
  | some (e, r, spec) => M.vcause 9#8 (BitVec.ofNat 64 e) (BitVec.ofNat 64 r) (BitVec.ofNat 64 spec)

/-- Every register that the active elements of an operand name. -/
def Hart.named (h : Hart) (m : Mode) (r : Regs) : List Nat :=
  match r with
  | .one k => [k]
  | .lanes _ => ((List.range h.vl).filter (h.active m)).map r.at

/-- Two operands name a register in common. -/
def Hart.overlap (h : Hart) (m : Mode) (a b : Regs) : Bool := (h.named m a).any (fun r => (h.named m b).contains r)

/-- CUR of one index register advances by STEP modulo 64 (R179). -/
def stepCur (v : Word) : Word :=
  let cur := (toSigned 4 (ixStep v) + (ixCur v : Int)) % 64
  (v &&& ~~~0x3F000#64) ||| (BitVec.ofNat 64 cur.toNat <<< 12)

/-- The index registers that an instruction's operands name advance once each, in scalar mode (R179). -/
def Hart.stepIndices (h : Hart) (specs : List Nat) : Hart :=
  ((specs.filter (48 ≤ ·)).eraseDups).foldl (fun (g : Hart) (spec : Nat) =>
    let n := BitVec.ofNat 4 (spec - 48)
    let v := g.getIx n
    if ixLane v then g else g.setIx n (stepCur v)) h

/-! ## Poison of registers (R352, R354, R394) -/

/-- The granule of a vector register that element `e` of width `w` lies in. -/
def granuleOf (w e : Nat) : Nat := w * e / 256

/-- A furlong wrote this granule whole. -/
def Hart.ownV (h : Hart) (r g : Nat) : Bool := h.furlong.any (fun f => f.vGranules.getLsbD (1024 * r + g))
def Hart.ownM (h : Hart) (r g : Nat) : Bool := h.furlong.any (fun f => f.mGranules.getLsbD (16 * r + g))

/-- The open furlong has written a granule that is poisoned: a register's, or one of the strip store buffer (R394). -/
def Hart.ownPoison (h : Hart) : Bool :=
  h.vPsn.any (fun p => h.ownV p.1 p.2) || h.mPsn.any (fun p => h.ownM p.1 p.2) || h.strip.any (fun e => e.psn != 0#4)

/-- Poisoned granules that an instruction reads: an element of each, and whether the open furlong wrote it whole (R394). -/
abbrev Poisons := List (Nat × Bool)

/-- The poison among the elements read of a vector operand. -/
def Hart.poisonV (h : Hart) (r : Regs) (w : Nat) (es : List Nat) : Poisons :=
  if h.vPsn = [] then []
  else (es.filter (fun e => h.vPsn.contains (r.at e, granuleOf w e))).map (fun e => (e, h.ownV (r.at e) (granuleOf w e)))

/-- The poison among the bits below `n` of a mask register. -/
def Hart.poisonM (h : Hart) (r n : Nat) : Poisons :=
  (h.mPsn.filter (fun p => p.1 == r && decide (256 * p.2 < n))).map (fun p => (0, h.ownM p.1 p.2))

/-- The poison of the guard. -/
def Hart.poisonGuard (h : Hart) (m : Mode) : Poisons := if m.guard = 15 then [] else h.poisonM m.guard h.vl

/-- The poison of the offsets that per-lane operands read (R178). -/
def Hart.poisonLanes (h : Hart) (w : Nat) (es : List Nat) (specs : List Nat) : Poisons :=
  specs.flatMap (fun spec => if h.perLane spec then h.poisonV (.one (ixLvec (h.ixOf spec))) w es else [])

/-- A hart stops at the lowest poisoned element that an instruction reads, if there is one (R354). All that it reads, guard,
masks, indices and data, is judged together (R394). -/
def M.consume (l : Poisons) : M Unit := fun s =>
  match l with
  | [] => .ok ((), s)
  | p :: ps => .error (.poison s ((ps.map (·.1)).foldl min p.1) (l.all (·.2)))

/-! ## Results (R230, R231, R232) -/

/-- A result of each element below vl: none leaves the element as it stands. -/
abbrev Elems := List (Option Flagged)

/-- Results under the guard (R231): active elements by the function, the others zeroed or kept. -/
def guarded (m : Mode) (vl : Nat) (act : Nat → Bool) (f : Nat → Flagged) : Elems :=
  (List.range vl).map (fun e => if act e then some (f e) else if m.zero then some (0, 0#6) else none)

/-- Elements below the start of a resumed instruction keep their values (R39, R369). -/
def Elems.from (l : Elems) (start : Nat) : Elems := List.replicate (min start l.length) none ++ l.drop start

/-- A group of elements of which no two computations agree raises no flag (R393); `per` elements make a group. -/
def quietGroups {α : Type} (l : List (Option (α × BitVec 6))) (per : Nat) (gs : List Nat) : List (Option (α × BitVec 6)) :=
  if gs = [] then l
  else (List.range l.length).map (fun e =>
    if gs.contains (e / per) then (l.getD e none).map (fun v => (v.1, 0#6)) else l.getD e none)

/-- Lays elements over a register from element `e` up. -/
def layOver (r : VReg) (w : Nat) : Nat → Elems → VReg
  | _, [] => r
  | e, none :: l => layOver r w (e + 1) l
  | e, some v :: l => layOver (setElt r w e v.1) w (e + 1) l

/-- The granules that a run of results covers whole, from element `e` of width `w`. -/
def wholeWritten (w : Nat) (l : Elems) : List Nat :=
  let per := 256 / w
  (List.range (l.length / per)).filter (fun g => ((l.drop (g * per)).take per).all (·.isSome))

/-- Granules of a vector register are written whole: they lose their marks, and an open furlong notes them. -/
def Hart.noteV (h : Hart) (r : Nat) (gs : List Nat) : Hart :=
  let h1 := if h.vPsn = [] then h else { h with vPsn := h.vPsn.filter (fun p => !(p.1 == r && gs.contains p.2)) }
  match h1.furlong with
  | none => h1
  | some f => { h1 with furlong := some { f with vGranules := gs.foldl (fun b g => b ||| (1#49152 <<< (1024 * r + g))) f.vGranules } }

/-- The bits of a register up to the end of the highest element that results write. -/
def Elems.extent (w : Nat) (l : Elems) : Nat :=
  (List.range l.length).foldl (fun n e => if (l.getD e none).isSome then w * (e + 1) else n) 0

/-- One result in per-lane mode: into the register that its element names. R178 resolves active elements alone; the model
takes BASE + offset for the others too, checks no bound and drops a write at or above NREGS (log entry 58). -/
def Hart.writeLane (h : Hart) (d : Regs) (w e : Nat) (x : Option Flagged) : Hart :=
  match x with
  | some v => if d.at e < h.nregs then (h.setVTo (d.at e) (w * (e + 1)) (setElt (h.getV (d.at e)) w e v.1)).setPi (d.at e) h.vlMax else h
  | none => h

/-- Writes results into a vector operand (R231), whose progress index then is VLMAX (R32, R230); in per-lane mode each
element goes into its own register (R178). A granule that they cover whole in one register loses its mark (R352). -/
def Hart.writeElems (h : Hart) (d : Regs) (w : Nat) (l : Elems) : Hart :=
  match d with
  | .one r => ((h.setVTo r (l.extent w) (layOver (h.getV r) w 0 l)).setPi r h.vlMax).noteV r (wholeWritten w l)
  | .lanes _ =>
    let g := (List.range l.length).foldl (fun (g : Hart) (e : Nat) => g.writeLane d w e (l.getD e none)) h
    let per := 256 / w
    (wholeWritten w l).foldl (fun (g : Hart) (n : Nat) =>
      let r := d.at (n * per)
      if decide (r < h.nregs) && (List.range per).all (fun k => d.at (n * per + k) == r) then g.noteV r [n] else g) g

/-- Every granule of the destination of a group that no two computations agree on is poisoned (R393): of `n` elements of
width `dw`. -/
def Hart.spoil (h : Hart) (d : Regs) (dw per n : Nat) (gs : List Nat) : Hart :=
  if gs = [] then h
  else
    let bad := ((List.range n).filter (fun e => gs.contains (e / per))).map (fun e => (d.at e, granuleOf dw e))
    { h with vPsn := (bad.eraseDups.filter (fun p => decide (p.1 < h.nregs) && !h.vPsn.contains p)) ++ h.vPsn }

/-- The same of the bits of a mask register. -/
def Hart.spoilBits (h : Hart) (r per n : Nat) (gs : List Nat) : Hart :=
  if gs = [] then h
  else
    let bad := ((List.range n).filter (fun e => gs.contains (e / per))).map (fun e => (r, granuleOf 1 e))
    { h with mPsn := (bad.eraseDups.filter (fun p => !h.mPsn.contains p)) ++ h.mPsn }

/-- Writes bits into a mask register (R232). A granule of which they cover every bit that the register has is written whole
(R352, R394). -/
def Hart.writeBits (h : Hart) (r : Nat) (l : List (Option Bool)) : Hart :=
  let m := (List.range l.length).foldl (fun (v : MReg) (e : Nat) =>
    match l.getD e none with
    | some b => setBit v e b
    | none => v) (h.getM r)
  let gs := (List.range (max 1 (h.vlMax / 256))).filter (fun g =>
    (List.range (min 256 h.vlMax)).all (fun k => (l.getD (256 * g + k) none).isSome))
  let h1 := { (h.setM r m) with mPi := h.mPi.setIfInBounds r h.vlMax, mPsn := h.mPsn.filter (fun p => !(p.1 == r && gs.contains p.2)) }
  match h1.furlong with
  | none => h1
  | some f => { h1 with furlong := some { f with mGranules := gs.foldl (fun b g => b ||| (1#192 <<< (16 * r + g))) f.mGranules } }

end Sys2Proof.Machine
end

