-- ==== Sys2Proof/Machine/Flags.lean ====
section
/-!
DEFINITION. The flags that a vector instruction raises and the SAT-overflow trap (R80, R84, R174, R234).
-/

namespace Sys2Proof.Machine

open Sys2Proof

/-- The flags that the written elements raise together. -/
def Elems.flags (l : Elems) : BitVec 6 :=
  l.foldl (fun fl v => match v with
    | some x => fl ||| x.2
    | none => fl) 0#6

/-- The lowest element whose narrowing clamped (R80). -/
def Elems.clamped (l : Elems) : Option Nat :=
  (List.range l.length).find? (fun e => match l.getD e none with
    | some x => x.2.getLsbD 5
    | none => false)

/-- The SAT-overflow trap (R80): after the instruction, when it is enabled and an active element clamped. EPC names the
next instruction. -/
def satTrap (at' : Option Nat) : M Unit := fun s =>
  match at' with
  | some e =>
    if s.hart.csr.sove then
      .error (.trap s { s.cause 0x16#8 0#64 (BitVec.ofNat 64 e) 0#64 with vec := true })
    else .ok ((), s)
  | none => .ok ((), s)

/-- Commits a vector instruction: its flags are raised, index registers advance, and the PC moves on. -/
def commitVector (specs : List Nat) (fl : BitVec 6) : M Unit :=
  modify (fun s => ({ s with hart := (s.hart.raiseFlags fl).stepIndices specs }).advance)

end Sys2Proof.Machine
end

