-- ==== Sys2Proof/Machine/Vector.lean ====
section
/-!
DEFINITION. What every vector instruction that writes registers shares: its checks in the order of R233, its operands,
the writing of its results and its end (R230 to R234).
-/

namespace Sys2Proof.Machine

open Sys2Proof

/-- The operands of a vector instruction as its body reads them. -/
structure VIn where
  m : Mode
  w : Nat
  vl : Nat
  /-- element `e` is active -/
  act : Nat → Bool
  /-- element `e` of source `k` at its width -/
  src : Nat → Nat → Nat
  /-- element `e` of the destination as it stands -/
  old : Nat → Nat

/-- A source operand: its specifier, its element width when that is not the instruction's, and how many elements of the
instruction share one element of the source. -/
structure VSrc where
  spec : Nat
  width : Option Nat
  per : Nat

/-- A source read element by element at the instruction's width. -/
def VSrc.plain (b : BitVec 6) : VSrc := ⟨b.toNat, none, 1⟩

/-- How a vector instruction uses its operands. -/
structure VShape where
  /-- the types it accepts -/
  types : Nat → Bool
  /-- the destination's specifier -/
  dst : Nat
  srcs : List VSrc
  /-- pairs of specifiers that must name different registers (R233) -/
  apart : List (Nat × Nat)
  /-- every element below vl of a source is read, not the active ones alone -/
  whole : Bool
  /-- inactive elements are processed too (R247) -/
  selects : Bool
  /-- further destinations: checked as operands, and not read -/
  outs : List Nat := []

/-- A direct specifier breaks a distinctness rule (R233). -/
def VShape.clash (v : VShape) : Bool := v.apart.any (fun p => p.1 ≤ 47 && p.1 == p.2)

/-- The poison that an instruction reads of its sources. -/
def poisonOf (h : Hart) (w : Nat) (es : List Nat) (srcs : List VSrc) : Poisons :=
  srcs.flatMap (fun p => (h.poisonV (h.regsOf w p.spec) (p.width.getD w) (es.map (· / p.per))).map
    (fun q => (q.1 * p.per, q.2)))

/-- The checks of a vector instruction in the order of R233, and its operands. -/
def vectorIn (i : Instr) (md : BitVec 2) (v : VShape) : M VIn := do
  let s ← get
  let m := s.mode md
  if !i.wf || !v.types m.etype || v.clash then M.illegal i
  else
    let w := m.width
    let h := s.hart
    let mc := if v.selects then { m with guard := 15 } else m
    checkRegs mc w (v.dst :: v.srcs.map (·.spec) ++ v.outs)
    if v.apart.any (fun p => h.overlap mc (h.regsOf w p.1) (h.regsOf w p.2)) then M.illegal i
    else
      let es := if v.whole || v.selects then List.range h.vl else (List.range h.vl).filter (h.active m)
      M.consume (h.poisonGuard m ++ h.poisonLanes w es (v.dst :: v.srcs.map (·.spec) ++ v.outs) ++ poisonOf h w es v.srcs)
      let regs := v.srcs.map (fun p => (h.regsOf w p.spec, p.width))
      let rd := h.regsOf w v.dst
      return { m := m, w := w, vl := h.vl, act := h.active m,
               src := fun k e => match regs[k]? with
                 | some r => getElt (h.getV (r.1.at e)) (r.2.getD w) e
                 | none => 0,
               old := fun e => getElt (h.getV (rd.at e)) w e }

/-- Writes a vector result and ends the instruction, with the SAT trap when SAT may clamp (R80, R231). In checked mode a group
that no two computations agree on leaves poison and no flag (R393). -/
def vectorOut (v : VShape) (dw : Nat) (w : Nat) (sat : Bool) (l : Elems) : M Unit := do
  let h := (← get).hart
  let per := 2048 / w
  let l' : Elems := quietGroups (l.from h.startElem) per h.split
  let d := h.regsOf w v.dst
  modify (fun s => { s with hart := (s.hart.writeElems d dw l').spoil d dw per l'.length h.split })
  commitVector (v.dst :: v.srcs.map (·.spec)) l'.flags
  satTrap (if sat then l'.clamped else none)

/-- A vector instruction whose results are of the instruction's width. -/
def vectorOp (i : Instr) (md : BitVec 2) (v : VShape) (body : VIn → Elems) : M Unit := do
  let x ← vectorIn i md v
  vectorOut v x.w x.w x.m.sat (body x)

/-- An element-wise instruction under the guard. -/
def eachElem (f : VIn → Nat → Flagged) (x : VIn) : Elems := guarded x.m x.vl x.act (f x)

/-- The shape of an element-wise instruction with given sources. -/
def plainShape (types : Nat → Bool) (d : BitVec 6) (srcs : List (BitVec 6)) : VShape :=
  { types := types, dst := d.toNat, srcs := srcs.map VSrc.plain, apart := [], whole := false, selects := false }

/-- The shape of a permute: its destination differs from every source (R259). -/
def permShape (d : BitVec 6) (srcs : List (BitVec 6)) : VShape :=
  { types := typesAny, dst := d.toNat, srcs := srcs.map VSrc.plain,
    apart := srcs.map (fun b => (d.toNat, b.toNat)), whole := true, selects := false }

/-! ## Stores in pieces (R36, R264, R265, R352) -/

/-- A run of stores of one size that a vector or matrix instruction makes, one for each piece. -/
structure Pieces (α : Type) where
  /-- bytes of a piece -/
  size : Nat
  act : α → Bool
  addr : α → Word
  /-- the element it belongs to -/
  elem : α → Nat
  vals : α → State → BitVec 8 → FaultVals
  value : Hart → α → Nat
  /-- what is checked before it is stored (R203) -/
  check : α → M Unit

/-- A piece and those after it fill a 32-byte granule of memory, in ascending order. -/
def Pieces.fills {α : Type} (p : Pieces α) (l : List α) : Bool :=
  match l with
  | [] => false
  | k :: _ =>
    l.length == 32 / p.size && (p.addr k).toNat % 32 == 0 && l.all p.act
      && l.zipIdx.all (fun c => p.addr c.1 == p.addr k + BitVec.ofNat 64 (c.2 * p.size))

/-- A granule that consecutive pieces fill is stored whole, which clears its mark (R352): none of them fails its checks, and
the granule is no control space, whose registers are stored to one by one (R322, R330). -/
def Pieces.together {α : Type} (p : Pieces α) (who : Who) (k : α) (l : List α) : M Bool := fun s =>
  if !p.fills l then .ok (false, s)
  else match l.forM p.check s with
    | .error (.trap _ _) => .ok (false, s)
    | .error e => .error e
    | .ok (_, t) => match classify who (p.addr k) 32 .store t with
      | .ok (_, u) => .ok (true, u)
      | .error _ => .ok (false, s)

/-- Stores pieces in order, but for `skip` of them, which stand already in a granule stored whole. One that stops leaves
those before it performed, at its element (R264). -/
def storePieces {α : Type} (p : Pieces α) (who : Who) : Nat → List α → M Unit
  | _, [] => pure ()
  | skip + 1, _ :: l => storePieces p who skip l
  | 0, k :: l =>
    if !p.act k then storePieces p who 0 l
    else do
      modify (fun s => { s with hart := { s.hart with startElem := p.elem k } })
      p.check k
      let run := (k :: l).take (32 / p.size)
      let h := (← get).hart
      if ← p.together who k run then
        let v := run.zipIdx.foldl (fun n c => n + p.value h c.1 * 2 ^ (8 * p.size * c.2)) 0
        M.access (p.vals k) (p.elem k) (storeAt who (p.addr k) 32 v)
        storePieces p who (32 / p.size - 1) l
      else
        M.access (p.vals k) (p.elem k) (storeAt who (p.addr k) p.size (p.value h k))
        storePieces p who 0 l

end Sys2Proof.Machine
end

