-- ==== Sys2Proof/Machine/Tables.lean ====
section
/-!
DEFINITION. Bank sets and the commands to bank engines, major 0x39 (R275 to R287): their checks, what each captures at
issue and its entry into the queue of every bank of the set.
-/

namespace Sys2Proof.Machine

open Sys2Proof

/-! ## Bank sets (R180, R279) -/

def bsBank (v : Word) : Nat := bitsOf v.toNat 0 16
def bsRow (v : Word) : Nat := bitsOf v.toNat 16 14
def bsSpan (v : Word) : Nat := bitsOf v.toNat 30 14
def bsCount (v : Word) : Nat := bitsOf v.toNat 44 12 + 1

/-- The logical channel, die and stack of a bank id (R121, R279). -/
def bankChannel (b : Nat) : Nat := bitsOf b 3 11
def bankDie (b : Nat) : Nat := bitsOf b 14 2
def bankStack (b : Nat) : Nat := 4 * bankDie b + bankChannel b / 512

/-- The status of an NBSET, tested in the order of R279. -/
def State.bankSetStatus (s : State) (v : Word) : Nat :=
  let bl := s.blOf s.hart.asid
  let b := bsBank v
  let last := b + bsCount v - 1
  if bsSpan v = 0 ∨ bsRow v + bsSpan v > bl ∨ bl = 0 then 1
  else if last > 0xFFFF ∨ (List.range (bsCount v)).any (fun i => decide (bankChannel (b + i) > 2038)) ∨
      bankDie b ≠ bankDie last ∨ bankStack b ≠ bankStack last then 2
  else if bitsOf v.toNat 56 7 ≠ 0 then 3
  else if (List.range (bsCount v)).any (fun i => !(s.jobGet s.hart.asid (·.banks) 0#65536).getLsbD (b + i)) then 4
  else 0

/-- NBSET (R279). -/
def execNbset (d : BitVec 5) (m : BitVec 3) (a : BitVec 5) (s : State) : Res :=
  let v := s.getX a
  let st := s.bankSetStatus v
  let w := if st = 0 then v ||| (1#64 <<< 63) else 0#64
  .next ({ s with hart := s.hart.setBs m w }.result d (BitVec.ofNat 64 st))

/-- A bank-set register with V = 1, or cause 0x15 (R276, row 2). -/
def M.bankSet (m : BitVec 3) : M Word := do
  let v := (← get).hart.getBs m
  if v.getLsbD 63 then return v else M.vcause 0x15#8 0#64 (zext m) 0#64

/-! ## Issue (R275 to R277) -/

/-- Appends a command to the queue of every bank of a set; a full queue makes the hart wait (R275). -/
def M.issue (set : Word) (k : Nat) (op : Nat → BankOp) (drain : Option (Word × BitVec 256 × List (BitVec 8)))
    (stream : Bool) : M Unit := do
  M.fork
  let s ← get
  let banks := (List.range (bsCount set)).map (bsBank set + ·)
  if banks.any (fun b => decide ((s.bank b).queue.length ≥ 8)) then M.stall
  else
    let id := s.fresh
    let c : Cmd := { id := id, uid := s.hart.uid, asid := s.hart.asid, k := k, bank := bsBank set, count := bsCount set,
                     state := banks.map (fun b => (b, 0, false)), counted := 0, drain := drain, stream := stream, badSums := [] }
    let s1 := (List.range (bsCount set)).foldl (fun (t : State) (i : Nat) =>
      t.onBank (bsBank set + i) (fun b => { b with queue := b.queue ++ [⟨id, op i⟩] })) s
    StateT.set { s1 with cmds := s1.cmds ++ [c], fresh := id + 1 }

/-- Cause 0x04 of a bank command (R276, row 4); no rule gives its last two fault registers, which keep their values
(R366). -/
def M.aligned (va : Word) (n : Nat) : M Unit := do
  let f := (← get).hart.csr
  if va.toNat % n = 0 then pure () else M.vcause 4#8 va f.faultStride f.faultRemain

/-! ## CBLD, NBLD, NBRUN and LKA (R280, R282 to R284) -/

/-- The 16-byte codebooks that a CBLD reads for the first `n` banks. -/
def readCodebooks (va : Word) : Nat → M (List (Nat × Bool))
  | 0 => pure []
  | n + 1 => do
    let l ← readCodebooks va n
    let x ← M.engineRead (va + BitVec.ofNat 64 (16 * n)) 16
    return l ++ [x]

/-- CBLD (R280). -/
def execCbld (k : BitVec 4) (m : BitVec 3) (p : BitVec 1) (a : BitVec 5) (s : State) : Res := settle (do
  let s ← get
  let va := s.getX a
  let set ← M.bankSet m
  let n := if isSet p then bsCount set else 1
  M.aligned va 16
  M.range .load va (16 * n)
  let books ← readCodebooks va n
  let op := fun (i : Nat) => match books[if isSet p then i else 0]? with
    | some (v, bad) => BankOp.codebook (BitVec.ofNat 128 v) (if bad then ~~~0#16 else 0#16)
    | none => BankOp.codebook 0#128 0#16
  M.issue set k.toNat op none false
  M.advance) s

/-- NBLD (R283). -/
def execNbld (k : BitVec 4) (m : BitVec 3) (a : BitVec 5) (s : State) : Res := settle (do
  let s ← get
  let va := s.getX a
  let set ← M.bankSet m
  M.aligned va 128
  M.range .load va 128
  let books ← (List.range 4).mapM (fun (g : Nat) => M.engineRead (va + BitVec.ofNat 64 (32 * g)) 32)
  let data := setElts 0#1024 256 0 (books.map (·.1))
  let psn := setElts 0#64 16 0 (books.map (fun b => if b.2 then 65535 else 0))
  M.issue set k.toNat (fun _ => .store data psn) none false
  M.advance) s

/-- NBRUN (R284): a run block that is poisoned is consumed by the hart. -/
def execNbrun (k : BitVec 4) (m : BitVec 3) (a : BitVec 5) (s : State) : Res := settle (do
  let s ← get
  let va := s.getX a
  let set ← M.bankSet m
  M.aligned va 32
  M.range .load va 32
  let (v, bad) ← M.engineRead va 32
  if bad then fun t => .error (.poison t 0 false)
  else
    M.issue set k.toNat (fun _ => .run (BitVec.ofNat 256 v) (bsRow set) (bsSpan set)) none false
    M.advance) s

/-- LKA (R282). -/
def execLka (k : BitVec 4) (m : BitVec 3) (a : BitVec 5) (s : State) : Res := settle (do
  let s ← get
  let v := (s.getX a).toNat
  let start := bitsOf v 0 19
  let q := bitsOf v 20 9 + 1
  if bitsOf v 39 25 ≠ 0 ∨ v.testBit 29 ∨ v.testBit 19 then M.illegal (.lka k m a)
  else
    let set ← M.bankSet m
    if start + q > 32 * bsSpan set then M.vcause 8#8 s.hart.csr.faultVa s.hart.csr.faultStride s.hart.csr.faultRemain
    else
      M.issue set k.toNat (fun _ => .lookup start q (2 * bitsOf v 30 9) (bsRow set)) none false
      M.advance) s

/-! ## TBLD (R271, R281) -/

/-- A class field of a TBLD descriptor. -/
structure ClassReq where
  num : Nat
  en : Bool
  b : Nat
  g : Nat
  src : Nat
  tok : Nat
  deriving DecidableEq, Repr

/-- The four class fields. -/
def classReqs (w : Word) : List ClassReq :=
  (List.range 4).map (fun i =>
    let f := bitsOf w.toNat (10 * i) 10
    { num := i, en := f.testBit 0, b := bitsOf f 1 2 + 1, g := bitsOf f 3 3 + 1, src := bitsOf f 6 2, tok := bitsOf f 8 2 })

/-- A class is an index class. -/
def ClassReq.isIndex (c : ClassReq) : Bool := c.src == c.num

/-- The class fields break a rule of R281. -/
def badClasses (l : List ClassReq) : Bool :=
  !(l.any (·.en)) || l.any (fun c => c.en && (decide (c.src > c.num) || (decide (c.src < c.num) &&
    !(l.any (fun d => d.num == c.src && d.en && d.isIndex && d.b == c.b && d.g == c.g)))))

/-- Sub-arrays that a class occupies over a window. -/
def ClassReq.size (c : ClassReq) (kw : Nat) : Nat := (kw + c.g - 1) / c.g * pecksSize c.b c.g

/-- Sub-arrays that the pecks of an index class and of its replicas occupy. -/
def withReplicas (kw : Nat) (l : List ClassReq) (i : Nat) : Nat :=
  ((l.filter (fun c => c.en && c.src == i)).map (ClassReq.size · kw)).sum

/-- The class that the shrinking step chooses (R271): the one that occupies most, ties to the highest number. -/
def shrinkClass (kw : Nat) (l : List ClassReq) : Option Nat :=
  ((l.filter (fun c => c.en && c.isIndex && decide (c.g > 1))).map (·.num)).foldl (fun (m : Option Nat) (i : Nat) =>
    match m with
    | none => some i
    | some j => if withReplicas kw l j ≤ withReplicas kw l i then some i else some j) none

/-- Sets the group size of an index class and of its replicas. -/
def setGroup (l : List ClassReq) (i g : Nat) : List ClassReq := l.map (fun c => if c.src = i then { c with g := g } else c)

/-- The loop of R271: the classes and n, or the n and class that the trap reports. -/
def fitLoop (kw : Nat) (fit : Bool) : Nat → List ClassReq → Except (Nat × Nat) (List ClassReq × Nat)
  | 0, l => .ok (l, 16)
  | fuel + 1, l =>
    let n := ((l.filter (·.en)).map (ClassReq.size · kw)).sum
    if n ≤ 16 then .ok (l, n)
    else match shrinkClass kw l with
      | none => .error (n, 4)
      | some m =>
        if !fit then .error (n, m)
        else fitLoop kw fit fuel (setGroup l m (((l.find? (fun c => c.num == m)).elim 2 ClassReq.g) - 1))

/-- The group sizes of a shape (R271). -/
def fitShape (kw : Nat) (fit : Bool) (l : List ClassReq) : Except (Nat × Nat) (List ClassReq × Nat) :=
  let wide := (l.filter (fun c => c.en && c.isIndex && decide (c.b * c.g > 12)))
  match wide with
  | c :: _ => if !fit then .error (0, c.num)
              else fitLoop kw fit 40 (wide.foldl (fun m d => setGroup m d.num (12 / d.b)) l)
  | [] => fitLoop kw fit 40 l

/-- Sub-arrays in the order of R269: index classes first, then replicas, each in class order. -/
def assignSubs (kw : Nat) : Nat → List ClassReq → List ColClass
  | _, [] => []
  | n, c :: l => ⟨c.num, c.b, c.g, c.src, c.tok, n⟩ :: assignSubs kw (n + c.size kw) l

/-- The shape of a TBLD. -/
def shapeOf (kw : Nat) (l : List ClassReq) : Shape :=
  let en := l.filter (·.en)
  let placed := assignSubs kw 0 (en.filter (·.isIndex) ++ en.filter (fun c => !c.isIndex))
  { classes := (List.range 4).filterMap (fun i => placed.find? (fun c => c.num == i)), kw := kw }

/-- The positions of a window that a class takes from its activation vector in slice `r` (R281). -/
def windowElems (kw ks tok r : Nat) : List Nat := (List.range kw).map (fun p => (tok * 2 ^ ks + r % 2 ^ ks) * kw + p)

/-- TBLD (R281). The va operand's poison is not consumed but marks its pecks (R354). -/
def execTbld (m : BitVec 2) (f : BitVec 1) (d : BitVec 5) (v : BitVec 6) (c : BitVec 5) (s : State) : Res := settle (do
  let s ← get
  let i : Instr := .tbld m f d v c
  let md := s.mode m
  let d0 := (s.getX c).toNat
  let d1 := s.getX (c + 1#5)
  let reqs := classReqs d1
  if !i.wf ∨ md.etype ≠ 0 ∨ bitsOf d0 27 37 ≠ 0 ∨ d0.testBit 23 ∨ d0.testBit 3 ∨ bitsOf d1.toNat 40 24 ≠ 0 ∨ badClasses reqs then
    M.illegal i
  else
    let set ← M.bankSet (BitVec.ofNat 3 d0)
    checkRegs md 8 [v.toNat]
    let kw := bitsOf d0 16 7 + 1
    match fitShape kw (isSet f) reqs with
    | .error (n, k) => M.vcause 0xC#8 0#64 (BitVec.ofNat 64 n) (BitVec.ofNat 64 k)
    | .ok (l, n) =>
      let h := s.hart
      M.consume (h.poisonGuard md ++ h.poisonLanes 8 ((List.range h.vl).filter (h.active md)) [v.toNat])
      let regs := h.regsOf 8 v.toNat
      let z := toSigned 8 (bitsOf d0 8 8)
      let ks := bitsOf d0 24 3
      let sh := shapeOf kw l
      let diff := fun (e : Nat) => if h.active md e then toSigned 8 (getElt (h.getV (regs.at e)) 8 e) - z else 0
      let bad := fun (e : Nat) => h.active md e && h.vPsn.contains (regs.at e, granuleOf 8 e)
      M.issue set (bitsOf d0 4 4) (fun r => .build sh
        (sh.classes.map (fun k => (windowElems kw ks k.tok r).map diff))
        (sh.classes.map (fun k => (windowElems kw ks k.tok r).map bad))) none false
      let g := fun (j : Nat) => (l.find? (fun k => k.num == j && k.en)).elim 0 ClassReq.g
      modify (fun t => t.setX d (BitVec.ofNat 64 (g 0 + 16 * g 1 + 256 * g 2 + 4096 * g 3 + 65536 * n)))
      commitVector [v.toNat] 0#6) s

/-! ## NBSTAT (R285) -/

/-- The status bits of one bank. -/
def State.bankStatus (s : State) (b : Nat) : Nat :=
  let k := s.bank b
  let bit := fun (v : Bool) (n : Nat) => if v then 2 ^ n else 0
  let busy := k.queue != [] || k.run != .idle
  bit k.sat 0 + bit k.rsat 1 + bit k.err 2 + bit busy 3 + bit (k.susp || s.bankHeld b) 4 + k.flags.toNat * 32

/-- Clears what an NBSTAT with CLEAR clears. -/
def Bank.clearStatus (k : Bank) : Bank := { k with sat := false, rsat := false, err := false, errCode := 0, flags := 0 }

/-- NBSTAT (R285). -/
def execNbstat (d : BitVec 5) (m : BitVec 3) (c : BitVec 1) (s : State) : Res := settle (do
  let set ← M.bankSet m
  let s ← get
  let banks := (List.range (bsCount set)).map (bsBank set + ·)
  let bits := banks.foldl (fun (a b : Nat) => a ||| s.bankStatus b) 0
  let err := match banks.find? (fun b => (s.bank b).err) with
    | some b => (s.bank b).errCode.toNat * 65536 + b * 16777216
    | none => 0
  let s1 := if isSet c then banks.foldl (fun (t : State) (b : Nat) => t.onBank b Bank.clearStatus) s else s
  StateT.set (s1.result d (BitVec.ofNat 64 (bits + err)))) s

/-! ## NBDRAIN (R276, R286) -/

/-- Fields of the control word. -/
def drFirst (w : Word) : Nat := bitsOf w.toNat 0 10
def drCount (w : Word) : Nat := bitsOf w.toNat 10 11
def drForm (w : Word) : Nat := bitsOf w.toNat 21 2
def drClear (w : Word) : Bool := w.getLsbD 23
def drVd (w : Word) : Nat := bitsOf w.toNat 24 6
def drK (w : Word) : Nat := bitsOf w.toNat 30 4
/-- The width of a delivered element. -/
def drWidth (w : Word) : Nat := if drForm w = 1 then 64 else 32
/-- Fields of the drain block. -/
def blDst (b : BitVec 256) : Word := b.extractLsb' 0 64
def blShifts (b : BitVec 256) : Word := b.extractLsb' 64 64
def blScale (b : BitVec 256) : Nat := (b.extractLsb' 128 32).toNat

/-- Cause 0x01 of an NBDRAIN (R286). -/
def badDrain (h : Hart) (w : Word) (stream : Bool) (a : BitVec 5) : Bool :=
  drCount w == 0 || decide (drFirst w + drCount w > 1024) || bitsOf w.toNat 34 30 != 0 || (stream && drForm w == 3)
    || (!stream && drVd w != 0) || decide (drVd w ≥ 48) || decide (drCount w * drWidth w > 64 * h.vlMax)
    || (a == 0#5 && !(drForm w == 3 || (stream && decide (drForm w ≤ 1))))

/-- The shifts of a drain, one byte each. -/
def readShifts (va : Word) : Nat → M (List (BitVec 8))
  | 0 => pure []
  | n + 1 => do
    let l ← readShifts va n
    let (v, bad) ← M.engineRead (va + BitVec.ofNat 64 n) 1
    if bad then fun t => .error (.poison t 0 false) else return l ++ [BitVec.ofNat 8 v]

/-- NBDRAIN (R286): the block and the shifts are read and captured at issue; poison in them is consumed by the hart. -/
def execNbdrain (st : BitVec 1) (c : BitVec 5) (m : BitVec 3) (a : BitVec 5) (s : State) : Res := settle (do
  let s ← get
  let w := s.getX c
  let stream := isSet st
  if badDrain s.hart w stream a then M.illegal (.nbdrain st c m a)
  else
    let set ← M.bankSet m
    if stream ∧ drVd w ≥ s.hart.nregs then M.vcause 9#8 0#64 (BitVec.ofNat 64 (drVd w)) (BitVec.ofNat 64 (drVd w))
    let va := s.getX a
    let block ← if a = 0#5 then pure 0#256 else do
      M.aligned va 32
      M.range .load va 32
      let (v, bad) ← M.engineRead va 32
      if bad then fun t => .error (.poison t 0 false) else pure (BitVec.ofNat 256 v)
    let toMem := !stream && drForm w != 3
    if drForm w != 3 then M.aligned (blDst block) (drWidth w / 8)
    let useShifts := drForm w == 2 && blShifts block != 0#64
    if useShifts then M.range .load (blShifts block) (drCount w)
    if toMem then M.range .store (blDst block) (drCount w * (drWidth w / 8))
    let shifts ← if useShifts then readShifts (blShifts block) (drCount w) else pure []
    M.issue set (drK w) (fun _ => .drain) (some (w, block, shifts)) stream
    if stream then modify (fun t => { t with hart := { t.hart with vPi := t.hart.vPi.setIfInBounds (drVd w) 0 } })
    M.advance) s

end Sys2Proof.Machine
end

