-- ==== Sys2Proof/Machine/BankEngine.lean ====
section
/-!
DEFINITION. What bank engines and the reduction unit do: the start and the end of commands (R275, R277), the µops
(R288 to R290), drains (R287), and the sharing of a bank with ordinary requests (R292 to R294).
-/

namespace Sys2Proof.Machine

open Sys2Proof

/-! ## Starting a command (R275, R280 to R284) -/

/-- The weight of codebook entry `n`. -/
def Bank.weight (k : Bank) (n : Nat) : Int := toSigned 8 (getElt k.codebook 8 n)

/-- The differences of a k-group: position by position, zero beyond the window (R268). -/
def groupOf {α : Type} (c : ColClass) (l : List α) (j : Nat) : List α := (l.drop (j * c.g)).take c.g

/-- Entry `p` of a peck (R98). -/
def Bank.peck (k : Bank) (b p : Nat) : Nat → List Int → Int
  | _, [] => 0
  | j, d :: l => k.weight (bitsOf p (b * j) b) * d + k.peck b p (j + 1) l

/-- Entry `p` uses a marked codebook entry (R353). -/
def Bank.peckPsn (k : Bank) (b p : Nat) (n : Nat) : Bool :=
  (List.range n).any (fun j => k.codebookPsn.getLsbD (bitsOf p (b * j) b))

/-- The entries of a class with their bushel positions, values and marks. -/
def Bank.classEntries (k : Bank) (kw : Nat) (c : ColClass) (d : List Int) (psn : List Bool) : List (Nat × Int × Bool) :=
  (List.range (c.pecks kw)).flatMap (fun j =>
    let ds := groupOf c d j
    let bad := (groupOf c psn j).any id
    (List.range (2 ^ (c.b * c.g))).map (fun p => (c.entry j p, k.peck c.b p 0 ds, bad || k.peckPsn c.b p ds.length)))

/-- A TBLD in one bank (R281, R389): its shape and its whole bushel are replaced, each entry with its residue. -/
def Bank.build (k : Bank) (sh : Shape) (d : List (List Int)) (psn : List (List Bool)) : Bank :=
  let es := (List.range sh.classes.length).flatMap (fun o =>
    match sh.classes[o]? with
    | some c => k.classEntries sh.kw c (d.getD o []) (psn.getD o [])
    | none => [])
  let bushel := es.foldl (fun (v : BitVec 98304) (e : Nat × Int × Bool) => setElt v 24 e.1 (ofSigned 24 e.2.1)) 0#98304
  let marks := es.foldl (fun (v : BitVec 4096) (e : Nat × Int × Bool) => if e.2.2 then setBit v e.1 true else v) 0#4096
  let res := es.foldl (fun (v : BitVec 8192) (e : Nat × Int × Bool) =>
    setElt v 2 e.1 (residue (toSigned 24 (ofSigned 24 e.2.1)))) 0#8192
  { k with shape := some sh, bushel := bushel, bushelPsn := marks, bushelRes := res }

/-- A run block with a reserved bit set (R284). -/
def badRunBlock (b : BitVec 256) : Bool :=
  let n := b.toNat
  (List.range 4).any (fun i => bitsOf n (16 * i + 14) 2 != 0) || bitsOf n (8 * 0xC + 10) 6 != 0
    || bitsOf n (8 * 0x12 + 6) 2 != 0 || bitsOf n (8 * 0x13) 104 != 0

/-- The run registers from a run block (R284). -/
def Bank.loadRun (k : Bank) (cmd : Nat) (b : BitVec 256) (row span : Nat) : Bank :=
  let n := b.toNat
  { k with p := #v[b.extractLsb' 0 14, b.extractLsb' 16 14, b.extractLsb' 32 14, b.extractLsb' 48 14],
           lc := #v[b.extractLsb' 64 16, b.extractLsb' 80 16], ab := b.extractLsb' 96 10, qb := b.extractLsb' 112 16,
           qn := b.extractLsb' 128 16, upc := bitsOf n (8 * 0x12) 6, run := .program cmd row span }

/-- A bank starts its next command; one that holds no row operation ends at once. -/
def State.startCommand (s : State) (b : Nat) (c : BankCmd) : State :=
  let s1 := s.onBank b (fun k => { k with queue := k.queue.drop 1, resumed := false })
  match c.op with
  | .codebook data psn => (s1.onBank b (fun k => { k with codebook := data, codebookPsn := psn })).cmdEnded b c.cmd
  | .build sh d psn => (s1.onBank b (fun k => k.build sh d psn)).cmdEnded b c.cmd
  | .store data psn => (s1.onBank b (fun k => { k with micro := data, microPsn := psn })).cmdEnded b c.cmd
  | .lookup start q abase row =>
    if (s1.bank b).shape.isNone then (s1.onBank b (·.record 3)).cmdEnded b c.cmd
    else s1.onBank b (fun k => { k with run := .lookup c.cmd start q abase row 0 })
  | .run block row span =>
    if badRunBlock block then (s1.onBank b (·.record 7)).cmdEnded b c.cmd
    else s1.onBank b (fun k => k.loadRun c.cmd block row span)
  | .drain => s

/-- BANK_COMMAND_START (R275): a drain waits for the reduction unit. -/
def execBankCommandStart (bank : Nat) (s : State) : Res :=
  let k := s.bank bank
  if k.run ≠ .idle then .next s
  else match k.queue with
    | [] => .next s
    | c :: _ => .next (s.startCommand bank c)

/-- BANK_COMMAND_COMPLETE (R277): every bank of the set has finished; kN takes its last count. -/
def execBankCommandComplete (cmd : Nat) (s : State) : Res :=
  match s.cmdOf cmd with
  | none => .next s
  | some c =>
    if !c.ended || s.unacked cmd then .next s
    else
      let top := (c.state.map (fun e => e.2.1)).foldl max 0
      let s1 := s.countTo c (top + 1)
      .next { s1 with cmds := s1.cmds.filter (fun d => d.id != cmd) }

/-! ## µops (R288 to R290) -/

/-- The width and the number of the elements of a row for W (R288). -/
def rowWidth (w : BitVec 2) : Nat := match w.toNat with | 0 => 8 | 1 => 16 | _ => 32

/-- The µop is done: µPC moves on. -/
def Bank.nextUop (k : Bank) : Bank := { k with upc := k.upc + 1 }

/-- A row pointer. -/
def Bank.ptr (k : Bank) (n : BitVec 2) : BitVec 14 := k.p[n.toNat]'(have := n.isLt; by omega)

/-- INC: the pointer moves on, modulo 2^14 (R289). -/
def Bank.incPtr (k : Bank) (n : BitVec 2) (inc : BitVec 1) : Bank :=
  if isSet inc then { k with p := k.p.set n.toNat (k.ptr n + 1#14) (have := n.isLt; by omega) } else k

/-- A row with its marks. -/
structure RowVal where
  data : BitVec 8192
  psn : BitVec 32

/-- A row µop (R289): the pointer's check, the row operation, the increment. A body that gives no row writes none. -/
def State.rowOp (s : State) (n : BitVec 2) (inc : BitVec 1) (f : Bank → RowVal → Bank × Option RowVal) : State :=
  let b := s.bankSel
  let k := s.bank b
  match k.run with
  | .program _ row span =>
    if (k.ptr n).toNat ≥ span then s.endRun b (some 2#8)
    else
      let r := row + (k.ptr n).toNat
      let (k1, out) := f k ⟨s.rowData b r, s.rowPsn b r⟩
      let s1 := (s.setBank b { ((k1.incPtr n inc).nextUop) with resumed := false }).logResidues b
      match out with
      | some v => s1.putRow b r v.data v.psn
      | none => s1
  | _ => s

/-- A µop whose W is reserved ends the run with error 1 (R290). -/
def State.badW (s : State) : State := s.endRun s.bankSel (some 1#8)

/-- Saturates to a signed width: the value's bits and whether it clamped (R289). -/
def satTo (w : Nat) (v : Int) : Nat × Bool :=
  let lo : Int := -(2 ^ (w - 1) : Nat)
  let hi : Int := (2 ^ (w - 1) : Nat) - 1
  if v < lo then (ofSigned w lo, true) else if v > hi then (ofSigned w hi, true) else (ofSigned w v, false)

/-- Adds to every element of a row a function of the latch element (RADD, RSHADD). -/
def Bank.addRow (k : Bank) (w : Nat) (f : Int → Int) (r : RowVal) : Bank × Option RowVal :=
  let rs := (List.range (8192 / w)).map (fun e =>
    satTo w (toSigned w (getElt r.data w e) + f (toSigned w (getElt k.latch w e))))
  let data := setElts 0#8192 w 0 (rs.map (·.1))
  (if rs.any (·.2) then { k with sat := true } else k, some ⟨data, r.psn ||| k.latchPsn⟩)

/-- The latch element of an RSHADD (R289): exact for SH ≥ 0, else rounded to nearest, ties to even. -/
def shifted (sh : Int) (neg : Bool) (x : Int) : Int :=
  let t := if 0 ≤ sh then x * (2 ^ sh.toNat : Nat) else (roundInt 0 (decide (x < 0)) x.natAbs sh).1
  if neg then -t else t

/-- RACT (R289). -/
def execRact (n : BitVec 2) (i : BitVec 1) (s : State) : Res :=
  .next (s.rowOp n i (fun k r => ({ k with latch := r.data, latchPsn := r.psn }, none)))

/-- A row µop with a width: the pointer is checked first, then a reserved W (R289, R290). -/
def State.rowOpW (s : State) (n : BitVec 2) (inc : BitVec 1) (w : BitVec 2) (f : Bank → RowVal → Bank × Option RowVal) : State :=
  let k := s.bank s.bankSel
  match k.run with
  | .program _ _ span => if (k.ptr n).toNat < span ∧ w = 3#2 then s.badW else s.rowOp n inc f
  | _ => s

/-- RADD (R289). -/
def execRadd (n : BitVec 2) (i : BitVec 1) (w : BitVec 2) (s : State) : Res :=
  .next (s.rowOpW n i w (fun k r => k.addRow (rowWidth w) id r))

/-- RSHADD (R289). -/
def execRshadd (n : BitVec 2) (i : BitVec 1) (w : BitVec 2) (sh : BitVec 4) (g : BitVec 1) (s : State) : Res :=
  .next (s.rowOpW n i w (fun k r => k.addRow (rowWidth w) (shifted sh.toInt (isSet g)) r))

/-- RCOPY (R289). -/
def execRcopy (n : BitVec 2) (i : BitVec 1) (s : State) : Res :=
  .next (s.rowOp n i (fun k _ => (k, some ⟨k.latch, k.latchPsn⟩)))

/-- RCLR (R289). -/
def execRclr (n : BitVec 2) (i : BitVec 1) (s : State) : Res :=
  .next (s.rowOp n i (fun k _ => (k, some ⟨0#8192, 0#32⟩)))

/-- RACC (R289). -/
def execRacc (n : BitVec 2) (i : BitVec 1) (w : BitVec 2) (s : State) : Res :=
  .next (s.rowOpW n i w (fun k r =>
    let wd := rowWidth w
    ((List.range (8192 / wd)).foldl (fun (k1 : Bank) (e : Nat) =>
      let v := toSigned wd (getElt r.data wd e)
      k1.addAcc ((k.ab.toNat + e) % 1024) v (residue v) (r.psn.getLsbD (e * wd / 256))) k, none)))

/-- RLKA (R289): without a shape it records error 3 and is skipped (R291). -/
def execRlka (n : BitVec 2) (i : BitVec 1) (s : State) : Res :=
  let b := s.bankSel
  let k := s.bank b
  match k.run with
  | .program _ _ span =>
    if (k.ptr n).toNat < span ∧ k.shape.isNone then .next (s.setBank b (k.record 3).nextUop)
    else .next (s.rowOp n i (fun k r =>
      match k.shape with
      | none => (k, none)
      | some sh =>
        let hi := min 32 (k.qn.toNat - k.qb.toNat)
        ({ (k.lookupRow sh r.data r.psn 0 hi k.qb.toNat k.qn.toNat k.ab.toNat) with qb := k.qb + 32#16 }, none)))
  | _ => .next s

/-- The bank whose µop executes runs a microprogram. -/
def Bank.inProgram (k : Bank) : Bool :=
  match k.run with
  | .program _ _ _ => true
  | _ => false

/-- RBR (R290). -/
def execRbr (t : BitVec 6) (s : State) : Res :=
  .next (if (s.bank s.bankSel).inProgram then s.onBank s.bankSel (fun k => { k with upc := t.toNat }) else s)

/-- RLOOP (R290). -/
def execRloop (c : BitVec 1) (t : BitVec 6) (s : State) : Res :=
  .next (if (s.bank s.bankSel).inProgram then s.onBank s.bankSel (fun k =>
    let v := k.lc[c.toNat]'(have := c.isLt; by omega) - 1#16
    let k1 := { k with lc := k.lc.set c.toNat v (have := c.isLt; by omega) }
    if v = 0#16 then k1.nextUop else { k1 with upc := t.toNat }) else s)

/-- RSYNC (R290): the sync point is counted once the whole set has passed it. -/
def execRsync (s : State) : Res :=
  match (s.bank s.bankSel).run with
  | .program cmd _ _ => .next ((s.onBank s.bankSel Bank.nextUop).cmdSync s.bankSel cmd)
  | _ => .next s

/-- REND (R290). -/
def execRend (s : State) : Res :=
  .next (if (s.bank s.bankSel).inProgram then s.endRun s.bankSel none else s)

/-! ## Drains (R287, R390) -/

/-- The exact sum of a column over the banks of a set, with the mark of its accumulators. -/
def State.columnSum (s : State) (c : Cmd) (j : Nat) : Int × Bool :=
  (List.range c.count).foldl (fun (a : Int × Bool) (i : Nat) =>
    let k := s.bank (c.bank + i)
    (a.1 + k.accAt j, a.2 || k.accPsn.getLsbD j)) (0, false)

/-- A drain compares the residues of the accumulators it reads (R389): a mismatch is recorded, poisons its accumulator
and is logged. -/
def State.checkResidues (s : State) (c : Cmd) (js : List Nat) : State :=
  (List.range c.count).foldl (fun (t : State) (i : Nat) =>
    (js.filter (t.bank (c.bank + i)).badResidue).foldl (fun (u : State) (j : Nat) =>
      let u1 := u.onBank (c.bank + i) (fun k => k.mismatch j)
      u1.bankError (u1.channelBank (c.bank + i)) true true 4#8 0 (BitVec.ofNat 64 j) 0#64) t) s

/-- The sum of a column as the reduction unit forms it: an error of the unit leaves a value that its residue gives away
(R390). -/
def State.formedSum (s : State) (c : Cmd) (j : Nat) : Int × Bool :=
  let (v, p) := s.columnSum c j
  (if c.badSums.contains j then v + 1 + 3 * ((Config.freeByte (s.tick * 2 ^ 64 + j)).toNat : Int) else v, p)

/-- The residue that the unit predicts for a column sum: from the residues of the accumulators it adds (R390). -/
def State.predicted (s : State) (c : Cmd) (j : Nat) : Nat :=
  (((List.range c.count).map (fun i => getElt (s.bank (c.bank + i)).accRes 2 j)).sum) % 3

/-- The residue of a column sum is not the one predicted. -/
def State.badSum (s : State) (c : Cmd) (j : Nat) : Bool := residue (s.formedSum c j).1 != s.predicted c j

/-- A column sum as the unit delivers it: poisoned when its residue is not the one predicted (R390). -/
def State.drainSum (s : State) (c : Cmd) (j : Nat) : Int × Bool :=
  let (v, p) := s.formedSum c j
  (v, p || s.badSum c j)

/-- The error bank of the base die under a stack (R345). -/
def baseBank (die stack : Nat) : BitVec 32 := bankIdOf die 6 (stack % 4)

/-- The reduction unit that drains a set is that of the base die of the set's first bank (log entry 59). -/
def Cmd.baseBank (c : Cmd) : BitVec 32 := Machine.baseBank (c.bank / 16384) (c.bank / 4096)

/-- The mismatches of a drain's column sums are logged in the base-die bank, class 2 with TYPE 0x04 (R390). -/
def State.checkSums (s : State) (c : Cmd) (js : List Nat) : State :=
  (js.filter (s.badSum c)).foldl (fun (t : State) (j : Nat) =>
    t.bankError c.baseBank true true 4#8 c.asid (BitVec.ofNat 64 j) 0#64) s

/-- What one column delivers: its bits, RSAT, the flags, error 4. -/
def drainValue (form : Nat) (shift : Int) (scale : Nat) (sum : Int) : Nat × Bool × BitVec 6 × Bool :=
  match form with
  | 0 => let (v, c) := clamp32 sum; (ofSigned 32 v, c, 0#6, false)
  | 1 => (ofSigned 64 sum, false, 0#6, false)
  | _ =>
    let h := if shift < -32 then -32 else if shift > 31 then 31 else shift
    let (p, f1) := mulV (.fin (decide (sum < 0)) sum.natAbs h) (decodeF fmtF32 scale)
    let (y, f2) := packF fmtF32 0 p
    (y, false, f1 ||| f2, decide (shift < -32) || decide (shift > 31))

/-- Every bank of a command's set changes. -/
def State.onSet (s : State) (c : Cmd) (f : Bank → Bank) : State :=
  (List.range c.count).foldl (fun (t : State) (i : Nat) => t.onBank (c.bank + i) f) s

/-- The drain has ended in every bank of its set. -/
def State.drainEnded (s : State) (c : Cmd) : State :=
  (List.range c.count).foldl (fun (t : State) (i : Nat) => t.cmdEnded (c.bank + i) c.id) s

/-- Elements of a stream drain into a vector register of its hart (R287). -/
def Hart.deliver (h : Hart) (vd w : Nat) (es : List (Nat × Bool)) : Hart :=
  let v := setElts (h.getV vd) w 0 (es.map (·.1))
  let whole := (List.range (es.length * w / 256))
  let bad := ((List.range es.length).filter (fun n => (es.getD n (0, false)).2)).map (fun n => (vd, n * w / 256))
  let h1 := { (h.setVTo vd (w * es.length) v) with vPi := h.vPi.setIfInBounds vd h.vlMax }
  { h1 with vPsn := (h1.vPsn.filter (fun p => !(p.1 == vd && whole.contains p.2))) ++ bad.eraseDups }

/-- The elements a drain delivers, with their marks. -/
def drainElems (w : Word) (sums : List (Int × Bool)) (vals : List (Nat × Bool × BitVec 6 × Bool)) : List (Nat × Bool) :=
  if drForm w = 3 then [] else (List.range sums.length).map (fun n => ((vals.getD n (0, false, 0#6, false)).1, (sums.getD n (0, false)).2))

/-- The bytes of a memory drain, each with the mark of its element. -/
def drainBytes (w : Word) (es : List (Nat × Bool)) : List (Byte × Bool) :=
  es.flatMap (fun e => (bytesOfNat (drWidth w / 8) e.1).map (fun b => (b, e.2)))

/-- A command as a requester: under its own number, from the core of its hart. -/
def State.engineWho (s : State) (c : Cmd) : Who :=
  match s.hartOf c.uid with
  | some h => ⟨c.id, h.place.die, h.place.core, c.asid⟩
  | none => ⟨c.id, 0, 0, c.asid⟩

/-- REDUCTION_DRAIN (R287). A drain whose destination has become inaccessible since its checks writes nothing. -/
def execReductionDrain (cmd : Nat) (s : State) : Res :=
  match s.cmdOf cmd with
  | none => .next s
  | some c =>
    match c.drain with
    | none => .next s
    | some (w, block, shifts) =>
      if !s.drainDue c then .next s
      else if (block.extractLsb' 160 96) ≠ 0#96 then
        -- nothing is performed (R291), and no stream produces vd any more (R32)
        let t := if c.stream then s.onHart c.uid (fun h => h.setPi (drVd w) h.vlMax) else s
        .next ((t.onSet c (·.record 7)).drainEnded c)
      else
        let js := (List.range (drCount w)).map (drFirst w + ·)
        let checked := fun (t : State) => if drForm w = 3 then t else (t.checkResidues c js).checkSums c js
        let sums := js.map ((checked s).drainSum c)
        let vals := (List.range sums.length).map (fun n =>
          drainValue (drForm w) ((shifts.getD n 0#8).toInt) (blScale block) (sums.getD n (0, false)).1)
        let es := drainElems w sums vals
        let rsat := drForm w != 3 && vals.any (fun v => v.2.1)
        let fl : BitVec 5 := (vals.foldl (fun (f : BitVec 6) (v : Nat × Bool × BitVec 6 × Bool) => f ||| v.2.2.1) 0#6).setWidth 5
        let err4 := drForm w == 2 && vals.any (fun v => v.2.2.2)
        let clears := drClear w || drForm w == 3
        let note := fun (k : Bank) =>
          let k1 := if clears then js.foldl (fun (b : Bank) (j : Nat) => b.putAcc j 0 false) k else k
          let k2 := if err4 then k1.record 4 else k1
          { k2 with rsat := k2.rsat || rsat, flags := if drForm w = 2 then k2.flags ||| fl else k2.flags }
        if c.stream then
          let s1 := (checked s).onHart c.uid (fun h => h.deliver (drVd w) (drWidth w) es)
          let s2 := (s1.onSet c note).drainEnded c
          -- a poisoned element delivered into a register is consumed by its hart (R354)
          if es.any (·.2) then .next (s2.withHart c.uid (fun t => t.poisonEndsJob t.hart)) else .next s2
        else if drForm w = 3 then .next (((checked s).onSet c note).drainEnded c)
        else
          match engineWrites (s.engineWho c) 4096 (blDst block) (drainBytes w es) s with
          | .ok (_, s1) => .next ((((checked s1).onSet c note).drainEnded c).dropReplies c.id)
          | .error (.wait s1) => .next s1
          | .error _ => .next (((checked s).onSet c note).drainEnded c)

/-! ## Row boundaries and ordinary requests (R292 to R294) -/

/-- One row of a lookup run (R273, R274); the run ends with its last access. -/
def State.lookupStep (s : State) (b : Nat) : State :=
  let k := s.bank b
  match k.run, k.shape with
  | .lookup cmd start q abase row done, some sh =>
    let a := start + done
    let hi := min (q - done) (32 - a % 32)
    let r := row + a / 32
    let k1 := k.lookupRow sh (s.rowData b r) (s.rowPsn b r) (a % 32) (a % 32 + hi) done q abase
    let s1 := (s.setBank b { k1 with run := .lookup cmd start q abase row (done + hi), resumed := false }).logResidues b
    if done + hi ≥ q then s1.cmdEnded b cmd else s1
  | .lookup cmd _ _ _ _ _, none => s.cmdEnded b cmd
  | _, _ => s

/-- The oldest pending request starts. -/
def Bank.startRequest (k : Bank) : Bank :=
  match k.pending with
  | [] => k
  | r :: rest => { k with moving := some r, pending := rest, started := k.started + 1 }

/-- ROW_OPERATION_END (R294): a pending request suspends an engine whose next step is a row operation, and the oldest starts;
beside an engine that makes none, it starts as if the engine were idle (R292). With none pending, or after a suspension, the
next row of a lookup run is processed. -/
def execRowOperationEnd (bank : Nat) (s : State) : Res :=
  let k := s.bank bank
  let row := s.engineRow bank
  if k.moving.isSome then .next s
  else if k.pending ≠ [] ∧ ¬ (k.resumed ∧ row) then
    if !row then .next (s.setBank bank { k with susp := false }.startRequest)
    else if k.susp ∧ k.started ≥ 16 then .next s
    else if k.susp then .next (s.setBank bank k.startRequest)
    else .next (s.setBank bank { k with susp := true, started := 0 }.startRequest)
  else if k.susp ∨ s.bankHeld bank then .next s
  else .next (s.lookupStep bank)

/-- The address of an ordinary request. -/
def State.reqPa (s : State) (bank : Nat) (r : OrdReq) : Nat := s.rowPa bank r.row + r.byte

/-- BANK_ORDINARY_REQUEST (R292): the request becomes pending; a bank holds 16, and more wait behind them. -/
def execBankOrdinaryRequest (bank : Nat) (req : OrdReq) (s : State) : Res :=
  .next (s.onBank bank (fun k => { k with pending := k.pending ++ [req] }))

/-- SUSPENSION_WINDOW_END (R294): the engine resumes with its next row operation. -/
def execSuspensionWindowEnd (bank : Nat) (s : State) : Res :=
  let k := s.bank bank
  if k.susp ∧ k.moving = none then .next (s.setBank bank { k with susp := false, started := 0, resumed := true }) else .next s

end Sys2Proof.Machine
end

