-- ==== Sys2Proof/Machine/Copy.lean ====
section
/-!
DEFINITION. Tile copies, major 0x3A (R168, R311 to R314): issue, the rows of a copy, its end and its stop, and the copy
fault record.
-/

namespace Sys2Proof.Machine

open Sys2Proof

/-! ## The quad (R311) -/

def Copy.rows (c : Copy) : Nat := bitsOf c.shape.toNat 0 12 + 1
def Copy.cols (c : Copy) : Nat := bitsOf c.shape.toNat 12 12 + 1
def Copy.esize (c : Copy) : Nat := 2 ^ bitsOf c.shape.toNat 24 2
def Copy.transposed (c : Copy) : Bool := c.shape.getLsbD 26
def Copy.conjugated (c : Copy) : Bool := c.shape.getLsbD 27
def Copy.complex (c : Copy) : Bool := c.shape.getLsbD 28
/-- Bytes of a unit. -/
def Copy.unit (c : Copy) : Nat := if c.complex then 2 * c.esize else c.esize
/-- The signed row strides. -/
def Copy.srcStride (c : Copy) : Int := (c.strides.setWidth 32).toInt
def Copy.dstStride (c : Copy) : Int := (c.strides.extractLsb' 32 32).toInt

/-- The address of source unit (i, 0). -/
def Copy.srcAddr (c : Copy) (i : Nat) : Word := c.src + BitVec.ofInt 64 (i * c.srcStride)

/-- How far the destination of unit (i, j) lies from DST. -/
def Copy.dstOff (c : Copy) (i j : Nat) : Int :=
  if c.transposed then j * c.dstStride + (i * c.unit : Nat) else i * c.dstStride + (j * c.unit : Nat)

/-- The address of destination unit (i, j). -/
def Copy.dstAddr (c : Copy) (i j : Nat) : Word := c.dst + BitVec.ofInt 64 (c.dstOff i j)

/-- The destination range of a copy, from its lowest to past its highest address (R312). -/
def Copy.span (c : Copy) (first : Nat) : Nat × Nat :=
  let ends := [first, c.rows - 1].flatMap (fun i => [0, c.cols - 1].map (fun j => (c.dst.toNat : Int) + c.dstOff i j))
  let lo := ends.foldl min (c.dst.toNat + c.dstOff first 0)
  let hi := ends.foldl max (c.dst.toNat + c.dstOff first 0)
  (lo.toNat, hi.toNat + c.unit)

/-! ## Issue (R312) -/

/-- The alignment checks of R312: the misaligned address, if there is one. A misaligned stride names SRC or DST, whose
rows it misaligns. -/
def Copy.misaligned (c : Copy) : Option Word :=
  if c.src.toNat % c.esize ≠ 0 then some c.src
  else if c.dst.toNat % c.esize ≠ 0 then some c.dst
  else if c.srcStride % c.esize ≠ 0 then some c.src
  else if c.dstStride % c.esize ≠ 0 then some c.dst
  else none

/-- A reserved value of the quad (R311, R312). -/
def Copy.reserved (c : Copy) : Bool :=
  bitsOf c.shape.toNat 29 3 != 0 || bitsOf c.shape.toNat 44 20 != 0 || decide (bitsOf c.shape.toNat 32 12 ≥ c.rows)
    || (c.conjugated && !c.complex)

/-- A range of addresses holds a byte of the scratchpad range of a job. -/
def State.meetsScratch (s : State) (asid : Nat) (r : Nat × Nat) : Bool :=
  match s.spBaseOf asid with
  | some b => decide (r.1 < b.toNat + 393216) && decide (b.toNat < r.2)
  | none => false

/-- TCOPY (R311, R312): a copy any byte of whose destination lies in the scratchpad has its range in the scoreboard
(log entry 49). It waits while its core's range scoreboard is full (R168). Its traps give FAULTVA alone, and the
other fault registers keep their values (R366). -/
def execTcopy (k : BitVec 4) (x : BitVec 5) (s : State) : Res := settle (do
  let s ← get
  let h := s.hart
  let c : Copy := { id := s.fresh, uid := h.uid, place := h.place, asid := h.asid, pc := h.pc, k := k.toNat,
                    src := s.getX x, dst := s.getX (x + 1#5), strides := s.getX (x + 2#5), shape := s.getX (x + 3#5),
                    row := bitsOf (s.getX (x + 3#5)).toNat 32 12, got := [], put := 0, range := none }
  if !(Instr.wf (.tcopy k x)) || c.reserved then M.illegal (.tcopy k x)
  else match c.misaligned with
  | some va => M.vcause 4#8 va h.csr.faultStride h.csr.faultRemain
  | none =>
    if c.src.toNat ≥ 2 ^ 57 then M.vcause 8#8 c.src h.csr.faultStride h.csr.faultRemain
    else if c.dst.toNat ≥ 2 ^ 57 then M.vcause 8#8 c.dst h.csr.faultStride h.csr.faultRemain
    else
      M.fork
      let inSp := s.meetsScratch h.asid (c.span c.row)
      let held := (s.copies.filter (fun d => d.place.die == h.place.die && d.place.core == h.place.core && d.range.isSome)).length
      if inSp && decide (held ≥ 16) then M.stall
      else
        let c' := { c with range := if inSp then some (c.span c.row) else none }
        set { s with copies := s.copies ++ [c'], fresh := s.fresh + 1 }
        M.advance) s

/-! ## Rows (R311, R313) -/

/-- How far an engine gets with a row, and how it ends: done, a wait, or a cause with the address it met. -/
inductive EngineEnd (α : Type) where
  | done (a : α) (s : State)
  | waits (a : α) (s : State)
  | fails (cause : BitVec 8) (va : Word) (a : α) (s : State)

/-- One access of an engine at an address; `was` is how far it had come before. -/
def engineAt {α β : Type} (va : Word) (was : β) (a : A α) (next : α → State → EngineEnd β) (s : State) : EngineEnd β :=
  match a s with
  | .ok (x, t) => next x t
  | .error (.wait t) => .waits was t
  | .error (.fault c) => .fails c va was s
  | .error (.poison _) => .fails 0xF#8 va was s

/-- Reads on from the bytes read so far, `n` bytes from an address, cut at the 32-byte granules; a poisoned granule stops
the copy (R354). -/
def copyRead (who : Who) : Nat → Word → Nat → List Byte → State → EngineEnd (List Byte)
  | 0, _, _, got, s => .done got s
  | fuel + 1, va, n, got, s =>
    if n = 0 then .done got s
    else
      let k := min n (32 - va.toNat % 32)
      engineAt va got (engineRead who va k) (fun r t =>
        if r.2 then .fails 0xF#8 va got t
        else copyRead who fuel (va + BitVec.ofNat 64 k) (n - k) (got ++ bytesOfNat k r.1) t) s

/-- Bytes at an address as pieces within 32-byte granules. -/
def cutBytes : Nat → Word → List Byte → List (Word × List Byte)
  | 0, _, _ => []
  | fuel + 1, va, l =>
    if l = [] then []
    else
      let k := min l.length (32 - va.toNat % 32)
      (va, l.take k) :: cutBytes fuel (va + BitVec.ofNat 64 k) (l.drop k)

/-- Writes pieces, counting on from the number written so far. -/
def copyWrite (who : Who) : List (Word × List Byte) → Nat → State → EngineEnd Nat
  | [], n, s => .done n s
  | (va, l) :: rest, n, s =>
    engineAt va n (engineWrite who va l.length (natOfBytes l) false) (fun _ t => copyWrite who rest (n + 1) t) s

/-- A unit as it is written: with C, the top bit of its imaginary component is inverted. -/
def Copy.unitOut (c : Copy) (u : List Byte) : List Byte :=
  if c.conjugated then u.take (u.length - 1) ++ (u.drop (u.length - 1)).map (· ^^^ 0x80#8) else u

/-- The units of a row. -/
def unitsOf (n : Nat) : Nat → List Byte → List (List Byte)
  | 0, _ => []
  | k + 1, l => l.take n :: unitsOf n k (l.drop n)

/-- What a row that has been read writes, piece by piece: a run of bytes, or units one destination row apart (R311). -/
def Copy.pieces (c : Copy) (l : List Byte) : List (Word × List Byte) :=
  let us := (unitsOf c.unit c.cols l).map c.unitOut
  if c.transposed then (us.zipIdx).flatMap (fun u => cutBytes 4 (c.dstAddr c.row u.2) u.1)
  else cutBytes 4097 (c.dstAddr c.row 0) us.flatten

/-- A copy as a requester: under its own number, at the core of its hart (R142). -/
def Copy.who (c : Copy) : Who := ⟨c.id, c.place.die, c.place.core, c.asid⟩

/-- One row: read whole, then written whole (R311), going on from where it stood. -/
def Copy.moveRow (c : Copy) (s : State) : EngineEnd Copy :=
  let start := c.srcAddr c.row + BitVec.ofNat 64 c.got.length
  match copyRead c.who 4097 start (c.cols * c.unit - c.got.length) c.got s with
  | .waits l t => .waits { c with got := l } t
  | .fails k a l t => .fails k a { c with got := l } t
  | .done l t =>
    match copyWrite c.who ((c.pieces l).drop c.put) c.put t with
    | .waits n u => .waits { c with got := l, put := n } u
    | .fails k a n u => .fails k a { c with got := l, put := n } u
    | .done _ u => .done { c with row := c.row + 1, got := [], put := 0 } u

/-- Changes a copy. -/
def State.onCopy (s : State) (id : Nat) (f : Copy → Copy) : State :=
  { s with copies := changeAll (fun c => c.id == id) f s.copies }

/-- A copy leaves its engine: its range retires. -/
def State.dropCopy (s : State) (id : Nat) : State :=
  ({ s with copies := s.copies.filter (fun c => c.id != id) }).dropReplies id

/-- A stopped copy enters the record, or waits for it (R313). -/
def Hart.copyStopped (h : Hart) (f : CopyFault) : Hart :=
  if h.copyFault.isSome then { h with stopped := h.stopped ++ [f] } else { h with copyFault := some f, copyTold := false }

/-- A copy stops at its current row (R313). -/
def State.stopCopy (s : State) (c : Copy) (cause : BitVec 8) (va : Word) : State :=
  (s.onHart c.uid (fun h => h.copyStopped ⟨c.id, BitVec.ofNat 12 c.row, BitVec.ofNat 4 c.k, cause, c.pc, va⟩)).dropCopy c.id

/-- A copy by its number. -/
def State.copyOf (s : State) (id : Nat) : Option Copy := s.copies.find? (fun c => c.id == id)

/-- An address lies in a region the job registered for paging (R374). -/
def State.pageable (s : State) (asid : Nat) (va : Word) : Bool :=
  (s.jobGet asid (·.paged) []).any (fun r => r.1 ≤ va.toNat && decide (va.toNat < r.1 + r.2))

/-- One turn of a copy: a row, a wait, or a stop. A page fault that the pager may resolve makes the copy wait where it
stands in its row (R313). -/
def State.copyTurn (s : State) (c : Copy) : State :=
  if c.row ≥ c.rows then s
  else match c.moveRow s with
    | .done d t => (t.onCopy c.id (fun _ => d)).dropReplies c.id
    | .waits d t => t.onCopy c.id (fun _ => d)
    | .fails k va d t =>
      if (k = 5#8 ∨ k = 6#8) ∧ s.pageable c.asid va then t.onCopy c.id (fun _ => d) else t.stopCopy c k va

/-- The tile-copy engine of a core serves a copy next (R72): in slot order among harts with rows to copy, of a hart's copies
the first. -/
def State.copyDue (s : State) (c : Copy) : Bool :=
  let l := s.copies.filter (fun d => decide (d.row < d.rows) && d.place.die == c.place.die && d.place.core == c.place.core)
  decide (c.row < c.rows) && nextSlot (lastSlot s.copyLast c.place.die c.place.core) (l.map (·.place.slot)) == some c.place.slot
    && (l.find? (fun d => d.place.slot == c.place.slot)).any (fun d => d.id == c.id)

/-- TCOPY_ROW (R72, R311): one row of the copy whose turn it is. -/
def execTcopyRow (id : Nat) (s : State) : Res :=
  match s.copyOf id with
  | some c => .next (if s.copyDue c then ({ s with copyLast := putSlotServed s.copyLast c.place }).copyTurn c else s)
  | none => .next s

/-- A copy whose rows are all written and have performed is counted (R167, R312). -/
def State.endCopy (s : State) (c : Copy) : State :=
  if c.row ≥ c.rows ∧ ¬ s.unacked c.id then (s.onHart c.uid (·.bumpK c.k)).dropCopy c.id else s

/-- TCOPY_COMPLETE (R312). -/
def execTcopyComplete (id : Nat) (s : State) : Res :=
  match s.copyOf id with
  | some c => .next (s.endCopy c)
  | none => .next s

/-- TCOPY_STOP (R313): the pager has failed, or the row met an access violation or poison. -/
def execTcopyStop (id : Nat) (cause : BitVec 8) (va : Word) (s : State) : Res :=
  match s.copyOf id with
  | some c => .next (s.stopCopy c cause va)
  | none => .next s

/-! ## The copy fault record (R314) -/

/-- The status word of the record. -/
def CopyFault.status (f : CopyFault) : Word :=
  (1#64 <<< 63) ||| (zext f.row <<< 44) ||| (zext f.k <<< 40) ||| zext f.cause

/-- Clears the record; a stopped copy that waits for it is recorded then (R313). -/
def Hart.clearRecord (h : Hart) : Hart :=
  match h.stopped with
  | [] => { h with copyFault := none, copyTold := false }
  | f :: fs => { h with copyFault := some f, copyTold := false, stopped := fs }

/-- TSTAT (R314). While no copy is recorded R314 gives the status word alone: every selector returns 0 (log entry 73). -/
def execTstat (d : BitVec 5) (sel : BitVec 2) (c : BitVec 1) (s : State) : Res := settle (do
  if !(Instr.wf (.tstat d sel c)) then M.illegal (.tstat d sel c)
  else
    let s ← get
    let v := match s.hart.copyFault with
      | none => 0#64
      | some f => match sel.toNat with | 0 => f.status | 1 => f.pc | _ => f.va
    set (if isSet c then { s with hart := s.hart.clearRecord } else s)
    M.result d v) s

end Sys2Proof.Machine
end

