-- ==== Sys2Proof/Machine/Furlong.lean ====
section
/-!
DEFINITION. What an instruction reads and writes as the furlong bookkeeping sees it, and the events that commit an
open furlong before an instruction takes effect (R237 to R239).
-/

namespace Sys2Proof.Machine

open Sys2Proof

/-- Registers an instruction reads or writes, by kind, as sets of register numbers. -/
structure Touched where
  xr : BitVec 32
  xw : BitVec 32
  vr : BitVec 48
  vw : BitVec 48
  mr : BitVec 12
  mw : BitVec 12
  deriving DecidableEq, Repr

/-- Nothing touched. -/
def Touched.none : Touched := ⟨0, 0, 0, 0, 0, 0⟩

/-- The set of one register number. -/
def oneReg (n r : Nat) : BitVec n := 1#n <<< r

/-- The 5-bit field of a word at bit `lo` as a set of x registers; x0 belongs to no set. -/
def xField (w : BitVec 32) (lo : Nat) : BitVec 32 := oneReg 32 (w.extractLsb' lo 5).toNat &&& ~~~1#32

/-- The registers a vector specifier may name: one, or the window and LVEC in per-lane mode (R178). -/
def State.specRegs (s : State) (spec : Nat) : BitVec 48 × BitVec 48 :=
  if spec ≤ 47 then (0, oneReg 48 spec)
  else
    let ix := (s.hart.getIx (BitVec.ofNat 4 (spec - 48))).toNat
    let base := bitsOf ix 0 6
    if bitsOf ix 22 1 = 0 then (0, oneReg 48 (base + bitsOf ix 12 6))
    else
      let bound := min 48 (bitsOf ix 6 6)
      (oneReg 48 (bitsOf ix 23 6),
       BitVec.ofNat 48 (((List.range 48).filter (fun r => base ≤ r && decide (r < bound))).map (fun r => 2 ^ r)).sum)

/-- The registers that an operand is taken to name in the hazards of vector instructions (R35): through an index register
every register of its window, and LVEC in per-lane mode. -/
def State.windowRegs (s : State) (spec : Nat) : BitVec 48 × BitVec 48 :=
  let (l, r) := s.specRegs spec
  if spec ≤ 47 then (l, r)
  else
    let ix := (s.hart.getIx (BitVec.ofNat 4 (spec - 48))).toNat
    (l, r ||| BitVec.ofNat 48 (((List.range 48).filter (fun n => bitsOf ix 0 6 ≤ n && decide (n < bitsOf ix 6 6))).map (fun n => 2 ^ n)).sum)

/-- The guard mask register that a mode register names. -/
def State.guardSet (s : State) (md : BitVec 2) : BitVec 12 := oneReg 12 (bitsOf (s.hart.getMd md).toNat 7 4)

/-- Scalar words of majors 0x01 to 0x2B: x registers read and written (R182). -/
def scalarTouched (w : BitVec 32) : Touched :=
  let d := xField w 20
  let a := xField w 15
  let b := xField w 10
  let t := Touched.none
  match (w.extractLsb' 25 7).toNat with
  | 0x01 | 0x02 => { t with xr := a ||| b, xw := d }
  | 0x0A | 0x0B | 0x0C => { t with xw := d }
  | 0x0E | 0x0F | 0x10 | 0x11 | 0x12 | 0x13 | 0x1C | 0x1D | 0x1E | 0x1F => { t with xr := d ||| a }
  | _ => { t with xr := a, xw := d }

/-- Vector words of majors 0x30 to 0x36: registers read and written (R182, R235, R245 to R262), with what each specifier
names. -/
def State.vectorTouched (s : State) (names : Nat → BitVec 48 × BitVec 48) (w : BitVec 32) : Touched :=
  let md := w.extractLsb' 23 2
  let fn := (w.extractLsb' 0 5).toNat
  let (dl, d) := names (w.extractLsb' 17 6).toNat
  let (al, a) := names (w.extractLsb' 11 6).toNat
  let (bl, b) := names (w.extractLsb' 5 6).toNat
  let xd := xField w 17
  let xa := xField w 11
  let xb := xField w 5
  let m := oneReg 12 (w.extractLsb' 17 6).toNat
  let ma := oneReg 12 (w.extractLsb' 11 6).toNat
  let mb := oneReg 12 (w.extractLsb' 5 6).toNat
  let t := { Touched.none with mr := s.guardSet md }
  match (w.extractLsb' 25 7).toNat with
  | 0x30 =>
    if fn ≤ 2 then { Touched.none with xr := xa, xw := xd }
    else if fn ≤ 6 then { Touched.none with xr := xa, xw := xb }
    else if fn = 7 then { Touched.none with xr := xb, xw := xd, vr := a ||| al }
    else { t with vr := a ||| al ||| dl, vw := d }
  | 0x31 =>
    if 15 ≤ fn && fn ≤ 18 then { t with vr := a ||| al ||| b ||| bl, mw := m }
    else if fn = 3 || fn = 4 then { t with vr := a ||| al ||| b ||| bl ||| d ||| dl, vw := d }
    -- the one-operand instructions: VABS, VNEG, and VSQRT to VCONJ
    else if fn = 7 || fn = 8 || (21 ≤ fn && fn ≤ 27) then { t with vr := a ||| al ||| dl, vw := d }
    else { t with vr := a ||| al ||| b ||| bl ||| dl, vw := d }
  | 0x32 =>
    if fn = 0 then { t with vr := a ||| al ||| dl, vw := d }
    else if fn = 1 then { t with vr := a ||| al ||| bl ||| dl, vw := d ||| b }
    else { t with vr := a ||| al ||| b ||| bl ||| dl, vw := d }
  | 0x33 => { t with vr := a ||| al ||| dl, vw := d }
  | 0x34 =>
    if fn ≤ 1 then { t with vr := a ||| al ||| dl, vw := d, xr := xb }
    else if fn = 2 then { t with vr := a ||| al ||| b ||| bl ||| dl, vw := d }
    else if fn = 5 then { t with vr := dl, vw := d, xr := xa }
    else if fn = 6 then { t with vr := dl, vw := d }
    else { t with vr := a ||| al ||| dl, vw := d }
  | 0x35 =>
    if fn ≤ 3 then { Touched.none with mr := ma ||| (if fn = 3 then 0 else mb), mw := m }
    else { Touched.none with mr := ma, xw := xd }
  | _ =>
    let f := (w.extractLsb' 0 4).toNat
    let base := xField w 12
    let (il, ix) := names (w.extractLsb' 6 6).toNat
    let run := (w.extractLsb' 9 3).toNat + 1
    let fields := BitVec.ofNat 48 (((List.range run).map (fun k => 2 ^ ((w.extractLsb' 17 6).toNat + k))).sum)
    let data := if f % 4 = 3 then fields else d
    let extra := if f % 4 = 2 then ix ||| il else 0
    let xs := if f % 4 = 1 then base ||| xField w 6 else base
    if f ≤ 3 then { t with xr := xs, vr := extra ||| dl, vw := data }
    else { t with xr := xs, vr := extra ||| dl ||| data }

/-- The registers an instruction reads and writes. -/
def State.touched (s : State) (i : Instr) : Touched :=
  let w := wordOf i
  if 0x30 ≤ (w.extractLsb' 25 7).toNat then s.vectorTouched s.specRegs w else scalarTouched w

/-- The instructions before which the open furlong commits (R239). -/
def closesFurlong (i : Instr) : Bool :=
  let w := wordOf i
  let fn := (w.extractLsb' 0 4).toNat
  match (w.extractLsb' 25 7).toNat with
  | 0x1B | 0x20 | 0x22 | 0x23 | 0x25 | 0x26 | 0x38 | 0x39 | 0x3A => true
  | 0x27 => fn = 0
  | 0x28 => true
  | 0x2A => fn ≠ 2
  | 0x2B =>
    let k := (w.extractLsb' 12 3).toNat
    k = 1 || ((k = 2 || k = 3) && w.extractLsb' 15 5 != 0#5)
  | 0x30 => (w.extractLsb' 0 5).toNat = 1
  | _ => false

/-- The furlong's record after an instruction's reads and writes. -/
def Furlong.note (f : Furlong) (t : Touched) : Furlong :=
  { f with xRead := f.xRead ||| (t.xr &&& ~~~f.xWritten), xWritten := f.xWritten ||| t.xw,
           vRead := f.vRead ||| (t.vr &&& ~~~f.vWritten), vWritten := f.vWritten ||| t.vw,
           mRead := f.mRead ||| (t.mr &&& ~~~f.mWritten), mWritten := f.mWritten ||| t.mw }

/-- A write to a register that the furlong, this instruction included, has read before writing it (R239). -/
def Furlong.spoils (f : Furlong) (t : Touched) : Bool :=
  let x := (f.xRead ||| (t.xr &&& ~~~f.xWritten)) &&& t.xw &&& ~~~f.snapMask
  let v := (f.vRead ||| (t.vr &&& ~~~f.vWritten)) &&& t.vw
  let m := (f.mRead ||| (t.mr &&& ~~~f.mWritten)) &&& t.mw
  x != 0 || v != 0 || m != 0

/-- A VSETL ends the furlong by its own meaning (R237). -/
def isVsetl (i : Instr) : Bool :=
  match i with
  | .vsetl _ _ _ => true
  | _ => false

/-- What the furlong of the hart in focus needs before an instruction takes effect: nothing, a commit (R239), or a
note of the registers the instruction touches. -/
def furlongPre (i : Instr) : A Unit := do
  let s ← get
  match s.hart.furlong with
  | none => pure ()
  | some f =>
    let t := s.touched i
    if isVsetl i then pure ()
    else if closesFurlong i || f.spoils t then commitFurlong
    else set { s with hart := { s.hart with furlong := some (f.note t) } }

/-! ## Registers that a stream drain still delivers into (R287) -/

/-- The vector registers that an instruction uses: as the furlong bookkeeping sees them for majors 0x30 to 0x36, the
operands of an OPA, an ACRD or a TBLD, and the destination of a stream drain (R35). -/
def State.vectorUse (s : State) (i : Instr) : BitVec 48 :=
  let w := wordOf i
  let both := fun (p : BitVec 48 × BitVec 48) => p.1 ||| p.2
  match i with
  | .opa _ _ _ _ a b => both (s.windowRegs a.toNat) ||| both (s.windowRegs b.toNat)
  | .acrd _ _ d _ _ => both (s.windowRegs d.toNat)
  | .tbld _ _ _ a _ => both (s.windowRegs a.toNat)
  | .nbdrain st c _ _ => if isSet st then oneReg 48 (bitsOf (s.getX c).toNat 24 6) else 0
  | _ =>
    if decide (0x30 ≤ (w.extractLsb' 25 7).toNat) && decide ((w.extractLsb' 25 7).toNat ≤ 0x36) then
      let t := s.vectorTouched s.windowRegs w
      t.vr ||| t.vw
    else 0

/-- An instruction uses, or may use, a register that a stream drain still delivers into: it waits (R32 to R35, R287). A VDECL
waits for every stream of the hart (R241). -/
def State.awaitsStream (s : State) (i : Instr) : Bool :=
  let r := s.streamRegs s.hart.uid
  if r = 0#48 then false
  else
    let w := wordOf i
    ((w.extractLsb' 25 7).toNat = 0x30 && (w.extractLsb' 0 5).toNat = 1) || s.vectorUse i &&& r != 0

/-! ## Register-file banks (R31) -/

/-- An instruction of majors 0x30 to 0x3A makes the drowsy banks of its core's register file active. -/
def State.wakeFile (s : State) (i : Instr) : State :=
  if s.mm.drowsy = [] || !vectorMajor (wordOf i) then s
  else
    let p := s.hart.place
    { s with mm := { s.mm with drowsy := s.mm.drowsy.filter (fun b => !(b.1 == p.die && b.2.1 == p.core)) } }

end Sys2Proof.Machine
end

