-- ==== Sys2Proof/Machine/VMemory.lean ====
section
/-!
DEFINITION. Vector loads and stores, major 0x36 (R184, R262 to R265). Elements are taken in ascending order from the
element where the instruction starts; one that fails leaves those below it performed (R264).
-/

namespace Sys2Proof.Machine

open Sys2Proof

/-- A vector memory instruction with its operands resolved: where element `e` and field `f` lie, and the registers its
data move through. -/
structure VMem where
  m : Mode
  w : Nat
  nf : Nat
  vl : Nat
  act : Nat → Bool
  addr : Nat → Nat → Word
  stride : Word
  data : Regs

/-- The count of active elements from an element up (R264). -/
def VMem.remain (x : VMem) (e : Nat) : Nat := (List.range x.vl).countP (fun k => decide (e ≤ k) && x.act k)

/-- The fault values of an element (R264). -/
def VMem.vals (x : VMem) (e : Nat) (va : Word) (s : State) (c : BitVec 8) : FaultVals :=
  { s.cause c va x.stride (BitVec.ofNat 64 (x.remain e)) with vec := true, elem := e }

/-- Element `e` is written by a load: active, or zeroed (R231). -/
def VMem.writes (x : VMem) (e : Nat) : Bool := x.act e || x.m.zero

/-- The granule that element `e` ends, when the instruction writes all of it. -/
def VMem.granule (x : VMem) (e : Nat) : List Nat :=
  let per := 256 / x.w
  if (e + 1) % per = 0 && (List.range per).all (fun k => x.writes (e - k)) then [e / per] else []

/-- A load writes element `e` of field `f`. -/
def Hart.putElem (h : Hart) (x : VMem) (f e v : Nat) : Hart :=
  let r := x.data.at e + f
  if r < h.nregs then
    let g := h.setVTo r (x.w * (e + 1)) (setElt (h.getV r) x.w e v)
    match x.data with
    | .one _ => g.noteV r (x.granule e)
    | .lanes _ => g
  else h

/-- The progress index of the registers a load writes (R38, R264). -/
def Hart.setProgress (h : Hart) (x : VMem) (e : Nat) : Hart :=
  match x.data with
  | .one r => (List.range x.nf).foldl (fun (g : Hart) (f : Nat) => g.setPi (r + f) e) h
  | .lanes l => l.foldl (fun (g : Hart) (r : Nat) => g.setPi r e) h

/-- The instruction has come to element `e`. -/
def M.atElem (x : VMem) (load : Bool) (e : Nat) : M Unit := modify (fun s =>
  let h := { s.hart with startElem := e }
  { s with hart := if load then h.setProgress x e else h })

/-- Checks every field of an element before any is accessed (R203, R264). -/
def checkFields (x : VMem) (who : Who) (acc : Access) (e : Nat) : List Nat → M Unit
  | [] => pure ()
  | f :: fs => do
    let va := x.addr e f
    let _ ← M.access (x.vals e va) e (classify who va (x.w / 8) acc)
    checkFields x who acc e fs

/-- Loads the fields of an element. -/
def loadFields (x : VMem) (who : Who) (rd e : Nat) : List Nat → M Unit
  | [] => pure ()
  | f :: fs => do
    let va := x.addr e f
    let (v, _) ← M.access (x.vals e va) e (loadAt who va (x.w / 8) rd)
    modify (fun s => { s with hart := s.hart.putElem x f e v })
    loadFields x who rd e fs

/-- Loads elements in order. -/
def loadElems (x : VMem) (who : Who) (rd : Nat) : List Nat → M Unit
  | [] => pure ()
  | e :: es => do
    M.atElem x true e
    if x.act e then
      checkFields x who .load e (List.range x.nf)
      loadFields x who rd e (List.range x.nf)
    else if x.m.zero then
      modify (fun s => { s with hart := (List.range x.nf).foldl (fun (h : Hart) (f : Nat) => h.putElem x f e 0) s.hart })
    loadElems x who rd es

/-- The element and field that a store meets as its item `k`. -/
def VMem.item (x : VMem) (k : Nat) : Nat × Nat := (k / x.nf, k % x.nf)

/-- The stores of a vector store, field by field within each element: an element is checked before its first field is
stored. -/
def VMem.pieces (x : VMem) (who : Who) : Pieces Nat :=
  { size := x.w / 8, act := fun k => x.act (x.item k).1, addr := fun k => x.addr (x.item k).1 (x.item k).2,
    elem := fun k => (x.item k).1, vals := fun k => x.vals (x.item k).1 (x.addr (x.item k).1 (x.item k).2),
    value := fun h k => getElt (h.getV (x.data.at (x.item k).1 + (x.item k).2)) x.w (x.item k).1,
    check := fun k => if (x.item k).2 = 0 then checkFields x who .store (x.item k).1 (List.range x.nf) else pure () }

/-- Stores active elements in order, so that the highest of those that name one location stands (R265). -/
def storeElems (x : VMem) (who : Who) (es : List Nat) : M Unit :=
  storePieces (x.pieces who) who 0 (es.flatMap (fun e => (List.range x.nf).map (fun f => e * x.nf + f)))

/-! ## e2m1 (R263) -/

/-- The elements of byte `i` below vl that are active. -/
def VMem.pair (x : VMem) (i : Nat) : List Nat := [2 * i, 2 * i + 1].filter x.act

/-- The register that holds a nibble a store writes: of its own element when that is active, else of the other element
of its byte, since only active elements resolve (R178). -/
def VMem.nibble (x : VMem) (e : Nat) : Nat := x.data.at (if x.act e then e else (x.pair (e / 2)).headD e)

/-- The fault values of a byte of e2m1 elements (R264). -/
def VMem.byteVals (x : VMem) (i : Nat) (s : State) (c : BitVec 8) : FaultVals :=
  let bytes := (List.range ((x.vl + 1) / 2)).filter (fun k => x.pair k != [])
  let last := bytes.foldl max i
  { s.cause c (x.addr i 0) 1#64 (BitVec.ofNat 64 (last + 1 - i)) with vec := true, elem := (x.pair i).headD (2 * i) }

/-- Loads bytes of e2m1 elements in order. -/
def loadNibbles (x : VMem) (who : Who) (rd : Nat) : List Nat → M Unit
  | [] => pure ()
  | i :: is => do
    let v ← if x.pair i = [] then pure 0 else do
      M.atElem x true ((x.pair i).headD (2 * i))
      let (v, _) ← M.access (x.byteVals i) ((x.pair i).headD (2 * i)) (loadAt who (x.addr i 0) 1 rd)
      pure v
    modify (fun s => { s with hart := ([2 * i, 2 * i + 1].filter (· < x.vl)).foldl (fun (h : Hart) (e : Nat) =>
      if x.act e then h.putElem x 0 e (bitsOf v (4 * (e % 2)) 4) else if x.m.zero then h.putElem x 0 e 0 else h) s.hart })
    loadNibbles x who rd is

/-- The stores of an e2m1 store, byte by byte. -/
def VMem.nibbles (x : VMem) (who : Who) : Pieces Nat :=
  { size := 1, act := fun i => x.pair i != [], addr := fun i => x.addr i 0, elem := fun i => (x.pair i).headD (2 * i),
    vals := x.byteVals,
    value := fun h i =>
      getElt (h.getV (x.nibble (2 * i))) 4 (2 * i) + 16 * getElt (h.getV (x.nibble (2 * i + 1))) 4 (2 * i + 1),
    check := fun i => do
      let _ ← M.access (x.byteVals i) ((x.pair i).headD (2 * i)) (classify who (x.addr i 0) 1 .store) }

/-- Stores bytes of e2m1 elements in order, each byte whole. -/
def storeNibbles (x : VMem) (who : Who) (is : List Nat) : M Unit := storePieces (x.nibbles who) who 0 is

/-! ## The instructions -/

/-- A register of a segment run at or above NREGS (R184). -/
def checkRun (d : BitVec 6) (nf : Nat) : M Unit := do
  let h := (← get).hart
  if d.toNat + nf > h.nregs then M.vcause 9#8 0#64 (BitVec.ofNat 64 (max d.toNat h.nregs)) (zext d)

/-- The address form of a vector memory instruction (R262). -/
inductive VForm where
  | unit
  | strided (b : BitVec 5)
  | indexed (i : BitVec 6)
  | segment (nf : Nat)

def VForm.fields : VForm → Nat
  | .segment nf => nf
  | _ => 1

/-- The specifiers a form reads beside the data register. -/
def VForm.specs : VForm → List Nat
  | .indexed i => [i.toNat]
  | _ => []

/-- The address of element `e`, field `f` (R262). -/
def VForm.addr (form : VForm) (h : Hart) (a : BitVec 5) (w : Nat) (ix : Regs) (e f : Nat) : Word :=
  match form with
  | .unit => if w = 4 then h.getX a + BitVec.ofNat 64 e else h.getX a + BitVec.ofNat 64 (e * (w / 8))
  | .strided b => h.getX a + BitVec.ofNat 64 e * h.getX b
  | .indexed _ => h.getX a + BitVec.ofNat 64 (getElt (h.getV (ix.at e)) 64 e)
  | .segment nf => h.getX a + BitVec.ofNat 64 ((e * nf + f) * (w / 8))

/-- FAULTSTRIDE of a form (R264). -/
def VForm.stride (form : VForm) (h : Hart) (w : Nat) : Word :=
  match form with
  | .unit => BitVec.ofNat 64 (w / 8)
  | .strided b => h.getX b
  | .indexed _ => 0#64
  | .segment nf => BitVec.ofNat 64 (nf * (w / 8))

/-- The elements that are accessed: the active ones, in checked mode those whose addresses two computations agree on (R392,
R393; log entry 70). -/
def Hart.accessed (h : Hart) (m : Mode) : Nat → Bool :=
  if h.split = [] then h.active m else fun e => h.active m e && !h.split.contains (e / (2048 / m.width))

/-- The checks of R233 and R178 of a vector memory instruction, and its operands. -/
def vmemIn (i : Instr) (md : BitVec 2) (d : BitVec 6) (a : BitVec 5) (form : VForm) : M VMem := do
  let s ← get
  let m := s.mode md
  let types := match form with | .unit => typesAny | _ => fun c => decide (c ≤ 12)
  if !i.wf || !types m.etype then M.illegal i
  else
    let w := m.width
    let h := s.hart
    match form with
    | .segment nf => checkRun d nf
    | _ => checkRegs m w (d.toNat :: form.specs)
    let ix := match form with | .indexed v => h.regsOf w v.toNat | _ => .one 0
    let data := match form with | .segment _ => .one d.toNat | _ => h.regsOf w d.toNat
    return { m := m, w := w, nf := form.fields, vl := h.vl, act := h.accessed m,
             addr := form.addr h a w ix, stride := form.stride h w, data := data }

/-- The poison that a vector memory instruction reads beside a store's data: its guard, its index registers and the offsets
of its operands (R354). -/
def Hart.vmemPoison (h : Hart) (m : Mode) (d : BitVec 6) (form : VForm) : Poisons :=
  let es := (List.range h.vl).filter (h.active m)
  let specs := match form with | .segment _ => [] | _ => d.toNat :: form.specs
  let index := match form with
    | .indexed v => h.poisonV (h.regsOf m.width v.toNat) 64 es
    | _ => []
  h.poisonGuard m ++ h.poisonLanes m.width es specs ++ index

/-- Field `f` of the data registers. -/
def VMem.field (x : VMem) (f : Nat) : Regs :=
  match x.data with
  | .one k => .one (k + f)
  | .lanes l => .lanes l

/-- Ends a vector memory instruction; in checked mode a load leaves poison in the groups that no two address computations
agree on (R393). -/
def vmemOut (x : VMem) (load : Bool) (d : BitVec 6) (form : VForm) : M Unit := do
  if load then modify (fun s =>
    let per := 2048 / x.w
    { s with hart := (List.range x.nf).foldl (fun (g : Hart) (k : Nat) =>
                g.spoil (x.field k) x.w per x.vl s.hart.split) (s.hart.setProgress x s.hart.vlMax) })
  commitVector (d.toNat :: form.specs) 0#6

/-- A vector load (R262 to R264). -/
def vload (i : Instr) (md : BitVec 2) (d : BitVec 6) (a : BitVec 5) (r : BitVec 2) (form : VForm) : M Unit := do
  let x ← vmemIn i md d a form
  let s ← get
  M.consume (s.hart.vmemPoison x.m d form)
  let start := s.hart.startElem
  if x.w = 4 then loadNibbles x s.who r.toNat ((List.range ((x.vl + 1) / 2)).drop (start / 2))
  else loadElems x s.who r.toNat ((List.range x.vl).drop start)
  vmemOut x true d form

/-- A vector store (R262 to R265). -/
def vstore (i : Instr) (md : BitVec 2) (d : BitVec 6) (a : BitVec 5) (form : VForm) : M Unit := do
  let x ← vmemIn i md d a form
  let s ← get
  let start := s.hart.startElem
  if x.w = 4 then
    let bytes := (List.range ((x.vl + 1) / 2)).drop (start / 2)
    let es := (bytes.filter (fun k => x.pair k != [])).flatMap (fun k => [2 * k, 2 * k + 1])
    let regs : Regs := match x.data with | .one r => .one r | .lanes _ => .lanes ((List.range (x.vl + 1)).map x.nibble)
    M.consume (s.hart.vmemPoison x.m d form ++ s.hart.poisonV regs 4 es)
    storeNibbles x s.who bytes
  else
    let es := (List.range x.vl).drop start
    M.consume (s.hart.vmemPoison x.m d form
      ++ (List.range x.nf).flatMap (fun f => s.hart.poisonV (x.field f) x.w (es.filter x.act)))
    storeElems x s.who es
  vmemOut x false d form

/-- VLD (R262, R263). -/
def execVld (m : BitVec 2) (d : BitVec 6) (a : BitVec 5) (r : BitVec 2) (s : State) : Res :=
  settle (vload (.vld m d a r) m d a r .unit) s

/-- VLDS (R262). -/
def execVlds (m : BitVec 2) (d : BitVec 6) (a b : BitVec 5) (r : BitVec 2) (s : State) : Res :=
  settle (vload (.vlds m d a b r) m d a r (.strided b)) s

/-- VLDG (R262). -/
def execVldg (m : BitVec 2) (d : BitVec 6) (a : BitVec 5) (i : BitVec 6) (r : BitVec 2) (s : State) : Res :=
  settle (vload (.vldg m d a i r) m d a r (.indexed i)) s

/-- VLDSEG (R184, R262). -/
def execVldseg (m : BitVec 2) (d : BitVec 6) (a : BitVec 5) (n : BitVec 3) (r : BitVec 2) (s : State) : Res :=
  settle (vload (.vldseg m d a n r) m d a r (.segment (n.toNat + 1))) s

/-- VST (R262, R263). -/
def execVst (m : BitVec 2) (d : BitVec 6) (a : BitVec 5) (s : State) : Res :=
  settle (vstore (.vst m d a) m d a .unit) s

/-- VSTS (R262). -/
def execVsts (m : BitVec 2) (d : BitVec 6) (a b : BitVec 5) (s : State) : Res :=
  settle (vstore (.vsts m d a b) m d a (.strided b)) s

/-- VSTSC (R262). -/
def execVstsc (m : BitVec 2) (d : BitVec 6) (a : BitVec 5) (i : BitVec 6) (s : State) : Res :=
  settle (vstore (.vstsc m d a i) m d a (.indexed i)) s

/-- VSTSEG (R184, R262). -/
def execVstseg (m : BitVec 2) (d : BitVec 6) (a : BitVec 5) (n : BitVec 3) (s : State) : Res :=
  settle (vstore (.vstseg m d a n) m d a (.segment (n.toNat + 1))) s

end Sys2Proof.Machine
end

