-- ==== Sys2Proof/Machine/Matrix.lean ====
section
/-!
DEFINITION. Outer products and accumulator tiles, major 0x38 (R297 to R310). OPA and AZERO are handed to the hart's
matrix queue with the operand values they read, so a later write of a source register cannot change them; the other
matrix instructions wait until the queue is empty (R301, R310).
-/

namespace Sys2Proof.Machine

open Sys2Proof

/-! ## Matrix types (R297) -/

/-- MVL of a matrix type. -/
def mvlOf (t : BitVec 4) : Nat := if t = 0#4 ∨ t = 9#4 then 64 else 32

/-- The ETYPE code of a type's accumulator format. -/
def accCode (t : BitVec 4) : Nat := match t.toNat with | 0 => 2 | 11 => 11 | _ => 10

/-- The width of a type's accumulator format. -/
def accWidth (t : BitVec 4) : Nat := if t = 11#4 then 64 else 32

/-- The float format of an ETYPE code; the callers name codes that have one. -/
def fmtOf (c : Nat) : Fmt :=
  match etypeOf c with
  | some (.flt f) => f
  | _ => fmtF32

/-- An ETYPE code that MMODE accepts. -/
def matrixType (c : Nat) : Bool := c == 0 || c == 9 || c == 10 || c == 11

/-- Elements of a tile that an operation touches: i and j below m, in ascending number i x MVL + j. -/
def tileElems (mvl m : Nat) : List Nat := (List.range m).flatMap (fun i => (List.range m).map (fun j => i * mvl + j))

/-- The first MVL elements touched under vl (R304). -/
def Hart.mSide (h : Hart) : Nat := min h.vl (mvlOf h.mType)

/-- Reading elements of a tile consumes their poison (R354). -/
def Hart.tilePoison (h : Hart) (r w : Nat) (ns : List Nat) : Bool :=
  h.tPsn != [] && ns.any (fun n => h.tPsn.contains (r, n * w / 256))

/-- Writes elements of a tile; granules written whole lose their marks (R352). -/
def Hart.writeTile (h : Hart) (r w : Nat) (es : List (Nat × Nat)) : Hart :=
  let h1 := h.setTile r (es.foldl (fun (t : Tile) (e : Nat × Nat) => setElt t w e.1 e.2) (h.getTile r))
  if h1.tPsn = [] then h1
  else
    let per := 256 / w
    { h1 with tPsn := h1.tPsn.filter (fun p => !(p.1 == r &&
        (List.range per).all (fun k => es.any (fun e => e.1 == p.2 * per + k)))) }

/-- A whole tile becomes zero (R303, R305). -/
def Hart.zeroTile (h : Hart) (r : Nat) : Hart :=
  { (h.setTile r 0#131072) with tPsn := h.tPsn.filter (fun p => p.1 != r) }

/-- The check of R298: a tile at or above NT raises cause 0x14. -/
def M.tile (n : BitVec 3) : M Unit := do
  let h := (← get).hart
  if n.toNat ≥ h.nt then M.vcause 0x14#8 0#64 (zext n) (BitVec.ofNat 64 h.nt)

/-- Waits until the matrix queue of the hart is empty (R301, R303). -/
def M.matrixIdle : M Unit := do
  if (← get).hart.matQ ≠ [] then M.stall

/-! ## The arithmetic of OPA (R102 to R105, R304) -/

/-- The new value of one tile element. -/
def opaElem (t : BitVec 4) (m : Mode) (na nb : Bool) (acc a b : Nat) : Flagged :=
  if t = 0#4 then
    let x := if na then -toSigned 8 a else toSigned 8 a
    let y := if nb then -toSigned 8 b else toSigned 8 b
    narrow 32 true m.sat (toSigned 32 acc + x * y)
  else
    let f := fmtOf t.toNat
    let g := fmtOf (accCode t)
    let s := if m.slices = 0 then (match t.toNat with | 9 => 1 | 10 => 3 | _ => 7) else m.slices
    let x := if na then negV (decodeF f a) else decodeF f a
    let y := if nb then negV (decodeF f b) else decodeF f b
    let (p, f1) := slicedProduct f s m.tri x y
    let (r, f2) := addV m.rm (decodeF g acc) p
    finish g m.rm (r, f1 ||| f2)

/-- An outer product into a tile (R304): the new elements with their flags. -/
def opaTile (t : BitVec 4) (md : BitVec 32) (na nb : Bool) (m : Nat) (a b : BitVec 4096) (tile : Tile) : List (Nat × Flagged) :=
  let w := (etypeOf t.toNat).elim 8 EType.width
  (tileElems (mvlOf t) m).map (fun n =>
    let i := n / mvlOf t
    let j := n % mvlOf t
    (n, opaElem t (modeOf md) na nb (getElt tile (accWidth t) n) (getElt a w i) (getElt b w j)))

/-- One operation of a hart's matrix queue. -/
def Hart.matrixOp (h : Hart) : MatOp → Hart
  | .zero n => h.zeroTile n.toNat
  | .outer n na nb md m a b =>
    let w := accWidth h.mType
    let es := opaTile h.mType md na nb m a b (h.getTile n.toNat)
    let fl := es.foldl (fun (f : BitVec 6) (e : Nat × Flagged) => f ||| e.2.2) 0#6
    let g := h.writeTile n.toNat w (es.map (fun e => (e.1, e.2.1)))
    -- a pass of which no two computations agree leaves poison and no flag (R393)
    if h.opaSplit then
      let bad := (es.map (fun e => (n.toNat, e.1 * w / 256))).eraseDups
      { g with tPsn := bad.filter (fun p => !g.tPsn.contains p) ++ g.tPsn, opaSplit := false }
    else g.raiseFlags fl

/-- An operation reads a poisoned granule of its tile (R354). -/
def Hart.matrixPoison (h : Hart) : MatOp → Bool
  | .zero _ => false
  | .outer n _ _ _ m _ _ => h.tilePoison n.toNat (accWidth h.mType) (tileElems (mvlOf h.mType) m)

/-! ## Modes (R303) -/

/-- MMODE (R303). -/
def execMmode (d a : BitVec 5) (s : State) : Res := settle (do
  let s ← get
  let t := (s.getX a).toNat
  let nt := bitsOf t 4 4
  if t ≥ 256 ∨ ¬ matrixType (bitsOf t 0 4) ∨ nt > 8 then M.illegal (.mmode d a)
  else if nt > s.hart.aTiles then M.vcause 0x14#8 0#64 (BitVec.ofNat 64 nt) (BitVec.ofNat 64 s.hart.aTiles)
  else
    M.matrixIdle
    let ty := BitVec.ofNat 4 t
    modify (fun s => { s with hart := { s.hart with mType := ty, nt := nt, tiles := Vector.replicate 8 0#131072, tPsn := [] } })
    M.result d (if nt = 0 then 0#64 else BitVec.ofNat 64 (mvlOf ty))) s

/-- MEXIT (R303). -/
def execMexit (s : State) : Res := settle (do
  M.matrixIdle
  modify (fun s => { s with hart := { s.hart with nt := 0, tiles := Vector.replicate 8 0#131072, tPsn := [] } })
  M.advance) s

/-! ## Hand-off (R301, R302) -/

/-- The values of the first MVL elements of a source. -/
def gatherElems (h : Hart) (r : Regs) (w m : Nat) : BitVec 4096 :=
  setElts 0#4096 w 0 ((List.range m).map (fun i => getElt (h.getV (r.at i)) w i))

/-- Hands an operation to the matrix queue, when it has room. -/
def M.handOff (op : MatOp) : M Unit := do
  let s ← get
  if s.hart.matQ.length ≥ 8 then M.stall
  else set { s with hart := { s.hart with matQ := s.hart.matQ ++ [op] } }

/-- OPA (R302, R304): checked and handed off with its operands; the type is checked before the tiles, allocated or not (R233,
R376). -/
def execOpa (m : BitVec 2) (y x : BitVec 1) (n : BitVec 3) (a b : BitVec 6) (s : State) : Res := settle (do
  let s ← get
  let h := s.hart
  let md := s.mode m
  if md.etype ≠ h.mType.toNat then M.illegal (.opa m y x n a b)
  else
    let all := { md with guard := 15 }
    checkRegs all md.width [a.toNat, b.toNat]
    M.tile n
    let w := md.width
    let k := h.mSide
    let ra := h.regsOf w a.toNat
    let rb := h.regsOf w b.toNat
    let es := List.range k
    M.consume (h.poisonLanes w es [a.toNat, b.toNat] ++ h.poisonV ra w es ++ h.poisonV rb w es)
    M.handOff (.outer n (isSet x) (isSet y) (h.getMd m) k (gatherElems h ra w k) (gatherElems h rb w k))
    commitVector [a.toNat, b.toNat] 0#6) s

/-- AZERO (R305). -/
def execAzero (n : BitVec 3) (s : State) : Res := settle (do
  M.tile n
  M.handOff (.zero n)
  M.advance) s

/-! ## Loading and reading (R306, R307) -/

/-- The fault values of an element of ACLD (R306). -/
def acldVals (stride : Word) (left n : Nat) (va : Word) (s : State) (c : BitVec 8) : FaultVals :=
  { s.cause c va stride (BitVec.ofNat 64 left) with vec := true, elem := n }

/-- Loads tile elements in ascending order. -/
def acldElems (who : Who) (r w mvl : Nat) (base stride : Word) : List Nat → M Unit
  | [] => pure ()
  | n :: ns => do
    modify (fun s => { s with hart := { s.hart with startElem := n } })
    let va := base + BitVec.ofNat 64 (n / mvl) * stride + BitVec.ofNat 64 (n % mvl * (w / 8))
    let (v, _) ← M.access (acldVals stride (ns.length + 1) n va) n (loadAt who va (w / 8) 0)
    modify (fun s => { s with hart := s.hart.setTile r (setElt (s.hart.getTile r) w n v) })
    acldElems who r w mvl base stride ns

/-- ACLD (R306). -/
def execAcld (n : BitVec 3) (a b : BitVec 5) (s : State) : Res := settle (do
  M.tile n
  M.matrixIdle
  let s ← get
  let h := s.hart
  let w := accWidth h.mType
  let ns := tileElems (mvlOf h.mType) h.mSide
  acldElems s.who n.toNat w (mvlOf h.mType) (s.getX a) (s.getX b) (ns.filter (h.startElem ≤ ·))
  -- granules that the load has covered whole lose their marks
  modify (fun s => { s with hart := s.hart.writeTile n.toNat w (ns.map (fun k => (k, getElt (s.hart.getTile n.toNat) w k))) })
  M.advance) s

/-- ACRD (R307): one row or column of a tile. -/
def execAcrd (m : BitVec 2) (n : BitVec 3) (d : BitVec 6) (c : BitVec 1) (b : BitVec 5) (s : State) : Res := settle (do
  let s ← get
  let h := s.hart
  let md := s.mode m
  let w := accWidth h.mType
  checkRegs md w [d.toNat]
  M.tile n
  M.consume (h.poisonGuard md ++ h.poisonLanes w (List.range h.mSide) [d.toNat])
  M.matrixIdle
  let mvl := mvlOf h.mType
  let r := (s.getX b).toNat % mvl
  let at' := fun (j : Nat) => if isSet c then j * mvl + r else r * mvl + j
  let es := (List.range h.mSide).filter (h.active md)
  if h.tilePoison n.toNat w (es.map at') then fun s => .error (.poison s 0 false)
  else
    let l := (guarded md h.mSide (h.active md) (fun j => (getElt (h.getTile n.toNat) w (at' j), 0#6))).from h.startElem
    let rd := h.regsOf w d.toNat
    modify (fun s => { s with hart := (s.hart.writeElems rd w l).spoil rd w (2048 / w) l.length h.split })
    commitVector [d.toNat] 0#6) s

/-! ## Storing (R308, R309) -/

/-- The epilogue of one element (R308): scale, activation, conversion. -/
def acstElem (t : BitVec 4) (rm : Nat) (sat relu : Bool) (otype : Nat) (sigma : Word) (acc : Nat) : Flagged :=
  let v : FVal := if t = 0#4 then ofIntV (toSigned 32 acc) else decodeF (fmtOf (accCode t)) acc
  let sg : FVal := if t = 11#4 then decodeF fmtF64 sigma.toNat else decodeF fmtF32 (bitsOf sigma.toNat 0 32)
  let (p, f1) := mulV v sg
  let q : FVal := if relu then (match p with
    | .inf true => .fin false 0 0
    | .fin true _ _ => .fin false 0 0
    | x => x) else p
  let (y, f2) := match etypeOf otype with
    | some (.int w s) => toIntF w s sat rm q
    | some (.flt f) => packF f rm q
    | none => (0, 0#6)
  (y, f1 ||| f2)

/-- The address of element `n` of an ACST. -/
def acstAddr (base stride : Word) (mvl wo n : Nat) : Word :=
  base + BitVec.ofNat 64 (n / mvl) * stride + BitVec.ofNat 64 (n % mvl * (wo / 8))

/-- Checks every element before any performs (R309). -/
def acstCheck (who : Who) (base stride : Word) (mvl wo : Nat) : List Nat → M Unit
  | [] => pure ()
  | n :: ns => do
    let va := acstAddr base stride mvl wo n
    let fv := fun (s : State) (c : BitVec 8) =>
      { s.cause c va stride (BitVec.ofNat 64 (ns.length + 1)) with vec := true }
    let _ ← M.access fv 0 (classify who va (wo / 8) .store)
    acstCheck who base stride mvl wo ns

/-- The stores of an ACST, whose checks have passed (R309). -/
def acstPieces (base stride : Word) (mvl wo : Nat) : Pieces (Nat × Flagged) :=
  { size := wo / 8, act := fun _ => true, addr := fun e => acstAddr base stride mvl wo e.1, elem := fun _ => 0,
    vals := fun e s c => { s.cause c (acstAddr base stride mvl wo e.1) stride 1#64 with vec := true },
    value := fun _ e => e.2.1, check := fun _ => pure () }

/-- Performs the stores. -/
def acstStore (who : Who) (base stride : Word) (mvl wo : Nat) (es : List (Nat × Flagged)) : M Unit :=
  storePieces (acstPieces base stride mvl wo) who 0 es

/-- What was stored at an address is poisoned where it stands: in the hart's strip store buffer, a pinned line, its die's L2
or memory (R352). -/
def State.spoilStored (s : State) (who : Who) (va : Word) : State :=
  let line := va.toNat / 128
  let bit := 1#4 <<< (va.toNat / 32 % 4)
  if s.hart.strip.any (fun e => e.line == line) then
    { s with hart := { s.hart with strip := changeAll (fun (e : StripEntry) => e.line == line) (fun e => { e with psn := e.psn ||| bit }) s.hart.strip } }
  else match classify who va 1 .store s with
    | .ok (.scratch, _) => s.mapL1 (changeAll (fun (c : CoreLine) => c.die == who.die && c.core == who.core && c.asid == who.asid && c.line == line)
        (fun c => { c with psn := c.psn ||| bit }))
    | .ok (.cached pa _, _) => match s.findL2 who.die (spaceOf who.asid va) line with
      | some e => s.putL2 { e with psn := e.psn ||| bit }
      | none => s.losePoison (pa / 32)
    | .ok (.memSide pa _, _) | .ok (.bankLinear pa, _) => s.losePoison (pa / 32)
    | _ => s

/-- ACST (R308, R309). -/
def execAcst (m : BitVec 2) (n : BitVec 3) (a c : BitVec 5) (s : State) : Res := settle (do
  let s ← get
  let h := s.hart
  let i : Instr := .acst m n a c
  let desc := (s.getX c).toNat
  let otype := bitsOf desc 32 4
  if !i.wf ∨ bitsOf desc 40 24 ≠ 0 ∨ bitsOf desc 36 3 > 1 ∨ otype ≥ 13 then M.illegal i
  else
    M.tile n
    M.matrixIdle
    let md := s.mode m
    let mvl := mvlOf h.mType
    let w := accWidth h.mType
    let wo := (etypeOf otype).elim 8 EType.width
    let stride := sext (BitVec.ofNat 32 desc)
    let ns := tileElems mvl h.mSide
    let base := s.getX a
    acstCheck s.who base stride mvl wo ns
    if h.tilePoison n.toNat w ns then fun s => .error (.poison s 0 false)
    else
      let es := ns.map (fun k => (k, acstElem h.mType md.rm md.sat (bitsOf desc 36 3 == 1) otype (s.getX (c + 1#5)) (getElt (h.getTile n.toNat) w k)))
      acstStore s.who base stride mvl wo es
      -- in checked mode an epilogue of which no two computations agree leaves poison and no flag (R393)
      let bad := fun (e : Nat × Flagged) => h.split.contains (e.1 / (2048 / w))
      if h.split ≠ [] then modify (fun t => (es.filter bad).foldl (fun (u : State) (e : Nat × Flagged) =>
        u.spoilStored s.who (acstAddr base stride mvl wo e.1)) t)
      let good := es.filter (fun e => !bad e)
      if desc.testBit 39 then modify (fun s => { s with hart := s.hart.zeroTile n.toNat })
      commitVector [] (good.foldl (fun (f : BitVec 6) (e : Nat × Flagged) => f ||| e.2.2) 0#6)
      satTrap (if md.sat then (good.find? (fun e => e.2.2.getLsbD 5)).map (·.1) else none)) s

/-! ## The matrix unit (R72, R301) -/

/-- The unit performs the oldest operation of a hart's queue. -/
def State.matrixTurn (s : State) (uid : Nat) : State :=
  s.withHart uid (fun t =>
    match t.hart.matQ with
    | [] => t
    | op :: rest =>
      if t.hart.matrixPoison op then t.poisonEndsJob t.hart
      else { t with hart := { (t.hart.matrixOp op) with matQ := rest } })

/-- The matrix unit of a hart's core serves the hart next: it passes in slot order among harts with a queued operation
(R72). -/
def State.matrixDue (s : State) (uid : Nat) : Bool :=
  (s.hartOf uid).any (fun h => h.matQ != [] && nextSlot (lastSlot s.matLast h.place.die h.place.core)
    (((s.onCore h.place.die h.place.core).filter (fun g => g.matQ != [])).map (·.place.slot)) == some h.place.slot)

/-- MATRIX_OPERATION (R72, R301): one operation of the hart whose turn it is. -/
def execMatrixOperation (uid : Nat) (s : State) : Res :=
  match s.hartOf uid with
  | some h => .next (if s.matrixDue uid then ({ s with matLast := putSlotServed s.matLast h.place }).matrixTurn uid else s)
  | none => .next s

end Sys2Proof.Machine
end

