-- ==== Sys2Proof/Machine/Place.lean ====
section
/-!
DEFINITION. Packets and harts: the fields of a packet (R59), what launches and completes (R61, R62), the placement of
harts on cores (R64, R65), what a launch leaves in a slot (R67, R68), and pre-emption and resumption (R37 to R41,
R125, R128).
-/

namespace Sys2Proof.Machine

open Sys2Proof

/-! ## Packets (R59) -/

def pkKind (p : Line) : Nat := qField p 0 3 0
def pkPrio (p : Line) : Nat := qField p 0 5 4
def pkFqv (p : Line) : Bool := qField p 0 6 6 == 1
def pkOrdered (p : Line) : Bool := qField p 0 7 7 == 1
def pkFqid (p : Line) : Nat := qField p 0 27 8
def pkCscope (p : Line) : BitVec 2 := BitVec.ofNat 2 (qField p 0 29 28)
def pkCwv (p : Line) : Bool := qField p 0 30 30 == 1
def pkIntr (p : Line) : Bool := qField p 0 31 31 == 1
def pkWaitMask (p : Line) : Nat := qField p 8 63 0
def pkSetMask (p : Line) : Nat := qField p 0x10 63 0
def pkClrMask (p : Line) : Nat := qField p 0x18 63 0
def pkEntry (p : Line) : Nat := qField p 0x18 56 0
def pkArgPtr (p : Line) : Word := BitVec.ofNat 64 (qField p 0x20 63 0)
def pkHarts (p : Line) : Nat := qField p 0x28 31 0
def pkNregsCode (p : Line) : Nat := qField p 0x28 33 32
def pkVlLo (p : Line) : Nat := qField p 0x28 39 36
def pkVlHi (p : Line) : Nat := qField p 0x28 43 40
def pkSlip (p : Line) : Nat := qField p 0x28 52 44
def pkATiles (p : Line) : Nat := qField p 0x28 56 53
def pkDieMask (p : Line) : Nat := qField p 0x28 60 57
def pkWdLimit (p : Line) : Word := BitVec.ofNat 64 (qField p 0x30 63 0)
def pkCompAddr (p : Line) : Nat := qField p 0x38 56 0

/-- The register count of a NREGSCODE (R28, R241). -/
def nregsOf (c : Nat) : Nat := match c with | 0 => 6 | 1 => 12 | 2 => 24 | _ => 48

/-! ## The window (R62) -/

/-- A launched packet whose harts have all retired. -/
def Entry.finished (e : Entry) : Bool := e.launched && !e.complete && !e.failed && e.alive == 0 && e.ranges == []

/-- The TOKENS of a queue: its slot's while it is mapped (R61). -/
def State.tokensOf (s : State) (qid : Nat) : Word :=
  match s.slotOf qid with
  | some t => t.tokens
  | none => BitVec.ofNat 64 (qField (s.qcb qid) 0x28 63 0)

/-- The wait of an entry is satisfied by the tokens as they stand (R61). -/
def State.waitMet (s : State) (t : Slot) (e : Entry) : Bool :=
  let mask : Word := BitVec.ofNat 64 (pkWaitMask e.packet)
  let tokens := if pkFqv e.packet then s.tokensOf (pkFqid e.packet) else t.tokens
  mask == 0#64 || tokens &&& mask == mask

/-- An entry launches: its wait has been satisfied and, if ORDERED, every older entry has launched; a MARKER needs
every older entry complete. A failure stops every further launch (R60, R62), and so does a cleared QEN (R338). -/
def State.launchable (s : State) (t : Slot) (e : Entry) : Bool :=
  let older := t.window.filter (fun o => o.idx < e.idx)
  -- a packet that a restart has sent back stands outside the window until it is read again (R361)
  let whole := older.length == e.idx - t.retireIdx
  (e.eligible || s.waitMet t e) && !e.launched && !e.failed && (!pkOrdered e.packet || (whole && older.all (·.launched)))
    && (pkKind e.packet != 2 || (whole && older.all (·.complete))) && !(t.window.any (·.failed))
    && s.qEn t.qid

/-- The index of the next packet to enter the window: one that a restart has sent back, else READIDX (R62, R361). -/
def Slot.nextIdx (t : Slot) : Nat :=
  (((List.range 33).map (fun k => t.retireIdx + k)).find? (fun i =>
    i < t.readIdx && !(t.window.any (fun e => e.idx == i)))).getD t.readIdx

/-- A packet may enter the window. -/
def Slot.canRead (t : Slot) : Bool :=
  decide (t.nextIdx < t.writeIdx) && decide (t.nextIdx < t.retireIdx + 32) && !(t.window.any (·.failed))

/-! ## Room on a core (R65) -/

/-- Free bytes of a core's vector register file. -/
def State.freeFile (s : State) (die core : Nat) : Nat := 4194304 - ((s.onCore die core).map Hart.footprint).sum

/-- Accumulator tiles of a core that no hart has reserved. -/
def State.freeTiles (s : State) (die core : Nat) : Nat := 8 - ((s.onCore die core).map (·.aTiles)).sum

/-- The hart slot of a core that a placed hart gets: R65 names the core and no slot; the model takes the lowest free one (log
entry 64). -/
def State.freeHartSlot (s : State) (die core : Nat) : Option Nat :=
  (List.range 16).find? (fun n => !((s.onCore die core).any (fun h => h.place.slot == n)))

/-- The pinned lines of a core in the set of a scratchpad line (R125). -/
def State.pinnedWays (s : State) (die core line : Nat) : Nat :=
  (s.mm.l1.filter (fun c => c.die == die && c.core == core && c.pin.isSome && c.line % 512 == line % 512)).length

/-- The saved scratchpad lines of a hart can be pinned on a core again (R125, rule 4). -/
def State.pinsFit (s : State) (die core : Nat) (h : Hart) : Bool :=
  h.pins.all (fun p =>
    decide (s.pinnedWays die core p.line + (h.pins.filter (fun q => q.line % 512 == p.line % 512)).length ≤ 6)
      && (findCore s.mm.l1 die core h.asid p.line).isNone)

/-- A core takes part in placement. -/
def State.coreOpen (s : State) (die core : Nat) : Bool :=
  decide (core < 48) && !s.err.closedCores.contains (die, core)

/-- A core fits a hart at a VLMAX (R65). -/
def State.fits (s : State) (die core : Nat) (h : Hart) (v : Nat) : Bool :=
  s.coreOpen die core && (s.freeHartSlot die core).isSome && decide (h.nregs * v * 8 ≤ s.freeFile die core)
    && decide (h.aTiles ≤ s.freeTiles die core) && s.pinsFit die core h

/-- The best core of a list with its free file after placing: the least free, ties to the lowest core. -/
def leastFree : List (Nat × Nat) → Option Nat
  | [] => none
  | c :: l => match l.foldl (fun (b : Nat × Nat) (x : Nat × Nat) => if x.2 < b.2 then x else b) c with
    | b => some b.1

/-- Where a hart is placed on a die (R65): the largest VLMAX that some core fits, with that core. A resumed hart keeps
its VLMAX. -/
def State.whereTo (s : State) (die : Nat) (h : Hart) (fixed : Bool) : Option (Nat × Nat) :=
  let vs := if fixed then [h.vlMax] else (List.range (h.vlHi + 1 - h.vlLo)).map (fun k => 2 ^ (h.vlHi - k))
  vs.findSome? (fun v =>
    (leastFree (((List.range 48).filter (fun c => s.fits die c h v)).map (fun c => (c, s.freeFile die c)))).map (fun c => (c, v)))

/-! ## Launch (R67, R68) -/

/-- A hart of a packet before it is placed. -/
def State.newHart (s : State) (t : Slot) (e : Entry) (i : Nat) : Hart :=
  let p := e.packet
  let q := s.qcb t.qid
  let wd := if pkWdLimit p = 0#64 then BitVec.ofNat 64 (qField q 0x30 63 0) else pkWdLimit p
  let hartId := BitVec.ofNat 64 (i % 2 ^ 32 + t.qid * 2 ^ 32)
  let c := { Csrs.reset with tvec := BitVec.ofNat 64 (qField q 0x40 56 0) &&& ~~~3#64, wdLimit := wd, hartId := hartId,
                             slip := clampSlip (BitVec.ofNat 64 (pkSlip p)) }
  let h := { Hart.reset with uid := s.fresh, asid := s.qAsid t.qid, prio := pkPrio p, queue := t.qid, packet := e.idx,
                             vlLo := pkVlLo p, vlHi := pkVlHi p, nregs := nregsOf (pkNregsCode p), aTiles := pkATiles p,
                             pc := BitVec.ofNat 64 (pkEntry p), csr := c }
  ((h.setX 1#5 (pkArgPtr p)).setX 2#5 (BitVec.ofNat 64 i)).setX 3#5 (BitVec.ofNat 64 (pkHarts p))

/-- The instruction cache of a core discards an address space's lines at the first hart of a packet there (R128). -/
def State.icacheDrop (s : State) (die core asid : Nat) : State :=
  s.mapIcache (fun l => l.filter (fun c => !(c.die == die && c.core == core && c.asid == asid)))

/-- A packet reaches a core with a hart: a core that has received none of its harts discards the address space's lines
from its instruction cache, and is remembered for the packet's release (R63, R128). -/
def State.reachCore (s : State) (qid idx die core asid : Nat) : State :=
  let known := match s.slotOf qid with
    | some t => t.window.any (fun e => e.idx == idx && e.cores.contains (die, core))
    | none => false
  if known then s
  else (s.icacheDrop die core asid).onEntry qid idx (fun e => { e with cores := (die, core) :: e.cores })

/-- Puts a hart into a core's slot at a VLMAX. -/
def State.seat (s : State) (h : Hart) (die core v : Nat) : State × Hart :=
  let slot := (s.freeHartSlot die core).getD 0
  let h1 := { h with phase := .resident, place := ⟨die, core, slot⟩, vlMax := v, waitCount := 0, promoted := 0, fetched := false }
  -- saved scratchpad lines are pinned again with their contents (R125)
  let s1 := h.pins.foldl (fun (t : State) (p : SavedPin) =>
    t.mapL1 (fun l => fillCore 512 l ⟨die, core, h.asid, p.line, 0, 0, 0, 2, p.data, 0, p.psn, some h.uid⟩)) s
  ((s1.acquire die core 2#2), { h1 with pins := [] })

/-- The kernel range of an entry does not hold the packet's (R68). -/
def State.rangeRefused (s : State) (h : Hart) : Bool :=
  let known := s.jobGet h.asid (·.kernels) []
  match known.find? (fun k => k.1 == h.pc) with
  | some (_, lo, hi) => decide (h.vlLo < lo) || decide (hi < h.vlHi)
  | none => true

/-- Places the first time a hart of a packet (R65, R67, R68). -/
def State.launchHart (s : State) (t : Slot) (e : Entry) (i die core v : Nat) : State :=
  let h0 := s.newHart t e i
  let (s1, h1) := (s.reachCore t.qid e.idx die core h0.asid).seat h0 die core v
  let h2 := { h1 with vl := v, vPi := Vector.replicate 48 v, mPi := Vector.replicate 12 v }
  let s2 := { s1.onEntry t.qid e.idx (fun x => { x with alive := x.alive + 1 }) with others := s1.others ++ [h2], fresh := s1.fresh + 1 }
  if s2.rangeRefused h2 then
    let fv : FaultVals := { cause := 0x13#8, vec := false, epc := h2.pc, elem := 0, va := h2.pc,
                            stride := BitVec.ofNat 64 h2.vlLo, remain := BitVec.ofNat 64 h2.vlHi, given := true }
    s2.withHart h2.uid (fun u => u.trapEntry fv)
  else s2

/-! ## Pre-emption and resumption (R37 to R41) -/

/-- The elements of an element group of the instruction at a hart's PC, 2048 bits at its width (R76): a vector memory
instruction's, or an accumulator load's. Where the word cannot be read, the group of the narrowest elements, whose boundaries
are boundaries of every width. -/
def State.groupOf (s : State) (h : Hart) : Nat :=
  match fetchWord ⟨h.uid, h.place.die, h.place.core, h.asid⟩ h.pc s with
  | .ok (w, _) =>
    if (w.extractLsb' 25 7).toNat = 0x36 then 2048 / (modeOf (h.getMd (w.extractLsb' 23 2))).width
    else if (w.extractLsb' 25 7).toNat = 0x38 then (if h.mType = 11#4 then 32 else 64)
    else 512
  | .error _ => 512

/-- Where a save leaves the instruction that it stops: at the last boundary of its element groups that it has passed, or
where it started; a hart that waits for the pager stands where it stopped (R37, R40). -/
def State.savedElem (s : State) (h : Hart) : Nat :=
  match h.wait with
  | .pager _ => h.startElem
  | _ => max h.elemFrom (h.startElem / s.groupOf h * s.groupOf h)

/-- The records of a save (R38): each register that the instruction at the position has in part produced, with its progress
index, which is where the save leaves the instruction, and its PC. -/
def State.producing (s : State) (h : Hart) : List ProgressRec :=
  ((List.range 48).filter (fun r => decide ((h.vPi[r]?.getD h.vlMax) < h.vlMax) && !(s.streamRegs h.uid).getLsbD r)).map (fun r =>
    ⟨h.csr.hm, false, r, s.savedElem h, h.pc⟩)

/-- A hart is stopped and saved (R38, R41, R125): its furlong commits, its pinned lines go with it, its accesses are
ordered as FENCE.p FULL would order them, and its uncommitted work is discarded. -/
def State.preempt (s : State) (uid : Nat) : State :=
  match s.hartOf uid with
  | none => s
  | some h =>
    if !h.isResident then s
    else
      let back := fun (t : State) => t.focusOn s.hart.uid
      match (s.focusOn uid).closing with
      | .error t => back t
      | .ok t =>
        let s1 := back t
        let mine := s1.mm.l1.filter (fun c => c.pin == some uid)
        let pins := mine.map (fun c => (⟨c.line, c.data, c.psn⟩ : SavedPin))
        let s2 := ((s1.unpin uid).release h.place.die h.place.core 2#2).abandon uid
        s2.onHart uid (fun g => { g with phase := .waiting, wait := .none, leaving := false, held := false, pins := pins,
                                         pc := g.position, startElem := s2.savedElem g, elemFrom := s2.savedElem g,
                                         vPi := g.restPi 0#48, records := s2.producing g ++ g.records,
                                         region := none, pathAt := none, kept := [], replies := [] })

/-- A saved hart is placed again (R39, R41): no register has been written since (R38). -/
def State.resume (s : State) (uid die core : Nat) : State :=
  match s.hartOf uid with
  | none => s
  | some h =>
    let (s1, h1) := (s.reachCore h.queue h.packet die core h.asid).seat h die core h.vlMax
    s1.onHart uid (fun _ => { h1 with vDirty := Vector.replicate 48 0 })

/-! ## The dispatcher's order (R65) -/

/-- What waits for a place on a die: a saved hart, or a packet's range of new ones. -/
inductive Waiting where
  /-- with the launch order of its packet -/
  | saved (h : Hart) (order : Nat)
  | fresh (t : Slot) (e : Entry) (r : Range)

/-- The order of R65 as a key: PRIO descending, saved before new, launch order, hart number. -/
def Waiting.key : Waiting → List Nat
  | .saved h order => [3 - h.prio, 0, order, (h.csr.hartId.toNat % 2 ^ 32)]
  | .fresh _ e r => [3 - pkPrio e.packet, 1, e.order, r.next]

/-- Lexicographic order of keys. -/
def keyLess : List Nat → List Nat → Bool
  | a :: l, b :: m => decide (a < b) || (a == b && keyLess l m)
  | _, _ => false

/-- Inserts by key, after equal ones. -/
def insertWaiting (w : Waiting) : List Waiting → List Waiting
  | [] => [w]
  | x :: l => if keyLess w.key x.key then w :: x :: l else x :: insertWaiting w l

/-- The launch order of a hart's packet: of its entry in the window of its queue, mapped or kept (R57, R62). -/
def State.launchOrder (s : State) (h : Hart) : Nat :=
  let window := match s.slotOf h.queue with
    | some t => t.window
    | none => (getKey h.queue s.fe.held).getD []
  ((window.find? (fun e => e.idx == h.packet)).map (·.order)).getD 0

/-- A saved hart waits on its own die; while no core there fits it, on every die (R41, R65; log entry 51). -/
def State.savedWaits (s : State) (die : Nat) (h : Hart) : Bool :=
  h.phase == .waiting && (h.place.die == die || (s.whereTo h.place.die h true).isNone)

/-- Everything that waits for a place on a die, in the dispatcher's order. -/
def State.waitingOn (s : State) (die : Nat) : List Waiting :=
  let saved := (s.harts.filter (s.savedWaits die)).map (fun h => Waiting.saved h (s.launchOrder h))
  let new := s.fe.slots.flatMap (fun t => t.window.flatMap (fun e =>
    if e.launched then (e.ranges.filter (fun r => r.die == die)).map (Waiting.fresh t e) else []))
  (saved ++ new).foldl (fun l w => insertWaiting w l) []

/-- The hart that a waiting entry stands for, as far as its needs go. -/
def State.needOf (s : State) : Waiting → Hart
  | .saved h _ => h
  | .fresh t e r => s.newHart t e r.next

/-- Advances the range of a packet on a die past a placed hart. -/
def State.rangeOn (s : State) (qid idx die : Nat) : State :=
  match s.slotOf qid with
  | none => s
  | some t =>
    let step := fun (r : Range) => if r.die = die then { r with next := r.next + 1 } else r
    let move := fun (e : Entry) => { e with ranges := (e.ranges.map step).filter (fun r => decide (r.next < r.stop)) }
    s.putSlot { t with window := changeAll (fun e => e.idx == idx) move t.window }

/-- Places the harts of one range while a core fits them: they all need the same. -/
def State.placeRange (s : State) (qid idx die : Nat) : Nat → State
  | 0 => s
  | fuel + 1 =>
    match (s.slotOf qid).bind (fun t => (t.window.find? (fun e => e.idx == idx)).map (fun e => (t, e))) with
    | none => s
    | some (t, e) =>
      match e.ranges.find? (fun r => r.die == die) with
      | none => s
      | some r =>
        match s.whereTo die (s.newHart t e r.next) false with
        | none => s
        | some (core, v) => ((s.launchHart t e r.next die core v).rangeOn qid idx die).placeRange qid idx die fuel

/-- Serves one waiting entry. At most 768 harts fit a die at once. -/
def State.serve (s : State) (die : Nat) : Waiting → State
  | .saved h _ => match s.whereTo die h true with
    | some (core, _) => s.resume h.uid die core
    | none => s
  | .fresh t e _ => s.placeRange t.qid e.idx die 768

/-- The dispatcher of a die places what waits on the cores that fit it (R65); harts wait on any die of the package
when they resume (R41). -/
def State.dispatch (s : State) (die : Nat) : State :=
  (s.waitingOn die).foldl (fun t w => t.serve die w) s

/-- The state with a hart gone from its core, its pinned lines with it (R125). -/
def State.without (s : State) (uid : Nat) : State := (s.unpin uid).onHart uid (fun g => { g with phase := .waiting })

/-- A waiting hart of equal or higher class would fit on a hart's core once that hart is removed (R227). -/
def State.yieldsTo (s : State) (h : Hart) : Bool :=
  let t := s.without h.uid
  (s.waitingOn h.place.die).any (fun w =>
    let g := s.needOf w
    decide (h.prio ≤ g.prio) && (match w with
      | .saved x _ => t.fits h.place.die h.place.core x x.vlMax
      | .fresh _ _ _ => (List.range (g.vlHi + 1 - g.vlLo)).any (fun k => t.fits h.place.die h.place.core g (2 ^ (g.vlLo + k)))))

end Sys2Proof.Machine
end

