-- ==== Sys2Proof/Machine/Issue.lean ====
section
/-!
DEFINITION. Which agent moves next: the issue rule of a core (R70), the waits of WFI (R227), and the next event of
the engines and the front ends.
-/

namespace Sys2Proof.Machine

open Sys2Proof

/-! ## Harts (R70) -/

/-- A hart is promoted (R70): the number is the step at which it was, so that the earliest stands out. -/
def Hart.promote (h : Hart) (tick : Nat) : Hart := if h.promoted = 0 then { h with promoted := tick + 1 } else h

/-- Hart `a` is issued before hart `b` of its core (R70). -/
def issuesBefore (a b : Hart) : Bool :=
  if a.promoted != 0 && b.promoted != 0 then
    decide (a.promoted < b.promoted) || (a.promoted == b.promoted && decide (a.place.slot ≤ b.place.slot))
  else if a.promoted != 0 then true
  else if b.promoted != 0 then false
  else decide (b.prio < a.prio) || (a.prio == b.prio && (decide (b.waitCount < a.waitCount)
    || (a.waitCount == b.waitCount && decide (a.place.slot ≤ b.place.slot))))

/-- The hart that a core issues for, among its ready harts. -/
def pickHart : List Hart → Option Hart
  | [] => none
  | h :: l => match pickHart l with
    | none => some h
    | some g => if issuesBefore h g then some h else some g

/-- What an issue leaves (R70): the hart in focus starts to wait anew, and every other hart of its core that was ready, by
number, waits one instruction longer. Harts found unable to issue are tried again. -/
def State.countIssue (s : State) (ready : List Nat) : State :=
  let count := fun (g : Hart) =>
    if ready.contains g.uid then
      let w := { g with waitCount := g.waitCount + 1 }
      if w.waitCount = 64 then w.promote s.tick else w
    else g
  { s with hart := { s.hart with waitCount := 0, promoted := 0 }, others := s.others.map (fun g => { (count g) with held := false }) }

/-- After a hart's turn, beside the harts that were ready too: an instruction that could not issue counts for nothing. -/
def State.afterTurn (s : State) (ready : List Nat) : State := if s.hart.held then s else s.countIssue ready

/-- The phases that the barrier registers of a hart see, by register (R227). -/
def State.boundPhases (s : State) (h : Hart) : List (BitVec 32) :=
  (List.range 8).map (fun n => match h.getB (BitVec.ofNat 3 n) with
    | some b => match s.leagueOf b.league with
      | some l => (l.object b.object).c
      | none => 0#32
    | none => 0#32)

/-- What a WFI of a hart watches: its k registers and bound phases. -/
def State.wfiView (s : State) (h : Hart) : Wait := .wfi h.k.toList (s.boundPhases h)

/-- A WFI of the hart ends: one of its k registers has changed or a bound barrier has completed a phase (R227). -/
def State.wfiEnds (s : State) (h : Hart) : Bool :=
  match h.wait with
  | .wfi _ _ => h.isResident && !h.dbgHalted && s.wfiView h != h.wait
  | _ => false

/-- The WFI of the hart in focus commits. -/
def State.wfiCommit (s : State) : State := { s with hart := { s.hart with wait := .none } }.advance

/-- The cause of a hart on its core whose entry waits. -/
def Hart.trapDue (h : Hart) : Option FaultVals :=
  match h.wait with
  | .trap v => if h.isResident && !h.dbgHalted then some v else none
  | _ => none

/-- The hart that moves next: of the first core in the list of harts that has a ready one, the one that R70 chooses; when
every ready hart has been found unable to issue, they are tried in turn. -/
def State.nextHart (s : State) : Option Nat :=
  let l := s.others ++ [s.hart]
  let free := fun (h : Hart) => h.isReady && !h.held
  match l.find? (fun h => free h || s.wfiEnds h || h.trapDue.isSome) with
  | some h => if free h then (pickHart ((s.onCore h.place.die h.place.core).filter free)).map (·.uid) else some h.uid
  | none => (l.find? (·.isReady)).map (·.uid)

/-! ## Engines, front ends and start-up -/

/-- The start-up step that is due (R332), with the image that it finds in the boot flash. -/
def State.bootEvent (s : State) : Option Instr :=
  if s.terak.ready || s.terak.fail != 0 then none
  else
    let img := Config.bootImage s.terak.stage.toNat
    match s.terak.stage.toNat with
    | 0 => some (.powerGood img)
    | 1 => some (.stackManagersReady img)
    | _ => some .frontEndsReady

/-- The next event of a walk (R159, R162). -/
def walkEvent (walks : List Walk) (w : Walk) : Option Instr :=
  match w.state with
  | .queued =>
    if (walks.filter (fun v => v.die == w.die && v.state == .active)).length < 16 then some (.walkStart w.id) else none
  | .active => if w.stack = [] then some (.walkComplete w.id) else some (.walkObjectVisit w.id)
  | .stopped _ _ _ _ => none

/-- The next event of a copy (R311, R312). -/
def copyEvent (c : Copy) : Instr :=
  if c.row > bitsOf c.shape.toNat 0 12 then .tcopyComplete c.id else .tcopyRow c.id

/-- The turn of a bank that has something to do (R275, R290, R292, R294). -/
def State.bankTurn (s : State) (e : Nat × Bank) : Option Turn :=
  let b := e.2
  if b.moving.isSome then some (.event (.ordinaryRequestDataMoved e.1))
  else if b.susp && s.engineRow e.1 then
    some (if b.pending = [] || decide (16 ≤ b.started) then .event (.suspensionWindowEnd e.1) else .event (.rowOperationEnd e.1))
  else if b.pending ≠ [] && !(b.resumed && s.engineRow e.1) then some (.event (.rowOperationEnd e.1))
  else if b.susp then some (.event (.suspensionWindowEnd e.1))
  else if s.bankHeld e.1 && b.nextIsRow then none
  else match b.run with
    | .program _ _ _ => some (.bank e.1)
    | .lookup _ _ _ _ _ _ => some (.event (.rowOperationEnd e.1))
    | .idle => match b.queue with
      | [] => none
      | c :: _ => match c.op with
        | .drain => none
        | _ => some (.event (.bankCommandStart e.1))

/-- Every bank of a command's set has reached the command's drain. -/
def State.drainReady (s : State) (c : Cmd) : Bool := c.drain.isSome && s.drainDue c

/-- The next event of a slot (R62). -/
def State.slotEvent (s : State) (t : Slot) : Option Instr :=
  match t.window.find? (fun e => e.finished || (e.complete && e.idx == t.retireIdx)) with
  | some e => some (.packetComplete t.die t.slot e.idx)
  | none =>
    if (t.window.find? (s.launchable t)).isSome then some (.packetLaunch t.die t.slot)
    else if t.canRead && s.qEn t.qid then some (.packetEnterWindow t.die t.slot)
    else none

/-- Some hart that waits for a place on a die fits a core there (R65). -/
def State.wantsPlace (s : State) (die : Nat) : Bool :=
  (s.waitingOn die).any (fun w => match w with
    | .saved h _ => (s.whereTo die h true).isSome
    | .fresh t e r => (s.whereTo die (s.newHart t e r.next) false).isSome)

/-- The turns that the engines and the front ends could take, each source in its order. -/
def State.engineTurns (s : State) : List Turn :=
  (s.harts.filter (fun h => s.matrixDue h.uid)).map (fun h => .event (.matrixOperation h.uid))
    ++ (s.walks.filterMap (walkEvent s.walks)).map .event
    ++ (s.copies.filter (fun c => s.copyDue c || decide (c.rows ≤ c.row))).map (fun c => .event (copyEvent c))
    ++ s.banks.filterMap s.bankTurn
    ++ (s.cmds.filter s.drainReady).map (fun c => .event (.reductionDrain c.id))
    ++ (s.cmds.filter Cmd.ended).map (fun c => .event (.bankCommandComplete c.id))
    ++ (s.fe.slots.filterMap s.slotEvent).map .event
    ++ ((List.range 4).filter s.wantsPlace).map (fun d => .event (.dispatch d))

end Sys2Proof.Machine
end

