-- ==== Sys2Proof/Machine/Preempt.lean ====
section
/-!
DEFINITION. Pre-emption as the dispatcher carries it out: what must end before a hart is saved (R37, R299), and which
harts give way to one that waits (R49, R66).
-/

namespace Sys2Proof.Machine

open Sys2Proof

/-! ## Before the save (R37, R299) -/

/-- An atomic or region of a hart is out at another device, or has been answered there: it has taken effect, or may have,
and must not be sent again (R27). -/
def State.midRemote (s : State) (uid : Nat) : Bool :=
  let heavy := fun (o : BitVec 6) => o == 2#6 || o == 3#6
  (s.repliesOf uid).any (fun p => heavy p.op) || s.fab.streams.any (fun t => t.outstanding.any (fun r =>
    heavy r.op && t.waiting.any (fun w => w.1 == r.eseq && w.2 == uid)))

/-- What holds a save back (R27, R37, R41, R239, R287, R299): an operation of its matrix queue, a copy still in flight, a
stream drain still to be delivered, a store that has not performed, an atomic or region whose reply is still to be taken, a
cause whose entry waits, a plane that is being quiesced (R411). The engines end theirs in their own turns (R72). -/
def State.saveHeld (s : State) (uid : Nat) : Bool :=
  (s.hartOf uid).any (fun h => h.matQ != [] || h.trapWaits) || s.copies.any (fun c => c.uid == uid) || s.cmds.any (fun c => c.stream && c.uid == uid)
    || s.unacked uid || s.midRemote uid || !s.planesMove

/-- A hart is pre-empted now; while something holds its save back it is stopped, and saved when that has ended. -/
def State.preemptNow (s : State) (uid : Nat) : State :=
  match s.hartOf uid with
  | none => s
  | some h =>
    if !h.isResident then s
    else if s.saveHeld uid then s.onHart uid (fun g => { g with leaving := true })
    else s.preempt uid

/-! ## Making room (R49, R66) -/

/-- The sublists of `k` entries, in the order of the list. -/
def sublistsOf {α : Type} : List α → Nat → List (List α)
  | _, 0 => [[]]
  | [], _ + 1 => []
  | a :: l, k + 1 => (sublistsOf l k).map (a :: ·) ++ sublistsOf l (k + 1)

/-- Inserts a hart by class, lowest first. -/
def insertByClass (h : Hart) : List Hart → List Hart
  | [] => [h]
  | g :: l => if h.prio < g.prio then h :: g :: l else g :: insertByClass h l

/-- The vector lengths a waiting hart may be placed at, largest first. -/
def Waiting.lengths (w : Waiting) (need : Hart) : List Nat :=
  match w with
  | .saved h _ => [h.vlMax]
  | .fresh _ _ _ => (List.range (need.vlHi + 1 - need.vlLo)).map (fun k => 2 ^ (need.vlHi - k))

/-- A core fits a hart at one of some lengths once other harts are gone. -/
def State.fitsWithout (s : State) (die core : Nat) (need : Hart) (vs : List Nat) (gone : List Hart) : Bool :=
  let t := gone.foldl (fun (u : State) (g : Hart) => u.without g.uid) s
  vs.any (fun v => t.fits die core need v)

/-- The harts of lowest class, cores compared class by class; equal ones go to the lowest core. -/
def lowestClasses : List (Nat × List Hart) → Option (Nat × List Hart)
  | [] => none
  | c :: l => some (l.foldl (fun (b : Nat × List Hart) (x : Nat × List Hart) =>
      if keyLess (x.2.map (·.prio)) (b.2.map (·.prio)) then x else b) c)

/-- The fewest harts of a die that, once pre-empted, let a hart fit on one core: of every core's choices of so few, those of
lowest class (R66). -/
def State.roomOn (s : State) (die : Nat) (need : Hart) (vs : List Nat) (ok : Hart → Bool) : Option (Nat × List Hart) :=
  (List.range 17).findSome? (fun k => lowestClasses ((List.range 48).filterMap (fun c =>
    let l := ((s.onCore die c).filter ok).foldl (fun (l : List Hart) (h : Hart) => insertByClass h l) []
    ((sublistsOf l k).find? (fun g => s.fitsWithout die c need vs g)).map (fun g => (c, g)))))

/-- Pre-empts harts. -/
def State.preemptAll (s : State) (l : List Hart) : State := l.foldl (fun (t : State) (h : Hart) => t.preemptNow h.uid) s

/-- A waiting hart that has waited 50 µs takes the place of harts of lower classes (R66). -/
def State.yieldTo (s : State) (die : Nat) (w : Waiting) : State :=
  let need := s.needOf w
  match s.roomOn die need (w.lengths need) (fun h => decide (h.prio < need.prio)) with
  | some (_, l) => (s.preemptAll l).serve die w
  | none => s

/-- A saved member of a league whose members may wait for it (R49): it waits in a BWAIT itself, or another member lives, on a
core or saved. No dispatcher can tell a spin loop, so every other member counts as one that may wait (log entry 52). -/
def State.leagueWaits (s : State) (h : Hart) : Bool :=
  h.phase == .waiting && h.league.isSome
    && (h.atBarrier || s.harts.any (fun g => g.uid != h.uid && g.league == h.league && (g.isResident || g.phase == .waiting)))

/-- Where a saved league member can be placed, other work pre-empted: its own die first (R41, R49). -/
def State.leagueRoom (s : State) (h : Hart) : Option (Nat × Nat × List Hart) :=
  (h.place.die :: (List.range 4).filter (fun d => d != h.place.die)).findSome? (fun d =>
    (s.roomOn d h [h.vlMax] (fun g => g.league != h.league)).map (fun r => (d, r.1, r.2)))

/-- The dispatcher makes a league resident whose member waits at a barrier. -/
def State.seatLeague (s : State) (h : Hart) : State :=
  match s.leagueRoom h with
  | some (d, c, l) =>
    let t := s.preemptAll l
    if t.fits d c h h.vlMax then t.resume h.uid d c else t
  | none => s

/-- Saved harts of a die whose league waits for them. -/
def State.leagueCalls (s : State) (die : Nat) : List Hart :=
  s.harts.filter (fun h => h.place.die == die && s.leagueWaits h)

end Sys2Proof.Machine
end

