-- ==== Sys2Proof/Machine/QueueEvents.lean ====
section
/-!
DEFINITION. What the front ends do with queues and packets (R55 to R63): notify writes, mapping, the window, launch and
completion.
-/

namespace Sys2Proof.Machine

open Sys2Proof

/-- The front end of a die as a requester: it has a number of its own, above every hart, and a place beside the cores. -/
def frontEnd (die asid : Nat) : Who := ⟨2 ^ 64 + die, die, 48, asid⟩

/-! ## Mapping (R55 to R57) -/

/-- NOTIFY_WRITE (R55). -/
def execNotifyWrite (die slot bytes : Nat) (value : Word) (writer : Option Nat) (s : State) : Res :=
  .next (s.notify die slot bytes value writer)

/-- QUEUE_MAP (R56): the front end of a queue's home die maps it. -/
def execQueueMap (die qid : Nat) (s : State) : Res :=
  .next (if s.frontEndAt die && decide (qid < s.fe.qcount) && s.qHome qid == die then s.mapQueue qid else s)

/-- QUEUE_IDLE_TIMEOUT (R56): an idle queue is unmapped, and waiting requests are served. -/
def execQueueIdleTimeout (die slot : Nat) (s : State) : Res :=
  match s.slotAt die slot with
  | some t => .next (if s.frontEndAt die && t.idle then (s.unmapQueue t.qid).serveMapWait else s)
  | none => .next s

/-! ## Entering the window (R58 to R62) -/

/-- A set bit that the kind of a packet reserves, or a field outside its limits: QERRCODE 0x02 (R60). -/
def badHeader (p : Line) : Bool :=
  qField p 0 63 32 != 0 ||
  (pkKind p == 1 &&
    (qField p 0x18 63 57 != 0 || qField p 0x28 63 61 != 0 || qField p 0x28 35 34 != 0 || qField p 0x38 63 57 != 0
      || pkHarts p == 0 || decide (pkVlLo p < 7) || decide (12 < pkVlLo p) || decide (pkVlHi p < 7)
      || decide (12 < pkVlHi p) || decide (pkVlHi p < pkVlLo p) || decide (8 < pkATiles p)
      || pkEntry p % 4 != 0 || pkCompAddr p % 8 != 0))

/-- The error code of a malformed packet of a queue (R60); a NOP is never malformed (R59). -/
def State.packetCode (s : State) (qid : Nat) (p : Line) : Option Nat :=
  if pkKind p = 0 then none
  else if pkKind p ≥ 4 then some 1
  else if badHeader p then some 2
  else if pkFqv p && (decide (s.fe.qcount ≤ pkFqid p) || s.qAsid (pkFqid p) != s.qAsid qid) then some 3
  else none

/-- How the read of a packet ends. -/
inductive RingRead where
  | packet (p : Line) (s : State)
  | unreadable (s : State)
  | waits (s : State)

/-- Reads packet `i` of a queue from its ring, after an acquire at system scope (R50, R51, R58). A poisoned packet cannot
be read. -/
def State.readRing (s : State) (t : Slot) (i : Nat) : RingRead :=
  let q := s.qcb t.qid
  let asid := s.qAsid t.qid
  let size := qField q 8 4 0
  let base := qField q 0 56 0
  if size < 4 ∨ 20 < size ∨ base % 128 ≠ 0 ∨ (asid ≠ 0 ∧ (s.jobOf asid).isNone) then .unreadable s
  else
    let who := frontEnd t.die asid
    let va : Word := BitVec.ofNat 64 (base + i % 2 ^ size * 128)
    let read : A LineVal := do
      let w ← classify who va 128 .load
      readLine who va.toNat 128 2 w
    match read (s.acquire t.die 48 3#2) with
    | .ok (v, u) => if v.psn = 0#4 then .packet v.data u else .unreadable u
    | .error (.wait u) => .waits u
    | .error _ => .unreadable s

/-- An entry in index order. -/
def insertEntry (e : Entry) : List Entry → List Entry
  | [] => [e]
  | x :: l => if e.idx < x.idx then e :: x :: l else x :: insertEntry e l

/-- A packet's entry as it enters the window. -/
def Entry.fresh (idx : Nat) (p : Line) : Entry :=
  { idx := idx, packet := p, eligible := false, launched := false, complete := false, failed := false, code := 0,
    ranges := [], alive := 0, order := 0, cores := [] }

/-- Adds an entry to a slot's window and moves READIDX. -/
def State.addEntry (s : State) (t : Slot) (e : Entry) : State :=
  s.putSlot { t with window := insertEntry e t.window, readIdx := max t.readIdx (e.idx + 1) }

/-- RETIREIDX advances past every consecutive complete entry, from the one it names on; it is written through with release at system scope, after
the completion words of the packets it passes (R53, R62). -/
def State.retire (s : State) (qid : Nat) : State :=
  match s.slotOf qid with
  | none => s
  | some t =>
    let done := (t.window.zipIdx.takeWhile (fun e => e.1.complete && e.1.idx == t.retireIdx + e.2)).length
    if done = 0 ∨ s.unacked (frontEnd t.die 0).uid ∨ ¬ s.planesMove then s
    else
      let t1 := { t with window := t.window.drop done, retireIdx := t.retireIdx + done }
      ((s.putSlot t1).release t.die 48 3#2).setQ qid 0x20 43 0 t1.retireIdx

/-- What follows any completion (R57, R62). -/
def State.afterCompletion (s : State) (qid : Nat) : State := ((s.retire qid).dropFailed qid).serveMapWait

/-- PACKET_ENTER_WINDOW (R58 to R62): the next packet of an enabled queue's slot enters its window. -/
def execPacketEnterWindow (die slot : Nat) (s : State) : Res :=
  match s.slotAt die slot with
  | none => .next s
  | some t =>
    if !s.frontEndAt die || !t.canRead || !s.qEn t.qid || !s.planesMove then .next s
    else
      let i := t.nextIdx
      match s.readRing t i with
      | .waits u => .next u
      | .unreadable u => .next ((u.addEntry t (Entry.fresh i 0)).failPacket t.qid i 4)
      | .packet p u =>
        match u.packetCode t.qid p with
        | some code => .next ((u.addEntry t (Entry.fresh i p)).failPacket t.qid i code)
        | none =>
          if pkKind p = 0 then
            .next ((u.addEntry t { Entry.fresh i p with launched := true, complete := true }).afterCompletion t.qid)
          else .next (u.addEntry t { Entry.fresh i p with eligible := u.waitMet t (Entry.fresh i p) })

/-! ## Tokens (R61) -/

/-- A change of a queue's TOKENS, presented to every window: an entry whose wait is satisfied stays eligible. -/
def State.setTokens (s : State) (qid : Nat) (v : Word) : State :=
  match s.slotOf qid with
  | none => s
  | some t =>
    let s1 := s.putSlot { t with tokens := v }
    let mark := fun (u : Slot) => { u with window := u.window.map (fun (e : Entry) =>
      { e with eligible := e.eligible || s1.waitMet u e }) }
    { s1 with fe := { s1.fe with slots := s1.fe.slots.map mark } }

/-- The interrupt of a packet with INTR (R62, R328). -/
def State.packetInterrupt (s : State) (t : Slot) (p : Line) : State :=
  if pkIntr p then s.interrupt t.die (BitVec.ofNat 11 (qField (s.qcb t.qid) 0x38 26 16)) else s

/-! ## Launch (R62, R64) -/

/-- The dies of a LAUNCH, ascending (R64). -/
def launchDies (p : Line) (home : Nat) : List Nat :=
  if pkDieMask p = 0 then [home] else (List.range 4).filter (fun d => (pkDieMask p).testBit d)

/-- The ranges of hart numbers on each die: hart i goes to the ⌊i × nd / HARTCOUNT⌋-th (R64). -/
def launchRanges (p : Line) (home : Nat) : List Range :=
  let l := launchDies p home
  let n := pkHarts p
  let lo := fun (k : Nat) => (k * n + l.length - 1) / l.length
  ((List.range l.length).map (fun k => (⟨l.getD k 0, lo k, lo (k + 1)⟩ : Range))).filter (fun r => r.next < r.stop)

/-- A packet launch on a die advances its generation (R133). -/
def State.launchGens (s : State) (dies : List Nat) : State := dies.foldl State.bumpGen s

/-- An entry launches. -/
def State.launch (s : State) (t : Slot) (e : Entry) : State :=
  let p := e.packet
  let s1 := s.onEntry t.qid e.idx (fun x => { x with eligible := true, launched := true, order := s.fresh })
  let s2 := { s1 with fresh := s.fresh + 1 }
  match pkKind p with
  | 1 => (s2.launchGens (launchDies p (s.qHome t.qid))).onEntry t.qid e.idx (fun x =>
      { x with ranges := launchRanges p (s.qHome t.qid) })
  | k =>
    let set : Word := BitVec.ofNat 64 (pkSetMask p)
    let tokens := if k = 3 then (t.tokens &&& ~~~(BitVec.ofNat 64 (pkClrMask p))) ||| set else t.tokens ||| set
    let s3 := (s2.onEntry t.qid e.idx (fun x => { x with complete := true })).setTokens t.qid tokens
    (s3.packetInterrupt t p).afterCompletion t.qid

/-- PACKET_LAUNCH (R62): the first entry of a slot that can launch does. -/
def execPacketLaunch (die slot : Nat) (s : State) : Res :=
  match s.slotAt die slot with
  | none => .next s
  | some t =>
    if !s.frontEndAt die then .next s
    else match t.window.find? (s.launchable t) with
    | some e => .next (s.launch t e)
    | none => .next s

/-! ## Completion (R62, R63) -/

/-- How the completion word of a packet stands before its token change. -/
inductive WordCheck where
  | none
  | ready (w : Window) (s : State)
  | refused
  | waits (s : State)

/-- Translates COMPADDR for a write in the packet's ASID (R62): a page fault that the pager may resolve waits. -/
def State.checkWord (s : State) (t : Slot) (p : Line) : WordCheck :=
  if !pkCwv p then .none
  else
    let va : Word := BitVec.ofNat 64 (pkCompAddr p)
    match classify (frontEnd t.die (s.qAsid t.qid)) va 8 .store s with
    | .ok (.scratch, _) => .refused
    | .ok (w, u) => .ready w u
    | .error (.wait u) => .waits u
    | .error (.fault c) =>
      let paged := (s.jobGet (s.qAsid t.qid) (·.paged) []).any (fun r => r.1 ≤ va.toNat && decide (va.toNat < r.1 + r.2))
      if c = 6#8 && paged then .waits s else .refused
    | .error (.poison _) => .refused

/-- Writes the completion word at its home, visible at every scope: in a bank-linear page as an ordinary request (R119). -/
def State.writeWord (s : State) (t : Slot) (idx : Nat) (va : Word) (w : Window) : State :=
  let asid := s.qAsid t.qid
  let store := fun (a : A Unit) => match a s with
    | .ok (_, u) => u
    | .error _ => s
  match w with
  | .scratch => s
  | .control pa => store (writeControl (frontEnd t.die asid) pa idx)
  | .bankLinear pa => store (bankStore (frontEnd t.die asid) pa (placeBytes pa idx false) (byteMask pa 8))
  | .cached pa _ | .memSide pa _ =>
    if s.isLocal pa then s.writeSeen (spaceOf asid va) (pa / 128) (placeBytes pa idx false) (byteMask pa 8)
    else store (writeHome (frontEnd t.die asid) asid pa (placeBytes pa idx false) (byteMask pa 8))

/-- The completion word can leave now: its plane takes transactions, and the stream to another device, or to the members of a
multicast group, takes another request (R323, R330, R403, R411). -/
def State.wordMayLeave (s : State) : Window → Bool
  | .control pa =>
    s.fab.planeOpen (s.planeOf (pa / 128)) && (if s.isLocal pa then decide (paOff pa < 0x800) || s.mayAsk (s.devStream (paDev pa) (pa / 128)) 11
      else s.mayAsk (s.devStream (paDev pa) (pa / 128)) 1)
  | .cached pa _ | .memSide pa _ | .bankLinear pa =>
    s.fab.planeOpen (s.planeOf (pa / 128)) && (s.isLocal pa || s.mayAsk (s.devStream (paDev pa) (pa / 128)) 1)
  | .scratch => true

/-- The completion's release at package scope covers every hart of the packet (R63). -/
def State.releasePacket (s : State) (e : Entry) : State :=
  e.cores.foldl (fun (t : State) (c : Nat × Nat) => t.release c.1 c.2 2#2) s

/-- A store of a hart of a packet has not performed: the release of the completion, at package scope or wider, waits for it
(R63, R145). -/
def State.packetUnacked (s : State) (qid idx : Nat) : Bool :=
  s.harts.any (fun h => h.queue == qid && h.packet == idx && s.unacked h.uid)

/-- A finished LAUNCH completes (R62, R63): release, token change, completion word, interrupt, retirement. -/
def State.completePacket (s : State) (t : Slot) (e : Entry) (w : Option Window) : State :=
  let s1 := s.releasePacket e
  let s2 := s1.onEntry t.qid e.idx (fun x => { x with complete := true })
  let s3 := s2.setTokens t.qid (t.tokens ||| BitVec.ofNat 64 (pkSetMask e.packet))
  let s4 := match w with
    | some x => s3.writeWord t e.idx (BitVec.ofNat 64 (pkCompAddr e.packet)) x
    | none => s3
  (s4.packetInterrupt t e.packet).afterCompletion t.qid

/-- PACKET_COMPLETE (R62). -/
def execPacketComplete (die slot idx : Nat) (s : State) : Res :=
  match s.slotAt die slot with
  | none => .next s
  | some t =>
    if !s.frontEndAt die then .next s
    else match t.window.find? (fun e => e.idx == idx) with
    | none => .next s
    | some e =>
      if e.complete then .next (s.afterCompletion t.qid)
      else if !e.finished then .next s
      else if s.packetUnacked t.qid idx || !s.planesMove then .next s
      else match s.checkWord t e.packet with
      | .none => .next (s.completePacket t e none)
      | .ready w u => .next (if u.wordMayLeave w then u.completePacket t e (some w) else u)
      | .waits u => .next u
      | .refused => .next (s.failPacket t.qid idx 8)

end Sys2Proof.Machine
end

