-- ==== Sys2Proof/Machine/HartEvents.lean ====
section
/-!
DEFINITION. What happens to harts from outside their own instructions: placement and pre-emption (R37, R65, R66),
promotion (R70), the register file's banks (R31), the watchdog (R377), trap entry (R365), furlongs
(R238, R395), the debugger (R73) and the end of a job by an error (R355).
-/

namespace Sys2Proof.Machine

open Sys2Proof

/-! ## The dispatcher (R49, R65, R66) -/

/-- DISPATCH (R65): what waits is placed on the cores that fit it, and a league whose member waits at a barrier is made
resident (R49). -/
def execDispatch (die : Nat) (s : State) : Res :=
  .next (if s.frontEndAt die && s.planesMove then ((s.dispatch die).leagueCalls die).foldl State.seatLeague (s.dispatch die) else s)

/-- The waiting entry that names a hart, with its die: a saved hart on its own die, or the next new hart of a packet. -/
def State.waitingHart (s : State) : WaitingHart → Option (Nat × Waiting)
  | .saved uid => (s.harts.find? (fun h => h.uid == uid && h.phase == .waiting)).map (fun h =>
      (h.place.die, .saved h (s.launchOrder h)))
  | .fresh die qid packet => ((s.waitingOn die).find? (fun w => match w with
      | .saved _ _ => false
      | .fresh t e _ => t.qid == qid && e.idx == packet)).map (fun w => (die, w))

/-- PRIORITY_PREEMPT_TIMEOUT (R66): the hart named has waited 50 µs. -/
def execPriorityPreemptTimeout (who : WaitingHart) (s : State) : Res :=
  .next (match s.waitingHart who with
    | some (d, w) => if s.frontEndAt d && s.planesMove then s.yieldTo d w else s
    | none => s)

/-- HART_PREEMPT (R37, R38). -/
def execHartPreempt (uid : Nat) (s : State) : Res := .next (if s.frontEndAt (s.dieOf uid) then s.preemptNow uid else s)

/-- HART_PROMOTION (R70): a ready hart unissued for 64 cycles. -/
def execHartPromotion (uid : Nat) (s : State) : Res :=
  .next (s.onHart uid (fun h => if h.isReady && decide (64 ≤ h.waitCount) then h.promote s.tick else h))

/-! ## Banks of the register file (R31) -/

/-- VRF_BANK_DROWSY (R31): the contents stay. -/
def execVrfBankDrowsy (die core bank : Nat) (s : State) : Res :=
  .next (if s.mm.drowsy.contains (die, core, bank) then s
         else { s with mm := { s.mm with drowsy := (die, core, bank) :: s.mm.drowsy } })

/-- VRF_REFRESH_STEP (R31): the bank is refreshed within the step, its contents and its state as they were. -/
def execVrfRefreshStep (_die _core _bank : Nat) (s : State) : Res := .next s

/-! ## Waits and the watchdog (R227, R377) -/

/-- The fault values of the watchdog of the hart in focus (R366). -/
def State.watchdogVals (s : State) : FaultVals :=
  { cause := 0x10#8, vec := false, epc := s.hart.position, elem := s.positionElem s.hart, va := s.hart.csr.runCount,
    stride := 0, remain := 0, given := true }

/-- RUNCOUNT has reached WDLIMIT for the first time (R74); a cause already raised is entered before (R365). -/
def Hart.watchdogDue (h : Hart) : Bool :=
  h.isResident && !h.dbgHalted && !h.trapWaits && !h.expired && h.csr.wdLimit != 0#64 && decide (h.csr.wdLimit.toNat ≤ h.csr.runCount.toNat)

/-- WFI_TIMEOUT (R227): a WFI commits after 1024 cc; an expired watchdog comes first (R372). -/
def execWfiTimeout (uid : Nat) (s : State) : Res :=
  .next (s.withHart uid (fun t => match t.hart.wait with
    | .wfi _ _ => if t.hart.isResident && !t.hart.dbgHalted && !t.hart.watchdogDue then t.wfiCommit else t
    | _ => t))

/-- KERNEL_WATCHDOG_EXPIRY (R377): cause 0x10 ahead of every other, any wait abandoned; while HM = 1 only the grace
starts. It is taken at the hart's next position: an atomic or region that is out ends first (R27), and so does a furlong that
must wait to commit (R239). -/
def execKernelWatchdogExpiry (uid : Nat) (s : State) : Res :=
  .next (s.withHart uid (fun t =>
    if !t.hart.watchdogDue || t.midRemote uid then t
    else
      let expire := fun (u : State) => { u with hart := { u.hart with expired := true } }
      if t.hart.csr.hm then expire t
      else match t.closing with
        | .error u => u
        | .ok u => ((expire u).abandon uid).trapEntry (u.watchdogVals)))

/-- WATCHDOG_GRACE_EXPIRY (R377): the hart ends under R367. -/
def execWatchdogGraceExpiry (uid : Nat) (s : State) : Res :=
  .next (s.withHart uid (fun t => if t.hart.graceDue then t.endHart t.watchdogVals else t))

/-! ## Traps and page faults (R365, R373, R374) -/

/-- TRAP_ENTRY (R365): a cause of a resident hart is taken, at a position (R23); an expired watchdog comes first (R372). -/
def execTrapEntry (uid : Nat) (vals : FaultVals) (s : State) : Res :=
  .next (s.withHart uid (fun t => if t.hart.isResident && !t.midRemote uid && !t.hart.watchdogDue then (t.abandon uid).trapEntry vals else t))

/-- A virtual address of an address space has a valid leaf, as a requester on a die finds it (R114). -/
def State.resident (s : State) (die asid va : Nat) : Bool :=
  match leafOf (frontEnd die asid) (BitVec.ofNat 64 va) .load s with
  | .ok _ => true
  | .error (.fault c) => c != 5#8
  | .error _ => false

/-- The pages of 64 KiB that hold an address `va + i * stride`, `i` below `n`, in ascending order of `i`, as far as there is
room. -/
def strideSet (stride : Int) : Nat → Int → Nat → List Nat
  | 0, _, _ => []
  | room + 1, va, n =>
    if n = 0 ∨ va < 0 then []
    else
      let inPage := if 0 < stride then (65535 - va % 65536) / stride else if stride < 0 then va % 65536 / -stride else n
      let k := min n (inPage.toNat + 1)
      (va / 65536).toNat :: strideSet stride room (va + stride * k) (n - k)

/-- The pages that the pager makes resident for a fault: at most 64, those alone that lie in a region registered for paging
(R373, R374); with FAULTSTRIDE = 0 the page of FAULTVA. -/
def State.pageSet (s : State) (asid : Nat) (v : FaultVals) : List Nat :=
  (strideSet v.stride.toInt 64 v.va.toNat (if v.stride = 0 then 1 else max 1 v.remain.toNat)).filter
    (fun p => s.pageable asid (BitVec.ofNat 64 (p * 65536)) || p == v.va.toNat / 65536)

/-- What the pager keeps resident for the harts that go on is resident (R373). -/
def State.keptStay (s : State) : Bool := s.harts.all (fun h => h.kept.all (fun p => s.resident h.place.die h.asid (p * 65536)))

/-- The pager writes the page-table entries and the page contents that make pages resident; it takes away no page that it keeps
for a hart (R373). -/
def State.pageIn (s : State) (entries : List (Nat × Word)) : State :=
  entries.foldl (fun (t : State) (e : Nat × Word) =>
    let u := if t.isLocal e.1 then t.writeSeen 0 (e.1 / 128) (placeBytes (e.1 / 8 * 8) e.2.toNat false) (byteMask (e.1 / 8 * 8) 8) else t
    if u.keptStay || !t.keptStay then u else t) s

/-- The pager's answer for a hart that waits: once every page of the set is resident it goes on at its position, and they stay
resident until its instruction commits (R373); or the cause is raised at TVEC (R374). -/
def State.pagerAnswers (s : State) (backingOk : Bool) : State :=
  match s.hart.wait with
  | .pager v =>
    let pages := s.pageSet s.hart.asid v
    if s.hart.watchdogDue then s
    else if !backingOk || !s.pageable s.hart.asid v.va then s.trapEntry v
    else if pages.all (fun p => s.resident s.hart.place.die s.hart.asid (p * 65536)) then
      { s with hart := { s.hart with wait := .none, kept := pages } }
    else s
  | _ => s

/-- A walk stops, its outcome kept for its wait point (R162, R214). -/
def State.stopWalk (s : State) (id : Nat) (cause : BitVec 8) (va : Word) (count depth : Nat) : State :=
  { s with walks := changeAll (fun w => w.id == id) (fun w => { w with state := .stopped cause va count depth }) s.walks }

/-! ## Furlongs (R238, R395) -/

/-- FURLONG_COMMIT (R238): the open furlong of a hart commits. -/
def execFurlongCommit (uid : Nat) (s : State) : Res :=
  .next (s.withHart uid (fun t => match t.closing with
    | .ok u => u
    | .error u => u))

/-- FURLONG_REWIND (R240, R394, R395): a consumption of poison that the furlong itself wrote, at most once for a furlong; it is
logged with ACT 2. -/
def execFurlongRewind (uid : Nat) (s : State) : Res :=
  .next (s.withHart uid (fun t => match t.hart.furlong with
    | some f => if t.hart.isResident && t.hart.ownPoison && !f.rewound && !f.again then (t.logPoison t.hart 2).rewind else t
    | none => t))

/-! ## The end of a job by an error, and the debugger (R73, R355) -/

/-- JOB_END_BY_ERROR (R355): the hart named consumed the poison, or no hart did. -/
def execJobEndByError (asid uid : Nat) (s : State) : Res :=
  match s.harts.find? (fun h => h.uid == uid && h.asid == asid && h.isResident) with
  | some h => .next (s.poisonEndsJob h)
  | none =>
    if (s.jobOf asid).isNone then .next s
    else
      let t := s.logEvent asid 3 (bankIdOf 0 0xA 0) 2#8 0#64 0#64
      .next (t.endJob asid 6 (some (t.err.nextSeq[0] - 1, 0)))

/-- DEBUGGER_HALT (R73). -/
def execDebuggerHalt (uid : Nat) (s : State) : Res := .next (s.onHart uid (fun h => { h with dbgHalted := true }))

/-- DEBUGGER_RESUME (R73). -/
def execDebuggerResume (uid : Nat) (s : State) : Res := .next (s.onHart uid (fun h => { h with dbgHalted := false }))

end Sys2Proof.Machine
end

