-- ==== Sys2Proof/Machine/MemoryEvents.lean ====
section
/-!
DEFINITION. What the memory fronts, homes and walk engines do on their own: requests (R115), filter slices (R135),
atomics and regions at their homes (R153, R155, R219), the walks of publications (R159 to R162), and the pager (R373,
R374).
-/

namespace Sys2Proof.Machine

open Sys2Proof

/-! ## Memory fronts and homes -/

/-- A request of a memory front (R115): translated, then served by the remote-data cache, the memory-side cache or the
home it reaches (R132, R134). A request that writes carries its data with the instruction that made it. -/
def frontRequest (who : Who) (va : Word) (acc : Access) : A Unit := do
  let (pa, p) ← translate who va acc
  match acc, windowOf pa p with
  | .load, .cached pa _ | .fetch, .cached pa _ => let _ ← fetchCached who (spaceOf who.asid va) (pa / 128); pure ()
  | .load, .memSide pa _ | .fetch, .memSide pa _ => let _ ← fetchHome who (spaceOf who.asid va) (pa / 128); pure ()
  | .load, .bankLinear pa | .fetch, .bankLinear pa => let _ ← bankLoad who pa 8; pure ()
  | _, _ => pure ()

/-- The memory fronts of a die as a requester of their own. -/
def memoryFront (die asid : Nat) : Who := ⟨2 ^ 64 + 4 + die, die, 48, asid⟩

/-- MEMORY_FRONT_REQUEST (R115). A request that fails its translation changes nothing here: its requester takes the
cause. -/
def execMemoryFrontRequest (die asid : Nat) (va : Word) (acc : Access) (s : State) : Res :=
  match frontRequest (memoryFront die asid) va acc s with
  | .ok (_, t) => .next (t.dropReplies (memoryFront die asid).uid)
  | .error (.wait t) => .next t
  | .error _ => .next s

/-- BLOOM_SLICE_CLEAR (R135): with its 65,536th miss a slice is cleared. -/
def execBloomSliceClear (stack slice : Nat) (s : State) : Res :=
  let full := s.mm.blooms.any (fun b => b.stack == stack && b.slice == slice && decide (65536 ≤ b.misses))
  let rest := s.mm.blooms.filter (fun b => !(b.stack == stack && b.slice == slice))
  .next (if full then { s with mm := { s.mm with blooms := rest } } else s)

/-- ATOMIC_AT_HOME (R153, R154): the old value is what the home returns. -/
def execAtomicAtHome (pa : Nat) (op : BitVec 4) (operand expected : Word) (memSide : Bool) (s : State) : Res :=
  if !s.isLocal pa || paRegion pa != 0 || decide (9 < op.toNat) then .next s
  else
    let r := s.atomicHome 0 pa op operand expected memSide none
    .next { r.1 with homeReply := some r.2.1 }

/-- REGION_AT_HOME (R219): the open region of a hart runs at its home, with the class and scope its ALRE encodes. -/
def execRegionAtHome (uid : Nat) (s : State) : Res :=
  .next (s.withHart uid (fun t =>
    if !t.hart.isReady || t.hart.region.isNone || (t.hart.watchdogDue && !t.midRemote uid) then t
    else match fetchWord t.who t.hart.pc t with
    | .error (.wait u) => u
    | .error _ => t
    | .ok (w, u) => match decodeWord w with
      | .ok (.alre l q sc) => match u.runRegion l q sc with
        | .next v => v
        | _ => u
      | _ => u))

/-! ## Walks (R159 to R162) -/

/-- A walk by its number. -/
def State.walkOf (s : State) (id : Nat) : Option Walk := s.walks.find? (fun w => w.id == id)

/-- Changes a walk. -/
def State.onWalk (s : State) (id : Nat) (f : Walk → Walk) : State :=
  { s with walks := changeAll (fun w => w.id == id) f s.walks }

/-- A walk as a requester: under its own number, at the core of the hart that issued it (R142). -/
def Walk.who (w : Walk) : Who := ⟨w.id, w.die, w.core, w.asid⟩

/-- WALK_START (R162): a die runs 16 walks at once. -/
def execWalkStart (id : Nat) (s : State) : Res :=
  match s.walkOf id with
  | none => .next s
  | some w =>
    let busy := (s.walks.filter (fun v => v.die == w.die && v.state == WalkState.active)).length
    .next (if w.state == WalkState.queued && decide (busy < 16) then s.onWalk id (fun v => { v with state := .active }) else s)

/-- How the walk engine finds the page of a reference. -/
inductive RefPage where
  /-- a reach-managed page of the job that it may read and write -/
  | follow (pa : Nat) (s : State)
  /-- no reference the walk follows -/
  | skip (s : State)
  | waits (s : State)
  /-- the walk stops with a cause -/
  | stops (cause : BitVec 8)

/-- The page of a reference (R159): a value that is no reference, or another kind of page, is not followed; an absent
page goes to the pager; a reach-managed page without RD or W stops the walk. -/
def State.refPage (s : State) (w : Walk) (f : Word) : RefPage :=
  if f.extractLsb' 0 3 ≠ 0#3 ∨ f.extractLsb' 57 7 ≠ 0#7 ∨ f.getLsbD 56 ∨ s.inScratch w.asid f then .skip s
  else match leafOf w.who f .load s with
  | .error (.wait t) => .waits t
  | .error (.poison _) => .stops 0xF#8
  | .error (.fault c) =>
    if c = 5#8 ∧ s.pageable w.asid f then .waits s else .stops 8#8
  | .ok ((p, bits), t) =>
    if pteWin p ≠ 2 ∨ ¬ leafSuits t w.asid p bits then .skip t
    else if pteRd p && pteW p then .follow (pteAddr p + f.toNat % 2 ^ bits) t
    else .stops 8#8

/-- A word of an object as the home sees it: value, tag and mark. -/
def State.homeField (s : State) (space pa : Nat) : Word × Bool × Bool :=
  let v := s.seen space (pa / 128)
  (BitVec.ofNat 64 (getElt v.data 64 (bitsOf pa 3 4)), v.tags.getLsbD (bitsOf pa 3 4), v.psn.getLsbD (bitsOf pa 5 2))

/-- Copies of a line that a die holds take a header in place (R159): its L2, its L1s and its remote-data cache record. -/
def State.patchHeader (s : State) (die ln k : Nat) (h : Word) : State :=
  let l2 := changeAll (fun (e : L2Line) => e.die == die && e.pa == ln) (fun e => { e with data := setElt e.data 64 k h.toNat }) s.mm.l2
  let l1 := changeAll (fun (c : CoreLine) => c.die == die && c.pa == ln && c.pin.isNone)
    (fun c => { c with data := setElt c.data 64 k h.toNat }) s.mm.l1
  let rdc := changeAll (fun (r : RdcLine) => r.die == die && r.line == ln) (fun r => { r with data := setElt r.data 64 k h.toNat }) s.mm.rdc
  { s with mm := { s.mm with l2 := l2, l1 := l1, rdc := rdc } }

/-- Writes a header at its home as an indivisible operation: every checkout of its line is recalled, and cached copies on
the walk's die are updated in place (R153, R159). -/
def State.putHeader (s : State) (w : Walk) (pa : Nat) (h : Word) : State :=
  let ln := pa / 128
  let t := s.cleanL2 (fun e => e.pa == ln && e.out)
  let u := t.serveWrite w.asid ln (placeBytes pa h.toNat false) (byteMask pa 8) (w.who.coreAt ln)
  u.patchHeader w.die ln (bitsOf pa 3 4) h

/-- Makes the dirty lines of an object visible at a scope, its header's at the header's home among them (R145, R159):
nothing is written back at die scope. -/
def State.showObject (s : State) (w : Walk) (o : Word) (pa len : Nat) : State :=
  if w.scope.toNat ≤ 1 then s
  else
    let lo := o.toNat / 128
    let hi := (o.toNat + 8 * len - 1) / 128
    s.cleanL2 (fun e => (e.out || e.dirty != 0) && (e.pa == pa / 128
      || (e.die == w.die && e.asid == w.asid && decide (lo ≤ e.line) && decide (e.line ≤ hi))))

/-- What the fields of an object give a walk: the references to push, in descending address order. -/
inductive Fields where
  | refs (l : List Word) (s : State)
  | waits (s : State)
  | stops (cause : BitVec 8) (va : Word)

/-- Collects the reference fields of an object from word `n` down to word 1 (R159). -/
def State.fields (s : State) (w : Walk) (o : Word) : Nat → List Word → Fields
  | 0, acc => .refs acc s
  | n + 1, acc =>
    let a := o + BitVec.ofNat 64 (8 * (n + 1))
    match s.refPage w a with
    | .waits t => .waits t
    | .skip _ => .stops 8#8 o
    | .stops c => .stops c o
    | .follow pa t0 =>
      let (f, tag, psn) := t0.homeField w.asid pa
      let t := t0.readServed w.asid (pa / 128)
      if psn then .stops 0xF#8 o
      else if !tag || f == 0#64 || acc.contains f || w.stack.any (fun e => e.1 == f) then t.fields w o n acc
      else match t.refPage w f with
        | .waits u => .waits u
        | .skip u => u.fields w o n acc
        | .stops c => .stops c f
        | .follow _ u => u.fields w o n (acc ++ [f])

/-- How the spills of a walk end (R162). -/
inductive Spill where
  | done (s : State)
  | waits (s : State)
  | stops (cause : BitVec 8) (va : Word)

/-- Writes the stack entries from depth 64 on to the hart's spill area, the deepest last (R162). -/
def State.spill (s : State) (w : Walk) (area : Word) : Nat → List Word → Spill
  | _, [] => .done s
  | depth, f :: rest =>
    if depth < 64 then s.spill w area (depth + 1) rest
    else
      let va := area + BitVec.ofNat 64 (8 * (depth - 64))
      let store : A Unit := do
        let x ← classify w.who va 8 .store
        match x with
        | .cached pa leaf => writeCached w.who va.toNat pa leaf (placeBytes va.toNat f.toNat false) (byteMask va.toNat 8)
        | .memSide pa _ => writeHome w.who w.asid pa (placeBytes va.toNat f.toNat false) (byteMask va.toNat 8)
        | _ => A.fault 8#8
      if va.getLsbD 56 then .stops 8#8 va
      else match store s with
      | .ok (_, t) => t.spill w area (depth + 1) rest
      | .error (.wait t) => .waits t
      | .error (.poison _) => .stops 0xF#8 va
      | .error (.fault c) => if c = 6#8 ∧ s.pageable w.asid va then .waits s else .stops 8#8 va

/-- The walk has entered an object: its fields are pushed over it. -/
def State.pushFields (s : State) (w : Walk) (o : Word) (len count area : Nat) (rest : List (Word × Bool)) : State :=
  match s.fields w o (len - 1) [] with
  | .waits t => t
  | .stops c va => s.stopWalk w.id c va count w.stack.length
  | .refs l t =>
    if area = 0 ∧ l.length + rest.length + 1 > 64 then t.stopWalk w.id 0xB#8 o count (rest.length + 1 + min l.length (64 - rest.length - 1))
    else match t.spill w (BitVec.ofNat 64 area) (rest.length + 1) l with
    | .waits u => u
    | .stops c va => t.stopWalk w.id c va count w.stack.length
    | .done u => (u.onWalk w.id (fun v => { v with count := count, stack := (l.reverse.map (fun f => (f, false))) ++ (o, true) :: rest })).dropReplies w.id

/-- A header with its PSCOPE and WALKMARK replaced. -/
def setHeader (h : Word) (scope : Nat) (mark : Bool) : Word :=
  (h &&& 0xFFFFFFF8FFFFFFFF#64) ||| BitVec.ofNat 64 (scope % 4 * 2 ^ 32 + (if mark then 2 ^ 34 else 0))

/-- A visit of an object not yet entered (R159, R160). WALKMAX and WALKSPILL are those of the hart at each visit, not at the
issue of the SPUB: R162 does not say when they are read (log entry 62). -/
def State.enterObject (s : State) (w : Walk) (o : Word) (rest : List (Word × Bool)) : State :=
  match s.refPage w o with
  | .waits t => t
  | .skip t => t.onWalk w.id (fun v => { v with stack := rest })
  | .stops c => s.stopWalk w.id c o w.count w.stack.length
  | .follow pa t0 =>
    let (h, _, psn) := t0.homeField w.asid pa
    let t := t0.readServed w.asid (pa / 128)
    if psn then t.stopWalk w.id 0xF#8 o w.count w.stack.length
    else if decide (w.scope.toNat ≤ hdrScope h) && !hdrMark h then t.onWalk w.id (fun v => { v with stack := rest })
    else
      let count := w.count + 1
      let csr := ((t.hartOf w.uid).map (·.csr)).getD Csrs.reset
      if csr.walkMax ≠ 0#64 ∧ csr.walkMax.toNat < count then t.stopWalk w.id 0xB#8 o count w.stack.length
      else
        let len := hdrLength h
        let t1 := t.putHeader w pa (setHeader h (max (hdrScope h) w.scope.toNat) true)
        let u := if hdrScope h < w.scope.toNat then t1.showObject w o pa len else t1
        u.pushFields w o len count csr.walkSpill.toNat rest

/-- A visit of an object whose fields are done: its mark is cleared (R159, R160). -/
def State.leaveObject (s : State) (w : Walk) (o : Word) (rest : List (Word × Bool)) : State :=
  match s.refPage w o with
  | .waits t => t
  | .skip t => t.onWalk w.id (fun v => { v with stack := rest })
  | .stops c => s.stopWalk w.id c o w.count w.stack.length
  | .follow pa t0 =>
    let (h, _, psn) := t0.homeField w.asid pa
    let t := t0.readServed w.asid (pa / 128)
    if psn then t.stopWalk w.id 0xF#8 o w.count w.stack.length
    else (t.putHeader w pa (setHeader h (hdrScope h) false)).onWalk w.id (fun v => { v with stack := rest })

/-- One visit of an active walk: the object on top of its stack is entered, or left. -/
def State.visit (s : State) (w : Walk) : State :=
  if w.state != WalkState.active || !s.planesMove then s
  else match w.stack with
  | [] => s
  | (o, false) :: rest => s.enterObject w o rest
  | (o, true) :: rest => s.leaveObject w o rest

/-- WALK_OBJECT_VISIT (R159): the object on top of the stack is entered, or left. -/
def execWalkObjectVisit (id : Nat) (s : State) : Res :=
  match s.walkOf id with
  | none => .next s
  | some w => .next (s.visit w)

/-- An active walk with an empty stack performs the store of its publication, with its tag and at its scope (R139). -/
def State.finishWalk (s : State) (w : Walk) : State :=
  if w.state != WalkState.active || w.stack != [] || !s.planesMove then s
  else
    let store : A Unit := do
      let x ← classify w.who w.field 8 .store
      if !x.isReach then A.fault 8#8
      storeLine w.who w.field 8 w.ref.toNat true x
      modify (fun t => t.shown w.die x w.scope)
    match store s with
    | .ok (_, t) => t.dropWalk w.id
    | .error (.wait t) => t
    | .error (.fault c) => if c = 6#8 ∧ s.pageable w.asid w.field then s else s.stopWalk w.id 8#8 w.field w.count 0
    | .error (.poison _) => s.stopWalk w.id 0xF#8 w.field w.count 0

/-- WALK_COMPLETE (R159). -/
def execWalkComplete (id : Nat) (s : State) : Res :=
  match s.walkOf id with
  | none => .next s
  | some w => .next (s.finishWalk w)

/-! ## The pager (R373, R374) -/

/-- Runs a change while the pager can resolve nothing for an address space. -/
def State.withoutPaging (s : State) (asid : Nat) (f : State → State) : State :=
  let put := fun (t : State) (l : List (Nat × Nat)) =>
    { t with fe := { t.fe with jobs := changeAll (fun (j : Job) => j.asid == asid) (fun j => { j with paged := l }) t.fe.jobs } }
  put (f (put s [])) (s.jobGet asid (·.paged) [])

/-- A front end's completion words that wait for the pager are refused (R62). -/
def State.refuseWords (s : State) (die : Nat) : State :=
  (s.fe.slots.filter (fun t => t.die == die)).foldl (fun (u : State) (t : Slot) =>
    (t.window.filter (fun e => e.finished && pkCwv e.packet)).foldl (fun (w : State) (e : Entry) =>
      w.withoutPaging (w.qAsid t.qid) (fun x => match x.checkWord t e.packet with
        | .refused => x.failPacket t.qid e.idx 8
        | _ => x)) u) s

/-- The pager cannot resolve the fault of a copy (R313), a walk (R162, R214) or a front end (R62). -/
def State.pagerFails (s : State) (id : Nat) : State :=
  match s.copyOf id, s.walkOf id with
  | some c, _ => s.withoutPaging c.asid (fun t => t.copyTurn c)
  | none, some w => s.withoutPaging w.asid (fun t => if w.stack = [] then t.finishWalk w else t.visit w)
  | none, none => if id < 2 ^ 64 then s else s.refuseWords (id - 2 ^ 64)

/-- PAGE_FAULT_SERVICE (R373): the pager makes pages resident for the hart or engine operation of a number, or cannot. -/
def execPageFaultService (uid : Nat) (entries : List (Nat × Word)) (backingOk : Bool) (s : State) : Res :=
  if !s.frontEndAt (s.dieOf uid) then .next s
  else
    let t := if backingOk then s.pageIn entries else s
    .next (if (t.hartOf uid).isSome then t.withHart uid (·.pagerAnswers backingOk)
           else if backingOk then t else t.pagerFails uid)

end Sys2Proof.Machine
end

