-- ==== Sys2Proof/Machine/ErrorEvents.lean ====
section
/-!
DEFINITION. Error and repair events (R347, R348, R352, R358 to R360, R379 to R393): what a detected error does where it
stands, the drain of its bank, and the copies that bring spares in.
-/

namespace Sys2Proof.Machine

open Sys2Proof

/-! ## The bank of an error (R345) -/

/-- An instruction that checked mode computes twice (R392): majors 0x31 to 0x36, VMVV, VMVX, ACRD and ACST. -/
def checkedWord (w : BitVec 32) : Bool :=
  let major := (w.extractLsb' 25 7).toNat
  (decide (0x31 ≤ major) && decide (major ≤ 0x36)) || (match decodeWord w with
    | .ok (.vmvv ..) | .ok (.vmvx ..) | .ok (.acrd ..) | .ok (.acst ..) => true
    | _ => false)

/-- A hart of a job in checked mode is about to execute an instruction that is computed twice. -/
def State.checkedNext (s : State) (h : Hart) : Bool :=
  s.jobGet h.asid (·.chk) false && match fetchWord ⟨h.uid, h.place.die, h.place.core, h.asid⟩ h.pc s with
    | .ok (w, _) => checkedWord w
    | .error _ => false

/-- The matrix unit is about to perform an OPA of a hart of a job in checked mode. -/
def State.checkedOpa (s : State) (h : Hart) : Bool :=
  s.jobGet h.asid (·.chk) false && match h.matQ with
    | .outer .. :: _ => true
    | _ => false

/-- The bank that an error at a site is recorded in (R345), where the site gives it. A uncorrected error that stands nowhere is
one of a core or of a channel's controller, which R357 counts: every other storage has a site (log entry 60). The lines of the
twin and RDC areas stand in channels of their die whose number the spec does not fix. -/
def State.bankFits (s : State) (id : BitVec 32) (ev : ErrEvent) : Bool :=
  let onHart := fun (uid : Nat) => (s.hartOf uid).any (fun h => h.isResident && s.coreBank h.place == id)
  bankExists id && match ev.site with
  | .nowhere => !ev.uncorrected || idUnit id == 1 || idUnit id == 5
  | .checked uid _ _ => onHart uid && ev.kind == 4#8 && (s.hartOf uid).any s.checkedNext
  | .checkedPass uid _ => onHart uid && ev.kind == 4#8 && (s.hartOf uid).any s.checkedOpa
  | .twin line writer _ => idUnit id == 5 && idDie id == paDie (line * 128) && s.mm.twins.any (fun t => t.line == line && t.writer == writer)
  | .rdcLine die asid line _ =>
    idUnit id == 5 && idDie id == die && s.mm.rdc.any (fun r => r.die == die && r.asid == asid && r.line == line)
  | .memory g => s.isLocal (32 * g) && s.channelBank (s.bankRow ev.asid (32 * g)).1 == id
  | .vreg uid _ _ | .mreg uid _ _ | .tile uid _ _ | .strip uid _ _ | .outerProduct uid _ _ _ _ => onHart uid
  | .l2line die asid line | .l2tag die asid line => bankIdOf die 2 (l2Slice asid line) == id
  | .l1line die core _ _ => s.coreBank ⟨die, core, 0⟩ == id
  | .translation die front _ _ => bankIdOf die 3 front == id
  | .mscTag stack _ => bankIdOf (stack / 4) 6 (stack % 4) == id
  | .qcb qid => bankIdOf (s.qHome qid) 0xA 0 == id
  | .accumulator b _ | .bushel b _ | .codebook b _ | .engine b => s.channelBank b == id
  | .columnSum cmd _ => (s.cmdOf cmd).any (fun c => c.baseBank == id)

/-! ## What an error does where it stands (R352, R379 to R381, R389, R391) -/

/-- Adds a mark. -/
def addMark (l : List (Nat × Nat)) (r g : Nat) : List (Nat × Nat) := if l.contains (r, g) then l else (r, g) :: l

/-- The effect of an error at its site: the state, whether it counts as uncorrected, whether poison was created, and the
jobs it is fatal to. -/
def State.errorEffect (s : State) (ev : ErrEvent) : State × Bool × Bool × List Nat :=
  let u := ev.uncorrected
  let g4 := bitsOf ev.addr.toNat 5 2
  match ev.site with
  | .nowhere => (s, u, false, [])
  | .memory g => (if u then s.losePoison g else s, u, u, [])
  | .vreg uid r g => (if u then s.onHart uid (fun h => { h with vPsn := addMark h.vPsn r g }) else s, u, u, [])
  | .mreg uid r g => (if u then s.onHart uid (fun h => { h with mPsn := addMark h.mPsn r g }) else s, u, u, [])
  | .tile uid r g => (if u then s.onHart uid (fun h => { h with tPsn := addMark h.tPsn r g }) else s, u, u, [])
  | .twin line writer g =>
    let mark := changeAll (fun (t : Twin) => t.line == line && t.writer == writer) (fun t => { t with psn := t.psn ||| (1#4 <<< g) })
    (if u then { s with mm := { s.mm with twins := mark s.mm.twins } } else s, u, u, [])
  | .rdcLine die asid line g =>
    let mark := changeAll (fun (r : RdcLine) => r.die == die && r.asid == asid && r.line == line)
      (fun r => { r with psn := r.psn ||| (1#4 <<< g) })
    (if u then { s with mm := { s.mm with rdc := mark s.mm.rdc } } else s, u, u, [])
  -- the third computation settles a group, or spoils its destination when the instruction writes it (R393; log entry 82)
  | .checked uid g agrees => (if agrees then s else s.onHart uid (fun h => { h with split := g :: h.split }), !agrees, !agrees, [])
  | .checkedPass uid agrees => (if agrees then s else s.onHart uid (fun h => { h with opaSplit := true }), !agrees, !agrees, [])
  | .strip uid line g =>
    let mark := changeAll (fun (e : StripEntry) => e.line == line) (fun e => { e with psn := e.psn ||| (1#4 <<< g) })
    (if u then s.onHart uid (fun h => { h with strip := mark h.strip }) else s, u, u, [])
  | .l2line die asid line =>
    match s.findL2 die asid line with
    | some e =>
      if !u then (s, false, false, [])
      else if e.dirty = 0 ∧ ¬ e.out then (s.dropL2 (fun x => x.same e), false, false, [])
      else (s.putL2 { e with psn := e.psn ||| (1#4 <<< g4) }, true, true, [])
    | none => (s, false, false, [])
  | .l2tag die asid line =>
    match s.findL2 die asid line with
    | some e =>
      if !u then (s, false, false, [])
      else
        let t := s.dropL2 (fun x => x.same e)
        if e.dirty = 0 ∧ ¬ e.out then (t, false, false, [])
        else (t, true, false, (s.fe.jobs.map (·.asid)).filter (fun a =>
          s.harts.any (fun h => h.isResident && h.asid == a && h.place.die == die)))
    | none => (s, false, false, [])
  | .l1line die core asid line =>
    let here := fun (c : CoreLine) => c.die == die && c.core == core && c.asid == asid && c.line == line
    if (s.mm.l1.filter here).any (fun c => c.pin.isSome) then
      (if u then s.mapL1 (changeAll here (fun c => { c with psn := c.psn ||| (1#4 <<< g4) })) else s, u, u, [])
    else ((s.mapL1 (fun l => l.filter (fun c => !here c))).mapIcache (fun l => l.filter (fun c => !here c)), false, false, [])
  | .translation die front asid page =>
    let tlb := s.mm.tlb.filter (fun t => !(t.die == die && t.front == front && t.asid == asid && t.page == page))
    ({ s with mm := { s.mm with tlb := tlb } }, false, false, [])
  | .mscTag stack block =>
    let here := fun (b : MscBlock) => b.stack == stack && b.block == block
    if !u then (s, false, false, [])
    else
      let t := { s with mm := { s.mm with msc := s.mm.msc.filter (fun b => !here b) } }
      let lost := (s.mm.msc.filter here).filter (fun b => b.dirty != 0)
      if lost != [] then
        -- the bytes of a dirty sector are gone: what its capacity row then gives is free (log entry 3)
        let u := lost.foldl (fun (x : State) (b : MscBlock) => (List.range 8).foldl (fun (y : State) (k : Nat) =>
          if b.dirty.getLsbD k then y.freeRange (128 * y.blockLine b k) (128 * y.blockLine b k + 128) else y) x) t
        (u, true, false, s.jobsOn (stack / 4) (fun c => c / 512 == stack % 4))
      else (t, false, false, [])
  | .qcb qid =>
    let t := if s.qErr qid then s else s.putQcb qid (qSet (qSet (s.qcb qid) 8 39 32 4) 8 9 9 1)
    (if u then t.dropFailed qid else s, u, false, [])
  | .accumulator b n => (s.onBank b (fun k => k.mismatch n), true, true, [])
  | .bushel b n => (s.onBank b (fun k => { k with bushelPsn := setBit k.bushelPsn n true }), true, true, [])
  | .codebook b n => (s.onBank b (fun k => { k with codebookPsn := setBit k.codebookPsn n true }), true, true, [])
  | .engine b => (s.poisonRun b, true, true, [])
  -- the wrong sum is found and logged when the drain forms it (R390)
  | .columnSum cmd j => ({ s with cmds := changeAll (fun c => c.id == cmd) (fun c => { c with badSums := j :: c.badSums }) s.cmds }, false, false, [])
  | .outerProduct uid tile i j agrees =>
    let mark := fun (h : Hart) =>
      let mvl := if h.mType = 0#4 ∨ h.mType = 9#4 then 64 else 32
      let w := if h.mType = 11#4 then 64 else 32
      { h with tPsn := addMark h.tPsn tile ((i * mvl + j) * w / 256) }
    (if agrees then s else s.onHart uid mark, !agrees, !agrees, [])

/-! ## Counting (R357) -/

/-- The parts that an error counts against, with its corrected and uncorrected weight. -/
def State.countedParts (s : State) (id : BitVec 32) (ev : ErrEvent) : List (Part × Nat × Nat) :=
  let u := if ev.uncorrected then 1 else 0
  let c := 1 - u
  -- banks are numbered by physical part; a part that no logical number has counts nowhere
  let core := (List.range 48).find? (fun n => s.corePhys (idDie id) n == idInst id)
  let chan := (List.range 2039).find? (fun n => physOf s.err.chanMap (idDie id) n == idInst id)
  let chans := fun (a b : Nat) => (chan.toList).map (fun n => (Part.channel (idDie id) n, a, b))
  -- a residue mismatch is no error of storage
  let own := (core.toList).map (fun n => if ev.kind = 4#8 then (Part.core (idDie id) n, u, 0) else (Part.core (idDie id) n, 0, u))
  match ev.site with
  | .memory g =>
    let (b, row) := s.bankRow ev.asid (32 * g)
    [(.row b row, c, u), (.column b (s.columnOf ev.asid (32 * g)), c, 0)] ++ chans c 0
  | .nowhere => if idUnit id = 5 then chans c u else if idUnit id = 1 then own else []
  | .vreg _ _ _ | .mreg _ _ _ | .tile _ _ _ | .strip _ _ _ => own
  | .checked _ _ agrees | .checkedPass _ agrees => if agrees then [] else (core.toList).map (fun n => (Part.core (idDie id) n, 1, 0))
  | .twin _ _ _ | .rdcLine _ _ _ _ => chans c 0
  | .l1line die core asid line =>
    if s.mm.l1.any (fun e => e.die == die && e.core == core && e.asid == asid && e.line == line && e.pin.isSome) then own else []
  | .outerProduct _ _ _ _ agrees => if agrees then [] else (core.toList).map (fun n => (Part.core (idDie id) n, 1, 0))
  | _ => []

/-- Adds to the counts of a part. -/
def addCount (id : BitVec 32) (l : List (BitVec 32 × Part × Nat × Nat)) (e : Part × Nat × Nat) :
    List (BitVec 32 × Part × Nat × Nat) :=
  match l.find? (fun x => x.1 == id && x.2.1 == e.1) with
  | some x => (id, e.1, x.2.2.1 + e.2.1, x.2.2.2 + e.2.2) :: l.filter (fun y => !(y.1 == id && y.2.1 == e.1))
  | none => (id, e.1, e.2.1, e.2.2) :: l

/-- ERROR_BANK_EVENT (R347, R352, R379): the error acts where it stands and enters the bank of its site; a loss that ends
jobs is logged against each. -/
def execErrorBankEvent (bankId : BitVec 32) (ev : ErrEvent) (s : State) : Res :=
  if !s.bankFits bankId ev then .next s
  else
    let counts := (s.countedParts bankId ev).foldl (addCount bankId) s.err.counts
    let (t, uc, psn, asids) := s.errorEffect ev
    let t1 := { t with err := { t.err with counts := counts } }
    match ev.site with
    | .columnSum _ _ => .next t1
    | _ => .next (if asids = [] then t1.bankError bankId uc psn ev.kind ev.asid ev.addr ev.misc ev.site
        else t1.jobFatal bankId ev.kind ev.addr ev.misc asids)

/-! ## Spares that have run out (R360, R388) -/

/-- Tag ways of a cache-die row are disabled (R388): their dirty sectors are written to their capacity rows first. -/
def State.disableWays (s : State) (stack row : Nat) : State :=
  let here := fun (b : MscBlock) => b.stack == stack && 16 * (Config.blockHash b.block % 98304) + b.way == row
  let off := if s.mm.mscDisabled.contains (stack, row) then s.mm.mscDisabled else (stack, row) :: s.mm.mscDisabled
  { s with mm := { s.mm with mscDisabled := off, msc := s.mm.msc.filter (fun b => !here b) } }

/-- A part whose repair finds its spare taken (R360): what its retirement without a spare does, and the action. -/
def State.exhausted (s : State) (p : Part) : State × Nat :=
  match p with
  | .channel d c => (s.loseChannel d c, 5)
  | .bank b => s.retireChannel (b / 16384) (b / 8 % 2048)
  | .row b _ | .column b _ => s.retireBank b
  | .cacheRow k row => (s.disableWays k row, 5)
  | _ => (s, 5)

/-! ## Draining (R348, R349, R357) -/

/-- ERROR_BANK_READ_AND_CLEAR (R348, R349, R357): the action logged is the one that was taken. -/
def execErrorBankReadAndClear (bankId : BitVec 32) (_act : BitVec 16) (s : State) : Res :=
  .next (if s.mayDrain (s.errBank bankId) then s.takeRecord bankId none else s)

/-- ERROR_COUNT_WINDOW_END (R357): limits reached in the window stand, with the record that reached them; then the counts
restart. -/
def execErrorCountWindowEnd (bankId : BitVec 32) (s : State) : Res :=
  if !s.drainerUp (drainer bankId) then .next s
  else
    let u := s.flushBank bankId
    .next { u with err := { u.err with counts := u.err.counts.filter (fun e => e.1 != bankId) } }

/-- ERROR_MESSAGE_DELIVERED (R351). -/
def execErrorMessageDelivered (s : State) : Res := .next { s with fe := { s.fe with errMsgOut := false } }

/-! ## Repairs (R358, R359, R386 to R388) -/

/-- The last committed repair of a part. -/
def State.repairOf (s : State) (p : Part) : Option Repair := (s.err.repairs.filter (fun r => r.part == p && r.committed)).getLast?

/-- The error bank of a part (R345). -/
def State.partBank (s : State) (p : Part) : BitVec 32 :=
  match p with
  | .core d c => s.coreBank ⟨d, c, 0⟩
  | .channel d c => s.channelBank (d * 16384 + c * 8)
  | .row b _ | .column b _ | .bank b => s.channelBank b
  | .cacheRow k _ => bankIdOf (k / 4) 6 (k % 4)
  | .module m => bankIdOf (lowerDie m.boundary) 7 (m.boundary * 8 + m.plane)
  | .stack k => bankIdOf (k / 4) 0xB (k % 4)
  | .terak => 0#32

/-- A core's logical number goes to its spare once the repair is committed and no hart is left there (R358). -/
def State.giveCore (s : State) (die core : Nat) : State :=
  match (s.repairOf (.core die core)).bind (·.spare) with
  | none => s
  | some n =>
    if s.onCore die core ≠ [] then s
    else { s with err := { s.err with
             coreMap := (die, core, n) :: s.err.coreMap.filter (fun e => !(e.1 == die && e.2.1 == core)),
             closedCores := s.err.closedCores.filter (fun c => c != (die, core)) } }

/-- Two parts draw on the same spares. -/
def sharesSpares (p q : Part) : Bool :=
  match p, q with
  | .core d _, .core e _ => d == e
  | .channel d _, .channel e _ => d == e
  | .row b _, .row c _ => b == c
  | .column b _, .column c _ => b == c
  | .bank b, .bank c => b / 8 == c / 8
  | .cacheRow a r, .cacheRow b q => a == b && r / 12288 == q / 12288
  | _, _ => false

/-- REPAIR_COMMIT (R359, R360): a repair whose spare another has taken is retired without one, as the table's exhausted
case, which is logged. Class 4 is reported after the commit (R351). -/
def execRepairCommit (idx : Nat) (s : State) : Res :=
  match s.err.repairs[idx]? with
  | none => .next s
  | some r =>
    if r.committed || s.terak.fail != 0 then .next s
    else
      let taken := s.err.repairs.any (fun q => q.committed && q.spare == r.spare && r.spare.isSome && sharesSpares q.part r.part)
      let r' := { r with committed := true, spare := if taken then none else r.spare }
      let t := { s with err := { s.err with repairs := s.err.repairs.set idx r' } }
      let t1 := if taken then
          let (u, act) := t.exhausted r.part
          u.logLoss (u.partBank r.part) 2#8 0#64 0#64 act
        else match r.part with
        | .core d c => if t.err.closedCores.contains (d, c) then t.giveCore d c else t
        | _ => t
      .next (t1.errorMessage 0)

/-- CORE_REPLACE (R358): the core is closed to placement and its harts pre-empted; a committed repair gives its number
to the spare. -/
def execCoreReplace (die core : Nat) (s : State) : Res :=
  if !s.frontEndAt die || !s.retired (.core die core) then .next s
  else
    let s1 := if s.err.closedCores.contains (die, core) then s
      else { s with err := { s.err with closedCores := (die, core) :: s.err.closedCores } }
    .next ((s1.preemptAll (s1.onCore die core)).giveCore die core)

/-- ROW_SPARE_COPY (R386): the row lives on its spare from here on, with the marks it has. -/
def execRowSpareCopy (bank row : Nat) (s : State) : Res :=
  match (s.repairOf (.row bank row)).bind (·.spare) with
  | none => .next s
  | some n => .next (if !s.managerAt (bank / 4096) then s else { s with err := { s.err with
      rowMap := (bank, row, n) :: s.err.rowMap.filter (fun e => !(e.1 == bank && e.2.1 == row)) } })

/-- The stacks a copy holds in victim-only mode: the source's and, for a spare channel, the last of the die. -/
def copyStacks (p : Part) : List Nat :=
  match p with
  | .channel d c => [4 * d + c / 512, 4 * d + 3]
  | _ => (Part.banks p).map (fun b => 4 * (b / 16384) + b / 8 % 2048 / 512)

/-- Memory-side caches of stacks change to victim-only mode: clean sectors are dropped (R136). -/
def State.toVictimOnly (s : State) (ks : List Nat) : State :=
  let new := ks.filter (fun k => !(s.mm.victimOnly[k]?.getD false))
  let msc := (s.mm.msc.map (fun (b : MscBlock) => if new.contains b.stack then { b with valid := b.valid &&& b.dirty } else b)).filter
    (fun b => b.valid != 0)
  { s with mm := { s.mm with msc := msc, victimOnly := ks.foldl (fun (v : Vector Bool 16) (k : Nat) => v.setIfInBounds k true) s.mm.victimOnly } }

/-- Memory-side caches of stacks return to normal: the contents stay and every filter slice is cleared (R136). -/
def State.toNormal (s : State) (ks : List Nat) : State :=
  let blooms := s.mm.blooms.filter (fun b => !ks.contains b.stack)
  { s with mm := { s.mm with blooms := blooms, victimOnly := ks.foldl (fun (v : Vector Bool 16) (k : Nat) => v.setIfInBounds k false) s.mm.victimOnly } }

/-- A living job holds a bank as a bank-linear one (R387). -/
def State.bankHeldByJob (s : State) (b : Nat) : Bool := s.fe.jobs.any (fun j => j.bl != 0 && j.banks.getLsbD b)

/-- CHANNEL_COPY (R387): a committed repair's copy starts. A bank-linear bank of a living job is moved at the job's
end. -/
def execChannelCopy (part : Part) (target : Nat) (s : State) : Res :=
  let ready := (copyStacks part).all s.managerAt && (s.repairOf part).any (fun r => r.spare == some target) && !(s.err.copies.any (fun c => c.part == part))
    && !(Part.banks part).isEmpty && (match part with
      | .bank b => !s.bankHeldByJob b
      | _ => true)
  if !ready then .next s
  else
    let t := s.toVictimOnly (copyStacks part)
    .next { t with err := { t.err with copies := t.err.copies ++ [⟨t.fresh, part, target, 0⟩] }, fresh := t.fresh + 1 }

/-- The block number of a row of a bank in its stack's cache (R135). -/
def blockOf (b row : Nat) : Nat := b / 8 % 2048 % 512 * 98304 + b % 8 * 12288 + row

/-- A copy has moved its last row: the part maps to its target, and stacks that no other copy holds return to normal
mode (R387). -/
def State.endChannelCopy (s : State) (c : ChanCopy) : State :=
  let rest := s.err.copies.filter (fun d => d.id != c.id)
  let e := s.err
  let e1 := match c.part with
    | .channel d n => { e with chanMap := (d, n, c.target) :: e.chanMap.filter (fun x => !(x.1 == d && x.2.1 == n)) }
    | .bank b => { e with bankMap := if e.bankMap.contains b then e.bankMap else b :: e.bankMap }
    | .column b n => { e with columnMap := (b, n, c.target) :: e.columnMap.filter (fun x => !(x.1 == b && x.2.1 == n)) }
    | _ => e
  let s1 := { s with err := { e1 with copies := rest } }
  s1.toNormal ((copyStacks c.part).filter (fun k => !(rest.any (fun d => (copyStacks d.part).contains k))))

/-- CHANNEL_COPY_ROW (R387): the row's cached sectors are written to it and dropped, and the pointer moves on. -/
def execChannelCopyRow (id : Nat) (s : State) : Res :=
  match s.err.copies.find? (fun c => c.id == id) with
  | none => .next s
  | some c =>
    if !(copyStacks c.part).all s.managerAt then .next s else
    let gone := fun (b : MscBlock) => (Part.banks c.part).any (fun k =>
      b.stack == 4 * (k / 16384) + k / 8 % 2048 / 512 && b.block == blockOf k c.row)
    let s1 := { s with mm := { s.mm with msc := s.mm.msc.filter (fun b => !gone b) } }
    let c' := { c with row := c.row + 1 }
    let s2 := { s1 with err := { s1.err with copies := changeAll (fun d => d.id == id) (fun _ => c') s1.err.copies } }
    .next (if c'.row ≥ 12288 then s2.endChannelCopy c' else s2)

/-- A cache-die row is copied to its spare with the stack's cache in victim-only mode (R388); a cache that was in that mode
stays in it. -/
def State.copyCacheRow (s : State) (stack row n : Nat) : State :=
  let was := s.mm.victimOnly[stack]?.getD false
  let t := s.toVictimOnly [stack]
  let u := { t with err := { t.err with
    rowMap := (65536 + stack, row, n) :: t.err.rowMap.filter (fun e => !(e.1 == 65536 + stack && e.2.1 == row)) } }
  if was then u else u.toNormal [stack]

/-- CACHE_ROW_SPARE (R388): the row is spared under a committed repair; with none of the 64 spare rows of its bank left (R386)
its tag ways are disabled. The retirement is logged in the base-die bank (R349). How the cache die divides its rows among banks,
and the TYPE of this entry, are the model's (log entry 83). -/
def execCacheRowSpare (stack row : Nat) (s : State) : Res :=
  let p := Part.cacheRow stack row
  let mate := fun (q : Part) => match q with
    | .cacheRow k r => k == stack && r / 12288 == row / 12288
    | _ => false
  if !s.managerAt stack then .next s
  else if !s.retired p && s.spareIn p == none then
    match s.spareFor (List.range 64) mate with
    | some n => .next ((s.askRepair p (some n)).logLoss (s.partBank p) 2#8 (BitVec.ofNat 64 row) 0#64 4)
    | none => .next (((s.askRepair p none).disableWays stack row).logLoss (s.partBank p) 2#8 (BitVec.ofNat 64 row) 0#64 5)
  else match (s.repairOf p).bind (·.spare) with
    | some n => .next (if s.spareIn p == some n then s else s.copyCacheRow stack row n)
    | none => .next s

/-! ## Package-fatal errors (R362) -/

/-- A hart ends with the package: nothing of it is kept running. -/
def Hart.endWithPackage (h : Hart) : Hart :=
  if h.phase = .absent ∨ h.phase = .retired then h
  else { h with phase := .ended, wait := .none, matQ := [], region := none, strip := [], furlong := none, replies := [],
                league := none }

/-- Class 5: Terak holds every other processor in reset and FAIL takes its first value; jobs in flight end without a
job-end record (R362, R417). -/
def State.packageFatal (s : State) (code : BitVec 8) (bankId : BitVec 32) : State :=
  let first := s.terak.fail == 0
  let terak := { s.terak with fail := if first then code else s.terak.fail,
                              failPart := if first then (if code = 3#8 then bankId else 0#32) else s.terak.failPart,
                              ready := false, released := (false, false), restarting := [], report := none }
  let fe := { s.fe with jobs := [], leagues := [], slots := [], mapWait := [], held := [], running := [], refused := [], qcbCache := [],
                        posted := [] }
  { (s.onHarts Hart.endWithPackage) with terak := terak, fe := fe, banks := [], cmds := [], copies := [], walks := [] }

/-! ## Scrubbing and the SRAM rail (R383 to R385) -/

/-- Banks of channels and stacks that are retired without a spare: no new job gets them (R360). -/
def State.lostBanks (s : State) : BitVec 65536 :=
  s.err.repairs.foldl (fun (v : BitVec 65536) (r : Repair) =>
    match r.part, r.spare with
    | .channel d c, none => v ||| (0xFF#65536 <<< (d * 16384 + c * 8))
    | .stack k, none => v ||| (BitVec.ofNat 65536 (2 ^ 4096 - 1) <<< (4096 * k))
    | _, _ => v) 0#65536

/-- The error bank of the channel that holds a granule. -/
def State.granuleBank (s : State) (g : Nat) : BitVec 32 := s.channelBank (s.bankRow 0 (32 * g)).1

/-- What a scrub read finds takes effect once its granule has been read (R384, R385): a corrected granule is written back; a
poisoned one stays poisoned. -/
def State.scrubbed (s : State) (granule : Nat) (found : ScrubFound) : State :=
  let id := s.granuleBank granule
  let addr : Word := BitVec.ofNat 64 (granule / 4 * 128)
  let ev := fun (u : Bool) => ({ uncorrected := u, kind := if u then 2#8 else 1#8, asid := 0, addr := addr, misc := 0#64,
                                 site := .memory granule } : ErrEvent)
  let count := fun (t : State) (u : Bool) =>
    { t with err := { t.err with counts := (t.countedParts id (ev u)).foldl (addCount id) t.err.counts } }
  if s.poisoned granule then (count s true).bankError id true true 2#8 0 addr 0#64
  else match found with
  | .good => s
  | .corrected => (count s false).bankError id false false 1#8 0 addr 0#64
  | .lost => (count (s.losePoison granule) true).bankError id true true 2#8 0 addr 0#64

/-- SCRUB_READ (R385): the read is an ordinary request at the bank of its granule, arbitrated against the engine like any
other; a bank that is free serves it as it comes. -/
def execScrubRead (granule : Nat) (found : ScrubFound) (s : State) : Res :=
  let (b, row) := s.bankRow 0 (32 * granule)
  if !s.managerAt (b / 4096) then .next s
  else if (s.bank b).free then .next (s.scrubbed granule found)
  else
    let r : OrdReq := { loadReq 0 (32 * granule) 32 with
                        row := row, byte := 32 * s.columnOf 0 (32 * granule), id := granule, scrub := some found }
    .next (s.askBank b [r])

/-- SRAM_RAIL_CHANGE (R383): before the rail falls below VT, ways 14 and 15 of the die's L2 are emptied and DEC-TED mode
is entered; it is left once the rail is above VT. -/
def execSramRailChange (die : Nat) (below : Bool) (s : State) : Res :=
  let set := fun (t : State) =>
    { t with mm := { t.mm with decTed := t.mm.decTed.setIfInBounds die below, railLow := t.mm.railLow.setIfInBounds die below } }
  if below then .next (set ((s.mm.l2.filter (fun e => e.die == die && decide (14 ≤ e.way))).foldl (fun (t : State) (e : L2Line) => t.evictL2 e) s))
  else .next (set s)

end Sys2Proof.Machine
end

