-- ==== Sys2Proof/Machine/Links.lean ====
section
/-!
DEFINITION. The boundary modules: link retry (R397, R398), lane loss, retraining and degrade (R399, R400), the module maps
(R401), and the loss of a plane (R410).
-/

namespace Sys2Proof.Machine

open Sys2Proof

/-! ## Receiving (R397, R398) -/

/-- An ACK drops the flits it covers from the replay buffer; one that covers none leaves it. -/
def ModEnd.acked (e : ModEnd) (ack : BitVec 7) : ModEnd :=
  match e.replay with
  | [] => e
  | (first, _) :: _ =>
    let n := (ack - first + 1#7).toNat
    if n = 0 ∨ n > e.replay.length then e else { e with replay := e.replay.drop n, nakRow := 0 }

/-- A NAK sends every flit after ACK again, in order, and is counted with its time and with the LSEQ that it asks for. -/
def ModEnd.naked (self : Nat) (e : ModEnd) (ack : BitVec 7) (now : Nat) : ModEnd :=
  let e1 := e.replay.foldl (fun (x : ModEnd) (r : BitVec 7 × Txn) => x.emit false false r.1 (txnPayload self r.2)) e
  { e1 with nakCnt := e.nakCnt + 1, nakSeq := ack + 1, nakRow := if e.nakSeq = ack + 1 then e.nakRow + 1 else 1,
            nakTimes := now :: e.nakTimes.filter (fun t => decide (now < t + 1000)) }

/-- A discarded flit draws a NAK when it is the first since an accepted one, and again a round trip after the last. -/
def ModEnd.discard (e : ModEnd) (now : Nat) : ModEnd :=
  if e.nakAt.all (fun t => decide (t + Config.roundTrip ≤ now)) then { e.emitNul true with nakAt := some now } else e

/-- An end accepts a numbered flit. -/
def ModEnd.accept (e : ModEnd) (f : Flit) : ModEnd :=
  { e with rxNext := e.rxNext + 1, lastAcc := f.lseq, nakAt := none, delivered := e.delivered ++ [f.payload] }

/-- An end must retrain its module: one LSEQ NAKed on five consecutive sends, or 32 NAKs within 1 ms (R399). Links of the on-die
mesh take no retraining (R398). -/
def ModEnd.worn (e : ModEnd) : Bool := !onDie e.id && (decide (5 ≤ e.nakRow) || decide (32 ≤ e.nakTimes.length))

/-! ## Retraining (R399) -/

/-- The flits of the replay buffer of an end go back to the transaction layer, to be sent again with RESEND = 1 before anything
that has not been sent yet (R405). -/
def ModEnd.handBack (e : ModEnd) : ModEnd :=
  { e with handedBack := e.replay.map (fun r => sentAgain r.2) ++ e.handedBack, replay := [], sent := [], nakRow := 0, nakTimes := [] }

/-- An end starts retraining. -/
def ModEnd.retrain (e : ModEnd) : ModEnd :=
  { e.handBack with state := 1, retrains := if e.retrains = 255#8 then 255#8 else e.retrains + 1 }

/-- Both directions of a module stop and retrain. -/
def Fabric.retrain (f : Fabric) (m : ModuleId) : Fabric :=
  let f1 := f.setEnd (f.modEnd m).retrain
  f1.setEnd (f1.modEnd (peerOf m)).retrain

/-- An end leaves training with a width, or retired: LSEQ restarts, and ACK reads 0x7F. -/
def ModEnd.restarted (e : ModEnd) (width state : BitVec 2) : ModEnd :=
  { e.handBack with state := state, width := width, txNext := 0, rxNext := 0, lastAcc := 0x7F, nakAt := none }

/-- A half of a direction is usable: its redundant lanes replace at most two faulty ones. -/
def halfUsable (n : Nat) : Bool := decide (n ≤ 2)

/-- The width that a lane test leaves (R399): x64, x32 on the lower or upper half, or none. -/
def testWidth (t : LaneTest) : BitVec 2 :=
  let low := halfUsable t.lower0 && halfUsable t.lower1
  let high := halfUsable t.upper0 && halfUsable t.upper1
  if low && high then 0#2 else if low then 1#2 else if high then 2#2 else 3#2

/-- The lanes that a lane test finds faulty, and those that redundant lanes replace: all of each usable half (R399, R400). -/
def testHalves (t : LaneTest) : List Nat := [t.lower0, t.upper0, t.lower1, t.upper1]
def testFaulty (t : LaneTest) : BitVec 8 := BitVec.ofNat 8 (testHalves t).sum
def testRepaired (t : LaneTest) : BitVec 8 := BitVec.ofNat 8 ((testHalves t).filter halfUsable).sum

/-- An end leaves training with what the lane test found. -/
def ModEnd.trained (e : ModEnd) (test : LaneTest) (width state : BitVec 2) : ModEnd :=
  { e.restarted width state with failLanes := testFaulty test, repaired := testRepaired test }

/-- What has come in at an end: a numbered flit's transaction, as the other end's replay buffer holds it, else as its payload
says; that end has then sent it on its own account. -/
def Fabric.arrived (f : Fabric) (self : Nat) (m : ModuleId) (flit : Flit) : Fabric × Txn :=
  let p := f.modEnd (peerOf m)
  match p.replay.find? (fun r => r.1 == flit.lseq && txnPayload self r.2 == flit.payload) with
  | some r => (f, r.2)
  | none => (if p.txNext = flit.lseq then f.setEnd { p with txNext := p.txNext + 1 } else f, txnOf self flit.payload)

/-- An end receives a flit (R397): the one that has been on its way longest. ACK and NAK of a flit with a good CRC count; a
numbered one is accepted only when its LSEQ is expected, and its transaction is then passed on. -/
def State.receiveFlit (s : State) (m : ModuleId) (flit : Flit) : State × Option Txn :=
  let self := s.fab.modEnd (peerOf m)
  let f0 := s.fab.setEnd { self with sent := self.sent.drop 1 }
  let e := f0.modEnd m
  let dev := s.fe.devSelf.toNat
  let now := Config.linkTime s.tick
  if e.state ≠ 0 then (s, none)
  else if flit.crc ≠ flitCheck (onDie m) flit then ({ s with fab := f0.setEnd (e.discard now) }, none)
  else
    let e1 := e.acked flit.ack
    let e2 := if flit.nak then e1.naked dev flit.ack (Config.wallTime s.tick) else e1
    let e3 := e2.push dev []
    let out := fun (g : Fabric) => if (g.modEnd m).worn then g.retrain m else g
    if flit.nul then ({ s with fab := out (f0.setEnd e3) }, none)
    else if flit.lseq ≠ e.rxNext then ({ s with fab := out (f0.setEnd (e3.discard now)) }, none)
    else
      let (f1, x) := (f0.setEnd (e3.accept flit)).arrived dev m flit
      ({ s with fab := out f1 }, some x)

/-- NUL_FLIT_TIMER (R397): a direction with nothing to send sends a NUL flit. -/
def execNulFlitTimer (m : ModuleId) (s : State) : Res :=
  let e := s.fab.modEnd m
  .next (if e.state = 0 then { s with fab := s.fab.setEnd (e.emitNul false) } else s)

/-- LANE_LOCK_LOSS (R399). -/
def execLaneLockLoss (m : ModuleId) (s : State) : Res :=
  .next (if (s.fab.modEnd m).state = 0 ∧ !onDie m then { s with fab := s.fab.retrain m } else s)

/-! ## Module maps (R401) -/

/-- Writes an entry of MODMAP; identity entries are not listed. -/
def Fabric.setMod (f : Fabric) (boundary plane i v : Nat) : Fabric :=
  let rest := f.modMap.filter (fun e => !(e.1 == boundary && e.2.1 == plane && e.2.2.1 == i))
  { f with modMap := if v = i then rest else (boundary, plane, i, v) :: rest }

/-- A module is retired. -/
def Fabric.isRetired (f : Fabric) (boundary plane n : Nat) : Bool := (f.modEnd ⟨boundary, plane, n, false⟩).state == 2#2

/-- The next module in ascending order modulo 16 that is not retired. -/
def Fabric.nextModule (f : Fabric) (boundary plane n : Nat) : Option Nat :=
  ((List.range 15).map (fun k => (n + 1 + k) % 16)).find? (fun k => !f.isRetired boundary plane k)

/-- Every entry that names a retired module gets the next one, and both ends' handed-back transactions go there before any
that had not yet been sent there: what waits there is not sent before them. -/
def Fabric.moveTo (f : Fabric) (self : Nat) (m : ModuleId) (n : Nat) : Fabric :=
  let f1 := (List.range 16).foldl (fun (g : Fabric) (i : Nat) =>
    if g.modAt m.boundary m.plane i = m.module then g.setMod m.boundary m.plane i n else g) f
  [m, (peerOf m)].foldl (fun (g : Fabric) (a : ModuleId) =>
    let e := g.modEnd a
    let t := g.modEnd { a with module := n }
    (g.setEnd { e with handedBack := [] }).setEnd ({ t with handedBack := e.handedBack ++ t.handedBack }.push self [])) f1

/-- Retired modules of a plane at a boundary. -/
def Fabric.retiredCount (f : Fabric) (boundary plane : Nat) : Nat :=
  ((List.range 16).filter (f.isRetired boundary plane)).length

/-- A retired module's map entries move on. -/
def Fabric.remapModule (f : Fabric) (self : Nat) (m : ModuleId) : Fabric :=
  match f.nextModule m.boundary m.plane m.module with
  | some n => f.moveTo self m n
  | none => f

/-! ## Losing a plane (R410) -/

/-- The error bank of a boundary plane group (R345). -/
def groupBank (m : ModuleId) : BitVec 32 := bankIdOf (lowerDie m.boundary) 7 (m.boundary * 8 + m.plane)

/-- Streams whose requests are lost are to be sent again, and their timeouts stand still from here on (R405, R411). -/
def Fabric.markLost (f : Fabric) (lost : FonakReq → Bool) : Fabric :=
  { f with streams := changeAll (fun t => t.outstanding.any lost) (fun t => { t with marked := true }) f.streams }

/-- What a dead plane's modules hold is lost with it. -/
def Fabric.emptyPlane (f : Fabric) (p : Nat) : Fabric :=
  { f with modules := changeAll (fun (e : ModEnd) => e.id.plane == p)
             (fun e => { e with replay := [], sent := [], handedBack := [], rxNext := (f.modEnd (peerOf e.id)).txNext }) f.modules }

/-- What Terak tells the coordinator (R410, R411). -/
def State.tell (s : State) (n : PlaneNote) : State := { s with fab := { s.fab with told := s.fab.told ++ [n] } }

/-- A plane is declared dead, logged in the bank of D0's front-end core, and told to the coordinator. No repair answers the loss,
so the owner's message goes with the entry. After class 5 nothing is left to log it (R362). -/
def State.losePlane (s : State) (p : Nat) : State :=
  if p ≥ 8 ∨ s.fab.dead.getLsbD p then s
  else
    let id := bankIdOf 0 0xA 0
    let f := ({ s.fab with dead := s.fab.dead ||| (1#8 <<< p) }.markLost (fun r => r.key.plane == p)).emptyPlane p
    let t := { s with fab := f }
    if s.terak.fail ≠ 0 then t
    else ((t.logLoss id 6#8 (BitVec.ofNat 64 p) 0#64 5).errorMessage 0).tell (.lost p)

/-- A module is retired: what it held is handed back, its map entries move on, the retirement is logged as class 4 with ACT 5 and
Terak is asked to record it; eight at one boundary end the plane (R400, R401). A lane test tells FAILLANES and REPAIRED, a
router's death leaves them. -/
def State.retireModule (s : State) (m : ModuleId) (test : Option LaneTest) : State :=
  let off := fun (e : ModEnd) => match test with
    | some t => e.trained t 3#2 2#2
    | none => e.restarted 3#2 2#2
  let f1 := s.fab.setEnd (off (s.fab.modEnd m))
  let f2 := (f1.setEnd (off (f1.modEnd (peerOf m)))).remapModule s.fe.devSelf.toNat m
  let id := groupBank m
  let s1 := { s with fab := f2 }
  let s2 := if s.terak.fail ≠ 0 then s1
    else ((s1.flushBank id).askRepair (.module { m with upper := false }) (some 3)).logLoss id 6#8 (BitVec.ofNat 64 m.module)
      (BitVec.ofNat 64 ((test.map (fun t => (testHalves t).sum)).getD 0)) 5
  if f2.retiredCount m.boundary m.plane ≥ 8 then s2.losePlane m.plane else s2

/-- A module comes up at a width: what was handed back is sent again first. -/
def Fabric.bringUp (f : Fabric) (self : Nat) (m : ModuleId) (test : LaneTest) : Fabric :=
  [m, (peerOf m)].foldl (fun (g : Fabric) (a : ModuleId) =>
    g.setEnd (((g.modEnd a).trained test (testWidth test) 0#2).push self [])) f

/-- MODULE_RETRAIN_END (R399, R400). A repair alone is class 1; a degrade is class 4 with ACT 4. The lane state takes effect at
once; after class 5 nobody is left to log it (R362). -/
def execModuleRetrainEnd (m : ModuleId) (test : LaneTest) (s : State) : Res :=
  if (s.fab.modEnd m).state ≠ 1 then .next s
  else if (testWidth test) = 3#2 then .next (s.retireModule m (some test))
  else
    let t := { s with fab := s.fab.bringUp s.fe.devSelf.toNat m test }
    let id := groupBank m
    let addr : Word := BitVec.ofNat 64 m.module
    let misc : Word := BitVec.ofNat 64 (testHalves test).sum
    if s.terak.fail ≠ 0 then .next t
    else if (testWidth test) = 0#2 then .next (t.bankError id false false 6#8 0 addr misc)
    else
      let t1 := (t.flushBank id).askRepair (.module { m with upper := false }) (some (testWidth test).toNat)
      .next (t1.logLoss id 6#8 addr misc 4)

end Sys2Proof.Machine
end

