-- ==== Sys2Proof/Machine/Shake.lean ====
section
/-!
DEFINITION. The SHAKE256 digest with which Terak measures firmware images (R333): the sponge of FIPS 202, which the spec
names and does not repeat (log entry 5).
-/

namespace Sys2Proof.Machine

open Sys2Proof

/-- The rotation of each lane of the Keccak state, lane (x, y) at index x + 5y. -/
def keccakTurns : List Nat :=
  [0, 1, 62, 28, 27, 36, 44, 6, 55, 20, 3, 10, 43, 25, 39, 41, 45, 15, 21, 8, 18, 2, 61, 56, 14]

/-- The constants of the 24 rounds. -/
def keccakConstants : List Word :=
  [0x0000000000000001#64, 0x0000000000008082#64, 0x800000000000808A#64, 0x8000000080008000#64,
   0x000000000000808B#64, 0x0000000080000001#64, 0x8000000080008081#64, 0x8000000000008009#64,
   0x000000000000008A#64, 0x0000000000000088#64, 0x0000000080008009#64, 0x000000008000000A#64,
   0x000000008000808B#64, 0x800000000000008B#64, 0x8000000000008089#64, 0x8000000000008003#64,
   0x8000000000008002#64, 0x8000000000000080#64, 0x000000000000800A#64, 0x800000008000000A#64,
   0x8000000080008081#64, 0x8000000000008080#64, 0x0000000080000001#64, 0x8000000080008008#64]

/-- A lane of the state. -/
def lane (a : List Word) (x y : Nat) : Word := a.getD (x % 5 + 5 * (y % 5)) 0#64

/-- One round: column parities, turns and places of the lanes, rows, the constant. -/
def keccakRound (a : List Word) (k : Word) : List Word :=
  let c := (List.range 5).map (fun x => (List.range 5).foldl (fun (w : Word) (y : Nat) => w ^^^ lane a x y) 0#64)
  let t := (List.range 25).map (fun i =>
    (a.getD i 0#64 ^^^ lane c (i + 4) 0 ^^^ (lane c (i % 5 + 1) 0).rotateLeft 1).rotateLeft (keccakTurns.getD i 0))
  let b := (List.range 25).map (fun i => lane t (3 * (i / 5) + i % 5) i)
  let r := (List.range 25).map (fun i => lane b i (i / 5) ^^^ (~~~(lane b (i + 1) (i / 5)) &&& lane b (i + 2) (i / 5)))
  (r.headD 0#64 ^^^ k) :: r.drop 1

/-- The permutation of the sponge. -/
def keccak (a : List Word) : List Word := keccakConstants.foldl keccakRound a

/-- Absorbs the blocks of 136 bytes of a padded message. -/
def absorb : Nat → List Word → List Byte → List Word
  | 0, a, _ => a
  | n + 1, a, l =>
    let block := (List.range 17).map (fun i => BitVec.ofNat 64 (natOfBytes ((l.drop (8 * i)).take 8)))
    absorb n (keccak ((List.range 25).map (fun i => a.getD i 0#64 ^^^ block.getD i 0#64))) (l.drop 136)

/-- The 64-byte SHAKE256 digest of a message, its first byte in bits 7 to 0 (R333). -/
def shake256 (l : List Byte) : BitVec 512 :=
  let blocks := l.length / 136 + 1
  let pad := l ++ [0x1F#8] ++ List.replicate (136 * blocks - l.length - 1) 0#8
  let last := 136 * blocks - 1
  let a := absorb blocks (List.replicate 25 0#64) (pad.set last (pad.getD last 0#8 ^^^ 0x80#8))
  BitVec.ofNat 512 (natOfBytes ((a.take 8).flatMap (fun w => bytesOfNat 8 w.toNat)))

end Sys2Proof.Machine
end

