-- ==== Sys2Proof/Machine/Xmss.lean ====
section
/-!
DEFINITION. The XMSS signature check of a firmware image (R333), parameter set XMSS-SHAKE_20_512 of RFC 8391, which the spec
names and does not repeat: n = 64, w = 16, 131 chains, height 20 (log entry 5).
-/

namespace Sys2Proof.Machine

open Sys2Proof

/-- A number in big-endian bytes, as the RFC writes it. -/
def bigBytes (n v : Nat) : List Byte := (bytesOfNat n v).reverse

/-- The keyed hashes: 0 F, 1 H, 2 H_msg, 3 PRF. -/
def xmssHash (kind : Nat) (key m : List Byte) : List Byte := bytesOfNat 64 (shake256 (bigBytes 64 kind ++ key ++ m)).toNat

/-- Two strings of bytes added without carry. -/
def xorBytes (a b : List Byte) : List Byte := List.zipWith (· ^^^ ·) a b

/-- A hash address on the one layer of one tree: its type, three words, and whether it names a key or a mask. -/
def hashAddress (kind a b c mask : Nat) : List Byte :=
  bigBytes 12 0 ++ [kind, a, b, c, mask].flatMap (bigBytes 4)

/-- The pseudo-random string at an address. -/
def xmssPrf (seed : List Byte) (kind a b c mask : Nat) : List Byte := xmssHash 3 seed (hashAddress kind a b c mask)

/-- The parent of two nodes. -/
def xmssParent (seed : List Byte) (kind a b c : Nat) (l r : List Byte) : List Byte :=
  xmssHash 1 (xmssPrf seed kind a b c 0) (xorBytes l (xmssPrf seed kind a b c 1) ++ xorBytes r (xmssPrf seed kind a b c 2))

/-- A chain goes on for `n` steps from step `i`. -/
def xmssChain (seed : List Byte) (ots chain : Nat) : Nat → Nat → List Byte → List Byte
  | 0, _, x => x
  | n + 1, i, x =>
    xmssChain seed ots chain n (i + 1)
      (xmssHash 0 (xmssPrf seed 0 ots chain i 0) (xorBytes x (xmssPrf seed 0 ots chain i 1)))

/-- The 131 digits of a digest: its 128 nibbles, high ones first, and those of their checksum. -/
def xmssDigits (m : List Byte) : List Nat :=
  let nibbles : List Byte → List Nat := fun l => l.flatMap (fun b => [b.toNat / 16, b.toNat % 16])
  let d := nibbles m
  d ++ (nibbles (bigBytes 2 (16 * (d.map (15 - ·)).sum))).take 3

/-- One row of the tree over the ends of the chains. -/
def ltreeRow (seed : List Byte) (ots height : Nat) : Nat → List (List Byte) → List (List Byte)
  | i, l :: r :: rest => xmssParent seed 1 ots height i l r :: ltreeRow seed ots height (i + 1) rest
  | _, rest => rest

/-- The root of the tree over the ends of the chains: 131 of them need 8 rows. -/
def ltree (seed : List Byte) (ots : Nat) (ends : List (List Byte)) : List Byte :=
  ((List.range 8).foldl (fun (l : List (List Byte)) (h : Nat) => ltreeRow seed ots h 0 l) ends).headD []

/-- Bytes of a string from an offset. -/
def sliceBytes (l : List Byte) (off n : Nat) : List Byte := (l.drop off).take n

/-- The signature of a message verifies under a public key: four bytes of algorithm, the root and the seed. -/
def xmssVerify (key m sig : List Byte) : Bool :=
  let root := sliceBytes key 4 64
  let seed := sliceBytes key 68 64
  let idx := natOfBytes (sliceBytes sig 0 4).reverse
  let digest := xmssHash 2 (sliceBytes sig 4 64 ++ root ++ bigBytes 64 idx) m
  let ends := (xmssDigits digest).zipIdx.map (fun d =>
    xmssChain seed idx d.2 (15 - d.1) d.1 (sliceBytes sig (68 + 64 * d.2) 64))
  let top := (List.range 20).foldl (fun (node : List Byte) (k : Nat) =>
    let auth := sliceBytes sig (8452 + 64 * k) 64
    if idx / 2 ^ k % 2 = 0 then xmssParent seed 2 0 k (idx / 2 ^ (k + 1)) node auth
    else xmssParent seed 2 0 k (idx / 2 ^ (k + 1)) auth node) (ltree seed idx ends)
  key.length == 132 && sig.length == 9732 && decide (idx < 2 ^ 20) && top == root

end Sys2Proof.Machine
end

