-- ==== Sys2Proof/Machine/Terak.lean ====
section
/-!
DEFINITION. Terak: start-up (R332, R333), its register block and ownership (R335, R336, R342, R363, R417), power (R20,
R343), the firmware watchdogs and the deadman timer (R413 to R415), class 5 and the package reset (R362).
-/

namespace Sys2Proof.Machine

open Sys2Proof

/-! ## Images (R333) -/

/-- An image passes: its key is the one whose digest is fused into the package, its signature verifies under that key, and its
version is not below the anti-rollback counter. -/
def State.imageGood (s : State) (img : BootImage) : Bool :=
  shake256 img.key == Config.fusedKeyDigest && xmssVerify img.key img.body img.signature && decide (s.terak.rollback ≤ img.version)

/-- A verified image enters the measurement log by its digest: image 1 is the stack managers', image 2 the front ends'. -/
def State.measure (s : State) (n : Nat) (img : BootImage) : State :=
  { s with terak := { s.terak with mlog := s.terak.mlog ++ [(n, shake256 img.body)] } }

/-- An image fails: FAIL names it, READY reads 0, and its processors are not released (R333, R417). -/
def State.imageFails (s : State) (n : Nat) : State :=
  { s with terak := { s.terak with fail := BitVec.ofNat 8 n, ready := false,
                                   released := (s.terak.released.1 && n != 1, s.terak.released.2 && n != 2) } }

/-- The processors that an image releases: 1 the stack managers, 2 the front ends. -/
def processorsOf (n : Nat) : List Processor :=
  if n = 1 then (List.range 16).map .stackManager else (List.range 4).map .frontEnd

/-- The time within which processors must write their heartbeat runs from now (R413). -/
def State.startBeats (s : State) (l : List Processor) : State :=
  let rest := s.terak.heartbeats.filter (fun h => !l.contains h.1)
  { s with terak := { s.terak with heartbeats := l.map (fun p => (p, Config.wallTime s.tick)) ++ rest } }

/-- Verifies an image: measured when good, named in FAIL when not. -/
def State.verify (s : State) (n : Nat) (img : BootImage) : State :=
  if s.imageGood img then
    let t := (s.measure n img).startBeats (processorsOf n)
    { t with terak := { t.terak with released := (t.terak.released.1 || n == 1, t.terak.released.2 || n == 2) } }
  else s.imageFails n

/-! ## Committed repairs at start-up (R359, R401) -/

/-- What one committed repair does to the maps; a later one of the same part stands. -/
def Errors.applyRepair (e : Errors) (r : Repair) : Errors :=
  let put := fun (l : List (Nat × Nat × Nat)) (a b n : Nat) => (a, b, n) :: l.filter (fun x => !(x.1 == a && x.2.1 == b))
  match r.part, r.spare with
  | .core d c, some n => { e with coreMap := put e.coreMap d c n }
  | .core d c, none => { e with closedCores := (d, c) :: e.closedCores }
  | .channel d c, some n => { e with chanMap := put e.chanMap d c n }
  | .channel d _, none => { e with barred := d :: e.barred }
  | .row b row, some n => { e with rowMap := put e.rowMap b row n }
  | .column b c, some n => { e with columnMap := put e.columnMap b c n }
  | .bank b, some _ => { e with bankMap := b :: e.bankMap.filter (fun x => x != b) }
  | .cacheRow k row, some n => { e with rowMap := put e.rowMap (65536 + k) row n }
  | .stack k, _ => { e with barred := k / 4 :: e.barred }
  | _, _ => e

/-- Start-up trains a module to a recorded width, or leaves it retired. -/
def Fabric.applyRepair (self : Nat) (f : Fabric) (r : Repair) : Fabric :=
  match r.part, r.spare with
  | .module m, some w =>
    let set := fun (g : Fabric) (a : ModuleId) =>
      g.setEnd { g.modEnd a with width := BitVec.ofNat 2 w, state := if w = 3 then 2#2 else 0#2 }
    let f1 := set (set f m) (peerOf m)
    if w = 3 then f1.remapModule self m else f1
  | _, _ => f

/-- Planes with eight retired modules at one boundary (R401). -/
def Fabric.wornPlanes (f : Fabric) : List Nat :=
  (List.range 8).filter (fun p => (List.range 4).any (fun b => decide (8 ≤ f.retiredCount b p)))

/-- Tag ways that a committed repair without a spare has disabled (R388). -/
def disabledWays (l : List Repair) : List (Nat × Nat) :=
  l.filterMap (fun r => match r.part, r.spare with
    | .cacheRow k row, none => if r.committed then some (k, row) else none
    | _, _ => none)

/-- Terak applies every committed repair record (R359); a plane that has lost too many modules is declared dead again (R401,
R410). -/
def State.applyRepairs (s : State) : State :=
  let l := s.err.repairs.filter (·.committed)
  let fab := l.foldl (Fabric.applyRepair s.fe.devSelf.toNat) s.fab
  let t := { s with err := l.foldl Errors.applyRepair s.err, fab := fab, mm := { s.mm with mscDisabled := disabledWays l } }
  fab.wornPlanes.foldl State.losePlane t

/-! ## Start-up (R332) -/

/-- POWER_GOOD: step 1, and the verification that opens step 2. -/
def execPowerGood (img : BootImage) (s : State) : Res :=
  if s.terak.stage ≠ 0 ∨ s.terak.fail ≠ 0 then .next s
  else
    let t := { s.applyRepairs with terak := { s.terak with stage := 1, arb := 2, cap := 2 } }
    let t1 := { t with mm := { t.mm with victimOnly := Vector.replicate 16 true }, fab := { t.fab with planeMap := planeMapReset } }
    .next (t1.verify 1 img)

/-- STACK_MANAGERS_READY: every row has been scrubbed to zero; step 3 opens with its verification. -/
def execStackManagersReady (img : BootImage) (s : State) : Res :=
  if s.terak.stage ≠ 1 ∨ s.terak.fail ≠ 0 ∨ ¬ s.terak.released.1 then .next s
  else
    let t := { s with mm := { s.mm with bytes := [], poison := [], sure := [], keys := [] }, terak := { s.terak with stage := 2 } }
    .next (t.verify 2 img)

/-- FRONT_ENDS_READY: step 4 releases the cores and bank engines; when it has ended, step 5 sets the caches to normal and
READY. -/
def execFrontEndsReady (s : State) : Res :=
  if s.terak.fail ≠ 0 ∨ ¬ s.terak.released.2 then .next s
  else if s.terak.stage = 2 then .next { s with terak := { s.terak with stage := 3 } }
  else if s.terak.stage = 3 then
    let t := s.toNormal (List.range 16)
    .next { t with terak := { t.terak with stage := 4, ready := true } }
  else .next s

/-! ## The register block (R335, R417) -/

/-- The code of an agent. -/
def agentCode : Agent → Nat
  | .nobody => 0
  | .pcie => 1
  | .i3c => 2
  | .remote => 3

/-- The agent of a code. -/
def agentOf (n : Nat) : Agent := match n with | 0 => .nobody | 1 => .pcie | 2 => .i3c | _ => .remote

/-- OWNER. -/
def Terak.ownerWord (t : Terak) : Word :=
  (zext t.nOwnWr <<< 32) ||| BitVec.ofNat 64 (agentCode t.agent * 2 ^ 30 + t.epoch.toNat)

/-- POWER (R342). -/
def Terak.powerWord (t : Terak) : Word := (zext t.arb <<< 4) ||| zext t.cap

/-- BOOTSTAT; READY reads 0 whenever FAIL is not zero. -/
def Terak.bootStat (t : Terak) : Word :=
  (zext t.failPart <<< 32) ||| (zext t.fail <<< 16) ||| (if t.ready && t.fail == 0 then 0x100#64 else 0#64) ||| zext t.stage

/-- Terak's registers by offset. -/
def Terak.register (t : Terak) (off : Nat) : Word :=
  match off with
  | 0 => t.ownerWord
  | 0x18 => zext t.leaseMs
  | 0x20 => t.powerWord
  | 0x28 => t.bootStat
  | _ => 0#64

/-! ## Ownership (R336) -/

/-- The lease starts again (R336, R363). -/
def State.startLease (s : State) : State :=
  { s with terak := { s.terak with leaseOn := true, leaseAt := Config.wallTime s.tick } }

/-- A write ignored because it came from a non-owner is counted (R335). -/
def State.refusedWrite (s : State) : State := { s with terak := { s.terak with nOwnWr := s.terak.nOwnWr + 1 } }

/-- The agent owns the device. -/
def State.owns (s : State) (who : Agent) : Bool := who != Agent.nobody && s.terak.agent == who

/-- A write of the owner restarts its lease. -/
def State.ownerWrote (s : State) (who : Agent) : State := if s.owns who then s.startLease else s

/-- A CLAIM (R336); Terak accepts it from step 2 of start-up on (R332). -/
def State.claim (s : State) (who : Agent) (v : Word) : State :=
  if who = .nobody ∨ s.terak.stage = 0 then s
  else if s.terak.agent = .nobody ∧ v.setWidth 30 = s.terak.epoch then
    { s with terak := { s.terak with agent := who, epoch := s.terak.epoch + 1 } }.startLease
  else s.ownerWrote who

/-- A HANDOFF (R336). -/
def State.handoff (s : State) (who : Agent) (v : Word) : State :=
  if who = .nobody then s
  else if !s.owns who then s.refusedWrite
  else if v.setWidth 30 = s.terak.epoch then
    let next := agentOf (bitsOf v.toNat 30 2)
    let t := { s with terak := { s.terak with agent := next, epoch := s.terak.epoch + 1 } }
    if next = .nobody then { t with terak := { t.terak with leaseOn := false } } else t.startLease
  else s.startLease

/-- A write of POWER (R342): a reserved value leaves its field unchanged. -/
def State.writePower (s : State) (who : Agent) (v : Word) : State :=
  if who = .nobody ∨ s.terak.fail ≠ 0 then s
  else if !s.owns who then s.refusedWrite
  else
    let a := v.extractLsb' 4 2
    let c := v.extractLsb' 0 2
    { s with terak := { s.terak with arb := if a = 3 then s.terak.arb else a, cap := if c = 3 then s.terak.cap else c } }.startLease

/-- A write of any other register of the block: LEASE is the only one that takes a value, clamped (R335). -/
def State.writeOther (s : State) (who : Agent) (off : Nat) (v : Word) : State :=
  if who = .nobody ∨ s.terak.fail ≠ 0 then s
  else if !s.owns who then s.refusedWrite
  else
    let ms := min 3600000 (max 100 (bitsOf v.toNat 0 32))
    let t := if off = 0x18 then { s with terak := { s.terak with leaseMs := BitVec.ofNat 32 ms } } else s
    t.startLease

/-- A write to the block by its offset. -/
def State.terakWrite (s : State) (who : Agent) (off : Nat) (v : Word) : State :=
  if off = 8 then s.claim who v
  else if off = 0x10 then s.handoff who v
  else if off = 0x20 then s.writePower who v
  else s.writeOther who off v

/-- CLAIM (R336). -/
def execClaim (who : Agent) (value : Word) (s : State) : Res := .next (s.claim who value)

/-- HANDOFF (R336). -/
def execHandoff (who : Agent) (value : Word) (s : State) : Res := .next (s.handoff who value)

/-- POWER_WRITE (R342). -/
def execPowerWrite (who : Agent) (value : Word) (s : State) : Res := .next (s.writePower who value)

/-- The lease has run for some thousandths of its length in wall time since the write that restarted it (R336, R363). -/
def State.leaseRan (s : State) (thousandths : Nat) : Bool :=
  s.terak.leaseOn && decide (s.terak.agent ≠ .nobody) && s.terak.fail == 0
    && decide (s.terak.leaseAt + s.terak.leaseMs.toNat * thousandths ≤ Config.wallTime s.tick)

/-- LEASE_WARNING (R363): at three quarters of the lease, an error message to the owner. -/
def execLeaseWarning (s : State) : Res := .next (if s.leaseRan 750 then s.errorMessage 0 else s)

/-- LEASE_EXPIRY (R363): the owner is revoked, and nothing else changes. -/
def execLeaseExpiry (s : State) : Res :=
  .next (if s.leaseRan 1000 then { s with terak := { s.terak with agent := .nobody, epoch := s.terak.epoch + 1, leaseOn := false } }
    else s)

/-! ## Power (R20, R343) -/

/-- ARBITRATION_WINDOW_BOUNDARY (R20): the mode that POWER holds applies to the stack from here on. -/
def execArbitrationWindowBoundary (stack : Nat) (s : State) : Res :=
  .next { s with terak := { s.terak with stackArb := s.terak.stackArb.setIfInBounds stack s.terak.arb } }

/-- POWER_BUDGET_EXCEEDED (R343): withheld core cycles count toward RUNCOUNT of every hart that
has fetched (R73), by a free amount (log entry 2); no request is
dropped or reordered. -/
def execPowerBudgetExceeded (who : Consumer) (s : State) : Res :=
  let c : Word := BitVec.ofNat 64 (Config.stepCycles (2 * s.tick + 1))
  .next (match who with
    | .die d => s.onHarts (fun h => if h.isResident && !h.dbgHalted && h.fetched && h.place.die == d then
        { h with csr := { h.csr with runCount := h.csr.runCount + c } } else h)
    | _ => s)

/-! ## Watchdogs (R413 to R415) -/

/-- The error bank of a firmware processor (R345). -/
def processorBank : Processor → BitVec 32
  | .frontEnd d => bankIdOf d 0xA 0
  | .stackManager k => bankIdOf (k / 4) 0xB (k % 4)

/-- FIRMWARE_HEARTBEAT (R413). -/
def execFirmwareHeartbeat (who : Processor) (s : State) : Res := .next (s.startBeats [who])

/-- The limit of a processor in µs. -/
def beatLimit : Processor → Nat
  | .frontEnd _ => 20000
  | .stackManager _ => 50000

/-- A processor has not written its heartbeat within its limit. -/
def State.beatMissed (s : State) (who : Processor) : Bool :=
  decide ((((s.terak.heartbeats.find? (fun h => h.1 == who)).map (·.2)).getD 0) + beatLimit who ≤ Config.wallTime s.tick)

/-- Restarts of a processor within the last 24 hours. -/
def State.restartsOf (s : State) (who : Processor) : Nat :=
  (s.terak.restarts.filter (fun r => r.1 == who && decide (Config.wallTime s.tick < r.2 + 86400000000))).length

/-- A stack is retired: each of its channels is lost without a spare (R357, R413). -/
def State.retireStack (s : State) (k : Nat) : State :=
  let id := processorBank (.stackManager k)
  let linear := (s.fe.jobs.filter (fun j => j.bl != 0 && (j.banks.extractLsb' (4096 * k) 4096) != 0#4096)).map (·.asid)
  let asids := (s.jobsOn (k / 4) (fun c => c / 512 == k % 4) ++ linear).eraseDups
  let seq := (s.flushBank id).err.nextSeq[k / 4]?.getD 0
  let t := ((s.flushBank id).askRepair (.stack k) none).logLoss id 9#8 (BitVec.ofNat 64 k) 0#64 5
  let t1 := t.endJobs seq asids
  { t1 with err := { t1.err with barred := if t1.err.barred.contains (k / 4) then t1.err.barred else k / 4 :: t1.err.barred } }

/-- A processor is reset; its image is verified, and until it is released again it does nothing (R414). The restart is logged as
class 1 in its bank. -/
def State.restart (s : State) (who : Processor) (n : Nat) (img : BootImage) : State :=
  if s.imageGood img then
    let t := (s.measure n img).bankError (processorBank who) false false 9#8 0 0#64 0#64
    { t with terak := { t.terak with restarts := (who, Config.wallTime s.tick) :: t.terak.restarts,
                                     restarting := t.terak.restarting ++ [who] } }
  else s.imageFails n

/-- A restarted processor is released: what it serves has survived in its hardware, from which it goes on (R414). -/
def State.released (s : State) (who : Processor) : State :=
  ({ s with terak := { s.terak with restarting := s.terak.restarting.erase who } }).startBeats [who]

/-- FIRMWARE_WATCHDOG_EXPIRY (R413): three restarts in 24 hours, then class 5 or the loss of the stack; of a processor whose limit
has not passed it is none. What the processor serves survives a restart in its hardware (R414). -/
def execFirmwareWatchdogExpiry (who : Processor) (img : BootImage) (s : State) : Res :=
  if s.terak.fail ≠ 0 then .next s
  else match who with
  | .frontEnd d =>
    if d ≥ 4 ∨ ¬ s.terak.released.2 ∨ s.terak.restarting.contains who ∨ ¬ s.beatMissed who then .next s
    else if s.restartsOf who < 3 then .next (s.restart who 2 img)
    else .next (s.packageFatal 3 (processorBank who))
  | .stackManager k =>
    if k ≥ 16 ∨ ¬ s.terak.released.1 ∨ s.terak.restarting.contains who ∨ ¬ s.beatMissed who then .next s
    else if s.restartsOf who < 3 then .next (s.restart who 1 img)
    else .next (s.retireStack k)

/-- DEADMAN_REFRESH (R415). -/
def execDeadmanRefresh (s : State) : Res := .next { s with terak := { s.terak with deadman := Config.wallTime s.tick } }

/-- DEADMAN_EXPIRY (R415): when 1 s has passed without a refresh, FAIL names Terak, and the package stands as after class 5. -/
def execDeadmanExpiry (s : State) : Res :=
  .next (if s.terak.deadman + 1000000 ≤ Config.wallTime s.tick then s.packageFatal 5 0 else s)

/-- CLASS5_DECLARE (R362, R417): a part with a bank is named by its bank id; Terak's boot flash and repair log have none. -/
def execClass5Declare (_part : Part) (bankId : Option (BitVec 32)) (s : State) : Res :=
  .next (match bankId with
    | some id => s.packageFatal 3 id
    | none => s.packageFatal 4 0)

/-! ## Package reset (R359, R362) -/

/-- PACKAGE_RESET: counters and FAIL are cleared, uncommitted repairs are undone, and start-up follows. Memory keeps its
bytes until the scrub of step 2; the fuses, the signing keys left and the repair log stay. -/
def execPackageReset (s : State) : Res :=
  let t := State.reset
  .next { t with mm := { t.mm with bytes := s.mm.bytes, poison := s.mm.poison, keys := s.mm.keys },
                 err := { t.err with repairs := s.err.repairs.filter (·.committed) },
                 terak := { t.terak with rollback := s.terak.rollback, keysLeft := s.terak.keysLeft, spareCores := s.terak.spareCores,
                                         deadman := Config.wallTime s.tick },
                 agenda := s.agenda, tick := s.tick, fresh := s.fresh }

end Sys2Proof.Machine
end

