-- ==== Sys2Proof/Machine/HostAccess.lean ====
section
/-!
DEFINITION. Accesses of the front ends and of the PCIe host to virtual memory as plain accesses at system scope
(R321, R337).
-/

namespace Sys2Proof.Machine

open Sys2Proof

/-! ## Byte ranges -/

/-- A byte range cut at line boundaries: address and length of each part. -/
def linePieces : Nat → Nat → Nat → List (Nat × Nat)
  | 0, _, _ => []
  | fuel + 1, va, n =>
    if n = 0 then []
    else
      let k := min n (128 - va % 128)
      (va, k) :: linePieces fuel (va + k) (n - k)

/-- The parts of a byte range. -/
def piecesOf (va n : Nat) : List (Nat × Nat) := linePieces (n / 128 + 2) va n

/-- Translates every part of a range for an access, before anything is read or written. -/
def checkPieces (who : Who) (acc : Access) : List (Nat × Nat) → A (List (Nat × Nat × Window))
  | [] => pure []
  | (va, n) :: l => do
    let w ← classify who (BitVec.ofNat 64 va) (if n = 8 ∧ va % 8 = 0 then 8 else 1) acc
    let rest ← checkPieces who acc l
    return (va, n, w) :: rest

/-- The bytes of part of a line, each with the mark of its granule. -/
def lineBytes (v : LineVal) (va n : Nat) : List (Byte × Bool) :=
  (List.range n).map (fun i =>
    let o := va % 128 + i
    (BitVec.ofNat 8 (getElt v.data 8 o), v.psn.getLsbD (o / 32)))

/-- Reads the checked parts at their homes, each once its plane takes a transaction (R399, R411). -/
def readPieces (who : Who) : List (Nat × Nat × Window) → A (List (Byte × Bool))
  | [] => pure []
  | (va, n, w) :: l => do
    let s ← get
    let v ← match w with
      | .bankLinear pa => bankLoad who pa n
      | .cached pa _ | .memSide pa _ =>
        let space := spaceOf who.asid (BitVec.ofNat 64 va)
        if s.isLocal pa then
          needWay who.die (pa / 128)
          let t := s.cross who.die (paDie pa) (pa / 128)
          set (t.readServed space (pa / 128))
          pure (t.seen space (pa / 128))
        else fetchHome who space (pa / 128)
      | x => readLine who va n 2 x
    let rest ← readPieces who l
    return lineBytes v va n ++ rest

/-- Writes the checked parts at their homes; another device gets posted writes (R131). -/
def writePieces (who : Who) : List (Nat × Nat × Window) → List Byte → A Unit
  | [], _ => pure ()
  | (va, n, w) :: l, bs => do
    let s ← get
    let v := natOfBytes (bs.take n)
    let line := placeBytes va v false
    let mask := byteMask va n
    match w with
    | .bankLinear pa => bankStore who pa line mask
    | .cached pa _ | .memSide pa _ =>
      let space := spaceOf who.asid (BitVec.ofNat 64 va)
      if s.isLocal pa then
        needWay who.die (pa / 128)
        set ((s.cross who.die (paDie pa) (pa / 128)).writeSeen space (pa / 128) line mask)
      else writeHome who space pa line mask
    | .control pa => writeControl who pa v
    | .scratch => A.fault 8#8
    writePieces who l (bs.drop n)

/-- Reads a byte range. -/
def readRange (who : Who) (va n : Nat) : A (List (Byte × Bool)) := do
  let l ← checkPieces who .load (piecesOf va n)
  readPieces who l

/-- Writes a byte range. -/
def writeRange (who : Who) (va : Nat) (bs : List Byte) : A Unit := do
  let l ← checkPieces who .store (piecesOf va bs.length)
  writePieces who l bs

end Sys2Proof.Machine
end

