-- ==== Sys2Proof/Machine/Mailbox.lean ====
section
/-!
DEFINITION. The mailbox commands of the front ends (R337 to R341, R361, R418): who may give them, what each checks and
does, and its STATUS and returned arguments.
-/

namespace Sys2Proof.Machine

open Sys2Proof

/-! ## Running a command (R336, R361) -/

/-- How a command stands: ended with a status and the arguments it returns, or running. -/
inductive MbEnd where
  | done (s : State) (status : Nat) (rets : List (Nat × Word))
  | waits (s : State)

/-- A command that changes nothing. -/
def MbEnd.refuse (s : State) (status : Nat) : MbEnd := .done s status []

/-- A command that succeeds. -/
def MbEnd.ok (s : State) : MbEnd := .done s 0 []

/-- A register of a die's mailbox: CMD, ARG0 to ARG3 and STATUS by number. -/
def State.mbGet (s : State) (die n : Nat) : Word := (s.fe.mailbox[die]?.bind (fun m => m[n]?)).getD 0#64

/-- Writes a register of a die's mailbox. -/
def State.mbSet (s : State) (die n : Nat) (v : Word) : State :=
  { s with fe := { s.fe with mailbox := s.fe.mailbox.setIfInBounds die ((s.fe.mailbox[die]?.getD (Vector.replicate 6 0)).setIfInBounds n v) } }

/-- The first running command of a die's mailbox. -/
def State.runningAt (s : State) (die : Nat) : Option (Nat × MbCmd) := s.fe.running.find? (fun r => r.2.die == die)

/-- A command's registers are written and STATUS reads 0xFFFF. -/
def State.mbStart (s : State) (code : Nat) (c : MbCmd) : State :=
  let t := ((((s.mbSet c.die 0 (BitVec.ofNat 64 code)).mbSet c.die 1 c.a0).mbSet c.die 2 c.a1).mbSet c.die 3 c.a2).mbSet c.die 4 c.a3
  t.mbSet c.die 5 0xFFFF#64

/-- A command ends. -/
def State.mbFinish (s : State) (code : Nat) (c : MbCmd) (status : Nat) (rets : List (Nat × Word)) : State :=
  let t := rets.foldl (fun (u : State) (r : Nat × Word) => u.mbSet c.die (r.1 + 1) r.2) s
  let u := t.mbSet c.die 5 (BitVec.ofNat 64 status)
  { u with fe := { u.fe with running := u.fe.running.erase (code, c), refused := u.fe.refused.erase (code, c) } }

/-- What a command is serialised with (R337): those that change an address space, a queue or package-wide state, by D0's
front end; reports, by Terak; the others only read. -/
def serialClass (code : Nat) : Option Nat :=
  match code with
  | 0x40 | 0x42 | 0x44 => none
  | 0x20 => some 1
  | _ => some 0

/-- No command written before it is one that it takes effect after (R337). -/
def State.mbTurn (s : State) (code : Nat) (c : MbCmd) : Bool :=
  (serialClass code).isNone || (s.fe.running.takeWhile (fun r => r != (code, c))).all (fun r => serialClass r.1 != serialClass code)

/-- A write of CMD: an owner's restarts the lease, and whether the writer may give an owner-only command is settled by
then (R336); the command waits its turn. -/
def State.mbWritten (s : State) (code : Nat) (c : MbCmd) (ownerOnly : Bool) : State :=
  let t := s.ownerWrote c.agent
  { t with fe := { t.fe with running := t.fe.running ++ [(code, c)],
                             refused := if ownerOnly && !s.owns c.agent then (code, c) :: t.fe.refused else t.fe.refused } }

/-- A front end that a command needs is being restarted: the mailbox's own, or D0's for what it serialises (R337, R414). Reports are
Terak's. -/
def State.mbHeld (s : State) (code die : Nat) : Bool :=
  code != 0x20 && (s.terak.restarting.contains (.frontEnd die)
    || (serialClass code == some 0 && s.terak.restarting.contains (.frontEnd 0)))

/-- Runs a command that has been written: one at a time in each mailbox (R361), in the serial order of R337. -/
def State.mbRun (s : State) (code : Nat) (c : MbCmd) (f : State → MbEnd) : State :=
  if s.terak.fail = 0 ∧ (s.runningAt c.die ≠ some (code, c) ∨ s.mbHeld code c.die) then s
  else
    let t := if s.mbGet c.die 5 = 0xFFFF#64 then s else s.mbStart code c
    -- of equal commands those that were written first run first
    if t.fe.refused.contains (code, c) && t.fe.refused.count (code, c) == t.fe.running.count (code, c) then t.mbFinish code c 1 []
    else if !t.mbTurn code c then t
    else match f t with
      | .done u st rets => (u.dropReplies (frontEnd c.die 0).uid).mbFinish code c st rets
      | .waits u => u

/-- A write of CMD. A mailbox that is not served takes no command, but its owner's write restarts the lease. -/
def State.mailboxRun (s : State) (up : Bool) (code : Nat) (c : MbCmd) (ownerOnly : Bool) (f : State → MbEnd) : State :=
  if c.die ≥ 4 then s
  else if !up then (if s.terak.fail = 0 then s.ownerWrote c.agent else s)
  else (s.mbWritten code c ownerOnly).mbRun code c f

/-- A buffer of ASID 0 that a command reads, or the status of its failure (R337). -/
def withRead (s : State) (die : Nat) (va : Word) (n : Nat) (f : State → List Byte → MbEnd) : MbEnd :=
  match readRange (frontEnd die 0) va.toNat n s with
  | .ok (l, t) => if l.any (·.2) then .refuse s 2 else f t (l.map (·.1))
  | .error (.wait t) => .waits t
  | .error _ => .refuse s 2

/-- A buffer of ASID 0 that a command writes. -/
def withWrite (s : State) (die : Nat) (va : Word) (bs : List Byte) (f : State → MbEnd) : MbEnd :=
  match writeRange (frontEnd die 0) va.toNat bs s with
  | .ok (_, t) => f t
  | .error (.wait t) => .waits t
  | .error _ => .refuse s 2

/-! ## Jobs (R338 to R340) -/

/-- A field of a byte string, little-endian. -/
def fieldAt (l : List Byte) (off n : Nat) : Nat := natOfBytes ((l.drop off).take n)

/-- The job that a descriptor describes, without its banks and key. -/
def descJob (l : List Byte) : Job :=
  let fl := fieldAt l 2 2
  let four := fun (base step : Nat) =>
    (⟨#[fieldAt l base 8, fieldAt l (base + step) 8, fieldAt l (base + 2 * step) 8, fieldAt l (base + 3 * step) 8], rfl⟩ : Vector Nat 4)
  { asid := fieldAt l 0 2, enc := fl.testBit 0, chk := fl.testBit 1, frw := fl.testBit 2, bl := fieldAt l 4 2,
    rdcGib := if fieldAt l 6 1 = 0xFF then 4 else fieldAt l 6 1, twinQ := if fieldAt l 7 1 = 0 then 2 else fieldAt l 7 1,
    spBase := BitVec.ofNat 64 (fieldAt l 8 8), banks := 0, rb := four 0x20 16, rn := four 0x28 16, carve := four 0x60 8,
    key := 0, kernels := [], paged := [], barred := [] }

/-- The interleaved lines that a job holds on a die: its reach range with its tags, and its carved areas (R122, R130,
R132). An empty range holds none. -/
def Job.areas (j : Job) (d : Nat) : List (Nat × Nat) :=
  let rb := j.rb[d]?.getD 0
  let rn := j.rn[d]?.getD 0
  let c := j.carve[d]?.getD 0
  (if rn = 0 then [] else [(rb, rb + rn + rn / 64)]) ++ [(c, c + j.twinQ * 2 ^ 21 + j.rdcGib * 2 ^ 23)]

/-- Two ranges meet. -/
def meets (a b : Nat × Nat) : Bool := decide (a.1 < b.2) && decide (b.1 < a.2)

/-- The checks of R340 with status 2, BANKMAP apart. -/
def State.badDesc (s : State) (l : List Byte) (j : Job) : Bool :=
  decide (8 ≤ fieldAt l 2 2) || decide (j.asid = 0) || (s.jobOf j.asid).isSome || decide (j.bl % 64 ≠ 0) || decide (8192 < j.bl)
    || decide (16 < j.rdcGib) || decide (64 < j.twinQ) || decide (j.spBase.toNat % 65536 ≠ 0) || decide (2 ^ 56 ≤ j.spBase.toNat)
    || decide (fieldAt l 0x18 8 ≠ 0)
    || (List.range 4).any (fun d => decide (j.rn[d]?.getD 0 % 8192 ≠ 0)
        || (j.areas d).any (fun a => decide (interleavedBytes j.bl < a.2 * 128)
            || s.fe.jobs.any (fun k => (k.areas d).any (meets a))))

/-- Bank ids whose channel is within 0 to 2038: of each die's 16,384, the first 16,312. -/
def realBanks : BitVec 65536 :=
  let d : BitVec 65536 := BitVec.ofNat 65536 (2 ^ 16312 - 1)
  d ||| (d <<< 16384) ||| (d <<< 32768) ||| (d <<< 49152)

/-- The banks of every living job. -/
def State.heldBanks (s : State) : BitVec 65536 := s.fe.jobs.foldl (fun (b : BitVec 65536) (j : Job) => b ||| j.banks) 0#65536

/-- The lowest free key slot other than slot 0 (R340). -/
def State.freeKey (s : State) : Option Nat :=
  ((List.range 255).map (· + 1)).find? (fun k => !(s.terak.keySlots.any (fun e => e.1 == k)))

/-- A job whose reach range would lie on a die barred to new jobs (R357). -/
def State.barredJob (s : State) (j : Job) : Bool := s.err.barred.any (fun d => decide (j.rn[d]?.getD 0 ≠ 0))

/-- A checked job is created (R340): areas, key, banks, records. -/
def State.createJob (s : State) (j : Job) (banks : BitVec 65536) (key : Nat) : State :=
  let job := { j with banks := banks, key := key, barred := s.err.barred, paged := Config.pagedRegions s.tick }
  let fe := { s.fe with jobs := s.fe.jobs ++ [job], jobEnds := s.fe.jobEnds.filter (fun e => e.asid != j.asid),
                        fails := s.fe.fails.filter (fun e => e.asid != j.asid), roots := s.fe.roots.filter (fun r => r.1 != j.asid) }
  let slots := if key = 0 then s.terak.keySlots else (key, Config.keyPair s.tick) :: s.terak.keySlots
  { s with fe := fe, terak := { s.terak with keySlots := slots }, banks := s.banks.filter (fun b => !banks.getLsbD b.1) }

/-- The last checks of R340, then the creation. -/
def State.assignJob (s : State) (j : Job) (map : Option (BitVec 65536)) : MbEnd :=
  let banks := if j.bl = 0 then 0#65536 else map.getD (realBanks &&& ~~~s.heldBanks &&& ~~~s.lostBanks)
  if banks &&& ~~~realBanks ≠ 0 then .refuse s 2
  else if banks &&& (s.heldBanks ||| s.lostBanks) ≠ 0 ∨ s.barredJob j then .refuse s 4
  else if j.enc then
    match s.freeKey with
    | none => .refuse s 4
    | some k => .done (s.createJob j banks k) 0 [(1, BitVec.ofNat 64 k)]
  else .done (s.createJob j banks 0) 0 [(1, 0#64)]

/-- JOBCREATE. -/
def State.mbJobcreate (s : State) (c : MbCmd) : MbEnd :=
  if c.a0.toNat % 8 ≠ 0 then .refuse s 2
  else withRead s c.die c.a0 128 (fun t l =>
    let j := descJob l
    let map := fieldAt l 0x10 8
    if t.badDesc l j then .refuse t 2
    else if j.bl = 0 ∨ map = 0 then t.assignJob j none
    else withRead t c.die (BitVec.ofNat 64 map) 8192 (fun u m => u.assignJob j (some (BitVec.ofNat 65536 (natOfBytes m)))))

/-- JOBEND: steps 1 to 3 and 6 of R355, QERRCODE 0x07. -/
def State.mbJobend (s : State) (c : MbCmd) : MbEnd :=
  if (s.jobOf c.a0.toNat).isNone then .refuse s 3
  else if !s.planesMove then .waits s
  else .ok (s.endJob c.a0.toNat 7 none)

/-- The ASID is 0 or a living job's. -/
def State.spaceExists (s : State) (asid : Nat) : Bool := asid == 0 || (s.jobOf asid).isSome

/-- SETROOT. -/
def State.mbSetroot (s : State) (c : MbCmd) : MbEnd :=
  if c.a1.toNat % 2 ^ 20 ≠ 0 then .refuse s 2
  else if !s.spaceExists c.a0.toNat then .refuse s 3
  else .ok { s with fe := { s.fe with roots := putKey c.a0.toNat c.a1.toNat s.fe.roots } }

/-- The invalidate of R116 for the page of 2^bits bytes that holds an address. The spec does not say on which dies ASID 0, a
page of the global half, has resident harts: the model takes every die (log entry 61). -/
def State.invalidate (s : State) (asid : Nat) (va : Word) (bits : Nat) : State :=
  let space := spaceOf asid va
  let lo := va.toNat / 2 ^ bits * 2 ^ bits
  let hi := lo + 2 ^ bits
  let tlb := s.mm.tlb.filter (fun t => !(t.asid == space && decide (t.page < hi) && decide (lo < t.page + 2 ^ t.bits)))
  let s1 := { s with mm := { s.mm with tlb := tlb } }
  let mine := fun (a line : Nat) => a == space && decide (lo ≤ line * 128) && decide (line * 128 < hi)
  let s2 := s1.cleanL2 (fun e => mine e.asid e.line && (e.out || e.dirty != 0))
  let lives := fun (d : Nat) => space == 0 || s2.harts.any (fun h => h.isResident && h.asid == space && h.place.die == d)
  let s3 := s2.dropL2 (fun e => mine e.asid e.line && lives e.die)
  let cut := fun (l : List CoreLine) => l.filter (fun e => !(mine e.asid e.line && lives e.die) || e.pin.isSome)
  (s3.mapL1 cut).mapIcache cut

/-- INVAL; its write-backs wait while a plane is being quiesced (R411). -/
def State.mbInval (s : State) (c : MbCmd) : MbEnd :=
  if c.a2.toNat ≤ 2 ∧ ¬ s.planesMove then .waits s
  else match c.a2.toNat with
  | 0 => .ok (s.invalidate c.a0.toNat c.a1 16)
  | 1 => .ok (s.invalidate c.a0.toNat c.a1 21)
  | 2 => .ok (s.invalidate c.a0.toNat c.a1 30)
  | _ => .refuse s 2

/-- KREG. -/
def State.mbKreg (s : State) (c : MbCmd) : MbEnd :=
  let asid := c.a0.toNat
  let lo := bitsOf c.a2.toNat 0 4
  let hi := bitsOf c.a2.toNat 4 4
  if (s.jobOf asid).isNone then .refuse s 3
  else if c.a2 ≠ 0 ∧ (c.a2.toNat ≥ 256 ∨ lo < 7 ∨ 12 < lo ∨ hi < 7 ∨ 12 < hi ∨ hi < lo) then .refuse s 2
  else
    let put := fun (j : Job) =>
      let rest := j.kernels.filter (fun k => k.1 != c.a1)
      { j with kernels := if c.a2 = 0 then rest else (c.a1, lo, hi) :: rest }
    .ok { s with fe := { s.fe with jobs := changeAll (fun j => j.asid == asid) put s.fe.jobs } }

/-! ## Queues (R53, R338, R361) -/

/-- A launched packet of a queue has neither completed nor been ended. -/
def Slot.hasRunning (t : Slot) : Bool :=
  t.window.any (fun e => e.launched && !e.complete && !(e.failed && e.alive == 0 && e.ranges == []))

/-- QSTOP: QEN is cleared at once; then the launched packets finish, and the queue is unmapped and its block dropped. -/
def State.mbQstop (s : State) (c : MbCmd) : MbEnd :=
  let q := c.a0.toNat
  if q ≥ s.fe.qcount then .refuse s 3
  else
    let t := if s.qEn q then s.setQ q 8 8 8 0 else s
    if (t.slotOf q).any Slot.hasRunning then .waits t
    else
      let u := (t.unmapQueue q).uncacheQcb q
      .ok { u with fe := { u.fe with mapWait := u.fe.mapWait.filter (fun x => x != q), held := u.fe.held.filter (fun e => e.1 != q) } }.serveMapWait

/-- SETQTAB: only while no job exists; slots and cached blocks of the former table go. -/
def State.mbSetqtab (s : State) (c : MbCmd) : MbEnd :=
  if s.fe.jobs ≠ [] ∨ c.a0.toNat % 128 ≠ 0 ∨ c.a1.toNat = 0 ∨ 2 ^ 20 < c.a1.toNat then .refuse s 2
  else .ok { s with fe := { s.fe with qtab := c.a0.toNat, qcount := c.a1.toNat, slots := [], mapWait := [], held := [], qcbCache := [] } }

/-- A failed entry as QRESTART leaves it: gone for a retry, so that it is read again; complete for a skip; for code 0x08 a
retry repeats its completion alone. -/
def restartEntry (code mode : Nat) (e : Entry) : Option Entry :=
  if !e.failed then some e
  else if mode = 1 then some { e with failed := false, launched := true, complete := true, code := 0 }
  else if code = 8 then some { e with failed := false, code := 0 }
  else none

/-- A failed packet still has harts. -/
def hasHarts (l : List Entry) : Bool := l.any (fun e => e.failed && (e.alive != 0 || e.ranges != []))

/-- QRESTART. -/
def State.mbQrestart (s : State) (c : MbCmd) : MbEnd :=
  let q := c.a0.toNat
  if q ≥ s.fe.qcount then .refuse s 3
  else
    let blk := s.qcb q
    let code := qField blk 8 39 32
    if c.a1.toNat > 1 ∨ ¬ s.qErr q ∨ code = 6 ∨ code = 7 then .refuse s 2
    else
      let win := match s.slotOf q with
        | some t => t.window
        | none => (getKey q s.fe.held).getD []
      if hasHarts win then .waits s
      else
        let win' := win.filterMap (restartEntry code c.a1.toNat)
        let s1 := s.putQcb q (qSet (qSet blk 8 39 32 0) 8 9 9 0)
        let s2 := { s1 with fe := { s1.fe with fails := s1.fe.fails.filter (fun f => f.qid != q) } }
        match s2.slotOf q with
        | some t => .ok ((s2.putSlot { t with window := win' }).retire q)
        | none =>
          let s3 := { s2 with fe := { s2.fe with held := if win = [] then s2.fe.held else putKey q win' s2.fe.held } }
          if s3.qEn q && (decide (qField blk 0x18 43 0 < s3.qWrite q) || win != []) then .ok ((s3.mapQueue q).retire q) else .ok s3

/-! ## The device and the fabric (R321, R323, R327, R329) -/

/-- SETBAR2: on D0's mailbox only. -/
def State.mbSetbar2 (s : State) (c : MbCmd) : MbEnd :=
  if c.die ≠ 0 ∨ c.a1.toNat % 2 ^ 32 ≠ 0 then .refuse s 2
  else if !s.spaceExists c.a0.toNat then .refuse s 3
  else .ok { s with fe := { s.fe with bar2 := (c.a0.toNat, c.a1.toNat) } }

/-- A global address of this device under another device number. -/
def redevice (old new a : Nat) : Nat := a - old * 2 ^ 44 + new * 2 ^ 44

/-- SETDEV: only while no job exists. What the device's memory holds stands at its new global addresses; the caches keep
nothing. -/
def State.mbSetdev (s : State) (c : MbCmd) : MbEnd :=
  if s.fe.jobs ≠ [] ∨ 2 ^ 19 ≤ c.a0.toNat then .refuse s 2
  else if !s.planesMove then .waits s
  else
    let t := s.cleanL2 (fun e => e.out || e.dirty != 0)
    let move := redevice t.fe.devSelf.toNat c.a0.toNat
    let bytes := (t.mm.bytes.filter (fun b => t.isLocal b.1)).foldl (fun (l : List Host.Cell) (b : Host.Cell) => Memory.set l (move b.1) b.2) []
    let poison := (t.mm.poison.filter (fun g => t.isLocal (g * 32))).foldl (fun (l : List Nat) (g : Nat) => setPoison l (move (g * 32) / 32) true) []
    let keys := t.mm.keys.map (fun k => (move (k.1 * 16) / 16, k.2))
    let mm := { t.mm with bytes := bytes, poison := poison, keys := keys, sure := [], l1 := [], icache := [], l2 := [], tlb := [], twins := [], rdc := [] }
    .ok { t with mm := mm, fe := { t.fe with devSelf := c.a0.setWidth 19, devSet := true } }

/-- SETPCAP: reserved bits read zero. -/
def State.mbSetpcap (s : State) (c : MbCmd) : MbEnd :=
  if c.a0.toNat > 255 then .refuse s 2
  else .ok { s with fe := { s.fe with pcap := putKey c.a0.toNat (c.a1 &&& ~~~0xFFF#64) s.fe.pcap } }

/-- SETMCAST. -/
def State.mbSetmcast (s : State) (c : MbCmd) : MbEnd :=
  let g := c.a0.toNat
  let a := c.a1.toNat
  if g > 65535 then .refuse s 2
  else if c.a1.getLsbD 63 then .ok { s with fe := { s.fe with mcast := s.fe.mcast.filter (fun e => e.1 != g) } }
  else if a % 4096 ≠ 0 ∨ ¬ s.isLocal a ∨ paRegion a ≠ 0 ∨ ¬ populated 0 a then .refuse s 2
  else .ok { s with fe := { s.fe with mcast := putKey g a s.fe.mcast } }

/-! ## Attestation (R334, R341) -/

/-- The report before its signature. -/
def State.reportBody (s : State) (nonce : List Byte) : List Byte :=
  bytesOfNat 2 1 ++ bytesOfNat 2 s.terak.mlog.length ++ bytesOfNat 4 0
    ++ [0x43#8, 0x4D#8, 0x59#8, 0x36#8, 0x2D#8, 0x37#8, 0x36#8, 0x38#8, 0x41#8, 0#8, 0#8, 0#8, 0#8, 0#8, 0#8, 0#8]
    ++ bytesOfNat 2 0xB1 ++ bytesOfNat 2 0x100 ++ bytesOfNat 4 (0x10000 + Config.terakMinor.toNat)
    ++ bytesOfNat 8 s.terak.bootStat.toNat ++ bytesOfNat 8 s.terak.ownerWord.toNat ++ nonce
    ++ s.terak.mlog.flatMap (fun e => bytesOfNat 8 e.1 ++ bytesOfNat 64 e.2.toNat)

/-- Terak signs a report with a key that it never uses again; the report is kept while it is copied. -/
def State.signReport (s : State) (nonce : List Byte) : State :=
  let body := s.reportBody nonce
  let l := body ++ (List.range 9732).map (Config.signature s.terak.keysLeft body)
  { s with terak := { s.terak with report := some l, keysLeft := s.terak.keysLeft - 1 } }

/-- Copies a signed report to its buffer. -/
def State.copyReport (s : State) (c : MbCmd) (l : List Byte) : MbEnd :=
  let clear := fun (t : State) => { t with terak := { t.terak with report := none } }
  match writeRange (frontEnd c.die 0) c.a1.toNat l s with
  | .ok (_, t) => .done (clear t) 0 [(3, BitVec.ofNat 64 l.length)]
  | .error (.wait t) => .waits t
  | .error _ => .refuse (clear s) 2

/-- ATTEST (R334, R341): a buffer too small is a bad argument before the keys are looked at (log entry 77), and a buffer that cannot be
written leaves the key unused. -/
def State.mbAttest (s : State) (c : MbCmd) : MbEnd :=
  match s.terak.report with
  | some l => s.copyReport c l
  | none =>
    if c.a2.toNat < 0x50 + 72 * s.terak.mlog.length + 9732 then .refuse s 2
    else if s.terak.keysLeft = 0 then .refuse s 4
    else withRead s c.die c.a0 32 (fun t nonce =>
      let u := t.signReport nonce
      match u.copyReport c (u.terak.report.getD []) with
      | .done v st rets => if st = 0 then .done v 0 rets else .refuse t st
      | .waits v => .waits v)

/-! ## Errors (R349, R361, R418) -/

/-- An entry of the error log as it stands in the ring (R349). -/
def LogEntry.bytes (e : LogEntry) : List Byte :=
  bytesOfNat 8 e.seq ++ bytesOfNat 8 e.time ++ bytesOfNat 4 e.bank.toNat ++ bytesOfNat 2 e.asid.toNat ++ bytesOfNat 2 e.act.toNat
    ++ bytesOfNat 8 e.status.toNat ++ bytesOfNat 8 e.addr.toNat ++ bytesOfNat 8 e.misc.toNat ++ bytesOfNat 8 e.count.toNat
    ++ bytesOfNat 4 e.snap.toNat ++ bytesOfNat 4 0

/-- READLOG: the log of the die whose mailbox receives it. -/
def State.mbReadlog (s : State) (c : MbCmd) : MbEnd :=
  if c.a2.toNat = 0 ∨ 4096 < c.a2.toNat then .refuse s 2
  else
    let l := (s.err.log.filter (fun e => e.die == c.die && decide (c.a0.toNat ≤ e.seq))).take c.a2.toNat
    withWrite s c.die c.a1 (l.flatMap LogEntry.bytes) (fun t => .done t 0 [(3, BitVec.ofNat 64 l.length)])

/-- SETERRMSG. -/
def State.mbSeterrmsg (s : State) (c : MbCmd) : MbEnd :=
  .ok { s with fe := { s.fe with errMsg := if c.a0.getLsbD 63 then some (c.a0.setWidth 11) else none } }

/-- The record of R418. -/
def jobRecord (kind seq asid : Nat) (l : List FailRecord) : List Byte :=
  bytesOfNat 2 kind ++ bytesOfNat 2 0 ++ bytesOfNat 4 l.length ++ bytesOfNat 8 seq ++ bytesOfNat 2 asid ++ List.replicate 14 0#8
    ++ l.flatMap (fun f => bytesOfNat 8 f.hartId.toNat ++ bytesOfNat 8 f.epc.toNat ++ bytesOfNat 8 f.elem ++ bytesOfNat 8 f.cause.toNat)

/-- The last record of each failed queue of a job (R367, R418). -/
def State.queueFails (s : State) (asid : Nat) : List FailRecord :=
  let mine := s.fe.fails.filter (fun f => f.asid == asid)
  (mine.map (·.qid)).eraseDups.filterMap (fun q => mine.find? (fun f => f.qid == q))

/-- JOBSTAT. -/
def State.mbJobstat (s : State) (c : MbCmd) : MbEnd :=
  let asid := c.a0.toNat
  let give := fun (l : List Byte) =>
    if c.a2.toNat < l.length then MbEnd.refuse s 2
    else withWrite s c.die c.a1 l (fun t => .done t 0 [(3, BitVec.ofNat 64 l.length)])
  if (s.jobOf asid).isSome then give (jobRecord 2 0 asid (s.queueFails asid))
  else match s.fe.jobEnds.find? (fun e => e.asid == asid) with
  | some e => give (jobRecord 1 e.seq asid e.harts)
  | none => .refuse s 3

/-- REPAIRS: the committed records, one after another; the layout of a record is not stated, so its bytes are a free
function of the record. -/
def State.mbRepairs (s : State) (c : MbCmd) : MbEnd :=
  let l := (s.err.repairs.filter (·.committed)).flatMap (fun r => Config.repairRecord r.part r.spare r.seq)
  withWrite s c.die c.a0 l MbEnd.ok

/-! ## The commands -/

/-- Each command of the mailbox: whether only the owner may give it, and what it does; reserved values return status 2
(R338, R361). -/
def mbCommand (code : Nat) : Bool × (State → MbCmd → MbEnd) :=
  match code with
  | 1 => (true, State.mbJobcreate)
  | 2 => (true, State.mbJobend)
  | 3 => (true, State.mbSetroot)
  | 4 => (true, State.mbInval)
  | 5 => (true, State.mbQstop)
  | 6 => (true, State.mbSetqtab)
  | 7 => (true, State.mbKreg)
  | 0x10 => (true, State.mbSetbar2)
  | 0x11 => (true, State.mbSetdev)
  | 0x12 => (true, State.mbSetpcap)
  | 0x13 => (true, State.mbSetmcast)
  | 0x20 => (false, State.mbAttest)
  | 0x40 => (false, State.mbReadlog)
  | 0x41 => (true, State.mbSeterrmsg)
  | 0x42 => (false, State.mbJobstat)
  | 0x43 => (true, State.mbQrestart)
  | 0x44 => (false, State.mbRepairs)
  | _ => (false, fun t _ => .refuse t 2)

/-- Who serves a command is there: the front ends, for JOBCREATE once start-up has ended (log entry 40); an attestation report is
served after a failure too (R333). -/
def State.mbServed (s : State) (code : Nat) : Bool :=
  match code with
  | 1 => s.frontEndsUp && s.terak.ready
  | 0x20 => s.frontEndsUp || s.terak.fail != 0
  | _ => s.frontEndsUp

/-- A write of CMD by its value. -/
def State.mailboxWrite (s : State) (c : MbCmd) (code : Nat) : State :=
  s.mailboxRun (s.mbServed code) code c (mbCommand code).1 (fun t => (mbCommand code).2 t c)

/-- A further visit to a command that waits. -/
def State.mailboxVisit (s : State) (c : MbCmd) (code : Nat) : State := s.mbRun code c (fun t => (mbCommand code).2 t c)

/-- JOBCREATE (R340). -/
def execJobcreate (c : MbCmd) (s : State) : Res := .next (s.mailboxWrite c 1)
/-- JOBEND (R338). -/
def execJobend (c : MbCmd) (s : State) : Res := .next (s.mailboxWrite c 2)
/-- SETROOT (R338). -/
def execSetroot (c : MbCmd) (s : State) : Res := .next (s.mailboxWrite c 3)
/-- INVAL (R116). -/
def execInval (c : MbCmd) (s : State) : Res := .next (s.mailboxWrite c 4)
/-- QSTOP (R338). -/
def execQstop (c : MbCmd) (s : State) : Res := .next (s.mailboxWrite c 5)
/-- SETQTAB (R338). -/
def execSetqtab (c : MbCmd) (s : State) : Res := .next (s.mailboxWrite c 6)
/-- KREG (R338). -/
def execKreg (c : MbCmd) (s : State) : Res := .next (s.mailboxWrite c 7)
/-- SETBAR2 (R338). -/
def execSetbar2 (c : MbCmd) (s : State) : Res := .next (s.mailboxWrite c 0x10)
/-- SETDEV (R338). -/
def execSetdev (c : MbCmd) (s : State) : Res := .next (s.mailboxWrite c 0x11)
/-- SETPCAP (R338). -/
def execSetpcap (c : MbCmd) (s : State) : Res := .next (s.mailboxWrite c 0x12)
/-- SETMCAST (R338). -/
def execSetmcast (c : MbCmd) (s : State) : Res := .next (s.mailboxWrite c 0x13)
/-- ATTEST (R341). -/
def execAttest (c : MbCmd) (s : State) : Res := .next (s.mailboxWrite c 0x20)
/-- READLOG (R361). -/
def execReadlog (c : MbCmd) (s : State) : Res := .next (s.mailboxWrite c 0x40)
/-- SETERRMSG (R361). -/
def execSeterrmsg (c : MbCmd) (s : State) : Res := .next (s.mailboxWrite c 0x41)
/-- JOBSTAT (R418). -/
def execJobstat (c : MbCmd) (s : State) : Res := .next (s.mailboxWrite c 0x42)
/-- QRESTART (R361). -/
def execQrestart (c : MbCmd) (s : State) : Res := .next (s.mailboxWrite c 0x43)
/-- REPAIRS (R361). -/
def execRepairs (c : MbCmd) (s : State) : Res := .next (s.mailboxWrite c 0x44)

end Sys2Proof.Machine
end

