-- ==== Sys2Proof/Machine/Port.lean ====
section
/-!
DEFINITION. The device as agents outside the package reach it: the registers of control space (R54, R322, R335, R361), and
the PCIe port with BAR0 onto control space and BAR2 onto memory (R320, R321).
-/

namespace Sys2Proof.Machine

open Sys2Proof

/-! ## Control space (R54, R322, R335, R361) -/

/-- A dword of a die's control space as a reader outside the package sees it. -/
def State.controlDword (s : State) (die off : Nat) : Word :=
  let k := off / 8
  if 0x2000 ≤ k ∧ k < 0x2006 then s.mbGet die (k - 0x2000)
  else if k = 0x4000 then zext s.fe.devSelf
  else if 0x6000 ≤ k ∧ k < 0x6100 then s.pcapEntry (k - 0x6000)
  else if die = 0 ∧ 0x1E0000 ≤ k ∧ k < 0x1E0200 then s.terak.register (off / 8 * 8 - 0xF00000)
  else 0#64

/-- A line of control space as a reader sees it. -/
def State.controlLine (s : State) (ln : Nat) : Line :=
  let pa := ln * 128
  setElts 0#1024 64 0 ((List.range 16).map (fun i => (s.controlDword (paDie pa) (paOff pa + 8 * i)).toNat))

/-- A dword with the bytes of a mask replaced. -/
def mergeDword (old : Word) (mask : BitVec 8) (v : Word) : Word :=
  BitVec.ofNat 64 (natOfBytes ((List.range 8).map (fun i => BitVec.ofNat 8 (getElt (if mask.getLsbD i then v else old) 8 i))))

/-- A write of the mailbox of a die by an agent: CMD starts a command with the arguments that stand there, ARG0 to ARG3 take
their value, and STATUS takes none; any write of the owner restarts its lease (R336, R361). -/
def State.mailboxReg (s : State) (who : Agent) (die off : Nat) (v : Word) : State :=
  if off = 0 then s.mailboxWrite ⟨die, who, s.mbGet die 1, s.mbGet die 2, s.mbGet die 3, s.mbGet die 4⟩ v.toNat
  else (if off < 0x28 then s.mbSet die (off / 8) v else s).ownerWrote who

/-- A write of some bytes of a dword of a die's control space by an agent: a notify, which takes all eight (R54), Terak's
block (R335) or a mailbox (R361), where the bytes not written are those that the register reads (log entry 78). Every other
offset takes no write from outside the package. -/
def State.controlWrite (s : State) (who : Agent) (die off : Nat) (mask : BitVec 8) (v : Word) : State :=
  let w := mergeDword (s.controlDword die off) mask v
  if off < 0x800 then s.notify die (off / 8) (popCount 8 mask.toNat) v none
  else if die = 0 ∧ 0xF00000 ≤ off ∧ off < 0xF01000 then s.terakWrite who (off - 0xF00000) w
  else if 0x10000 ≤ off ∧ off < 0x11000 then s.mailboxReg who die (off - 0x10000) w
  else s

/-- REGISTER_WRITE (R335, R361): a write by an agent of a dword of control space, whole or in part. -/
def execRegisterWrite (who : Agent) (p : CtlPlace) (v : DwordWrite) (s : State) : Res :=
  .next (if p.die < 4 then s.controlWrite who p.die (p.offset / 8 * 8) v.mask v.value else s)

/-! ## The PCIe port (R320, R321) -/

/-- The PCIe host behind BAR2: a requester at D0's memory fronts, in the window's address space. -/
def State.barHost (s : State) : Who := ⟨2 ^ 64 + 8, 0, 48, s.fe.bar2.1⟩

/-- Stores what a host read returned, its replies used. -/
def State.barReturns (s : State) (l : List Byte) : State :=
  ({ s with fe := { s.fe with hostData := l } }).dropReplies s.barHost.uid

/-- The size of a window in bytes: 64 MiB of control space, 16 for each die, and 4 GiB of memory (R320). -/
def barSize : Bar → Nat
  | .control => 2 ^ 26
  | .window => 2 ^ 32

/-- An access outside the port's limits or the window is not accepted (R320). -/
def barAccepts (p : HostAddr) (size limit : Nat) : Bool := decide (size ≤ limit) && decide (p.offset + size ≤ barSize p.bar)

/-- A byte of a die's control space as BAR0 shows it. -/
def State.controlByte (s : State) (a : Nat) : Byte :=
  BitVec.ofNat 8 (getElt (s.controlDword (a / 2 ^ 24) (a % 2 ^ 24 / 8 * 8)) 8 (a % 8))

/-- The part of a byte string from an offset on that falls into a dword: which of its bytes, and their values. -/
def dwordPart (offset : Nat) (data : List Byte) (k : Nat) : BitVec 8 × Word :=
  let here := fun (i : Nat) => decide (offset ≤ 8 * k + i) && decide (8 * k + i < offset + data.length)
  (BitVec.ofNat 8 ((List.range 8).map (fun i => if here i then 2 ^ i else 0)).sum,
   BitVec.ofNat 64 (natOfBytes ((List.range 8).map (fun i => if here i then data.getD (8 * k + i - offset) 0#8 else 0#8))))

/-- A host write through BAR0: each dword of control space that it touches takes its bytes. -/
def State.controlPosted (s : State) (offset : Nat) (data : List Byte) : State :=
  (List.range ((offset % 8 + data.length + 7) / 8)).foldl (fun (t : State) (i : Nat) =>
    let k := offset / 8 + i
    let (mask, v) := dwordPart offset data k
    t.controlWrite .pcie (8 * k / 2 ^ 24) (8 * k % 2 ^ 24) mask v) s

/-- One posted write of the host performs, or waits; a failing translation discards it (R321). -/
def State.performPosted (s : State) (p : Bar × Nat × List Byte) : State × Bool :=
  match p.1 with
  | .control => (s.controlPosted p.2.1 p.2.2, true)
  | .window => match writeRange s.barHost (s.fe.bar2.2 + p.2.1) p.2.2 s with
    | .ok (_, t) => (t, true)
    | .error (.wait t) => (t, false)
    | .error _ => (s, true)

/-- The host's posted writes perform in the order of the port, each once every earlier one has (R321). -/
def State.drainPosted (s : State) : Nat → State
  | 0 => s
  | fuel + 1 =>
    match s.fe.posted with
    | [] => s
    | p :: rest =>
      if s.unacked s.barHost.uid then s
      else
        let (t, fin) := s.performPosted p
        if fin then State.drainPosted ({ t with fe := { t.fe with posted := rest } }.dropReplies s.barHost.uid) fuel else t

/-- A write through BAR2 goes line by line. -/
def postedParts (p : HostAddr) (data : List Byte) : List (Bar × Nat × List Byte) :=
  match p.bar with
  | .control => [(p.bar, p.offset, data)]
  | .window => (piecesOf p.offset data.length).map (fun x => (p.bar, x.1, (data.drop (x.1 - p.offset)).take x.2))

/-- BAR2_WRITE (R320, R321): a posted write through a window of the port. -/
def execBar2Write (p : HostAddr) (data : List Byte) (s : State) : Res :=
  if !barAccepts p data.length 256 then .next s
  else
    let l := s.fe.posted ++ postedParts p data
    .next (State.drainPosted { s with fe := { s.fe with posted := l } } l.length)

/-- BAR2_READ (R320, R321): after every earlier posted write; a failing translation reads all ones. Bytes of a poisoned granule
are free, since the spec states no value for them (log entry 26). -/
def execBar2Read (p : HostAddr) (size : Nat) (s : State) : Res :=
  let who := s.barHost
  if !barAccepts p size 512 || s.fe.posted != [] || s.unacked who.uid then .next s
  else match p.bar with
  | .control => .next (s.barReturns ((List.range size).map (fun i => s.controlByte (p.offset + i))))
  | .window => match readRange who (s.fe.bar2.2 + p.offset) size s with
    | .ok (l, t) =>
      .next (t.barReturns ((List.range l.length).map (fun i => match l[i]? with
        | some (b, false) => b
        | _ => Config.freeByte (s.tick * 2 ^ 64 + i))))
    | .error (.wait t) => .next t
    | .error _ => .next (s.barReturns (List.replicate size 0xFF#8))

end Sys2Proof.Machine
end

