-- ==== Sys2Proof/Machine/Fabric.lean ====
section
/-!
DEFINITION. Fonak at the destination and at the source (R402 to R405, R129, R130, R147, R326, R328, R330, R356), flits that
come in (R397), the death of routers (R408) and planes (R410 to R412).
-/

namespace Sys2Proof.Machine

open Sys2Proof

/-! ## Acceptance (R402 to R404) -/

/-- The error bank of the port that a stream uses: of its plane port, or of the PCIe port; of a stream between dies, of the plane
group of the boundary that it crosses first (log entry 37). -/
def portBank (key : StreamKey) : BitVec 32 :=
  if key.plane ≥ 8 then bankIdOf 0 9 0
  else if key.src < 4 then groupBank ⟨boundaryOf key.src ((dieRoute key.src key.dst).headD key.dst), key.plane, 0, false⟩
  else bankIdOf (key.plane / 2) 8 key.plane

/-- A request arrives here: between two dies of the package, or from another device at this one (R323, R403). -/
def State.arrives (s : State) (r : FonakReq) : Bool :=
  (decide (r.key.src < 4) && decide (r.key.dst < 4) && r.key.src != r.key.dst)
    || (s.fe.devSet && decide (4 ≤ r.key.src) && r.key.dst == 4 + s.fe.devSelf.toNat)

/-- How a filter meets a request (R403, R404). -/
inductive Meet where
  /-- the next expected ESEQ -/
  | next
  /-- recorded before, with the completion recorded for an atomic or region -/
  | again (fin : Option FonakDone)
  /-- beyond the next expected ESEQ -/
  | gap
  deriving DecidableEq, Repr

/-- Tests a request against the filter of its stream. -/
def Filter.meet (g : Filter) (eseq : BitVec 20) : Meet :=
  if eseq = g.expected then .next
  else match g.recorded.find? (fun e => e.1 == eseq) with
    | some e => .again e.2
    | none => .gap

/-- Sends a completion: one to another die goes the way of its line. -/
def State.answer (s : State) (d : FonakDone) : State :=
  let t := { s with fab := { s.fab with returned := s.fab.returned ++ [d] } }
  if d.key.src < 4 then (t.sendOn none (.done d)).1 else t

/-- Sends a completion, once there is one. -/
def State.answerAll (s : State) (d : Option FonakDone) : State := match d with
  | some x => s.answer x
  | none => s

/-- A completion without data. -/
def plainDone (r : FonakReq) : FonakDone :=
  { key := r.key, srcDie := r.srcDie, dstDie := r.dstDie, eseq := r.eseq, resend := false, op := 10, line := r.line, attr := r.attr,
    data := 0, psn := 0, regs := [] }

/-- A completion with data. -/
def dataDone (r : FonakReq) (data : Line) (psn : BitVec 4) : FonakDone := { plainDone r with op := 9, data := data, psn := psn }

/-- A request between dies that its source does not hold as sent is one that the source sends with it: it has the next ESEQ of the
stream. -/
def State.sourceSent (s : State) (r : FonakReq) : State :=
  let t := s.fab.stream r.key
  if r.key.src < 4 ∧ t.next = r.eseq then { s with fab := s.fab.setStream { t with next := t.next + 1 } } else s

/-- A protocol violation by a peer: the transaction is discarded and logged in the bank of its port (R402). -/
def State.violation (s : State) (r : FonakReq) : State :=
  s.bankError (portBank r.key) true false 8#8 0 (BitVec.ofNat 64 (r.line * 128)) (zext r.eseq)

/-- Receives a request of one kind: performed when it is next in its stream, answered from the filter when it is recorded,
discarded beyond (R403, R404). `perform` answers the state and the completion, none while a bank has yet to move its data;
`keep` says that the completion is recorded, `twice` that a recorded request is performed again. -/
def State.receive (s : State) (op : BitVec 6) (r : FonakReq) (legal keep twice : Bool)
    (perform : State → State × Option FonakDone) : State :=
  if !s.arrives r then s
  else if r.reserved || decide (12 ≤ r.op.toNat) then s.violation r
  else if r.op ≠ op then s
  else if !legal then s.violation r
  else
    let g := s.fab.filterOf r.key
    match g.meet r.eseq with
    | .gap => { s with fab := s.fab.setFilter { g with gap := true } }
    | .next =>
      let (t, d) := perform (s.sourceSent r)
      { t with fab := t.fab.setFilter (g.record r.eseq (if keep then d else none)) }.answerAll d
    | .again fin =>
      if s.fab.atBank.any (fun e => e.2.key == r.key && e.2.eseq == r.eseq) then s
      else if twice then let (t, d) := perform s; t.answerAll d
      else s.answer (fin.getD (plainDone r))

/-! ## Requests for control space (R322, R330, R335) -/

/-- The dword of a line that a byte mask covers exactly. -/
def maskedDword (m : BitVec 128) : Option Nat := (List.range 16).find? (fun i => m == byteMask (8 * i) 8)

/-- The first dword of a line that a byte mask touches. -/
def firstDword (m : BitVec 128) : Nat := ((List.range 16).find? (fun i => getElt m 8 i != 0)).getD 0

/-- A posted write from outside touches the multicast window of a die. -/
def atWindow (r : FonakReq) : Bool := paRegion (r.line * 128) == 2 && decide (0x1000000000 ≤ paOff (r.line * 128)) && decide (paOff (r.line * 128) < 0x1010000000)

/-- The fabric-remote manager writes a line of control space: each dword that it touches (R335). -/
def State.controlLineWrite (s : State) (r : FonakReq) : State :=
  let pa := r.line * 128
  (List.range 16).foldl (fun (t : State) (i : Nat) =>
    let mask := BitVec.ofNat 8 (getElt r.bmask 8 i)
    if mask = 0 then t else t.controlWrite .remote (paDie pa) (paOff pa + 8 * i) mask (BitVec.ofNat 64 (getElt r.data 64 i))) s

/-! ## Requests at their destination -/

/-- A request that cannot complete at once waits under a number of its own. -/
def State.holdReq (s : State) (r : FonakReq) : State × Nat :=
  let uid := 2 ^ 65 + s.fresh
  ({ s with fresh := s.fresh + 1, fab := { s.fab with atBank := s.fab.atBank ++ [(uid, r)] } }, uid)

/-- A request for a bank-linear line that cannot be served at once waits at its bank as ordinary requests (R119, R294). -/
def State.waitAtBank (s : State) (r : FonakReq) (l : Nat → List OrdReq) : State :=
  let (t, uid) := s.holdReq r
  t.askBank (paBank (r.line * 128)) (l uid)

/-- Which of the requests that wait, oldest first, have performed: those whose own requests are held no more, and a fence marker
behind which none of its stream still waits. Gives those that wait on and those that complete. -/
def doneAtBank (held : Nat → Bool) : List StreamKey → List (Nat × FonakReq) → List (Nat × FonakReq) × List FonakReq
  | _, [] => ([], [])
  | keys, e :: l =>
    if (if e.2.op == 4#6 then keys.contains e.2.key else held e.1) then
      let r := doneAtBank held (e.2.key :: keys) l
      (e :: r.1, r.2)
    else
      let r := doneAtBank held keys l
      (r.1, e.2 :: r.2)

/-- The requests of other devices that nothing holds up any more complete: a bank has moved their data, or every member of a
group has acknowledged its write (R330). -/
def State.settleAtBank (s : State) : State :=
  let held := fun (uid : Nat) => s.unacked uid || s.banks.any (fun b => (b.2.moving.toList ++ b.2.pending).any (fun r => r.uid == uid))
  let (rest, fin) := doneAtBank held [] s.fab.atBank
  fin.foldl (fun (t : State) (r : FonakReq) => t.answer (plainDone r)) { s with fab := { s.fab with atBank := rest } }

/-- A line lies in a bank that cannot serve an ordinary request at once. -/
def State.bankBusy (s : State) (ln : Nat) : Bool := paRegion (ln * 128) == 1 && !(s.bank (paBank (ln * 128))).free

/-- A request stores masked bytes at a line of this device (R131, R330): at its home, or once its bank has moved them. -/
def State.storeFor (s : State) (r : FonakReq) (ln : Nat) (v : LineVal) (mask : BitVec 128) : State × Option FonakDone :=
  if s.bankBusy ln then (s.waitAtBank { r with line := ln } (fun uid => storeReqs uid v mask ln), none)
  else (s.writeSeen 0 ln v mask, some (plainDone r))

/-- A read (R404): a repeated one is performed again. -/
def State.takeRead (s : State) (req : FonakReq) : State :=
  s.receive 0 req true false true (fun t =>
    if t.bankBusy req.line then (t.waitAtBank req (fun uid => [loadReq uid (req.line * 128) 128]), none)
    else
      let v : LineVal := if paRegion (req.line * 128) = 2 then ⟨t.controlLine req.line, 0, 0⟩ else t.seen 0 req.line
      (t.readServed 0 req.line, some (dataDone req v.data v.psn)))

/-- FONAK_READ (R404). -/
def execFonakRead (req : FonakReq) (s : State) : Res := .next (s.takeRead req)

/-- A write of a dword of the multicast window goes on to the members of its group, and completes once they have acknowledged it;
one of another size has no effect (R330). -/
def State.forwardMulticast (s : State) (r : FonakReq) : State × Option FonakDone :=
  match maskedDword r.bmask with
  | none => (s, some (plainDone r))
  | some i =>
    let (t, uid) := s.holdReq r
    (t.sendMulticast uid (r.line * 128 + 8 * i) (getElt r.data 64 i), none)

/-- A posted write (R404). One to the multicast window that cannot go on yet is not received yet (R330, R403). -/
def State.takeWrite (s : State) (req : FonakReq) : State :=
  if atWindow req && !(s.fab.planeOpen (s.planeOf req.line) && s.mayAsk (s.devStream s.fe.devSelf.toNat req.line) 11) then s
  else s.receive 1 req true false false (fun t =>
    if atWindow req then t.forwardMulticast req
    else if paRegion (req.line * 128) = 2 then (t.controlLineWrite req, some (plainDone req))
    else t.storeFor req req.line ⟨req.data, 0, req.psn⟩ req.bmask)

/-- FONAK_POSTED_WRITE (R404). -/
def execFonakPostedWrite (req : FonakReq) (s : State) : Res := .next (s.takeWrite req)

/-- An atomic (R404): its completion, with the old value, is recorded. -/
def State.takeAtomic (s : State) (req : FonakReq) : State :=
  let op := req.attr.extractLsb' 0 4
  s.receive 2 req (decide (op.toNat ≤ 9) && paRegion (req.line * 128) == 0) true false (fun t =>
    let i := firstDword req.bmask
    let pa := req.line * 128 + 8 * i
    let (u, old, psn) := t.atomicHome req.space pa op (BitVec.ofNat 64 (getElt req.data 64 i)) req.compare (req.attr.getLsbD 8) none
    (u, some (dataDone req (placeBytes pa old.toNat false).data (if psn then 1#4 <<< (i / 4) else 0))))

/-- FONAK_ATOMIC (R404). -/
def execFonakAtomic (req : FonakReq) (s : State) : Res := .next (s.takeAtomic req)

/-- The words of a body that may run at a home (R218): at most 24, each one a body may hold. -/
def legalBody (l : List (BitVec 32)) : Bool := decide (l.length ≤ 24) && l.all (fun w => (bodyWord w).isSome)

/-- A region (R404): its completion, with the registers the body wrote, is recorded. -/
def State.takeRegion (s : State) (req : FonakReq) : State :=
  s.receive 3 req (legalBody req.body && paRegion (req.line * 128) == 0) true false (fun t =>
    let x : Vector Word 32 := (List.range 32).foldl (fun (v : Vector Word 32) (k : Nat) =>
      v.setIfInBounds k (req.regs.getD k 0#64)) (Vector.replicate 32 0#64)
    let (u, out) := t.regionHome req.space (req.line * 128) (req.compare.toNat / 128) (req.attr.getLsbD 8) none x (bodyInstrs req.body)
    match out with
    | .ok h => (u, some { dataDone req 0 (if h.poisoned then 15 else 0) with regs := h.x.toList })
    | .error (.outside k) => (u, some { dataDone req 0 0 with regs := [0#64, BitVec.ofNat 64 k] })
    | .error (.misaligned va) => (u, some { dataDone req 0 0 with regs := [1#64, va] }))

/-- FONAK_REGION (R404). -/
def execFonakRegion (req : FonakReq) (s : State) : Res := .next (s.takeRegion req)

/-- A fence marker (R147): a stream performs in order, so every earlier request of it has performed but those that wait
at their banks, behind which the marker waits. -/
def State.takeMarker (s : State) (req : FonakReq) : State :=
  s.receive 4 req true false false (fun t =>
    if t.fab.atBank.any (fun e => e.2.key == req.key) then
      ({ t with fab := { t.fab with atBank := t.fab.atBank ++ [(0, req)] } }, none)
    else (t, some (plainDone req)))

/-- FONAK_FENCE_MARKER (R147). -/
def execFonakFenceMarker (req : FonakReq) (s : State) : Res := .next (s.takeMarker req)

/-- An interrupt transaction (R328). -/
def State.takeInterrupt (s : State) (req : FonakReq) : State :=
  s.receive 5 req true false false (fun t =>
    (t.interrupt (if req.key.dst < 4 then req.key.dst else 0) (req.data.setWidth 11), some (plainDone req)))

/-- FONAK_INTERRUPT (R328). -/
def execFonakInterrupt (req : FonakReq) (s : State) : Res := .next (s.takeInterrupt req)

/-- A request that may only travel inside the package (R129). -/
def withinPackage (r : FonakReq) : Bool := decide (r.key.src < 4) && decide (r.key.dst < 4)

/-- The copies of a line in a die's L2 take the home's value and are checked out. -/
def State.outLines (s : State) (die ln : Nat) (v : LineVal) : State :=
  let l2 := changeAll (fun (e : L2Line) => e.die == die && e.pa == ln)
    (fun e => { e with data := v.data, tags := v.tags, psn := v.psn, out := true }) s.mm.l2
  { s with mm := { s.mm with l2 := l2 } }

/-- A checkout (R129): the home keeps a twin and returns the line; a line already checked out to the writer has its
twin. -/
def State.takeCheckout (s : State) (req : FonakReq) : State :=
  s.receive 6 req (withinPackage req && paDie (req.line * 128) == req.key.dst && s.isLocal (req.line * 128)) false false (fun t =>
    match t.mm.twins.find? (fun w => w.line == req.line && w.writer == req.key.src) with
    | some w => (t, some (dataDone req w.data w.psn))
    | none =>
      let (u, v) := t.checkOut req.compare.toNat req.compare.toNat req.key.src req.line
      (u.outLines req.key.src req.line v, some (dataDone req v.data v.psn)))

/-- FONAK_CHECKOUT (R129). -/
def execFonakCheckout (req : FonakReq) (s : State) : Res := .next (s.takeCheckout req)

/-- The home of a checked-in line: the bytes that differ from the twin are written, the twin is freed, and the writer's
copy is clean. -/
def State.checkInHome (s : State) (r : FonakReq) : State :=
  match s.mm.twins.find? (fun w => w.line == r.line && w.writer == r.key.src) with
  | none => s
  | some w =>
    let v : LineVal := ⟨r.data, r.compare.setWidth 16, r.psn⟩
    let t := (s.takeTwin w.asid r.key.src r.line v w).freeTwin r.line r.key.src
    let l2 := changeAll (fun (e : L2Line) => e.die == r.key.src && e.pa == r.line)
      (fun e => { e with out := false, dirty := 0, writers := 0, heirs := 0 }) t.mm.l2
    { t with mm := { t.mm with l2 := l2 } }

/-- A check-in (R129): the line's tags travel in the low bits of the compare field (log entry 27). -/
def State.takeCheckIn (s : State) (req : FonakReq) : State :=
  s.receive 7 req (withinPackage req && paDie (req.line * 128) == req.key.dst) false false (fun t =>
    (t.checkInHome req, some (plainDone req)))

/-- FONAK_CHECK_IN (R129). -/
def execFonakCheckIn (req : FonakReq) (s : State) : Res := .next (s.takeCheckIn req)

/-- A recall (R130): the writer's L2 checks the line in. -/
def State.takeRecall (s : State) (req : FonakReq) : State :=
  s.receive 8 req (withinPackage req && paDie (req.line * 128) == req.key.src) false false (fun t =>
    (t.cleanL2 (fun e => e.die == req.key.dst && e.pa == req.line && e.out), some (plainDone req)))

/-- FONAK_RECALL (R130). -/
def execFonakRecall (req : FonakReq) (s : State) : Res := .next (s.takeRecall req)

/-- A multicast write (R330): a member of the group stores at MCBASE + 8i. -/
def State.takeMulticast (s : State) (req : FonakReq) (group : Nat) : State :=
  s.receive 11 req (maskedDword req.bmask).isSome false false (fun t =>
    let i := firstDword req.bmask
    let off := (req.line * 128 + 8 * i) % 4096
    match getKey group t.fe.mcast with
    | none => (t, some (plainDone req))
    | some base =>
      let pa := base + off
      t.storeFor req (pa / 128) (placeBytes pa (getElt req.data 64 i) false) (byteMask pa 8))

/-- FONAK_MULTICAST_WRITE (R330). -/
def execFonakMulticastWrite (req : FonakReq) (group : Nat) (s : State) : Res := .next (s.takeMulticast req group)

/-! ## Completions at the source (R324, R356, R404) -/

/-- An outstanding request with whom it belongs to. -/
def State.outstandingAt (s : State) (key : StreamKey) (eseq : BitVec 20) : Option (FonakReq × Nat) :=
  let t := s.fab.stream key
  (t.outstanding.find? (fun r => r.eseq == eseq)).map (fun r =>
    (r, ((t.waiting.find? (fun w => w.1 == eseq)).map (·.2)).getD 0))

/-- A request is no longer outstanding. -/
def State.settleReq (s : State) (key : StreamKey) (eseq : BitVec 20) : State :=
  let t := s.fab.stream key
  { s with fab := s.fab.setStream { t with outstanding := t.outstanding.filter (fun r => r.eseq != eseq),
                                           waiting := t.waiting.filter (fun w => w.1 != eseq),
                                           stale := t.stale.filter (fun e => e != eseq) } }

/-- Nothing on its die has overtaken an outstanding read (R140). -/
def State.freshRead (s : State) (key : StreamKey) (eseq : BitVec 20) : Bool := !((s.fab.stream key).stale.contains eseq)

/-- A read, atomic or region brings a reply. -/
def bringsReply (r : FonakReq) : Bool := r.op == 0#6 || r.op == 2#6 || r.op == 3#6

/-- A completion at its source: one whose request is not outstanding is discarded (R404). -/
def State.takeCompletion (s : State) (fin : FonakDone) : State :=
  match s.outstandingAt fin.key fin.eseq with
  | none => s
  | some (r, uid) =>
    let t := s.settleReq fin.key fin.eseq
    if bringsReply r then t.deliver uid ⟨r.op, r.line, fin.data, fin.psn, fin.regs, s.freshRead fin.key fin.eseq⟩
    else t.settleLeagues.settleAtBank

/-- FONAK_COMPLETION (R404). -/
def execFonakCompletion (fin : FonakDone) (s : State) : Res := .next (s.takeCompletion fin)

/-! ## Flits (R397) -/

/-- A request at the end of its way, by its OP; a reserved one is a protocol violation (R402). -/
def State.takeRequest (s : State) (r : FonakReq) : State :=
  match r.op.toNat with
  | 0 => s.takeRead r
  | 1 => s.takeWrite r
  | 2 => s.takeAtomic r
  | 3 => s.takeRegion r
  | 4 => s.takeMarker r
  | 5 => s.takeInterrupt r
  | 6 => s.takeCheckout r
  | 7 => s.takeCheckIn r
  | 8 => s.takeRecall r
  | 11 => s.takeMulticast r r.attr.toNat
  | _ => if s.arrives r then s.violation r else s

/-- A transaction that an end has accepted goes on to its next module, or has arrived. -/
def State.handOver (s : State) (m : ModuleId) (x : Txn) : State :=
  match s.sendOn (some m) x, x with
  | (t, true), _ => t
  | (_, false), .req r => s.takeRequest r
  | (_, false), .done d => s.takeCompletion d

/-- FLIT_RECEIVE (R397): the end named receives the flit, and the transaction that it accepts is passed on. -/
def execFlitReceive (m : ModuleId) (flit : Flit) (s : State) : Res :=
  .next (match s.receiveFlit m flit with
    | (t, some x) => t.handOver m x
    | (t, none) => t)

/-- The timeout of a request stands still: its plane or a router on its way has died, and it has not been sent again yet
(R405). -/
def State.timeoutStands (s : State) (key : StreamKey) : Bool := (s.fab.stream key).marked

/-- The address space of a hart or engine operation. -/
def State.asidOf (s : State) (uid : Nat) : Option Nat :=
  match s.hartOf uid with
  | some h => some h.asid
  | none => match s.copies.find? (fun c => c.id == uid) with
    | some c => some c.asid
    | none => match s.walks.find? (fun w => w.id == uid) with
      | some w => some w.asid
      | none => (s.cmds.find? (fun c => c.id == uid)).map (·.asid)

/-- COMPLETION_TIMEOUT (R356): the request completes with poison, logged as class 2 with TYPE 0x05. -/
def execCompletionTimeout (key : StreamKey) (eseq : BitVec 20) (s : State) : Res :=
  match s.outstandingAt key eseq with
  | none => .next s
  | some (r, uid) =>
    if !bringsReply r || s.timeoutStands key then .next s
    else
      let t := (s.settleReq key eseq).deliver uid ⟨r.op, r.line, r.data, 15#4, [], s.freshRead key eseq⟩
      .next (t.bankError (portBank key) true true 5#8 ((s.asidOf uid).getD 0) (BitVec.ofNat 64 (r.line * 128)) (zext eseq))

/-- POSTED_WRITE_TIMEOUT (R356): class 3, and the writer's job ends; a write of no job is logged alone. -/
def execPostedWriteTimeout (key : StreamKey) (eseq : BitVec 20) (s : State) : Res :=
  match s.outstandingAt key eseq with
  | none => .next s
  | some (r, uid) =>
    if !(r.op == 1#6 || r.op == 11#6) || s.timeoutStands key then .next s
    else
      let t := s.settleReq key eseq
      let id := portBank key
      let addr : Word := BitVec.ofNat 64 (r.line * 128)
      let jobs := ((s.asidOf uid).toList).filter (fun a => (s.jobOf a).isSome)
      .next (if s.terak.fail ≠ 0 then t.settleLeagues
        else if jobs = [] then (t.bankError id true false 5#8 0 addr (zext eseq)).settleLeagues
        else (t.jobFatal id 5#8 addr (zext eseq) jobs).settleLeagues)

/-- PCIE_ATOMICOP_COMPLETION (R326): a status that is not Successful completes the AMO with poison, logged as class 2 with
TYPE 0x07. -/
def execPcieAtomicopCompletion (uid : Nat) (ok : Bool) (old : Word) (s : State) : Res :=
  let mine := s.fab.streams.filter (fun t => t.key.plane == 8)
  match mine.findSome? (fun t => (t.outstanding.find? (fun r => t.waiting.any (fun w => w.1 == r.eseq && w.2 == uid))).map (fun r => (t.key, r))) with
  | none => .next s
  | some (key, r) =>
    let pa := r.line * 128 + 8 * firstDword r.bmask
    let data := if ok then (placeBytes pa old.toNat false).data else r.data
    let t := (s.settleReq key r.eseq).deliver uid ⟨r.op, r.line, data, if ok then 0#4 else 15#4, [], true⟩
    .next (if ok then t else t.bankError (portBank key) true true 7#8 ((s.asidOf uid).getD 0) (BitVec.ofNat 64 (r.line * 128)) 0#64)

/-! ## Resends (R403, R405) -/

/-- ESEQ_GAP_TIMEOUT (R403): a gap that has stayed open makes the destination ask for every outstanding request from the expected
ESEQ on. -/
def execEseqGapTimeout (key : StreamKey) (s : State) : Res :=
  let g := s.fab.filterOf key
  .next (if g.gap then { s with fab := s.fab.setFilter { g with resendAsked := some g.expected } } else s)

/-- Sends the outstanding requests of a stream again, in ESEQ order, with RESEND = 1 (R405). -/
def State.resend (s : State) (key : StreamKey) (p : FonakReq → Bool) : State :=
  let t := s.fab.stream key
  let again := (t.outstanding.filter p).map (fun r => { r with resend := true })
  let all := t.outstanding.map (fun r => if p r then { r with resend := true } else r)
  let f := s.fab.setStream { t with outstanding := all, marked := false }
  let s1 := { s with fab := { f with sent := f.sent ++ again } }
  if key.src < 4 then again.foldl (fun (u : State) (r : FonakReq) => (u.sendOn none (.req r)).1) s1 else s1

/-- An ESEQ stands at or after another, modulo 2^20. -/
def atOrAfter (a b : BitVec 20) : Bool := decide ((a - b).toNat < 2 ^ 19)

/-- RESEND_REQUEST (R403). -/
def execResendRequest (key : StreamKey) (eseq : BitVec 20) (s : State) : Res :=
  .next (if (s.fab.stream key).outstanding = [] then s else s.resend key (fun r => atOrAfter r.eseq eseq))

/-- RESENDS_COMPLETE_SIGNAL (R411): the destination need not keep the filter of a dead plane's stream. -/
def execResendsCompleteSignal (key : StreamKey) (s : State) : Res :=
  .next (if key.plane < 8 ∧ s.fab.dead.getLsbD key.plane ∧ s.fab.quiesce = .running
    then { s with fab := { s.fab with filters := s.fab.filters.filter (fun g => g.key != key) } } else s)

/-! ## Routers (R407, R408) -/

/-- The modules of an edge router: two per die boundary it stands at (R407). -/
def edgeModules (plane x y : Nat) : List ModuleId :=
  let pair := fun (b i : Nat) => [(⟨b, plane, 2 * i, false⟩ : ModuleId), ⟨b, plane, 2 * i + 1, false⟩]
  (if x = 7 ∨ x = 8 then pair (if y < 8 then 0 else 1) (y % 8) else [])
    ++ (if y = 7 ∨ y = 8 then pair (if x < 8 then 2 else 3) (x % 8) else [])

/-- The way of an outstanding request in its plane runs through a router that has died since the tables were written: between dies
from one to the other, to another device to the die of the plane's port (R15, R405). -/
def Fabric.lostOn (f : Fabric) (p : Nat) (r : FonakReq) : Bool :=
  r.key.plane == p &&
    (if r.key.src < 4 then f.ranThrough p r.key.src r.key.dst r.line else f.ranThrough p r.srcDie (p / 2) r.line)

/-- ROUTER_CREDIT_TIMEOUT (R408): the router is dead, logged in the bank of its die's front end; an edge router retires its
modules; a plane whose agents no longer reach each other is dead. -/
def execRouterCreditTimeout (plane x y : Nat) (s : State) : Res :=
  if plane ≥ 8 ∨ x ≥ 16 ∨ y ≥ 16 ∨ s.fab.deadRouters.contains (plane, x, y) ∨ s.fab.dead.getLsbD plane ∨ s.terak.fail ≠ 0 then .next s
  else
    let die := x / 8 + 2 * (y / 8)
    let id := bankIdOf die 0xA 0
    let f := { s.fab with deadRouters := (plane, x, y) :: s.fab.deadRouters }
    let s1 := { s with fab := f.markLost (f.lostOn plane) }
    let s2 := (s1.logLoss id 6#8 (BitVec.ofNat 64 (plane * 256 + 16 * y + x)) 0#64 5).errorMessage 0
    let s3 := (edgeModules plane x y).foldl (fun (t : State) (m : ModuleId) =>
      if (t.fab.modEnd m).state = 2 then t else t.retireModule m none) s2
    .next (if connected (liveRouters s3.fab.deadRouters plane) then s3 else s3.losePlane plane)

/-! ## Planes (R410 to R412) -/

/-- PLANE_DEAD (R410). -/
def execPlaneDead (plane : Nat) (s : State) : Res := .next (if s.terak.fail ≠ 0 then s else s.losePlane plane)

/-- Step 1 of R411: no requester starts a transaction that needs a plane. -/
def State.quiescePlane (s : State) (p : Nat) : State :=
  if s.fab.quiesce = .running ∧ p < 8 ∧ s.terak.fail = 0 then { s with fab := { s.fab with quiesce := .quiesced p } } else s

/-- PLANE_QUIESCE (R411). -/
def execPlaneQuiesce (plane : Nat) (s : State) : Res := .next (s.quiescePlane plane)

/-- The device has drained: after the loss of a plane no stream of another plane has a request outstanding (R411); after the loss
of a router none of the plane has one but those that the router may have swallowed (R408). -/
def Fabric.drained (f : Fabric) (p : Nat) : Bool :=
  if f.dead.getLsbD p then f.streams.all (fun t => t.key.plane == p || decide (8 ≤ t.key.plane) || t.outstanding == [])
  else f.streams.all (fun t => t.key.plane != p || t.marked || t.outstanding.all (f.lostOn p))

/-- Steps 2 and 3 of R411: the outstanding requests of the plane are marked, and Terak tells the coordinator that its device is
drained. -/
def State.drainPlane (s : State) (p : Nat) : State :=
  if s.fab.quiesce = .quiesced p ∧ s.fab.drained p then
    { s with fab := { s.fab.markLost (fun r => r.key.plane == p) with quiesce := .drained p } }.tell (.drained p)
  else s

/-- PLANE_DRAIN_COMPLETE (R411). -/
def execPlaneDrainComplete (plane : Nat) (s : State) : Res := .next (s.drainPlane plane)

/-- The live planes, ascending. -/
def Fabric.livePlanes (f : Fabric) : List Nat := (List.range 8).filter (fun p => !f.dead.getLsbD p)

/-- PLANEMAP with the buckets of a dead plane moved onto the live ones: the k-th receives S[k mod |S|] (R412). -/
def Fabric.rehash (f : Fabric) (d : Nat) : Vector (BitVec 3) 64 :=
  let live := f.livePlanes
  let moved := (List.range 64).filter (fun b => (f.planeMap[b]?.getD 0#3).toNat == d)
  (List.range moved.length).foldl (fun (m : Vector (BitVec 3) 64) (k : Nat) =>
    m.setIfInBounds (moved.getD k 64) (BitVec.ofNat 3 (live.getD (k % live.length) 0))) f.planeMap

/-- Step 4 of R411: PLANEMAP is rewritten in every requester, or class 5 when no live plane is left; a router loss has no such
step. -/
def State.remapPlane (s : State) (p : Nat) : State :=
  if s.terak.fail ≠ 0 then s
  else if s.fab.quiesce = .drained p ∧ s.fab.dead.getLsbD p then
    if s.fab.livePlanes = [] then s.packageFatal 3 (bankIdOf 0 0xA 0)
    else { s with fab := { s.fab with planeMap := s.fab.rehash p, quiesce := .remapped p } }
  else s

/-- PLANE_REMAP (R412). -/
def execPlaneRemap (plane : Nat) (s : State) : Res := .next (s.remapPlane plane)

/-- Step 5 of R411: the marked requests of the plane are sent again in their streams, by the PLANEMAP that harts read from here on
(R412); new transactions follow. After a router loss the tables that avoid the dead routers of the plane stand (R408). -/
def State.resumePlane (s : State) (p : Nat) : State :=
  if s.fab.quiesce = .remapped p ∨ (s.fab.quiesce = .drained p ∧ ¬ s.fab.dead.getLsbD p) then
    let keys := (s.fab.streams.filter (fun t => t.marked && t.key.plane == p)).map (·.key)
    let fresh := s.fab.freshlyDead p
    let t := { s with fab := { s.fab with routed := fresh ++ s.fab.routed, shownMap := s.fab.planeMap } }
    let u := keys.foldl (fun (g : State) (k : StreamKey) => g.resend k (fun _ => true)) t
    { u with fab := { u.fab with quiesce := .running } }.settleLeagues
  else s

/-- PLANE_RESUME (R411). -/
def execPlaneResume (plane : Nat) (s : State) : Res := .next (s.resumePlane plane)

end Sys2Proof.Machine
end

