-- ==== Sys2Proof/Machine/BankRequests.lean ====
section
/-!
DEFINITION. Ordinary requests whose data a bank has moved (R119, R292, R294): loads, stores, reads of the scrub (R385), and
the requests of other devices that waited for them (R404).
-/

namespace Sys2Proof.Machine

open Sys2Proof

/-- What an ordinary store moves: its granule as a line value, and the bytes of the line that it writes. -/
def ordMoves (r : OrdReq) (v : BitVec 256) (pa : Nat) : LineVal × BitVec 128 :=
  let o := pa % 128
  (⟨v.setWidth 1024 <<< (8 * o), 0, if r.psn then 1#4 <<< (o / 32) else 0⟩, r.mask.setWidth 128 <<< o)

/-- The data of an ordinary load go to the requester: a hart or engine of the package, or another device, whose read completes
with them. -/
def State.loaded (s : State) (r : OrdReq) (pa : Nat) : State :=
  let l := s.homeLine (pa / 128)
  match s.fab.atBank.find? (fun e => e.1 == r.uid) with
  | some e =>
    ({ s with fab := { s.fab with atBank := s.fab.atBank.filter (fun f => f.1 != r.uid) } }).answer
      { plainDone e.2 with data := l.data, psn := l.psn }
  | none =>
    let word := BitVec.ofNat 64 (natOfBytes (Memory.read s.mm.bytes pa (min 8 r.size)))
    ({ s with homeReply := some word }).deliver r.uid ⟨bankReply, pa, l.data, l.psn, [], true⟩

/-- ORDINARY_REQUEST_DATA_MOVED (R292, R294): the request whose data a bank moves performs. A phase of a barrier may have waited
for a store (R47), and so may a request of another device. -/
def execOrdinaryRequestDataMoved (bank : Nat) (s : State) : Res :=
  let k := s.bank bank
  match k.moving with
  | none => .next s
  | some r =>
    let pa := s.reqPa bank r
    let s1 := s.setBank bank { k with moving := none }
    match r.scrub, r.store with
    | some found, _ => .next (s1.scrubbed r.id found)
    | none, some v =>
      let (line, mask) := ordMoves r v pa
      .next (s1.putHome (pa / 128) line mask).settleLeagues.settleAtBank
    | none, none => .next (s1.loaded r pa).settleAtBank

end Sys2Proof.Machine
end

