-- ==== Sys2Proof/Machine/Control.lean ====
section
/-!
DEFINITION. Control transfer (R207, R208) and the pool marker (R186, R375).
-/

namespace Sys2Proof.Machine

open Sys2Proof

/-- The target of a branch or JAL: PC plus four times the offset, modulo 2^57 (R207). -/
def branchTarget {n : Nat} (pc : Word) (i : BitVec n) : Word := wrapPc (pc + (sext i <<< 2))

/-- A conditional branch (R207). -/
def State.branch (s : State) (taken : Bool) (i : BitVec 15) : State :=
  if taken then s.setPc (branchTarget s.hart.pc i) else s.advance

/-- BEQ (R207). -/
def execBeq (a b : BitVec 5) (i : BitVec 15) (s : State) : Res := .next (s.branch (s.getX a == s.getX b) i)
/-- BNE (R207). -/
def execBne (a b : BitVec 5) (i : BitVec 15) (s : State) : Res := .next (s.branch (s.getX a != s.getX b) i)
/-- BLT (R207). -/
def execBlt (a b : BitVec 5) (i : BitVec 15) (s : State) : Res := .next (s.branch (BitVec.slt (s.getX a) (s.getX b)) i)
/-- BGE (R207). -/
def execBge (a b : BitVec 5) (i : BitVec 15) (s : State) : Res := .next (s.branch (!BitVec.slt (s.getX a) (s.getX b)) i)
/-- BLTU (R207). -/
def execBltu (a b : BitVec 5) (i : BitVec 15) (s : State) : Res := .next (s.branch (BitVec.ult (s.getX a) (s.getX b)) i)
/-- BGEU (R207). -/
def execBgeu (a b : BitVec 5) (i : BitVec 15) (s : State) : Res := .next (s.branch (!BitVec.ult (s.getX a) (s.getX b)) i)

/-- JAL (R208). -/
def execJal (d : BitVec 5) (i : BitVec 20) (s : State) : Res :=
  .next ((s.setX d (s.hart.pc + 4#64)).setPc (branchTarget s.hart.pc i))

/-- JALR (R208): a target that is no multiple of 4 raises 0x04, one beyond 57 bits 0x08; xd is then unchanged. -/
def execJalr (d a : BitVec 5) (i : BitVec 15) (s : State) : Res :=
  let t := s.getX a + sext i
  if t.extractLsb' 0 2 ≠ 0#2 then .next (s.raise (s.cause 4#8 t 0#64 1#64))
  else if t.extractLsb' 57 7 ≠ 0#7 then .next (s.raise (s.cause 8#8 t 0#64 1#64))
  else .next ((s.setX d (s.hart.pc + 4#64)).setPc t)

/-- A word with major opcode 0x7F raises cause 0x02 with the word in FAULTVA (R186, R366, R375). -/
def execPoolMarker (n : BitVec 25) (s : State) : Res :=
  .next (s.raise (s.cause 2#8 (zext (wordOf (.poolMarker n))) 0#64 0#64))

end Sys2Proof.Machine
end

