-- ==== Sys2Proof/Machine/Sync.lean ====
section
/-!
DEFINITION. Fences, waits, leagues and barriers (R42 to R47, R147, R221 to R225), the wait points of copies (R314) and
scratchpad allocation (R125, R226).
-/

namespace Sys2Proof.Machine

open Sys2Proof

/-! ## Fences (R147, R222) -/

/-- What a fence kind performs: acquire actions, release actions. -/
def fenceActions (k : Nat) : Bool × Bool :=
  match k with
  | 0 => (true, false)
  | 1 => (false, false)
  | 2 => (false, true)
  | 3 => (false, true)
  | 4 => (true, false)
  | 5 => (false, true)
  | _ => (true, true)

/-- FENCE (R147): the actions of its kind at its scope; from die scope on it waits until every earlier request of the
hart has performed, as the markers of the eight planes find it. Whatever its kind it waits for the older vector element
stores to perform at its scope (R151): what the core has written is shown there (log entry 69). -/
def execFence (k : BitVec 3) (sc : BitVec 2) (s : State) : Res := settle (do
  if !(Instr.wf (.fence k sc)) then M.illegal (.fence k sc)
  else
    M.waitWalks (some sc)
    let (acq, _) := fenceActions k.toNat
    M.needPlanes sc
    modify (·.releaseMine sc)
    let s ← get
    if sc ≠ 0#2 ∧ (s.unacked s.hart.uid || !s.planesMove) then
      if sc = 3#2 then set (s.sendMarkers s.hart.uid)
      M.stall
    else
      if acq then M.acquire sc
      M.advance) s

/-- VDRAIN (R222): every older vector element has performed when the next instruction executes here (log entry 8). -/
def execVdrain (s : State) : Res := .next s.advance

/-! ## Completion registers (R223, R314) -/

/-- The copy fault record is delivered at a wait point once: for a WAITC that of its completion register (R314).
R314 names FAULTVA alone: FAULTSTRIDE is 0 and FAULTREMAIN 1, as for one access (log entry 74). -/
def M.waitCopies (k : Option (BitVec 4)) : M Unit := fun s =>
  match s.hart.copyFault with
  | none => .ok ((), s)
  | some f =>
    if s.hart.copyTold || k.any (fun n => n != f.k) then .ok ((), s)
    else
      let t := { s with hart := { s.hart with copyTold := true } }
      if f.cause = 0xF#8 then .error (.poison t 0 false)
      else M.outcome t (s.cause f.cause f.va 0#64 1#64) s

/-- The copy fault record waits to be delivered, and its copy was issued before an operation of a number. -/
def Hart.copyBefore (h : Hart) (id : Nat) : Bool := !h.copyTold && h.copyFault.any (fun f => decide (f.id < id))

/-- The wait points of a HALT (R214, R314, R372): walks and copies, the earliest-issued outcome first, poison before all. -/
def M.waitAll : M Unit := do
  let s ← get
  if (s.walkAhead none).any (fun w => !w.poisoned && s.hart.copyBefore w.id) then
    M.waitCopies none
    M.waitWalks none
  else
    M.waitWalks none
    M.waitCopies none

/-- WAITC (R223): waits until the count has reached the target, and returns it. -/
def execWaitc (d a : BitVec 5) (k : BitVec 4) (s : State) : Res := settle (do
  M.waitCopies (some k)
  let s ← get
  let n := s.hart.getK k
  if (n - s.getX a).toNat < 2 ^ 63 then M.result d n else M.stall) s

/-! ## Leagues (R42 to R44, R49, R224) -/

/-- The per-core count of a league with a hart added (R49). -/
def State.leagueCount (s : State) (members : List Member) (h : Hart) : Nat :=
  let all := h :: members.filterMap (fun m => s.hartOf m.uid)
  (all.map (fun g => coResident g.footprint g.aTiles)).foldl min 16

/-- The status of an LJOIN, tested in the order of R42. -/
def State.joinStatus (s : State) (id : Word) : Nat :=
  if id.toNat > 4095 then 5
  else if s.hart.league.isSome then 1
  else
    let l := s.leagueOf id.toNat
    let members := match l with
      | some k => k.members
      | none => []
    if l.any (fun k => k.owner != s.hart.asid) then 3
    else if members.length ≥ 3072 then 2
    else if members.length + 1 ≤ 192 * s.leagueCount members s.hart then 0
    else 4

/-- A hart becomes a member: its next arrival counts toward phase 0 of a league it creates, and toward the phase after
the current one otherwise (R46, R225). -/
def State.join (s : State) (id : Nat) : State :=
  let uid := s.hart.uid
  let l : League := match s.leagueOf id with
    | none => { id := id, owner := s.hart.asid, members := [⟨uid, Vector.replicate 8 0#32⟩],
                objects := Vector.replicate 8 Barrier.reset }
    | some k =>
      let next := (List.range 8).foldl (fun (v : Vector (BitVec 32) 8) (n : Nat) =>
        if hn : n < 8 then v.set n (k.objects[n].c + 1#32) else v) (Vector.replicate 8 0#32)
      { k with members := k.members ++ [⟨uid, next⟩] }
  { s.putLeague l with hart := { s.hart with league := some id } }

/-- LJOIN (R42, R224). -/
def execLjoin (d a : BitVec 5) (s : State) : Res :=
  let st := s.joinStatus (s.getX a)
  let t := if st = 0 then s.join (s.getX a).toNat else s
  .next (t.result d (BitVec.ofNat 64 st))

/-- LLEAVE (R43, R224). -/
def execLleave (s : State) : Res := .next (s.leaveLeague s.hart.uid).advance

/-! ## Barriers (R45 to R47, R225) -/

/-- Cause 0x08 of BINIT, BARR and BWAIT names the barrier register in FAULTSTRIDE (R225, R366). -/
def barrierCause {α : Type} (n : BitVec 3) : M α := M.cause 8#8 0#64 (zext n) 0#64

/-- BINIT (R225). -/
def execBinit (n : BitVec 3) (s : State) : Res := settle (do
  let s ← get
  match s.hart.league with
  | none => barrierCause n
  | some id =>
    set { s with hart := { s.hart with b := s.hart.b.set n.toNat (some ⟨id, n⟩) (have := n.isLt; by omega) } }
    M.advance) s

/-- The league, the object and the member of a bound barrier register. -/
def State.barrierOf (s : State) (n : BitVec 3) : Option (League × BitVec 3 × Member) :=
  match s.hart.getB n with
  | none => none
  | some b => match s.leagueOf b.league with
    | none => none
    | some l => (l.members.find? (fun m => m.uid == s.hart.uid)).map (fun m => (l, b.object, m))

/-- A member's next phase for an object. -/
def Member.setNext (m : Member) (n : BitVec 3) (v : BitVec 32) : Member :=
  { m with next := m.next.set n.toNat v (have := n.isLt; by omega) }

/-- A hart arrives at the phase its next arrival counts toward (R46, R225). -/
def State.arrive (s : State) (l : League) (n : BitVec 3) (m : Member) : State :=
  let p := m.nextOf n
  let o := l.object n
  let o' := if p = o.c then { o with arrived := m.uid :: o.arrived } else { o with early := m.uid :: o.early }
  let l' := { l with members := replaceFirst (fun k => k.uid == m.uid) (fun k => k.setNext n (p + 1#32)) l.members }
  (s.putLeague (l'.setObject n o')).settlePhases l.id n 3

/-- BARR (R225): arrives with release; at most one phase ahead. It is a wait point of every walk, whose outcome comes before
its own check (R161, R372). -/
def execBarr (d : BitVec 5) (n : BitVec 3) (s : State) : Res := settle (do
  M.waitWalks none
  match (← get).barrierOf n with
  | none => barrierCause n
  | some (l, o, m) =>
    let s ← get
    let p := m.nextOf o
    if (p - (l.object o).c).toNat ≥ 2 || s.unacked s.hart.uid then M.stall
    else
      modify (fun t => t.arrive l o m)
      M.result d (zext p)) s

/-- BWAIT (R225): waits until a phase has completed and performs the acquire of its phase scope (R47). A number that compares
as completed and that no phase has had, as 0xFFFFFFFF while C = 0, has no phase scope in the spec: the model takes package
(log entry 53). -/
def execBwait (a : BitVec 5) (n : BitVec 3) (s : State) : Res := settle (do
  match (← get).barrierOf n with
  | none => barrierCause n
  | some (l, o, _) =>
    let s ← get
    let p : BitVec 32 := (s.getX a).setWidth 32
    let b := l.object o
    if (b.c - p - 1#32).toNat < 2 ^ 31 then
      let sc := ((b.scopes.find? (fun e => e.1 == p)).map (·.2)).getD 2#2
      M.waitWalks (some sc)
      M.needPlanes sc
      M.acquire sc
      modify (fun t => { t with hart := { t.hart with atBarrier := false } })
      M.advance
    else (fun t => .error (.stall { t with hart := { t.hart with atBarrier := true } }))) s

/-! ## Scratchpad (R125, R226) -/

/-- Buffered stores of a line are gone with the line. -/
def Hart.dropStrip (h : Hart) (line : Nat) : Hart := { h with strip := h.strip.filter (fun e => e.line != line) }

/-- SPALLOC (R226). The spec does not order statuses 2 and 3: a line that another hart of the job has pinned gives 3, in a
full set too (log entry 54). -/
def execSpalloc (d a : BitVec 5) (s : State) : Res := settle (do
  let s ← get
  let va := s.getX a
  let line := va.toNat / 128
  let p := s.hart.place
  if !s.inScratch s.hart.asid va then M.cause 8#8 va 0#64 1#64
  else if s.rangeBusy s.who (line * 128) 128 then M.stall
  else
    match findCore s.mm.l1 p.die p.core s.hart.asid line with
    | some c => M.result d (if c.pin = some s.hart.uid then 1#64 else 3#64)
    | none =>
      if s.pinnedWays p.die p.core line ≥ 6 then M.result d 2#64
      else
        let e : CoreLine := ⟨p.die, p.core, s.hart.asid, line, 0, 0, 0, 2, 0, 0, 0, some s.hart.uid⟩
        modify (fun t => { t.mapL1 (fun l => fillCore 512 l e) with hart := t.hart.dropStrip line })
        M.result d 0#64) s

/-- SPFREE (R226). -/
def execSpfree (a : BitVec 5) (s : State) : Res := settle (do
  let s ← get
  let va := s.getX a
  let line := va.toNat / 128
  let p := s.hart.place
  if !s.inScratch s.hart.asid va then M.cause 8#8 va 0#64 1#64
  else if s.rangeBusy s.who (line * 128) 128 then M.stall
  else
    match findCore s.mm.l1 p.die p.core s.hart.asid line with
    | none => M.advance
    | some c =>
      if c.pin ≠ some s.hart.uid then M.cause 8#8 va 0#64 1#64
      else
        modify (fun t =>
          { t.mapL1 (fun l => l.filter (fun e => !(e.die == p.die && e.core == p.core && e.asid == c.asid && e.line == line)))
            with hart := t.hart.dropStrip line })
        M.advance) s

end Sys2Proof.Machine
end

