-- ==== Sys2Proof/Machine/System.lean ====
section
/-!
DEFINITION. System instructions and CSR access (R69, R170 to R174, R227, R228, R369).
-/

namespace Sys2Proof.Machine

open Sys2Proof

/-- ECALL (R227): cause 0x12; EPC names the next instruction. -/
def execEcall (s : State) : Res :=
  .next (s.raise { s.cause 0x12#8 0#64 0#64 0#64 with epc := wrapPc (s.hart.pc + 4#64) })

/-- EBREAK (R227): cause 0x11; EPC names the EBREAK. -/
def execEbreak (s : State) : Res := .next (s.raise (s.cause 0x11#8 0#64 0#64 0#64))

/-- ERET (R369): outside a handler it raises cause 0x03. -/
def execEret (s : State) : Res :=
  if s.hart.csr.hm then .next s.trapReturn else .next (s.raise (s.cause 3#8 0#64 0#64 0#64))

/-- WFI (R227): the hart is not ready until something it watches changes or 1024 cc pass; then it commits. -/
def execWfi (s : State) : Res := .next { s with hart := { s.hart with wait := s.wfiView s.hart } }

/-- YIELD (R227): the dispatcher pre-empts the hart after YIELD commits when a waiting hart would then fit. -/
def execYield (s : State) : Res :=
  let t := s.advance
  .next (if t.yieldsTo t.hart then t.preemptNow t.hart.uid else t)

/-- HALT (R69, R227): the outcomes of walks and copies are taken first; then the hart retires. -/
def execHalt (s : State) : Res := settle (do
  M.waitAll
  modify (fun t => t.freeHart t.hart.uid .retired)) s

/-- CSRR (R228). -/
def execCsrr (d : BitVec 5) (c : BitVec 12) (s : State) : Res := settle (csrAccess (.csrr d c) d c none) s

/-- CSRW (R228). -/
def execCsrw (d a : BitVec 5) (c : BitVec 12) (s : State) : Res :=
  settle (csrAccess (.csrw d a c) d c (some (fun _ => s.getX a))) s

/-- CSRS (R228); with xa = x0 it reads. -/
def execCsrs (d a : BitVec 5) (c : BitVec 12) (s : State) : Res :=
  settle (csrAccess (.csrs d a c) d c (if a = 0#5 then none else some (fun t => t ||| s.getX a))) s

/-- CSRC (R228); with xa = x0 it reads. -/
def execCsrc (d a : BitVec 5) (c : BitVec 12) (s : State) : Res :=
  settle (csrAccess (.csrc d a c) d c (if a = 0#5 then none else some (fun t => t &&& ~~~(s.getX a)))) s

end Sys2Proof.Machine
end

