-- ==== Sys2Proof/Machine/VArith.lean ====
section
/-!
DEFINITION. Vector arithmetic, comparison and merge, major 0x31 (R245 to R250).
-/

namespace Sys2Proof.Machine

open Sys2Proof

/-! ## Element functions -/

/-- A binary operation on elements: an exact integer result narrowed once, or a float result rounded once (R78, R234). -/
def arith2 (m : Mode) (fi : Int → Int → Int) (ff : FVal → FVal → FVal × BitVec 6) (a b : Nat) : Flagged :=
  match etypeOf m.etype with
  | some (.int w sg) => narrow w sg m.sat (fi (intVal w sg a) (intVal w sg b))
  | some (.flt f) => finish f m.rm (ff (decodeF f a) (decodeF f b))
  | none => (0, 0#6)

/-- A product added to or subtracted from a third element, with one rounding or one narrowing (R245). -/
def arith3 (m : Mode) (sub : Bool) (c a b : Nat) : Flagged :=
  match etypeOf m.etype with
  | some (.int w sg) =>
    let p := intVal w sg a * intVal w sg b
    narrow w sg m.sat (if sub then intVal w sg c - p else intVal w sg c + p)
  | some (.flt f) =>
    let x := decodeF f a
    finish f m.rm (fmaV m.rm (decodeF f c) (if sub then negV x else x) (decodeF f b))
  | none => (0, 0#6)

def addElem (m : Mode) (a b : Nat) : Flagged := arith2 m (· + ·) (addV m.rm) a b
def subElem (m : Mode) (a b : Nat) : Flagged := arith2 m (· - ·) (fun x y => addV m.rm x (negV y)) a b
def mulElem (m : Mode) (a b : Nat) : Flagged := arith2 m (· * ·) mulV a b

/-- Minimum or maximum of two elements (R246). -/
def pickElem (m : Mode) (wantMax : Bool) (a b : Nat) : Flagged :=
  match etypeOf m.etype with
  | some (.int w sg) => (if (decide (intVal w sg a < intVal w sg b)) != wantMax then a else b, 0#6)
  | some (.flt f) => minMaxF f wantMax a b
  | none => (0, 0#6)

/-- Negation: integers narrow, floats invert the sign bit (R245). -/
def negElem (m : Mode) (a : Nat) : Flagged :=
  match etypeOf m.etype with
  | some (.int w sg) => narrow w sg m.sat (-(intVal w sg a))
  | some (.flt f) => (a ^^^ f.signBit, 0#6)
  | none => (0, 0#6)

/-- Absolute value (R245). -/
def absElem (m : Mode) (a : Nat) : Flagged :=
  match etypeOf m.etype with
  | some (.int w sg) => narrow w sg m.sat ((intVal w sg a).natAbs : Int)
  | some (.flt f) => (a % f.signBit, 0#6)
  | none => (0, 0#6)

/-- The shifts of integer elements, the count taken modulo the width (R245). -/
def sllElem (m : Mode) (a b : Nat) : Flagged :=
  match etypeOf m.etype with
  | some (.int w sg) => narrow w sg m.sat (intVal w sg a * (2 ^ (b % w) : Nat))
  | _ => (0, 0#6)
def srlElem (m : Mode) (a b : Nat) : Flagged := (a >>> (b % m.width), 0#6)
def sraElem (m : Mode) (a b : Nat) : Flagged :=
  let w := m.width
  (ofSigned w (toSigned w a / (2 ^ (b % w) : Nat)), 0#6)

/-- The compares of R246: 0 equal, 1 not equal, 2 less, 3 less or equal. -/
def cmpElem (m : Mode) (k : Nat) (a b : Nat) : Bool × BitVec 6 :=
  match etypeOf m.etype with
  | some (.int w sg) =>
    let x := intVal w sg a
    let y := intVal w sg b
    (match k with | 0 => decide (x = y) | 1 => decide (x ≠ y) | 2 => decide (x < y) | _ => decide (x ≤ y), 0#6)
  | some (.flt f) => cmpF f k a b
  | none => (false, 0#6)

/-- Division of elements (R79, R245). -/
def divElem (m : Mode) (a b : Nat) : Flagged :=
  match etypeOf m.etype with
  | some (.int w sg) => divInt w sg m.sat a b
  | some (.flt f) => finish f m.rm (divV (decodeF f a) (decodeF f b))
  | none => (0, 0#6)

/-- A function of R248 of a float element. -/
def realElem (m : Mode) (fn : RealFn) (a : Nat) : Flagged :=
  match etypeOf m.etype with
  | some (.flt f) => finish f m.rm (realFn fn (decodeF f a))
  | _ => (0, 0#6)

/-- The class bits of a float element (R249). -/
def classElem (m : Mode) (a : Nat) : Flagged :=
  match etypeOf m.etype with
  | some (.flt f) =>
    let k := match decodeF f a with
      | .nan s => if s then 8 else 9
      | .inf n => if n then 0 else 7
      | .fin n mag e =>
        if mag = 0 then (if n then 3 else 4)
        else if mag < 2 ^ (f.p - 1) ∧ e = f.emin - (f.p - 1 : Nat) then (if n then 2 else 5)
        else (if n then 1 else 6)
    (2 ^ k, 0#6)
  | _ => (0, 0#6)

/-- The odd elements of complex data are negated (R250). -/
def conjElem (m : Mode) (e a : Nat) : Flagged := if e % 2 = 0 then (a, 0#6) else negElem m a

/-- A compare writes its mask bit by bit (R232, R246). -/
def vectorCompare (i : Instr) (k : Nat) (md : BitVec 2) (d a b : BitVec 6) : M Unit := do
  let v : VShape := plainShape typesA a [a, b]
  let x ← vectorIn i md v
  let r := (List.range x.vl).map (fun e =>
    if x.act e then some (cmpElem x.m k (x.src 0 e) (x.src 1 e)) else if x.m.zero then some (false, 0#6) else none)
  let h := (← get).hart
  let per := 2048 / x.w
  let r' := quietGroups (List.replicate (min h.startElem r.length) none ++ r.drop h.startElem) per h.split
  modify (fun s => { s with hart := (s.hart.writeBits d.toNat (r'.map (fun o => o.map (·.1)))).spoilBits d.toNat per r'.length h.split })
  commitVector [a.toNat, b.toNat] (r'.foldl (fun fl o => match o with
    | some y => fl ||| y.2
    | none => fl) 0#6)

/-! ## Instructions -/

/-- VADD (R245). -/
def execVadd (m : BitVec 2) (d a b : BitVec 6) (s : State) : Res :=
  settle (vectorOp (.vadd m d a b) m (plainShape typesA d [a, b]) (eachElem (fun x e => addElem x.m (x.src 0 e) (x.src 1 e)))) s
/-- VSUB (R245). -/
def execVsub (m : BitVec 2) (d a b : BitVec 6) (s : State) : Res :=
  settle (vectorOp (.vsub m d a b) m (plainShape typesA d [a, b]) (eachElem (fun x e => subElem x.m (x.src 0 e) (x.src 1 e)))) s
/-- VMUL (R245). -/
def execVmul (m : BitVec 2) (d a b : BitVec 6) (s : State) : Res :=
  settle (vectorOp (.vmul m d a b) m (plainShape typesA d [a, b]) (eachElem (fun x e => mulElem x.m (x.src 0 e) (x.src 1 e)))) s
/-- VMIN (R245). -/
def execVmin (m : BitVec 2) (d a b : BitVec 6) (s : State) : Res :=
  settle (vectorOp (.vmin m d a b) m (plainShape typesA d [a, b]) (eachElem (fun x e => pickElem x.m false (x.src 0 e) (x.src 1 e)))) s
/-- VMAX (R245). -/
def execVmax (m : BitVec 2) (d a b : BitVec 6) (s : State) : Res :=
  settle (vectorOp (.vmax m d a b) m (plainShape typesA d [a, b]) (eachElem (fun x e => pickElem x.m true (x.src 0 e) (x.src 1 e)))) s
/-- VAND (R245). -/
def execVand (m : BitVec 2) (d a b : BitVec 6) (s : State) : Res :=
  settle (vectorOp (.vand m d a b) m (plainShape typesA d [a, b]) (eachElem (fun x e => (x.src 0 e &&& x.src 1 e, 0#6)))) s
/-- VOR (R245). -/
def execVor (m : BitVec 2) (d a b : BitVec 6) (s : State) : Res :=
  settle (vectorOp (.vor m d a b) m (plainShape typesA d [a, b]) (eachElem (fun x e => (x.src 0 e ||| x.src 1 e, 0#6)))) s
/-- VXOR (R245). -/
def execVxor (m : BitVec 2) (d a b : BitVec 6) (s : State) : Res :=
  settle (vectorOp (.vxor m d a b) m (plainShape typesA d [a, b]) (eachElem (fun x e => (x.src 0 e ^^^ x.src 1 e, 0#6)))) s
/-- VSLL (R245). -/
def execVsll (m : BitVec 2) (d a b : BitVec 6) (s : State) : Res :=
  settle (vectorOp (.vsll m d a b) m (plainShape typesI d [a, b]) (eachElem (fun x e => sllElem x.m (x.src 0 e) (x.src 1 e)))) s
/-- VSRL (R245). -/
def execVsrl (m : BitVec 2) (d a b : BitVec 6) (s : State) : Res :=
  settle (vectorOp (.vsrl m d a b) m (plainShape typesI d [a, b]) (eachElem (fun x e => srlElem x.m (x.src 0 e) (x.src 1 e)))) s
/-- VSRA (R245). -/
def execVsra (m : BitVec 2) (d a b : BitVec 6) (s : State) : Res :=
  settle (vectorOp (.vsra m d a b) m (plainShape typesI d [a, b]) (eachElem (fun x e => sraElem x.m (x.src 0 e) (x.src 1 e)))) s
/-- VDIV (R245). -/
def execVdiv (m : BitVec 2) (d a b : BitVec 6) (s : State) : Res :=
  settle (vectorOp (.vdiv m d a b) m (plainShape typesA d [a, b]) (eachElem (fun x e => divElem x.m (x.src 0 e) (x.src 1 e)))) s
/-- VMAC (R245): vd is a third source. -/
def execVmac (m : BitVec 2) (d a b : BitVec 6) (s : State) : Res :=
  settle (vectorOp (.vmac m d a b) m (plainShape typesA d [a, b, d])
    (eachElem (fun x e => arith3 x.m false (x.src 2 e) (x.src 0 e) (x.src 1 e)))) s
/-- VNMAC (R245): vd is a third source. -/
def execVnmac (m : BitVec 2) (d a b : BitVec 6) (s : State) : Res :=
  settle (vectorOp (.vnmac m d a b) m (plainShape typesA d [a, b, d])
    (eachElem (fun x e => arith3 x.m true (x.src 2 e) (x.src 0 e) (x.src 1 e)))) s
/-- VABS (R245). -/
def execVabs (m : BitVec 2) (d a : BitVec 6) (s : State) : Res :=
  settle (vectorOp (.vabs m d a) m (plainShape typesS d [a]) (eachElem (fun x e => absElem x.m (x.src 0 e)))) s
/-- VNEG (R245). -/
def execVneg (m : BitVec 2) (d a : BitVec 6) (s : State) : Res :=
  settle (vectorOp (.vneg m d a) m (plainShape typesS d [a]) (eachElem (fun x e => negElem x.m (x.src 0 e)))) s
/-- VSQRT (R248). -/
def execVsqrt (m : BitVec 2) (d a : BitVec 6) (s : State) : Res :=
  settle (vectorOp (.vsqrt m d a) m (plainShape typesF d [a]) (eachElem (fun x e => realElem x.m .sqrt (x.src 0 e)))) s
/-- VRCP (R248). -/
def execVrcp (m : BitVec 2) (d a : BitVec 6) (s : State) : Res :=
  settle (vectorOp (.vrcp m d a) m (plainShape typesF d [a]) (eachElem (fun x e => realElem x.m .rcp (x.src 0 e)))) s
/-- VRSQ (R248). -/
def execVrsq (m : BitVec 2) (d a : BitVec 6) (s : State) : Res :=
  settle (vectorOp (.vrsq m d a) m (plainShape typesF d [a]) (eachElem (fun x e => realElem x.m .rsq (x.src 0 e)))) s
/-- VEXP2 (R248). -/
def execVexp2 (m : BitVec 2) (d a : BitVec 6) (s : State) : Res :=
  settle (vectorOp (.vexp2 m d a) m (plainShape typesF d [a]) (eachElem (fun x e => realElem x.m .exp2 (x.src 0 e)))) s
/-- VLOG2 (R248). -/
def execVlog2 (m : BitVec 2) (d a : BitVec 6) (s : State) : Res :=
  settle (vectorOp (.vlog2 m d a) m (plainShape typesF d [a]) (eachElem (fun x e => realElem x.m .log2 (x.src 0 e)))) s
/-- VCLASS (R249). -/
def execVclass (m : BitVec 2) (d a : BitVec 6) (s : State) : Res :=
  settle (vectorOp (.vclass m d a) m (plainShape typesF d [a]) (eachElem (fun x e => classElem x.m (x.src 0 e)))) s
/-- VCONJ (R250). -/
def execVconj (m : BitVec 2) (d a : BitVec 6) (s : State) : Res :=
  settle (vectorOp (.vconj m d a) m (plainShape typesS d [a]) (eachElem (fun x e => conjElem x.m e (x.src 0 e)))) s
/-- VCMPEQ (R246). -/
def execVcmpeq (m : BitVec 2) (d a b : BitVec 6) (s : State) : Res :=
  settle (vectorCompare (.vcmpeq m d a b) 0 m d a b) s
/-- VCMPNE (R246). -/
def execVcmpne (m : BitVec 2) (d a b : BitVec 6) (s : State) : Res :=
  settle (vectorCompare (.vcmpne m d a b) 1 m d a b) s
/-- VCMPLT (R246). -/
def execVcmplt (m : BitVec 2) (d a b : BitVec 6) (s : State) : Res :=
  settle (vectorCompare (.vcmplt m d a b) 2 m d a b) s
/-- VCMPLE (R246). -/
def execVcmple (m : BitVec 2) (d a b : BitVec 6) (s : State) : Res :=
  settle (vectorCompare (.vcmple m d a b) 3 m d a b) s
/-- VMERGE (R247): the guard selects between the sources; no element is inactive. -/
def execVmerge (m : BitVec 2) (d a b : BitVec 6) (s : State) : Res :=
  settle (vectorOp (.vmerge m d a b) m { plainShape typesA d [a, b] with selects := true }
    (fun x => (List.range x.vl).map (fun e => some (if x.act e then x.src 0 e else x.src 1 e, 0#6)))) s

end Sys2Proof.Machine
end

