-- ==== Sys2Proof/Machine/VConvert.lean ====
section
/-!
DEFINITION. Vector conversion and quantisation, major 0x32 (R88 to R95, R251 to R256).
-/

namespace Sys2Proof.Machine

open Sys2Proof

/-- The width of an ETYPE code. -/
def codeWidth (c : Nat) : Nat := ((etypeOf c).map EType.width).getD 8

/-- VCVT (R252): va is read at the source type; registers may coincide only when the widths do. -/
def execVcvt (m : BitVec 2) (d a : BitVec 6) (t : BitVec 4) (s : State) : Res :=
  let ws := codeWidth t.toNat
  let v : VShape := { types := typesAny, dst := d.toNat, srcs := [⟨a.toNat, some ws, 1⟩],
                      apart := if ws = (s.mode m).width then [] else [(d.toNat, a.toNat)], whole := false, selects := false }
  settle (vectorOp (.vcvt m d a t) m v (eachElem (fun x e =>
    match etypeOf t.toNat, etypeOf x.m.etype with
    | some src, some dst => convert src dst x.m.sat x.m.rm (x.src 0 e)
    | _, _ => (0, 0#6)))) s

/-! ## Block scaling (R92 to R95) -/

/-- The float format of a mode; the instructions that use it have checked that there is one. -/
def Mode.fmt (m : Mode) : Fmt :=
  match etypeOf m.etype with
  | some (.flt f) => f
  | _ => fmtF32

/-- The scale byte of a block from the decoded values of its active elements (R93): none when one is a NaN. -/
def blockScale (vals : List FVal) : Option Nat :=
  if vals.any (fun v => match v with | .nan _ => true | _ => false) then none
  else if vals.any (fun v => match v with | .inf _ => true | _ => false) then some 254
  else
    let logs : List Int := vals.filterMap (fun v => match v with
      | .fin _ mag e => if mag = 0 then none else some ((mag.log2 : Int) + e)
      | _ => none)
    match logs with
    | [] => some 127
    | l :: ls => some (max 0 (min 254 (ls.foldl max l - 2 + 127))).toNat

/-- The e2m1 code of a value divided by a power of two (R93). -/
def blockCode (rm : Nat) (scale : Nat) (v : FVal) : Flagged :=
  match v with
  | .fin n mag e => packF fmtE2m1 rm (.fin n mag (e - ((scale : Int) - 127)))
  | x => packF fmtE2m1 rm x

/-- One block: its scale byte and its eight codes (R93). -/
def quantBlock (f : Fmt) (rm : Nat) (els : List (Option Nat)) : Flagged × List Flagged :=
  let vals := els.map (fun o => o.map (decodeF f))
  match blockScale (vals.filterMap id) with
  | none => ((0xFF, flNV), els.map (fun _ => (0, 0#6)))
  | some sc => ((sc, 0#6), vals.map (fun o => match o with
    | some v => blockCode rm sc v
    | none => (0, 0#6)))

/-- The blocks of a VQNT in order (R253). -/
def quantBlocks (x : VIn) : List (Flagged × List Flagged) :=
  (List.range ((x.vl + 7) / 8)).map (fun b =>
    quantBlock x.m.fmt x.m.rm ((List.range 8).map (fun j =>
      if x.act (8 * b + j) then some (x.src 0 (8 * b + j)) else none)))

/-- The registers of an operand over a given number of lanes. -/
def Hart.regsUpTo (h : Hart) (w spec n : Nat) : Regs :=
  if h.perLane spec then .lanes ((List.range n).map (h.laneReg (h.ixOf spec) w)) else h.regsOf w spec

/-- VQNT (R253): codes into vd and scale bytes into vb. -/
def execVqnt (m : BitVec 2) (d a b : BitVec 6) (s : State) : Res := settle (do
  let v : VShape := { types := typesF, dst := d.toNat, srcs := [.plain a], outs := [b.toNat],
                      apart := [(d.toNat, a.toNat), (d.toNat, b.toNat), (a.toNat, b.toNat)], whole := true, selects := false }
  let x ← vectorIn (.vqnt m d a b) m v
  let blocks := quantBlocks x
  let h := (← get).hart
  let n := 8 * blocks.length
  let codes : Elems := (blocks.flatMap (·.2)).map some
  let scales : Elems := blocks.map (fun q => some q.1)
  let per := 2048 / x.w
  let codes' : Elems := quietGroups (codes.from h.startElem) per h.split
  let scales' : Elems := quietGroups (scales.from (h.startElem / 8)) (per / 8) h.split
  let rd := h.regsUpTo x.w d.toNat n
  let rb := h.regsUpTo x.w b.toNat n
  modify (fun t =>
    let g := (t.hart.writeElems rd 4 codes').writeElems rb 8 scales'
    { t with hart := (g.spoil rd 4 per n h.split).spoil rb 8 (per / 8) (n / 8) h.split })
  commitVector [d.toNat, a.toNat, b.toNat] (codes'.flags ||| scales'.flags)) s

/-- VDQNT (R94, R254). -/
def execVdqnt (m : BitVec 2) (d a b : BitVec 6) (s : State) : Res :=
  let v : VShape := { types := typesF, dst := d.toNat, srcs := [⟨a.toNat, some 4, 1⟩, ⟨b.toNat, some 8, 8⟩],
                      apart := [(d.toNat, a.toNat), (d.toNat, b.toNat)], whole := false, selects := false }
  settle (vectorOp (.vdqnt m d a b) m v (eachElem (fun x e =>
    let sc := x.src 1 (e / 8)
    if sc = 0xFF then (x.m.fmt.canonNan, 0#6)
    else match decodeF fmtE2m1 (x.src 0 e) with
      | .fin n mag ex => packF x.m.fmt x.m.rm (.fin n mag (ex + (sc : Int) - 127))
      | y => packF x.m.fmt x.m.rm y))) s

/-- One element of VQI8 (R255). -/
def quantI8 (f : Fmt) (rm : Nat) (scale : FVal) (z : Int) (a : Nat) : Flagged :=
  let v := decodeF f a
  let odd := match scale with
    | .fin _ _ _ => false
    | _ => true
  let p := (mulV v scale).1
  let judged := if odd then p else match v with
    | .fin _ _ _ => p
    | y => y
  match judged with
  | .nan _ => (ofSigned 8 z, flNV)
  | .inf n => (ofSigned 8 (if n then -128 else 127), flNV)
  | .fin n mag e =>
    let (k, inexact) := roundInt rm n mag e
    let (r, fl) := narrow 8 true true (k + z)
    (r, (if inexact then flNX else 0#6) ||| (if fl = 0#6 then 0#6 else flNX ||| flSAT))

/-- VQI8 (R255): it saturates whatever md.SAT holds and never raises the SAT trap (R376). -/
def execVqi8 (m : BitVec 2) (d a b : BitVec 6) (s : State) : Res := settle (do
  let v : VShape := { types := typesF, dst := d.toNat, srcs := [.plain a, ⟨b.toNat, some 64, 4096⟩], apart := [],
                      whole := false, selects := false }
  let x ← vectorIn (.vqi8 m d a b) m v
  let par := x.src 1 0
  let scale := decodeF fmtF32 (bitsOf par 0 32)
  let z := toSigned 8 (bitsOf par 32 8)
  vectorOut v 8 x.w false (eachElem (fun y e => quantI8 y.m.fmt y.m.rm scale z (y.src 0 e)) x)) s

/-- VSHRR (R256): a rounding right shift; it raises no flag. -/
def execVshrr (m : BitVec 2) (d a b : BitVec 6) (s : State) : Res :=
  settle (vectorOp (.vshrr m d a b) m (plainShape typesI d [a, b]) (eachElem (fun x e =>
    match etypeOf x.m.etype with
    | some (.int w sg) =>
      let v := intVal w sg (x.src 0 e)
      let k := bitsOf (x.src 1 e) 0 6
      (ofSigned w (roundInt x.m.rm (decide (v < 0)) v.natAbs (-(k : Int))).1, 0#6)
    | _ => (0, 0#6)))) s

end Sys2Proof.Machine
end

