-- ==== Sys2Proof/Machine/VPermute.lean ====
section
/-!
DEFINITION. Permutes, major 0x34 (R259, R260). They copy bit patterns and raise no flag.
-/

namespace Sys2Proof.Machine

open Sys2Proof

/-- The count of active elements below each element, from element 0 up. -/
def VIn.activeBelow (x : VIn) (e : Nat) : Nat := (List.range e).countP x.act

/-- VSLIDEUP (R259): elements below k keep their values. -/
def execVslideup (m : BitVec 2) (d a : BitVec 6) (b : BitVec 5) (s : State) : Res :=
  let k := (s.getX b).toNat
  settle (vectorOp (.vslideup m d a b) m (permShape d [a]) (fun x =>
    (List.range x.vl).map (fun e =>
      if x.act e then (if k ≤ e then some (x.src 0 (e - k), 0#6) else none)
      else if x.m.zero then some (0, 0#6) else none))) s

/-- VSLIDEDN (R259). -/
def execVslidedn (m : BitVec 2) (d a : BitVec 6) (b : BitVec 5) (s : State) : Res :=
  let k := (s.getX b).toNat
  settle (vectorOp (.vslidedn m d a b) m (permShape d [a])
    (eachElem (fun x e => (if e + k < x.vl then x.src 0 (e + k) else 0, 0#6)))) s

/-- VGATHR (R259). -/
def execVgathr (m : BitVec 2) (d a b : BitVec 6) (s : State) : Res :=
  settle (vectorOp (.vgathr m d a b) m (permShape d [a, b])
    (eachElem (fun x e => (if x.src 1 e < x.vl then x.src 0 (x.src 1 e) else 0, 0#6)))) s

/-- VCOMPRESS (R260). -/
def execVcompress (m : BitVec 2) (d a : BitVec 6) (s : State) : Res :=
  settle (vectorOp (.vcompress m d a) m (permShape d [a]) (fun x =>
    let packed := (((List.range x.vl).filter x.act).map (fun e => some (x.src 0 e, 0#6)))
    packed ++ List.replicate (x.vl - packed.length) (if x.m.zero then some (0, 0#6) else none))) s

/-- VEXPAND (R259). -/
def execVexpand (m : BitVec 2) (d a : BitVec 6) (s : State) : Res :=
  settle (vectorOp (.vexpand m d a) m (permShape d [a])
    (eachElem (fun x e => (x.src 0 (x.activeBelow e), 0#6)))) s

/-- VBCAST (R259). -/
def execVbcast (m : BitVec 2) (d : BitVec 6) (a : BitVec 5) (s : State) : Res :=
  let v := (s.getX a).toNat
  settle (vectorOp (.vbcast m d a) m (permShape d []) (eachElem (fun x _ => (bitsOf v 0 x.w, 0#6)))) s

/-- VIOTA (R259): the count wraps at the width. -/
def execViota (m : BitVec 2) (d : BitVec 6) (s : State) : Res :=
  settle (vectorOp (.viota m d) m (permShape d [])
    (eachElem (fun x e => (x.activeBelow e % 2 ^ x.w, 0#6)))) s

end Sys2Proof.Machine
end

