-- ==== Sys2Proof/Machine/VReduce.lean ====
section
/-!
DEFINITION. Reductions and scans, major 0x33, along the fixed tree (R106 to R108, R257, R258), and the mask group,
major 0x35 (R261).
-/

namespace Sys2Proof.Machine

open Sys2Proof

/-- The combination of two nodes: an empty one passes the other through, exactly as it stands (R106). So a lone active NaN
is delivered unchanged and raises nothing, though R83 makes every delivered NaN canonical: R106 is the rule of reductions
(log entry 56). -/
def combineNode (f : Nat → Nat → Flagged) : Option Flagged → Option Flagged → Option Flagged
  | none, y => y
  | x, none => x
  | some x, some y => let r := f x.1 y.1; some (r.1, r.2 ||| x.2 ||| y.2)

/-- The nodes of one level above a row of nodes (R106). -/
def nextLevel (f : Nat → Nat → Flagged) : List (Option Flagged) → List (Option Flagged)
  | a :: b :: l => combineNode f a b :: nextLevel f l
  | l => l

/-- The root above a row of nodes, in at most `n` levels. -/
def treeRoot (f : Nat → Nat → Flagged) : Nat → List (Option Flagged) → Option Flagged
  | 0, l => l.headD none
  | n + 1, l => match l with
    | [] => none
    | [x] => x
    | l => treeRoot f n (nextLevel f l)

/-- Aligned nodes named by the set bits of a count, most significant first, combined from left to right (R107). -/
def scanOver (f : Nat → Nat → Flagged) (leaves : List (Option Flagged)) (count : Nat) : Option Flagged :=
  ((List.range 13).reverse.foldl (fun (acc : Option Flagged × Nat) (b : Nat) =>
    if count.testBit b then
      (combineNode f acc.1 (treeRoot f 13 ((leaves.drop acc.2).take (2 ^ b))), acc.2 + 2 ^ b)
    else acc) (none, 0)).1

/-- The leaves of the tree: inactive elements are empty. -/
def VIn.leaves (x : VIn) : List (Option Flagged) :=
  (List.range x.vl).map (fun e => if x.act e then some (x.src 0 e, 0#6) else none)

/-- A reduction into element 0 (R257). One resumed above element 0 has written it and writes nothing more (R369, R371). A
clamp at an inner node reports element 0, the result's, in FAULTSTRIDE (R80; log entry 55). -/
def vectorReduce (i : Instr) (md : BitVec 2) (types : Nat → Bool) (d a : BitVec 6) (empty : Mode → Nat)
    (f : Mode → Nat → Nat → Flagged) : M Unit := do
  let v := plainShape types d [a]
  let x ← vectorIn i md v
  let r := (treeRoot (f x.m) 13 x.leaves).getD (empty x.m, 0#6)
  vectorOut v x.w x.w x.m.sat (if x.vl = 0 then [] else [some r])

/-- What a maximum or minimum over nothing gives (R257). -/
def emptyExtreme (m : Mode) (wantMax : Bool) : Nat :=
  match etypeOf m.etype with
  | some (.int w sg) => ofSigned w (if wantMax then intMin w sg else intMax w sg)
  | some (.flt f) => (if wantMax then f.signBit else 0) + f.infCode
  | none => 0

/-- VREDSUM (R257). -/
def execVredsum (m : BitVec 2) (d a : BitVec 6) (s : State) : Res :=
  settle (vectorReduce (.vredsum m d a) m typesA d a (fun _ => 0) addElem) s
/-- VREDMAX (R257). -/
def execVredmax (m : BitVec 2) (d a : BitVec 6) (s : State) : Res :=
  settle (vectorReduce (.vredmax m d a) m typesA d a (emptyExtreme · true) (pickElem · true)) s
/-- VREDMIN (R257). -/
def execVredmin (m : BitVec 2) (d a : BitVec 6) (s : State) : Res :=
  settle (vectorReduce (.vredmin m d a) m typesA d a (emptyExtreme · false) (pickElem · false)) s
/-- VREDAND (R257). -/
def execVredand (m : BitVec 2) (d a : BitVec 6) (s : State) : Res :=
  settle (vectorReduce (.vredand m d a) m typesI d a (fun k => 2 ^ k.width - 1) (fun _ x y => (x &&& y, 0#6))) s
/-- VREDOR (R257). -/
def execVredor (m : BitVec 2) (d a : BitVec 6) (s : State) : Res :=
  settle (vectorReduce (.vredor m d a) m typesI d a (fun _ => 0) (fun _ x y => (x ||| y, 0#6))) s

/-- VSCANSUM (R258): each active element receives the sum over the active elements up to it. -/
def execVscansum (m : BitVec 2) (d a : BitVec 6) (s : State) : Res :=
  let v : VShape := { plainShape typesA d [a] with apart := [(d.toNat, a.toNat)] }
  settle (vectorOp (.vscansum m d a) m v (fun x =>
    let leaves := x.leaves
    eachElem (fun y e => (scanOver (addElem y.m) leaves (e + 1)).getD (0, 0#6)) x)) s

/-! ## Mask instructions (R261) -/

/-- The checks of a mask instruction, which ignores the guard, and its vl. -/
def maskIn (i : Instr) (srcs : List (BitVec 6)) : M Nat := do
  if !i.wf then M.illegal i
  else
    let h := (← get).hart
    let n := h.vl
    M.consume (srcs.flatMap (fun a => h.poisonM a.toNat n))
    return n

/-- A mask result bit by bit below vl. -/
def maskOp (i : Instr) (d : BitVec 6) (srcs : List (BitVec 6)) (f : Hart → Nat → Bool) : M Unit := do
  let n ← maskIn i srcs
  modify (fun s =>
    let bits := (List.range n).map (fun e => if e < s.hart.startElem then none else some (f s.hart e))
    { s with hart := (s.hart.writeBits d.toNat bits).spoilBits d.toNat 2048 n s.hart.split })
  commitVector [] 0#6

/-- MAND (R261). -/
def execMand (m : BitVec 2) (d a b : BitVec 6) (s : State) : Res :=
  settle (maskOp (.mand m d a b) d [a, b] (fun h e => (h.getM a.toNat).getLsbD e && (h.getM b.toNat).getLsbD e)) s
/-- MOR (R261). -/
def execMor (m : BitVec 2) (d a b : BitVec 6) (s : State) : Res :=
  settle (maskOp (.mor m d a b) d [a, b] (fun h e => (h.getM a.toNat).getLsbD e || (h.getM b.toNat).getLsbD e)) s
/-- MXOR (R261). -/
def execMxor (m : BitVec 2) (d a b : BitVec 6) (s : State) : Res :=
  settle (maskOp (.mxor m d a b) d [a, b] (fun h e => (h.getM a.toNat).getLsbD e != (h.getM b.toNat).getLsbD e)) s
/-- MNOT (R261). -/
def execMnot (m : BitVec 2) (d a : BitVec 6) (s : State) : Res :=
  settle (maskOp (.mnot m d a) d [a] (fun h e => !((h.getM a.toNat).getLsbD e))) s

/-- MPOP (R261). -/
def execMpop (m : BitVec 2) (d : BitVec 5) (a : BitVec 6) (s : State) : Res := settle (do
  let n ← maskIn (.mpop m d a) [a]
  let v := ((← get).hart.getM a.toNat).toNat
  M.result d (BitVec.ofNat 64 (popCount n v))) s
/-- MFIRST (R261). -/
def execMfirst (m : BitVec 2) (d : BitVec 5) (a : BitVec 6) (s : State) : Res := settle (do
  let n ← maskIn (.mfirst m d a) [a]
  let v := ((← get).hart.getM a.toNat).toNat
  M.result d (match lowBit n v with
    | some e => BitVec.ofNat 64 e
    | none => ~~~0#64)) s
/-- MSETVL (R261): vl shortens to end at the first set bit. -/
def execMsetvl (m : BitVec 2) (d : BitVec 5) (a : BitVec 6) (s : State) : Res := settle (do
  let n ← maskIn (.msetvl m d a) [a]
  let v := ((← get).hart.getM a.toNat).toNat
  let vl := match lowBit n v with
    | some e => e + 1
    | none => n
  modify (fun t => { t with hart := { t.hart with vl := vl } })
  M.result d (BitVec.ofNat 64 vl)) s

end Sys2Proof.Machine
end

