-- ==== Sys2Proof/Machine/VSetup.lean ====
section
/-!
DEFINITION. Vector set-up, major 0x30 (R235 to R244).
-/

namespace Sys2Proof.Machine

open Sys2Proof

/-- The open furlong commits (R237, R239); stores whose page has gone since they were checked are dropped. -/
def M.commit : M Unit := fun s =>
  match commitFurlong s with
  | .ok (_, t) => .ok ((), t)
  | .error (.wait t) => .error (.stall t)
  | .error _ => .ok ((), { s with hart := { s.hart with furlong := none, strip := [] } })

/-- The furlong that a VSETL opens, with its snapshot (R237). -/
def openFurlong (h : Hart) (pc : Word) (names : Word) (rewound : Bool) : Furlong :=
  { start := pc, snapMask := names.setWidth 32 &&& ~~~1#32, snapX := h.x, snapMd := h.md, snapIx := h.ix,
    xRead := 0, xWritten := 0, vRead := 0, vWritten := 0, mRead := 0, mWritten := 0, vGranules := 0, mGranules := 0,
    rewound := rewound, again := false }

/-- VSETL (R236, R237). -/
def execVsetl (d a b : BitVec 5) (s : State) : Res := settle (do
  let s ← get
  let n := min (s.getX a).toNat s.hart.vlMax
  let names := s.getX b
  let pc := s.hart.pc
  let set1 := fun (t : State) => { t with hart := { t.hart.setX d (BitVec.ofNat 64 n) with vl := n } }
  if !s.frw then
    modify (fun t => (set1 t).advance)
  else
    let again := s.hart.furlong.any (·.again)
    M.commit
    modify (fun t =>
      let u := set1 t
      { u with hart := { u.hart with furlong := some (openFurlong u.hart pc names again), strip := [] } }.advance)) s

/-- VDECL (R241). Registers beyond the new count are lost; when they come back they read zero, with progress index VLMAX. -/
def execVdecl (d a : BitVec 5) (s : State) : Res :=
  let n := nregsOf (bitsOf (s.getX a).toNat 0 2)
  let h := s.hart
  -- read claims of queued matrix operations are released first (R310)
  if h.matQ ≠ [] then .next s.hold
  else if n ≤ h.nregs then
    let v := (List.range 48).foldl (fun (v : Vector VReg 48) (r : Nat) =>
      if hr : r < 48 then (if n ≤ r then v.set r 0#262144 else v) else v) h.v
    .next ({ s with hart := { h with nregs := n, v := v, vPsn := h.vPsn.filter (fun p => p.1 < n) } }.result d 0#64)
  else if (n - h.nregs) * h.vlMax * 8 ≤ s.freeFile h.place.die h.place.core then
    let pi := (List.range 48).foldl (fun (v : Vector Nat 48) (r : Nat) =>
      if hr : r < 48 then (if h.nregs ≤ r then v.set r h.vlMax else v) else v) h.vPi
    .next ({ s with hart := { h with nregs := n, vPi := pi } }.result d 0#64)
  else .next (s.result d 1#64)

/-- A value that no mode register may hold (R175, R242). -/
def modeReserved (v : BitVec 32) : Bool :=
  let n := v.toNat
  bitsOf n 18 14 != 0 || decide (bitsOf n 0 4 ≥ 14) || decide (bitsOf n 4 3 ≥ 5)
    || (decide (12 ≤ bitsOf n 7 4) && decide (bitsOf n 7 4 ≤ 14))

/-- VMODE (R242). -/
def execVmode (m : BitVec 2) (d a : BitVec 5) (s : State) : Res :=
  let v : BitVec 32 := (s.getX a).setWidth 32
  if modeReserved v then .next (s.raise (s.illegalVals (wordOf (.vmode m d a))))
  else .next ({ s with hart := s.hart.setMd m v }.result d (zext (s.hart.getMd m)))

/-- Changes an index register and returns its old value (R243). -/
def State.changeIx (s : State) (n : BitVec 4) (d : BitVec 5) (v : Word) : State :=
  { s with hart := s.hart.setIx n v }.result d (s.hart.getIx n)

/-- A word with the field of `w` bits at `lo` taken from the low bits of a value. -/
def putField (old : Word) (lo w : Nat) (v : Word) : Word :=
  let m : Word := BitVec.ofNat 64 (2 ^ w - 1) <<< lo
  (old &&& ~~~m) ||| ((v <<< lo) &&& m)

/-- IXSET (R243). -/
def execIxset (n : BitVec 4) (a d : BitVec 5) (s : State) : Res :=
  .next (s.changeIx n d (putField (s.hart.getIx n) 0 18 (s.getX a)))
/-- IXBND (R243). -/
def execIxbnd (n : BitVec 4) (a d : BitVec 5) (s : State) : Res :=
  .next (s.changeIx n d (putField (s.hart.getIx n) 6 6 (s.getX a)))
/-- IXSTEP (R243). -/
def execIxstep (n : BitVec 4) (a d : BitVec 5) (s : State) : Res :=
  .next (s.changeIx n d (putField (s.hart.getIx n) 18 4 (s.getX a)))
/-- IXLANE (R243). -/
def execIxlane (n : BitVec 4) (a d : BitVec 5) (s : State) : Res :=
  .next (s.changeIx n d (putField (putField (s.hart.getIx n) 23 6 (s.getX a)) 22 1 (s.getX a >>> 6)))

/-- VMVX (R244): one element into a scalar register; it ignores vl and the guard. That nothing is resolved and no bound is checked
from element VLMAX on is read of the per-lane mode, which the sentences before it are about (log entry 72). -/
def execVmvx (m : BitVec 2) (d : BitVec 5) (v : BitVec 6) (b : BitVec 5) (s : State) : Res := settle (do
  let s ← get
  let md := s.mode m
  let h := s.hart
  let w := md.width
  let i := (s.getX b).toNat
  let spec := v.toNat
  let lane := h.perLane spec
  let fails := if lane && decide (i ≥ h.vlMax) then none else h.regFails w spec i
  match fails with
  | some r => M.vcause 9#8 (if lane then BitVec.ofNat 64 i else 0#64) (BitVec.ofNat 64 r) (BitVec.ofNat 64 spec)
  | none =>
    let r := if spec ≤ 47 then spec
      else if lane then h.laneReg (h.ixOf spec) w i else ixBase (h.ixOf spec) + ixCur (h.ixOf spec)
    if i < h.vlMax then M.consume (h.poisonLanes w [i] [spec] ++ h.poisonV (.one r) w [i])
    let n := if i < h.vlMax then getElt (h.getV r) w i else 0
    let x := match etypeOf md.etype with
      | some (.int k true) => BitVec.ofInt 64 (toSigned k n)
      | _ => BitVec.ofNat 64 n
    modify (fun t => { t with hart := t.hart.setX d x })
    commitVector [spec] 0#6) s

/-- VMVV (R244): copies bit patterns under the guard. -/
def execVmvv (m : BitVec 2) (d a : BitVec 6) (s : State) : Res :=
  settle (vectorOp (.vmvv m d a) m (plainShape typesAny d [a]) (eachElem (fun x e => (x.src 0 e, 0#6)))) s

end Sys2Proof.Machine
end

