-- ==== Sys2Proof/Machine/Dispatch.lean ====
section
/-!
DEFINITION. The one dispatch of the machine: every constructor of Instr to its meaning.
-/

namespace Sys2Proof.Machine

open Sys2Proof

/-- What an instruction, a micro-operation or an event does to a state. -/
def exec (i : Instr) (s : State) : Host.Outcome State Fault Refusal :=
  match i with
  | .add d a b => Sys2Proof.Machine.execAdd d a b s
  | .sub d a b => Sys2Proof.Machine.execSub d a b s
  | .and d a b => Sys2Proof.Machine.execAnd d a b s
  | .or d a b => Sys2Proof.Machine.execOr d a b s
  | .xor d a b => Sys2Proof.Machine.execXor d a b s
  | .sll d a b => Sys2Proof.Machine.execSll d a b s
  | .srl d a b => Sys2Proof.Machine.execSrl d a b s
  | .sra d a b => Sys2Proof.Machine.execSra d a b s
  | .slt d a b => Sys2Proof.Machine.execSlt d a b s
  | .sltu d a b => Sys2Proof.Machine.execSltu d a b s
  | .min d a b => Sys2Proof.Machine.execMin d a b s
  | .max d a b => Sys2Proof.Machine.execMax d a b s
  | .minu d a b => Sys2Proof.Machine.execMinu d a b s
  | .maxu d a b => Sys2Proof.Machine.execMaxu d a b s
  | .clz d a => Sys2Proof.Machine.execClz d a s
  | .ctz d a => Sys2Proof.Machine.execCtz d a s
  | .popc d a => Sys2Proof.Machine.execPopc d a s
  | .mul d a b => Sys2Proof.Machine.execMul d a b s
  | .mulh d a b => Sys2Proof.Machine.execMulh d a b s
  | .mulhu d a b => Sys2Proof.Machine.execMulhu d a b s
  | .div d a b => Sys2Proof.Machine.execDiv d a b s
  | .divu d a b => Sys2Proof.Machine.execDivu d a b s
  | .rem d a b => Sys2Proof.Machine.execRem d a b s
  | .remu d a b => Sys2Proof.Machine.execRemu d a b s
  | .addi d a imm => Sys2Proof.Machine.execAddi d a imm s
  | .andi d a imm => Sys2Proof.Machine.execAndi d a imm s
  | .ori d a imm => Sys2Proof.Machine.execOri d a imm s
  | .xori d a imm => Sys2Proof.Machine.execXori d a imm s
  | .slti d a imm => Sys2Proof.Machine.execSlti d a imm s
  | .sltiu d a imm => Sys2Proof.Machine.execSltiu d a imm s
  | .slli d a sr => Sys2Proof.Machine.execSlli d a sr s
  | .srli d a sr => Sys2Proof.Machine.execSrli d a sr s
  | .srai d a sr => Sys2Proof.Machine.execSrai d a sr s
  | .lui d imm => Sys2Proof.Machine.execLui d imm s
  | .auipc d imm => Sys2Proof.Machine.execAuipc d imm s
  | .jal d imm => Sys2Proof.Machine.execJal d imm s
  | .jalr d a imm => Sys2Proof.Machine.execJalr d a imm s
  | .beq a b imm => Sys2Proof.Machine.execBeq a b imm s
  | .bne a b imm => Sys2Proof.Machine.execBne a b imm s
  | .blt a b imm => Sys2Proof.Machine.execBlt a b imm s
  | .bge a b imm => Sys2Proof.Machine.execBge a b imm s
  | .bltu a b imm => Sys2Proof.Machine.execBltu a b imm s
  | .bgeu a b imm => Sys2Proof.Machine.execBgeu a b imm s
  | .lb d a r imm => Sys2Proof.Machine.execLb d a r imm s
  | .lh d a r imm => Sys2Proof.Machine.execLh d a r imm s
  | .lw d a r imm => Sys2Proof.Machine.execLw d a r imm s
  | .ld d a r imm => Sys2Proof.Machine.execLd d a r imm s
  | .lbu d a r imm => Sys2Proof.Machine.execLbu d a r imm s
  | .lhu d a r imm => Sys2Proof.Machine.execLhu d a r imm s
  | .lwu d a r imm => Sys2Proof.Machine.execLwu d a r imm s
  | .ldacq d a r o sr => Sys2Proof.Machine.execLdacq d a r o sr s
  | .sb b a imm => Sys2Proof.Machine.execSb b a imm s
  | .sh b a imm => Sys2Proof.Machine.execSh b a imm s
  | .sw b a imm => Sys2Proof.Machine.execSw b a imm s
  | .sd b a imm => Sys2Proof.Machine.execSd b a imm s
  | .sdrel b a o sr => Sys2Proof.Machine.execSdrel b a o sr s
  | .ldref d a r o q sr => Sys2Proof.Machine.execLdref d a r o q sr s
  | .sdref b a o => Sys2Proof.Machine.execSdref b a o s
  | .spub b a o sr => Sys2Proof.Machine.execSpub b a o sr s
  | .rtag d a imm => Sys2Proof.Machine.execRtag d a imm s
  | .objinit sr a imm => Sys2Proof.Machine.execObjinit sr a imm s
  | .amoadd d a b m l q sr => Sys2Proof.Machine.execAmoadd d a b m l q sr s
  | .amoswap d a b m l q sr => Sys2Proof.Machine.execAmoswap d a b m l q sr s
  | .amocas d a b m l q sr => Sys2Proof.Machine.execAmocas d a b m l q sr s
  | .amomin d a b m l q sr => Sys2Proof.Machine.execAmomin d a b m l q sr s
  | .amomax d a b m l q sr => Sys2Proof.Machine.execAmomax d a b m l q sr s
  | .amominu d a b m l q sr => Sys2Proof.Machine.execAmominu d a b m l q sr s
  | .amomaxu d a b m l q sr => Sys2Proof.Machine.execAmomaxu d a b m l q sr s
  | .amoand d a b m l q sr => Sys2Proof.Machine.execAmoand d a b m l q sr s
  | .amoor d a b m l q sr => Sys2Proof.Machine.execAmoor d a b m l q sr s
  | .amoxor d a b m l q sr => Sys2Proof.Machine.execAmoxor d a b m l q sr s
  | .alrb => Sys2Proof.Machine.execAlrb s
  | .alre l q sr => Sys2Proof.Machine.execAlre l q sr s
  | .fence k sr => Sys2Proof.Machine.execFence k sr s
  | .vdrain => Sys2Proof.Machine.execVdrain s
  | .binit n => Sys2Proof.Machine.execBinit n s
  | .barr d n => Sys2Proof.Machine.execBarr d n s
  | .bwait a n => Sys2Proof.Machine.execBwait a n s
  | .ljoin d a => Sys2Proof.Machine.execLjoin d a s
  | .lleave => Sys2Proof.Machine.execLleave s
  | .waitc d a k => Sys2Proof.Machine.execWaitc d a k s
  | .spalloc d a => Sys2Proof.Machine.execSpalloc d a s
  | .spfree a => Sys2Proof.Machine.execSpfree a s
  | .ecall => Sys2Proof.Machine.execEcall s
  | .ebreak => Sys2Proof.Machine.execEbreak s
  | .eret => Sys2Proof.Machine.execEret s
  | .wfi => Sys2Proof.Machine.execWfi s
  | .yield => Sys2Proof.Machine.execYield s
  | .halt => Sys2Proof.Machine.execHalt s
  | .csrr d c => Sys2Proof.Machine.execCsrr d c s
  | .csrw d a c => Sys2Proof.Machine.execCsrw d a c s
  | .csrs d a c => Sys2Proof.Machine.execCsrs d a c s
  | .csrc d a c => Sys2Proof.Machine.execCsrc d a c s
  | .vsetl d a b => Sys2Proof.Machine.execVsetl d a b s
  | .vdecl d a => Sys2Proof.Machine.execVdecl d a s
  | .vmode m d a => Sys2Proof.Machine.execVmode m d a s
  | .ixset n a d => Sys2Proof.Machine.execIxset n a d s
  | .ixbnd n a d => Sys2Proof.Machine.execIxbnd n a d s
  | .ixstep n a d => Sys2Proof.Machine.execIxstep n a d s
  | .ixlane n a d => Sys2Proof.Machine.execIxlane n a d s
  | .vmvx m d v b => Sys2Proof.Machine.execVmvx m d v b s
  | .vmvv m d a => Sys2Proof.Machine.execVmvv m d a s
  | .vadd m d a b => Sys2Proof.Machine.execVadd m d a b s
  | .vsub m d a b => Sys2Proof.Machine.execVsub m d a b s
  | .vmul m d a b => Sys2Proof.Machine.execVmul m d a b s
  | .vmac m d a b => Sys2Proof.Machine.execVmac m d a b s
  | .vnmac m d a b => Sys2Proof.Machine.execVnmac m d a b s
  | .vmin m d a b => Sys2Proof.Machine.execVmin m d a b s
  | .vmax m d a b => Sys2Proof.Machine.execVmax m d a b s
  | .vabs m d a => Sys2Proof.Machine.execVabs m d a s
  | .vneg m d a => Sys2Proof.Machine.execVneg m d a s
  | .vand m d a b => Sys2Proof.Machine.execVand m d a b s
  | .vor m d a b => Sys2Proof.Machine.execVor m d a b s
  | .vxor m d a b => Sys2Proof.Machine.execVxor m d a b s
  | .vsll m d a b => Sys2Proof.Machine.execVsll m d a b s
  | .vsrl m d a b => Sys2Proof.Machine.execVsrl m d a b s
  | .vsra m d a b => Sys2Proof.Machine.execVsra m d a b s
  | .vcmpeq m d a b => Sys2Proof.Machine.execVcmpeq m d a b s
  | .vcmpne m d a b => Sys2Proof.Machine.execVcmpne m d a b s
  | .vcmplt m d a b => Sys2Proof.Machine.execVcmplt m d a b s
  | .vcmple m d a b => Sys2Proof.Machine.execVcmple m d a b s
  | .vmerge m d a b => Sys2Proof.Machine.execVmerge m d a b s
  | .vdiv m d a b => Sys2Proof.Machine.execVdiv m d a b s
  | .vsqrt m d a => Sys2Proof.Machine.execVsqrt m d a s
  | .vrcp m d a => Sys2Proof.Machine.execVrcp m d a s
  | .vrsq m d a => Sys2Proof.Machine.execVrsq m d a s
  | .vexp2 m d a => Sys2Proof.Machine.execVexp2 m d a s
  | .vlog2 m d a => Sys2Proof.Machine.execVlog2 m d a s
  | .vclass m d a => Sys2Proof.Machine.execVclass m d a s
  | .vconj m d a => Sys2Proof.Machine.execVconj m d a s
  | .vcvt m d a t => Sys2Proof.Machine.execVcvt m d a t s
  | .vqnt m d a b => Sys2Proof.Machine.execVqnt m d a b s
  | .vdqnt m d a b => Sys2Proof.Machine.execVdqnt m d a b s
  | .vqi8 m d a b => Sys2Proof.Machine.execVqi8 m d a b s
  | .vshrr m d a b => Sys2Proof.Machine.execVshrr m d a b s
  | .vredsum m d a => Sys2Proof.Machine.execVredsum m d a s
  | .vredmax m d a => Sys2Proof.Machine.execVredmax m d a s
  | .vredmin m d a => Sys2Proof.Machine.execVredmin m d a s
  | .vredand m d a => Sys2Proof.Machine.execVredand m d a s
  | .vredor m d a => Sys2Proof.Machine.execVredor m d a s
  | .vscansum m d a => Sys2Proof.Machine.execVscansum m d a s
  | .vslideup m d a b => Sys2Proof.Machine.execVslideup m d a b s
  | .vslidedn m d a b => Sys2Proof.Machine.execVslidedn m d a b s
  | .vgathr m d a b => Sys2Proof.Machine.execVgathr m d a b s
  | .vcompress m d a => Sys2Proof.Machine.execVcompress m d a s
  | .vexpand m d a => Sys2Proof.Machine.execVexpand m d a s
  | .vbcast m d a => Sys2Proof.Machine.execVbcast m d a s
  | .viota m d => Sys2Proof.Machine.execViota m d s
  | .mand m d a b => Sys2Proof.Machine.execMand m d a b s
  | .mor m d a b => Sys2Proof.Machine.execMor m d a b s
  | .mxor m d a b => Sys2Proof.Machine.execMxor m d a b s
  | .mnot m d a => Sys2Proof.Machine.execMnot m d a s
  | .mpop m d a => Sys2Proof.Machine.execMpop m d a s
  | .mfirst m d a => Sys2Proof.Machine.execMfirst m d a s
  | .msetvl m d a => Sys2Proof.Machine.execMsetvl m d a s
  | .vld m d a r => Sys2Proof.Machine.execVld m d a r s
  | .vlds m d a b r => Sys2Proof.Machine.execVlds m d a b r s
  | .vldg m d a imm r => Sys2Proof.Machine.execVldg m d a imm r s
  | .vldseg m d a n r => Sys2Proof.Machine.execVldseg m d a n r s
  | .vst m d a => Sys2Proof.Machine.execVst m d a s
  | .vsts m d a b => Sys2Proof.Machine.execVsts m d a b s
  | .vstsc m d a imm => Sys2Proof.Machine.execVstsc m d a imm s
  | .vstseg m d a n => Sys2Proof.Machine.execVstseg m d a n s
  | .mmode d a => Sys2Proof.Machine.execMmode d a s
  | .opa m y x n a b => Sys2Proof.Machine.execOpa m y x n a b s
  | .azero n => Sys2Proof.Machine.execAzero n s
  | .acld n a b => Sys2Proof.Machine.execAcld n a b s
  | .acrd m n d c b => Sys2Proof.Machine.execAcrd m n d c b s
  | .acst m n a c => Sys2Proof.Machine.execAcst m n a c s
  | .mexit => Sys2Proof.Machine.execMexit s
  | .cbld k m p a => Sys2Proof.Machine.execCbld k m p a s
  | .tbld m f d v c => Sys2Proof.Machine.execTbld m f d v c s
  | .lka k m a => Sys2Proof.Machine.execLka k m a s
  | .nbset d m a => Sys2Proof.Machine.execNbset d m a s
  | .nbld k m a => Sys2Proof.Machine.execNbld k m a s
  | .nbrun k m a => Sys2Proof.Machine.execNbrun k m a s
  | .nbstat d m c => Sys2Proof.Machine.execNbstat d m c s
  | .nbdrain sr c m a => Sys2Proof.Machine.execNbdrain sr c m a s
  | .tcopy k sr => Sys2Proof.Machine.execTcopy k sr s
  | .tstat d sr c => Sys2Proof.Machine.execTstat d sr c s
  | .poolMarker n => Sys2Proof.Machine.execPoolMarker n s
  | .rend => Sys2Proof.Machine.execRend s
  | .ract n imm => Sys2Proof.Machine.execRact n imm s
  | .radd n imm w => Sys2Proof.Machine.execRadd n imm w s
  | .rshadd n imm w sr g => Sys2Proof.Machine.execRshadd n imm w sr g s
  | .rcopy n imm => Sys2Proof.Machine.execRcopy n imm s
  | .rclr n imm => Sys2Proof.Machine.execRclr n imm s
  | .racc n imm w => Sys2Proof.Machine.execRacc n imm w s
  | .rlka n imm => Sys2Proof.Machine.execRlka n imm s
  | .rbr t => Sys2Proof.Machine.execRbr t s
  | .rloop c t => Sys2Proof.Machine.execRloop c t s
  | .rsync => Sys2Proof.Machine.execRsync s
  | .powerGood img => Sys2Proof.Machine.execPowerGood img s
  | .stackManagersReady img => Sys2Proof.Machine.execStackManagersReady img s
  | .ordinaryRequestDataMoved bank => Sys2Proof.Machine.execOrdinaryRequestDataMoved bank s
  | .notifyWrite die slot bytes value writer => Sys2Proof.Machine.execNotifyWrite die slot bytes value writer s
  | .queueMap die qid => Sys2Proof.Machine.execQueueMap die qid s
  | .queueIdleTimeout die slot => Sys2Proof.Machine.execQueueIdleTimeout die slot s
  | .packetEnterWindow die slot => Sys2Proof.Machine.execPacketEnterWindow die slot s
  | .packetLaunch die slot => Sys2Proof.Machine.execPacketLaunch die slot s
  | .packetComplete die slot idx => Sys2Proof.Machine.execPacketComplete die slot idx s
  | .dispatch die => Sys2Proof.Machine.execDispatch die s
  | .priorityPreemptTimeout who => Sys2Proof.Machine.execPriorityPreemptTimeout who s
  | .hartPreempt uid => Sys2Proof.Machine.execHartPreempt uid s
  | .hartPromotion uid => Sys2Proof.Machine.execHartPromotion uid s
  | .vrfBankDrowsy die core bank => Sys2Proof.Machine.execVrfBankDrowsy die core bank s
  | .vrfRefreshStep die core bank => Sys2Proof.Machine.execVrfRefreshStep die core bank s
  | .wfiTimeout uid => Sys2Proof.Machine.execWfiTimeout uid s
  | .kernelWatchdogExpiry uid => Sys2Proof.Machine.execKernelWatchdogExpiry uid s
  | .watchdogGraceExpiry uid => Sys2Proof.Machine.execWatchdogGraceExpiry uid s
  | .trapEntry uid vals => Sys2Proof.Machine.execTrapEntry uid vals s
  | .pageFaultService uid entries backingOk => Sys2Proof.Machine.execPageFaultService uid entries backingOk s
  | .furlongCommit uid => Sys2Proof.Machine.execFurlongCommit uid s
  | .furlongRewind uid => Sys2Proof.Machine.execFurlongRewind uid s
  | .jobEndByError asid uid => Sys2Proof.Machine.execJobEndByError asid uid s
  | .memoryFrontRequest die asid va acc => Sys2Proof.Machine.execMemoryFrontRequest die asid va acc s
  | .bloomSliceClear stack slice => Sys2Proof.Machine.execBloomSliceClear stack slice s
  | .atomicAtHome pa op operand expected memSide => Sys2Proof.Machine.execAtomicAtHome pa op operand expected memSide s
  | .regionAtHome uid => Sys2Proof.Machine.execRegionAtHome uid s
  | .walkStart id => Sys2Proof.Machine.execWalkStart id s
  | .walkObjectVisit id => Sys2Proof.Machine.execWalkObjectVisit id s
  | .walkComplete id => Sys2Proof.Machine.execWalkComplete id s
  | .bankCommandStart bank => Sys2Proof.Machine.execBankCommandStart bank s
  | .bankCommandComplete cmd => Sys2Proof.Machine.execBankCommandComplete cmd s
  | .reductionDrain cmd => Sys2Proof.Machine.execReductionDrain cmd s
  | .rowOperationEnd bank => Sys2Proof.Machine.execRowOperationEnd bank s
  | .bankOrdinaryRequest bank req => Sys2Proof.Machine.execBankOrdinaryRequest bank req s
  | .suspensionWindowEnd bank => Sys2Proof.Machine.execSuspensionWindowEnd bank s
  | .arbitrationWindowBoundary stack => Sys2Proof.Machine.execArbitrationWindowBoundary stack s
  | .powerBudgetExceeded who => Sys2Proof.Machine.execPowerBudgetExceeded who s
  | .matrixOperation uid => Sys2Proof.Machine.execMatrixOperation uid s
  | .tcopyRow id => Sys2Proof.Machine.execTcopyRow id s
  | .tcopyComplete id => Sys2Proof.Machine.execTcopyComplete id s
  | .tcopyStop id cause va => Sys2Proof.Machine.execTcopyStop id cause va s
  | .errorBankEvent bankId ev => Sys2Proof.Machine.execErrorBankEvent bankId ev s
  | .errorBankReadAndClear bankId act => Sys2Proof.Machine.execErrorBankReadAndClear bankId act s
  | .errorCountWindowEnd bankId => Sys2Proof.Machine.execErrorCountWindowEnd bankId s
  | .completionTimeout key eseq => Sys2Proof.Machine.execCompletionTimeout key eseq s
  | .postedWriteTimeout key eseq => Sys2Proof.Machine.execPostedWriteTimeout key eseq s
  | .pcieAtomicopCompletion uid ok old => Sys2Proof.Machine.execPcieAtomicopCompletion uid ok old s
  | .repairCommit idx => Sys2Proof.Machine.execRepairCommit idx s
  | .coreReplace die core => Sys2Proof.Machine.execCoreReplace die core s
  | .rowSpareCopy bank row => Sys2Proof.Machine.execRowSpareCopy bank row s
  | .channelCopy part target => Sys2Proof.Machine.execChannelCopy part target s
  | .cacheRowSpare stack row => Sys2Proof.Machine.execCacheRowSpare stack row s
  | .scrubRead granule found => Sys2Proof.Machine.execScrubRead granule found s
  | .sramRailChange die below => Sys2Proof.Machine.execSramRailChange die below s
  | .flitReceive m flit => Sys2Proof.Machine.execFlitReceive m flit s
  | .nulFlitTimer m => Sys2Proof.Machine.execNulFlitTimer m s
  | .laneLockLoss m => Sys2Proof.Machine.execLaneLockLoss m s
  | .moduleRetrainEnd m test => Sys2Proof.Machine.execModuleRetrainEnd m test s
  | .fonakRead req => Sys2Proof.Machine.execFonakRead req s
  | .fonakPostedWrite req => Sys2Proof.Machine.execFonakPostedWrite req s
  | .fonakAtomic req => Sys2Proof.Machine.execFonakAtomic req s
  | .fonakRegion req => Sys2Proof.Machine.execFonakRegion req s
  | .fonakFenceMarker req => Sys2Proof.Machine.execFonakFenceMarker req s
  | .fonakInterrupt req => Sys2Proof.Machine.execFonakInterrupt req s
  | .fonakCheckout req => Sys2Proof.Machine.execFonakCheckout req s
  | .fonakCheckIn req => Sys2Proof.Machine.execFonakCheckIn req s
  | .fonakRecall req => Sys2Proof.Machine.execFonakRecall req s
  | .fonakCompletion fin => Sys2Proof.Machine.execFonakCompletion fin s
  | .fonakMulticastWrite req group => Sys2Proof.Machine.execFonakMulticastWrite req group s
  | .eseqGapTimeout key => Sys2Proof.Machine.execEseqGapTimeout key s
  | .resendRequest key eseq => Sys2Proof.Machine.execResendRequest key eseq s
  | .routerCreditTimeout plane x y => Sys2Proof.Machine.execRouterCreditTimeout plane x y s
  | .planeDead plane => Sys2Proof.Machine.execPlaneDead plane s
  | .planeQuiesce plane => Sys2Proof.Machine.execPlaneQuiesce plane s
  | .planeDrainComplete plane => Sys2Proof.Machine.execPlaneDrainComplete plane s
  | .planeRemap plane => Sys2Proof.Machine.execPlaneRemap plane s
  | .planeResume plane => Sys2Proof.Machine.execPlaneResume plane s
  | .firmwareHeartbeat who => Sys2Proof.Machine.execFirmwareHeartbeat who s
  | .firmwareWatchdogExpiry who img => Sys2Proof.Machine.execFirmwareWatchdogExpiry who img s
  | .deadmanRefresh => Sys2Proof.Machine.execDeadmanRefresh s
  | .deadmanExpiry => Sys2Proof.Machine.execDeadmanExpiry s
  | .class5Declare part bankId => Sys2Proof.Machine.execClass5Declare part bankId s
  | .frontEndsReady => Sys2Proof.Machine.execFrontEndsReady s
  | .claim who value => Sys2Proof.Machine.execClaim who value s
  | .handoff who value => Sys2Proof.Machine.execHandoff who value s
  | .powerWrite who value => Sys2Proof.Machine.execPowerWrite who value s
  | .registerWrite who p v => Sys2Proof.Machine.execRegisterWrite who p v s
  | .leaseWarning => Sys2Proof.Machine.execLeaseWarning s
  | .leaseExpiry => Sys2Proof.Machine.execLeaseExpiry s
  | .bar2Read p size => Sys2Proof.Machine.execBar2Read p size s
  | .bar2Write p data => Sys2Proof.Machine.execBar2Write p data s
  | .jobcreate c => Sys2Proof.Machine.execJobcreate c s
  | .jobend c => Sys2Proof.Machine.execJobend c s
  | .setroot c => Sys2Proof.Machine.execSetroot c s
  | .inval c => Sys2Proof.Machine.execInval c s
  | .qstop c => Sys2Proof.Machine.execQstop c s
  | .setqtab c => Sys2Proof.Machine.execSetqtab c s
  | .kreg c => Sys2Proof.Machine.execKreg c s
  | .setbar2 c => Sys2Proof.Machine.execSetbar2 c s
  | .setdev c => Sys2Proof.Machine.execSetdev c s
  | .setpcap c => Sys2Proof.Machine.execSetpcap c s
  | .setmcast c => Sys2Proof.Machine.execSetmcast c s
  | .attest c => Sys2Proof.Machine.execAttest c s
  | .readlog c => Sys2Proof.Machine.execReadlog c s
  | .seterrmsg c => Sys2Proof.Machine.execSeterrmsg c s
  | .jobstat c => Sys2Proof.Machine.execJobstat c s
  | .qrestart c => Sys2Proof.Machine.execQrestart c s
  | .repairs c => Sys2Proof.Machine.execRepairs c s
  | .packageReset => Sys2Proof.Machine.execPackageReset s
  | .debuggerHalt uid => Sys2Proof.Machine.execDebuggerHalt uid s
  | .debuggerResume uid => Sys2Proof.Machine.execDebuggerResume uid s
  | .errorMessageDelivered => Sys2Proof.Machine.execErrorMessageDelivered s
  | .resendsCompleteSignal key => Sys2Proof.Machine.execResendsCompleteSignal key s
  | .channelCopyRow id => Sys2Proof.Machine.execChannelCopyRow id s

end Sys2Proof.Machine
end

