-- ==== Sys2Proof/Machine/Turns.lean ====
section
/-!
DEFINITION. The turn that is due when the agenda names none: start-up, watchdogs, then harts, engines and the duties of
the firmware in rotation (log entry 7).
-/

namespace Sys2Proof.Machine

open Sys2Proof

/-! ## Duties of the firmware and of Terak -/

/-- The state that a meaning answers. -/
def Res.stateOr (r : Res) (s : State) : State :=
  match r with
  | .next t => t
  | _ => s

/-- The bank that is drained next (R350). -/
def State.nextBank (s : State) : Option ErrBank :=
  ((s.err.banks.filter s.mayDrain).foldl (fun (l : List ErrBank) (b : ErrBank) => insertBank b l) []).head?

/-- A committed repair whose spare has not been brought in. -/
def State.repairDue (s : State) (r : Repair) : Bool :=
  r.committed && r.spare.isSome && s.repairOf r.part == some r && s.spareIn r.part != r.spare

/-- What a repair record asks for next (R358, R359, R386, R387). -/
def State.repairDuty (s : State) (idx : Nat) (r : Repair) : Option (State → State) :=
  let commit : Option (State → State) := if r.committed then none else some (fun t => (execRepairCommit idx t).stateOr t)
  let copy : Option (State → State) :=
    if !r.committed then commit
    else if !s.repairDue r || s.err.copies.any (fun k => k.part == r.part) then none
    else some (fun t => (execChannelCopy r.part (r.spare.getD 0) t).stateOr t)
  match r.part with
  | .core d c =>
    if s.retired r.part && !s.err.closedCores.contains (d, c) then some (fun t => (execCoreReplace d c t).stateOr t)
    else if !r.committed then commit
    else if s.repairDue r then some (fun t => (execCoreReplace d c t).stateOr t) else none
  | .row b row =>
    if !r.committed then commit
    else if s.repairDue r then some (fun t => (execRowSpareCopy b row t).stateOr t) else none
  | .cacheRow k row =>
    if !r.committed then commit
    else if s.repairDue r then some (fun t => (execCacheRowSpare k row t).stateOr t) else none
  | .bank b => if r.committed && s.bankHeldByJob b then none else copy
  | .channel _ _ | .column _ _ => copy
  | _ => commit

/-- A message to a fabric-remote owner leaves as a posted write of a dword at the address that this owner registered (R328); those
to other owners leave by their port as they are sent. -/
def State.messageDuty (s : State) : Option (State → State) :=
  match s.fe.outbox.find? (fun m => m.owner == .remote) with
  | some m =>
    let pa := Config.intrAddress m.epoch.toNat / 8 * 8
    let ln := pa / 128
    let t := { s with fe := { s.fe with outbox := s.fe.outbox.erase m } }
    let line := placeBytes pa m.number.toNat false
    let key := s.devStream (paDev pa) ln
    if s.isLocal pa then some (fun _ => t.writeSeen 0 ln line (byteMask pa 8))
    else if s.fab.planeOpen key.plane ∧ s.mayAsk key 1 then
      some (fun _ => t.sendReq (frontEnd 0 0).uid { (plainReq key 1 ln) with
        bmask := byteMask pa 8, data := line.data, gmask := touchedGranules (byteMask pa 8) })
    else none
  | none => none

/-- Terak as coordinator of a domain of one device leads a plane through the quiesce protocol (R409, R411). -/
def State.planeDuty (s : State) : Option (State → State) :=
  let next : Option (State → State) := match s.fab.quiesce with
  | .running =>
    let lost := fun (p : Nat) => s.fab.dead.getLsbD p && (List.range 64).any (fun b => (s.fab.planeMap[b]?.getD 0#3).toNat == p)
    let cut := fun (p : Nat) => !s.fab.dead.getLsbD p && s.fab.freshlyDead p != []
    ((List.range 8).find? (fun p => lost p || cut p)).map (fun p t => t.quiescePlane p)
  | .quiesced p => if s.fab.drained p then some (fun t => t.drainPlane p) else none
  | .drained p => if s.fab.dead.getLsbD p then some (fun t => t.remapPlane p) else some (fun t => t.resumePlane p)
  | .remapped p => some (fun t => t.resumePlane p)
  -- in a domain of more than one device the fabric-remote manager leads
  if next.isSome && s.fe.devSet && Config.domainSize s.tick != 1 then none else next

/-- Flits are on their way, or an end owes the other the ACK that its replay buffer waits for (R397). -/
def State.flitDuty (s : State) : Option (State → State) :=
  match s.fab.modules.find? (fun e => e.sent != []) with
  | some e => e.sent.head?.map (fun f t => (execFlitReceive (peerOf e.id) f t).stateOr t)
  | none =>
    let owes := fun (e : ModEnd) =>
      let g := s.fab.modEnd (peerOf e.id)
      e.state == 0 && g.replay.any (fun r => r.1 == e.lastAcc)
    (s.fab.modules.find? owes).map (fun e t => (execNulFlitTimer e.id t).stateOr t)

/-- A destination inside the package that asks for a resend is answered by the source (R403); a source whose resends of a dead
plane have all completed says so (R411). -/
def State.streamDuty (s : State) : Option (State → State) :=
  match s.fab.filters.find? (fun g => g.resendAsked.isSome && decide (g.key.src < 4)) with
  | some g => some (fun t => ({ t with fab := t.fab.setFilter { g with gap := false, resendAsked := none } }).resend g.key
      (fun r => atOrAfter r.eseq g.expected))
  | none =>
    (s.fab.filters.find? (fun g => s.fab.quiesce == .running && decide (g.key.src < 4) && s.fab.dead.getLsbD g.key.plane
      && (s.fab.stream g.key).outstanding == [])).map (fun g t => (execResendsCompleteSignal g.key t).stateOr t)

/-- Everything that waits for the firmware, in a fixed order: commands that run, harts whose fault no pager can resolve,
leagues to seat, error banks, repairs, copies and planes. -/
def State.duties (s : State) : List (State → State) :=
  -- the links' hardware, and Terak with the processors that it restarts (R414)
  s.flitDuty.toList ++ s.streamDuty.toList ++ (s.terak.restarting.take 1).map (fun p t => t.released p) ++
  if !s.frontEndsUp then (s.nextBank.toList).map (fun b t => (execErrorBankReadAndClear b.id 0 t).stateOr t)
    -- Terak still serves attestation reports (R333)
    ++ (if s.terak.fail = 0 then [] else (((List.range 4).filterMap s.runningAt).filter (fun r => r.1 == 0x20)).map (fun (r : Nat × MbCmd) (t : State) => t.mailboxVisit r.2 r.1))
  else
    let idx := List.range s.err.repairs.length
    (((List.range 4).filterMap s.runningAt).filter (fun r => !s.mbHeld r.1 r.2.die)).map (fun r t => t.mailboxVisit r.2 r.1)
      ++ (if s.fe.posted = [] ∨ s.unacked s.barHost.uid then [] else [fun (t : State) => t.drainPosted t.fe.posted.length])
      ++ (s.harts.filter (fun h => match h.wait with
          | .pager v => h.isResident && s.frontEndAt h.place.die && !s.pageable h.asid v.va
          | _ => false)).map (fun h t => t.withHart h.uid (·.pagerAnswers true))
      ++ ((List.range 4).filter (fun d => s.frontEndAt d && (s.leagueCalls d).any (fun h => (s.leagueRoom h).isSome))).map
          (fun d t => (execDispatch d t).stateOr t)
      ++ (s.nextBank.toList).map (fun b t => (execErrorBankReadAndClear b.id 0 t).stateOr t)
      ++ idx.filterMap (fun i => (s.err.repairs[i]?).bind (s.repairDuty i))
      ++ (s.err.copies.filter (fun c => (copyStacks c.part).all s.managerAt)).map (fun c t => (execChannelCopyRow c.id t).stateOr t)
      ++ s.planeDuty.toList ++ s.messageDuty.toList
      ++ (s.harts.filter (fun h => h.leaving && h.isResident)).map (fun h t => t.preemptNow h.uid)

/-- One duty; the step counter picks among those that wait. -/
def State.duty (s : State) : State :=
  let l := s.duties
  match l[s.tick / 4 % (max 1 l.length)]? with
  | some f => f s
  | none => s

/-! ## The turn that is due -/

/-- The engines and the firmware take turns: the step counter picks among those that have something to do. -/
def State.engineTurn (s : State) : Option Turn :=
  let l := s.engineTurns ++ (if s.duties.isEmpty then [] else [Turn.duty])
  l[s.tick / 2 % (max 1 l.length)]?

/-- A hart whose watchdog or grace has run out (R377). -/
def State.watchdogEvent (s : State) : Option Instr :=
  match s.harts.find? (fun h => h.watchdogDue && !s.midRemote h.uid) with
  | some h => some (.kernelWatchdogExpiry h.uid)
  | none => (s.harts.find? Hart.graceDue).map (fun h => .watchdogGraceExpiry h.uid)

/-- The turn that follows when the agenda names none. -/
def State.autoTurn (s : State) : Turn :=
  match s.bootEvent, s.watchdogEvent with
  | some i, _ => .event i
  | none, some i => .event i
  | none, none =>
    match s.nextHart, s.engineTurn with
    | some u, some t => if s.tick % 2 = 0 then .hart u else t
    | some u, none => .hart u
    | none, some t => t
    | none, none => .engines

end Sys2Proof.Machine
end

