-- ==== Sys2Proof/Machine/HartTurn.lean ====
section
/-!
DEFINITION. The turns of a step: the clock, a hart's fetch and execution (R70, R181, R203, R372), a bank's µop (R290).
-/

namespace Sys2Proof.Machine

open Sys2Proof

/-- The cycles that a step takes on a core: a free amount (log entry 2). -/
def State.stepCycles (s : State) (die core : Nat) : Nat := Config.stepCycles (2 * (s.tick * 192 + 48 * die + core))

/-- A step passes: the counter of the free values advances, the cycles of every core that has run a hart, and RUNCOUNT of
every resident hart that has fetched and that no debugger halts, by the cycles of its core (R73, R171). -/
def State.clock (s : State) : State :=
  let run := fun (h : Hart) =>
    if h.isResident && !h.dbgHalted && h.fetched then
      { h with csr := { h.csr with runCount := h.csr.runCount + BitVec.ofNat 64 (s.stepCycles h.place.die h.place.core) } }
    else h
  let fresh := (s.harts.filter (fun h => h.isResident && !s.cycles.any (fun e => e.1 == h.place.die && e.2.1 == h.place.core))).map
    (fun h => (h.place.die, h.place.core))
  let cycles := s.cycles ++ fresh.eraseDups.map (fun c => (c.1, c.2, 0))
  { s.onHarts run with tick := s.tick + 1, cycles := cycles.map (fun e => (e.1, e.2.1, e.2.2 + s.stepCycles e.1 e.2.1)) }

/-- Drops the furlong and its buffered stores: their pages have gone since they were checked. -/
def State.dropFurlong (s : State) : State := { s with hart := { s.hart with furlong := none, strip := [] } }

/-- A vector instruction takes up the progress records that name it (R39), and wakes its register file (R31). -/
def State.begin (s : State) (i : Instr) : State :=
  if vectorMajor (wordOf i) then { (s.wakeFile i) with hart := (s.wakeFile i).hart.takeRecords } else s

/-- The hart in focus executes a decoded instruction, after what its furlong asks for. -/
def State.runInstr (s : State) (i : Instr) : Host.Outcome State Fault Refusal :=
  if s.awaitsStream i then .next s.hold
  else match furlongPre i s with
  | .ok (_, t) => exec i (t.begin i)
  | .error (.wait t) => .next t.hold
  | .error _ => exec i (s.dropFurlong.begin i)

/-- The hart in focus fetches and executes one word. A fetch that fails takes its cause at the PC (R203, R207). -/
def State.runHart (s : State) : Host.Outcome State Fault Refusal :=
  match fetchWord s.who s.hart.pc s with
  | .error (.fault c) => .next (s.raise (s.cause c s.hart.pc 0#64 1#64))
  | .error (.wait t) => .next t.hold
  | .error (.poison _) => .next (s.consumePoison false)
  | .ok (w, t) =>
    match decodeBytes (bytesOfWord w) with
    | .error _ => .next (t.raise (t.illegalVals w))
    | .ok (i, _) => t.runInstr i

/-- A hart is ready: a try of its next instruction finds that it can issue (R70). -/
def State.canIssue (s : State) (uid : Nat) : Bool :=
  let t := s.focusOn uid
  t.hart.isReady && (match ({ t with hart := { t.hart with held := false } }).runHart with
    | .next u => !u.hart.held
    | _ => false)

/-- The other harts of a hart's core that are ready beside it, by number. -/
def State.readyBeside (s : State) (h : Hart) : List Nat :=
  ((s.onCore h.place.die h.place.core).filter (fun g => g.uid != h.uid && s.canIssue g.uid)).map (·.uid)

/-- A hart's turn: a cause whose entry waits is taken; then an expired watchdog comes first (R372); a ready hart executes, one
in a WFI commits it if it may, any other does nothing. -/
def State.hartTurn (s : State) (uid : Nat) : Host.Outcome State Fault Refusal :=
  let t := s.focusOn uid
  if t.hart.uid ≠ uid then .next t
  else if h : t.hart.trapDue.isSome then .next (t.trapEntry (t.hart.trapDue.get h))
  else if t.hart.graceDue then exec (.watchdogGraceExpiry uid) t
  else if t.hart.watchdogDue && !t.midRemote uid then exec (.kernelWatchdogExpiry uid) t
  else if t.wfiEnds t.hart then .next t.wfiCommit
  else if t.hart.isReady then
    match ({ t with hart := { t.hart with held := false, fetched := true } }).runHart with
    | .next u => .next (u.afterTurn (t.readyBeside t.hart))
    | r => r
  else .next t

/-- A bank's turn: the µop at its µPC, when a microprogram runs there (R290). -/
def State.bankStep (s : State) (b : Nat) : Host.Outcome State Fault Refusal :=
  let k := s.bank b
  match k.run with
  | .program _ _ _ =>
    -- a row µop waits while the engine is held at a row boundary (R277, R387), for the data that move, for the requests that
    -- come first, and for the window of a suspension (R294)
    if k.nextIsRow && (s.bankHeld b || k.susp || k.moving.isSome || (k.pending != [] && !k.resumed)) then .next s
    else if k.upc < 64 && k.microPsn.getLsbD k.upc then .next (s.poisonRun b)
    else if k.upc ≥ 64 then .next (s.endRun b (some 5#8))
    else
      let h : BitVec 16 := BitVec.ofNat 16 (getElt k.micro 16 k.upc)
      match decodeMicroBytes [h.extractLsb' 0 8, h.extractLsb' 8 8] with
      | .ok (i, _) => exec i { s with bankSel := b }
      | .error _ => .next (s.endRun b (some 1#8))
  | _ => .next s

/-- One agent's turn. -/
def State.turn (s : State) : Turn → Host.Outcome State Fault Refusal
  | .hart uid => s.hartTurn uid
  | .bank b => s.bankStep b
  | .event i => exec i s
  | .engines => .next s
  | .duty => .next s.duty

end Sys2Proof.Machine
end

