-- ==== Sys2Proof/Machine/Load.lean ====
section
/-!
DEFINITION. A program placed from outside the machine: what State.withFetchWord sets so that the next step runs one
given instruction (log entry 6). It stands for start-up, job creation, a launch and the loading of code, and is no
behaviour of the device.
-/

namespace Sys2Proof.Machine

open Sys2Proof

/-- Where the placed program's root table, its level-1 table and its code lie. -/
def loadRoot : Nat := 0x100000
def loadTable : Nat := 0x200000
def loadPc : Nat := 0x400000

/-- The job that runs the placed program: ASID 1, with 64 reserved rows in every bank. -/
def loadJob : Job :=
  { asid := 1, enc := false, chk := false, frw := false, bl := 64, rdcGib := 0, twinQ := 2,
    spBase := 0x2000000000#64, banks := ~~~0#65536, rb := Vector.replicate 4 0, rn := Vector.replicate 4 0,
    carve := Vector.replicate 4 0, key := 0, kernels := [], paged := [], barred := [] }

/-- The first GiB of the job's space is mapped onto the first GiB of die 0, readable, writable and executable. -/
def loadTables (l : List Host.Cell) : List Host.Cell :=
  let root := bytesOfNat 8 (loadTable + 1)
  Memory.write (Memory.write l loadRoot root) loadTable (bytesOfNat 8 0x1F)

/-- Start-up has ended (R332). -/
def Terak.started (t : Terak) : Terak := { t with stage := 4#3, ready := true, released := (true, true) }

/-- The device has started and runs the placed job. -/
def State.loadSystem (s : State) : State :=
  { s with terak := s.terak.started,
           fe := { s.fe with jobs := loadJob :: s.fe.jobs.filter (fun j => j.asid != 1),
                             roots := (1, loadRoot) :: s.fe.roots.filter (fun r => r.1 != 1) },
           mm := { s.mm with bytes := loadTables s.mm.bytes } }

/-- A hart of the placed job as a launch leaves it (R67), on core 0 of die 0. -/
def State.loadHart (s : State) : State :=
  let t := s.loadSystem
  let h := { Hart.reset with uid := s.fresh, phase := .resident, asid := 1, pc := BitVec.ofNat 64 loadPc }
  { t with hart := h, others := t.others ++ [s.hart], fresh := s.fresh + 1 }

/-- The physical address a hart's next word is fetched from, when its fetch succeeds. -/
def State.fetchPa (s : State) : Option Nat :=
  if s.hart.isReady then
    match translate s.who s.hart.pc .fetch s with
    | .ok ((pa, _), _) => if (fetchWord s.who s.hart.pc s).isOk then some pa else none
    | .error _ => none
  else none

/-- Places a word at a physical address and drops the cached copies of its line. -/
def State.placeWord (s : State) (pa : Nat) (w : BitVec 32) : State :=
  let ln := pa / 128
  let lines := (s.mm.l2.filter (fun e => e.pa == ln)).map (fun e => (e.asid, e.line))
  let mm := s.mm
  let mm' := { mm with bytes := Memory.write mm.bytes pa (bytesOfNat 4 w.toNat),
                       poison := setPoison mm.poison (pa / 32) false,
                       l2 := mm.l2.filter (fun e => e.pa != ln),
                       l1 := mm.l1.filter (fun c => !lines.contains (c.asid, c.line)),
                       icache := [] }
  { s with mm := mm', agenda := [.hart s.hart.uid] }

/-- Places a µop at the µPC of the selected bank, under a command of one bank that runs there. -/
def State.placeMicro (s : State) (w : BitVec 16) : State :=
  let b := s.bankSel
  let k := s.bank b
  match k.run with
  | .program _ _ _ =>
    if k.upc < 64 && !k.susp then ({ s with agenda := [.bank b] }).setBank b { k with micro := setElt k.micro 16 k.upc w.toNat, microPsn := setBit k.microPsn k.upc false }
    else s
  | _ =>
    let t := s.loadSystem
    let c : Cmd := { id := s.fresh, uid := s.hart.uid, asid := 1, k := 0, bank := b, count := 1,
                     state := [(b, 0, false)], counted := 0, drain := none, stream := false, badSums := [] }
    let k' := { k with micro := setElt k.micro 16 0 w.toNat, microPsn := setBit k.microPsn 0 false, upc := 0, run := .program s.fresh 0 64, susp := false,
                       moving := none, pending := [], resumed := false }
    ({ t with cmds := c :: t.cmds, fresh := s.fresh + 1, agenda := [.bank b] }).setBank b k'

end Sys2Proof.Machine
end

