-- ==== Sys2Proof/Machine/Step.lean ====
section
/-!
DEFINITION. One step of the package: the agent whose turn it is acts once. A hart fetches the word at its PC and
executes it (R181, R203); a bank engine executes the µop at its µPC (R290); an event acts as its row says.
-/

namespace Sys2Proof.Machine

open Sys2Proof

/-- One step: the turn that the agenda names, else the one that is due. -/
def step (s : State) : Host.Outcome State Fault Refusal :=
  match s.agenda with
  | t :: rest => ({ s with agenda := rest }).clock.turn t
  | [] => s.clock.turn s.autoTurn

/-- The state with an instruction placed where the next step fetches it: a 32-bit word at the PC of the hart in focus,
or of a newly launched hart when none can fetch; a 16-bit µop at the µPC of the selected bank (log entry 6). -/
def State.withFetchWord (s : State) (nbits w : Nat) : State :=
  if nbits = 16 then s.placeMicro (BitVec.ofNat 16 w)
  else
    match s.fetchPa with
    | some pa => s.placeWord pa (BitVec.ofNat 32 w)
    | none => s.loadHart.placeWord loadPc (BitVec.ofNat 32 w)

end Sys2Proof.Machine
end

