-- ==== Sys2Proof/Safety.lean ====
section
/-!
DEFINITION. What the statements about the machine are made of: what one instruction writes and what it leaves, the rules
of the scalar unit as integer arithmetic, readiness of a vector instruction, and the canonical form of memory that every
step keeps.
-/

namespace Sys2Proof.Machine

open Sys2Proof

/-! ## Canonical memory -/

/-- The memory and its poison marks are in their one form: cells rise strictly and differ from what an unlisted address
reads as; marks rise strictly. Equal memories are then equal data. -/
def State.canonical (s : State) : Prop := Memory.wf s.mm.bytes = true ∧ s.mm.poison.Pairwise (· < ·)

/-- The byte that memory holds at a physical address. -/
def State.byteAt (s : State) (pa : Nat) : Byte := Memory.get s.mm.bytes pa

/-- An address space reads a line, and the tags of the line, as memory holds their bytes: every block of them is held under the
key slot of that space (R137). -/
def State.plainTo (s : State) (space ln : Nat) : Prop :=
  s.foreign (s.keyOf space ln) ln = [] ∧
    ∀ a, s.tagAddr ln = some a → s.blockKey (a / 16) = s.keyOf space ln ∧ s.keyOf space (a / 128) = s.keyOf space ln

/-- Line data `d'` are `d` with the low `size` bytes of a number laid over them at an address, and the words that these bytes
touch, no others, have taken the store's tag (R122). -/
def StoredOver (va size v : Nat) (tag : Bool) (d : Line) (g : BitVec 16) (d' : Line) (g' : BitVec 16) : Prop :=
  (∀ i < 128, getElt d' 8 i = if va % 128 ≤ i ∧ i < va % 128 + size then v / 2 ^ (8 * (i - va % 128)) % 256 else getElt d 8 i) ∧
  (∀ k < 16, g'.getLsbD k = if 8 * k < va % 128 + size ∧ va % 128 < 8 * k + 8 then tag else g.getLsbD k)

/-! ## Frames -/

/-- `t` is `s` after a scalar result: `d` holds `v` unless it is x0, which reads zero; every other register keeps its
value; the PC has moved past the instruction; and nothing else differs, so that every flag, special register, accumulator
and byte of memory stands. -/
structure Wrote (s : State) (d : BitVec 5) (v : Word) (t : State) : Prop where
  result : d ≠ 0#5 → t.getX d = v
  zero : t.getX 0#5 = 0#64
  others : ∀ r, r ≠ d → t.getX r = s.getX r
  pc : t.hart.pc = wrapPc (s.hart.pc + 4#64)
  memory : ∀ pa, t.byteAt pa = s.byteAt pa
  rest : t = { s with hart := { s.hart.atStart with x := t.hart.x, pc := t.hart.pc } }

/-- `t` is `s` after an instruction that writes no register: the PC has moved past it. -/
structure Passed (s t : State) : Prop where
  pc : t.hart.pc = wrapPc (s.hart.pc + 4#64)
  memory : ∀ pa, t.byteAt pa = s.byteAt pa
  rest : t = { s with hart := { s.hart.atStart with pc := t.hart.pc } }

/-- `t` is `s` with the PC of the hart in focus at `pc`, and the link register `d` at `v` when there is one. -/
structure Jumped (s : State) (link : Option (BitVec 5 × Word)) (pc : Word) (t : State) : Prop where
  target : t.hart.pc = pc
  result : ∀ d v, link = some (d, v) → d ≠ 0#5 → t.getX d = v
  others : ∀ r, link.map (·.1) ≠ some r → t.getX r = s.getX r
  memory : ∀ pa, t.byteAt pa = s.byteAt pa
  rest : t = { s with hart := { s.hart.atStart with x := t.hart.x, pc := t.hart.pc } }

/-- The hart in focus is at the first instruction of its handler (R365): CAUSE, EPC and ELEMSTART say what was raised
where (EPC holds bits 56 to 2, R171), the fault registers are given, STATUS.HM is set and the PC is TVEC. -/
structure Entered (s : State) (cause : BitVec 8) (vec : Bool) (epc va stride remain : Word) (t : State) : Prop where
  hm : t.hart.csr.hm = true
  cause : t.hart.csr.cause = (if vec then 0x100#64 else 0#64) ||| zext cause
  epc : t.hart.csr.epc = wrapPc epc &&& ~~~3#64
  elem : t.hart.csr.elemStart = 0#64
  fault : t.hart.csr.faultVa = va ∧ t.hart.csr.faultStride = stride ∧ t.hart.csr.faultRemain = remain
  pc : t.hart.pc = s.hart.csr.tvec
  kept : t.hart.x = s.hart.x ∧ t.hart.v = s.hart.v ∧ t.hart.m = s.hart.m ∧ t.hart.tiles = s.hart.tiles ∧ t.hart.k = s.hart.k
  memory : ∀ pa, t.byteAt pa = s.byteAt pa

/-- The hart in focus executes an instruction when its turn comes: it is ready, and neither its watchdog nor the grace of an
expired one is to be served first (R70, R372, R377). -/
def State.mayTurn (s : State) : Prop :=
  s.hart.isReady = true ∧ s.hart.graceDue = false ∧ (s.hart.watchdogDue = false ∨ s.midRemote s.hart.uid = true)

/-- A hart takes a cause at TVEC when it is raised: it is in no handler, has one, no furlong is open and the watchdog's
grace is not over (R365, R367). -/
def State.takesTraps (s : State) : Prop :=
  s.hart.csr.hm = false ∧ s.hart.csr.tvec ≠ 0#64 ∧ s.hart.furlong = none ∧ s.hart.strip = [] ∧ s.hart.region = none ∧
    s.hart.graceDue = false

/-- A hart but for the replies that have come for it: an acquire at package scope keeps what they bring out of the caches of
its die (R144). -/
def Hart.plain (h : Hart) : Hart := { h with replies := [] }

/-- An error bank, and every bank that its processor drains, counts the errors of cores alone (R349, R357). -/
def State.coreCounts (s : State) (id : BitVec 32) : Prop :=
  ∀ e ∈ s.err.counts, e.1 = id ∨ drainer e.1 = drainer id → ∃ d c, e.2.1 = Part.core d c

/-! ## The scalar unit as integer arithmetic (R204 to R208) -/

/-- A truth value as a register holds it. -/
def truth (p : Prop) [Decidable p] : Word := if p then 1#64 else 0#64

/-- The destination and the result that R204 to R206 give an integer instruction at a PC with register values `x`. -/
def integerRule (pc : Word) (x : BitVec 5 → Word) : Instr → Option (BitVec 5 × Word)
  | .add d a b => some (d, BitVec.ofNat 64 ((x a).toNat + (x b).toNat))
  | .sub d a b => some (d, BitVec.ofInt 64 ((x a).toInt - (x b).toInt))
  | .and d a b => some (d, x a &&& x b)
  | .or d a b => some (d, x a ||| x b)
  | .xor d a b => some (d, x a ^^^ x b)
  | .sll d a b => some (d, BitVec.ofNat 64 ((x a).toNat * 2 ^ ((x b).toNat % 64)))
  | .srl d a b => some (d, BitVec.ofNat 64 ((x a).toNat / 2 ^ ((x b).toNat % 64)))
  | .sra d a b => some (d, BitVec.ofInt 64 ((x a).toInt / (2 ^ ((x b).toNat % 64) : Nat)))
  | .slt d a b => some (d, truth ((x a).toInt < (x b).toInt))
  | .sltu d a b => some (d, truth ((x a).toNat < (x b).toNat))
  | .min d a b => some (d, BitVec.ofInt 64 (Min.min (x a).toInt (x b).toInt))
  | .max d a b => some (d, BitVec.ofInt 64 (Max.max (x a).toInt (x b).toInt))
  | .minu d a b => some (d, BitVec.ofNat 64 (Min.min (x a).toNat (x b).toNat))
  | .maxu d a b => some (d, BitVec.ofNat 64 (Max.max (x a).toNat (x b).toNat))
  | .clz d a => some (d, BitVec.ofNat 64 (((List.range 64).takeWhile (fun k => !(x a).getLsbD (63 - k))).length))
  | .ctz d a => some (d, BitVec.ofNat 64 (((List.range 64).takeWhile (fun k => !(x a).getLsbD k)).length))
  | .popc d a => some (d, BitVec.ofNat 64 (((List.range 64).filter (fun k => (x a).getLsbD k)).length))
  | .mul d a b => some (d, BitVec.ofInt 64 ((x a).toInt * (x b).toInt))
  | .mulh d a b => some (d, BitVec.ofInt 64 ((x a).toInt * (x b).toInt / 2 ^ 64))
  | .mulhu d a b => some (d, BitVec.ofNat 64 ((x a).toNat * (x b).toNat / 2 ^ 64))
  | .div d a b => some (d, if (x b).toInt = 0 then BitVec.ofInt 64 (-1) else BitVec.ofInt 64 ((x a).toInt.tdiv (x b).toInt))
  | .divu d a b => some (d, if (x b).toNat = 0 then BitVec.ofInt 64 (-1) else BitVec.ofNat 64 ((x a).toNat / (x b).toNat))
  | .rem d a b => some (d, if (x b).toInt = 0 then x a else BitVec.ofInt 64 ((x a).toInt.tmod (x b).toInt))
  | .remu d a b => some (d, if (x b).toNat = 0 then x a else BitVec.ofNat 64 ((x a).toNat % (x b).toNat))
  | .addi d a i => some (d, BitVec.ofInt 64 ((x a).toInt + i.toInt))
  | .andi d a i => some (d, x a &&& BitVec.ofInt 64 i.toInt)
  | .ori d a i => some (d, x a ||| BitVec.ofInt 64 i.toInt)
  | .xori d a i => some (d, x a ^^^ BitVec.ofInt 64 i.toInt)
  | .slti d a i => some (d, truth ((x a).toInt < i.toInt))
  | .sltiu d a i => some (d, truth ((x a).toNat < (BitVec.ofInt 64 i.toInt).toNat))
  | .slli d a h => some (d, BitVec.ofNat 64 ((x a).toNat * 2 ^ h.toNat))
  | .srli d a h => some (d, BitVec.ofNat 64 ((x a).toNat / 2 ^ h.toNat))
  | .srai d a h => some (d, BitVec.ofInt 64 ((x a).toInt / (2 ^ h.toNat : Nat)))
  | .lui d i => some (d, BitVec.ofInt 64 (BitVec.ofNat 32 (i.toNat * 4096)).toInt)
  | .auipc d i => some (d, pc + BitVec.ofInt 64 (BitVec.ofNat 32 (i.toNat * 4096)).toInt)
  | _ => none

/-- Whether a conditional branch is taken, and its offset in instructions (R207). -/
def branchRule (x : BitVec 5 → Word) : Instr → Option (Bool × Int)
  | .beq a b i => some (decide (x a = x b), i.toInt)
  | .bne a b i => some (decide (x a ≠ x b), i.toInt)
  | .blt a b i => some (decide ((x a).toInt < (x b).toInt), i.toInt)
  | .bge a b i => some (decide ((x b).toInt ≤ (x a).toInt), i.toInt)
  | .bltu a b i => some (decide ((x a).toNat < (x b).toNat), i.toInt)
  | .bgeu a b i => some (decide ((x b).toNat ≤ (x a).toNat), i.toInt)
  | _ => none

/-- The address `n` instructions away from a PC, modulo 2^57 (R207). -/
def pcPlus (pc : Word) (n : Int) : Word := BitVec.ofInt 64 (((pc.toNat : Int) + 4 * n) % 2 ^ 57)

/-! ## Scalar memory (R209, R210) -/

/-- Destination, address, reuse class, size in bytes and whether it sign-extends, of a scalar load (R209). -/
def loadRule (x : BitVec 5 → Word) : Instr → Option (BitVec 5 × Word × Nat × Nat × Bool)
  | .lb d a r i => some (d, x a + BitVec.ofInt 64 i.toInt, r.toNat, 1, true)
  | .lh d a r i => some (d, x a + BitVec.ofInt 64 i.toInt, r.toNat, 2, true)
  | .lw d a r i => some (d, x a + BitVec.ofInt 64 i.toInt, r.toNat, 4, true)
  | .ld d a r i => some (d, x a + BitVec.ofInt 64 i.toInt, r.toNat, 8, false)
  | .lbu d a r i => some (d, x a + BitVec.ofInt 64 i.toInt, r.toNat, 1, false)
  | .lhu d a r i => some (d, x a + BitVec.ofInt 64 i.toInt, r.toNat, 2, false)
  | .lwu d a r i => some (d, x a + BitVec.ofInt 64 i.toInt, r.toNat, 4, false)
  | _ => none

/-- Source register, address and size in bytes of a scalar store (R209). -/
def storeRule (x : BitVec 5 → Word) : Instr → Option (BitVec 5 × Word × Nat)
  | .sb b a i => some (b, x a + BitVec.ofInt 64 i.toInt, 1)
  | .sh b a i => some (b, x a + BitVec.ofInt 64 i.toInt, 2)
  | .sw b a i => some (b, x a + BitVec.ofInt 64 i.toInt, 4)
  | .sd b a i => some (b, x a + BitVec.ofInt 64 i.toInt, 8)
  | _ => none

/-- A loaded value of `size` bytes as a register receives it. -/
def extendTo (size v : Nat) (signed : Bool) : Word :=
  if signed then (BitVec.ofNat (8 * size) v).signExtend 64 else (BitVec.ofNat (8 * size) v).setWidth 64

/-! ## References (R211 to R216) -/

/-- The checks of SDREF and SPUB (R212) succeed: container `c`, reference `v` and field offset `o` give the field's
address and window, the container's PSCOPE and that of the referenced object, 3 for null. -/
structure RefChecked (s : State) (c v : Word) (o : BitVec 12) (va : Word) (w : Window) (pc pt : Nat) (t : State) : Prop where
  aligned : c.toNat % 8 = 0
  address : va = c + BitVec.ofInt 64 (8 * o.toInt)
  checks : ∃ (h : Word) (t1 t2 : State), readHeader s.who c s = .ok (h, t1) ∧ pc = h.toNat / 2 ^ 32 % 4 ∧
    8 ≤ 8 * o.toInt ∧ 8 * o.toInt < 8 * (h.toNat % 2 ^ 32) ∧
    ((v = 0#64 ∧ pt = 3 ∧ t2 = t1) ∨
     (v ≠ 0#64 ∧ v.toNat % 8 = 0 ∧ ∃ (wv : Window) (t3 : State) (hv : Nat) (tag : Bool),
       classify s.who v 8 .load t1 = .ok (wv, t3) ∧ wv.isReach = true ∧ loadFrom s.who v 8 2 wv t3 = .ok ((hv, tag), t2) ∧
       pt = hv / 2 ^ 32 % 4)) ∧
    classify s.who va 8 .store t2 = .ok (w, t) ∧ w.isReach = true

/-! ## Atomics (R217) -/

/-- OP, destination, address register, operand register, MSB, RL, AQ and SCOPE of an atomic (R217). -/
def atomicRule : Instr → Option (Nat × BitVec 5 × BitVec 5 × BitVec 5 × BitVec 1 × BitVec 1 × BitVec 1 × BitVec 2)
  | .amoadd d a b m l q sc => some (0, d, a, b, m, l, q, sc)
  | .amoswap d a b m l q sc => some (1, d, a, b, m, l, q, sc)
  | .amocas d a b m l q sc => some (2, d, a, b, m, l, q, sc)
  | .amomin d a b m l q sc => some (3, d, a, b, m, l, q, sc)
  | .amomax d a b m l q sc => some (4, d, a, b, m, l, q, sc)
  | .amominu d a b m l q sc => some (5, d, a, b, m, l, q, sc)
  | .amomaxu d a b m l q sc => some (6, d, a, b, m, l, q, sc)
  | .amoand d a b m l q sc => some (7, d, a, b, m, l, q, sc)
  | .amoor d a b m l q sc => some (8, d, a, b, m, l, q, sc)
  | .amoxor d a b m l q sc => some (9, d, a, b, m, l, q, sc)
  | _ => none

/-- What an atomic of a given OP writes: the new value, or nothing for a compare that fails (R217). -/
def atomicWrites (op : Nat) (old operand expected : Word) : Option Word :=
  match op with
  | 0 => some (BitVec.ofNat 64 (old.toNat + operand.toNat))
  | 1 => some operand
  | 2 => if old = expected then some operand else none
  | 3 => some (BitVec.ofInt 64 (Min.min old.toInt operand.toInt))
  | 4 => some (BitVec.ofInt 64 (Max.max old.toInt operand.toInt))
  | 5 => some (BitVec.ofNat 64 (Min.min old.toNat operand.toNat))
  | 6 => some (BitVec.ofNat 64 (Max.max old.toNat operand.toNat))
  | 7 => some (old &&& operand)
  | 8 => some (old ||| operand)
  | _ => some (old ^^^ operand)

/-- The state after the release actions of an operation that asks for them. -/
def State.ifRelease (s : State) (l : BitVec 1) (sc : BitVec 2) : State := if l = 1#1 then s.releaseMine sc else s

/-- The state after the acquire actions of an operation that asks for them. -/
def State.ifAcquire (s : State) (q : BitVec 1) (sc : BitVec 2) : State := if q = 1#1 then s.acquireMine sc else s

/-- Actions of a scope may use the planes now: at package scope and wider no plane is being quiesced and no module is on the way
of anything else (R399, R411). -/
abbrev State.planesFor (s : State) (sc : BitVec 2) : Prop := 2 ≤ sc.toNat → s.planesMove = true

/-- An operation that releases at a scope need not wait: its posted writes to other devices are acknowledged, or the
scope is core. -/
def State.mayRelease (s : State) (l : BitVec 1) (sc : BitVec 2) : Prop :=
  l = 1#1 → s.planesFor sc ∧ (sc ≠ 0#2 → (s.releaseMine sc).unacked s.hart.uid = false)

/-- An operation that acquires at a scope need not wait: no walk of the hart must end before it (R161). -/
def State.noWalk (s : State) (q : BitVec 1) (sc : BitVec 2) : Prop :=
  q = 1#1 → s.planesFor sc ∧ s.walkAhead (some sc) = none

/-! ## Vector instructions (R176 to R179, R230 to R234) -/

/-- No granule of the hart's vector and mask registers carries poison, and the instruction at the PC starts at element
0 with no element group whose two computations differ (R392). -/
def State.cleanVectors (s : State) : Prop :=
  s.hart.vPsn = [] ∧ s.hart.mPsn = [] ∧ s.hart.startElem = 0 ∧ s.hart.split = []

/-- The checks of R233 and R178 find nothing: no reserved field, a type that the instruction accepts, no rule of
distinctness broken, and every register that an operand resolves to below its bounds. -/
structure VectorReady (s : State) (i : Instr) (md : BitVec 2) (v : VShape) : Prop where
  form : i.wf = true
  types : v.types (s.mode md).etype = true
  distinct : v.clash = false
  bounds : ∀ b ∈ v.dst :: v.srcs.map (·.spec), s.hart.specFails (if v.selects then { s.mode md with guard := 15 } else s.mode md)
    (s.mode md).width b = none
  apart : ∀ p ∈ v.apart, s.hart.overlap (s.mode md) (s.hart.regsOf (s.mode md).width p.1) (s.hart.regsOf (s.mode md).width p.2) = false
  plain : v.selects = true → v.apart = []
  clean : s.cleanVectors

/-- The operands of a vector instruction, read before anything is written (R178, R230). -/
def State.operands (s : State) (md : BitVec 2) (v : VShape) : VIn :=
  { m := s.mode md, w := (s.mode md).width, vl := s.hart.vl, act := s.hart.active (s.mode md),
    src := fun k e => match v.srcs[k]? with
      | some p => getElt (s.hart.getV ((s.hart.regsOf (s.mode md).width p.spec).at e)) (p.width.getD (s.mode md).width) e
      | none => 0,
    old := fun e => getElt (s.hart.getV ((s.hart.regsOf (s.mode md).width v.dst).at e)) (s.mode md).width e }

/-- `t` is `s` after a vector instruction that has written `l` at width `w` into the operand `d` and named the
specifiers `specs`: a written element holds its result, every other element of every register stands, flags accrue and
are never cleared, the index registers named step once, and nothing else of the hart's registers, nor of the machine,
changes. -/
structure VectorDone (s : State) (d : Regs) (w : Nat) (l : Elems) (specs : List Nat) (t : State) : Prop where
  elements : ∀ q e, q < 48 → w * (e + 1) ≤ 262144 → getElt (t.hart.getV q) w e =
    match l.getD e none with
    | some v => if q = d.at e ∧ q < s.hart.nregs then v.1 % 2 ^ w else getElt (s.hart.getV q) w e
    | none => getElt (s.hart.getV q) w e
  flags : t.hart.csr = { s.hart.csr with flags := s.hart.csr.flags ||| zext l.flags }
  indices : t.hart.ix = (s.hart.stepIndices specs).ix
  kept : t.hart.x = s.hart.x ∧ t.hart.m = s.hart.m ∧ t.hart.md = s.hart.md ∧ t.hart.vl = s.hart.vl ∧ t.hart.k = s.hart.k ∧
    t.hart.tiles = s.hart.tiles ∧ t.hart.nregs = s.hart.nregs
  pc : t.hart.pc = wrapPc (s.hart.pc + 4#64)
  rest : t = { s with hart := t.hart }

/-- The same for a mask destination: bit `e` of mask register `d` takes the result given for it. -/
structure MaskDone (s : State) (d : Nat) (l : List (Option Bool)) (fl : BitVec 6) (specs : List Nat) (t : State) : Prop where
  bits : ∀ q e, q < 12 → e < 4096 → (t.hart.getM q).getLsbD e =
    match l.getD e none with
    | some b => if q = d then b else (s.hart.getM q).getLsbD e
    | none => (s.hart.getM q).getLsbD e
  flags : t.hart.csr = { s.hart.csr with flags := s.hart.csr.flags ||| zext fl }
  indices : t.hart.ix = (s.hart.stepIndices specs).ix
  kept : t.hart.x = s.hart.x ∧ t.hart.v = s.hart.v ∧ t.hart.md = s.hart.md ∧ t.hart.vl = s.hart.vl ∧ t.hart.k = s.hart.k ∧
    t.hart.tiles = s.hart.tiles ∧ t.hart.nregs = s.hart.nregs
  pc : t.hart.pc = wrapPc (s.hart.pc + 4#64)
  rest : t = { s with hart := t.hart }

/-- Mode register and operands of a vector instruction that writes a vector register at the width of its type (R244 to
R260). -/
def vectorForm (s : State) : Instr → Option (BitVec 2 × VShape)
  | .vmvv m d a => some (m, plainShape typesAny d [a])
  | .vadd m d a b => some (m, plainShape typesA d [a, b])
  | .vsub m d a b => some (m, plainShape typesA d [a, b])
  | .vmul m d a b => some (m, plainShape typesA d [a, b])
  | .vmac m d a b => some (m, plainShape typesA d [a, b, d])
  | .vnmac m d a b => some (m, plainShape typesA d [a, b, d])
  | .vmin m d a b => some (m, plainShape typesA d [a, b])
  | .vmax m d a b => some (m, plainShape typesA d [a, b])
  | .vabs m d a => some (m, plainShape typesS d [a])
  | .vneg m d a => some (m, plainShape typesS d [a])
  | .vand m d a b => some (m, plainShape typesA d [a, b])
  | .vor m d a b => some (m, plainShape typesA d [a, b])
  | .vxor m d a b => some (m, plainShape typesA d [a, b])
  | .vsll m d a b => some (m, plainShape typesI d [a, b])
  | .vsrl m d a b => some (m, plainShape typesI d [a, b])
  | .vsra m d a b => some (m, plainShape typesI d [a, b])
  | .vmerge m d a b => some (m, { plainShape typesA d [a, b] with selects := true })
  | .vdiv m d a b => some (m, plainShape typesA d [a, b])
  | .vsqrt m d a => some (m, plainShape typesF d [a])
  | .vrcp m d a => some (m, plainShape typesF d [a])
  | .vrsq m d a => some (m, plainShape typesF d [a])
  | .vexp2 m d a => some (m, plainShape typesF d [a])
  | .vlog2 m d a => some (m, plainShape typesF d [a])
  | .vclass m d a => some (m, plainShape typesF d [a])
  | .vconj m d a => some (m, plainShape typesS d [a])
  | .vcvt m d a t => some (m, { plainShape typesAny d [] with
      srcs := [⟨a.toNat, some (codeWidth t.toNat), 1⟩],
      apart := if codeWidth t.toNat = (s.mode m).width then [] else [(d.toNat, a.toNat)] })
  | .vdqnt m d a b => some (m, { plainShape typesF d [] with
      srcs := [⟨a.toNat, some 4, 1⟩, ⟨b.toNat, some 8, 8⟩], apart := [(d.toNat, a.toNat), (d.toNat, b.toNat)] })
  | .vshrr m d a b => some (m, plainShape typesI d [a, b])
  | .vscansum m d a => some (m, { plainShape typesA d [a] with apart := [(d.toNat, a.toNat)] })
  | .vslideup m d a _ => some (m, permShape d [a])
  | .vslidedn m d a _ => some (m, permShape d [a])
  | .vgathr m d a b => some (m, permShape d [a, b])
  | .vcompress m d a => some (m, permShape d [a])
  | .vexpand m d a => some (m, permShape d [a])
  | .vbcast m d _ => some (m, permShape d [])
  | .viota m d => some (m, permShape d [])
  | _ => none

/-- result(e) of an active element, with the flags it raises; none for an element that stays as it is (R244 to R260). -/
def activeResult (x : BitVec 5 → Word) (i : Instr) (v : VIn) (e : Nat) : Option Flagged :=
  let a := v.src 0 e
  let b := v.src 1 e
  match i with
  | .vmvv _ _ _ => some (a, 0#6)
  | .vadd _ _ _ _ => some (addElem v.m a b)
  | .vsub _ _ _ _ => some (subElem v.m a b)
  | .vmul _ _ _ _ => some (mulElem v.m a b)
  | .vmac _ _ _ _ => some (arith3 v.m false (v.src 2 e) a b)
  | .vnmac _ _ _ _ => some (arith3 v.m true (v.src 2 e) a b)
  | .vmin _ _ _ _ => some (pickElem v.m false a b)
  | .vmax _ _ _ _ => some (pickElem v.m true a b)
  | .vabs _ _ _ => some (absElem v.m a)
  | .vneg _ _ _ => some (negElem v.m a)
  | .vand _ _ _ _ => some (a &&& b, 0#6)
  | .vor _ _ _ _ => some (a ||| b, 0#6)
  | .vxor _ _ _ _ => some (a ^^^ b, 0#6)
  | .vsll _ _ _ _ => some (sllElem v.m a b)
  | .vsrl _ _ _ _ => some (a / 2 ^ (b % v.m.width), 0#6)
  | .vsra _ _ _ _ => some (sraElem v.m a b)
  | .vmerge _ _ _ _ => some (a, 0#6)
  | .vdiv _ _ _ _ => some (divElem v.m a b)
  | .vsqrt _ _ _ => some (realElem v.m .sqrt a)
  | .vrcp _ _ _ => some (realElem v.m .rcp a)
  | .vrsq _ _ _ => some (realElem v.m .rsq a)
  | .vexp2 _ _ _ => some (realElem v.m .exp2 a)
  | .vlog2 _ _ _ => some (realElem v.m .log2 a)
  | .vclass _ _ _ => some (classElem v.m a)
  | .vconj _ _ _ => some (if e % 2 = 0 then (a, 0#6) else negElem v.m a)
  | .vcvt _ _ _ t => some (match etypeOf t.toNat, etypeOf v.m.etype with
      | some src, some dst => convert src dst v.m.sat v.m.rm a
      | _, _ => (0, 0#6))
  | .vdqnt _ _ _ _ => some (if v.src 1 (e / 8) = 0xFF then (v.m.fmt.canonNan, 0#6)
      else match decodeF fmtE2m1 a with
        | .fin n mag ex => packF v.m.fmt v.m.rm (.fin n mag (ex + (v.src 1 (e / 8) : Int) - 127))
        | y => packF v.m.fmt v.m.rm y)
  | .vshrr _ _ _ _ => some (match etypeOf v.m.etype with
      | some (.int w sg) =>
        (ofSigned w (roundInt v.m.rm (decide (intVal w sg a < 0)) (intVal w sg a).natAbs (-((b % 64 : Nat) : Int))).1, 0#6)
      | _ => (0, 0#6))
  | .vscansum _ _ _ => some ((scanOver (addElem v.m) v.leaves (e + 1)).getD (0, 0#6))
  | .vslideup _ _ _ k => if (x k).toNat ≤ e then some (v.src 0 (e - (x k).toNat), 0#6) else none
  | .vslidedn _ _ _ k => some (if e + (x k).toNat < v.vl then v.src 0 (e + (x k).toNat) else 0, 0#6)
  | .vgathr _ _ _ _ => some (if b < v.vl then v.src 0 b else 0, 0#6)
  | .vexpand _ _ _ => some (v.src 0 (((List.range e).filter v.act).length), 0#6)
  | .vbcast _ _ k => some ((x k).toNat % 2 ^ v.w, 0#6)
  | .viota _ _ => some (((List.range e).filter v.act).length % 2 ^ v.w, 0#6)
  | _ => none

/-- What each element below vl receives (R231): an active one its result, an inactive one zero under md.ZERO; VMERGE
selects (R247) and VCOMPRESS packs the active elements (R260). -/
def vectorResult (x : BitVec 5 → Word) (i : Instr) (v : VIn) : Elems :=
  let idle : Option Flagged := if v.m.zero then some (0, 0#6) else none
  match i with
  | .vmerge _ _ _ _ => (List.range v.vl).map (fun e => some (if v.act e then v.src 0 e else v.src 1 e, 0#6))
  | .vcompress _ _ _ =>
    let es := (List.range v.vl).filter v.act
    (List.range v.vl).map (fun e => match es[e]? with
      | some k => some (v.src 0 k, 0#6)
      | none => idle)
  | _ => (List.range v.vl).map (fun e => if v.act e then activeResult x i v e else idle)

/-- The checks of a vector memory instruction up to its first element find nothing (R178, R184, R233). -/
structure VmemReady (s : State) (i : Instr) (md : BitVec 2) (d : BitVec 6) (form : VForm) : Prop where
  accepted : i.wf = true
  types : match form with
    | .unit => (s.mode md).etype ≤ 13
    | _ => (s.mode md).etype ≤ 12
  bounds : match form with
    | .segment nf => d.toNat + nf ≤ s.hart.nregs
    | f => ∀ b ∈ d.toNat :: f.specs, s.hart.specFails (s.mode md) (s.mode md).width b = none
  clean : s.cleanVectors

/-- A vector memory instruction with its operands resolved (R178, R262). -/
def State.vmem (s : State) (md : BitVec 2) (d : BitVec 6) (a : BitVec 5) (form : VForm) : VMem :=
  { m := s.mode md, w := (s.mode md).width, nf := form.fields, vl := s.hart.vl, act := s.hart.active (s.mode md),
    addr := form.addr s.hart a (s.mode md).width (match form with
      | .indexed v => s.hart.regsOf (s.mode md).width v.toNat
      | _ => .one 0),
    stride := form.stride s.hart (s.mode md).width,
    data := match form with
      | .segment _ => .one d.toNat
      | _ => s.hart.regsOf (s.mode md).width d.toNat }

/-! ## Bank engines (R275 to R290) -/

/-- `t` is `s` after the issue of a bank command (R275): each bank of the set has it at the end of its queue under the
number `s.fresh`, its operation `op i` for the bank of ordinal `i`; no other bank differs; and the command counts on
completion register `k` once every bank has finished it. -/
structure Issued (s : State) (set : Word) (k : Nat) (op : Nat → BankOp) (drain : Option (Word × BitVec 256 × List (BitVec 8)))
    (stream : Bool) (t : State) : Prop where
  queues : ∀ i < bsCount set, t.bank (bsBank set + i) =
    { s.bank (bsBank set + i) with queue := (s.bank (bsBank set + i)).queue ++ [⟨s.fresh, op i⟩] }
  others : ∀ b, b < bsBank set ∨ bsBank set + bsCount set ≤ b → t.bank b = s.bank b
  command : t.cmds = s.cmds ++ [
    { id := s.fresh, uid := s.hart.uid, asid := s.hart.asid, k := k, bank := bsBank set, count := bsCount set,
      state := (List.range (bsCount set)).map (fun i => (bsBank set + i, 0, false)), counted := 0, drain := drain,
      stream := stream, badSums := [] }]
  pc : t.hart.pc = wrapPc (s.hart.pc + 4#64)
  memory : ∀ pa, t.byteAt pa = s.byteAt pa
  rest : t = { s with hart := t.hart, banks := t.banks, cmds := t.cmds, fresh := s.fresh + 1 }

/-- The hart in focus moved past an instruction that changes no register of it. -/
def State.passedHart (s : State) : Hart :=
  { s.hart.atStart with pc := wrapPc (s.hart.pc + 4#64), replies := [] }

/-- A bank command of the hart in focus can issue: its stores to other devices and to banks have performed (R166), and every
bank of its set has room (R275). -/
def State.mayIssue (s : State) (set : Word) : Prop :=
  s.unacked s.hart.uid = false ∧ ∀ i < bsCount set, (s.bank (bsBank set + i)).queue.length < 8

/-- The bank in focus runs a microprogram over rows of its set and its pointer `n` is inside the span: row `r` of memory
is the row of the µop (R289); no residue mismatch still waits to be logged. -/
structure RowReady (s : State) (n : BitVec 2) (r : Nat) : Prop where
  running : ∃ cmd row span, (s.bank s.bankSel).run = .program cmd row span ∧ ((s.bank s.bankSel).ptr n).toNat < span ∧
    r = row + ((s.bank s.bankSel).ptr n).toNat
  memory : Memory.wf s.mm.bytes = true
  settled : (s.bank s.bankSel).mismatched = []

/-- What every row µop does beside its own effect (R289): INC moves the pointer on modulo 2^14, µPC moves on, and no
other bank, hart or part of the machine changes but memory, which the fields `row` of a caller bound. -/
structure RowDone (s : State) (n : BitVec 2) (i : BitVec 1) (t : State) : Prop where
  pointers : ∀ m, (t.bank s.bankSel).ptr m = (s.bank s.bankSel).ptr m + (if m = n ∧ i = 1#1 then 1#14 else 0#14)
  upc : (t.bank s.bankSel).upc = (s.bank s.bankSel).upc + 1
  kept : ∃ k, t.bank s.bankSel = k ∧ k = { s.bank s.bankSel with
    p := k.p, upc := k.upc, latch := k.latch, latchPsn := k.latchPsn, acc := k.acc, accRes := k.accRes, accPsn := k.accPsn,
    sat := k.sat, qb := k.qb, resumed := false }
  others : ∀ b, b ≠ s.bankSel → t.bank b = s.bank b
  rest : t = { s with banks := t.banks, mm := { s.mm with bytes := t.mm.bytes, poison := t.mm.poison } }

/-- Row `r` of the bank in focus holds `data` with marks `psn`, and no byte outside it has changed. -/
structure RowWritten (s : State) (r : Nat) (data : BitVec 8192) (psn : BitVec 32) (t : State) : Prop where
  data : t.rowData s.bankSel r = data
  marks : t.rowPsn s.bankSel r = psn
  memory : ∀ pa, pa < s.rowPa s.bankSel r ∨ s.rowPa s.bankSel r + 1024 ≤ pa → t.byteAt pa = s.byteAt pa

/-- An integer saturated to `w` signed bits. -/
def clampTo (w : Nat) (v : Int) : Int := Max.max (-(2 ^ (w - 1))) (Min.min (2 ^ (w - 1) - 1) v)

/-- `x / 2^n` rounded to nearest, ties to even. -/
def nearestEven (x : Int) (n : Nat) : Int :=
  let r := x % 2 ^ n
  if 2 * r < 2 ^ n then x / 2 ^ n
  else if 2 ^ n < 2 * r then x / 2 ^ n + 1
  else x / 2 ^ n + (x / 2 ^ n) % 2

/-- The term that RSHADD adds (R289). -/
def shiftTerm (sh : Int) (neg : Bool) (x : Int) : Int :=
  let t := if 0 ≤ sh then x * 2 ^ sh.toNat else nearestEven x (-sh).toNat
  if neg then -t else t

/-- No accumulator of a bank disagrees with its residue (R389). -/
def Bank.soundAcc (k : Bank) : Prop := ∀ n < 1024, k.badResidue n = false

/-- Every lookup entry of a bank carries the residue of its value (R389). -/
def Bank.soundBushel (k : Bank) : Prop := ∀ n < 4096, getElt k.bushelRes 2 n = residue (k.bushelAt n)

/-- Command `id` after bank `b` of its set has passed a sync point (`ended` false) or ended it: what it counts has gone
up with what the whole set has passed, and completion register kN of its hart with it (R290). -/
structure CmdCounted (s : State) (b id : Nat) (ended : Bool) (t : State) : Prop where
  counted : ∀ c, s.cmdOf id = some c → ∃ d, t.cmdOf id = some d ∧
    d.state = c.state.map (fun e => if e.1 = b then (e.1, if ended then (e.2.1, true) else (e.2.1 + 1, e.2.2)) else e) ∧
    d.counted = Max.max c.counted d.passed ∧ d.uid = c.uid ∧ d.k = c.k ∧
    ∀ h, s.hartOf c.uid = some h → ∃ g, t.hartOf c.uid = some g ∧ ∀ n : BitVec 4,
      g.getK n = h.getK n + (if n.toNat = c.k then BitVec.ofNat 64 (d.passed - c.counted) else 0#64)
  memory : t.mm = s.mm
  others : ∀ a, a ≠ b → t.bank a = s.bank a

/-! ## Mailboxes and the fabric (R361, R402 to R404) -/

/-- A mailbox command can start: the front ends run, none is being restarted, and no command runs or waits in any mailbox (R337,
R361, R414). -/
structure MailboxIdle (s : State) (c : MbCmd) : Prop where
  up : s.frontEndsUp = true
  awake : s.terak.restarting = []
  die : c.die < 4
  idle : s.fe.running = [] ∧ s.fe.refused = []
  status : s.mbGet c.die 5 ≠ 0xFFFF#64

/-- The state in which the effect of a command begins that its writer may give: written and started (R336, R361). -/
def State.mbBegun (s : State) (code : Nat) (c : MbCmd) : State := (s.mbWritten code c false).mbStart code c

/-- Command `code` has ended over the state `t`: STATUS reads its status and its mailbox no longer runs it (R361); an equal one
written later still waits. -/
structure MailboxDone (t : State) (code : Nat) (c : MbCmd) (status : Nat) (u : State) : Prop where
  status : u.mbGet c.die 5 = BitVec.ofNat 64 status
  running : u.fe.running = t.fe.running.erase (code, c)

/-- CMD of a command that only the owner may give (R338, R361). -/
def ownerOnly : Instr → Option (Nat × MbCmd)
  | .jobcreate c => some (1, c)
  | .jobend c => some (2, c)
  | .setroot c => some (3, c)
  | .inval c => some (4, c)
  | .qstop c => some (5, c)
  | .setqtab c => some (6, c)
  | .kreg c => some (7, c)
  | .setbar2 c => some (0x10, c)
  | .setdev c => some (0x11, c)
  | .setpcap c => some (0x12, c)
  | .setmcast c => some (0x13, c)
  | .seterrmsg c => some (0x41, c)
  | .qrestart c => some (0x43, c)
  | _ => none

/-- A request of a kind arrives in order: for this device, with no reserved field, and with the ESEQ that its stream
expects (R402 to R404). -/
structure InOrder (s : State) (r : FonakReq) (op : BitVec 6) : Prop where
  arrives : s.arrives r = true
  plain : r.reserved = false
  kind : r.op = op
  next : r.eseq = (s.fab.filterOf r.key).expected

/-- The request has been performed, `t` being the state after its effect: its filter expects the next ESEQ and the
completion `d` is on its way, to another die by the modules. -/
structure Performed (t : State) (r : FonakReq) (d : FonakDone) (u : State) : Prop where
  key : d.key = r.key
  eseq : d.eseq = r.eseq
  filter : (u.fab.filterOf r.key).expected = r.eseq + 1#20
  answer : u.fab.returned = t.fab.returned ++ [d]
  rest : u = { t with fab := { t.fab with filters := u.fab.filters, returned := u.fab.returned, modules := u.fab.modules } }
  outside : 4 ≤ r.key.src → u.fab.modules = t.fab.modules

end Sys2Proof.Machine
end

