-- ==== Sys2Proof/Certificates/Slice0/Obligations.lean ====
section
/-!
DEFINITION. The statements about the machine that are to be proved.
-/

open Sys2Proof Sys2Proof.Machine

/-- R204, R205 and R206: every integer instruction of majors 0x01 to 0x0B writes the result of its table to xd, moves the PC on and changes nothing else; the words that these rules reserve do not decode. -/
def Obligations.IntegerResults : Prop :=
  (∀ (s : State) (i : Instr) (d : BitVec 5) (v : Word), integerRule s.hart.pc s.getX i = some (d, v) →
     ∃ t, exec i s = .next t ∧ Wrote s d v t) ∧
  (∀ (w : BitVec 32) (op fn : Nat), op = w.toNat / 2 ^ 25 → fn = w.toNat % 1024 →
    (op = 1 ∧ (16 < fn ∨ (14 ≤ fn ∧ w.toNat / 1024 % 32 ≠ 0))) ∨ (op = 2 ∧ 6 < fn) ∨
      (op = 9 ∧ (2 < w.toNat / 2 ^ 12 % 8 ∨ w.toNat / 64 % 64 ≠ 0)) → ∃ e, decodeWord w = .error e)

/-- R207: a branch goes to PC + 4 x imm15 modulo 2^57 when its comparison holds, else to PC + 4. JAL and JALR write PC + 4 and go to their target; a JALR to a misaligned or too wide target takes cause 0x04 or 0x08 with xd unchanged (R208; the second and third fault values there are the model's, log entry 28). -/
def Obligations.BranchesAndJumps : Prop :=
  (∀ (s : State) (i : Instr) (taken : Bool) (n : Int), branchRule s.getX i = some (taken, n) →
    ∃ t, exec i s = .next t ∧ Jumped s none (pcPlus s.hart.pc (if taken then n else 1)) t) ∧
  (∀ (s : State) (d : BitVec 5) (i : BitVec 20),
    ∃ t, exec (.jal d i) s = .next t ∧ Jumped s (some (d, s.hart.pc + 4#64)) (pcPlus s.hart.pc i.toInt) t) ∧
  (∀ (s : State) (d a : BitVec 5) (i : BitVec 15) (target : Word), target = s.getX a + BitVec.ofInt 64 i.toInt →
    target.toNat % 4 = 0 → target.toNat < 2 ^ 57 →
    ∃ t, exec (.jalr d a i) s = .next t ∧ Jumped s (some (d, s.hart.pc + 4#64)) target t) ∧
  (∀ (s : State) (d a : BitVec 5) (i : BitVec 15) (t : Word), s.takesTraps → t = s.getX a + BitVec.ofInt 64 i.toInt →
    (t.toNat % 4 ≠ 0 → ∃ u, exec (.jalr d a i) s = .next u ∧ Entered s 4#8 false s.hart.pc t 0#64 1#64 u) ∧
    (t.toNat % 4 = 0 → 2 ^ 57 ≤ t.toNat → ∃ u, exec (.jalr d a i) s = .next u ∧ Entered s 8#8 false s.hart.pc t 0#64 1#64 u))

/-- Loads (R209) and LDACQ (R210): an access that `loadAt` completes writes xd, extended as its row says, and nothing else; LDACQ adds the acquire actions of its scope. -/
def Obligations.ScalarLoads : Prop :=
  (∀ (s t : State) (i : Instr) (d : BitVec 5) (va : Word) (r size : Nat) (signed : Bool) (v : Nat) (tag : Bool),
    loadRule s.getX i = some (d, va, r, size, signed) → loadAt s.who va size r s = .ok ((v, tag), t) →
    ∃ u, exec i s = .next u ∧ Wrote t.clearReplies d (extendTo size v signed) u) ∧
  (∀ (s t : State) (d a : BitVec 5) (r : BitVec 2) (o : BitVec 10) (sc : BitVec 2) (va : Word) (w : Window) (t0 : State)
      (v : Nat) (tag : Bool),
    va = s.getX a + BitVec.ofInt 64 (8 * o.toInt) → s.walkAhead (some sc) = none → s.planesFor sc →
    classify s.who va 8 .load s = .ok (w, t0) → w.isPlainOnly = false → loadFrom s.who va 8 r.toNat w t0 = .ok ((v, tag), t) →
    ∃ u, exec (.ldacq d a r o sc) s = .next u ∧ Wrote (t.acquireMine sc).clearReplies d (BitVec.ofNat 64 v) u)

/-- What a load reads and leaves (R111, R120, R124 to R127, R203, R209): the bytes of the copy that serves it; no byte of
memory changes but in lines whose written copies make room, and every other copy stands, but for the home die's copies of
a line that is checked in to make room. Translation changes no byte and no
copy. -/
def Obligations.LoadedBytes : Prop :=
  (∀ (s t : State) (who : Who) (va : Word) (n : Nat) (acc : Access) (w : Window), classify who va n acc s = .ok (w, t) →
    t.mm.bytes = s.mm.bytes ∧ t.mm.poison = s.mm.poison ∧ t.mm.l1 = s.mm.l1 ∧ t.mm.l2 = s.mm.l2 ∧ t.harts = s.harts) ∧
  (∀ (s t : State) (va : Word) (size r : Nat) (w : Window) (v : Nat) (tag : Bool), s.hart.strip = [] →
    loadFrom s.who va size r w s = .ok ((v, tag), t) →
    (w = .scratch → ∃ c, findCore s.mm.l1 s.hart.place.die s.hart.place.core s.hart.asid (va.toNat / 128) = some c ∧
      v = c.data.toNat / 2 ^ (8 * (va.toNat % 128)) % 2 ^ (8 * size) ∧ t.mm = s.mm) ∧
    (∀ pa leaf line space, w = .cached pa leaf → line = va.toNat / 128 → space = spaceOf s.hart.asid va → va.toNat < 2 ^ 57 →
      (∀ c, findCore s.mm.l1 s.hart.place.die s.hart.place.core space line = some c →
        v = c.data.toNat / 2 ^ (8 * (va.toNat % 128)) % 2 ^ (8 * size)) ∧
      (∀ e, findCore s.mm.l1 s.hart.place.die s.hart.place.core space line = none → s.findL2 s.hart.place.die space line = some e →
        v = e.data.toNat / 2 ^ (8 * (va.toNat % 128)) % 2 ^ (8 * size)) ∧
      (findCore s.mm.l1 s.hart.place.die s.hart.place.core space line = none → s.findL2 s.hart.place.die space line = none →
        s.isLocal (pa / 128 * 128) = true → paDie (pa / 128 * 128) = s.hart.place.die → s.plainTo space (pa / 128) →
        pa % 128 = va.toNat % 128 → pa % 128 + size ≤ 128 → v = natOfBytes (Memory.read s.mm.bytes pa size))) ∧
    (∀ pa space, ((∃ reach, w = .memSide pa reach) ∧ space = spaceOf s.hart.asid va) ∨
        (w = .bankLinear pa ∧ (s.bank (paBank pa)).free = true ∧ s.hart.replies = [] ∧ space = 0) →
      s.isLocal (pa / 128 * 128) = true → s.plainTo space (pa / 128) → pa % 128 = va.toNat % 128 → pa % 128 + size ≤ 128 → v = natOfBytes (Memory.read s.mm.bytes pa size) ∧ t.mm.bytes = s.mm.bytes ∧ t.mm.l2 = s.mm.l2) ∧
    (∀ a, t.byteAt a ≠ s.byteAt a → ∃ e ∈ s.mm.l2, (e.out = true ∨ e.dirty ≠ 0#128) ∧
      (a / 128 = e.pa ∨ ∃ ta, s.tagAddr e.pa = some ta ∧ ta / 16 = a / 16)) ∧
    (∀ f ∈ t.mm.l2, (∃ e ∈ s.mm.l2, f.same e = true ∧ f.pa = e.pa ∧ ((f.data = e.data ∧ f.tags = e.tags ∧ f.dirty = e.dirty) ∨
        ∃ g ∈ s.mm.l2, g.out = true ∧ g.pa = e.pa ∧ g.die = s.hart.place.die ∧ f.die = paDie (g.pa * 128))) ∨
      (∃ pa leaf, w = .cached pa leaf ∧ f.pa = pa / 128 ∧ f.dirty = 0#128)))

/-- Stores (R209) and SDREL (R210): an access that `storeAt` completes leaves the registers alone; SDREL performs its release actions first, and from package scope on the line it wrote is written back or checked in (R139, R145; log entry 45). What the store does to memory is that of the same operation. -/
def Obligations.ScalarStores : Prop :=
  (∀ (s t : State) (i : Instr) (b : BitVec 5) (va : Word) (size : Nat), storeRule s.getX i = some (b, va, size) →
    storeAt s.who va size ((s.getX b).toNat % 2 ^ (8 * size)) s = .ok ((), t) →
    ∃ u, exec i s = .next u ∧ Passed t.clearReplies u) ∧
  (∀ (s t0 t : State) (b a : BitVec 5) (o : BitVec 12) (sc : BitVec 2) (va : Word) (w : Window),
    va = s.getX a + BitVec.ofInt 64 (8 * o.toInt) → classify s.who va 8 .store s = .ok (w, t0) → w.isPlainOnly = false →
    t0.planesFor sc → (sc = 0#2 ∨ (t0.releaseMine sc).unacked s.hart.uid = false) →
    storeLine s.who va 8 (s.getX b).toNat false w (t0.releaseMine sc) = .ok ((), t) →
    ∃ u, exec (.sdrel b a o sc) s = .next u ∧ Passed (t.shown s.hart.place.die w sc).clearReplies u)

/-- What a store writes and leaves (R119, R122 to R126, R129 to R131, R209, R238): the bytes stored and the tags of the words that
they touch, at the copy or the memory that takes them: home memory, a busy bank's requests, the home die's L2, a line that is or
comes to be checked out beside its twin, a posted write to another device, the scratchpad; no other byte of memory changes but in
lines whose written copies make room or are recalled. With an open furlong a store to a cached line waits in the strip buffer,
its bytes under their mask. -/
def Obligations.StoredBytes : Prop :=
  (∀ (s t : State) (va : Word) (size v : Nat) (tag : Bool) (w : Window), s.hart.furlong = none → Memory.wf s.mm.bytes = true →
    0 < size → va.toNat % 128 + size ≤ 128 → storeLine s.who va size v tag w s = .ok ((), t) →
    (∀ pa space, ((∃ reach, w = .memSide pa reach) ∧ space = spaceOf s.hart.asid va) ∨
        (w = .bankLinear pa ∧ (s.bank (paBank pa)).free = true ∧ space = 0) →
      pa < 2 ^ 63 → s.isLocal pa = true → pa % 128 = va.toNat % 128 → s.plainTo space (pa / 128) →
      Memory.read t.mm.bytes pa size = bytesOfNat size v ∧ t.mm.l1 = s.mm.l1 ∧ t.mm.l2 = s.mm.l2 ∧
      (∀ a, a < pa ∨ pa + size ≤ a → (∀ ta, s.tagAddr (pa / 128) = some ta → a < ta ∨ ta + 2 ≤ a) → t.byteAt a = s.byteAt a) ∧
      (∀ ta k, s.tagAddr (pa / 128) = some ta → k < 16 → (natOfBytes (Memory.read t.mm.bytes ta 2)).testBit k =
        if 8 * k < va.toNat % 128 + size ∧ va.toNat % 128 < 8 * k + 8 then tag
        else (natOfBytes (Memory.read s.mm.bytes ta 2)).testBit k)) ∧
    (∀ pa, w = .bankLinear pa → s.isLocal pa = true → (s.bank (paBank pa)).free = false →
      t.mm = s.mm ∧ t.harts = s.harts ∧
      (t.bank (paBank pa)).pending = (s.bank (paBank pa)).pending ++
        storeReqs s.hart.uid (placeBytes va.toNat v tag) (byteMask va.toNat size) (pa / 128)) ∧
    (∀ pa leaf line space, w = .cached pa leaf → line = va.toNat / 128 → space = spaceOf s.hart.asid va → va.toNat < 2 ^ 57 →
      (∀ e, s.isLocal pa = true → (paDie pa = s.hart.place.die ∨ e.out = true) → s.findL2 s.hart.place.die space line = some e →
        t.mm.bytes = s.mm.bytes ∧ t.mm.twins = s.mm.twins ∧ (∀ f ∈ t.mm.l2, f.same e = false → f ∈ s.mm.l2) ∧
        ∃ e', t.findL2 s.hart.place.die space line = some e' ∧ e'.out = e.out ∧
          e'.writers.getLsbD s.hart.place.core = (decide (s.hart.place.core < 48) || e.writers.getLsbD s.hart.place.core) ∧
          StoredOver va.toNat size v tag e.data e.tags e'.data e'.tags) ∧
      (s.isLocal pa = true → paDie pa = s.hart.place.die → s.findL2 s.hart.place.die space line = none →
        s.plainTo space (pa / 128) →
        ∃ e', t.findL2 s.hart.place.die space line = some e' ∧ e'.out = false ∧ e'.pa = pa / 128 ∧
          e'.dirty = byteMask va.toNat size ∧
          StoredOver va.toNat size v tag (s.homeLine (pa / 128)).data (s.homeLine (pa / 128)).tags e'.data e'.tags) ∧
      (s.isLocal pa = true → paDie pa ≠ s.hart.place.die → (∀ e ∈ s.mm.l2, e.pa ≠ pa / 128) →
        s.findL2 s.hart.place.die space line = none → (freeTwinWay (s.twinSet s.hart.asid (pa / 128)).2.1).isSome = true →
        s.plainTo space (pa / 128) →
        (∃ e', t.findL2 s.hart.place.die space line = some e' ∧ e'.out = true ∧ e'.pa = pa / 128 ∧
          StoredOver va.toNat size v tag (s.homeLine (pa / 128)).data (s.homeLine (pa / 128)).tags e'.data e'.tags) ∧
        ∃ r ∈ t.mm.twins, r.line = pa / 128 ∧ r.writer = s.hart.place.die ∧ r.die = paDie (pa / 128 * 128) ∧
          r.data = (s.homeLine (pa / 128)).data ∧ r.tags = (s.homeLine (pa / 128)).tags) ∧
      (s.isLocal pa = false → t.mm.bytes = s.mm.bytes ∧
        (∀ r ∈ t.mm.rdc, r.die = s.hart.place.die → r.line ≠ pa / 128) ∧
        (∃ r, (t.fab.stream (s.devStream (paDev pa) (pa / 128))).outstanding =
            (s.fab.stream (s.devStream (paDev pa) (pa / 128))).outstanding ++ [r] ∧
          r.op = 1#6 ∧ r.line = pa / 128 ∧ r.bmask = byteMask va.toNat size ∧ r.data = (placeBytes va.toNat v tag).data ∧
          r.eseq = (s.fab.stream (s.devStream (paDev pa) (pa / 128))).next) ∧
        ∀ e, s.findL2 s.hart.place.die space line = some e →
          ∃ e', t.findL2 s.hart.place.die space line = some e' ∧ e'.dirty = e.dirty ∧ e'.out = e.out ∧
            StoredOver va.toNat size v tag e.data e.tags e'.data e'.tags)) ∧
    (∀ c, w = .scratch → findCore s.mm.l1 s.hart.place.die s.hart.place.core s.hart.asid (va.toNat / 128) = some c →
      t.mm.bytes = s.mm.bytes ∧ t.mm.l2 = s.mm.l2 ∧
      ∃ c', findCore t.mm.l1 s.hart.place.die s.hart.place.core s.hart.asid (va.toNat / 128) = some c' ∧
        StoredOver va.toNat size v tag c.data c.tags c'.data c'.tags) ∧
    (∀ pa leaf, w = .cached pa leaf → ∀ a, t.byteAt a ≠ s.byteAt a → ∃ e ∈ s.mm.l2, (e.out = true ∨ e.dirty ≠ 0#128) ∧
      (a / 128 = e.pa ∨ ∃ ta, s.tagAddr e.pa = some ta ∧ ta / 16 = a / 16))) ∧
  (∀ (s : State) (va : Word) (size v : Nat) (pa : Nat) (leaf : Word) (b : StripEntry), s.hart.furlong.isSome = true →
    s.isLocal pa = true → s.rangeBusy s.who va.toNat size = false → s.stripRoom s.who (va.toNat / 128) = true →
    0 < size → va.toNat % 128 + size ≤ 128 →
    b = (s.hart.strip.find? (fun e => e.line == va.toNat / 128)).getD ⟨va.toNat / 128, 0, 0, 0⟩ →
    ∃ (t : State) (b' : StripEntry), storeLine s.who va size v false (.cached pa leaf) s = .ok ((), t) ∧
      t = { s with hart := { s.hart with strip := t.hart.strip } } ∧ b' ∈ t.hart.strip ∧ b'.line = va.toNat / 128 ∧
      b'.bytes = b.bytes ||| byteMask va.toNat size ∧ StoredOver va.toNat size v false b.data 0 b'.data 0 ∧
      ∀ e, e.line ≠ va.toNat / 128 → (e ∈ t.hart.strip ↔ e ∈ s.hart.strip))

/-- References (R211 to R216): LDREF writes a reference only from a field whose tag is set; SDREF stores with the tag; SPUB forks its walk and goes on; RTAG reads a tag; OBJINIT clears tags and writes a header. -/
def Obligations.References : Prop :=
  (∀ (s t : State) (d a : BitVec 5) (r : BitVec 2) (o : BitVec 10) (q : BitVec 1) (sc : BitVec 2) (va : Word) (w : Window)
      (t0 : State) (v : Nat) (tag : Bool),
    Instr.wf (.ldref d a r o q sc) = true → s.noWalk q sc → va = s.getX a + BitVec.ofInt 64 (8 * o.toInt) →
    classify s.who va 8 .load s = .ok (w, t0) → w.isReach = true → loadFrom s.who va 8 r.toNat w t0 = .ok ((v, tag), t) →
    ∃ u, exec (.ldref d a r o q sc) s = .next u ∧
      Wrote (t.ifAcquire q sc).clearReplies d (if tag then BitVec.ofNat 64 v else 0#64) u) ∧
  (∀ (s t0 t : State) (b a : BitVec 5) (o : BitVec 12) (va : Word) (w : Window) (pc pt : Nat),
    s.walkAhead none = none → RefChecked s (s.getX a) (s.getX b) o va w pc pt t0 → pc ≤ pt →
    storeLine s.who va 8 (s.getX b).toNat true w t0 = .ok ((), t) →
    ∃ u, exec (.sdref b a o) s = .next u ∧ Passed t.clearReplies u) ∧
  (∀ (s t : State) (b a : BitVec 5) (o : BitVec 12) (sc : BitVec 2) (va : Word) (w : Window) (pc pt : Nat),
    sc ≠ 0#2 → s.walkAhead none = none → RefChecked s (s.getX a) (s.getX b) o va w pc pt t → pc ≤ sc.toNat →
    t.unacked t.hart.uid = false →
    ∃ u, exec (.spub b a o sc) s = .next u ∧
      Passed ({ t with fresh := t.fresh + 1, walks := t.walks ++
        [{ id := t.fresh, uid := t.hart.uid, die := t.hart.place.die, core := t.hart.place.core, asid := t.hart.asid,
           scope := sc, field := va, ref := s.getX b, stack := if s.getX b = 0#64 then [] else [(s.getX b, false)],
           count := 0, state := .queued }] } : State).clearReplies u) ∧
  (∀ (s t0 t : State) (d a : BitVec 5) (i : BitVec 15) (va : Word) (w : Window), va = s.getX a + BitVec.ofInt 64 i.toInt →
    classify s.who va 8 .load s = .ok (w, t0) → w.isPlainOnly = false → (∀ pa, w ≠ .control pa) →
    ((w.isReach = false ∧ t = t0 → ∃ u, exec (.rtag d a i) s = .next u ∧ Wrote t.clearReplies d 0#64 u) ∧
     (∀ v tag, w.isReach = true → loadFrom s.who va 8 2 w t0 = .ok ((v, tag), t) →
       ∃ u, exec (.rtag d a i) s = .next u ∧ Wrote t.clearReplies d (if tag then 1#64 else 0#64) u))) ∧
  (∀ (s t1 t0 t : State) (b a : BitVec 5) (i : BitVec 15) (va : Word) (w : Window) (len first last : Nat),
    va = s.getX a + BitVec.ofInt 64 i.toInt → len = (s.getX b).toNat % 2 ^ 32 →
    classify s.who va 8 .store s = .ok (w, t1) → 0 < len → first = va.toNat / 128 → last = (va.toNat + 8 * len - 1) / 128 →
    checkReach s.who (va.toNat + 8 * len) (len / 8192 + 2) va.toNat t1 = .ok ((), t0) →
    initLines s.who va.toNat (va.toNat + 8 * len)
      (BitVec.ofNat 64 ((s.getX b).toNat / 2 ^ 35 * 2 ^ 35 + len)) (last - first + 1) first t0 = .ok ((), t) →
    ∃ u, exec (.objinit b a i) s = .next u ∧ Passed t.clearReplies u)

/-- The escape checks (R212, R213, R159): a store into an object of wider PSCOPE, and a publication below the PSCOPE of its container, take cause 0x0A with the scopes as fault values and store nothing. -/
def Obligations.EscapeTraps : Prop :=
  (∀ (s t : State) (b a : BitVec 5) (o : BitVec 12) (va : Word) (w : Window) (pc pt : Nat), s.walkAhead none = none →
    RefChecked s (s.getX a) (s.getX b) o va w pc pt t → pt < pc → t.takesTraps →
    ∃ u, exec (.sdref b a o) s = .next u ∧
      Entered t.clearReplies 0xA#8 false t.hart.pc va (BitVec.ofNat 64 pc) (BitVec.ofNat 64 pt) u) ∧
  (∀ (s t : State) (b a : BitVec 5) (o : BitVec 12) (sc : BitVec 2) (va : Word) (w : Window) (pc pt : Nat), sc ≠ 0#2 →
    s.walkAhead none = none → RefChecked s (s.getX a) (s.getX b) o va w pc pt t → sc.toNat < pc → t.takesTraps →
    ∃ u, exec (.spub b a o sc) s = .next u ∧
      Entered t.clearReplies 0xA#8 false t.hart.pc va (BitVec.ofNat 64 pc) (BitVec.ofNat 64 sc.toNat) u)

/-- Atomics (R153, R217): one whose checks succeed writes the old value of its dword to xd, with the release actions before and the acquire actions after it. At its home, for a line that no L2 holds, the dword takes the operation's value, its tag is cleared if it writes, and no other byte of memory changes. -/
def Obligations.ScalarAtomics : Prop :=
  (∀ (s t0 t1 t : State) (i : Instr) (op : Nat) (d a b : BitVec 5) (m l q : BitVec 1) (sc : BitVec 2) (w : Window) (pa : Nat)
     (mem : Bool) (old : Word),
     atomicRule i = some (op, d, a, b, m, l, q, sc) → i.wf = true → s.noWalk q sc →
     classify s.who (s.getX a) 8 .atomic s = .ok (w, t0) → w.atomicPa = some (pa, mem) →
     (t0.isLocal pa = true ∨ t0.hart.pathAt = some t0.hart.pc ∨
       (capOp (t0.pathCap (paDev pa)) op = true ∧ (m = 1#1 → capMsa (t0.pathCap (paDev pa)) = true))) →
     t1 = (if s.isLocal pa = true then t0 else ({ t0 with hart := { t0.hart with pathAt := some t0.hart.pc } } : State)) →
     t1.mayRelease l sc →
     atomicAt s.who (s.getX a) pa (if m = 1#1 ∨ mem = true then none else w.leaf) (BitVec.ofNat 4 op) (s.getX b) (s.getX d)
       (16 * sc.toNat + 64 * q.toNat + 128 * l.toNat + if m = 1#1 ∨ mem = true then 256 else 0) (t1.ifRelease l sc) = .ok (old, t) →
     ∃ u, exec i s = .next u ∧
       Wrote ((if l = 1#1 then t.shown (paDie pa) w sc else t).ifAcquire q sc).clearReplies d old u) ∧
  (∀ (s : State) (op : Nat) (space pa : Nat) (operand expected : Word) (mem : Bool) (core : Option Nat), op < 10 → pa % 8 = 0 → pa < 2 ^ 63 →
     Memory.wf s.mm.bytes = true → (∀ e ∈ s.mm.l2, e.pa ≠ pa / 128) → s.plainTo space (pa / 128) →
     let old := BitVec.ofNat 64 (natOfBytes (Memory.read s.mm.bytes pa 8))
     let r := s.atomicHome space pa (BitVec.ofNat 4 op) operand expected mem core
     r.2.1 = old ∧
     (r.2.2 = true ↔ pa / 32 ∈ s.mm.poison ∨ ∃ ta, s.tagAddr (pa / 128) = some ta ∧ ta / 32 ∈ s.mm.poison ∧
       (s.sureOf (pa / 128)).getLsbD (pa / 32 % 4) = false) ∧
     Memory.read r.1.mm.bytes pa 8 = bytesOfNat 8 ((atomicWrites op old operand expected).getD old).toNat ∧
     (∀ a, a < pa ∨ pa + 8 ≤ a → (∀ ta, s.tagAddr (pa / 128) = some ta → a < ta ∨ ta + 2 ≤ a) → r.1.byteAt a = s.byteAt a) ∧
     (∀ ta, s.tagAddr (pa / 128) = some ta → atomicWrites op old operand expected ≠ none →
       (natOfBytes (Memory.read r.1.mm.bytes ta 2)).testBit (pa / 8 % 16) = false))

/-- Atomic line regions (R155, R218, R219): an ALRB with a legal body opens a region on its line and goes to its ALRE; ALRE
runs it, and only the registers that the body wrote change. Body instructions compute what their scalar forms do. That an ALRB
ends as a step of its own and leaves the PC at its ALRE is the model's reading (log entry 16; R219 keeps the position at the
ALRB until the ALRE commits). -/
def Obligations.AtomicRegions : Prop :=
  (∀ (s t0 t1 t2 : State) (l : List (BitVec 32 × Instr)) (rl aq : BitVec 1) (sc : BitVec 2) (k : Nat) (i : Instr) (va : Word)
      (size pa : Nat) (st mem : Bool) (w : Window) (loads stores : Bool),
    gatherBody s.who s.hart.pc 25 1 s = .ok (.body l (.alre rl aq sc), t0) →
    ((l.map (·.2)).filterMap memShape).length ≤ 8 →
    firstAccess ⟨s.hart.x, ⟨0, 0, 0⟩, 0, 0, false⟩ 1 (l.map (·.2)) = some (k, i, va) → memShape i = some (size, st) →
    va.toNat % size = 0 → stores = ((l.map (·.2)).filterMap memShape).any (·.2) →
    loads = ((l.map (·.2)).filterMap memShape).any (fun (x : Nat × Bool) => !x.2) →
    classify s.who va size (if stores then .store else .load) t0 = .ok (w, t1) →
    (if stores && loads then ∃ w', classify s.who va size .load t1 = .ok (w', t2) else t2 = t1) →
    w.atomicPa = some (pa, mem) →
    (s.isLocal pa = true ∨ (capAlr (t2.pathCap (paDev pa)) = true ∧ capViaPcie (t2.pathCap (paDev pa)) = false)) →
    ∃ u, exec .alrb s = .next u ∧
      u = ({ t2 with hart := { t2.hart with
              region := some ⟨s.hart.pc, u.hart.pc, l.map (·.1), va.toNat / 128, pa⟩, pc := u.hart.pc } } : State).clearReplies ∧
      u.hart.pc = wrapPc (s.hart.pc + BitVec.ofNat 64 (4 * (l.length + 1)))) ∧
  (∀ (s t0 t : State) (r : Region) (l q : BitVec 1) (sc : BitVec 2) (w : Window) (h : HomeRun),
    Instr.wf (.alre l q sc) = true → s.hart.region = some r → s.noWalk q sc → s.mayRelease l sc →
    classify s.who (BitVec.ofNat 64 (r.line * 128)) 1
      (if ((bodyInstrs r.body).filterMap memShape).any (·.2) then .store else .load) (s.ifRelease l sc) = .ok (w, t0) →
    regionAt s.who r (if w.isMemSide then none else w.leaf)
      (16 * sc.toNat + 64 * q.toNat + 128 * l.toNat + 512 * ((bodyInstrs r.body).filterMap memShape).length) t0 = .ok (.ok h, t) →
    h.poisoned = false →
    ∃ u, exec (.alre l q sc) s = .next u ∧ u.hart.region = none ∧
      u.hart.pc = wrapPc (r.alrb + BitVec.ofNat 64 (4 * (r.body.length + 2))) ∧
      (∀ n : BitVec 5, n ≠ 0#5 → u.getX n = if h.written.getLsbD n.toNat then h.getX n else t.getX n) ∧
      (∀ pa, u.byteAt pa = ((if l = 1#1 then t.shown (paDie r.pa) w sc else t).ifAcquire q sc).byteAt pa)) ∧
  (∀ (g : BitVec 5 → Word) (i : Instr) (d : BitVec 5) (v pc : Word), bodyValue g i = some (d, v) →
     integerRule pc g i = some (d, v))

/-- FENCE and VDRAIN (R145, R147, R222): the kinds with their acquire and release actions; and what those actions leave in L1,
L2, memory and the generation counters. The machine runs in order (log entry 8), and that a kind without a release shows the
core's older stores at its scope too is the model's reading of R151 (log entry 69). -/
def Obligations.Fences : Prop :=
  (∀ (s : State) (k : BitVec 3) (sc : BitVec 2) (acq : Bool) (t : State), k.toNat ≤ 6 →
    acq = [true, false, false, false, true, false, true].getD k.toNat false →
    s.walkAhead (some sc) = none → s.planesFor sc → t = s.releaseMine sc →
    (sc ≠ 0#2 → t.unacked s.hart.uid = false ∧ t.planesMove = true) →
    ∃ u, exec (.fence k sc) s = .next u ∧ Passed (if acq then t.acquireMine sc else t).clearReplies u) ∧
  (∀ s : State, ∃ u, exec .vdrain s = .next u ∧ Passed s u) ∧
  (∀ (s : State) (die core : Nat) (sc : BitVec 2), s.mm.l2.Pairwise (fun a b => a.same b = false) →
     (s.release die core 0#2 = s ∧ s.release die core 1#2 = s ∧ s.acquire die core 0#2 = s) ∧
     (sc ≠ 0#2 → ∀ e ∈ (s.acquire die core sc).mm.l1, e.die = die → e.core = core → e.pin.isSome = true) ∧
     (2 ≤ sc.toNat → ∀ e ∈ s.mm.l2, e.die = die → e.writers.getLsbD core = true →
       (∃ f ∈ (s.release die core sc).mm.l2, f.same e = true ∧ f.data = e.data ∧ f.out = false ∧ (paDie (e.pa * 128) = die → f.dirty = 0)) ∧
       (e.out = false → paDie (e.pa * 128) = die → Memory.wf s.mm.bytes = true → (∀ f ∈ s.mm.l2, f.pa = e.pa → f = e) →
         (∀ f ∈ s.mm.l2, ∀ ta, s.tagAddr f.pa = some ta → ta + 2 ≤ e.pa * 128 ∨ e.pa * 128 + 128 ≤ ta) →
         ∀ i < 128, e.dirty.getLsbD i = true → (s.release die core sc).byteAt (e.pa * 128 + i) = BitVec.ofNat 8 (getElt e.data 8 i))) ∧
     (2 ≤ sc.toNat → ∀ e ∈ (s.acquire die core sc).mm.l2, e.die = die →
       e.out = false ∧ (e.dirty = 0 → s.isLocal (e.pa * 128) = true ∧ paDie (e.pa * 128) = die)) ∧
     (2 ≤ sc.toNat → ∀ h : die < 4, (s.acquire die core sc).mm.gen[die] = s.mm.gen[die] + 1#16) ∧
     (∀ pa leaf, (sc.toNat < 2 → s.shown die (.cached pa leaf) sc = s) ∧
       (2 ≤ sc.toNat → ∀ e ∈ (s.shown die (.cached pa leaf) sc).mm.l2, e.die = die → e.pa = pa / 128 → e.out = false ∧ e.dirty = 0)))

/-- WAITC (R223) writes the count once the count has reached the target, and changes nothing before; WFI, YIELD and HALT (R69,
R227). Three points are the model's readings: x0 as the address register counts as target 0 (log entry 43), the record of a
stopped copy is told once (log entry 32), and a WFI compares with what it saw when it began (log entry 17). -/
def Obligations.WaitsAndHalt : Prop :=
  (∀ (s : State) (d a : BitVec 5) (k : BitVec 4), (s.hart.copyFault = none ∨ s.hart.copyTold = true) →
    ((s.hart.getK k).toNat + 2 ^ 64 - (s.getX a).toNat) % 2 ^ 64 < 2 ^ 63 →
    ∃ u, exec (.waitc d a k) s = .next u ∧ Wrote s.clearReplies d (s.hart.getK k) u) ∧
  (∀ (s : State) (d a : BitVec 5) (k : BitVec 4), (s.hart.copyFault = none ∨ s.hart.copyTold = true) →
    2 ^ 63 ≤ ((s.hart.getK k).toNat + 2 ^ 64 - (s.getX a).toNat) % 2 ^ 64 → exec (.waitc d a k) s = .next s.hold) ∧
  (∀ s : State, ∃ u, exec .wfi s = .next u ∧ u.hart.wait = .wfi s.hart.k.toList (s.boundPhases s.hart) ∧
    u = { s with hart := { s.hart with wait := u.hart.wait } }) ∧
  (∀ s : State, ∃ u, exec .yield s = .next u ∧ (s.advance.yieldsTo s.advance.hart = false → Passed s u) ∧
    (s.advance.yieldsTo s.advance.hart = true → u = s.advance.preemptNow s.hart.uid)) ∧
  (∀ s : State, s.walkAhead none = none → (s.hart.copyFault = none ∨ s.hart.copyTold = true) →
    ∃ u, exec .halt s = .next u ∧ u.hart.uid = s.hart.uid ∧ u.hart.phase = .retired ∧ u.hart.league = none ∧ u.hart.matQ = [] ∧
      u.hart.isReady = false ∧ ∀ c ∈ u.mm.l1, c.pin ≠ some s.hart.uid)

/-- LJOIN (R42, R224) with its statuses in order, and LLEAVE (R43). -/
def Obligations.Leagues : Prop :=
  (∀ (s : State) (d a : BitVec 5) (id : Nat) (members : List Member), id = (s.getX a).toNat →
     members = ((s.leagueOf id).map (·.members)).getD [] →
     ∃ (u : State) (st : Nat), exec (.ljoin d a) s = .next u ∧
       (4095 < id → st = 5) ∧
       (id ≤ 4095 → s.hart.league ≠ none → st = 1) ∧
       (id ≤ 4095 → s.hart.league = none →
         (∀ l, s.leagueOf id = some l → l.owner ≠ s.hart.asid → st = 3) ∧
         ((∀ l, s.leagueOf id = some l → l.owner = s.hart.asid) →
           (3072 ≤ members.length → st = 2) ∧
           (members.length < 3072 → 192 * s.leagueCount members s.hart < members.length + 1 → st = 4) ∧
           (members.length < 3072 → members.length + 1 ≤ 192 * s.leagueCount members s.hart → st = 0))) ∧
       (st ≠ 0 → Wrote s d (BitVec.ofNat 64 st) u) ∧
       (st = 0 → u.hart.league = some id ∧ (d ≠ 0#5 → u.getX d = 0#64) ∧ (∀ r, r ≠ d → u.getX r = s.getX r) ∧
         (∀ pa, u.byteAt pa = s.byteAt pa) ∧
         ∃ l m, u.leagueOf id = some l ∧ l.members = members ++ [m] ∧ m.uid = s.hart.uid ∧
           (s.leagueOf id = none → l.owner = s.hart.asid ∧ ∀ n, m.nextOf n = 0#32) ∧
           (∀ k, s.leagueOf id = some k → l.owner = k.owner ∧ l.objects = k.objects ∧ ∀ n, m.nextOf n = (k.object n).c + 1#32))) ∧
  (∀ s : State, ∃ u, exec .lleave s = .next u ∧ u.hart.league = none ∧
     u.hart.pc = wrapPc (s.hart.pc + 4#64) ∧ u.hart.x = s.hart.x ∧
     (s.hart.league = none → Passed s u) ∧
     (∀ id, s.hart.league = some id → (∀ n b, u.hart.getB n = some b → b.league ≠ id) ∧
       (∀ l, u.leagueOf id = some l → ∀ m ∈ l.members, m.uid ≠ s.hart.uid)))

/-- BINIT, BARR and BWAIT (R45 to R47, R225) with their traps; and a phase completes exactly when its last member arrives. A
BWAIT whose phase has no recorded scope acquires at package scope by the model's choice (log entry 53). -/
def Obligations.Barriers : Prop :=
  (∀ (s : State) (n : BitVec 3) (id : Nat), s.hart.league = some id →
    ∃ u, exec (.binit n) s = .next u ∧ u.hart.getB n = some ⟨id, n⟩ ∧ (∀ k, k ≠ n → u.hart.getB k = s.hart.getB k) ∧
      u = ({ s with hart := { s.hart.atStart with b := u.hart.b, pc := wrapPc (s.hart.pc + 4#64) } } : State).clearReplies) ∧
  (∀ (s : State) (d : BitVec 5) (n o : BitVec 3) (l : League) (m : Member), s.barrierOf n = some (l, o, m) →
    s.walkAhead none = none → (m.nextOf o - (l.object o).c).toNat < 2 → s.unacked s.hart.uid = false →
    ∃ u, exec (.barr d n) s = .next u ∧ Wrote (s.arrive l o m).clearReplies d (BitVec.ofNat 64 (m.nextOf o).toNat) u) ∧
  (∀ (s : State) (a : BitVec 5) (n o : BitVec 3) (l : League) (m : Member) (p : BitVec 32) (sc : BitVec 2),
    s.barrierOf n = some (l, o, m) → p = BitVec.ofNat 32 (s.getX a).toNat → ((l.object o).c - p - 1#32).toNat < 2 ^ 31 →
    sc = (((l.object o).scopes.find? (fun e => e.1 == p)).map (·.2)).getD 2#2 → s.walkAhead (some sc) = none →
    s.planesFor sc → ∃ u, exec (.bwait a n) s = .next u ∧
      Passed ({ s.acquireMine sc with hart := { (s.acquireMine sc).hart with atBarrier := false } } : State).clearReplies u) ∧
  (∀ (s : State) (n : BitVec 3), s.takesTraps →
    (s.hart.league = none → ∃ u, exec (.binit n) s = .next u ∧
      Entered s.clearReplies 8#8 false s.hart.pc 0#64 (BitVec.ofNat 64 n.toNat) 0#64 u) ∧
    (s.barrierOf n = none → ∀ x, (s.walkAhead none = none → ∃ u, exec (.barr x n) s = .next u ∧
        Entered s.clearReplies 8#8 false s.hart.pc 0#64 (BitVec.ofNat 64 n.toNat) 0#64 u) ∧
      (∃ u, exec (.bwait x n) s = .next u ∧
        Entered s.clearReplies 8#8 false s.hart.pc 0#64 (BitVec.ofNat 64 n.toNat) 0#64 u))) ∧
  (∀ (s : State) (l : League) (o : BitVec 3) (m : Member), s.leagueOf l.id = some l → m ∈ l.members →
     (l.members.map (·.uid)).Nodup → (∀ k ∈ l.members, k.nextOf o = (l.object o).c ∨ k.nextOf o = (l.object o).c + 1#32) →
     m.nextOf o = (l.object o).c → (∀ k ∈ m.uid :: (l.object o).arrived, s.unacked k = false) → s.planesMove = true →
     ∃ l', (s.arrive l o m).leagueOf l.id = some l' ∧ l'.members.length = l.members.length ∧
       (∀ m' ∈ l'.members, m'.uid = m.uid → m'.nextOf o = m.nextOf o + 1#32) ∧
       ((∀ k ∈ l.members, k.uid ≠ m.uid → k.nextOf o = (l.object o).c + 1#32) → (l'.object o).c = (l.object o).c + 1#32) ∧
       ((∃ k ∈ l.members, k.uid ≠ m.uid ∧ k.nextOf o = (l.object o).c) → (l'.object o).c = (l.object o).c))

/-- SPALLOC and SPFREE (R125, R226). Status 3 comes before status 2 for a line that another hart pins in a set with six pinned
ways: the model's choice (log entry 54). -/
def Obligations.ScratchpadAllocation : Prop :=
  (∀ (s : State) (d a : BitVec 5) (line : Nat), line = (s.getX a).toNat / 128 → s.inScratch s.hart.asid (s.getX a) = true →
    s.rangeBusy s.who (line * 128) 128 = false →
    ∃ u, exec (.spalloc d a) s = .next u ∧
      (∀ c, findCore s.mm.l1 s.hart.place.die s.hart.place.core s.hart.asid line = some c →
        Wrote s.clearReplies d (if c.pin = some s.hart.uid then 1#64 else 3#64) u) ∧
      (findCore s.mm.l1 s.hart.place.die s.hart.place.core s.hart.asid line = none →
        (6 ≤ s.pinnedWays s.hart.place.die s.hart.place.core line → Wrote s.clearReplies d 2#64 u) ∧
        (s.pinnedWays s.hart.place.die s.hart.place.core line < 6 → (d ≠ 0#5 → u.getX d = 0#64) ∧
          (∀ r, r ≠ d → u.getX r = s.getX r) ∧ (∀ pa, u.byteAt pa = s.byteAt pa) ∧
          ∃ c, findCore u.mm.l1 s.hart.place.die s.hart.place.core s.hart.asid line = some c ∧ c.pin = some s.hart.uid ∧ c.data = 0))) ∧
  (∀ (s : State) (a : BitVec 5) (line : Nat), line = (s.getX a).toNat / 128 → s.inScratch s.hart.asid (s.getX a) = true →
    s.rangeBusy s.who (line * 128) 128 = false →
    (findCore s.mm.l1 s.hart.place.die s.hart.place.core s.hart.asid line = none →
      ∃ u, exec (.spfree a) s = .next u ∧ Passed s.clearReplies u) ∧
    (∀ c, findCore s.mm.l1 s.hart.place.die s.hart.place.core s.hart.asid line = some c → c.pin = some s.hart.uid →
      ∃ u, exec (.spfree a) s = .next u ∧ u.hart.x = s.hart.x ∧ u.hart.pc = wrapPc (s.hart.pc + 4#64) ∧
        (∀ pa, u.byteAt pa = s.byteAt pa) ∧
        findCore u.mm.l1 s.hart.place.die s.hart.place.core s.hart.asid line = none) ∧
    (∀ c, findCore s.mm.l1 s.hart.place.die s.hart.place.core s.hart.asid line = some c →
      (∃ n, c.pin = some n ∧ n ≠ s.hart.uid) → s.takesTraps →
      ∃ u, exec (.spfree a) s = .next u ∧ Entered s.clearReplies 8#8 false s.hart.pc (s.getX a) 0#64 1#64 u)) ∧
  (∀ (s : State) (d a : BitVec 5), s.inScratch s.hart.asid (s.getX a) = false → s.takesTraps →
    (∃ u, exec (.spalloc d a) s = .next u ∧ Entered s.clearReplies 8#8 false s.hart.pc (s.getX a) 0#64 1#64 u) ∧
    (∃ u, exec (.spfree a) s = .next u ∧ Entered s.clearReplies 8#8 false s.hart.pc (s.getX a) 0#64 1#64 u))

/-- ECALL, EBREAK, the pool marker and ERET (R186, R227, R365). -/
def Obligations.SystemInstructions : Prop :=
  (∀ s : State, s.takesTraps →
    (∃ u, exec .ecall s = .next u ∧ Entered s 0x12#8 false (s.hart.pc + 4#64) 0#64 0#64 0#64 u) ∧
    (∃ u, exec .ebreak s = .next u ∧ Entered s 0x11#8 false s.hart.pc 0#64 0#64 0#64 u) ∧
    (∀ n : BitVec 25, ∃ u, exec (.poolMarker n) s = .next u ∧
      Entered s 2#8 false s.hart.pc (BitVec.ofNat 64 (0x7F * 2 ^ 25 + n.toNat)) 0#64 0#64 u)) ∧
  (∀ s : State, s.hart.csr.hm = true → ∃ u, exec .eret s = .next u ∧ u.hart.pc = s.hart.csr.epc ∧
    u.hart.startElem = s.hart.csr.elemStart.toNat ∧ u.hart.csr = { s.hart.csr with hm := false } ∧ u.hart.x = s.hart.x ∧
    u.hart.v = s.hart.v ∧ u.hart.m = s.hart.m ∧ u.hart.records = (if s.hart.posWritten then [] else s.hart.records.filter (fun r => !r.handler)) ∧
    (∀ pa, u.byteAt pa = s.byteAt pa)) ∧
  (∀ s : State, s.hart.csr.hm = false → s.takesTraps → ∃ u, exec .eret s = .next u ∧
    Entered s 3#8 false s.hart.pc 0#64 0#64 0#64 u)

/-- CSR instructions (R170, R171, R228): a permitted access writes the old value to xd and the new one to the CSR. -/
def Obligations.CsrAccess : Prop :=
  ∀ (s : State) (n : BitVec 12) (cls : CsrClass), csrClass n = some cls → (n = 9#12 → s.hart.matQ = []) →
    (∀ d, ∃ u, exec (.csrr d n) s = .next u ∧ Wrote s.clearReplies d (s.readCsr n) u) ∧
    (∀ d, (∃ u, exec (.csrs d 0#5 n) s = .next u ∧ Wrote s.clearReplies d (s.readCsr n) u) ∧
      (∃ u, exec (.csrc d 0#5 n) s = .next u ∧ Wrote s.clearReplies d (s.readCsr n) u)) ∧
    ((cls = .rw ∨ (cls = .h ∧ s.hart.csr.hm = true)) → ∀ d a,
      (∃ u, exec (.csrw d a n) s = .next u ∧ Wrote (s.writeCsr n (s.getX a)).clearReplies d (s.readCsr n) u) ∧
      (a ≠ 0#5 → (∃ u, exec (.csrs d a n) s = .next u ∧
          Wrote (s.writeCsr n (s.readCsr n ||| s.getX a)).clearReplies d (s.readCsr n) u) ∧
        (∃ u, exec (.csrc d a n) s = .next u ∧
          Wrote (s.writeCsr n (s.readCsr n &&& ~~~(s.getX a))).clearReplies d (s.readCsr n) u)))

/-- What a write of each CSR holds (R25, R171 to R174), and cause 0x03 or 0x01 for an access that its class or number forbids (R170). -/
def Obligations.CsrFields : Prop :=
  (∀ (s : State) (v : Word),
     ((s.writeCsr 0#12 v).hart.csr.sove = v.getLsbD 1 ∧ (s.writeCsr 0#12 v).hart.csr.hm = s.hart.csr.hm) ∧
     (s.writeCsr 1#12 v).readCsr 1#12 = BitVec.ofNat 64 (v.toNat % 512) ∧
     (s.writeCsr 2#12 v).readCsr 2#12 = BitVec.ofNat 64 (v.toNat % 2 ^ 57 / 4 * 4) ∧
     (s.writeCsr 3#12 v).readCsr 3#12 = v ∧ (s.writeCsr 4#12 v).readCsr 4#12 = v ∧ (s.writeCsr 5#12 v).readCsr 5#12 = v ∧
     (s.writeCsr 6#12 v).readCsr 6#12 = v ∧
     (s.writeCsr 7#12 v).readCsr 7#12 = BitVec.ofNat 64 (v.toNat % 2 ^ 57 / 4 * 4) ∧
     (s.writeCsr 8#12 v).readCsr 8#12 = v ∧
     (s.writeCsr 9#12 v).readCsr 9#12 = BitVec.ofNat 64 (v.toNat % 64) ∧
     (s.writeCsr 10#12 v).readCsr 10#12 = BitVec.ofNat 64 (Max.max 1 (Min.min 256 v.toNat)) ∧
     (s.writeCsr 11#12 v).readCsr 11#12 = BitVec.ofNat 64 (v.toNat / 8 * 8) ∧
     (s.writeCsr 12#12 v).readCsr 12#12 = v ∧
     (∀ n m : BitVec 12, n.toNat ≤ 12 → m ≠ n → (s.writeCsr n v).readCsr m = s.readCsr m)) ∧
  (∀ (s : State) (n : BitVec 12), s.takesTraps →
     (csrClass n = some .r ∨ csrClass n = some .h → ∀ d a,
       (∃ u, exec (.csrw d a n) s = .next u ∧ Entered s.clearReplies 3#8 false s.hart.pc (BitVec.ofNat 64 n.toNat) 0#64 0#64 u) ∧
       (a ≠ 0#5 →
         (∃ u, exec (.csrs d a n) s = .next u ∧ Entered s.clearReplies 3#8 false s.hart.pc (BitVec.ofNat 64 n.toNat) 0#64 0#64 u) ∧
         (∃ u, exec (.csrc d a n) s = .next u ∧ Entered s.clearReplies 3#8 false s.hart.pc (BitVec.ofNat 64 n.toNat) 0#64 0#64 u))) ∧
     (csrClass n = none → ∀ (d a : BitVec 5) (i : Instr) (fn : Nat),
       (i = .csrr d n ∧ fn = 0 ∧ a = 0#5) ∨ (i = .csrw d a n ∧ fn = 1) ∨ (i = .csrs d a n ∧ fn = 2) ∨ (i = .csrc d a n ∧ fn = 3) →
       ∃ u, exec i s = .next u ∧ Entered s.clearReplies 1#8 false s.hart.pc
         (BitVec.ofNat 64 (0x2B * 2 ^ 25 + d.toNat * 2 ^ 20 + a.toNat * 2 ^ 15 + fn * 2 ^ 12 + n.toNat)) 0#64 0#64 u))

/-- A load or store outside the address space takes cause 0x08, a misaligned one cause 0x04, each at TVEC with its fault values (R203, R365, R366); a page fault of a load or store first goes to the pager and the hart waits (R373); a cause raised in a handler, or with no handler, ends the hart and fails its packet (R367). -/
def Obligations.ScalarTraps : Prop :=
  (∀ (s : State) (i : Instr) (va : Word) (size : Nat), s.takesTraps →
    ((∃ d r sg, loadRule s.getX i = some (d, va, r, size, sg)) ∨ (∃ b, storeRule s.getX i = some (b, va, size))) →
    (2 ^ 57 ≤ va.toNat → ∃ u, exec i s = .next u ∧ Entered s.clearReplies 8#8 false s.hart.pc va 0#64 1#64 u) ∧
    (va.toNat < 2 ^ 57 → va.toNat % size ≠ 0 →
      ∃ u, exec i s = .next u ∧ Entered s.clearReplies 4#8 false s.hart.pc va 0#64 1#64 u)) ∧
  (∀ (s : State) (i : Instr) (va : Word) (size : Nat) (c : BitVec 8), c = 5#8 ∨ c = 6#8 ∨ c = 7#8 →
     ((∃ d r sg, loadRule s.getX i = some (d, va, r, size, sg) ∧ classify s.who va size .load s = .error (.fault c)) ∨
      (∃ b, storeRule s.getX i = some (b, va, size) ∧ classify s.who va size .store s = .error (.fault c))) →
     ∃ u v, exec i s = .next u ∧ u.hart.wait = .pager v ∧ v.cause = c ∧ v.va = va ∧ u.hart.csr = s.hart.csr ∧
       u.hart.pc = s.hart.pc ∧ u.hart.x = s.hart.x ∧ u.hart.isReady = false ∧ ∀ pa, u.byteAt pa = s.byteAt pa) ∧
  (∀ s : State, (s.hart.csr.hm = true ∨ s.hart.csr.tvec = 0#64) → s.hart.furlong = none → s.hart.strip = [] →
     s.hart.region = none →
     ∃ u, exec .ebreak s = .next u ∧ u.hart.phase = .ended ∧ u.hart.csr = s.hart.csr ∧ u.hart.x = s.hart.x ∧
       u.hart.league = none ∧
       ∃ r ∈ u.fe.fails, r.qid = s.hart.queue ∧ r.hartId = s.hart.csr.hartId ∧ r.epc = s.hart.pc ∧ r.cause = 0x11#64)

/-- A step runs what it decodes: a ready hart the word at its PC, fetched through its memory, after the counts of its clock; a bank the half-word at its counter; an event what it names. The order of turns is the agenda's (log entry 7). -/
def Obligations.StepRunsDecoded : Prop :=
  (∀ (s t f u v : State) (rest : List Turn) (w : BitVec 32) (i : Instr) (l : List Byte),
    s.agenda = .hart s.hart.uid :: rest → t = ({ s with agenda := rest } : State).clock → t.mayTurn →
    f = { t with hart := { t.hart with held := false, fetched := true } } →
    fetchWord f.who f.hart.pc f = .ok (w, u) →
    decodeBytes (bytesOfWord w) = .ok (i, l) → u.awaitsStream i = false → furlongPre i u = .ok ((), v) →
    step s = match exec i (v.begin i) with
      | .next x => .next (x.afterTurn (t.readyBeside t.hart))
      | r => r) ∧
  (∀ (s t : State) (rest : List Turn) (b : Nat) (k : Bank) (h : BitVec 16) (i : Instr) (l : List Byte) (c row span : Nat),
    s.agenda = .bank b :: rest → t = ({ s with agenda := rest } : State).clock → k = t.bank b → k.run = .program c row span →
    (k.nextIsRow = true → t.bankHeld b = false ∧ k.susp = false ∧ k.moving = none ∧ (k.pending = [] ∨ k.resumed = true)) → k.upc < 64 → k.microPsn.getLsbD k.upc = false →
    h = BitVec.ofNat 16 (getElt k.micro 16 k.upc) → decodeMicroBytes [h.extractLsb' 0 8, h.extractLsb' 8 8] = .ok (i, l) →
    step s = exec i { t with bankSel := b }) ∧
  (∀ (s : State) (rest : List Turn) (i : Instr), s.agenda = .event i :: rest →
    step s = exec i ({ s with agenda := rest } : State).clock)

/-- R181: a word that does not decode, and an instruction whose field holds a value that it reserves, take cause 0x01 with the word as FAULTVA. -/
def Obligations.IllegalWordsTrap : Prop :=
  (∀ (s t f u : State) (rest : List Turn) (w : BitVec 32) (e : DecodeError), s.agenda = .hart s.hart.uid :: rest →
     t = ({ s with agenda := rest } : State).clock → t.mayTurn →
     f = { t with hart := { t.hart with held := false, fetched := true } } →
     fetchWord f.who f.hart.pc f = .ok (w, u) →
     decodeBytes (bytesOfWord w) = .error e → u.takesTraps →
     ∃ v, step s = .next v ∧ Entered u 1#8 (decide (0x30 ≤ w.toNat / 2 ^ 25 ∧ w.toNat / 2 ^ 25 ≤ 0x3A)) u.hart.pc
       (BitVec.ofNat 64 w.toNat) 0#64 0#64 v) ∧
  (∀ (s : State) (i : Instr) (w : BitVec 32), i.wf = false → encodeWord i = some w → s.takesTraps →
    ∃ u, exec i s = .next u ∧ Entered s.clearReplies 1#8 (decide (0x30 ≤ w.toNat / 2 ^ 25 ∧ w.toNat / 2 ^ 25 ≤ 0x3A)) s.hart.pc
      (BitVec.ofNat 64 w.toNat) 0#64 0#64 u)

/-- Words of the spec's examples decode to the instructions that their listings name. -/
def Obligations.DecodeWords : Prop :=
  decodeWord 0x02938800#32 = .ok (.add 9 7 2) ∧ decodeWord 0x06630018#32 = .ok (.addi 6 6 24) ∧
  decodeWord 0x1C537FFE#32 = .ok (.beq 5 6 0x7FFE) ∧ decodeWord 0x180FFFF6#32 = .ok (.jal 0 0xFFFF6) ∧
  decodeWord 0x2E736000#32 = .ok (.ld 7 6 3 0) ∧ decodeWord 0x3E708008#32 = .ok (.sd 7 1 8) ∧
  decodeWord 0x36A28012#32 = .ok (.ldacq 10 5 0 2 2) ∧ decodeWord 0x42AA000E#32 = .ok (.ldref 10 20 0 1 1 2) ∧
  decodeWord 0x4CA298E0#32 = .ok (.amoadd 10 5 6 0 1 1 2) ∧ decodeWord 0x4E0000E1#32 = .ok (.alre 1 1 2) ∧
  decodeWord 0x500001A0#32 = .ok (.fence 6 2) ∧ decodeWord 0x51180017#32 = .ok (.waitc 17 16 1) ∧
  decodeWord 0x560A1007#32 = .ok (.csrw 0 20 7) ∧ decodeWord 0x54000005#32 = .ok .halt ∧
  decodeWord 0xFE000002#32 = .ok (.poolMarker 2) ∧ decodeWord 0x60142980#32 = .ok (.vsetl 10 5 12) ∧
  decodeWord 0x62040863#32 = .ok (.vmac 0 2 1 3) ∧ decodeWord 0x6A082162#32 = .ok (.mxor 0 4 4 11) ∧
  decodeWord 0x6CA8B1C2#32 = .ok (.vldg 1 20 11 7 0) ∧ decodeWord 0x70108043#32 = .ok (.opa 0 0 1 0 1 3) ∧
  decodeWord 0x72133048#32 = .ok (.tbld 0 1 19 1 8) ∧ decodeWord 0x7270B00C#32 = .ok (.nbdrain 0 11 0 12) ∧
  decodeWord 0x74002200#32 = .ok (.tcopy 2 8) ∧ decodeWord 0#32 = .error (.reservedMajor 0) ∧
  decodeMicro 0x3710#16 = .ok (.rshadd 1 1 2 2 0) ∧ decodeMicro 0x9000#16 = .ok (.rloop 0 0)

/-- Decoding an encoded instruction gives it back, with the bytes that follow it, for every instruction and operand. -/
def Obligations.EncodeDecode : Prop :=
  (∀ (i : Instr) (w : BitVec 32) (rest : List Byte), encodeWord i = some w →
    decodeBytes (bytesOfWord w ++ rest) = .ok (i, rest)) ∧
  (∀ (i : Instr) (h : BitVec 16) (rest : List Byte), encodeMicro i = some h →
    decodeMicroBytes (h.extractLsb' 0 8 :: h.extractLsb' 8 8 :: rest) = .ok (i, rest))

/-- A word that decodes is the encoding of what it decodes to, so no two words have one meaning and no bit is ignored (R181, R182). -/
def Obligations.DecodeEncode : Prop :=
  (∀ (w : BitVec 32) (i : Instr), decodeWord w = .ok i → encodeWord i = some w) ∧
  (∀ (h : BitVec 16) (i : Instr), decodeMicro h = .ok i → encodeMicro i = some h)

/-- Every step keeps memory in its one form (log entry 3). -/
def Obligations.MemoryStaysCanonical : Prop :=
  ∀ s t : State, s.canonical → step s = .next t → t.canonical

/-- The machine right after power-on: Terak's registers (R335, R342), PLANEMAP (R149) and the module maps (R401) at the values stated for reset; memory in its one form, reading zero (log entry 3), and an empty hart slot at its launch values (log entry 1). -/
def Obligations.ResetValues : Prop :=
  (State.reset.canonical ∧ (∀ pa, State.reset.byteAt pa = 0#8) ∧ State.reset.mm.poison = []) ∧
  (State.reset.terak.bootStat.getLsbD 8 = false ∧ State.reset.terak.fail = 0#8 ∧ State.reset.terak.agent = .nobody ∧
    State.reset.terak.epoch = 0#30 ∧ State.reset.terak.leaseMs = 10000#32 ∧ State.reset.terak.arb = 2#2 ∧
    State.reset.terak.cap = 2#2 ∧ State.reset.frontEndsUp = false) ∧
  ((∀ b < 64, State.reset.fab.planeMap[b]? = some (BitVec.ofNat 3 b)) ∧ (∀ b p i, i < 16 → State.reset.fab.modAt b p i = i) ∧
    State.reset.fab.dead = 0#8 ∧ State.reset.fe.jobs = [] ∧ State.reset.err.banks = []) ∧
  (State.reset.hart.phase = .absent ∧ State.reset.others = [] ∧ (∀ r, State.reset.getX r = 0#64) ∧
    (∀ n, State.reset.hart.getMd n = 0x780#32) ∧ ∀ r, State.reset.hart.getV r = 0#262144)

/-- No state stops the machine: this model takes every exception and models every instruction, so `exec i s` answers a next state for every instruction i and every state s, and each step does (R181, R365). -/
def Obligations.EveryStepAnswersNext : Prop :=
  (∀ s : State, ∃ t, step s = .next t) ∧ (∀ (i : Instr) (s : State), ∃ t, exec i s = .next t)

/-- VSETL, VDECL and VMODE (R27, R29, R235 to R237, R241, R242): lengths, register counts with their refusal, and modes with
the reserved values that trap. Where registers at and above NREGS hold zero, which every change of NREGS keeps, a growing
VDECL finds its new registers zero, and one that shrinks leaves the gated ones zero (R241). -/
def Obligations.VectorSetUp : Prop :=
  (∀ (s : State) (d a b : BitVec 5), s.frw = false →
    ∃ u, exec (.vsetl d a b) s = .next u ∧ u.hart.vl = Min.min (s.getX a).toNat s.hart.vlMax ∧
      Wrote ({ s with hart := { s.hart with vl := u.hart.vl } } : State).clearReplies d (BitVec.ofNat 64 u.hart.vl) u) ∧
  (∀ (s t : State) (d a b : BitVec 5), s.frw = true → commitFurlong s = .ok ((), t) →
    ∃ u f, exec (.vsetl d a b) s = .next u ∧ u.hart.vl = Min.min (s.getX a).toNat s.hart.vlMax ∧
      (d ≠ 0#5 → u.getX d = BitVec.ofNat 64 u.hart.vl) ∧ (∀ r, r ≠ d → u.getX r = t.getX r) ∧
      u.hart.pc = wrapPc (t.hart.pc + 4#64) ∧ u.hart.furlong = some f ∧ f.start = s.hart.pc ∧ f.snapX = u.hart.x ∧
      f.snapMd = t.hart.md ∧ f.snapIx = t.hart.ix ∧ (∀ r : BitVec 5, r ≠ 0#5 → f.snapMask.getLsbD r.toNat = (s.getX b).getLsbD r.toNat) ∧
      (∀ pa, u.byteAt pa = t.byteAt pa)) ∧
  (∀ (s : State) (d a : BitVec 5) (n : Nat), s.hart.matQ = [] → n = [6, 12, 24, 48].getD ((s.getX a).toNat % 4) 0 →
    ∃ u, exec (.vdecl d a) s = .next u ∧
      (n ≤ s.hart.nregs → u.hart.nregs = n ∧ (d ≠ 0#5 → u.getX d = 0#64) ∧ (∀ r < n, u.hart.getV r = s.hart.getV r) ∧
        (∀ r, n ≤ r → u.hart.getV r = 0#262144)) ∧
      (s.hart.nregs < n →
        (n - s.hart.nregs) * s.hart.vlMax * 8 ≤ s.freeFile s.hart.place.die s.hart.place.core →
        (∀ r, s.hart.nregs ≤ r → s.hart.getV r = 0#262144) →
        u.hart.nregs = n ∧ (d ≠ 0#5 → u.getX d = 0#64) ∧ (∀ r < s.hart.nregs, u.hart.getV r = s.hart.getV r) ∧
        (∀ r, s.hart.nregs ≤ r → r < n → u.hart.getV r = 0#262144) ∧ (∀ r, n ≤ r → u.hart.getV r = 0#262144) ∧
        ∀ r < 48, u.hart.vPi[r]? = if s.hart.nregs ≤ r then some s.hart.vlMax else s.hart.vPi[r]?) ∧
      (s.hart.nregs < n →
        s.freeFile s.hart.place.die s.hart.place.core < (n - s.hart.nregs) * s.hart.vlMax * 8 → Wrote s d 1#64 u)) ∧
  (∀ (s : State) (n : BitVec 2) (d a : BitVec 5) (v : Nat), v = (s.getX a).toNat % 2 ^ 32 → v < 2 ^ 18 → v % 16 < 14 →
    v / 16 % 8 < 5 → (v / 128 % 16 < 12 ∨ v / 128 % 16 = 15) →
    ∃ u, exec (.vmode n d a) s = .next u ∧ u.hart.getMd n = BitVec.ofNat 32 v ∧ (∀ k, k ≠ n → u.hart.getMd k = s.hart.getMd k) ∧
      Wrote { s with hart := { s.hart with md := u.hart.md } } d (BitVec.ofNat 64 (s.hart.getMd n).toNat) u) ∧
  (∀ (s : State) (n : BitVec 2) (d a : BitVec 5) (v : Nat), v = (s.getX a).toNat % 2 ^ 32 → s.takesTraps →
    (2 ^ 18 ≤ v ∨ 14 ≤ v % 16 ∨ 5 ≤ v / 16 % 8 ∨ (12 ≤ v / 128 % 16 ∧ v / 128 % 16 ≤ 14)) →
    ∃ u, exec (.vmode n d a) s = .next u ∧ u.hart.md = s.hart.md ∧
      Entered s 1#8 true s.hart.pc (BitVec.ofNat 64 (wordOf (.vmode n d a)).toNat) 0#64 0#64 u)

/-- R243: IXSET, IXBND, IXSTEP and IXLANE write the old index register to xd and change the fields that they name, and nothing else. -/
def Obligations.IndexRegisters : Prop :=
  ∀ (s : State) (n : BitVec 4) (a d : BitVec 5) (i : Instr),
    i = .ixset n a d ∨ i = .ixbnd n a d ∨ i = .ixstep n a d ∨ i = .ixlane n a d →
    ∃ u, exec i s = .next u ∧ (∀ k, k ≠ n → u.hart.getIx k = s.hart.getIx k) ∧
      Wrote { s with hart := { s.hart with ix := u.hart.ix } } d (s.hart.getIx n) u ∧
      ∀ b, b < 64 → (u.hart.getIx n).getLsbD b =
        match i with
        | .ixset _ _ _ => if b < 18 then (s.getX a).getLsbD b else (s.hart.getIx n).getLsbD b
        | .ixbnd _ _ _ => if 6 ≤ b ∧ b < 12 then (s.getX a).getLsbD (b - 6) else (s.hart.getIx n).getLsbD b
        | .ixstep _ _ _ => if 18 ≤ b ∧ b < 22 then (s.getX a).getLsbD (b - 18) else (s.hart.getIx n).getLsbD b
        | _ => if 23 ≤ b ∧ b < 29 then (s.getX a).getLsbD (b - 23)
               else if b = 22 then (s.getX a).getLsbD 6 else (s.hart.getIx n).getLsbD b

/-- VMVX (R178, R244): the element of one lane, extended by its type; zero from VLMAX on. -/
def Obligations.ElementToScalar : Prop :=
  ∀ (s : State) (m : BitVec 2) (d b : BitVec 5) (v : BitVec 6) (e r w : Nat), e = (s.getX b).toNat → w = (s.mode m).width →
    s.hart.vPsn = [] → ((s.hart.perLane v.toNat = true ∧ s.hart.vlMax ≤ e) ∨ s.hart.regFails w v.toNat e = none) →
    r = (if v.toNat ≤ 47 then v.toNat else
      if ixLane (s.hart.ixOf v.toNat) then s.hart.laneReg (s.hart.ixOf v.toNat) w e
      else ixBase (s.hart.ixOf v.toNat) + ixCur (s.hart.ixOf v.toNat)) →
    ∃ u, exec (.vmvx m d v b) s = .next u ∧ (∀ q, q ≠ d → u.getX q = s.getX q) ∧ u.hart.v = s.hart.v ∧
      u.hart.csr = s.hart.csr ∧ u.hart.ix = (s.hart.stepIndices [v.toNat]).ix ∧ u.hart.pc = wrapPc (s.hart.pc + 4#64) ∧
      (d ≠ 0#5 → u.getX d =
        if e < s.hart.vlMax then
          (if (s.mode m).etype ≤ 3 then BitVec.ofInt 64 (toSigned w (getElt (s.hart.getV r) w e))
           else BitVec.ofNat 64 (getElt (s.hart.getV r) w e))
        else 0#64) ∧ (∀ pa, u.byteAt pa = s.byteAt pa)

/-- Vector instructions with a register result (R230 to R233, R244 to R260): each active element takes its result, each inactive one stays or is zeroed, flags accrue, index registers step, and nothing else changes. -/
def Obligations.VectorResults : Prop :=
  ∀ (s : State) (i : Instr) (md : BitVec 2) (v : VShape) (l : Elems), vectorForm s i = some (md, v) → VectorReady s i md v →
    l = vectorResult s.getX i (s.operands md v) →
    ((s.mode md).sat = false ∨ s.hart.csr.sove = false ∨ l.clamped = none) →
    ∃ u, exec i s = .next u ∧
      VectorDone s.clearReplies (s.hart.regsOf (s.mode md).width v.dst) (s.mode md).width l (v.dst :: v.srcs.map (·.spec)) u

/-- A misaligned element takes cause 0x04 with the element and its fault values and leaves earlier registers alone (R203, R366); a tile not allocated takes cause 0x14 (R300, R302); and a clamp with SAT and SOVE takes cause 0x16 after its results are written (R80). -/
def Obligations.VectorTraps : Prop :=
  (∀ (s : State) (md : BitVec 2) (d : BitVec 6) (a : BitVec 5) (r : BitVec 2) (b : BitVec 5) (x : VMem) (i : Instr) (form : VForm) (e : Nat),
     s.takesTraps → (i = .vld md d a r ∧ form = .unit) ∨ (i = .vlds md d a b r ∧ form = .strided b) →
     VmemReady s i md d form → x = s.vmem md d a form → x.w ≠ 4 → x.m.zero = false →
     x.act e = true → (∀ k < e, x.act k = false) → (x.addr e 0).toNat < 2 ^ 57 → (x.addr e 0).toNat % (x.w / 8) ≠ 0 →
     ∃ u, exec i s = .next u ∧ u.hart.csr.hm = true ∧ u.hart.csr.cause = 0x104#64 ∧ u.hart.csr.elemStart = BitVec.ofNat 64 e ∧
       u.hart.csr.faultVa = x.addr e 0 ∧
       u.hart.csr.faultStride = (match form with | .strided b => s.getX b | _ => BitVec.ofNat 64 (x.w / 8)) ∧
       u.hart.csr.faultRemain = BitVec.ofNat 64 ((List.range s.hart.vl).filter (fun k => decide (e ≤ k) && x.act k)).length ∧
       u.hart.v = s.hart.v ∧ (∀ pa, u.byteAt pa = s.byteAt pa)) ∧
  (∀ (s : State) (n : BitVec 3), s.takesTraps → s.hart.nt ≤ n.toNat →
    (∃ u, exec (.azero n) s = .next u ∧
      Entered s.clearReplies 0x14#8 true s.hart.pc 0#64 (BitVec.ofNat 64 n.toNat) (BitVec.ofNat 64 s.hart.nt) u) ∧
    (∀ a b, ∃ u, exec (.acld n a b) s = .next u ∧
      Entered s.clearReplies 0x14#8 true s.hart.pc 0#64 (BitVec.ofNat 64 n.toNat) (BitVec.ofNat 64 s.hart.nt) u)) ∧
  (∀ (s : State) (d a : BitVec 5) (t : Nat), s.takesTraps → t = (s.getX a).toNat → t < 256 →
    (t % 16 = 0 ∨ t % 16 = 9 ∨ t % 16 = 10 ∨ t % 16 = 11) → t / 16 ≤ 8 → s.hart.aTiles < t / 16 →
    ∃ u, exec (.mmode d a) s = .next u ∧ u.hart.tiles = s.hart.tiles ∧ u.hart.nt = s.hart.nt ∧
      Entered s.clearReplies 0x14#8 true s.hart.pc 0#64 (BitVec.ofNat 64 (t / 16)) (BitVec.ofNat 64 s.hart.aTiles) u) ∧
  (∀ (s : State) (i : Instr) (md : BitVec 2) (v : VShape) (l : Elems) (e : Nat), vectorForm s i = some (md, v) →
     VectorReady s i md v → l = vectorResult s.getX i (s.operands md v) → (s.mode md).sat = true → s.hart.csr.sove = true →
     l.clamped = some e → s.takesTraps →
     ∃ u t, exec i s = .next u ∧
       VectorDone s (s.hart.regsOf (s.mode md).width v.dst) (s.mode md).width l (v.dst :: v.srcs.map (·.spec)) t ∧
       Entered t.clearReplies 0x16#8 true t.hart.pc 0#64 (BitVec.ofNat 64 e) 0#64 u)

/-- VCMPEQ, VCMPNE, VCMPLT and VCMPLE (R245, R246): each active bit takes its comparison, inactive ones stay or are zeroed, and the flags of the comparisons accrue. -/
def Obligations.VectorCompares : Prop :=
  ∀ (s : State) (i : Instr) (k : Nat) (md : BitVec 2) (d a b : BitVec 6),
    [.vcmpeq md d a b, .vcmpne md d a b, .vcmplt md d a b, .vcmple md d a b][k]? = some i →
    VectorReady s i md (plainShape typesA a [a, b]) →
    let x := s.operands md (plainShape typesA a [a, b])
    ∃ u, exec i s = .next u ∧
      MaskDone s.clearReplies d.toNat
        ((List.range x.vl).map (fun e => if x.act e then some (cmpElem x.m k (x.src 0 e) (x.src 1 e)).1
          else if x.m.zero then some false else none))
        (((List.range x.vl).filter x.act).foldl (fun fl e => fl ||| (cmpElem x.m k (x.src 0 e) (x.src 1 e)).2) 0#6)
        [a.toNat, b.toNat] u

/-- VQNT (R93, R253) writes codes and scales of whole blocks; VQI8 (R255) writes clamped bytes. -/
def Obligations.Quantisation : Prop :=
  (∀ (s : State) (md : BitVec 2) (d a b : BitVec 6) (v : VShape) (n : Nat) (codes scales : Elems) (g : Hart),
    v = { plainShape typesF d [] with srcs := [.plain a, ⟨b.toNat, some 8, 8⟩], whole := true,
                                      apart := [(d.toNat, a.toNat), (d.toNat, b.toNat), (a.toNat, b.toNat)] } →
    VectorReady s (.vqnt md d a b) md v → n = 8 * (quantBlocks (s.operands md v)).length →
    codes = ((quantBlocks (s.operands md v)).flatMap (·.2)).map some →
    scales = (quantBlocks (s.operands md v)).map (fun q => some q.1) →
    g = (s.hart.writeElems (s.hart.regsUpTo (s.mode md).width d.toNat n) 4 codes).writeElems
          (s.hart.regsUpTo (s.mode md).width b.toNat n) 8 scales →
    ∃ u, exec (.vqnt md d a b) s = .next u ∧ u.hart.v = g.v ∧ u.hart.x = s.hart.x ∧ u.hart.m = s.hart.m ∧
      u.hart.csr.flags = s.hart.csr.flags ||| zext (codes.flags ||| scales.flags) ∧ u.hart.pc = wrapPc (s.hart.pc + 4#64) ∧
      u = { s with hart := u.hart }) ∧
  (∀ (s : State) (md : BitVec 2) (d a b : BitVec 6) (v : VShape) (x : VIn),
    v = { plainShape typesF d [] with srcs := [.plain a, ⟨b.toNat, some 64, 4096⟩] } →
    VectorReady s (.vqi8 md d a b) md v → x = s.operands md v →
    ∃ u, exec (.vqi8 md d a b) s = .next u ∧
      VectorDone s.clearReplies (s.hart.regsOf (s.mode md).width d.toNat) 8
        ((List.range x.vl).map (fun e =>
          if x.act e then some (quantI8 x.m.fmt x.m.rm (decodeF fmtF32 (x.src 1 0 % 2 ^ 32)) (toSigned 8 (x.src 1 0 / 2 ^ 32)) (x.src 0 e))
          else if x.m.zero then some (0, 0#6) else none))
        [d.toNat, a.toNat, b.toNat] u)

/-- VREDSUM, VREDMAX, VREDMIN, VREDAND and VREDOR (R257, R258): element 0 takes the root of the tree, or the value of an empty one; a clamp at a node with SAT and SOVE takes cause 0x16 after the result is written (R80), with element 0 in FAULTSTRIDE (the model's reading, log entry 55). -/
def Obligations.Reductions : Prop :=
  ∀ (s : State) (i : Instr) (md : BitVec 2) (d a : BitVec 6) (types : Nat → Bool) (f : Nat → Nat → Flagged) (none' : Nat)
    (w : Nat) (r : Flagged), w = (s.mode md).width →
    (i = .vredsum md d a ∧ types = typesA ∧ f = addElem (s.mode md) ∧ none' = 0) ∨
    (i = .vredmax md d a ∧ types = typesA ∧ f = pickElem (s.mode md) true ∧ none' = emptyExtreme (s.mode md) true) ∨
    (i = .vredmin md d a ∧ types = typesA ∧ f = pickElem (s.mode md) false ∧ none' = emptyExtreme (s.mode md) false) ∨
    (i = .vredand md d a ∧ types = typesI ∧ f = (fun x y => (x &&& y, 0#6)) ∧ none' = 2 ^ w - 1) ∨
    (i = .vredor md d a ∧ types = typesI ∧ f = (fun x y => (x ||| y, 0#6)) ∧ none' = 0) →
    VectorReady s i md (plainShape types d [a]) →
    r = (treeRoot f 13 (s.operands md (plainShape types d [a])).leaves).getD (none', 0#6) →
    (((s.mode md).sat = false ∨ s.hart.csr.sove = false ∨ r.2.getLsbD 5 = false) →
      ∃ u, exec i s = .next u ∧
        VectorDone s.clearReplies (s.hart.regsOf w d.toNat) w (if s.hart.vl = 0 then [] else [some r]) [d.toNat, a.toNat] u) ∧
    ((s.mode md).sat = true → s.hart.csr.sove = true → r.2.getLsbD 5 = true → s.takesTraps →
      ∃ u t, exec i s = .next u ∧
        VectorDone s (s.hart.regsOf w d.toNat) w (if s.hart.vl = 0 then [] else [some r]) [d.toNat, a.toNat] t ∧
        Entered t.clearReplies 0x16#8 true t.hart.pc 0#64 0#64 0#64 u)

/-- MAND, MOR, MXOR, MNOT, MPOP, MFIRST and MSETVL (R261). -/
def Obligations.MaskInstructions : Prop :=
  (∀ (s : State) (i : Instr) (md : BitVec 2) (d a b : BitVec 6) (f : Bool → Bool → Bool), i.wf = true → s.cleanVectors →
    (i = .mand md d a b ∧ f = (fun x y => x && y)) ∨ (i = .mor md d a b ∧ f = (fun x y => x || y)) ∨
    (i = .mxor md d a b ∧ f = (fun x y => x != y)) ∨ (i = .mnot md d a ∧ f = (fun x _ => !x)) →
    ∃ u, exec i s = .next u ∧
      MaskDone s.clearReplies d.toNat
        ((List.range s.hart.vl).map (fun e => some (f ((s.hart.getM a.toNat).getLsbD e) ((s.hart.getM b.toNat).getLsbD e))))
        0#6 [] u) ∧
  (∀ (s : State) (md : BitVec 2) (d : BitVec 5) (a : BitVec 6) (es : List Nat), a.toNat < 12 → s.cleanVectors →
    es = (List.range s.hart.vl).filter (fun e => (s.hart.getM a.toNat).getLsbD e) →
    (∃ u, exec (.mpop md d a) s = .next u ∧ Wrote s.clearReplies d (BitVec.ofNat 64 es.length) u) ∧
    (∃ u, exec (.mfirst md d a) s = .next u ∧ Wrote s.clearReplies d ((es.head?.map (BitVec.ofNat 64)).getD (BitVec.ofInt 64 (-1))) u) ∧
    (∃ u, exec (.msetvl md d a) s = .next u ∧ u.hart.vl = (es.head?.map (· + 1)).getD s.hart.vl ∧
      Wrote ({ s with hart := { s.hart with vl := u.hart.vl } } : State).clearReplies d (BitVec.ofNat 64 u.hart.vl) u))

/-- Vector loads and stores (R262 to R264): with every element's access complete, the registers hold what the accesses gave and the PC moves on. -/
def Obligations.VectorMemory : Prop :=
  (∀ (s t : State) (i : Instr) (md : BitVec 2) (d : BitVec 6) (a : BitVec 5) (r : BitVec 2) (form : VForm) (x : VMem),
    (i = .vld md d a r ∧ form = .unit) ∨ (∃ b, i = .vlds md d a b r ∧ form = .strided b) ∨
    (∃ v, i = .vldg md d a v r ∧ form = .indexed v) ∨ (∃ n, i = .vldseg md d a n r ∧ form = .segment (n.toNat + 1)) →
    VmemReady s i md d form → x = s.vmem md d a form →
    (if x.w = 4 then loadNibbles x s.who r.toNat (List.range ((x.vl + 1) / 2)) s = .ok ((), t)
      else loadElems x s.who r.toNat (List.range x.vl) s = .ok ((), t)) →
    ∃ u, exec i s = .next u ∧ u.hart.v = t.hart.v ∧ u.hart.x = t.hart.x ∧ u.hart.m = t.hart.m ∧
      u.hart.pc = wrapPc (t.hart.pc + 4#64) ∧ u = { t with hart := u.hart }) ∧
  (∀ (s t : State) (i : Instr) (md : BitVec 2) (d : BitVec 6) (a : BitVec 5) (form : VForm) (x : VMem),
    (i = .vst md d a ∧ form = .unit) ∨ (∃ b, i = .vsts md d a b ∧ form = .strided b) ∨
    (∃ v, i = .vstsc md d a v ∧ form = .indexed v) ∨ (∃ n, i = .vstseg md d a n ∧ form = .segment (n.toNat + 1)) →
    VmemReady s i md d form → x = s.vmem md d a form →
    (if x.w = 4 then storeNibbles x s.who (List.range ((x.vl + 1) / 2)) s = .ok ((), t)
      else storeElems x s.who (List.range x.vl) s = .ok ((), t)) →
    ∃ u, exec i s = .next u ∧ u.hart.v = t.hart.v ∧ u.hart.x = t.hart.x ∧ u.hart.m = t.hart.m ∧
      u.hart.pc = wrapPc (t.hart.pc + 4#64) ∧ u = { t with hart := u.hart })

/-- One element of a vector load or store: its address (R262), the element it writes and what it leaves, and an inactive one (R231). -/
def Obligations.VectorElementAccess : Prop :=
  (∀ (form : VForm) (h : Hart) (a : BitVec 5) (w e f : Nat) (ix : Regs), (w = 8 ∨ w = 16 ∨ w = 32 ∨ w = 64) →
    form.addr h a w ix e f = h.getX a + BitVec.ofInt 64 (match form with
      | .unit => ((e * (w / 8) : Nat) : Int)
      | .strided b => (e : Int) * (h.getX b).toInt
      | .indexed _ => (BitVec.ofNat 64 (getElt (h.getV (ix.at e)) 64 e)).toInt
      | .segment nf => (((e * nf + f) * (w / 8) : Nat) : Int))) ∧
  (∀ (x : VMem) (s s0 t t' : State) (rd e v r : Nat) (w : Window) (tag : Bool), x.nf = 1 → x.data = .one r → x.act e = true →
    x.w * (e + 1) ≤ 262144 → r < 48 →
    s0 = { s with hart := Hart.setProgress { s.hart with startElem := e } x e } →
    classify s.who (x.addr e 0) (x.w / 8) .load s0 = .ok (w, t) →
    loadAt s.who (x.addr e 0) (x.w / 8) rd t = .ok ((v, tag), t') → r < t'.hart.nregs →
    ∃ u, loadElems x s.who rd [e] s = .ok ((), u) ∧ getElt (u.hart.getV r) x.w e = v % 2 ^ x.w ∧
      (∀ k, k ≠ e → x.w * (k + 1) ≤ 262144 → getElt (u.hart.getV r) x.w k = getElt (t'.hart.getV r) x.w k) ∧
      (∀ q, q ≠ r → u.hart.getV q = t'.hart.getV q) ∧ u.hart.x = t'.hart.x ∧ (∀ pa, u.byteAt pa = t'.byteAt pa)) ∧
  (∀ (x : VMem) (s : State) (rd e : Nat), x.act e = false → x.m.zero = false →
    ∃ u, loadElems x s.who rd [e] s = .ok ((), u) ∧ u.hart.v = s.hart.v ∧ u.mm = s.mm) ∧
  (∀ (x : VMem) (s : State) (e : Nat), x.act e = false → storeElems x s.who [e] s = .ok ((), s))

/-- MMODE, MEXIT, OPA, AZERO, ACLD, ACRD and ACST (R299 to R309). -/
def Obligations.MatrixInstructions : Prop :=
  (∀ (s : State) (d a : BitVec 5) (t : Nat), t = (s.getX a).toNat → t < 256 → (t % 16 = 0 ∨ t % 16 = 9 ∨ t % 16 = 10 ∨ t % 16 = 11) →
    t / 16 ≤ 8 → t / 16 ≤ s.hart.aTiles → s.hart.matQ = [] →
    ∃ u, exec (.mmode d a) s = .next u ∧ u.hart.mType.toNat = t % 16 ∧ u.hart.nt = t / 16 ∧
      (∀ n < 8, u.hart.getTile n = 0#131072) ∧ (∀ r, r ≠ d → u.getX r = s.getX r) ∧ (∀ pa, u.byteAt pa = s.byteAt pa) ∧
      u.hart.pc = wrapPc (s.hart.pc + 4#64) ∧
      (d ≠ 0#5 → u.getX d = BitVec.ofNat 64 (if t / 16 = 0 then 0 else if t % 16 = 0 ∨ t % 16 = 9 then 64 else 32))) ∧
  (∀ s : State, s.hart.matQ = [] →
    ∃ u, exec .mexit s = .next u ∧ u.hart.nt = 0 ∧ (∀ n < 8, u.hart.getTile n = 0#131072) ∧ u.hart.x = s.hart.x ∧
      u.hart.mType = s.hart.mType ∧ u.hart.pc = wrapPc (s.hart.pc + 4#64) ∧ ∀ pa, u.byteAt pa = s.byteAt pa) ∧
  (∀ (s : State) (md : BitVec 2) (y x : BitVec 1) (n : BitVec 3) (a b : BitVec 6) (k w : Nat),
    n.toNat < s.hart.nt → (s.mode md).etype = s.hart.mType.toNat → w = (s.mode md).width →
    (∀ c ∈ [a.toNat, b.toNat], s.hart.specFails { s.mode md with guard := 15 } w c = none) → s.hart.vPsn = [] →
    s.hart.matQ.length < 8 → k = Min.min s.hart.vl (mvlOf s.hart.mType) →
    ∃ u, exec (.opa md y x n a b) s = .next u ∧
      u.hart.matQ = s.hart.matQ ++ [.outer n (x == 1#1) (y == 1#1) (s.hart.getMd md) k
        (gatherElems s.hart (s.hart.regsOf w a.toNat) w k) (gatherElems s.hart (s.hart.regsOf w b.toNat) w k)] ∧
      u.hart.tiles = s.hart.tiles ∧ u.hart.v = s.hart.v ∧ u.hart.x = s.hart.x ∧ u.hart.csr = s.hart.csr ∧
      u.hart.ix = (s.hart.stepIndices [a.toNat, b.toNat]).ix ∧ u.hart.pc = wrapPc (s.hart.pc + 4#64) ∧
      u = { s with hart := u.hart }) ∧
  (∀ (s : State) (n : BitVec 3), n.toNat < s.hart.nt → s.hart.matQ.length < 8 →
    ∃ u, exec (.azero n) s = .next u ∧
      Passed ({ s with hart := { s.hart with matQ := s.hart.matQ ++ [.zero n] } } : State).clearReplies u) ∧
  (∀ (s t : State) (n : BitVec 3) (a b : BitVec 5) (w : Nat), n.toNat < s.hart.nt → s.hart.matQ = [] →
    w = accWidth s.hart.mType → s.hart.startElem = 0 →
    acldElems s.who n.toNat w (mvlOf s.hart.mType) (s.getX a) (s.getX b) (tileElems (mvlOf s.hart.mType) s.hart.mSide) s = .ok ((), t) →
    ∃ u, exec (.acld n a b) s = .next u ∧ u.hart.x = t.hart.x ∧ u.hart.v = t.hart.v ∧ (∀ k, k ≠ n.toNat → u.hart.getTile k = t.hart.getTile k) ∧
      (∀ e, w * (e + 1) ≤ 131072 → getElt (u.hart.getTile n.toNat) w e = getElt (t.hart.getTile n.toNat) w e) ∧
      u.hart.pc = wrapPc (t.hart.pc + 4#64) ∧ ∀ pa, u.byteAt pa = t.byteAt pa) ∧
  (∀ (s : State) (md : BitVec 2) (n : BitVec 3) (d : BitVec 6) (c : BitVec 1) (b : BitVec 5) (w r : Nat), n.toNat < s.hart.nt →
    s.hart.matQ = [] → w = accWidth s.hart.mType → s.cleanVectors → s.hart.tPsn = [] →
    s.hart.specFails (s.mode md) w d.toNat = none → r = (s.getX b).toNat % mvlOf s.hart.mType →
    ∃ u, exec (.acrd md n d c b) s = .next u ∧
      VectorDone s.clearReplies (s.hart.regsOf w d.toNat) w
        ((List.range (Min.min s.hart.vl (mvlOf s.hart.mType))).map (fun j =>
          if s.hart.active (s.mode md) j then
            some (getElt (s.hart.getTile n.toNat) w (if c = 1#1 then j * mvlOf s.hart.mType + r else r * mvlOf s.hart.mType + j), 0#6)
          else if (s.mode md).zero then some (0, 0#6) else none)) [d.toNat] u) ∧
  (∀ (s t1 t : State) (md : BitVec 2) (n : BitVec 3) (a c : BitVec 5) (desc otype mvl wo : Nat) (stride : Word) (ns : List Nat)
      (es : List (Nat × Flagged)),
    c.toNat % 2 = 0 → c ≠ 0#5 → desc = (s.getX c).toNat → desc < 2 ^ 40 → desc / 2 ^ 36 % 8 ≤ 1 → otype = desc / 2 ^ 32 % 16 → otype < 13 →
    n.toNat < s.hart.nt → s.hart.matQ = [] → s.hart.tPsn = [] → s.hart.split = [] → mvl = mvlOf s.hart.mType → wo = (etypeOf otype).elim 8 EType.width →
    stride = BitVec.ofInt 64 (BitVec.ofNat 32 desc).toInt → ns = tileElems mvl s.hart.mSide →
    acstCheck s.who (s.getX a) stride mvl wo ns s = .ok ((), t1) →
    es = ns.map (fun k => (k, acstElem s.hart.mType (s.mode md).rm (s.mode md).sat (desc / 2 ^ 36 % 8 == 1) otype (s.getX (c + 1#5))
      (getElt (s.hart.getTile n.toNat) (accWidth s.hart.mType) k))) →
    acstStore s.who (s.getX a) stride mvl wo es t1 = .ok ((), t) →
    ((s.mode md).sat = false ∨ t.hart.csr.sove = false ∨ ∀ e ∈ es, e.2.2.getLsbD 5 = false) →
    ∃ u, exec (.acst md n a c) s = .next u ∧ u.hart.x = t.hart.x ∧ u.hart.v = t.hart.v ∧
      (∀ k, k ≠ n.toNat → u.hart.getTile k = t.hart.getTile k) ∧
      (u.hart.getTile n.toNat = if desc.testBit 39 then 0#131072 else t.hart.getTile n.toNat) ∧
      u.hart.csr.flags = t.hart.csr.flags ||| zext (es.foldl (fun (f : BitVec 6) (e : Nat × Flagged) => f ||| e.2.2) 0#6) ∧
      u.hart.pc = wrapPc (t.hart.pc + 4#64) ∧ ∀ pa, u.byteAt pa = t.byteAt pa)

/-- What the matrix engine does with a queued operation (R301, R303, R304): an element of the tile inside the product takes its multiply-accumulate, every other stays; i8 with SAT clamps to i32. -/
def Obligations.OuterProduct : Prop :=
  (∀ (s : State) (op : MatOp) (rest : List MatOp), s.hart.matQ = op :: rest → s.hart.matrixPoison op = false →
    s.matrixDue s.hart.uid = true →
    exec (.matrixOperation s.hart.uid) s =
      .next { s with matLast := putSlotServed s.matLast s.hart.place, hart := { s.hart.matrixOp op with matQ := rest } }) ∧
  (∀ (h : Hart) (n : BitVec 3), (h.matrixOp (.zero n)).getTile n.toNat = 0#131072 ∧
    ∀ k, k ≠ n.toNat → (h.matrixOp (.zero n)).getTile k = h.getTile k) ∧
  (∀ (h : Hart) (n : BitVec 3) (na nb : Bool) (md : BitVec 32) (m : Nat) (a b : BitVec 4096) (i j w mvl acc : Nat),
    mvl = mvlOf h.mType → w = accWidth h.mType → m ≤ mvl → i < mvl → j < mvl → acc = getElt (h.getTile n.toNat) w (i * mvl + j) →
    getElt ((h.matrixOp (.outer n na nb md m a b)).getTile n.toNat) w (i * mvl + j) =
      if i < m ∧ j < m then (opaElem h.mType (modeOf md) na nb acc (getElt a ((etypeOf h.mType.toNat).elim 8 EType.width) i)
        (getElt b ((etypeOf h.mType.toNat).elim 8 EType.width) j)).1 % 2 ^ w
      else acc) ∧
  (∀ (m : Mode) (na nb : Bool) (acc a b : Nat), m.sat = true →
    toSigned 32 (opaElem 0#4 m na nb acc a b).1 =
      Max.max (-2147483648) (Min.min 2147483647 (toSigned 32 acc +
        (if na then -toSigned 8 a else toSigned 8 a) * (if nb then -toSigned 8 b else toSigned 8 b))))

/-- NBSET (R279) writes a bank-set register and a status and takes no trap; NBSTAT (R285) ORs the status of the banks of
its set. -/
def Obligations.BankSets : Prop :=
  (∀ (s : State) (d a : BitVec 5) (m : BitVec 3) (v : Nat), v = (s.getX a).toNat →
    ∃ (u : State) (st : Nat), exec (.nbset d m a) s = .next u ∧
      Wrote { s with hart := { s.hart with bs := u.hart.bs } } d (BitVec.ofNat 64 st) u ∧
      u.hart.getBs m = (if st = 0 then BitVec.ofNat 64 (v % 2 ^ 63 + 2 ^ 63) else 0#64) ∧
      (∀ k, k ≠ m → u.hart.getBs k = s.hart.getBs k) ∧
      (let span := v / 2 ^ 30 % 2 ^ 14
       let row := v / 2 ^ 16 % 2 ^ 14
       let first := v % 2 ^ 16
       let last := first + v / 2 ^ 44 % 2 ^ 12
       let set := List.range (last - first + 1)
       if span = 0 ∨ s.blOf s.hart.asid < row + span ∨ s.blOf s.hart.asid = 0 then st = 1
       else if 0xFFFF < last ∨ (∃ i ∈ set, 2038 < (first + i) / 8 % 2048) ∨ first / 2 ^ 14 ≠ last / 2 ^ 14 ∨
         first / 2 ^ 12 ≠ last / 2 ^ 12 then st = 2
       else if v / 2 ^ 56 % 2 ^ 7 ≠ 0 then st = 3
       else if ∃ i ∈ set, (s.jobGet s.hart.asid (·.banks) 0#65536).getLsbD (first + i) = false then st = 4
       else st = 0)) ∧
  (∀ (s : State) (d : BitVec 5) (m : BitVec 3) (c : BitVec 1) (set : Word), set = s.hart.getBs m → set.getLsbD 63 = true →
    ∃ (u : State) (v : Word), exec (.nbstat d m c) s = .next u ∧ Wrote ({ s with banks := u.banks } : State).clearReplies d v u ∧
      (v.getLsbD 0 = true ↔ ∃ i < bsCount set, (s.bank (bsBank set + i)).sat = true) ∧
      (v.getLsbD 1 = true ↔ ∃ i < bsCount set, (s.bank (bsBank set + i)).rsat = true) ∧
      (v.getLsbD 2 = true ↔ ∃ i < bsCount set, (s.bank (bsBank set + i)).err = true) ∧
      (v.getLsbD 3 = true ↔ ∃ i < bsCount set, (s.bank (bsBank set + i)).queue ≠ [] ∨ (s.bank (bsBank set + i)).run ≠ .idle) ∧
      (v.getLsbD 4 = true ↔ ∃ i < bsCount set, (s.bank (bsBank set + i)).susp = true ∨ s.bankHeld (bsBank set + i) = true) ∧
      (∀ n < 5, v.getLsbD (5 + n) = true ↔ ∃ i < bsCount set, (s.bank (bsBank set + i)).flags.getLsbD n = true) ∧
      (∀ i < bsCount set, (s.bank (bsBank set + i)).err = true → (∀ j < i, (s.bank (bsBank set + j)).err = false) →
        v.toNat / 2 ^ 16 % 256 = (s.bank (bsBank set + i)).errCode.toNat ∧ v.toNat / 2 ^ 24 = bsBank set + i) ∧
      (∀ b, u.bank b = if c = 1#1 ∧ bsBank set ≤ b ∧ b < bsBank set + bsCount set
        then { s.bank b with sat := false, rsat := false, err := false, errCode := 0, flags := 0 } else s.bank b))

/-- Bank commands (R275, R276, R280 to R284, R286): a command whose checks succeed is queued in every bank of its set
with what it has read, and the hart goes on; a register with V = 0, a misaligned operand and a lookup past the rows of
the set take their causes, and fault registers that no rule gives a value keep theirs (R366; log entry 28). -/
def Obligations.BankCommands : Prop :=
  (∀ (s t1 t : State) (k : BitVec 4) (m : BitVec 3) (p : BitVec 1) (a : BitVec 5) (set : Word) (n : Nat) (books : List (Nat × Bool)),
    set = s.hart.getBs m → set.getLsbD 63 = true → (s.getX a).toNat % 16 = 0 → n = (if p = 1#1 then bsCount set else 1) →
    M.range .load (s.getX a) (16 * n) s = .ok ((), t1) → readCodebooks (s.getX a) n t1 = .ok (books, t) → t.mayIssue set →
    ∃ u op, exec (.cbld k m p a) s = .next u ∧ Issued t set k.toNat op none false u ∧ u.hart = t.passedHart ∧
      ∀ i < bsCount set, ∀ x, books[if p = 1#1 then i else 0]? = some x →
        op i = .codebook (BitVec.ofNat 128 x.1) (if x.2 then 0xFFFF#16 else 0#16)) ∧
  (∀ (s t1 t : State) (k : BitVec 4) (m : BitVec 3) (a : BitVec 5) (set : Word) (v : Nat) (bad : Bool),
    set = s.hart.getBs m → set.getLsbD 63 = true → (s.getX a).toNat % 32 = 0 →
    M.range .load (s.getX a) 32 s = .ok ((), t1) → M.engineRead (s.getX a) 32 t1 = .ok ((v, bad), t) → bad = false → t.mayIssue set →
    ∃ u, exec (.nbrun k m a) s = .next u ∧
      Issued t set k.toNat (fun _ => .run (BitVec.ofNat 256 v) (bsRow set) (bsSpan set)) none false u ∧ u.hart = t.passedHart) ∧
  (∀ (s t0 t1 t2 t3 t4 : State) (k : BitVec 4) (m : BitVec 3) (a : BitVec 5) (set : Word) (v0 v1 v2 v3 : Nat),
    set = s.hart.getBs m → set.getLsbD 63 = true → (s.getX a).toNat % 128 = 0 → M.range .load (s.getX a) 128 s = .ok ((), t0) →
    M.engineRead (s.getX a) 32 t0 = .ok ((v0, false), t1) → M.engineRead (s.getX a + 32#64) 32 t1 = .ok ((v1, false), t2) →
    M.engineRead (s.getX a + 64#64) 32 t2 = .ok ((v2, false), t3) → M.engineRead (s.getX a + 96#64) 32 t3 = .ok ((v3, false), t4) →
    t4.mayIssue set → v0 < 2 ^ 256 → v1 < 2 ^ 256 → v2 < 2 ^ 256 → v3 < 2 ^ 256 →
    ∃ u, exec (.nbld k m a) s = .next u ∧ u.hart = t4.passedHart ∧
      Issued t4 set k.toNat (fun _ => .store (BitVec.ofNat 1024 (v0 + v1 * 2 ^ 256 + v2 * 2 ^ 512 + v3 * 2 ^ 768)) 0#64) none false u) ∧
  (∀ (s : State) (k : BitVec 4) (m : BitVec 3) (a : BitVec 5) (set : Word) (v start q : Nat),
    set = s.hart.getBs m → set.getLsbD 63 = true → v = (s.getX a).toNat → v < 2 ^ 39 → v / 2 ^ 19 % 2 = 0 → v / 2 ^ 29 % 2 = 0 →
    start = v % 2 ^ 19 → q = v / 2 ^ 20 % 512 + 1 →
    (start + q ≤ 32 * bsSpan set → s.mayIssue set →
      ∃ u, exec (.lka k m a) s = .next u ∧ u.hart = s.passedHart ∧
        Issued s set k.toNat (fun _ => .lookup start q (2 * (v / 2 ^ 30)) (bsRow set)) none false u) ∧
    (32 * bsSpan set < start + q → s.takesTraps →
      ∃ u, exec (.lka k m a) s = .next u ∧ Entered s.clearReplies 8#8 true s.hart.pc s.hart.csr.faultVa s.hart.csr.faultStride s.hart.csr.faultRemain u)) ∧
  (∀ (s : State) (st : BitVec 1) (c a : BitVec 5) (m : BitVec 3) (set w : Word),
    set = s.hart.getBs m → set.getLsbD 63 = true → w = s.getX c → badDrain s.hart w (st == 1#1) a = false → a = 0#5 →
    (st = 1#1 → w.toNat / 2 ^ 24 % 64 < s.hart.nregs) → s.mayIssue set →
    ∃ u, exec (.nbdrain st c m a) s = .next u ∧
      Issued s set (w.toNat / 2 ^ 30 % 16) (fun _ => .drain) (some (w, 0#256, [])) (st == 1#1) u ∧
      u.hart = { s.passedHart with vPi := u.hart.vPi } ∧
      (∀ r, r < 48 → u.hart.vPi[r]? = if st = 1#1 ∧ r = w.toNat / 2 ^ 24 % 64 then some 0 else s.hart.vPi[r]?)) ∧
  (∀ (s t0 t1 t2 t3 t : State) (st : BitVec 1) (c a : BitVec 5) (m : BitVec 3) (set w dst sh : Word) (v n form cnt : Nat)
      (shifts : List (BitVec 8)),
    set = s.hart.getBs m → set.getLsbD 63 = true → w = s.getX c → badDrain s.hart w (st == 1#1) a = false → a ≠ 0#5 →
    (st = 1#1 → w.toNat / 2 ^ 24 % 64 < s.hart.nregs) → form = w.toNat / 2 ^ 21 % 4 → form ≠ 3 → n = (if form = 1 then 8 else 4) →
    cnt = w.toNat / 2 ^ 10 % 2 ^ 11 → (s.getX a).toNat % 32 = 0 → M.range .load (s.getX a) 32 s = .ok ((), t0) →
    M.engineRead (s.getX a) 32 t0 = .ok ((v, false), t1) → v < 2 ^ 256 → dst = BitVec.ofNat 64 v → sh = BitVec.ofNat 64 (v / 2 ^ 64) →
    (dst.toNat % n ≠ 0 → t1.takesTraps → ∃ u, exec (.nbdrain st c m a) s = .next u ∧
      Entered t1.clearReplies 4#8 true t1.hart.pc dst t1.hart.csr.faultStride t1.hart.csr.faultRemain u) ∧
    (dst.toNat % n = 0 →
      (if form = 2 ∧ sh ≠ 0#64 then M.range .load sh cnt t1 = .ok ((), t2) else t2 = t1) →
      (if st = 0#1 then M.range .store dst (cnt * n) t2 = .ok ((), t3) else t3 = t2) →
      (if form = 2 ∧ sh ≠ 0#64 then readShifts sh cnt t3 = .ok (shifts, t) else shifts = [] ∧ t = t3) → t.mayIssue set →
      ∃ u, exec (.nbdrain st c m a) s = .next u ∧
        Issued t set (w.toNat / 2 ^ 30 % 16) (fun _ => .drain) (some (w, BitVec.ofNat 256 v, shifts)) (st == 1#1) u ∧
        u.hart = { t.passedHart with vPi := u.hart.vPi } ∧
        (∀ r, r < 48 → u.hart.vPi[r]? = if st = 1#1 ∧ r = w.toNat / 2 ^ 24 % 64 then some 0 else t.hart.vPi[r]?))) ∧
  (∀ (s : State) (st : BitVec 1) (c a : BitVec 5) (m : BitVec 3), s.takesTraps → badDrain s.hart (s.getX c) (st == 1#1) a = false →
    ((s.hart.getBs m).getLsbD 63 = false → ∃ u, exec (.nbdrain st c m a) s = .next u ∧
      Entered s.clearReplies 0x15#8 true s.hart.pc 0#64 (BitVec.ofNat 64 m.toNat) 0#64 u) ∧
    ((s.hart.getBs m).getLsbD 63 = true → (st = 1#1 → (s.getX c).toNat / 2 ^ 24 % 64 < s.hart.nregs) → a ≠ 0#5 →
      (s.getX a).toNat % 32 ≠ 0 → ∃ u, exec (.nbdrain st c m a) s = .next u ∧
        Entered s.clearReplies 4#8 true s.hart.pc (s.getX a) s.hart.csr.faultStride s.hart.csr.faultRemain u)) ∧
  (∀ (s : State) (m : BitVec 3) (i : Instr), s.takesTraps →
    ((∃ k p a, i = .cbld k m p a) ∨ (∃ k a, i = .nbld k m a) ∨ (∃ k a, i = .nbrun k m a) ∨ (∃ d c, i = .nbstat d m c)) →
    (s.hart.getBs m).getLsbD 63 = false →
    ∃ u, exec i s = .next u ∧ Entered s.clearReplies 0x15#8 true s.hart.pc 0#64 (BitVec.ofNat 64 m.toNat) 0#64 u) ∧
  (∀ (s : State) (m : BitVec 3) (i : Instr) (a : BitVec 5) (n : Nat), s.takesTraps → (s.hart.getBs m).getLsbD 63 = true →
    ((∃ k p, i = .cbld k m p a ∧ n = 16) ∨ (∃ k, i = .nbld k m a ∧ n = 128) ∨ (∃ k, i = .nbrun k m a ∧ n = 32)) →
    (s.getX a).toNat % n ≠ 0 →
    ∃ u, exec i s = .next u ∧ Entered s.clearReplies 4#8 true s.hart.pc (s.getX a) s.hart.csr.faultStride s.hart.csr.faultRemain u)

/-- TBLD (R271, R281): a descriptor that passes its checks fixes a shape, writes the group sizes to xd and queues a build of the differences of each slice; without FIT a shape that does not fit takes cause 0x0C with its numbers. One access of a lookup run (R274): the accumulators of a class and a column take the sum of the entries that its fields select, clamped to i32 (R99). -/
def Obligations.TableBuild : Prop :=
  (∀ (s : State) (md : BitVec 2) (f : BitVec 1) (d : BitVec 5) (v : BitVec 6) (c : BitVec 5) (d0 kw : Nat) (d1 set : Word),
     c.toNat % 2 = 0 → c ≠ 0#5 → (s.mode md).etype = 0 → d0 = (s.getX c).toNat → d1 = s.getX (c + 1#5) → d0 < 2 ^ 27 → d0 / 2 ^ 23 % 2 = 0 →
     d0 / 8 % 2 = 0 → d1.toNat < 2 ^ 40 → badClasses (classReqs d1) = false → set = s.hart.getBs (BitVec.ofNat 3 d0) →
     set.getLsbD 63 = true → s.hart.specFails (s.mode md) 8 v.toNat = none → kw = d0 / 2 ^ 16 % 128 + 1 →
     (∀ l n, fitShape kw (f == 1#1) (classReqs d1) = .ok (l, n) → s.cleanVectors → s.mayIssue set →
       ∃ u op, exec (.tbld md f d v c) s = .next u ∧ Issued s set (d0 / 16 % 16) op none false u ∧
         (∀ r, r ≠ d → u.getX r = s.getX r) ∧ u.hart.v = s.hart.v ∧ u.hart.csr = s.hart.csr ∧
         u.hart.ix = (s.hart.stepIndices [v.toNat]).ix ∧
         (d ≠ 0#5 → ∀ j < 4, (u.getX d).toNat / 16 ^ j % 16 = (l.find? (fun k => k.num == j && k.en)).elim 0 ClassReq.g) ∧
         (d ≠ 0#5 → n ≤ 16 → (u.getX d).toNat / 65536 = n) ∧
         ∀ r, ∃ ds ps, op r = .build (shapeOf kw l) ds ps ∧
           ∀ o k t, (shapeOf kw l).classes[o]? = some k → t < kw →
             (ds.getD o []).getD t 0 =
               (let e := (k.tok * 2 ^ (d0 / 2 ^ 24 % 8) + r % 2 ^ (d0 / 2 ^ 24 % 8)) * kw + t
                if s.hart.active (s.mode md) e then
                  toSigned 8 (getElt (s.hart.getV ((s.hart.regsOf 8 v.toNat).at e)) 8 e) - toSigned 8 (d0 / 256)
                else 0)) ∧
     (∀ n k, fitShape kw (f == 1#1) (classReqs d1) = .error (n, k) → s.takesTraps →
       ∃ u, exec (.tbld md f d v c) s = .next u ∧
         Entered s.clearReplies 0xC#8 true s.hart.pc 0#64 (BitVec.ofNat 64 n) (BitVec.ofNat 64 k) u)) ∧
  (∀ (k : Bank) (sh : Shape) (access : BitVec 256) (psn : Bool) (q nq abase o col : Nat) (c : ColClass),
     k.soundAcc → k.soundBushel → sh.classes[o]? = some c → col < 2 → q < nq → 2 * nq * sh.classes.length ≤ 1024 →
     let n := (abase + 2 * nq * o + 2 * q + col) % 1024
     let es := sh.looked c access col
     (k.lookup sh access psn q nq abase).accAt n = clampTo 32 (k.accAt n + (es.map k.bushelAt).sum) ∧
     ((k.lookup sh access psn q nq abase).accPsn.getLsbD n = true ↔
       k.accPsn.getLsbD n = true ∨ psn = true ∨ ∃ e ∈ es, k.bushelPsn.getLsbD e = true) ∧
     (∀ m < 1024, (∀ o' col', o' < sh.classes.length → col' < 2 → (abase + 2 * nq * o' + 2 * q + col') % 1024 ≠ m) →
       (k.lookup sh access psn q nq abase).accAt m = k.accAt m))

/-- The µops of a bank engine (R289, R290): the row operations on row ROW + Pn, saturating, the control µops, and the
ends of a run. -/
def Obligations.MicroOps : Prop :=
  (∀ (s : State) (n : BitVec 2) (i : BitVec 1) (r : Nat) (k : Bank), RowReady s n r → k = s.bank s.bankSel →
    (∃ u, exec (.ract n i) s = .next u ∧ RowDone s n i u ∧ u.mm = s.mm ∧ (u.bank s.bankSel).latch = s.rowData s.bankSel r ∧
      (u.bank s.bankSel).latchPsn = s.rowPsn s.bankSel r ∧ (u.bank s.bankSel).acc = k.acc ∧ (u.bank s.bankSel).sat = k.sat) ∧
    (∃ u, exec (.rcopy n i) s = .next u ∧ RowDone s n i u ∧ RowWritten s r k.latch k.latchPsn u ∧
      (u.bank s.bankSel).latch = k.latch ∧ (u.bank s.bankSel).acc = k.acc ∧ (u.bank s.bankSel).sat = k.sat) ∧
    (∃ u, exec (.rclr n i) s = .next u ∧ RowDone s n i u ∧ RowWritten s r 0#8192 0#32 u ∧
      (u.bank s.bankSel).latch = k.latch ∧ (u.bank s.bankSel).acc = k.acc ∧ (u.bank s.bankSel).sat = k.sat) ∧
    (∀ (w : BitVec 2) (bits : Nat) (j : Instr) (f : Int → Int), w ≠ 3#2 → bits = 8 * 2 ^ w.toNat →
      (j = .radd n i w ∧ f = id) ∨ (∃ sh g, j = .rshadd n i w sh g ∧ f = shiftTerm sh.toInt (g == 1#1)) →
      ∃ u data, exec j s = .next u ∧ RowDone s n i u ∧ RowWritten s r data (s.rowPsn s.bankSel r ||| k.latchPsn) u ∧
        (u.bank s.bankSel).latch = k.latch ∧ (u.bank s.bankSel).acc = k.acc ∧
        (∀ e, bits * (e + 1) ≤ 8192 → toSigned bits (getElt data bits e) =
          clampTo bits (toSigned bits (getElt (s.rowData s.bankSel r) bits e) + f (toSigned bits (getElt k.latch bits e)))) ∧
        ((u.bank s.bankSel).sat = true ↔ k.sat = true ∨ ∃ e, bits * (e + 1) ≤ 8192 ∧
          (let x := toSigned bits (getElt (s.rowData s.bankSel r) bits e) + f (toSigned bits (getElt k.latch bits e))
           clampTo bits x ≠ x))) ∧
    (∀ (w : BitVec 2) (bits : Nat), w ≠ 3#2 → bits = 8 * 2 ^ w.toNat → k.soundAcc →
      ∃ u, exec (.racc n i w) s = .next u ∧ RowDone s n i u ∧ u.mm = s.mm ∧ (u.bank s.bankSel).latch = k.latch ∧
        (u.bank s.bankSel).soundAcc ∧
        (∀ e, bits * (e + 1) ≤ 8192 → (u.bank s.bankSel).accAt ((k.ab.toNat + e) % 1024) =
          clampTo 32 (k.accAt ((k.ab.toNat + e) % 1024) + toSigned bits (getElt (s.rowData s.bankSel r) bits e))) ∧
        (∀ m < 1024, (∀ e, bits * (e + 1) ≤ 8192 → (k.ab.toNat + e) % 1024 ≠ m) → (u.bank s.bankSel).accAt m = k.accAt m)) ∧
    (∀ sh, k.shape = some sh → k.soundAcc → k.soundBushel →
      ∃ u g, exec (.rlka n i) s = .next u ∧ RowDone s n i u ∧ u.mm = s.mm ∧ (u.bank s.bankSel).latch = k.latch ∧
        g = k.lookupRow sh (s.rowData s.bankSel r) (s.rowPsn s.bankSel r) 0 (Min.min 32 (k.qn.toNat - k.qb.toNat)) k.qb.toNat k.qn.toNat
          k.ab.toNat ∧
        (u.bank s.bankSel).acc = g.acc ∧ (u.bank s.bankSel).sat = g.sat ∧ (u.bank s.bankSel).qb = k.qb + 32#16)) ∧
  (∀ (s : State) (b cmd row span : Nat) (k : Bank), b = s.bankSel → k = s.bank b → k.run = .program cmd row span →
    (∀ t, ∃ u, exec (.rbr t) s = .next u ∧ u.bank b = { k with upc := t.toNat } ∧ u = { s with banks := u.banks } ∧
      ∀ a, a ≠ b → u.bank a = s.bank a) ∧
    (∀ (c : BitVec 1) (t : BitVec 6), ∃ u lc, exec (.rloop c t) s = .next u ∧ u = { s with banks := u.banks } ∧
      (∀ a, a ≠ b → u.bank a = s.bank a) ∧
      (∀ j < 2, lc[j]? = if j = c.toNat then (k.lc[j]?).map (· - 1#16) else k.lc[j]?) ∧
      u.bank b = { k with lc := lc, upc := if lc[c.toNat]? = some 0#16 then k.upc + 1 else t.toNat }) ∧
    (∃ u, exec .rsync s = .next u ∧ u.bank b = { k with upc := k.upc + 1 } ∧ CmdCounted s b cmd false u) ∧
    (∃ u, exec .rend s = .next u ∧ u.bank b = { k with run := .idle, queue := k.queue.filter (fun q => q.cmd != cmd) } ∧
      CmdCounted s b cmd true u) ∧
    (∀ (n w : BitVec 2) (i : BitVec 1) (j : Instr), w = 3#2 → (k.ptr n).toNat < span → (j = .radd n i w ∨ (∃ sh g, j = .rshadd n i w sh g) ∨ j = .racc n i w) →
      ∃ u, exec j s = .next u ∧ CmdCounted s b cmd true u ∧
        u.bank b = { k with run := .idle, queue := k.queue.filter (fun q => q.cmd != cmd), err := true,
                            errCode := if k.err then k.errCode else 1#8 }) ∧
    (∀ (n w : BitVec 2) (i : BitVec 1) (j : Instr), span ≤ (k.ptr n).toNat →
      (j = .ract n i ∨ j = .radd n i w ∨ (∃ sh g, j = .rshadd n i w sh g) ∨ j = .rcopy n i ∨ j = .rclr n i ∨ j = .racc n i w ∨
        j = .rlka n i) →
      ∃ u, exec j s = .next u ∧ CmdCounted s b cmd true u ∧
        u.bank b = { k with run := .idle, queue := k.queue.filter (fun q => q.cmd != cmd), err := true,
                            errCode := if k.err then k.errCode else 2#8 }) ∧
    (∀ (n : BitVec 2) (i : BitVec 1), (k.ptr n).toNat < span → k.shape = none →
      ∃ u, exec (.rlka n i) s = .next u ∧ u = { s with banks := u.banks } ∧
        u.bank b = { k with upc := k.upc + 1, err := true, errCode := if k.err then k.errCode else 3#8 })) ∧
  (∀ (s t : State) (rest : List Turn) (b cmd row span : Nat) (k : Bank) (h : BitVec 16) (e : DecodeError),
    s.agenda = .bank b :: rest → t = ({ s with agenda := rest } : State).clock → k = t.bank b → k.run = .program cmd row span →
    h = BitVec.ofNat 16 (getElt k.micro 16 k.upc) →
    (64 ≤ k.upc → ∃ u, step s = .next u ∧ CmdCounted t b cmd true u ∧
      u.bank b = { k with run := .idle, queue := k.queue.filter (fun q => q.cmd != cmd), err := true,
                          errCode := if k.err then k.errCode else 5#8 }) ∧
    (k.upc < 64 → k.microPsn.getLsbD k.upc = false → decodeMicroBytes [h.extractLsb' 0 8, h.extractLsb' 8 8] = .error e →
      ∃ u, step s = .next u ∧ CmdCounted t b cmd true u ∧
        u.bank b = { k with run := .idle, queue := k.queue.filter (fun q => q.cmd != cmd), err := true,
                            errCode := if k.err then k.errCode else 1#8 }))

/-- How commands start and end in a bank and how ordinary requests share it (R275, R277, R287, R292, R294). -/
def Obligations.BankEvents : Prop :=
  (∀ (s : State) (b : Nat) (k : Bank) (c : BankCmd) (rest : List BankCmd), k = s.bank b → k.run = .idle →
    k.queue = c :: rest → (∀ q ∈ rest, q.cmd ≠ c.cmd) →
    ∃ u, exec (.bankCommandStart b) s = .next u ∧ (∀ a, a ≠ b → u.bank a = s.bank a) ∧ u.mm = s.mm ∧
      (match c.op with
       | .codebook data psn => CmdCounted s b c.cmd true u ∧
         u.bank b = { k with queue := rest, resumed := false, codebook := data, codebookPsn := psn }
       | .store data psn => CmdCounted s b c.cmd true u ∧
         u.bank b = { k with queue := rest, resumed := false, micro := data, microPsn := psn }
       | .lookup start q abase row => match k.shape with
         | none => CmdCounted s b c.cmd true u ∧
           u.bank b = { k with queue := rest, resumed := false, err := true, errCode := if k.err then k.errCode else 3#8 }
         | some _ => u.bank b = { k with queue := rest, resumed := false, run := .lookup c.cmd start q abase row 0 }
       | .run block row span =>
         if badRunBlock block then CmdCounted s b c.cmd true u ∧
           u.bank b = { k with queue := rest, resumed := false, err := true, errCode := if k.err then k.errCode else 7#8 }
         else ∃ g, u.bank b = g ∧ g = { k with
             queue := rest, resumed := false, run := .program c.cmd row span, p := g.p, lc := g.lc,
             ab := block.extractLsb' 96 10, qb := block.extractLsb' 112 16, qn := block.extractLsb' 128 16,
             upc := block.toNat / 2 ^ 144 % 64 } ∧ (∀ n : BitVec 2, g.ptr n = block.extractLsb' (16 * n.toNat) 14) ∧
                g.lc[0]? = some (block.extractLsb' 64 16) ∧ g.lc[1]? = some (block.extractLsb' 80 16)
       | .build sh _ _ => CmdCounted s b c.cmd true u ∧ (u.bank b).shape = some sh ∧ (u.bank b).codebook = k.codebook ∧
         (u.bank b).acc = k.acc ∧ (u.bank b).queue = rest
       | .drain => u = s)) ∧
  (∀ (k : Bank) (c : ColClass) (kw : Nat) (ds : List Int) (j p : Nat), 1 ≤ c.b → c.b ≤ 4 → 1 ≤ c.g → c.g ≤ 8 → c.b * c.g ≤ 12 →
    c.sub = 0 → c.pecks kw * pecksSize c.b c.g ≤ 16 → ds.length = kw → (∀ d ∈ ds, -255 ≤ d ∧ d ≤ 255) → j < c.pecks kw → p < 2 ^ (c.b * c.g) →
    (k.build ⟨[c], kw⟩ [ds] []).bushelAt (j * pecksSize c.b c.g * 256 + p) =
      ((List.range c.g).map (fun t => toSigned 8 (getElt k.codebook 8 (p / 2 ^ (c.b * t) % 2 ^ c.b)) * ds.getD (j * c.g + t) 0)).sum) ∧
  (∀ (s : State) (c : Cmd) (h : Hart), s.cmdOf c.id = some c → c.ended = true → s.unacked c.id = false → s.hartOf c.uid = some h →
    ∃ u g, exec (.bankCommandComplete c.id) s = .next u ∧ u.cmdOf c.id = none ∧ u.hartOf c.uid = some g ∧ u.mm = s.mm ∧ u.banks = s.banks ∧
      ∀ n : BitVec 4, g.getK n = h.getK n +
        (if n.toNat = c.k then BitVec.ofNat 64 ((c.state.map (fun e => e.2.1)).foldl Max.max 0 + 1 - c.counted) else 0#64)) ∧
  (∀ (s : State) (b : Nat) (r : OrdReq) (rest : List OrdReq), (s.bank b).moving = none → (s.bank b).pending = r :: rest →
    ((s.bank b).resumed = false ∨ s.engineRow b = false) → (s.engineRow b = true → (s.bank b).susp = true → (s.bank b).started < 16) →
    ∃ u, exec (.rowOperationEnd b) s = .next u ∧ u = { s with banks := u.banks } ∧
      u.bank b = { s.bank b with
        susp := s.engineRow b, moving := some r, pending := rest,
        started := if s.engineRow b = true ∧ (s.bank b).susp = false then 1 else (s.bank b).started + 1 }) ∧
  (∀ (s : State) (b cmd start q abase row done a hi : Nat) (sh : Shape) (k g : Bank), k = s.bank b → k.moving = none →
    (k.pending = [] ∨ k.resumed = true) → k.susp = false → s.bankHeld b = false → k.run = .lookup cmd start q abase row done → k.shape = some sh →
    k.soundAcc → k.soundBushel → k.mismatched = [] → a = start + done →
    hi = Min.min (q - done) (32 - a % 32) →
    g = k.lookupRow sh (s.rowData b (row + a / 32)) (s.rowPsn b (row + a / 32)) (a % 32) (a % 32 + hi) done q abase →
    ∃ u, exec (.rowOperationEnd b) s = .next u ∧ (u.bank b).acc = g.acc ∧ (u.bank b).sat = g.sat ∧ u.mm = s.mm ∧
      (done + hi < q → (u.bank b).run = .lookup cmd start q abase row (done + hi)) ∧
      (q ≤ done + hi → (u.bank b).run = .idle ∧ CmdCounted s b cmd true u)) ∧
  (∀ (s : State) (b : Nat) (r : OrdReq) (pa : Nat), (s.bank b).moving = some r → pa = s.rowPa b r.row + r.byte →
    r.scrub = none →
    (∀ v, r.store = some v → r.byte % 128 + 32 ≤ 128 → Memory.wf s.mm.bytes = true → s.tagAddr (pa / 128) = none →
      ∃ u g : State, exec (.ordinaryRequestDataMoved b) s = .next u ∧ u = g.settleLeagues.settleAtBank ∧
        g.bank b = { s.bank b with moving := none } ∧ g.harts = s.harts ∧
        (∀ i < 32, g.byteAt (pa + i) = if r.mask.getLsbD i then BitVec.ofNat 8 (getElt v 8 i) else s.byteAt (pa + i)) ∧
        (∀ x, x < pa ∨ pa + 32 ≤ x → g.byteAt x = s.byteAt x)) ∧
    (r.store = none → s.fab.atBank.find? (fun e => e.1 == r.uid) = none →
      ∃ u g : State, exec (.ordinaryRequestDataMoved b) s = .next u ∧
        g.bank b = { s.bank b with moving := none } ∧ (∀ a, a ≠ b → g.bank a = s.bank a) ∧
        g = { s with banks := g.banks, homeReply := some (BitVec.ofNat 64 (natOfBytes (Memory.read s.mm.bytes pa (Min.min 8 r.size)))) } ∧
        u = (g.deliver r.uid ⟨bankReply, pa, (s.homeLine (pa / 128)).data, (s.homeLine (pa / 128)).psn, [], true⟩).settleAtBank)) ∧
  (∀ (s : State) (b : Nat) (r : OrdReq), ∃ u, exec (.bankOrdinaryRequest b r) s = .next u ∧ u = { s with banks := u.banks } ∧
    u.bank b = { s.bank b with pending := (s.bank b).pending ++ [r] } ∧ ∀ a, a ≠ b → u.bank a = s.bank a) ∧
  (∀ (s : State) (b : Nat), (s.bank b).susp = true → (s.bank b).moving = none →
    ∃ u, exec (.suspensionWindowEnd b) s = .next u ∧ u = { s with banks := u.banks } ∧
      u.bank b = { s.bank b with susp := false, started := 0, resumed := true })

/-- A drain (R287) sums the accumulators of its columns over the banks of the set and delivers them in its form; the
accumulators are cleared when it asks for it. A column sum that the unit has formed wrong shows by its residue and is
poisoned (R390). -/
def Obligations.Drains : Prop :=
  (∀ (s : State) (c : Cmd) (j : Nat), j ∈ c.badSums → (∀ i < c.count, (s.bank (c.bank + i)).badResidue j = false) →
    j < 1024 → s.badSum c j = true ∧ (s.drainSum c j).2 = true) ∧
  (∀ (s : State) (c : Cmd) (w : Word) (block : BitVec 256) (shifts : List (BitVec 8)) (first count form : Nat) (sum : Nat → Int),
    s.cmdOf c.id = some c → c.drain = some (w, block, shifts) → s.drainDue c = true → c.count ≤ 4096 → block.toNat < 2 ^ 160 →
    c.badSums = [] → first = w.toNat % 1024 → count = w.toNat / 2 ^ 10 % 2048 → form = w.toNat / 2 ^ 21 % 4 → first + count ≤ 1024 →
    (∀ i < c.count, (s.bank (c.bank + i)).soundAcc ∧ (s.bank (c.bank + i)).accPsn = 0#1024) →
    sum = (fun (j : Nat) => ((List.range c.count).map (fun i => (s.bank (c.bank + i)).accAt j)).sum) →
    (c.stream = true → form ≠ 3 → c.uid = s.hart.uid → count * (if form = 1 then 64 else 32) ≤ 262144 → w.toNat / 2 ^ 24 % 64 < 48 →
      ∃ u, exec (.reductionDrain c.id) s = .next u ∧ u.mm = s.mm ∧
        (∀ n < count,
          (form = 0 → toSigned 32 (getElt (u.hart.getV (w.toNat / 2 ^ 24 % 64)) 32 n) = clampTo 32 (sum (first + n))) ∧
          (form = 1 → toSigned 64 (getElt (u.hart.getV (w.toNat / 2 ^ 24 % 64)) 64 n) = sum (first + n)) ∧
          (form = 2 → getElt (u.hart.getV (w.toNat / 2 ^ 24 % 64)) 32 n =
            (packF fmtF32 0 (mulV (.fin (decide (sum (first + n) < 0)) (sum (first + n)).natAbs
              (Max.max (-32) (Min.min 31 (shifts.getD n 0#8).toInt))) (decodeF fmtF32 (block.toNat / 2 ^ 128))).1).1 % 2 ^ 32)) ∧
        (∀ r, r ≠ w.toNat / 2 ^ 24 % 64 → u.hart.getV r = s.hart.getV r) ∧
        (∀ i < c.count, ∀ j < 1024, (u.bank (c.bank + i)).accAt j =
          if w.getLsbD 23 ∧ first ≤ j ∧ j < first + count then 0 else (s.bank (c.bank + i)).accAt j) ∧
        (form = 0 → ∀ i < c.count, ((u.bank (c.bank + i)).rsat = true ↔ (s.bank (c.bank + i)).rsat = true ∨
          ∃ n < count, clampTo 32 (sum (first + n)) ≠ sum (first + n)))) ∧
    (c.stream = false → form = 3 →
      ∃ u, exec (.reductionDrain c.id) s = .next u ∧ u.mm = s.mm ∧
        ∀ i < c.count, ∀ j < 1024, (u.bank (c.bank + i)).accAt j =
          if first ≤ j ∧ j < first + count then 0 else (s.bank (c.bank + i)).accAt j) ∧
    (∀ t, c.stream = false → form = 0 →
      engineWrites (s.engineWho c) 4096 (BitVec.ofNat 64 block.toNat)
        ((List.range count).flatMap (fun n => (bytesOfNat 4 (ofSigned 32 (clampTo 32 (sum (first + n))))).map (fun b => (b, false)))) s
        = .ok ((), t) →
      ∃ u, exec (.reductionDrain c.id) s = .next u ∧ u.mm = t.mm))

/-- Tile copies (R311 to R314): issue with its checks, a row moved whole, the count of a finished copy, and the record of a
stopped one. Its traps give FAULTVA alone, the other fault registers keeping their values (R366; log entry 28). Which copies
enter the range scoreboard (log entry 49) and that the record of a stopped copy counts as not yet told (log entry 32) are the
model's readings. -/
def Obligations.TileCopies : Prop :=
  (∀ (s : State) (k : BitVec 4) (x : BitVec 5) (c : Copy), x.toNat % 4 = 0 → x ≠ 0#5 →
    c = { id := s.fresh, uid := s.hart.uid, place := s.hart.place, asid := s.hart.asid, pc := s.hart.pc, k := k.toNat,
          src := s.getX x, dst := s.getX (x + 1#5), strides := s.getX (x + 2#5), shape := s.getX (x + 3#5),
          row := (s.getX (x + 3#5)).toNat / 2 ^ 32 % 4096, got := [], put := 0, range := none } →
    c.reserved = false →
    (∀ inSp, c.misaligned = none → c.src.toNat < 2 ^ 57 → c.dst.toNat < 2 ^ 57 → s.unacked s.hart.uid = false →
      inSp = s.meetsScratch s.hart.asid (c.span c.row) →
      (inSp = true → (s.copies.filter (fun d => d.place.die == s.hart.place.die && d.place.core == s.hart.place.core &&
        d.range.isSome)).length < 16) →
      ∃ u, exec (.tcopy k x) s = .next u ∧
        Passed ({ s with copies := s.copies ++ [{ c with range := if inSp then some (c.span c.row) else none }],
                         fresh := s.fresh + 1 } : State).clearReplies u) ∧
    (∀ va, s.takesTraps → c.misaligned = some va →
      ∃ u, exec (.tcopy k x) s = .next u ∧ Entered s.clearReplies 4#8 true s.hart.pc va s.hart.csr.faultStride s.hart.csr.faultRemain u) ∧
    (s.takesTraps → c.misaligned = none → 2 ^ 57 ≤ c.src.toNat →
      ∃ u, exec (.tcopy k x) s = .next u ∧ Entered s.clearReplies 8#8 true s.hart.pc c.src s.hart.csr.faultStride s.hart.csr.faultRemain u)) ∧
  (∀ (s : State) (d : BitVec 5) (sel : BitVec 2) (c : BitVec 1), sel ≠ 3#2 →
    ∃ u, exec (.tstat d sel c) s = .next u ∧
      (c = 0#1 → Wrote s.clearReplies d (match s.hart.copyFault with
        | none => 0#64
        | some f => if sel = 0#2 then BitVec.ofNat 64 (2 ^ 63 + f.row.toNat * 2 ^ 44 + f.k.toNat * 2 ^ 40 + f.cause.toNat)
                    else if sel = 1#2 then f.pc else f.va) u) ∧
      (c = 1#1 → u.hart.copyFault = s.hart.stopped.head? ∧ u.hart.stopped = s.hart.stopped.tail ∧ u.hart.copyTold = false ∧
        ∀ pa, u.byteAt pa = s.byteAt pa)) ∧
  (∀ (s s0 t1 t : State) (c : Copy) (l : List Byte) (who : Who) (n : Nat), s.copyOf c.id = some c → s.copyDue c = true →
    s0 = { s with copyLast := putSlotServed s.copyLast c.place } → who = ⟨c.id, c.place.die, c.place.core, c.asid⟩ →
    copyRead who 4097 (c.src + BitVec.ofInt 64 (c.row * c.srcStride) + BitVec.ofNat 64 c.got.length)
      (c.cols * c.unit - c.got.length) c.got s0 = .done l t1 →
    copyWrite who ((c.pieces l).drop c.put) c.put t1 = .done n t →
    ∃ u, exec (.tcopyRow c.id) s = .next u ∧ u.mm = t.mm ∧ u.harts = t.harts ∧
      u.copies = t.copies.map (fun e => if e.id = c.id then { c with row := c.row + 1, got := [], put := 0 } else e)) ∧
  (∀ (c : Copy) (l : List Byte), l.length = c.cols * c.unit → c.transposed = false →
    ((c.pieces l).map (·.2)).flatten = ((unitsOf c.unit c.cols l).map c.unitOut).flatten ∧
    (∀ p rest, c.pieces l = p :: rest → p.1 = c.dst + BitVec.ofInt 64 (c.row * c.dstStride))) ∧
  (∀ (c : Copy) (l : List Byte), l.length = c.unit →
    c.unitOut l = if c.conjugated then (List.range c.unit).map (fun n => if n + 1 = c.unit then l.getD n 0 ^^^ 0x80#8 else l.getD n 0) else l) ∧
  (∀ (s : State) (c : Copy) (h : Hart), s.copyOf c.id = some c → c.rows ≤ c.row → s.unacked c.id = false → s.hartOf c.uid = some h →
    ∃ u g, exec (.tcopyComplete c.id) s = .next u ∧ u.copyOf c.id = none ∧ u.mm = s.mm ∧ u.hartOf c.uid = some g ∧
      ∀ n : BitVec 4, g.getK n = h.getK n + (if n.toNat = c.k then 1#64 else 0#64)) ∧
  (∀ (s : State) (c : Copy) (h : Hart) (cause : BitVec 8) (va : Word) (f : CopyFault), s.copyOf c.id = some c → s.hartOf c.uid = some h →
    f = ⟨c.id, BitVec.ofNat 12 c.row, BitVec.ofNat 4 c.k, cause, c.pc, va⟩ →
    ∃ u g, exec (.tcopyStop c.id cause va) s = .next u ∧ u.copyOf c.id = none ∧ u.mm = s.mm ∧ u.hartOf c.uid = some g ∧ g.k = h.k ∧
      (h.copyFault = none → g.copyFault = some f ∧ g.stopped = h.stopped) ∧
      (h.copyFault ≠ none → g.copyFault = h.copyFault ∧ g.stopped = h.stopped ++ [f]))

/-- Placement and pre-emption (R37, R38, R65 to R68): what a launch leaves in a slot, a saved hart placed again with its
registers, and what a pre-emption saves. -/
def Obligations.Placement : Prop :=
  (∀ (s : State) (t : Slot) (e : Entry) (i : Nat) (h : Hart), h = s.newHart t e i →
    h.getX 1#5 = BitVec.ofNat 64 (e.packet.toNat / 2 ^ 256 % 2 ^ 64) ∧ h.getX 2#5 = BitVec.ofNat 64 i ∧
    h.getX 3#5 = BitVec.ofNat 64 (e.packet.toNat / 2 ^ 320 % 2 ^ 32) ∧
    (∀ r, r ≠ 1#5 → r ≠ 2#5 → r ≠ 3#5 → h.getX r = 0#64) ∧ (∀ n, h.getV n = 0#262144) ∧ (∀ n, h.getM n = 0#4096) ∧
    (∀ n, h.getMd n = 0x780#32) ∧ (∀ n, h.getIx n = 0#64) ∧ (∀ n, h.getK n = 0#64) ∧ (∀ n, h.getBs n = 0#64) ∧ (∀ n, h.getB n = none) ∧
    h.pc = BitVec.ofNat 64 (e.packet.toNat / 2 ^ 192 % 2 ^ 57) ∧ h.league = none ∧ h.csr.hm = false ∧ h.csr.runCount = 0#64 ∧
    h.nt = 0 ∧ h.nregs = [6, 12, 24, 48].getD (e.packet.toNat / 2 ^ 352 % 4) 0 ∧
    h.csr.hartId = BitVec.ofNat 64 (i % 2 ^ 32 + t.qid * 2 ^ 32) ∧
    (∀ die core v : Nat, s.rangeRefused h = false → ∃ (g : Hart) (l : List Hart), (s.launchHart t e i die core v).others = l ++ [g] ∧
      l.map Hart.plain = s.others.map Hart.plain ∧ (s.launchHart t e i die core v).hart.plain = s.hart.plain ∧ g.phase = .resident ∧ g.place.die = die ∧ g.place.core = core ∧ g.vlMax = v ∧ g.vl = v ∧ g.x = h.x ∧ g.v = h.v ∧ g.pc = h.pc ∧
      g.csr = h.csr)) ∧
  (∀ (p : Line) (home i : Nat), i < pkHarts p → ∃ r ∈ launchRanges p home, r.next ≤ i ∧ i < r.stop ∧
    r.die = (launchDies p home).getD (i * (launchDies p home).length / pkHarts p) 0) ∧
  (∀ (s : State) (d core v slot n : Nat), s.frontEndAt d = true → s.planesMove = true → s.waitingOn d = [.saved s.hart n] →
    s.whereTo d s.hart true = some (core, v) → s.freeHartSlot d core = some slot → (∀ h ∈ s.harts, h.league = none) →
    ∃ u, exec (.dispatch d) s = .next u ∧ u.others.map Hart.plain = s.others.map Hart.plain ∧
      u.hart = { s.hart with phase := .resident, place := ⟨d, core, slot⟩, waitCount := 0, promoted := 0, fetched := false,
                             pins := [], vDirty := Vector.replicate 48 0 }) ∧
  (∀ s t : State, s.frontEndAt (s.dieOf s.hart.uid) = true → s.planesMove = true → s.hart.isResident = true → s.hart.matQ = [] →
    s.hart.trapWaits = false → (∀ c ∈ s.copies, c.uid ≠ s.hart.uid) →
    (∀ c ∈ s.cmds, c.stream = true → c.uid ≠ s.hart.uid) → s.hart.furlong = none → s.hart.strip = [] →
    s.unacked s.hart.uid = false → s.midRemote s.hart.uid = false →
    t = ((s.unpin s.hart.uid).release s.hart.place.die s.hart.place.core 2#2).abandon s.hart.uid →
    ∃ u, exec (.hartPreempt s.hart.uid) s = .next u ∧ u.others = s.others ∧
      u.hart = { s.hart with phase := .waiting, wait := .none, leaving := false, held := false, pins := u.hart.pins,
                             pc := s.hart.position, startElem := t.savedElem t.hart, elemFrom := t.savedElem t.hart,
                             vPi := s.hart.restPi 0#48, records := t.producing t.hart ++ s.hart.records, region := none,
                             pathAt := none, kept := [], replies := [] } ∧
      (∀ c ∈ s.mm.l1, c.pin = some s.hart.uid → ⟨c.line, c.data, c.psn⟩ ∈ u.hart.pins) ∧
      (∀ c ∈ u.mm.l1, c.pin ≠ some s.hart.uid)) ∧
  (∀ (s : State) (who : WaitingHart) (d c : Nat) (w : Waiting) (l : List Hart), s.waitingHart who = some (d, w) →
    s.frontEndAt d = true → s.planesMove = true →
    s.roomOn d (s.needOf w) (w.lengths (s.needOf w)) (fun g => decide (g.prio < (s.needOf w).prio)) = some (c, l) →
    ∃ u, exec (.priorityPreemptTimeout who) s = .next u ∧ u = (s.preemptAll l).serve d w ∧
      ∀ g ∈ l, g.prio < (s.needOf w).prio ∧ g ∈ s.harts ∧ g.place.die = d ∧ g.place.core = c) ∧
  (∀ s : State, s.hart.isReady = true → 64 ≤ s.hart.waitCount → s.hart.promoted = 0 →
    ∃ u, exec (.hartPromotion s.hart.uid) s = .next u ∧ u.hart.promoted ≠ 0 ∧
      u = { s with hart := { s.hart with promoted := u.hart.promoted } } ∧
      ∀ g : Hart, g.promoted = 0 → issuesBefore u.hart g = true ∧ issuesBefore g u.hart = false)

/-- What else befalls a hart from outside (R31, R73, R227, R238, R240, R355, R365, R373, R374, R377). -/
def Obligations.HartEvents : Prop :=
  (∀ (s : State) (die core bank : Nat),
    (∃ u, exec (.vrfBankDrowsy die core bank) s = .next u ∧ u = { s with mm := { s.mm with drowsy := u.mm.drowsy } } ∧
      ∀ x, x ∈ u.mm.drowsy ↔ x = (die, core, bank) ∨ x ∈ s.mm.drowsy) ∧
    exec (.vrfRefreshStep die core bank) s = .next s) ∧
  (∀ s : State, (∃ u, exec (.debuggerHalt s.hart.uid) s = .next u ∧ u.hart.isReady = false ∧
      u = { s with hart := { s.hart with dbgHalted := true } }) ∧
    (∃ u, exec (.debuggerResume s.hart.uid) s = .next u ∧ u = { s with hart := { s.hart with dbgHalted := false } })) ∧
  (∀ (s : State) (k : List Word) (p : List (BitVec 32)), s.hart.wait = .wfi k p → s.hart.isResident = true → s.hart.dbgHalted = false →
    s.hart.watchdogDue = false →
    ∃ u, exec (.wfiTimeout s.hart.uid) s = .next u ∧
      Passed ({ s with hart := { s.hart with wait := .none } } : State) u) ∧
  (∀ s : State, s.hart.isResident = true → s.hart.dbgHalted = false → s.hart.trapWaits = false → s.hart.expired = false →
    s.hart.csr.wdLimit ≠ 0#64 →
    s.hart.csr.wdLimit.toNat ≤ s.hart.csr.runCount.toNat → s.midRemote s.hart.uid = false →
    (s.takesTraps → s.hart.csr.runCount.toNat < s.hart.csr.wdLimit.toNat + 65536 → s.hart.startElem = 0 → ∃ u, exec (.kernelWatchdogExpiry s.hart.uid) s = .next u ∧ u.hart.wait = .none ∧
      Entered s 0x10#8 false s.hart.pc s.hart.csr.runCount 0#64 0#64 u) ∧
    (s.hart.csr.hm = true → ∃ u, exec (.kernelWatchdogExpiry s.hart.uid) s = .next u ∧
      u = { s with hart := { s.hart with expired := true } })) ∧
  (∀ s : State, s.hart.isResident = true → s.hart.dbgHalted = false → s.hart.expired = true → s.hart.csr.wdLimit ≠ 0#64 →
    s.hart.csr.wdLimit.toNat + 65536 ≤ s.hart.csr.runCount.toNat → s.hart.furlong = none → s.hart.strip = [] → s.hart.region = none →
    ∃ u, exec (.watchdogGraceExpiry s.hart.uid) s = .next u ∧ u.hart.phase = .ended ∧ u.hart.x = s.hart.x ∧ u.hart.league = none ∧
      ∃ r ∈ u.fe.fails, r.qid = s.hart.queue ∧ r.hartId = s.hart.csr.hartId ∧ r.epc = s.hart.pc ∧ r.cause = 0x10#64) ∧
  (∀ (s : State) (v : FaultVals), s.hart.isResident = true → s.midRemote s.hart.uid = false → s.hart.watchdogDue = false →
    s.takesTraps → v.given = true → v.elem = 0 →
    ∃ u, exec (.trapEntry s.hart.uid v) s = .next u ∧ Entered s v.cause v.vec v.epc v.va v.stride v.remain u) ∧
  (∀ (s t : State) (v : FaultVals) (entries : List (Nat × Word)), s.frontEndAt (s.dieOf s.hart.uid) = true → s.hart.wait = .pager v →
    s.hart.watchdogDue = false → t = s.pageIn entries →
    (t.pageable s.hart.asid v.va = true →
      (∀ p ∈ t.pageSet s.hart.asid v, t.resident s.hart.place.die s.hart.asid (p * 65536) = true) →
      ∃ u, exec (.pageFaultService s.hart.uid entries true) s = .next u ∧ u.others = s.others ∧
        u.hart = { s.hart with wait := .none, kept := t.pageSet s.hart.asid v }) ∧
    (t.pageable s.hart.asid v.va = true →
      (∃ p ∈ t.pageSet s.hart.asid v, t.resident s.hart.place.die s.hart.asid (p * 65536) = false) →
      exec (.pageFaultService s.hart.uid entries true) s = .next t ∧ t.hart = s.hart) ∧
    (s.takesTraps → v.given = true → v.elem = 0 → ∃ u, exec (.pageFaultService s.hart.uid entries false) s = .next u ∧
      Entered s v.cause v.vec v.epc v.va v.stride v.remain u)) ∧
  (∀ s t : State, commitFurlong s = .ok ((), t) →
    exec (.furlongCommit s.hart.uid) s = .next t ∧ t.hart.furlong = none ∧ t.hart.strip = []) ∧
  (∀ (s : State) (f : Furlong), s.hart.furlong = some f → s.hart.isResident = true → s.hart.ownPoison = true → f.rewound = false → f.again = false →
    s.coreCounts (s.coreBank s.hart.place) →
    ∃ u, exec (.furlongRewind s.hart.uid) s = .next u ∧ u.hart.pc = f.start ∧ u.hart.startElem = 0 ∧ u.hart.strip = [] ∧
      u.hart.md = f.snapMd ∧ u.hart.ix = f.snapIx ∧ u.hart.v = s.hart.v ∧ u.hart.m = s.hart.m ∧ u.hart.csr = s.hart.csr ∧
      (∀ r : BitVec 5, r ≠ 0#5 → u.getX r = if f.snapMask.getLsbD r.toNat then (f.snapX[r.toNat]?).getD 0#64 else s.getX r) ∧
      ∀ pa, u.byteAt pa = s.byteAt pa) ∧
  (∀ (s : State) (j : Job), s.jobOf s.hart.asid = some j → s.hart.isResident = true →
    s.coreCounts (s.coreBank s.hart.place) →
    ∃ u, exec (.jobEndByError s.hart.asid s.hart.uid) s = .next u ∧ u.jobOf s.hart.asid = none ∧
      (∀ g ∈ u.harts, g.asid = s.hart.asid → g.phase = .ended ∨ g.phase = .absent ∨ g.phase = .retired) ∧
      ∃ r ∈ u.fe.jobEnds, r.asid = s.hart.asid ∧ ∃ f ∈ r.harts, f.hartId = s.hart.csr.hartId ∧ f.cause = 0xF#64)

/-- Queues and packets (R54 to R64, R133). Each event answers a next state that holds its own effect, under conditions on
the state and the operands alone: notifyWrite raises a queue's WRITEIDX, maps it, or counts an error; queueMap maps it,
unmaps an idle one for room, or waits; queueIdleTimeout unmaps an idle one; packetEnterWindow reads a packet into the
window, passes a NOP or fails the queue; packetLaunch launches a LAUNCH, SIGNAL or MARKER; packetComplete changes the tokens
and writes the completion word; a packet at the head of the window then advances RETIREIDX. -/
def Obligations.QueueEvents : Prop :=
  (∀ (s : State) (die slot bytes : Nat) (v : Word) (w : Option Nat), die < 4 →
    (bytes ≠ 8 ∨ s.fe.qcount ≤ v.toNat / 2 ^ 44) →
    ∃ u, exec (.notifyWrite die slot bytes v w) s = .next u ∧ u = { s with fe := { s.fe with errCount := u.fe.errCount } } ∧
      ∀ k < 4, u.fe.errCount[k]? = (s.fe.errCount[k]?).map (fun n => if k = die then n + 1 else n)) ∧
  (∀ (s : State) (die slot : Nat) (v : Word) (w : Option Nat) (t : Slot), s.slotAt die slot = some t → t.qid = v.toNat / 2 ^ 44 →
    t.qid < s.fe.qcount → (∀ a, w = some a → a = s.qAsid t.qid) →
    ∃ u t', exec (.notifyWrite die slot 8 v w) s = .next u ∧ u.slotAt die slot = some t' ∧ u.harts = s.harts ∧
      t' = { t with writeIdx := Max.max t.writeIdx (v.toNat % 2 ^ 44), idleSince := t'.idleSince }) ∧
  (∀ (s : State) (die slot a : Nat) (v : Word), v.toNat / 2 ^ 44 < s.fe.qcount → a ≠ s.qAsid (v.toNat / 2 ^ 44) →
    exec (.notifyWrite die slot 8 v (some a)) s = .next s) ∧
  (∀ (s g : State) (die slot qid n : Nat) (v : Word) (w : Option Nat), qid = v.toNat / 2 ^ 44 → qid < s.fe.qcount →
    (∀ a, w = some a → a = s.qAsid qid) → g = s.raiseWrite qid (v.toNat % 2 ^ 44) → g.slotOf qid = none → g.qEn qid = true →
    g.qErr qid = false → g.qMapped qid = false → g.freeSlot (g.qHome qid) = some n → g.wayFree (g.qHome qid) qid = true →
    ∃ u t, exec (.notifyWrite die slot 8 v w) s = .next u ∧ u.slotOf qid = some t ∧ t.die = g.qHome qid ∧ t.slot = n ∧
      t.writeIdx = (g.qcb qid).toNat / 2 ^ 128 % 2 ^ 44 ∧ u.harts = s.harts) ∧
  (∀ (s : State) (die qid n : Nat), s.frontEndAt die = true → qid < s.fe.qcount → s.qHome qid = die → s.slotOf qid = none → s.qErr qid = false →
    s.qEn qid = true → s.freeSlot die = some n → s.wayFree die qid = true →
    ∃ u t, exec (.queueMap die qid) s = .next u ∧ u.slotOf qid = some t ∧ t.die = die ∧ t.slot = n ∧
      t.writeIdx = (s.qcb qid).toNat / 2 ^ 128 % 2 ^ 44 ∧ t.readIdx = (s.qcb qid).toNat / 2 ^ 192 % 2 ^ 44 ∧
      t.retireIdx = (s.qcb qid).toNat / 2 ^ 256 % 2 ^ 44 ∧ t.tokens = BitVec.ofNat 64 ((s.qcb qid).toNat / 2 ^ 320)) ∧
  (∀ (s : State) (die qid : Nat), s.frontEndAt die = true → qid < s.fe.qcount → s.qHome qid = die → s.slotOf qid = none → s.qErr qid = false →
    s.qEn qid = true → (s.freeSlot die = none ∨ s.wayFree die qid = false) →
    (s.idleVictim die qid = none → ∃ u, exec (.queueMap die qid) s = .next u ∧ qid ∈ u.fe.mapWait ∧
      u = { s with fe := { s.fe with mapWait := u.fe.mapWait } } ∧ ∀ q ∈ u.fe.mapWait, q = qid ∨ q ∈ s.fe.mapWait) ∧
    (∀ v n, s.idleVictim die qid = some v → (s.unmapQueue v).freeSlot die = some n →
      ∃ u t, exec (.queueMap die qid) s = .next u ∧ u.slotOf qid = some t ∧ t.die = die ∧ t.slot = n ∧ u.slotOf v = none ∧
        u.harts = s.harts)) ∧
  (∀ (s : State) (die slot : Nat) (t : Slot), s.frontEndAt die = true → s.slotAt die slot = some t → t.window = [] → t.readIdx = t.writeIdx →
    s.fe.mapWait = [] →
    ∃ u, exec (.queueIdleTimeout die slot) s = .next u ∧ u.slotOf t.qid = none ∧
      u.fe.slots = s.fe.slots.filter (fun x => x.qid != t.qid)) ∧
  (∀ (s u0 : State) (die slot : Nat) (t : Slot) (p : Line), s.frontEndAt die = true → s.slotAt die slot = some t → t.canRead = true → s.qEn t.qid = true →
    s.planesMove = true → s.readRing t t.nextIdx = .packet p u0 → u0.packetCode t.qid p = none → pkKind p ≠ 0 → u0.slotAt die slot = some t →
    ∃ u e, exec (.packetEnterWindow die slot) s = .next u ∧
      e = { Entry.fresh t.nextIdx p with eligible := u0.waitMet t (Entry.fresh t.nextIdx p) } ∧
      u.slotAt die slot = some { t with window := insertEntry e t.window, readIdx := Max.max t.readIdx (t.nextIdx + 1) } ∧
      u.mm = u0.mm ∧ u.harts = u0.harts) ∧
  (∀ (s u0 : State) (die slot : Nat) (t : Slot) (p : Line), s.frontEndAt die = true → s.slotAt die slot = some t → t.canRead = true →
    s.qEn t.qid = true → s.planesMove = true → s.readRing t t.nextIdx = .packet p u0 → pkKind p = 0 → u0.slotAt die slot = some t → u0.slotOf t.qid = some t →
    t.window = [] → t.nextIdx = t.retireIdx → u0.qErr t.qid = false → (∃ q ∈ u0.fe.qcbCache, q.2.1 = t.qid) → u0.fe.mapWait = [] →
    u0.unacked (frontEnd t.die 0).uid = false → u0.planesMove = true →
    ∃ u t', exec (.packetEnterWindow die slot) s = .next u ∧ u.slotOf t.qid = some t' ∧ u.harts = u0.harts ∧
      t' = { t with retireIdx := t.retireIdx + 1, readIdx := Max.max t.readIdx (t.nextIdx + 1), idleSince := t'.idleSince }) ∧
  (∀ (s u0 : State) (die slot code : Nat) (t : Slot), s.frontEndAt die = true → s.slotAt die slot = some t → t.canRead = true →
    s.qEn t.qid = true → s.planesMove = true → (s.readRing t t.nextIdx = .unreadable u0 ∧ code = 4) ∨
      (∃ p, s.readRing t t.nextIdx = .packet p u0 ∧ u0.packetCode t.qid p = some code) →
    u0.qErr t.qid = false → (∃ q ∈ u0.fe.qcbCache, q.2.1 = t.qid) → u0.fe.mapWait = [] →
    ∃ u, exec (.packetEnterWindow die slot) s = .next u ∧ u.qErr t.qid = true ∧ qField (u.qcb t.qid) 8 39 32 = code ∧ u.harts = u0.harts) ∧
  (∀ (s u0 : State) (die slot : Nat) (t : Slot), s.frontEndAt die = true → s.slotAt die slot = some t → t.canRead = true →
    s.qEn t.qid = true → s.planesMove = true → s.readRing t t.nextIdx = .waits u0 → exec (.packetEnterWindow die slot) s = .next u0) ∧
  (∀ (s : State) (die slot : Nat) (t : Slot) (e : Entry), s.frontEndAt die = true → s.slotAt die slot = some t → s.slotOf t.qid = some t →
    t.window.find? (s.launchable t) = some e → pkKind e.packet = 1 →
    ∃ u, exec (.packetLaunch die slot) s = .next u ∧ u.harts = s.harts ∧
      u.mm = { s.mm with gen := u.mm.gen, rdc := u.mm.rdc } ∧
      (∀ d < 4, u.mm.gen[d]? = (s.mm.gen[d]?).map (fun n => if d ∈ launchDies e.packet (s.qHome t.qid) then n + 1#16 else n)) ∧
      u.slotOf t.qid = some { t with window := t.window.map (fun x => if x.idx = e.idx then { x with
        eligible := true, launched := true, order := s.fresh, ranges := launchRanges e.packet (s.qHome t.qid) } else x) }) ∧
  (∀ (s : State) (die slot : Nat) (t : Slot) (e first : Entry) (rest : List Entry), s.frontEndAt die = true → s.slotAt die slot = some t →
    s.slotOf t.qid = some t → t.window.find? (s.launchable t) = some e → (pkKind e.packet = 2 ∨ pkKind e.packet = 3) →
    t.window = first :: rest → first.idx ≠ e.idx → first.complete = false → s.qErr t.qid = false → s.fe.mapWait = [] →
    ∃ u t', exec (.packetLaunch die slot) s = .next u ∧ u.slotOf t.qid = some t' ∧ u.harts = s.harts ∧ u.mm = s.mm ∧
      t'.tokens = (if pkKind e.packet = 3 then t.tokens &&& ~~~(BitVec.ofNat 64 (pkClrMask e.packet)) else t.tokens) |||
        BitVec.ofNat 64 (pkSetMask e.packet) ∧
      (∀ x ∈ t'.window, x.idx = e.idx → x.complete = true) ∧
      (∀ x ∈ t'.window, pkFqv x.packet = false → BitVec.ofNat 64 (pkWaitMask x.packet) &&& ~~~t'.tokens = 0#64 → x.eligible = true)) ∧
  (∀ (s : State) (die slot idx : Nat) (t : Slot) (e first : Entry) (rest : List Entry), s.frontEndAt die = true → s.slotAt die slot = some t →
    s.slotOf t.qid = some t → t.window.find? (fun x => x.idx == idx) = some e → e.finished = true → pkCwv e.packet = false →
    t.window = first :: rest → first.idx ≠ idx → first.complete = false → s.fe.mapWait = [] → s.qErr t.qid = false →
    (∃ q ∈ s.fe.qcbCache, q.2.1 = t.qid) → s.packetUnacked t.qid idx = false → s.planesMove = true →
    ∃ u t', exec (.packetComplete die slot idx) s = .next u ∧ u.slotOf t.qid = some t' ∧ u.harts = s.harts ∧
      u.mm = (s.releasePacket e).mm ∧
      t'.tokens = t.tokens ||| BitVec.ofNat 64 (pkSetMask e.packet) ∧ (∀ x ∈ t'.window, x.idx = idx → x.complete = true)) ∧
  (∀ (s u0 g : State) (die slot idx pa space : Nat) (t : Slot) (e first : Entry) (rest : List Entry) (w : Window),
    s.frontEndAt die = true → s.slotAt die slot = some t → t.window.find? (fun x => x.idx == idx) = some e → e.complete = false →
    e.finished = true → s.packetUnacked t.qid idx = false → s.planesMove = true → s.checkWord t e.packet = .ready w u0 →
    u0.wordMayLeave w = true → u0.slotAt die slot = some t → u0.slotOf t.qid = some t → u0.isLocal pa = true →
    g = u0.releasePacket e → Memory.wf g.mm.bytes = true → pa % 8 = 0 → u0.tagAddr (pa / 128) = none →
    (((∃ leaf, w = .cached pa leaf) ∨ (∃ reach, w = .memSide pa reach)) ∧
        space = spaceOf (u0.qAsid t.qid) (BitVec.ofNat 64 (pkCompAddr e.packet)) ∧
        (g.gather (pa / 128) true).plainTo space (pa / 128) ∨
      w = .bankLinear pa ∧ space = 0 ∧ (g.bank (paBank pa)).free = true ∧ g.plainTo 0 (pa / 128) ∧
        needWay t.die (pa / 128) g = .ok ((), g)) →
    t.window = first :: rest → first.idx ≠ idx → first.complete = false → u0.fe.mapWait = [] → u0.qErr t.qid = false →
    (∃ q ∈ u0.fe.qcbCache, q.2.1 = t.qid) →
    ∃ u t', exec (.packetComplete die slot idx) s = .next u ∧ u.slotOf t.qid = some t' ∧ u.harts = u0.harts ∧
      Memory.read u.mm.bytes pa 8 = bytesOfNat 8 idx ∧ (∀ a, a / 128 ≠ pa / 128 → u.byteAt a = g.byteAt a) ∧
      t'.tokens = t.tokens ||| BitVec.ofNat 64 (pkSetMask e.packet) ∧ (∀ x ∈ t'.window, x.idx = idx → x.complete = true)) ∧
  (∀ (s : State) (die slot : Nat) (t : Slot) (e : Entry) (rest : List Entry) (i : Instr), s.frontEndAt die = true →
    s.slotAt die slot = some t → s.slotOf t.qid = some t → t.window = e :: rest → (∀ x ∈ rest, x.idx ≠ e.idx ∧ x.complete = false) →
    e.idx = t.retireIdx → s.qErr t.qid = false → (∃ q ∈ s.fe.qcbCache, q.2.1 = t.qid) → s.fe.mapWait = [] →
    s.unacked (frontEnd t.die 0).uid = false → s.planesMove = true →
    (i = .packetLaunch die slot ∧ s.launchable t e = true ∧ (pkKind e.packet = 2 ∨ pkKind e.packet = 3)) ∨
      (i = .packetComplete die slot e.idx ∧ e.finished = true ∧ pkCwv e.packet = false ∧ s.packetUnacked t.qid e.idx = false ∧
        pkKind e.packet = 1) →
    ∃ u t', exec i s = .next u ∧ u.slotOf t.qid = some t' ∧ u.harts = s.harts ∧ t'.retireIdx = t.retireIdx + 1 ∧
      t'.window.map (·.idx) = rest.map (·.idx) ∧ t'.readIdx = t.readIdx ∧ t'.writeIdx = t.writeIdx ∧
      t'.tokens = (if pkKind e.packet = 3 then t.tokens &&& ~~~(BitVec.ofNat 64 (pkClrMask e.packet)) else t.tokens) |||
        BitVec.ofNat 64 (pkSetMask e.packet))

/-- Memory fronts, homes and the walks of publications (R115, R135, R153, R159 to R162, R214, R219). That a walk reads WALKMAX
and WALKSPILL of its hart at each object is the model's choice (log entry 62). -/
def Obligations.WalksAndHomes : Prop :=
  (∀ (s t : State) (die asid : Nat) (va : Word) (acc : Access), frontRequest (memoryFront die asid) va acc s = .ok ((), t) →
    ∃ u, exec (.memoryFrontRequest die asid va acc) s = .next u ∧ u.mm = t.mm ∧ u.harts = t.harts) ∧
  (∀ (s : State) (stack slice : Nat) (b : Bloom), b ∈ s.mm.blooms → b.stack = stack → b.slice = slice → 65536 ≤ b.misses →
    ∃ u, exec (.bloomSliceClear stack slice) s = .next u ∧ u = { s with mm := { s.mm with blooms := u.mm.blooms } } ∧
      ∀ x, x ∈ u.mm.blooms ↔ x ∈ s.mm.blooms ∧ ¬(x.stack = stack ∧ x.slice = slice)) ∧
  (∀ (s : State) (pa : Nat) (op : BitVec 4) (operand expected : Word) (m : Bool), s.isLocal pa = true → paRegion pa = 0 → op.toNat < 10 →
    ∃ u, exec (.atomicAtHome pa op operand expected m) s = .next u ∧
      u.homeReply = some (s.atomicHome 0 pa op operand expected m none).2.1 ∧ u.mm = (s.atomicHome 0 pa op operand expected m none).1.mm ∧
      u.harts = (s.atomicHome 0 pa op operand expected m none).1.harts) ∧
  (∀ (s t u : State) (r : Region) (w : BitVec 32) (l q : BitVec 1) (sc : BitVec 2), s.hart.isReady = true → s.hart.region = some r →
    fetchWord s.who s.hart.pc s = .ok (w, t) → decodeWord w = .ok (.alre l q sc) → exec (.alre l q sc) t = .next u →
    (s.hart.watchdogDue = false ∨ s.midRemote s.hart.uid = true) →
    exec (.regionAtHome s.hart.uid) s = .next u) ∧
  (∀ (s f t0 t : State) (r : Region) (word : BitVec 32) (l q : BitVec 1) (sc : BitVec 2) (w : Window) (h : HomeRun),
    s.hart.isReady = true → (s.hart.watchdogDue = false ∨ s.midRemote s.hart.uid = true) → s.hart.region = some r →
    fetchWord s.who s.hart.pc s = .ok (word, f) → decodeWord word = .ok (.alre l q sc) → Instr.wf (.alre l q sc) = true →
    f.hart.region = some r → f.noWalk q sc → f.mayRelease l sc →
    classify f.who (BitVec.ofNat 64 (r.line * 128)) 1
      (if ((bodyInstrs r.body).filterMap memShape).any (·.2) then .store else .load) (f.ifRelease l sc) = .ok (w, t0) →
    regionAt f.who r (if w.isMemSide then none else w.leaf)
      (16 * sc.toNat + 64 * q.toNat + 128 * l.toNat + 512 * ((bodyInstrs r.body).filterMap memShape).length) t0 = .ok (.ok h, t) →
    h.poisoned = false →
    ∃ u, exec (.regionAtHome s.hart.uid) s = .next u ∧ u.hart.region = none ∧
      u.hart.pc = wrapPc (r.alrb + BitVec.ofNat 64 (4 * (r.body.length + 2))) ∧
      (∀ n : BitVec 5, n ≠ 0#5 → u.getX n = if h.written.getLsbD n.toNat then h.getX n else t.getX n) ∧
      (∀ pa, u.byteAt pa = ((if l = 1#1 then t.shown (paDie r.pa) w sc else t).ifAcquire q sc).byteAt pa)) ∧
  (∀ (s : State) (w : Walk), s.walkOf w.id = some w → w.state = .queued →
    (s.walks.filter (fun v => v.die == w.die && v.state == WalkState.active)).length < 16 →
    ∃ u, exec (.walkStart w.id) s = .next u ∧ u = { s with walks := u.walks } ∧ u.walkOf w.id = some { w with state := .active }) ∧
  (∀ (h : Word) (scope : Nat) (mark : Bool), scope < 4 → hdrScope (setHeader h scope mark) = scope ∧ hdrMark (setHeader h scope mark) = mark ∧
    ∀ b, b ≠ 32 → b ≠ 33 → b ≠ 34 → (setHeader h scope mark).getLsbD b = h.getLsbD b) ∧
  (∀ (s t0 t : State) (w : Walk) (o h : Word) (rest : List (Word × Bool)) (pa : Nat) (tag : Bool), s.walkOf w.id = some w → w.state = .active →
    s.planesMove = true → s.refPage w o = .follow pa t0 → t0.homeField w.asid pa = (h, tag, false) →
    t = t0.readServed w.asid (pa / 128) → t.walkOf w.id = some w →
    (w.stack = (o, false) :: rest → w.scope.toNat ≤ hdrScope h → hdrMark h = false →
      ∃ u, exec (.walkObjectVisit w.id) s = .next u ∧ u.mm = t.mm ∧ u.walkOf w.id = some { w with stack := rest }) ∧
    (w.stack = (o, true) :: rest →
      ∃ u, exec (.walkObjectVisit w.id) s = .next u ∧ u.mm = (t.putHeader w pa (setHeader h (hdrScope h) false)).mm ∧
        u.walkOf w.id = some { w with stack := rest }) ∧
    (∀ g, w.stack = (o, false) :: rest → (hdrScope h < w.scope.toNat ∨ hdrMark h = true) → t.hartOf w.uid = some g →
      (g.csr.walkMax ≠ 0#64 → g.csr.walkMax.toNat < w.count + 1 →
        ∃ u, exec (.walkObjectVisit w.id) s = .next u ∧ u.mm = t.mm ∧
          u.walkOf w.id = some { w with state := .stopped 0xB#8 o (w.count + 1) w.stack.length }) ∧
      (∀ (l : List Word) (t2 t3 : State), (g.csr.walkMax = 0#64 ∨ w.count + 1 ≤ g.csr.walkMax.toNat) →
        (let t1 := t.putHeader w pa (setHeader h (Max.max (hdrScope h) w.scope.toNat) true)
          if hdrScope h < w.scope.toNat then t1.showObject w o pa (hdrLength h) else t1).fields w o (hdrLength h - 1) [] = .refs l t2 →
        (g.csr.walkSpill ≠ 0#64 ∨ l.length + rest.length + 1 ≤ 64) → t2.spill w g.csr.walkSpill (rest.length + 1) l = .done t3 →
        t3.walkOf w.id = some w →
        ∃ u, exec (.walkObjectVisit w.id) s = .next u ∧ u.mm = t3.mm ∧
          u.walkOf w.id = some { w with count := w.count + 1, stack := l.reverse.map (fun f => (f, false)) ++ (o, true) :: rest }))) ∧
  (∀ (s t0 t : State) (w : Walk) (x : Window) (who : Who), s.walkOf w.id = some w → w.state = .active → w.stack = [] →
    s.planesMove = true → who = ⟨w.id, w.die, w.core, w.asid⟩ → classify who w.field 8 .store s = .ok (x, t0) → x.isReach = true →
    storeLine who w.field 8 w.ref.toNat true x t0 = .ok ((), t) →
    ∃ u, exec (.walkComplete w.id) s = .next u ∧ u.walkOf w.id = none ∧ u.mm = (t.shown w.die x w.scope).mm ∧ u.harts = t.harts)

/-- The error architecture (R346 to R349, R351, R352, R357 to R359, R383 to R388): events in banks, drains, limits,
repairs, copies and scrubs. -/
def Obligations.ErrorEvents : Prop :=
  (∀ (b c : ErrBank) (uc psn : Bool) (kind : BitVec 8) (asid : Nat) (addr misc : Word) (site : ErrSite),
    c = b.event uc psn kind asid addr misc site →
    c.v = true ∧ c.id = b.id ∧ c.ue = (if uc then b.ue + 1#32 else b.ue) ∧ c.ce = (if uc then b.ce else b.ce + 1#32) ∧
    (b.v = false ∨ (uc = true ∧ b.uc = false) → c.uc = uc ∧ c.psn = psn ∧ c.kind = kind ∧ c.addr = addr ∧ c.misc = misc ∧
      c.site = site ∧ c.asid = BitVec.ofNat 16 asid ∧ c.snap = if uc then c.ue else c.ce) ∧
    (b.v = true → (uc = false ∨ b.uc = true) → c.uc = b.uc ∧ c.psn = b.psn ∧ c.kind = b.kind ∧ c.addr = b.addr ∧ c.misc = b.misc ∧
      c.snap = b.snap ∧ c.site = b.site ∧ c.asid = b.asid) ∧
    c.ovf = (if b.v = true ∧ b.ovf ≠ 0xFFFF#16 then b.ovf + 1#16 else b.ovf)) ∧
  (∀ (s t : State) (id : BitVec 32) (ev : ErrEvent) (uc psn : Bool), s.bankFits id ev = true → (∀ cmd j, ev.site ≠ .columnSum cmd j) →
    s.errorEffect ev = (t, uc, psn, []) →
    ∃ u, exec (.errorBankEvent id ev) s = .next u ∧ u.harts = t.harts ∧ u.mm = t.mm ∧ u.banks = t.banks ∧ u.err.log = t.err.log ∧
      u.errBank id = (t.errBank id).event uc psn ev.kind ev.asid ev.addr ev.misc ev.site ∧ ∀ i, i ≠ id → u.errBank i = t.errBank i) ∧
  (∀ (s : State) (id : BitVec 32) (ev : ErrEvent) (c : Cmd) (j : Nat), s.bankFits id ev = true → ev.site = .columnSum c.id j →
    s.cmdOf c.id = some c →
    ∃ u, exec (.errorBankEvent id ev) s = .next u ∧ u = { s with cmds := u.cmds } ∧ u.cmdOf c.id = some { c with badSums := j :: c.badSums }) ∧
  (∀ (s : State) (ev : ErrEvent) (g : Nat), ev.site = .memory g → ev.uncorrected = true →
    ∃ t, s.errorEffect ev = (t, true, true, []) ∧ t.poisoned g = true ∧ (∀ k, k ≠ g → t.poisoned k = s.poisoned k) ∧
      ∀ pa, t.byteAt pa = s.byteAt pa) ∧
  (∀ (s : State) (id : BitVec 32) (act : BitVec 16) (b : ErrBank), b = s.errBank id → b.v = true → s.mayDrain b = true → s.err.counts = [] →
    ∃ u, exec (.errorBankReadAndClear id act) s = .next u ∧ u.errBank id = { b with v := false, ovf := 0 } ∧ u.harts = s.harts ∧
      u.mm = s.mm ∧ ∃ e ∈ u.err.log, e.die = id.toNat / 2 ^ 30 ∧ some e.seq = s.err.nextSeq[id.toNat / 2 ^ 30]? ∧ e.bank = id ∧
        e.addr = b.addr ∧ e.misc = b.misc ∧ e.snap = b.snap ∧ e.status.getLsbD 63 = true ∧ e.status.getLsbD 62 = b.uc ∧
        e.act = (if b.psn then 1#16 else 0#16)) ∧
  (∀ (s : State) (id : BitVec 32), s.drainerUp (drainer id) = true →
    ∃ u, exec (.errorCountWindowEnd id) s = .next u ∧ ∀ x ∈ u.err.counts, x.1 ≠ id) ∧
  (∀ (s : State) (id : BitVec 32) (b row c n : Nat), s.err.counts = [(id, .row b row, c, n)] → s.err.repairs = [] → (16 ≤ c ∨ 1 ≤ n) →
    s.drainerUp (drainer id) = true → (s.errBank id).v = true →
    ∃ u r, exec (.errorCountWindowEnd id) s = .next u ∧ u.err.repairs = [r] ∧ r.part = .row b row ∧ r.spare = some 0 ∧
      r.committed = false ∧ ∃ e ∈ u.err.log, e.bank = id ∧ e.act = 4#16) ∧
  (∀ s : State, exec .errorMessageDelivered s = .next { s with fe := { s.fe with errMsgOut := false } }) ∧
  (∀ (s : State) (idx : Nat) (r : Repair), s.err.repairs[idx]? = some r → (∀ q ∈ s.err.repairs, q.committed = false) → s.terak.fail = 0#8 →
    ∃ u, exec (.repairCommit idx) s = .next u ∧ u.err.repairs[idx]? = some { r with committed := true } ∧
      (∀ k, k ≠ idx → u.err.repairs[k]? = s.err.repairs[k]?) ∧ u.mm = s.mm ∧ u.harts = s.harts) ∧
  (∀ (s : State) (d c n : Nat) (r : Repair), s.frontEndAt d = true → s.retired (.core d c) = true → s.repairOf (.core d c) = some r → r.spare = some n → s.onCore d c = [] →
    ∃ u, exec (.coreReplace d c) s = .next u ∧ physOf u.err.coreMap d c = n ∧ (d, c) ∉ u.err.closedCores ∧ u.harts = s.harts ∧ u.mm = s.mm) ∧
  (∀ (s : State) (d c : Nat), s.frontEndAt d = true → s.retired (.core d c) = true → s.repairOf (.core d c) = none → s.onCore d c = [] →
    ∃ u, exec (.coreReplace d c) s = .next u ∧ (d, c) ∈ u.err.closedCores ∧ u.coreOpen d c = false) ∧
  (∀ (s : State) (b row n : Nat) (r : Repair), s.managerAt (b / 4096) = true → s.repairOf (.row b row) = some r → r.spare = some n →
    ∃ u, exec (.rowSpareCopy b row) s = .next u ∧ (b, row, n) ∈ u.err.rowMap ∧
      u = { s with err := { s.err with rowMap := u.err.rowMap } }) ∧
  (∀ (s : State) (d c n : Nat) (r : Repair), (copyStacks (.channel d c)).all s.managerAt = true → s.repairOf (.channel d c) = some r → r.spare = some n → s.err.copies = [] →
    ∃ u, exec (.channelCopy (.channel d c) n) s = .next u ∧ u.err.copies = [⟨s.fresh, .channel d c, n, 0⟩] ∧
      (∀ pa, u.byteAt pa = s.byteAt pa) ∧ ∀ k, k = 4 * d + c / 512 ∨ k = 4 * d + 3 → k < 16 → u.mm.victimOnly[k]? = some true) ∧
  (∀ (s : State) (c : ChanCopy), (copyStacks c.part).all s.managerAt = true → s.err.copies = [c] → (∃ d n, c.part = .channel d n) →
    ∃ u, exec (.channelCopyRow c.id) s = .next u ∧ (∀ pa, u.byteAt pa = s.byteAt pa) ∧
      (c.row + 1 < 12288 → u.err.copies = [{ c with row := c.row + 1 }]) ∧
      (12288 ≤ c.row + 1 → u.err.copies = [] ∧ ∀ d n, c.part = .channel d n → physOf u.err.chanMap d n = c.target)) ∧
  (∀ (s : State) (stack row : Nat), s.managerAt stack = true → s.err.repairs = [] → s.err.counts = [] → s.spareIn (.cacheRow stack row) = none → stack < 16 →
    ∃ u r, exec (.cacheRowSpare stack row) s = .next u ∧ u.err.repairs = [r] ∧ r.part = .cacheRow stack row ∧ r.spare = some 0 ∧ u.mm = s.mm) ∧
  (∀ (s : State) (stack row n : Nat) (r : Repair), s.managerAt stack = true → s.retired (.cacheRow stack row) = true →
    s.repairOf (.cacheRow stack row) = some r → r.spare = some n → s.spareIn (.cacheRow stack row) ≠ some n → stack < 16 →
    ∃ u, exec (.cacheRowSpare stack row) s = .next u ∧ u.spareIn (.cacheRow stack row) = some n ∧ u.mm.victimOnly = s.mm.victimOnly ∧
      (∀ pa, u.byteAt pa = s.byteAt pa) ∧ u.harts = s.harts) ∧
  (∀ (s : State) (g b : Nat), b = (s.bankRow 0 (32 * g)).1 → s.managerAt (b / 4096) = true → (s.bank b).free = false →
    ∀ f, ∃ u r, exec (.scrubRead g f) s = .next u ∧ u.mm = s.mm ∧ u.err = s.err ∧ (u.bank b).pending = (s.bank b).pending ++ [r] ∧
      r.id = g ∧ r.scrub = some f ∧ r.store = none) ∧
  (∀ (s : State) (g b : Nat), b = (s.bankRow 0 (32 * g)).1 → s.managerAt (b / 4096) = true → (s.bank b).free = true →
    s.poisoned g = false →
    exec (.scrubRead g .good) s = .next s ∧
    (∃ u, exec (.scrubRead g .corrected) s = .next u ∧ u.mm = s.mm ∧
      (u.errBank (s.granuleBank g)).ce = (s.errBank (s.granuleBank g)).ce + 1#32) ∧
    (∃ u, exec (.scrubRead g .lost) s = .next u ∧ u.poisoned g = true ∧ (∀ pa, u.byteAt pa = s.byteAt pa) ∧
      (u.errBank (s.granuleBank g)).ue = (s.errBank (s.granuleBank g)).ue + 1#32)) ∧
  (∀ (s : State) (d : Nat), d < 4 →
    (∃ u, exec (.sramRailChange d true) s = .next u ∧ u.mm.decTed[d]? = some true ∧ ∀ e ∈ u.mm.l2, e.die = d → e.way < 14) ∧
    (∃ u, exec (.sramRailChange d false) s = .next u ∧ u.mm.decTed[d]? = some false ∧ u.mm.l2 = s.mm.l2 ∧ u.mm.bytes = s.mm.bytes))

/-- Start-up and the package reset (R332, R333, R359, R362, R417): what each step leaves. That FRONT_ENDS_READY occurs twice,
ending steps 3 and 4, is the model's reading (log entry 39). The dead-man expires one second after its last refresh (R415), by
a time that is free (log entry 2). -/
def Obligations.StartUp : Prop :=
  (∀ (s : State) (img : BootImage), s.imageGood img = true ↔
    shake256 img.key = Config.fusedKeyDigest ∧ xmssVerify img.key img.body img.signature = true ∧ s.terak.rollback ≤ img.version) ∧
  (∀ (s : State) (img : BootImage), s.terak.stage = 0 → s.terak.fail = 0 →
    ∃ u, exec (.powerGood img) s = .next u ∧ u.terak.stage = 1 ∧ u.terak.arb = 2 ∧ u.terak.cap = 2 ∧
      (∀ k < 16, u.mm.victimOnly[k]? = some true) ∧ (∀ b < 64, u.fab.planeMap[b]? = some (BitVec.ofNat 3 b)) ∧
      (s.imageGood img = true → u.terak.fail = 0 ∧ u.terak.released.1 = true ∧
        u.terak.mlog = s.terak.mlog ++ [(1, shake256 img.body)]) ∧
      (s.imageGood img = false → u.terak.fail = 1#8 ∧ u.terak.released.1 = false ∧
        u.terak.bootStat.getLsbD 8 = false)) ∧
  (∀ (s : State) (img : BootImage), s.terak.stage = 1 → s.terak.fail = 0 → s.terak.released.1 = true →
    ∃ u, exec (.stackManagersReady img) s = .next u ∧ u.terak.stage = 2 ∧ (∀ pa, u.byteAt pa = 0#8) ∧ u.mm.poison = [] ∧
      (s.imageGood img = true → u.terak.released.2 = true ∧ u.terak.mlog = s.terak.mlog ++ [(2, shake256 img.body)]) ∧
      (s.imageGood img = false → u.terak.fail = 2#8 ∧ u.terak.released.2 = false)) ∧
  (∀ s : State, s.terak.stage = 2 → s.terak.fail = 0 → s.terak.released.2 = true →
    exec .frontEndsReady s = .next { s with terak := { s.terak with stage := 3 } }) ∧
  (∀ s : State, s.terak.stage = 3 → s.terak.fail = 0 → s.terak.released.2 = true →
    ∃ u, exec .frontEndsReady s = .next u ∧ u.terak.stage = 4 ∧ u.terak.bootStat.getLsbD 8 = true ∧ (∀ k < 16, u.mm.victimOnly[k]? = some false) ∧
      u.frontEndsUp = true ∧ u.harts = s.harts) ∧
  (∀ t : Terak, t.bootStat.getLsbD 8 = true ↔ t.ready = true ∧ t.fail = 0) ∧
  (∀ s : State, ∃ u, exec .packageReset s = .next u ∧ u.terak.fail = 0 ∧ u.terak.stage = 0 ∧ u.terak.epoch = 0 ∧ u.terak.agent = .nobody ∧
    u.fe.jobs = [] ∧ u.err.log = [] ∧ (∀ r, r ∈ u.err.repairs ↔ r ∈ s.err.repairs ∧ r.committed = true) ∧
    u.terak.keysLeft = s.terak.keysLeft ∧ u.terak.spareCores = s.terak.spareCores ∧ u.hart.phase = .absent ∧ u.others = []) ∧
  (∀ (s : State) (p : Part) (id : Option (BitVec 32)), s.terak.fail = 0 →
    ∃ u, exec (.class5Declare p id) s = .next u ∧ u.terak.fail = (if id.isSome then 3#8 else 4#8) ∧
      u.terak.failPart = id.getD 0#32 ∧ u.terak.bootStat.getLsbD 8 = false ∧ u.frontEndsUp = false ∧ u.fe.jobs = [] ∧
      ∀ h ∈ u.harts, h.phase = .absent ∨ h.phase = .retired ∨ h.phase = .ended) ∧
  (∀ s : State, Config.wallTime s.tick < s.terak.deadman + 1000000 → exec .deadmanExpiry s = .next s) ∧
  (∀ s : State, s.terak.deadman + 1000000 ≤ Config.wallTime s.tick →
    ∃ u, exec .deadmanExpiry s = .next u ∧ u.terak.fail = (if s.terak.fail = 0 then 5#8 else s.terak.fail) ∧
    u.terak.bootStat.getLsbD 8 = false ∧ u.fe.jobs = [] ∧ u.mm = s.mm)

/-- Ownership and Terak's other duties (R20, R335, R336, R342, R343, R363, R413, R415). Heartbeats, leases and their limits
(R413, R363) are compared with a wall time that is free (log entry 2). -/
def Obligations.Ownership : Prop :=
  (∀ (s : State) (who : Agent) (v : Word), who ≠ .nobody → s.terak.stage ≠ 0 →
    ∃ u, exec (.claim who v) s = .next u ∧ u = { s with terak := u.terak } ∧
      (s.terak.agent = .nobody → v.toNat % 2 ^ 30 = s.terak.epoch.toNat →
        u.terak.agent = who ∧ u.terak.epoch = s.terak.epoch + 1 ∧ u.terak.leaseOn = true) ∧
      (¬(s.terak.agent = .nobody ∧ v.toNat % 2 ^ 30 = s.terak.epoch.toNat) →
        u.terak.agent = s.terak.agent ∧ u.terak.epoch = s.terak.epoch ∧ u.terak.nOwnWr = s.terak.nOwnWr)) ∧
  (∀ (s : State) (who : Agent) (v : Word), who ≠ .nobody →
    ∃ u, exec (.handoff who v) s = .next u ∧ u = { s with terak := u.terak } ∧
      (s.terak.agent = who → v.toNat % 2 ^ 30 = s.terak.epoch.toNat →
        u.terak.agent = agentOf (v.toNat / 2 ^ 30 % 4) ∧ u.terak.epoch = s.terak.epoch + 1) ∧
      (s.terak.agent = who → v.toNat % 2 ^ 30 ≠ s.terak.epoch.toNat →
        u.terak = { s.terak with leaseOn := true, leaseAt := Config.wallTime s.tick }) ∧
      (s.terak.agent ≠ who → u.terak = { s.terak with nOwnWr := s.terak.nOwnWr + 1 })) ∧
  (∀ (s : State) (who : Agent) (v : Word), who ≠ .nobody → s.terak.fail = 0 →
    (s.terak.agent = who →
      (∃ u, exec (.powerWrite who v) s = .next u ∧ u = { s with terak := u.terak } ∧ u.terak.agent = who ∧
        u.terak.cap.toNat = (if v.toNat % 4 = 3 then s.terak.cap.toNat else v.toNat % 4) ∧
        u.terak.arb.toNat = (if v.toNat / 16 % 4 = 3 then s.terak.arb.toNat else v.toNat / 16 % 4)) ∧
      (∀ mask : BitVec 8, ∃ (u : State) (w : Word), exec (.registerWrite who ⟨0, 0xF00018⟩ ⟨mask, v⟩) s = .next u ∧
        u = { s with terak := u.terak } ∧ u.terak.leaseMs.toNat = Max.max 100 (Min.min 3600000 (w.toNat % 2 ^ 32)) ∧
        ∀ i < 8, getElt w 8 i = if mask.getLsbD i then getElt v 8 i else getElt (zext s.terak.leaseMs : Word) 8 i)) ∧
    (s.terak.agent ≠ who →
      exec (.powerWrite who v) s = .next { s with terak := { s.terak with nOwnWr := s.terak.nOwnWr + 1 } } ∧
      ∀ (off : Nat) (mask : BitVec 8), 0xF00000 ≤ off → off < 0xF01000 → off / 8 * 8 ≠ 0xF00008 →
        exec (.registerWrite who ⟨0, off⟩ ⟨mask, v⟩) s = .next { s with terak := { s.terak with nOwnWr := s.terak.nOwnWr + 1 } })) ∧
  (∀ (s : State) (m : BitVec 11), s.terak.agent ≠ .nobody → s.terak.leaseOn = true → s.terak.fail = 0 → s.fe.errMsg = some m →
    s.fe.errMsgOut = false → s.terak.leaseAt + s.terak.leaseMs.toNat * 750 ≤ Config.wallTime s.tick →
    ∃ u, exec .leaseWarning s = .next u ∧ u = { s with fe := { s.fe with outbox := s.fe.outbox ++ [⟨s.terak.agent, s.terak.epoch, m⟩], errMsgOut := true } }) ∧
  (∀ s : State, Config.wallTime s.tick < s.terak.leaseAt + s.terak.leaseMs.toNat * 750 →
    exec .leaseWarning s = .next s ∧ exec .leaseExpiry s = .next s) ∧
  (∀ s : State, s.terak.agent ≠ .nobody → s.terak.leaseOn = true → s.terak.fail = 0 →
    s.terak.leaseAt + s.terak.leaseMs.toNat * 1000 ≤ Config.wallTime s.tick →
    ∃ u, exec .leaseExpiry s = .next u ∧
      u = { s with terak := { s.terak with agent := .nobody, epoch := s.terak.epoch + 1, leaseOn := false } }) ∧
  (∀ (s : State) (k : Nat), k < 16 → ∃ u, exec (.arbitrationWindowBoundary k) s = .next u ∧ u = { s with terak := u.terak } ∧
    u.terak.stackArb[k]? = some s.terak.arb ∧ ∀ j, j ≠ k → u.terak.stackArb[j]? = s.terak.stackArb[j]?) ∧
  (∀ (s : State) (c : Consumer), ∃ (u : State) (n : Word), exec (.powerBudgetExceeded c) s = .next u ∧
    u = { s with hart := u.hart, others := u.others } ∧ ((∀ d, c ≠ .die d) → u = s) ∧
    ∀ d f, c = .die d → f = (fun h : Hart => if h.isResident && !h.dbgHalted && h.fetched && h.place.die == d then
        { h with csr := { h.csr with runCount := h.csr.runCount + n } } else h) →
      u.hart = f s.hart ∧ u.others = s.others.map f) ∧
  (∀ (s : State) (p : Processor), ∃ u, exec (.firmwareHeartbeat p) s = .next u ∧ u = { s with terak := u.terak } ∧
    (p, Config.wallTime s.tick) ∈ u.terak.heartbeats) ∧
  (∀ s : State, exec .deadmanRefresh s = .next { s with terak := { s.terak with deadman := Config.wallTime s.tick } }) ∧
  (∀ (s : State) (p : Processor) (img : BootImage), s.beatMissed p = false → exec (.firmwareWatchdogExpiry p img) s = .next s) ∧
  (∀ (s : State) (d : Nat) (img : BootImage), s.terak.fail = 0 → d < 4 → s.terak.released.2 = true →
    s.frontEndAt d = true → s.beatMissed (.frontEnd d) = true →
    (s.restartsOf (.frontEnd d) < 3 →
      ∃ u, exec (.firmwareWatchdogExpiry (.frontEnd d) img) s = .next u ∧
        if s.imageGood img then u.harts = s.harts ∧ u.mm = s.mm ∧ u.fe = s.fe ∧
          u.terak.restarts = (.frontEnd d, Config.wallTime s.tick) :: s.terak.restarts ∧ u.terak.fail = 0 ∧ u.frontEndAt d = false ∧
          u.terak.mlog = s.terak.mlog ++ [(2, shake256 img.body)]
        else u.terak.fail = 2#8 ∧ u.frontEndsUp = false) ∧
    (3 ≤ s.restartsOf (.frontEnd d) →
      ∃ u, exec (.firmwareWatchdogExpiry (.frontEnd d) img) s = .next u ∧ u.terak.fail = 3#8 ∧
        u.terak.failPart = BitVec.ofNat 32 (d * 2 ^ 30 + 0x0A000000) ∧ u.frontEndsUp = false ∧ u.fe.jobs = []))

/-- Boundary modules (R396 to R401): what a flit does at its receiver, retraining, and what a lane test leaves. -/
def Obligations.LinkEvents : Prop :=
  (∀ (s : State) (m : ModuleId) (f : Flit) (e : ModEnd), e = s.fab.modEnd m → e.state = 0#2 → e.handedBack = [] → e.nakRow < 5 →
    e.nakTimes.length < 32 → e.replay = [] →
    (f.crc ≠ flitCheck (onDie m) f ∨ (f.nul = false ∧ f.nak = false ∧ f.lseq ≠ e.rxNext) →
      ∃ u, exec (.flitReceive m f) s = .next u ∧ u = { s with fab := { s.fab with modules := u.fab.modules } } ∧
        (u.fab.modEnd m).delivered = e.delivered ∧ (u.fab.modEnd m).rxNext = e.rxNext ∧
        (u.fab.modEnd (peerOf m)).sent = (s.fab.modEnd (peerOf m)).sent.drop 1 ∧
        ((∀ t, e.nakAt = some t → t + Config.roundTrip ≤ Config.linkTime s.tick) →
          (u.fab.modEnd m).nakAt = some (Config.linkTime s.tick) ∧ ∃ g : Flit, (u.fab.modEnd m).sent = e.sent ++ [g] ∧
            g.nul = true ∧ g.nak = true ∧ g.ack = e.lastAcc ∧ g.crc = flitCheck (onDie m) g) ∧
        (∀ t, e.nakAt = some t → Config.linkTime s.tick < t + Config.roundTrip →
          (u.fab.modEnd m).nakAt = e.nakAt ∧ (u.fab.modEnd m).sent = e.sent)) ∧
    (f.crc = flitCheck (onDie m) f → f.nul = false → f.nak = false → f.lseq = e.rxNext →
      ∃ (v : State) (x : Txn), exec (.flitReceive m f) s = .next (v.handOver m x) ∧ v = { s with fab := { s.fab with modules := v.fab.modules } } ∧
        (v.fab.modEnd m).delivered = e.delivered ++ [f.payload] ∧ (v.fab.modEnd m).rxNext = e.rxNext + 1#7 ∧
        (v.fab.modEnd m).lastAcc = f.lseq ∧ (v.fab.modEnd m).nakAt = none ∧
        ∀ r, (s.fab.modEnd (peerOf m)).replay.find? (fun r => r.1 == f.lseq && txnPayload s.fe.devSelf.toNat r.2 == f.payload) = some r →
          x = r.2)) ∧
  (∀ (e : ModEnd) (first ack : BitVec 7) (x : Txn) (rest : List (BitVec 7 × Txn)) (n : Nat),
    e.replay = (first, x) :: rest → n = (ack - first + 1#7).toNat →
    (0 < n → n ≤ e.replay.length → (e.acked ack).replay = e.replay.drop n ∧ (e.acked ack).nakRow = 0) ∧
    (n = 0 ∨ e.replay.length < n → e.acked ack = e)) ∧
  (∀ (e : ModEnd) (self now : Nat) (ack : BitVec 7), (e.naked self ack now).nakCnt = e.nakCnt + 1 ∧
    (e.naked self ack now).nakRow = (if e.nakSeq = ack + 1#7 then e.nakRow + 1 else 1) ∧ (e.naked self ack now).replay = e.replay ∧
    ((e.naked self ack now).sent.drop e.sent.length).map (fun f => (f.lseq, f.payload, f.nul)) =
      e.replay.map (fun r => (r.1, txnPayload self r.2, false))) ∧
  (∀ (s : State) (m : ModuleId), (s.fab.modEnd m).state = 0#2 →
    (∃ (u : State) (g : Flit), exec (.nulFlitTimer m) s = .next u ∧ u = { s with fab := { s.fab with modules := u.fab.modules } } ∧
      (u.fab.modEnd m).sent = (s.fab.modEnd m).sent ++ [g] ∧ g.nul = true ∧ g.nak = false ∧ g.ack = (s.fab.modEnd m).lastAcc ∧
      g.crc = flitCheck (onDie m) g ∧ (u.fab.modEnd m).txNext = (s.fab.modEnd m).txNext) ∧
    (onDie m = false → ∃ u, exec (.laneLockLoss m) s = .next u ∧ (u.fab.modEnd m).state = 1#2 ∧ (u.fab.modEnd (peerOf m)).state = 1#2 ∧
      (u.fab.modEnd m).replay = [] ∧
      (u.fab.modEnd m).handedBack = (s.fab.modEnd m).replay.map (fun r => sentAgain r.2) ++ (s.fab.modEnd m).handedBack)) ∧
  (∀ (s : State) (m : ModuleId) (t : LaneTest) (low high : Bool), (s.fab.modEnd m).state = 1#2 → (s.fab.modEnd m).handedBack = [] →
    (s.fab.modEnd m).replay = [] → s.coreCounts (groupBank m) →
    (low = true ↔ t.lower0 ≤ 2 ∧ t.lower1 ≤ 2) → (high = true ↔ t.upper0 ≤ 2 ∧ t.upper1 ≤ 2) →
    (low = true ∨ high = true →
      ∃ u, exec (.moduleRetrainEnd m t) s = .next u ∧ (u.fab.modEnd m).state = 0#2 ∧ (u.fab.modEnd m).txNext = 0#7 ∧
        (u.fab.modEnd m).rxNext = 0#7 ∧ (u.fab.modEnd m).lastAcc = 0x7F#7 ∧
        (u.fab.modEnd m).failLanes = BitVec.ofNat 8 (t.lower0 + t.upper0 + t.lower1 + t.upper1) ∧
        (u.fab.modEnd m).width = (if low && high then 0#2 else if low then 1#2 else 2#2)) ∧
    (low = false → high = false → m.module < 16 →
      (∃ k < 16, k ≠ m.module ∧ (s.fab.modEnd ⟨m.boundary, m.plane, k, false⟩).state ≠ 2#2) →
      ∃ u, exec (.moduleRetrainEnd m t) s = .next u ∧ (u.fab.modEnd m).state = 2#2 ∧
        ∀ i < 16, u.fab.modAt m.boundary m.plane i ≠ m.module))

/-- Fonak at its destination and source (R129, R130, R147, R324, R328, R330, R402 to R404): a request that is next in its
stream performs once and is answered; a recorded one is answered again without a second effect; one beyond is discarded. That
a check-in carries its tags in the compare field is the model's reading (log entry 27), and so is that check-outs, check-ins
and recalls are legal inside the package alone (log entry 36). Only atomics and regions have completions that carry data in
the filter; a request of one step between dies stands beside them (log entries 10 and 87). -/
def Obligations.FonakRequests : Prop :=
  (∀ (s t : State) (r : FonakReq), InOrder s r 0#6 → t = s.sourceSent r →
    (paRegion (r.line * 128) ≠ 2 → s.bankBusy r.line = false →
      ∃ u d, exec (.fonakRead r) s = .next u ∧ Performed (t.readServed 0 r.line) r d u ∧ d.data = (t.seen 0 r.line).data ∧
        d.psn = (t.seen 0 r.line).psn) ∧
    (paRegion (r.line * 128) = 2 → ∃ u d, exec (.fonakRead r) s = .next u ∧ d.data = s.controlLine r.line ∧ d.psn = 0#4 ∧
      u.fab.returned = s.fab.returned ++ [d] ∧ (u.fab.filterOf r.key).expected = r.eseq + 1#20) ∧
    (s.bankBusy r.line = true → ∃ u, exec (.fonakRead r) s = .next u ∧ u.fab.returned = s.fab.returned ∧ u.mm = s.mm ∧
      (u.fab.filterOf r.key).expected = r.eseq + 1#20 ∧
      (u.bank (paBank (r.line * 128))).pending = (s.bank (paBank (r.line * 128))).pending ++
        [loadReq (2 ^ 65 + s.fresh) (r.line * 128) 128])) ∧
  (∀ (s t : State) (r : FonakReq), InOrder s r 1#6 → t = s.sourceSent r → atWindow r = false →
    (paRegion (r.line * 128) ≠ 2 → s.bankBusy r.line = false →
      ∃ u d, exec (.fonakPostedWrite r) s = .next u ∧ Performed (t.writeSeen 0 r.line ⟨r.data, 0, r.psn⟩ r.bmask) r d u) ∧
    (paRegion (r.line * 128) = 2 →
      ∃ u d, exec (.fonakPostedWrite r) s = .next u ∧ Performed (t.controlLineWrite r) r d u) ∧
    (s.bankBusy r.line = true → ∃ u, exec (.fonakPostedWrite r) s = .next u ∧ u.fab.returned = s.fab.returned ∧ u.mm = s.mm ∧
      (u.fab.filterOf r.key).expected = r.eseq + 1#20 ∧
      (u.bank (paBank (r.line * 128))).pending = (s.bank (paBank (r.line * 128))).pending ++
        storeReqs (2 ^ 65 + s.fresh) ⟨r.data, 0, r.psn⟩ r.bmask r.line)) ∧
  (∀ (s t : State) (r : FonakReq) (i : Nat) (old : Word) (psn : Bool), InOrder s r 2#6 → paRegion (r.line * 128) = 0 →
    r.attr.toNat % 16 < 10 → i < 16 → r.bmask = byteMask (8 * i) 8 →
    (s.sourceSent r).atomicHome r.space (r.line * 128 + 8 * i) (BitVec.ofNat 4 r.attr.toNat) (BitVec.ofNat 64 (getElt r.data 64 i)) r.compare
      (r.attr.getLsbD 8) none = (t, old, psn) →
    ∃ u d, exec (.fonakAtomic r) s = .next u ∧ Performed t r d u ∧ getElt d.data 64 i = old.toNat ∧
      (u.fab.filterOf r.key).recorded.head? = some (r.eseq, some d)) ∧
  (∀ (s t : State) (r : FonakReq) (h : HomeRun), InOrder s r 3#6 → paRegion (r.line * 128) = 0 → legalBody r.body = true →
    r.regs.length = 32 →
    (s.sourceSent r).regionHome r.space (r.line * 128) (r.compare.toNat / 128) (r.attr.getLsbD 8) none
      ((List.range 32).foldl (fun (v : Vector Word 32) (k : Nat) => v.setIfInBounds k (r.regs.getD k 0#64)) (Vector.replicate 32 0#64))
      (bodyInstrs r.body) = (t, .ok h) →
    ∃ u d, exec (.fonakRegion r) s = .next u ∧ Performed t r d u ∧ d.regs = h.x.toList ∧
      (u.fab.filterOf r.key).recorded.head? = some (r.eseq, some d)) ∧
  (∀ (s : State) (r : FonakReq), InOrder s r 4#6 → (∀ e ∈ s.fab.atBank, e.2.key ≠ r.key) →
    ∃ u d, exec (.fonakFenceMarker r) s = .next u ∧ Performed (s.sourceSent r) r d u) ∧
  (∀ (s t : State) (r : FonakReq), InOrder s r 5#6 → s.terak.agent ≠ .nobody → t = s.sourceSent r →
    ∃ u d, exec (.fonakInterrupt r) s = .next u ∧
      Performed { t with fe := { t.fe with outbox := t.fe.outbox ++ [⟨t.terak.agent, t.terak.epoch, r.data.setWidth 11⟩] } } r d u) ∧
  (∀ (s b : State) (r : FonakReq), r.key.src < 4 → r.key.dst < 4 → b = s.sourceSent r →
    (∀ w, InOrder s r 6#6 → paDie (r.line * 128) = r.key.dst → s.isLocal (r.line * 128) = true →
      s.mm.twins.find? (fun x => x.line == r.line && x.writer == r.key.src) = some w →
      ∃ u d, exec (.fonakCheckout r) s = .next u ∧ Performed b r d u ∧ d.data = w.data ∧ d.psn = w.psn) ∧
    (∀ t v, InOrder s r 6#6 → paDie (r.line * 128) = r.key.dst → s.isLocal (r.line * 128) = true →
      s.mm.twins.find? (fun x => x.line == r.line && x.writer == r.key.src) = none →
      b.checkOut r.compare.toNat r.compare.toNat r.key.src r.line = (t, v) →
      ∃ u d, exec (.fonakCheckout r) s = .next u ∧ Performed (t.outLines r.key.src r.line v) r d u ∧ d.data = v.data) ∧
    (InOrder s r 7#6 → paDie (r.line * 128) = r.key.dst →
      ∃ u d, exec (.fonakCheckIn r) s = .next u ∧ Performed (b.checkInHome r) r d u ∧
        (∀ w ∈ u.mm.twins, ¬(w.line = r.line ∧ w.writer = r.key.src)) ∧
        ∀ w, s.mm.twins.find? (fun x => x.line == r.line && x.writer == r.key.src) = some w →
          ∀ f ∈ s.mm.l2, f.die = r.key.dst → f.die ≠ r.key.src → f.pa = r.line → f.out = false →
            ∃ f' ∈ u.mm.l2, f'.same f = true ∧ ∀ i < 128, getElt f'.data 8 i =
              if (differing ⟨r.data, r.compare.setWidth 16, r.psn⟩ ⟨w.data, w.tags, w.psn⟩).getLsbD i then getElt r.data 8 i
              else getElt f.data 8 i) ∧
    (InOrder s r 8#6 → paDie (r.line * 128) = r.key.src → s.mm.l2.Pairwise (fun a b => a.same b = false) →
      ∃ u d t, exec (.fonakRecall r) s = .next u ∧ Performed t r d u ∧
        ∀ e ∈ u.mm.l2, e.die = r.key.dst → e.pa = r.line → e.out = false)) ∧
  (∀ (s t : State) (r : FonakReq) (g i base pa : Nat), InOrder s r 11#6 → t = s.sourceSent r → i < 16 → r.bmask = byteMask (8 * i) 8 →
    getKey g s.fe.mcast = some base → pa = base + (r.line * 128 + 8 * i) % 4096 → s.bankBusy (pa / 128) = false →
    ∃ u d, exec (.fonakMulticastWrite r g) s = .next u ∧
      Performed (t.writeSeen 0 (pa / 128) (placeBytes pa (getElt r.data 64 i) false) (byteMask pa 8)) r d u) ∧
  (∀ (s : State) (r : FonakReq) (i : Instr) (fin : Option FonakDone), s.arrives r = true → r.reserved = false →
    r.eseq ≠ (s.fab.filterOf r.key).expected →
    (i = .fonakPostedWrite r ∧ r.op = 1#6 ∧ atWindow r = false) ∨
      (i = .fonakAtomic r ∧ r.op = 2#6 ∧ r.attr.toNat % 16 < 10 ∧ paRegion (r.line * 128) = 0) ∨
      (i = .fonakRegion r ∧ r.op = 3#6 ∧ legalBody r.body = true ∧ paRegion (r.line * 128) = 0) ∨ (i = .fonakInterrupt r ∧ r.op = 5#6) →
    (∀ e, (s.fab.filterOf r.key).recorded.find? (fun x => x.1 == r.eseq) = some e → e.2 = fin →
      (∀ x ∈ s.fab.atBank, ¬(x.2.key = r.key ∧ x.2.eseq = r.eseq)) →
      ∃ u, exec i s = .next u ∧ (4 ≤ r.key.src → u.fab.modules = s.fab.modules) ∧
        u = { s with fab := { s.fab with returned := s.fab.returned ++ [fin.getD (plainDone r)], modules := u.fab.modules } }) ∧
    ((s.fab.filterOf r.key).recorded.find? (fun x => x.1 == r.eseq) = none →
      exec i s = .next { s with fab := s.fab.setFilter { s.fab.filterOf r.key with gap := true } })) ∧
  (∀ (s : State) (d : FonakDone),
    (s.outstandingAt d.key d.eseq = none → exec (.fonakCompletion d) s = .next s) ∧
    (∀ r, s.outstandingAt d.key d.eseq = some (r, s.hart.uid) → (r.op = 0#6 ∨ r.op = 2#6 ∨ r.op = 3#6) → s.hart.isResident = true →
      ∃ u, exec (.fonakCompletion d) s = .next u ∧
        u.hart.replies = s.hart.replies ++ [⟨r.op, r.line, d.data, d.psn, d.regs, s.freshRead d.key d.eseq⟩] ∧
        u.outstandingAt d.key d.eseq = none ∧ u.mm = s.mm) ∧
    (∀ r uid, s.outstandingAt d.key d.eseq = some (r, uid) → bringsReply r = false → s.fe.leagues = [] → s.fab.atBank = [] →
      ∃ u, exec (.fonakCompletion d) s = .next u ∧ u.outstandingAt d.key d.eseq = none ∧
        u = { s with fab := { s.fab with streams := u.fab.streams } }))

/-- Timeouts and resends (R326, R356, R403, R405). Which error bank counts a timeout, and that the PCIe stream is plane 8, are
the model's readings (log entry 37). -/
def Obligations.TimeoutsAndResends : Prop :=
  (∀ (s : State) (k : StreamKey) (e : BitVec 20) (r : FonakReq), s.outstandingAt k e = some (r, s.hart.uid) → s.timeoutStands k = false →
    s.hart.isResident = true →
    ((r.op = 0#6 ∨ r.op = 2#6 ∨ r.op = 3#6) → ∃ u, exec (.completionTimeout k e) s = .next u ∧
      u.hart.replies = s.hart.replies ++ [⟨r.op, r.line, r.data, 15#4, [], s.freshRead k e⟩] ∧ u.outstandingAt k e = none ∧ u.mm = s.mm ∧
      (u.errBank (portBank k)).ue = (s.errBank (portBank k)).ue + 1#32) ∧
    (∀ j, (r.op = 1#6 ∨ r.op = 11#6) → s.terak.fail = 0#8 → s.jobOf s.hart.asid = some j →
      ∃ u, exec (.postedWriteTimeout k e) s = .next u ∧ u.jobOf s.hart.asid = none ∧ u.hart.phase = .ended)) ∧
  (∀ (s : State) (t : Stream) (r : FonakReq) (old : Word) (i : Nat), s.fab.streams = [t] → t.key.plane = 8 → t.outstanding = [r] →
    t.waiting = [(r.eseq, s.hart.uid)] → s.hart.isResident = true → i < 16 → r.bmask = byteMask (8 * i) 8 →
    (∃ u p, exec (.pcieAtomicopCompletion s.hart.uid true old) s = .next u ∧ u.hart.replies = s.hart.replies ++ [p] ∧
      getElt p.data 64 i = old.toNat ∧ p.psn = 0#4 ∧ p.line = r.line) ∧
    (∃ u p, exec (.pcieAtomicopCompletion s.hart.uid false old) s = .next u ∧ u.hart.replies = s.hart.replies ++ [p] ∧ p.psn = 15#4 ∧
      (u.errBank (portBank t.key)).ue = (s.errBank (portBank t.key)).ue + 1#32)) ∧
  (∀ (s : State) (k : StreamKey), (s.fab.filterOf k).gap = false → exec (.eseqGapTimeout k) s = .next s) ∧
  (∀ (s : State) (k : StreamKey), (s.fab.filterOf k).gap = true → ∃ u, exec (.eseqGapTimeout k) s = .next u ∧
    (u.fab.filterOf k).resendAsked = some (s.fab.filterOf k).expected ∧ (u.fab.filterOf k).expected = (s.fab.filterOf k).expected ∧
    u = { s with fab := { s.fab with filters := u.fab.filters } }) ∧
  (∀ (s : State) (k : StreamKey) (e : BitVec 20), (s.fab.stream k).outstanding ≠ [] →
    ∃ u, exec (.resendRequest k e) s = .next u ∧ u.mm = s.mm ∧ u.fab.sent = s.fab.sent ++
      ((s.fab.stream k).outstanding.filter (fun r => decide ((r.eseq - e).toNat < 2 ^ 19))).map (fun r => { r with resend := true })) ∧
  (∀ (s : State) (k : StreamKey), k.plane < 8 → s.fab.dead.getLsbD k.plane = true → s.fab.quiesce = .running →
    ∃ u, exec (.resendsCompleteSignal k) s = .next u ∧ u = { s with fab := { s.fab with filters := u.fab.filters } } ∧
      ∀ g, g ∈ u.fab.filters ↔ g ∈ s.fab.filters ∧ g.key ≠ k)

/-- Routers and planes (R408, R410 to R412): a plane declared dead is led through the steps of R411; its buckets move to the
live planes and no other bucket moves. That a lost plane is recorded at once with ACT 5, and that class 5 without a live plane
names bank 0x0A000000, are the model's readings (log entry 37). -/
def Obligations.Planes : Prop :=
  (∀ (s : State) (p : Nat), p < 8 → s.fab.dead.getLsbD p = false → s.terak.fail = 0#8 →
    (∀ e ∈ s.err.counts, drainer e.1 ≠ none) →
    ∃ u, exec (.planeDead p) s = .next u ∧ (∀ q < 8, u.fab.dead.getLsbD q = (s.fab.dead.getLsbD q || decide (q = p))) ∧
      u.mm = s.mm ∧ u.harts = s.harts ∧ PlaneNote.lost p ∈ u.fab.told ∧
      ∃ e ∈ u.err.log, e.die = 0 ∧ e.bank = 0x0A000000#32 ∧ e.act = 5#16 ∧ e.addr = BitVec.ofNat 64 p) ∧
  (∀ (s : State) (p x y : Nat), p < 8 → x < 16 → y < 16 → (p, x, y) ∉ s.fab.deadRouters → s.fab.dead.getLsbD p = false → s.terak.fail = 0#8 →
    ∃ u, exec (.routerCreditTimeout p x y) s = .next u ∧ (p, x, y) ∈ u.fab.deadRouters ∧
      (connected (liveRouters u.fab.deadRouters p) = false → u.fab.dead.getLsbD p = true)) ∧
  (∀ (s : State) (p : Nat), p < 8 → s.fab.quiesce = .running → s.terak.fail = 0#8 →
    exec (.planeQuiesce p) s = .next { s with fab := { s.fab with quiesce := .quiesced p } }) ∧
  (∀ (s : State) (p : Nat), s.fab.quiesce = .quiesced p →
    (s.fab.dead.getLsbD p = true ∧ ∀ t ∈ s.fab.streams, t.key.plane = p ∨ 8 ≤ t.key.plane ∨ t.outstanding = []) ∨
      (s.fab.dead.getLsbD p = false ∧ ∀ t ∈ s.fab.streams, t.key.plane = p → t.marked = true ∨ ∀ r ∈ t.outstanding, s.fab.lostOn p r = true) →
    ∃ u, exec (.planeDrainComplete p) s = .next u ∧ u.fab.quiesce = .drained p ∧ u.mm = s.mm ∧
      u.fab.told = s.fab.told ++ [.drained p] ∧
      ∀ t ∈ u.fab.streams, (∃ r ∈ t.outstanding, r.key.plane = p) → t.marked = true) ∧
  (∀ (s : State) (p : Nat), p < 8 → s.fab.quiesce = .drained p → s.fab.dead.getLsbD p = true →
    ((∃ q < 8, s.fab.dead.getLsbD q = false) → s.terak.fail = 0#8 →
      ∃ u, exec (.planeRemap p) s = .next u ∧ u.fab.quiesce = .remapped p ∧
        u = { s with fab := { s.fab with planeMap := u.fab.planeMap, quiesce := .remapped p } } ∧
        ∀ b < 64, ∃ old new, s.fab.planeMap[b]? = some old ∧ u.fab.planeMap[b]? = some new ∧
          (old.toNat ≠ p → new = old) ∧ (old.toNat = p → s.fab.dead.getLsbD new.toNat = false)) ∧
    ((∀ q < 8, s.fab.dead.getLsbD q = true) → s.terak.fail = 0#8 →
      ∃ u, exec (.planeRemap p) s = .next u ∧ u.terak.fail = 3#8 ∧ u.terak.failPart = 0x0A000000#32)) ∧
  (∀ (f : Fabric) (d k b : Nat), f.livePlanes ≠ [] → b < 64 → f.planeMap[b]? = some (BitVec.ofNat 3 d) → d < 8 →
    k = ((List.range b).filter (fun c => f.planeMap[c]? == some (BitVec.ofNat 3 d))).length →
    (f.rehash d)[b]? = some (BitVec.ofNat 3 (f.livePlanes.getD (k % f.livePlanes.length) 0))) ∧
  (∀ (s : State) (p : Nat) (t : Stream), s.fab.quiesce = .remapped p → s.fab.streams = [t] → t.marked = true →
    t.key.plane = p → s.fe.leagues = [] →
    ∃ u, exec (.planeResume p) s = .next u ∧ u.fab.quiesce = .running ∧ u.mm = s.mm ∧ u.fab.shownMap = s.fab.planeMap ∧
      u.fab.sent = s.fab.sent ++ t.outstanding.map (fun r => { r with resend := true }) ∧ ∀ x ∈ u.fab.streams, x.marked = false) ∧
  (∀ (s : State) (p : Nat), s.fab.quiesce = .drained p → s.fab.dead.getLsbD p = false → s.fab.streams = [] → s.fe.leagues = [] →
    ∃ u, exec (.planeResume p) s = .next u ∧ u.fab.quiesce = .running ∧ u.mm = s.mm ∧ u.fab.planeMap = s.fab.planeMap ∧
      ∀ x y, (p, x, y) ∈ s.fab.deadRouters → (p, x, y) ∈ u.fab.routed)

/-- Mailbox commands on jobs and address spaces (R116, R336 to R340, R361). Each answers a next state, under conditions on the
state and the command alone: jobcreate creates the job of its descriptor, with its banks and its key, or ends with status 2 or
4; jobend ends the job; setroot registers a root; kreg keeps the kernel table; inval invalidates a page; each ends with its
status, 3 where the ASID has no job. An owner-only command of another agent is refused with status 1 and changes nothing, and
one for a busy mailbox waits. The front ends read a descriptor through ASID 0 by `readRange`. The model's readings are: status
4 for lost banks and barred dies, no effect of a JOBCREATE before READY, status 3 for a KREG of an unknown ASID, and a second
command that waits (log entry 40); that an INVAL of ASID 0 acts on every die (log entry 61); and the regions that a job has
registered for paging, which are free (log entry 79). -/
def Obligations.JobCommands : Prop :=
  (∀ (s : State) (c : MbCmd) (i : Instr) (code : Nat), ownerOnly i = some (code, c) → MailboxIdle s c →
    (code = 1 → s.terak.ready = true) → s.owns c.agent = false →
    ∃ u, exec i s = .next u ∧ MailboxDone s code c 1 u ∧ u = { s with fe := { s.fe with mailbox := u.fe.mailbox } }) ∧
  (∀ (s t : State) (c : MbCmd) (l : List (Byte × Bool)) (j : Job), MailboxIdle s c → s.terak.ready = true → s.owns c.agent = true →
    c.a0.toNat % 8 = 0 → readRange (frontEnd c.die 0) c.a0.toNat 128 (s.mbBegun 1 c) = .ok (l, t) → (∀ b ∈ l, b.2 = false) →
    j = descJob (l.map (·.1)) →
    (t.badDesc (l.map (·.1)) j = true →
      ∃ u, exec (.jobcreate c) s = .next u ∧ MailboxDone t 1 c 2 u ∧ u.fe.jobs = t.fe.jobs ∧ u.mm = t.mm) ∧
    (∀ (banks : BitVec 65536) (map : Nat), t.badDesc (l.map (·.1)) j = false → map = fieldAt (l.map (·.1)) 0x10 8 → j.bl = 0 ∨ map = 0 →
      banks = (if j.bl = 0 then 0#65536 else realBanks &&& ~~~t.heldBanks &&& ~~~t.lostBanks) →
      (∀ key, t.barredJob j = false → (j.enc = false ∧ key = 0) ∨ (j.enc = true ∧ t.freeKey = some key) →
        ∃ u, exec (.jobcreate c) s = .next u ∧ MailboxDone t 1 c 0 u ∧ u.mbGet c.die 2 = BitVec.ofNat 64 key ∧ u.mm = t.mm ∧
          u.fe.jobs = t.fe.jobs ++ [{ j with banks := banks, key := key, barred := t.err.barred, paged := Config.pagedRegions t.tick }]) ∧
      (t.barredJob j = true ∨ (j.enc = true ∧ t.freeKey = none) →
        ∃ u, exec (.jobcreate c) s = .next u ∧ MailboxDone t 1 c 4 u ∧ u.fe.jobs = t.fe.jobs ∧ u.mm = t.mm)) ∧
    (∀ (banks : BitVec 65536) (map : Nat) (w : State) (m : List (Byte × Bool)), t.badDesc (l.map (·.1)) j = false →
      map = fieldAt (l.map (·.1)) 0x10 8 → j.bl ≠ 0 → map ≠ 0 →
      readRange (frontEnd c.die 0) (BitVec.ofNat 64 map).toNat 8192 t = .ok (m, w) → (∀ b ∈ m, b.2 = false) →
      banks = BitVec.ofNat 65536 (natOfBytes (m.map (·.1))) →
      (banks &&& ~~~realBanks ≠ 0#65536 →
        ∃ u, exec (.jobcreate c) s = .next u ∧ MailboxDone w 1 c 2 u ∧ u.fe.jobs = w.fe.jobs ∧ u.mm = w.mm) ∧
      (banks &&& ~~~realBanks = 0#65536 → banks &&& (w.heldBanks ||| w.lostBanks) ≠ 0#65536 →
        ∃ u, exec (.jobcreate c) s = .next u ∧ MailboxDone w 1 c 4 u ∧ u.fe.jobs = w.fe.jobs ∧ u.mm = w.mm) ∧
      (∀ key, banks &&& ~~~realBanks = 0#65536 → banks &&& (w.heldBanks ||| w.lostBanks) = 0#65536 → w.barredJob j = false →
        (j.enc = false ∧ key = 0) ∨ (j.enc = true ∧ w.freeKey = some key) →
        ∃ u, exec (.jobcreate c) s = .next u ∧ MailboxDone w 1 c 0 u ∧ u.mbGet c.die 2 = BitVec.ofNat 64 key ∧ u.mm = w.mm ∧
          u.fe.jobs = w.fe.jobs ++ [{ j with banks := banks, key := key, barred := w.err.barred, paged := Config.pagedRegions w.tick }]))) ∧
  (∀ (s : State) (c : MbCmd), MailboxIdle s c → s.owns c.agent = true →
    (s.terak.ready = true → c.a0.toNat % 8 ≠ 0 →
      ∃ u, exec (.jobcreate c) s = .next u ∧ MailboxDone s 1 c 2 u ∧ u.fe.jobs = s.fe.jobs ∧ u.mm = s.mm) ∧
    (s.terak.ready = false → s.terak.fail = 0#8 → exec (.jobcreate c) s = .next (s.ownerWrote c.agent)) ∧
    (c.a1.toNat % 2 ^ 20 ≠ 0 →
      ∃ u, exec (.setroot c) s = .next u ∧ MailboxDone s 3 c 2 u ∧ u.fe.roots = s.fe.roots ∧ u.mm = s.mm) ∧
    (c.a1.toNat % 2 ^ 20 = 0 → s.spaceExists c.a0.toNat = false →
      ∃ u, exec (.setroot c) s = .next u ∧ MailboxDone s 3 c 3 u ∧ u.fe.roots = s.fe.roots ∧ u.mm = s.mm) ∧
    (s.jobOf c.a0.toNat = none → ∃ u, exec (.kreg c) s = .next u ∧ MailboxDone s 7 c 3 u ∧ u.fe.jobs = s.fe.jobs ∧ u.mm = s.mm) ∧
    (∀ j lo hi, s.jobOf c.a0.toNat = some j → lo = c.a2.toNat % 16 → hi = c.a2.toNat / 16 → c.a2 ≠ 0#64 →
      (lo < 7 ∨ 12 < lo ∨ 12 < hi ∨ hi < lo) →
      ∃ u, exec (.kreg c) s = .next u ∧ MailboxDone s 7 c 2 u ∧ u.fe.jobs = s.fe.jobs ∧ u.mm = s.mm) ∧
    (2 < c.a2.toNat → ∃ u, exec (.inval c) s = .next u ∧ MailboxDone s 4 c 2 u ∧ u.mm = s.mm)) ∧
  (∀ (s : State) (c : MbCmd) (i : Instr) (code : Nat) (r : Nat × MbCmd), ownerOnly i = some (code, c) → s.frontEndsUp = true → c.die < 4 →
    s.terak.fail = 0#8 → s.runningAt c.die = some r → (code, c) ∉ s.fe.running → (code = 1 → s.terak.ready = true) →
    ∃ u, exec i s = .next u ∧ u.fe.running = s.fe.running ++ [(code, c)] ∧ u.fe.mailbox = s.fe.mailbox ∧ u.mm = s.mm ∧ u.harts = s.harts) ∧
  (∀ (s : State) (c : MbCmd), MailboxIdle s c → s.owns c.agent = true →
    (∀ j, s.planesMove = true → s.jobOf c.a0.toNat = some j → ∃ u, exec (.jobend c) s = .next u ∧ MailboxDone s 2 c 0 u ∧ u.jobOf c.a0.toNat = none) ∧
    (s.jobOf c.a0.toNat = none →
      ∃ u, exec (.jobend c) s = .next u ∧ MailboxDone s 2 c 3 u ∧ u.mm = s.mm ∧ u.fe.jobs = s.fe.jobs) ∧
    (c.a1.toNat % 2 ^ 20 = 0 → s.spaceExists c.a0.toNat = true →
      ∃ u, exec (.setroot c) s = .next u ∧ MailboxDone s 3 c 0 u ∧ getKey c.a0.toNat u.fe.roots = some c.a1.toNat) ∧
    (∀ j, s.jobOf c.a0.toNat = some j →
      (c.a2 = 0#64 → ∃ u k, exec (.kreg c) s = .next u ∧ MailboxDone s 7 c 0 u ∧ u.jobOf c.a0.toNat = some k ∧
        ∀ e ∈ k.kernels, e.1 ≠ c.a1) ∧
      (∀ lo hi, c.a2.toNat = lo + 16 * hi → 7 ≤ lo → lo ≤ hi → hi ≤ 12 →
        ∃ u k, exec (.kreg c) s = .next u ∧ MailboxDone s 7 c 0 u ∧ u.jobOf c.a0.toNat = some k ∧ (c.a1, lo, hi) ∈ k.kernels ∧
          ∀ e ∈ k.kernels, e.1 = c.a1 → e = (c.a1, lo, hi)))) ∧
  (∀ (s : State) (c : MbCmd) (bits lo hi space : Nat), MailboxIdle s c → s.owns c.agent = true → s.planesMove = true →
    (c.a2 = 0#64 ∧ bits = 16) ∨ (c.a2 = 1#64 ∧ bits = 21) ∨ (c.a2 = 2#64 ∧ bits = 30) →
    lo = c.a1.toNat / 2 ^ bits * 2 ^ bits → hi = lo + 2 ^ bits → space = spaceOf c.a0.toNat c.a1 →
    ∃ u, exec (.inval c) s = .next u ∧ MailboxDone s 4 c 0 u ∧
      (∀ e ∈ u.mm.tlb, e.asid = space → e.page + 2 ^ e.bits ≤ lo ∨ hi ≤ e.page) ∧
      (∀ e ∈ u.mm.l2, e.asid = space → lo ≤ e.line * 128 → e.line * 128 < hi →
        space ≠ 0 ∧ ∀ h ∈ s.harts, h.isResident = true → h.asid = space → h.place.die ≠ e.die) ∧
      (∀ e ∈ u.mm.icache, e.asid = space → lo ≤ e.line * 128 → e.line * 128 < hi → e.pin = none →
        space ≠ 0 ∧ ∀ h ∈ s.harts, h.isResident = true → h.asid = space → h.place.die ≠ e.die))

/-- Mailbox commands on queues, the device, the fabric and errors (R321, R323, R327, R329, R334, R338, R361, R418), and the
windows of the PCIe port (R320, R321): control space behind BAR0 and memory behind BAR2. The model's readings are: SETDEV ends
with status 2 while a job exists (log entry 40), ATTEST with a small buffer and no key left ends with status 2 (log entry 77),
the bytes beside a partial write of a register are those it reads (log entry 78), and the layout of a record that REPAIRS
copies is free (log entry 25). -/
def Obligations.DeviceCommands : Prop :=
  (∀ (s : State) (c : MbCmd), MailboxIdle s c → s.owns c.agent = true →
    (∀ t, t = s.mbBegun 5 c → c.a0.toNat < s.fe.qcount → s.slotOf c.a0.toNat = none → s.fe.mapWait = [] →
      ∃ u, exec (.qstop c) s = .next u ∧ MailboxDone s 5 c 0 u ∧ u.slotOf c.a0.toNat = none ∧
        (∀ e ∈ u.fe.qcbCache, e.2.1 ≠ c.a0.toNat) ∧
        u.mm = (if t.qEn c.a0.toNat then t.setQ c.a0.toNat 8 8 8 0 else t).mm) ∧
    (s.fe.jobs = [] → c.a0.toNat % 128 = 0 → 1 ≤ c.a1.toNat → c.a1.toNat ≤ 2 ^ 20 →
      ∃ u, exec (.setqtab c) s = .next u ∧ MailboxDone s 6 c 0 u ∧ u.fe.qtab = c.a0.toNat ∧ u.fe.qcount = c.a1.toNat ∧ u.mm = s.mm) ∧
    (c.die = 0 → c.a1.toNat % 2 ^ 32 = 0 → s.spaceExists c.a0.toNat = true →
      ∃ u, exec (.setbar2 c) s = .next u ∧ MailboxDone s 0x10 c 0 u ∧ u.fe.bar2 = (c.a0.toNat, c.a1.toNat) ∧ u.mm = s.mm) ∧
    (c.die ≠ 0 → ∃ u, exec (.setbar2 c) s = .next u ∧ MailboxDone s 0x10 c 2 u ∧ u.fe.bar2 = s.fe.bar2) ∧
    (s.fe.jobs = [] → c.a0.toNat < 2 ^ 19 → s.planesMove = true →
      ∃ u, exec (.setdev c) s = .next u ∧ MailboxDone s 0x11 c 0 u ∧ u.fe.devSelf.toNat = c.a0.toNat ∧ u.fe.devSet = true) ∧
    (s.fe.jobs ≠ [] → ∃ u, exec (.setdev c) s = .next u ∧ MailboxDone s 0x11 c 2 u ∧ u.fe.devSelf = s.fe.devSelf ∧ u.mm = s.mm) ∧
    (c.a0.toNat < 256 → ∃ u v, exec (.setpcap c) s = .next u ∧ MailboxDone s 0x12 c 0 u ∧ getKey c.a0.toNat u.fe.pcap = some v ∧
      (∀ i, 12 ≤ i → v.getLsbD i = c.a1.getLsbD i) ∧ ∀ n, n ≠ c.a0.toNat → getKey n u.fe.pcap = getKey n s.fe.pcap) ∧
    (c.a0.toNat < 65536 →
      (c.a1.getLsbD 63 = true →
        ∃ u, exec (.setmcast c) s = .next u ∧ MailboxDone s 0x13 c 0 u ∧ getKey c.a0.toNat u.fe.mcast = none) ∧
      (c.a1.getLsbD 63 = false → c.a1.toNat % 4096 = 0 → s.isLocal c.a1.toNat = true → paRegion c.a1.toNat = 0 →
        populated 0 c.a1.toNat = true →
        ∃ u, exec (.setmcast c) s = .next u ∧ MailboxDone s 0x13 c 0 u ∧ getKey c.a0.toNat u.fe.mcast = some c.a1.toNat)) ∧
    (∃ u, exec (.seterrmsg c) s = .next u ∧ MailboxDone s 0x41 c 0 u ∧
      u.fe.errMsg = (if c.a0.getLsbD 63 then some (c.a0.setWidth 11) else none) ∧ u.mm = s.mm) ∧
    (∀ q t, q = c.a0.toNat → t = s.mbBegun 0x43 c → q < s.fe.qcount → c.a1.toNat ≤ 1 → s.slotOf q = none →
      getKey q s.fe.held = none →
      (t.qErr q = true → qField (t.qcb q) 8 39 32 ≠ 6 → qField (t.qcb q) 8 39 32 ≠ 7 →
        ∃ u, exec (.qrestart c) s = .next u ∧ MailboxDone s 0x43 c 0 u ∧ u.fe.fails = s.fe.fails.filter (fun f => f.qid != q)) ∧
      (t.qErr q = false ∨ qField (t.qcb q) 8 39 32 = 6 ∨ qField (t.qcb q) 8 39 32 = 7 →
        ∃ u, exec (.qrestart c) s = .next u ∧ MailboxDone s 0x43 c 2 u ∧ u.mm = s.mm ∧ u.fe.fails = s.fe.fails))) ∧
  (∀ (s : State) (c : MbCmd) (size : Nat), MailboxIdle s c → s.terak.report = none → size = 0x50 + 72 * s.terak.mlog.length + 9732 →
    (c.a2.toNat < size → ∃ u, exec (.attest c) s = .next u ∧ MailboxDone s 0x20 c 2 u ∧ u.terak.keysLeft = s.terak.keysLeft) ∧
    (size ≤ c.a2.toNat → s.terak.keysLeft = 0 →
      ∃ u, exec (.attest c) s = .next u ∧ MailboxDone s 0x20 c 4 u ∧ u.mm = s.mm) ∧
    (∀ (t v w : State) (l : List (Byte × Bool)) (body : List Byte), size ≤ c.a2.toNat → s.terak.keysLeft ≠ 0 →
      readRange (frontEnd c.die 0) c.a0.toNat 32 (s.mbBegun 0x20 c) = .ok (l, t) → (∀ b ∈ l, b.2 = false) →
      body = t.reportBody (l.map (·.1)) → v = t.signReport (l.map (·.1)) →
      v.terak.keysLeft = t.terak.keysLeft - 1 ∧
      (writeRange (frontEnd c.die 0) c.a1.toNat (body ++ (List.range 9732).map (Config.signature t.terak.keysLeft body)) v = .ok ((), w) →
        ∃ u, exec (.attest c) s = .next u ∧ MailboxDone w 0x20 c 0 u ∧ u.mm = w.mm ∧ u.terak = { w.terak with report := none } ∧
          u.mbGet c.die 4 = BitVec.ofNat 64 (body ++ (List.range 9732).map (Config.signature t.terak.keysLeft body)).length) ∧
      (∀ e, writeRange (frontEnd c.die 0) c.a1.toNat (body ++ (List.range 9732).map (Config.signature t.terak.keysLeft body)) v = .error e →
        (∀ x, e ≠ .wait x) →
        ∃ u, exec (.attest c) s = .next u ∧ MailboxDone t 0x20 c 2 u ∧ u.mm = t.mm ∧ u.terak = t.terak))) ∧
  (∀ (s t : State) (c : MbCmd) (l : List LogEntry), MailboxIdle s c → 1 ≤ c.a2.toNat → c.a2.toNat ≤ 4096 →
    l = (s.err.log.filter (fun e => e.die == c.die && decide (c.a0.toNat ≤ e.seq))).take c.a2.toNat →
    writeRange (frontEnd c.die 0) c.a1.toNat (l.flatMap LogEntry.bytes) (s.mbBegun 0x40 c) = .ok ((), t) →
    ∃ u, exec (.readlog c) s = .next u ∧ MailboxDone t 0x40 c 0 u ∧ u.mbGet c.die 4 = BitVec.ofNat 64 l.length ∧ u.mm = t.mm) ∧
  (∀ (s : State) (c : MbCmd) (asid : Nat) (l : List Byte), MailboxIdle s c → asid = c.a0.toNat →
    ((s.jobOf asid).isSome = true ∧ l = jobRecord 2 0 asid (s.queueFails asid)) ∨
      (s.jobOf asid = none ∧ ∃ e, s.fe.jobEnds.find? (fun x => x.asid == asid) = some e ∧ l = jobRecord 1 e.seq asid e.harts) →
    (c.a2.toNat < l.length → ∃ u, exec (.jobstat c) s = .next u ∧ MailboxDone s 0x42 c 2 u ∧ u.mm = s.mm) ∧
    (∀ t, l.length ≤ c.a2.toNat → writeRange (frontEnd c.die 0) c.a1.toNat l (s.mbBegun 0x42 c) = .ok ((), t) →
      ∃ u, exec (.jobstat c) s = .next u ∧ MailboxDone t 0x42 c 0 u ∧ u.mbGet c.die 4 = BitVec.ofNat 64 l.length ∧ u.mm = t.mm)) ∧
  (∀ (s : State) (c : MbCmd), MailboxIdle s c → s.jobOf c.a0.toNat = none → (∀ e ∈ s.fe.jobEnds, e.asid ≠ c.a0.toNat) →
    ∃ u, exec (.jobstat c) s = .next u ∧ MailboxDone s 0x42 c 3 u ∧ u.mm = s.mm) ∧
  (∀ (s t : State) (c : MbCmd), MailboxIdle s c →
    writeRange (frontEnd c.die 0) c.a0.toNat ((s.err.repairs.filter (·.committed)).flatMap (fun r => Config.repairRecord r.part r.spare r.seq))
      (s.mbBegun 0x44 c) = .ok ((), t) →
    ∃ u, exec (.repairs c) s = .next u ∧ MailboxDone t 0x44 c 0 u ∧ u.mm = t.mm) ∧
  (∀ (s : State) (offset size : Nat), size ≤ 512 → s.fe.posted = [] → s.unacked s.barHost.uid = false →
    (∀ l t, offset + size ≤ 2 ^ 32 → readRange s.barHost (s.fe.bar2.2 + offset) size s = .ok (l, t) → (∀ b ∈ l, b.2 = false) →
      ∃ u, exec (.bar2Read ⟨.window, offset⟩ size) s = .next u ∧ u.fe.hostData = l.map (·.1) ∧ u.mm = t.mm ∧ u.harts = t.harts) ∧
    (∀ e, offset + size ≤ 2 ^ 32 → readRange s.barHost (s.fe.bar2.2 + offset) size s = .error e → (∀ t, e ≠ .wait t) →
      ∃ u, exec (.bar2Read ⟨.window, offset⟩ size) s = .next u ∧ u.fe.hostData = List.replicate size 0xFF#8 ∧ u.mm = s.mm ∧
        u.harts = s.harts) ∧
    (offset + size ≤ 2 ^ 26 → ∃ u, exec (.bar2Read ⟨.control, offset⟩ size) s = .next u ∧ u.mm = s.mm ∧ u.harts = s.harts ∧
      ∀ i < size, u.fe.hostData[i]? = some (BitVec.ofNat 8 (getElt
        (s.controlDword ((offset + i) / 2 ^ 24) ((offset + i) % 2 ^ 24 / 8 * 8)) 8 ((offset + i) % 8))))) ∧
  (∀ (s : State) (p : HostAddr) (size : Nat), s.fe.posted ≠ [] ∨ s.unacked s.barHost.uid = true → exec (.bar2Read p size) s = .next s) ∧
  (∀ (s s0 : State) (offset : Nat) (data : List Byte), 0 < data.length → data.length ≤ 256 → s.fe.posted = [] →
    s.unacked s.barHost.uid = false →
    (offset + data.length ≤ 2 ^ 32 → offset % 128 + data.length ≤ 128 →
      s0 = { s with fe := { s.fe with posted := [(.window, offset, data)] } } →
      (∀ t, writeRange s.barHost (s.fe.bar2.2 + offset) data s0 = .ok ((), t) →
        exec (.bar2Write ⟨.window, offset⟩ data) s =
          .next (({ t with fe := { t.fe with posted := [] } } : State).dropReplies s.barHost.uid)) ∧
      (∀ e, writeRange s.barHost (s.fe.bar2.2 + offset) data s0 = .error e → (∀ t, e ≠ .wait t) →
        exec (.bar2Write ⟨.window, offset⟩ data) s = .next (s.dropReplies s.barHost.uid)) ∧
      (∀ t, writeRange s.barHost (s.fe.bar2.2 + offset) data s0 = .error (.wait t) →
        exec (.bar2Write ⟨.window, offset⟩ data) s = .next t)) ∧
    (∀ t, offset + data.length ≤ 2 ^ 26 → t = { s with fe := { s.fe with posted := [(.control, offset, data)] } }.controlPosted offset data →
      exec (.bar2Write ⟨.control, offset⟩ data) s =
        .next (({ t with fe := { t.fe with posted := [] } } : State).dropReplies s.barHost.uid))) ∧
  (∀ (s : State) (p : HostAddr) (data : List Byte), data.length ≤ 256 → p.offset + data.length ≤ barSize p.bar →
    s.fe.posted ≠ [] → s.unacked s.barHost.uid = true →
    exec (.bar2Write p data) s = .next { s with fe := { s.fe with posted := s.fe.posted ++ postedParts p data } })
end

