-- ==== Sys2Proof/Laws/Memory.lean ====
section
/-!
SUPPORT. The laws of memory: every operation on cells and on poison marks keeps the canonical form, a read after a write
gives what was written and every other byte stands; the operations of a home, of the L2 and of a job's end keep the form
of the whole state's memory.
-/

namespace Sys2Proof.Laws

open Sys2Proof Sys2Proof.Machine

/-! ## Cells -/

theorem wfAbove_mono {n m : Nat} (h : m ≤ n) : ∀ {l : List Host.Cell}, Memory.wfAbove n l = true → Memory.wfAbove m l = true
  | [], _ => rfl
  | _ :: _, w => by
    simp only [Memory.wfAbove, Bool.and_eq_true, decide_eq_true_eq] at w ⊢
    exact ⟨⟨h.trans w.1.1, w.1.2⟩, w.2⟩

theorem wfAbove_set {a : Nat} {b : Byte} : ∀ {l : List Host.Cell} {n : Nat}, Memory.wfAbove n l = true → n ≤ a →
    Memory.wfAbove n (Memory.set l a b) = true
  | [], n, _, hn => by
    unfold Memory.set
    split <;> simp_all [Memory.wfAbove]
  | c :: l, n, w, hn => by
    simp only [Memory.wfAbove, Bool.and_eq_true, decide_eq_true_eq] at w
    unfold Memory.set
    split
    · simp only [Memory.wfAbove, Bool.and_eq_true, decide_eq_true_eq]
      exact ⟨w.1, wfAbove_set w.2 (by omega)⟩
    · split
      · split
        · exact wfAbove_mono (by omega) w.2
        · simp_all [Memory.wfAbove]
      · split
        · simp_all [Memory.wfAbove]
        · simp only [Memory.wfAbove, Bool.and_eq_true, decide_eq_true_eq]
          exact ⟨⟨hn, ‹_›⟩, ⟨by omega, w.1.2⟩, w.2⟩

theorem wfAbove_filter (p : Host.Cell → Bool) : ∀ {l : List Host.Cell} {n : Nat}, Memory.wfAbove n l = true →
    Memory.wfAbove n (l.filter p) = true
  | [], _, _ => rfl
  | c :: l, n, w => by
    simp only [Memory.wfAbove, Bool.and_eq_true, decide_eq_true_eq] at w
    by_cases h : p c = true
    · simp only [List.filter_cons, h, if_true, Memory.wfAbove, Bool.and_eq_true, decide_eq_true_eq]
      exact ⟨w.1, wfAbove_filter p w.2⟩
    · simp only [List.filter_cons, h]
      exact wfAbove_filter p (wfAbove_mono (by omega) w.2)

/-- Writing a byte keeps the canonical form. -/
theorem wf_set {l : List Host.Cell} (w : Memory.wf l = true) (a : Nat) (b : Byte) : Memory.wf (Memory.set l a b) = true :=
  wfAbove_set w (Nat.zero_le a)

/-- Writing bytes keeps it. -/
theorem wf_write : ∀ {l : List Host.Cell} (bs : List Byte) (a : Nat), Memory.wf l = true → Memory.wf (Memory.write l a bs) = true
  | _, [], _, w => w
  | _, b :: bs, a, w => wf_write bs (a + 1) (wf_set w a b)

/-- Dropping cells keeps it. -/
theorem wf_filter {l : List Host.Cell} (p : Host.Cell → Bool) (w : Memory.wf l = true) : Memory.wf (l.filter p) = true :=
  wfAbove_filter p w

/-- Scrubbing a range keeps it. -/
theorem wf_scrub {l : List Host.Cell} (lo hi : Nat) (w : Memory.wf l = true) : Memory.wf (Memory.scrub l lo hi) = true :=
  wf_filter _ w

/-- What a fold of operations keeps, if each operation keeps it. -/
theorem foldl_keeps {α β : Type} (P : β → Prop) (f : β → α → β) (hf : ∀ b a, P b → P (f b a)) :
    ∀ (l : List α) (b : β), P b → P (l.foldl f b)
  | [], _, h => h
  | a :: l, b, h => foldl_keeps P f hf l (f b a) (hf b a h)

/-! ## Reading what was written -/

theorem get_below : ∀ {l : List Host.Cell} {n a : Nat}, Memory.wfAbove n l = true → a < n → Memory.get l a = Memory.unlisted
  | [], _, _, _, _ => rfl
  | c :: l, n, a, w, h => by
    simp only [Memory.wfAbove, Bool.and_eq_true, decide_eq_true_eq] at w
    have : ¬ c.1 = a := by omega
    have h2 : ¬ c.1 < a := by omega
    simp [Memory.get, this, h2]

theorem get_set_above : ∀ {l : List Host.Cell} {n : Nat} (a x : Nat) (b : Byte), Memory.wfAbove n l = true →
    Memory.get (Memory.set l a b) x = if x = a then b else Memory.get l x
  | [], n, a, x, b, _ => by
    unfold Memory.set
    split
    · subst_vars; simp [Memory.get]
    · simp only [Memory.get]
      by_cases e : a = x
      · simp [e]
      · have : x ≠ a := fun h => e h.symm
        simp [e, this]
  | c :: l, n, a, x, b, w => by
    simp only [Memory.wfAbove, Bool.and_eq_true, decide_eq_true_eq] at w
    have ih := get_set_above (l := l) a x b w.2
    unfold Memory.set
    split
    next hc =>
      simp only [Memory.get, ih]
      by_cases e : x = a
      · subst e
        have : ¬ c.1 = x := by omega
        simp [this, hc]
      · simp [e]
    next hc =>
      split
      next he =>
        subst he
        have hb : ∀ y, y ≤ c.1 → Memory.get l y = Memory.unlisted := fun y hy => get_below w.2 (by omega)
        split
        next hz =>
          subst hz
          by_cases e : x = c.1
          · subst e; simp [hb]
          · simp only [e, if_false, Memory.get]
            by_cases h1 : c.1 < x
            · have : ¬ c.1 = x := by omega
              simp [this, h1]
            · have : ¬ c.1 = x := by omega
              simp [this, h1, hb x (by omega)]
        next hz =>
          simp only [Memory.get]
          by_cases e : x = c.1
          · simp [e]
          · have : ¬ c.1 = x := fun h => e h.symm
            simp [e, this]
      next he =>
        have hlow : Memory.get (c :: l) a = Memory.unlisted := by
          have : ¬ c.1 < a := hc
          simp [Memory.get, he, this]
        split
        next hz =>
          subst hz
          by_cases e : x = a
          · subst e; simp [hlow]
          · simp [e]
        next hz =>
          by_cases e : x = a
          · subst e; simp [Memory.get]
          · have e' : ¬ a = x := fun h => e h.symm
            by_cases h1 : a < x
            · simp [Memory.get, e, e', h1]
            · have h2 : ¬ c.1 = x := by omega
              have h3 : ¬ c.1 < x := by omega
              simp [Memory.get, e, e', h1, h2, h3]

/-- A byte reads as written; every other byte stands. -/
theorem get_set {l : List Host.Cell} (w : Memory.wf l = true) (a x : Nat) (b : Byte) :
    Memory.get (Memory.set l a b) x = if x = a then b else Memory.get l x := get_set_above a x b w

/-- A byte outside the bytes written stands. -/
theorem get_write_outside : ∀ {l : List Host.Cell} (bs : List Byte) (a x : Nat), Memory.wf l = true →
    x < a ∨ a + bs.length ≤ x → Memory.get (Memory.write l a bs) x = Memory.get l x
  | _, [], _, _, _, _ => rfl
  | l, b :: bs, a, x, w, h => by
    have h1 : x < a + 1 ∨ a + 1 + bs.length ≤ x := by simp only [List.length_cons] at h; omega
    rw [Memory.write, get_write_outside bs (a + 1) x (wf_set w a b) h1, get_set w]
    have : x ≠ a := by simp only [List.length_cons] at h; omega
    simp [this]

/-- A byte written reads as written. -/
theorem get_write_inside : ∀ {l : List Host.Cell} (bs : List Byte) (a i : Nat) (h : i < bs.length), Memory.wf l = true →
    Memory.get (Memory.write l a bs) (a + i) = bs[i]
  | l, b :: bs, a, 0, _, w => by
    rw [Memory.write, get_write_outside bs (a + 1) (a + 0) (wf_set w a b) (by omega), get_set w]; simp
  | l, b :: bs, a, i + 1, h, w => by
    have := get_write_inside bs (a + 1) i (by simpa using h) (wf_set w a b)
    rw [Memory.write, show a + (i + 1) = a + 1 + i by omega, this]; rfl

theorem read_length (l : List Host.Cell) (a : Nat) : ∀ k, (Memory.read l a k).length = k
  | 0 => rfl
  | k + 1 => by simp [Memory.read, read_length l (a + 1) k]

theorem read_congr {l m : List Host.Cell} : ∀ (k a : Nat), (∀ x, a ≤ x → x < a + k → Memory.get l x = Memory.get m x) →
    Memory.read l a k = Memory.read m a k
  | 0, _, _ => rfl
  | k + 1, a, h => by
    simp only [Memory.read]
    rw [h a (le_refl _) (by omega), read_congr k (a + 1) (fun x h1 h2 => h x (by omega) (by omega))]

/-- Reading bytes just written gives them back. -/
theorem read_write : ∀ {l : List Host.Cell} (bs : List Byte) (a : Nat), Memory.wf l = true →
    Memory.read (Memory.write l a bs) a bs.length = bs
  | _, [], _, _ => rfl
  | l, b :: bs, a, w => by
    simp only [List.length_cons, Memory.read, Memory.write]
    rw [read_write bs (a + 1) (wf_set w a b), get_write_outside bs (a + 1) a (wf_set w a b) (by omega), get_set w]
    simp

/-! ## Poison marks -/

theorem pairwise_setPoison {l : List Nat} (h : l.Pairwise (· < ·)) (g : Nat) (on : Bool) :
    (setPoison l g on).Pairwise (· < ·) := by
  unfold setPoison
  have hr : (l.filter (fun x => x != g)).Pairwise (· < ·) := h.filter _
  split
  · rw [List.pairwise_append]
    refine ⟨hr.filter _, ?_, ?_⟩
    · rw [List.pairwise_cons]
      exact ⟨fun a ha => by simpa using (List.mem_filter.mp ha).2, hr.filter _⟩
    · intro a ha b hb
      have h1 : a < g := by simpa using (List.mem_filter.mp ha).2
      rcases List.mem_cons.mp hb with rfl | hb
      · exact h1
      · have : g < b := by simpa using (List.mem_filter.mp hb).2
        omega
  · exact hr

theorem mem_setPoison {l : List Nat} (g : Nat) (on : Bool) (x : Nat) :
    x ∈ setPoison l g on ↔ if x = g then on = true else x ∈ l := by
  unfold setPoison
  by_cases e : x = g
  · subst e; cases on <;> simp
  · cases on
    · simp [e]
    · rcases Nat.lt_or_gt_of_ne e with h | h <;> simp [e, h, Nat.le_of_lt h]

/-! ## The memory of the whole state -/

/-- The state after reset holds its memory in canonical form. -/
theorem reset_canonical : State.reset.canonical := ⟨rfl, List.Pairwise.nil⟩

theorem canonical_of_eq {s t : State} (hb : t.mm.bytes = s.mm.bytes) (hp : t.mm.poison = s.mm.poison) (h : s.canonical) :
    t.canonical := by unfold State.canonical; rw [hb, hp]; exact h

/-- A write of a line at its home keeps the form. -/
theorem canonical_putWords {s : State} (h : s.canonical) (ln : Nat) (v : LineVal) (mask : BitVec 128) (words : BitVec 16) :
    (s.putWords ln v mask words).canonical := by
  have hb : ∀ (r : LineVal) (l : List Nat), Memory.wf (l.foldl (fun b i =>
      if mask.getLsbD i then Memory.set b (ln * 128 + i) (BitVec.ofNat 8 (getElt r.data 8 i)) else b) s.mm.bytes) = true := by
    intro r l
    refine foldl_keeps (fun b => Memory.wf b = true) _ (fun b i hw => ?_) l _ h.1
    split
    · exact wf_set hw _ _
    · exact hw
  have hp : ∀ (r : LineVal) (l : List Nat),
      (l.foldl (fun p i => setPoison p (4 * ln + i) (r.psn.getLsbD i)) s.mm.poison).Pairwise (· < ·) := by
    intro r l
    exact foldl_keeps (fun p : List Nat => p.Pairwise (· < ·)) _ (fun b i hw => pairwise_setPoison hw _ _) l _ h.2
  refine ⟨?_, hp _ _⟩
  simp only [State.putWords]
  split
  · exact hb _ _
  · split
    · exact hb _ _
    · exact wf_write _ _ (hb _ _)

theorem canonical_putHome {s : State} (h : s.canonical) (ln : Nat) (v : LineVal) (mask : BitVec 128) :
    (s.putHome ln v mask).canonical := canonical_putWords h _ _ _ _

theorem mscAlloc_mem (s : State) (stack block sec bl : Nat) (d : Bool) :
    (s.mscAlloc stack block sec bl d).mm.bytes = s.mm.bytes ∧ (s.mscAlloc stack block sec bl d).mm.poison = s.mm.poison := by
  unfold State.mscAlloc
  dsimp only
  generalize pickWay _ _ = r
  obtain ⟨way, age⟩ := r
  dsimp only
  by_cases hw : way ≥ 16
  · rw [if_pos hw]; exact ⟨rfl, rfl⟩
  · rw [if_neg hw]; exact ⟨rfl, rfl⟩

theorem mscTouch_mem (s : State) (asid ln : Nat) (w : Bool) :
    (s.mscTouch asid ln w).mm.bytes = s.mm.bytes ∧ (s.mscTouch asid ln w).mm.poison = s.mm.poison := by
  unfold State.mscTouch
  split
  · exact ⟨rfl, rfl⟩
  · dsimp only
    split
    · exact ⟨rfl, rfl⟩
    · split
      · exact ⟨rfl, rfl⟩
      · split
        · exact mscAlloc_mem _ _ _ _ _ _
        · exact ⟨rfl, rfl⟩

theorem mscServe_mem (s : State) (asid ln : Nat) (w : Bool) :
    (s.mscServe asid ln w).mm.bytes = s.mm.bytes ∧ (s.mscServe asid ln w).mm.poison = s.mm.poison := by
  have h := mscTouch_mem s asid ln w
  unfold State.mscServe
  dsimp only
  split
  · exact h
  · exact ⟨(mscTouch_mem _ _ _ _).1.trans h.1, (mscTouch_mem _ _ _ _).2.trans h.2⟩

theorem mscVictim_mem (s : State) (asid ln : Nat) (d : Bool) :
    (s.mscVictim asid ln d).mm.bytes = s.mm.bytes ∧ (s.mscVictim asid ln d).mm.poison = s.mm.poison := by
  unfold State.mscVictim
  dsimp only
  split
  · exact ⟨rfl, rfl⟩
  · exact mscAlloc_mem _ _ _ _ _ _

theorem cross_mem (s : State) (a b ln : Nat) : (s.cross a b ln).mm = s.mm := by
  unfold State.cross
  split
  · rfl
  · split <;> rfl

/-- A memory-side cache's bookkeeping keeps the form. -/
theorem canonical_mscTouch {s : State} (h : s.canonical) (asid ln : Nat) (w : Bool) : (s.mscTouch asid ln w).canonical :=
  canonical_of_eq (mscTouch_mem s asid ln w).1 (mscTouch_mem s asid ln w).2 h

theorem canonical_mscServe {s : State} (h : s.canonical) (asid ln : Nat) (w : Bool) : (s.mscServe asid ln w).canonical :=
  canonical_of_eq (mscServe_mem s asid ln w).1 (mscServe_mem s asid ln w).2 h

/-- A change of the key under which blocks are held keeps the form. -/
theorem canonical_rekey {s : State} (h : s.canonical) (space ln : Nat) (mask : BitVec 128) : (s.rekey space ln mask).canonical := by
  unfold State.rekey
  dsimp only
  split
  · exact h
  · exact ⟨foldl_keeps (fun b => Memory.wf b = true) _ (fun _ _ hw => wf_write _ _ hw) _ _ h.1, h.2⟩

/-- A write of an address space at the home of a line keeps it. -/
theorem canonical_homeWrite {s : State} (h : s.canonical) (space ln : Nat) (v : LineVal) (mask : BitVec 128)
    (words : BitVec 16) : (s.homeWrite space ln v mask words).canonical := by
  unfold State.homeWrite
  split
  · exact h
  · refine canonical_putWords (canonical_mscServe (canonical_rekey ?_ _ _ _) _ _ _) _ _ _ _
    split
    · split
      · exact h
      · exact canonical_rekey h _ _ _
    · exact h

/-- A read of an address space at the home of a line keeps it. -/
theorem canonical_homeRead {s : State} (h : s.canonical) (space ln : Nat) : (s.homeRead space ln).1.canonical :=
  canonical_mscServe h _ _ _

/-- A check-in at its home keeps it. -/
theorem canonical_takeIn {s : State} (h : s.canonical) (space src ln : Nat) (v : LineVal) (mask : BitVec 128)
    (words : BitVec 16) : (s.takeIn space src ln v mask words).canonical :=
  canonical_of_eq (s := s.homeWrite space ln v mask words) rfl rfl (canonical_homeWrite h _ _ _ _ _)

theorem canonical_takeTwin {s : State} (h : s.canonical) (space src ln : Nat) (v : LineVal) (t : Twin) :
    (s.takeTwin space src ln v t).canonical := canonical_takeIn h _ _ _ _ _ _

/-- A crossing keeps it. -/
theorem canonical_cross {s : State} (h : s.canonical) (a b ln : Nat) : (s.cross a b ln).canonical :=
  canonical_of_eq (by rw [cross_mem]) (by rw [cross_mem]) h

/-- Freeing a twin keeps it. -/
theorem canonical_freeTwin {s : State} (h : s.canonical) (ln writer : Nat) : (s.freeTwin ln writer).canonical := h

/-- Replacing an L2 entry keeps it. -/
theorem canonical_putL2 {s : State} (h : s.canonical) (e : L2Line) : (s.putL2 e).canonical := h

/-- A check-in keeps it. -/
theorem canonical_checkIn {s : State} (h : s.canonical) (e : L2Line) : (s.checkIn e).canonical := by
  unfold State.checkIn
  refine canonical_putL2 ?_ _
  split
  · exact h
  · exact canonical_cross (canonical_freeTwin (canonical_takeTwin h _ _ _ _ _) _ _) _ _ _

/-- A write-back keeps it. -/
theorem canonical_writeBack {s : State} (h : s.canonical) (e : L2Line) : (s.writeBack e).canonical := by
  unfold State.writeBack
  split
  · exact canonical_checkIn h e
  · split
    · exact h
    · exact canonical_putL2 (canonical_homeWrite h _ _ _ _ _) _

/-- Writing back every line that satisfies a test keeps it. -/
theorem canonical_cleanL2 {s : State} (h : s.canonical) (p : L2Line → Bool) : (s.cleanL2 p).canonical :=
  foldl_keeps State.canonical _ (fun t e ht => by
    split
    · exact canonical_writeBack ht _
    · exact ht) _ _ h

/-- An eviction keeps it. -/
theorem canonical_evictL2 {s : State} (h : s.canonical) (e : L2Line) : (s.evictL2 e).canonical := by
  have h1 : ((s.writeBack e).dropL2 (fun x => x.same e)).canonical := canonical_of_eq rfl rfl (canonical_writeBack h e)
  unfold State.evictL2
  dsimp only
  split
  · exact canonical_of_eq (mscVictim_mem _ _ _ _).1 (mscVictim_mem _ _ _ _).2 h1
  · exact h1

/-- A fill keeps it. -/
theorem canonical_fillL2 {s : State} (h : s.canonical) (die asid line ln : Nat) (leaf : Word) (rrpv : Nat) (v : LineVal) :
    (s.fillL2 die asid line ln leaf rrpv v).canonical := by
  unfold State.fillL2
  dsimp only
  split
  · exact canonical_of_eq rfl rfl h
  · exact canonical_of_eq rfl rfl (canonical_evictL2 h _)

/-- Clearing poison of a range keeps it. -/
theorem canonical_clearPoison {s : State} (h : s.canonical) (lo hi : Nat) : (s.clearPoison lo hi).canonical :=
  ⟨h.1, h.2.filter _⟩

/-- Scrubbing a range keeps it. -/
theorem canonical_scrubRange {s : State} (h : s.canonical) (lo hi : Nat) : (s.scrubRange lo hi).canonical :=
  ⟨wf_scrub lo hi h.1, h.2.filter _⟩

/-- Bytes that lost their key keep it. -/
theorem canonical_freeRange {s : State} (h : s.canonical) (lo hi : Nat) : (s.freeRange lo hi).canonical :=
  ⟨wf_write _ _ h.1, h.2⟩

/-- The scrub of an ended job keeps it. -/
theorem canonical_jobScrub {s : State} (h : s.canonical) (j : Job) : (s.jobScrub j).canonical := by
  unfold State.jobScrub
  dsimp only
  refine canonical_of_eq rfl rfl (foldl_keeps State.canonical _ (fun t p ht => ?_) _ _ (show State.canonical _ from ⟨wf_filter _ h.1, h.2.filter _⟩))
  split
  · exact canonical_freeRange ht _ _
  · exact canonical_scrubRange ht _ _

/-- A bank engine's store of a row keeps it. -/
theorem canonical_putRow {s : State} (h : s.canonical) (b row : Nat) (data : BitVec 8192) (psn : BitVec 32) :
    (s.putRow b row data psn).canonical := by
  unfold State.putRow
  dsimp only
  generalize s.rowPa b row = pa
  generalize bytesOfNat 1024 data.toNat = bs
  generalize List.range 32 = l
  have hp := foldl_keeps (fun p : List Nat => p.Pairwise (· < ·)) (fun p i => setPoison p (pa / 32 + i) (psn.getLsbD i))
    (fun _ _ hw => pairwise_setPoison hw _ _) l _ h.2
  exact ⟨wf_write _ _ h.1, hp⟩

/-- Gathering the written copies of a line keeps it. -/
theorem canonical_gather {s : State} (h : s.canonical) (ln : Nat) (memSide : Bool) : (s.gather ln memSide).canonical := by
  unfold State.gather
  dsimp only
  split
  · exact canonical_of_eq rfl rfl (canonical_cleanL2 h _)
  · exact canonical_cleanL2 h _

/-- Dropping the cached copies of a line keeps it. -/
theorem canonical_dropCopies {s : State} (h : s.canonical) (die ln : Nat) : (s.dropCopies die ln).canonical := by
  unfold State.dropCopies
  dsimp only
  split <;> exact canonical_of_eq rfl rfl h

/-- Recalling a checked-out line keeps it. -/
theorem canonical_recallTwin {s : State} (h : s.canonical) (mates : List Twin) (way : Nat) :
    (s.recallTwin mates way).canonical := by
  unfold State.recallTwin
  split
  · split
    · exact canonical_checkIn h _
    · exact canonical_of_eq rfl rfl h
  · exact h

/-- A read of an indivisible operation at its home keeps it. -/
theorem canonical_readServed {s : State} (h : s.canonical) (space ln : Nat) : (s.readServed space ln).canonical := by
  unfold State.readServed
  split
  · exact h
  · exact canonical_mscServe h _ _ _

/-- A write of an indivisible operation at its home keeps it. -/
theorem canonical_serveWrite {s : State} (h : s.canonical) (space ln : Nat) (v : LineVal) (mask : BitVec 128)
    (core : Option Nat) : (s.serveWrite space ln v mask core).canonical := by
  unfold State.serveWrite
  split
  · exact canonical_readServed h _ _
  · split
    · exact canonical_of_eq rfl rfl h
    · exact canonical_takeIn h _ _ _ _ _ _

/-- An atomic at its home keeps it. -/
theorem canonical_atomicHome {s : State} (h : s.canonical) (space pa : Nat) (op : BitVec 4) (a b : Word) (memSide : Bool)
    (core : Option Nat) : (s.atomicHome space pa op a b memSide core).1.canonical := by
  have hg := canonical_gather h (pa / 128) memSide
  unfold State.atomicHome
  dsimp only
  apply canonical_dropCopies
  split
  · exact canonical_serveWrite hg _ _ _ _ _
  · exact canonical_readServed hg _ _

end Sys2Proof.Laws
end

