-- ==== Sys2Proof/Laws/Steps.lean ====
section
/-!
SUPPORT. How the accesses (A) and the steps of a meaning (M) run, as equations that rewrite: sequencing, reading and
changing the state, and what an instruction answers when its steps succeed, raise a cause, wait or meet poison.
-/

namespace Sys2Proof.Laws

open Sys2Proof Sys2Proof.Machine

/-! ## Sequencing -/

section
variable {ε α β : Type} (s : State)

@[simp] theorem run_pure (a : α) : (pure a : StateT State (Except ε) α) s = .ok (a, s) := rfl
@[simp] theorem run_get : (get : StateT State (Except ε) State) s = .ok (s, s) := rfl
@[simp] theorem run_set (t : State) : (set t : StateT State (Except ε) PUnit) s = .ok (⟨⟩, t) := rfl
@[simp] theorem run_modify (f : State → State) : (modify f : StateT State (Except ε) PUnit) s = .ok (⟨⟩, f s) := rfl
theorem run_bind (m : StateT State (Except ε) α) (f : α → StateT State (Except ε) β) :
    (m >>= f) s = match m s with
      | .ok (a, t) => f a t
      | .error e => .error e := by
  show (m s >>= fun r => f r.1 r.2) = _
  cases m s <;> rfl
theorem bind_ok {m : StateT State (Except ε) α} {s t : State} {a : α} (h : m s = .ok (a, t))
    (f : α → StateT State (Except ε) β) : (m >>= f) s = f a t := by rw [run_bind, h]
theorem bind_error {m : StateT State (Except ε) α} {s : State} {e : ε} (h : m s = .error e)
    (f : α → StateT State (Except ε) β) : (m >>= f) s = .error e := by rw [run_bind, h]

end

/-! ## Accesses inside an instruction -/

theorem access_ok {α : Type} {a : A α} {s t : State} {x : α} (h : a s = .ok (x, t)) (fv e) :
    M.access fv e a s = .ok (x, t) := by simp [M.access, h]
theorem access_fault {α : Type} {a : A α} {s : State} {c : BitVec 8} (h : a s = .error (.fault c)) (fv e) :
    M.access fv e a s = .error (.trap s (fv s c)) := by simp [M.access, h]
theorem access_wait {α : Type} {a : A α} {s t : State} (h : a s = .error (.wait t)) (fv e) :
    M.access fv e a s = .error (.stall t) := by simp [M.access, h]
theorem scalar_ok {α : Type} {a : A α} {s t : State} {x : α} (h : a s = .ok (x, t)) (va : Word) :
    M.scalar va a s = .ok (x, t) := access_ok h _ _
theorem scalar_fault {α : Type} {a : A α} {s : State} {c : BitVec 8} (h : a s = .error (.fault c)) (va : Word) :
    M.scalar va a s = .error (.trap s (s.cause c va 0#64 1#64)) := access_fault h _ _

/-! ## What an instruction answers -/

theorem settle_ok {m : M Unit} {s t : State} (h : m s = .ok ((), t)) : settle m s = .next t.clearReplies := by
  simp [settle, h]
theorem settle_trap {m : M Unit} {s t : State} {v : FaultVals} (h : m s = .error (.trap t v)) :
    settle m s = .next (t.clearReplies.raise v) := by simp [settle, h]
theorem settle_stall {m : M Unit} {s t : State} (h : m s = .error (.stall t)) : settle m s = .next t.hold := by
  simp [settle, h]

/-- A meaning written in steps always answers a next state. -/
theorem settle_next (m : M Unit) (s : State) : ∃ t, settle m s = .next t := by
  unfold settle
  split <;> exact ⟨_, rfl⟩

@[simp] theorem run_advance (s : State) : M.advance s = .ok ((), s.advance) := rfl
@[simp] theorem run_result (d : BitVec 5) (v : Word) (s : State) : M.result d v s = .ok ((), s.result d v) := rfl
@[simp] theorem run_illegal {α : Type} (i : Instr) (s : State) :
    (M.illegal i : M α) s = .error (.trap s (s.illegalVals (wordOf i))) := rfl
@[simp] theorem run_cause {α : Type} (c : BitVec 8) (a b r : Word) (s : State) :
    (M.cause c a b r : M α) s = .error (.trap s (s.cause c a b r)) := rfl
@[simp] theorem run_vcause {α : Type} (c : BitVec 8) (a b r : Word) (s : State) :
    (M.vcause c a b r : M α) s = .error (.trap s { s.cause c a b r with vec := true }) := rfl
@[simp] theorem run_stall {α : Type} (s : State) : (M.stall : M α) s = .error (.stall s) := rfl

end Sys2Proof.Laws
end

