-- ==== Sys2Proof/Laws/Access.lean ====
section
/-!
SUPPORT. What an access can do to memory's form: an access keeps a property of the state if every state it ends or waits
in has it; every access of a hart or engine keeps the canonical form. And what translation leaves alone.
-/

namespace Sys2Proof.Laws

open Sys2Proof Sys2Proof.Machine

/-! ## Keeping a property -/

/-- From a state with `P`, the access ends or waits in states with `P` only. -/
def Keeps {α : Type} (P : State → Prop) (a : A α) : Prop :=
  ∀ s, P s → (∀ x t, a s = .ok (x, t) → P t) ∧ (∀ t, a s = .error (.wait t) → P t)

section
variable {P : State → Prop} {α β : Type}

theorem keeps_pure (x : α) : Keeps P (pure x : A α) := by
  intro s h
  refine ⟨fun y t e => ?_, fun t e => ?_⟩
  · rw [run_pure] at e; cases e; exact h
  · rw [run_pure] at e; cases e

theorem keeps_get : Keeps P (get : A State) := by
  intro s h
  refine ⟨fun y t e => ?_, fun t e => ?_⟩
  · rw [run_get] at e; cases e; exact h
  · rw [run_get] at e; cases e

theorem keeps_modify {f : State → State} (hf : ∀ s, P s → P (f s)) : Keeps P (modify f : A PUnit) := by
  intro s h
  refine ⟨fun y t e => ?_, fun t e => ?_⟩
  · rw [run_modify] at e; cases e; exact hf s h
  · rw [run_modify] at e; cases e

theorem keeps_bind {a : A α} {f : α → A β} (ha : Keeps P a) (hf : ∀ x, Keeps P (f x)) : Keeps P (a >>= f) := by
  intro s h
  rw [run_bind]
  cases hr : a s with
  | error e =>
    refine ⟨fun y t e' => by simp at e', fun t e' => ?_⟩
    simp only [Except.error.injEq] at e'
    exact (ha s h).2 t (by rw [hr, e'])
  | ok r =>
    obtain ⟨x, t⟩ := r
    exact hf x t ((ha s h).1 x t hr)

/-- An access that begins by looking at the state. -/
theorem keeps_get_bind {f : State → A β} (hf : ∀ s, P s → (∀ x t, f s s = .ok (x, t) → P t) ∧ (∀ t, f s s = .error (.wait t) → P t)) :
    Keeps P ((get : A State) >>= f) := by
  intro s h
  rw [bind_ok (run_get s)]
  exact hf s h

theorem keeps_fault (c : BitVec 8) : Keeps P (A.fault c : A α) := by
  intro s h
  refine ⟨fun y t e => ?_, fun t e => ?_⟩ <;> simp [A.fault] at e

theorem keeps_wait : Keeps P (A.wait : A α) := by
  intro s h
  refine ⟨fun y t e => ?_, fun t e => ?_⟩
  · simp [A.wait] at e
  · simp only [A.wait, Except.error.injEq, AccStop.wait.injEq] at e; exact e ▸ h

theorem keeps_poison : Keeps P (A.poison : A α) := by
  intro s h
  refine ⟨fun y t e => ?_, fun t e => ?_⟩ <;> simp [A.poison] at e

theorem keeps_ite {c : Prop} [Decidable c] {a b : A α} (ha : Keeps P a) (hb : Keeps P b) : Keeps P (if c then a else b) := by
  split
  · exact ha
  · exact hb

/-- Setting a state that has the property, in a state that has it. -/
theorem set_keeps {t : State} (h : P t) (s : State) :
    (∀ x u, (set t : A PUnit) s = .ok (x, u) → P u) ∧ (∀ u, (set t : A PUnit) s = .error (.wait u) → P u) := by
  refine ⟨fun y u e => ?_, fun u e => ?_⟩
  · rw [run_set] at e; cases e; exact h
  · rw [run_set] at e; cases e

end

/-! ## Fetching a line, translation (R112 to R117, R323, R411) -/

/-- A request that leaves changes no memory. -/
theorem sendReq_mem (s : State) (uid : Nat) (r : FonakReq) : (s.sendReq uid r).mm = s.mm := by
  unfold State.sendReq State.sendOn
  dsimp only
  split <;> rfl

theorem canonical_sendReq {s : State} (h : s.canonical) (uid : Nat) (r : FonakReq) : (s.sendReq uid r).canonical :=
  canonical_of_eq (by rw [sendReq_mem]) (by rw [sendReq_mem]) h

theorem canonical_rdcFill {s : State} (h : s.canonical) (asid die ln : Nat) (v : LineVal) : (s.rdcFill asid die ln v).canonical := by
  unfold State.rdcFill
  dsimp only
  split
  · exact h
  · exact canonical_of_eq rfl rfl h

/-- A wait for a condition, which changes nothing. -/
theorem keeps_gate {c : State → Bool} : Keeps State.canonical (fun s => if c s then .ok ((), s) else .error (.wait s) : A Unit) := by
  intro s h
  dsimp only
  refine ⟨fun y t e => ?_, fun t e => ?_⟩ <;> split at e <;> cases e <;> exact h

theorem keeps_needWay (die ln : Nat) : Keeps State.canonical (needWay die ln) := keeps_gate

theorem keeps_needVictim (die asid line : Nat) : Keeps State.canonical (needVictim die asid line) := keeps_gate

theorem keeps_needRecall (asid ln : Nat) : Keeps State.canonical (needRecall asid ln) := by
  intro s h
  unfold needRecall
  dsimp only
  refine ⟨fun y t e => ?_, fun t e => ?_⟩ <;> split at e <;> cases e <;> exact h

theorem keeps_needRoom (key : StreamKey) (op : BitVec 6) : Keeps State.canonical (needRoom key op) := keeps_gate

theorem keeps_askRemote (who : Who) (r : FonakReq) : Keeps State.canonical (askRemote who r) := by
  intro s h
  unfold askRemote
  refine ⟨fun y t e => ?_, fun t e => ?_⟩
  · split at e <;> cases e
    exact h
  · split at e
    · cases e
    · simp only [Except.error.injEq, AccStop.wait.injEq] at e
      subst e
      split
      · exact h
      · exact canonical_sendReq h _ _

theorem keeps_fetchFrom (who : Who) (ln : Nat) (give : State → State × LineVal) (hg : ∀ t, t.canonical → (give t).1.canonical) :
    Keeps State.canonical (fetchFrom who ln give) := by
  unfold fetchFrom
  refine keeps_get_bind fun s h => ?_
  split
  · refine keeps_bind (P := State.canonical) (keeps_needWay _ _) (fun _ => ?_) s h
    refine keeps_bind (P := State.canonical) (fun u _ => ?_) fun _ => keeps_pure _
    exact set_keeps (hg _ (canonical_cross h _ _ _)) u
  · exact keeps_bind (keeps_askRemote _ _) (fun _ => keeps_pure _) s h

theorem keeps_fetchHome (who : Who) (space ln : Nat) : Keeps State.canonical (fetchHome who space ln) :=
  keeps_fetchFrom who ln _ fun _ ht => canonical_homeRead ht space ln

theorem keeps_fetchTable (who : Who) (ln : Nat) : Keeps State.canonical (fetchTable who ln) :=
  keeps_fetchFrom who ln _ fun _ ht => canonical_mscServe ht who.asid ln false

theorem keeps_throughRdc (who : Who) (ln : Nat) {fetch : A LineVal} (hf : Keeps State.canonical fetch) :
    Keeps State.canonical (throughRdc who ln fetch) := by
  unfold throughRdc
  refine keeps_bind keeps_get fun s => keeps_ite hf ?_
  split
  · exact keeps_pure _
  · refine keeps_bind hf fun v => keeps_bind (keeps_modify fun t ht => ?_) fun _ => keeps_pure _
    split
    · exact canonical_rdcFill ht _ _ _ _
    · exact ht

theorem keeps_fetchCached (who : Who) (space ln : Nat) : Keeps State.canonical (fetchCached who space ln) :=
  keeps_throughRdc who ln (keeps_fetchHome who space ln)

theorem keeps_readEntry (who : Who) (pa : Nat) : Keeps State.canonical (readEntry who pa) := by
  unfold readEntry
  refine keeps_bind keeps_get fun s => ?_
  dsimp only
  have hr : ∀ v : LineVal, Keeps State.canonical (if v.psn.getLsbD (bitsOf pa 5 2) = true then do
        A.poison
        pure (BitVec.ofNat 64 (getElt v.data 64 (bitsOf pa 3 4)))
      else pure (BitVec.ofNat 64 (getElt v.data 64 (bitsOf pa 3 4))) : A Word) := fun v =>
    keeps_ite (keeps_bind keeps_poison fun _ => keeps_pure _) (keeps_pure _)
  have hk := keeps_bind (keeps_throughRdc who (pa / 128) (keeps_fetchTable who (pa / 128))) hr
  exact keeps_ite (keeps_bind (keeps_fault _) fun _ => hk) hk

theorem keeps_walkFrom (who : Who) (va : Word) (acc : Access) : ∀ fuel level table,
    Keeps State.canonical (walkFrom who va acc fuel level table)
  | 0, _, _ => keeps_fault _
  | fuel + 1, level, table => by
    unfold walkFrom
    dsimp only
    refine keeps_bind (keeps_readEntry _ _) fun p => ?_
    split
    · exact keeps_fault _
    · split
      · exact keeps_fault _
      · split
        · split
          · exact keeps_fault _
          · exact keeps_pure _
        · exact keeps_walkFrom who va acc fuel _ _

theorem keeps_leafOf (who : Who) (va : Word) (acc : Access) : Keeps State.canonical (leafOf who va acc) := by
  unfold leafOf
  refine keeps_bind keeps_get fun s => ?_
  dsimp only
  split
  · exact keeps_pure _
  · split
    · exact keeps_fault _
    · exact keeps_bind (keeps_walkFrom _ _ _ _ _ _) fun _ =>
        keeps_bind (keeps_modify fun t ht => by exact canonical_of_eq rfl rfl ht) fun _ => keeps_pure _

theorem keeps_translate (who : Who) (va : Word) (acc : Access) : Keeps State.canonical (Machine.translate who va acc) := by
  unfold Machine.translate
  refine keeps_bind (keeps_leafOf _ _ _) fun _ => keeps_bind keeps_get fun s => ?_
  dsimp only
  split
  · exact keeps_fault _
  · split
    · exact keeps_fault _
    · split
      · exact keeps_fault _
      · exact keeps_pure _

theorem keeps_locate (who : Who) (va : Word) (acc : Access) : Keeps State.canonical (locate who va acc) := by
  unfold locate
  refine keeps_bind keeps_get fun s => ?_
  split
  · split
    · exact keeps_pure _
    · exact keeps_fault _
  · exact keeps_translate _ _ _

theorem canonical_setBank {s : State} (h : s.canonical) (b : Nat) (k : Bank) : (s.setBank b k).canonical :=
  canonical_of_eq rfl rfl h

theorem keeps_classify (who : Who) (va : Word) (align : Nat) (acc : Access) :
    Keeps State.canonical (classify who va align acc) := by
  unfold classify
  refine keeps_bind keeps_get fun s => ?_
  split
  · exact keeps_fault _
  · split
    · exact keeps_fault _
    · split
      · split
        · split
          · exact keeps_pure _
          · exact keeps_fault _
        · exact keeps_fault _
      · refine keeps_bind (keeps_locate _ _ _) fun _ => ?_
        dsimp only
        split
        · exact keeps_fault _
        · exact keeps_pure _

/-! ## Loads (R124 to R127, R209) -/

theorem keeps_readL2 (who : Who) (va pa : Nat) (leaf : Word) (rd : Nat) : Keeps State.canonical (readL2 who va pa leaf rd) := by
  unfold readL2
  refine keeps_bind keeps_get fun s => ?_
  split
  · exact keeps_bind (keeps_modify fun t ht => by exact canonical_of_eq rfl rfl ht) fun _ => keeps_pure _
  · refine keeps_bind (keeps_needVictim _ _ _) fun _ => keeps_bind (keeps_fetchCached _ _ _) fun v =>
      keeps_bind (keeps_modify fun t ht => ?_) fun _ => keeps_pure _
    split
    · exact canonical_fillL2 ht _ _ _ _ _ _ _
    · exact ht

theorem keeps_readCached (who : Who) (va pa : Nat) (leaf : Word) (rd : Nat) :
    Keeps State.canonical (readCached who va pa leaf rd) := by
  unfold readCached
  refine keeps_bind keeps_get fun s => ?_
  dsimp only
  split
  · exact keeps_bind (keeps_modify fun t ht => by exact canonical_of_eq rfl rfl ht) fun _ => keeps_pure _
  · refine keeps_bind (keeps_readL2 _ _ _ _ _) fun _ => keeps_bind (keeps_modify fun t ht => ?_) fun _ => keeps_pure _
    split
    · exact ht
    · exact ht

theorem keeps_bankLoad (who : Who) (pa size : Nat) : Keeps State.canonical (bankLoad who pa size) := by
  unfold bankLoad
  refine keeps_bind keeps_get fun s => ?_
  split
  · exact keeps_pure _
  · dsimp only
    split
    · exact keeps_fetchHome _ _ _
    · intro u hu
      refine ⟨fun y t e => ?_, fun t e => ?_⟩
      · cases e
      · simp only [Except.error.injEq, AccStop.wait.injEq] at e
        subst e
        split
        · exact hu
        · exact canonical_setBank hu _ _

theorem keeps_readLine (who : Who) (va size rd : Nat) (w : Window) : Keeps State.canonical (readLine who va size rd w) := by
  unfold readLine
  refine keeps_bind keeps_get fun s => ?_
  split
  · split
    · exact keeps_pure _
    · exact keeps_fault _
  · exact keeps_bind (keeps_readCached _ _ _ _ _) fun _ => keeps_bind keeps_get fun _ => keeps_pure _
  · exact keeps_fetchHome _ _ _
  · exact keeps_bankLoad _ _ _
  · split
    · exact keeps_fetchHome _ _ _
    · split
      · exact keeps_pure _
      · exact keeps_pure _

/-- A load in its window keeps the form. -/
theorem keeps_loadFrom (who : Who) (va : Word) (size rd : Nat) (w : Window) :
    Keeps State.canonical (loadFrom who va size rd w) := by
  unfold loadFrom
  refine keeps_bind keeps_get fun s => ?_
  split
  · exact keeps_wait
  · refine keeps_bind (keeps_readLine _ _ _ _ _) fun v => ?_
    dsimp only
    split
    · intro u _
      refine ⟨fun y t e => ?_, fun t e => ?_⟩ <;> cases e
    · exact keeps_pure _

/-- A load keeps the form. -/
theorem keeps_loadAt (who : Who) (va : Word) (size rd : Nat) : Keeps State.canonical (loadAt who va size rd) :=
  keeps_bind (keeps_classify _ _ _ _) fun _ => keeps_loadFrom _ _ _ _ _

/-! ## Queues (R50 to R57) -/

theorem canonical_writeSeen {s : State} (h : s.canonical) (space ln : Nat) (v : LineVal) (mask : BitVec 128) :
    (s.writeSeen space ln v mask).canonical := canonical_homeWrite (canonical_gather h _ _) _ _ _ _ _

theorem canonical_putQcb {s : State} (h : s.canonical) (q : Nat) (v : Line) : (s.putQcb q v).canonical :=
  canonical_of_eq rfl rfl (canonical_writeSeen h _ _ _ _)

theorem canonical_cacheQcb {s : State} (h : s.canonical) (die q : Nat) : (s.cacheQcb die q).canonical := by
  unfold State.cacheQcb
  split
  · exact h
  · exact canonical_of_eq (s := s.readServed 0 (s.qcbLine q)) rfl rfl (canonical_readServed h _ _)

theorem canonical_unmapQueue {s : State} (h : s.canonical) (q : Nat) : (s.unmapQueue q).canonical := by
  unfold State.unmapQueue
  split
  · exact h
  · exact canonical_of_eq rfl rfl (canonical_putQcb h _ _)

theorem canonical_installQueue {s : State} (h : s.canonical) (die n q : Nat) : (s.installQueue die n q).canonical := by
  have h1 := canonical_cacheQcb h die q
  unfold State.installQueue
  generalize s.cacheQcb die q = s0 at h1
  dsimp only
  refine canonical_putQcb ?_ _ _
  exact canonical_of_eq (s := s0) rfl rfl h1

theorem canonical_mapQueue {s : State} (h : s.canonical) (q : Nat) : (s.mapQueue q).canonical := by
  unfold State.mapQueue
  dsimp only
  split
  · exact h
  · split
    · exact canonical_installQueue h _ _ _
    · split
      · split
        · exact h
        · exact canonical_of_eq rfl rfl h
      · split
        · exact canonical_installQueue (canonical_unmapQueue h _) _ _ _
        · exact canonical_unmapQueue h _

theorem canonical_serveMapWait {s : State} (h : s.canonical) : s.serveMapWait.canonical := by
  unfold State.serveMapWait
  generalize s.fe.mapWait = l
  refine foldl_keeps State.canonical _ (fun t q ht => ?_) l s h
  split
  · refine canonical_mapQueue ?_ _
    exact canonical_of_eq (s := t) rfl rfl ht
  · exact ht

theorem canonical_notify {s : State} (h : s.canonical) (die n bytes : Nat) (v : Word) (w : Option Nat) :
    (s.notify die n bytes v w).canonical := by
  have hc : ∀ d, (s.countErr d).canonical := fun d => by
    unfold State.countErr
    split
    · exact canonical_of_eq rfl rfl h
    · exact h
  have hr : ∀ q x, (s.raiseWrite q x).canonical := fun q x => canonical_writeSeen h _ _ _ _
  have hp : ∀ (t : State) (u : Slot), t.canonical → (t.putSlot u).canonical := fun t u ht => canonical_of_eq rfl rfl ht
  unfold State.notify
  dsimp only
  split
  · exact hc _
  · split
    · exact hc _
    · split
      · exact h
      · split
        · split
          · exact hp _ _ (hr _ _)
          · split
            · exact canonical_mapQueue (hr _ _) _
            · split
              · exact hp _ _ (hr _ _)
              · exact hr _ _
        · split
          · exact canonical_mapQueue (hr _ _) _
          · split
            · exact hp _ _ (hr _ _)
            · exact hr _ _

theorem canonical_failPacket {s : State} (h : s.canonical) (q idx code : Nat) : (s.failPacket q idx code).canonical := by
  have hd : ∀ t : State, t.canonical → (t.dropFailed q).canonical := fun t ht => by
    unfold State.dropFailed
    split
    · split
      · exact canonical_serveMapWait (canonical_unmapQueue ht _)
      · exact ht
    · exact ht
  unfold State.failPacket
  dsimp only
  refine hd _ ?_
  split <;> split
  · exact canonical_of_eq rfl rfl h
  · exact canonical_of_eq rfl rfl (canonical_putQcb h _ _)
  · exact h
  · exact canonical_putQcb h _ _

/-! ## Stores (R119, R123 to R131, R209, R238) -/

theorem canonical_setTwinPtr {s : State} (h : s.canonical) (home asid set ptr : Nat) :
    (s.setTwinPtr home asid set ptr).canonical :=
  canonical_of_eq rfl rfl h

theorem canonical_checkOut {s : State} (h : s.canonical) (asid space die ln : Nat) :
    (s.checkOut asid space die ln).1.canonical := by
  unfold State.checkOut
  dsimp only
  split
  · exact canonical_of_eq rfl rfl (canonical_homeRead (canonical_cleanL2 h _) space ln)
  · exact canonical_of_eq rfl rfl
      (canonical_homeRead (canonical_cleanL2 (canonical_setTwinPtr (canonical_recallTwin h _ _) _ _ _ _) _) space ln)

theorem keeps_writeHome (who : Who) (space pa : Nat) (v : LineVal) (mask : BitVec 128) :
    Keeps State.canonical (writeHome who space pa v mask) := by
  unfold writeHome
  refine keeps_bind (keeps_needWay _ _) fun _ => keeps_get_bind fun s h => ?_
  dsimp only
  split
  · exact set_keeps (canonical_homeWrite (canonical_cross h _ _ _) _ _ _ _ _) s
  · refine keeps_bind (P := State.canonical) (keeps_needRoom _ _) (fun _ => ?_) s h
    intro u _
    exact set_keeps (canonical_sendReq h _ _) u

theorem keeps_bankStore (who : Who) (pa : Nat) (v : LineVal) (mask : BitVec 128) :
    Keeps State.canonical (bankStore who pa v mask) := by
  unfold bankStore
  refine keeps_get_bind fun s h => ?_
  by_cases c : (!s.isLocal pa || (s.bank (paBank pa)).free) = true
  · rw [if_pos c]; exact keeps_writeHome _ _ _ _ _ s h
  · rw [if_neg c]
    refine keeps_bind (P := State.canonical) (keeps_needWay _ _) (fun _ => ?_) s h
    intro u _
    exact set_keeps (canonical_setBank (canonical_cross h _ _ _) _ _) u

/-- Marking reads of a die as overtaken keeps the form. -/
theorem canonical_spoilReads {s : State} (h : s.canonical) (die : Nat) (p : Nat → Bool) : (s.spoilReads die p).canonical :=
  canonical_of_eq rfl rfl h

theorem canonical_rdcDrop {s : State} (h : s.canonical) (die ln : Nat) : (s.rdcDrop die ln).canonical := h

theorem canonical_mapL1 {s : State} (h : s.canonical) (f : List CoreLine → List CoreLine) : (s.mapL1 f).canonical := h

/-- A change of the entry of a line in an L2, where there is one, keeps the form. -/
theorem canonical_onL2 {s : State} (h : s.canonical) (o : Option L2Line) (f : L2Line → L2Line) :
    State.canonical (match o with | some e => s.putL2 (f e) | none => s) := by
  split
  · exact canonical_putL2 h _
  · exact h

theorem keeps_writeCached (who : Who) (va pa : Nat) (leaf : Word) (v : LineVal) (mask : BitVec 128) :
    Keeps State.canonical (writeCached who va pa leaf v mask) := by
  have hm : ∀ (die asid line core : Nat) (f : L2Line → L2Line), Keeps State.canonical (modify (fun t => match t.findL2 die asid line with
        | some e => (t.mapL1 (fun l => writeCore l die core asid line v mask)).putL2 (f e)
        | none => t) : A PUnit) := by
    intro die asid line core f
    refine keeps_modify fun t ht => ?_
    split
    · exact canonical_putL2 (canonical_mapL1 ht _) _
    · exact ht
  unfold writeCached
  refine keeps_bind keeps_get fun s => ?_
  dsimp only
  split
  · refine keeps_bind (keeps_needWay _ _) fun _ => keeps_bind (keeps_needRoom _ _) fun _ => keeps_modify fun t ht => ?_
    exact canonical_onL2 (canonical_spoilReads (canonical_rdcDrop (canonical_sendReq (canonical_mapL1 ht _) _ _) _ _) _ _) _ _
  · split
    · split
      · exact keeps_bind (keeps_needVictim _ _ _) fun _ => keeps_bind (keeps_fetchHome _ _ _) fun old =>
          keeps_bind (keeps_modify fun t ht => canonical_fillL2 ht _ _ _ _ _ _ _) fun _ => hm _ _ _ _ _
      · exact hm _ _ _ _ _
    · split
      · refine keeps_bind (keeps_needWay _ _) fun _ => keeps_bind (keeps_needVictim _ _ _) fun _ =>
          keeps_bind (keeps_needRecall _ _) fun _ => keeps_bind (keeps_modify fun t ht => ?_) fun _ => hm _ _ _ _ _
        have h1 := canonical_rdcDrop (canonical_cross (canonical_checkOut ht who.asid
          (spaceOf who.asid (BitVec.ofNat 64 va)) who.die (pa / 128)) who.die (paDie pa) (pa / 128)) who.die (pa / 128)
        refine canonical_onL2 ?_ _ _
        split
        · exact h1
        · exact canonical_fillL2 h1 _ _ _ _ _ _ _
      · exact hm _ _ _ _ _

theorem keeps_writeControl (who : Who) (pa value : Nat) : Keeps State.canonical (writeControl who pa value) := by
  unfold writeControl
  refine keeps_get_bind fun s h => ?_
  split
  · exact keeps_writeHome _ _ _ _ _ s h
  · split
    · exact set_keeps (canonical_notify h _ _ _ _ _) s
    · refine keeps_bind (P := State.canonical) (keeps_needWay _ _) (fun _ => keeps_bind (keeps_needRoom _ _) fun _ => ?_) s h
      intro u _
      exact set_keeps (canonical_sendReq h _ _) u

theorem keeps_map {α β : Type} {a : A α} {P : State → Prop} (f : α → β) (h : Keeps P a) : Keeps P (f <$> a) := by
  have : f <$> a = a >>= fun x => pure (f x) := (bind_pure_comp f a).symm
  rw [this]
  exact keeps_bind h fun _ => keeps_pure _

theorem keeps_locateStrip (who : Who) : ∀ l : List StripEntry, Keeps State.canonical (locateStrip who l)
  | [] => keeps_pure _
  | e :: es => by
    unfold locateStrip
    refine keeps_bind keeps_get fun s => ?_
    split
    · exact keeps_wait
    · split
      · exact keeps_bind (keeps_pure _) fun _ => keeps_bind (keeps_locateStrip who es) fun _ => keeps_pure _
      · exact keeps_bind (keeps_map _ (keeps_locate _ _ _)) fun _ => keeps_bind (keeps_locateStrip who es) fun _ => keeps_pure _

theorem keeps_performStrip (who : Who) : ∀ l : List (StripEntry × Option (Nat × Word)), Keeps State.canonical (performStrip who l)
  | [] => keeps_pure _
  | (e, at') :: es => by
    unfold performStrip
    dsimp only
    split
    · exact keeps_bind (keeps_modify fun t ht => by exact canonical_of_eq rfl rfl ht) fun _ => keeps_performStrip who es
    · exact keeps_bind (keeps_writeCached _ _ _ _ _ _) fun _ => keeps_performStrip who es

/-- The commit of a furlong keeps the form. -/
theorem keeps_commitFurlong : Keeps State.canonical commitFurlong := by
  unfold commitFurlong
  refine keeps_get_bind fun s h => ?_
  split
  · exact set_keeps (P := State.canonical) (by exact canonical_of_eq (s := s) rfl rfl h) s
  · refine keeps_bind (P := State.canonical) (keeps_locateStrip _ _) (fun l => keeps_get_bind fun t ht => ?_) s h
    have hk := keeps_performStrip s.who l t ht
    cases hp : performStrip s.who l t with
    | ok x =>
      obtain ⟨_, u⟩ := x
      exact set_keeps (P := State.canonical) (by exact canonical_of_eq (s := u) rfl rfl (hk.1 _ _ hp)) t
    | error e =>
      cases e with
      | wait u => exact keeps_wait t ht
      | fault c => exact keeps_fault c t ht
      | poison b => exact ⟨fun _ _ h => by simp at h, fun _ h => by simp at h⟩

/-- A store in its window keeps the form. -/
theorem keeps_storeLine (who : Who) (va : Word) (size value : Nat) (tag : Bool) (w : Window) :
    Keeps State.canonical (storeLine who va size value tag w) := by
  have hc : ∀ (b : Bool) (a : A Unit), Keeps State.canonical a →
      Keeps State.canonical (if b then commitFurlong >>= fun _ => a else a) := fun b a ha =>
    keeps_ite (keeps_bind keeps_commitFurlong fun _ => ha) ha
  unfold storeLine
  dsimp only
  refine keeps_bind keeps_get fun s => ?_
  split
  · exact keeps_wait
  · split
    · exact hc _ _ (keeps_writeControl _ _ _)
    · exact hc _ _ (keeps_writeHome _ _ _ _ _)
    · exact hc _ _ (keeps_bankStore _ _ _ _)
    · split
      · exact keeps_modify fun t ht => by exact canonical_of_eq (s := t) rfl rfl ht
      · exact hc _ _ (keeps_modify fun t ht => by exact canonical_of_eq (s := t) rfl rfl ht)
    · split
      · exact keeps_modify fun t ht => by exact canonical_of_eq (s := t) rfl rfl ht
      · exact hc _ _ (keeps_writeCached _ _ _ _ _ _)

/-- A store keeps the form. -/
theorem keeps_storeAt (who : Who) (va : Word) (size value : Nat) : Keeps State.canonical (storeAt who va size value) :=
  keeps_bind (keeps_classify _ _ _ _) fun _ => keeps_storeLine _ _ _ _ _ _

/-- An instruction fetch keeps the form. -/
theorem keeps_fetchWord (who : Who) (pc : Word) : Keeps State.canonical (fetchWord who pc) := by
  unfold fetchWord
  refine keeps_bind keeps_get fun s => ?_
  split
  · exact keeps_fault _
  · split
    · exact keeps_fault _
    · refine keeps_bind (keeps_locate _ _ _) fun _ => ?_
      dsimp only
      split
      · split
        · split
          · exact keeps_poison
          · exact keeps_bind (keeps_modify fun t ht => by exact canonical_of_eq rfl rfl ht) fun _ => keeps_pure _
        · refine keeps_bind (keeps_readL2 _ _ _ _ _) fun v => ?_
          split
          · exact keeps_poison
          · exact keeps_bind (keeps_modify fun t ht => by exact canonical_of_eq (s := t) rfl rfl ht) fun _ => keeps_pure _
      · exact keeps_fault _
      · refine keeps_bind (keeps_bankLoad _ _ _) fun v => ?_
        split
        · exact keeps_poison
        · exact keeps_pure _
      · refine keeps_bind (keeps_fetchHome _ _ _) fun v => ?_
        split
        · exact keeps_poison
        · exact keeps_pure _

end Sys2Proof.Laws
end

