-- ==== Sys2Proof/Laws/PerInstr.lean ====
section
/-!
SUPPORT. What holds of each instruction as syntax: it is a word of a hart, a µop of a bank or an event, never two of
these, and its encoding has the length of its kind (R181, R288).
-/

namespace Sys2Proof.Laws.Encoding

open Sys2Proof

/-- The number of bytes of an instruction's kind: a word has 4, a µop 2, an event none. -/
def size (i : Instr) : Nat := if (encodeWord i).isSome then 4 else if (encodeMicro i).isSome then 2 else 0

/-- No instruction is both a word and a µop, and its bytes are as many as its kind has. -/
def Statement (i : Instr) : Prop := (encodeWord i = none ∨ encodeMicro i = none) ∧ (encode i).length = size i

theorem add (d : BitVec 5) (a : BitVec 5) (b : BitVec 5) : Statement (.add d a b) := ⟨.inr rfl, rfl⟩
theorem sub (d : BitVec 5) (a : BitVec 5) (b : BitVec 5) : Statement (.sub d a b) := ⟨.inr rfl, rfl⟩
theorem and (d : BitVec 5) (a : BitVec 5) (b : BitVec 5) : Statement (.and d a b) := ⟨.inr rfl, rfl⟩
theorem or (d : BitVec 5) (a : BitVec 5) (b : BitVec 5) : Statement (.or d a b) := ⟨.inr rfl, rfl⟩
theorem xor (d : BitVec 5) (a : BitVec 5) (b : BitVec 5) : Statement (.xor d a b) := ⟨.inr rfl, rfl⟩
theorem sll (d : BitVec 5) (a : BitVec 5) (b : BitVec 5) : Statement (.sll d a b) := ⟨.inr rfl, rfl⟩
theorem srl (d : BitVec 5) (a : BitVec 5) (b : BitVec 5) : Statement (.srl d a b) := ⟨.inr rfl, rfl⟩
theorem sra (d : BitVec 5) (a : BitVec 5) (b : BitVec 5) : Statement (.sra d a b) := ⟨.inr rfl, rfl⟩
theorem slt (d : BitVec 5) (a : BitVec 5) (b : BitVec 5) : Statement (.slt d a b) := ⟨.inr rfl, rfl⟩
theorem sltu (d : BitVec 5) (a : BitVec 5) (b : BitVec 5) : Statement (.sltu d a b) := ⟨.inr rfl, rfl⟩
theorem min (d : BitVec 5) (a : BitVec 5) (b : BitVec 5) : Statement (.min d a b) := ⟨.inr rfl, rfl⟩
theorem max (d : BitVec 5) (a : BitVec 5) (b : BitVec 5) : Statement (.max d a b) := ⟨.inr rfl, rfl⟩
theorem minu (d : BitVec 5) (a : BitVec 5) (b : BitVec 5) : Statement (.minu d a b) := ⟨.inr rfl, rfl⟩
theorem maxu (d : BitVec 5) (a : BitVec 5) (b : BitVec 5) : Statement (.maxu d a b) := ⟨.inr rfl, rfl⟩
theorem clz (d : BitVec 5) (a : BitVec 5) : Statement (.clz d a) := ⟨.inr rfl, rfl⟩
theorem ctz (d : BitVec 5) (a : BitVec 5) : Statement (.ctz d a) := ⟨.inr rfl, rfl⟩
theorem popc (d : BitVec 5) (a : BitVec 5) : Statement (.popc d a) := ⟨.inr rfl, rfl⟩
theorem mul (d : BitVec 5) (a : BitVec 5) (b : BitVec 5) : Statement (.mul d a b) := ⟨.inr rfl, rfl⟩
theorem mulh (d : BitVec 5) (a : BitVec 5) (b : BitVec 5) : Statement (.mulh d a b) := ⟨.inr rfl, rfl⟩
theorem mulhu (d : BitVec 5) (a : BitVec 5) (b : BitVec 5) : Statement (.mulhu d a b) := ⟨.inr rfl, rfl⟩
theorem div (d : BitVec 5) (a : BitVec 5) (b : BitVec 5) : Statement (.div d a b) := ⟨.inr rfl, rfl⟩
theorem divu (d : BitVec 5) (a : BitVec 5) (b : BitVec 5) : Statement (.divu d a b) := ⟨.inr rfl, rfl⟩
theorem rem (d : BitVec 5) (a : BitVec 5) (b : BitVec 5) : Statement (.rem d a b) := ⟨.inr rfl, rfl⟩
theorem remu (d : BitVec 5) (a : BitVec 5) (b : BitVec 5) : Statement (.remu d a b) := ⟨.inr rfl, rfl⟩
theorem addi (d : BitVec 5) (a : BitVec 5) (i : BitVec 15) : Statement (.addi d a i) := ⟨.inr rfl, rfl⟩
theorem andi (d : BitVec 5) (a : BitVec 5) (i : BitVec 15) : Statement (.andi d a i) := ⟨.inr rfl, rfl⟩
theorem ori (d : BitVec 5) (a : BitVec 5) (i : BitVec 15) : Statement (.ori d a i) := ⟨.inr rfl, rfl⟩
theorem xori (d : BitVec 5) (a : BitVec 5) (i : BitVec 15) : Statement (.xori d a i) := ⟨.inr rfl, rfl⟩
theorem slti (d : BitVec 5) (a : BitVec 5) (i : BitVec 15) : Statement (.slti d a i) := ⟨.inr rfl, rfl⟩
theorem sltiu (d : BitVec 5) (a : BitVec 5) (i : BitVec 15) : Statement (.sltiu d a i) := ⟨.inr rfl, rfl⟩
theorem slli (d : BitVec 5) (a : BitVec 5) (s : BitVec 6) : Statement (.slli d a s) := ⟨.inr rfl, rfl⟩
theorem srli (d : BitVec 5) (a : BitVec 5) (s : BitVec 6) : Statement (.srli d a s) := ⟨.inr rfl, rfl⟩
theorem srai (d : BitVec 5) (a : BitVec 5) (s : BitVec 6) : Statement (.srai d a s) := ⟨.inr rfl, rfl⟩
theorem lui (d : BitVec 5) (i : BitVec 20) : Statement (.lui d i) := ⟨.inr rfl, rfl⟩
theorem auipc (d : BitVec 5) (i : BitVec 20) : Statement (.auipc d i) := ⟨.inr rfl, rfl⟩
theorem jal (d : BitVec 5) (i : BitVec 20) : Statement (.jal d i) := ⟨.inr rfl, rfl⟩
theorem jalr (d : BitVec 5) (a : BitVec 5) (i : BitVec 15) : Statement (.jalr d a i) := ⟨.inr rfl, rfl⟩
theorem beq (a : BitVec 5) (b : BitVec 5) (i : BitVec 15) : Statement (.beq a b i) := ⟨.inr rfl, rfl⟩
theorem bne (a : BitVec 5) (b : BitVec 5) (i : BitVec 15) : Statement (.bne a b i) := ⟨.inr rfl, rfl⟩
theorem blt (a : BitVec 5) (b : BitVec 5) (i : BitVec 15) : Statement (.blt a b i) := ⟨.inr rfl, rfl⟩
theorem bge (a : BitVec 5) (b : BitVec 5) (i : BitVec 15) : Statement (.bge a b i) := ⟨.inr rfl, rfl⟩
theorem bltu (a : BitVec 5) (b : BitVec 5) (i : BitVec 15) : Statement (.bltu a b i) := ⟨.inr rfl, rfl⟩
theorem bgeu (a : BitVec 5) (b : BitVec 5) (i : BitVec 15) : Statement (.bgeu a b i) := ⟨.inr rfl, rfl⟩
theorem lb (d : BitVec 5) (a : BitVec 5) (r : BitVec 2) (i : BitVec 13) : Statement (.lb d a r i) := ⟨.inr rfl, rfl⟩
theorem lh (d : BitVec 5) (a : BitVec 5) (r : BitVec 2) (i : BitVec 13) : Statement (.lh d a r i) := ⟨.inr rfl, rfl⟩
theorem lw (d : BitVec 5) (a : BitVec 5) (r : BitVec 2) (i : BitVec 13) : Statement (.lw d a r i) := ⟨.inr rfl, rfl⟩
theorem ld (d : BitVec 5) (a : BitVec 5) (r : BitVec 2) (i : BitVec 13) : Statement (.ld d a r i) := ⟨.inr rfl, rfl⟩
theorem lbu (d : BitVec 5) (a : BitVec 5) (r : BitVec 2) (i : BitVec 13) : Statement (.lbu d a r i) := ⟨.inr rfl, rfl⟩
theorem lhu (d : BitVec 5) (a : BitVec 5) (r : BitVec 2) (i : BitVec 13) : Statement (.lhu d a r i) := ⟨.inr rfl, rfl⟩
theorem lwu (d : BitVec 5) (a : BitVec 5) (r : BitVec 2) (i : BitVec 13) : Statement (.lwu d a r i) := ⟨.inr rfl, rfl⟩
theorem ldacq (d : BitVec 5) (a : BitVec 5) (r : BitVec 2) (o : BitVec 10) (s : BitVec 2) : Statement (.ldacq d a r o s) := ⟨.inr rfl, rfl⟩
theorem sb (b : BitVec 5) (a : BitVec 5) (i : BitVec 15) : Statement (.sb b a i) := ⟨.inr rfl, rfl⟩
theorem sh (b : BitVec 5) (a : BitVec 5) (i : BitVec 15) : Statement (.sh b a i) := ⟨.inr rfl, rfl⟩
theorem sw (b : BitVec 5) (a : BitVec 5) (i : BitVec 15) : Statement (.sw b a i) := ⟨.inr rfl, rfl⟩
theorem sd (b : BitVec 5) (a : BitVec 5) (i : BitVec 15) : Statement (.sd b a i) := ⟨.inr rfl, rfl⟩
theorem sdrel (b : BitVec 5) (a : BitVec 5) (o : BitVec 12) (s : BitVec 2) : Statement (.sdrel b a o s) := ⟨.inr rfl, rfl⟩
theorem ldref (d : BitVec 5) (a : BitVec 5) (r : BitVec 2) (o : BitVec 10) (q : BitVec 1) (s : BitVec 2) : Statement (.ldref d a r o q s) := ⟨.inr rfl, rfl⟩
theorem sdref (b : BitVec 5) (a : BitVec 5) (o : BitVec 12) : Statement (.sdref b a o) := ⟨.inr rfl, rfl⟩
theorem spub (b : BitVec 5) (a : BitVec 5) (o : BitVec 12) (s : BitVec 2) : Statement (.spub b a o s) := ⟨.inr rfl, rfl⟩
theorem rtag (d : BitVec 5) (a : BitVec 5) (i : BitVec 15) : Statement (.rtag d a i) := ⟨.inr rfl, rfl⟩
theorem objinit (s : BitVec 5) (a : BitVec 5) (i : BitVec 15) : Statement (.objinit s a i) := ⟨.inr rfl, rfl⟩
theorem amoadd (d : BitVec 5) (a : BitVec 5) (b : BitVec 5) (m : BitVec 1) (l : BitVec 1) (q : BitVec 1) (s : BitVec 2) : Statement (.amoadd d a b m l q s) := ⟨.inr rfl, rfl⟩
theorem amoswap (d : BitVec 5) (a : BitVec 5) (b : BitVec 5) (m : BitVec 1) (l : BitVec 1) (q : BitVec 1) (s : BitVec 2) : Statement (.amoswap d a b m l q s) := ⟨.inr rfl, rfl⟩
theorem amocas (d : BitVec 5) (a : BitVec 5) (b : BitVec 5) (m : BitVec 1) (l : BitVec 1) (q : BitVec 1) (s : BitVec 2) : Statement (.amocas d a b m l q s) := ⟨.inr rfl, rfl⟩
theorem amomin (d : BitVec 5) (a : BitVec 5) (b : BitVec 5) (m : BitVec 1) (l : BitVec 1) (q : BitVec 1) (s : BitVec 2) : Statement (.amomin d a b m l q s) := ⟨.inr rfl, rfl⟩
theorem amomax (d : BitVec 5) (a : BitVec 5) (b : BitVec 5) (m : BitVec 1) (l : BitVec 1) (q : BitVec 1) (s : BitVec 2) : Statement (.amomax d a b m l q s) := ⟨.inr rfl, rfl⟩
theorem amominu (d : BitVec 5) (a : BitVec 5) (b : BitVec 5) (m : BitVec 1) (l : BitVec 1) (q : BitVec 1) (s : BitVec 2) : Statement (.amominu d a b m l q s) := ⟨.inr rfl, rfl⟩
theorem amomaxu (d : BitVec 5) (a : BitVec 5) (b : BitVec 5) (m : BitVec 1) (l : BitVec 1) (q : BitVec 1) (s : BitVec 2) : Statement (.amomaxu d a b m l q s) := ⟨.inr rfl, rfl⟩
theorem amoand (d : BitVec 5) (a : BitVec 5) (b : BitVec 5) (m : BitVec 1) (l : BitVec 1) (q : BitVec 1) (s : BitVec 2) : Statement (.amoand d a b m l q s) := ⟨.inr rfl, rfl⟩
theorem amoor (d : BitVec 5) (a : BitVec 5) (b : BitVec 5) (m : BitVec 1) (l : BitVec 1) (q : BitVec 1) (s : BitVec 2) : Statement (.amoor d a b m l q s) := ⟨.inr rfl, rfl⟩
theorem amoxor (d : BitVec 5) (a : BitVec 5) (b : BitVec 5) (m : BitVec 1) (l : BitVec 1) (q : BitVec 1) (s : BitVec 2) : Statement (.amoxor d a b m l q s) := ⟨.inr rfl, rfl⟩
theorem alrb : Statement (.alrb) := ⟨.inr rfl, rfl⟩
theorem alre (l : BitVec 1) (q : BitVec 1) (s : BitVec 2) : Statement (.alre l q s) := ⟨.inr rfl, rfl⟩
theorem fence (k : BitVec 3) (s : BitVec 2) : Statement (.fence k s) := ⟨.inr rfl, rfl⟩
theorem vdrain : Statement (.vdrain) := ⟨.inr rfl, rfl⟩
theorem binit (n : BitVec 3) : Statement (.binit n) := ⟨.inr rfl, rfl⟩
theorem barr (d : BitVec 5) (n : BitVec 3) : Statement (.barr d n) := ⟨.inr rfl, rfl⟩
theorem bwait (a : BitVec 5) (n : BitVec 3) : Statement (.bwait a n) := ⟨.inr rfl, rfl⟩
theorem ljoin (d : BitVec 5) (a : BitVec 5) : Statement (.ljoin d a) := ⟨.inr rfl, rfl⟩
theorem lleave : Statement (.lleave) := ⟨.inr rfl, rfl⟩
theorem waitc (d : BitVec 5) (a : BitVec 5) (k : BitVec 4) : Statement (.waitc d a k) := ⟨.inr rfl, rfl⟩
theorem spalloc (d : BitVec 5) (a : BitVec 5) : Statement (.spalloc d a) := ⟨.inr rfl, rfl⟩
theorem spfree (a : BitVec 5) : Statement (.spfree a) := ⟨.inr rfl, rfl⟩
theorem ecall : Statement (.ecall) := ⟨.inr rfl, rfl⟩
theorem ebreak : Statement (.ebreak) := ⟨.inr rfl, rfl⟩
theorem eret : Statement (.eret) := ⟨.inr rfl, rfl⟩
theorem wfi : Statement (.wfi) := ⟨.inr rfl, rfl⟩
theorem yield : Statement (.yield) := ⟨.inr rfl, rfl⟩
theorem halt : Statement (.halt) := ⟨.inr rfl, rfl⟩
theorem csrr (d : BitVec 5) (c : BitVec 12) : Statement (.csrr d c) := ⟨.inr rfl, rfl⟩
theorem csrw (d : BitVec 5) (a : BitVec 5) (c : BitVec 12) : Statement (.csrw d a c) := ⟨.inr rfl, rfl⟩
theorem csrs (d : BitVec 5) (a : BitVec 5) (c : BitVec 12) : Statement (.csrs d a c) := ⟨.inr rfl, rfl⟩
theorem csrc (d : BitVec 5) (a : BitVec 5) (c : BitVec 12) : Statement (.csrc d a c) := ⟨.inr rfl, rfl⟩
theorem vsetl (d : BitVec 5) (a : BitVec 5) (b : BitVec 5) : Statement (.vsetl d a b) := ⟨.inr rfl, rfl⟩
theorem vdecl (d : BitVec 5) (a : BitVec 5) : Statement (.vdecl d a) := ⟨.inr rfl, rfl⟩
theorem vmode (m : BitVec 2) (d : BitVec 5) (a : BitVec 5) : Statement (.vmode m d a) := ⟨.inr rfl, rfl⟩
theorem ixset (n : BitVec 4) (a : BitVec 5) (d : BitVec 5) : Statement (.ixset n a d) := ⟨.inr rfl, rfl⟩
theorem ixbnd (n : BitVec 4) (a : BitVec 5) (d : BitVec 5) : Statement (.ixbnd n a d) := ⟨.inr rfl, rfl⟩
theorem ixstep (n : BitVec 4) (a : BitVec 5) (d : BitVec 5) : Statement (.ixstep n a d) := ⟨.inr rfl, rfl⟩
theorem ixlane (n : BitVec 4) (a : BitVec 5) (d : BitVec 5) : Statement (.ixlane n a d) := ⟨.inr rfl, rfl⟩
theorem vmvx (m : BitVec 2) (d : BitVec 5) (v : BitVec 6) (b : BitVec 5) : Statement (.vmvx m d v b) := ⟨.inr rfl, rfl⟩
theorem vmvv (m : BitVec 2) (d : BitVec 6) (a : BitVec 6) : Statement (.vmvv m d a) := ⟨.inr rfl, rfl⟩
theorem vadd (m : BitVec 2) (d : BitVec 6) (a : BitVec 6) (b : BitVec 6) : Statement (.vadd m d a b) := ⟨.inr rfl, rfl⟩
theorem vsub (m : BitVec 2) (d : BitVec 6) (a : BitVec 6) (b : BitVec 6) : Statement (.vsub m d a b) := ⟨.inr rfl, rfl⟩
theorem vmul (m : BitVec 2) (d : BitVec 6) (a : BitVec 6) (b : BitVec 6) : Statement (.vmul m d a b) := ⟨.inr rfl, rfl⟩
theorem vmac (m : BitVec 2) (d : BitVec 6) (a : BitVec 6) (b : BitVec 6) : Statement (.vmac m d a b) := ⟨.inr rfl, rfl⟩
theorem vnmac (m : BitVec 2) (d : BitVec 6) (a : BitVec 6) (b : BitVec 6) : Statement (.vnmac m d a b) := ⟨.inr rfl, rfl⟩
theorem vmin (m : BitVec 2) (d : BitVec 6) (a : BitVec 6) (b : BitVec 6) : Statement (.vmin m d a b) := ⟨.inr rfl, rfl⟩
theorem vmax (m : BitVec 2) (d : BitVec 6) (a : BitVec 6) (b : BitVec 6) : Statement (.vmax m d a b) := ⟨.inr rfl, rfl⟩
theorem vabs (m : BitVec 2) (d : BitVec 6) (a : BitVec 6) : Statement (.vabs m d a) := ⟨.inr rfl, rfl⟩
theorem vneg (m : BitVec 2) (d : BitVec 6) (a : BitVec 6) : Statement (.vneg m d a) := ⟨.inr rfl, rfl⟩
theorem vand (m : BitVec 2) (d : BitVec 6) (a : BitVec 6) (b : BitVec 6) : Statement (.vand m d a b) := ⟨.inr rfl, rfl⟩
theorem vor (m : BitVec 2) (d : BitVec 6) (a : BitVec 6) (b : BitVec 6) : Statement (.vor m d a b) := ⟨.inr rfl, rfl⟩
theorem vxor (m : BitVec 2) (d : BitVec 6) (a : BitVec 6) (b : BitVec 6) : Statement (.vxor m d a b) := ⟨.inr rfl, rfl⟩
theorem vsll (m : BitVec 2) (d : BitVec 6) (a : BitVec 6) (b : BitVec 6) : Statement (.vsll m d a b) := ⟨.inr rfl, rfl⟩
theorem vsrl (m : BitVec 2) (d : BitVec 6) (a : BitVec 6) (b : BitVec 6) : Statement (.vsrl m d a b) := ⟨.inr rfl, rfl⟩
theorem vsra (m : BitVec 2) (d : BitVec 6) (a : BitVec 6) (b : BitVec 6) : Statement (.vsra m d a b) := ⟨.inr rfl, rfl⟩
theorem vcmpeq (m : BitVec 2) (d : BitVec 6) (a : BitVec 6) (b : BitVec 6) : Statement (.vcmpeq m d a b) := ⟨.inr rfl, rfl⟩
theorem vcmpne (m : BitVec 2) (d : BitVec 6) (a : BitVec 6) (b : BitVec 6) : Statement (.vcmpne m d a b) := ⟨.inr rfl, rfl⟩
theorem vcmplt (m : BitVec 2) (d : BitVec 6) (a : BitVec 6) (b : BitVec 6) : Statement (.vcmplt m d a b) := ⟨.inr rfl, rfl⟩
theorem vcmple (m : BitVec 2) (d : BitVec 6) (a : BitVec 6) (b : BitVec 6) : Statement (.vcmple m d a b) := ⟨.inr rfl, rfl⟩
theorem vmerge (m : BitVec 2) (d : BitVec 6) (a : BitVec 6) (b : BitVec 6) : Statement (.vmerge m d a b) := ⟨.inr rfl, rfl⟩
theorem vdiv (m : BitVec 2) (d : BitVec 6) (a : BitVec 6) (b : BitVec 6) : Statement (.vdiv m d a b) := ⟨.inr rfl, rfl⟩
theorem vsqrt (m : BitVec 2) (d : BitVec 6) (a : BitVec 6) : Statement (.vsqrt m d a) := ⟨.inr rfl, rfl⟩
theorem vrcp (m : BitVec 2) (d : BitVec 6) (a : BitVec 6) : Statement (.vrcp m d a) := ⟨.inr rfl, rfl⟩
theorem vrsq (m : BitVec 2) (d : BitVec 6) (a : BitVec 6) : Statement (.vrsq m d a) := ⟨.inr rfl, rfl⟩
theorem vexp2 (m : BitVec 2) (d : BitVec 6) (a : BitVec 6) : Statement (.vexp2 m d a) := ⟨.inr rfl, rfl⟩
theorem vlog2 (m : BitVec 2) (d : BitVec 6) (a : BitVec 6) : Statement (.vlog2 m d a) := ⟨.inr rfl, rfl⟩
theorem vclass (m : BitVec 2) (d : BitVec 6) (a : BitVec 6) : Statement (.vclass m d a) := ⟨.inr rfl, rfl⟩
theorem vconj (m : BitVec 2) (d : BitVec 6) (a : BitVec 6) : Statement (.vconj m d a) := ⟨.inr rfl, rfl⟩
theorem vcvt (m : BitVec 2) (d : BitVec 6) (a : BitVec 6) (t : BitVec 4) : Statement (.vcvt m d a t) := ⟨.inr rfl, rfl⟩
theorem vqnt (m : BitVec 2) (d : BitVec 6) (a : BitVec 6) (b : BitVec 6) : Statement (.vqnt m d a b) := ⟨.inr rfl, rfl⟩
theorem vdqnt (m : BitVec 2) (d : BitVec 6) (a : BitVec 6) (b : BitVec 6) : Statement (.vdqnt m d a b) := ⟨.inr rfl, rfl⟩
theorem vqi8 (m : BitVec 2) (d : BitVec 6) (a : BitVec 6) (b : BitVec 6) : Statement (.vqi8 m d a b) := ⟨.inr rfl, rfl⟩
theorem vshrr (m : BitVec 2) (d : BitVec 6) (a : BitVec 6) (b : BitVec 6) : Statement (.vshrr m d a b) := ⟨.inr rfl, rfl⟩
theorem vredsum (m : BitVec 2) (d : BitVec 6) (a : BitVec 6) : Statement (.vredsum m d a) := ⟨.inr rfl, rfl⟩
theorem vredmax (m : BitVec 2) (d : BitVec 6) (a : BitVec 6) : Statement (.vredmax m d a) := ⟨.inr rfl, rfl⟩
theorem vredmin (m : BitVec 2) (d : BitVec 6) (a : BitVec 6) : Statement (.vredmin m d a) := ⟨.inr rfl, rfl⟩
theorem vredand (m : BitVec 2) (d : BitVec 6) (a : BitVec 6) : Statement (.vredand m d a) := ⟨.inr rfl, rfl⟩
theorem vredor (m : BitVec 2) (d : BitVec 6) (a : BitVec 6) : Statement (.vredor m d a) := ⟨.inr rfl, rfl⟩
theorem vscansum (m : BitVec 2) (d : BitVec 6) (a : BitVec 6) : Statement (.vscansum m d a) := ⟨.inr rfl, rfl⟩
theorem vslideup (m : BitVec 2) (d : BitVec 6) (a : BitVec 6) (b : BitVec 5) : Statement (.vslideup m d a b) := ⟨.inr rfl, rfl⟩
theorem vslidedn (m : BitVec 2) (d : BitVec 6) (a : BitVec 6) (b : BitVec 5) : Statement (.vslidedn m d a b) := ⟨.inr rfl, rfl⟩
theorem vgathr (m : BitVec 2) (d : BitVec 6) (a : BitVec 6) (b : BitVec 6) : Statement (.vgathr m d a b) := ⟨.inr rfl, rfl⟩
theorem vcompress (m : BitVec 2) (d : BitVec 6) (a : BitVec 6) : Statement (.vcompress m d a) := ⟨.inr rfl, rfl⟩
theorem vexpand (m : BitVec 2) (d : BitVec 6) (a : BitVec 6) : Statement (.vexpand m d a) := ⟨.inr rfl, rfl⟩
theorem vbcast (m : BitVec 2) (d : BitVec 6) (a : BitVec 5) : Statement (.vbcast m d a) := ⟨.inr rfl, rfl⟩
theorem viota (m : BitVec 2) (d : BitVec 6) : Statement (.viota m d) := ⟨.inr rfl, rfl⟩
theorem mand (m : BitVec 2) (d : BitVec 6) (a : BitVec 6) (b : BitVec 6) : Statement (.mand m d a b) := ⟨.inr rfl, rfl⟩
theorem mor (m : BitVec 2) (d : BitVec 6) (a : BitVec 6) (b : BitVec 6) : Statement (.mor m d a b) := ⟨.inr rfl, rfl⟩
theorem mxor (m : BitVec 2) (d : BitVec 6) (a : BitVec 6) (b : BitVec 6) : Statement (.mxor m d a b) := ⟨.inr rfl, rfl⟩
theorem mnot (m : BitVec 2) (d : BitVec 6) (a : BitVec 6) : Statement (.mnot m d a) := ⟨.inr rfl, rfl⟩
theorem mpop (m : BitVec 2) (d : BitVec 5) (a : BitVec 6) : Statement (.mpop m d a) := ⟨.inr rfl, rfl⟩
theorem mfirst (m : BitVec 2) (d : BitVec 5) (a : BitVec 6) : Statement (.mfirst m d a) := ⟨.inr rfl, rfl⟩
theorem msetvl (m : BitVec 2) (d : BitVec 5) (a : BitVec 6) : Statement (.msetvl m d a) := ⟨.inr rfl, rfl⟩
theorem vld (m : BitVec 2) (d : BitVec 6) (a : BitVec 5) (r : BitVec 2) : Statement (.vld m d a r) := ⟨.inr rfl, rfl⟩
theorem vlds (m : BitVec 2) (d : BitVec 6) (a : BitVec 5) (b : BitVec 5) (r : BitVec 2) : Statement (.vlds m d a b r) := ⟨.inr rfl, rfl⟩
theorem vldg (m : BitVec 2) (d : BitVec 6) (a : BitVec 5) (i : BitVec 6) (r : BitVec 2) : Statement (.vldg m d a i r) := ⟨.inr rfl, rfl⟩
theorem vldseg (m : BitVec 2) (d : BitVec 6) (a : BitVec 5) (n : BitVec 3) (r : BitVec 2) : Statement (.vldseg m d a n r) := ⟨.inr rfl, rfl⟩
theorem vst (m : BitVec 2) (d : BitVec 6) (a : BitVec 5) : Statement (.vst m d a) := ⟨.inr rfl, rfl⟩
theorem vsts (m : BitVec 2) (d : BitVec 6) (a : BitVec 5) (b : BitVec 5) : Statement (.vsts m d a b) := ⟨.inr rfl, rfl⟩
theorem vstsc (m : BitVec 2) (d : BitVec 6) (a : BitVec 5) (i : BitVec 6) : Statement (.vstsc m d a i) := ⟨.inr rfl, rfl⟩
theorem vstseg (m : BitVec 2) (d : BitVec 6) (a : BitVec 5) (n : BitVec 3) : Statement (.vstseg m d a n) := ⟨.inr rfl, rfl⟩
theorem mmode (d : BitVec 5) (a : BitVec 5) : Statement (.mmode d a) := ⟨.inr rfl, rfl⟩
theorem opa (m : BitVec 2) (y : BitVec 1) (x : BitVec 1) (n : BitVec 3) (a : BitVec 6) (b : BitVec 6) : Statement (.opa m y x n a b) := ⟨.inr rfl, rfl⟩
theorem azero (n : BitVec 3) : Statement (.azero n) := ⟨.inr rfl, rfl⟩
theorem acld (n : BitVec 3) (a : BitVec 5) (b : BitVec 5) : Statement (.acld n a b) := ⟨.inr rfl, rfl⟩
theorem acrd (m : BitVec 2) (n : BitVec 3) (d : BitVec 6) (c : BitVec 1) (b : BitVec 5) : Statement (.acrd m n d c b) := ⟨.inr rfl, rfl⟩
theorem acst (m : BitVec 2) (n : BitVec 3) (a : BitVec 5) (c : BitVec 5) : Statement (.acst m n a c) := ⟨.inr rfl, rfl⟩
theorem mexit : Statement (.mexit) := ⟨.inr rfl, rfl⟩
theorem cbld (k : BitVec 4) (m : BitVec 3) (p : BitVec 1) (a : BitVec 5) : Statement (.cbld k m p a) := ⟨.inr rfl, rfl⟩
theorem tbld (m : BitVec 2) (f : BitVec 1) (d : BitVec 5) (v : BitVec 6) (c : BitVec 5) : Statement (.tbld m f d v c) := ⟨.inr rfl, rfl⟩
theorem lka (k : BitVec 4) (m : BitVec 3) (a : BitVec 5) : Statement (.lka k m a) := ⟨.inr rfl, rfl⟩
theorem nbset (d : BitVec 5) (m : BitVec 3) (a : BitVec 5) : Statement (.nbset d m a) := ⟨.inr rfl, rfl⟩
theorem nbld (k : BitVec 4) (m : BitVec 3) (a : BitVec 5) : Statement (.nbld k m a) := ⟨.inr rfl, rfl⟩
theorem nbrun (k : BitVec 4) (m : BitVec 3) (a : BitVec 5) : Statement (.nbrun k m a) := ⟨.inr rfl, rfl⟩
theorem nbstat (d : BitVec 5) (m : BitVec 3) (c : BitVec 1) : Statement (.nbstat d m c) := ⟨.inr rfl, rfl⟩
theorem nbdrain (s : BitVec 1) (c : BitVec 5) (m : BitVec 3) (a : BitVec 5) : Statement (.nbdrain s c m a) := ⟨.inr rfl, rfl⟩
theorem tcopy (k : BitVec 4) (s : BitVec 5) : Statement (.tcopy k s) := ⟨.inr rfl, rfl⟩
theorem tstat (d : BitVec 5) (s : BitVec 2) (c : BitVec 1) : Statement (.tstat d s c) := ⟨.inr rfl, rfl⟩
theorem poolMarker (n : BitVec 25) : Statement (.poolMarker n) := ⟨.inr rfl, rfl⟩
theorem rend : Statement (.rend) := ⟨.inl rfl, rfl⟩
theorem ract (n : BitVec 2) (i : BitVec 1) : Statement (.ract n i) := ⟨.inl rfl, rfl⟩
theorem radd (n : BitVec 2) (i : BitVec 1) (w : BitVec 2) : Statement (.radd n i w) := ⟨.inl rfl, rfl⟩
theorem rshadd (n : BitVec 2) (i : BitVec 1) (w : BitVec 2) (s : BitVec 4) (g : BitVec 1) : Statement (.rshadd n i w s g) := ⟨.inl rfl, rfl⟩
theorem rcopy (n : BitVec 2) (i : BitVec 1) : Statement (.rcopy n i) := ⟨.inl rfl, rfl⟩
theorem rclr (n : BitVec 2) (i : BitVec 1) : Statement (.rclr n i) := ⟨.inl rfl, rfl⟩
theorem racc (n : BitVec 2) (i : BitVec 1) (w : BitVec 2) : Statement (.racc n i w) := ⟨.inl rfl, rfl⟩
theorem rlka (n : BitVec 2) (i : BitVec 1) : Statement (.rlka n i) := ⟨.inl rfl, rfl⟩
theorem rbr (t : BitVec 6) : Statement (.rbr t) := ⟨.inl rfl, rfl⟩
theorem rloop (c : BitVec 1) (t : BitVec 6) : Statement (.rloop c t) := ⟨.inl rfl, rfl⟩
theorem rsync : Statement (.rsync) := ⟨.inl rfl, rfl⟩
theorem powerGood (img : BootImage) : Statement (.powerGood img) := ⟨.inl rfl, rfl⟩
theorem stackManagersReady (img : BootImage) : Statement (.stackManagersReady img) := ⟨.inl rfl, rfl⟩
theorem ordinaryRequestDataMoved (bank : Nat) : Statement (.ordinaryRequestDataMoved bank) := ⟨.inl rfl, rfl⟩
theorem notifyWrite (die slot bytes : Nat) (value : Word) (writer : Option Nat) : Statement (.notifyWrite die slot bytes value writer) := ⟨.inl rfl, rfl⟩
theorem queueMap (die qid : Nat) : Statement (.queueMap die qid) := ⟨.inl rfl, rfl⟩
theorem queueIdleTimeout (die slot : Nat) : Statement (.queueIdleTimeout die slot) := ⟨.inl rfl, rfl⟩
theorem packetEnterWindow (die slot : Nat) : Statement (.packetEnterWindow die slot) := ⟨.inl rfl, rfl⟩
theorem packetLaunch (die slot : Nat) : Statement (.packetLaunch die slot) := ⟨.inl rfl, rfl⟩
theorem packetComplete (die slot idx : Nat) : Statement (.packetComplete die slot idx) := ⟨.inl rfl, rfl⟩
theorem dispatch (die : Nat) : Statement (.dispatch die) := ⟨.inl rfl, rfl⟩
theorem priorityPreemptTimeout (who : WaitingHart) : Statement (.priorityPreemptTimeout who) := ⟨.inl rfl, rfl⟩
theorem hartPreempt (uid : Nat) : Statement (.hartPreempt uid) := ⟨.inl rfl, rfl⟩
theorem hartPromotion (uid : Nat) : Statement (.hartPromotion uid) := ⟨.inl rfl, rfl⟩
theorem vrfBankDrowsy (die core bank : Nat) : Statement (.vrfBankDrowsy die core bank) := ⟨.inl rfl, rfl⟩
theorem vrfRefreshStep (die core bank : Nat) : Statement (.vrfRefreshStep die core bank) := ⟨.inl rfl, rfl⟩
theorem wfiTimeout (uid : Nat) : Statement (.wfiTimeout uid) := ⟨.inl rfl, rfl⟩
theorem kernelWatchdogExpiry (uid : Nat) : Statement (.kernelWatchdogExpiry uid) := ⟨.inl rfl, rfl⟩
theorem watchdogGraceExpiry (uid : Nat) : Statement (.watchdogGraceExpiry uid) := ⟨.inl rfl, rfl⟩
theorem trapEntry (uid : Nat) (vals : FaultVals) : Statement (.trapEntry uid vals) := ⟨.inl rfl, rfl⟩
theorem pageFaultService (uid : Nat) (entries : List (Nat × Word)) (backingOk : Bool) : Statement (.pageFaultService uid entries backingOk) := ⟨.inl rfl, rfl⟩
theorem furlongCommit (uid : Nat) : Statement (.furlongCommit uid) := ⟨.inl rfl, rfl⟩
theorem furlongRewind (uid : Nat) : Statement (.furlongRewind uid) := ⟨.inl rfl, rfl⟩
theorem jobEndByError (asid uid : Nat) : Statement (.jobEndByError asid uid) := ⟨.inl rfl, rfl⟩
theorem memoryFrontRequest (die asid : Nat) (va : Word) (acc : Access) : Statement (.memoryFrontRequest die asid va acc) := ⟨.inl rfl, rfl⟩
theorem bloomSliceClear (stack slice : Nat) : Statement (.bloomSliceClear stack slice) := ⟨.inl rfl, rfl⟩
theorem atomicAtHome (pa : Nat) (op : BitVec 4) (operand expected : Word) (memSide : Bool) : Statement (.atomicAtHome pa op operand expected memSide) := ⟨.inl rfl, rfl⟩
theorem regionAtHome (uid : Nat) : Statement (.regionAtHome uid) := ⟨.inl rfl, rfl⟩
theorem walkStart (id : Nat) : Statement (.walkStart id) := ⟨.inl rfl, rfl⟩
theorem walkObjectVisit (id : Nat) : Statement (.walkObjectVisit id) := ⟨.inl rfl, rfl⟩
theorem walkComplete (id : Nat) : Statement (.walkComplete id) := ⟨.inl rfl, rfl⟩
theorem bankCommandStart (bank : Nat) : Statement (.bankCommandStart bank) := ⟨.inl rfl, rfl⟩
theorem bankCommandComplete (cmd : Nat) : Statement (.bankCommandComplete cmd) := ⟨.inl rfl, rfl⟩
theorem reductionDrain (cmd : Nat) : Statement (.reductionDrain cmd) := ⟨.inl rfl, rfl⟩
theorem rowOperationEnd (bank : Nat) : Statement (.rowOperationEnd bank) := ⟨.inl rfl, rfl⟩
theorem bankOrdinaryRequest (bank : Nat) (req : OrdReq) : Statement (.bankOrdinaryRequest bank req) := ⟨.inl rfl, rfl⟩
theorem suspensionWindowEnd (bank : Nat) : Statement (.suspensionWindowEnd bank) := ⟨.inl rfl, rfl⟩
theorem arbitrationWindowBoundary (stack : Nat) : Statement (.arbitrationWindowBoundary stack) := ⟨.inl rfl, rfl⟩
theorem powerBudgetExceeded (who : Consumer) : Statement (.powerBudgetExceeded who) := ⟨.inl rfl, rfl⟩
theorem matrixOperation (uid : Nat) : Statement (.matrixOperation uid) := ⟨.inl rfl, rfl⟩
theorem tcopyRow (id : Nat) : Statement (.tcopyRow id) := ⟨.inl rfl, rfl⟩
theorem tcopyComplete (id : Nat) : Statement (.tcopyComplete id) := ⟨.inl rfl, rfl⟩
theorem tcopyStop (id : Nat) (cause : BitVec 8) (va : Word) : Statement (.tcopyStop id cause va) := ⟨.inl rfl, rfl⟩
theorem errorBankEvent (bankId : BitVec 32) (ev : ErrEvent) : Statement (.errorBankEvent bankId ev) := ⟨.inl rfl, rfl⟩
theorem errorBankReadAndClear (bankId : BitVec 32) (act : BitVec 16) : Statement (.errorBankReadAndClear bankId act) := ⟨.inl rfl, rfl⟩
theorem errorCountWindowEnd (bankId : BitVec 32) : Statement (.errorCountWindowEnd bankId) := ⟨.inl rfl, rfl⟩
theorem completionTimeout (key : StreamKey) (eseq : BitVec 20) : Statement (.completionTimeout key eseq) := ⟨.inl rfl, rfl⟩
theorem postedWriteTimeout (key : StreamKey) (eseq : BitVec 20) : Statement (.postedWriteTimeout key eseq) := ⟨.inl rfl, rfl⟩
theorem pcieAtomicopCompletion (uid : Nat) (ok : Bool) (old : Word) : Statement (.pcieAtomicopCompletion uid ok old) := ⟨.inl rfl, rfl⟩
theorem repairCommit (idx : Nat) : Statement (.repairCommit idx) := ⟨.inl rfl, rfl⟩
theorem coreReplace (die core : Nat) : Statement (.coreReplace die core) := ⟨.inl rfl, rfl⟩
theorem rowSpareCopy (bank row : Nat) : Statement (.rowSpareCopy bank row) := ⟨.inl rfl, rfl⟩
theorem channelCopy (part : Part) (target : Nat) : Statement (.channelCopy part target) := ⟨.inl rfl, rfl⟩
theorem cacheRowSpare (stack row : Nat) : Statement (.cacheRowSpare stack row) := ⟨.inl rfl, rfl⟩
theorem scrubRead (granule : Nat) (found : ScrubFound) : Statement (.scrubRead granule found) := ⟨.inl rfl, rfl⟩
theorem sramRailChange (die : Nat) (below : Bool) : Statement (.sramRailChange die below) := ⟨.inl rfl, rfl⟩
theorem flitReceive (m : ModuleId) (flit : Flit) : Statement (.flitReceive m flit) := ⟨.inl rfl, rfl⟩
theorem nulFlitTimer (m : ModuleId) : Statement (.nulFlitTimer m) := ⟨.inl rfl, rfl⟩
theorem laneLockLoss (m : ModuleId) : Statement (.laneLockLoss m) := ⟨.inl rfl, rfl⟩
theorem moduleRetrainEnd (m : ModuleId) (test : LaneTest) : Statement (.moduleRetrainEnd m test) := ⟨.inl rfl, rfl⟩
theorem fonakRead (req : FonakReq) : Statement (.fonakRead req) := ⟨.inl rfl, rfl⟩
theorem fonakPostedWrite (req : FonakReq) : Statement (.fonakPostedWrite req) := ⟨.inl rfl, rfl⟩
theorem fonakAtomic (req : FonakReq) : Statement (.fonakAtomic req) := ⟨.inl rfl, rfl⟩
theorem fonakRegion (req : FonakReq) : Statement (.fonakRegion req) := ⟨.inl rfl, rfl⟩
theorem fonakFenceMarker (req : FonakReq) : Statement (.fonakFenceMarker req) := ⟨.inl rfl, rfl⟩
theorem fonakInterrupt (req : FonakReq) : Statement (.fonakInterrupt req) := ⟨.inl rfl, rfl⟩
theorem fonakCheckout (req : FonakReq) : Statement (.fonakCheckout req) := ⟨.inl rfl, rfl⟩
theorem fonakCheckIn (req : FonakReq) : Statement (.fonakCheckIn req) := ⟨.inl rfl, rfl⟩
theorem fonakRecall (req : FonakReq) : Statement (.fonakRecall req) := ⟨.inl rfl, rfl⟩
theorem fonakCompletion (fin : FonakDone) : Statement (.fonakCompletion fin) := ⟨.inl rfl, rfl⟩
theorem fonakMulticastWrite (req : FonakReq) (group : Nat) : Statement (.fonakMulticastWrite req group) := ⟨.inl rfl, rfl⟩
theorem eseqGapTimeout (key : StreamKey) : Statement (.eseqGapTimeout key) := ⟨.inl rfl, rfl⟩
theorem resendRequest (key : StreamKey) (eseq : BitVec 20) : Statement (.resendRequest key eseq) := ⟨.inl rfl, rfl⟩
theorem routerCreditTimeout (plane x y : Nat) : Statement (.routerCreditTimeout plane x y) := ⟨.inl rfl, rfl⟩
theorem planeDead (plane : Nat) : Statement (.planeDead plane) := ⟨.inl rfl, rfl⟩
theorem planeQuiesce (plane : Nat) : Statement (.planeQuiesce plane) := ⟨.inl rfl, rfl⟩
theorem planeDrainComplete (plane : Nat) : Statement (.planeDrainComplete plane) := ⟨.inl rfl, rfl⟩
theorem planeRemap (plane : Nat) : Statement (.planeRemap plane) := ⟨.inl rfl, rfl⟩
theorem planeResume (plane : Nat) : Statement (.planeResume plane) := ⟨.inl rfl, rfl⟩
theorem firmwareHeartbeat (who : Processor) : Statement (.firmwareHeartbeat who) := ⟨.inl rfl, rfl⟩
theorem firmwareWatchdogExpiry (who : Processor) (img : BootImage) : Statement (.firmwareWatchdogExpiry who img) := ⟨.inl rfl, rfl⟩
theorem deadmanRefresh : Statement (.deadmanRefresh) := ⟨.inl rfl, rfl⟩
theorem deadmanExpiry : Statement (.deadmanExpiry) := ⟨.inl rfl, rfl⟩
theorem class5Declare (part : Part) (bankId : Option (BitVec 32)) : Statement (.class5Declare part bankId) := ⟨.inl rfl, rfl⟩
theorem frontEndsReady : Statement (.frontEndsReady) := ⟨.inl rfl, rfl⟩
theorem claim (who : Agent) (value : Word) : Statement (.claim who value) := ⟨.inl rfl, rfl⟩
theorem handoff (who : Agent) (value : Word) : Statement (.handoff who value) := ⟨.inl rfl, rfl⟩
theorem powerWrite (who : Agent) (value : Word) : Statement (.powerWrite who value) := ⟨.inl rfl, rfl⟩
theorem registerWrite (who : Agent) (p : CtlPlace) (v : DwordWrite) : Statement (.registerWrite who p v) := ⟨.inl rfl, rfl⟩
theorem leaseWarning : Statement (.leaseWarning) := ⟨.inl rfl, rfl⟩
theorem leaseExpiry : Statement (.leaseExpiry) := ⟨.inl rfl, rfl⟩
theorem bar2Read (p : HostAddr) (size : Nat) : Statement (.bar2Read p size) := ⟨.inl rfl, rfl⟩
theorem bar2Write (p : HostAddr) (data : List Byte) : Statement (.bar2Write p data) := ⟨.inl rfl, rfl⟩
theorem jobcreate (c : MbCmd) : Statement (.jobcreate c) := ⟨.inl rfl, rfl⟩
theorem jobend (c : MbCmd) : Statement (.jobend c) := ⟨.inl rfl, rfl⟩
theorem setroot (c : MbCmd) : Statement (.setroot c) := ⟨.inl rfl, rfl⟩
theorem inval (c : MbCmd) : Statement (.inval c) := ⟨.inl rfl, rfl⟩
theorem qstop (c : MbCmd) : Statement (.qstop c) := ⟨.inl rfl, rfl⟩
theorem setqtab (c : MbCmd) : Statement (.setqtab c) := ⟨.inl rfl, rfl⟩
theorem kreg (c : MbCmd) : Statement (.kreg c) := ⟨.inl rfl, rfl⟩
theorem setbar2 (c : MbCmd) : Statement (.setbar2 c) := ⟨.inl rfl, rfl⟩
theorem setdev (c : MbCmd) : Statement (.setdev c) := ⟨.inl rfl, rfl⟩
theorem setpcap (c : MbCmd) : Statement (.setpcap c) := ⟨.inl rfl, rfl⟩
theorem setmcast (c : MbCmd) : Statement (.setmcast c) := ⟨.inl rfl, rfl⟩
theorem attest (c : MbCmd) : Statement (.attest c) := ⟨.inl rfl, rfl⟩
theorem readlog (c : MbCmd) : Statement (.readlog c) := ⟨.inl rfl, rfl⟩
theorem seterrmsg (c : MbCmd) : Statement (.seterrmsg c) := ⟨.inl rfl, rfl⟩
theorem jobstat (c : MbCmd) : Statement (.jobstat c) := ⟨.inl rfl, rfl⟩
theorem qrestart (c : MbCmd) : Statement (.qrestart c) := ⟨.inl rfl, rfl⟩
theorem repairs (c : MbCmd) : Statement (.repairs c) := ⟨.inl rfl, rfl⟩
theorem packageReset : Statement (.packageReset) := ⟨.inl rfl, rfl⟩
theorem debuggerHalt (uid : Nat) : Statement (.debuggerHalt uid) := ⟨.inl rfl, rfl⟩
theorem debuggerResume (uid : Nat) : Statement (.debuggerResume uid) := ⟨.inl rfl, rfl⟩
theorem errorMessageDelivered : Statement (.errorMessageDelivered) := ⟨.inl rfl, rfl⟩
theorem resendsCompleteSignal (key : StreamKey) : Statement (.resendsCompleteSignal key) := ⟨.inl rfl, rfl⟩
theorem channelCopyRow (id : Nat) : Statement (.channelCopyRow id) := ⟨.inl rfl, rfl⟩

end Sys2Proof.Laws.Encoding
end

