-- ==== Sys2Proof/Laws/State.lean ====
section
/-!
SUPPORT. One equation per field and update of the state: what each named operation on a hart or on the package leaves in
each field, so that no proof unfolds a record update.
-/

namespace Sys2Proof.Laws

open Sys2Proof Sys2Proof.Machine

/-! ### Hart.setMd -/

@[simp] theorem Hart_setMd_uid (h : Hart) (n : BitVec 2) (v : BitVec 32) : (h.setMd n v).uid = h.uid := rfl
@[simp] theorem Hart_setMd_phase (h : Hart) (n : BitVec 2) (v : BitVec 32) : (h.setMd n v).phase = h.phase := rfl
@[simp] theorem Hart_setMd_place (h : Hart) (n : BitVec 2) (v : BitVec 32) : (h.setMd n v).place = h.place := rfl
@[simp] theorem Hart_setMd_asid (h : Hart) (n : BitVec 2) (v : BitVec 32) : (h.setMd n v).asid = h.asid := rfl
@[simp] theorem Hart_setMd_prio (h : Hart) (n : BitVec 2) (v : BitVec 32) : (h.setMd n v).prio = h.prio := rfl
@[simp] theorem Hart_setMd_queue (h : Hart) (n : BitVec 2) (v : BitVec 32) : (h.setMd n v).queue = h.queue := rfl
@[simp] theorem Hart_setMd_packet (h : Hart) (n : BitVec 2) (v : BitVec 32) : (h.setMd n v).packet = h.packet := rfl
@[simp] theorem Hart_setMd_vlLo (h : Hart) (n : BitVec 2) (v : BitVec 32) : (h.setMd n v).vlLo = h.vlLo := rfl
@[simp] theorem Hart_setMd_vlHi (h : Hart) (n : BitVec 2) (v : BitVec 32) : (h.setMd n v).vlHi = h.vlHi := rfl
@[simp] theorem Hart_setMd_waitCount (h : Hart) (n : BitVec 2) (v : BitVec 32) : (h.setMd n v).waitCount = h.waitCount := rfl
@[simp] theorem Hart_setMd_promoted (h : Hart) (n : BitVec 2) (v : BitVec 32) : (h.setMd n v).promoted = h.promoted := rfl
@[simp] theorem Hart_setMd_dbgHalted (h : Hart) (n : BitVec 2) (v : BitVec 32) : (h.setMd n v).dbgHalted = h.dbgHalted := rfl
@[simp] theorem Hart_setMd_held (h : Hart) (n : BitVec 2) (v : BitVec 32) : (h.setMd n v).held = h.held := rfl
@[simp] theorem Hart_setMd_leaving (h : Hart) (n : BitVec 2) (v : BitVec 32) : (h.setMd n v).leaving = h.leaving := rfl
@[simp] theorem Hart_setMd_fetched (h : Hart) (n : BitVec 2) (v : BitVec 32) : (h.setMd n v).fetched = h.fetched := rfl
@[simp] theorem Hart_setMd_wait (h : Hart) (n : BitVec 2) (v : BitVec 32) : (h.setMd n v).wait = h.wait := rfl
@[simp] theorem Hart_setMd_pc (h : Hart) (n : BitVec 2) (v : BitVec 32) : (h.setMd n v).pc = h.pc := rfl
@[simp] theorem Hart_setMd_x (h : Hart) (n : BitVec 2) (v : BitVec 32) : (h.setMd n v).x = h.x := rfl
@[simp] theorem Hart_setMd_v (h : Hart) (n : BitVec 2) (v : BitVec 32) : (h.setMd n v).v = h.v := rfl
@[simp] theorem Hart_setMd_vPi (h : Hart) (n : BitVec 2) (v : BitVec 32) : (h.setMd n v).vPi = h.vPi := rfl
@[simp] theorem Hart_setMd_vDirty (h : Hart) (n : BitVec 2) (v : BitVec 32) : (h.setMd n v).vDirty = h.vDirty := rfl
@[simp] theorem Hart_setMd_m (h : Hart) (n : BitVec 2) (v : BitVec 32) : (h.setMd n v).m = h.m := rfl
@[simp] theorem Hart_setMd_mPi (h : Hart) (n : BitVec 2) (v : BitVec 32) : (h.setMd n v).mPi = h.mPi := rfl
@[simp] theorem Hart_setMd_vl (h : Hart) (n : BitVec 2) (v : BitVec 32) : (h.setMd n v).vl = h.vl := rfl
@[simp] theorem Hart_setMd_ix (h : Hart) (n : BitVec 2) (v : BitVec 32) : (h.setMd n v).ix = h.ix := rfl
@[simp] theorem Hart_setMd_b (h : Hart) (n : BitVec 2) (v : BitVec 32) : (h.setMd n v).b = h.b := rfl
@[simp] theorem Hart_setMd_k (h : Hart) (n : BitVec 2) (v : BitVec 32) : (h.setMd n v).k = h.k := rfl
@[simp] theorem Hart_setMd_bs (h : Hart) (n : BitVec 2) (v : BitVec 32) : (h.setMd n v).bs = h.bs := rfl
@[simp] theorem Hart_setMd_vlMax (h : Hart) (n : BitVec 2) (v : BitVec 32) : (h.setMd n v).vlMax = h.vlMax := rfl
@[simp] theorem Hart_setMd_nregs (h : Hart) (n : BitVec 2) (v : BitVec 32) : (h.setMd n v).nregs = h.nregs := rfl
@[simp] theorem Hart_setMd_aTiles (h : Hart) (n : BitVec 2) (v : BitVec 32) : (h.setMd n v).aTiles = h.aTiles := rfl
@[simp] theorem Hart_setMd_mType (h : Hart) (n : BitVec 2) (v : BitVec 32) : (h.setMd n v).mType = h.mType := rfl
@[simp] theorem Hart_setMd_nt (h : Hart) (n : BitVec 2) (v : BitVec 32) : (h.setMd n v).nt = h.nt := rfl
@[simp] theorem Hart_setMd_tiles (h : Hart) (n : BitVec 2) (v : BitVec 32) : (h.setMd n v).tiles = h.tiles := rfl
@[simp] theorem Hart_setMd_matQ (h : Hart) (n : BitVec 2) (v : BitVec 32) : (h.setMd n v).matQ = h.matQ := rfl
@[simp] theorem Hart_setMd_csr (h : Hart) (n : BitVec 2) (v : BitVec 32) : (h.setMd n v).csr = h.csr := rfl
@[simp] theorem Hart_setMd_league (h : Hart) (n : BitVec 2) (v : BitVec 32) : (h.setMd n v).league = h.league := rfl
@[simp] theorem Hart_setMd_copyFault (h : Hart) (n : BitVec 2) (v : BitVec 32) : (h.setMd n v).copyFault = h.copyFault := rfl
@[simp] theorem Hart_setMd_copyTold (h : Hart) (n : BitVec 2) (v : BitVec 32) : (h.setMd n v).copyTold = h.copyTold := rfl
@[simp] theorem Hart_setMd_stopped (h : Hart) (n : BitVec 2) (v : BitVec 32) : (h.setMd n v).stopped = h.stopped := rfl
@[simp] theorem Hart_setMd_startElem (h : Hart) (n : BitVec 2) (v : BitVec 32) : (h.setMd n v).startElem = h.startElem := rfl
@[simp] theorem Hart_setMd_elemFrom (h : Hart) (n : BitVec 2) (v : BitVec 32) : (h.setMd n v).elemFrom = h.elemFrom := rfl
@[simp] theorem Hart_setMd_posWritten (h : Hart) (n : BitVec 2) (v : BitVec 32) : (h.setMd n v).posWritten = h.posWritten := rfl
@[simp] theorem Hart_setMd_atBarrier (h : Hart) (n : BitVec 2) (v : BitVec 32) : (h.setMd n v).atBarrier = h.atBarrier := rfl
@[simp] theorem Hart_setMd_expired (h : Hart) (n : BitVec 2) (v : BitVec 32) : (h.setMd n v).expired = h.expired := rfl
@[simp] theorem Hart_setMd_records (h : Hart) (n : BitVec 2) (v : BitVec 32) : (h.setMd n v).records = h.records := rfl
@[simp] theorem Hart_setMd_furlong (h : Hart) (n : BitVec 2) (v : BitVec 32) : (h.setMd n v).furlong = h.furlong := rfl
@[simp] theorem Hart_setMd_strip (h : Hart) (n : BitVec 2) (v : BitVec 32) : (h.setMd n v).strip = h.strip := rfl
@[simp] theorem Hart_setMd_region (h : Hart) (n : BitVec 2) (v : BitVec 32) : (h.setMd n v).region = h.region := rfl
@[simp] theorem Hart_setMd_pathAt (h : Hart) (n : BitVec 2) (v : BitVec 32) : (h.setMd n v).pathAt = h.pathAt := rfl
@[simp] theorem Hart_setMd_kept (h : Hart) (n : BitVec 2) (v : BitVec 32) : (h.setMd n v).kept = h.kept := rfl
@[simp] theorem Hart_setMd_split (h : Hart) (n : BitVec 2) (v : BitVec 32) : (h.setMd n v).split = h.split := rfl
@[simp] theorem Hart_setMd_opaSplit (h : Hart) (n : BitVec 2) (v : BitVec 32) : (h.setMd n v).opaSplit = h.opaSplit := rfl
@[simp] theorem Hart_setMd_replies (h : Hart) (n : BitVec 2) (v : BitVec 32) : (h.setMd n v).replies = h.replies := rfl
@[simp] theorem Hart_setMd_pins (h : Hart) (n : BitVec 2) (v : BitVec 32) : (h.setMd n v).pins = h.pins := rfl
@[simp] theorem Hart_setMd_vPsn (h : Hart) (n : BitVec 2) (v : BitVec 32) : (h.setMd n v).vPsn = h.vPsn := rfl
@[simp] theorem Hart_setMd_mPsn (h : Hart) (n : BitVec 2) (v : BitVec 32) : (h.setMd n v).mPsn = h.mPsn := rfl
@[simp] theorem Hart_setMd_tPsn (h : Hart) (n : BitVec 2) (v : BitVec 32) : (h.setMd n v).tPsn = h.tPsn := rfl

/-! ### Hart.setIx -/

@[simp] theorem Hart_setIx_uid (h : Hart) (n : BitVec 4) (v : Word) : (h.setIx n v).uid = h.uid := rfl
@[simp] theorem Hart_setIx_phase (h : Hart) (n : BitVec 4) (v : Word) : (h.setIx n v).phase = h.phase := rfl
@[simp] theorem Hart_setIx_place (h : Hart) (n : BitVec 4) (v : Word) : (h.setIx n v).place = h.place := rfl
@[simp] theorem Hart_setIx_asid (h : Hart) (n : BitVec 4) (v : Word) : (h.setIx n v).asid = h.asid := rfl
@[simp] theorem Hart_setIx_prio (h : Hart) (n : BitVec 4) (v : Word) : (h.setIx n v).prio = h.prio := rfl
@[simp] theorem Hart_setIx_queue (h : Hart) (n : BitVec 4) (v : Word) : (h.setIx n v).queue = h.queue := rfl
@[simp] theorem Hart_setIx_packet (h : Hart) (n : BitVec 4) (v : Word) : (h.setIx n v).packet = h.packet := rfl
@[simp] theorem Hart_setIx_vlLo (h : Hart) (n : BitVec 4) (v : Word) : (h.setIx n v).vlLo = h.vlLo := rfl
@[simp] theorem Hart_setIx_vlHi (h : Hart) (n : BitVec 4) (v : Word) : (h.setIx n v).vlHi = h.vlHi := rfl
@[simp] theorem Hart_setIx_waitCount (h : Hart) (n : BitVec 4) (v : Word) : (h.setIx n v).waitCount = h.waitCount := rfl
@[simp] theorem Hart_setIx_promoted (h : Hart) (n : BitVec 4) (v : Word) : (h.setIx n v).promoted = h.promoted := rfl
@[simp] theorem Hart_setIx_dbgHalted (h : Hart) (n : BitVec 4) (v : Word) : (h.setIx n v).dbgHalted = h.dbgHalted := rfl
@[simp] theorem Hart_setIx_held (h : Hart) (n : BitVec 4) (v : Word) : (h.setIx n v).held = h.held := rfl
@[simp] theorem Hart_setIx_leaving (h : Hart) (n : BitVec 4) (v : Word) : (h.setIx n v).leaving = h.leaving := rfl
@[simp] theorem Hart_setIx_fetched (h : Hart) (n : BitVec 4) (v : Word) : (h.setIx n v).fetched = h.fetched := rfl
@[simp] theorem Hart_setIx_wait (h : Hart) (n : BitVec 4) (v : Word) : (h.setIx n v).wait = h.wait := rfl
@[simp] theorem Hart_setIx_pc (h : Hart) (n : BitVec 4) (v : Word) : (h.setIx n v).pc = h.pc := rfl
@[simp] theorem Hart_setIx_x (h : Hart) (n : BitVec 4) (v : Word) : (h.setIx n v).x = h.x := rfl
@[simp] theorem Hart_setIx_v (h : Hart) (n : BitVec 4) (v : Word) : (h.setIx n v).v = h.v := rfl
@[simp] theorem Hart_setIx_vPi (h : Hart) (n : BitVec 4) (v : Word) : (h.setIx n v).vPi = h.vPi := rfl
@[simp] theorem Hart_setIx_vDirty (h : Hart) (n : BitVec 4) (v : Word) : (h.setIx n v).vDirty = h.vDirty := rfl
@[simp] theorem Hart_setIx_m (h : Hart) (n : BitVec 4) (v : Word) : (h.setIx n v).m = h.m := rfl
@[simp] theorem Hart_setIx_mPi (h : Hart) (n : BitVec 4) (v : Word) : (h.setIx n v).mPi = h.mPi := rfl
@[simp] theorem Hart_setIx_vl (h : Hart) (n : BitVec 4) (v : Word) : (h.setIx n v).vl = h.vl := rfl
@[simp] theorem Hart_setIx_md (h : Hart) (n : BitVec 4) (v : Word) : (h.setIx n v).md = h.md := rfl
@[simp] theorem Hart_setIx_b (h : Hart) (n : BitVec 4) (v : Word) : (h.setIx n v).b = h.b := rfl
@[simp] theorem Hart_setIx_k (h : Hart) (n : BitVec 4) (v : Word) : (h.setIx n v).k = h.k := rfl
@[simp] theorem Hart_setIx_bs (h : Hart) (n : BitVec 4) (v : Word) : (h.setIx n v).bs = h.bs := rfl
@[simp] theorem Hart_setIx_vlMax (h : Hart) (n : BitVec 4) (v : Word) : (h.setIx n v).vlMax = h.vlMax := rfl
@[simp] theorem Hart_setIx_nregs (h : Hart) (n : BitVec 4) (v : Word) : (h.setIx n v).nregs = h.nregs := rfl
@[simp] theorem Hart_setIx_aTiles (h : Hart) (n : BitVec 4) (v : Word) : (h.setIx n v).aTiles = h.aTiles := rfl
@[simp] theorem Hart_setIx_mType (h : Hart) (n : BitVec 4) (v : Word) : (h.setIx n v).mType = h.mType := rfl
@[simp] theorem Hart_setIx_nt (h : Hart) (n : BitVec 4) (v : Word) : (h.setIx n v).nt = h.nt := rfl
@[simp] theorem Hart_setIx_tiles (h : Hart) (n : BitVec 4) (v : Word) : (h.setIx n v).tiles = h.tiles := rfl
@[simp] theorem Hart_setIx_matQ (h : Hart) (n : BitVec 4) (v : Word) : (h.setIx n v).matQ = h.matQ := rfl
@[simp] theorem Hart_setIx_csr (h : Hart) (n : BitVec 4) (v : Word) : (h.setIx n v).csr = h.csr := rfl
@[simp] theorem Hart_setIx_league (h : Hart) (n : BitVec 4) (v : Word) : (h.setIx n v).league = h.league := rfl
@[simp] theorem Hart_setIx_copyFault (h : Hart) (n : BitVec 4) (v : Word) : (h.setIx n v).copyFault = h.copyFault := rfl
@[simp] theorem Hart_setIx_copyTold (h : Hart) (n : BitVec 4) (v : Word) : (h.setIx n v).copyTold = h.copyTold := rfl
@[simp] theorem Hart_setIx_stopped (h : Hart) (n : BitVec 4) (v : Word) : (h.setIx n v).stopped = h.stopped := rfl
@[simp] theorem Hart_setIx_startElem (h : Hart) (n : BitVec 4) (v : Word) : (h.setIx n v).startElem = h.startElem := rfl
@[simp] theorem Hart_setIx_elemFrom (h : Hart) (n : BitVec 4) (v : Word) : (h.setIx n v).elemFrom = h.elemFrom := rfl
@[simp] theorem Hart_setIx_posWritten (h : Hart) (n : BitVec 4) (v : Word) : (h.setIx n v).posWritten = h.posWritten := rfl
@[simp] theorem Hart_setIx_atBarrier (h : Hart) (n : BitVec 4) (v : Word) : (h.setIx n v).atBarrier = h.atBarrier := rfl
@[simp] theorem Hart_setIx_expired (h : Hart) (n : BitVec 4) (v : Word) : (h.setIx n v).expired = h.expired := rfl
@[simp] theorem Hart_setIx_records (h : Hart) (n : BitVec 4) (v : Word) : (h.setIx n v).records = h.records := rfl
@[simp] theorem Hart_setIx_furlong (h : Hart) (n : BitVec 4) (v : Word) : (h.setIx n v).furlong = h.furlong := rfl
@[simp] theorem Hart_setIx_strip (h : Hart) (n : BitVec 4) (v : Word) : (h.setIx n v).strip = h.strip := rfl
@[simp] theorem Hart_setIx_region (h : Hart) (n : BitVec 4) (v : Word) : (h.setIx n v).region = h.region := rfl
@[simp] theorem Hart_setIx_pathAt (h : Hart) (n : BitVec 4) (v : Word) : (h.setIx n v).pathAt = h.pathAt := rfl
@[simp] theorem Hart_setIx_kept (h : Hart) (n : BitVec 4) (v : Word) : (h.setIx n v).kept = h.kept := rfl
@[simp] theorem Hart_setIx_split (h : Hart) (n : BitVec 4) (v : Word) : (h.setIx n v).split = h.split := rfl
@[simp] theorem Hart_setIx_opaSplit (h : Hart) (n : BitVec 4) (v : Word) : (h.setIx n v).opaSplit = h.opaSplit := rfl
@[simp] theorem Hart_setIx_replies (h : Hart) (n : BitVec 4) (v : Word) : (h.setIx n v).replies = h.replies := rfl
@[simp] theorem Hart_setIx_pins (h : Hart) (n : BitVec 4) (v : Word) : (h.setIx n v).pins = h.pins := rfl
@[simp] theorem Hart_setIx_vPsn (h : Hart) (n : BitVec 4) (v : Word) : (h.setIx n v).vPsn = h.vPsn := rfl
@[simp] theorem Hart_setIx_mPsn (h : Hart) (n : BitVec 4) (v : Word) : (h.setIx n v).mPsn = h.mPsn := rfl
@[simp] theorem Hart_setIx_tPsn (h : Hart) (n : BitVec 4) (v : Word) : (h.setIx n v).tPsn = h.tPsn := rfl

/-! ### Hart.setBs -/

@[simp] theorem Hart_setBs_uid (h : Hart) (n : BitVec 3) (v : Word) : (h.setBs n v).uid = h.uid := rfl
@[simp] theorem Hart_setBs_phase (h : Hart) (n : BitVec 3) (v : Word) : (h.setBs n v).phase = h.phase := rfl
@[simp] theorem Hart_setBs_place (h : Hart) (n : BitVec 3) (v : Word) : (h.setBs n v).place = h.place := rfl
@[simp] theorem Hart_setBs_asid (h : Hart) (n : BitVec 3) (v : Word) : (h.setBs n v).asid = h.asid := rfl
@[simp] theorem Hart_setBs_prio (h : Hart) (n : BitVec 3) (v : Word) : (h.setBs n v).prio = h.prio := rfl
@[simp] theorem Hart_setBs_queue (h : Hart) (n : BitVec 3) (v : Word) : (h.setBs n v).queue = h.queue := rfl
@[simp] theorem Hart_setBs_packet (h : Hart) (n : BitVec 3) (v : Word) : (h.setBs n v).packet = h.packet := rfl
@[simp] theorem Hart_setBs_vlLo (h : Hart) (n : BitVec 3) (v : Word) : (h.setBs n v).vlLo = h.vlLo := rfl
@[simp] theorem Hart_setBs_vlHi (h : Hart) (n : BitVec 3) (v : Word) : (h.setBs n v).vlHi = h.vlHi := rfl
@[simp] theorem Hart_setBs_waitCount (h : Hart) (n : BitVec 3) (v : Word) : (h.setBs n v).waitCount = h.waitCount := rfl
@[simp] theorem Hart_setBs_promoted (h : Hart) (n : BitVec 3) (v : Word) : (h.setBs n v).promoted = h.promoted := rfl
@[simp] theorem Hart_setBs_dbgHalted (h : Hart) (n : BitVec 3) (v : Word) : (h.setBs n v).dbgHalted = h.dbgHalted := rfl
@[simp] theorem Hart_setBs_held (h : Hart) (n : BitVec 3) (v : Word) : (h.setBs n v).held = h.held := rfl
@[simp] theorem Hart_setBs_leaving (h : Hart) (n : BitVec 3) (v : Word) : (h.setBs n v).leaving = h.leaving := rfl
@[simp] theorem Hart_setBs_fetched (h : Hart) (n : BitVec 3) (v : Word) : (h.setBs n v).fetched = h.fetched := rfl
@[simp] theorem Hart_setBs_wait (h : Hart) (n : BitVec 3) (v : Word) : (h.setBs n v).wait = h.wait := rfl
@[simp] theorem Hart_setBs_pc (h : Hart) (n : BitVec 3) (v : Word) : (h.setBs n v).pc = h.pc := rfl
@[simp] theorem Hart_setBs_x (h : Hart) (n : BitVec 3) (v : Word) : (h.setBs n v).x = h.x := rfl
@[simp] theorem Hart_setBs_v (h : Hart) (n : BitVec 3) (v : Word) : (h.setBs n v).v = h.v := rfl
@[simp] theorem Hart_setBs_vPi (h : Hart) (n : BitVec 3) (v : Word) : (h.setBs n v).vPi = h.vPi := rfl
@[simp] theorem Hart_setBs_vDirty (h : Hart) (n : BitVec 3) (v : Word) : (h.setBs n v).vDirty = h.vDirty := rfl
@[simp] theorem Hart_setBs_m (h : Hart) (n : BitVec 3) (v : Word) : (h.setBs n v).m = h.m := rfl
@[simp] theorem Hart_setBs_mPi (h : Hart) (n : BitVec 3) (v : Word) : (h.setBs n v).mPi = h.mPi := rfl
@[simp] theorem Hart_setBs_vl (h : Hart) (n : BitVec 3) (v : Word) : (h.setBs n v).vl = h.vl := rfl
@[simp] theorem Hart_setBs_md (h : Hart) (n : BitVec 3) (v : Word) : (h.setBs n v).md = h.md := rfl
@[simp] theorem Hart_setBs_ix (h : Hart) (n : BitVec 3) (v : Word) : (h.setBs n v).ix = h.ix := rfl
@[simp] theorem Hart_setBs_b (h : Hart) (n : BitVec 3) (v : Word) : (h.setBs n v).b = h.b := rfl
@[simp] theorem Hart_setBs_k (h : Hart) (n : BitVec 3) (v : Word) : (h.setBs n v).k = h.k := rfl
@[simp] theorem Hart_setBs_vlMax (h : Hart) (n : BitVec 3) (v : Word) : (h.setBs n v).vlMax = h.vlMax := rfl
@[simp] theorem Hart_setBs_nregs (h : Hart) (n : BitVec 3) (v : Word) : (h.setBs n v).nregs = h.nregs := rfl
@[simp] theorem Hart_setBs_aTiles (h : Hart) (n : BitVec 3) (v : Word) : (h.setBs n v).aTiles = h.aTiles := rfl
@[simp] theorem Hart_setBs_mType (h : Hart) (n : BitVec 3) (v : Word) : (h.setBs n v).mType = h.mType := rfl
@[simp] theorem Hart_setBs_nt (h : Hart) (n : BitVec 3) (v : Word) : (h.setBs n v).nt = h.nt := rfl
@[simp] theorem Hart_setBs_tiles (h : Hart) (n : BitVec 3) (v : Word) : (h.setBs n v).tiles = h.tiles := rfl
@[simp] theorem Hart_setBs_matQ (h : Hart) (n : BitVec 3) (v : Word) : (h.setBs n v).matQ = h.matQ := rfl
@[simp] theorem Hart_setBs_csr (h : Hart) (n : BitVec 3) (v : Word) : (h.setBs n v).csr = h.csr := rfl
@[simp] theorem Hart_setBs_league (h : Hart) (n : BitVec 3) (v : Word) : (h.setBs n v).league = h.league := rfl
@[simp] theorem Hart_setBs_copyFault (h : Hart) (n : BitVec 3) (v : Word) : (h.setBs n v).copyFault = h.copyFault := rfl
@[simp] theorem Hart_setBs_copyTold (h : Hart) (n : BitVec 3) (v : Word) : (h.setBs n v).copyTold = h.copyTold := rfl
@[simp] theorem Hart_setBs_stopped (h : Hart) (n : BitVec 3) (v : Word) : (h.setBs n v).stopped = h.stopped := rfl
@[simp] theorem Hart_setBs_startElem (h : Hart) (n : BitVec 3) (v : Word) : (h.setBs n v).startElem = h.startElem := rfl
@[simp] theorem Hart_setBs_elemFrom (h : Hart) (n : BitVec 3) (v : Word) : (h.setBs n v).elemFrom = h.elemFrom := rfl
@[simp] theorem Hart_setBs_posWritten (h : Hart) (n : BitVec 3) (v : Word) : (h.setBs n v).posWritten = h.posWritten := rfl
@[simp] theorem Hart_setBs_atBarrier (h : Hart) (n : BitVec 3) (v : Word) : (h.setBs n v).atBarrier = h.atBarrier := rfl
@[simp] theorem Hart_setBs_expired (h : Hart) (n : BitVec 3) (v : Word) : (h.setBs n v).expired = h.expired := rfl
@[simp] theorem Hart_setBs_records (h : Hart) (n : BitVec 3) (v : Word) : (h.setBs n v).records = h.records := rfl
@[simp] theorem Hart_setBs_furlong (h : Hart) (n : BitVec 3) (v : Word) : (h.setBs n v).furlong = h.furlong := rfl
@[simp] theorem Hart_setBs_strip (h : Hart) (n : BitVec 3) (v : Word) : (h.setBs n v).strip = h.strip := rfl
@[simp] theorem Hart_setBs_region (h : Hart) (n : BitVec 3) (v : Word) : (h.setBs n v).region = h.region := rfl
@[simp] theorem Hart_setBs_pathAt (h : Hart) (n : BitVec 3) (v : Word) : (h.setBs n v).pathAt = h.pathAt := rfl
@[simp] theorem Hart_setBs_kept (h : Hart) (n : BitVec 3) (v : Word) : (h.setBs n v).kept = h.kept := rfl
@[simp] theorem Hart_setBs_split (h : Hart) (n : BitVec 3) (v : Word) : (h.setBs n v).split = h.split := rfl
@[simp] theorem Hart_setBs_opaSplit (h : Hart) (n : BitVec 3) (v : Word) : (h.setBs n v).opaSplit = h.opaSplit := rfl
@[simp] theorem Hart_setBs_replies (h : Hart) (n : BitVec 3) (v : Word) : (h.setBs n v).replies = h.replies := rfl
@[simp] theorem Hart_setBs_pins (h : Hart) (n : BitVec 3) (v : Word) : (h.setBs n v).pins = h.pins := rfl
@[simp] theorem Hart_setBs_vPsn (h : Hart) (n : BitVec 3) (v : Word) : (h.setBs n v).vPsn = h.vPsn := rfl
@[simp] theorem Hart_setBs_mPsn (h : Hart) (n : BitVec 3) (v : Word) : (h.setBs n v).mPsn = h.mPsn := rfl
@[simp] theorem Hart_setBs_tPsn (h : Hart) (n : BitVec 3) (v : Word) : (h.setBs n v).tPsn = h.tPsn := rfl

/-! ### Hart.raiseFlags -/

@[simp] theorem Hart_raiseFlags_uid (h : Hart) (fl : BitVec 6) : (h.raiseFlags fl).uid = h.uid := rfl
@[simp] theorem Hart_raiseFlags_phase (h : Hart) (fl : BitVec 6) : (h.raiseFlags fl).phase = h.phase := rfl
@[simp] theorem Hart_raiseFlags_place (h : Hart) (fl : BitVec 6) : (h.raiseFlags fl).place = h.place := rfl
@[simp] theorem Hart_raiseFlags_asid (h : Hart) (fl : BitVec 6) : (h.raiseFlags fl).asid = h.asid := rfl
@[simp] theorem Hart_raiseFlags_prio (h : Hart) (fl : BitVec 6) : (h.raiseFlags fl).prio = h.prio := rfl
@[simp] theorem Hart_raiseFlags_queue (h : Hart) (fl : BitVec 6) : (h.raiseFlags fl).queue = h.queue := rfl
@[simp] theorem Hart_raiseFlags_packet (h : Hart) (fl : BitVec 6) : (h.raiseFlags fl).packet = h.packet := rfl
@[simp] theorem Hart_raiseFlags_vlLo (h : Hart) (fl : BitVec 6) : (h.raiseFlags fl).vlLo = h.vlLo := rfl
@[simp] theorem Hart_raiseFlags_vlHi (h : Hart) (fl : BitVec 6) : (h.raiseFlags fl).vlHi = h.vlHi := rfl
@[simp] theorem Hart_raiseFlags_waitCount (h : Hart) (fl : BitVec 6) : (h.raiseFlags fl).waitCount = h.waitCount := rfl
@[simp] theorem Hart_raiseFlags_promoted (h : Hart) (fl : BitVec 6) : (h.raiseFlags fl).promoted = h.promoted := rfl
@[simp] theorem Hart_raiseFlags_dbgHalted (h : Hart) (fl : BitVec 6) : (h.raiseFlags fl).dbgHalted = h.dbgHalted := rfl
@[simp] theorem Hart_raiseFlags_held (h : Hart) (fl : BitVec 6) : (h.raiseFlags fl).held = h.held := rfl
@[simp] theorem Hart_raiseFlags_leaving (h : Hart) (fl : BitVec 6) : (h.raiseFlags fl).leaving = h.leaving := rfl
@[simp] theorem Hart_raiseFlags_fetched (h : Hart) (fl : BitVec 6) : (h.raiseFlags fl).fetched = h.fetched := rfl
@[simp] theorem Hart_raiseFlags_wait (h : Hart) (fl : BitVec 6) : (h.raiseFlags fl).wait = h.wait := rfl
@[simp] theorem Hart_raiseFlags_pc (h : Hart) (fl : BitVec 6) : (h.raiseFlags fl).pc = h.pc := rfl
@[simp] theorem Hart_raiseFlags_x (h : Hart) (fl : BitVec 6) : (h.raiseFlags fl).x = h.x := rfl
@[simp] theorem Hart_raiseFlags_v (h : Hart) (fl : BitVec 6) : (h.raiseFlags fl).v = h.v := rfl
@[simp] theorem Hart_raiseFlags_vPi (h : Hart) (fl : BitVec 6) : (h.raiseFlags fl).vPi = h.vPi := rfl
@[simp] theorem Hart_raiseFlags_vDirty (h : Hart) (fl : BitVec 6) : (h.raiseFlags fl).vDirty = h.vDirty := rfl
@[simp] theorem Hart_raiseFlags_m (h : Hart) (fl : BitVec 6) : (h.raiseFlags fl).m = h.m := rfl
@[simp] theorem Hart_raiseFlags_mPi (h : Hart) (fl : BitVec 6) : (h.raiseFlags fl).mPi = h.mPi := rfl
@[simp] theorem Hart_raiseFlags_vl (h : Hart) (fl : BitVec 6) : (h.raiseFlags fl).vl = h.vl := rfl
@[simp] theorem Hart_raiseFlags_md (h : Hart) (fl : BitVec 6) : (h.raiseFlags fl).md = h.md := rfl
@[simp] theorem Hart_raiseFlags_ix (h : Hart) (fl : BitVec 6) : (h.raiseFlags fl).ix = h.ix := rfl
@[simp] theorem Hart_raiseFlags_b (h : Hart) (fl : BitVec 6) : (h.raiseFlags fl).b = h.b := rfl
@[simp] theorem Hart_raiseFlags_k (h : Hart) (fl : BitVec 6) : (h.raiseFlags fl).k = h.k := rfl
@[simp] theorem Hart_raiseFlags_bs (h : Hart) (fl : BitVec 6) : (h.raiseFlags fl).bs = h.bs := rfl
@[simp] theorem Hart_raiseFlags_vlMax (h : Hart) (fl : BitVec 6) : (h.raiseFlags fl).vlMax = h.vlMax := rfl
@[simp] theorem Hart_raiseFlags_nregs (h : Hart) (fl : BitVec 6) : (h.raiseFlags fl).nregs = h.nregs := rfl
@[simp] theorem Hart_raiseFlags_aTiles (h : Hart) (fl : BitVec 6) : (h.raiseFlags fl).aTiles = h.aTiles := rfl
@[simp] theorem Hart_raiseFlags_mType (h : Hart) (fl : BitVec 6) : (h.raiseFlags fl).mType = h.mType := rfl
@[simp] theorem Hart_raiseFlags_nt (h : Hart) (fl : BitVec 6) : (h.raiseFlags fl).nt = h.nt := rfl
@[simp] theorem Hart_raiseFlags_tiles (h : Hart) (fl : BitVec 6) : (h.raiseFlags fl).tiles = h.tiles := rfl
@[simp] theorem Hart_raiseFlags_matQ (h : Hart) (fl : BitVec 6) : (h.raiseFlags fl).matQ = h.matQ := rfl
@[simp] theorem Hart_raiseFlags_csr (h : Hart) (fl : BitVec 6) : (h.raiseFlags fl).csr = { h.csr with flags := h.csr.flags ||| zext fl } := rfl
@[simp] theorem Hart_raiseFlags_league (h : Hart) (fl : BitVec 6) : (h.raiseFlags fl).league = h.league := rfl
@[simp] theorem Hart_raiseFlags_copyFault (h : Hart) (fl : BitVec 6) : (h.raiseFlags fl).copyFault = h.copyFault := rfl
@[simp] theorem Hart_raiseFlags_copyTold (h : Hart) (fl : BitVec 6) : (h.raiseFlags fl).copyTold = h.copyTold := rfl
@[simp] theorem Hart_raiseFlags_stopped (h : Hart) (fl : BitVec 6) : (h.raiseFlags fl).stopped = h.stopped := rfl
@[simp] theorem Hart_raiseFlags_startElem (h : Hart) (fl : BitVec 6) : (h.raiseFlags fl).startElem = h.startElem := rfl
@[simp] theorem Hart_raiseFlags_elemFrom (h : Hart) (fl : BitVec 6) : (h.raiseFlags fl).elemFrom = h.elemFrom := rfl
@[simp] theorem Hart_raiseFlags_posWritten (h : Hart) (fl : BitVec 6) : (h.raiseFlags fl).posWritten = h.posWritten := rfl
@[simp] theorem Hart_raiseFlags_atBarrier (h : Hart) (fl : BitVec 6) : (h.raiseFlags fl).atBarrier = h.atBarrier := rfl
@[simp] theorem Hart_raiseFlags_expired (h : Hart) (fl : BitVec 6) : (h.raiseFlags fl).expired = h.expired := rfl
@[simp] theorem Hart_raiseFlags_records (h : Hart) (fl : BitVec 6) : (h.raiseFlags fl).records = h.records := rfl
@[simp] theorem Hart_raiseFlags_furlong (h : Hart) (fl : BitVec 6) : (h.raiseFlags fl).furlong = h.furlong := rfl
@[simp] theorem Hart_raiseFlags_strip (h : Hart) (fl : BitVec 6) : (h.raiseFlags fl).strip = h.strip := rfl
@[simp] theorem Hart_raiseFlags_region (h : Hart) (fl : BitVec 6) : (h.raiseFlags fl).region = h.region := rfl
@[simp] theorem Hart_raiseFlags_pathAt (h : Hart) (fl : BitVec 6) : (h.raiseFlags fl).pathAt = h.pathAt := rfl
@[simp] theorem Hart_raiseFlags_kept (h : Hart) (fl : BitVec 6) : (h.raiseFlags fl).kept = h.kept := rfl
@[simp] theorem Hart_raiseFlags_split (h : Hart) (fl : BitVec 6) : (h.raiseFlags fl).split = h.split := rfl
@[simp] theorem Hart_raiseFlags_opaSplit (h : Hart) (fl : BitVec 6) : (h.raiseFlags fl).opaSplit = h.opaSplit := rfl
@[simp] theorem Hart_raiseFlags_replies (h : Hart) (fl : BitVec 6) : (h.raiseFlags fl).replies = h.replies := rfl
@[simp] theorem Hart_raiseFlags_pins (h : Hart) (fl : BitVec 6) : (h.raiseFlags fl).pins = h.pins := rfl
@[simp] theorem Hart_raiseFlags_vPsn (h : Hart) (fl : BitVec 6) : (h.raiseFlags fl).vPsn = h.vPsn := rfl
@[simp] theorem Hart_raiseFlags_mPsn (h : Hart) (fl : BitVec 6) : (h.raiseFlags fl).mPsn = h.mPsn := rfl
@[simp] theorem Hart_raiseFlags_tPsn (h : Hart) (fl : BitVec 6) : (h.raiseFlags fl).tPsn = h.tPsn := rfl

/-! ### Hart.atStart -/

@[simp] theorem Hart_atStart_uid (h : Hart) : h.atStart.uid = h.uid := rfl
@[simp] theorem Hart_atStart_phase (h : Hart) : h.atStart.phase = h.phase := rfl
@[simp] theorem Hart_atStart_place (h : Hart) : h.atStart.place = h.place := rfl
@[simp] theorem Hart_atStart_asid (h : Hart) : h.atStart.asid = h.asid := rfl
@[simp] theorem Hart_atStart_prio (h : Hart) : h.atStart.prio = h.prio := rfl
@[simp] theorem Hart_atStart_queue (h : Hart) : h.atStart.queue = h.queue := rfl
@[simp] theorem Hart_atStart_packet (h : Hart) : h.atStart.packet = h.packet := rfl
@[simp] theorem Hart_atStart_vlLo (h : Hart) : h.atStart.vlLo = h.vlLo := rfl
@[simp] theorem Hart_atStart_vlHi (h : Hart) : h.atStart.vlHi = h.vlHi := rfl
@[simp] theorem Hart_atStart_waitCount (h : Hart) : h.atStart.waitCount = h.waitCount := rfl
@[simp] theorem Hart_atStart_promoted (h : Hart) : h.atStart.promoted = h.promoted := rfl
@[simp] theorem Hart_atStart_dbgHalted (h : Hart) : h.atStart.dbgHalted = h.dbgHalted := rfl
@[simp] theorem Hart_atStart_held (h : Hart) : h.atStart.held = h.held := rfl
@[simp] theorem Hart_atStart_leaving (h : Hart) : h.atStart.leaving = h.leaving := rfl
@[simp] theorem Hart_atStart_fetched (h : Hart) : h.atStart.fetched = h.fetched := rfl
@[simp] theorem Hart_atStart_wait (h : Hart) : h.atStart.wait = h.wait := rfl
@[simp] theorem Hart_atStart_pc (h : Hart) : h.atStart.pc = h.pc := rfl
@[simp] theorem Hart_atStart_x (h : Hart) : h.atStart.x = h.x := rfl
@[simp] theorem Hart_atStart_v (h : Hart) : h.atStart.v = h.v := rfl
@[simp] theorem Hart_atStart_vPi (h : Hart) : h.atStart.vPi = h.vPi := rfl
@[simp] theorem Hart_atStart_vDirty (h : Hart) : h.atStart.vDirty = h.vDirty := rfl
@[simp] theorem Hart_atStart_m (h : Hart) : h.atStart.m = h.m := rfl
@[simp] theorem Hart_atStart_mPi (h : Hart) : h.atStart.mPi = h.mPi := rfl
@[simp] theorem Hart_atStart_vl (h : Hart) : h.atStart.vl = h.vl := rfl
@[simp] theorem Hart_atStart_md (h : Hart) : h.atStart.md = h.md := rfl
@[simp] theorem Hart_atStart_ix (h : Hart) : h.atStart.ix = h.ix := rfl
@[simp] theorem Hart_atStart_b (h : Hart) : h.atStart.b = h.b := rfl
@[simp] theorem Hart_atStart_k (h : Hart) : h.atStart.k = h.k := rfl
@[simp] theorem Hart_atStart_bs (h : Hart) : h.atStart.bs = h.bs := rfl
@[simp] theorem Hart_atStart_vlMax (h : Hart) : h.atStart.vlMax = h.vlMax := rfl
@[simp] theorem Hart_atStart_nregs (h : Hart) : h.atStart.nregs = h.nregs := rfl
@[simp] theorem Hart_atStart_aTiles (h : Hart) : h.atStart.aTiles = h.aTiles := rfl
@[simp] theorem Hart_atStart_mType (h : Hart) : h.atStart.mType = h.mType := rfl
@[simp] theorem Hart_atStart_nt (h : Hart) : h.atStart.nt = h.nt := rfl
@[simp] theorem Hart_atStart_tiles (h : Hart) : h.atStart.tiles = h.tiles := rfl
@[simp] theorem Hart_atStart_matQ (h : Hart) : h.atStart.matQ = h.matQ := rfl
@[simp] theorem Hart_atStart_csr (h : Hart) : h.atStart.csr = h.csr := rfl
@[simp] theorem Hart_atStart_league (h : Hart) : h.atStart.league = h.league := rfl
@[simp] theorem Hart_atStart_copyFault (h : Hart) : h.atStart.copyFault = h.copyFault := rfl
@[simp] theorem Hart_atStart_copyTold (h : Hart) : h.atStart.copyTold = h.copyTold := rfl
@[simp] theorem Hart_atStart_stopped (h : Hart) : h.atStart.stopped = h.stopped := rfl
@[simp] theorem Hart_atStart_startElem (h : Hart) : h.atStart.startElem = 0 := rfl
@[simp] theorem Hart_atStart_elemFrom (h : Hart) : h.atStart.elemFrom = 0 := rfl
@[simp] theorem Hart_atStart_posWritten (h : Hart) : h.atStart.posWritten = h.posWritten := rfl
@[simp] theorem Hart_atStart_atBarrier (h : Hart) : h.atStart.atBarrier = h.atBarrier := rfl
@[simp] theorem Hart_atStart_expired (h : Hart) : h.atStart.expired = h.expired := rfl
@[simp] theorem Hart_atStart_records (h : Hart) : h.atStart.records = h.records := rfl
@[simp] theorem Hart_atStart_furlong (h : Hart) : h.atStart.furlong = h.furlong := rfl
@[simp] theorem Hart_atStart_strip (h : Hart) : h.atStart.strip = h.strip := rfl
@[simp] theorem Hart_atStart_region (h : Hart) : h.atStart.region = h.region := rfl
@[simp] theorem Hart_atStart_pathAt (h : Hart) : h.atStart.pathAt = none := rfl
@[simp] theorem Hart_atStart_kept (h : Hart) : h.atStart.kept = [] := rfl
@[simp] theorem Hart_atStart_split (h : Hart) : h.atStart.split = [] := rfl
@[simp] theorem Hart_atStart_opaSplit (h : Hart) : h.atStart.opaSplit = h.opaSplit := rfl
@[simp] theorem Hart_atStart_replies (h : Hart) : h.atStart.replies = h.replies := rfl
@[simp] theorem Hart_atStart_pins (h : Hart) : h.atStart.pins = h.pins := rfl
@[simp] theorem Hart_atStart_vPsn (h : Hart) : h.atStart.vPsn = h.vPsn := rfl
@[simp] theorem Hart_atStart_mPsn (h : Hart) : h.atStart.mPsn = h.mPsn := rfl
@[simp] theorem Hart_atStart_tPsn (h : Hart) : h.atStart.tPsn = h.tPsn := rfl

/-! ### Hart.setX -/

@[simp] theorem Hart_setX_uid (h : Hart) (r : BitVec 5) (v : Word) : (h.setX r v).uid = h.uid := by unfold Hart.setX; split <;> rfl
@[simp] theorem Hart_setX_phase (h : Hart) (r : BitVec 5) (v : Word) : (h.setX r v).phase = h.phase := by unfold Hart.setX; split <;> rfl
@[simp] theorem Hart_setX_place (h : Hart) (r : BitVec 5) (v : Word) : (h.setX r v).place = h.place := by unfold Hart.setX; split <;> rfl
@[simp] theorem Hart_setX_asid (h : Hart) (r : BitVec 5) (v : Word) : (h.setX r v).asid = h.asid := by unfold Hart.setX; split <;> rfl
@[simp] theorem Hart_setX_prio (h : Hart) (r : BitVec 5) (v : Word) : (h.setX r v).prio = h.prio := by unfold Hart.setX; split <;> rfl
@[simp] theorem Hart_setX_queue (h : Hart) (r : BitVec 5) (v : Word) : (h.setX r v).queue = h.queue := by unfold Hart.setX; split <;> rfl
@[simp] theorem Hart_setX_packet (h : Hart) (r : BitVec 5) (v : Word) : (h.setX r v).packet = h.packet := by unfold Hart.setX; split <;> rfl
@[simp] theorem Hart_setX_vlLo (h : Hart) (r : BitVec 5) (v : Word) : (h.setX r v).vlLo = h.vlLo := by unfold Hart.setX; split <;> rfl
@[simp] theorem Hart_setX_vlHi (h : Hart) (r : BitVec 5) (v : Word) : (h.setX r v).vlHi = h.vlHi := by unfold Hart.setX; split <;> rfl
@[simp] theorem Hart_setX_waitCount (h : Hart) (r : BitVec 5) (v : Word) : (h.setX r v).waitCount = h.waitCount := by unfold Hart.setX; split <;> rfl
@[simp] theorem Hart_setX_promoted (h : Hart) (r : BitVec 5) (v : Word) : (h.setX r v).promoted = h.promoted := by unfold Hart.setX; split <;> rfl
@[simp] theorem Hart_setX_dbgHalted (h : Hart) (r : BitVec 5) (v : Word) : (h.setX r v).dbgHalted = h.dbgHalted := by unfold Hart.setX; split <;> rfl
@[simp] theorem Hart_setX_held (h : Hart) (r : BitVec 5) (v : Word) : (h.setX r v).held = h.held := by unfold Hart.setX; split <;> rfl
@[simp] theorem Hart_setX_leaving (h : Hart) (r : BitVec 5) (v : Word) : (h.setX r v).leaving = h.leaving := by unfold Hart.setX; split <;> rfl
@[simp] theorem Hart_setX_fetched (h : Hart) (r : BitVec 5) (v : Word) : (h.setX r v).fetched = h.fetched := by unfold Hart.setX; split <;> rfl
@[simp] theorem Hart_setX_wait (h : Hart) (r : BitVec 5) (v : Word) : (h.setX r v).wait = h.wait := by unfold Hart.setX; split <;> rfl
@[simp] theorem Hart_setX_pc (h : Hart) (r : BitVec 5) (v : Word) : (h.setX r v).pc = h.pc := by unfold Hart.setX; split <;> rfl
@[simp] theorem Hart_setX_v (h : Hart) (r : BitVec 5) (v : Word) : (h.setX r v).v = h.v := by unfold Hart.setX; split <;> rfl
@[simp] theorem Hart_setX_vPi (h : Hart) (r : BitVec 5) (v : Word) : (h.setX r v).vPi = h.vPi := by unfold Hart.setX; split <;> rfl
@[simp] theorem Hart_setX_vDirty (h : Hart) (r : BitVec 5) (v : Word) : (h.setX r v).vDirty = h.vDirty := by unfold Hart.setX; split <;> rfl
@[simp] theorem Hart_setX_m (h : Hart) (r : BitVec 5) (v : Word) : (h.setX r v).m = h.m := by unfold Hart.setX; split <;> rfl
@[simp] theorem Hart_setX_mPi (h : Hart) (r : BitVec 5) (v : Word) : (h.setX r v).mPi = h.mPi := by unfold Hart.setX; split <;> rfl
@[simp] theorem Hart_setX_vl (h : Hart) (r : BitVec 5) (v : Word) : (h.setX r v).vl = h.vl := by unfold Hart.setX; split <;> rfl
@[simp] theorem Hart_setX_md (h : Hart) (r : BitVec 5) (v : Word) : (h.setX r v).md = h.md := by unfold Hart.setX; split <;> rfl
@[simp] theorem Hart_setX_ix (h : Hart) (r : BitVec 5) (v : Word) : (h.setX r v).ix = h.ix := by unfold Hart.setX; split <;> rfl
@[simp] theorem Hart_setX_b (h : Hart) (r : BitVec 5) (v : Word) : (h.setX r v).b = h.b := by unfold Hart.setX; split <;> rfl
@[simp] theorem Hart_setX_k (h : Hart) (r : BitVec 5) (v : Word) : (h.setX r v).k = h.k := by unfold Hart.setX; split <;> rfl
@[simp] theorem Hart_setX_bs (h : Hart) (r : BitVec 5) (v : Word) : (h.setX r v).bs = h.bs := by unfold Hart.setX; split <;> rfl
@[simp] theorem Hart_setX_vlMax (h : Hart) (r : BitVec 5) (v : Word) : (h.setX r v).vlMax = h.vlMax := by unfold Hart.setX; split <;> rfl
@[simp] theorem Hart_setX_nregs (h : Hart) (r : BitVec 5) (v : Word) : (h.setX r v).nregs = h.nregs := by unfold Hart.setX; split <;> rfl
@[simp] theorem Hart_setX_aTiles (h : Hart) (r : BitVec 5) (v : Word) : (h.setX r v).aTiles = h.aTiles := by unfold Hart.setX; split <;> rfl
@[simp] theorem Hart_setX_mType (h : Hart) (r : BitVec 5) (v : Word) : (h.setX r v).mType = h.mType := by unfold Hart.setX; split <;> rfl
@[simp] theorem Hart_setX_nt (h : Hart) (r : BitVec 5) (v : Word) : (h.setX r v).nt = h.nt := by unfold Hart.setX; split <;> rfl
@[simp] theorem Hart_setX_tiles (h : Hart) (r : BitVec 5) (v : Word) : (h.setX r v).tiles = h.tiles := by unfold Hart.setX; split <;> rfl
@[simp] theorem Hart_setX_matQ (h : Hart) (r : BitVec 5) (v : Word) : (h.setX r v).matQ = h.matQ := by unfold Hart.setX; split <;> rfl
@[simp] theorem Hart_setX_csr (h : Hart) (r : BitVec 5) (v : Word) : (h.setX r v).csr = h.csr := by unfold Hart.setX; split <;> rfl
@[simp] theorem Hart_setX_league (h : Hart) (r : BitVec 5) (v : Word) : (h.setX r v).league = h.league := by unfold Hart.setX; split <;> rfl
@[simp] theorem Hart_setX_copyFault (h : Hart) (r : BitVec 5) (v : Word) : (h.setX r v).copyFault = h.copyFault := by unfold Hart.setX; split <;> rfl
@[simp] theorem Hart_setX_copyTold (h : Hart) (r : BitVec 5) (v : Word) : (h.setX r v).copyTold = h.copyTold := by unfold Hart.setX; split <;> rfl
@[simp] theorem Hart_setX_stopped (h : Hart) (r : BitVec 5) (v : Word) : (h.setX r v).stopped = h.stopped := by unfold Hart.setX; split <;> rfl
@[simp] theorem Hart_setX_startElem (h : Hart) (r : BitVec 5) (v : Word) : (h.setX r v).startElem = h.startElem := by unfold Hart.setX; split <;> rfl
@[simp] theorem Hart_setX_elemFrom (h : Hart) (r : BitVec 5) (v : Word) : (h.setX r v).elemFrom = h.elemFrom := by unfold Hart.setX; split <;> rfl
@[simp] theorem Hart_setX_posWritten (h : Hart) (r : BitVec 5) (v : Word) : (h.setX r v).posWritten = h.posWritten := by unfold Hart.setX; split <;> rfl
@[simp] theorem Hart_setX_atBarrier (h : Hart) (r : BitVec 5) (v : Word) : (h.setX r v).atBarrier = h.atBarrier := by unfold Hart.setX; split <;> rfl
@[simp] theorem Hart_setX_expired (h : Hart) (r : BitVec 5) (v : Word) : (h.setX r v).expired = h.expired := by unfold Hart.setX; split <;> rfl
@[simp] theorem Hart_setX_records (h : Hart) (r : BitVec 5) (v : Word) : (h.setX r v).records = h.records := by unfold Hart.setX; split <;> rfl
@[simp] theorem Hart_setX_furlong (h : Hart) (r : BitVec 5) (v : Word) : (h.setX r v).furlong = h.furlong := by unfold Hart.setX; split <;> rfl
@[simp] theorem Hart_setX_strip (h : Hart) (r : BitVec 5) (v : Word) : (h.setX r v).strip = h.strip := by unfold Hart.setX; split <;> rfl
@[simp] theorem Hart_setX_region (h : Hart) (r : BitVec 5) (v : Word) : (h.setX r v).region = h.region := by unfold Hart.setX; split <;> rfl
@[simp] theorem Hart_setX_pathAt (h : Hart) (r : BitVec 5) (v : Word) : (h.setX r v).pathAt = h.pathAt := by unfold Hart.setX; split <;> rfl
@[simp] theorem Hart_setX_kept (h : Hart) (r : BitVec 5) (v : Word) : (h.setX r v).kept = h.kept := by unfold Hart.setX; split <;> rfl
@[simp] theorem Hart_setX_split (h : Hart) (r : BitVec 5) (v : Word) : (h.setX r v).split = h.split := by unfold Hart.setX; split <;> rfl
@[simp] theorem Hart_setX_opaSplit (h : Hart) (r : BitVec 5) (v : Word) : (h.setX r v).opaSplit = h.opaSplit := by unfold Hart.setX; split <;> rfl
@[simp] theorem Hart_setX_replies (h : Hart) (r : BitVec 5) (v : Word) : (h.setX r v).replies = h.replies := by unfold Hart.setX; split <;> rfl
@[simp] theorem Hart_setX_pins (h : Hart) (r : BitVec 5) (v : Word) : (h.setX r v).pins = h.pins := by unfold Hart.setX; split <;> rfl
@[simp] theorem Hart_setX_vPsn (h : Hart) (r : BitVec 5) (v : Word) : (h.setX r v).vPsn = h.vPsn := by unfold Hart.setX; split <;> rfl
@[simp] theorem Hart_setX_mPsn (h : Hart) (r : BitVec 5) (v : Word) : (h.setX r v).mPsn = h.mPsn := by unfold Hart.setX; split <;> rfl
@[simp] theorem Hart_setX_tPsn (h : Hart) (r : BitVec 5) (v : Word) : (h.setX r v).tPsn = h.tPsn := by unfold Hart.setX; split <;> rfl

/-! ### Hart.setVTo -/

@[simp] theorem Hart_setVTo_uid (h : Hart) (r n : Nat) (v : VReg) : (h.setVTo r n v).uid = h.uid := by unfold Hart.setVTo; split <;> rfl
@[simp] theorem Hart_setVTo_phase (h : Hart) (r n : Nat) (v : VReg) : (h.setVTo r n v).phase = h.phase := by unfold Hart.setVTo; split <;> rfl
@[simp] theorem Hart_setVTo_place (h : Hart) (r n : Nat) (v : VReg) : (h.setVTo r n v).place = h.place := by unfold Hart.setVTo; split <;> rfl
@[simp] theorem Hart_setVTo_asid (h : Hart) (r n : Nat) (v : VReg) : (h.setVTo r n v).asid = h.asid := by unfold Hart.setVTo; split <;> rfl
@[simp] theorem Hart_setVTo_prio (h : Hart) (r n : Nat) (v : VReg) : (h.setVTo r n v).prio = h.prio := by unfold Hart.setVTo; split <;> rfl
@[simp] theorem Hart_setVTo_queue (h : Hart) (r n : Nat) (v : VReg) : (h.setVTo r n v).queue = h.queue := by unfold Hart.setVTo; split <;> rfl
@[simp] theorem Hart_setVTo_packet (h : Hart) (r n : Nat) (v : VReg) : (h.setVTo r n v).packet = h.packet := by unfold Hart.setVTo; split <;> rfl
@[simp] theorem Hart_setVTo_vlLo (h : Hart) (r n : Nat) (v : VReg) : (h.setVTo r n v).vlLo = h.vlLo := by unfold Hart.setVTo; split <;> rfl
@[simp] theorem Hart_setVTo_vlHi (h : Hart) (r n : Nat) (v : VReg) : (h.setVTo r n v).vlHi = h.vlHi := by unfold Hart.setVTo; split <;> rfl
@[simp] theorem Hart_setVTo_waitCount (h : Hart) (r n : Nat) (v : VReg) : (h.setVTo r n v).waitCount = h.waitCount := by unfold Hart.setVTo; split <;> rfl
@[simp] theorem Hart_setVTo_promoted (h : Hart) (r n : Nat) (v : VReg) : (h.setVTo r n v).promoted = h.promoted := by unfold Hart.setVTo; split <;> rfl
@[simp] theorem Hart_setVTo_dbgHalted (h : Hart) (r n : Nat) (v : VReg) : (h.setVTo r n v).dbgHalted = h.dbgHalted := by unfold Hart.setVTo; split <;> rfl
@[simp] theorem Hart_setVTo_held (h : Hart) (r n : Nat) (v : VReg) : (h.setVTo r n v).held = h.held := by unfold Hart.setVTo; split <;> rfl
@[simp] theorem Hart_setVTo_leaving (h : Hart) (r n : Nat) (v : VReg) : (h.setVTo r n v).leaving = h.leaving := by unfold Hart.setVTo; split <;> rfl
@[simp] theorem Hart_setVTo_fetched (h : Hart) (r n : Nat) (v : VReg) : (h.setVTo r n v).fetched = h.fetched := by unfold Hart.setVTo; split <;> rfl
@[simp] theorem Hart_setVTo_wait (h : Hart) (r n : Nat) (v : VReg) : (h.setVTo r n v).wait = h.wait := by unfold Hart.setVTo; split <;> rfl
@[simp] theorem Hart_setVTo_pc (h : Hart) (r n : Nat) (v : VReg) : (h.setVTo r n v).pc = h.pc := by unfold Hart.setVTo; split <;> rfl
@[simp] theorem Hart_setVTo_x (h : Hart) (r n : Nat) (v : VReg) : (h.setVTo r n v).x = h.x := by unfold Hart.setVTo; split <;> rfl
@[simp] theorem Hart_setVTo_vPi (h : Hart) (r n : Nat) (v : VReg) : (h.setVTo r n v).vPi = h.vPi := by unfold Hart.setVTo; split <;> rfl
@[simp] theorem Hart_setVTo_m (h : Hart) (r n : Nat) (v : VReg) : (h.setVTo r n v).m = h.m := by unfold Hart.setVTo; split <;> rfl
@[simp] theorem Hart_setVTo_mPi (h : Hart) (r n : Nat) (v : VReg) : (h.setVTo r n v).mPi = h.mPi := by unfold Hart.setVTo; split <;> rfl
@[simp] theorem Hart_setVTo_vl (h : Hart) (r n : Nat) (v : VReg) : (h.setVTo r n v).vl = h.vl := by unfold Hart.setVTo; split <;> rfl
@[simp] theorem Hart_setVTo_md (h : Hart) (r n : Nat) (v : VReg) : (h.setVTo r n v).md = h.md := by unfold Hart.setVTo; split <;> rfl
@[simp] theorem Hart_setVTo_ix (h : Hart) (r n : Nat) (v : VReg) : (h.setVTo r n v).ix = h.ix := by unfold Hart.setVTo; split <;> rfl
@[simp] theorem Hart_setVTo_b (h : Hart) (r n : Nat) (v : VReg) : (h.setVTo r n v).b = h.b := by unfold Hart.setVTo; split <;> rfl
@[simp] theorem Hart_setVTo_k (h : Hart) (r n : Nat) (v : VReg) : (h.setVTo r n v).k = h.k := by unfold Hart.setVTo; split <;> rfl
@[simp] theorem Hart_setVTo_bs (h : Hart) (r n : Nat) (v : VReg) : (h.setVTo r n v).bs = h.bs := by unfold Hart.setVTo; split <;> rfl
@[simp] theorem Hart_setVTo_vlMax (h : Hart) (r n : Nat) (v : VReg) : (h.setVTo r n v).vlMax = h.vlMax := by unfold Hart.setVTo; split <;> rfl
@[simp] theorem Hart_setVTo_nregs (h : Hart) (r n : Nat) (v : VReg) : (h.setVTo r n v).nregs = h.nregs := by unfold Hart.setVTo; split <;> rfl
@[simp] theorem Hart_setVTo_aTiles (h : Hart) (r n : Nat) (v : VReg) : (h.setVTo r n v).aTiles = h.aTiles := by unfold Hart.setVTo; split <;> rfl
@[simp] theorem Hart_setVTo_mType (h : Hart) (r n : Nat) (v : VReg) : (h.setVTo r n v).mType = h.mType := by unfold Hart.setVTo; split <;> rfl
@[simp] theorem Hart_setVTo_nt (h : Hart) (r n : Nat) (v : VReg) : (h.setVTo r n v).nt = h.nt := by unfold Hart.setVTo; split <;> rfl
@[simp] theorem Hart_setVTo_tiles (h : Hart) (r n : Nat) (v : VReg) : (h.setVTo r n v).tiles = h.tiles := by unfold Hart.setVTo; split <;> rfl
@[simp] theorem Hart_setVTo_matQ (h : Hart) (r n : Nat) (v : VReg) : (h.setVTo r n v).matQ = h.matQ := by unfold Hart.setVTo; split <;> rfl
@[simp] theorem Hart_setVTo_csr (h : Hart) (r n : Nat) (v : VReg) : (h.setVTo r n v).csr = h.csr := by unfold Hart.setVTo; split <;> rfl
@[simp] theorem Hart_setVTo_league (h : Hart) (r n : Nat) (v : VReg) : (h.setVTo r n v).league = h.league := by unfold Hart.setVTo; split <;> rfl
@[simp] theorem Hart_setVTo_copyFault (h : Hart) (r n : Nat) (v : VReg) : (h.setVTo r n v).copyFault = h.copyFault := by unfold Hart.setVTo; split <;> rfl
@[simp] theorem Hart_setVTo_copyTold (h : Hart) (r n : Nat) (v : VReg) : (h.setVTo r n v).copyTold = h.copyTold := by unfold Hart.setVTo; split <;> rfl
@[simp] theorem Hart_setVTo_stopped (h : Hart) (r n : Nat) (v : VReg) : (h.setVTo r n v).stopped = h.stopped := by unfold Hart.setVTo; split <;> rfl
@[simp] theorem Hart_setVTo_startElem (h : Hart) (r n : Nat) (v : VReg) : (h.setVTo r n v).startElem = h.startElem := by unfold Hart.setVTo; split <;> rfl
@[simp] theorem Hart_setVTo_elemFrom (h : Hart) (r n : Nat) (v : VReg) : (h.setVTo r n v).elemFrom = h.elemFrom := by unfold Hart.setVTo; split <;> rfl
@[simp] theorem Hart_setVTo_posWritten (h : Hart) (r n : Nat) (v : VReg) : (h.setVTo r n v).posWritten = h.posWritten := by unfold Hart.setVTo; split <;> rfl
@[simp] theorem Hart_setVTo_atBarrier (h : Hart) (r n : Nat) (v : VReg) : (h.setVTo r n v).atBarrier = h.atBarrier := by unfold Hart.setVTo; split <;> rfl
@[simp] theorem Hart_setVTo_expired (h : Hart) (r n : Nat) (v : VReg) : (h.setVTo r n v).expired = h.expired := by unfold Hart.setVTo; split <;> rfl
@[simp] theorem Hart_setVTo_records (h : Hart) (r n : Nat) (v : VReg) : (h.setVTo r n v).records = h.records := by unfold Hart.setVTo; split <;> rfl
@[simp] theorem Hart_setVTo_furlong (h : Hart) (r n : Nat) (v : VReg) : (h.setVTo r n v).furlong = h.furlong := by unfold Hart.setVTo; split <;> rfl
@[simp] theorem Hart_setVTo_strip (h : Hart) (r n : Nat) (v : VReg) : (h.setVTo r n v).strip = h.strip := by unfold Hart.setVTo; split <;> rfl
@[simp] theorem Hart_setVTo_region (h : Hart) (r n : Nat) (v : VReg) : (h.setVTo r n v).region = h.region := by unfold Hart.setVTo; split <;> rfl
@[simp] theorem Hart_setVTo_pathAt (h : Hart) (r n : Nat) (v : VReg) : (h.setVTo r n v).pathAt = h.pathAt := by unfold Hart.setVTo; split <;> rfl
@[simp] theorem Hart_setVTo_kept (h : Hart) (r n : Nat) (v : VReg) : (h.setVTo r n v).kept = h.kept := by unfold Hart.setVTo; split <;> rfl
@[simp] theorem Hart_setVTo_split (h : Hart) (r n : Nat) (v : VReg) : (h.setVTo r n v).split = h.split := by unfold Hart.setVTo; split <;> rfl
@[simp] theorem Hart_setVTo_opaSplit (h : Hart) (r n : Nat) (v : VReg) : (h.setVTo r n v).opaSplit = h.opaSplit := by unfold Hart.setVTo; split <;> rfl
@[simp] theorem Hart_setVTo_replies (h : Hart) (r n : Nat) (v : VReg) : (h.setVTo r n v).replies = h.replies := by unfold Hart.setVTo; split <;> rfl
@[simp] theorem Hart_setVTo_pins (h : Hart) (r n : Nat) (v : VReg) : (h.setVTo r n v).pins = h.pins := by unfold Hart.setVTo; split <;> rfl
@[simp] theorem Hart_setVTo_vPsn (h : Hart) (r n : Nat) (v : VReg) : (h.setVTo r n v).vPsn = h.vPsn := by unfold Hart.setVTo; split <;> rfl
@[simp] theorem Hart_setVTo_mPsn (h : Hart) (r n : Nat) (v : VReg) : (h.setVTo r n v).mPsn = h.mPsn := by unfold Hart.setVTo; split <;> rfl
@[simp] theorem Hart_setVTo_tPsn (h : Hart) (r n : Nat) (v : VReg) : (h.setVTo r n v).tPsn = h.tPsn := by unfold Hart.setVTo; split <;> rfl

/-! ### Hart.setPi -/

@[simp] theorem Hart_setPi_uid (h : Hart) (r e : Nat) : (h.setPi r e).uid = h.uid := by unfold Hart.setPi; split <;> rfl
@[simp] theorem Hart_setPi_phase (h : Hart) (r e : Nat) : (h.setPi r e).phase = h.phase := by unfold Hart.setPi; split <;> rfl
@[simp] theorem Hart_setPi_place (h : Hart) (r e : Nat) : (h.setPi r e).place = h.place := by unfold Hart.setPi; split <;> rfl
@[simp] theorem Hart_setPi_asid (h : Hart) (r e : Nat) : (h.setPi r e).asid = h.asid := by unfold Hart.setPi; split <;> rfl
@[simp] theorem Hart_setPi_prio (h : Hart) (r e : Nat) : (h.setPi r e).prio = h.prio := by unfold Hart.setPi; split <;> rfl
@[simp] theorem Hart_setPi_queue (h : Hart) (r e : Nat) : (h.setPi r e).queue = h.queue := by unfold Hart.setPi; split <;> rfl
@[simp] theorem Hart_setPi_packet (h : Hart) (r e : Nat) : (h.setPi r e).packet = h.packet := by unfold Hart.setPi; split <;> rfl
@[simp] theorem Hart_setPi_vlLo (h : Hart) (r e : Nat) : (h.setPi r e).vlLo = h.vlLo := by unfold Hart.setPi; split <;> rfl
@[simp] theorem Hart_setPi_vlHi (h : Hart) (r e : Nat) : (h.setPi r e).vlHi = h.vlHi := by unfold Hart.setPi; split <;> rfl
@[simp] theorem Hart_setPi_waitCount (h : Hart) (r e : Nat) : (h.setPi r e).waitCount = h.waitCount := by unfold Hart.setPi; split <;> rfl
@[simp] theorem Hart_setPi_promoted (h : Hart) (r e : Nat) : (h.setPi r e).promoted = h.promoted := by unfold Hart.setPi; split <;> rfl
@[simp] theorem Hart_setPi_dbgHalted (h : Hart) (r e : Nat) : (h.setPi r e).dbgHalted = h.dbgHalted := by unfold Hart.setPi; split <;> rfl
@[simp] theorem Hart_setPi_held (h : Hart) (r e : Nat) : (h.setPi r e).held = h.held := by unfold Hart.setPi; split <;> rfl
@[simp] theorem Hart_setPi_leaving (h : Hart) (r e : Nat) : (h.setPi r e).leaving = h.leaving := by unfold Hart.setPi; split <;> rfl
@[simp] theorem Hart_setPi_fetched (h : Hart) (r e : Nat) : (h.setPi r e).fetched = h.fetched := by unfold Hart.setPi; split <;> rfl
@[simp] theorem Hart_setPi_wait (h : Hart) (r e : Nat) : (h.setPi r e).wait = h.wait := by unfold Hart.setPi; split <;> rfl
@[simp] theorem Hart_setPi_pc (h : Hart) (r e : Nat) : (h.setPi r e).pc = h.pc := by unfold Hart.setPi; split <;> rfl
@[simp] theorem Hart_setPi_x (h : Hart) (r e : Nat) : (h.setPi r e).x = h.x := by unfold Hart.setPi; split <;> rfl
@[simp] theorem Hart_setPi_v (h : Hart) (r e : Nat) : (h.setPi r e).v = h.v := by unfold Hart.setPi; split <;> rfl
@[simp] theorem Hart_setPi_vDirty (h : Hart) (r e : Nat) : (h.setPi r e).vDirty = h.vDirty := by unfold Hart.setPi; split <;> rfl
@[simp] theorem Hart_setPi_m (h : Hart) (r e : Nat) : (h.setPi r e).m = h.m := by unfold Hart.setPi; split <;> rfl
@[simp] theorem Hart_setPi_mPi (h : Hart) (r e : Nat) : (h.setPi r e).mPi = h.mPi := by unfold Hart.setPi; split <;> rfl
@[simp] theorem Hart_setPi_vl (h : Hart) (r e : Nat) : (h.setPi r e).vl = h.vl := by unfold Hart.setPi; split <;> rfl
@[simp] theorem Hart_setPi_md (h : Hart) (r e : Nat) : (h.setPi r e).md = h.md := by unfold Hart.setPi; split <;> rfl
@[simp] theorem Hart_setPi_ix (h : Hart) (r e : Nat) : (h.setPi r e).ix = h.ix := by unfold Hart.setPi; split <;> rfl
@[simp] theorem Hart_setPi_b (h : Hart) (r e : Nat) : (h.setPi r e).b = h.b := by unfold Hart.setPi; split <;> rfl
@[simp] theorem Hart_setPi_k (h : Hart) (r e : Nat) : (h.setPi r e).k = h.k := by unfold Hart.setPi; split <;> rfl
@[simp] theorem Hart_setPi_bs (h : Hart) (r e : Nat) : (h.setPi r e).bs = h.bs := by unfold Hart.setPi; split <;> rfl
@[simp] theorem Hart_setPi_vlMax (h : Hart) (r e : Nat) : (h.setPi r e).vlMax = h.vlMax := by unfold Hart.setPi; split <;> rfl
@[simp] theorem Hart_setPi_nregs (h : Hart) (r e : Nat) : (h.setPi r e).nregs = h.nregs := by unfold Hart.setPi; split <;> rfl
@[simp] theorem Hart_setPi_aTiles (h : Hart) (r e : Nat) : (h.setPi r e).aTiles = h.aTiles := by unfold Hart.setPi; split <;> rfl
@[simp] theorem Hart_setPi_mType (h : Hart) (r e : Nat) : (h.setPi r e).mType = h.mType := by unfold Hart.setPi; split <;> rfl
@[simp] theorem Hart_setPi_nt (h : Hart) (r e : Nat) : (h.setPi r e).nt = h.nt := by unfold Hart.setPi; split <;> rfl
@[simp] theorem Hart_setPi_tiles (h : Hart) (r e : Nat) : (h.setPi r e).tiles = h.tiles := by unfold Hart.setPi; split <;> rfl
@[simp] theorem Hart_setPi_matQ (h : Hart) (r e : Nat) : (h.setPi r e).matQ = h.matQ := by unfold Hart.setPi; split <;> rfl
@[simp] theorem Hart_setPi_csr (h : Hart) (r e : Nat) : (h.setPi r e).csr = h.csr := by unfold Hart.setPi; split <;> rfl
@[simp] theorem Hart_setPi_league (h : Hart) (r e : Nat) : (h.setPi r e).league = h.league := by unfold Hart.setPi; split <;> rfl
@[simp] theorem Hart_setPi_copyFault (h : Hart) (r e : Nat) : (h.setPi r e).copyFault = h.copyFault := by unfold Hart.setPi; split <;> rfl
@[simp] theorem Hart_setPi_copyTold (h : Hart) (r e : Nat) : (h.setPi r e).copyTold = h.copyTold := by unfold Hart.setPi; split <;> rfl
@[simp] theorem Hart_setPi_stopped (h : Hart) (r e : Nat) : (h.setPi r e).stopped = h.stopped := by unfold Hart.setPi; split <;> rfl
@[simp] theorem Hart_setPi_startElem (h : Hart) (r e : Nat) : (h.setPi r e).startElem = h.startElem := by unfold Hart.setPi; split <;> rfl
@[simp] theorem Hart_setPi_elemFrom (h : Hart) (r e : Nat) : (h.setPi r e).elemFrom = h.elemFrom := by unfold Hart.setPi; split <;> rfl
@[simp] theorem Hart_setPi_posWritten (h : Hart) (r e : Nat) : (h.setPi r e).posWritten = h.posWritten := by unfold Hart.setPi; split <;> rfl
@[simp] theorem Hart_setPi_atBarrier (h : Hart) (r e : Nat) : (h.setPi r e).atBarrier = h.atBarrier := by unfold Hart.setPi; split <;> rfl
@[simp] theorem Hart_setPi_expired (h : Hart) (r e : Nat) : (h.setPi r e).expired = h.expired := by unfold Hart.setPi; split <;> rfl
@[simp] theorem Hart_setPi_records (h : Hart) (r e : Nat) : (h.setPi r e).records = h.records := by unfold Hart.setPi; split <;> rfl
@[simp] theorem Hart_setPi_furlong (h : Hart) (r e : Nat) : (h.setPi r e).furlong = h.furlong := by unfold Hart.setPi; split <;> rfl
@[simp] theorem Hart_setPi_strip (h : Hart) (r e : Nat) : (h.setPi r e).strip = h.strip := by unfold Hart.setPi; split <;> rfl
@[simp] theorem Hart_setPi_region (h : Hart) (r e : Nat) : (h.setPi r e).region = h.region := by unfold Hart.setPi; split <;> rfl
@[simp] theorem Hart_setPi_pathAt (h : Hart) (r e : Nat) : (h.setPi r e).pathAt = h.pathAt := by unfold Hart.setPi; split <;> rfl
@[simp] theorem Hart_setPi_kept (h : Hart) (r e : Nat) : (h.setPi r e).kept = h.kept := by unfold Hart.setPi; split <;> rfl
@[simp] theorem Hart_setPi_split (h : Hart) (r e : Nat) : (h.setPi r e).split = h.split := by unfold Hart.setPi; split <;> rfl
@[simp] theorem Hart_setPi_opaSplit (h : Hart) (r e : Nat) : (h.setPi r e).opaSplit = h.opaSplit := by unfold Hart.setPi; split <;> rfl
@[simp] theorem Hart_setPi_replies (h : Hart) (r e : Nat) : (h.setPi r e).replies = h.replies := by unfold Hart.setPi; split <;> rfl
@[simp] theorem Hart_setPi_pins (h : Hart) (r e : Nat) : (h.setPi r e).pins = h.pins := by unfold Hart.setPi; split <;> rfl
@[simp] theorem Hart_setPi_vPsn (h : Hart) (r e : Nat) : (h.setPi r e).vPsn = h.vPsn := by unfold Hart.setPi; split <;> rfl
@[simp] theorem Hart_setPi_mPsn (h : Hart) (r e : Nat) : (h.setPi r e).mPsn = h.mPsn := by unfold Hart.setPi; split <;> rfl
@[simp] theorem Hart_setPi_tPsn (h : Hart) (r e : Nat) : (h.setPi r e).tPsn = h.tPsn := by unfold Hart.setPi; split <;> rfl

/-! ### Hart.setM -/

@[simp] theorem Hart_setM_uid (h : Hart) (r : Nat) (v : MReg) : (h.setM r v).uid = h.uid := by unfold Hart.setM; split <;> rfl
@[simp] theorem Hart_setM_phase (h : Hart) (r : Nat) (v : MReg) : (h.setM r v).phase = h.phase := by unfold Hart.setM; split <;> rfl
@[simp] theorem Hart_setM_place (h : Hart) (r : Nat) (v : MReg) : (h.setM r v).place = h.place := by unfold Hart.setM; split <;> rfl
@[simp] theorem Hart_setM_asid (h : Hart) (r : Nat) (v : MReg) : (h.setM r v).asid = h.asid := by unfold Hart.setM; split <;> rfl
@[simp] theorem Hart_setM_prio (h : Hart) (r : Nat) (v : MReg) : (h.setM r v).prio = h.prio := by unfold Hart.setM; split <;> rfl
@[simp] theorem Hart_setM_queue (h : Hart) (r : Nat) (v : MReg) : (h.setM r v).queue = h.queue := by unfold Hart.setM; split <;> rfl
@[simp] theorem Hart_setM_packet (h : Hart) (r : Nat) (v : MReg) : (h.setM r v).packet = h.packet := by unfold Hart.setM; split <;> rfl
@[simp] theorem Hart_setM_vlLo (h : Hart) (r : Nat) (v : MReg) : (h.setM r v).vlLo = h.vlLo := by unfold Hart.setM; split <;> rfl
@[simp] theorem Hart_setM_vlHi (h : Hart) (r : Nat) (v : MReg) : (h.setM r v).vlHi = h.vlHi := by unfold Hart.setM; split <;> rfl
@[simp] theorem Hart_setM_waitCount (h : Hart) (r : Nat) (v : MReg) : (h.setM r v).waitCount = h.waitCount := by unfold Hart.setM; split <;> rfl
@[simp] theorem Hart_setM_promoted (h : Hart) (r : Nat) (v : MReg) : (h.setM r v).promoted = h.promoted := by unfold Hart.setM; split <;> rfl
@[simp] theorem Hart_setM_dbgHalted (h : Hart) (r : Nat) (v : MReg) : (h.setM r v).dbgHalted = h.dbgHalted := by unfold Hart.setM; split <;> rfl
@[simp] theorem Hart_setM_held (h : Hart) (r : Nat) (v : MReg) : (h.setM r v).held = h.held := by unfold Hart.setM; split <;> rfl
@[simp] theorem Hart_setM_leaving (h : Hart) (r : Nat) (v : MReg) : (h.setM r v).leaving = h.leaving := by unfold Hart.setM; split <;> rfl
@[simp] theorem Hart_setM_fetched (h : Hart) (r : Nat) (v : MReg) : (h.setM r v).fetched = h.fetched := by unfold Hart.setM; split <;> rfl
@[simp] theorem Hart_setM_wait (h : Hart) (r : Nat) (v : MReg) : (h.setM r v).wait = h.wait := by unfold Hart.setM; split <;> rfl
@[simp] theorem Hart_setM_pc (h : Hart) (r : Nat) (v : MReg) : (h.setM r v).pc = h.pc := by unfold Hart.setM; split <;> rfl
@[simp] theorem Hart_setM_x (h : Hart) (r : Nat) (v : MReg) : (h.setM r v).x = h.x := by unfold Hart.setM; split <;> rfl
@[simp] theorem Hart_setM_v (h : Hart) (r : Nat) (v : MReg) : (h.setM r v).v = h.v := by unfold Hart.setM; split <;> rfl
@[simp] theorem Hart_setM_vPi (h : Hart) (r : Nat) (v : MReg) : (h.setM r v).vPi = h.vPi := by unfold Hart.setM; split <;> rfl
@[simp] theorem Hart_setM_vDirty (h : Hart) (r : Nat) (v : MReg) : (h.setM r v).vDirty = h.vDirty := by unfold Hart.setM; split <;> rfl
@[simp] theorem Hart_setM_mPi (h : Hart) (r : Nat) (v : MReg) : (h.setM r v).mPi = h.mPi := by unfold Hart.setM; split <;> rfl
@[simp] theorem Hart_setM_vl (h : Hart) (r : Nat) (v : MReg) : (h.setM r v).vl = h.vl := by unfold Hart.setM; split <;> rfl
@[simp] theorem Hart_setM_md (h : Hart) (r : Nat) (v : MReg) : (h.setM r v).md = h.md := by unfold Hart.setM; split <;> rfl
@[simp] theorem Hart_setM_ix (h : Hart) (r : Nat) (v : MReg) : (h.setM r v).ix = h.ix := by unfold Hart.setM; split <;> rfl
@[simp] theorem Hart_setM_b (h : Hart) (r : Nat) (v : MReg) : (h.setM r v).b = h.b := by unfold Hart.setM; split <;> rfl
@[simp] theorem Hart_setM_k (h : Hart) (r : Nat) (v : MReg) : (h.setM r v).k = h.k := by unfold Hart.setM; split <;> rfl
@[simp] theorem Hart_setM_bs (h : Hart) (r : Nat) (v : MReg) : (h.setM r v).bs = h.bs := by unfold Hart.setM; split <;> rfl
@[simp] theorem Hart_setM_vlMax (h : Hart) (r : Nat) (v : MReg) : (h.setM r v).vlMax = h.vlMax := by unfold Hart.setM; split <;> rfl
@[simp] theorem Hart_setM_nregs (h : Hart) (r : Nat) (v : MReg) : (h.setM r v).nregs = h.nregs := by unfold Hart.setM; split <;> rfl
@[simp] theorem Hart_setM_aTiles (h : Hart) (r : Nat) (v : MReg) : (h.setM r v).aTiles = h.aTiles := by unfold Hart.setM; split <;> rfl
@[simp] theorem Hart_setM_mType (h : Hart) (r : Nat) (v : MReg) : (h.setM r v).mType = h.mType := by unfold Hart.setM; split <;> rfl
@[simp] theorem Hart_setM_nt (h : Hart) (r : Nat) (v : MReg) : (h.setM r v).nt = h.nt := by unfold Hart.setM; split <;> rfl
@[simp] theorem Hart_setM_tiles (h : Hart) (r : Nat) (v : MReg) : (h.setM r v).tiles = h.tiles := by unfold Hart.setM; split <;> rfl
@[simp] theorem Hart_setM_matQ (h : Hart) (r : Nat) (v : MReg) : (h.setM r v).matQ = h.matQ := by unfold Hart.setM; split <;> rfl
@[simp] theorem Hart_setM_csr (h : Hart) (r : Nat) (v : MReg) : (h.setM r v).csr = h.csr := by unfold Hart.setM; split <;> rfl
@[simp] theorem Hart_setM_league (h : Hart) (r : Nat) (v : MReg) : (h.setM r v).league = h.league := by unfold Hart.setM; split <;> rfl
@[simp] theorem Hart_setM_copyFault (h : Hart) (r : Nat) (v : MReg) : (h.setM r v).copyFault = h.copyFault := by unfold Hart.setM; split <;> rfl
@[simp] theorem Hart_setM_copyTold (h : Hart) (r : Nat) (v : MReg) : (h.setM r v).copyTold = h.copyTold := by unfold Hart.setM; split <;> rfl
@[simp] theorem Hart_setM_stopped (h : Hart) (r : Nat) (v : MReg) : (h.setM r v).stopped = h.stopped := by unfold Hart.setM; split <;> rfl
@[simp] theorem Hart_setM_startElem (h : Hart) (r : Nat) (v : MReg) : (h.setM r v).startElem = h.startElem := by unfold Hart.setM; split <;> rfl
@[simp] theorem Hart_setM_elemFrom (h : Hart) (r : Nat) (v : MReg) : (h.setM r v).elemFrom = h.elemFrom := by unfold Hart.setM; split <;> rfl
@[simp] theorem Hart_setM_posWritten (h : Hart) (r : Nat) (v : MReg) : (h.setM r v).posWritten = h.posWritten := by unfold Hart.setM; split <;> rfl
@[simp] theorem Hart_setM_atBarrier (h : Hart) (r : Nat) (v : MReg) : (h.setM r v).atBarrier = h.atBarrier := by unfold Hart.setM; split <;> rfl
@[simp] theorem Hart_setM_expired (h : Hart) (r : Nat) (v : MReg) : (h.setM r v).expired = h.expired := by unfold Hart.setM; split <;> rfl
@[simp] theorem Hart_setM_records (h : Hart) (r : Nat) (v : MReg) : (h.setM r v).records = h.records := by unfold Hart.setM; split <;> rfl
@[simp] theorem Hart_setM_furlong (h : Hart) (r : Nat) (v : MReg) : (h.setM r v).furlong = h.furlong := by unfold Hart.setM; split <;> rfl
@[simp] theorem Hart_setM_strip (h : Hart) (r : Nat) (v : MReg) : (h.setM r v).strip = h.strip := by unfold Hart.setM; split <;> rfl
@[simp] theorem Hart_setM_region (h : Hart) (r : Nat) (v : MReg) : (h.setM r v).region = h.region := by unfold Hart.setM; split <;> rfl
@[simp] theorem Hart_setM_pathAt (h : Hart) (r : Nat) (v : MReg) : (h.setM r v).pathAt = h.pathAt := by unfold Hart.setM; split <;> rfl
@[simp] theorem Hart_setM_kept (h : Hart) (r : Nat) (v : MReg) : (h.setM r v).kept = h.kept := by unfold Hart.setM; split <;> rfl
@[simp] theorem Hart_setM_split (h : Hart) (r : Nat) (v : MReg) : (h.setM r v).split = h.split := by unfold Hart.setM; split <;> rfl
@[simp] theorem Hart_setM_opaSplit (h : Hart) (r : Nat) (v : MReg) : (h.setM r v).opaSplit = h.opaSplit := by unfold Hart.setM; split <;> rfl
@[simp] theorem Hart_setM_replies (h : Hart) (r : Nat) (v : MReg) : (h.setM r v).replies = h.replies := by unfold Hart.setM; split <;> rfl
@[simp] theorem Hart_setM_pins (h : Hart) (r : Nat) (v : MReg) : (h.setM r v).pins = h.pins := by unfold Hart.setM; split <;> rfl
@[simp] theorem Hart_setM_vPsn (h : Hart) (r : Nat) (v : MReg) : (h.setM r v).vPsn = h.vPsn := by unfold Hart.setM; split <;> rfl
@[simp] theorem Hart_setM_mPsn (h : Hart) (r : Nat) (v : MReg) : (h.setM r v).mPsn = h.mPsn := by unfold Hart.setM; split <;> rfl
@[simp] theorem Hart_setM_tPsn (h : Hart) (r : Nat) (v : MReg) : (h.setM r v).tPsn = h.tPsn := by unfold Hart.setM; split <;> rfl

/-! ### Hart.setTile -/

@[simp] theorem Hart_setTile_uid (h : Hart) (r : Nat) (v : Tile) : (h.setTile r v).uid = h.uid := by unfold Hart.setTile; split <;> rfl
@[simp] theorem Hart_setTile_phase (h : Hart) (r : Nat) (v : Tile) : (h.setTile r v).phase = h.phase := by unfold Hart.setTile; split <;> rfl
@[simp] theorem Hart_setTile_place (h : Hart) (r : Nat) (v : Tile) : (h.setTile r v).place = h.place := by unfold Hart.setTile; split <;> rfl
@[simp] theorem Hart_setTile_asid (h : Hart) (r : Nat) (v : Tile) : (h.setTile r v).asid = h.asid := by unfold Hart.setTile; split <;> rfl
@[simp] theorem Hart_setTile_prio (h : Hart) (r : Nat) (v : Tile) : (h.setTile r v).prio = h.prio := by unfold Hart.setTile; split <;> rfl
@[simp] theorem Hart_setTile_queue (h : Hart) (r : Nat) (v : Tile) : (h.setTile r v).queue = h.queue := by unfold Hart.setTile; split <;> rfl
@[simp] theorem Hart_setTile_packet (h : Hart) (r : Nat) (v : Tile) : (h.setTile r v).packet = h.packet := by unfold Hart.setTile; split <;> rfl
@[simp] theorem Hart_setTile_vlLo (h : Hart) (r : Nat) (v : Tile) : (h.setTile r v).vlLo = h.vlLo := by unfold Hart.setTile; split <;> rfl
@[simp] theorem Hart_setTile_vlHi (h : Hart) (r : Nat) (v : Tile) : (h.setTile r v).vlHi = h.vlHi := by unfold Hart.setTile; split <;> rfl
@[simp] theorem Hart_setTile_waitCount (h : Hart) (r : Nat) (v : Tile) : (h.setTile r v).waitCount = h.waitCount := by unfold Hart.setTile; split <;> rfl
@[simp] theorem Hart_setTile_promoted (h : Hart) (r : Nat) (v : Tile) : (h.setTile r v).promoted = h.promoted := by unfold Hart.setTile; split <;> rfl
@[simp] theorem Hart_setTile_dbgHalted (h : Hart) (r : Nat) (v : Tile) : (h.setTile r v).dbgHalted = h.dbgHalted := by unfold Hart.setTile; split <;> rfl
@[simp] theorem Hart_setTile_held (h : Hart) (r : Nat) (v : Tile) : (h.setTile r v).held = h.held := by unfold Hart.setTile; split <;> rfl
@[simp] theorem Hart_setTile_leaving (h : Hart) (r : Nat) (v : Tile) : (h.setTile r v).leaving = h.leaving := by unfold Hart.setTile; split <;> rfl
@[simp] theorem Hart_setTile_fetched (h : Hart) (r : Nat) (v : Tile) : (h.setTile r v).fetched = h.fetched := by unfold Hart.setTile; split <;> rfl
@[simp] theorem Hart_setTile_wait (h : Hart) (r : Nat) (v : Tile) : (h.setTile r v).wait = h.wait := by unfold Hart.setTile; split <;> rfl
@[simp] theorem Hart_setTile_pc (h : Hart) (r : Nat) (v : Tile) : (h.setTile r v).pc = h.pc := by unfold Hart.setTile; split <;> rfl
@[simp] theorem Hart_setTile_x (h : Hart) (r : Nat) (v : Tile) : (h.setTile r v).x = h.x := by unfold Hart.setTile; split <;> rfl
@[simp] theorem Hart_setTile_v (h : Hart) (r : Nat) (v : Tile) : (h.setTile r v).v = h.v := by unfold Hart.setTile; split <;> rfl
@[simp] theorem Hart_setTile_vPi (h : Hart) (r : Nat) (v : Tile) : (h.setTile r v).vPi = h.vPi := by unfold Hart.setTile; split <;> rfl
@[simp] theorem Hart_setTile_vDirty (h : Hart) (r : Nat) (v : Tile) : (h.setTile r v).vDirty = h.vDirty := by unfold Hart.setTile; split <;> rfl
@[simp] theorem Hart_setTile_m (h : Hart) (r : Nat) (v : Tile) : (h.setTile r v).m = h.m := by unfold Hart.setTile; split <;> rfl
@[simp] theorem Hart_setTile_mPi (h : Hart) (r : Nat) (v : Tile) : (h.setTile r v).mPi = h.mPi := by unfold Hart.setTile; split <;> rfl
@[simp] theorem Hart_setTile_vl (h : Hart) (r : Nat) (v : Tile) : (h.setTile r v).vl = h.vl := by unfold Hart.setTile; split <;> rfl
@[simp] theorem Hart_setTile_md (h : Hart) (r : Nat) (v : Tile) : (h.setTile r v).md = h.md := by unfold Hart.setTile; split <;> rfl
@[simp] theorem Hart_setTile_ix (h : Hart) (r : Nat) (v : Tile) : (h.setTile r v).ix = h.ix := by unfold Hart.setTile; split <;> rfl
@[simp] theorem Hart_setTile_b (h : Hart) (r : Nat) (v : Tile) : (h.setTile r v).b = h.b := by unfold Hart.setTile; split <;> rfl
@[simp] theorem Hart_setTile_k (h : Hart) (r : Nat) (v : Tile) : (h.setTile r v).k = h.k := by unfold Hart.setTile; split <;> rfl
@[simp] theorem Hart_setTile_bs (h : Hart) (r : Nat) (v : Tile) : (h.setTile r v).bs = h.bs := by unfold Hart.setTile; split <;> rfl
@[simp] theorem Hart_setTile_vlMax (h : Hart) (r : Nat) (v : Tile) : (h.setTile r v).vlMax = h.vlMax := by unfold Hart.setTile; split <;> rfl
@[simp] theorem Hart_setTile_nregs (h : Hart) (r : Nat) (v : Tile) : (h.setTile r v).nregs = h.nregs := by unfold Hart.setTile; split <;> rfl
@[simp] theorem Hart_setTile_aTiles (h : Hart) (r : Nat) (v : Tile) : (h.setTile r v).aTiles = h.aTiles := by unfold Hart.setTile; split <;> rfl
@[simp] theorem Hart_setTile_mType (h : Hart) (r : Nat) (v : Tile) : (h.setTile r v).mType = h.mType := by unfold Hart.setTile; split <;> rfl
@[simp] theorem Hart_setTile_nt (h : Hart) (r : Nat) (v : Tile) : (h.setTile r v).nt = h.nt := by unfold Hart.setTile; split <;> rfl
@[simp] theorem Hart_setTile_matQ (h : Hart) (r : Nat) (v : Tile) : (h.setTile r v).matQ = h.matQ := by unfold Hart.setTile; split <;> rfl
@[simp] theorem Hart_setTile_csr (h : Hart) (r : Nat) (v : Tile) : (h.setTile r v).csr = h.csr := by unfold Hart.setTile; split <;> rfl
@[simp] theorem Hart_setTile_league (h : Hart) (r : Nat) (v : Tile) : (h.setTile r v).league = h.league := by unfold Hart.setTile; split <;> rfl
@[simp] theorem Hart_setTile_copyFault (h : Hart) (r : Nat) (v : Tile) : (h.setTile r v).copyFault = h.copyFault := by unfold Hart.setTile; split <;> rfl
@[simp] theorem Hart_setTile_copyTold (h : Hart) (r : Nat) (v : Tile) : (h.setTile r v).copyTold = h.copyTold := by unfold Hart.setTile; split <;> rfl
@[simp] theorem Hart_setTile_stopped (h : Hart) (r : Nat) (v : Tile) : (h.setTile r v).stopped = h.stopped := by unfold Hart.setTile; split <;> rfl
@[simp] theorem Hart_setTile_startElem (h : Hart) (r : Nat) (v : Tile) : (h.setTile r v).startElem = h.startElem := by unfold Hart.setTile; split <;> rfl
@[simp] theorem Hart_setTile_elemFrom (h : Hart) (r : Nat) (v : Tile) : (h.setTile r v).elemFrom = h.elemFrom := by unfold Hart.setTile; split <;> rfl
@[simp] theorem Hart_setTile_posWritten (h : Hart) (r : Nat) (v : Tile) : (h.setTile r v).posWritten = h.posWritten := by unfold Hart.setTile; split <;> rfl
@[simp] theorem Hart_setTile_atBarrier (h : Hart) (r : Nat) (v : Tile) : (h.setTile r v).atBarrier = h.atBarrier := by unfold Hart.setTile; split <;> rfl
@[simp] theorem Hart_setTile_expired (h : Hart) (r : Nat) (v : Tile) : (h.setTile r v).expired = h.expired := by unfold Hart.setTile; split <;> rfl
@[simp] theorem Hart_setTile_records (h : Hart) (r : Nat) (v : Tile) : (h.setTile r v).records = h.records := by unfold Hart.setTile; split <;> rfl
@[simp] theorem Hart_setTile_furlong (h : Hart) (r : Nat) (v : Tile) : (h.setTile r v).furlong = h.furlong := by unfold Hart.setTile; split <;> rfl
@[simp] theorem Hart_setTile_strip (h : Hart) (r : Nat) (v : Tile) : (h.setTile r v).strip = h.strip := by unfold Hart.setTile; split <;> rfl
@[simp] theorem Hart_setTile_region (h : Hart) (r : Nat) (v : Tile) : (h.setTile r v).region = h.region := by unfold Hart.setTile; split <;> rfl
@[simp] theorem Hart_setTile_pathAt (h : Hart) (r : Nat) (v : Tile) : (h.setTile r v).pathAt = h.pathAt := by unfold Hart.setTile; split <;> rfl
@[simp] theorem Hart_setTile_kept (h : Hart) (r : Nat) (v : Tile) : (h.setTile r v).kept = h.kept := by unfold Hart.setTile; split <;> rfl
@[simp] theorem Hart_setTile_split (h : Hart) (r : Nat) (v : Tile) : (h.setTile r v).split = h.split := by unfold Hart.setTile; split <;> rfl
@[simp] theorem Hart_setTile_opaSplit (h : Hart) (r : Nat) (v : Tile) : (h.setTile r v).opaSplit = h.opaSplit := by unfold Hart.setTile; split <;> rfl
@[simp] theorem Hart_setTile_replies (h : Hart) (r : Nat) (v : Tile) : (h.setTile r v).replies = h.replies := by unfold Hart.setTile; split <;> rfl
@[simp] theorem Hart_setTile_pins (h : Hart) (r : Nat) (v : Tile) : (h.setTile r v).pins = h.pins := by unfold Hart.setTile; split <;> rfl
@[simp] theorem Hart_setTile_vPsn (h : Hart) (r : Nat) (v : Tile) : (h.setTile r v).vPsn = h.vPsn := by unfold Hart.setTile; split <;> rfl
@[simp] theorem Hart_setTile_mPsn (h : Hart) (r : Nat) (v : Tile) : (h.setTile r v).mPsn = h.mPsn := by unfold Hart.setTile; split <;> rfl
@[simp] theorem Hart_setTile_tPsn (h : Hart) (r : Nat) (v : Tile) : (h.setTile r v).tPsn = h.tPsn := by unfold Hart.setTile; split <;> rfl

/-! ### Hart.bumpK -/

@[simp] theorem Hart_bumpK_uid (h : Hart) (n : Nat) : (h.bumpK n).uid = h.uid := by unfold Hart.bumpK; split <;> rfl
@[simp] theorem Hart_bumpK_phase (h : Hart) (n : Nat) : (h.bumpK n).phase = h.phase := by unfold Hart.bumpK; split <;> rfl
@[simp] theorem Hart_bumpK_place (h : Hart) (n : Nat) : (h.bumpK n).place = h.place := by unfold Hart.bumpK; split <;> rfl
@[simp] theorem Hart_bumpK_asid (h : Hart) (n : Nat) : (h.bumpK n).asid = h.asid := by unfold Hart.bumpK; split <;> rfl
@[simp] theorem Hart_bumpK_prio (h : Hart) (n : Nat) : (h.bumpK n).prio = h.prio := by unfold Hart.bumpK; split <;> rfl
@[simp] theorem Hart_bumpK_queue (h : Hart) (n : Nat) : (h.bumpK n).queue = h.queue := by unfold Hart.bumpK; split <;> rfl
@[simp] theorem Hart_bumpK_packet (h : Hart) (n : Nat) : (h.bumpK n).packet = h.packet := by unfold Hart.bumpK; split <;> rfl
@[simp] theorem Hart_bumpK_vlLo (h : Hart) (n : Nat) : (h.bumpK n).vlLo = h.vlLo := by unfold Hart.bumpK; split <;> rfl
@[simp] theorem Hart_bumpK_vlHi (h : Hart) (n : Nat) : (h.bumpK n).vlHi = h.vlHi := by unfold Hart.bumpK; split <;> rfl
@[simp] theorem Hart_bumpK_waitCount (h : Hart) (n : Nat) : (h.bumpK n).waitCount = h.waitCount := by unfold Hart.bumpK; split <;> rfl
@[simp] theorem Hart_bumpK_promoted (h : Hart) (n : Nat) : (h.bumpK n).promoted = h.promoted := by unfold Hart.bumpK; split <;> rfl
@[simp] theorem Hart_bumpK_dbgHalted (h : Hart) (n : Nat) : (h.bumpK n).dbgHalted = h.dbgHalted := by unfold Hart.bumpK; split <;> rfl
@[simp] theorem Hart_bumpK_held (h : Hart) (n : Nat) : (h.bumpK n).held = h.held := by unfold Hart.bumpK; split <;> rfl
@[simp] theorem Hart_bumpK_leaving (h : Hart) (n : Nat) : (h.bumpK n).leaving = h.leaving := by unfold Hart.bumpK; split <;> rfl
@[simp] theorem Hart_bumpK_fetched (h : Hart) (n : Nat) : (h.bumpK n).fetched = h.fetched := by unfold Hart.bumpK; split <;> rfl
@[simp] theorem Hart_bumpK_wait (h : Hart) (n : Nat) : (h.bumpK n).wait = h.wait := by unfold Hart.bumpK; split <;> rfl
@[simp] theorem Hart_bumpK_pc (h : Hart) (n : Nat) : (h.bumpK n).pc = h.pc := by unfold Hart.bumpK; split <;> rfl
@[simp] theorem Hart_bumpK_x (h : Hart) (n : Nat) : (h.bumpK n).x = h.x := by unfold Hart.bumpK; split <;> rfl
@[simp] theorem Hart_bumpK_v (h : Hart) (n : Nat) : (h.bumpK n).v = h.v := by unfold Hart.bumpK; split <;> rfl
@[simp] theorem Hart_bumpK_vPi (h : Hart) (n : Nat) : (h.bumpK n).vPi = h.vPi := by unfold Hart.bumpK; split <;> rfl
@[simp] theorem Hart_bumpK_vDirty (h : Hart) (n : Nat) : (h.bumpK n).vDirty = h.vDirty := by unfold Hart.bumpK; split <;> rfl
@[simp] theorem Hart_bumpK_m (h : Hart) (n : Nat) : (h.bumpK n).m = h.m := by unfold Hart.bumpK; split <;> rfl
@[simp] theorem Hart_bumpK_mPi (h : Hart) (n : Nat) : (h.bumpK n).mPi = h.mPi := by unfold Hart.bumpK; split <;> rfl
@[simp] theorem Hart_bumpK_vl (h : Hart) (n : Nat) : (h.bumpK n).vl = h.vl := by unfold Hart.bumpK; split <;> rfl
@[simp] theorem Hart_bumpK_md (h : Hart) (n : Nat) : (h.bumpK n).md = h.md := by unfold Hart.bumpK; split <;> rfl
@[simp] theorem Hart_bumpK_ix (h : Hart) (n : Nat) : (h.bumpK n).ix = h.ix := by unfold Hart.bumpK; split <;> rfl
@[simp] theorem Hart_bumpK_b (h : Hart) (n : Nat) : (h.bumpK n).b = h.b := by unfold Hart.bumpK; split <;> rfl
@[simp] theorem Hart_bumpK_bs (h : Hart) (n : Nat) : (h.bumpK n).bs = h.bs := by unfold Hart.bumpK; split <;> rfl
@[simp] theorem Hart_bumpK_vlMax (h : Hart) (n : Nat) : (h.bumpK n).vlMax = h.vlMax := by unfold Hart.bumpK; split <;> rfl
@[simp] theorem Hart_bumpK_nregs (h : Hart) (n : Nat) : (h.bumpK n).nregs = h.nregs := by unfold Hart.bumpK; split <;> rfl
@[simp] theorem Hart_bumpK_aTiles (h : Hart) (n : Nat) : (h.bumpK n).aTiles = h.aTiles := by unfold Hart.bumpK; split <;> rfl
@[simp] theorem Hart_bumpK_mType (h : Hart) (n : Nat) : (h.bumpK n).mType = h.mType := by unfold Hart.bumpK; split <;> rfl
@[simp] theorem Hart_bumpK_nt (h : Hart) (n : Nat) : (h.bumpK n).nt = h.nt := by unfold Hart.bumpK; split <;> rfl
@[simp] theorem Hart_bumpK_tiles (h : Hart) (n : Nat) : (h.bumpK n).tiles = h.tiles := by unfold Hart.bumpK; split <;> rfl
@[simp] theorem Hart_bumpK_matQ (h : Hart) (n : Nat) : (h.bumpK n).matQ = h.matQ := by unfold Hart.bumpK; split <;> rfl
@[simp] theorem Hart_bumpK_csr (h : Hart) (n : Nat) : (h.bumpK n).csr = h.csr := by unfold Hart.bumpK; split <;> rfl
@[simp] theorem Hart_bumpK_league (h : Hart) (n : Nat) : (h.bumpK n).league = h.league := by unfold Hart.bumpK; split <;> rfl
@[simp] theorem Hart_bumpK_copyFault (h : Hart) (n : Nat) : (h.bumpK n).copyFault = h.copyFault := by unfold Hart.bumpK; split <;> rfl
@[simp] theorem Hart_bumpK_copyTold (h : Hart) (n : Nat) : (h.bumpK n).copyTold = h.copyTold := by unfold Hart.bumpK; split <;> rfl
@[simp] theorem Hart_bumpK_stopped (h : Hart) (n : Nat) : (h.bumpK n).stopped = h.stopped := by unfold Hart.bumpK; split <;> rfl
@[simp] theorem Hart_bumpK_startElem (h : Hart) (n : Nat) : (h.bumpK n).startElem = h.startElem := by unfold Hart.bumpK; split <;> rfl
@[simp] theorem Hart_bumpK_elemFrom (h : Hart) (n : Nat) : (h.bumpK n).elemFrom = h.elemFrom := by unfold Hart.bumpK; split <;> rfl
@[simp] theorem Hart_bumpK_posWritten (h : Hart) (n : Nat) : (h.bumpK n).posWritten = h.posWritten := by unfold Hart.bumpK; split <;> rfl
@[simp] theorem Hart_bumpK_atBarrier (h : Hart) (n : Nat) : (h.bumpK n).atBarrier = h.atBarrier := by unfold Hart.bumpK; split <;> rfl
@[simp] theorem Hart_bumpK_expired (h : Hart) (n : Nat) : (h.bumpK n).expired = h.expired := by unfold Hart.bumpK; split <;> rfl
@[simp] theorem Hart_bumpK_records (h : Hart) (n : Nat) : (h.bumpK n).records = h.records := by unfold Hart.bumpK; split <;> rfl
@[simp] theorem Hart_bumpK_furlong (h : Hart) (n : Nat) : (h.bumpK n).furlong = h.furlong := by unfold Hart.bumpK; split <;> rfl
@[simp] theorem Hart_bumpK_strip (h : Hart) (n : Nat) : (h.bumpK n).strip = h.strip := by unfold Hart.bumpK; split <;> rfl
@[simp] theorem Hart_bumpK_region (h : Hart) (n : Nat) : (h.bumpK n).region = h.region := by unfold Hart.bumpK; split <;> rfl
@[simp] theorem Hart_bumpK_pathAt (h : Hart) (n : Nat) : (h.bumpK n).pathAt = h.pathAt := by unfold Hart.bumpK; split <;> rfl
@[simp] theorem Hart_bumpK_kept (h : Hart) (n : Nat) : (h.bumpK n).kept = h.kept := by unfold Hart.bumpK; split <;> rfl
@[simp] theorem Hart_bumpK_split (h : Hart) (n : Nat) : (h.bumpK n).split = h.split := by unfold Hart.bumpK; split <;> rfl
@[simp] theorem Hart_bumpK_opaSplit (h : Hart) (n : Nat) : (h.bumpK n).opaSplit = h.opaSplit := by unfold Hart.bumpK; split <;> rfl
@[simp] theorem Hart_bumpK_replies (h : Hart) (n : Nat) : (h.bumpK n).replies = h.replies := by unfold Hart.bumpK; split <;> rfl
@[simp] theorem Hart_bumpK_pins (h : Hart) (n : Nat) : (h.bumpK n).pins = h.pins := by unfold Hart.bumpK; split <;> rfl
@[simp] theorem Hart_bumpK_vPsn (h : Hart) (n : Nat) : (h.bumpK n).vPsn = h.vPsn := by unfold Hart.bumpK; split <;> rfl
@[simp] theorem Hart_bumpK_mPsn (h : Hart) (n : Nat) : (h.bumpK n).mPsn = h.mPsn := by unfold Hart.bumpK; split <;> rfl
@[simp] theorem Hart_bumpK_tPsn (h : Hart) (n : Nat) : (h.bumpK n).tPsn = h.tPsn := by unfold Hart.bumpK; split <;> rfl

/-! ### Hart.setV -/

@[simp] theorem Hart_setV_uid (h : Hart) (r : Nat) (v : VReg) : (h.setV r v).uid = h.uid := Hart_setVTo_uid ..
@[simp] theorem Hart_setV_phase (h : Hart) (r : Nat) (v : VReg) : (h.setV r v).phase = h.phase := Hart_setVTo_phase ..
@[simp] theorem Hart_setV_place (h : Hart) (r : Nat) (v : VReg) : (h.setV r v).place = h.place := Hart_setVTo_place ..
@[simp] theorem Hart_setV_asid (h : Hart) (r : Nat) (v : VReg) : (h.setV r v).asid = h.asid := Hart_setVTo_asid ..
@[simp] theorem Hart_setV_prio (h : Hart) (r : Nat) (v : VReg) : (h.setV r v).prio = h.prio := Hart_setVTo_prio ..
@[simp] theorem Hart_setV_queue (h : Hart) (r : Nat) (v : VReg) : (h.setV r v).queue = h.queue := Hart_setVTo_queue ..
@[simp] theorem Hart_setV_packet (h : Hart) (r : Nat) (v : VReg) : (h.setV r v).packet = h.packet := Hart_setVTo_packet ..
@[simp] theorem Hart_setV_vlLo (h : Hart) (r : Nat) (v : VReg) : (h.setV r v).vlLo = h.vlLo := Hart_setVTo_vlLo ..
@[simp] theorem Hart_setV_vlHi (h : Hart) (r : Nat) (v : VReg) : (h.setV r v).vlHi = h.vlHi := Hart_setVTo_vlHi ..
@[simp] theorem Hart_setV_waitCount (h : Hart) (r : Nat) (v : VReg) : (h.setV r v).waitCount = h.waitCount := Hart_setVTo_waitCount ..
@[simp] theorem Hart_setV_promoted (h : Hart) (r : Nat) (v : VReg) : (h.setV r v).promoted = h.promoted := Hart_setVTo_promoted ..
@[simp] theorem Hart_setV_dbgHalted (h : Hart) (r : Nat) (v : VReg) : (h.setV r v).dbgHalted = h.dbgHalted := Hart_setVTo_dbgHalted ..
@[simp] theorem Hart_setV_held (h : Hart) (r : Nat) (v : VReg) : (h.setV r v).held = h.held := Hart_setVTo_held ..
@[simp] theorem Hart_setV_leaving (h : Hart) (r : Nat) (v : VReg) : (h.setV r v).leaving = h.leaving := Hart_setVTo_leaving ..
@[simp] theorem Hart_setV_fetched (h : Hart) (r : Nat) (v : VReg) : (h.setV r v).fetched = h.fetched := Hart_setVTo_fetched ..
@[simp] theorem Hart_setV_wait (h : Hart) (r : Nat) (v : VReg) : (h.setV r v).wait = h.wait := Hart_setVTo_wait ..
@[simp] theorem Hart_setV_pc (h : Hart) (r : Nat) (v : VReg) : (h.setV r v).pc = h.pc := Hart_setVTo_pc ..
@[simp] theorem Hart_setV_x (h : Hart) (r : Nat) (v : VReg) : (h.setV r v).x = h.x := Hart_setVTo_x ..
@[simp] theorem Hart_setV_vPi (h : Hart) (r : Nat) (v : VReg) : (h.setV r v).vPi = h.vPi := Hart_setVTo_vPi ..
@[simp] theorem Hart_setV_m (h : Hart) (r : Nat) (v : VReg) : (h.setV r v).m = h.m := Hart_setVTo_m ..
@[simp] theorem Hart_setV_mPi (h : Hart) (r : Nat) (v : VReg) : (h.setV r v).mPi = h.mPi := Hart_setVTo_mPi ..
@[simp] theorem Hart_setV_vl (h : Hart) (r : Nat) (v : VReg) : (h.setV r v).vl = h.vl := Hart_setVTo_vl ..
@[simp] theorem Hart_setV_md (h : Hart) (r : Nat) (v : VReg) : (h.setV r v).md = h.md := Hart_setVTo_md ..
@[simp] theorem Hart_setV_ix (h : Hart) (r : Nat) (v : VReg) : (h.setV r v).ix = h.ix := Hart_setVTo_ix ..
@[simp] theorem Hart_setV_b (h : Hart) (r : Nat) (v : VReg) : (h.setV r v).b = h.b := Hart_setVTo_b ..
@[simp] theorem Hart_setV_k (h : Hart) (r : Nat) (v : VReg) : (h.setV r v).k = h.k := Hart_setVTo_k ..
@[simp] theorem Hart_setV_bs (h : Hart) (r : Nat) (v : VReg) : (h.setV r v).bs = h.bs := Hart_setVTo_bs ..
@[simp] theorem Hart_setV_vlMax (h : Hart) (r : Nat) (v : VReg) : (h.setV r v).vlMax = h.vlMax := Hart_setVTo_vlMax ..
@[simp] theorem Hart_setV_nregs (h : Hart) (r : Nat) (v : VReg) : (h.setV r v).nregs = h.nregs := Hart_setVTo_nregs ..
@[simp] theorem Hart_setV_aTiles (h : Hart) (r : Nat) (v : VReg) : (h.setV r v).aTiles = h.aTiles := Hart_setVTo_aTiles ..
@[simp] theorem Hart_setV_mType (h : Hart) (r : Nat) (v : VReg) : (h.setV r v).mType = h.mType := Hart_setVTo_mType ..
@[simp] theorem Hart_setV_nt (h : Hart) (r : Nat) (v : VReg) : (h.setV r v).nt = h.nt := Hart_setVTo_nt ..
@[simp] theorem Hart_setV_tiles (h : Hart) (r : Nat) (v : VReg) : (h.setV r v).tiles = h.tiles := Hart_setVTo_tiles ..
@[simp] theorem Hart_setV_matQ (h : Hart) (r : Nat) (v : VReg) : (h.setV r v).matQ = h.matQ := Hart_setVTo_matQ ..
@[simp] theorem Hart_setV_csr (h : Hart) (r : Nat) (v : VReg) : (h.setV r v).csr = h.csr := Hart_setVTo_csr ..
@[simp] theorem Hart_setV_league (h : Hart) (r : Nat) (v : VReg) : (h.setV r v).league = h.league := Hart_setVTo_league ..
@[simp] theorem Hart_setV_copyFault (h : Hart) (r : Nat) (v : VReg) : (h.setV r v).copyFault = h.copyFault := Hart_setVTo_copyFault ..
@[simp] theorem Hart_setV_copyTold (h : Hart) (r : Nat) (v : VReg) : (h.setV r v).copyTold = h.copyTold := Hart_setVTo_copyTold ..
@[simp] theorem Hart_setV_stopped (h : Hart) (r : Nat) (v : VReg) : (h.setV r v).stopped = h.stopped := Hart_setVTo_stopped ..
@[simp] theorem Hart_setV_startElem (h : Hart) (r : Nat) (v : VReg) : (h.setV r v).startElem = h.startElem := Hart_setVTo_startElem ..
@[simp] theorem Hart_setV_elemFrom (h : Hart) (r : Nat) (v : VReg) : (h.setV r v).elemFrom = h.elemFrom := Hart_setVTo_elemFrom ..
@[simp] theorem Hart_setV_posWritten (h : Hart) (r : Nat) (v : VReg) : (h.setV r v).posWritten = h.posWritten := Hart_setVTo_posWritten ..
@[simp] theorem Hart_setV_atBarrier (h : Hart) (r : Nat) (v : VReg) : (h.setV r v).atBarrier = h.atBarrier := Hart_setVTo_atBarrier ..
@[simp] theorem Hart_setV_expired (h : Hart) (r : Nat) (v : VReg) : (h.setV r v).expired = h.expired := Hart_setVTo_expired ..
@[simp] theorem Hart_setV_records (h : Hart) (r : Nat) (v : VReg) : (h.setV r v).records = h.records := Hart_setVTo_records ..
@[simp] theorem Hart_setV_furlong (h : Hart) (r : Nat) (v : VReg) : (h.setV r v).furlong = h.furlong := Hart_setVTo_furlong ..
@[simp] theorem Hart_setV_strip (h : Hart) (r : Nat) (v : VReg) : (h.setV r v).strip = h.strip := Hart_setVTo_strip ..
@[simp] theorem Hart_setV_region (h : Hart) (r : Nat) (v : VReg) : (h.setV r v).region = h.region := Hart_setVTo_region ..
@[simp] theorem Hart_setV_pathAt (h : Hart) (r : Nat) (v : VReg) : (h.setV r v).pathAt = h.pathAt := Hart_setVTo_pathAt ..
@[simp] theorem Hart_setV_kept (h : Hart) (r : Nat) (v : VReg) : (h.setV r v).kept = h.kept := Hart_setVTo_kept ..
@[simp] theorem Hart_setV_split (h : Hart) (r : Nat) (v : VReg) : (h.setV r v).split = h.split := Hart_setVTo_split ..
@[simp] theorem Hart_setV_opaSplit (h : Hart) (r : Nat) (v : VReg) : (h.setV r v).opaSplit = h.opaSplit := Hart_setVTo_opaSplit ..
@[simp] theorem Hart_setV_replies (h : Hart) (r : Nat) (v : VReg) : (h.setV r v).replies = h.replies := Hart_setVTo_replies ..
@[simp] theorem Hart_setV_pins (h : Hart) (r : Nat) (v : VReg) : (h.setV r v).pins = h.pins := Hart_setVTo_pins ..
@[simp] theorem Hart_setV_vPsn (h : Hart) (r : Nat) (v : VReg) : (h.setV r v).vPsn = h.vPsn := Hart_setVTo_vPsn ..
@[simp] theorem Hart_setV_mPsn (h : Hart) (r : Nat) (v : VReg) : (h.setV r v).mPsn = h.mPsn := Hart_setVTo_mPsn ..
@[simp] theorem Hart_setV_tPsn (h : Hart) (r : Nat) (v : VReg) : (h.setV r v).tPsn = h.tPsn := Hart_setVTo_tPsn ..

/-! ### State.setX -/

@[simp] theorem State_setX_hart (s : State) (r : BitVec 5) (v : Word) : (s.setX r v).hart = s.hart.setX r v := rfl
@[simp] theorem State_setX_others (s : State) (r : BitVec 5) (v : Word) : (s.setX r v).others = s.others := rfl
@[simp] theorem State_setX_mm (s : State) (r : BitVec 5) (v : Word) : (s.setX r v).mm = s.mm := rfl
@[simp] theorem State_setX_banks (s : State) (r : BitVec 5) (v : Word) : (s.setX r v).banks = s.banks := rfl
@[simp] theorem State_setX_bankSel (s : State) (r : BitVec 5) (v : Word) : (s.setX r v).bankSel = s.bankSel := rfl
@[simp] theorem State_setX_cmds (s : State) (r : BitVec 5) (v : Word) : (s.setX r v).cmds = s.cmds := rfl
@[simp] theorem State_setX_copies (s : State) (r : BitVec 5) (v : Word) : (s.setX r v).copies = s.copies := rfl
@[simp] theorem State_setX_walks (s : State) (r : BitVec 5) (v : Word) : (s.setX r v).walks = s.walks := rfl
@[simp] theorem State_setX_fe (s : State) (r : BitVec 5) (v : Word) : (s.setX r v).fe = s.fe := rfl
@[simp] theorem State_setX_fab (s : State) (r : BitVec 5) (v : Word) : (s.setX r v).fab = s.fab := rfl
@[simp] theorem State_setX_err (s : State) (r : BitVec 5) (v : Word) : (s.setX r v).err = s.err := rfl
@[simp] theorem State_setX_terak (s : State) (r : BitVec 5) (v : Word) : (s.setX r v).terak = s.terak := rfl
@[simp] theorem State_setX_cycles (s : State) (r : BitVec 5) (v : Word) : (s.setX r v).cycles = s.cycles := rfl
@[simp] theorem State_setX_matLast (s : State) (r : BitVec 5) (v : Word) : (s.setX r v).matLast = s.matLast := rfl
@[simp] theorem State_setX_copyLast (s : State) (r : BitVec 5) (v : Word) : (s.setX r v).copyLast = s.copyLast := rfl
@[simp] theorem State_setX_agenda (s : State) (r : BitVec 5) (v : Word) : (s.setX r v).agenda = s.agenda := rfl
@[simp] theorem State_setX_tick (s : State) (r : BitVec 5) (v : Word) : (s.setX r v).tick = s.tick := rfl
@[simp] theorem State_setX_fresh (s : State) (r : BitVec 5) (v : Word) : (s.setX r v).fresh = s.fresh := rfl
@[simp] theorem State_setX_homeReply (s : State) (r : BitVec 5) (v : Word) : (s.setX r v).homeReply = s.homeReply := rfl
@[simp] theorem State_setX_engineReplies (s : State) (r : BitVec 5) (v : Word) : (s.setX r v).engineReplies = s.engineReplies := rfl

/-! ### State.setPc -/

@[simp] theorem State_setPc_hart (s : State) (v : Word) : (s.setPc v).hart = { s.hart.atStart with pc := v } := rfl
@[simp] theorem State_setPc_others (s : State) (v : Word) : (s.setPc v).others = s.others := rfl
@[simp] theorem State_setPc_mm (s : State) (v : Word) : (s.setPc v).mm = s.mm := rfl
@[simp] theorem State_setPc_banks (s : State) (v : Word) : (s.setPc v).banks = s.banks := rfl
@[simp] theorem State_setPc_bankSel (s : State) (v : Word) : (s.setPc v).bankSel = s.bankSel := rfl
@[simp] theorem State_setPc_cmds (s : State) (v : Word) : (s.setPc v).cmds = s.cmds := rfl
@[simp] theorem State_setPc_copies (s : State) (v : Word) : (s.setPc v).copies = s.copies := rfl
@[simp] theorem State_setPc_walks (s : State) (v : Word) : (s.setPc v).walks = s.walks := rfl
@[simp] theorem State_setPc_fe (s : State) (v : Word) : (s.setPc v).fe = s.fe := rfl
@[simp] theorem State_setPc_fab (s : State) (v : Word) : (s.setPc v).fab = s.fab := rfl
@[simp] theorem State_setPc_err (s : State) (v : Word) : (s.setPc v).err = s.err := rfl
@[simp] theorem State_setPc_terak (s : State) (v : Word) : (s.setPc v).terak = s.terak := rfl
@[simp] theorem State_setPc_cycles (s : State) (v : Word) : (s.setPc v).cycles = s.cycles := rfl
@[simp] theorem State_setPc_matLast (s : State) (v : Word) : (s.setPc v).matLast = s.matLast := rfl
@[simp] theorem State_setPc_copyLast (s : State) (v : Word) : (s.setPc v).copyLast = s.copyLast := rfl
@[simp] theorem State_setPc_agenda (s : State) (v : Word) : (s.setPc v).agenda = s.agenda := rfl
@[simp] theorem State_setPc_tick (s : State) (v : Word) : (s.setPc v).tick = s.tick := rfl
@[simp] theorem State_setPc_fresh (s : State) (v : Word) : (s.setPc v).fresh = s.fresh := rfl
@[simp] theorem State_setPc_homeReply (s : State) (v : Word) : (s.setPc v).homeReply = s.homeReply := rfl
@[simp] theorem State_setPc_engineReplies (s : State) (v : Word) : (s.setPc v).engineReplies = s.engineReplies := rfl

/-! ### State.advance -/

@[simp] theorem State_advance_hart (s : State) : (s.advance).hart = { s.hart.atStart with pc := wrapPc (s.hart.pc + 4#64) } := rfl
@[simp] theorem State_advance_others (s : State) : (s.advance).others = s.others := rfl
@[simp] theorem State_advance_mm (s : State) : (s.advance).mm = s.mm := rfl
@[simp] theorem State_advance_banks (s : State) : (s.advance).banks = s.banks := rfl
@[simp] theorem State_advance_bankSel (s : State) : (s.advance).bankSel = s.bankSel := rfl
@[simp] theorem State_advance_cmds (s : State) : (s.advance).cmds = s.cmds := rfl
@[simp] theorem State_advance_copies (s : State) : (s.advance).copies = s.copies := rfl
@[simp] theorem State_advance_walks (s : State) : (s.advance).walks = s.walks := rfl
@[simp] theorem State_advance_fe (s : State) : (s.advance).fe = s.fe := rfl
@[simp] theorem State_advance_fab (s : State) : (s.advance).fab = s.fab := rfl
@[simp] theorem State_advance_err (s : State) : (s.advance).err = s.err := rfl
@[simp] theorem State_advance_terak (s : State) : (s.advance).terak = s.terak := rfl
@[simp] theorem State_advance_cycles (s : State) : (s.advance).cycles = s.cycles := rfl
@[simp] theorem State_advance_matLast (s : State) : (s.advance).matLast = s.matLast := rfl
@[simp] theorem State_advance_copyLast (s : State) : (s.advance).copyLast = s.copyLast := rfl
@[simp] theorem State_advance_agenda (s : State) : (s.advance).agenda = s.agenda := rfl
@[simp] theorem State_advance_tick (s : State) : (s.advance).tick = s.tick := rfl
@[simp] theorem State_advance_fresh (s : State) : (s.advance).fresh = s.fresh := rfl
@[simp] theorem State_advance_homeReply (s : State) : (s.advance).homeReply = s.homeReply := rfl
@[simp] theorem State_advance_engineReplies (s : State) : (s.advance).engineReplies = s.engineReplies := rfl

/-! ### State.result -/

@[simp] theorem State_result_hart (s : State) (r : BitVec 5) (v : Word) : (s.result r v).hart = { (s.hart.setX r v).atStart with pc := wrapPc ((s.hart.setX r v).pc + 4#64) } := rfl
@[simp] theorem State_result_others (s : State) (r : BitVec 5) (v : Word) : (s.result r v).others = s.others := rfl
@[simp] theorem State_result_mm (s : State) (r : BitVec 5) (v : Word) : (s.result r v).mm = s.mm := rfl
@[simp] theorem State_result_banks (s : State) (r : BitVec 5) (v : Word) : (s.result r v).banks = s.banks := rfl
@[simp] theorem State_result_bankSel (s : State) (r : BitVec 5) (v : Word) : (s.result r v).bankSel = s.bankSel := rfl
@[simp] theorem State_result_cmds (s : State) (r : BitVec 5) (v : Word) : (s.result r v).cmds = s.cmds := rfl
@[simp] theorem State_result_copies (s : State) (r : BitVec 5) (v : Word) : (s.result r v).copies = s.copies := rfl
@[simp] theorem State_result_walks (s : State) (r : BitVec 5) (v : Word) : (s.result r v).walks = s.walks := rfl
@[simp] theorem State_result_fe (s : State) (r : BitVec 5) (v : Word) : (s.result r v).fe = s.fe := rfl
@[simp] theorem State_result_fab (s : State) (r : BitVec 5) (v : Word) : (s.result r v).fab = s.fab := rfl
@[simp] theorem State_result_err (s : State) (r : BitVec 5) (v : Word) : (s.result r v).err = s.err := rfl
@[simp] theorem State_result_terak (s : State) (r : BitVec 5) (v : Word) : (s.result r v).terak = s.terak := rfl
@[simp] theorem State_result_cycles (s : State) (r : BitVec 5) (v : Word) : (s.result r v).cycles = s.cycles := rfl
@[simp] theorem State_result_matLast (s : State) (r : BitVec 5) (v : Word) : (s.result r v).matLast = s.matLast := rfl
@[simp] theorem State_result_copyLast (s : State) (r : BitVec 5) (v : Word) : (s.result r v).copyLast = s.copyLast := rfl
@[simp] theorem State_result_agenda (s : State) (r : BitVec 5) (v : Word) : (s.result r v).agenda = s.agenda := rfl
@[simp] theorem State_result_tick (s : State) (r : BitVec 5) (v : Word) : (s.result r v).tick = s.tick := rfl
@[simp] theorem State_result_fresh (s : State) (r : BitVec 5) (v : Word) : (s.result r v).fresh = s.fresh := rfl
@[simp] theorem State_result_homeReply (s : State) (r : BitVec 5) (v : Word) : (s.result r v).homeReply = s.homeReply := rfl
@[simp] theorem State_result_engineReplies (s : State) (r : BitVec 5) (v : Word) : (s.result r v).engineReplies = s.engineReplies := rfl

/-! ### State.hold -/

@[simp] theorem State_hold_hart (s : State) : (s.hold).hart = { s.hart with held := true } := rfl
@[simp] theorem State_hold_others (s : State) : (s.hold).others = s.others := rfl
@[simp] theorem State_hold_mm (s : State) : (s.hold).mm = s.mm := rfl
@[simp] theorem State_hold_banks (s : State) : (s.hold).banks = s.banks := rfl
@[simp] theorem State_hold_bankSel (s : State) : (s.hold).bankSel = s.bankSel := rfl
@[simp] theorem State_hold_cmds (s : State) : (s.hold).cmds = s.cmds := rfl
@[simp] theorem State_hold_copies (s : State) : (s.hold).copies = s.copies := rfl
@[simp] theorem State_hold_walks (s : State) : (s.hold).walks = s.walks := rfl
@[simp] theorem State_hold_fe (s : State) : (s.hold).fe = s.fe := rfl
@[simp] theorem State_hold_fab (s : State) : (s.hold).fab = s.fab := rfl
@[simp] theorem State_hold_err (s : State) : (s.hold).err = s.err := rfl
@[simp] theorem State_hold_terak (s : State) : (s.hold).terak = s.terak := rfl
@[simp] theorem State_hold_cycles (s : State) : (s.hold).cycles = s.cycles := rfl
@[simp] theorem State_hold_matLast (s : State) : (s.hold).matLast = s.matLast := rfl
@[simp] theorem State_hold_copyLast (s : State) : (s.hold).copyLast = s.copyLast := rfl
@[simp] theorem State_hold_agenda (s : State) : (s.hold).agenda = s.agenda := rfl
@[simp] theorem State_hold_tick (s : State) : (s.hold).tick = s.tick := rfl
@[simp] theorem State_hold_fresh (s : State) : (s.hold).fresh = s.fresh := rfl
@[simp] theorem State_hold_homeReply (s : State) : (s.hold).homeReply = s.homeReply := rfl
@[simp] theorem State_hold_engineReplies (s : State) : (s.hold).engineReplies = s.engineReplies := rfl

/-! ### State.setBank -/

@[simp] theorem State_setBank_hart (s : State) (b : Nat) (k : Bank) : (s.setBank b k).hart = s.hart := rfl
@[simp] theorem State_setBank_others (s : State) (b : Nat) (k : Bank) : (s.setBank b k).others = s.others := rfl
@[simp] theorem State_setBank_mm (s : State) (b : Nat) (k : Bank) : (s.setBank b k).mm = s.mm := rfl
@[simp] theorem State_setBank_banks (s : State) (b : Nat) (k : Bank) : (s.setBank b k).banks = putKey b k s.banks := rfl
@[simp] theorem State_setBank_bankSel (s : State) (b : Nat) (k : Bank) : (s.setBank b k).bankSel = s.bankSel := rfl
@[simp] theorem State_setBank_cmds (s : State) (b : Nat) (k : Bank) : (s.setBank b k).cmds = s.cmds := rfl
@[simp] theorem State_setBank_copies (s : State) (b : Nat) (k : Bank) : (s.setBank b k).copies = s.copies := rfl
@[simp] theorem State_setBank_walks (s : State) (b : Nat) (k : Bank) : (s.setBank b k).walks = s.walks := rfl
@[simp] theorem State_setBank_fe (s : State) (b : Nat) (k : Bank) : (s.setBank b k).fe = s.fe := rfl
@[simp] theorem State_setBank_fab (s : State) (b : Nat) (k : Bank) : (s.setBank b k).fab = s.fab := rfl
@[simp] theorem State_setBank_err (s : State) (b : Nat) (k : Bank) : (s.setBank b k).err = s.err := rfl
@[simp] theorem State_setBank_terak (s : State) (b : Nat) (k : Bank) : (s.setBank b k).terak = s.terak := rfl
@[simp] theorem State_setBank_cycles (s : State) (b : Nat) (k : Bank) : (s.setBank b k).cycles = s.cycles := rfl
@[simp] theorem State_setBank_matLast (s : State) (b : Nat) (k : Bank) : (s.setBank b k).matLast = s.matLast := rfl
@[simp] theorem State_setBank_copyLast (s : State) (b : Nat) (k : Bank) : (s.setBank b k).copyLast = s.copyLast := rfl
@[simp] theorem State_setBank_agenda (s : State) (b : Nat) (k : Bank) : (s.setBank b k).agenda = s.agenda := rfl
@[simp] theorem State_setBank_tick (s : State) (b : Nat) (k : Bank) : (s.setBank b k).tick = s.tick := rfl
@[simp] theorem State_setBank_fresh (s : State) (b : Nat) (k : Bank) : (s.setBank b k).fresh = s.fresh := rfl
@[simp] theorem State_setBank_homeReply (s : State) (b : Nat) (k : Bank) : (s.setBank b k).homeReply = s.homeReply := rfl
@[simp] theorem State_setBank_engineReplies (s : State) (b : Nat) (k : Bank) : (s.setBank b k).engineReplies = s.engineReplies := rfl

/-! ### State.onBank -/

@[simp] theorem State_onBank_hart (s : State) (b : Nat) (f : Bank → Bank) : (s.onBank b f).hart = s.hart := rfl
@[simp] theorem State_onBank_others (s : State) (b : Nat) (f : Bank → Bank) : (s.onBank b f).others = s.others := rfl
@[simp] theorem State_onBank_mm (s : State) (b : Nat) (f : Bank → Bank) : (s.onBank b f).mm = s.mm := rfl
@[simp] theorem State_onBank_banks (s : State) (b : Nat) (f : Bank → Bank) : (s.onBank b f).banks = putKey b (f (s.bank b)) s.banks := rfl
@[simp] theorem State_onBank_bankSel (s : State) (b : Nat) (f : Bank → Bank) : (s.onBank b f).bankSel = s.bankSel := rfl
@[simp] theorem State_onBank_cmds (s : State) (b : Nat) (f : Bank → Bank) : (s.onBank b f).cmds = s.cmds := rfl
@[simp] theorem State_onBank_copies (s : State) (b : Nat) (f : Bank → Bank) : (s.onBank b f).copies = s.copies := rfl
@[simp] theorem State_onBank_walks (s : State) (b : Nat) (f : Bank → Bank) : (s.onBank b f).walks = s.walks := rfl
@[simp] theorem State_onBank_fe (s : State) (b : Nat) (f : Bank → Bank) : (s.onBank b f).fe = s.fe := rfl
@[simp] theorem State_onBank_fab (s : State) (b : Nat) (f : Bank → Bank) : (s.onBank b f).fab = s.fab := rfl
@[simp] theorem State_onBank_err (s : State) (b : Nat) (f : Bank → Bank) : (s.onBank b f).err = s.err := rfl
@[simp] theorem State_onBank_terak (s : State) (b : Nat) (f : Bank → Bank) : (s.onBank b f).terak = s.terak := rfl
@[simp] theorem State_onBank_cycles (s : State) (b : Nat) (f : Bank → Bank) : (s.onBank b f).cycles = s.cycles := rfl
@[simp] theorem State_onBank_matLast (s : State) (b : Nat) (f : Bank → Bank) : (s.onBank b f).matLast = s.matLast := rfl
@[simp] theorem State_onBank_copyLast (s : State) (b : Nat) (f : Bank → Bank) : (s.onBank b f).copyLast = s.copyLast := rfl
@[simp] theorem State_onBank_agenda (s : State) (b : Nat) (f : Bank → Bank) : (s.onBank b f).agenda = s.agenda := rfl
@[simp] theorem State_onBank_tick (s : State) (b : Nat) (f : Bank → Bank) : (s.onBank b f).tick = s.tick := rfl
@[simp] theorem State_onBank_fresh (s : State) (b : Nat) (f : Bank → Bank) : (s.onBank b f).fresh = s.fresh := rfl
@[simp] theorem State_onBank_homeReply (s : State) (b : Nat) (f : Bank → Bank) : (s.onBank b f).homeReply = s.homeReply := rfl
@[simp] theorem State_onBank_engineReplies (s : State) (b : Nat) (f : Bank → Bank) : (s.onBank b f).engineReplies = s.engineReplies := rfl

/-! ### State.writeCsr -/

@[simp] theorem State_writeCsr_hart (s : State) (n : BitVec 12) (v : Word) : (s.writeCsr n v).hart = { s.hart with csr := s.hart.csr.write n v, posWritten := s.hart.posWritten || n == 2#12 || n == 3#12 } := rfl
@[simp] theorem State_writeCsr_others (s : State) (n : BitVec 12) (v : Word) : (s.writeCsr n v).others = s.others := rfl
@[simp] theorem State_writeCsr_mm (s : State) (n : BitVec 12) (v : Word) : (s.writeCsr n v).mm = s.mm := rfl
@[simp] theorem State_writeCsr_banks (s : State) (n : BitVec 12) (v : Word) : (s.writeCsr n v).banks = s.banks := rfl
@[simp] theorem State_writeCsr_bankSel (s : State) (n : BitVec 12) (v : Word) : (s.writeCsr n v).bankSel = s.bankSel := rfl
@[simp] theorem State_writeCsr_cmds (s : State) (n : BitVec 12) (v : Word) : (s.writeCsr n v).cmds = s.cmds := rfl
@[simp] theorem State_writeCsr_copies (s : State) (n : BitVec 12) (v : Word) : (s.writeCsr n v).copies = s.copies := rfl
@[simp] theorem State_writeCsr_walks (s : State) (n : BitVec 12) (v : Word) : (s.writeCsr n v).walks = s.walks := rfl
@[simp] theorem State_writeCsr_fe (s : State) (n : BitVec 12) (v : Word) : (s.writeCsr n v).fe = s.fe := rfl
@[simp] theorem State_writeCsr_fab (s : State) (n : BitVec 12) (v : Word) : (s.writeCsr n v).fab = s.fab := rfl
@[simp] theorem State_writeCsr_err (s : State) (n : BitVec 12) (v : Word) : (s.writeCsr n v).err = s.err := rfl
@[simp] theorem State_writeCsr_terak (s : State) (n : BitVec 12) (v : Word) : (s.writeCsr n v).terak = s.terak := rfl
@[simp] theorem State_writeCsr_cycles (s : State) (n : BitVec 12) (v : Word) : (s.writeCsr n v).cycles = s.cycles := rfl
@[simp] theorem State_writeCsr_matLast (s : State) (n : BitVec 12) (v : Word) : (s.writeCsr n v).matLast = s.matLast := rfl
@[simp] theorem State_writeCsr_copyLast (s : State) (n : BitVec 12) (v : Word) : (s.writeCsr n v).copyLast = s.copyLast := rfl
@[simp] theorem State_writeCsr_agenda (s : State) (n : BitVec 12) (v : Word) : (s.writeCsr n v).agenda = s.agenda := rfl
@[simp] theorem State_writeCsr_tick (s : State) (n : BitVec 12) (v : Word) : (s.writeCsr n v).tick = s.tick := rfl
@[simp] theorem State_writeCsr_fresh (s : State) (n : BitVec 12) (v : Word) : (s.writeCsr n v).fresh = s.fresh := rfl
@[simp] theorem State_writeCsr_homeReply (s : State) (n : BitVec 12) (v : Word) : (s.writeCsr n v).homeReply = s.homeReply := rfl
@[simp] theorem State_writeCsr_engineReplies (s : State) (n : BitVec 12) (v : Word) : (s.writeCsr n v).engineReplies = s.engineReplies := rfl

/-! ### State.clearPoison -/

@[simp] theorem State_clearPoison_hart (s : State) (lo hi : Nat) : (s.clearPoison lo hi).hart = s.hart := rfl
@[simp] theorem State_clearPoison_others (s : State) (lo hi : Nat) : (s.clearPoison lo hi).others = s.others := rfl
@[simp] theorem State_clearPoison_mm (s : State) (lo hi : Nat) : (s.clearPoison lo hi).mm = { s.mm with poison := s.mm.poison.filter (fun g => g * 32 < lo || hi ≤ g * 32) } := rfl
@[simp] theorem State_clearPoison_banks (s : State) (lo hi : Nat) : (s.clearPoison lo hi).banks = s.banks := rfl
@[simp] theorem State_clearPoison_bankSel (s : State) (lo hi : Nat) : (s.clearPoison lo hi).bankSel = s.bankSel := rfl
@[simp] theorem State_clearPoison_cmds (s : State) (lo hi : Nat) : (s.clearPoison lo hi).cmds = s.cmds := rfl
@[simp] theorem State_clearPoison_copies (s : State) (lo hi : Nat) : (s.clearPoison lo hi).copies = s.copies := rfl
@[simp] theorem State_clearPoison_walks (s : State) (lo hi : Nat) : (s.clearPoison lo hi).walks = s.walks := rfl
@[simp] theorem State_clearPoison_fe (s : State) (lo hi : Nat) : (s.clearPoison lo hi).fe = s.fe := rfl
@[simp] theorem State_clearPoison_fab (s : State) (lo hi : Nat) : (s.clearPoison lo hi).fab = s.fab := rfl
@[simp] theorem State_clearPoison_err (s : State) (lo hi : Nat) : (s.clearPoison lo hi).err = s.err := rfl
@[simp] theorem State_clearPoison_terak (s : State) (lo hi : Nat) : (s.clearPoison lo hi).terak = s.terak := rfl
@[simp] theorem State_clearPoison_cycles (s : State) (lo hi : Nat) : (s.clearPoison lo hi).cycles = s.cycles := rfl
@[simp] theorem State_clearPoison_matLast (s : State) (lo hi : Nat) : (s.clearPoison lo hi).matLast = s.matLast := rfl
@[simp] theorem State_clearPoison_copyLast (s : State) (lo hi : Nat) : (s.clearPoison lo hi).copyLast = s.copyLast := rfl
@[simp] theorem State_clearPoison_agenda (s : State) (lo hi : Nat) : (s.clearPoison lo hi).agenda = s.agenda := rfl
@[simp] theorem State_clearPoison_tick (s : State) (lo hi : Nat) : (s.clearPoison lo hi).tick = s.tick := rfl
@[simp] theorem State_clearPoison_fresh (s : State) (lo hi : Nat) : (s.clearPoison lo hi).fresh = s.fresh := rfl
@[simp] theorem State_clearPoison_homeReply (s : State) (lo hi : Nat) : (s.clearPoison lo hi).homeReply = s.homeReply := rfl
@[simp] theorem State_clearPoison_engineReplies (s : State) (lo hi : Nat) : (s.clearPoison lo hi).engineReplies = s.engineReplies := rfl

/-! ### State.putHome -/

@[simp] theorem State_putHome_hart (s : State) (ln : Nat) (w : LineVal) (mask : BitVec 128) : (s.putHome ln w mask).hart = s.hart := rfl
@[simp] theorem State_putHome_others (s : State) (ln : Nat) (w : LineVal) (mask : BitVec 128) : (s.putHome ln w mask).others = s.others := rfl
@[simp] theorem State_putHome_banks (s : State) (ln : Nat) (w : LineVal) (mask : BitVec 128) : (s.putHome ln w mask).banks = s.banks := rfl
@[simp] theorem State_putHome_bankSel (s : State) (ln : Nat) (w : LineVal) (mask : BitVec 128) : (s.putHome ln w mask).bankSel = s.bankSel := rfl
@[simp] theorem State_putHome_cmds (s : State) (ln : Nat) (w : LineVal) (mask : BitVec 128) : (s.putHome ln w mask).cmds = s.cmds := rfl
@[simp] theorem State_putHome_copies (s : State) (ln : Nat) (w : LineVal) (mask : BitVec 128) : (s.putHome ln w mask).copies = s.copies := rfl
@[simp] theorem State_putHome_walks (s : State) (ln : Nat) (w : LineVal) (mask : BitVec 128) : (s.putHome ln w mask).walks = s.walks := rfl
@[simp] theorem State_putHome_fe (s : State) (ln : Nat) (w : LineVal) (mask : BitVec 128) : (s.putHome ln w mask).fe = s.fe := rfl
@[simp] theorem State_putHome_fab (s : State) (ln : Nat) (w : LineVal) (mask : BitVec 128) : (s.putHome ln w mask).fab = s.fab := rfl
@[simp] theorem State_putHome_err (s : State) (ln : Nat) (w : LineVal) (mask : BitVec 128) : (s.putHome ln w mask).err = s.err := rfl
@[simp] theorem State_putHome_terak (s : State) (ln : Nat) (w : LineVal) (mask : BitVec 128) : (s.putHome ln w mask).terak = s.terak := rfl
@[simp] theorem State_putHome_cycles (s : State) (ln : Nat) (w : LineVal) (mask : BitVec 128) : (s.putHome ln w mask).cycles = s.cycles := rfl
@[simp] theorem State_putHome_matLast (s : State) (ln : Nat) (w : LineVal) (mask : BitVec 128) : (s.putHome ln w mask).matLast = s.matLast := rfl
@[simp] theorem State_putHome_copyLast (s : State) (ln : Nat) (w : LineVal) (mask : BitVec 128) : (s.putHome ln w mask).copyLast = s.copyLast := rfl
@[simp] theorem State_putHome_agenda (s : State) (ln : Nat) (w : LineVal) (mask : BitVec 128) : (s.putHome ln w mask).agenda = s.agenda := rfl
@[simp] theorem State_putHome_tick (s : State) (ln : Nat) (w : LineVal) (mask : BitVec 128) : (s.putHome ln w mask).tick = s.tick := rfl
@[simp] theorem State_putHome_fresh (s : State) (ln : Nat) (w : LineVal) (mask : BitVec 128) : (s.putHome ln w mask).fresh = s.fresh := rfl
@[simp] theorem State_putHome_homeReply (s : State) (ln : Nat) (w : LineVal) (mask : BitVec 128) : (s.putHome ln w mask).homeReply = s.homeReply := rfl
@[simp] theorem State_putHome_engineReplies (s : State) (ln : Nat) (w : LineVal) (mask : BitVec 128) : (s.putHome ln w mask).engineReplies = s.engineReplies := rfl

/-! ### State.dropL2 -/

@[simp] theorem State_dropL2_hart (s : State) (p : L2Line → Bool) : (s.dropL2 p).hart = s.hart := rfl
@[simp] theorem State_dropL2_others (s : State) (p : L2Line → Bool) : (s.dropL2 p).others = s.others := rfl
@[simp] theorem State_dropL2_mm (s : State) (p : L2Line → Bool) : (s.dropL2 p).mm = { s.mm with l2 := s.mm.l2.filter (fun e => !p e) } := rfl
@[simp] theorem State_dropL2_banks (s : State) (p : L2Line → Bool) : (s.dropL2 p).banks = s.banks := rfl
@[simp] theorem State_dropL2_bankSel (s : State) (p : L2Line → Bool) : (s.dropL2 p).bankSel = s.bankSel := rfl
@[simp] theorem State_dropL2_cmds (s : State) (p : L2Line → Bool) : (s.dropL2 p).cmds = s.cmds := rfl
@[simp] theorem State_dropL2_copies (s : State) (p : L2Line → Bool) : (s.dropL2 p).copies = s.copies := rfl
@[simp] theorem State_dropL2_walks (s : State) (p : L2Line → Bool) : (s.dropL2 p).walks = s.walks := rfl
@[simp] theorem State_dropL2_fe (s : State) (p : L2Line → Bool) : (s.dropL2 p).fe = s.fe := rfl
@[simp] theorem State_dropL2_fab (s : State) (p : L2Line → Bool) : (s.dropL2 p).fab = s.fab := rfl
@[simp] theorem State_dropL2_err (s : State) (p : L2Line → Bool) : (s.dropL2 p).err = s.err := rfl
@[simp] theorem State_dropL2_terak (s : State) (p : L2Line → Bool) : (s.dropL2 p).terak = s.terak := rfl
@[simp] theorem State_dropL2_cycles (s : State) (p : L2Line → Bool) : (s.dropL2 p).cycles = s.cycles := rfl
@[simp] theorem State_dropL2_matLast (s : State) (p : L2Line → Bool) : (s.dropL2 p).matLast = s.matLast := rfl
@[simp] theorem State_dropL2_copyLast (s : State) (p : L2Line → Bool) : (s.dropL2 p).copyLast = s.copyLast := rfl
@[simp] theorem State_dropL2_agenda (s : State) (p : L2Line → Bool) : (s.dropL2 p).agenda = s.agenda := rfl
@[simp] theorem State_dropL2_tick (s : State) (p : L2Line → Bool) : (s.dropL2 p).tick = s.tick := rfl
@[simp] theorem State_dropL2_fresh (s : State) (p : L2Line → Bool) : (s.dropL2 p).fresh = s.fresh := rfl
@[simp] theorem State_dropL2_homeReply (s : State) (p : L2Line → Bool) : (s.dropL2 p).homeReply = s.homeReply := rfl
@[simp] theorem State_dropL2_engineReplies (s : State) (p : L2Line → Bool) : (s.dropL2 p).engineReplies = s.engineReplies := rfl

/-! ### State.putL2 -/

@[simp] theorem State_putL2_hart (s : State) (e : L2Line) : (s.putL2 e).hart = s.hart := rfl
@[simp] theorem State_putL2_others (s : State) (e : L2Line) : (s.putL2 e).others = s.others := rfl
@[simp] theorem State_putL2_mm (s : State) (e : L2Line) : (s.putL2 e).mm = { s.mm with l2 := replaceFirst (fun x => x.same e) (fun _ => e) s.mm.l2 } := rfl
@[simp] theorem State_putL2_banks (s : State) (e : L2Line) : (s.putL2 e).banks = s.banks := rfl
@[simp] theorem State_putL2_bankSel (s : State) (e : L2Line) : (s.putL2 e).bankSel = s.bankSel := rfl
@[simp] theorem State_putL2_cmds (s : State) (e : L2Line) : (s.putL2 e).cmds = s.cmds := rfl
@[simp] theorem State_putL2_copies (s : State) (e : L2Line) : (s.putL2 e).copies = s.copies := rfl
@[simp] theorem State_putL2_walks (s : State) (e : L2Line) : (s.putL2 e).walks = s.walks := rfl
@[simp] theorem State_putL2_fe (s : State) (e : L2Line) : (s.putL2 e).fe = s.fe := rfl
@[simp] theorem State_putL2_fab (s : State) (e : L2Line) : (s.putL2 e).fab = s.fab := rfl
@[simp] theorem State_putL2_err (s : State) (e : L2Line) : (s.putL2 e).err = s.err := rfl
@[simp] theorem State_putL2_terak (s : State) (e : L2Line) : (s.putL2 e).terak = s.terak := rfl
@[simp] theorem State_putL2_cycles (s : State) (e : L2Line) : (s.putL2 e).cycles = s.cycles := rfl
@[simp] theorem State_putL2_matLast (s : State) (e : L2Line) : (s.putL2 e).matLast = s.matLast := rfl
@[simp] theorem State_putL2_copyLast (s : State) (e : L2Line) : (s.putL2 e).copyLast = s.copyLast := rfl
@[simp] theorem State_putL2_agenda (s : State) (e : L2Line) : (s.putL2 e).agenda = s.agenda := rfl
@[simp] theorem State_putL2_tick (s : State) (e : L2Line) : (s.putL2 e).tick = s.tick := rfl
@[simp] theorem State_putL2_fresh (s : State) (e : L2Line) : (s.putL2 e).fresh = s.fresh := rfl
@[simp] theorem State_putL2_homeReply (s : State) (e : L2Line) : (s.putL2 e).homeReply = s.homeReply := rfl
@[simp] theorem State_putL2_engineReplies (s : State) (e : L2Line) : (s.putL2 e).engineReplies = s.engineReplies := rfl

/-! ### State.putErrBank -/

@[simp] theorem State_putErrBank_hart (s : State) (b : ErrBank) : (s.putErrBank b).hart = s.hart := rfl
@[simp] theorem State_putErrBank_others (s : State) (b : ErrBank) : (s.putErrBank b).others = s.others := rfl
@[simp] theorem State_putErrBank_mm (s : State) (b : ErrBank) : (s.putErrBank b).mm = s.mm := rfl
@[simp] theorem State_putErrBank_banks (s : State) (b : ErrBank) : (s.putErrBank b).banks = s.banks := rfl
@[simp] theorem State_putErrBank_bankSel (s : State) (b : ErrBank) : (s.putErrBank b).bankSel = s.bankSel := rfl
@[simp] theorem State_putErrBank_cmds (s : State) (b : ErrBank) : (s.putErrBank b).cmds = s.cmds := rfl
@[simp] theorem State_putErrBank_copies (s : State) (b : ErrBank) : (s.putErrBank b).copies = s.copies := rfl
@[simp] theorem State_putErrBank_walks (s : State) (b : ErrBank) : (s.putErrBank b).walks = s.walks := rfl
@[simp] theorem State_putErrBank_fe (s : State) (b : ErrBank) : (s.putErrBank b).fe = s.fe := rfl
@[simp] theorem State_putErrBank_fab (s : State) (b : ErrBank) : (s.putErrBank b).fab = s.fab := rfl
@[simp] theorem State_putErrBank_err (s : State) (b : ErrBank) : (s.putErrBank b).err = { s.err with banks := b :: s.err.banks.filter (fun c => c.id != b.id) } := rfl
@[simp] theorem State_putErrBank_terak (s : State) (b : ErrBank) : (s.putErrBank b).terak = s.terak := rfl
@[simp] theorem State_putErrBank_cycles (s : State) (b : ErrBank) : (s.putErrBank b).cycles = s.cycles := rfl
@[simp] theorem State_putErrBank_matLast (s : State) (b : ErrBank) : (s.putErrBank b).matLast = s.matLast := rfl
@[simp] theorem State_putErrBank_copyLast (s : State) (b : ErrBank) : (s.putErrBank b).copyLast = s.copyLast := rfl
@[simp] theorem State_putErrBank_agenda (s : State) (b : ErrBank) : (s.putErrBank b).agenda = s.agenda := rfl
@[simp] theorem State_putErrBank_tick (s : State) (b : ErrBank) : (s.putErrBank b).tick = s.tick := rfl
@[simp] theorem State_putErrBank_fresh (s : State) (b : ErrBank) : (s.putErrBank b).fresh = s.fresh := rfl
@[simp] theorem State_putErrBank_homeReply (s : State) (b : ErrBank) : (s.putErrBank b).homeReply = s.homeReply := rfl
@[simp] theorem State_putErrBank_engineReplies (s : State) (b : ErrBank) : (s.putErrBank b).engineReplies = s.engineReplies := rfl

/-! ### State.trapReturn -/

@[simp] theorem State_trapReturn_others (s : State) : (s.trapReturn).others = s.others := rfl
@[simp] theorem State_trapReturn_mm (s : State) : (s.trapReturn).mm = s.mm := rfl
@[simp] theorem State_trapReturn_banks (s : State) : (s.trapReturn).banks = s.banks := rfl
@[simp] theorem State_trapReturn_bankSel (s : State) : (s.trapReturn).bankSel = s.bankSel := rfl
@[simp] theorem State_trapReturn_cmds (s : State) : (s.trapReturn).cmds = s.cmds := rfl
@[simp] theorem State_trapReturn_copies (s : State) : (s.trapReturn).copies = s.copies := rfl
@[simp] theorem State_trapReturn_walks (s : State) : (s.trapReturn).walks = s.walks := rfl
@[simp] theorem State_trapReturn_fe (s : State) : (s.trapReturn).fe = s.fe := rfl
@[simp] theorem State_trapReturn_fab (s : State) : (s.trapReturn).fab = s.fab := rfl
@[simp] theorem State_trapReturn_err (s : State) : (s.trapReturn).err = s.err := rfl
@[simp] theorem State_trapReturn_terak (s : State) : (s.trapReturn).terak = s.terak := rfl
@[simp] theorem State_trapReturn_cycles (s : State) : (s.trapReturn).cycles = s.cycles := rfl
@[simp] theorem State_trapReturn_matLast (s : State) : (s.trapReturn).matLast = s.matLast := rfl
@[simp] theorem State_trapReturn_copyLast (s : State) : (s.trapReturn).copyLast = s.copyLast := rfl
@[simp] theorem State_trapReturn_agenda (s : State) : (s.trapReturn).agenda = s.agenda := rfl
@[simp] theorem State_trapReturn_tick (s : State) : (s.trapReturn).tick = s.tick := rfl
@[simp] theorem State_trapReturn_fresh (s : State) : (s.trapReturn).fresh = s.fresh := rfl
@[simp] theorem State_trapReturn_homeReply (s : State) : (s.trapReturn).homeReply = s.homeReply := rfl
@[simp] theorem State_trapReturn_engineReplies (s : State) : (s.trapReturn).engineReplies = s.engineReplies := rfl

/-! ### State.clearReplies -/

@[simp] theorem State_clearReplies_others (s : State) : s.clearReplies.others = s.others := by unfold State.clearReplies; split <;> rfl
@[simp] theorem State_clearReplies_mm (s : State) : s.clearReplies.mm = s.mm := by unfold State.clearReplies; split <;> rfl
@[simp] theorem State_clearReplies_banks (s : State) : s.clearReplies.banks = s.banks := by unfold State.clearReplies; split <;> rfl
@[simp] theorem State_clearReplies_bankSel (s : State) : s.clearReplies.bankSel = s.bankSel := by unfold State.clearReplies; split <;> rfl
@[simp] theorem State_clearReplies_cmds (s : State) : s.clearReplies.cmds = s.cmds := by unfold State.clearReplies; split <;> rfl
@[simp] theorem State_clearReplies_copies (s : State) : s.clearReplies.copies = s.copies := by unfold State.clearReplies; split <;> rfl
@[simp] theorem State_clearReplies_walks (s : State) : s.clearReplies.walks = s.walks := by unfold State.clearReplies; split <;> rfl
@[simp] theorem State_clearReplies_fe (s : State) : s.clearReplies.fe = s.fe := by unfold State.clearReplies; split <;> rfl
@[simp] theorem State_clearReplies_fab (s : State) : s.clearReplies.fab = s.fab := by unfold State.clearReplies; split <;> rfl
@[simp] theorem State_clearReplies_err (s : State) : s.clearReplies.err = s.err := by unfold State.clearReplies; split <;> rfl
@[simp] theorem State_clearReplies_terak (s : State) : s.clearReplies.terak = s.terak := by unfold State.clearReplies; split <;> rfl
@[simp] theorem State_clearReplies_cycles (s : State) : s.clearReplies.cycles = s.cycles := by unfold State.clearReplies; split <;> rfl
@[simp] theorem State_clearReplies_matLast (s : State) : s.clearReplies.matLast = s.matLast := by unfold State.clearReplies; split <;> rfl
@[simp] theorem State_clearReplies_copyLast (s : State) : s.clearReplies.copyLast = s.copyLast := by unfold State.clearReplies; split <;> rfl
@[simp] theorem State_clearReplies_agenda (s : State) : s.clearReplies.agenda = s.agenda := by unfold State.clearReplies; split <;> rfl
@[simp] theorem State_clearReplies_tick (s : State) : s.clearReplies.tick = s.tick := by unfold State.clearReplies; split <;> rfl
@[simp] theorem State_clearReplies_fresh (s : State) : s.clearReplies.fresh = s.fresh := by unfold State.clearReplies; split <;> rfl
@[simp] theorem State_clearReplies_homeReply (s : State) : s.clearReplies.homeReply = s.homeReply := by unfold State.clearReplies; split <;> rfl
@[simp] theorem State_clearReplies_engineReplies (s : State) : s.clearReplies.engineReplies = s.engineReplies := by unfold State.clearReplies; split <;> rfl
@[simp] theorem State_clearReplies_hart_uid (s : State) : s.clearReplies.hart.uid = s.hart.uid := by unfold State.clearReplies; split <;> rfl
@[simp] theorem State_clearReplies_hart_phase (s : State) : s.clearReplies.hart.phase = s.hart.phase := by unfold State.clearReplies; split <;> rfl
@[simp] theorem State_clearReplies_hart_place (s : State) : s.clearReplies.hart.place = s.hart.place := by unfold State.clearReplies; split <;> rfl
@[simp] theorem State_clearReplies_hart_asid (s : State) : s.clearReplies.hart.asid = s.hart.asid := by unfold State.clearReplies; split <;> rfl
@[simp] theorem State_clearReplies_hart_prio (s : State) : s.clearReplies.hart.prio = s.hart.prio := by unfold State.clearReplies; split <;> rfl
@[simp] theorem State_clearReplies_hart_queue (s : State) : s.clearReplies.hart.queue = s.hart.queue := by unfold State.clearReplies; split <;> rfl
@[simp] theorem State_clearReplies_hart_packet (s : State) : s.clearReplies.hart.packet = s.hart.packet := by unfold State.clearReplies; split <;> rfl
@[simp] theorem State_clearReplies_hart_vlLo (s : State) : s.clearReplies.hart.vlLo = s.hart.vlLo := by unfold State.clearReplies; split <;> rfl
@[simp] theorem State_clearReplies_hart_vlHi (s : State) : s.clearReplies.hart.vlHi = s.hart.vlHi := by unfold State.clearReplies; split <;> rfl
@[simp] theorem State_clearReplies_hart_waitCount (s : State) : s.clearReplies.hart.waitCount = s.hart.waitCount := by unfold State.clearReplies; split <;> rfl
@[simp] theorem State_clearReplies_hart_promoted (s : State) : s.clearReplies.hart.promoted = s.hart.promoted := by unfold State.clearReplies; split <;> rfl
@[simp] theorem State_clearReplies_hart_dbgHalted (s : State) : s.clearReplies.hart.dbgHalted = s.hart.dbgHalted := by unfold State.clearReplies; split <;> rfl
@[simp] theorem State_clearReplies_hart_held (s : State) : s.clearReplies.hart.held = s.hart.held := by unfold State.clearReplies; split <;> rfl
@[simp] theorem State_clearReplies_hart_leaving (s : State) : s.clearReplies.hart.leaving = s.hart.leaving := by unfold State.clearReplies; split <;> rfl
@[simp] theorem State_clearReplies_hart_fetched (s : State) : s.clearReplies.hart.fetched = s.hart.fetched := by unfold State.clearReplies; split <;> rfl
@[simp] theorem State_clearReplies_hart_wait (s : State) : s.clearReplies.hart.wait = s.hart.wait := by unfold State.clearReplies; split <;> rfl
@[simp] theorem State_clearReplies_hart_pc (s : State) : s.clearReplies.hart.pc = s.hart.pc := by unfold State.clearReplies; split <;> rfl
@[simp] theorem State_clearReplies_hart_x (s : State) : s.clearReplies.hart.x = s.hart.x := by unfold State.clearReplies; split <;> rfl
@[simp] theorem State_clearReplies_hart_v (s : State) : s.clearReplies.hart.v = s.hart.v := by unfold State.clearReplies; split <;> rfl
@[simp] theorem State_clearReplies_hart_vPi (s : State) : s.clearReplies.hart.vPi = s.hart.vPi := by unfold State.clearReplies; split <;> rfl
@[simp] theorem State_clearReplies_hart_vDirty (s : State) : s.clearReplies.hart.vDirty = s.hart.vDirty := by unfold State.clearReplies; split <;> rfl
@[simp] theorem State_clearReplies_hart_m (s : State) : s.clearReplies.hart.m = s.hart.m := by unfold State.clearReplies; split <;> rfl
@[simp] theorem State_clearReplies_hart_mPi (s : State) : s.clearReplies.hart.mPi = s.hart.mPi := by unfold State.clearReplies; split <;> rfl
@[simp] theorem State_clearReplies_hart_vl (s : State) : s.clearReplies.hart.vl = s.hart.vl := by unfold State.clearReplies; split <;> rfl
@[simp] theorem State_clearReplies_hart_md (s : State) : s.clearReplies.hart.md = s.hart.md := by unfold State.clearReplies; split <;> rfl
@[simp] theorem State_clearReplies_hart_ix (s : State) : s.clearReplies.hart.ix = s.hart.ix := by unfold State.clearReplies; split <;> rfl
@[simp] theorem State_clearReplies_hart_b (s : State) : s.clearReplies.hart.b = s.hart.b := by unfold State.clearReplies; split <;> rfl
@[simp] theorem State_clearReplies_hart_k (s : State) : s.clearReplies.hart.k = s.hart.k := by unfold State.clearReplies; split <;> rfl
@[simp] theorem State_clearReplies_hart_bs (s : State) : s.clearReplies.hart.bs = s.hart.bs := by unfold State.clearReplies; split <;> rfl
@[simp] theorem State_clearReplies_hart_vlMax (s : State) : s.clearReplies.hart.vlMax = s.hart.vlMax := by unfold State.clearReplies; split <;> rfl
@[simp] theorem State_clearReplies_hart_nregs (s : State) : s.clearReplies.hart.nregs = s.hart.nregs := by unfold State.clearReplies; split <;> rfl
@[simp] theorem State_clearReplies_hart_aTiles (s : State) : s.clearReplies.hart.aTiles = s.hart.aTiles := by unfold State.clearReplies; split <;> rfl
@[simp] theorem State_clearReplies_hart_mType (s : State) : s.clearReplies.hart.mType = s.hart.mType := by unfold State.clearReplies; split <;> rfl
@[simp] theorem State_clearReplies_hart_nt (s : State) : s.clearReplies.hart.nt = s.hart.nt := by unfold State.clearReplies; split <;> rfl
@[simp] theorem State_clearReplies_hart_tiles (s : State) : s.clearReplies.hart.tiles = s.hart.tiles := by unfold State.clearReplies; split <;> rfl
@[simp] theorem State_clearReplies_hart_matQ (s : State) : s.clearReplies.hart.matQ = s.hart.matQ := by unfold State.clearReplies; split <;> rfl
@[simp] theorem State_clearReplies_hart_csr (s : State) : s.clearReplies.hart.csr = s.hart.csr := by unfold State.clearReplies; split <;> rfl
@[simp] theorem State_clearReplies_hart_league (s : State) : s.clearReplies.hart.league = s.hart.league := by unfold State.clearReplies; split <;> rfl
@[simp] theorem State_clearReplies_hart_copyFault (s : State) : s.clearReplies.hart.copyFault = s.hart.copyFault := by unfold State.clearReplies; split <;> rfl
@[simp] theorem State_clearReplies_hart_copyTold (s : State) : s.clearReplies.hart.copyTold = s.hart.copyTold := by unfold State.clearReplies; split <;> rfl
@[simp] theorem State_clearReplies_hart_stopped (s : State) : s.clearReplies.hart.stopped = s.hart.stopped := by unfold State.clearReplies; split <;> rfl
@[simp] theorem State_clearReplies_hart_startElem (s : State) : s.clearReplies.hart.startElem = s.hart.startElem := by unfold State.clearReplies; split <;> rfl
@[simp] theorem State_clearReplies_hart_elemFrom (s : State) : s.clearReplies.hart.elemFrom = s.hart.elemFrom := by unfold State.clearReplies; split <;> rfl
@[simp] theorem State_clearReplies_hart_posWritten (s : State) : s.clearReplies.hart.posWritten = s.hart.posWritten := by unfold State.clearReplies; split <;> rfl
@[simp] theorem State_clearReplies_hart_atBarrier (s : State) : s.clearReplies.hart.atBarrier = s.hart.atBarrier := by unfold State.clearReplies; split <;> rfl
@[simp] theorem State_clearReplies_hart_expired (s : State) : s.clearReplies.hart.expired = s.hart.expired := by unfold State.clearReplies; split <;> rfl
@[simp] theorem State_clearReplies_hart_records (s : State) : s.clearReplies.hart.records = s.hart.records := by unfold State.clearReplies; split <;> rfl
@[simp] theorem State_clearReplies_hart_furlong (s : State) : s.clearReplies.hart.furlong = s.hart.furlong := by unfold State.clearReplies; split <;> rfl
@[simp] theorem State_clearReplies_hart_strip (s : State) : s.clearReplies.hart.strip = s.hart.strip := by unfold State.clearReplies; split <;> rfl
@[simp] theorem State_clearReplies_hart_region (s : State) : s.clearReplies.hart.region = s.hart.region := by unfold State.clearReplies; split <;> rfl
@[simp] theorem State_clearReplies_hart_pathAt (s : State) : s.clearReplies.hart.pathAt = s.hart.pathAt := by unfold State.clearReplies; split <;> rfl
@[simp] theorem State_clearReplies_hart_kept (s : State) : s.clearReplies.hart.kept = s.hart.kept := by unfold State.clearReplies; split <;> rfl
@[simp] theorem State_clearReplies_hart_split (s : State) : s.clearReplies.hart.split = s.hart.split := by unfold State.clearReplies; split <;> rfl
@[simp] theorem State_clearReplies_hart_opaSplit (s : State) : s.clearReplies.hart.opaSplit = s.hart.opaSplit := by unfold State.clearReplies; split <;> rfl
@[simp] theorem State_clearReplies_hart_replies (s : State) : s.clearReplies.hart.replies = [] := by unfold State.clearReplies; split <;> simp_all
@[simp] theorem State_clearReplies_hart_pins (s : State) : s.clearReplies.hart.pins = s.hart.pins := by unfold State.clearReplies; split <;> rfl
@[simp] theorem State_clearReplies_hart_vPsn (s : State) : s.clearReplies.hart.vPsn = s.hart.vPsn := by unfold State.clearReplies; split <;> rfl
@[simp] theorem State_clearReplies_hart_mPsn (s : State) : s.clearReplies.hart.mPsn = s.hart.mPsn := by unfold State.clearReplies; split <;> rfl
@[simp] theorem State_clearReplies_hart_tPsn (s : State) : s.clearReplies.hart.tPsn = s.hart.tPsn := by unfold State.clearReplies; split <;> rfl

end Sys2Proof.Laws
end

