-- ==== Sys2Proof/Laws/Regs.lean ====
section
/-!
SUPPORT. The registers: a read after a write, x0, and the shapes every scalar meaning ends in (a result, a step past the
instruction) as the statements name them.
-/

namespace Sys2Proof.Laws

open Sys2Proof Sys2Proof.Machine

/-! ## x registers (R169) -/

theorem hart_getX_setX (h : Hart) (d r : BitVec 5) (v : Word) :
    (h.setX d v).getX r = if r = d ∧ d ≠ 0#5 then v else h.getX r := by
  unfold Hart.setX Hart.getX
  by_cases hd : d = 0#5
  · simp [hd]
  · by_cases hr : r = 0#5
    · subst hr; simp [hd]; intro h; exact absurd h.symm hd
    · simp only [hd, hr, if_false]
      by_cases e : r = d
      · subst e; simp [hd]
      · have : d.toNat ≠ r.toNat := fun h => e (BitVec.eq_of_toNat_eq h.symm)
        simp [e, this]

@[simp] theorem getX_zero (s : State) : s.getX 0#5 = 0#64 := rfl
theorem getX_setX (s : State) (d r : BitVec 5) (v : Word) :
    (s.setX d v).getX r = if r = d ∧ d ≠ 0#5 then v else s.getX r := hart_getX_setX s.hart d r v
theorem getX_result (s : State) (d r : BitVec 5) (v : Word) :
    (s.result d v).getX r = if r = d ∧ d ≠ 0#5 then v else s.getX r := hart_getX_setX s.hart d r v
@[simp] theorem getX_advance (s : State) (r : BitVec 5) : s.advance.getX r = s.getX r := rfl
@[simp] theorem getX_setPc (s : State) (v : Word) (r : BitVec 5) : (s.setPc v).getX r = s.getX r := rfl
@[simp] theorem getX_clearReplies (s : State) (r : BitVec 5) : s.clearReplies.getX r = s.getX r := by
  unfold State.clearReplies; split <;> rfl

/-! ## Other register files -/

theorem getMd_setMd (h : Hart) (n m : BitVec 2) (v : BitVec 32) : (h.setMd n v).getMd m = if m = n then v else h.getMd m := by
  unfold Hart.setMd Hart.getMd
  by_cases e : m = n
  · subst e; simp
  · have : n.toNat ≠ m.toNat := fun h => e (BitVec.eq_of_toNat_eq h.symm)
    simp [e, this]
theorem getIx_setIx (h : Hart) (n m : BitVec 4) (v : Word) : (h.setIx n v).getIx m = if m = n then v else h.getIx m := by
  unfold Hart.setIx Hart.getIx
  by_cases e : m = n
  · subst e; simp
  · have : n.toNat ≠ m.toNat := fun h => e (BitVec.eq_of_toNat_eq h.symm)
    simp [e, this]
theorem getBs_setBs (h : Hart) (n m : BitVec 3) (v : Word) : (h.setBs n v).getBs m = if m = n then v else h.getBs m := by
  unfold Hart.setBs Hart.getBs
  by_cases e : m = n
  · subst e; simp
  · have : n.toNat ≠ m.toNat := fun h => e (BitVec.eq_of_toNat_eq h.symm)
    simp [e, this]
theorem getV_setV (h : Hart) (q r : Nat) (v : VReg) : (h.setV r v).getV q = if q = r ∧ r < 48 then v else h.getV q := by
  unfold Hart.setV Hart.setVTo Hart.getV
  split
  next hr =>
    by_cases e : q = r
    · subst e; simp [hr]
    · have : r ≠ q := fun h => e h.symm
      simp [e, this]
  next hr => simp [hr]
theorem getM_setM (h : Hart) (q r : Nat) (v : MReg) : (h.setM r v).getM q = if q = r ∧ r < 12 then v else h.getM q := by
  unfold Hart.setM Hart.getM
  split
  next hr =>
    by_cases e : q = r
    · subst e; simp [hr]
    · have : r ≠ q := fun h => e h.symm
      simp [e, this]
  next hr => simp [hr]
theorem getTile_setTile (h : Hart) (q r : Nat) (v : Tile) :
    (h.setTile r v).getTile q = if q = r ∧ r < 8 then v else h.getTile q := by
  unfold Hart.setTile Hart.getTile
  split
  next hr =>
    by_cases e : q = r
    · subst e; simp [hr]
    · have : r ≠ q := fun h => e h.symm
      simp [e, this]
  next hr => simp [hr]

theorem getKey_putKey {β : Type} (k q : Nat) (b : β) (l : List (Nat × β)) :
    getKey q (putKey k b l) = if q = k then some b else getKey q l := by
  unfold getKey putKey
  by_cases e : q = k
  · subst e; simp
  · have h1 : (k == q) = false := by simpa using fun h => e h.symm
    simp only [List.find?_cons, h1, e, if_false]
    congr 1
    induction l with
    | nil => rfl
    | cons a l ih =>
      by_cases ha : a.1 = q
      · have : (a.1 != k) = true := by simpa [ha] using e
        have hq : (a.1 == q) = true := by simp [ha]
        rw [List.filter_cons_of_pos (by simpa using this)]; simp only [List.find?_cons, hq]
      · by_cases hk : a.1 = k
        · have h2 : (a.1 == q) = false := by simpa using ha
          simp [hk, h1, ih]
        · have h2 : (a.1 == q) = false := by simpa using ha
          have h3 : (a.1 != k) = true := by simpa using hk
          simp [h3, h2, ih]

/-- A bank reads as it was last written; every other bank stands. -/
theorem bank_setBank (s : State) (b c : Nat) (k : Bank) : (s.setBank b k).bank c = if c = b then k else s.bank c := by
  unfold State.setBank State.bank
  rw [getKey_putKey]
  split <;> rfl

/-! ## The shapes a scalar meaning ends in -/

theorem wrote_result (s : State) (d : BitVec 5) (v : Word) : Wrote s d v (s.result d v) where
  result := fun h => by rw [getX_result]; simp [h]
  zero := rfl
  others := fun r h => by rw [getX_result]; simp [h]
  pc := by simp
  memory := fun _ => rfl
  rest := by
    simp only [State.result, State.setX, State.advance, State.setPc, Hart.setX]; split <;> rfl

theorem passed_advance (s : State) : Passed s s.advance where
  pc := rfl
  memory := fun _ => rfl
  rest := rfl

/-- A meaning that answers a result of value `w` meets the statement for a value equal to it. -/
theorem wrote_of_result {s : State} {i : Instr} {d : BitVec 5} {v w : Word} (h : exec i s = .next (s.result d w)) (e : w = v) :
    ∃ t, exec i s = .next t ∧ Wrote s d v t := ⟨_, h, e ▸ wrote_result s d w⟩

theorem clear_result (s : State) (d : BitVec 5) (v : Word) : (s.result d v).clearReplies = s.clearReplies.result d v := by
  unfold State.clearReplies
  have : (s.result d v).hart.replies = s.hart.replies := by simp
  rw [this]
  split
  · rfl
  · simp only [State.result, State.setX, State.advance, State.setPc, Hart.setX]; split <;> rfl
theorem clear_advance (s : State) : s.advance.clearReplies = s.clearReplies.advance := by
  unfold State.clearReplies
  have : s.advance.hart.replies = s.hart.replies := rfl
  rw [this]; split <;> rfl

/-- A step past the instruction. -/
theorem settle_advance {m : M Unit} {s t : State} (h : m s = .ok ((), t)) :
    settle (m >>= fun _ => M.advance) s = .next t.clearReplies.advance := by
  rw [settle_ok (t := t.advance) (by rw [bind_ok h]; rfl), clear_advance]

/-- A result. -/
theorem settle_result {m : M Word} {s t : State} {v : Word} (d : BitVec 5) (h : m s = .ok (v, t)) :
    settle (m >>= fun v => M.result d v) s = .next (t.clearReplies.result d v) := by
  rw [settle_ok (t := t.result d v) (by rw [bind_ok h]; rfl), clear_result]

/-- No walk need end first. -/
theorem wait_none {s : State} {sc : Option (BitVec 2)} (h : s.walkAhead sc = none) : M.waitWalks sc s = .ok ((), s) := by
  simp [M.waitWalks, h]

/-! ## Taking a cause (R365, R373) -/

/-- A cause that is no page fault is taken at TVEC when the hart can take it. -/
theorem raise_entered {s : State} {v : FaultVals} (ht : s.takesTraps) (h5 : v.cause ≠ 5#8) (h6 : v.cause ≠ 6#8)
    (h7 : v.cause ≠ 7#8) :
    s.raise v = { s with hart := { s.hart.atStart with
      csr := s.hart.csr.entered v, pc := s.hart.csr.tvec, vPi := s.hart.restPi (s.streamRegs s.hart.uid), posWritten := false,
      region := none, wait := .none, atBarrier := false } } := by
  obtain ⟨hm, tv, fu, st, _, gr⟩ := ht
  have hc : s.closing = .ok s := by
    unfold State.closing commitFurlong
    have e : ({ s with hart := { s.hart with furlong := none } } : State) = s := by rw [← fu]
    rw [bind_ok (run_get s), if_pos st, run_set, e]
  unfold State.raise State.trapEntry
  simp [h5, h6, h7, hm, tv, hc, gr]

/-- A page fault stops the hart for the pager and writes no CSR. -/
theorem raise_page {s : State} {v : FaultVals} (h : v.cause = 5#8 ∨ v.cause = 6#8 ∨ v.cause = 7#8) :
    s.raise v = { s with hart := { s.hart with wait := .pager v, startElem := v.elem } } := by
  unfold State.raise
  rcases h with h | h | h <;> simp [h]

end Sys2Proof.Laws
end

