-- ==== Sys2Proof/Tests/Slice0.lean ====
section
/-!
SUPPORT. The model's own tests: a word of every encoding, written field by field from the opcode table; an ill-formed
term for every check of WellFormed; and single steps whose results come from the spec's tables and worked examples.
-/

namespace Sys2Proof.Tests

open Sys2Proof Sys2Proof.Machine

set_option maxRecDepth 1000000
set_option Elab.async false

/-! ## Decoding (R181 to R187, R288) -/

/-- Words of major opcode 0x01 (R187), written field by field, and what they stand for. -/
theorem decodeMajor01 :
    decodeWord 0b0000001_01010_11110_00100_0000000000#32 = .ok (.add 10 30 4) ∧
    decodeWord 0b0000001_01100_10100_00001_0000000001#32 = .ok (.sub 12 20 1) ∧
    decodeWord 0b0000001_00010_11010_10001_0000000010#32 = .ok (.and 2 26 17) ∧
    decodeWord 0b0000001_00011_01011_10010_0000000011#32 = .ok (.or 3 11 18) ∧
    decodeWord 0b0000001_00001_11101_10000_0000000100#32 = .ok (.xor 1 29 16) ∧
    decodeWord 0b0000001_00110_00001_00010_0000000101#32 = .ok (.sll 6 1 2) ∧
    decodeWord 0b0000001_01101_01101_00010_0000000110#32 = .ok (.srl 13 13 2) ∧
    decodeWord 0b0000001_00111_00010_10001_0000000111#32 = .ok (.sra 7 2 17) ∧
    decodeWord 0b0000001_01101_00001_11010_0000001000#32 = .ok (.slt 13 1 26) ∧
    decodeWord 0b0000001_10010_00011_11110_0000001001#32 = .ok (.sltu 18 3 30) ∧
    decodeWord 0b0000001_00111_10100_10100_0000001010#32 = .ok (.min 7 20 20) ∧
    decodeWord 0b0000001_10010_11110_00001_0000001011#32 = .ok (.max 18 30 1) ∧
    decodeWord 0b0000001_10010_10010_01100_0000001100#32 = .ok (.minu 18 18 12) ∧
    decodeWord 0b0000001_00001_11111_00111_0000001101#32 = .ok (.maxu 1 31 7) ∧
    decodeWord 0b0000001_00001_10001_000000000001110#32 = .ok (.clz 1 17) ∧
    decodeWord 0b0000001_11011_00100_000000000001111#32 = .ok (.ctz 27 4) ∧
    decodeWord 0b0000001_01001_01101_000000000010000#32 = .ok (.popc 9 13) := by decide +kernel

/-- Words of major opcode 0x02 (R187), written field by field, and what they stand for. -/
theorem decodeMajor02 :
    decodeWord 0b0000010_00100_10001_00011_0000000000#32 = .ok (.mul 4 17 3) ∧
    decodeWord 0b0000010_10010_01001_10001_0000000001#32 = .ok (.mulh 18 9 17) ∧
    decodeWord 0b0000010_11010_10101_00101_0000000010#32 = .ok (.mulhu 26 21 5) ∧
    decodeWord 0b0000010_00011_10010_10010_0000000011#32 = .ok (.div 3 18 18) ∧
    decodeWord 0b0000010_10100_00110_01011_0000000100#32 = .ok (.divu 20 6 11) ∧
    decodeWord 0b0000010_00011_10001_10110_0000000101#32 = .ok (.rem 3 17 22) ∧
    decodeWord 0b0000010_00010_10010_00001_0000000110#32 = .ok (.remu 2 18 1) := by decide +kernel

/-- Words of major opcode 0x03 (R187), written field by field, and what they stand for. -/
theorem decodeMajor03 :
    decodeWord 0b0000011_10011_00110_011111110001010#32 = .ok (.addi 19 6 16266) := by decide +kernel

/-- Words of major opcode 0x04 (R187), written field by field, and what they stand for. -/
theorem decodeMajor04 :
    decodeWord 0b0000100_10101_10001_011011010111011#32 = .ok (.andi 21 17 14011) := by decide +kernel

/-- Words of major opcode 0x05 (R187), written field by field, and what they stand for. -/
theorem decodeMajor05 :
    decodeWord 0b0000101_11000_01010_011101110011000#32 = .ok (.ori 24 10 15256) := by decide +kernel

/-- Words of major opcode 0x06 (R187), written field by field, and what they stand for. -/
theorem decodeMajor06 :
    decodeWord 0b0000110_10010_11101_011101000000001#32 = .ok (.xori 18 29 14849) := by decide +kernel

/-- Words of major opcode 0x07 (R187), written field by field, and what they stand for. -/
theorem decodeMajor07 :
    decodeWord 0b0000111_01011_01001_001111111001100#32 = .ok (.slti 11 9 8140) := by decide +kernel

/-- Words of major opcode 0x08 (R187), written field by field, and what they stand for. -/
theorem decodeMajor08 :
    decodeWord 0b0001000_11001_00101_101100101111000#32 = .ok (.sltiu 25 5 22904) := by decide +kernel

/-- Words of major opcode 0x09 (R187), written field by field, and what they stand for. -/
theorem decodeMajor09 :
    decodeWord 0b0001001_11000_00111_000000000_000101#32 = .ok (.slli 24 7 5) ∧
    decodeWord 0b0001001_10010_01001_001000000_100001#32 = .ok (.srli 18 9 33) ∧
    decodeWord 0b0001001_01111_11100_010000000_010101#32 = .ok (.srai 15 28 21) := by decide +kernel

/-- Words of major opcode 0x0A (R187), written field by field, and what they stand for. -/
theorem decodeMajor0A :
    decodeWord 0b0001010_10111_01110010111001101100#32 = .ok (.lui 23 470636) := by decide +kernel

/-- Words of major opcode 0x0B (R187), written field by field, and what they stand for. -/
theorem decodeMajor0B :
    decodeWord 0b0001011_01001_10011011111001001011#32 = .ok (.auipc 9 638539) := by decide +kernel

/-- Words of major opcode 0x0C (R187), written field by field, and what they stand for. -/
theorem decodeMajor0C :
    decodeWord 0b0001100_11111_00010010101111010100#32 = .ok (.jal 31 76756) := by decide +kernel

/-- Words of major opcode 0x0D (R187), written field by field, and what they stand for. -/
theorem decodeMajor0D :
    decodeWord 0b0001101_00011_10000_011010110000101#32 = .ok (.jalr 3 16 13701) := by decide +kernel

/-- Words of major opcode 0x0E (R187), written field by field, and what they stand for. -/
theorem decodeMajor0E :
    decodeWord 0b0001110_00101_11000_010101111001000#32 = .ok (.beq 5 24 11208) := by decide +kernel

/-- Words of major opcode 0x0F (R187), written field by field, and what they stand for. -/
theorem decodeMajor0F :
    decodeWord 0b0001111_00100_11101_011111010010110#32 = .ok (.bne 4 29 16022) := by decide +kernel

/-- Words of major opcode 0x10 (R187), written field by field, and what they stand for. -/
theorem decodeMajor10 :
    decodeWord 0b0010000_01101_00001_111101100100011#32 = .ok (.blt 13 1 31523) := by decide +kernel

/-- Words of major opcode 0x11 (R187), written field by field, and what they stand for. -/
theorem decodeMajor11 :
    decodeWord 0b0010001_10101_00010_110000111011101#32 = .ok (.bge 21 2 25053) := by decide +kernel

/-- Words of major opcode 0x12 (R187), written field by field, and what they stand for. -/
theorem decodeMajor12 :
    decodeWord 0b0010010_10001_10010_110010100000001#32 = .ok (.bltu 17 18 25857) := by decide +kernel

/-- Words of major opcode 0x13 (R187), written field by field, and what they stand for. -/
theorem decodeMajor13 :
    decodeWord 0b0010011_11100_11010_010100000101000#32 = .ok (.bgeu 28 26 10280) := by decide +kernel

/-- Words of major opcode 0x14 (R187), written field by field, and what they stand for. -/
theorem decodeMajor14 :
    decodeWord 0b0010100_01010_10110_01_1001100000101#32 = .ok (.lb 10 22 1 4869) := by decide +kernel

/-- Words of major opcode 0x15 (R187), written field by field, and what they stand for. -/
theorem decodeMajor15 :
    decodeWord 0b0010101_01111_10010_11_0111010011001#32 = .ok (.lh 15 18 3 3737) := by decide +kernel

/-- Words of major opcode 0x16 (R187), written field by field, and what they stand for. -/
theorem decodeMajor16 :
    decodeWord 0b0010110_00010_11010_01_1111000111010#32 = .ok (.lw 2 26 1 7738) := by decide +kernel

/-- Words of major opcode 0x17 (R187), written field by field, and what they stand for. -/
theorem decodeMajor17 :
    decodeWord 0b0010111_01000_01111_10_1010101000000#32 = .ok (.ld 8 15 2 5440) := by decide +kernel

/-- Words of major opcode 0x18 (R187), written field by field, and what they stand for. -/
theorem decodeMajor18 :
    decodeWord 0b0011000_00010_00001_10_1011001110010#32 = .ok (.lbu 2 1 2 5746) := by decide +kernel

/-- Words of major opcode 0x19 (R187), written field by field, and what they stand for. -/
theorem decodeMajor19 :
    decodeWord 0b0011001_01001_10100_10_1111111000111#32 = .ok (.lhu 9 20 2 8135) := by decide +kernel

/-- Words of major opcode 0x1A (R187), written field by field, and what they stand for. -/
theorem decodeMajor1A :
    decodeWord 0b0011010_10101_11010_01_0100100011011#32 = .ok (.lwu 21 26 1 2331) := by decide +kernel

/-- Words of major opcode 0x1B (R187), written field by field, and what they stand for. -/
theorem decodeMajor1B :
    decodeWord 0b0011011_10110_01100_11_1010101100_0_01#32 = .ok (.ldacq 22 12 3 684 1) := by decide +kernel

/-- Words of major opcode 0x1C (R187), written field by field, and what they stand for. -/
theorem decodeMajor1C :
    decodeWord 0b0011100_00001_11110_011101100011000#32 = .ok (.sb 1 30 15128) := by decide +kernel

/-- Words of major opcode 0x1D (R187), written field by field, and what they stand for. -/
theorem decodeMajor1D :
    decodeWord 0b0011101_01011_00101_100111000110010#32 = .ok (.sh 11 5 20018) := by decide +kernel

/-- Words of major opcode 0x1E (R187), written field by field, and what they stand for. -/
theorem decodeMajor1E :
    decodeWord 0b0011110_00011_01111_000011110001011#32 = .ok (.sw 3 15 1931) := by decide +kernel

/-- Words of major opcode 0x1F (R187), written field by field, and what they stand for. -/
theorem decodeMajor1F :
    decodeWord 0b0011111_00110_11000_010010011001010#32 = .ok (.sd 6 24 9418) := by decide +kernel

/-- Words of major opcode 0x20 (R187), written field by field, and what they stand for. -/
theorem decodeMajor20 :
    decodeWord 0b0100000_00100_10111_001111110110_0_01#32 = .ok (.sdrel 4 23 1014 1) := by decide +kernel

/-- Words of major opcode 0x21 (R187), written field by field, and what they stand for. -/
theorem decodeMajor21 :
    decodeWord 0b0100001_01100_11101_11_0111111100_0_01#32 = .ok (.ldref 12 29 3 508 0 1) := by decide +kernel

/-- Words of major opcode 0x22 (R187), written field by field, and what they stand for. -/
theorem decodeMajor22 :
    decodeWord 0b0100010_01110_01100_100011001010_000#32 = .ok (.sdref 14 12 2250) := by decide +kernel

/-- Words of major opcode 0x23 (R187), written field by field, and what they stand for. -/
theorem decodeMajor23 :
    decodeWord 0b0100011_01000_11100_001000110000_0_11#32 = .ok (.spub 8 28 560 3) := by decide +kernel

/-- Words of major opcode 0x24 (R187), written field by field, and what they stand for. -/
theorem decodeMajor24 :
    decodeWord 0b0100100_01101_11011_100011001101101#32 = .ok (.rtag 13 27 18029) := by decide +kernel

/-- Words of major opcode 0x25 (R187), written field by field, and what they stand for. -/
theorem decodeMajor25 :
    decodeWord 0b0100101_01000_10110_011010100101000#32 = .ok (.objinit 8 22 13608) := by decide +kernel

/-- Words of major opcode 0x26 (R187), written field by field, and what they stand for. -/
theorem decodeMajor26 :
    decodeWord 0b0100110_11111_01011_10101_0_1_0_1_01_0000#32 = .ok (.amoadd 31 11 21 1 0 1 1) ∧
    decodeWord 0b0100110_00100_00010_00101_0_0_0_1_01_0001#32 = .ok (.amoswap 4 2 5 0 0 1 1) ∧
    decodeWord 0b0100110_00001_01111_11010_0_1_0_0_01_0010#32 = .ok (.amocas 1 15 26 1 0 0 1) ∧
    decodeWord 0b0100110_00001_00100_01101_0_1_0_1_10_0011#32 = .ok (.amomin 1 4 13 1 0 1 2) ∧
    decodeWord 0b0100110_01010_11110_00100_0_1_1_1_11_0100#32 = .ok (.amomax 10 30 4 1 1 1 3) ∧
    decodeWord 0b0100110_10011_10100_10101_0_1_0_0_11_0101#32 = .ok (.amominu 19 20 21 1 0 0 3) ∧
    decodeWord 0b0100110_11011_11000_11110_0_1_1_1_10_0110#32 = .ok (.amomaxu 27 24 30 1 1 1 2) ∧
    decodeWord 0b0100110_01100_01100_01100_0_0_0_0_10_0111#32 = .ok (.amoand 12 12 12 0 0 0 2) ∧
    decodeWord 0b0100110_01100_00001_00110_0_0_1_0_01_1000#32 = .ok (.amoor 12 1 6 0 1 0 1) ∧
    decodeWord 0b0100110_00101_00011_01010_0_1_0_0_01_1001#32 = .ok (.amoxor 5 3 10 1 0 0 1) := by decide +kernel

/-- Words of major opcode 0x27 (R187), written field by field, and what they stand for. -/
theorem decodeMajor27 :
    decodeWord 0b0100111_0000000000000000000000000#32 = .ok .alrb ∧
    decodeWord 0b0100111_00000000000000000_1_0_10_0001#32 = .ok (.alre 1 0 2) := by decide +kernel

/-- Words of major opcode 0x28 (R187), written field by field, and what they stand for. -/
theorem decodeMajor28 :
    decodeWord 0b0101000_0000000000000000_001_11_0000#32 = .ok (.fence 1 3) ∧
    decodeWord 0b0101000_0000000000000000000000001#32 = .ok .vdrain ∧
    decodeWord 0b0101000_000000000000000000_010_0010#32 = .ok (.binit 2) ∧
    decodeWord 0b0101000_10011_0000000000000_001_0011#32 = .ok (.barr 19 1) ∧
    decodeWord 0b0101000_00000_00010_00000000_110_0100#32 = .ok (.bwait 2 6) ∧
    decodeWord 0b0101000_00110_10011_000000000000101#32 = .ok (.ljoin 6 19) ∧
    decodeWord 0b0101000_0000000000000000000000110#32 = .ok .lleave ∧
    decodeWord 0b0101000_01100_00100_0000000_1010_0111#32 = .ok (.waitc 12 4 10) := by decide +kernel

/-- Words of major opcode 0x29 (R187), written field by field, and what they stand for. -/
theorem decodeMajor29 :
    decodeWord 0b0101001_01000_11110_000000000000000#32 = .ok (.spalloc 8 30) ∧
    decodeWord 0b0101001_00000_01011_000000000000001#32 = .ok (.spfree 11) := by decide +kernel

/-- Words of major opcode 0x2A (R187), written field by field, and what they stand for. -/
theorem decodeMajor2A :
    decodeWord 0b0101010_0000000000000000000000000#32 = .ok .ecall ∧
    decodeWord 0b0101010_0000000000000000000000001#32 = .ok .ebreak ∧
    decodeWord 0b0101010_0000000000000000000000010#32 = .ok .eret ∧
    decodeWord 0b0101010_0000000000000000000000011#32 = .ok .wfi ∧
    decodeWord 0b0101010_0000000000000000000000100#32 = .ok .yield ∧
    decodeWord 0b0101010_0000000000000000000000101#32 = .ok .halt := by decide +kernel

/-- Words of major opcode 0x2B (R187), written field by field, and what they stand for. -/
theorem decodeMajor2B :
    decodeWord 0b0101011_10011_00000000_010111010011#32 = .ok (.csrr 19 1491) ∧
    decodeWord 0b0101011_01111_00011_001_000111011000#32 = .ok (.csrw 15 3 472) ∧
    decodeWord 0b0101011_11011_01111_010_111111100011#32 = .ok (.csrs 27 15 4067) ∧
    decodeWord 0b0101011_11111_01110_011_011110101111#32 = .ok (.csrc 31 14 1967) := by decide +kernel

/-- Words of major opcode 0x30 (R187), written field by field, and what they stand for. -/
theorem decodeMajor30 :
    decodeWord 0b0110000_000_01111_0_01001_0_00010_00000#32 = .ok (.vsetl 15 9 2) ∧
    decodeWord 0b0110000_000_00100_0_00011_00000000001#32 = .ok (.vdecl 4 3) ∧
    decodeWord 0b0110000_10_0_01010_0_10111_00000000010#32 = .ok (.vmode 2 10 23) ∧
    decodeWord 0b0110000_0000_0100_0_01111_0_11010_00011#32 = .ok (.ixset 4 15 26) ∧
    decodeWord 0b0110000_0000_1011_0_00101_0_10000_00100#32 = .ok (.ixbnd 11 5 16) ∧
    decodeWord 0b0110000_0000_0001_0_00110_0_11110_00101#32 = .ok (.ixstep 1 6 30) ∧
    decodeWord 0b0110000_0000_1111_0_10000_0_01011_00110#32 = .ok (.ixlane 15 16 11) ∧
    decodeWord 0b0110000_01_0_10110_100010_0_11101_00111#32 = .ok (.vmvx 1 22 34 29) ∧
    decodeWord 0b0110000_01_110000_100001_00000001000#32 = .ok (.vmvv 1 48 33) := by decide +kernel

/-- Words of major opcode 0x31 (R187), written field by field, and what they stand for. -/
theorem decodeMajor31 :
    decodeWord 0b0110001_01_111110_101001_110111_00000#32 = .ok (.vadd 1 62 41 55) ∧
    decodeWord 0b0110001_01_101100_110110_010000_00001#32 = .ok (.vsub 1 44 54 16) ∧
    decodeWord 0b0110001_10_010111_111010_001010_00010#32 = .ok (.vmul 2 23 58 10) ∧
    decodeWord 0b0110001_01_110001_001110_100010_00011#32 = .ok (.vmac 1 49 14 34) ∧
    decodeWord 0b0110001_10_110001_100000_010101_00100#32 = .ok (.vnmac 2 49 32 21) ∧
    decodeWord 0b0110001_10_001110_100111_110011_00101#32 = .ok (.vmin 2 14 39 51) ∧
    decodeWord 0b0110001_11_111111_110000_110110_00110#32 = .ok (.vmax 3 63 48 54) ∧
    decodeWord 0b0110001_01_110011_001111_00000000111#32 = .ok (.vabs 1 51 15) ∧
    decodeWord 0b0110001_11_011001_101111_00000001000#32 = .ok (.vneg 3 25 47) ∧
    decodeWord 0b0110001_11_001110_001100_100001_01001#32 = .ok (.vand 3 14 12 33) ∧
    decodeWord 0b0110001_01_010110_101110_000001_01010#32 = .ok (.vor 1 22 46 1) ∧
    decodeWord 0b0110001_11_000001_110010_010001_01011#32 = .ok (.vxor 3 1 50 17) ∧
    decodeWord 0b0110001_01_010000_001100_101100_01100#32 = .ok (.vsll 1 16 12 44) ∧
    decodeWord 0b0110001_10_111101_010110_011100_01101#32 = .ok (.vsrl 2 61 22 28) ∧
    decodeWord 0b0110001_11_111011_101110_111111_01110#32 = .ok (.vsra 3 59 46 63) ∧
    decodeWord 0b0110001_01_111101_111110_010111_01111#32 = .ok (.vcmpeq 1 61 62 23) ∧
    decodeWord 0b0110001_01_001110_000110_001110_10000#32 = .ok (.vcmpne 1 14 6 14) ∧
    decodeWord 0b0110001_01_001100_010101_001101_10001#32 = .ok (.vcmplt 1 12 21 13) ∧
    decodeWord 0b0110001_01_100111_111111_111001_10010#32 = .ok (.vcmple 1 39 63 57) ∧
    decodeWord 0b0110001_10_110101_000001_011110_10011#32 = .ok (.vmerge 2 53 1 30) ∧
    decodeWord 0b0110001_11_101001_010110_110011_10100#32 = .ok (.vdiv 3 41 22 51) ∧
    decodeWord 0b0110001_10_000101_110101_00000010101#32 = .ok (.vsqrt 2 5 53) ∧
    decodeWord 0b0110001_10_000111_111010_00000010110#32 = .ok (.vrcp 2 7 58) ∧
    decodeWord 0b0110001_01_110010_101101_00000010111#32 = .ok (.vrsq 1 50 45) ∧
    decodeWord 0b0110001_11_001100_011110_00000011000#32 = .ok (.vexp2 3 12 30) ∧
    decodeWord 0b0110001_11_001011_011011_00000011001#32 = .ok (.vlog2 3 11 27) ∧
    decodeWord 0b0110001_11_101000_010101_00000011010#32 = .ok (.vclass 3 40 21) ∧
    decodeWord 0b0110001_01_110011_111100_00000011011#32 = .ok (.vconj 1 51 60) := by decide +kernel

/-- Words of major opcode 0x32 (R187), written field by field, and what they stand for. -/
theorem decodeMajor32 :
    decodeWord 0b0110010_11_101110_011001_00_0111_00000#32 = .ok (.vcvt 3 46 25 7) ∧
    decodeWord 0b0110010_01_101111_111100_000101_00001#32 = .ok (.vqnt 1 47 60 5) ∧
    decodeWord 0b0110010_10_001010_001010_111111_00010#32 = .ok (.vdqnt 2 10 10 63) ∧
    decodeWord 0b0110010_01_000001_001001_100101_00011#32 = .ok (.vqi8 1 1 9 37) ∧
    decodeWord 0b0110010_11_011101_110011_101001_00100#32 = .ok (.vshrr 3 29 51 41) := by decide +kernel

/-- Words of major opcode 0x33 (R187), written field by field, and what they stand for. -/
theorem decodeMajor33 :
    decodeWord 0b0110011_01_100111_110100_00000000000#32 = .ok (.vredsum 1 39 52) ∧
    decodeWord 0b0110011_10_111110_011110_00000000001#32 = .ok (.vredmax 2 62 30) ∧
    decodeWord 0b0110011_10_111011_010110_00000000010#32 = .ok (.vredmin 2 59 22) ∧
    decodeWord 0b0110011_01_100011_100011_00000000011#32 = .ok (.vredand 1 35 35) ∧
    decodeWord 0b0110011_01_000001_000001_00000000100#32 = .ok (.vredor 1 1 1) ∧
    decodeWord 0b0110011_11_111110_101110_00000000101#32 = .ok (.vscansum 3 62 46) := by decide +kernel

/-- Words of major opcode 0x34 (R187), written field by field, and what they stand for. -/
theorem decodeMajor34 :
    decodeWord 0b0110100_10_000110_100001_0_10111_00000#32 = .ok (.vslideup 2 6 33 23) ∧
    decodeWord 0b0110100_11_001000_011011_0_11111_00001#32 = .ok (.vslidedn 3 8 27 31) ∧
    decodeWord 0b0110100_11_001100_110100_110111_00010#32 = .ok (.vgathr 3 12 52 55) ∧
    decodeWord 0b0110100_01_000001_010000_00000000011#32 = .ok (.vcompress 1 1 16) ∧
    decodeWord 0b0110100_01_010010_100000_00000000100#32 = .ok (.vexpand 1 18 32) ∧
    decodeWord 0b0110100_01_110000_0_10010_00000000101#32 = .ok (.vbcast 1 48 18) ∧
    decodeWord 0b0110100_01_010000_00000000000000110#32 = .ok (.viota 1 16) := by decide +kernel

/-- Words of major opcode 0x35 (R187), written field by field, and what they stand for. -/
theorem decodeMajor35 :
    decodeWord 0b0110101_10_011010_110101_001000_00000#32 = .ok (.mand 2 26 53 8) ∧
    decodeWord 0b0110101_01_111010_101111_010110_00001#32 = .ok (.mor 1 58 47 22) ∧
    decodeWord 0b0110101_11_011101_101010_100101_00010#32 = .ok (.mxor 3 29 42 37) ∧
    decodeWord 0b0110101_11_111001_100001_00000000011#32 = .ok (.mnot 3 57 33) ∧
    decodeWord 0b0110101_01_0_11010_111010_00000000100#32 = .ok (.mpop 1 26 58) ∧
    decodeWord 0b0110101_11_0_10000_001000_00000000101#32 = .ok (.mfirst 3 16 8) ∧
    decodeWord 0b0110101_10_0_00100_100001_00000000110#32 = .ok (.msetvl 2 4 33) := by decide +kernel

/-- Words of major opcode 0x36 (R187), written field by field, and what they stand for. -/
theorem decodeMajor36 :
    decodeWord 0b0110110_10_000001_11011_000000_01_0000#32 = .ok (.vld 2 1 27 1) ∧
    decodeWord 0b0110110_11_001011_10011_0_00001_11_0001#32 = .ok (.vlds 3 11 19 1 3) ∧
    decodeWord 0b0110110_11_001001_00101_001001_01_0010#32 = .ok (.vldg 3 9 5 9 1) ∧
    decodeWord 0b0110110_10_101110_00011_100_000_01_0011#32 = .ok (.vldseg 2 46 3 4 1) ∧
    decodeWord 0b0110110_01_101011_10000_000000000100#32 = .ok (.vst 1 43 16) ∧
    decodeWord 0b0110110_10_100011_01111_0_11001_000101#32 = .ok (.vsts 2 35 15 25) ∧
    decodeWord 0b0110110_11_000110_11100_100011_000110#32 = .ok (.vstsc 3 6 28 35) ∧
    decodeWord 0b0110110_01_001111_00110_010_000000111#32 = .ok (.vstseg 1 15 6 2) := by decide +kernel

/-- Words of major opcode 0x38 (R187), written field by field, and what they stand for. -/
theorem decodeMajor38 :
    decodeWord 0b0111000_00000000_00001_0_11000_000000#32 = .ok (.mmode 1 24) ∧
    decodeWord 0b0111000_00001_01_0_1_0_100_000001_110000#32 = .ok (.opa 1 1 0 4 1 48) ∧
    decodeWord 0b0111000_0001000000_111_000000000000#32 = .ok (.azero 7) ∧
    decodeWord 0b0111000_0001100000_111_0_00010_0_01110#32 = .ok (.acld 7 2 14) ∧
    decodeWord 0b0111000_00100_01_000_100_111110_1_10011#32 = .ok (.acrd 1 4 62 1 19) ∧
    decodeWord 0b0111000_00101_10_000_001_0_10110_0_01000#32 = .ok (.acst 2 1 22 8) ∧
    decodeWord 0b0111000_0011000000000000000000000#32 = .ok .mexit := by decide +kernel

/-- Words of major opcode 0x39 (R187), written field by field, and what they stand for. -/
theorem decodeMajor39 :
    decodeWord 0b0111001_000000000_0111_000_100_1_11001#32 = .ok (.cbld 7 4 1 25) ∧
    decodeWord 0b0111001_00001_01_1_11110_001111_0_10110#32 = .ok (.tbld 1 1 30 15 22) ∧
    decodeWord 0b0111001_000100000_1000_000_111_0_11100#32 = .ok (.lka 8 7 28) ∧
    decodeWord 0b0111001_00011000_11110_000_111_0_01000#32 = .ok (.nbset 30 7 8) ∧
    decodeWord 0b0111001_001000000_1110_000_100_0_11100#32 = .ok (.nbld 14 4 28) ∧
    decodeWord 0b0111001_001010000_1111_000_001_0_11010#32 = .ok (.nbrun 15 1 26) ∧
    decodeWord 0b0111001_00110000_01110_000_001_0_00000#32 = .ok (.nbstat 14 1 0) ∧
    decodeWord 0b0111001_0011100_0_01100_000_011_0_01010#32 = .ok (.nbdrain 0 12 3 10) := by decide +kernel

/-- Words of major opcode 0x3A (R187), written field by field, and what they stand for. -/
theorem decodeMajor3A :
    decodeWord 0b0111010_000000000_0001_0_10101_000000#32 = .ok (.tcopy 1 21) ∧
    decodeWord 0b0111010_00001000_00111_0000_01_0_00000#32 = .ok (.tstat 7 1 0) := by decide +kernel

/-- Words of major opcode 0x7F (R187), written field by field, and what they stand for. -/
theorem decodeMajor7F :
    decodeWord 0b1111111_0011011001110010110101101#32 = .ok (.poolMarker 7136685) := by decide +kernel

/-- Words of the µops (R288), written field by field, and what they stand for. -/
theorem decodeMicroOps :
    decodeMicro 0b0000_000000000000#16 = .ok .rend ∧
    decodeMicro 0b0001_10_0_000000000#16 = .ok (.ract 2 0) ∧
    decodeMicro 0b0010_11_0_11_0000000#16 = .ok (.radd 3 0 3) ∧
    decodeMicro 0b0011_11_0_11_1011_1_00#16 = .ok (.rshadd 3 0 3 11 1) ∧
    decodeMicro 0b0100_10_0_000000000#16 = .ok (.rcopy 2 0) ∧
    decodeMicro 0b0101_01_0_000000000#16 = .ok (.rclr 1 0) ∧
    decodeMicro 0b0110_11_0_11_0000000#16 = .ok (.racc 3 0 3) ∧
    decodeMicro 0b0111_01_0_000000000#16 = .ok (.rlka 1 0) ∧
    decodeMicro 0b1000_000000_101111#16 = .ok (.rbr 47) ∧
    decodeMicro 0b1001_1_00000_000110#16 = .ok (.rloop 1 6) ∧
    decodeMicro 0b1010_000000000000#16 = .ok .rsync := by decide +kernel

/-! ## Well-formedness: for each check a term that it refuses, and one that it accepts -/

theorem wf_refuses_scope_without_order : Instr.wf (.ldref 1 2 0 0 0 1) = false ∧ Instr.wf (.amoadd 1 2 3 0 0 0 1) = false ∧
    Instr.wf (.amoswap 1 2 3 0 0 0 2) = false ∧ Instr.wf (.amocas 1 2 3 0 0 0 3) = false ∧ Instr.wf (.amomin 1 2 3 0 0 0 1) = false ∧
    Instr.wf (.amomax 1 2 3 0 0 0 1) = false ∧ Instr.wf (.amominu 1 2 3 0 0 0 1) = false ∧ Instr.wf (.amomaxu 1 2 3 0 0 0 1) = false ∧
    Instr.wf (.amoand 1 2 3 0 0 0 1) = false ∧ Instr.wf (.amoor 1 2 3 0 0 0 1) = false ∧ Instr.wf (.amoxor 1 2 3 0 0 0 1) = false ∧
    Instr.wf (.alre 0 0 2) = false ∧ Instr.wf (.amoadd 1 2 3 0 1 0 1) = true ∧ Instr.wf (.alre 0 1 2) = true := by decide +kernel
theorem wf_refuses_publication_at_core : Instr.wf (.spub 1 2 0 0) = false ∧ Instr.wf (.spub 1 2 0 1) = true := by decide +kernel
theorem wf_refuses_fence_kind_7 : Instr.wf (.fence 7 0) = false ∧ Instr.wf (.fence 6 0) = true := by decide +kernel
theorem wf_refuses_mask_above_11 : Instr.wf (.vcmpeq 0 12 0 0) = false ∧ Instr.wf (.vcmpne 0 12 0 0) = false ∧
    Instr.wf (.vcmplt 0 63 0 0) = false ∧ Instr.wf (.vcmple 0 12 0 0) = false ∧ Instr.wf (.mand 0 12 0 0) = false ∧
    Instr.wf (.mor 0 0 12 0) = false ∧ Instr.wf (.mxor 0 0 0 12) = false ∧ Instr.wf (.mnot 0 0 12) = false ∧
    Instr.wf (.mpop 0 0 12) = false ∧ Instr.wf (.mfirst 0 0 12) = false ∧ Instr.wf (.msetvl 0 0 12) = false ∧
    Instr.wf (.mand 0 11 11 11) = true := by decide +kernel
theorem wf_refuses_reserved_type : Instr.wf (.vcvt 0 0 0 14) = false ∧ Instr.wf (.vcvt 0 0 0 13) = true := by decide +kernel
theorem wf_refuses_segments : Instr.wf (.vldseg 0 0 0 0 0) = false ∧ Instr.wf (.vldseg 0 48 0 1 0) = false ∧
    Instr.wf (.vstseg 0 0 0 0) = false ∧ Instr.wf (.vstseg 0 48 0 1) = false ∧ Instr.wf (.vldseg 0 47 0 7 0) = true := by decide +kernel
theorem wf_refuses_odd_pairs_and_quads : Instr.wf (.acst 0 0 0 3) = false ∧ Instr.wf (.acst 0 0 0 0) = false ∧ Instr.wf (.tbld 0 0 0 0 5) = false ∧
    Instr.wf (.tcopy 0 2) = false ∧ Instr.wf (.tcopy 0 0) = false ∧ Instr.wf (.tcopy 0 28) = true ∧ Instr.wf (.tbld 0 0 0 0 30) = true := by decide +kernel
theorem wf_refuses_selectors : Instr.wf (.tstat 0 3 0) = false ∧ Instr.wf (.radd 0 0 3) = false ∧ Instr.wf (.rshadd 0 0 3 0 0) = false ∧
    Instr.wf (.racc 0 0 3) = false ∧ Instr.wf (.tstat 0 2 0) = true ∧ Instr.wf (.racc 0 0 2) = true := by decide +kernel

/-! ## Decoding: reserved words are refused by name -/

theorem decode_refuses : decodeWord 0#32 = .error (.reservedMajor 0) ∧ decodeWord 0xFFFFFFFF#32 = .ok (.poolMarker 0x1FFFFFF) ∧
    decodeWord 0x02000011#32 = .error (.reservedSelectorOrBit 1) ∧ decodeWord 0x02000400#32 = .ok (.add 0 0 1) ∧
    decodeWord 0x0200040E#32 = .error (.reservedSelectorOrBit 1) ∧ decodeMicro 0xC000#16 = .error (.reservedMicroOp 12) := by decide +kernel
/-- No two rows of the tables share a word. -/
theorem rows_apart : rows.Pairwise (fun r q => r.apart q = true) ∧ microRows.Pairwise (fun r q => r.apart q = true) := by decide +kernel

/-! ## Steps of single instructions, the results from the spec's tables and worked examples -/

/-- A hart resident on core 0 of die 0, its first GiB of memory mapped, at PC 0x400000. -/
def base : State := State.reset.loadHart

/-- The hart with some x registers, the first for x1. -/
def withX (l : List Word) : State :=
  { base with hart := (List.range l.length).foldl (fun (h : Hart) (k : Nat) => h.setX (BitVec.ofNat 5 (k + 1)) (l.getD k 0)) base.hart }

/-- The same with vector registers v1, v2, … of elements of width `w`, a vector length and mode register 0. -/
def withV (w vl : Nat) (md : BitVec 32) (l : List (List Nat)) : State :=
  { base with hart := { (List.range l.length).foldl (fun (h : Hart) (k : Nat) =>
      h.setV (k + 1) (setElts 0#262144 w 0 (l.getD k []))) (base.hart.setMd 0#2 md) with vl := vl, nregs := 48 } }

/-- Some fact of the state that an instruction answers. -/
def after {α : Type} (i : Instr) (s : State) (f : State → α) : Option α :=
  match exec i s with
  | .next t => some (f t)
  | _ => none

/-- Elements of a vector register. -/
def elems (s : State) (r w n : Nat) : List Nat := (List.range n).map (fun e => getElt (s.hart.getV r) w e)

theorem test_sra_negative : after (.sra 3 1 2) (withX [0x8000000000000000#64, 63#64]) (·.getX 3) = some 0xFFFFFFFFFFFFFFFF#64 := by decide +kernel
theorem test_sll_uses_six_bits : after (.sll 3 1 2) (withX [1#64, 65#64]) (·.getX 3) = some 2#64 := by decide +kernel
theorem test_x0_discards : after (.addi 0 0 5) base (fun t => (t.getX 0, t.hart.pc)) = some (0#64, 0x400004#64) := by decide +kernel
theorem test_addi_sign : after (.addi 1 0 0x7FFF#15) base (·.getX 1) = some 0xFFFFFFFFFFFFFFFF#64 := by decide +kernel
theorem test_sltiu_sign_extends : after (.sltiu 2 1 0x7FFF#15) (withX [5#64]) (·.getX 2) = some 1#64 := by decide +kernel
theorem test_div_by_zero : after (.div 3 1 2) (withX [7#64, 0#64]) (·.getX 3) = some 0xFFFFFFFFFFFFFFFF#64 := by decide +kernel
theorem test_div_overflow : after (.div 3 1 2) (withX [0x8000000000000000#64, 0xFFFFFFFFFFFFFFFF#64]) (·.getX 3) = some 0x8000000000000000#64 := by decide +kernel
theorem test_rem_sign : after (.rem 3 1 2) (withX [0xFFFFFFFFFFFFFFF9#64, 2#64]) (·.getX 3) = some 0xFFFFFFFFFFFFFFFF#64 := by decide +kernel
theorem test_remu_by_zero : after (.remu 3 1 2) (withX [7#64, 0#64]) (·.getX 3) = some 7#64 := by decide +kernel
theorem test_mulh_signs : after (.mulh 3 1 2) (withX [0xFFFFFFFFFFFFFFFF#64, 2#64]) (·.getX 3) = some 0xFFFFFFFFFFFFFFFF#64 := by decide +kernel
theorem test_mulhu : after (.mulhu 3 1 2) (withX [0xFFFFFFFFFFFFFFFF#64, 2#64]) (·.getX 3) = some 1#64 := by decide +kernel
theorem test_clz_zero : after (.clz 3 1) (withX [0#64]) (·.getX 3) = some 64#64 := by decide +kernel
theorem test_ctz : after (.ctz 3 1) (withX [0x50#64]) (·.getX 3) = some 4#64 := by decide +kernel
theorem test_popc : after (.popc 3 1) (withX [0xFF01#64]) (·.getX 3) = some 9#64 := by decide +kernel
theorem test_lui_sign : after (.lui 1 0x80000#20) base (·.getX 1) = some 0xFFFFFFFF80000000#64 := by decide +kernel
theorem test_auipc : after (.auipc 1 1#20) base (·.getX 1) = some 0x401000#64 := by decide +kernel
theorem test_branch_back : after (.bltu 1 2 0x7FFF#15) (withX [1#64, 2#64]) (·.hart.pc) = some 0x3FFFFC#64 := by decide +kernel
theorem test_branch_not_taken : after (.blt 1 2 8#15) (withX [1#64, 0xFFFFFFFFFFFFFFFF#64]) (·.hart.pc) = some 0x400004#64 := by decide +kernel
theorem test_jal_links : after (.jal 1 4#20) base (fun t => (t.getX 1, t.hart.pc)) = some (0x400004#64, 0x400010#64) := by decide +kernel
theorem test_jalr_same_register : after (.jalr 1 1 8#15) (withX [0x500000#64]) (fun t => (t.getX 1, t.hart.pc)) =
    some (0x400004#64, 0x500008#64) := by decide +kernel

/-- A hart that has a handler at 0x8000. -/
def handled (s : State) : State := { s with hart := { s.hart with csr := { s.hart.csr with tvec := 0x8000#64 } } }

theorem test_jalr_misaligned : after (.jalr 1 2 0#15) (handled (withX [9#64, 0x500002#64]))
    (fun t => (t.getX 1, t.hart.pc, t.hart.csr.cause, t.hart.csr.epc, t.hart.csr.hm)) =
    some (9#64, 0x8000#64, 4#64, 0x400000#64, true) := by decide +kernel
theorem test_ecall_epc_after : after .ecall (handled base) (fun t => (t.hart.csr.cause, t.hart.csr.epc, t.hart.pc)) =
    some (0x12#64, 0x400004#64, 0x8000#64) := by decide +kernel
theorem test_trap_without_handler_ends : after .ebreak base (fun t => (t.hart.phase, t.hart.csr.cause, t.fe.fails.length)) =
    some (.ended, 0#64, 1) := by decide +kernel
theorem test_eret_outside_handler : after .eret (handled base) (·.hart.csr.cause) = some 3#64 := by decide +kernel
theorem test_csrw_slip_clamps : after (.csrw 2 1 0xA#12) (withX [300#64]) (fun t => (t.getX 2, t.hart.csr.slip)) = some (1#64, 256#64) := by decide +kernel
theorem test_csrs_flags : after (.csrs 2 1 9#12) (withX [0xFF#64]) (fun t => t.hart.csr.flags) = some 0x3F#64 := by decide +kernel
theorem test_csrw_read_only : after (.csrw 2 1 0x20#12) (handled (withX [1#64])) (fun t => (t.hart.csr.cause, t.hart.csr.faultVa)) =
    some (3#64, 0x20#64) := by decide +kernel
theorem test_csrr_unassigned : after (.csrr 1 0x13#12) (handled base) (·.hart.csr.cause) = some 1#64 := by decide +kernel

/-- The state with bytes of memory at an address of the first GiB. -/
def holding (s : State) (a : Nat) (l : List Byte) : State := { s with mm := { s.mm with bytes := Memory.write s.mm.bytes a l } }

theorem test_lb_sign : after (.lb 2 1 2#2 1#13) (holding (withX [0x500000#64]) 0x500001 [0x80#8]) (·.getX 2) =
    some 0xFFFFFFFFFFFFFF80#64 := by decide +kernel
theorem test_lwu_little_endian : after (.lwu 2 1 2#2 0#13) (holding (withX [0x500000#64]) 0x500000 [0x11#8, 0x22#8, 0x33#8, 0x84#8]) (·.getX 2) =
    some 0x84332211#64 := by decide +kernel
theorem test_ld_misaligned : after (.ld 2 1 2#2 0#13) (handled (withX [0x500004#64])) (fun t => (t.hart.csr.cause, t.hart.csr.faultVa, t.hart.csr.faultRemain)) =
    some (4#64, 0x500004#64, 1#64) := by decide +kernel
theorem test_lw_unmapped_waits_for_pager : after (.lw 2 1 2#2 0#13) (handled (withX [0x40000000#64])) (fun t => (t.hart.isReady, t.hart.csr.cause, t.hart.pc)) =
    some (false, 0#64, 0x400000#64) := by decide +kernel
theorem test_sh_stays_in_its_bytes : after (.sh 2 1 2#15) (holding (withX [0x500000#64, 0xABCDEF#64]) 0x500000 [1#8, 2#8, 3#8, 4#8, 5#8])
    (fun t => (t.findL2 0 1 0xA000).map (fun e => (getElt e.data 16 0, getElt e.data 16 1, getElt e.data 8 4, e.dirty.toNat))) =
    some (some (0x201, 0xCDEF, 5, 12)) := by decide +kernel
theorem test_amoadd_returns_old : after (.amoadd 3 1 2 0 0 0 0) (holding (withX [0x500000#64, 5#64]) 0x500000 [7#8])
    (fun t => (t.getX 3, getElt (t.seen 0 0xA000).data 8 0)) = some (7#64, 12) := by decide +kernel
theorem test_amocas_fails : after (.amocas 3 1 2 0 0 0 0) (holding (withX [0x500000#64, 5#64, 6#64]) 0x500000 [7#8])
    (fun t => (t.getX 3, getElt (t.seen 0 0xA000).data 8 0)) = some (7#64, 7) := by decide +kernel
theorem test_amomin_is_signed : after (.amomin 3 1 2 0 0 0 0) (holding (withX [0x500000#64, 0xFFFFFFFFFFFFFFFF#64]) 0x500000 [7#8])
    (fun t => (t.getX 3, getElt (t.seen 0 0xA000).data 8 7)) = some (7#64, 0xFF) := by decide +kernel
theorem test_amoadd_reserved_scope : after (.amoadd 3 1 2 0 0 0 2) (handled (withX [0x500000#64])) (·.hart.csr.cause) = some 1#64 := by decide +kernel
theorem test_waitc_waits : after (.waitc 2 1 0) (withX [1#64]) (·.hart.pc) = some 0x400000#64 := by decide +kernel
theorem test_halt_retires : after .halt base (·.hart.phase) = some .retired := by decide +kernel
theorem test_ljoin_creates : after (.ljoin 2 1) (withX [9#64]) (fun t => (t.getX 2, t.hart.league)) = some (0#64, some 9) := by decide +kernel
theorem test_ljoin_bad_id : after (.ljoin 2 1) (withX [4096#64]) (fun t => (t.getX 2, t.hart.league)) = some (5#64, none) := by decide +kernel

/-! ## Vectors -/

theorem test_vsetl_clamps : after (.vsetl 2 1 0) (withX [200#64]) (fun t => (t.getX 2, t.hart.vl)) = some (128#64, 128) := by decide +kernel
theorem test_vadd_wraps : after (.vadd 0 3 1 2) (withV 8 2 0x780#32 [[127, 255], [1, 1]]) (fun t => (elems t 3 8 3, t.hart.csr.flags)) =
    some ([128, 0, 0], 0#64) := by decide +kernel
theorem test_vadd_saturates : after (.vadd 0 3 1 2) (withV 8 2 0x2780#32 [[127, 255], [1, 1]]) (fun t => (elems t 3 8 2, t.hart.csr.flags)) =
    some ([127, 0], 0x20#64) := by decide +kernel
theorem test_vadd_destination_is_source : after (.vadd 0 1 1 1) (withV 16 2 0x781#32 [[3, 5]]) (elems · 1 16 2) = some [6, 10] := by decide +kernel
theorem test_vdiv_by_zero : after (.vdiv 0 3 1 2) (withV 32 1 0x782#32 [[7], [0]]) (fun t => (elems t 3 32 1, t.hart.csr.flags)) =
    some ([0xFFFFFFFF], 0#64) := by decide +kernel
theorem test_vadd_f32 : after (.vadd 0 3 1 2) (withV 32 1 0x78A#32 [[0x3FC00000], [0x40100000]]) (elems · 3 32 1) = some [0x40700000] := by decide +kernel
theorem test_vdiv_f32_by_zero : after (.vdiv 0 3 1 2) (withV 32 1 0x78A#32 [[0xBF800000], [0]]) (fun t => (elems t 3 32 1, t.hart.csr.flags)) =
    some ([0xFF800000], 8#64) := by decide +kernel
theorem test_vshrr_rounds_to_even : after (.vshrr 0 3 1 2) (withV 32 1 0x782#32 [[24], [4]]) (elems · 3 32 1) = some [2] := by decide +kernel
theorem test_vredsum_writes_element_0 : after (.vredsum 0 2 1) (withV 32 3 0x782#32 [[1, 2, 4], [9, 9]]) (elems · 2 32 2) = some [7, 9] := by decide +kernel
theorem test_vcmplt_mask : after (.vcmplt 0 2 1 2) (withV 8 3 0x780#32 [[255, 5, 0], [0, 5, 1]]) (fun t => (t.hart.getM 2).toNat % 16) = some 5 := by decide +kernel
theorem test_vslideup_keeps_below : after (.vslideup 0 2 1 0) (withV 8 3 0x780#32 [[7, 8, 9], [1, 2, 3]]) (elems · 2 8 3) = some [7, 8, 9] := by decide +kernel
theorem test_vcompress : after (.vcompress 0 3 1) { withV 8 4 0x000#32 [[7, 8, 9, 10]] with
    hart := (withV 8 4 0x000#32 [[7, 8, 9, 10]]).hart.setM 0 0b1010#4096 } (elems · 3 8 3) = some [8, 10, 0] := by decide +kernel
theorem test_register_bound : after (.vadd 0 7 1 2) { handled (withV 8 2 0x780#32 [[1], [1]]) with
    hart := { (handled (withV 8 2 0x780#32 [[1], [1]])).hart with nregs := 6 } } (fun t => t.hart.csr.hm) = some true := by decide +kernel
theorem test_vld_unit : after (.vld 0 1 1 2) { holding (withV 8 3 0x780#32 []) 0x500000 [1#8, 2#8, 3#8, 4#8] with
    hart := (withV 8 3 0x780#32 []).hart.setX 1 0x500000#64 } (elems · 1 8 4) = some [1, 2, 3, 0] := by decide +kernel

/-- The worked example of R94: eight f32 values as one block. -/
theorem test_vqnt_block : after (.vqnt 0 2 1 3) (withV 32 8 0x78A#32
      [[0x3F333333, 0xC0466666, 0x40A00000, 0x414E6666, 0x3DCCCCCD, 0xBE800000, 0x40200000, 0xBF000000]])
    (fun t => (elems t 2 32 1, elems t 3 8 1, t.hart.csr.flags)) = some ([0x828074B1], [0x80], 3#64) := by decide +kernel

/-! ## Banks, memory map, planes -/

/-- R120's worked example: line 1,000,000 under BL = 256. -/
theorem test_place_line : placeLine 256 1000000 = (890, 2, 263, 5) := by decide +kernel
/-- R121's example. -/
theorem test_bank_linear_address : base.rowPa 0x5BD2 3 = 0x40000000000 + 0x15BD2000C00 := by decide +kernel
/-- R148's example. -/
theorem test_bucket : bucketOf (0x5400_07A1_2000 / 128) = 20 := by decide +kernel
/-- R270's example: KW = 8, a 1-bit class at g = 8 and a 4-bit class that asks for g = 4. -/
theorem test_fit_shape : (fitShape 8 true (classReqs (BitVec.ofNat 64 ((1 + 7 * 8) + 1024 * (1 + 3 * 2 + 3 * 8 + 64))))).toOption.map
    (fun r => ((r.1.filter (·.en)).map (·.g), r.2)) = some ([8, 2], 5) := by decide +kernel
/-- R98's example: T[7] = 58. -/
theorem test_table_entry : (({ Bank.reset with codebook := 0x0301FFFD#128 } : Bank).build ⟨[⟨0, 2, 2, 0, 0, 0⟩], 2⟩ [[14, -16]] []).bushelAt 7 = 58 := by decide +kernel

/-! ## The cipher of R137 -/

/-- The AES-256 example of FIPS 197, C.3: key bytes 00 to 1F, block 00 11 … FF. -/
theorem test_aes_256 : aesEncrypt 0x1F1E1D1C1B1A191817161514131211100F0E0D0C0B0A09080706050403020100#256
    0xFFEEDDCCBBAA99887766554433221100#128 = 0x8960494B9049FCEABF456751CAB7A28E#128 := by decide +kernel

end Sys2Proof.Tests
end

