-- ==== Sys2Proof/Tests/Witnesses.lean ====
section
/-!
SUPPORT. A witness for every clause of the statements that has hypotheses: a concrete state and operands that meet all of
them together.
-/

namespace Sys2Proof.Tests

open Sys2Proof Sys2Proof.Machine

set_option maxRecDepth 1000000
set_option Elab.async false

/-! ## Helpers -/

/-- A computation succeeds, with a fact of its answer and state. -/
def succeeds {ε α : Type} (x : Except ε (α × State)) (p : α → State → Bool) : Bool :=
  match x with
  | .ok (a, t) => p a t
  | .error _ => false

theorem of_succeeds {ε α : Type} {x : Except ε (α × State)} {p : α → State → Bool} (h : succeeds x p = true) :
    ∃ a t, x = .ok (a, t) ∧ p a t = true := by
  match x, h with
  | .ok (a, t), h => exact ⟨a, t, rfl, h⟩

/-- The leaf of the cached window that a check gives. -/
def succeedsLeaf {ε : Type} (x : Except ε (Window × State)) : Option Word :=
  match x with
  | .ok (w, _) => w.leaf
  | .error _ => none

/-- The hart of `withX` with a handler. -/
def trapX (l : List Word) : State := handled (withX l)

theorem foldl_setX_rest (f : Nat → BitVec 5) (g : Nat → Word) : ∀ (l : List Nat) (h : Hart),
    let k := l.foldl (fun (h : Hart) (n : Nat) => h.setX (f n) (g n)) h
    k.csr = h.csr ∧ k.furlong = h.furlong ∧ k.strip = h.strip ∧ k.region = h.region ∧ k.expired = h.expired
  | [], _ => ⟨rfl, rfl, rfl, rfl, rfl⟩
  | a :: l, h => by
    have := foldl_setX_rest f g l (h.setX (f a) (g a))
    have e : (h.setX (f a) (g a)).csr = h.csr ∧ (h.setX (f a) (g a)).furlong = h.furlong ∧ (h.setX (f a) (g a)).strip = h.strip ∧
        (h.setX (f a) (g a)).region = h.region ∧ (h.setX (f a) (g a)).expired = h.expired := by
      unfold Hart.setX; split <;> exact ⟨rfl, rfl, rfl, rfl, rfl⟩
    exact ⟨this.1.trans e.1, this.2.1.trans e.2.1, this.2.2.1.trans e.2.2.1, this.2.2.2.1.trans e.2.2.2.1,
      this.2.2.2.2.trans e.2.2.2.2⟩

theorem trapX_takes (l : List Word) : (trapX l).takesTraps := by
  have h := foldl_setX_rest (fun k => BitVec.ofNat 5 (k + 1)) (fun k => l.getD k 0) (List.range l.length) base.hart
  refine ⟨?_, (by show (0x8000#64 : BitVec 64) ≠ 0#64; decide), h.2.1, h.2.2.1, h.2.2.2.1, ?_⟩
  · show (List.foldl _ base.hart (List.range l.length)).csr.hm = false
    rw [h.1]; rfl
  · have e : (trapX l).hart.expired = false := h.2.2.2.2
    unfold Hart.graceDue
    rw [e]; simp

/-- x1 points into mapped memory, x2 holds 7. -/
def sA : State := withX [0x500000#64, 7#64]
/-- The same with a handler. -/
def sT : State := trapX [0x500000#64, 7#64]

/-- The leaf under which the mapped page is held. -/
def leafA : Word := (succeedsLeaf (classify sA.who 0x500000#64 8 .load sA)).getD 0#64

/-- A pinned line at the start of the scratchpad range, a line of the L1 and one of the L2 for address 0x500000. -/
def linePin : CoreLine := ⟨0, 0, 1, 0x40000000, 0, 0, 0, 0, 5, 0, 0, some 1⟩
def lineL1 : CoreLine := ⟨0, 0, 1, 0xA000, 0xA000, leafA, 0, 0, 5, 0, 0, none⟩
def lineL2 : L2Line := ⟨0, 1, 0xA000, 0xA000, leafA, 0, 0, 5, 0, 0, 0, 0, 0, false⟩
def sPin : State := { sA with mm := { sA.mm with l1 := [linePin] } }
def sL1 : State := { sA with mm := { sA.mm with l1 := [lineL1] } }
def sL2 : State := { sA with mm := { sA.mm with l2 := [lineL2] } }
/-- A bank inside a suspension window. -/
def sBusy : State := sA.setBank (paBank 0x10000000078) { sA.bank (paBank 0x10000000078) with susp := true }
/-- A hart with an open furlong. -/
def furlongA : Furlong := { start := 0x3FFFF0#64, snapMask := 2, snapX := Vector.replicate 32 9#64, snapMd := Vector.replicate 4 mdReset, snapIx := Vector.replicate 16 0#64, xRead := 0, xWritten := 0, vRead := 0, vWritten := 0, mRead := 0, mWritten := 0, vGranules := 0, mGranules := 0, rewound := false, again := false }
def sFurlong : State := { sA with hart := { sA.hart with furlong := some furlongA } }
/-- The store of a line is not encrypted to the space that uses it, nor is its tag word. -/
def plainFor (s : State) (space ln : Nat) : Bool :=
  (s.foreign (s.keyOf space ln) ln).isEmpty &&
    match s.tagAddr ln with
    | none => true
    | some a => decide (s.blockKey (a / 16) = s.keyOf space ln ∧ s.keyOf space (a / 128) = s.keyOf space ln)

theorem plain_to {s : State} {space ln : Nat} (h : plainFor s space ln = true) : s.plainTo space ln := by
  simp only [plainFor, Bool.and_eq_true, List.isEmpty_iff] at h
  refine ⟨h.1, fun a ha => ?_⟩
  have h2 := h.2
  rw [ha] at h2
  exact of_decide_eq_true h2

/-- The entry of the cached line of 0x500000, checked out. -/
def sOut : State := { sA with mm := { sA.mm with l2 := [{ lineL2 with out := true }] } }
/-- The hart of a device that has joined its domain. -/
def sJoined : State := { sA with fe := { sA.fe with devSet := true } }
/-! ## Integer and control flow -/

theorem witness_integer : (∃ (s : State) (i : Instr) (d : BitVec 5) (v : Word), integerRule s.hart.pc s.getX i = some (d, v)) ∧
    (∃ (w : BitVec 32) (op fn : Nat), op = w.toNat / 2 ^ 25 ∧ fn = w.toNat % 1024 ∧ op = 1 ∧ 16 < fn) ∧
    (∃ (w : BitVec 32) (op fn : Nat), op = w.toNat / 2 ^ 25 ∧ fn = w.toNat % 1024 ∧ op = 1 ∧ 14 ≤ fn ∧ w.toNat / 1024 % 32 ≠ 0) ∧
    (∃ (w : BitVec 32) (op fn : Nat), op = w.toNat / 2 ^ 25 ∧ fn = w.toNat % 1024 ∧ op = 2 ∧ 6 < fn) ∧
    (∃ (w : BitVec 32) (op : Nat), op = w.toNat / 2 ^ 25 ∧ op = 9 ∧ 2 < w.toNat / 2 ^ 12 % 8) ∧
    ∃ (w : BitVec 32) (op : Nat), op = w.toNat / 2 ^ 25 ∧ op = 9 ∧ w.toNat / 64 % 64 ≠ 0 :=
  ⟨⟨base, .add 1 2 3, 1, 0, by decide +kernel⟩, ⟨0x02000011#32, _, _, rfl, rfl, by decide, by decide⟩,
    ⟨0x0200040E#32, _, _, rfl, rfl, by decide, by decide, by decide⟩, ⟨0x04000007#32, _, _, rfl, rfl, by decide, by decide⟩,
    ⟨0x12003000#32, _, rfl, by decide, by decide⟩, ⟨0x12000040#32, _, rfl, by decide, by decide⟩⟩

theorem witness_branches : (∃ (s : State) (i : Instr) (n : Int), branchRule s.getX i = some (true, n)) ∧
    (∃ (s : State) (i : Instr) (n : Int), branchRule s.getX i = some (false, n)) ∧
    (∃ (s : State) (a : BitVec 5) (i : BitVec 15) (t : Word), t = s.getX a + BitVec.ofInt 64 i.toInt ∧ t.toNat % 4 = 0 ∧ t.toNat < 2 ^ 57) ∧
    (∃ (s : State) (a : BitVec 5) (i : BitVec 15) (t : Word), s.takesTraps ∧ t = s.getX a + BitVec.ofInt 64 i.toInt ∧ t.toNat % 4 ≠ 0) ∧
    ∃ (s : State) (a : BitVec 5) (i : BitVec 15) (t : Word), s.takesTraps ∧ t = s.getX a + BitVec.ofInt 64 i.toInt ∧ t.toNat % 4 = 0 ∧
      2 ^ 57 ≤ t.toNat :=
  ⟨⟨base, .beq 1 2 4, 4, by decide +kernel⟩, ⟨base, .bne 1 2 4, 4, by decide +kernel⟩,
    ⟨withX [0x1FFFFFFFFFFFFFC#64], 1, 0, 0x1FFFFFFFFFFFFFC#64, by decide +kernel, by decide, by decide⟩,
    ⟨trapX [2#64], 1, 0, 2#64, trapX_takes _, by decide +kernel, by decide⟩,
    ⟨trapX [0x200000000000000#64], 1, 0, 0x200000000000000#64, trapX_takes _, by decide +kernel, by decide, by decide⟩⟩

/-! ## Scalar memory -/

theorem witness_loads : (∃ (s t : State) (i : Instr) (d : BitVec 5) (va : Word) (r size : Nat) (signed : Bool) (v : Nat) (tag : Bool),
      loadRule s.getX i = some (d, va, r, size, signed) ∧ loadAt s.who va size r s = .ok ((v, tag), t)) ∧
    ∃ (s t : State) (a : BitVec 5) (r : BitVec 2) (o : BitVec 10) (sc : BitVec 2) (va : Word) (w : Window) (t0 : State) (v : Nat) (tag : Bool),
      va = s.getX a + BitVec.ofInt 64 (8 * o.toInt) ∧ s.walkAhead (some sc) = none ∧ s.planesFor sc ∧
      classify s.who va 8 .load s = .ok (w, t0) ∧ w.isPlainOnly = false ∧ loadFrom s.who va 8 r.toNat w t0 = .ok ((v, tag), t) := by
  constructor
  · obtain ⟨⟨v, tag⟩, t, h, _⟩ := of_succeeds (x := loadAt sA.who 0x500000#64 8 2 sA) (p := fun _ _ => true) (by decide +kernel)
    exact ⟨sA, t, .ld 2 1 2 0, 2, _, 2, 8, false, v, tag, by decide +kernel, h⟩
  · obtain ⟨w, t0, h, hp⟩ := of_succeeds (x := classify sA.who 0x500000#64 8 .load sA)
      (p := fun w t0 => !w.isPlainOnly && succeeds (loadFrom sA.who 0x500000#64 8 2 w t0) (fun _ _ => true)) (by decide +kernel)
    simp only [Bool.and_eq_true, Bool.not_eq_true'] at hp
    obtain ⟨⟨v, tag⟩, t, h2, _⟩ := of_succeeds hp.2
    exact ⟨sA, t, 1, 2, 0, 2, _, w, t0, v, tag, by decide +kernel, by decide +kernel, by decide +kernel, h, hp.1, h2⟩

theorem witness_loaded_bytes : (∃ (s t : State) (va : Word) (n : Nat) (acc : Access) (w : Window), classify s.who va n acc s = .ok (w, t)) ∧
    -- a line pinned as scratchpad, the last byte of it
    (∃ (s t : State) (va : Word) (r : Nat) (v : Nat) (tag : Bool), s.hart.strip = [] ∧ loadFrom s.who va 1 r .scratch s = .ok ((v, tag), t)) ∧
    -- a cached line of the L1, of the L2, of memory
    (∃ (s t : State) (va : Word) (r : Nat) (pa : Nat) (c : CoreLine) (v : Nat) (tag : Bool), s.hart.strip = [] ∧ va.toNat < 2 ^ 57 ∧
      loadFrom s.who va 8 r (.cached pa leafA) s = .ok ((v, tag), t) ∧
      findCore s.mm.l1 s.hart.place.die s.hart.place.core (spaceOf s.hart.asid va) (va.toNat / 128) = some c) ∧
    (∃ (s t : State) (va : Word) (r : Nat) (pa : Nat) (e : L2Line) (v : Nat) (tag : Bool), s.hart.strip = [] ∧ va.toNat < 2 ^ 57 ∧
      loadFrom s.who va 8 r (.cached pa leafA) s = .ok ((v, tag), t) ∧
      findCore s.mm.l1 s.hart.place.die s.hart.place.core (spaceOf s.hart.asid va) (va.toNat / 128) = none ∧
      s.findL2 s.hart.place.die (spaceOf s.hart.asid va) (va.toNat / 128) = some e) ∧
    (∃ (s t : State) (va : Word) (r : Nat) (pa : Nat) (v : Nat) (tag : Bool), s.hart.strip = [] ∧ va.toNat < 2 ^ 57 ∧
      loadFrom s.who va 8 r (.cached pa leafA) s = .ok ((v, tag), t) ∧
      findCore s.mm.l1 s.hart.place.die s.hart.place.core (spaceOf s.hart.asid va) (va.toNat / 128) = none ∧
      s.findL2 s.hart.place.die (spaceOf s.hart.asid va) (va.toNat / 128) = none ∧
      s.isLocal (pa / 128 * 128) = true ∧ paDie (pa / 128 * 128) = s.hart.place.die ∧ s.plainTo (spaceOf s.hart.asid va) (pa / 128) ∧
      pa % 128 = va.toNat % 128 ∧ pa % 128 + 8 ≤ 128) ∧
    -- past the caches
    (∃ (s t : State) (va : Word) (r : Nat) (pa : Nat) (v : Nat) (tag : Bool), s.hart.strip = [] ∧
      loadFrom s.who va 8 r (.memSide pa false) s = .ok ((v, tag), t) ∧ s.isLocal (pa / 128 * 128) = true ∧
      s.plainTo (spaceOf s.hart.asid va) (pa / 128) ∧ pa % 128 = va.toNat % 128 ∧ pa % 128 + 8 ≤ 128) ∧
    ∃ (s t : State) (va : Word) (r : Nat) (pa : Nat) (v : Nat) (tag : Bool), s.hart.strip = [] ∧
      loadFrom s.who va 8 r (.bankLinear pa) s = .ok ((v, tag), t) ∧ (s.bank (paBank pa)).free = true ∧ s.hart.replies = [] ∧
      s.isLocal (pa / 128 * 128) = true ∧ s.plainTo 0 (pa / 128) ∧ pa % 128 = va.toNat % 128 ∧ pa % 128 + 8 ≤ 128 := by
  refine ⟨?_, ?_, ?_, ?_, ?_, ?_, ?_⟩
  · obtain ⟨w, t, h, _⟩ := of_succeeds (x := classify sA.who 0x500000#64 8 .load sA) (p := fun _ _ => true) (by decide +kernel)
    exact ⟨sA, t, _, _, _, w, h⟩
  · obtain ⟨⟨v, tag⟩, t, h, _⟩ := of_succeeds (x := loadFrom sPin.who 0x200000007F#64 1 2 .scratch sPin) (p := fun _ _ => true) (by decide +kernel)
    exact ⟨sPin, t, _, 2, v, tag, rfl, h⟩
  · obtain ⟨⟨v, tag⟩, t, h, _⟩ := of_succeeds (x := loadFrom sL1.who 0x500078#64 8 2 (.cached 0x500078 leafA) sL1) (p := fun _ _ => true) (by decide +kernel)
    exact ⟨sL1, t, _, 2, _, lineL1, v, tag, rfl, by decide, h, by decide +kernel⟩
  · obtain ⟨⟨v, tag⟩, t, h, _⟩ := of_succeeds (x := loadFrom sL2.who 0x500078#64 8 2 (.cached 0x500078 leafA) sL2) (p := fun _ _ => true) (by decide +kernel)
    exact ⟨sL2, t, _, 2, _, lineL2, v, tag, rfl, by decide, h, by decide +kernel, by decide +kernel⟩
  · obtain ⟨⟨v, tag⟩, t, h, _⟩ := of_succeeds (x := loadFrom sA.who 0x500078#64 8 2 (.cached 0x500078 leafA) sA) (p := fun _ _ => true) (by decide +kernel)
    exact ⟨sA, t, _, 2, _, v, tag, rfl, by decide, h, by decide +kernel, by decide +kernel, by decide +kernel, by decide +kernel, plain_to (by decide +kernel),
      by decide, by decide⟩
  · obtain ⟨⟨v, tag⟩, t, h, _⟩ := of_succeeds (x := loadFrom sA.who 0x500078#64 8 2 (.memSide 0x500078 false) sA) (p := fun _ _ => true) (by decide +kernel)
    exact ⟨sA, t, _, 2, _, v, tag, rfl, h, by decide +kernel, plain_to (by decide +kernel), by decide, by decide⟩
  · obtain ⟨⟨v, tag⟩, t, h, _⟩ := of_succeeds (x := loadFrom sA.who 0x78#64 8 2 (.bankLinear 0x10000000078) sA) (p := fun _ _ => true) (by decide +kernel)
    exact ⟨sA, t, _, 2, _, v, tag, rfl, h, by decide +kernel, by decide +kernel, by decide +kernel, plain_to (by decide +kernel), by decide, by decide⟩

theorem witness_stores : (∃ (s t : State) (i : Instr) (b : BitVec 5) (va : Word) (size : Nat), storeRule s.getX i = some (b, va, size) ∧
      storeAt s.who va size ((s.getX b).toNat % 2 ^ (8 * size)) s = .ok ((), t)) ∧
    ∃ (s t0 t : State) (b a : BitVec 5) (o : BitVec 12) (sc : BitVec 2) (va : Word) (w : Window),
      va = s.getX a + BitVec.ofInt 64 (8 * o.toInt) ∧ classify s.who va 8 .store s = .ok (w, t0) ∧ w.isPlainOnly = false ∧
      t0.planesFor sc ∧ (sc = 0#2 ∨ (t0.releaseMine sc).unacked s.hart.uid = false) ∧
      storeLine s.who va 8 (s.getX b).toNat false w (t0.releaseMine sc) = .ok ((), t) := by
  constructor
  · obtain ⟨⟨⟩, t, h, _⟩ := of_succeeds (x := storeAt sA.who 0x500000#64 8 ((sA.getX 2).toNat % 2 ^ (8 * 8)) sA) (p := fun _ _ => true) (by decide +kernel)
    exact ⟨sA, t, .sd 2 1 0, 2, _, 8, by decide +kernel, h⟩
  · obtain ⟨w, t0, h, hp⟩ := of_succeeds (x := classify sA.who 0x500000#64 8 .store sA)
      (p := fun w t0 => (!w.isPlainOnly && (t0.planesMove && !(t0.releaseMine 2#2).unacked sA.hart.uid)) &&
        succeeds (storeLine sA.who 0x500000#64 8 (sA.getX 2).toNat false w (t0.releaseMine 2#2)) (fun _ _ => true)) (by decide +kernel)
    simp only [Bool.and_eq_true, Bool.not_eq_true'] at hp
    obtain ⟨⟨⟩, t, h2, _⟩ := of_succeeds hp.2
    exact ⟨sA, t0, t, 2, 1, 0, 2, _, w, by decide +kernel, h, hp.1.1, fun _ => hp.1.2.1, .inr hp.1.2.2, h2⟩

/-- A store that completes: the hart holds no furlong and the memory its canonical form, and the bytes stay in one line. -/
def StoresOf (s t : State) (va : Word) (size v : Nat) (w : Window) : Prop :=
  s.hart.furlong = none ∧ Memory.wf s.mm.bytes = true ∧ 0 < size ∧ va.toNat % 128 + size ≤ 128 ∧
    storeLine s.who va size v false w s = .ok ((), t)

theorem stores_of {s : State} {va : Word} {size v : Nat} {w : Window} (hf : s.hart.furlong = none)
    (h : (Memory.wf s.mm.bytes && decide (0 < size ∧ va.toNat % 128 + size ≤ 128) &&
      succeeds (storeLine s.who va size v false w s) (fun _ _ => true)) = true) : ∃ t, StoresOf s t va size v w := by
  simp only [Bool.and_eq_true, decide_eq_true_eq] at h
  obtain ⟨⟨⟩, t, e, _⟩ := of_succeeds h.2
  exact ⟨t, hf, h.1.1, h.1.2.1, h.1.2.2, e⟩

theorem witness_stored_bytes :
    (∃ (s t : State) (va : Word) (v pa : Nat), StoresOf s t va 8 v (.memSide pa false) ∧ pa < 2 ^ 63 ∧ s.isLocal pa = true ∧
      pa % 128 = va.toNat % 128 ∧ s.plainTo (spaceOf s.hart.asid va) (pa / 128)) ∧
    -- bank-linear memory, its bank free and busy
    (∃ (s t : State) (va : Word) (v pa : Nat), StoresOf s t va 8 v (.bankLinear pa) ∧ (s.bank (paBank pa)).free = true ∧ pa < 2 ^ 63 ∧
      s.isLocal pa = true ∧ pa % 128 = va.toNat % 128 ∧ s.plainTo 0 (pa / 128)) ∧
    (∃ (s t : State) (va : Word) (v pa : Nat), StoresOf s t va 8 v (.bankLinear pa) ∧ s.isLocal pa = true ∧ (s.bank (paBank pa)).free = false) ∧
    -- a line that the die's L2 holds, at its home and checked out
    (∃ (s t : State) (va : Word) (v pa : Nat) (e : L2Line), StoresOf s t va 8 v (.cached pa leafA) ∧ va.toNat < 2 ^ 57 ∧ s.isLocal pa = true ∧
      paDie pa = s.hart.place.die ∧ s.findL2 s.hart.place.die (spaceOf s.hart.asid va) (va.toNat / 128) = some e) ∧
    (∃ (s t : State) (va : Word) (v pa : Nat) (e : L2Line), StoresOf s t va 8 v (.cached pa leafA) ∧ va.toNat < 2 ^ 57 ∧ s.isLocal pa = true ∧
      e.out = true ∧ s.findL2 s.hart.place.die (spaceOf s.hart.asid va) (va.toNat / 128) = some e) ∧
    -- one that it does not hold: of its own die, of another die, of another device
    (∃ (s t : State) (va : Word) (v pa : Nat), StoresOf s t va 8 v (.cached pa leafA) ∧ va.toNat < 2 ^ 57 ∧ s.isLocal pa = true ∧
      paDie pa = s.hart.place.die ∧ s.findL2 s.hart.place.die (spaceOf s.hart.asid va) (va.toNat / 128) = none ∧
      s.plainTo (spaceOf s.hart.asid va) (pa / 128)) ∧
    (∃ (s t : State) (va : Word) (v pa : Nat), StoresOf s t va 8 v (.cached pa leafA) ∧ va.toNat < 2 ^ 57 ∧ s.isLocal pa = true ∧
      paDie pa ≠ s.hart.place.die ∧ (∀ e ∈ s.mm.l2, e.pa ≠ pa / 128) ∧
      s.findL2 s.hart.place.die (spaceOf s.hart.asid va) (va.toNat / 128) = none ∧
      (freeTwinWay (s.twinSet s.hart.asid (pa / 128)).2.1).isSome = true ∧ s.plainTo (spaceOf s.hart.asid va) (pa / 128)) ∧
    (∃ (s t : State) (va : Word) (v pa : Nat), StoresOf s t va 8 v (.cached pa leafA) ∧ va.toNat < 2 ^ 57 ∧ s.isLocal pa = false) ∧
    (∃ (s t : State) (va : Word) (v : Nat) (c : CoreLine), StoresOf s t va 1 v .scratch ∧
      findCore s.mm.l1 s.hart.place.die s.hart.place.core s.hart.asid (va.toNat / 128) = some c) ∧
    ∃ (s : State) (va : Word) (size pa : Nat), s.hart.furlong.isSome = true ∧ s.isLocal pa = true ∧
      s.rangeBusy s.who va.toNat size = false ∧ s.stripRoom s.who (va.toNat / 128) = true ∧ 0 < size ∧ va.toNat % 128 + size ≤ 128 := by
  refine ⟨?_, ?_, ?_, ?_, ?_, ?_, ?_, ?_, ?_, ?_⟩
  · obtain ⟨t, h⟩ := stores_of (s := sA) (va := 0x500078#64) (size := 8) (v := 7) (w := .memSide 0x500078 false) rfl (by decide +kernel)
    exact ⟨sA, t, _, _, _, h, by decide, by decide +kernel, by decide, plain_to (by decide +kernel)⟩
  · obtain ⟨t, h⟩ := stores_of (s := sA) (va := 0x78#64) (size := 8) (v := 7) (w := .bankLinear 0x10000000078) rfl (by decide +kernel)
    exact ⟨sA, t, _, _, _, h, by decide +kernel, by decide, by decide +kernel, by decide, plain_to (by decide +kernel)⟩
  · obtain ⟨t, h⟩ := stores_of (s := sBusy) (va := 0x78#64) (size := 8) (v := 7) (w := .bankLinear 0x10000000078) rfl (by decide +kernel)
    exact ⟨sBusy, t, _, _, _, h, by decide +kernel, by decide +kernel⟩
  · obtain ⟨t, h⟩ := stores_of (s := sL2) (va := 0x500078#64) (size := 8) (v := 7) (w := .cached 0x500078 leafA) rfl (by decide +kernel)
    exact ⟨sL2, t, _, _, _, lineL2, h, by decide +kernel⟩
  · obtain ⟨t, h⟩ := stores_of (s := sOut) (va := 0x500078#64) (size := 8) (v := 7) (w := .cached 0x500078 leafA) rfl (by decide +kernel)
    exact ⟨sOut, t, _, _, _, { lineL2 with out := true }, h, by decide, by decide +kernel, rfl, by decide +kernel⟩
  · obtain ⟨t, h⟩ := stores_of (s := sA) (va := 0x500078#64) (size := 8) (v := 7) (w := .cached 0x500078 leafA) rfl (by decide +kernel)
    exact ⟨sA, t, _, _, _, h, by decide, by decide +kernel, by decide +kernel, by decide +kernel, plain_to (by decide +kernel)⟩
  · obtain ⟨t, h⟩ := stores_of (s := sA) (va := 0x500078#64) (size := 8) (v := 7) (w := .cached 0x40000500078 leafA) rfl (by decide +kernel)
    exact ⟨sA, t, _, _, _, h, by decide, by decide +kernel, by decide +kernel, (by intro e he; cases he), by decide +kernel,
      by decide +kernel, plain_to (by decide +kernel)⟩
  · obtain ⟨t, h⟩ := stores_of (s := sJoined) (va := 0x500078#64) (size := 8) (v := 7) (w := .cached (9 * 2 ^ 44 + 0x500078) leafA) rfl (by decide +kernel)
    exact ⟨sJoined, t, _, _, _, h, by decide, by decide +kernel⟩
  · obtain ⟨t, h⟩ := stores_of (s := sPin) (va := 0x200000007F#64) (size := 1) (v := 7) (w := .scratch) rfl (by decide +kernel)
    exact ⟨sPin, t, _, _, linePin, h, by decide +kernel⟩
  · exact ⟨sFurlong, 0x500000#64, 8, 0x500000, rfl, by decide +kernel⟩

/-! ## References, atomics and regions -/

/-- A hart with a handler whose second GiB of addresses is a reach-managed page of die 0, with two objects: at 0x40001000
one of 16 words and PSCOPE `p`, at 0x40002000 one of 4 words and PSCOPE `q`. x1 names the first, x2 the second. -/
def sReach (p q : Nat) : State :=
  let s := trapX [0x40001000#64, 0x40002000#64, 3#64]
  let job := { loadJob with rb := loadJob.rb.set 0 0x800000, rn := loadJob.rn.set 0 0x800000 }
  { s with fe := { s.fe with jobs := [job] },
           mm := { s.mm with bytes := Memory.write (Memory.write (Memory.write s.mm.bytes (loadTable + 8) (bytesOfNat 8 0x4000004F))
             0x40001000 (bytesOfNat 8 (16 + p * 2 ^ 32))) 0x40002000 (bytesOfNat 8 (4 + q * 2 ^ 32)) } }

/-- The leaf under which the reach-managed page is held. -/
def leafR : Word := (succeedsLeaf (classify (sReach 1 2).who 0x40001008#64 8 .load (sReach 1 2))).getD 0#64

/-- A state in which a raised cause is taken. -/
def takes (t : State) : Bool :=
  !t.hart.csr.hm && t.hart.csr.tvec != 0#64 && t.hart.furlong.isNone && t.hart.strip.isEmpty && t.hart.region.isNone &&
    !t.hart.graceDue

theorem takes_traps {t : State} (h : takes t = true) : t.takesTraps := by
  simp only [takes, Bool.and_eq_true, Bool.not_eq_true', bne_iff_ne, Option.isNone_iff_eq_none, List.isEmpty_iff] at h
  exact ⟨h.1.1.1.1.1, h.1.1.1.1.2, h.1.1.1.2, h.1.1.2, h.1.2, h.2⟩

theorem clean_of {s : State} (h : s.hart.vPsn = [] ∧ s.hart.mPsn = [] ∧ s.hart.startElem = 0 ∧ s.hart.split = []) : s.cleanVectors := h

/-- The checks of a reference succeed for a reference that is not null, and what they find. -/
def refFinds (s : State) (c v : Word) (o : BitVec 12) (va : Word) (p : Window → Nat → Nat → State → Bool) : Bool :=
  succeeds (readHeader s.who c s) fun h t1 =>
    (decide (8 ≤ 8 * o.toInt) && decide (8 * o.toInt < 8 * (h.toNat % 2 ^ 32))) &&
    succeeds (classify s.who v 8 .load t1) fun wv t3 => wv.isReach &&
      succeeds (loadFrom s.who v 8 2 wv t3) fun x t2 =>
        succeeds (classify s.who va 8 .store t2) fun w t => w.isReach && p w (h.toNat / 2 ^ 32 % 4) (x.1 / 2 ^ 32 % 4) t

theorem refChecked_of {s : State} {c v : Word} {o : BitVec 12} {va : Word} {p : Window → Nat → Nat → State → Bool}
    (hc : c.toNat % 8 = 0) (hva : va = c + BitVec.ofInt 64 (8 * o.toInt)) (hv : v ≠ 0#64) (hv8 : v.toNat % 8 = 0)
    (h : refFinds s c v o va p = true) : ∃ w pc pt t, RefChecked s c v o va w pc pt t ∧ p w pc pt t = true := by
  obtain ⟨hd, t1, e1, h⟩ := of_succeeds h
  simp only [Bool.and_eq_true, decide_eq_true_eq] at h
  obtain ⟨wv, t3, e2, h2⟩ := of_succeeds h.2
  simp only [Bool.and_eq_true] at h2
  obtain ⟨x, t2, e3, h3⟩ := of_succeeds h2.2
  obtain ⟨w, t, e4, h4⟩ := of_succeeds h3
  simp only [Bool.and_eq_true] at h4
  exact ⟨w, _, _, t, ⟨hc, hva, hd, t1, t2, e1, rfl, h.1.1, h.1.2, .inr ⟨hv, hv8, wv, t3, x.1, x.2, e2, h2.1, e3, rfl⟩, e4, h4.1⟩, h4.2⟩

theorem witness_references :
    (∃ (s t : State) (d a : BitVec 5) (r : BitVec 2) (o : BitVec 10) (q : BitVec 1) (sc : BitVec 2) (va : Word) (w : Window)
      (t0 : State) (v : Nat) (tag : Bool), Instr.wf (.ldref d a r o q sc) = true ∧ s.noWalk q sc ∧
      va = s.getX a + BitVec.ofInt 64 (8 * o.toInt) ∧ classify s.who va 8 .load s = .ok (w, t0) ∧ w.isReach = true ∧
      loadFrom s.who va 8 r.toNat w t0 = .ok ((v, tag), t)) ∧
    (∃ (s t0 t : State) (b a : BitVec 5) (o : BitVec 12) (va : Word) (w : Window) (pc pt : Nat), s.walkAhead none = none ∧
      RefChecked s (s.getX a) (s.getX b) o va w pc pt t0 ∧ pc ≤ pt ∧ storeLine s.who va 8 (s.getX b).toNat true w t0 = .ok ((), t)) ∧
    (∃ (s t : State) (b a : BitVec 5) (o : BitVec 12) (sc : BitVec 2) (va : Word) (w : Window) (pc pt : Nat), sc ≠ 0#2 ∧
      s.walkAhead none = none ∧ RefChecked s (s.getX a) (s.getX b) o va w pc pt t ∧ pc ≤ sc.toNat ∧
      t.unacked t.hart.uid = false) ∧
    (∃ (s t0 : State) (a : BitVec 5) (i : BitVec 15) (va : Word) (w : Window), va = s.getX a + BitVec.ofInt 64 i.toInt ∧
      classify s.who va 8 .load s = .ok (w, t0) ∧ w.isPlainOnly = false ∧ (∀ pa, w ≠ .control pa) ∧ w.isReach = false) ∧
    (∃ (s t0 t : State) (a : BitVec 5) (i : BitVec 15) (va : Word) (w : Window) (v : Nat) (tag : Bool),
      va = s.getX a + BitVec.ofInt 64 i.toInt ∧ classify s.who va 8 .load s = .ok (w, t0) ∧ w.isPlainOnly = false ∧
      (∀ pa, w ≠ .control pa) ∧ w.isReach = true ∧ loadFrom s.who va 8 2 w t0 = .ok ((v, tag), t)) ∧
    ∃ (s t1 t0 t : State) (b a : BitVec 5) (i : BitVec 15) (va : Word) (w : Window) (len first last : Nat),
      va = s.getX a + BitVec.ofInt 64 i.toInt ∧ len = (s.getX b).toNat % 2 ^ 32 ∧
      classify s.who va 8 .store s = .ok (w, t1) ∧ 0 < len ∧ first = va.toNat / 128 ∧ last = (va.toNat + 8 * len - 1) / 128 ∧
      checkReach s.who (va.toNat + 8 * len) (len / 8192 + 2) va.toNat t1 = .ok ((), t0) ∧
      initLines s.who va.toNat (va.toNat + 8 * len)
        (BitVec.ofNat 64 ((s.getX b).toNat / 2 ^ 35 * 2 ^ 35 + len)) (last - first + 1) first t0 = .ok ((), t) := by
  refine ⟨?_, ?_, ?_, ?_, ?_, ?_⟩
  · obtain ⟨w, t0, h, hp⟩ := of_succeeds (x := classify (sReach 1 2).who 0x40001008#64 8 .load (sReach 1 2))
      (p := fun w t0 => w.isReach && succeeds (loadFrom (sReach 1 2).who 0x40001008#64 8 2 w t0) (fun _ _ => true)) (by decide +kernel)
    simp only [Bool.and_eq_true] at hp
    obtain ⟨x, t, h2, _⟩ := of_succeeds hp.2
    exact ⟨sReach 1 2, t, 10, 1, 2, 1, 1, 2, _, w, t0, x.1, x.2, by decide +kernel, by intro; decide +kernel, by decide +kernel, h, hp.1, h2⟩
  · obtain ⟨w, pc, pt, t0, h, hp⟩ := refChecked_of (s := sReach 1 2) (c := 0x40001000#64) (v := 0x40002000#64) (o := 15) (va := 0x40001078#64)
      (p := fun w pc pt t => decide (pc ≤ pt) && succeeds (storeLine (sReach 1 2).who 0x40001078#64 8 0x40002000 true w t) (fun _ _ => true))
      (by decide) (by decide) (by decide) (by decide) (by decide +kernel)
    simp only [Bool.and_eq_true, decide_eq_true_eq] at hp
    obtain ⟨⟨⟩, t, h2, _⟩ := of_succeeds hp.2
    exact ⟨sReach 1 2, t0, t, 2, 1, 15, _, w, pc, pt, by decide +kernel, h, hp.1, h2⟩
  · obtain ⟨w, pc, pt, t0, h, hp⟩ := refChecked_of (s := sReach 1 0) (c := 0x40001000#64) (v := 0x40002000#64) (o := 1) (va := 0x40001008#64)
      (p := fun _ pc _ t => decide (pc ≤ 1) && !t.unacked t.hart.uid) (by decide) (by decide) (by decide) (by decide) (by decide +kernel)
    simp only [Bool.and_eq_true, decide_eq_true_eq, Bool.not_eq_true'] at hp
    exact ⟨sReach 1 0, t0, 2, 1, 1, 1, _, w, pc, pt, by decide, by decide +kernel, h, hp.1, hp.2⟩
  · obtain ⟨w, t0, h, hp⟩ := of_succeeds (x := classify sA.who 0x500000#64 8 .load sA)
      (p := fun w _ => decide (w = .cached 0x500000 leafA)) (by decide +kernel)
    obtain rfl := of_decide_eq_true hp
    exact ⟨sA, t0, 1, 0, _, _, by decide +kernel, h, rfl, (by intro _ h; cases h), by decide +kernel⟩
  · obtain ⟨w, t0, h, hp⟩ := of_succeeds (x := classify (sReach 1 2).who 0x40001008#64 8 .load (sReach 1 2))
      (p := fun w t0 => decide (w = .cached 0x40001008 leafR) && succeeds (loadFrom (sReach 1 2).who 0x40001008#64 8 2 w t0) (fun _ _ => true))
      (by decide +kernel)
    simp only [Bool.and_eq_true, decide_eq_true_eq] at hp
    obtain ⟨rfl, hp⟩ := hp
    obtain ⟨x, t, h2, _⟩ := of_succeeds hp
    exact ⟨sReach 1 2, t0, t, 1, 8, _, _, x.1, x.2, by decide +kernel, h, rfl, (by intro _ h; cases h), by decide +kernel, h2⟩
  · obtain ⟨w, t1, h0, hp⟩ := of_succeeds (x := classify (sReach 1 2).who 0x40001000#64 8 .store (sReach 1 2))
      (p := fun _ t1 => succeeds (checkReach (sReach 1 2).who (0x40001000 + 24) (3 / 8192 + 2) 0x40001000 t1) (fun _ t0 =>
        succeeds (initLines (sReach 1 2).who 0x40001000 (0x40001000 + 24) (BitVec.ofNat 64 (3 / 2 ^ 35 * 2 ^ 35 + 3))
          ((0x40001000 + 24 - 1) / 128 - 0x40001000 / 128 + 1) (0x40001000 / 128) t0) (fun _ _ => true))) (by decide +kernel)
    obtain ⟨⟨⟩, t0, h1, hp⟩ := of_succeeds hp
    obtain ⟨⟨⟩, t, h2, _⟩ := of_succeeds hp
    exact ⟨sReach 1 2, t1, t0, t, 3, 1, 0, _, w, 3, _, _, by decide +kernel, by decide +kernel, h0, by decide, rfl, rfl, h1, h2⟩

theorem witness_escape :
    (∃ (s t : State) (b a : BitVec 5) (o : BitVec 12) (va : Word) (w : Window) (pc pt : Nat), s.walkAhead none = none ∧
      RefChecked s (s.getX a) (s.getX b) o va w pc pt t ∧ pt < pc ∧ t.takesTraps) ∧
    ∃ (s t : State) (b a : BitVec 5) (o : BitVec 12) (sc : BitVec 2) (va : Word) (w : Window) (pc pt : Nat), sc ≠ 0#2 ∧
      s.walkAhead none = none ∧ RefChecked s (s.getX a) (s.getX b) o va w pc pt t ∧ sc.toNat < pc ∧ t.takesTraps := by
  constructor
  · obtain ⟨w, pc, pt, t, h, hp⟩ := refChecked_of (s := sReach 3 2) (c := 0x40001000#64) (v := 0x40002000#64) (o := 1) (va := 0x40001008#64)
      (p := fun _ pc pt t => decide (pt < pc) && takes t) (by decide) (by decide) (by decide) (by decide) (by decide +kernel)
    simp only [Bool.and_eq_true, decide_eq_true_eq] at hp
    exact ⟨sReach 3 2, t, 2, 1, 1, _, w, pc, pt, by decide +kernel, h, hp.1, takes_traps hp.2⟩
  · obtain ⟨w, pc, pt, t, h, hp⟩ := refChecked_of (s := sReach 3 0) (c := 0x40001000#64) (v := 0x40002000#64) (o := 1) (va := 0x40001008#64)
      (p := fun _ pc _ t => decide (2 < pc) && takes t) (by decide) (by decide) (by decide) (by decide) (by decide +kernel)
    simp only [Bool.and_eq_true, decide_eq_true_eq] at hp
    exact ⟨sReach 3 0, t, 2, 1, 1, 2, _, w, pc, pt, by decide, by decide +kernel, h, hp.1, takes_traps hp.2⟩

theorem witness_atomics :
    (∃ (s t0 t1 t : State) (i : Instr) (op : Nat) (d a b : BitVec 5) (m l q : BitVec 1) (sc : BitVec 2) (w : Window) (pa : Nat)
      (mem : Bool) (old : Word), atomicRule i = some (op, d, a, b, m, l, q, sc) ∧ i.wf = true ∧ s.noWalk q sc ∧
      classify s.who (s.getX a) 8 .atomic s = .ok (w, t0) ∧ w.atomicPa = some (pa, mem) ∧
      (t0.isLocal pa = true ∨ t0.hart.pathAt = some t0.hart.pc ∨
        (capOp (t0.pathCap (paDev pa)) op = true ∧ (m = 1#1 → capMsa (t0.pathCap (paDev pa)) = true))) ∧
      t1 = (if s.isLocal pa = true then t0 else ({ t0 with hart := { t0.hart with pathAt := some t0.hart.pc } } : State)) ∧
      t1.mayRelease l sc ∧
      atomicAt s.who (s.getX a) pa (if m = 1#1 ∨ mem = true then none else w.leaf) (BitVec.ofNat 4 op) (s.getX b) (s.getX d)
        (16 * sc.toNat + 64 * q.toNat + 128 * l.toNat + if m = 1#1 ∨ mem = true then 256 else 0) (t1.ifRelease l sc) = .ok (old, t)) ∧
    ∃ (s : State) (op space pa ta : Nat), op < 10 ∧ pa % 8 = 0 ∧ pa < 2 ^ 63 ∧ Memory.wf s.mm.bytes = true ∧
      (∀ e ∈ s.mm.l2, e.pa ≠ pa / 128) ∧ s.plainTo space (pa / 128) ∧ s.tagAddr (pa / 128) = some ta ∧
      atomicWrites op (BitVec.ofNat 64 (natOfBytes (Memory.read s.mm.bytes pa 8))) 5#64 0#64 ≠ none := by
  constructor
  · obtain ⟨w, t0, h, hp⟩ := of_succeeds (x := classify sA.who 0x500000#64 8 .atomic sA)
      (p := fun w t0 => (decide (w.atomicPa = some (0x500000, false)) && (decide (t0.isLocal 0x500000 = true ∧ t0.planesMove = true) && !(t0.releaseMine 2#2).unacked t0.hart.uid)) &&
        succeeds (atomicAt sA.who 0x500000#64 0x500000 w.leaf 0#4 7#64 0#64 (16 * 2 + 64 + 128) (t0.releaseMine 2#2)) (fun _ _ => true))
      (by decide +kernel)
    simp only [Bool.and_eq_true, decide_eq_true_eq, Bool.not_eq_true'] at hp
    obtain ⟨old, t, h2, _⟩ := of_succeeds hp.2
    exact ⟨sA, t0, t0, t, .amoadd 3 1 2 0 1 1 2, 0, 3, 1, 2, 0, 1, 1, 2, w, 0x500000, false, old, rfl, by decide +kernel,
      by intro; decide +kernel, h, hp.1.1, .inl hp.1.2.1.1, (if_pos (by decide +kernel)).symm, fun _ => ⟨fun _ => hp.1.2.1.2, fun _ => hp.1.2.2⟩, h2⟩
  · exact ⟨sReach 1 2, 9, 1, 0x40001000, ((sReach 1 2).tagAddr (0x40001000 / 128)).getD 0, by decide, by decide, by decide, by decide +kernel,
      (by intro e he; cases he), plain_to (by decide +kernel), by decide +kernel, by decide⟩

/-- An ALRB at the PC with the body `ld x4, 0(x1)`, `sd x2, 8(x1)` and an ALRE that acquires and releases at package scope. -/
def sRegion : State := holding sA 0x400000
  (bytesOfNat 4 (wordOf .alrb).toNat ++ bytesOfNat 4 (wordOf (.ld 4 1 2 0)).toNat ++ bytesOfNat 4 (wordOf (.sd 2 1 8)).toNat ++
    bytesOfNat 4 (wordOf (.alre 1 1 2)).toNat)
def bodyA : List (BitVec 32 × Instr) := [(wordOf (.ld 4 1 2 0), .ld 4 1 2 0), (wordOf (.sd 2 1 8), .sd 2 1 8)]
def regionA : Region := ⟨0x400000#64, 0x40000C#64, bodyA.map (·.1), 0xA000, 0x500000⟩
/-- The same with the region open. -/
def sInRegion : State := { sA with hart := { sA.hart with region := some regionA, pc := 0x40000C#64 } }

theorem witness_regions :
    (∃ (s t0 t1 t2 : State) (l : List (BitVec 32 × Instr)) (rl aq : BitVec 1) (sc : BitVec 2) (k : Nat) (i : Instr) (va : Word)
      (size pa : Nat) (st mem : Bool) (w : Window) (loads stores : Bool),
      gatherBody s.who s.hart.pc 25 1 s = .ok (.body l (.alre rl aq sc), t0) ∧
      ((l.map (·.2)).filterMap memShape).length ≤ 8 ∧
      firstAccess ⟨s.hart.x, ⟨0, 0, 0⟩, 0, 0, false⟩ 1 (l.map (·.2)) = some (k, i, va) ∧ memShape i = some (size, st) ∧
      va.toNat % size = 0 ∧ stores = ((l.map (·.2)).filterMap memShape).any (·.2) ∧
      loads = ((l.map (·.2)).filterMap memShape).any (fun (x : Nat × Bool) => !x.2) ∧
      classify s.who va size (if stores then .store else .load) t0 = .ok (w, t1) ∧
      (if stores && loads then ∃ w', classify s.who va size .load t1 = .ok (w', t2) else t2 = t1) ∧
      w.atomicPa = some (pa, mem) ∧
      (s.isLocal pa = true ∨ (capAlr (t2.pathCap (paDev pa)) = true ∧ capViaPcie (t2.pathCap (paDev pa)) = false))) ∧
    (∃ (s t0 t : State) (r : Region) (l q : BitVec 1) (sc : BitVec 2) (w : Window) (h : HomeRun),
      Instr.wf (.alre l q sc) = true ∧ s.hart.region = some r ∧ s.noWalk q sc ∧ s.mayRelease l sc ∧
      classify s.who (BitVec.ofNat 64 (r.line * 128)) 1
        (if ((bodyInstrs r.body).filterMap memShape).any (·.2) then .store else .load) (s.ifRelease l sc) = .ok (w, t0) ∧
      regionAt s.who r (if w.isMemSide then none else w.leaf)
        (16 * sc.toNat + 64 * q.toNat + 128 * l.toNat + 512 * ((bodyInstrs r.body).filterMap memShape).length) t0 = .ok (.ok h, t) ∧
      h.poisoned = false) ∧
    ∃ (g : BitVec 5 → Word) (i : Instr) (d : BitVec 5) (v : Word), bodyValue g i = some (d, v) := by
  refine ⟨?_, ?_, ⟨base.getX, .add 1 2 3, 1, 0, by decide +kernel⟩⟩
  · obtain ⟨g, t0, h0, hp⟩ := of_succeeds (x := gatherBody sRegion.who sRegion.hart.pc 25 1 sRegion)
      (p := fun g t0 => decide (g = .body bodyA (.alre 1 1 2)) && succeeds (classify sRegion.who 0x500000#64 8 .store t0)
        (fun w t1 => decide (w.atomicPa = some (0x500000, false)) && succeeds (classify sRegion.who 0x500000#64 8 .load t1) (fun _ _ => true)))
      (by decide +kernel)
    simp only [Bool.and_eq_true, decide_eq_true_eq] at hp
    obtain ⟨rfl, hp⟩ := hp
    obtain ⟨w, t1, h1, hp⟩ := of_succeeds hp
    simp only [Bool.and_eq_true, decide_eq_true_eq] at hp
    obtain ⟨w', t2, h2, _⟩ := of_succeeds hp.2
    exact ⟨sRegion, t0, t1, t2, bodyA, 1, 1, 2, 1, .ld 4 1 2 0, 0x500000#64, 8, _, false, false, w, true, true, h0, by decide +kernel,
      by decide +kernel, by decide +kernel, by decide, by decide +kernel, by decide +kernel, h1, ⟨w', h2⟩, hp.1, .inl (by decide +kernel)⟩
  · obtain ⟨w, t0, h0, hp⟩ := of_succeeds (x := classify sInRegion.who (BitVec.ofNat 64 (0xA000 * 128)) 1 .store (sInRegion.ifRelease 1 2))
      (p := fun w t0 => succeeds (regionAt sInRegion.who regionA (if w.isMemSide then none else w.leaf) (16 * 2 + 64 + 128 + 512 * 2) t0)
        (fun r _ => match r with | .ok h => !h.poisoned | .error _ => false)) (by decide +kernel)
    obtain ⟨r, t, h1, hp⟩ := of_succeeds hp
    match r, hp with
    | .ok h, hp =>
      exact ⟨sInRegion, t0, t, regionA, 1, 1, 2, w, h, by decide +kernel, rfl, by intro; decide +kernel, by intro; decide +kernel,
        h0, h1, by simpa using hp⟩

/-! ## Fences, waits, leagues, barriers -/

def lineD : L2Line := ⟨0, 1, 0xA000, 0xA000, 0, 0, 0, 5, 0, 0, 0xFF, 1, 0, false⟩
def sFence : State := { sA with mm := { sA.mm with l1 := [linePin, lineL1], l2 := [lineD] } }

theorem witness_fences :
    (∃ (s : State) (k : BitVec 3) (sc : BitVec 2) (acq : Bool) (t : State), k.toNat ≤ 6 ∧
      acq = [true, false, false, false, true, false, true].getD k.toNat false ∧
      s.walkAhead (some sc) = none ∧ s.planesFor sc ∧ t = s.releaseMine sc ∧ sc ≠ 0#2 ∧
      t.unacked s.hart.uid = false ∧ t.planesMove = true) ∧
    (∃ (s : State) (die core : Nat) (sc : BitVec 2) (e : L2Line), s.mm.l2.Pairwise (fun a b => a.same b = false) ∧ 2 ≤ sc.toNat ∧ die < 4 ∧
      e ∈ s.mm.l2 ∧ e.die = die ∧ e.writers.getLsbD core = true ∧ e.out = false ∧ paDie (e.pa * 128) = die ∧
      Memory.wf s.mm.bytes = true ∧ (∀ f ∈ s.mm.l2, f.pa = e.pa → f = e) ∧
      (∀ f ∈ s.mm.l2, ∀ ta, s.tagAddr f.pa = some ta → ta + 2 ≤ e.pa * 128 ∨ e.pa * 128 + 128 ≤ ta) ∧ e.dirty.getLsbD 7 = true) ∧
    (∃ (s : State) (die core : Nat) (sc : BitVec 2), s.mm.l2.Pairwise (fun a b => a.same b = false) ∧ sc ≠ 0#2 ∧
      ∃ e ∈ (s.acquire die core sc).mm.l1, e.die = die ∧ e.core = core) ∧
    ∃ (s : State) (die core : Nat) (sc : BitVec 2), s.mm.l2.Pairwise (fun a b => a.same b = false) ∧ 2 ≤ sc.toNat ∧
      ∃ e ∈ (s.acquire die core sc).mm.l2, e.die = die := by
  refine ⟨⟨base, 6, 2, true, _, by decide, rfl, by decide +kernel, by decide +kernel, rfl, by decide, by decide +kernel, by decide +kernel⟩,
    ⟨sFence, 0, 0, 2, lineD, by exact List.pairwise_singleton _ _, by decide, by decide, by exact List.mem_singleton.2 rfl, rfl, by decide, rfl,
      by decide, by decide +kernel, by intro f hf _; exact List.mem_singleton.1 hf, ?_, by decide⟩,
    ⟨sFence, 0, 0, 1, by exact List.pairwise_singleton _ _, by decide, linePin, by decide +kernel, rfl, rfl⟩,
    ⟨sFence, 0, 0, 2, by exact List.pairwise_singleton _ _, by decide, { lineD with heirs := 1 }, by decide +kernel, rfl⟩⟩
  intro f hf ta h
  obtain rfl := List.mem_singleton.1 hf
  have e : sFence.tagAddr lineD.pa = none := by decide +kernel
  rw [e] at h; cases h

theorem witness_waits :
    (∃ (s : State) (a : BitVec 5) (k : BitVec 4), (s.hart.copyFault = none ∨ s.hart.copyTold = true) ∧
      ((s.hart.getK k).toNat + 2 ^ 64 - (s.getX a).toNat) % 2 ^ 64 < 2 ^ 63) ∧
    (∃ (s : State) (a : BitVec 5) (k : BitVec 4), (s.hart.copyFault = none ∨ s.hart.copyTold = true) ∧
      2 ^ 63 ≤ ((s.hart.getK k).toNat + 2 ^ 64 - (s.getX a).toNat) % 2 ^ 64) ∧
    (∃ s : State, s.advance.yieldsTo s.advance.hart = false) ∧ (∃ s : State, s.advance.yieldsTo s.advance.hart = true) ∧
    ∃ s : State, s.walkAhead none = none ∧ (s.hart.copyFault = none ∨ s.hart.copyTold = true) :=
  ⟨⟨base, 1, 3, .inl (by decide +kernel), by decide +kernel⟩, ⟨sA, 2, 3, .inl (by decide +kernel), by decide +kernel⟩,
    ⟨base, by decide +kernel⟩,
    ⟨{ base with hart := { base.hart with vlMax := 4096, nregs := 48 }, others := [{ base.hart with uid := 9, phase := .waiting }] },
      by decide +kernel⟩,
    ⟨base, by decide +kernel, .inl (by decide +kernel)⟩⟩

/-- Two harts in league 5, the hart in focus with b2 bound to object 3; the focus hart has arrived at phase `n` of it, the
other at phase `m`. -/
def memberA (uid n : Nat) : Member := ⟨uid, Vector.replicate 8 (BitVec.ofNat 32 n)⟩
def leagueA (n m c : Nat) : League :=
  ⟨5, 1, [memberA base.hart.uid n, memberA 77 m], Vector.replicate 8 ⟨BitVec.ofNat 32 c, [], [], []⟩⟩
def sLeague (n m c : Nat) : State :=
  let s := trapX [5#64, 0#64]
  { s with hart := { s.hart with league := some 5, b := s.hart.b.set 2 (some ⟨5, 3⟩) }, fe := { s.fe with leagues := [leagueA n m c] } }

theorem witness_leagues :
    (∃ (s : State) (a : BitVec 5), 4095 < (s.getX a).toNat) ∧
    (∃ (s : State) (a : BitVec 5), (s.getX a).toNat ≤ 4095 ∧ s.hart.league ≠ none) ∧
    (∃ (s : State) (a : BitVec 5), (s.getX a).toNat ≤ 4095 ∧ s.hart.league = none ∧ ∃ l, s.leagueOf (s.getX a).toNat = some l ∧ l.owner ≠ s.hart.asid) ∧
    (∃ (s : State) (a : BitVec 5) (members : List Member), (s.getX a).toNat ≤ 4095 ∧ s.hart.league = none ∧
      members = ((s.leagueOf (s.getX a).toNat).map (·.members)).getD [] ∧
      (∀ l, s.leagueOf (s.getX a).toNat = some l → l.owner = s.hart.asid) ∧ 3072 ≤ members.length) ∧
    (∃ (s : State) (a : BitVec 5) (members : List Member), (s.getX a).toNat ≤ 4095 ∧ s.hart.league = none ∧
      members = ((s.leagueOf (s.getX a).toNat).map (·.members)).getD [] ∧
      (∀ l, s.leagueOf (s.getX a).toNat = some l → l.owner = s.hart.asid) ∧ members.length < 3072 ∧
      192 * s.leagueCount members s.hart < members.length + 1) ∧
    (∃ (s : State) (a : BitVec 5) (members : List Member), (s.getX a).toNat ≤ 4095 ∧ s.hart.league = none ∧
      members = ((s.leagueOf (s.getX a).toNat).map (·.members)).getD [] ∧ s.leagueOf (s.getX a).toNat = none ∧ members.length < 3072 ∧
      members.length + 1 ≤ 192 * s.leagueCount members s.hart) ∧
    (∃ (s : State) (a : BitVec 5) (members : List Member) (k : League), (s.getX a).toNat ≤ 4095 ∧ s.hart.league = none ∧
      members = ((s.leagueOf (s.getX a).toNat).map (·.members)).getD [] ∧ s.leagueOf (s.getX a).toNat = some k ∧ k.owner = s.hart.asid ∧
      members.length < 3072 ∧ members.length + 1 ≤ 192 * s.leagueCount members s.hart) ∧
    (∃ s : State, s.hart.league = none) ∧ ∃ (s : State) (id : Nat), s.hart.league = some id := by
  let big (n : Nat) : State := { sLeague 0 0 0 with
    hart := { (sLeague 0 0 0).hart with league := none, aTiles := 8 },
    fe := { (sLeague 0 0 0).fe with leagues := [⟨5, 1, List.replicate n (memberA 88 0), Vector.replicate 8 Barrier.reset⟩] } }
  let none' : State := { sLeague 0 0 0 with hart := { (sLeague 0 0 0).hart with league := none } }
  have one : ∀ (s : State) (l : League), s.leagueOf 5 = some l → l.owner = s.hart.asid → ∀ k, s.leagueOf 5 = some k → k.owner = s.hart.asid := by
    intro s l h ho k hk; rw [h] at hk; cases hk; exact ho
  refine ⟨⟨withX [4096#64], 1, by decide +kernel⟩, ⟨sLeague 0 0 0, 1, by decide +kernel, by decide +kernel⟩, ?_, ?_, ?_, ?_, ?_, ⟨base, by decide +kernel⟩,
    ⟨sLeague 0 0 0, 5, by decide +kernel⟩⟩
  · exact ⟨{ none' with hart := { none'.hart with asid := 2 } }, 1, by decide +kernel, by decide +kernel, leagueA 0 0 0, by decide +kernel, by decide +kernel⟩
  · exact ⟨big 3072, 1, List.replicate 3072 (memberA 88 0), by decide +kernel, by decide +kernel, by decide +kernel,
      one (big 3072) ⟨5, 1, List.replicate 3072 (memberA 88 0), Vector.replicate 8 Barrier.reset⟩ (by decide +kernel) (by decide +kernel), by decide +kernel⟩
  · exact ⟨big 192, 1, List.replicate 192 (memberA 88 0), by decide +kernel, by decide +kernel, by decide +kernel,
      one (big 192) ⟨5, 1, List.replicate 192 (memberA 88 0), Vector.replicate 8 Barrier.reset⟩ (by decide +kernel) (by decide +kernel),
      by decide +kernel, by decide +kernel⟩
  · exact ⟨sA, 2, [], by decide +kernel⟩
  · exact ⟨none', 1, (leagueA 0 0 0).members, leagueA 0 0 0, by decide +kernel⟩

theorem witness_barriers :
    (∃ (s : State) (id : Nat), s.hart.league = some id) ∧
    (∃ (s : State) (n o : BitVec 3) (l : League) (m : Member), s.barrierOf n = some (l, o, m) ∧ s.walkAhead none = none ∧
      (m.nextOf o - (l.object o).c).toNat < 2 ∧ s.unacked s.hart.uid = false) ∧
    (∃ (s : State) (a : BitVec 5) (n o : BitVec 3) (l : League) (m : Member) (p : BitVec 32) (sc : BitVec 2),
      s.barrierOf n = some (l, o, m) ∧ p = BitVec.ofNat 32 (s.getX a).toNat ∧ ((l.object o).c - p - 1#32).toNat < 2 ^ 31 ∧
      sc = (((l.object o).scopes.find? (fun e => e.1 == p)).map (·.2)).getD 2#2 ∧ s.walkAhead (some sc) = none ∧ s.planesFor sc) ∧
    (∃ (s : State) (n : BitVec 3), s.takesTraps ∧ s.hart.league = none ∧ s.barrierOf n = none ∧ s.walkAhead none = none) ∧
    (∃ (s : State) (l : League) (o : BitVec 3) (m : Member), s.leagueOf l.id = some l ∧ m ∈ l.members ∧ (l.members.map (·.uid)).Nodup ∧
      (∀ k ∈ l.members, k.nextOf o = (l.object o).c ∨ k.nextOf o = (l.object o).c + 1#32) ∧ m.nextOf o = (l.object o).c ∧
      (∀ k ∈ m.uid :: (l.object o).arrived, s.unacked k = false) ∧ s.planesMove = true ∧
      ∀ k ∈ l.members, k.uid ≠ m.uid → k.nextOf o = (l.object o).c + 1#32) ∧
    ∃ (s : State) (l : League) (o : BitVec 3) (m : Member), s.leagueOf l.id = some l ∧ m ∈ l.members ∧ (l.members.map (·.uid)).Nodup ∧
      (∀ k ∈ l.members, k.nextOf o = (l.object o).c ∨ k.nextOf o = (l.object o).c + 1#32) ∧ m.nextOf o = (l.object o).c ∧
      (∀ k ∈ m.uid :: (l.object o).arrived, s.unacked k = false) ∧ s.planesMove = true ∧
      ∃ k ∈ l.members, k.uid ≠ m.uid ∧ k.nextOf o = (l.object o).c :=
  ⟨⟨sLeague 0 0 0, 5, by decide +kernel⟩,
    ⟨sLeague 1 0 0, 2, 3, leagueA 1 0 0, memberA base.hart.uid 1, by decide +kernel⟩,
    ⟨sLeague 1 1 1, 2, 2, 3, leagueA 1 1 1, memberA base.hart.uid 1, 0, 2, by decide +kernel⟩,
    ⟨sT, 2, trapX_takes _, by decide +kernel, by decide +kernel, by decide +kernel⟩,
    ⟨sLeague 0 1 0, leagueA 0 1 0, 3, memberA base.hart.uid 0, by decide +kernel⟩,
    ⟨sLeague 0 0 0, leagueA 0 0 0, 3, memberA base.hart.uid 0, by decide +kernel⟩⟩

/-! ## Scratchpad, system instructions and CSRs -/

/-- x1 names the first scratchpad line; a pinned line of the hart there. -/
def sPad : State := trapX [0x2000000000#64]
def pinOf (way line uid : Nat) : CoreLine := ⟨0, 0, 1, line, 0, 0, way, 0, 5, 0, 0, some uid⟩
def sPadPinned (uid : Nat) : State := { sPad with mm := { sPad.mm with l1 := [pinOf 0 0x40000000 uid] } }

theorem witness_scratchpad :
    (∃ (s : State) (a : BitVec 5) (line : Nat) (c : CoreLine), line = (s.getX a).toNat / 128 ∧ s.inScratch s.hart.asid (s.getX a) = true ∧
      s.rangeBusy s.who (line * 128) 128 = false ∧ findCore s.mm.l1 s.hart.place.die s.hart.place.core s.hart.asid line = some c ∧
      c.pin = some s.hart.uid) ∧
    (∃ (s : State) (a : BitVec 5) (line : Nat) (c : CoreLine), line = (s.getX a).toNat / 128 ∧ s.inScratch s.hart.asid (s.getX a) = true ∧
      s.rangeBusy s.who (line * 128) 128 = false ∧ findCore s.mm.l1 s.hart.place.die s.hart.place.core s.hart.asid line = some c ∧
      (∃ n, c.pin = some n ∧ n ≠ s.hart.uid) ∧ s.takesTraps) ∧
    (∃ (s : State) (a : BitVec 5) (line : Nat), line = (s.getX a).toNat / 128 ∧ s.inScratch s.hart.asid (s.getX a) = true ∧
      s.rangeBusy s.who (line * 128) 128 = false ∧ findCore s.mm.l1 s.hart.place.die s.hart.place.core s.hart.asid line = none ∧
      6 ≤ s.pinnedWays s.hart.place.die s.hart.place.core line) ∧
    (∃ (s : State) (a : BitVec 5) (line : Nat), line = (s.getX a).toNat / 128 ∧ s.inScratch s.hart.asid (s.getX a) = true ∧
      s.rangeBusy s.who (line * 128) 128 = false ∧ findCore s.mm.l1 s.hart.place.die s.hart.place.core s.hart.asid line = none ∧
      s.pinnedWays s.hart.place.die s.hart.place.core line < 6) ∧
    ∃ (s : State) (a : BitVec 5), s.inScratch s.hart.asid (s.getX a) = false ∧ s.takesTraps :=
  ⟨⟨sPadPinned 1, 1, _, pinOf 0 0x40000000 1, rfl, by decide +kernel⟩,
    ⟨sPadPinned 9, 1, _, pinOf 0 0x40000000 9, rfl, by decide +kernel, by decide +kernel, by decide +kernel, ⟨9, by decide +kernel, by decide +kernel⟩,
      trapX_takes _⟩,
    ⟨{ sPad with mm := { sPad.mm with l1 := (List.range 6).map (fun k => pinOf k (0x40000000 + 512 * (k + 1)) 9) } }, 1, _, rfl, by decide +kernel⟩,
    ⟨sPad, 1, _, rfl, by decide +kernel⟩, ⟨sT, 1, by decide +kernel, trapX_takes _⟩⟩

/-- A hart inside its handler. -/
def sHandler : State := { sT with hart := { sT.hart with csr := { sT.hart.csr with hm := true } } }

theorem witness_system : (∃ s : State, s.takesTraps ∧ s.hart.csr.hm = false) ∧ ∃ s : State, s.hart.csr.hm = true :=
  ⟨⟨sT, trapX_takes _, (trapX_takes _).1⟩, ⟨sHandler, rfl⟩⟩

theorem witness_csrs :
    (∃ (s : State) (n : BitVec 12), csrClass n = some .rw ∧ (n = 9#12 → s.hart.matQ = [])) ∧
    (∃ (s : State) (n : BitVec 12), csrClass n = some .h ∧ (n = 9#12 → s.hart.matQ = []) ∧ s.hart.csr.hm = true) ∧
    (∃ (s : State) (n : BitVec 12), s.takesTraps ∧ csrClass n = some .r) ∧ (∃ (s : State) (n : BitVec 12), s.takesTraps ∧ csrClass n = some .h) ∧
    ∃ (s : State) (n : BitVec 12), s.takesTraps ∧ csrClass n = none :=
  ⟨⟨base, 9, by decide +kernel, fun _ => rfl⟩, ⟨sHandler, 1, by decide +kernel, (by intro h; cases h), rfl⟩, ⟨sT, 0x20, trapX_takes _, by decide +kernel⟩,
    ⟨sT, 1, trapX_takes _, by decide +kernel⟩, ⟨sT, 0x13, trapX_takes _, by decide +kernel⟩⟩

/-- x1 holds an address beyond 57 bits, x2 one that is not mapped. -/
def sFar : State := trapX [0x200000000000000#64, 0x40000000#64]

theorem witness_traps :
    (∃ (s : State) (i : Instr) (va : Word) (size : Nat), s.takesTraps ∧ (∃ d r sg, loadRule s.getX i = some (d, va, r, size, sg)) ∧ 2 ^ 57 ≤ va.toNat) ∧
    (∃ (s : State) (i : Instr) (va : Word) (size : Nat), s.takesTraps ∧ (∃ b, storeRule s.getX i = some (b, va, size)) ∧ va.toNat < 2 ^ 57 ∧ va.toNat % size ≠ 0) ∧
    (∃ (s : State) (i : Instr) (va : Word) (size : Nat), ∃ d r sg, loadRule s.getX i = some (d, va, r, size, sg) ∧
      classify s.who va size .load s = .error (.fault 5#8)) ∧
    (∃ (s : State) (i : Instr) (va : Word) (size : Nat), ∃ b, storeRule s.getX i = some (b, va, size) ∧ classify s.who va size .store s = .error (.fault 6#8)) ∧
    (∃ s : State, s.hart.csr.hm = true ∧ s.hart.furlong = none ∧ s.hart.strip = [] ∧ s.hart.region = none) ∧
    ∃ s : State, s.hart.csr.tvec = 0#64 ∧ s.hart.furlong = none ∧ s.hart.strip = [] ∧ s.hart.region = none := by
  have fault : ∀ (acc : Access) (c : BitVec 8), (match classify sFar.who 0x40000000#64 8 acc sFar with | .error (.fault d) => decide (d = c) | _ => false) = true →
      classify sFar.who 0x40000000#64 8 acc sFar = .error (.fault c) := by
    intro acc c h
    split at h
    · rename_i d e; rw [e, of_decide_eq_true h]
    · cases h
  exact ⟨⟨sFar, .ld 2 1 2 0, _, _, trapX_takes _, ⟨_, _, _, rfl⟩, by decide +kernel⟩, ⟨sT, .sd 2 1 1, _, _, trapX_takes _, ⟨_, rfl⟩, by decide +kernel, by decide +kernel⟩,
    ⟨sFar, .ld 2 2 2 0, 0x40000000#64, 8, 2, 2, false, by decide +kernel, fault .load 5 (by decide +kernel)⟩,
    ⟨sFar, .sd 2 2 0, 0x40000000#64, 8, 2, by decide +kernel, fault .store 6 (by decide +kernel)⟩,
    ⟨sHandler, rfl, (trapX_takes _).2.2.1, (trapX_takes _).2.2.2.1, (trapX_takes _).2.2.2.2.1⟩, ⟨base, rfl, rfl, rfl, rfl⟩⟩

/-! ## Steps and encodings -/

/-- The turn of the hart in focus, with a word at its PC and a handler. -/
def sTurn (w : BitVec 32) : State := { holding (handled base) 0x400000 (bytesOfNat 4 w.toNat) with agenda := [.hart base.hart.uid] }
/-- The same when its turn has come and its clock has been counted. -/
def sDue (w : BitVec 32) : State := ({ sTurn w with agenda := [] } : State).clock
/-- The same as it fetches. -/
def sFetch (w : BitVec 32) : State := { sDue w with hart := { (sDue w).hart with held := false, fetched := true } }

theorem sDue_may (w : BitVec 32) (h : ((sDue w).hart.isReady && !(sDue w).hart.graceDue && !(sDue w).hart.watchdogDue) = true) :
    (sDue w).mayTurn := by
  simp only [Bool.and_eq_true, Bool.not_eq_true'] at h
  exact ⟨h.1.1, h.1.2, .inl h.2⟩

/-- Bank 5 runs a microprogram whose first µop is `h`. -/
def sMicro (h : BitVec 16) : State :=
  let s := { base with agenda := [.bank 5], bankSel := 5 }
  s.setBank 5 { Bank.reset with micro := h.setWidth 1024, run := .program 7 0 64 }

theorem witness_steps :
    (∃ (s t f u v : State) (rest : List Turn) (w : BitVec 32) (i : Instr) (l : List Byte),
      s.agenda = .hart s.hart.uid :: rest ∧ t = ({ s with agenda := rest } : State).clock ∧ t.mayTurn ∧
      f = { t with hart := { t.hart with held := false, fetched := true } } ∧ fetchWord f.who f.hart.pc f = .ok (w, u) ∧
      decodeBytes (bytesOfWord w) = .ok (i, l) ∧ u.awaitsStream i = false ∧ furlongPre i u = .ok ((), v)) ∧
    (∃ (s t : State) (rest : List Turn) (b : Nat) (k : Bank) (h : BitVec 16) (i : Instr) (l : List Byte) (c row span : Nat),
      s.agenda = .bank b :: rest ∧ t = ({ s with agenda := rest } : State).clock ∧ k = t.bank b ∧ k.run = .program c row span ∧
      (k.nextIsRow = true → t.bankHeld b = false ∧ k.susp = false ∧ k.moving = none ∧ (k.pending = [] ∨ k.resumed = true)) ∧
      k.upc < 64 ∧ k.microPsn.getLsbD k.upc = false ∧
      h = BitVec.ofNat 16 (getElt k.micro 16 k.upc) ∧ decodeMicroBytes [h.extractLsb' 0 8, h.extractLsb' 8 8] = .ok (i, l)) ∧
    (∃ (s t : State) (rest : List Turn) (b : Nat) (k : Bank) (h : BitVec 16) (i : Instr) (l : List Byte) (c row span : Nat),
      s.agenda = .bank b :: rest ∧ t = ({ s with agenda := rest } : State).clock ∧ k = t.bank b ∧ k.run = .program c row span ∧
      k.nextIsRow = true ∧ k.susp = false ∧ k.moving = none ∧ k.pending = [] ∧
      t.bankHeld b = false ∧ k.upc < 64 ∧ k.microPsn.getLsbD k.upc = false ∧
      h = BitVec.ofNat 16 (getElt k.micro 16 k.upc) ∧ decodeMicroBytes [h.extractLsb' 0 8, h.extractLsb' 8 8] = .ok (i, l)) ∧
    (∃ (s : State) (rest : List Turn) (i : Instr), s.agenda = .event i :: rest) ∧
    (∃ (s t f u : State) (rest : List Turn) (w : BitVec 32) (e : DecodeError), s.agenda = .hart s.hart.uid :: rest ∧
      t = ({ s with agenda := rest } : State).clock ∧ t.mayTurn ∧ f = { t with hart := { t.hart with held := false, fetched := true } } ∧
      fetchWord f.who f.hart.pc f = .ok (w, u) ∧ decodeBytes (bytesOfWord w) = .error e ∧ u.takesTraps) ∧
    ∃ (s : State) (i : Instr) (w : BitVec 32), i.wf = false ∧ encodeWord i = some w ∧ s.takesTraps := by
  refine ⟨?_, ?_, ?_, ⟨{ base with agenda := [.event .frontEndsReady] }, [], _, rfl⟩, ?_,
    ⟨sT, .fence 7 2, wordOf (.fence 7 2), by decide +kernel, by decide +kernel, trapX_takes _⟩⟩
  · obtain ⟨w, u, h, hp⟩ := of_succeeds
      (x := fetchWord (sFetch (wordOf (.add 1 2 3))).who (sFetch (wordOf (.add 1 2 3))).hart.pc (sFetch (wordOf (.add 1 2 3))))
      (p := fun w u => (decide (w = wordOf (.add 1 2 3)) && !u.awaitsStream (.add 1 2 3)) && succeeds (furlongPre (.add 1 2 3) u) (fun _ _ => true))
      (by decide +kernel)
    simp only [Bool.and_eq_true, decide_eq_true_eq, Bool.not_eq_true'] at hp
    obtain ⟨⟨rfl, ha⟩, hp⟩ := hp
    obtain ⟨⟨⟩, v, h2, _⟩ := of_succeeds hp
    exact ⟨sTurn (wordOf (.add 1 2 3)), _, _, u, v, [], _, .add 1 2 3, [], rfl, rfl, sDue_may _ (by decide +kernel), rfl, h,
      by decide +kernel, ha, h2⟩
  · exact ⟨sMicro 0x9000, _, [], 5, _, 0x9000, .rloop 0 0, [], 7, 0, 64, rfl, rfl, rfl, by decide +kernel⟩
  · exact ⟨sMicro 0x3710, _, [], 5, _, 0x3710, .rshadd 1 1 2 2 0, [], 7, 0, 64, rfl, rfl, rfl, by decide +kernel⟩
  · obtain ⟨w, u, h, hp⟩ := of_succeeds (x := fetchWord (sFetch 0).who (sFetch 0).hart.pc (sFetch 0))
      (p := fun w u => decide (w = 0) && takes u) (by decide +kernel)
    simp only [Bool.and_eq_true, decide_eq_true_eq] at hp
    obtain ⟨rfl, hp⟩ := hp
    exact ⟨sTurn 0, _, _, u, [], 0, .reservedMajor 0, rfl, rfl, sDue_may _ (by decide +kernel), rfl, h, by decide +kernel, takes_traps hp⟩

theorem witness_encodings : (∃ (i : Instr) (w : BitVec 32), encodeWord i = some w) ∧ (∃ (i : Instr) (h : BitVec 16), encodeMicro i = some h) ∧
    (∃ (w : BitVec 32) (i : Instr), decodeWord w = .ok i) ∧ ∃ (h : BitVec 16) (i : Instr), decodeMicro h = .ok i :=
  ⟨⟨.add 1 2 3, wordOf (.add 1 2 3), by decide +kernel⟩, ⟨.rloop 0 0, 0x9000, by decide +kernel⟩, ⟨0x02938800, .add 9 7 2, by decide +kernel⟩,
    ⟨0x9000, .rloop 0 0, by decide +kernel⟩⟩

theorem witness_canonical : ∃ s t : State, s.canonical ∧ step s = .next t := by
  have h : (match step { State.reset with agenda := [.event .packageReset] } with | .next _ => true | _ => false) = true := by decide +kernel
  split at h
  · rename_i t e; exact ⟨_, t, by exact Laws.reset_canonical, e⟩
  · cases h

/-! ## Vector instructions -/

/-- Two vectors of four f32 elements, and mask m2 with elements 0 and 2. -/
def sVec : State :=
  let s := withV 32 4 0x78A#32 [[0x3F800000, 0x40000000, 0x40400000, 0x40800000], [0x3F800000, 0x3F800000, 0xBF800000, 0x40800000]]
  { s with hart := { s.hart.setM 2 5#4096 with csr := { s.hart.csr with tvec := 0x8000#64 } } }

theorem witness_set_up :
    (∃ s : State, s.frw = false) ∧ (∃ s t : State, s.frw = true ∧ commitFurlong s = .ok ((), t)) ∧
    (∃ (s : State) (a : BitVec 5) (n : Nat), s.hart.matQ = [] ∧ n = [6, 12, 24, 48].getD ((s.getX a).toNat % 4) 0 ∧ n ≤ s.hart.nregs) ∧
    (∃ (s : State) (a : BitVec 5) (n : Nat), s.hart.matQ = [] ∧ n = [6, 12, 24, 48].getD ((s.getX a).toNat % 4) 0 ∧ s.hart.nregs < n ∧
      (n - s.hart.nregs) * s.hart.vlMax * 8 ≤ s.freeFile s.hart.place.die s.hart.place.core) ∧
    (∃ (s : State) (a : BitVec 5) (n : Nat), s.hart.matQ = [] ∧ n = [6, 12, 24, 48].getD ((s.getX a).toNat % 4) 0 ∧ s.hart.nregs < n ∧
      s.freeFile s.hart.place.die s.hart.place.core < (n - s.hart.nregs) * s.hart.vlMax * 8) ∧
    (∃ (s : State) (a : BitVec 5) (v : Nat), v = (s.getX a).toNat % 2 ^ 32 ∧ v < 2 ^ 18 ∧ v % 16 < 14 ∧ v / 16 % 8 < 5 ∧
      (v / 128 % 16 < 12 ∨ v / 128 % 16 = 15)) ∧
    ∃ (s : State) (a : BitVec 5) (v : Nat), v = (s.getX a).toNat % 2 ^ 32 ∧ s.takesTraps ∧
      (2 ^ 18 ≤ v ∨ 14 ≤ v % 16 ∨ 5 ≤ v / 16 % 8 ∨ (12 ≤ v / 128 % 16 ∧ v / 128 % 16 ≤ 14)) := by
  let frw : State := { base with fe := { base.fe with jobs := [{ loadJob with frw := true }] } }
  refine ⟨⟨base, by decide +kernel⟩, ?_, ⟨base, 1, 6, by decide +kernel, by decide +kernel, by decide +kernel⟩,
    ⟨withX [3#64], 1, 48, by decide +kernel⟩, ?_,
    ⟨withX [0x3578D#64], 1, 0x3578D, by decide +kernel⟩,
    ⟨trapX [0xE#64], 1, 0xE, by decide +kernel, trapX_takes _, by decide⟩⟩
  · obtain ⟨⟨⟩, t, h, _⟩ := of_succeeds (x := commitFurlong frw) (p := fun _ _ => true) (by decide +kernel)
    exact ⟨frw, t, by decide +kernel, h⟩
  · exact ⟨{ withX [3#64] with hart := { (withX [3#64]).hart with vlMax := 4096 }, others := (List.range 3).map (fun k =>
      { base.hart with uid := 5 + k, vlMax := 4096, nregs := 48 }) }, 1, 48, by decide +kernel⟩

theorem witness_element : (∃ (s : State) (b : BitVec 5) (v : BitVec 6) (e w : Nat), e = (s.getX b).toNat ∧ w = (s.mode 0).width ∧ s.hart.vPsn = [] ∧
      s.hart.perLane v.toNat = true ∧ s.hart.vlMax ≤ e) ∧
    (∃ (s : State) (b : BitVec 5) (v : BitVec 6) (e w : Nat), e = (s.getX b).toNat ∧ w = (s.mode 0).width ∧ s.hart.vPsn = [] ∧
      s.hart.regFails w v.toNat e = none ∧ e < s.hart.vlMax) :=
  ⟨⟨{ withX [128#64] with hart := { (withX [128#64]).hart with ix := (withX [128#64]).hart.ix.set 0 0x400000#64 } }, 1, 48, 128, _, by decide +kernel, rfl,
      by decide +kernel, by decide +kernel, by decide +kernel⟩,
    ⟨sVec, 0, 1, 0, _, by decide +kernel, rfl, by decide +kernel, by decide +kernel, by decide +kernel⟩⟩

theorem sVec_ready (i : Instr) (v : VShape) (hf : i.wf = true) (ht : v.types 10 = true) (hd : v.clash = false)
    (hb : ∀ b ∈ v.dst :: v.srcs.map (·.spec), sVec.hart.specFails (if v.selects then { sVec.mode 0 with guard := 15 } else sVec.mode 0) 32 b = none)
    (ha : v.apart = []) : VectorReady sVec i 0 v :=
  ⟨hf, by rw [show (sVec.mode 0).etype = 10 by decide +kernel]; exact ht, hd,
    by rw [show (sVec.mode 0).width = 32 by decide +kernel]; exact hb, by rw [ha]; intro p hp; (cases hp), fun _ => ha,
    by decide +kernel, by decide +kernel, by decide +kernel⟩

theorem witness_results : ∃ (s : State) (i : Instr) (md : BitVec 2) (v : VShape) (l : Elems), vectorForm s i = some (md, v) ∧ VectorReady s i md v ∧
    l = vectorResult s.getX i (s.operands md v) ∧ ((s.mode md).sat = false ∨ s.hart.csr.sove = false ∨ l.clamped = none) ∧ l ≠ [] :=
  ⟨sVec, .vadd 0 3 1 2, 0, _, _, rfl, sVec_ready _ _ (by decide +kernel) (by decide +kernel) (by decide +kernel) (by decide +kernel) (by decide +kernel),
    rfl, .inl (by decide +kernel), by decide +kernel⟩

theorem isSome_get {α : Type} {o : Option α} (h : o.isSome = true) : ∃ a, o = some a := Option.isSome_iff_exists.1 h

theorem witness_vector_traps :
    (∃ (s : State) (md : BitVec 2) (d : BitVec 6) (a : BitVec 5) (r : BitVec 2) (x : VMem) (e : Nat),
      s.takesTraps ∧ VmemReady s (.vld md d a r) md d .unit ∧ x = s.vmem md d a .unit ∧ x.w ≠ 4 ∧ x.m.zero = false ∧
      x.act e = true ∧ (∀ k < e, x.act k = false) ∧ (x.addr e 0).toNat < 2 ^ 57 ∧ (x.addr e 0).toNat % (x.w / 8) ≠ 0) ∧
    (∃ (s : State) (md : BitVec 2) (d : BitVec 6) (a : BitVec 5) (r : BitVec 2) (b : BitVec 5) (x : VMem) (e : Nat),
      s.takesTraps ∧ VmemReady s (.vlds md d a b r) md d (.strided b) ∧ x = s.vmem md d a (.strided b) ∧ x.w ≠ 4 ∧ x.m.zero = false ∧
      x.act e = true ∧ (∀ k < e, x.act k = false) ∧ (x.addr e 0).toNat < 2 ^ 57 ∧ (x.addr e 0).toNat % (x.w / 8) ≠ 0) ∧
    (∃ (s : State) (n : BitVec 3), s.takesTraps ∧ s.hart.nt ≤ n.toNat) ∧
    (∃ (s : State) (a : BitVec 5) (t : Nat), s.takesTraps ∧ t = (s.getX a).toNat ∧ t < 256 ∧
      (t % 16 = 0 ∨ t % 16 = 9 ∨ t % 16 = 10 ∨ t % 16 = 11) ∧ t / 16 ≤ 8 ∧ s.hart.aTiles < t / 16) ∧
    ∃ (s : State) (i : Instr) (md : BitVec 2) (v : VShape) (l : Elems) (e : Nat), vectorForm s i = some (md, v) ∧
      VectorReady s i md v ∧ l = vectorResult s.getX i (s.operands md v) ∧ (s.mode md).sat = true ∧ s.hart.csr.sove = true ∧
      l.clamped = some e ∧ s.takesTraps := by
  -- f32 elements guarded by m2, which holds 4: element 2 is the first active one
  let s1 : State := { sVec with hart := { ((sVec.hart.setM 2 4#4096).setMd 0#2 0x10A#32).setX 1 0x500002#64 with csr := sVec.hart.csr } }
  -- i8 with SAT and SOVE: 100 + 100 at element 1
  let s2 : State :=
    let s := withV 8 2 0x2780#32 [[1, 100], [2, 100]]
    { s with hart := { s.hart with csr := { s.hart.csr with tvec := 0x8000#64, sove := true } } }
  refine ⟨⟨s1, 0, 3, 1, 2, _, 2, takes_traps (by decide +kernel),
      ⟨by decide +kernel, by decide +kernel, by decide +kernel, clean_of (by decide +kernel)⟩, rfl, by decide +kernel⟩,
    ⟨s1, 0, 3, 1, 2, 0, _, 2, takes_traps (by decide +kernel),
      ⟨by decide +kernel, by decide +kernel, by decide +kernel, clean_of (by decide +kernel)⟩, rfl, by decide +kernel⟩,
    ⟨sT, 0, trapX_takes _, by decide +kernel⟩, ⟨trapX [0x1A#64], 1, 0x1A, trapX_takes _, by decide +kernel⟩,
    ⟨s2, .vadd 0 3 1 2, 0, _, _, 1, rfl, ⟨by decide +kernel, by decide +kernel, by decide +kernel, by decide +kernel,
      by decide +kernel, by decide +kernel, clean_of (by decide +kernel)⟩, rfl, by decide +kernel, by decide +kernel, by decide +kernel,
      takes_traps (by decide +kernel)⟩⟩

theorem witness_compares : ∃ (s : State) (i : Instr) (k : Nat) (md : BitVec 2) (d a b : BitVec 6),
    [Instr.vcmpeq md d a b, .vcmpne md d a b, .vcmplt md d a b, .vcmple md d a b][k]? = some i ∧
    VectorReady s i md (plainShape typesA a [a, b]) :=
  ⟨sVec, .vcmplt 0 3 1 2, 2, 0, 3, 1, 2, rfl,
    sVec_ready _ _ (by decide +kernel) (by decide +kernel) (by decide +kernel) (by decide +kernel) (by decide +kernel)⟩

theorem witness_quantisation :
    (∃ (s : State) (md : BitVec 2) (d a b : BitVec 6) (v : VShape),
      v = { plainShape typesF d [] with srcs := [.plain a, ⟨b.toNat, some 8, 8⟩], whole := true,
                                        apart := [(d.toNat, a.toNat), (d.toNat, b.toNat), (a.toNat, b.toNat)] } ∧
      VectorReady s (.vqnt md d a b) md v) ∧
    ∃ (s : State) (md : BitVec 2) (d a b : BitVec 6) (v : VShape),
      v = { plainShape typesF d [] with srcs := [.plain a, ⟨b.toNat, some 64, 4096⟩] } ∧ VectorReady s (.vqi8 md d a b) md v :=
  ⟨⟨sVec, 0, 3, 1, 2, _, rfl, ⟨by decide +kernel, by decide +kernel, by decide +kernel, by decide +kernel,
      by decide +kernel, by decide +kernel, clean_of (by decide +kernel)⟩⟩,
    ⟨sVec, 0, 3, 1, 2, _, rfl, ⟨by decide +kernel, by decide +kernel, by decide +kernel, by decide +kernel,
      by decide +kernel, by decide +kernel, clean_of (by decide +kernel)⟩⟩⟩

/-- Two vectors of two i16 elements. -/
def sInts : State := withV 16 2 0x781#32 [[1, 0xFFFF], [2, 3]]

/-- Two i16 elements whose sum clamps, with SAT, SOVE and a handler. -/
def sClamp : State :=
  let s := handled (withV 16 2 0x2781#32 [[0x7FFF, 1]])
  { s with hart := { s.hart with csr := { s.hart.csr with sove := true } } }

theorem witness_reductions :
    (∃ (s : State) (md : BitVec 2) (d a : BitVec 6) (r : Flagged), VectorReady s (.vredsum md d a) md (plainShape typesA d [a]) ∧
      r = (treeRoot (addElem (s.mode md)) 13 (s.operands md (plainShape typesA d [a])).leaves).getD (0, 0#6) ∧ (s.mode md).sat = false) ∧
    (∃ (s : State) (md : BitVec 2) (d a : BitVec 6), VectorReady s (.vredand md d a) md (plainShape typesI d [a]) ∧ (s.mode md).sat = false) ∧
    ∃ (s : State) (md : BitVec 2) (d a : BitVec 6) (r : Flagged), VectorReady s (.vredsum md d a) md (plainShape typesA d [a]) ∧
      r = (treeRoot (addElem (s.mode md)) 13 (s.operands md (plainShape typesA d [a])).leaves).getD (0, 0#6) ∧ (s.mode md).sat = true ∧
      s.hart.csr.sove = true ∧ r.2.getLsbD 5 = true ∧ s.takesTraps :=
  ⟨⟨sVec, 0, 3, 1, _, sVec_ready _ _ (by decide +kernel) (by decide +kernel) (by decide +kernel) (by decide +kernel) (by decide +kernel), rfl, by decide +kernel⟩,
    ⟨sInts, 0, 3, 1, ⟨by decide +kernel, by decide +kernel, by decide +kernel, by decide +kernel,
      by decide +kernel, by decide +kernel, clean_of (by decide +kernel)⟩, by decide +kernel⟩,
    ⟨sClamp, 0, 3, 1, _, ⟨by decide +kernel, by decide +kernel, by decide +kernel, by decide +kernel,
      by decide +kernel, by decide +kernel, clean_of (by decide +kernel)⟩, rfl, by decide +kernel, rfl, by decide +kernel, takes_traps (by decide +kernel)⟩⟩

theorem witness_masks : (∃ (s : State) (md : BitVec 2) (d a b : BitVec 6), Instr.wf (.mand md d a b) = true ∧ Instr.wf (.mor md d a b) = true ∧
      Instr.wf (.mxor md d a b) = true ∧ Instr.wf (.mnot md d a) = true ∧ s.cleanVectors) ∧
    ∃ (s : State) (a : BitVec 6), a.toNat < 12 ∧ s.cleanVectors :=
  ⟨⟨sVec, 0, 3, 2, 4, by decide +kernel, by decide +kernel, by decide +kernel, by decide +kernel, clean_of (by decide +kernel)⟩,
    ⟨sVec, 2, by decide, clean_of (by decide +kernel)⟩⟩

/-- x1 points at mapped memory for vectors of four f32 elements, or of four e2m1 elements. -/
def sVmem : State := { sVec with hart := sVec.hart.setX 1 0x500000#64 }
def sNibbles : State := { sVmem with hart := sVmem.hart.setMd 0#2 0x78D#32 }

theorem sVmem_ready (i : Instr) (form : VForm) (hi : i.wf = true) (hb : match form with
      | .segment nf => 3 + nf ≤ 48
      | f => ∀ b ∈ 3 :: f.specs, sVmem.hart.specFails (sVmem.mode 0) 32 b = none) : VmemReady sVmem i 0 3 form := by
  have hw : (sVmem.mode 0).width = 32 := by decide +kernel
  have he : (sVmem.mode 0).etype = 10 := by decide +kernel
  refine ⟨hi, ?_, ?_, by decide +kernel, by decide +kernel, by decide +kernel⟩
  · rw [he]; cases form <;> exact of_decide_eq_true rfl
  · rw [hw]
    cases form with
    | segment nf => rw [show sVmem.hart.nregs = 48 by decide +kernel]; exact hb
    | unit => exact hb
    | strided b => exact hb
    | indexed v => exact hb

theorem witness_vector_memory :
    (∃ (s t : State) (i : Instr) (form : VForm) (x : VMem), i = .vldg 0 3 1 4 2 ∧ form = .indexed 4 ∧ VmemReady s i 0 3 form ∧
      x = s.vmem 0 3 1 form ∧ x.w ≠ 4 ∧ loadElems x s.who 2 (List.range x.vl) s = .ok ((), t)) ∧
    (∃ (s t : State) (i : Instr) (form : VForm) (x : VMem), i = .vldseg 0 3 1 1 2 ∧ form = .segment 2 ∧ VmemReady s i 0 3 form ∧
      x = s.vmem 0 3 1 form ∧ x.w ≠ 4 ∧ loadElems x s.who 2 (List.range x.vl) s = .ok ((), t)) ∧
    (∃ (s t : State) (i : Instr) (form : VForm) (x : VMem), i = .vld 0 3 1 2 ∧ form = .unit ∧ VmemReady s i 0 3 form ∧
      x = s.vmem 0 3 1 form ∧ x.w = 4 ∧ loadNibbles x s.who 2 (List.range ((x.vl + 1) / 2)) s = .ok ((), t)) ∧
    (∃ (s t : State) (i : Instr) (form : VForm) (x : VMem), i = .vsts 0 3 1 0 ∧ form = .strided 0 ∧ VmemReady s i 0 3 form ∧
      x = s.vmem 0 3 1 form ∧ x.w ≠ 4 ∧ storeElems x s.who (List.range x.vl) s = .ok ((), t)) ∧
    ∃ (s t : State) (i : Instr) (form : VForm) (x : VMem), i = .vst 0 3 1 ∧ form = .unit ∧ VmemReady s i 0 3 form ∧
      x = s.vmem 0 3 1 form ∧ x.w = 4 ∧ storeNibbles x s.who (List.range ((x.vl + 1) / 2)) s = .ok ((), t) := by
  have ready : ∀ i : Instr, i.wf = true → VmemReady sNibbles i 0 3 .unit := fun i h =>
    ⟨h, by decide +kernel, by decide +kernel, clean_of (by decide +kernel)⟩
  refine ⟨?_, ?_, ?_, ?_, ?_⟩
  · obtain ⟨⟨⟩, t, h, _⟩ := of_succeeds (x := loadElems (sVmem.vmem 0 3 1 (.indexed 4)) sVmem.who 2 (List.range 4) sVmem) (p := fun _ _ => true) (by decide +kernel)
    exact ⟨sVmem, t, _, _, _, rfl, rfl, sVmem_ready _ _ (by decide +kernel) (by decide +kernel), rfl, by decide +kernel, h⟩
  · obtain ⟨⟨⟩, t, h, _⟩ := of_succeeds (x := loadElems (sVmem.vmem 0 3 1 (.segment 2)) sVmem.who 2 (List.range 4) sVmem) (p := fun _ _ => true) (by decide +kernel)
    exact ⟨sVmem, t, _, _, _, rfl, rfl, sVmem_ready _ _ (by decide +kernel) (by decide +kernel), rfl, by decide +kernel, h⟩
  · obtain ⟨⟨⟩, t, h, _⟩ := of_succeeds (x := loadNibbles (sNibbles.vmem 0 3 1 .unit) sNibbles.who 2 (List.range 2) sNibbles) (p := fun _ _ => true) (by decide +kernel)
    exact ⟨sNibbles, t, _, _, _, rfl, rfl, ready _ (by decide +kernel), rfl, by decide +kernel, h⟩
  · obtain ⟨⟨⟩, t, h, _⟩ := of_succeeds (x := storeElems (sVmem.vmem 0 3 1 (.strided 0)) sVmem.who (List.range 4) sVmem) (p := fun _ _ => true) (by decide +kernel)
    exact ⟨sVmem, t, _, _, _, rfl, rfl, sVmem_ready _ _ (by decide +kernel) (by decide +kernel), rfl, by decide +kernel, h⟩
  · obtain ⟨⟨⟩, t, h, _⟩ := of_succeeds (x := storeNibbles (sNibbles.vmem 0 3 1 .unit) sNibbles.who (List.range 2) sNibbles) (p := fun _ _ => true) (by decide +kernel)
    exact ⟨sNibbles, t, _, _, _, rfl, rfl, ready _ (by decide +kernel), rfl, by decide +kernel, h⟩

theorem witness_vector_elements :
    (∃ (x : VMem) (s s0 t t' : State) (rd e v r : Nat) (w : Window) (tag : Bool), x.nf = 1 ∧ x.data = .one r ∧ x.act e = true ∧
      x.w * (e + 1) ≤ 262144 ∧ r < 48 ∧ s0 = { s with hart := Hart.setProgress { s.hart with startElem := e } x e } ∧
      classify s.who (x.addr e 0) (x.w / 8) .load s0 = .ok (w, t) ∧
      loadAt s.who (x.addr e 0) (x.w / 8) rd t = .ok ((v, tag), t') ∧ r < t'.hart.nregs) ∧
    ∃ (x : VMem) (e : Nat), x.act e = false ∧ x.m.zero = false := by
  constructor
  · obtain ⟨w, t, h, hp⟩ := of_succeeds (x := classify sVmem.who 0x50000C#64 4 .load
        { sVmem with hart := Hart.setProgress { sVmem.hart with startElem := 3 } (sVmem.vmem 0 3 1 .unit) 3 })
      (p := fun _ t => succeeds (loadAt sVmem.who 0x50000C#64 4 2 t) (fun _ t' => decide (3 < t'.hart.nregs))) (by decide +kernel)
    obtain ⟨⟨v, tag⟩, t', h2, hp⟩ := of_succeeds hp
    exact ⟨sVmem.vmem 0 3 1 .unit, sVmem, _, t, t', 2, 3, v, 3, w, tag, rfl, by decide +kernel, by decide +kernel, by decide +kernel, by decide, rfl, h, h2,
      of_decide_eq_true hp⟩
  · exact ⟨sVmem.vmem 0 3 1 .unit, 4, by decide +kernel, by decide +kernel⟩

/-! ## The matrix path -/

/-- A hart with one f32 tile allocated; x1 names mapped memory, x2 and x3 are an ACST descriptor that stores f32. -/
def sMat : State :=
  { sVec with hart := { (((sVec.hart.setX 1 0x500000#64).setX 2 0xA00000010#64).setX 3 0x3F800000#64) with aTiles := 1, nt := 1, mType := 10#4 } }

theorem witness_matrix :
    (∃ (s : State) (a : BitVec 5) (t : Nat), t = (s.getX a).toNat ∧ t < 256 ∧ (t % 16 = 0 ∨ t % 16 = 9 ∨ t % 16 = 10 ∨ t % 16 = 11) ∧
      t / 16 ≤ 8 ∧ t / 16 ≤ s.hart.aTiles ∧ s.hart.matQ = []) ∧
    (∃ s : State, s.hart.matQ = []) ∧
    (∃ (s : State) (md : BitVec 2) (n : BitVec 3) (a b : BitVec 6) (k w : Nat), n.toNat < s.hart.nt ∧ (s.mode md).etype = s.hart.mType.toNat ∧
      w = (s.mode md).width ∧ (∀ c ∈ [a.toNat, b.toNat], s.hart.specFails { s.mode md with guard := 15 } w c = none) ∧ s.hart.vPsn = [] ∧
      s.hart.matQ.length < 8 ∧ k = Min.min s.hart.vl (mvlOf s.hart.mType)) ∧
    (∃ (s t : State) (n : BitVec 3) (a b : BitVec 5) (w : Nat), n.toNat < s.hart.nt ∧ s.hart.matQ = [] ∧ w = accWidth s.hart.mType ∧
      s.hart.startElem = 0 ∧
      acldElems s.who n.toNat w (mvlOf s.hart.mType) (s.getX a) (s.getX b) (tileElems (mvlOf s.hart.mType) s.hart.mSide) s = .ok ((), t)) ∧
    (∃ (s : State) (md : BitVec 2) (n : BitVec 3) (d : BitVec 6) (b : BitVec 5) (w r : Nat), n.toNat < s.hart.nt ∧ s.hart.matQ = [] ∧
      w = accWidth s.hart.mType ∧ s.cleanVectors ∧ s.hart.tPsn = [] ∧ s.hart.specFails (s.mode md) w d.toNat = none ∧
      r = (s.getX b).toNat % mvlOf s.hart.mType) ∧
    ∃ (s t1 t : State) (md : BitVec 2) (n : BitVec 3) (a c : BitVec 5) (desc otype mvl wo : Nat) (stride : Word) (ns : List Nat)
      (es : List (Nat × Flagged)),
      c.toNat % 2 = 0 ∧ c ≠ 0#5 ∧ desc = (s.getX c).toNat ∧ desc < 2 ^ 40 ∧ desc / 2 ^ 36 % 8 ≤ 1 ∧ otype = desc / 2 ^ 32 % 16 ∧ otype < 13 ∧
      n.toNat < s.hart.nt ∧ s.hart.matQ = [] ∧ s.hart.tPsn = [] ∧ s.hart.split = [] ∧ mvl = mvlOf s.hart.mType ∧ wo = (etypeOf otype).elim 8 EType.width ∧
      stride = BitVec.ofInt 64 (BitVec.ofNat 32 desc).toInt ∧ ns = tileElems mvl s.hart.mSide ∧
      acstCheck s.who (s.getX a) stride mvl wo ns s = .ok ((), t1) ∧
      es = ns.map (fun k => (k, acstElem s.hart.mType (s.mode md).rm (s.mode md).sat (desc / 2 ^ 36 % 8 == 1) otype (s.getX (c + 1#5))
        (getElt (s.hart.getTile n.toNat) (accWidth s.hart.mType) k))) ∧
      acstStore s.who (s.getX a) stride mvl wo es t1 = .ok ((), t) ∧ (s.mode md).sat = false := by
  refine ⟨⟨{ sMat with hart := sMat.hart.setX 4 0x1A#64 }, 4, 0x1A, by decide +kernel⟩,
    ⟨sMat, by decide +kernel⟩, ⟨sMat, 0, 0, 1, 2, _, _, by decide +kernel, by decide +kernel, rfl, by decide +kernel, by decide +kernel, by decide +kernel, rfl⟩, ?_,
    ⟨sMat, 0, 0, 3, 0, _, _, by decide +kernel, by decide +kernel, rfl, ⟨by decide +kernel, by decide +kernel, by decide +kernel⟩, by decide +kernel,
      by decide +kernel, rfl⟩, ?_⟩
  · obtain ⟨⟨⟩, t, h, _⟩ := of_succeeds (x := acldElems sMat.who 0 (accWidth sMat.hart.mType) (mvlOf sMat.hart.mType) (sMat.getX 1) (sMat.getX 0)
      (tileElems (mvlOf sMat.hart.mType) sMat.hart.mSide) sMat) (p := fun _ _ => true) (by decide +kernel)
    exact ⟨sMat, t, 0, 1, 0, _, by decide +kernel, by decide +kernel, rfl, by decide +kernel, h⟩
  · let es : List (Nat × Flagged) := (tileElems (mvlOf sMat.hart.mType) sMat.hart.mSide).map (fun k => (k,
      acstElem sMat.hart.mType (sMat.mode 0).rm (sMat.mode 0).sat ((sMat.getX 2).toNat / 2 ^ 36 % 8 == 1) ((sMat.getX 2).toNat / 2 ^ 32 % 16) (sMat.getX (2 + 1#5))
        (getElt (sMat.hart.getTile 0) (accWidth sMat.hart.mType) k)))
    let stride : Word := BitVec.ofInt 64 (BitVec.ofNat 32 (sMat.getX 2).toNat).toInt
    let mvl := mvlOf sMat.hart.mType
    obtain ⟨⟨⟩, t1, h, hp⟩ := of_succeeds (x := acstCheck sMat.who (sMat.getX 1) stride mvl ((etypeOf ((sMat.getX 2).toNat / 2 ^ 32 % 16)).elim 8 EType.width)
        (tileElems mvl sMat.hart.mSide) sMat)
      (p := fun _ t1 => succeeds (acstStore sMat.who (sMat.getX 1) stride mvl ((etypeOf ((sMat.getX 2).toNat / 2 ^ 32 % 16)).elim 8 EType.width) es t1)
        (fun _ _ => true)) (by decide +kernel)
    obtain ⟨⟨⟩, t, h2, _⟩ := of_succeeds hp
    exact ⟨sMat, t1, t, 0, 0, 1, 2, _, _, _, _, _, _, es, by decide, by decide, rfl, by decide +kernel, by decide +kernel, rfl, by decide +kernel, by decide +kernel,
      by decide +kernel, by decide +kernel, rfl, rfl, rfl, rfl, rfl, h, rfl, h2, by decide +kernel⟩

theorem witness_outer :
    (∃ (s : State) (op : MatOp) (rest : List MatOp), s.hart.matQ = op :: rest ∧ s.hart.matrixPoison op = false ∧
      s.matrixDue s.hart.uid = true) ∧
    (∃ (h : Hart) (i j m mvl : Nat), mvl = mvlOf h.mType ∧ m ≤ mvl ∧ i < mvl ∧ j < mvl ∧ i < m ∧ j < m) ∧
    (∃ (h : Hart) (i j m mvl : Nat), mvl = mvlOf h.mType ∧ m ≤ mvl ∧ i < mvl ∧ j < mvl ∧ ¬(i < m ∧ j < m)) ∧ ∃ m : Mode, m.sat = true :=
  ⟨⟨{ sMat with hart := { sMat.hart with matQ := [.zero 0] } }, .zero 0, [], rfl, by decide +kernel, by decide +kernel⟩,
    ⟨sMat.hart, 3, 3, 4, _, rfl, by decide +kernel⟩,
    ⟨sMat.hart, 0, 4, 4, _, rfl, by decide +kernel⟩, ⟨modeOf 0x2000#32, by decide +kernel⟩⟩

/-! ## Bank engines -/

/-- A set of banks 5 and 6 with 64 rows, in bs0; x1 to x3 as given. -/
def setA : Word := 0x8000100000000005#64 ||| 64#64 <<< 30
def sBank (l : List Word) : State := let s := trapX l; { s with hart := { s.hart with bs := s.hart.bs.set 0 setA } }

theorem sBank_takes (l : List Word) : (sBank l).takesTraps := ⟨(trapX_takes l).1, (trapX_takes l).2.1, (trapX_takes l).2.2⟩

/-- Banks 5 and 6 have room for a command. -/
def room (s : State) : Bool := !s.unacked s.hart.uid && (List.range 2).all (fun i => decide ((s.bank (5 + i)).queue.length < 8))

theorem room_ok {s : State} (h : room s = true) : s.mayIssue setA := by
  simp only [room, Bool.and_eq_true, Bool.not_eq_true'] at h
  refine ⟨h.1, fun i hi => ?_⟩
  have hi : i < 2 := hi
  have := List.all_eq_true.1 h.2 i (List.mem_range.2 hi)
  exact of_decide_eq_true this

theorem witness_bank_sets : ∃ (s : State) (m : BitVec 3), (s.hart.getBs m).getLsbD 63 = true := ⟨sBank [], 0, by decide +kernel⟩

/-- An NBDRAIN whose block at x`a` has been read: its first dword is DST, its second the address of the shifts. -/
def DrainsWith (s t0 t1 : State) (st : BitVec 1) (c a : BitVec 5) (m : BitVec 3) (set w dst sh : Word) (v : Nat) : Prop :=
  set = s.hart.getBs m ∧ set.getLsbD 63 = true ∧ w = s.getX c ∧ badDrain s.hart w (st == 1#1) a = false ∧ a ≠ 0#5 ∧
    w.toNat / 2 ^ 21 % 4 ≠ 3 ∧ (s.getX a).toNat % 32 = 0 ∧ M.range .load (s.getX a) 32 s = .ok ((), t0) ∧
    M.engineRead (s.getX a) 32 t0 = .ok ((v, false), t1) ∧ v < 2 ^ 256 ∧ dst = BitVec.ofNat 64 v ∧ sh = BitVec.ofNat 64 (v / 2 ^ 64)

theorem drains_with {s : State} (st : BitVec 1) (c a : BitVec 5) (m : BitVec 3) (v : Nat) {p : State → Bool}
    (h : (decide ((s.hart.getBs m).getLsbD 63 = true ∧ badDrain s.hart (s.getX c) (st == 1#1) a = false ∧ a ≠ 0#5 ∧
        (s.getX c).toNat / 2 ^ 21 % 4 ≠ 3 ∧ (s.getX a).toNat % 32 = 0 ∧ v < 2 ^ 256) &&
      succeeds (M.range .load (s.getX a) 32 s) (fun _ t0 => succeeds (M.engineRead (s.getX a) 32 t0)
        (fun x t1 => decide (x = (v, false)) && p t1))) = true) :
    ∃ t0 t1, DrainsWith s t0 t1 st c a m (s.hart.getBs m) (s.getX c) (BitVec.ofNat 64 v) (BitVec.ofNat 64 (v / 2 ^ 64)) v ∧ p t1 = true := by
  simp only [Bool.and_eq_true, decide_eq_true_eq] at h
  obtain ⟨⟨hs, hb, ha, hf, hx, hv⟩, h⟩ := h
  obtain ⟨⟨⟩, t0, e0, h⟩ := of_succeeds h
  obtain ⟨x, t1, e1, h⟩ := of_succeeds h
  simp only [Bool.and_eq_true, decide_eq_true_eq] at h
  obtain ⟨rfl, h⟩ := h
  exact ⟨t0, t1, ⟨rfl, hs, rfl, hb, ha, hf, hx, e0, e1, hv, rfl, rfl⟩, h⟩

theorem witness_bank_commands :
    (∃ (s t1 t : State) (m : BitVec 3) (p : BitVec 1) (a : BitVec 5) (set : Word) (n : Nat) (books : List (Nat × Bool)),
      set = s.hart.getBs m ∧ set.getLsbD 63 = true ∧ (s.getX a).toNat % 16 = 0 ∧ n = (if p = 1#1 then bsCount set else 1) ∧
      M.range .load (s.getX a) (16 * n) s = .ok ((), t1) ∧ readCodebooks (s.getX a) n t1 = .ok (books, t) ∧ t.mayIssue set) ∧
    (∃ (s t1 t : State) (m : BitVec 3) (a : BitVec 5) (set : Word) (v : Nat) (bad : Bool), set = s.hart.getBs m ∧ set.getLsbD 63 = true ∧
      (s.getX a).toNat % 32 = 0 ∧ M.range .load (s.getX a) 32 s = .ok ((), t1) ∧ M.engineRead (s.getX a) 32 t1 = .ok ((v, bad), t) ∧
      bad = false ∧ t.mayIssue set) ∧
    (∃ (s t0 t1 t2 t3 t4 : State) (m : BitVec 3) (a : BitVec 5) (set : Word) (v0 v1 v2 v3 : Nat), set = s.hart.getBs m ∧ set.getLsbD 63 = true ∧
      (s.getX a).toNat % 128 = 0 ∧ M.range .load (s.getX a) 128 s = .ok ((), t0) ∧
      M.engineRead (s.getX a) 32 t0 = .ok ((v0, false), t1) ∧ M.engineRead (s.getX a + 32#64) 32 t1 = .ok ((v1, false), t2) ∧
      M.engineRead (s.getX a + 64#64) 32 t2 = .ok ((v2, false), t3) ∧ M.engineRead (s.getX a + 96#64) 32 t3 = .ok ((v3, false), t4) ∧
      t4.mayIssue set ∧ v0 < 2 ^ 256 ∧ v1 < 2 ^ 256 ∧ v2 < 2 ^ 256 ∧ v3 < 2 ^ 256) ∧
    (∃ (s : State) (m : BitVec 3) (a : BitVec 5) (set : Word) (v start q : Nat), set = s.hart.getBs m ∧ set.getLsbD 63 = true ∧
      v = (s.getX a).toNat ∧ v < 2 ^ 39 ∧ v / 2 ^ 19 % 2 = 0 ∧ v / 2 ^ 29 % 2 = 0 ∧ start = v % 2 ^ 19 ∧ q = v / 2 ^ 20 % 512 + 1 ∧
      start + q ≤ 32 * bsSpan set ∧ s.mayIssue set) ∧
    (∃ (s : State) (m : BitVec 3) (a : BitVec 5) (set : Word) (v start q : Nat), set = s.hart.getBs m ∧ set.getLsbD 63 = true ∧
      v = (s.getX a).toNat ∧ v < 2 ^ 39 ∧ v / 2 ^ 19 % 2 = 0 ∧ v / 2 ^ 29 % 2 = 0 ∧ start = v % 2 ^ 19 ∧ q = v / 2 ^ 20 % 512 + 1 ∧
      32 * bsSpan set < start + q ∧ s.takesTraps) ∧
    (∃ (s : State) (c a : BitVec 5) (m : BitVec 3) (set w : Word), set = s.hart.getBs m ∧ set.getLsbD 63 = true ∧ w = s.getX c ∧
      badDrain s.hart w true a = false ∧ a = 0#5 ∧ w.toNat / 2 ^ 24 % 64 < s.hart.nregs ∧ s.mayIssue set) ∧
    (∃ (s : State) (c a : BitVec 5) (m : BitVec 3) (set w : Word), set = s.hart.getBs m ∧ set.getLsbD 63 = true ∧ w = s.getX c ∧
      badDrain s.hart w false a = false ∧ a = 0#5 ∧ s.mayIssue set) ∧
    -- a drain with a block: to memory, to a register with shifts of its own, with a misaligned DST
    (∃ (s t0 t1 t2 t3 t : State) (c a : BitVec 5) (m : BitVec 3) (set w dst sh : Word) (v : Nat), DrainsWith s t0 t1 0#1 c a m set w dst sh v ∧
      w.toNat / 2 ^ 21 % 4 = 0 ∧ dst.toNat % 4 = 0 ∧ t2 = t1 ∧ M.range .store dst (w.toNat / 2 ^ 10 % 2 ^ 11 * 4) t2 = .ok ((), t3) ∧
      t = t3 ∧ t.mayIssue set) ∧
    (∃ (s t0 t1 t2 t : State) (c a : BitVec 5) (m : BitVec 3) (set w dst sh : Word) (v : Nat) (shifts : List (BitVec 8)),
      DrainsWith s t0 t1 1#1 c a m set w dst sh v ∧ w.toNat / 2 ^ 24 % 64 < s.hart.nregs ∧ w.toNat / 2 ^ 21 % 4 = 2 ∧ dst.toNat % 4 = 0 ∧
      sh ≠ 0#64 ∧ M.range .load sh (w.toNat / 2 ^ 10 % 2 ^ 11) t1 = .ok ((), t2) ∧
      readShifts sh (w.toNat / 2 ^ 10 % 2 ^ 11) t2 = .ok (shifts, t) ∧ t.mayIssue set) ∧
    (∃ (s t0 t1 : State) (c a : BitVec 5) (m : BitVec 3) (set w dst sh : Word) (v : Nat), DrainsWith s t0 t1 0#1 c a m set w dst sh v ∧
      w.toNat / 2 ^ 21 % 4 = 0 ∧ dst.toNat % 4 ≠ 0 ∧ t1.takesTraps) ∧
    -- a drain of a set without V, and one whose block is misaligned
    (∃ (s : State) (c a : BitVec 5) (m : BitVec 3), s.takesTraps ∧ badDrain s.hart (s.getX c) false a = false ∧
      (s.hart.getBs m).getLsbD 63 = false) ∧
    (∃ (s : State) (c a : BitVec 5) (m : BitVec 3), s.takesTraps ∧ badDrain s.hart (s.getX c) false a = false ∧
      (s.hart.getBs m).getLsbD 63 = true ∧ a ≠ 0#5 ∧ (s.getX a).toNat % 32 ≠ 0) ∧
    (∃ (s : State) (m : BitVec 3), s.takesTraps ∧ (s.hart.getBs m).getLsbD 63 = false) ∧
    ∃ (s : State) (m : BitVec 3) (a : BitVec 5), s.takesTraps ∧ (s.hart.getBs m).getLsbD 63 = true ∧ (s.getX a).toNat % 16 ≠ 0 := by
  let s : State := sBank [0x500000#64]
  let d (w : Word) (v : Nat) : State := holding (sBank [0x500000#64, w]) 0x500000 (bytesOfNat 16 v)
  refine ⟨?_, ?_, ?_, ⟨sBank [], 0, 0, _, 0, 0, 1, rfl, by decide +kernel, by decide +kernel, by decide, by decide, by decide, by decide, by decide, by decide +kernel,
      room_ok (by decide +kernel)⟩,
    ⟨sBank [2048#64], 0, 1, _, 2048, 2048, 1, rfl, by decide +kernel, by decide +kernel, by decide, by decide, by decide, by decide, by decide, by decide +kernel,
      sBank_takes _⟩,
    ⟨sBank [0x1000400#64], 1, 0, 0, _, _, rfl, by decide +kernel, rfl, by decide +kernel, rfl, by decide +kernel, room_ok (by decide +kernel)⟩,
    ⟨sBank [0x600400#64], 1, 0, 0, _, _, rfl, by decide +kernel, rfl, by decide +kernel, rfl, room_ok (by decide +kernel)⟩, ?_, ?_, ?_,
    ⟨sBank [0x500000#64, 0x2400#64], 2, 1, 1, sBank_takes _, by decide +kernel, by decide +kernel⟩,
    ⟨sBank [0x500008#64, 0x2400#64], 2, 1, 0, sBank_takes _, by decide +kernel⟩,
    ⟨sBank [], 1, sBank_takes _, by decide +kernel⟩, ⟨sBank [8#64], 0, 1, sBank_takes _, by decide +kernel, by decide +kernel⟩⟩
  · obtain ⟨⟨⟩, t1, h, hp⟩ := of_succeeds (x := M.range .load (s.getX 1) (16 * 2) s)
      (p := fun _ t1 => succeeds (readCodebooks (s.getX 1) 2 t1) (fun _ t => room t)) (by decide +kernel)
    obtain ⟨books, t, h2, hp⟩ := of_succeeds hp
    exact ⟨s, t1, t, 0, 1, 1, _, 2, books, rfl, by decide +kernel, by decide +kernel, by decide +kernel, h, h2, room_ok hp⟩
  · obtain ⟨⟨⟩, t1, h, hp⟩ := of_succeeds (x := M.range .load (s.getX 1) 32 s)
      (p := fun _ t1 => succeeds (M.engineRead (s.getX 1) 32 t1) (fun v t => !v.2 && room t)) (by decide +kernel)
    obtain ⟨⟨v, bad⟩, t, h2, hp⟩ := of_succeeds hp
    simp only [Bool.and_eq_true, Bool.not_eq_true'] at hp
    exact ⟨s, t1, t, 0, 1, _, v, bad, rfl, by decide +kernel, by decide +kernel, h, h2, hp.1, room_ok hp.2⟩
  · obtain ⟨⟨⟩, t0, h, hp⟩ := of_succeeds (x := M.range .load (s.getX 1) 128 s)
      (p := fun _ t0 => succeeds (M.engineRead (s.getX 1) 32 t0) (fun v t1 => decide (v = (0, false)) &&
        succeeds (M.engineRead (s.getX 1 + 32#64) 32 t1) (fun v t2 => decide (v = (0, false)) &&
          succeeds (M.engineRead (s.getX 1 + 64#64) 32 t2) (fun v t3 => decide (v = (0, false)) &&
            succeeds (M.engineRead (s.getX 1 + 96#64) 32 t3) (fun v t4 => decide (v = (0, false)) && room t4))))) (by decide +kernel)
    obtain ⟨v0, t1, h0, hp⟩ := of_succeeds hp
    simp only [Bool.and_eq_true, decide_eq_true_eq] at hp
    obtain ⟨rfl, hp⟩ := hp
    obtain ⟨v1, t2, h1, hp⟩ := of_succeeds hp
    simp only [Bool.and_eq_true, decide_eq_true_eq] at hp
    obtain ⟨rfl, hp⟩ := hp
    obtain ⟨v2, t3, h2, hp⟩ := of_succeeds hp
    simp only [Bool.and_eq_true, decide_eq_true_eq] at hp
    obtain ⟨rfl, hp⟩ := hp
    obtain ⟨v3, t4, h3, hp⟩ := of_succeeds hp
    simp only [Bool.and_eq_true, decide_eq_true_eq] at hp
    obtain ⟨rfl, hp⟩ := hp
    have z : (0 : Nat) < 2 ^ 256 := by decide
    exact ⟨s, t0, t1, t2, t3, t4, 0, 1, _, 0, 0, 0, 0, rfl, by decide +kernel, by decide +kernel, h, h0, h1, h2, h3, room_ok hp, z, z, z, z⟩
  · obtain ⟨t0, t1, h, hp⟩ := drains_with (s := d 0x2400 0x500100) 0 2 1 0 0x500100
      (p := fun t1 => succeeds (M.range .store 0x500100#64 (9 * 4) t1) (fun _ t => room t)) (by decide +kernel)
    obtain ⟨⟨⟩, t, h2, hp⟩ := of_succeeds hp
    have e : ((d 0x2400 0x500100).getX 2).toNat / 2 ^ 10 % 2 ^ 11 = 9 := by decide +kernel
    exact ⟨d 0x2400 0x500100, t0, t1, t1, t, t, 2, 1, 0, _, _, _, _, _, h, by decide, by decide, rfl, (by rw [e]; exact h2), rfl, room_ok hp⟩
  · obtain ⟨t0, t1, h, hp⟩ := drains_with (s := d 0x1402400 0x5002000000000000000000) 1 2 1 0 0x5002000000000000000000
      (p := fun t1 => succeeds (M.range .load 0x500200#64 9 t1) (fun _ t2 => succeeds (readShifts 0x500200#64 9 t2) (fun _ t => room t))) (by decide +kernel)
    obtain ⟨⟨⟩, t2, h2, hp⟩ := of_succeeds hp
    obtain ⟨l, t, h3, hp⟩ := of_succeeds hp
    have e : ((d 0x1402400 0x5002000000000000000000).getX 2).toNat / 2 ^ 10 % 2 ^ 11 = 9 := by decide +kernel
    exact ⟨d 0x1402400 0x5002000000000000000000, t0, t1, t2, t, 2, 1, 0, _, _, _, _, _, l, h, by decide +kernel, by decide, by decide, by decide,
      (by rw [e]; exact h2), (by rw [e]; exact h3), room_ok hp⟩
  · obtain ⟨t0, t1, h, hp⟩ := drains_with (s := d 0x2400 0x500102) 0 2 1 0 0x500102 (p := takes) (by decide +kernel)
    exact ⟨d 0x2400 0x500102, t0, t1, 2, 1, 0, _, _, _, _, _, h, by decide, by decide, takes_traps hp⟩

/-- A TBLD descriptor in x2 and x3: set bs0, k0, a window of 4, one class of 2 bits in groups of 2 (or of 8). -/
def sTable (g : Nat) : State := sBank [0#64, 0x30000#64, BitVec.ofNat 64 (1 + 2 + 8 * (g - 1))]

/-- A bank whose shape is one class of 2 bits in groups of 2 over a window of 4. -/
def classA : ColClass := ⟨0, 2, 2, 0, 0, 0⟩
def shapeA : Shape := ⟨[classA], 4⟩

theorem witness_tables :
    (∃ (s : State) (md : BitVec 2) (f : BitVec 1) (v : BitVec 6) (c : BitVec 5) (d0 kw : Nat) (d1 set : Word) (l : List ClassReq) (n : Nat),
      c.toNat % 2 = 0 ∧ c ≠ 0#5 ∧ (s.mode md).etype = 0 ∧ d0 = (s.getX c).toNat ∧ d1 = s.getX (c + 1#5) ∧ d0 < 2 ^ 27 ∧ d0 / 2 ^ 23 % 2 = 0 ∧
      d0 / 8 % 2 = 0 ∧ d1.toNat < 2 ^ 40 ∧ badClasses (classReqs d1) = false ∧ set = s.hart.getBs (BitVec.ofNat 3 d0) ∧
      set.getLsbD 63 = true ∧ s.hart.specFails (s.mode md) 8 v.toNat = none ∧ kw = d0 / 2 ^ 16 % 128 + 1 ∧
      fitShape kw (f == 1#1) (classReqs d1) = .ok (l, n) ∧ s.cleanVectors ∧ s.mayIssue set ∧ n ≤ 16) ∧
    (∃ (s : State) (md : BitVec 2) (f : BitVec 1) (v : BitVec 6) (c : BitVec 5) (d0 kw : Nat) (d1 set : Word) (n k : Nat),
      c.toNat % 2 = 0 ∧ c ≠ 0#5 ∧ (s.mode md).etype = 0 ∧ d0 = (s.getX c).toNat ∧ d1 = s.getX (c + 1#5) ∧ d0 < 2 ^ 27 ∧ d0 / 2 ^ 23 % 2 = 0 ∧
      d0 / 8 % 2 = 0 ∧ d1.toNat < 2 ^ 40 ∧ badClasses (classReqs d1) = false ∧ set = s.hart.getBs (BitVec.ofNat 3 d0) ∧
      set.getLsbD 63 = true ∧ s.hart.specFails (s.mode md) 8 v.toNat = none ∧ kw = d0 / 2 ^ 16 % 128 + 1 ∧
      fitShape kw (f == 1#1) (classReqs d1) = .error (n, k) ∧ s.takesTraps) ∧
    ∃ (k : Bank) (sh : Shape) (q nq o col : Nat) (c : ColClass), k.soundAcc ∧ k.soundBushel ∧ sh.classes[o]? = some c ∧ col < 2 ∧ q < nq ∧
      2 * nq * sh.classes.length ≤ 1024 := by
  have ok : ∀ {x : Except (Nat × Nat) (List ClassReq × Nat)}, (match x with | .ok a => decide (a.2 ≤ 16) | .error _ => false) = true →
      ∃ l n, x = .ok (l, n) ∧ n ≤ 16 := by
    intro x h
    match x, h with
    | .ok (l, n), h => exact ⟨l, n, rfl, of_decide_eq_true h⟩
  have bad : ∀ {x : Except (Nat × Nat) (List ClassReq × Nat)}, (match x with | .ok _ => false | .error _ => true) = true →
      ∃ n k, x = .error (n, k) := by
    intro x h
    match x, h with
    | .error (n, k), _ => exact ⟨n, k, rfl⟩
  obtain ⟨l, n, h, hn⟩ := ok (x := fitShape 4 false (classReqs ((sTable 2).getX (2 + 1#5)))) (by decide +kernel)
  obtain ⟨m, k, h2⟩ := bad (x := fitShape 4 false (classReqs ((sTable 8).getX (2 + 1#5)))) (by decide +kernel)
  exact ⟨⟨sTable 2, 0, 0, 1, 2, 0x30000, 4, _, _, l, n, by decide, by decide, by decide +kernel, by decide +kernel, rfl, by decide, by decide, by decide, by decide +kernel,
      by decide +kernel, rfl, by decide +kernel, by decide +kernel, by decide, h, ⟨by decide +kernel, by decide +kernel, by decide +kernel⟩, room_ok (by decide +kernel), hn⟩,
    ⟨sTable 8, 0, 0, 1, 2, 0x30000, 4, _, _, m, k, by decide, by decide, by decide +kernel, by decide +kernel, rfl, by decide, by decide, by decide, by decide +kernel,
      by decide +kernel, rfl, by decide +kernel, by decide +kernel, by decide, h2, sBank_takes _⟩,
    ⟨Bank.reset, shapeA, 0, 1, 0, 0, classA, by unfold Bank.soundAcc; decide +kernel, by unfold Bank.soundBushel; decide +kernel, rfl, by decide, by decide, by decide⟩⟩

/-- Bank 5 as given, in focus. -/
def sWith (k : Bank) : State := ({ base with bankSel := 5 } : State).setBank 5 k
def running : Bank := { Bank.reset with run := .program 7 0 64, shape := some shapeA }

/-- The same with a µPC of its own. -/
def sMicroAt (h : BitVec 16) (upc : Nat) : State :=
  let s := sMicro h
  s.setBank 5 { s.bank 5 with upc := upc }

theorem witness_micro_ops :
    (∃ (s : State) (n : BitVec 2) (r : Nat) (k : Bank) (sh : Shape), RowReady s n r ∧ k = s.bank s.bankSel ∧ k.soundAcc ∧ k.soundBushel ∧
      k.shape = some sh) ∧
    (∃ (s : State) (b cmd row span : Nat) (k : Bank) (n : BitVec 2), b = s.bankSel ∧ k = s.bank b ∧ k.run = .program cmd row span ∧ span ≤ (k.ptr n).toNat) ∧
    (∃ (s : State) (b cmd row span : Nat) (k : Bank) (n : BitVec 2), b = s.bankSel ∧ k = s.bank b ∧ k.run = .program cmd row span ∧ (k.ptr n).toNat < span ∧
      k.shape = none) ∧
    (∃ (s t : State) (b cmd row span : Nat) (k : Bank), s.agenda = [.bank b] ∧ t = ({ s with agenda := [] } : State).clock ∧ k = t.bank b ∧
      k.run = .program cmd row span ∧ 64 ≤ k.upc) ∧
    ∃ (s t : State) (b cmd row span : Nat) (k : Bank) (h : BitVec 16) (e : DecodeError), s.agenda = [.bank b] ∧
      t = ({ s with agenda := [] } : State).clock ∧ k = t.bank b ∧ k.run = .program cmd row span ∧ h = BitVec.ofNat 16 (getElt k.micro 16 k.upc) ∧
      k.upc < 64 ∧ k.microPsn.getLsbD k.upc = false ∧ decodeMicroBytes [h.extractLsb' 0 8, h.extractLsb' 8 8] = .error e :=
  ⟨⟨sWith running, 1, 0, _, shapeA, ⟨⟨7, 0, 64, by decide +kernel, by decide +kernel, by decide +kernel⟩, by decide +kernel, by decide +kernel⟩, rfl,
      by unfold Bank.soundAcc; decide +kernel, by unfold Bank.soundBushel; decide +kernel,
      by decide +kernel⟩,
    ⟨sWith { running with p := running.p.set 1 64#14 }, 5, 7, 0, 64, _, 1, rfl, rfl, by decide +kernel, by decide +kernel⟩,
    ⟨sWith { running with shape := none }, 5, 7, 0, 64, _, 1, rfl, rfl, by decide +kernel, by decide +kernel, by decide +kernel⟩,
    ⟨sMicroAt 0 64, _, 5, 7, 0, 64, _, rfl, rfl, rfl, by decide +kernel, by decide +kernel⟩,
    ⟨sMicroAt 0xF000 0, _, 5, 7, 0, 64, _, 0xF000, .reservedMicroOp 0xF, rfl, rfl, rfl, by decide +kernel⟩⟩

/-- A command on bank 5 alone, and one that every bank of its set has ended. -/
def cmdA (ended : Bool) : Cmd :=
  { id := 7, uid := 1, asid := 1, k := 3, bank := 5, count := 1, state := [(5, 0, ended)], counted := 0,
    drain := some (0x1000400#64, 0#256, []), stream := true, badSums := [] }
def reqA (v : Option (BitVec 256)) : OrdReq := ⟨1, 2, 32, 8, v, 0xFF, false, none, 1⟩

theorem witness_bank_events :
    (∃ (s : State) (b : Nat) (k : Bank) (c : BankCmd) (rest : List BankCmd), k = s.bank b ∧ k.run = .idle ∧
      k.queue = c :: rest ∧ ∀ q ∈ rest, q.cmd ≠ c.cmd) ∧
    (∃ (c : ColClass) (kw : Nat) (ds : List Int) (j p : Nat), 1 ≤ c.b ∧ c.b ≤ 4 ∧ 1 ≤ c.g ∧ c.g ≤ 8 ∧ c.b * c.g ≤ 12 ∧ c.sub = 0 ∧
      c.pecks kw * pecksSize c.b c.g ≤ 16 ∧ ds.length = kw ∧ (∀ d ∈ ds, -255 ≤ d ∧ d ≤ 255) ∧ j < c.pecks kw ∧ p < 2 ^ (c.b * c.g)) ∧
    (∃ (s : State) (c : Cmd) (h : Hart), s.cmdOf c.id = some c ∧ c.ended = true ∧ s.unacked c.id = false ∧ s.hartOf c.uid = some h) ∧
    (∃ (s : State) (b : Nat) (r : OrdReq) (rest : List OrdReq), (s.bank b).moving = none ∧ (s.bank b).pending = r :: rest ∧
      s.engineRow b = false) ∧
    (∃ (s : State) (b : Nat) (r : OrdReq) (rest : List OrdReq), (s.bank b).moving = none ∧ (s.bank b).pending = r :: rest ∧
      (s.bank b).resumed = false ∧ s.engineRow b = true ∧ (s.bank b).susp = true ∧ (s.bank b).started = 15) ∧
    (∃ (s : State) (b cmd start q abase row done hi : Nat) (sh : Shape) (k : Bank), k = s.bank b ∧ k.moving = none ∧ k.pending = [] ∧
      k.susp = false ∧ s.bankHeld b = false ∧ k.run = .lookup cmd start q abase row done ∧ k.shape = some sh ∧ k.soundAcc ∧
      k.soundBushel ∧ k.mismatched = [] ∧ hi = Min.min (q - done) (32 - (start + done) % 32) ∧ done + hi < q) ∧
    (∃ (s : State) (b cmd start q abase row done hi : Nat) (sh : Shape) (k : Bank), k = s.bank b ∧ k.moving = none ∧ k.pending = [] ∧
      k.susp = false ∧ s.bankHeld b = false ∧ k.run = .lookup cmd start q abase row done ∧ k.shape = some sh ∧ k.soundAcc ∧
      k.soundBushel ∧ k.mismatched = [] ∧ hi = Min.min (q - done) (32 - (start + done) % 32) ∧ q ≤ done + hi) ∧
    (∃ (s : State) (b : Nat) (r : OrdReq) (pa : Nat) (v : BitVec 256), (s.bank b).moving = some r ∧ pa = s.rowPa b r.row + r.byte ∧ r.scrub = none ∧
      r.store = some v ∧ r.byte % 128 + 32 ≤ 128 ∧ Memory.wf s.mm.bytes = true ∧ s.tagAddr (pa / 128) = none) ∧
    (∃ (s : State) (b : Nat) (r : OrdReq), (s.bank b).moving = some r ∧ r.scrub = none ∧ r.store = none ∧
      s.fab.atBank.find? (fun e => e.1 == r.uid) = none) ∧
    ∃ (s : State) (b : Nat), (s.bank b).susp = true ∧ (s.bank b).moving = none := by
  have sound : ∀ (s : State) (k : Bank), k = s.bank 5 → (List.range 1024).all (fun n => !k.badResidue n) = true → k.soundAcc :=
    fun _ _ _ h n hn => by simpa using List.all_eq_true.1 h n (List.mem_range.2 hn)
  let look (q : Nat) : Bank := { running with run := .lookup 7 30 q 0 0 0 }
  exact ⟨⟨sWith { Bank.reset with queue := [⟨7, .codebook 5 0⟩] }, 5, _, ⟨7, .codebook 5 0⟩, [], rfl, by decide +kernel, by decide +kernel, by intro q hq; cases hq⟩,
    ⟨⟨0, 2, 4, 0, 0, 0⟩, 4, [255, -255, 0, 1], 0, 255, by decide⟩,
    ⟨{ base with cmds := [cmdA true] }, cmdA true, base.hart, by decide +kernel⟩,
    ⟨sWith { Bank.reset with pending := [reqA none] }, 5, reqA none, [], by decide +kernel, by decide +kernel, by decide +kernel⟩,
    ⟨sWith { look 9 with pending := [reqA none], susp := true, started := 15 }, 5, reqA none, [], by decide +kernel⟩,
    ⟨sWith (look 9), 5, 7, 30, 9, 0, 0, 0, 2, shapeA, _, rfl, by decide +kernel, by decide +kernel, by decide +kernel, by decide +kernel, by decide +kernel, by decide +kernel,
      sound _ _ rfl (by decide +kernel), by unfold Bank.soundBushel; decide +kernel, by decide +kernel, by decide, by decide⟩,
    ⟨sWith (look 2), 5, 7, 30, 2, 0, 0, 0, 2, shapeA, _, rfl, by decide +kernel, by decide +kernel, by decide +kernel, by decide +kernel, by decide +kernel, by decide +kernel,
      sound _ _ rfl (by decide +kernel), by unfold Bank.soundBushel; decide +kernel, by decide +kernel, by decide, by decide⟩,
    ⟨sWith { Bank.reset with moving := some (reqA (some 9)) }, 5, reqA (some 9), _, 9, by decide +kernel, rfl, rfl, rfl, by decide, by decide +kernel, by decide +kernel⟩,
    ⟨sWith { Bank.reset with moving := some (reqA none) }, 5, reqA none, by decide +kernel, rfl, rfl, rfl⟩,
    ⟨sWith { Bank.reset with susp := true }, 5, by decide +kernel, by decide +kernel⟩⟩

theorem witness_drains :
    (∃ (s : State) (c : Cmd) (j : Nat), j ∈ c.badSums ∧ (∀ i < c.count, (s.bank (c.bank + i)).badResidue j = false) ∧ j < 1024) ∧
    (∃ (s : State) (c : Cmd) (w : Word) (block : BitVec 256) (shifts : List (BitVec 8)) (first count form : Nat),
      s.cmdOf c.id = some c ∧ c.drain = some (w, block, shifts) ∧ s.drainDue c = true ∧ c.count ≤ 4096 ∧ block.toNat < 2 ^ 160 ∧ c.badSums = [] ∧
      first = w.toNat % 1024 ∧ count = w.toNat / 2 ^ 10 % 2048 ∧ form = w.toNat / 2 ^ 21 % 4 ∧ first + count ≤ 1024 ∧
      (∀ i < c.count, (s.bank (c.bank + i)).soundAcc ∧ (s.bank (c.bank + i)).accPsn = 0#1024) ∧
      c.stream = true ∧ form ≠ 3 ∧ c.uid = s.hart.uid ∧ count * (if form = 1 then 64 else 32) ≤ 262144 ∧ w.toNat / 2 ^ 24 % 64 < 48) ∧
    (∃ (s : State) (c : Cmd) (w : Word) (block : BitVec 256) (shifts : List (BitVec 8)) (first count form : Nat),
      s.cmdOf c.id = some c ∧ c.drain = some (w, block, shifts) ∧ s.drainDue c = true ∧ c.count ≤ 4096 ∧ block.toNat < 2 ^ 160 ∧ c.badSums = [] ∧
      first = w.toNat % 1024 ∧ count = w.toNat / 2 ^ 10 % 2048 ∧ form = w.toNat / 2 ^ 21 % 4 ∧ first + count ≤ 1024 ∧
      (∀ i < c.count, (s.bank (c.bank + i)).soundAcc ∧ (s.bank (c.bank + i)).accPsn = 0#1024) ∧ c.stream = false ∧ form = 3) ∧
    ∃ (s t : State) (c : Cmd) (w : Word) (block : BitVec 256) (shifts : List (BitVec 8)) (first count form : Nat) (sum : Nat → Int),
      s.cmdOf c.id = some c ∧ c.drain = some (w, block, shifts) ∧ s.drainDue c = true ∧ c.count ≤ 4096 ∧ block.toNat < 2 ^ 160 ∧ c.badSums = [] ∧
      first = w.toNat % 1024 ∧ count = w.toNat / 2 ^ 10 % 2048 ∧ form = w.toNat / 2 ^ 21 % 4 ∧ first + count ≤ 1024 ∧
      (∀ i < c.count, (s.bank (c.bank + i)).soundAcc ∧ (s.bank (c.bank + i)).accPsn = 0#1024) ∧
      sum = (fun (j : Nat) => ((List.range c.count).map (fun i => (s.bank (c.bank + i)).accAt j)).sum) ∧ c.stream = false ∧ form = 0 ∧
      engineWrites (s.engineWho c) 4096 (BitVec.ofNat 64 block.toNat)
        ((List.range count).flatMap (fun n => (bytesOfNat 4 (ofSigned 32 (clampTo 32 (sum (first + n))))).map (fun b => (b, false)))) s
        = .ok ((), t) := by
  let drain (c : Cmd) : State := { (sWith { Bank.reset with queue := [⟨7, .drain⟩] }) with cmds := [c] }
  let clear : Cmd := { cmdA false with stream := false, drain := some (0x600400#64, 0#256, []) }
  let store : Cmd := { cmdA false with stream := false, drain := some (0x1000#64, 0x500100#256, []) }
  have sound : ∀ (k : Bank), (List.range 1024).all (fun n => !k.badResidue n) = true → k.soundAcc :=
    fun _ h n hn => by simpa using List.all_eq_true.1 h n (List.mem_range.2 hn)
  have banks : ∀ c : Cmd, (drain c).bank 5 = { Bank.reset with queue := [⟨7, .drain⟩] } → c.bank = 5 → c.count = 1 →
      ∀ i < c.count, ((drain c).bank (c.bank + i)).soundAcc ∧ ((drain c).bank (c.bank + i)).accPsn = 0#1024 := by
    intro c hb h5 h1 i hi
    obtain rfl : i = 0 := by omega
    rw [h5, Nat.add_zero, hb]
    exact ⟨sound _ (by decide +kernel), rfl⟩
  refine ⟨⟨drain (cmdA false), { cmdA false with badSums := [1023] }, 1023, by decide +kernel, by
      intro i hi
      obtain rfl : i = 0 := by have : i < 1 := hi; omega
      decide +kernel, by decide⟩,
    ⟨drain (cmdA false), cmdA false, 0x1000400#64, 0#256, [], 0, 1, 0, by decide +kernel, rfl, by decide +kernel, by decide, by decide, rfl, by decide, by decide, by decide,
      by decide, banks _ (by decide +kernel) rfl rfl, rfl, by decide +kernel⟩,
    ⟨drain clear, clear, 0x600400#64, 0#256, [], 0, 1, 3, by decide +kernel, rfl, by decide +kernel, by decide, by decide, rfl, by decide, by decide, by decide,
      by decide, banks _ (by decide +kernel) rfl rfl, rfl, rfl⟩, ?_⟩
  obtain ⟨⟨⟩, t, h, _⟩ := of_succeeds (x := engineWrites ((drain store).engineWho store) 4096 0x500100#64
      ((List.range 4).flatMap (fun n => (bytesOfNat 4 (ofSigned 32 (clampTo 32
        (((List.range store.count).map (fun i => ((drain store).bank (store.bank + i)).accAt (0 + n))).sum)))).map (fun b => (b, false)))) (drain store))
    (p := fun _ _ => true) (by decide +kernel)
  exact ⟨drain store, t, store, 0x1000#64, 0x500100#256, [], 0, 4, 0, _, by decide +kernel, rfl, by decide +kernel, by decide, by decide, rfl, by decide, by decide, by decide,
      by decide, banks _ (by decide +kernel) rfl rfl, rfl, rfl, rfl, h⟩

/-! ## Tile copies -/

/-- A copy of two rows of four dwords from 0x500000 to 0x500800; x4 to x7 hold its quad. -/
def sCopy (src : Word) : State := trapX [0#64, 0#64, 0#64, src, 0x500800#64, 0x4000000040#64, 0x3003001#64]
def copyA (row : Nat) : Copy :=
  { id := 9, uid := 1, place := ⟨0, 0, 0⟩, asid := 1, pc := 0x400000#64, k := 2, src := 0x500000#64, dst := 0x500800#64,
    strides := 0x4000000040#64, shape := 0x3003001#64, row := row, got := [], put := 0, range := none }
def sCopying (row : Nat) : State := { base with copies := [copyA row] }

/-- A copy into the scratchpad range. -/
def sPadCopy : State := trapX [0#64, 0#64, 0#64, 0x500000#64, 0x2000000000#64, 0x4000000040#64, 0x3003001#64]

/-- The copy that a TCOPY would issue. -/
def issued (s : State) (k : BitVec 4) (x : BitVec 5) : Copy :=
  { id := s.fresh, uid := s.hart.uid, place := s.hart.place, asid := s.hart.asid, pc := s.hart.pc, k := k.toNat,
    src := s.getX x, dst := s.getX (x + 1#5), strides := s.getX (x + 2#5), shape := s.getX (x + 3#5),
    row := (s.getX (x + 3#5)).toNat / 2 ^ 32 % 4096, got := [], put := 0, range := none }

theorem witness_copy_issue :
    (∃ (s : State) (k : BitVec 4) (x : BitVec 5), x.toNat % 4 = 0 ∧ x ≠ 0#5 ∧ (issued s k x).reserved = false ∧ (issued s k x).misaligned = none ∧
      (issued s k x).src.toNat < 2 ^ 57 ∧ (issued s k x).dst.toNat < 2 ^ 57 ∧ s.unacked s.hart.uid = false ∧
      s.meetsScratch s.hart.asid ((issued s k x).span (issued s k x).row) = false) ∧
    (∃ (s : State) (k : BitVec 4) (x : BitVec 5), x.toNat % 4 = 0 ∧ x ≠ 0#5 ∧ (issued s k x).reserved = false ∧ (issued s k x).misaligned = none ∧
      (issued s k x).src.toNat < 2 ^ 57 ∧ (issued s k x).dst.toNat < 2 ^ 57 ∧ s.unacked s.hart.uid = false ∧
      s.meetsScratch s.hart.asid ((issued s k x).span (issued s k x).row) = true ∧
      (s.copies.filter (fun d => d.place.die == s.hart.place.die && d.place.core == s.hart.place.core && d.range.isSome)).length = 15) ∧
    (∃ (s : State) (k : BitVec 4) (x : BitVec 5) (va : Word), x.toNat % 4 = 0 ∧ x ≠ 0#5 ∧ (issued s k x).reserved = false ∧ s.takesTraps ∧
      (issued s k x).misaligned = some va) ∧
    ∃ (s : State) (k : BitVec 4) (x : BitVec 5), x.toNat % 4 = 0 ∧ x ≠ 0#5 ∧ (issued s k x).reserved = false ∧ s.takesTraps ∧
      (issued s k x).misaligned = none ∧ 2 ^ 57 ≤ (issued s k x).src.toNat :=
  ⟨⟨sCopy 0x500000, 2, 4, by decide +kernel⟩,
    ⟨{ sPadCopy with copies := List.replicate 15 { copyA 0 with range := some (0, 1) } }, 2, 4, by decide +kernel⟩,
    ⟨sCopy 0x500001, 2, 4, 0x500001, by decide, by decide, by decide +kernel, trapX_takes _, by decide +kernel⟩,
    ⟨sCopy 0x200000000000000, 2, 4, by decide, by decide, by decide +kernel, trapX_takes _, by decide +kernel, by decide +kernel⟩⟩

/-- An engine's access ends, with a fact of what it gives. -/
def ends {α : Type} (x : EngineEnd α) (p : α → State → Bool) : Bool :=
  match x with
  | .done a t => p a t
  | _ => false

theorem of_ends {α : Type} {x : EngineEnd α} {p : α → State → Bool} (h : ends x p = true) : ∃ a t, x = .done a t ∧ p a t = true := by
  unfold ends at h
  split at h
  · exact ⟨_, _, rfl, h⟩
  · exact absurd h Bool.false_ne_true

/-- The second row of the copy as it moves. -/
def sRow : State := { sCopying 1 with copyLast := putSlotServed (sCopying 1).copyLast (copyA 1).place }

theorem witness_copy_row :
    (∃ (s s0 t1 t : State) (c : Copy) (l : List Byte) (who : Who) (n : Nat), s.copyOf c.id = some c ∧ s.copyDue c = true ∧
      s0 = { s with copyLast := putSlotServed s.copyLast c.place } ∧ who = ⟨c.id, c.place.die, c.place.core, c.asid⟩ ∧
      copyRead who 4097 (c.src + BitVec.ofInt 64 (c.row * c.srcStride) + BitVec.ofNat 64 c.got.length)
        (c.cols * c.unit - c.got.length) c.got s0 = .done l t1 ∧
      copyWrite who ((c.pieces l).drop c.put) c.put t1 = .done n t) ∧
    ∃ (c : Copy) (l : List Byte), l.length = c.cols * c.unit ∧ c.transposed = false ∧ ∃ p rest, c.pieces l = p :: rest := by
  refine ⟨?_, copyA 1, List.replicate 32 1#8, by decide +kernel, by decide +kernel, ?_⟩
  · have hs : (copyA 1).src + BitVec.ofInt 64 ((copyA 1).row * (copyA 1).srcStride) + BitVec.ofNat 64 (copyA 1).got.length = 0x500040#64 := by decide +kernel
    have hc : (copyA 1).cols * (copyA 1).unit - (copyA 1).got.length = 32 := by decide +kernel
    obtain ⟨l, t1, h1, hp⟩ := of_ends (x := copyRead ⟨9, 0, 0, 1⟩ 4097 0x500040#64 32 [] sRow)
      (p := fun l t1 => ends (copyWrite ⟨9, 0, 0, 1⟩ (((copyA 1).pieces l).drop 0) 0 t1) (fun _ _ => true)) (by decide +kernel)
    obtain ⟨n, t, h2, _⟩ := of_ends hp
    refine ⟨sCopying 1, sRow, t1, t, copyA 1, l, ⟨9, 0, 0, 1⟩, n, by decide +kernel, by decide +kernel, rfl, rfl, ?_, h2⟩
    rw [hs, hc]; exact h1
  · match h : (copyA 1).pieces (List.replicate 32 1#8) with
    | [] => exact absurd h (by decide +kernel)
    | p :: rest => exact ⟨p, rest, rfl⟩

theorem witness_copy_ends :
    (∃ (s : State) (c : Copy) (h : Hart), s.copyOf c.id = some c ∧ c.rows ≤ c.row ∧ s.unacked c.id = false ∧ s.hartOf c.uid = some h) ∧
    (∃ (s : State) (c : Copy) (h : Hart), s.copyOf c.id = some c ∧ s.hartOf c.uid = some h ∧ h.copyFault = none) ∧
    ∃ (s : State) (c : Copy) (h : Hart), s.copyOf c.id = some c ∧ s.hartOf c.uid = some h ∧ h.copyFault ≠ none := by
  let g : Hart := { base.hart with copyFault := some ⟨8, 0, 1, 5, 0, 0⟩ }
  exact ⟨⟨sCopying 2, copyA 2, base.hart, by decide +kernel⟩,
    ⟨sCopying 1, copyA 1, base.hart, by decide +kernel, by decide +kernel, rfl⟩,
    ⟨{ sCopying 1 with hart := g }, copyA 1, g, by decide +kernel, by decide +kernel, by intro h; cases h⟩⟩


/-! ## Placement, harts, queues, walks -/

/-- A launch packet of one hart at PC 0x400000 with a vector length of 128, and a barrier packet that sets token 0. -/
def packetA : Line := BitVec.ofNat 1024 (1 + 0x400000 * 2 ^ 192 + 0x500000 * 2 ^ 256 + (1 + 7 * 2 ^ 36 + 7 * 2 ^ 40) * 2 ^ 320)
def packetB : Line := BitVec.ofNat 1024 (2 + 1 * 2 ^ 128)
/-- The control block of a queue of address space 1 whose ring of 16 packets stands at 0x600000. -/
def qcbA (hi : Nat) : Line := BitVec.ofNat 1024 (0x600000 + (4 + 2 ^ 8 + 2 ^ 16) * 2 ^ 64 + hi)
def slotA (window : List Entry) (write read : Nat) : Slot := ⟨0, 0, 3, write, read, 0, 0#64, window, 0⟩
def entryA (idx : Nat) (p : Line) (launched : Bool) : Entry := { Entry.fresh idx p with launched := launched }
/-- A machine of 8 queues whose queue 3 is mapped, with packet 0 of its ring in memory. -/
def sRing (p q : Line) (slots : List Slot) : State :=
  { base with fe := { base.fe with qcount := 4096, qcbCache := [(0, 3, q)], slots := slots },
              mm := { base.mm with bytes := Memory.write base.mm.bytes 0x600000 (bytesOfNat 128 p.toNat) } }
def sQueue : List Slot → State := sRing packetA (qcbA 0)
/-- The job of `base` with a kernel registered at 0x400000 for vector lengths 128 to 256, and a paged region. -/
def sJob : State :=
  { base with fe := { base.fe with jobs := base.fe.jobs.map (fun j => { j with kernels := [(0x400000#64, 7, 8)], paged := [(0x700000, 0x1000)] }) } }

theorem witness_placement :
    (∃ (s : State) (t : Slot) (e : Entry) (i : Nat) (h : Hart), h = s.newHart t e i ∧ s.rangeRefused h = false) ∧
    (∃ (p : Line) (i : Nat), i < pkHarts p) ∧
    (∃ (s : State) (d core v slot n : Nat), s.frontEndAt d = true ∧ s.planesMove = true ∧ s.waitingOn d = [.saved s.hart n] ∧
      s.whereTo d s.hart true = some (core, v) ∧ s.freeHartSlot d core = some slot ∧ (∀ h ∈ s.harts, h.league = none)) ∧
    (∃ s : State, s.frontEndAt (s.dieOf s.hart.uid) = true ∧ s.planesMove = true ∧ s.hart.isResident = true ∧ s.hart.matQ = [] ∧
      s.hart.trapWaits = false ∧ (∀ c ∈ s.copies, c.uid ≠ s.hart.uid) ∧
      (∀ c ∈ s.cmds, c.stream = true → c.uid ≠ s.hart.uid) ∧ s.hart.furlong = none ∧ s.hart.strip = [] ∧
      s.unacked s.hart.uid = false ∧ s.midRemote s.hart.uid = false) ∧
    (∃ s : State, s.hart.isReady = true ∧ 64 ≤ s.hart.waitCount ∧ s.hart.promoted = 0) := by
  let q : State := { sJob with fe := { sJob.fe with qcount := 8, qcbCache := [(0, 3, qcbA 0)] } }
  let w : State := { base with hart := { base.hart with phase := .waiting } }
  exact ⟨⟨q, slotA [] 0 0, Entry.fresh 0 packetA, 0, _, rfl, by decide +kernel⟩,
    ⟨packetA, 0, by decide +kernel⟩,
    ⟨w, 0, 0, w.hart.vlMax, 0, 0, by decide +kernel, by decide +kernel, rfl, by decide +kernel, by decide +kernel, by decide +kernel⟩,
    ⟨base, by decide +kernel, by decide +kernel, by decide +kernel, rfl, by decide +kernel, by decide +kernel, by decide +kernel, rfl, rfl, by decide +kernel,
      by decide +kernel⟩,
    ⟨{ base with hart := { base.hart with waitCount := 64 } }, by decide +kernel, by decide, rfl⟩⟩

/-- A hart that was pre-empted and waits, and the first hart of a launched packet that has never been placed. -/
theorem witness_priority :
    (∃ (s : State) (uid d c : Nat) (w : Waiting) (l : List Hart), s.waitingHart (.saved uid) = some (d, w) ∧ s.frontEndAt d = true ∧
      s.planesMove = true ∧
      s.roomOn d (s.needOf w) (w.lengths (s.needOf w)) (fun g => decide (g.prio < (s.needOf w).prio)) = some (c, l)) ∧
    ∃ (s : State) (qid idx d c : Nat) (w : Waiting) (l : List Hart), s.waitingHart (.fresh d qid idx) = some (d, w) ∧ s.frontEndAt d = true ∧
      s.planesMove = true ∧
      s.roomOn d (s.needOf w) (w.lengths (s.needOf w)) (fun g => decide (g.prio < (s.needOf w).prio)) = some (c, l) := by
  let w : State := { base with hart := { base.hart with phase := .waiting } }
  let e : Entry := { entryA 0 packetA true with order := 0, ranges := [⟨0, 0, 1⟩] }
  let q : State := sQueue [slotA [e] 1 1]
  exact ⟨⟨w, 1, 0, 0, .saved w.hart (w.launchOrder w.hart), [], rfl, by decide +kernel, by decide +kernel, by decide +kernel⟩,
    ⟨q, 3, 0, 0, 0, .fresh (slotA [e] 1 1) e ⟨0, 0, 1⟩, [], rfl, by decide +kernel, by decide +kernel, by decide +kernel⟩⟩

def faultA : FaultVals := { cause := 5#8, vec := false, epc := 0x400000#64, elem := 0, va := 0x700008#64, stride := 0#64, remain := 0#64, given := true }
/-- The hart of `sA` after a watchdog limit of 16: by 16 counts, or past its grace. -/
def sLate (expired : Bool) : State :=
  { sT with hart := { sT.hart with csr := { sT.hart.csr with wdLimit := 16#64, runCount := if expired then 0x20000#64 else 0x20#64 }, expired := expired } }
theorem sLate_takes : (sLate false).takesTraps :=
  let t := trapX_takes [0x500000#64, 7#64]
  ⟨t.1, t.2.1, t.2.2.1, t.2.2.2.1, t.2.2.2.2.1, by decide +kernel⟩

theorem witness_hart_events :
    (∃ (s : State) (k : List Word) (p : List (BitVec 32)), s.hart.wait = .wfi k p ∧ s.hart.isResident = true ∧ s.hart.dbgHalted = false ∧
      s.hart.watchdogDue = false) ∧
    (∃ s : State, s.hart.isResident = true ∧ s.hart.dbgHalted = false ∧ s.hart.trapWaits = false ∧ s.hart.expired = false ∧ s.hart.csr.wdLimit ≠ 0#64 ∧
      s.hart.csr.wdLimit.toNat ≤ s.hart.csr.runCount.toNat ∧ s.midRemote s.hart.uid = false ∧ s.takesTraps ∧
      s.hart.csr.runCount.toNat < s.hart.csr.wdLimit.toNat + 65536 ∧ s.hart.startElem = 0) ∧
    (∃ s : State, s.hart.isResident = true ∧ s.hart.dbgHalted = false ∧ s.hart.trapWaits = false ∧ s.hart.expired = false ∧ s.hart.csr.wdLimit ≠ 0#64 ∧
      s.hart.csr.wdLimit.toNat ≤ s.hart.csr.runCount.toNat ∧ s.midRemote s.hart.uid = false ∧ s.hart.csr.hm = true) ∧
    (∃ s : State, s.hart.isResident = true ∧ s.hart.dbgHalted = false ∧ s.hart.expired = true ∧ s.hart.csr.wdLimit ≠ 0#64 ∧
      s.hart.csr.wdLimit.toNat + 65536 ≤ s.hart.csr.runCount.toNat ∧ s.hart.furlong = none ∧ s.hart.strip = [] ∧ s.hart.region = none) ∧
    (∃ (s : State) (v : FaultVals), s.hart.isResident = true ∧ s.midRemote s.hart.uid = false ∧ s.hart.watchdogDue = false ∧
      s.takesTraps ∧ v.given = true ∧ v.elem = 0) :=
  ⟨⟨{ base with hart := { base.hart with wait := .wfi [] [] } }, [], [], rfl, by decide +kernel, by decide +kernel, by decide +kernel⟩,
    ⟨sLate false, by decide +kernel, by decide +kernel, by decide +kernel, rfl, by decide +kernel, by decide +kernel, by decide +kernel, sLate_takes, by decide +kernel,
      by decide +kernel⟩,
    ⟨{ sLate false with hart := { (sLate false).hart with csr := { (sLate false).hart.csr with hm := true } } }, by decide +kernel, by decide +kernel, by decide +kernel, rfl,
      by decide +kernel, by decide +kernel, by decide +kernel, rfl⟩,
    ⟨sLate true, by decide +kernel, by decide +kernel, rfl, by decide +kernel⟩,
    ⟨sT, faultA, by decide +kernel, by decide +kernel, by decide +kernel, trapX_takes _, rfl, rfl⟩⟩

/-- The hart waits for a page of a registered region that is not yet resident, and one that is. -/
def sPager (va : Word) : State :=
  { sJob with fe := { sJob.fe with jobs := sJob.fe.jobs.map (fun j => { j with paged := [(0x700000, 0x1000), (0x40700000, 0x1000)] }) },
              hart := { sJob.hart with wait := .pager { faultA with va := va } } }

theorem witness_services :
    (∃ (s : State) (v : FaultVals), s.frontEndAt (s.dieOf s.hart.uid) = true ∧ s.hart.wait = .pager v ∧ s.hart.watchdogDue = false ∧
      (s.pageIn []).pageable s.hart.asid v.va = true ∧
      ∀ p ∈ (s.pageIn []).pageSet s.hart.asid v, (s.pageIn []).resident s.hart.place.die s.hart.asid (p * 65536) = true) ∧
    (∃ (s : State) (v : FaultVals), s.frontEndAt (s.dieOf s.hart.uid) = true ∧ s.hart.wait = .pager v ∧ s.hart.watchdogDue = false ∧
      (s.pageIn []).pageable s.hart.asid v.va = true ∧
      ∃ p ∈ (s.pageIn []).pageSet s.hart.asid v, (s.pageIn []).resident s.hart.place.die s.hart.asid (p * 65536) = false) ∧
    (∃ (s : State) (v : FaultVals), s.frontEndAt (s.dieOf s.hart.uid) = true ∧ s.hart.wait = .pager v ∧ s.hart.watchdogDue = false ∧
      s.takesTraps ∧ v.given = true ∧ v.elem = 0) ∧
    (∃ s t : State, commitFurlong s = .ok ((), t)) ∧
    (∃ (s : State) (f : Furlong), s.hart.furlong = some f ∧ s.hart.isResident = true ∧ s.hart.ownPoison = true ∧ f.rewound = false ∧
      f.again = false ∧ s.coreCounts (s.coreBank s.hart.place)) ∧
    (∃ (s : State) (j : Job), s.jobOf s.hart.asid = some j ∧ s.hart.isResident = true ∧ s.coreCounts (s.coreBank s.hart.place)) := by
  obtain ⟨⟨⟩, t, h, _⟩ := of_succeeds (x := commitFurlong sFurlong) (p := fun _ _ => true) (by decide +kernel)
  let own : State := { sFurlong with hart := { sFurlong.hart with strip := [⟨0xA000, 1, 5, 1⟩] } }
  exact ⟨⟨sPager 0x700008#64, { faultA with va := 0x700008#64 }, by decide +kernel, rfl, by decide +kernel, by decide +kernel, by decide +kernel⟩,
    ⟨sPager 0x40700008#64, { faultA with va := 0x40700008#64 }, by decide +kernel, rfl, by decide +kernel, by decide +kernel, 0x4070, by decide +kernel,
      by decide +kernel⟩,
    ⟨{ sT with hart := { sT.hart with wait := .pager faultA } }, faultA, by decide +kernel, rfl, by decide +kernel, trapX_takes [0x500000#64, 7#64], rfl, rfl⟩,
    ⟨sFurlong, t, h⟩,
    ⟨own, furlongA, rfl, by decide +kernel, by decide +kernel, rfl, rfl, by intro e he; cases he⟩,
    ⟨base, loadJob, by decide +kernel, by decide +kernel, by intro e he; cases he⟩⟩

/-- Six mapped queues of the cache set of queue 3, of which the first is idle or not. -/
def sFull (idle : Nat) : State :=
  sQueue ((List.range 6).map (fun k => ⟨0, k, 3 + 512 * (k + 1), if k = 0 then idle else 1, 0, 0, 0#64, [], 0⟩))

theorem witness_notify :
    (∃ (s : State) (die bytes : Nat) (v : Word), die < 4 ∧ (bytes ≠ 8 ∨ s.fe.qcount ≤ v.toNat / 2 ^ 44)) ∧
    (∃ (s : State) (die slot : Nat) (v : Word) (w : Option Nat) (t : Slot), s.slotAt die slot = some t ∧ t.qid = v.toNat / 2 ^ 44 ∧
      t.qid < s.fe.qcount ∧ (∀ a, w = some a → a = s.qAsid t.qid)) ∧
    (∃ (s : State) (a : Nat) (v : Word), v.toNat / 2 ^ 44 < s.fe.qcount ∧ a ≠ s.qAsid (v.toNat / 2 ^ 44)) ∧
    (∃ (s g : State) (qid n : Nat) (v : Word) (w : Option Nat), qid = v.toNat / 2 ^ 44 ∧ qid < s.fe.qcount ∧
      (∀ a, w = some a → a = s.qAsid qid) ∧ g = s.raiseWrite qid (v.toNat % 2 ^ 44) ∧ g.slotOf qid = none ∧ g.qEn qid = true ∧
      g.qErr qid = false ∧ g.qMapped qid = false ∧ g.freeSlot (g.qHome qid) = some n ∧ g.wayFree (g.qHome qid) qid = true) := by
  let q : State := sQueue [slotA [] 1 0]
  exact ⟨⟨base, 3, 8, 0xFFFFF00000000000, by decide, .inr (by decide +kernel)⟩,
    ⟨q, 0, 0, 0x300000000005, some 1, slotA [] 1 0, by decide +kernel, by decide, by decide +kernel, by intro a ha; cases ha; decide +kernel⟩,
    ⟨q, 2, 0x300000000005, by decide +kernel, by decide +kernel⟩,
    ⟨sQueue [], _, 3, 0, 0x300000000005, some 1, by decide, by decide +kernel, by intro a ha; cases ha; decide +kernel, rfl, by decide +kernel⟩⟩

theorem witness_queue_map :
    (∃ (s : State) (die qid n : Nat), s.frontEndAt die = true ∧ qid < s.fe.qcount ∧ s.qHome qid = die ∧ s.slotOf qid = none ∧ s.qErr qid = false ∧
      s.qEn qid = true ∧ s.freeSlot die = some n ∧ s.wayFree die qid = true) ∧
    (∃ (s : State) (die qid : Nat), s.frontEndAt die = true ∧ qid < s.fe.qcount ∧ s.qHome qid = die ∧ s.slotOf qid = none ∧ s.qErr qid = false ∧
      s.qEn qid = true ∧ s.wayFree die qid = false ∧ s.idleVictim die qid = none) ∧
    (∃ (s : State) (die qid v n : Nat), s.frontEndAt die = true ∧ qid < s.fe.qcount ∧ s.qHome qid = die ∧ s.slotOf qid = none ∧ s.qErr qid = false ∧
      s.qEn qid = true ∧ s.wayFree die qid = false ∧ s.idleVictim die qid = some v ∧ (s.unmapQueue v).freeSlot die = some n) ∧
    (∃ (s : State) (die slot : Nat) (t : Slot), s.frontEndAt die = true ∧ s.slotAt die slot = some t ∧ t.window = [] ∧ t.readIdx = t.writeIdx ∧
      s.fe.mapWait = []) :=
  ⟨⟨sQueue [], 0, 3, 0, by decide +kernel⟩,
    ⟨sFull 1, 0, 3, by decide +kernel⟩,
    ⟨sFull 0, 0, 3, 515, 0, by decide +kernel⟩,
    ⟨sQueue [slotA [] 1 1], 0, 0, slotA [] 1 1, by decide +kernel, by decide +kernel, rfl, rfl, by decide +kernel⟩⟩

/-- The read of a ring gives a packet, with a fact of it. -/
def givesPacket (x : RingRead) (p : Line → State → Bool) : Bool :=
  match x with
  | .packet l u => p l u
  | _ => false
theorem of_givesPacket {x : RingRead} {p : Line → State → Bool} (h : givesPacket x p = true) : ∃ l u, x = .packet l u ∧ p l u = true := by
  unfold givesPacket at h
  split at h
  · exact ⟨_, _, rfl, h⟩
  · exact absurd h Bool.false_ne_true

def waitsRead (x : RingRead) : Bool :=
  match x with
  | .waits _ => true
  | _ => false
theorem of_waitsRead {x : RingRead} (h : waitsRead x = true) : ∃ u, x = .waits u := by
  unfold waitsRead at h
  split at h
  · exact ⟨_, rfl⟩
  · exact absurd h Bool.false_ne_true

def cannotRead (x : RingRead) (p : State → Bool) : Bool :=
  match x with
  | .unreadable u => p u
  | _ => false
theorem of_cannotRead {x : RingRead} {p : State → Bool} (h : cannotRead x p = true) : ∃ u, x = .unreadable u ∧ p u = true := by
  unfold cannotRead at h
  split at h
  · exact ⟨_, rfl, h⟩
  · exact absurd h Bool.false_ne_true

theorem witness_packets_enter :
    (∃ (s u0 : State) (die slot : Nat) (t : Slot) (p : Line), s.frontEndAt die = true ∧ s.slotAt die slot = some t ∧ t.canRead = true ∧ s.qEn t.qid = true ∧
      s.planesMove = true ∧ s.readRing t t.nextIdx = .packet p u0 ∧ u0.packetCode t.qid p = none ∧ pkKind p ≠ 0 ∧ u0.slotAt die slot = some t) ∧
    (∃ (s u0 : State) (die slot : Nat) (t : Slot) (p : Line), s.frontEndAt die = true ∧ s.slotAt die slot = some t ∧ t.canRead = true ∧
      s.qEn t.qid = true ∧ s.planesMove = true ∧ s.readRing t t.nextIdx = .packet p u0 ∧ pkKind p = 0 ∧ u0.slotAt die slot = some t ∧ u0.slotOf t.qid = some t ∧
      t.window = [] ∧ t.nextIdx = t.retireIdx ∧ u0.qErr t.qid = false ∧ (∃ q ∈ u0.fe.qcbCache, q.2.1 = t.qid) ∧ u0.fe.mapWait = [] ∧
      u0.unacked (frontEnd t.die 0).uid = false ∧ u0.planesMove = true) ∧
    (∃ (s u0 : State) (die slot code : Nat) (t : Slot) (p : Line), s.frontEndAt die = true ∧ s.slotAt die slot = some t ∧ t.canRead = true ∧
      s.qEn t.qid = true ∧ s.planesMove = true ∧ s.readRing t t.nextIdx = .packet p u0 ∧ u0.packetCode t.qid p = some code ∧
      u0.qErr t.qid = false ∧ (∃ q ∈ u0.fe.qcbCache, q.2.1 = t.qid) ∧ u0.fe.mapWait = []) ∧
    (∃ (s u0 : State) (die slot : Nat) (t : Slot), s.frontEndAt die = true ∧ s.slotAt die slot = some t ∧ t.canRead = true ∧
      s.qEn t.qid = true ∧ s.planesMove = true ∧ s.readRing t t.nextIdx = .unreadable u0 ∧
      u0.qErr t.qid = false ∧ (∃ q ∈ u0.fe.qcbCache, q.2.1 = t.qid) ∧ u0.fe.mapWait = []) ∧
    (∃ (s u0 : State) (die slot : Nat) (t : Slot), s.frontEndAt die = true ∧ s.slotAt die slot = some t ∧ t.canRead = true ∧
      s.qEn t.qid = true ∧ s.planesMove = true ∧ s.readRing t t.nextIdx = .waits u0) := by
  let t := slotA [] 1 0
  let q : State := sQueue [t]
  let nop : State := sRing 0 (qcbA 0) [t]
  let odd : State := sRing 5 (qcbA 0) [t]
  let bad : State := sRing packetA (qcbA 0 - BitVec.ofNat 1024 (2 ^ 64)) [t]
  let far : State := sRing packetA (qcbA 0 + 0x40000000) [t]
  let still : State := { far with fe := { far.fe with devSet := true },
                                  mm := { far.mm with bytes := Memory.write far.mm.bytes (loadTable + 8) (bytesOfNat 8 (9 * 2 ^ 44 + 0x4000001F)) } }
  obtain ⟨p, u, h, hp⟩ := of_givesPacket (x := q.readRing t 0)
    (p := fun p u => (u.packetCode 3 p).isNone && pkKind p != 0 && u.slotAt 0 0 == some t) (by decide +kernel)
  rw [Bool.and_eq_true, Bool.and_eq_true, bne_iff_ne, beq_iff_eq, Option.isNone_iff_eq_none] at hp
  obtain ⟨p1, u1, h1, hp1⟩ := of_givesPacket (x := nop.readRing t 0)
    (p := fun p u => pkKind p == 0 && (u.slotAt 0 0 == some t && u.slotOf 3 == some t && u.qErr 3 == false && u.fe.qcbCache.any (·.2.1 == 3)
      && u.fe.mapWait == [] && u.unacked (frontEnd 0 0).uid == false && u.planesMove)) (by decide +kernel)
  simp only [Bool.and_eq_true, beq_iff_eq, List.any_eq_true] at hp1
  obtain ⟨k1, ⟨⟨⟨⟨⟨⟨a1, b1⟩, c1⟩, d1⟩, e1⟩, f1⟩, m1⟩⟩ := hp1
  obtain ⟨p2, u2, h2, hp2⟩ := of_givesPacket (x := odd.readRing t 0)
    (p := fun p u => u.packetCode 3 p == some 1 && (u.qErr 3 == false && u.fe.qcbCache.any (·.2.1 == 3) && u.fe.mapWait == [])) (by decide +kernel)
  simp only [Bool.and_eq_true, beq_iff_eq, List.any_eq_true] at hp2
  obtain ⟨k2, ⟨⟨a2, b2⟩, c2⟩⟩ := hp2
  obtain ⟨u3, h3, hp3⟩ := of_cannotRead (x := bad.readRing t 0)
    (p := fun u => u.qErr 3 == false && u.fe.qcbCache.any (·.2.1 == 3) && u.fe.mapWait == []) (by decide +kernel)
  simp only [Bool.and_eq_true, beq_iff_eq, List.any_eq_true] at hp3
  obtain ⟨⟨a3, b3⟩, c3⟩ := hp3
  obtain ⟨u4, h4⟩ := of_waitsRead (x := still.readRing t 0) (by decide +kernel)
  exact ⟨⟨q, u, 0, 0, t, p, by decide +kernel, by decide +kernel, by decide +kernel, by decide +kernel, by decide +kernel, h, hp.1.1, hp.1.2, hp.2⟩,
    ⟨nop, u1, 0, 0, t, p1, by decide +kernel, by decide +kernel, by decide +kernel, by decide +kernel, by decide +kernel, h1, k1, a1, b1, rfl, by decide +kernel, c1, d1, e1,
      f1, m1⟩,
    ⟨odd, u2, 0, 0, 1, t, p2, by decide +kernel, by decide +kernel, by decide +kernel, by decide +kernel, by decide +kernel, h2, k2, a2, b2, c2⟩,
    ⟨bad, u3, 0, 0, t, by decide +kernel, by decide +kernel, by decide +kernel, by decide +kernel, by decide +kernel, h3, a3, b3, c3⟩,
    ⟨still, u4, 0, 0, t, by decide +kernel, by decide +kernel, by decide +kernel, by decide +kernel, by decide +kernel, h4⟩⟩

/-- A completion word stands ready, with a fact of it. -/
def readyWord (x : WordCheck) (p : Window → State → Bool) : Bool :=
  match x with
  | .ready w u => p w u
  | _ => false
theorem of_readyWord {x : WordCheck} {p : Window → State → Bool} (h : readyWord x p = true) : ∃ w u, x = .ready w u ∧ p w u = true := by
  unfold readyWord at h
  split at h
  · exact ⟨_, _, rfl, h⟩
  · exact absurd h Bool.false_ne_true
def isCached (w : Window) (pa : Nat) : Bool :=
  match w with
  | .cached p _ => p == pa
  | _ => false
theorem of_isCached {w : Window} {pa : Nat} (h : isCached w pa = true) : ∃ leaf, w = .cached pa leaf := by
  unfold isCached at h
  split at h
  · rw [beq_iff_eq] at h; exact ⟨_, by rw [h]⟩
  · exact absurd h Bool.false_ne_true
/-- The launch packet with a completion word at 0x500000. -/
def packetC : Line := packetA ||| BitVec.ofNat 1024 (2 ^ 30 + 0x500000 * 2 ^ 448)

theorem witness_window :
    (∃ (s : State) (die slot : Nat) (t : Slot) (e : Entry), s.frontEndAt die = true ∧ s.slotAt die slot = some t ∧ s.slotOf t.qid = some t ∧
      t.window.find? (s.launchable t) = some e ∧ pkKind e.packet = 1) ∧
    (∃ (s : State) (die slot : Nat) (t : Slot) (e first : Entry) (rest : List Entry), s.frontEndAt die = true ∧ s.slotAt die slot = some t ∧
      s.slotOf t.qid = some t ∧ t.window.find? (s.launchable t) = some e ∧ (pkKind e.packet = 2 ∨ pkKind e.packet = 3) ∧
      t.window = first :: rest ∧ first.idx ≠ e.idx ∧ first.complete = false ∧ s.qErr t.qid = false ∧ s.fe.mapWait = []) ∧
    (∃ (s : State) (die slot idx : Nat) (t : Slot) (e first : Entry) (rest : List Entry), s.frontEndAt die = true ∧ s.slotAt die slot = some t ∧
      s.slotOf t.qid = some t ∧ t.window.find? (fun x => x.idx == idx) = some e ∧ e.finished = true ∧ pkCwv e.packet = false ∧
      t.window = first :: rest ∧ first.idx ≠ idx ∧ first.complete = false ∧ s.fe.mapWait = [] ∧ s.qErr t.qid = false ∧
      (∃ q ∈ s.fe.qcbCache, q.2.1 = t.qid) ∧ s.packetUnacked t.qid idx = false ∧ s.planesMove = true) ∧
    (∃ (s u0 g : State) (die slot idx pa space : Nat) (t : Slot) (e first : Entry) (rest : List Entry) (w : Window) (leaf : Word), s.frontEndAt die = true ∧
      s.slotAt die slot = some t ∧ t.window.find? (fun x => x.idx == idx) = some e ∧ e.complete = false ∧ e.finished = true ∧
      s.packetUnacked t.qid idx = false ∧ s.planesMove = true ∧ s.checkWord t e.packet = .ready w u0 ∧ u0.wordMayLeave w = true ∧
      u0.slotAt die slot = some t ∧ u0.slotOf t.qid = some t ∧ w = .cached pa leaf ∧ u0.isLocal pa = true ∧
      space = spaceOf (u0.qAsid t.qid) (BitVec.ofNat 64 (pkCompAddr e.packet)) ∧ (g.gather (pa / 128) true).plainTo space (pa / 128) ∧
      g = u0.releasePacket e ∧ Memory.wf g.mm.bytes = true ∧ pa % 8 = 0 ∧ u0.tagAddr (pa / 128) = none ∧
      t.window = first :: rest ∧ first.idx ≠ idx ∧ first.complete = false ∧ u0.fe.mapWait = [] ∧ u0.qErr t.qid = false ∧
      (∃ q ∈ u0.fe.qcbCache, q.2.1 = t.qid)) ∧
    (∃ (s : State) (die slot : Nat) (t : Slot) (e : Entry) (rest : List Entry), s.frontEndAt die = true ∧
      s.slotAt die slot = some t ∧ s.slotOf t.qid = some t ∧ t.window = e :: rest ∧ (∀ x ∈ rest, x.idx ≠ e.idx ∧ x.complete = false) ∧
      e.idx = t.retireIdx ∧ s.qErr t.qid = false ∧ (∃ q ∈ s.fe.qcbCache, q.2.1 = t.qid) ∧ s.fe.mapWait = [] ∧
      s.unacked (frontEnd t.die 0).uid = false ∧ s.planesMove = true ∧ s.launchable t e = true ∧ pkKind e.packet = 3) ∧
    (∃ (s : State) (die slot : Nat) (t : Slot) (e : Entry) (rest : List Entry), s.frontEndAt die = true ∧
      s.slotAt die slot = some t ∧ s.slotOf t.qid = some t ∧ t.window = e :: rest ∧ (∀ x ∈ rest, x.idx ≠ e.idx ∧ x.complete = false) ∧
      e.idx = t.retireIdx ∧ s.qErr t.qid = false ∧ (∃ q ∈ s.fe.qcbCache, q.2.1 = t.qid) ∧ s.fe.mapWait = [] ∧
      s.unacked (frontEnd t.die 0).uid = false ∧ s.planesMove = true ∧ e.finished = true ∧ pkCwv e.packet = false ∧ s.packetUnacked t.qid e.idx = false ∧
      pkKind e.packet = 1) := by
  let one := slotA [entryA 0 packetA false] 1 1
  let ex := entryA 0 packetA true
  let two := slotA [ex, entryA 1 packetB true] 2 2
  let bar : Entry := entryA 1 (BitVec.ofNat 1024 (3 + 1 * 2 ^ 128)) false
  let three := slotA [ex, bar] 2 2
  let ec := entryA 1 packetC true
  let four := slotA [ex, ec] 2 2
  let mark : Entry := entryA 0 (BitVec.ofNat 1024 (3 + 1 * 2 ^ 128)) false
  let five := slotA [mark, entryA 1 packetA false] 2 2
  let six := slotA [ex, entryA 1 packetA false] 2 2
  obtain ⟨w, u, h, hw⟩ := of_readyWord (x := (sQueue [four]).checkWord four packetC)
    (p := fun w u => (isCached w 0x500000 && (u.wordMayLeave w && plainFor ((u.releasePacket ec).gather (0x500000 / 128) true)
      (spaceOf (u.qAsid 3) (BitVec.ofNat 64 (pkCompAddr packetC))) (0x500000 / 128))) && (u.slotAt 0 0 == some four && u.slotOf 3 == some four && u.isLocal 0x500000
      && Memory.wf (u.releasePacket ec).mm.bytes && (u.tagAddr (0x500000 / 128)).isNone && u.fe.mapWait == [] && u.qErr 3 == false
      && u.fe.qcbCache.any (·.2.1 == 3))) (by decide +kernel)
  simp only [Bool.and_eq_true, beq_iff_eq, List.any_eq_true, Option.isNone_iff_eq_none] at hw
  obtain ⟨⟨kw, lv, pl⟩, ⟨⟨⟨⟨⟨⟨⟨a, b⟩, c⟩, d⟩, e⟩, f⟩, i⟩, j⟩⟩ := hw
  obtain ⟨leaf, hl⟩ := of_isCached kw
  have cache : ∀ q, ∃ x ∈ (sQueue q).fe.qcbCache, x.2.1 = 3 := fun _ => ⟨_, List.mem_singleton.2 rfl, rfl⟩
  exact ⟨⟨sQueue [one], 0, 0, one, entryA 0 packetA false, by decide +kernel⟩,
    ⟨sQueue [three], 0, 0, three, bar, ex, [bar], by decide +kernel, by decide +kernel, by decide +kernel, by decide +kernel, .inr (by decide +kernel), rfl,
      by decide, rfl, by decide +kernel, by decide +kernel⟩,
    ⟨sQueue [two], 0, 0, 1, two, entryA 1 packetB true, ex, [entryA 1 packetB true], by decide +kernel, by decide +kernel, by decide +kernel, by decide +kernel,
      by decide +kernel, by decide +kernel, rfl, by decide, rfl, by decide +kernel, by decide +kernel, cache _, by decide +kernel, by decide +kernel⟩,
    ⟨sQueue [four], u, _, 0, 0, 1, 0x500000, _, four, ec, ex, [ec], w, leaf, by decide +kernel, by decide +kernel, by decide +kernel, rfl, by decide +kernel,
      by decide +kernel, by decide +kernel, h, lv, a, b, hl, c, rfl, plain_to pl, rfl, d, by decide, e, rfl, by decide, rfl, f, i, j⟩,
    ⟨sQueue [five], 0, 0, five, mark, [entryA 1 packetA false], by decide +kernel, by decide +kernel, by decide +kernel, rfl, by decide +kernel, rfl,
      by decide +kernel, cache _, by decide +kernel⟩,
    ⟨sQueue [six], 0, 0, six, ex, [entryA 1 packetA false], by decide +kernel, by decide +kernel, by decide +kernel, rfl, by decide +kernel, rfl,
      by decide +kernel, cache _, by decide +kernel⟩⟩


/-! ## Memory fronts, homes and walks -/

/-- A walk to device scope of the second object of `sReach`, from a field of the first. -/
def walkA (st : WalkState) (stack : List (Word × Bool)) : Walk :=
  { id := 9, uid := 1, die := 0, core := 0, asid := 1, scope := 2, field := 0x40001008#64, ref := 0x40002000#64, stack := stack, count := 4, state := st }
def sWalk (q : Nat) (w : Walk) : State := { sReach 2 q with walks := [w] }

/-- A page of a reference is followed, with a fact of it. -/
def follows (x : RefPage) (p : Nat → State → Bool) : Bool :=
  match x with
  | .follow pa t => p pa t
  | _ => false
theorem of_follows {x : RefPage} {p : Nat → State → Bool} (h : follows x p = true) : ∃ pa t, x = .follow pa t ∧ p pa t = true := by
  unfold follows at h
  split at h
  · exact ⟨_, _, rfl, h⟩
  · exact absurd h Bool.false_ne_true
def gathers (x : Fields) (p : List Word → State → Bool) : Bool :=
  match x with
  | .refs l t => p l t
  | _ => false
theorem of_gathers {x : Fields} {p : List Word → State → Bool} (h : gathers x p = true) : ∃ l t, x = .refs l t ∧ p l t = true := by
  unfold gathers at h
  split at h
  · exact ⟨_, _, rfl, h⟩
  · exact absurd h Bool.false_ne_true
def spills (x : Spill) (p : State → Bool) : Bool :=
  match x with
  | .done t => p t
  | _ => false
theorem of_spills {x : Spill} {p : State → Bool} (h : spills x p = true) : ∃ t, x = .done t ∧ p t = true := by
  unfold spills at h
  split at h
  · exact ⟨_, rfl, h⟩
  · exact absurd h Bool.false_ne_true

theorem witness_homes :
    (∃ (s t : State) (die asid : Nat) (va : Word) (acc : Access), frontRequest (memoryFront die asid) va acc s = .ok ((), t)) ∧
    (∃ (s : State) (stack slice : Nat) (b : Bloom), b ∈ s.mm.blooms ∧ b.stack = stack ∧ b.slice = slice ∧ 65536 ≤ b.misses) ∧
    (∃ (s : State) (pa : Nat) (op : BitVec 4), s.isLocal pa = true ∧ paRegion pa = 0 ∧ op.toNat < 10) ∧
    (∃ (s : State) (w : Walk), s.walkOf w.id = some w ∧ w.state = .queued ∧
      (s.walks.filter (fun v => v.die == w.die && v.state == WalkState.active)).length < 16) ∧
    (∃ (s t0 t : State) (w : Walk) (x : Window) (who : Who), s.walkOf w.id = some w ∧ w.state = .active ∧ w.stack = [] ∧ s.planesMove = true ∧
      who = ⟨w.id, w.die, w.core, w.asid⟩ ∧ classify who w.field 8 .store s = .ok (x, t0) ∧ x.isReach = true ∧
      storeLine who w.field 8 w.ref.toNat true x t0 = .ok ((), t)) := by
  obtain ⟨⟨⟩, t, h, _⟩ := of_succeeds (x := frontRequest (memoryFront 0 1) 0x500000#64 .load base) (p := fun _ _ => true) (by decide +kernel)
  let w := walkA .active []
  obtain ⟨x, t0, hc, hx⟩ := of_succeeds (x := classify ⟨9, 0, 0, 1⟩ 0x40001008#64 8 .store (sWalk 1 w))
    (p := fun x t0 => x.isReach && succeeds (storeLine ⟨9, 0, 0, 1⟩ 0x40001008#64 8 0x40002000 true x t0) (fun _ _ => true)) (by decide +kernel)
  rw [Bool.and_eq_true] at hx
  obtain ⟨⟨⟩, t1, hs, _⟩ := of_succeeds hx.2
  exact ⟨⟨base, t, 0, 1, _, _, h⟩,
    ⟨{ base with mm := { base.mm with blooms := [⟨2, 3, 0, 65536⟩] } }, 2, 3, ⟨2, 3, 0, 65536⟩, List.mem_singleton.2 rfl, rfl, rfl, by decide⟩,
    ⟨base, 0x500000, 9, by decide +kernel, by decide +kernel, by decide⟩,
    ⟨sWalk 1 (walkA .queued []), walkA .queued [], by decide +kernel, rfl, by decide +kernel⟩,
    ⟨sWalk 1 w, t0, t1, w, x, ⟨9, 0, 0, 1⟩, by decide +kernel, rfl, rfl, by decide +kernel, rfl, hc, hx.1, hs⟩⟩

/-- The hart stands at the ALRE of its open region. -/
def sAtEnd : State := { sRegion with hart := { sRegion.hart with region := some regionA, pc := 0x40000C#64 } }

theorem witness_region_home :
    (∃ (s t u : State) (r : Region) (w : BitVec 32) (l q : BitVec 1) (sc : BitVec 2), s.hart.isReady = true ∧
      s.hart.region = some r ∧ fetchWord s.who s.hart.pc s = .ok (w, t) ∧ decodeWord w = .ok (.alre l q sc) ∧ exec (.alre l q sc) t = .next u ∧
      s.hart.watchdogDue = false) ∧
    ∃ (s f t0 t : State) (r : Region) (word : BitVec 32) (l q : BitVec 1) (sc : BitVec 2) (w : Window) (h : HomeRun),
      s.hart.isReady = true ∧ s.hart.watchdogDue = false ∧ s.hart.region = some r ∧ fetchWord s.who s.hart.pc s = .ok (word, f) ∧
      decodeWord word = .ok (.alre l q sc) ∧ Instr.wf (.alre l q sc) = true ∧ f.hart.region = some r ∧ f.noWalk q sc ∧ f.mayRelease l sc ∧
      classify f.who (BitVec.ofNat 64 (r.line * 128)) 1
        (if ((bodyInstrs r.body).filterMap memShape).any (·.2) then .store else .load) (f.ifRelease l sc) = .ok (w, t0) ∧
      regionAt f.who r (if w.isMemSide then none else w.leaf)
        (16 * sc.toNat + 64 * q.toNat + 128 * l.toNat + 512 * ((bodyInstrs r.body).filterMap memShape).length) t0 = .ok (.ok h, t) ∧
      h.poisoned = false := by
  constructor
  · obtain ⟨w, t, h, hp⟩ := of_succeeds (x := fetchWord sAtEnd.who sAtEnd.hart.pc sAtEnd)
      (p := fun w t => decide (w = wordOf (.alre 1 1 2)) && (match exec (.alre 1 1 2) t with | .next _ => true | _ => false)) (by decide +kernel)
    rw [Bool.and_eq_true, decide_eq_true_iff] at hp
    obtain ⟨rfl, hn⟩ := hp
    split at hn
    case h_1 u hu => exact ⟨sAtEnd, t, u, regionA, _, 1, 1, 2, by decide +kernel, rfl, h, by decide +kernel, hu, by decide +kernel⟩
    case h_2 => exact absurd hn Bool.false_ne_true
  · obtain ⟨word, f, e, hp⟩ := of_succeeds (x := fetchWord sAtEnd.who sAtEnd.hart.pc sAtEnd)
      (p := fun word f => decide (word = wordOf (.alre 1 1 2) ∧ f.hart.region = some regionA ∧ f.planesMove = true ∧ f.walkAhead (some 2#2) = none ∧
          (f.releaseMine 2#2).unacked f.hart.uid = false) &&
        succeeds (classify f.who (BitVec.ofNat 64 (0xA000 * 128)) 1 .store (f.ifRelease 1 2)) (fun w t0 =>
          succeeds (regionAt f.who regionA (if w.isMemSide then none else w.leaf) (16 * 2 + 64 + 128 + 512 * 2) t0)
            (fun r _ => match r with | .ok h => !h.poisoned | .error _ => false))) (by decide +kernel)
    simp only [Bool.and_eq_true, decide_eq_true_eq] at hp
    obtain ⟨⟨rfl, hr, hm, hw, hu⟩, hp⟩ := hp
    obtain ⟨w, t0, e0, hp⟩ := of_succeeds hp
    obtain ⟨r, t, e1, hp⟩ := of_succeeds hp
    match r, hp with
    | .ok h, hp =>
      exact ⟨sAtEnd, f, t0, t, regionA, _, 1, 1, 2, w, h, by decide +kernel, by decide +kernel, rfl, e, by decide +kernel, by decide +kernel, hr,
        fun _ => ⟨fun _ => hm, hw⟩, fun _ => ⟨fun _ => hm, fun _ => hu⟩, e0, e1, by simpa using hp⟩

/-- The premises that the clauses of a walk's visit share. -/
def Visits (s t : State) (w : Walk) (o h : Word) (pa : Nat) (tag : Bool) : Prop :=
  s.walkOf w.id = some w ∧ w.state = .active ∧ s.planesMove = true ∧ ∃ t0, s.refPage w o = .follow pa t0 ∧
    t0.homeField w.asid pa = (h, tag, false) ∧ t = t0.readServed w.asid (pa / 128) ∧ t.walkOf w.id = some w

theorem visits_of {s : State} {w : Walk} {o : Word} {p : Nat → Word → State → Bool} (h1 : s.walkOf w.id = some w) (h2 : w.state = .active)
    (h3 : s.planesMove = true) (h : follows (s.refPage w o) (fun pa t0 => !(t0.homeField w.asid pa).2.2 &&
      (t0.readServed w.asid (pa / 128)).walkOf w.id == some w && p pa (t0.homeField w.asid pa).1 (t0.readServed w.asid (pa / 128))) = true) :
    ∃ t h pa tag, Visits s t w o h pa tag ∧ p pa h t = true := by
  obtain ⟨pa, t0, e, hp⟩ := of_follows h
  rw [Bool.and_eq_true, Bool.and_eq_true, Bool.not_eq_true', beq_iff_eq] at hp
  exact ⟨_, _, pa, (t0.homeField w.asid pa).2.1, ⟨h1, h2, h3, t0, e, by rw [← hp.1.1], rfl, hp.1.2⟩, hp.2⟩

theorem witness_visits :
    (∃ (s t : State) (w : Walk) (o h : Word) (rest : List (Word × Bool)) (pa : Nat) (tag : Bool), Visits s t w o h pa tag ∧
      w.stack = (o, false) :: rest ∧ w.scope.toNat ≤ hdrScope h ∧ hdrMark h = false) ∧
    (∃ (s t : State) (w : Walk) (o h : Word) (rest : List (Word × Bool)) (pa : Nat) (tag : Bool), Visits s t w o h pa tag ∧
      w.stack = (o, true) :: rest) ∧
    (∃ (s t : State) (w : Walk) (o h : Word) (rest : List (Word × Bool)) (pa : Nat) (tag : Bool) (g : Hart), Visits s t w o h pa tag ∧
      w.stack = (o, false) :: rest ∧ (hdrScope h < w.scope.toNat ∨ hdrMark h = true) ∧ t.hartOf w.uid = some g ∧
      g.csr.walkMax ≠ 0#64 ∧ g.csr.walkMax.toNat < w.count + 1) := by
  let w := walkA .active [(0x40002000#64, false)]
  let m := walkA .active [(0x40002000#64, true)]
  let s1 : State := { sWalk 1 w with hart := { (sWalk 1 w).hart with csr := { (sWalk 1 w).hart.csr with walkMax := 3#64 } } }
  obtain ⟨t1, h1, p1, g1, v1, c1⟩ := visits_of (s := sWalk 2 w) (w := w) (o := 0x40002000#64)
    (p := fun _ h _ => decide (w.scope.toNat ≤ hdrScope h) && !hdrMark h) (by decide +kernel) rfl (by decide +kernel) (by decide +kernel)
  obtain ⟨t2, h2, p2, g2, v2, _⟩ := visits_of (s := sWalk 2 m) (w := m) (o := 0x40002000#64) (p := fun _ _ _ => true) (by decide +kernel) rfl (by decide +kernel) (by decide +kernel)
  obtain ⟨t3, h3, p3, g3, v3, c3⟩ := visits_of (s := s1) (w := w) (o := 0x40002000#64)
    (p := fun _ h t => decide (hdrScope h < w.scope.toNat) && t.hartOf w.uid == some s1.hart) (by decide +kernel) rfl (by decide +kernel) (by decide +kernel)
  rw [Bool.and_eq_true, decide_eq_true_iff, Bool.not_eq_true'] at c1
  rw [Bool.and_eq_true, decide_eq_true_iff, beq_iff_eq] at c3
  exact ⟨⟨_, t1, w, _, h1, [], p1, g1, v1, rfl, c1.1, c1.2⟩, ⟨_, t2, m, _, h2, [], p2, g2, v2, rfl⟩,
    ⟨_, t3, w, _, h3, [], p3, g3, s1.hart, v3, rfl, .inl c3.1, c3.2, by decide +kernel, by decide +kernel⟩⟩

/-- The state in which the fields of a visited object are read. -/
def entered (w : Walk) (o h : Word) (pa : Nat) (t : State) : State :=
  let t1 := t.putHeader w pa (setHeader h (Max.max (hdrScope h) w.scope.toNat) true)
  if hdrScope h < w.scope.toNat then t1.showObject w o pa (hdrLength h) else t1

theorem witness_enters : ∃ (s t t2 t3 : State) (w : Walk) (o h : Word) (rest : List (Word × Bool)) (pa : Nat) (tag : Bool) (g : Hart) (l : List Word),
    Visits s t w o h pa tag ∧ w.stack = (o, false) :: rest ∧ (hdrScope h < w.scope.toNat ∨ hdrMark h = true) ∧ t.hartOf w.uid = some g ∧
    (g.csr.walkMax = 0#64 ∨ w.count + 1 ≤ g.csr.walkMax.toNat) ∧ (entered w o h pa t).fields w o (hdrLength h - 1) [] = .refs l t2 ∧
    (g.csr.walkSpill ≠ 0#64 ∨ l.length + rest.length + 1 ≤ 64) ∧ t2.spill w g.csr.walkSpill (rest.length + 1) l = .done t3 ∧
    t3.walkOf w.id = some w := by
  let w := walkA .active [(0x40002000#64, false)]
  let s := sWalk 1 w
  obtain ⟨t, h, pa, tag, v, c⟩ := visits_of (s := s) (w := w) (o := 0x40002000#64)
    (p := fun pa h t => decide (hdrScope h < w.scope.toNat) && t.hartOf w.uid == some s.hart &&
      gathers ((entered w 0x40002000#64 h pa t).fields w 0x40002000#64 (hdrLength h - 1) []) (fun l t2 =>
        decide (l.length ≤ 63) && spills (t2.spill w 0#64 1 l) (fun t3 => t3.walkOf w.id == some w))) (by decide +kernel) rfl (by decide +kernel) (by decide +kernel)
  rw [Bool.and_eq_true, Bool.and_eq_true, decide_eq_true_iff, beq_iff_eq] at c
  obtain ⟨l, t2, hf, hl⟩ := of_gathers c.2
  rw [Bool.and_eq_true, decide_eq_true_iff] at hl
  obtain ⟨t3, hs, ht⟩ := of_spills hl.2
  have hz : s.hart.csr.walkSpill = 0#64 := by decide +kernel
  exact ⟨s, t, t2, t3, w, _, h, [], pa, tag, s.hart, l, v, rfl, .inl c.1.1, c.1.2, .inl (by decide +kernel), hf, .inr (by have := hl.1; simp only [List.length_nil]; omega),
    by rw [hz]; exact hs, by simpa using ht⟩


/-! ## Errors, Terak, links -/

/-- A state with repairs, and one whose repairs are given. -/
def sRepairs (l : List Repair) : State := { base with err := { base.err with repairs := l } }
def repairA (p : Part) (committed : Bool) : Repair := ⟨p, some 1, 3, committed⟩
def eventA (site : ErrSite) : ErrEvent := ⟨true, 1#8, 1, 0x500020#64, 0#64, site⟩
def errBankA (id : BitVec 32) : ErrBank := ⟨id, true, true, false, 0, 1, 1, 0x500020, 0, 0, 1, 1, .nowhere⟩

theorem witness_errors :
    (∃ (s t : State) (id : BitVec 32) (ev : ErrEvent) (uc psn : Bool), s.bankFits id ev = true ∧ (∀ cmd j, ev.site ≠ .columnSum cmd j) ∧
      s.errorEffect ev = (t, uc, psn, [])) ∧
    (∃ (s t : State) (id : BitVec 32) (ev : ErrEvent) (h : Hart), s.bankFits id ev = true ∧ (∀ cmd j, ev.site ≠ .columnSum cmd j) ∧
      s.errorEffect ev = (t, true, true, []) ∧ h ∈ t.harts ∧ h.vPsn = [(3, 2)]) ∧
    (∃ (s : State) (id : BitVec 32) (ev : ErrEvent) (c : Cmd) (j : Nat), s.bankFits id ev = true ∧ ev.site = .columnSum c.id j ∧
      s.cmdOf c.id = some c) ∧
    (∃ (ev : ErrEvent) (g : Nat), ev.site = .memory g ∧ ev.uncorrected = true) ∧
    (∃ (s : State) (id : BitVec 32) (b : ErrBank), b = s.errBank id ∧ b.v = true ∧ s.mayDrain b = true ∧ s.err.counts = []) ∧
    (∃ (s : State) (id : BitVec 32), s.drainerUp (drainer id) = true) ∧
    (∃ (s : State) (id : BitVec 32) (b row c n : Nat), s.err.counts = [(id, .row b row, c, n)] ∧ s.err.repairs = [] ∧ (16 ≤ c ∨ 1 ≤ n) ∧
      s.drainerUp (drainer id) = true ∧ (s.errBank id).v = true) ∧
    (∃ (s : State) (g b : Nat), b = (s.bankRow 0 (32 * g)).1 ∧ s.managerAt (b / 4096) = true ∧ (s.bank b).free = false) ∧
    (∃ (s : State) (g b : Nat), b = (s.bankRow 0 (32 * g)).1 ∧ s.managerAt (b / 4096) = true ∧ (s.bank b).free = true ∧ s.poisoned g = false) :=
  let v : State := { base with cmds := [cmdA false] }
  ⟨⟨base, base, 0x01000000, eventA .nowhere, true, false, by decide +kernel, (fun _ _ h => nomatch h), rfl⟩,
    ⟨base, _, 0x01000000, eventA (.vreg base.hart.uid 3 2), { base.hart with vPsn := [(3, 2)] }, by decide +kernel, (fun _ _ h => nomatch h), rfl,
      by decide +kernel, rfl⟩,
    ⟨v, (cmdA false).baseBank, eventA (.columnSum 7 1023), cmdA false, 1023, by decide +kernel, rfl, by decide +kernel⟩,
    ⟨eventA (.memory 9), 9, rfl, rfl⟩,
    ⟨{ base with err := { base.err with banks := [errBankA 0x0A000000] } }, 0x0A000000, errBankA 0x0A000000, by decide +kernel, rfl, by decide +kernel, by decide +kernel⟩,
    ⟨base, 0x01000000, by decide +kernel⟩,
    ⟨{ base with err := { base.err with counts := [(0x05000000#32, .row 5 7, 16, 0)], banks := [errBankA 0x05000000] } }, 0x05000000, 5, 7, 16, 0, rfl, by decide +kernel, .inl (by decide),
      by decide +kernel, by decide +kernel⟩,
    ⟨base.setBank (base.bankRow 0 (32 * 9)).1 { Bank.reset with susp := true }, 9, _, rfl, by decide +kernel, by decide +kernel⟩,
    ⟨base, 9, _, rfl, by decide +kernel, by decide +kernel, by decide +kernel⟩⟩

theorem witness_repairs :
    (∃ (s : State) (idx : Nat) (r : Repair), s.err.repairs[idx]? = some r ∧ (∀ q ∈ s.err.repairs, q.committed = false) ∧ s.terak.fail = 0#8) ∧
    (∃ (s : State) (d c n : Nat) (r : Repair), s.frontEndAt d = true ∧ s.retired (.core d c) = true ∧ s.repairOf (.core d c) = some r ∧ r.spare = some n ∧
      s.onCore d c = []) ∧
    (∃ (s : State) (d c : Nat), s.frontEndAt d = true ∧ s.retired (.core d c) = true ∧ s.repairOf (.core d c) = none ∧ s.onCore d c = []) ∧
    (∃ (s : State) (b row n : Nat) (r : Repair), s.managerAt (b / 4096) = true ∧ s.repairOf (.row b row) = some r ∧ r.spare = some n) ∧
    (∃ (s : State) (d c n : Nat) (r : Repair), (copyStacks (.channel d c)).all s.managerAt = true ∧ s.repairOf (.channel d c) = some r ∧ r.spare = some n ∧ s.err.copies = []) ∧
    (∃ (s : State) (c : ChanCopy), (copyStacks c.part).all s.managerAt = true ∧ s.err.copies = [c] ∧ (∃ d n, c.part = .channel d n) ∧ 12288 ≤ c.row + 1) ∧
    (∃ (s : State) (c : ChanCopy), (copyStacks c.part).all s.managerAt = true ∧ s.err.copies = [c] ∧ (∃ d n, c.part = .channel d n) ∧ c.row + 1 < 12288) ∧
    (∃ (s : State) (stack row : Nat), s.managerAt stack = true ∧ s.err.repairs = [] ∧ s.err.counts = [] ∧ s.spareIn (.cacheRow stack row) = none ∧ stack < 16) ∧
    (∃ (s : State) (stack row n : Nat) (r : Repair), s.managerAt stack = true ∧ s.retired (.cacheRow stack row) = true ∧
      s.repairOf (.cacheRow stack row) = some r ∧ r.spare = some n ∧ s.spareIn (.cacheRow stack row) ≠ some n ∧ stack < 16) :=
  ⟨⟨sRepairs [repairA (.row 5 7) false], 0, _, rfl, by decide +kernel, by decide +kernel⟩,
    ⟨sRepairs [repairA (.core 0 5) true], 0, 5, 1, repairA (.core 0 5) true, by decide +kernel, by decide +kernel, by decide +kernel, rfl, by decide +kernel⟩,
    ⟨sRepairs [repairA (.core 0 5) false], 0, 5, by decide +kernel⟩,
    ⟨sRepairs [repairA (.row 5 7) true], 5, 7, 1, repairA (.row 5 7) true, by decide +kernel, by decide +kernel, rfl⟩,
    ⟨sRepairs [repairA (.channel 0 7) true], 0, 7, 1, repairA (.channel 0 7) true, by decide +kernel, by decide +kernel, rfl, by decide +kernel⟩,
    ⟨{ base with err := { base.err with copies := [⟨9, .channel 0 7, 2040, 12287⟩] } }, _, by decide +kernel, rfl, ⟨0, 7, rfl⟩, by decide⟩,
    ⟨{ base with err := { base.err with copies := [⟨9, .channel 0 7, 2040, 12286⟩] } }, _, by decide +kernel, rfl, ⟨0, 7, rfl⟩, by decide⟩,
    ⟨base, 15, 7, by decide +kernel⟩,
    ⟨sRepairs [repairA (.cacheRow 15 7) true], 15, 7, 1, repairA (.cacheRow 15 7) true, by decide +kernel, by decide +kernel, by decide +kernel, rfl,
      by decide +kernel, by decide⟩⟩

theorem elapsed_ge : ∀ n, n ≤ Config.elapsed n
  | 0 => Nat.le_refl 0
  | n + 1 => by have := elapsed_ge n; unfold Config.elapsed; omega

/-- Time goes on: any wall time is reached. -/
theorem wall_time_reached (k : Nat) : ∃ n, k ≤ Config.wallTime n :=
  ⟨k * 10 ^ 12, (Nat.le_div_iff_mul_le (by decide)).2 (elapsed_ge _)⟩

theorem link_time_reached (k : Nat) : ∃ n, k ≤ Config.linkTime n :=
  ⟨k * 10 ^ 9, (Nat.le_div_iff_mul_le (by decide)).2 (elapsed_ge _)⟩

theorem witness_start_up :
    (∃ s : State, s.terak.stage = 0 ∧ s.terak.fail = 0) ∧
    (∃ s : State, s.terak.stage = 1 ∧ s.terak.fail = 0 ∧ s.terak.released.1 = true) ∧
    (∃ s : State, s.terak.stage = 2 ∧ s.terak.fail = 0 ∧ s.terak.released.2 = true) ∧
    (∃ s : State, s.terak.stage = 3 ∧ s.terak.fail = 0 ∧ s.terak.released.2 = true) ∧
    (∃ s : State, Config.wallTime s.tick < s.terak.deadman + 1000000) ∧ (∃ s : State, s.terak.deadman + 1000000 ≤ Config.wallTime s.tick) :=
  have ⟨t, ht⟩ := wall_time_reached (0 + 1000000)
  ⟨⟨State.reset, by decide +kernel, by decide +kernel⟩,
    ⟨{ base with terak := { base.terak with stage := 1 } }, rfl, by decide +kernel, by decide +kernel⟩,
    ⟨{ base with terak := { base.terak with stage := 2 } }, rfl, by decide +kernel, by decide +kernel⟩,
    ⟨{ base with terak := { base.terak with stage := 3 } }, rfl, by decide +kernel, by decide +kernel⟩,
    ⟨{ base with terak := { base.terak with deadman := Config.wallTime base.tick } }, Nat.lt_add_of_pos_right (by decide)⟩,
    ⟨{ base with tick := t, terak := { base.terak with deadman := 0 } }, ht⟩⟩

/-- The device with an owner. -/
def sOwned : State := { base with terak := { base.terak with agent := .pcie, leaseOn := true, leaseMs := 0, leaseAt := 0 } }

theorem witness_ownership :
    (∃ (s : State) (who : Agent) (v : Word), who ≠ .nobody ∧ s.terak.stage ≠ 0 ∧ s.terak.agent = .nobody ∧ v.toNat % 2 ^ 30 = s.terak.epoch.toNat) ∧
    (∃ (s : State) (who : Agent) (v : Word), who ≠ .nobody ∧ s.terak.agent = who ∧ v.toNat % 2 ^ 30 = s.terak.epoch.toNat ∧ s.terak.fail = 0) ∧
    (∃ (s : State) (who : Agent) (v : Word), who ≠ .nobody ∧ s.terak.agent = who ∧ v.toNat % 2 ^ 30 ≠ s.terak.epoch.toNat) ∧
    (∃ (s : State) (who : Agent), who ≠ .nobody ∧ s.terak.agent ≠ who ∧ s.terak.fail = 0) ∧
    (∃ off : Nat, 0xF00000 ≤ off ∧ off < 0xF01000 ∧ off / 8 * 8 ≠ 0xF00008) ∧
    (∃ (s : State) (m : BitVec 11), s.terak.agent ≠ .nobody ∧ s.terak.leaseOn = true ∧ s.terak.fail = 0 ∧ s.fe.errMsg = some m ∧ s.fe.errMsgOut = false ∧
      s.terak.leaseAt + s.terak.leaseMs.toNat * 750 ≤ Config.wallTime s.tick) ∧
    (∃ s : State, Config.wallTime s.tick < s.terak.leaseAt + s.terak.leaseMs.toNat * 750) ∧
    (∃ s : State, s.terak.agent ≠ .nobody ∧ s.terak.leaseOn = true ∧ s.terak.fail = 0 ∧
      s.terak.leaseAt + s.terak.leaseMs.toNat * 1000 ≤ Config.wallTime s.tick) := by
  exact ⟨⟨base, .i3c, 0, by decide +kernel⟩,
    ⟨sOwned, .pcie, 0, by decide, rfl, by decide +kernel, by decide +kernel⟩,
    ⟨sOwned, .pcie, 5, by decide, rfl, by decide +kernel⟩,
    ⟨sOwned, .remote, by decide, by decide +kernel, by decide +kernel⟩, ⟨0xF00FFF, by decide, by decide, by decide⟩,
    ⟨{ sOwned with fe := { sOwned.fe with errMsg := some 5 } }, 5, by decide +kernel, by decide +kernel, by decide +kernel, rfl, by decide +kernel,
      Nat.zero_le _⟩,
    ⟨{ base with terak := { base.terak with leaseAt := Config.wallTime base.tick + 1 } }, Nat.lt_of_lt_of_le (Nat.lt_succ_self _) (Nat.le_add_right _ _)⟩,
    ⟨sOwned, by decide +kernel, by decide +kernel, by decide +kernel, Nat.zero_le _⟩⟩

/-- At tick `t` no front-end processor has written a heartbeat yet; each has restarted `n` times just now. -/
def sMissed (t n : Nat) : State :=
  let s := { base with tick := t }
  { s with terak := { s.terak with heartbeats := [], restarts := List.replicate n (.frontEnd 3, Config.wallTime s.tick) } }

theorem sMissed_beat (t n : Nat) (h : 1000000 ≤ Config.wallTime t) : (sMissed t n).beatMissed (.frontEnd 3) = true :=
  decide_eq_true (Nat.le_trans (show 0 + beatLimit (.frontEnd 3) ≤ 1000000 by decide) h)

theorem sMissed_up (t n : Nat) : (sMissed t n).frontEndAt 3 = true := by
  show base.frontEndAt 3 = true
  decide +kernel

theorem sMissed_restarts (t n : Nat) : (sMissed t n).restartsOf (.frontEnd 3) = n := by
  unfold State.restartsOf
  rw [List.filter_eq_self.2 ?_]
  · exact List.length_replicate
  · intro r hr
    rw [List.eq_of_mem_replicate hr, Bool.and_eq_true, decide_eq_true_iff]
    exact ⟨beq_self_eq_true _, Nat.lt_add_of_pos_right (by decide)⟩

theorem witness_watchdogs :
    (∃ (s : State) (p : Processor), s.beatMissed p = false) ∧
    (∃ (s : State) (d : Nat), s.terak.fail = 0 ∧ d < 4 ∧ s.terak.released.2 = true ∧ s.frontEndAt d = true ∧ s.beatMissed (.frontEnd d) = true ∧
      s.restartsOf (.frontEnd d) < 3) ∧
    (∃ (s : State) (d : Nat), s.terak.fail = 0 ∧ d < 4 ∧ s.terak.released.2 = true ∧ s.frontEndAt d = true ∧ s.beatMissed (.frontEnd d) = true ∧
      3 ≤ s.restartsOf (.frontEnd d)) :=
  have ⟨t, ht⟩ := wall_time_reached 1000000
  ⟨⟨{ base with terak := { base.terak with heartbeats := [(.frontEnd 3, Config.wallTime base.tick)] } }, .frontEnd 3,
      decide_eq_false (Nat.not_le.2 (Nat.lt_add_of_pos_right (by decide)))⟩,
    ⟨sMissed t 0, 3, rfl, by decide, rfl, sMissed_up t 0, sMissed_beat t 0 ht, by rw [sMissed_restarts]; decide⟩,
    ⟨sMissed t 3, 3, rfl, by decide, rfl, sMissed_up t 3, sMissed_beat t 3 ht, Nat.le_of_eq (sMissed_restarts t 3).symm⟩⟩

def modA (n : Nat) : ModuleId := ⟨1, 2, n, false⟩
/-- The end of a module in some state. -/
def sModule (e : ModEnd) : State := { base with fab := { base.fab with modules := [e] } }

/-- An end that a flit can reach. -/
def Receives (s : State) (m : ModuleId) (e : ModEnd) : Prop :=
  e = s.fab.modEnd m ∧ e.state = 0#2 ∧ e.handedBack = [] ∧ e.nakRow < 5 ∧ e.nakTimes.length < 32 ∧ e.replay = []
/-- An end in retraining. -/
def Retrains (s : State) (m : ModuleId) : Prop :=
  ((s.fab.modEnd m).state = 1#2 ∧ (s.fab.modEnd m).handedBack = [] ∧ (s.fab.modEnd m).replay = []) ∧ s.coreCounts (groupBank m)
/-- A transaction for a module to carry. -/
def txnA (n : Nat) : Txn :=
  .done { key := ⟨0, 1, 2⟩, srcDie := 0, dstDie := 1, eseq := 5, resend := false, op := 0, line := n, attr := 0, data := 0, psn := 0, regs := [] }
/-- A flit with its check value. -/
def checked (m : ModuleId) (f : Flit) : Flit := { f with crc := flitCheck (onDie m) f }
def flitA (lseq : BitVec 7) : Flit := ⟨0, false, 0x7F, false, lseq, 0⟩

theorem witness_links :
    -- a bad flit and one out of order, with no NAK out, one sent too lately and one a round trip ago; the flit that is due
    (∃ (s : State) (m : ModuleId) (f : Flit) (e : ModEnd), Receives s m e ∧ f.crc ≠ flitCheck (onDie m) f ∧ e.nakAt = none) ∧
    (∃ (s : State) (m : ModuleId) (f : Flit) (e : ModEnd) (t : Nat), Receives s m e ∧ f.nul = false ∧ f.nak = false ∧ f.lseq ≠ e.rxNext ∧
      e.nakAt = some t ∧ Config.linkTime s.tick < t + Config.roundTrip) ∧
    (∃ (s : State) (m : ModuleId) (f : Flit) (e : ModEnd) (t : Nat), Receives s m e ∧ f.nul = false ∧ f.nak = false ∧ f.lseq ≠ e.rxNext ∧
      e.nakAt = some t ∧ t + Config.roundTrip ≤ Config.linkTime s.tick) ∧
    (∃ (s : State) (m : ModuleId) (f : Flit) (e : ModEnd), Receives s m e ∧ f.crc = flitCheck (onDie m) f ∧ f.nul = false ∧ f.nak = false ∧
      f.lseq = e.rxNext) ∧
    (∃ (e : ModEnd) (first ack : BitVec 7) (x : Txn) (rest : List (BitVec 7 × Txn)) (n : Nat), e.replay = (first, x) :: rest ∧
      n = (ack - first + 1#7).toNat ∧ 0 < n ∧ n ≤ e.replay.length) ∧
    (∃ (e : ModEnd) (first ack : BitVec 7) (x : Txn) (rest : List (BitVec 7 × Txn)) (n : Nat), e.replay = (first, x) :: rest ∧
      n = (ack - first + 1#7).toNat ∧ (n = 0 ∨ e.replay.length < n)) ∧
    (∃ (s : State) (m : ModuleId), (s.fab.modEnd m).state = 0#2 ∧ onDie m = false) ∧
    (∃ (s : State) (m : ModuleId) (t : LaneTest), Retrains s m ∧ t.lower0 ≤ 2 ∧ t.lower1 ≤ 2 ∧ 2 < t.upper1) ∧
    (∃ (s : State) (m : ModuleId) (t : LaneTest), Retrains s m ∧ 2 < t.lower0 ∧ t.upper0 ≤ 2 ∧ t.upper1 ≤ 2) ∧
    (∃ (s : State) (m : ModuleId) (t : LaneTest), Retrains s m ∧ 2 < t.lower0 ∧ 2 < t.upper1 ∧
      m.module < 16 ∧ ∃ k < 16, k ≠ m.module ∧ (s.fab.modEnd ⟨m.boundary, m.plane, k, false⟩).state ≠ 2#2) := by
  let e : ModEnd := { ModEnd.fresh (modA 3) with replay := [(127#7, txnA 5), (0#7, txnA 6)] }
  let r : ModEnd := { ModEnd.fresh (modA 3) with state := 1 }
  obtain ⟨t, ht⟩ := link_time_reached (0 + Config.roundTrip)
  let late : State := { sModule { ModEnd.fresh (modA 3) with nakAt := some 0 } with tick := t }
  let soon : State := sModule { ModEnd.fresh (modA 3) with nakAt := some (Config.linkTime base.tick + 1) }
  refine ⟨⟨base, modA 3, { flitA 0 with crc := flitCheck false (flitA 0) + 1 }, _, ⟨rfl, by decide +kernel⟩, by decide +kernel, by decide +kernel⟩,
    ⟨soon, modA 3, flitA 9, _, _, ⟨rfl, by decide +kernel⟩, rfl, rfl, by decide +kernel, rfl, ?_⟩,
    ⟨late, modA 3, flitA 9, ({ ModEnd.fresh (modA 3) with nakAt := some 0 }), 0, ⟨rfl, by decide +kernel⟩, rfl, rfl, by decide +kernel, rfl, ?_⟩,
    ⟨base, modA 3, checked (modA 3) (flitA 0), _, ⟨rfl, by decide +kernel⟩, by decide +kernel, rfl, rfl, by decide +kernel⟩,
    ⟨e, 127, 0, txnA 5, [(0#7, txnA 6)], 2, rfl, by decide, by decide, by decide⟩,
    ⟨e, 127, 9, txnA 5, [(0#7, txnA 6)], 11, rfl, by decide, .inr (by decide)⟩,
    ⟨base, modA 3, by decide +kernel, by decide⟩,
    ⟨sModule r, modA 3, ⟨2, 0, 1, 3⟩, ⟨by decide +kernel, by intro x hx; cases hx⟩, by decide, by decide, by decide⟩,
    ⟨sModule r, modA 3, ⟨3, 2, 0, 2⟩, ⟨by decide +kernel, by intro x hx; cases hx⟩, by decide, by decide, by decide⟩,
    ⟨sModule r, modA 3, ⟨3, 0, 0, 3⟩, ⟨by decide +kernel, by intro x hx; cases hx⟩, by decide, by decide, by decide, 4, by decide, by decide, by decide +kernel⟩⟩
  · show Config.linkTime base.tick < Config.linkTime base.tick + 1 + Config.roundTrip
    omega
  · exact ht


/-! ## Requests, planes, commands -/

/-- A request from die 1 to die 0 in plane 2, the first of its stream. -/
def fonakA (op : BitVec 6) (src dst : Nat) : FonakReq :=
  { key := ⟨src, dst, 2⟩, srcDie := src, dstDie := dst, space := 0, eseq := 0, resend := false, op := op, line := 0xA000, attr := 0, gmask := 0, psn := 0,
    bmask := byteMask 8 8, data := 7, compare := 0x500000, body := [], regs := List.replicate 32 0#64, reserved := false }
theorem first (r : FonakReq) (h : base.arrives r = true) (h2 : r.reserved = false) (h3 : r.eseq = 0) : InOrder base r r.op :=
  ⟨h, h2, rfl, h3⟩
def twinA : Twin := ⟨1, 0, 0, 0, 0xA000, 1, 9, 0, 0⟩

/-- The same request of a line of control space, and of a bank-linear line whose bank still works off what waited for it. -/
def toControl (r : FonakReq) : FonakReq := { r with line := 2 ^ 34 }
def toBank (r : FonakReq) : FonakReq := { r with line := 2 ^ 33 }
def sBusyBank : State := base.setBank 0 { Bank.reset with susp := true }

/-- A body runs at its home. -/
def ran (x : State × Except BodyStop HomeRun) : Bool :=
  match x.2 with
  | .ok _ => true
  | .error _ => false
theorem of_ran {x : State × Except BodyStop HomeRun} (h : ran x = true) : ∃ t k, x = (t, .ok k) := by
  obtain ⟨t, y⟩ := x
  cases y with
  | ok k => exact ⟨t, k, rfl⟩
  | error e => exact absurd h Bool.false_ne_true
/-- A region whose body loads the dword at x1. -/
def bodyReq : FonakReq := { fonakA 3 1 0 with body := [wordOf (.ld 4 1 2 0)], regs := 0#64 :: 0x500000#64 :: List.replicate 30 0#64 }

theorem witness_reads :
    (∃ (s : State) (r : FonakReq), InOrder s r 0#6 ∧ paRegion (r.line * 128) ≠ 2 ∧ s.bankBusy r.line = false) ∧
    (∃ (s : State) (r : FonakReq), InOrder s r 0#6 ∧ paRegion (r.line * 128) = 2) ∧
    (∃ (s : State) (r : FonakReq), InOrder s r 0#6 ∧ s.bankBusy r.line = true) ∧
    (∃ (s : State) (r : FonakReq), InOrder s r 1#6 ∧ atWindow r = false ∧ paRegion (r.line * 128) ≠ 2 ∧ s.bankBusy r.line = false) ∧
    (∃ (s : State) (r : FonakReq), InOrder s r 1#6 ∧ atWindow r = false ∧ paRegion (r.line * 128) = 2) ∧
    (∃ (s : State) (r : FonakReq), InOrder s r 1#6 ∧ atWindow r = false ∧ s.bankBusy r.line = true) :=
  have order (r : FonakReq) (h : base.arrives r = true) (h2 : r.reserved = false) (h3 : r.eseq = 0) : InOrder sBusyBank r r.op := ⟨h, h2, rfl, h3⟩
  ⟨⟨base, fonakA 0 1 0, first _ (by decide) rfl rfl, by decide +kernel, by decide +kernel⟩,
    ⟨base, toControl (fonakA 0 1 0), first (toControl _) (by decide) rfl rfl, by decide +kernel⟩,
    ⟨sBusyBank, toBank (fonakA 0 1 0), order (toBank _) (by decide) rfl rfl, by decide +kernel⟩,
    ⟨base, fonakA 1 1 0, first _ (by decide) rfl rfl, by decide +kernel, by decide +kernel, by decide +kernel⟩,
    ⟨base, toControl (fonakA 1 1 0), first (toControl _) (by decide) rfl rfl, by decide +kernel, by decide +kernel⟩,
    ⟨sBusyBank, toBank (fonakA 1 1 0), order (toBank _) (by decide) rfl rfl, by decide +kernel, by decide +kernel⟩⟩

theorem witness_fonak :
    (∃ (s t : State) (r : FonakReq) (i : Nat) (old : Word) (psn : Bool), InOrder s r 2#6 ∧ paRegion (r.line * 128) = 0 ∧
      r.attr.toNat % 16 < 10 ∧ i < 16 ∧ r.bmask = byteMask (8 * i) 8 ∧
      (s.sourceSent r).atomicHome r.space (r.line * 128 + 8 * i) (BitVec.ofNat 4 r.attr.toNat) (BitVec.ofNat 64 (getElt r.data 64 i)) r.compare
        (r.attr.getLsbD 8) none = (t, old, psn)) ∧
    (∃ (s t : State) (r : FonakReq) (h : HomeRun), InOrder s r 3#6 ∧ paRegion (r.line * 128) = 0 ∧ legalBody r.body = true ∧ r.regs.length = 32 ∧
      (s.sourceSent r).regionHome r.space (r.line * 128) (r.compare.toNat / 128) (r.attr.getLsbD 8) none
        ((List.range 32).foldl (fun (v : Vector Word 32) (k : Nat) => v.setIfInBounds k (r.regs.getD k 0#64)) (Vector.replicate 32 0#64))
        (bodyInstrs r.body) = (t, .ok h)) ∧
    (∃ (s : State) (r : FonakReq), InOrder s r 4#6 ∧ ∀ e ∈ s.fab.atBank, e.2.key ≠ r.key) ∧
    (∃ (s : State) (r : FonakReq), InOrder s r 5#6 ∧ s.terak.agent ≠ .nobody) := by
  obtain ⟨t, h, e⟩ := of_ran (x := (base.sourceSent bodyReq).regionHome bodyReq.space (bodyReq.line * 128) (bodyReq.compare.toNat / 128)
    (bodyReq.attr.getLsbD 8) none
    ((List.range 32).foldl (fun (v : Vector Word 32) (k : Nat) => v.setIfInBounds k (bodyReq.regs.getD k 0#64)) (Vector.replicate 32 0#64))
    (bodyInstrs bodyReq.body)) (by decide +kernel)
  exact ⟨⟨base, _, fonakA 2 1 0, 1, _, _, first _ (by decide) rfl rfl, by decide +kernel, by decide, by decide, rfl, rfl⟩,
    ⟨base, t, bodyReq, h, first bodyReq (by decide +kernel) rfl rfl, by decide +kernel, by decide +kernel, by decide +kernel, e⟩,
    ⟨base, fonakA 4 1 0, first _ (by decide) rfl rfl, fun e he => nomatch he⟩,
    ⟨sOwned, fonakA 5 1 0, ⟨by decide +kernel, rfl, rfl, by decide +kernel⟩, by decide +kernel⟩⟩

theorem witness_twins :
    (∃ (s : State) (r : FonakReq) (w : Twin), r.key.src < 4 ∧ r.key.dst < 4 ∧ InOrder s r 6#6 ∧ paDie (r.line * 128) = r.key.dst ∧
      s.isLocal (r.line * 128) = true ∧ s.mm.twins.find? (fun x => x.line == r.line && x.writer == r.key.src) = some w) ∧
    (∃ (s t : State) (r : FonakReq) (v : LineVal), r.key.src < 4 ∧ r.key.dst < 4 ∧ InOrder s r 6#6 ∧ paDie (r.line * 128) = r.key.dst ∧
      s.isLocal (r.line * 128) = true ∧ s.mm.twins.find? (fun x => x.line == r.line && x.writer == r.key.src) = none ∧
      (s.sourceSent r).checkOut r.compare.toNat r.compare.toNat r.key.src r.line = (t, v)) ∧
    (∃ (s : State) (r : FonakReq), r.key.src < 4 ∧ r.key.dst < 4 ∧ InOrder s r 7#6 ∧ paDie (r.line * 128) = r.key.dst) ∧
    (∃ (s : State) (r : FonakReq), r.key.src < 4 ∧ r.key.dst < 4 ∧ InOrder s r 8#6 ∧ paDie (r.line * 128) = r.key.src ∧
      s.mm.l2.Pairwise (fun a b => a.same b = false)) ∧
    (∃ (s : State) (r : FonakReq) (g i base pa : Nat), InOrder s r 11#6 ∧ i < 16 ∧ r.bmask = byteMask (8 * i) 8 ∧
      getKey g s.fe.mcast = some base ∧ pa = base + (r.line * 128 + 8 * i) % 4096 ∧ s.bankBusy (pa / 128) = false) :=
  ⟨⟨{ base with mm := { base.mm with twins := [twinA] } }, fonakA 6 1 0, twinA, by decide, by decide, ⟨by decide +kernel, rfl, rfl, by decide +kernel⟩,
      by decide +kernel, by decide +kernel, by decide +kernel⟩,
    ⟨base, _, fonakA 6 1 0, _, by decide, by decide, first _ (by decide) rfl rfl, by decide +kernel, by decide +kernel, by decide +kernel, rfl⟩,
    ⟨base, fonakA 7 1 0, by decide, by decide, first _ (by decide) rfl rfl, by decide +kernel⟩,
    ⟨base, fonakA 8 0 1, by decide, by decide, first _ (by decide) rfl rfl, by decide +kernel, by decide +kernel⟩,
    ⟨{ base with fe := { base.fe with mcast := [(5, 0x500000)] } }, fonakA 11 1 0, 5, 1, 0x500000, _, ⟨by decide +kernel, rfl, rfl, by decide +kernel⟩,
      by decide, rfl, by decide +kernel, rfl, by decide +kernel⟩⟩

/-- A filter that has seen request 0 of a stream, and the source side of a stream with one request that hart 1 waits for. -/
def filterA (fin : List (BitVec 20 × Option FonakDone)) : Filter := ⟨⟨1, 0, 2⟩, 1, fin, false, none⟩
def sFilter (fin : List (BitVec 20 × Option FonakDone)) : State := { base with fab := { base.fab with filters := [filterA fin] } }
def streamA (r : FonakReq) (marked : Bool) : Stream := ⟨r.key, 1, [r], [(0#20, 1)], marked, []⟩
def doneA : FonakDone :=
  { key := ⟨0, 4, 2⟩, srcDie := 0, dstDie := 0, eseq := 0, resend := false, op := 0, line := 0, attr := 0, data := 0, psn := 0, regs := [] }
def sStream (r : FonakReq) : State := { base with fab := { base.fab with streams := [streamA r false] } }

theorem witness_resends :
    (∃ (s : State) (r : FonakReq) (i : Instr) (fin : Option FonakDone) (e : BitVec 20 × Option FonakDone), s.arrives r = true ∧ r.reserved = false ∧
      r.eseq ≠ (s.fab.filterOf r.key).expected ∧ (i = .fonakPostedWrite r ∧ r.op = 1#6 ∧ atWindow r = false) ∧
      (∀ x ∈ s.fab.atBank, ¬(x.2.key = r.key ∧ x.2.eseq = r.eseq)) ∧
      (s.fab.filterOf r.key).recorded.find? (fun x => x.1 == r.eseq) = some e ∧ e.2 = fin) ∧
    (∃ (s : State) (r : FonakReq) (i : Instr), s.arrives r = true ∧ r.reserved = false ∧ r.eseq ≠ (s.fab.filterOf r.key).expected ∧
      (i = .fonakAtomic r ∧ r.op = 2#6 ∧ r.attr.toNat % 16 < 10 ∧ paRegion (r.line * 128) = 0) ∧
      (s.fab.filterOf r.key).recorded.find? (fun x => x.1 == r.eseq) = none) ∧
    (∃ (s : State) (r : FonakReq) (i : Instr), s.arrives r = true ∧ r.reserved = false ∧ r.eseq ≠ (s.fab.filterOf r.key).expected ∧
      (i = .fonakRegion r ∧ r.op = 3#6 ∧ legalBody r.body = true ∧ paRegion (r.line * 128) = 0)) ∧
    (∃ (s : State) (r : FonakReq) (i : Instr), s.arrives r = true ∧ r.reserved = false ∧ r.eseq ≠ (s.fab.filterOf r.key).expected ∧
      (i = .fonakInterrupt r ∧ r.op = 5#6)) ∧
    (∃ (s : State) (d : FonakDone), s.outstandingAt d.key d.eseq = none) ∧
    (∃ (s : State) (d : FonakDone) (r : FonakReq), s.outstandingAt d.key d.eseq = some (r, s.hart.uid) ∧ (r.op = 0#6 ∨ r.op = 2#6 ∨ r.op = 3#6) ∧
      s.hart.isResident = true) ∧
    (∃ (s : State) (d : FonakDone) (r : FonakReq) (uid : Nat), s.outstandingAt d.key d.eseq = some (r, uid) ∧ bringsReply r = false ∧
      s.fe.leagues = [] ∧ s.fab.atBank = []) :=
  ⟨⟨sFilter [(0#20, none)], fonakA 1 1 0, _, none, (0#20, none), by decide +kernel, rfl, by decide +kernel, ⟨rfl, rfl, by decide +kernel⟩, (fun e he => nomatch he), by decide +kernel, rfl⟩,
    ⟨sFilter [], fonakA 2 1 0, _, by decide +kernel, rfl, by decide +kernel, ⟨rfl, rfl, by decide, by decide +kernel⟩, by decide +kernel⟩,
    ⟨sFilter [], fonakA 3 1 0, _, by decide +kernel, rfl, by decide +kernel, rfl, rfl, by decide +kernel, by decide +kernel⟩,
    ⟨sFilter [], fonakA 5 1 0, _, by decide +kernel, rfl, by decide +kernel, rfl, rfl⟩,
    ⟨base, doneA, by decide +kernel⟩,
    ⟨sStream (fonakA 0 0 4), doneA, fonakA 0 0 4, by decide +kernel, .inl rfl, by decide +kernel⟩,
    ⟨sStream (fonakA 1 0 4), doneA, fonakA 1 0 4, 1, by decide +kernel, rfl, rfl, rfl⟩⟩

theorem witness_timeouts :
    (∃ (s : State) (k : StreamKey) (e : BitVec 20) (r : FonakReq), s.outstandingAt k e = some (r, s.hart.uid) ∧ s.timeoutStands k = false ∧
      s.hart.isResident = true ∧ (r.op = 0#6 ∨ r.op = 2#6 ∨ r.op = 3#6)) ∧
    (∃ (s : State) (k : StreamKey) (e : BitVec 20) (r : FonakReq) (j : Job), s.outstandingAt k e = some (r, s.hart.uid) ∧ s.timeoutStands k = false ∧
      s.hart.isResident = true ∧ (r.op = 1#6 ∨ r.op = 11#6) ∧ s.terak.fail = 0#8 ∧ s.jobOf s.hart.asid = some j) ∧
    (∃ (s : State) (t : Stream) (r : FonakReq) (i : Nat), s.fab.streams = [t] ∧ t.key.plane = 8 ∧ t.outstanding = [r] ∧
      t.waiting = [(r.eseq, s.hart.uid)] ∧ s.hart.isResident = true ∧ i < 16 ∧ r.bmask = byteMask (8 * i) 8) ∧
    (∃ (s : State) (k : StreamKey), (s.fab.filterOf k).gap = false) ∧ (∃ (s : State) (k : StreamKey), (s.fab.filterOf k).gap = true) ∧
    (∃ (s : State) (k : StreamKey), (s.fab.stream k).outstanding ≠ []) ∧
    (∃ (s : State) (k : StreamKey), k.plane < 8 ∧ s.fab.dead.getLsbD k.plane = true ∧ s.fab.quiesce = .running) := by
  let p : FonakReq := { fonakA 2 0 4 with key := ⟨0, 4, 8⟩ }
  exact ⟨⟨sStream (fonakA 2 0 4), ⟨0, 4, 2⟩, 0, fonakA 2 0 4, by decide +kernel, by decide +kernel, by decide +kernel, .inr (.inl rfl)⟩,
    ⟨sStream (fonakA 1 0 4), ⟨0, 4, 2⟩, 0, fonakA 1 0 4, loadJob, by decide +kernel, by decide +kernel, by decide +kernel, .inl rfl, by decide +kernel, by decide +kernel⟩,
    ⟨sStream p, _, p, 1, rfl, rfl, rfl, by decide +kernel, by decide +kernel, by decide, rfl⟩,
    ⟨base, ⟨1, 0, 2⟩, by decide +kernel⟩,
    ⟨{ base with fab := { base.fab with filters := [{ filterA [] with gap := true }] } }, ⟨1, 0, 2⟩, by decide +kernel⟩,
    ⟨sStream (fonakA 1 0 4), ⟨0, 4, 2⟩, by decide +kernel⟩,
    ⟨{ base with fab := { base.fab with dead := 4 } }, ⟨0, 1, 2⟩, by decide, by decide +kernel, by decide +kernel⟩⟩

/-- The fabric with plane 2 dead, at some step of R411. -/
def sDead (dead : BitVec 8) (q : Quiesce) (l : List Stream) : State :=
  { base with fab := { base.fab with dead := dead, quiesce := q, streams := l } }

theorem witness_planes :
    (∃ (s : State) (p : Nat), p < 8 ∧ s.fab.dead.getLsbD p = false ∧ s.terak.fail = 0#8 ∧ ∀ e ∈ s.err.counts, drainer e.1 ≠ none) ∧
    (∃ (s : State) (p x y : Nat), p < 8 ∧ x < 16 ∧ y < 16 ∧ (p, x, y) ∉ s.fab.deadRouters ∧ s.fab.dead.getLsbD p = false ∧ s.terak.fail = 0#8) ∧
    (∃ (s : State) (p : Nat), p < 8 ∧ s.fab.quiesce = .running ∧ s.terak.fail = 0#8) ∧
    (∃ (s : State) (p : Nat), s.fab.quiesce = .quiesced p ∧ s.fab.dead.getLsbD p = true ∧ (∀ t ∈ s.fab.streams, t.key.plane = p ∨ 8 ≤ t.key.plane ∨ t.outstanding = []) ∧
      ∃ t ∈ s.fab.streams, t.key.plane = p ∧ t.outstanding ≠ []) ∧
    (∃ (s : State) (p : Nat), s.fab.quiesce = .quiesced p ∧ s.fab.dead.getLsbD p = false ∧
      (∀ t ∈ s.fab.streams, t.key.plane = p → t.marked = true ∨ ∀ r ∈ t.outstanding, s.fab.lostOn p r = true) ∧
      ∃ t ∈ s.fab.streams, t.key.plane = p ∧ t.outstanding ≠ []) ∧
    (∃ (s : State) (p : Nat), p < 8 ∧ s.fab.quiesce = .drained p ∧ s.fab.dead.getLsbD p = true ∧ (∃ q < 8, s.fab.dead.getLsbD q = false) ∧ s.terak.fail = 0#8) ∧
    (∃ (s : State) (p : Nat), p < 8 ∧ s.fab.quiesce = .drained p ∧ s.fab.dead.getLsbD p = true ∧ (∀ q < 8, s.fab.dead.getLsbD q = true) ∧ s.terak.fail = 0#8) ∧
    (∃ (f : Fabric) (d k b : Nat), f.livePlanes ≠ [] ∧ b < 64 ∧ f.planeMap[b]? = some (BitVec.ofNat 3 d) ∧ d < 8 ∧
      k = ((List.range b).filter (fun c => f.planeMap[c]? == some (BitVec.ofNat 3 d))).length) ∧
    (∃ (s : State) (p : Nat) (t : Stream), s.fab.quiesce = .remapped p ∧ s.fab.streams = [t] ∧ t.marked = true ∧ t.key.plane = p ∧
      s.fe.leagues = []) ∧
    (∃ (s : State) (p : Nat), s.fab.quiesce = .drained p ∧ s.fab.dead.getLsbD p = false ∧ s.fab.streams = [] ∧ s.fe.leagues = []) :=
  ⟨⟨base, 7, by decide, by decide +kernel, by decide +kernel, fun e he => nomatch he⟩,
    ⟨base, 7, 15, 15, by decide +kernel⟩,
    ⟨base, 7, by decide, by decide +kernel, by decide +kernel⟩,
    ⟨sDead 4 (.quiesced 2) [streamA (fonakA 1 0 4) false], 2, rfl, by decide +kernel, by decide +kernel, by decide +kernel⟩,
    ⟨sDead 0 (.quiesced 2) [streamA (fonakA 1 0 4) true], 2, rfl, by decide +kernel, by decide +kernel, by decide +kernel⟩,
    ⟨sDead 4 (.drained 2) [], 2, by decide, rfl, by decide +kernel, ⟨7, by decide, by decide +kernel⟩, by decide +kernel⟩,
    ⟨sDead 0xFF (.drained 2) [], 2, by decide, rfl, by decide +kernel, by decide +kernel, by decide +kernel⟩,
    ⟨base.fab, 2, 1, 10, by decide +kernel⟩,
    ⟨sDead 4 (.remapped 2) [streamA (fonakA 1 0 4) true], 2, _, rfl, rfl, rfl, rfl, rfl⟩, ⟨sDead 0 (.drained 2) [], 2, rfl, by decide +kernel, rfl, rfl⟩⟩


/-- An owned device whose address space 0 maps the first GiB, with the descriptor `d` of a job at 0x500000. -/
def sHost (d : Nat) (jobs : List Job) : State :=
  { sOwned with fe := { sOwned.fe with roots := [(0, loadRoot), (1, loadRoot)], jobs := jobs, qcount := 8 },
                mm := { sOwned.mm with bytes := Memory.write sOwned.mm.bytes 0x500000 (bytesOfNat 128 d) } }
def cmdOf (agent : Agent) (a0 a1 a2 : Word) : MbCmd := ⟨0, agent, a0, a1, a2, 0⟩

/-- `MailboxIdle` as a test. -/
def idles (s : State) (c : MbCmd) : Bool :=
  s.frontEndsUp && s.terak.restarting.isEmpty && decide (c.die < 4) && (s.fe.running.isEmpty && s.fe.refused.isEmpty) && s.mbGet c.die 5 != 0xFFFF#64
theorem idle_of {s : State} {c : MbCmd} (h : idles s c = true) : MailboxIdle s c := by
  simp only [idles, Bool.and_eq_true, decide_eq_true_iff, List.isEmpty_iff, bne_iff_ne] at h
  exact ⟨h.1.1.1.1, h.1.1.1.2, h.1.1.2, h.1.2, h.2⟩

/-- The descriptor of a job is read, with a fact of what it gives. -/
def describes (s : State) (c : MbCmd) (p : List (Byte × Bool) → State → Bool) : Bool :=
  succeeds (readRange (frontEnd c.die 0) c.a0.toNat 128 (s.mbBegun 1 c)) (fun l t => l.all (fun b => !b.2) && p l t)
theorem of_describes {s : State} {c : MbCmd} {p : List (Byte × Bool) → State → Bool} (h : describes s c p = true) :
    ∃ l t, readRange (frontEnd c.die 0) c.a0.toNat 128 (s.mbBegun 1 c) = .ok (l, t) ∧ (∀ b ∈ l, b.2 = false) ∧ p l t = true := by
  obtain ⟨l, t, e, hp⟩ := of_succeeds h
  rw [Bool.and_eq_true, List.all_eq_true] at hp
  exact ⟨l, t, e, fun b hb => by simpa using hp.1 b hb, hp.2⟩

/-- The premises that the clauses of JOBCREATE share. -/
def Described (s t : State) (c : MbCmd) (l : List (Byte × Bool)) (j : Job) : Prop :=
  MailboxIdle s c ∧ s.terak.ready = true ∧ s.owns c.agent = true ∧
    c.a0.toNat % 8 = 0 ∧ readRange (frontEnd c.die 0) c.a0.toNat 128 (s.mbBegun 1 c) = .ok (l, t) ∧ (∀ b ∈ l, b.2 = false) ∧
    j = descJob (l.map (·.1))

def createCmd : MbCmd := cmdOf .pcie 0x500000 0 0
theorem described {s : State} {p : List Byte → Job → State → Bool} (h1 : idles s createCmd = true) (h2 : (s.terak.ready && s.owns .pcie) = true)
    (h : describes s createCmd (fun l t => p (l.map (·.1)) (descJob (l.map (·.1))) t) = true) :
    ∃ t l j, Described s t createCmd l j ∧ p (l.map (·.1)) j t = true := by
  obtain ⟨l, t, e, hb, h⟩ := of_describes h
  rw [Bool.and_eq_true] at h2
  exact ⟨t, l, _, ⟨idle_of h1, h2.1, h2.2, by decide, e, hb, rfl⟩, h⟩

/-- Descriptors of job 2: with no banks; encrypted, with banks of 64 rows; with reach memory on die 0; with a bank map. -/
def descPlain : Nat := 2
def descEnc : Nat := 2 + 1 * 2 ^ 16 + 64 * 2 ^ 32
def descReach : Nat := 2 + 8192 * 2 ^ 320
def descMap : Nat := 2 + 64 * 2 ^ 32 + 0x510000 * 2 ^ 128
/-- A device whose bank map at 0x510000 asks for one bank. -/
def sMap (bank : Nat) (jobs : List Job) : State :=
  { sHost descMap jobs with mm := { (sHost descMap jobs).mm with
      bytes := Memory.write (sHost descMap jobs).mm.bytes (0x510000 + bank / 8) (bytesOfNat 1 (2 ^ (bank % 8))) } }

theorem witness_jobcreate :
    (∃ (s : State) (c : MbCmd) (i : Instr) (code : Nat), ownerOnly i = some (code, c) ∧ MailboxIdle s c ∧ (code = 1 → s.terak.ready = true) ∧
      s.owns c.agent = false) ∧
    (∃ (s t : State) (c : MbCmd) (l : List (Byte × Bool)) (j : Job), Described s t c l j ∧ t.badDesc (l.map (·.1)) j = true) ∧
    -- with no bank and no key; with every free bank and a key; a barred die; no key left
    (∃ (s t : State) (c : MbCmd) (l : List (Byte × Bool)) (j : Job), Described s t c l j ∧ t.badDesc (l.map (·.1)) j = false ∧ j.bl = 0 ∧
      t.barredJob j = false ∧ j.enc = false) ∧
    (∃ (s t : State) (c : MbCmd) (l : List (Byte × Bool)) (j : Job) (key : Nat), Described s t c l j ∧ t.badDesc (l.map (·.1)) j = false ∧
      fieldAt (l.map (·.1)) 0x10 8 = 0 ∧ j.bl ≠ 0 ∧ t.barredJob j = false ∧ j.enc = true ∧ t.freeKey = some key) ∧
    (∃ (s t : State) (c : MbCmd) (l : List (Byte × Bool)) (j : Job), Described s t c l j ∧ t.badDesc (l.map (·.1)) j = false ∧ j.bl = 0 ∧
      t.barredJob j = true) ∧
    (∃ (s t : State) (c : MbCmd) (l : List (Byte × Bool)) (j : Job), Described s t c l j ∧ t.badDesc (l.map (·.1)) j = false ∧
      fieldAt (l.map (·.1)) 0x10 8 = 0 ∧ j.enc = true ∧ t.freeKey = none) := by
  have created {d : Nat} {jobs : List Job} {p : List Byte → Job → State → Bool} (h : describes (sHost d jobs) createCmd
      (fun l t => p (l.map (·.1)) (descJob (l.map (·.1))) t) = true) (h1 : idles (sHost d jobs) createCmd = true) :
      ∃ t l j, Described (sHost d jobs) t createCmd l j ∧ p (l.map (·.1)) j t = true := described h1 rfl h
  obtain ⟨t1, l1, j1, d1, h1⟩ := created (d := 1) (jobs := [loadJob]) (p := fun l j t => t.badDesc l j) (by decide +kernel) (by decide +kernel)
  obtain ⟨t2, l2, j2, d2, h2⟩ := created (d := descPlain) (jobs := [])
    (p := fun l j t => !t.badDesc l j && (j.bl == 0 && (!t.barredJob j && !j.enc))) (by decide +kernel) (by decide +kernel)
  obtain ⟨t3, l3, j3, d3, h3⟩ := created (d := descEnc) (jobs := [])
    (p := fun l j t => !t.badDesc l j && (fieldAt l 0x10 8 == 0 && (j.bl != 0 && (!t.barredJob j && (j.enc && t.freeKey == some 1)))))
    (by decide +kernel) (by decide +kernel)
  let barred : State := sHost descReach []
  obtain ⟨t4, l4, j4, d4, h4⟩ := described (s := { barred with err := { barred.err with barred := [0] } })
    (p := fun l j t => !t.badDesc l j && (j.bl == 0 && t.barredJob j)) (by decide +kernel) rfl (by decide +kernel)
  let full : State := sHost descEnc []
  obtain ⟨t5, l5, j5, d5, h5⟩ := described
    (s := { full with terak := { full.terak with keySlots := (List.range 255).map (fun k => (k + 1, 0#512)) } })
    (p := fun l j t => !t.badDesc l j && (fieldAt l 0x10 8 == 0 && (j.enc && t.freeKey == none))) (by decide +kernel) rfl (by decide +kernel)
  simp only [Bool.and_eq_true, Bool.not_eq_true', beq_iff_eq, bne_iff_ne] at h2 h3 h4 h5
  exact ⟨⟨sOwned, cmdOf .i3c 1 0 0, .jobend (cmdOf .i3c 1 0 0), 2, rfl, idle_of (by decide +kernel), by decide, by decide +kernel⟩,
    ⟨_, t1, _, l1, j1, d1, h1⟩, ⟨_, t2, _, l2, j2, d2, h2.1, h2.2.1, h2.2.2.1, h2.2.2.2⟩,
    ⟨_, t3, _, l3, j3, 1, d3, h3.1, h3.2.1, h3.2.2.1, h3.2.2.2.1, h3.2.2.2.2.1, h3.2.2.2.2.2⟩,
    ⟨_, t4, _, l4, j4, d4, h4.1, h4.2.1, h4.2.2⟩, ⟨_, t5, _, l5, j5, d5, h5.1, h5.2.1, h5.2.2.1, h5.2.2.2⟩⟩

/-- A bank map is read, with a fact of the banks it asks for. -/
def mapped (t : State) (p : BitVec 65536 → State → Bool) : Bool :=
  succeeds (readRange (frontEnd 0 0) (BitVec.ofNat 64 0x510000).toNat 8192 t) (fun m w =>
    m.all (fun b => !b.2) && p (BitVec.ofNat 65536 (natOfBytes (m.map (·.1)))) w)

/-- The premises that the clauses of JOBCREATE with a bank map share. -/
def Mapped (s t w : State) (c : MbCmd) (l m : List (Byte × Bool)) (j : Job) (banks : BitVec 65536) : Prop :=
  Described s t c l j ∧ t.badDesc (l.map (·.1)) j = false ∧ fieldAt (l.map (·.1)) 0x10 8 ≠ 0 ∧ j.bl ≠ 0 ∧
    readRange (frontEnd c.die 0) (BitVec.ofNat 64 (fieldAt (l.map (·.1)) 0x10 8)).toNat 8192 t = .ok (m, w) ∧ (∀ b ∈ m, b.2 = false) ∧
    banks = BitVec.ofNat 65536 (natOfBytes (m.map (·.1)))

theorem mapped_of {s : State} {p : Job → BitVec 65536 → State → Bool} (h1 : idles s createCmd = true) (h2 : (s.terak.ready && s.owns .pcie) = true)
    (h : describes s createCmd (fun l t => !t.badDesc (l.map (·.1)) (descJob (l.map (·.1))) &&
      (fieldAt (l.map (·.1)) 0x10 8 == 0x510000 && ((descJob (l.map (·.1))).bl != 0 && mapped t (p (descJob (l.map (·.1))))))) = true) :
    ∃ t w l m j banks, Mapped s t w createCmd l m j banks ∧ p j banks w = true := by
  obtain ⟨t, l, j, d, hd⟩ := described (p := fun l j t => !t.badDesc l j && (fieldAt l 0x10 8 == 0x510000 && (j.bl != 0 && mapped t (p j)))) h1 h2 h
  simp only [Bool.and_eq_true, Bool.not_eq_true', beq_iff_eq, bne_iff_ne] at hd
  obtain ⟨hb, hf, hz, hm⟩ := hd
  obtain ⟨m, w, e, hp⟩ := of_succeeds hm
  rw [Bool.and_eq_true, List.all_eq_true] at hp
  exact ⟨t, w, l, m, j, _, ⟨d, hb, by rw [hf]; decide, hz, by rw [hf]; exact e, fun b hb => by simpa using hp.1 b hb, rfl⟩, hp.2⟩

theorem witness_bank_map :
    (∃ (s t w : State) (c : MbCmd) (l m : List (Byte × Bool)) (j : Job) (banks : BitVec 65536), Mapped s t w c l m j banks ∧
      banks &&& ~~~realBanks ≠ 0#65536) ∧
    (∃ (s t w : State) (c : MbCmd) (l m : List (Byte × Bool)) (j : Job) (banks : BitVec 65536), Mapped s t w c l m j banks ∧
      banks &&& ~~~realBanks = 0#65536 ∧ banks &&& (w.heldBanks ||| w.lostBanks) ≠ 0#65536) ∧
    (∃ (s t w : State) (c : MbCmd) (l m : List (Byte × Bool)) (j : Job) (banks : BitVec 65536), Mapped s t w c l m j banks ∧
      banks &&& ~~~realBanks = 0#65536 ∧ banks &&& (w.heldBanks ||| w.lostBanks) = 0#65536 ∧ w.barredJob j = false ∧ j.enc = false) := by
  let held : Job := { loadJob with banks := 32#65536, carve := #v[2 ^ 30, 2 ^ 30, 2 ^ 30, 2 ^ 30] }
  have asked {bank : Nat} {jobs : List Job} {p : Job → BitVec 65536 → State → Bool}
      (h : describes (sMap bank jobs) createCmd (fun l t => !t.badDesc (l.map (·.1)) (descJob (l.map (·.1))) &&
        (fieldAt (l.map (·.1)) 0x10 8 == 0x510000 && ((descJob (l.map (·.1))).bl != 0 && mapped t (p (descJob (l.map (·.1))))))) = true)
      (h1 : idles (sMap bank jobs) createCmd = true) :
      ∃ t w l m j banks, Mapped (sMap bank jobs) t w createCmd l m j banks ∧ p j banks w = true := mapped_of h1 rfl h
  obtain ⟨t1, w1, l1, m1, j1, b1, d1, h1⟩ := asked (bank := 16312) (jobs := []) (p := fun _ b _ => b &&& ~~~realBanks != 0#65536)
    (by decide +kernel) (by decide +kernel)
  obtain ⟨t2, w2, l2, m2, j2, b2, d2, h2⟩ := asked (bank := 5) (jobs := [held])
    (p := fun _ b w => b &&& ~~~realBanks == 0#65536 && b &&& (w.heldBanks ||| w.lostBanks) != 0#65536) (by decide +kernel) (by decide +kernel)
  obtain ⟨t3, w3, l3, m3, j3, b3, d3, h3⟩ := asked (bank := 5) (jobs := [])
    (p := fun j b w => b &&& ~~~realBanks == 0#65536 && (b &&& (w.heldBanks ||| w.lostBanks) == 0#65536 && (!w.barredJob j && !j.enc)))
    (by decide +kernel) (by decide +kernel)
  simp only [Bool.and_eq_true, Bool.not_eq_true', beq_iff_eq, bne_iff_ne] at h1 h2 h3
  exact ⟨⟨_, t1, w1, _, l1, m1, j1, b1, d1, h1⟩, ⟨_, t2, w2, _, l2, m2, j2, b2, d2, h2.1, h2.2⟩,
    ⟨_, t3, w3, _, l3, m3, j3, b3, d3, h3.1, h3.2.1, h3.2.2.1, h3.2.2.2⟩⟩

theorem witness_refusals :
    (∃ (s : State) (c : MbCmd), MailboxIdle s c ∧ s.owns c.agent = true ∧ s.terak.ready = true ∧ c.a0.toNat % 8 ≠ 0) ∧
    (∃ (s : State) (c : MbCmd), MailboxIdle s c ∧ s.owns c.agent = true ∧ s.terak.ready = false ∧ s.terak.fail = 0#8) ∧
    (∃ (s : State) (c : MbCmd), MailboxIdle s c ∧ s.owns c.agent = true ∧ c.a1.toNat % 2 ^ 20 ≠ 0) ∧
    (∃ (s : State) (c : MbCmd), MailboxIdle s c ∧ s.owns c.agent = true ∧ c.a1.toNat % 2 ^ 20 = 0 ∧ s.spaceExists c.a0.toNat = false) ∧
    (∃ (s : State) (c : MbCmd) (j : Job) (lo hi : Nat), MailboxIdle s c ∧ s.owns c.agent = true ∧ s.jobOf c.a0.toNat = some j ∧
      lo = c.a2.toNat % 16 ∧ hi = c.a2.toNat / 16 ∧ c.a2 ≠ 0#64 ∧ hi < lo) ∧
    (∃ (s : State) (c : MbCmd), MailboxIdle s c ∧ s.owns c.agent = true ∧ 2 < c.a2.toNat) ∧
    (∃ (s : State) (c : MbCmd) (i : Instr) (code : Nat) (r : Nat × MbCmd), ownerOnly i = some (code, c) ∧ s.frontEndsUp = true ∧ c.die < 4 ∧
      s.terak.fail = 0#8 ∧ s.runningAt c.die = some r ∧ (code, c) ∉ s.fe.running ∧ (code = 1 → s.terak.ready = true)) :=
  ⟨⟨sOwned, cmdOf .pcie 4 0 0, idle_of (by decide +kernel), by decide +kernel, by decide +kernel, by decide⟩,
    ⟨{ sOwned with terak := { sOwned.terak with ready := false } }, cmdOf .pcie 8 0 0, idle_of (by decide +kernel), by decide +kernel, rfl, by decide +kernel⟩,
    ⟨sOwned, cmdOf .pcie 1 1 0, idle_of (by decide +kernel), by decide +kernel, by decide⟩,
    ⟨sOwned, cmdOf .pcie 9 0 0, idle_of (by decide +kernel), by decide +kernel, by decide, by decide +kernel⟩,
    ⟨sOwned, cmdOf .pcie 1 0x400000 0x7C, loadJob, 12, 7, idle_of (by decide +kernel), by decide +kernel, by decide +kernel, rfl, rfl, by decide, by decide⟩,
    ⟨sOwned, cmdOf .pcie 1 0 3, idle_of (by decide +kernel), by decide +kernel, by decide⟩,
    ⟨{ sOwned with fe := { sOwned.fe with running := [(3, cmdOf .pcie 1 0 0)] } }, cmdOf .pcie 1 0 0, .jobcreate (cmdOf .pcie 1 0 0), 1, _, rfl, by decide +kernel,
      by decide, by decide +kernel, rfl, by decide +kernel, fun _ => by decide +kernel⟩⟩

theorem witness_job_commands :
    (∃ (s : State) (c : MbCmd) (j : Job), MailboxIdle s c ∧ s.owns c.agent = true ∧ s.planesMove = true ∧ s.jobOf c.a0.toNat = some j ∧ c.a2 = 0#64) ∧
    (∃ (s : State) (c : MbCmd) (j : Job) (lo hi : Nat), MailboxIdle s c ∧ s.owns c.agent = true ∧ s.jobOf c.a0.toNat = some j ∧
      c.a2.toNat = lo + 16 * hi ∧ 7 ≤ lo ∧ lo ≤ hi ∧ hi ≤ 12) ∧
    (∃ (s : State) (c : MbCmd), MailboxIdle s c ∧ s.owns c.agent = true ∧ s.jobOf c.a0.toNat = none) ∧
    (∃ (s : State) (c : MbCmd), MailboxIdle s c ∧ s.owns c.agent = true ∧ c.a1.toNat % 2 ^ 20 = 0 ∧ s.spaceExists c.a0.toNat = true) ∧
    (∃ (s : State) (c : MbCmd) (bits lo hi space : Nat), MailboxIdle s c ∧ s.owns c.agent = true ∧ s.planesMove = true ∧
      ((c.a2 = 0#64 ∧ bits = 16) ∨ (c.a2 = 1#64 ∧ bits = 21) ∨ (c.a2 = 2#64 ∧ bits = 30)) ∧
      lo = c.a1.toNat / 2 ^ bits * 2 ^ bits ∧ hi = lo + 2 ^ bits ∧ space = spaceOf c.a0.toNat c.a1) :=
  ⟨⟨sOwned, cmdOf .pcie 1 0x400000 0, loadJob, idle_of (by decide +kernel), by decide +kernel, by decide +kernel, by decide +kernel, rfl⟩,
    ⟨sOwned, cmdOf .pcie 1 0x400000 0xC7, loadJob, 7, 12, idle_of (by decide +kernel), by decide +kernel⟩,
    ⟨sOwned, cmdOf .pcie 5 0 0, idle_of (by decide +kernel), by decide +kernel, by decide +kernel⟩,
    ⟨sOwned, cmdOf .pcie 1 0x700000 0, idle_of (by decide +kernel), by decide +kernel, by decide, by decide +kernel⟩,
    ⟨sOwned, cmdOf .pcie 1 0x512345 1, 21, _, _, _, idle_of (by decide +kernel), by decide +kernel, by decide +kernel, .inr (.inl ⟨rfl, rfl⟩), rfl, rfl, rfl⟩⟩

theorem witness_device_commands :
    (∃ (s t : State) (c : MbCmd), MailboxIdle s c ∧ s.owns c.agent = true ∧ t = s.mbBegun 5 c ∧ c.a0.toNat < s.fe.qcount ∧ s.slotOf c.a0.toNat = none ∧
      s.fe.mapWait = []) ∧
    (∃ (s : State) (c : MbCmd), MailboxIdle s c ∧ s.owns c.agent = true ∧ s.fe.jobs = [] ∧ c.a0.toNat % 128 = 0 ∧ 1 ≤ c.a1.toNat ∧ c.a1.toNat ≤ 2 ^ 20 ∧
      c.a0.toNat < 2 ^ 19 ∧ s.planesMove = true) ∧
    (∃ (s : State) (c : MbCmd), MailboxIdle s c ∧ s.owns c.agent = true ∧ s.fe.jobs ≠ [] ∧ c.die = 0 ∧ c.a1.toNat % 2 ^ 32 = 0 ∧ s.spaceExists c.a0.toNat = true ∧
      c.a0.toNat < 256) ∧
    (∃ (s : State) (c : MbCmd), MailboxIdle s c ∧ s.owns c.agent = true ∧ c.die ≠ 0) ∧
    (∃ (s : State) (c : MbCmd), MailboxIdle s c ∧ s.owns c.agent = true ∧ c.a0.toNat < 65536 ∧ c.a1.getLsbD 63 = true) ∧
    (∃ (s : State) (c : MbCmd), MailboxIdle s c ∧ s.owns c.agent = true ∧ c.a0.toNat < 65536 ∧ c.a1.getLsbD 63 = false ∧ c.a1.toNat % 4096 = 0 ∧
      s.isLocal c.a1.toNat = true ∧ paRegion c.a1.toNat = 0 ∧ populated 0 c.a1.toNat = true) :=
  ⟨⟨sHost 2 [], _, cmdOf .pcie 3 0 0, idle_of (by decide +kernel), by decide +kernel, rfl, by decide +kernel, by decide +kernel, by decide +kernel⟩,
    ⟨sHost 2 [], cmdOf .pcie 0x4000 16 0, idle_of (by decide +kernel), by decide +kernel, rfl, by decide +kernel⟩,
    ⟨sOwned, cmdOf .pcie 1 0x100000000 0, idle_of (by decide +kernel), by decide +kernel, by decide +kernel, rfl, by decide, by decide +kernel, by decide⟩,
    ⟨sOwned, { cmdOf .pcie 1 0 0 with die := 3 }, idle_of (by decide +kernel), by decide +kernel, by decide⟩,
    ⟨sOwned, cmdOf .pcie 5 0x8000000000000000 0, idle_of (by decide +kernel), by decide +kernel, by decide, by decide⟩,
    ⟨sOwned, cmdOf .pcie 5 0x500000 0, idle_of (by decide +kernel), by decide +kernel⟩⟩

/-- Queue 3 has failed with QERRCODE `code`. -/
def sFailed (code : Nat) : State :=
  { sHost 2 [] with fe := { (sHost 2 []).fe with qcbCache := [(0, 3, qcbA ((2 ^ 9 + code * 2 ^ 32) * 2 ^ 64))] } }

theorem witness_qrestart :
    (∃ (s t : State) (c : MbCmd) (q : Nat), MailboxIdle s c ∧ s.owns c.agent = true ∧ q = c.a0.toNat ∧ t = s.mbBegun 0x43 c ∧ q < s.fe.qcount ∧
      c.a1.toNat ≤ 1 ∧ s.slotOf q = none ∧ getKey q s.fe.held = none ∧ t.qErr q = true ∧ qField (t.qcb q) 8 39 32 ≠ 6 ∧ qField (t.qcb q) 8 39 32 ≠ 7) ∧
    (∃ (s t : State) (c : MbCmd) (q : Nat), MailboxIdle s c ∧ s.owns c.agent = true ∧ q = c.a0.toNat ∧ t = s.mbBegun 0x43 c ∧ q < s.fe.qcount ∧
      c.a1.toNat ≤ 1 ∧ s.slotOf q = none ∧ getKey q s.fe.held = none ∧ t.qErr q = true ∧ qField (t.qcb q) 8 39 32 = 6) :=
  ⟨⟨sFailed 2, _, cmdOf .pcie 3 0 0, 3, idle_of (by decide +kernel), by decide +kernel, rfl, rfl, by decide +kernel⟩,
    ⟨sFailed 6, _, cmdOf .pcie 3 1 0, 3, idle_of (by decide +kernel), by decide +kernel, rfl, rfl, by decide +kernel⟩⟩

theorem witness_reports :
    (∃ (s : State) (c : MbCmd) (size : Nat), MailboxIdle s c ∧ s.terak.report = none ∧ size = 0x50 + 72 * s.terak.mlog.length + 9732 ∧ c.a2.toNat < size) ∧
    (∃ (s : State) (c : MbCmd) (size : Nat), MailboxIdle s c ∧ s.terak.report = none ∧ size = 0x50 + 72 * s.terak.mlog.length + 9732 ∧ size ≤ c.a2.toNat ∧
      s.terak.keysLeft = 0) ∧
    (∃ (s t : State) (c : MbCmd) (l : List LogEntry), MailboxIdle s c ∧ 1 ≤ c.a2.toNat ∧ c.a2.toNat ≤ 4096 ∧
      l = (s.err.log.filter (fun e => e.die == c.die && decide (c.a0.toNat ≤ e.seq))).take c.a2.toNat ∧
      writeRange (frontEnd c.die 0) c.a1.toNat (l.flatMap LogEntry.bytes) (s.mbBegun 0x40 c) = .ok ((), t)) ∧
    (∃ (s t : State) (c : MbCmd) (asid : Nat) (l : List Byte), MailboxIdle s c ∧ asid = c.a0.toNat ∧
      ((s.jobOf asid).isSome = true ∧ l = jobRecord 2 0 asid (s.queueFails asid)) ∧ l.length ≤ c.a2.toNat ∧
      writeRange (frontEnd c.die 0) c.a1.toNat l (s.mbBegun 0x42 c) = .ok ((), t)) ∧
    (∃ (s : State) (c : MbCmd) (asid : Nat) (l : List Byte), MailboxIdle s c ∧ asid = c.a0.toNat ∧
      (s.jobOf asid = none ∧ ∃ e, s.fe.jobEnds.find? (fun x => x.asid == asid) = some e ∧ l = jobRecord 1 e.seq asid e.harts) ∧ c.a2.toNat < l.length) ∧
    (∃ (s : State) (c : MbCmd), MailboxIdle s c ∧ s.jobOf c.a0.toNat = none ∧ (∀ e ∈ s.fe.jobEnds, e.asid ≠ c.a0.toNat)) ∧
    (∃ (s t : State) (c : MbCmd), MailboxIdle s c ∧
      writeRange (frontEnd c.die 0) c.a0.toNat ((s.err.repairs.filter (·.committed)).flatMap (fun r => Config.repairRecord r.part r.spare r.seq))
        (s.mbBegun 0x44 c) = .ok ((), t)) := by
  let h := sHost 1 [loadJob]
  obtain ⟨⟨⟩, t3, e3, _⟩ := of_succeeds (x := writeRange (frontEnd 0 0) 0x500010 [] (h.mbBegun 0x44 (cmdOf .pcie 0x500010 0 0))) (p := fun _ _ => true) (by decide +kernel)
  obtain ⟨⟨⟩, t, e, _⟩ := of_succeeds (x := writeRange (frontEnd 0 0) 0x500010 [] (h.mbBegun 0x40 (cmdOf .pcie 0 0x500010 5))) (p := fun _ _ => true) (by decide +kernel)
  obtain ⟨⟨⟩, t2, e2, _⟩ := of_succeeds (x := writeRange (frontEnd 0 0) 0x500010 (jobRecord 2 0 1 (h.queueFails 1))
    (h.mbBegun 0x42 (cmdOf .pcie 1 0x500010 0x100))) (p := fun _ _ => true) (by decide +kernel)
  exact ⟨⟨sOwned, cmdOf .pcie 0 0 9000, _, idle_of (by decide +kernel), rfl, rfl, by decide +kernel⟩,
    ⟨{ sOwned with terak := { sOwned.terak with keysLeft := 0 } }, cmdOf .pcie 0 0 0x10000, _, idle_of (by decide +kernel), rfl, rfl, by decide +kernel, rfl⟩,
    ⟨h, t, cmdOf .pcie 0 0x500010 5, [], idle_of (by decide +kernel), by decide, by decide, by decide +kernel, e⟩,
    ⟨h, t2, cmdOf .pcie 1 0x500010 0x100, 1, _, idle_of (by decide +kernel), rfl, ⟨by decide +kernel, rfl⟩, by decide +kernel, e2⟩,
    ⟨{ sOwned with fe := { sOwned.fe with jobEnds := [⟨7, 0, []⟩] } }, cmdOf .pcie 7 0 8, 7, _, idle_of (by decide +kernel), rfl,
      ⟨by decide +kernel, ⟨7, 0, []⟩, by decide +kernel, rfl⟩, by decide +kernel⟩,
    ⟨sOwned, cmdOf .pcie 7 0 8, idle_of (by decide +kernel), by decide +kernel, by decide +kernel⟩,
    ⟨h, t3, cmdOf .pcie 0x500010 0 0, idle_of (by decide +kernel), e3⟩⟩

/-- BAR2 over address space 1. -/
def sBar : State := { base with fe := { base.fe with bar2 := (1, 0) } }
/-- The host has posted these bytes, which the front end has not stored yet. -/
def postedAt (s : State) (bar : Bar) (offset : Nat) (data : List Byte) : State :=
  { s with fe := { s.fe with posted := [(bar, offset, data)] } }
/-- An access fails for good. -/
def failsNow {α : Type} (x : Except AccStop (α × State)) : Bool :=
  match x with
  | .error (.wait _) => false
  | .error _ => true
  | .ok _ => false
theorem of_failsNow {α : Type} {x : Except AccStop (α × State)} (h : failsNow x = true) : ∃ e, x = .error e ∧ ∀ t, e ≠ .wait t := by
  unfold failsNow at h
  split at h
  · exact absurd h Bool.false_ne_true
  · next e hw => exact ⟨e, rfl, fun t he => hw t he⟩
  · exact absurd h Bool.false_ne_true
/-- An access waits. -/
def waitsNow {α : Type} (x : Except AccStop (α × State)) : Bool :=
  match x with
  | .error (.wait _) => true
  | _ => false
theorem of_waitsNow {α : Type} {x : Except AccStop (α × State)} (h : waitsNow x = true) : ∃ t, x = .error (.wait t) := by
  unfold waitsNow at h
  split at h
  · next t => exact ⟨t, rfl⟩
  · exact absurd h Bool.false_ne_true
/-- BAR2 over address space 1 while no plane takes a transaction. -/
def sBarStill : State := { sBar with fab := { sBar.fab with dead := 4, quiesce := .quiesced 2 } }
/-- Two writes have been posted; the first waits for another device. -/
def sBarAway : State :=
  { (postedAt sBar .window 0 [1]) with fab := { sBar.fab with streams :=
      [{ streamA (fonakA 1 0 4) false with waiting := [(0#20, sBar.barHost.uid)] }] } }

theorem witness_bar_reads :
    (∃ (s t : State) (offset size : Nat) (l : List (Byte × Bool)), size ≤ 512 ∧ s.fe.posted = [] ∧ s.unacked s.barHost.uid = false ∧
      offset + size ≤ 2 ^ 32 ∧ readRange s.barHost (s.fe.bar2.2 + offset) size s = .ok (l, t) ∧ (∀ b ∈ l, b.2 = false)) ∧
    (∃ (s : State) (offset size : Nat) (e : AccStop), size ≤ 512 ∧ s.fe.posted = [] ∧ s.unacked s.barHost.uid = false ∧
      offset + size ≤ 2 ^ 32 ∧ readRange s.barHost (s.fe.bar2.2 + offset) size s = .error e ∧ (∀ t, e ≠ .wait t)) ∧
    (∃ (s : State) (offset size : Nat), size ≤ 512 ∧ s.fe.posted = [] ∧ s.unacked s.barHost.uid = false ∧ offset + size ≤ 2 ^ 26) ∧
    (∃ s : State, s.fe.posted ≠ []) ∧ (∃ s : State, s.unacked s.barHost.uid = true) := by
  obtain ⟨l, t, h, hp⟩ := of_succeeds (x := readRange sBar.barHost (0 + 0x5000F0) 512 sBar) (p := fun l _ => l.all (fun b => !b.2)) (by decide +kernel)
  obtain ⟨e, he, hw⟩ := of_failsNow (x := readRange sBar.barHost (0 + 0x50000000) 512 sBar) (by decide +kernel)
  have quiet : sBar.unacked sBar.barHost.uid = false := by decide +kernel
  exact ⟨⟨sBar, t, 0x5000F0, 512, l, by decide, rfl, quiet, by decide, h, fun b hb => by simpa using List.all_eq_true.1 hp b hb⟩,
    ⟨sBar, 0x50000000, 512, e, by decide, rfl, quiet, by decide, he, hw⟩,
    ⟨sBar, 2 ^ 24 + 0xF00000, 8, by decide, rfl, quiet, by decide⟩,
    ⟨postedAt sBar .window 0 [1], List.cons_ne_nil _ _⟩,
    ⟨sBarAway, by decide +kernel⟩⟩

theorem witness_bar_writes :
    (∃ (s t : State) (offset : Nat) (data : List Byte), 0 < data.length ∧ data.length ≤ 256 ∧ s.fe.posted = [] ∧ s.unacked s.barHost.uid = false ∧
      offset + data.length ≤ 2 ^ 32 ∧ offset % 128 + data.length ≤ 128 ∧
      writeRange s.barHost (s.fe.bar2.2 + offset) data (postedAt s .window offset data) = .ok ((), t)) ∧
    (∃ (s : State) (offset : Nat) (data : List Byte) (e : AccStop), 0 < data.length ∧ data.length ≤ 256 ∧ s.fe.posted = [] ∧
      s.unacked s.barHost.uid = false ∧ offset + data.length ≤ 2 ^ 32 ∧ offset % 128 + data.length ≤ 128 ∧
      writeRange s.barHost (s.fe.bar2.2 + offset) data (postedAt s .window offset data) = .error e ∧ (∀ t, e ≠ .wait t)) ∧
    (∃ (s t : State) (offset : Nat) (data : List Byte), 0 < data.length ∧ data.length ≤ 256 ∧ s.fe.posted = [] ∧ s.unacked s.barHost.uid = false ∧
      offset + data.length ≤ 2 ^ 32 ∧ offset % 128 + data.length ≤ 128 ∧
      writeRange s.barHost (s.fe.bar2.2 + offset) data (postedAt s .window offset data) = .error (.wait t)) ∧
    (∃ (s : State) (offset : Nat) (data : List Byte), 0 < data.length ∧ data.length ≤ 256 ∧ s.fe.posted = [] ∧ s.unacked s.barHost.uid = false ∧
      offset + data.length ≤ 2 ^ 26) ∧
    (∃ (s : State) (p : HostAddr) (data : List Byte), data.length ≤ 256 ∧ p.offset + data.length ≤ barSize p.bar ∧ s.fe.posted ≠ [] ∧
      s.unacked s.barHost.uid = true) := by
  let data : List Byte := [1, 2, 3, 4, 5, 6, 7, 8, 9, 1]
  obtain ⟨⟨⟩, t, h, _⟩ := of_succeeds (x := writeRange sBar.barHost (0 + 0x5000F0) data (postedAt sBar .window 0x5000F0 data))
    (p := fun _ _ => true) (by decide +kernel)
  obtain ⟨e, he, hw⟩ := of_failsNow (x := writeRange sBar.barHost (0 + 0x50000000) [1, 2] (postedAt sBar .window 0x50000000 [1, 2])) (by decide +kernel)
  have quiet : sBar.unacked sBar.barHost.uid = false := by decide +kernel
  obtain ⟨t2, h2⟩ := of_waitsNow (x := writeRange sBarStill.barHost (0 + 0x5000F0) data (postedAt sBarStill .window 0x5000F0 data)) (by decide +kernel)
  exact ⟨⟨sBar, t, 0x5000F0, data, by decide, by decide, rfl, quiet, by decide, by decide, h⟩,
    ⟨sBar, 0x50000000, [1, 2], e, by decide, by decide, rfl, quiet, by decide, by decide, he, hw⟩,
    ⟨sBarStill, t2, 0x5000F0, data, by decide, by decide, rfl, by decide +kernel, by decide, by decide, h2⟩,
    ⟨sBar, 2 ^ 24 + 0xF00000, data, by decide, by decide, rfl, quiet, by decide⟩, ⟨sBarAway, ⟨.window, 1⟩, [2], by decide, by decide, List.cons_ne_nil _ _, by decide +kernel⟩⟩

/-- An ATTEST with room for its report. -/
def attestCmd : MbCmd := cmdOf .pcie 0x500000 0x600000 0x10000
theorem witness_attest : ∃ (s t v w : State) (c : MbCmd) (size : Nat) (l : List (Byte × Bool)) (body : List Byte), MailboxIdle s c ∧
    s.terak.report = none ∧ size = 0x50 + 72 * s.terak.mlog.length + 9732 ∧ size ≤ c.a2.toNat ∧ s.terak.keysLeft ≠ 0 ∧
    readRange (frontEnd c.die 0) c.a0.toNat 32 (s.mbBegun 0x20 c) = .ok (l, t) ∧ (∀ b ∈ l, b.2 = false) ∧
    body = t.reportBody (l.map (·.1)) ∧ v = t.signReport (l.map (·.1)) ∧
    writeRange (frontEnd c.die 0) c.a1.toNat (body ++ (List.range 9732).map (Config.signature t.terak.keysLeft body)) v = .ok ((), w) := by
  let s := sHost 1 [loadJob]
  obtain ⟨l, t, e, hp⟩ := of_succeeds (x := readRange (frontEnd 0 0) 0x500000 32 (s.mbBegun 0x20 attestCmd))
    (p := fun l t => l.all (fun b => !b.2) &&
      let body := t.reportBody (l.map (·.1))
      succeeds (writeRange (frontEnd 0 0) 0x600000 (body ++ (List.range 9732).map (Config.signature t.terak.keysLeft body))
        (t.signReport (l.map (·.1)))) (fun _ _ => true)) (by decide +kernel)
  rw [Bool.and_eq_true, List.all_eq_true] at hp
  obtain ⟨⟨⟩, w, e2, _⟩ := of_succeeds hp.2
  exact ⟨s, t, _, w, attestCmd, _, l, _, idle_of (by decide +kernel), rfl, rfl, by decide +kernel, by decide +kernel, e,
    fun b hb => by simpa using hp.1 b hb, rfl, rfl, e2⟩

/-- An ATTEST whose report has no place to go. -/
theorem witness_attest_lost : ∃ (s t v : State) (c : MbCmd) (size : Nat) (l : List (Byte × Bool)) (body : List Byte) (e : AccStop), MailboxIdle s c ∧
    s.terak.report = none ∧ size = 0x50 + 72 * s.terak.mlog.length + 9732 ∧ size ≤ c.a2.toNat ∧ s.terak.keysLeft ≠ 0 ∧
    readRange (frontEnd c.die 0) c.a0.toNat 32 (s.mbBegun 0x20 c) = .ok (l, t) ∧ (∀ b ∈ l, b.2 = false) ∧
    body = t.reportBody (l.map (·.1)) ∧ v = t.signReport (l.map (·.1)) ∧
    writeRange (frontEnd c.die 0) c.a1.toNat (body ++ (List.range 9732).map (Config.signature t.terak.keysLeft body)) v = .error e ∧
    (∀ x, e ≠ .wait x) := by
  let s := sHost 1 [loadJob]
  let c : MbCmd := cmdOf .pcie 0x500000 0x50000000 0x10000
  obtain ⟨l, t, e, hp⟩ := of_succeeds (x := readRange (frontEnd 0 0) 0x500000 32 (s.mbBegun 0x20 c))
    (p := fun l t => l.all (fun b => !b.2) &&
      let body := t.reportBody (l.map (·.1))
      failsNow (writeRange (frontEnd 0 0) 0x50000000 (body ++ (List.range 9732).map (Config.signature t.terak.keysLeft body))
        (t.signReport (l.map (·.1))))) (by decide +kernel)
  rw [Bool.and_eq_true, List.all_eq_true] at hp
  obtain ⟨x, e2, hw⟩ := of_failsNow hp.2
  exact ⟨s, t, _, c, _, l, _, x, idle_of (by decide +kernel), rfl, rfl, by decide +kernel, by decide +kernel, e,
    fun b hb => by simpa using hp.1 b hb, rfl, rfl, e2, hw⟩


end Sys2Proof.Tests
end

section
/-!
SUPPORT. Ownership and Terak's other duties (R20, R335, R336, R342, R343, R363, R413 to R415): what each write to Terak's
block, each end of a lease, each power event and each watchdog leaves, and from these the statement O54.
-/

namespace Sys2Proof.Proofs

open Sys2Proof Sys2Proof.Machine

/-! ## Bytes of a dword (R6, log entry 78) -/

theorem bitsOf_eq_div_mod (n lo w : Nat) : bitsOf n lo w = n / 2 ^ lo % 2 ^ w := by
  rw [bitsOf, Nat.shiftRight_eq_div_pow]

/-- Byte `i` of the number of a byte string is the string's entry `i`. -/
theorem bitsOf_natOfBytes (l : List Byte) (i : Nat) : bitsOf (natOfBytes l) (8 * i) 8 = (l.getD i 0#8).toNat := by
  induction l generalizing i with
  | nil => simp [natOfBytes, bitsOf]
  | cons b bs ih =>
    have hb : b.toNat < 256 := b.isLt
    rw [bitsOf_eq_div_mod, natOfBytes]
    cases i with
    | zero =>
      rw [Nat.mul_zero, Nat.pow_zero, Nat.div_one, List.getD_cons_zero]
      omega
    | succ i =>
      have tail : (b.toNat + 256 * natOfBytes bs) / 2 ^ 8 = natOfBytes bs := by omega
      rw [List.getD_cons_succ, ← ih i, bitsOf_eq_div_mod, Nat.mul_succ, Nat.add_comm (8 * i), Nat.pow_add, ← Nat.div_div_eq_div_mul, tail]

theorem getElt_lt {n : Nat} (r : BitVec n) (w e : Nat) : getElt r w e < 2 ^ w := Nat.mod_lt _ (Nat.two_pow_pos w)

/-- A byte below a number's width survives the number's truncation to that width. -/
theorem getElt_ofNat_byte {n k i : Nat} (h : 8 * i + 8 ≤ k) : getElt (BitVec.ofNat k n) 8 i = bitsOf n (8 * i) 8 := by
  rw [getElt, bitsOf_eq_div_mod, bitsOf_eq_div_mod, BitVec.toNat_ofNat, show k = 8 * i + (k - 8 * i) by omega, Nat.pow_add,
    Nat.mod_mul_right_div_self, Nat.mod_mod_of_dvd]
  exact Nat.pow_dvd_pow 2 (by omega)

/-- A merged dword has the written bytes where the mask is set and the old ones elsewhere. -/
theorem getElt_mergeDword (old v : Word) (mask : BitVec 8) {i : Nat} (hi : i < 8) :
    getElt (mergeDword old mask v) 8 i = if mask.getLsbD i then getElt v 8 i else getElt old 8 i := by
  rw [mergeDword, getElt_ofNat_byte (by omega), bitsOf_natOfBytes]
  have lt : getElt (if mask.getLsbD i then v else old) 8 i < 2 ^ 8 := getElt_lt _ _ _
  simp only [List.getD_eq_getElem?_getD, List.getElem?_map, List.getElem?_range hi, Option.map_some, Option.getD_some,
    BitVec.toNat_ofNat, Nat.mod_eq_of_lt lt]
  split <;> rfl

/-! ## Who owns (R335) -/

theorem owns_eq_decide {s : State} {who : Agent} (hw : who ≠ .nobody) : s.owns who = decide (s.terak.agent = who) := by
  rw [State.owns, bne_iff_ne.2 hw, Bool.true_and, beq_eq_decide]

/-- The EPOCH field of a written dword. -/
theorem epochField_eq_iff (v : Word) (e : BitVec 30) : v.setWidth 30 = e ↔ v.toNat % 2 ^ 30 = e.toNat := by
  rw [← BitVec.toNat_inj, BitVec.toNat_setWidth]

/-! ## CLAIM and HANDOFF (R336) -/

section
variable {s : State} {who : Agent} {v : Word} (hw : who ≠ .nobody)
include hw

theorem claim_taken (hs : s.terak.stage ≠ 0) (ha : s.terak.agent = .nobody) (he : v.toNat % 2 ^ 30 = s.terak.epoch.toNat) :
    s.claim who v = { s with terak := { s.terak with
      agent := who, epoch := s.terak.epoch + 1, leaseOn := true, leaseAt := Config.wallTime s.tick } } := by
  rw [State.claim, if_neg (not_or.2 ⟨hw, hs⟩), if_pos ⟨ha, (epochField_eq_iff _ _).2 he⟩, State.startLease]

theorem claim_refused (hs : s.terak.stage ≠ 0) (h : ¬(s.terak.agent = .nobody ∧ v.toNat % 2 ^ 30 = s.terak.epoch.toNat)) :
    s.claim who v = s.ownerWrote who := by
  rw [State.claim, if_neg (not_or.2 ⟨hw, hs⟩), if_neg (by rwa [epochField_eq_iff])]

theorem handoff_refused (ha : s.terak.agent ≠ who) : s.handoff who v = s.refusedWrite := by
  rw [State.handoff, if_neg hw, if_pos (by simp [owns_eq_decide hw, ha])]

/-- An owner's HANDOFF with another EPOCH only restarts the lease. -/
theorem handoff_stale (ha : s.terak.agent = who) (he : v.toNat % 2 ^ 30 ≠ s.terak.epoch.toNat) :
    s.handoff who v = s.startLease := by
  rw [State.handoff, if_neg hw, if_neg (by simp [owns_eq_decide hw, ha]), if_neg (by rwa [epochField_eq_iff])]

/-- An owner's HANDOFF with the EPOCH that stands names the next owner; only the lease depends on who that is. -/
theorem handoff_taken (ha : s.terak.agent = who) (he : v.toNat % 2 ^ 30 = s.terak.epoch.toNat) :
    ∃ (on : Bool) (t : Nat), s.handoff who v = { s with terak := { s.terak with
      agent := agentOf (v.toNat / 2 ^ 30 % 4), epoch := s.terak.epoch + 1, leaseOn := on, leaseAt := t } } := by
  rw [State.handoff, if_neg hw, if_neg (by simp [owns_eq_decide hw, ha]), if_pos ((epochField_eq_iff _ _).2 he), bitsOf_eq_div_mod]
  dsimp only
  split
  · exact ⟨_, _, rfl⟩
  · exact ⟨_, _, rfl⟩

end

/-- The owner's write touches the lease alone. -/
theorem ownerWrote_lease (s : State) (who : Agent) :
    ∃ (on : Bool) (t : Nat), s.ownerWrote who = { s with terak := { s.terak with leaseOn := on, leaseAt := t } } := by
  unfold State.ownerWrote
  split
  · exact ⟨_, _, rfl⟩
  · exact ⟨_, _, rfl⟩

theorem exec_claim_effect (s : State) (who : Agent) (v : Word) (hw : who ≠ .nobody) (hs : s.terak.stage ≠ 0) :
    ∃ u, exec (.claim who v) s = .next u ∧ u = { s with terak := u.terak } ∧
      (s.terak.agent = .nobody → v.toNat % 2 ^ 30 = s.terak.epoch.toNat →
        u.terak.agent = who ∧ u.terak.epoch = s.terak.epoch + 1 ∧ u.terak.leaseOn = true) ∧
      (¬(s.terak.agent = .nobody ∧ v.toNat % 2 ^ 30 = s.terak.epoch.toNat) →
        u.terak.agent = s.terak.agent ∧ u.terak.epoch = s.terak.epoch ∧ u.terak.nOwnWr = s.terak.nOwnWr) := by
  refine ⟨s.claim who v, rfl, ?_⟩
  by_cases h : s.terak.agent = .nobody ∧ v.toNat % 2 ^ 30 = s.terak.epoch.toNat
  · rw [claim_taken hw hs h.1 h.2]
    exact ⟨rfl, fun _ _ => ⟨rfl, rfl, rfl⟩, fun hn => absurd h hn⟩
  · obtain ⟨on, t, e⟩ := ownerWrote_lease s who
    rw [claim_refused hw hs h, e]
    exact ⟨rfl, fun ha he => absurd ⟨ha, he⟩ h, fun _ => ⟨rfl, rfl, rfl⟩⟩

theorem exec_handoff_effect (s : State) (who : Agent) (v : Word) (hw : who ≠ .nobody) :
    ∃ u, exec (.handoff who v) s = .next u ∧ u = { s with terak := u.terak } ∧
      (s.terak.agent = who → v.toNat % 2 ^ 30 = s.terak.epoch.toNat →
        u.terak.agent = agentOf (v.toNat / 2 ^ 30 % 4) ∧ u.terak.epoch = s.terak.epoch + 1) ∧
      (s.terak.agent = who → v.toNat % 2 ^ 30 ≠ s.terak.epoch.toNat →
        u.terak = { s.terak with leaseOn := true, leaseAt := Config.wallTime s.tick }) ∧
      (s.terak.agent ≠ who → u.terak = { s.terak with nOwnWr := s.terak.nOwnWr + 1 }) := by
  refine ⟨s.handoff who v, rfl, ?_⟩
  by_cases ha : s.terak.agent = who
  · by_cases he : v.toNat % 2 ^ 30 = s.terak.epoch.toNat
    · obtain ⟨on, t, e⟩ := handoff_taken hw ha he
      rw [e]
      exact ⟨rfl, fun _ _ => ⟨rfl, rfl⟩, fun _ hn => absurd he hn, fun hn => absurd ha hn⟩
    · rw [handoff_stale hw ha he]
      exact ⟨rfl, fun _ h => absurd h he, fun _ _ => rfl, fun hn => absurd ha hn⟩
  · rw [handoff_refused hw ha]
    exact ⟨rfl, fun h => absurd h ha, fun h => absurd h ha, fun _ => rfl⟩

/-! ## POWER, LEASE and the other registers of the block (R335, R342) -/

section
variable {s : State} {who : Agent} {v : Word} (hw : who ≠ .nobody) (hf : s.terak.fail = 0)
include hw hf

theorem writePower_refused (ha : s.terak.agent ≠ who) : s.writePower who v = s.refusedWrite := by
  rw [State.writePower, if_neg (by simp [hw, hf]), if_pos (by simp [owns_eq_decide hw, ha])]

theorem writePower_owner (ha : s.terak.agent = who) :
    s.writePower who v = ({ s with terak := { s.terak with
      arb := if v.extractLsb' 4 2 = 3 then s.terak.arb else v.extractLsb' 4 2,
      cap := if v.extractLsb' 0 2 = 3 then s.terak.cap else v.extractLsb' 0 2 } } : State).startLease := by
  rw [State.writePower, if_neg (by simp [hw, hf]), if_neg (by simp [owns_eq_decide hw, ha])]

theorem writeOther_refused (off : Nat) (ha : s.terak.agent ≠ who) : s.writeOther who off v = s.refusedWrite := by
  rw [State.writeOther, if_neg (by simp [hw, hf]), if_pos (by simp [owns_eq_decide hw, ha])]

theorem writeOther_lease (ha : s.terak.agent = who) :
    s.writeOther who 0x18 v = ({ s with terak := { s.terak with
      leaseMs := BitVec.ofNat 32 (min 3600000 (max 100 (v.toNat % 2 ^ 32))) } } : State).startLease := by
  rw [State.writeOther, if_neg (by simp [hw, hf]), if_neg (by simp [owns_eq_decide hw, ha]), bitsOf_eq_div_mod, Nat.pow_zero, Nat.div_one]
  rfl

/-- Whatever a non-owner writes into the block, CLAIM aside, is counted and ignored. -/
theorem terakWrite_refused (off : Nat) (ha : s.terak.agent ≠ who) (hc : off ≠ 8) : s.terakWrite who off v = s.refusedWrite := by
  rw [State.terakWrite, if_neg hc]
  split
  · exact handoff_refused hw ha
  · split
    · exact writePower_refused hw hf ha
    · exact writeOther_refused hw hf off ha

end

/-- A field of POWER that holds the reserved value leaves what stands. -/
theorem powerField_toNat (v : Word) (lo : Nat) (old : BitVec 2) :
    (if v.extractLsb' lo 2 = 3 then old else v.extractLsb' lo 2).toNat =
      if v.toNat / 2 ^ lo % 4 = 3 then old.toNat else v.toNat / 2 ^ lo % 4 := by
  have e : (v.extractLsb' lo 2).toNat = v.toNat / 2 ^ lo % 4 := by
    rw [BitVec.extractLsb'_toNat, Nat.shiftRight_eq_div_pow]
  have h3 : v.extractLsb' lo 2 = 3 ↔ v.toNat / 2 ^ lo % 4 = 3 := by
    rw [← e, ← BitVec.toNat_inj]; rfl
  simp only [apply_ite BitVec.toNat, h3, e]

/-- The lease in milliseconds is kept between its limits. -/
theorem leaseMs_toNat (n : Nat) :
    (BitVec.ofNat 32 (min 3600000 (max 100 n))).toNat = Max.max 100 (Min.min 3600000 n) := by
  rw [BitVec.toNat_ofNat]
  omega

/-- A write of some bytes of a register of the block. -/
theorem registerWrite_block (s : State) (who : Agent) (off : Nat) (mask : BitVec 8) (v : Word)
    (lo : 0xF00000 ≤ off) (hi : off < 0xF01000) :
    exec (.registerWrite who ⟨0, off⟩ ⟨mask, v⟩) s = .next (s.terakWrite who (off / 8 * 8 - 0xF00000)
      (mergeDword (s.controlDword 0 (off / 8 * 8)) mask v)) := by
  show execRegisterWrite who ⟨0, off⟩ ⟨mask, v⟩ s = _
  have below : ¬ off / 8 * 8 < 0x800 := by omega
  have inBlock : 0 = 0 ∧ 0xF00000 ≤ off / 8 * 8 ∧ off / 8 * 8 < 0xF01000 := by omega
  rw [execRegisterWrite, if_pos (show 0 < 4 by decide), State.controlWrite, if_neg below, if_pos inBlock]

theorem controlDword_lease (s : State) : s.controlDword 0 0xF00018 = zext s.terak.leaseMs := rfl

theorem exec_powerWrite_owner (s : State) (who : Agent) (v : Word) (hw : who ≠ .nobody) (hf : s.terak.fail = 0)
    (ha : s.terak.agent = who) :
    ∃ u, exec (.powerWrite who v) s = .next u ∧ u = { s with terak := u.terak } ∧ u.terak.agent = who ∧
      u.terak.cap.toNat = (if v.toNat % 4 = 3 then s.terak.cap.toNat else v.toNat % 4) ∧
      u.terak.arb.toNat = (if v.toNat / 16 % 4 = 3 then s.terak.arb.toNat else v.toNat / 16 % 4) := by
  refine ⟨s.writePower who v, rfl, ?_⟩
  rw [writePower_owner hw hf ha]
  refine ⟨rfl, ha, ?_, powerField_toNat v 4 s.terak.arb⟩
  have cap := powerField_toNat v 0 s.terak.cap
  rwa [Nat.pow_zero, Nat.div_one] at cap

theorem exec_registerWrite_lease (s : State) (who : Agent) (v : Word) (mask : BitVec 8) (hw : who ≠ .nobody)
    (hf : s.terak.fail = 0) (ha : s.terak.agent = who) :
    ∃ (u : State) (w : Word), exec (.registerWrite who ⟨0, 0xF00018⟩ ⟨mask, v⟩) s = .next u ∧
      u = { s with terak := u.terak } ∧ u.terak.leaseMs.toNat = Max.max 100 (Min.min 3600000 (w.toNat % 2 ^ 32)) ∧
      ∀ i < 8, getElt w 8 i = if mask.getLsbD i then getElt v 8 i else getElt (zext s.terak.leaseMs : Word) 8 i := by
  refine ⟨_, mergeDword (zext s.terak.leaseMs) mask v, registerWrite_block s who _ mask v (by decide) (by decide), ?_⟩
  have e : s.terakWrite who 0x18 (mergeDword (zext s.terak.leaseMs) mask v) = _ := writeOther_lease hw hf ha
  rw [controlDword_lease, e]
  exact ⟨rfl, leaseMs_toNat _, fun i hi => getElt_mergeDword _ v mask hi⟩

theorem exec_registerWrite_refused (s : State) (who : Agent) (v : Word) (hw : who ≠ .nobody) (hf : s.terak.fail = 0)
    (ha : s.terak.agent ≠ who) (off : Nat) (mask : BitVec 8) (lo : 0xF00000 ≤ off) (hi : off < 0xF01000)
    (hc : off / 8 * 8 ≠ 0xF00008) :
    exec (.registerWrite who ⟨0, off⟩ ⟨mask, v⟩) s = .next s.refusedWrite := by
  rw [registerWrite_block s who off mask v lo hi, terakWrite_refused hw hf _ ha (by omega)]

/-! ## The lease (R336, R363) -/

theorem leaseRan_of_reached {s : State} {k : Nat} (ha : s.terak.agent ≠ .nobody) (hl : s.terak.leaseOn = true)
    (hf : s.terak.fail = 0) (ht : s.terak.leaseAt + s.terak.leaseMs.toNat * k ≤ Config.wallTime s.tick) :
    s.leaseRan k = true := by
  simp [State.leaseRan, ha, hl, hf, ht]

theorem leaseRan_of_before {s : State} {k : Nat} (ht : Config.wallTime s.tick < s.terak.leaseAt + s.terak.leaseMs.toNat * k) :
    s.leaseRan k = false := by
  simp [State.leaseRan, ht]

theorem errorMessage_sent {s : State} {m : BitVec 11} (die : Nat) (hm : s.fe.errMsg = some m) (ho : s.fe.errMsgOut = false)
    (ha : s.terak.agent ≠ .nobody) :
    s.errorMessage die = { s with fe := { s.fe with
      outbox := s.fe.outbox ++ [⟨s.terak.agent, s.terak.epoch, m⟩], errMsgOut := true } } := by
  simp [State.errorMessage, hm, ho, ha]

theorem exec_lease_running (s : State) (ht : Config.wallTime s.tick < s.terak.leaseAt + s.terak.leaseMs.toNat * 750) :
    exec .leaseWarning s = .next s ∧ exec .leaseExpiry s = .next s := by
  have full : Config.wallTime s.tick < s.terak.leaseAt + s.terak.leaseMs.toNat * 1000 :=
    Nat.lt_of_lt_of_le ht (Nat.add_le_add_left (Nat.mul_le_mul_left _ (by decide)) _)
  constructor
  · show execLeaseWarning s = _
    rw [execLeaseWarning, leaseRan_of_before ht, if_neg Bool.false_ne_true]
  · show execLeaseExpiry s = _
    rw [execLeaseExpiry, leaseRan_of_before full, if_neg Bool.false_ne_true]

theorem exec_leaseWarning_due {s : State} {m : BitVec 11} (hr : s.leaseRan 750 = true) (hm : s.fe.errMsg = some m)
    (ho : s.fe.errMsgOut = false) (ha : s.terak.agent ≠ .nobody) :
    exec .leaseWarning s = .next { s with fe := { s.fe with
      outbox := s.fe.outbox ++ [⟨s.terak.agent, s.terak.epoch, m⟩], errMsgOut := true } } := by
  show execLeaseWarning s = _
  rw [execLeaseWarning, if_pos hr, errorMessage_sent 0 hm ho ha]

theorem exec_leaseExpiry_due {s : State} (hr : s.leaseRan 1000 = true) :
    exec .leaseExpiry s =
      .next { s with terak := { s.terak with agent := .nobody, epoch := s.terak.epoch + 1, leaseOn := false } } := by
  show execLeaseExpiry s = _
  rw [execLeaseExpiry, if_pos hr]

/-! ## Power (R20, R343) -/

theorem exec_arbitrationWindowBoundary_effect (s : State) (k : Nat) (hk : k < 16) :
    ∃ u, exec (.arbitrationWindowBoundary k) s = .next u ∧ u = { s with terak := u.terak } ∧
      u.terak.stackArb[k]? = some s.terak.arb ∧ ∀ j, j ≠ k → u.terak.stackArb[j]? = s.terak.stackArb[j]? := by
  refine ⟨_, rfl, rfl, ?_, fun j hj => ?_⟩
  · exact Vector.getElem?_setIfInBounds_self_of_lt hk
  · exact Vector.getElem?_setIfInBounds_ne hj.symm

theorem exec_powerBudgetExceeded_effect (s : State) (c : Consumer) :
    ∃ (u : State) (n : Word), exec (.powerBudgetExceeded c) s = .next u ∧
      u = { s with hart := u.hart, others := u.others } ∧ ((∀ d, c ≠ .die d) → u = s) ∧
      ∀ d f, c = .die d → f = (fun h : Hart => if h.isResident && !h.dbgHalted && h.fetched && h.place.die == d then
          { h with csr := { h.csr with runCount := h.csr.runCount + n } } else h) →
        u.hart = f s.hart ∧ u.others = s.others.map f := by
  refine ⟨_, BitVec.ofNat 64 (Config.stepCycles (2 * s.tick + 1)), rfl, ?_⟩
  cases c with
  | die d =>
    refine ⟨rfl, fun h => absurd rfl (h d), fun d' f hd hf => ?_⟩
    cases hd
    exact hf ▸ ⟨rfl, rfl⟩
  | _ => exact ⟨rfl, fun _ => rfl, fun _ _ h => nomatch h⟩

/-! ## Watchdogs (R413, R414) -/

theorem frontEndAt_iff (s : State) (d : Nat) :
    s.frontEndAt d = true ↔ s.frontEndsUp = true ∧ Processor.frontEnd d ∉ s.terak.restarting := by
  simp [State.frontEndAt]

/-- A good image restarts the processor; its bank takes a record of class 1, and the rest of the package goes on. -/
theorem restart_good {s : State} {img : BootImage} (p : Processor) (n : Nat) (hg : s.imageGood img = true) :
    ∃ e : Errors, s.restart p n img = { s with err := e, terak := { s.terak with
      mlog := s.terak.mlog ++ [(n, shake256 img.body)],
      restarts := (p, Config.wallTime s.tick) :: s.terak.restarts, restarting := s.terak.restarting ++ [p] } } := by
  rw [State.restart, if_pos hg]
  exact ⟨_, rfl⟩

theorem restart_bad {s : State} {img : BootImage} (p : Processor) (n : Nat) (hg : ¬ s.imageGood img = true) :
    s.restart p n img = s.imageFails n := by
  rw [State.restart, if_neg hg]

theorem imageFails_frontEnds_down (s : State) : (s.imageFails 2).frontEndsUp = false := by
  simp [State.frontEndsUp, State.imageFails]

theorem packageFatal_fail {s : State} (code : BitVec 8) (id : BitVec 32) (hf : s.terak.fail = 0) :
    (s.packageFatal code id).terak.fail = code := by
  simp [State.packageFatal, hf]

theorem packageFatal_failPart {s : State} (id : BitVec 32) (hf : s.terak.fail = 0) :
    (s.packageFatal 3 id).terak.failPart = id := by
  simp [State.packageFatal, hf]

/-- A processor within its limit is left alone. -/
theorem exec_firmwareWatchdogExpiry_early (s : State) (p : Processor) (img : BootImage) (hb : s.beatMissed p = false) :
    exec (.firmwareWatchdogExpiry p img) s = .next s := by
  show execFirmwareWatchdogExpiry p img s = _
  unfold execFirmwareWatchdogExpiry
  split
  · rfl
  · cases p with
    | frontEnd d => exact if_pos (by simp [hb])
    | stackManager k => exact if_pos (by simp [hb])

section
variable {s : State} {d : Nat} {img : BootImage} (hf : s.terak.fail = 0) (hd : d < 4)
  (hup : s.frontEndAt d = true) (hb : s.beatMissed (.frontEnd d) = true)
include hf hd hup hb

/-- A running front end past its limit is restarted, or after three restarts is the package's end. -/
theorem exec_firmwareWatchdogExpiry_frontEnd :
    exec (.firmwareWatchdogExpiry (.frontEnd d) img) s =
      .next (if s.restartsOf (.frontEnd d) < 3 then s.restart (.frontEnd d) 2 img
        else s.packageFatal 3 (processorBank (.frontEnd d))) := by
  obtain ⟨hfe, hr⟩ := (frontEndAt_iff s d).1 hup
  have hrel : s.terak.released.2 = true := by
    rw [State.frontEndsUp, Bool.and_eq_true] at hfe
    exact hfe.1
  show execFirmwareWatchdogExpiry (.frontEnd d) img s = _
  rw [execFirmwareWatchdogExpiry, if_neg (not_not_intro hf)]
  rw [if_neg (by simp [hd, hrel, hr, hb])]
  split <;> rfl

theorem exec_firmwareWatchdogExpiry_restart (hn : s.restartsOf (.frontEnd d) < 3) :
    ∃ u, exec (.firmwareWatchdogExpiry (.frontEnd d) img) s = .next u ∧
      if s.imageGood img then u.harts = s.harts ∧ u.mm = s.mm ∧ u.fe = s.fe ∧
        u.terak.restarts = (.frontEnd d, Config.wallTime s.tick) :: s.terak.restarts ∧ u.terak.fail = 0 ∧ u.frontEndAt d = false ∧
        u.terak.mlog = s.terak.mlog ++ [(2, shake256 img.body)]
      else u.terak.fail = 2#8 ∧ u.frontEndsUp = false := by
  refine ⟨_, exec_firmwareWatchdogExpiry_frontEnd hf hd hup hb, ?_⟩
  rw [if_pos hn]
  by_cases hg : s.imageGood img = true
  · obtain ⟨e, he⟩ := restart_good (.frontEnd d) 2 hg
    rw [if_pos hg, he]
    exact ⟨rfl, rfl, rfl, rfl, hf, by simp [State.frontEndAt], rfl⟩
  · rw [if_neg hg, restart_bad _ _ hg]
    exact ⟨rfl, imageFails_frontEnds_down s⟩

theorem exec_firmwareWatchdogExpiry_fatal (hn : 3 ≤ s.restartsOf (.frontEnd d)) :
    ∃ u, exec (.firmwareWatchdogExpiry (.frontEnd d) img) s = .next u ∧ u.terak.fail = 3#8 ∧
      u.terak.failPart = BitVec.ofNat 32 (d * 2 ^ 30 + 0x0A000000) ∧ u.frontEndsUp = false ∧ u.fe.jobs = [] := by
  refine ⟨_, exec_firmwareWatchdogExpiry_frontEnd hf hd hup hb, ?_⟩
  rw [if_neg (Nat.not_lt.2 hn)]
  exact ⟨packageFatal_fail 3 _ hf, packageFatal_failPart _ hf, rfl, rfl⟩

end

/-- Settles O54, clause by clause: writes to Terak's block, the lease, power, and the watchdogs. The bytes that a partial write of
LEASE leaves are those the register reads (log entry 78), a bad image at a restart ends as at start-up (log entry 39), and the wall
time of leases and heartbeats is free (log entry 2). -/
theorem ownership : Obligations.Ownership := by
  unfold Obligations.Ownership
  refine ⟨exec_claim_effect, exec_handoff_effect, fun s who v hw hf => ⟨fun ha => ⟨?_, fun mask => ?_⟩, fun ha => ⟨?_, ?_⟩⟩,
    fun s m ha hl hf hm ho ht => ?_, exec_lease_running, fun s ha hl hf ht => ?_, exec_arbitrationWindowBoundary_effect,
    exec_powerBudgetExceeded_effect, fun s p => ?_, fun s => rfl, exec_firmwareWatchdogExpiry_early,
    fun s d img hf hd _ hup hb => ⟨fun hn => ?_, fun hn => ?_⟩⟩
  · exact exec_powerWrite_owner s who v hw hf ha
  · exact exec_registerWrite_lease s who v mask hw hf ha
  · exact congrArg Host.Outcome.next (writePower_refused hw hf ha)
  · exact exec_registerWrite_refused s who v hw hf ha
  · exact ⟨_, exec_leaseWarning_due (leaseRan_of_reached ha hl hf ht) hm ho ha, rfl⟩
  · exact ⟨_, exec_leaseExpiry_due (leaseRan_of_reached ha hl hf ht), rfl⟩
  · exact ⟨s.startBeats [p], rfl, rfl, List.mem_cons_self⟩
  · exact exec_firmwareWatchdogExpiry_restart hf hd hup hb hn
  · exact exec_firmwareWatchdogExpiry_fatal hf hd hup hb hn

end Sys2Proof.Proofs
end

section
/-!
SUPPORT. What an operation of memory, of leagues or of queues leaves alone: frames that compose, one for each kind of
operation, from which the statements about harts take that registers, other harts and tables stand.
-/

namespace Sys2Proof.Proofs

open Sys2Proof Sys2Proof.Machine Sys2Proof.Laws

/-! ## Frames -/

/-- `t` is `s` but for the fabric and for memory with its caches other than the L1s. -/
def HomeMoves (s t : State) : Prop := t = { s with mm := { t.mm with l1 := s.mm.l1 }, fab := t.fab }

/-- `t` is `s` but for memory with its caches and for the fabric. -/
def MemMoves (s t : State) : Prop := t = { s with mm := t.mm, fab := t.fab }

/-- `t` is `s` but for memory, the fabric and the leagues. -/
def LeagueMoves (s t : State) : Prop :=
  t = { s with mm := t.mm, fab := t.fab, fe := { s.fe with leagues := t.fe.leagues } }

/-- `t` is `s` but for memory, the fabric and what the front ends keep of queues. -/
def QueueMoves (s t : State) : Prop :=
  t = { s with mm := t.mm, fab := t.fab, fe := { s.fe with
    slots := t.fe.slots, mapWait := t.fe.mapWait, held := t.fe.held, qcbCache := t.fe.qcbCache } }

section
variable {s t u : State}

theorem HomeMoves.refl (s : State) : HomeMoves s s := rfl

theorem HomeMoves.trans (h : HomeMoves s t) (k : HomeMoves t u) : HomeMoves s u :=
  Eq.trans k (by rw [h])

theorem MemMoves.refl (s : State) : MemMoves s s := rfl

theorem MemMoves.trans (h : MemMoves s t) (k : MemMoves t u) : MemMoves s u :=
  Eq.trans k (by rw [h])

theorem LeagueMoves.refl (s : State) : LeagueMoves s s := rfl

theorem LeagueMoves.trans (h : LeagueMoves s t) (k : LeagueMoves t u) : LeagueMoves s u :=
  Eq.trans k (by rw [h])

theorem QueueMoves.refl (s : State) : QueueMoves s s := rfl

theorem QueueMoves.trans (h : QueueMoves s t) (k : QueueMoves t u) : QueueMoves s u :=
  Eq.trans k (by rw [h])

theorem HomeMoves.l1 (h : HomeMoves s t) : t.mm.l1 = s.mm.l1 := by rw [h]
theorem MemMoves.hart (h : MemMoves s t) : t.hart = s.hart := by rw [h]
theorem MemMoves.others (h : MemMoves s t) : t.others = s.others := by rw [h]
theorem MemMoves.fe (h : MemMoves s t) : t.fe = s.fe := by rw [h]
theorem LeagueMoves.hart (h : LeagueMoves s t) : t.hart = s.hart := by rw [h]
theorem LeagueMoves.others (h : LeagueMoves s t) : t.others = s.others := by rw [h]
theorem QueueMoves.hart (h : QueueMoves s t) : t.hart = s.hart := by rw [h]
theorem QueueMoves.others (h : QueueMoves s t) : t.others = s.others := by rw [h]
theorem QueueMoves.harts (h : QueueMoves s t) : t.harts = s.harts := by rw [h]; rfl
theorem QueueMoves.jobs (h : QueueMoves s t) : t.fe.jobs = s.fe.jobs := by rw [h]
theorem QueueMoves.fails (h : QueueMoves s t) : t.fe.fails = s.fe.fails := by rw [h]
theorem QueueMoves.jobEnds (h : QueueMoves s t) : t.fe.jobEnds = s.fe.jobEnds := by rw [h]

theorem setMm_homeMoves {mm : MemSys} (h : mm.l1 = s.mm.l1) : HomeMoves s { s with mm := mm } := by rw [HomeMoves, ← h]

theorem setFe_queueMoves {fe : FrontEnd} (h : fe = { s.fe with
    slots := fe.slots, mapWait := fe.mapWait, held := fe.held, qcbCache := fe.qcbCache }) : QueueMoves s { s with fe := fe } :=
  congrArg (fun f => ({ s with fe := f } : State)) h

theorem setFe_leagueMoves {fe : FrontEnd} (h : fe = { s.fe with leagues := fe.leagues }) :
    LeagueMoves s { s with fe := fe } := congrArg (fun f => ({ s with fe := f } : State)) h

theorem HomeMoves.toMem (h : HomeMoves s t) : MemMoves s t := Eq.trans h (by rw [h.l1.symm])
theorem MemMoves.toLeague (h : MemMoves s t) : LeagueMoves s t := Eq.trans h (by rw [h.fe])
theorem MemMoves.toQueue (h : MemMoves s t) : QueueMoves s t := Eq.trans h (by rw [h.fe])

end

/-! ## Homes, caches and write-backs (R126 to R137) -/

theorem cross_moves (s : State) (a b ln : Nat) : HomeMoves s (s.cross a b ln) := by
  unfold State.cross
  split
  · rfl
  · split <;> rfl

theorem mscAlloc_moves (s : State) (stack block sec bl : Nat) (d : Bool) : HomeMoves s (s.mscAlloc stack block sec bl d) := by
  unfold State.mscAlloc
  dsimp only
  split <;> rfl

theorem mscTouch_moves (s : State) (space ln : Nat) (w : Bool) : HomeMoves s (s.mscTouch space ln w) := by
  unfold State.mscTouch
  split
  · rfl
  · dsimp only
    split
    · rfl
    · split
      · rfl
      · split
        · exact (setMm_homeMoves (by rfl)).trans (mscAlloc_moves _ _ _ _ _ _)
        · rfl

theorem mscServe_moves (s : State) (space ln : Nat) (w : Bool) : HomeMoves s (s.mscServe space ln w) := by
  unfold State.mscServe
  dsimp only
  split
  · exact mscTouch_moves _ _ _ _
  · exact (mscTouch_moves _ _ _ _).trans (mscTouch_moves _ _ _ _)

theorem rekey_moves (s : State) (space ln : Nat) (mask : BitVec 128) : HomeMoves s (s.rekey space ln mask) := by
  unfold State.rekey
  dsimp only
  split <;> rfl

theorem putWords_moves (s : State) (ln : Nat) (v : LineVal) (mask : BitVec 128) (words : BitVec 16) :
    HomeMoves s (s.putWords ln v mask words) := setMm_homeMoves (by rfl)

theorem homeWrite_moves (s : State) (space ln : Nat) (v : LineVal) (mask : BitVec 128) (words : BitVec 16) :
    HomeMoves s (s.homeWrite space ln v mask words) := by
  unfold State.homeWrite
  split
  · rfl
  · refine HomeMoves.trans ?_ ((rekey_moves _ space ln mask).trans ((mscServe_moves _ _ _ _).trans (putWords_moves _ _ _ _ _)))
    split
    · split
      · rfl
      · exact rekey_moves _ _ _ _
    · rfl

theorem takeIn_moves (s : State) (space src ln : Nat) (v : LineVal) (mask : BitVec 128) (words : BitVec 16) :
    HomeMoves s (s.takeIn space src ln v mask words) := (homeWrite_moves s space ln v mask words).trans (setMm_homeMoves (by rfl))

theorem takeTwin_moves (s : State) (space src ln : Nat) (v : LineVal) (t : Twin) :
    HomeMoves s (s.takeTwin space src ln v t) := takeIn_moves _ _ _ _ _ _ _

theorem freeTwin_moves (s : State) (ln writer : Nat) : HomeMoves s (s.freeTwin ln writer) := setMm_homeMoves (by rfl)

theorem putL2_moves (s : State) (e : L2Line) : HomeMoves s (s.putL2 e) := setMm_homeMoves (by rfl)

theorem checkIn_moves (s : State) (e : L2Line) : HomeMoves s (s.checkIn e) := by
  unfold State.checkIn
  refine HomeMoves.trans ?_ (putL2_moves _ _)
  split
  · rfl
  · exact (takeTwin_moves _ _ _ _ _ _).trans ((freeTwin_moves _ _ _).trans (cross_moves _ _ _ _))

theorem writeBack_moves (s : State) (e : L2Line) : HomeMoves s (s.writeBack e) := by
  unfold State.writeBack
  split
  · exact checkIn_moves s e
  · split
    · rfl
    · exact (homeWrite_moves _ _ _ _ _ _).trans (putL2_moves _ _)

/-- Writing back or checking in lines of the L2s touches memory and the L2s alone. -/
theorem cleanL2_moves (s : State) (p : L2Line → Bool) : HomeMoves s (s.cleanL2 p) := by
  refine foldl_keeps (HomeMoves s) _ (fun t e h => ?_) _ _ (HomeMoves.refl s)
  split
  · exact h.trans (writeBack_moves _ _)
  · exact h

theorem release_moves (s : State) (die core : Nat) (scope : BitVec 2) : HomeMoves s (s.release die core scope) := by
  unfold State.release
  split
  · rfl
  · exact cleanL2_moves _ _

theorem gather_moves (s : State) (ln : Nat) (memSide : Bool) : MemMoves s (s.gather ln memSide) := by
  unfold State.gather
  dsimp only
  split
  · exact (cleanL2_moves _ _).toMem.trans rfl
  · exact (cleanL2_moves _ _).toMem

theorem writeSeen_moves (s : State) (space ln : Nat) (v : LineVal) (mask : BitVec 128) :
    MemMoves s (s.writeSeen space ln v mask) := (gather_moves _ _ _).trans (homeWrite_moves _ _ _ _ _ _).toMem

theorem readServed_moves (s : State) (space ln : Nat) : HomeMoves s (s.readServed space ln) := by
  unfold State.readServed
  split
  · rfl
  · exact mscServe_moves _ _ _ _

/-! ## Leagues (R42 to R47) -/

theorem releaseArrivals_moves (s : State) (scope : BitVec 2) (uids : List Nat) :
    MemMoves s (s.releaseArrivals scope uids) := by
  refine foldl_keeps (MemMoves s) _ (fun t u h => ?_) _ _ (MemMoves.refl s)
  split
  · split
    · exact h.trans (release_moves _ _ _ _).toMem
    · exact h.trans (cleanL2_moves _ _).toMem
  · exact h

theorem putLeague_moves (s : State) (l : League) : LeagueMoves s (s.putLeague l) := rfl

/-- Completing phases stops where a member owes an arrival or an action must wait, or completes one and goes on (R46, R47). -/
theorem settlePhases_cases (s : State) (id : Nat) (n : BitVec 3) (fuel : Nat) :
    s.settlePhases id n (fuel + 1) = s ∨
    ∃ (l : League) (sc : BitVec 2), s.leagueOf id = some l ∧
      s.settlePhases id n (fuel + 1) = ((s.releaseArrivals sc (l.object n).arrived).putLeague (l.setObject n
        ⟨(l.object n).c + 1#32, (l.object n).early, ((l.object n).c, sc) :: (l.object n).scopes, []⟩)).settlePhases id n fuel := by
  rw [State.settlePhases]
  split
  · exact .inl rfl
  next l hl =>
    dsimp only
    split
    · exact .inl rfl
    · generalize (if (l.object n).arrived.any (fun u => !(l.members.any (fun m => m.uid == u))) then 2#2
        else s.phaseScope (l.members.map (·.uid) ++ (l.object n).arrived)) = sc
      split
      · exact .inl rfl
      · exact .inr ⟨l, sc, hl, rfl⟩

theorem settlePhases_moves (id : Nat) (n : BitVec 3) : ∀ (fuel : Nat) (s : State), LeagueMoves s (s.settlePhases id n fuel)
  | 0, s => rfl
  | fuel + 1, s => by
    obtain h | ⟨l, sc, -, h⟩ := settlePhases_cases s id n fuel
    · rw [h]
      exact LeagueMoves.refl s
    · rw [h]
      exact (releaseArrivals_moves _ _ _).toLeague.trans ((putLeague_moves _ _).trans (settlePhases_moves id n fuel _))

theorem settleLeague_moves (s : State) (id : Nat) : LeagueMoves s (s.settleLeague id) :=
  foldl_keeps (LeagueMoves s) _ (fun _ _ h => h.trans (settlePhases_moves _ _ _ _)) _ _ (LeagueMoves.refl s)

/-! ## Queues (R50 to R60) -/

theorem putQcb_moves (s : State) (q : Nat) (v : Line) : QueueMoves s (s.putQcb q v) :=
  (writeSeen_moves _ _ _ _ _).toQueue.trans rfl

theorem cacheQcb_moves (s : State) (die q : Nat) : QueueMoves s (s.cacheQcb die q) := by
  unfold State.cacheQcb
  split
  · rfl
  · have h := (readServed_moves s 0 (s.qcbLine q)).toMem
    exact h.toQueue.trans (h.fe ▸ setFe_queueMoves (by rfl))

theorem putSlot_moves (s : State) (t : Slot) : QueueMoves s (s.putSlot t) := rfl

theorem onEntry_moves (s : State) (q idx : Nat) (f : Entry → Entry) : QueueMoves s (s.onEntry q idx f) := by
  unfold State.onEntry
  split
  · exact putSlot_moves _ _
  · rfl

theorem unmapQueue_moves (s : State) (q : Nat) : QueueMoves s (s.unmapQueue q) := by
  unfold State.unmapQueue
  split
  · rfl
  · exact (putQcb_moves _ _ _).trans rfl

theorem installQueue_moves (s : State) (die n q : Nat) : QueueMoves s (s.installQueue die n q) := by
  have h := cacheQcb_moves s die q
  unfold State.installQueue
  generalize s.cacheQcb die q = s0 at h
  exact h.trans ((setFe_queueMoves (by rfl)).trans (putQcb_moves _ _ _))

theorem mapQueue_moves (s : State) (q : Nat) : QueueMoves s (s.mapQueue q) := by
  unfold State.mapQueue
  dsimp only
  split
  · rfl
  · split
    · exact installQueue_moves _ _ _ _
    · split
      · split <;> rfl
      · split
        · exact (unmapQueue_moves _ _).trans (installQueue_moves _ _ _ _)
        · exact unmapQueue_moves _ _

theorem serveMapWait_moves (s : State) : QueueMoves s s.serveMapWait := by
  refine foldl_keeps (QueueMoves s) _ (fun t q h => ?_) _ _ (QueueMoves.refl s)
  split
  · exact h.trans ((setFe_queueMoves (by rfl)).trans (mapQueue_moves _ _))
  · exact h

theorem dropFailed_moves (s : State) (q : Nat) : QueueMoves s (s.dropFailed q) := by
  unfold State.dropFailed
  split
  · split
    · exact (unmapQueue_moves _ _).trans (serveMapWait_moves _)
    · rfl
  · rfl

theorem packetHartGone_moves (s : State) (q idx : Nat) : QueueMoves s (s.packetHartGone q idx) :=
  (onEntry_moves _ _ _ _).trans (dropFailed_moves _ _)

theorem failPacket_moves (s : State) (q idx code : Nat) : QueueMoves s (s.failPacket q idx code) := by
  unfold State.failPacket
  dsimp only
  refine QueueMoves.trans ?_ (dropFailed_moves _ _)
  have h : QueueMoves s (if s.qErr q then s else s.putQcb q (qSet (qSet (s.qcb q) 8 39 32 code) 8 9 9 1)) := by
    split
    · rfl
    · exact putQcb_moves _ _ _
  split
  · exact h.trans (putSlot_moves _ _)
  · exact h

end Sys2Proof.Proofs
end

section
/-!
SUPPORT. Leagues and barriers (R42 to R47, R224, R225): what joining, leaving and arriving do to a league, and from these the
statements O13 and O14.
-/

namespace Sys2Proof.Proofs

open Sys2Proof Sys2Proof.Machine Sys2Proof.Laws

/-! ## The hart in focus by its number -/

section
variable (s : State)

@[simp] theorem hartOf_self : s.hartOf s.hart.uid = some s.hart := by simp [State.hartOf, State.harts]
@[simp] theorem onHart_self (f : Hart → Hart) : s.onHart s.hart.uid f = { s with hart := f s.hart } := by simp [State.onHart]
@[simp] theorem focusOn_self : s.focusOn s.hart.uid = s := by simp [State.focusOn]
@[simp] theorem withHart_self (f : State → State) : s.withHart s.hart.uid f = f s := by simp [State.withHart]

end

/-! ## Tables filled entry by entry -/

/-- What an entry holds after a pass over the first `k` entries whose step at `r` changes entry `r` alone. -/
theorem foldl_range_read {β γ : Type} {N : Nat} (read : β → Nat → γ) (step : β → Nat → β) (val : Nat → γ → γ)
    (hs : ∀ b r i, r < N → read (step b r) i = if i = r then val r (read b r) else read b i) (b : β) :
    ∀ k, k ≤ N → ∀ i, read ((List.range k).foldl step b) i = if i < k then val i (read b i) else read b i
  | 0, _, i => by simp
  | k + 1, hk, i => by
    have ih := foldl_range_read read step val hs b k (by omega)
    rw [List.range_succ, List.foldl_append, List.foldl_cons, List.foldl_nil, hs _ _ _ (by omega), ih k, ih i]
    rcases Nat.lt_trichotomy i k with h | rfl | h
    · simp [h, show i ≠ k by omega, show i < k + 1 by omega]
    · simp
    · simp [show i ≠ k by omega, show ¬ i < k by omega, show ¬ i < k + 1 by omega]

theorem replaceFirst_eq_changeAll {α β : Type} [BEq β] [LawfulBEq β] (g : α → β) (a : β) (f : α → α) :
    ∀ {l : List α}, (l.map g).Nodup → replaceFirst (fun x => g x == a) f l = changeAll (fun x => g x == a) f l
  | [], _ => rfl
  | x :: l, h => by
    rw [List.map_cons, List.nodup_cons] at h
    by_cases hx : g x = a
    · have rest : changeAll (fun x => g x == a) f l = l :=
        (List.map_congr_left fun y hy => if_neg (by
          have : g y ≠ a := fun e => h.1 (hx.trans e.symm ▸ List.mem_map_of_mem hy)
          simpa using this)).trans (List.map_id' l)
      rw [replaceFirst, if_pos (by simp [hx]), changeAll, List.map_cons, if_pos (by simp [hx])]
      exact congrArg (f x :: ·) rest.symm
    · simp [replaceFirst, changeAll, hx, replaceFirst_eq_changeAll g a f h.2]

/-! ## Leagues by id -/

theorem leagueOf_id {s : State} {id : Nat} {l : League} (h : s.leagueOf id = some l) : l.id = id := by
  simpa using List.find?_some h

@[simp] theorem leagueOf_putLeague (s : State) (l : League) : (s.putLeague l).leagueOf l.id = some l := by
  simp [State.leagueOf, State.putLeague]

@[simp] theorem object_setObject (l : League) (n : BitVec 3) (b : Barrier) : (l.setObject n b).object n = b := by
  simp [League.object, League.setObject]

@[simp] theorem nextOf_setNext (m : Member) (n : BitVec 3) (v : BitVec 32) : (m.setNext n v).nextOf n = v := by
  simp [Member.nextOf, Member.setNext]

/-- Completing phases keeps the members of a league. -/
theorem settlePhases_members (id : Nat) (n : BitVec 3) : ∀ (fuel : Nat) (s : State),
    ((s.settlePhases id n fuel).leagueOf id).map (·.members) = (s.leagueOf id).map (·.members)
  | 0, s => rfl
  | fuel + 1, s => by
    obtain h | ⟨l, sc, hl, h⟩ := settlePhases_cases s id n fuel
    · rw [h]
    · rw [h, settlePhases_members id n fuel, hl]
      obtain rfl := leagueOf_id hl
      exact congrArg (Option.map (·.members)) (leagueOf_putLeague _ (l.setObject n _))

theorem settleLeague_members (s : State) (id : Nat) :
    ((s.settleLeague id).leagueOf id).map (·.members) = (s.leagueOf id).map (·.members) :=
  foldl_keeps (fun t : State => (t.leagueOf id).map (·.members) = (s.leagueOf id).map (·.members)) _
    (fun _ _ h => (settlePhases_members _ _ _ _).trans h) _ _ rfl

/-! ## LJOIN (R42, R224) -/

/-- The tests of R42 in their order. -/
theorem joinStatus_eq (s : State) (w : Word) : s.joinStatus w =
    if 4095 < w.toNat then 5 else if s.hart.league.isSome then 1
    else if (s.leagueOf w.toNat).any (fun k => k.owner != s.hart.asid) then 3
    else if 3072 ≤ (((s.leagueOf w.toNat).map (·.members)).getD []).length then 2
    else if (((s.leagueOf w.toNat).map (·.members)).getD []).length + 1 ≤
      192 * s.leagueCount (((s.leagueOf w.toNat).map (·.members)).getD []) s.hart then 0 else 4 := by
  unfold State.joinStatus
  cases s.leagueOf w.toNat <;> rfl

/-- The next arrivals of a member that joins count toward the phases after the current ones. -/
theorem nextOf_joining (k : League) (uid : Nat) (n : BitVec 3) :
    (Member.mk uid ((List.range 8).foldl (fun (v : Vector (BitVec 32) 8) (n : Nat) =>
      if hn : n < 8 then v.set n (k.objects[n].c + 1#32) else v) (Vector.replicate 8 0#32))).nextOf n = (k.object n).c + 1#32 := by
  have hn : n.toNat < 8 := n.isLt
  have h := foldl_range_read (N := 8) (fun (v : Vector (BitVec 32) 8) i => v[i]?)
    (fun (v : Vector (BitVec 32) 8) (n : Nat) => if hn : n < 8 then v.set n (k.objects[n].c + 1#32) else v)
    (fun r _ => k.objects[r]?.map (fun o => o.c + 1#32)) (fun v r i hr => by
      simp only [hr, dif_pos, Vector.getElem?_set]
      by_cases e : i = r
      · subst e; simp [hr]
      · simp [e, Ne.symm e]) (Vector.replicate 8 0#32) 8 (Nat.le_refl _) n.toNat
  simp only [hn, if_true] at h
  simpa [Member.nextOf, League.object, hn] using h

/-- A hart that joins is the last member of the league, which is its own when it is the first. -/
theorem join_leagueOf (s : State) (id : Nat) : ∃ l m, (s.join id).leagueOf id = some l ∧
    l.members = ((s.leagueOf id).map (·.members)).getD [] ++ [m] ∧ m.uid = s.hart.uid ∧
    (s.leagueOf id = none → l.owner = s.hart.asid ∧ ∀ n, m.nextOf n = 0#32) ∧
    (∀ k, s.leagueOf id = some k → l.owner = k.owner ∧ l.objects = k.objects ∧ ∀ n, m.nextOf n = (k.object n).c + 1#32) := by
  have stored : ∀ l : League, l.id = id → ({ s.putLeague l with hart := { s.hart with league := some id } } : State).leagueOf id =
      some l := fun l hl => hl ▸ leagueOf_putLeague s l
  unfold State.join
  cases h : s.leagueOf id with
  | none =>
    refine ⟨_, _, stored _ rfl, rfl, rfl, fun _ => ⟨rfl, fun n => ?_⟩, fun _ e => nomatch e⟩
    simp [Member.nextOf]
  | some k =>
    refine ⟨_, _, stored _ (show k.id = id from leagueOf_id h), rfl, rfl, (fun e => nomatch e), fun _ e => ?_⟩
    cases e
    exact ⟨rfl, rfl, nextOf_joining k _⟩

theorem execLjoin_eq (s : State) (d a : BitVec 5) : exec (.ljoin d a) s =
    .next ((if s.joinStatus (s.getX a) = 0 then s.join (s.getX a).toNat else s).result d
      (BitVec.ofNat 64 (s.joinStatus (s.getX a)))) := rfl

/-! ## LLEAVE (R43, R224) -/

theorem getB_congr {g h : Hart} (e : g.b = h.b) (n : BitVec 3) : g.getB n = h.getB n := by simp only [Hart.getB, e]

theorem mapB_eq (h : Hart) (f : Option Binding → Option Binding) : h.mapB f = { h with b := (h.mapB f).b } := by
  refine foldl_keeps (fun g : Hart => g = { h with b := g.b }) _ (fun g n hg => ?_) _ _ rfl
  split
  · rw [hg]
  · exact hg

theorem getB_mapB (h : Hart) (f : Option Binding → Option Binding) (n : BitVec 3) : (h.mapB f).getB n = f (h.getB n) := by
  have hn : n.toNat < 8 := n.isLt
  have := foldl_range_read (N := 8) (fun (g : Hart) i => g.b[i]?)
    (fun (g : Hart) (n : Nat) => if hn : n < 8 then { g with b := g.b.set n (f g.b[n]) } else g)
    (fun _ x => x.map f) (fun g r i hr => by
      simp only [hr, dif_pos, Vector.getElem?_set]
      by_cases e : i = r
      · subst e; simp [hr]
      · simp [e, Ne.symm e]) h 8 (Nat.le_refl _) n.toNat
  simp only [hn, if_true] at this
  simpa [Hart.mapB, Hart.getB, hn] using this

/-- A barrier register's binding once its hart has left a league (R43). -/
def unbindLeague (id : Nat) : Option Binding → Option Binding
  | some y => if y.league = id then none else some y
  | none => none

theorem unbindLeague_ne {id : Nat} {x : Option Binding} {b : Binding} (h : unbindLeague id x = some b) : b.league ≠ id := by
  unfold unbindLeague at h
  split at h
  · split at h
    · cases h
    · cases h; assumption
  · cases h

/-- A hart that has left its league. -/
def unleagued (h : Hart) (id : Nat) : Hart := { h.mapB (unbindLeague id) with league := none }

/-- What leaving a league does to the hart in focus; beside it, the leagues and what their phases release move alone (R43). -/
theorem leaveLeague_moves {s : State} {id : Nat} (h : s.hart.league = some id) :
    LeagueMoves { s with hart := unleagued s.hart id } (s.leaveLeague s.hart.uid) := by
  have e : s.onHart s.hart.uid (fun g => unleagued g id) = { s with hart := unleagued s.hart id } := onHart_self s _
  rw [← e, State.leaveLeague, hartOf_self, Option.bind_some, h]
  dsimp only
  split
  · exact LeagueMoves.refl _
  · split
    · exact setFe_leagueMoves (by rfl)
    · exact (putLeague_moves _ _).trans (settleLeague_moves _ _)

/-- A league that is stored and settled keeps its members. -/
theorem members_of_settled {s : State} {id : Nat} {k l : League} (h : ((s.putLeague k).settleLeague id).leagueOf id = some l)
    (hk : k.id = id) : l.members = k.members := by
  subst hk
  have := settleLeague_members (s.putLeague k) k.id
  rw [h, leagueOf_putLeague] at this
  simpa using this

/-- The league that a hart has left does not count it (R43). -/
theorem leaveLeague_left {s : State} {id : Nat} (h : s.hart.league = some id) {l : League}
    (hl : (s.leaveLeague s.hart.uid).leagueOf id = some l) : ∀ m ∈ l.members, m.uid ≠ s.hart.uid := by
  rw [State.leaveLeague, hartOf_self, Option.bind_some, h] at hl
  dsimp only at hl
  generalize s.onHart s.hart.uid _ = s1 at hl
  split at hl
  next hn => exact nomatch hn.symm.trans hl
  next k hk =>
    split at hl
    · obtain ⟨-, hne⟩ := List.mem_filter.1 (List.mem_of_find?_eq_some hl)
      simp [leagueOf_id hl] at hne
    · rw [members_of_settled hl (foldl_keeps (fun g : League => g.id = id) _ (fun g i hg => by split <;> exact hg) _ _
        (show k.id = id from leagueOf_id hk))]
      refine foldl_keeps (fun g : League => ∀ m ∈ g.members, m.uid ≠ s.hart.uid) _ (fun g i hg => by split <;> exact hg) _ _ ?_
      simp

/-! ## Settling O13 -/

theorem execLleave_eq (s : State) : exec .lleave s = .next (s.leaveLeague s.hart.uid).advance := rfl

theorem leaveLeague_alone {s : State} (h : s.hart.league = none) : s.leaveLeague s.hart.uid = s := by
  rw [State.leaveLeague, hartOf_self, Option.bind_some, h]

@[simp] theorem unleagued_pc (h : Hart) (id : Nat) : (unleagued h id).pc = h.pc := by rw [unleagued, mapB_eq]
@[simp] theorem unleagued_x (h : Hart) (id : Nat) : (unleagued h id).x = h.x := by rw [unleagued, mapB_eq]
theorem getB_unleagued (h : Hart) (id : Nat) (n : BitVec 3) : (unleagued h id).getB n = unbindLeague id (h.getB n) :=
  (getB_congr (by rfl) n).trans (getB_mapB h _ n)

/-- Settles O13: the statuses of R42 in their order and the membership that a join leaves; what leaving takes away. -/
theorem leagues : Obligations.Leagues := by
  unfold Obligations.Leagues
  refine ⟨fun s d a id members hid hm => ⟨_, s.joinStatus (s.getX a), execLjoin_eq s d a, ?_⟩, fun s => ⟨_, execLleave_eq s, ?_⟩⟩
  · have st := joinStatus_eq s (s.getX a)
    rw [← hid, ← hm] at st
    rw [← hid]
    refine ⟨fun h => ?_, fun h hl => ?_, fun h hl => ⟨fun l hk ho => ?_, fun ho => ?_⟩, fun h => ?_, fun h => ?_⟩
    · rw [st, if_pos h]
    · rw [st, if_neg (by omega), if_pos (Option.isSome_iff_ne_none.2 hl)]
    · rw [st, if_neg (by omega), if_neg (by simp [hl]), if_pos (by simp [hk, ho])]
    · have own : ¬ (s.leagueOf id).any (fun k => k.owner != s.hart.asid) = true := by
        cases hk : s.leagueOf id with
        | none => simp
        | some k => simp [ho k hk]
      rw [if_neg (by omega), if_neg (by simp [hl]), if_neg own] at st
      exact ⟨fun h => by rw [st, if_pos h], fun h k => by rw [st, if_neg (by omega), if_neg (by omega)],
        fun h k => by rw [st, if_neg (by omega), if_pos k]⟩
    · rw [if_neg h]
      exact wrote_result s d _
    · obtain ⟨l, m, hl, hms, rest⟩ := join_leagueOf s id
      rw [if_pos h, h]
      refine ⟨by simp [State.join], fun hd => ?_, fun r hr => ?_, fun _ => rfl, l, m, hl, hm ▸ hms, rest⟩
      · rw [getX_result, if_pos ⟨rfl, hd⟩]
      · rw [getX_result, if_neg (fun e => hr e.1)]
        rfl
  · cases h : s.hart.league with
    | none =>
      rw [leaveLeague_alone h]
      exact ⟨h, rfl, rfl, fun _ => passed_advance s, fun _ e => nomatch e⟩
    | some id =>
      have hh := (leaveLeague_moves h).hart
      have left := fun l => leaveLeague_left h (l := l)
      generalize s.leaveLeague s.hart.uid = t at hh left
      have hb (n : BitVec 3) : t.advance.hart.getB n = unbindLeague id (s.hart.getB n) :=
        (congrArg (Hart.getB · n) hh).trans (getB_unleagued _ _ n)
      refine ⟨(congrArg Hart.league hh).trans rfl, ?_, (congrArg Hart.x hh).trans (unleagued_x _ _), (fun e => nomatch e), fun _ e => ?_⟩
      · rw [State_advance_hart, hh, unleagued_pc]
      · cases e
        exact ⟨fun n b h => unbindLeague_ne ((hb n).symm.trans h), left⟩

end Sys2Proof.Proofs
end

section
/-!
SUPPORT. Causes that a hart takes at TVEC (R365, R366): the state that a trap entry leaves, for the statements about traps of
single instructions and of events.
-/

namespace Sys2Proof.Proofs

open Sys2Proof Sys2Proof.Machine Sys2Proof.Laws

/-- A field as a word holds it. -/
theorem zext_eq_ofNat {k : Nat} (v : BitVec k) : zext v = BitVec.ofNat 64 v.toNat := by
  apply BitVec.eq_of_toNat_eq
  simp [zext]

/-- With no furlong open and nothing buffered, closing the furlong changes nothing (R239). -/
theorem closing_of_none {s : State} (hf : s.hart.furlong = none) (hs : s.hart.strip = []) : s.closing = .ok s := by
  have e : ({ s with hart := { s.hart with furlong := none } } : State) = s := by rw [← hf]
  unfold State.closing commitFurlong
  rw [bind_ok (run_get s), if_pos hs, run_set, e]

theorem position_of_none {h : Hart} (hr : h.region = none) : h.position = h.pc := by rw [Hart.position, hr]

section
variable {s : State} (ht : s.takesTraps)
include ht

theorem takesTraps_position : s.hart.position = s.hart.pc := by
  obtain ⟨-, -, -, -, region, -⟩ := ht
  exact position_of_none region

theorem trapEntry_eq (v : FaultVals) : s.trapEntry v = { s with hart := { s.hart.atStart with
    csr := s.hart.csr.entered v, pc := s.hart.csr.tvec, vPi := s.hart.restPi (s.streamRegs s.hart.uid), posWritten := false,
    region := none, wait := .none, atBarrier := false } } := by
  obtain ⟨hm, tv, fu, st, -, gr⟩ := ht
  rw [State.trapEntry, if_neg (by simp [hm, tv, gr]), closing_of_none fu st]

/-- A hart that takes causes is at the first instruction of its handler after a trap entry with given fault values. -/
theorem trapEntry_entered {v : FaultVals} (hg : v.given = true) (he : v.elem = 0) :
    Entered s v.cause v.vec v.epc v.va v.stride v.remain (s.trapEntry v) := by
  rw [trapEntry_eq ht]
  constructor <;> simp [Csrs.entered, hg, he, causeWord, Hart.atStart, State.byteAt]

theorem takesTraps_clearReplies : s.clearReplies.takesTraps := by
  obtain ⟨hm, tv, fu, st, re, gr⟩ := ht
  refine ⟨?_, ?_, ?_, ?_, ?_, ?_⟩
  all_goals simp_all [Hart.graceDue, Hart.isResident]

theorem raise_entered_of_given {v : FaultVals} (hg : v.given = true) (he : v.elem = 0)
    (hp : v.cause ≠ 5#8 ∧ v.cause ≠ 6#8 ∧ v.cause ≠ 7#8) : Entered s v.cause v.vec v.epc v.va v.stride v.remain (s.raise v) := by
  obtain ⟨h5, h6, h7⟩ := hp
  have e : s.raise v = s.trapEntry v := by rw [State.raise, if_neg (by simp [h5, h6, h7])]
  exact e ▸ trapEntry_entered ht hg he

/-- An instruction whose steps raise a cause at its PC enters the handler with the fault values of the cause. -/
theorem settle_cause {m : M Unit} {c : BitVec 8} {a b r : Word} (hm : m s = .error (.trap s (s.cause c a b r)))
    (hp : c ≠ 5#8 ∧ c ≠ 6#8 ∧ c ≠ 7#8) : ∃ u, settle m s = .next u ∧ Entered s.clearReplies c false s.hart.pc a b r u := by
  refine ⟨_, settle_trap hm, ?_⟩
  have h := raise_entered_of_given (takesTraps_clearReplies ht) (v := s.cause c a b r) rfl rfl hp
  rwa [show (s.cause c a b r).epc = s.hart.pc from takesTraps_position ht] at h

/-- An instruction whose steps find it illegal enters the handler with its word in FAULTVA. -/
theorem settle_illegal {m : M Unit} {w : BitVec 32} (hm : m s = .error (.trap s (s.illegalVals w))) :
    ∃ u, settle m s = .next u ∧ Entered s.clearReplies 1#8 (vectorMajor w) s.hart.pc (zext w) 0#64 0#64 u := by
  refine ⟨_, settle_trap hm, ?_⟩
  have h := raise_entered_of_given (takesTraps_clearReplies ht) (v := s.illegalVals w) rfl rfl
    (show 1#8 ≠ 5#8 ∧ 1#8 ≠ 6#8 ∧ 1#8 ≠ 7#8 by decide)
  rwa [show (s.illegalVals w).epc = s.hart.pc from takesTraps_position ht] at h

end

end Sys2Proof.Proofs
end

section
/-!
SUPPORT. Barriers (R45 to R47, R225): what an arrival leaves in a league, and from it and the traps the statement O14.
-/

namespace Sys2Proof.Proofs

open Sys2Proof Sys2Proof.Machine Sys2Proof.Laws

/-! ## Phases (R46, R47) -/

theorem setObject_id (l : League) (n : BitVec 3) (b : Barrier) : (l.setObject n b).id = l.id := rfl

/-- While a member owes an arrival to the current phase, no phase completes. -/
theorem settlePhases_owed {s : State} {id : Nat} {n : BitVec 3} {l : League} (hl : s.leagueOf id = some l)
    (ho : ∃ m ∈ l.members, m.nextOf n = (l.object n).c) : ∀ fuel, s.settlePhases id n fuel = s
  | 0 => rfl
  | fuel + 1 => by
    rw [State.settlePhases, hl]
    exact if_pos (.inr (.inl (by simpa using ho)))

/-- When no member owes an arrival and the arrivals' stores have performed, the phase completes (R46, R47). -/
theorem settlePhases_done {s : State} {id : Nat} {n : BitVec 3} {l : League} (hl : s.leagueOf id = some l)
    (hm : l.members ≠ []) (ho : ∀ m ∈ l.members, m.nextOf n ≠ (l.object n).c) (hu : ∀ k ∈ (l.object n).arrived, s.unacked k = false)
    (hp : s.planesMove = true) (fuel : Nat) :
    ∃ sc, s.settlePhases id n (fuel + 1) = ((s.releaseArrivals sc (l.object n).arrived).putLeague (l.setObject n
      ⟨(l.object n).c + 1#32, (l.object n).early, ((l.object n).c, sc) :: (l.object n).scopes, []⟩)).settlePhases id n fuel := by
  rw [State.settlePhases, hl]
  dsimp only
  rw [if_neg (by simpa [hm] using ⟨ho, hu⟩)]
  generalize (if (l.object n).arrived.any (fun u => !(l.members.any (fun m => m.uid == u))) then 2#2
    else s.phaseScope (l.members.map (·.uid) ++ (l.object n).arrived)) = sc
  exact ⟨sc, if_neg (by simp [hp])⟩

/-- When the last member that owed an arrival arrives, one phase completes and the next begins (R46). -/
theorem settlePhases_once {s : State} {id : Nat} {n : BitVec 3} {l : League} (hl : s.leagueOf id = some l)
    (ho : ∀ m ∈ l.members, m.nextOf n ≠ (l.object n).c) (hu : ∀ k ∈ (l.object n).arrived, s.unacked k = false)
    (hp : s.planesMove = true) (hm : ∃ m ∈ l.members, m.nextOf n = (l.object n).c + 1#32) (fuel : Nat) :
    ∃ l', (s.settlePhases id n (fuel + 1)).leagueOf id = some l' ∧ l'.members = l.members ∧
      (l'.object n).c = (l.object n).c + 1#32 := by
  obtain ⟨m, hm, hmc⟩ := hm
  obtain rfl := leagueOf_id hl
  obtain ⟨sc, done⟩ := settlePhases_done hl (List.ne_nil_of_mem hm) ho hu hp fuel
  have stored := leagueOf_putLeague (s.releaseArrivals sc (l.object n).arrived) (l.setObject n
    ⟨(l.object n).c + 1#32, (l.object n).early, ((l.object n).c, sc) :: (l.object n).scopes, []⟩)
  rw [setObject_id] at stored
  rw [done, settlePhases_owed stored ⟨m, hm, by rw [object_setObject, hmc]⟩ fuel]
  exact ⟨_, stored, rfl, by rw [object_setObject]⟩

/-- The league as the arrival of a member at the current phase leaves it, before phases are completed. -/
def arrived (l : League) (o : BitVec 3) (m : Member) : League :=
  ({ l with members := replaceFirst (fun k => k.uid == m.uid) (fun k => k.setNext o (m.nextOf o + 1#32)) l.members } : League).setObject o
    { l.object o with arrived := m.uid :: (l.object o).arrived }

theorem arrive_eq {s : State} {l : League} {o : BitVec 3} {m : Member} (hc : m.nextOf o = (l.object o).c) :
    s.arrive l o m = (s.putLeague (arrived l o m)).settlePhases l.id o 3 := by
  rw [State.arrive]
  simp only [if_pos hc]
  rfl

section
variable {l : League} {o : BitVec 3} {m : Member} (hn : (l.members.map (·.uid)).Nodup)
include hn

theorem arrived_members : (arrived l o m).members =
    changeAll (fun k => k.uid == m.uid) (fun k => k.setNext o (m.nextOf o + 1#32)) l.members :=
  replaceFirst_eq_changeAll Member.uid m.uid _ hn

/-- A member after the arrival: the one that arrived, or another as it was. -/
theorem mem_arrived (hm : m ∈ l.members) {k : Member} : k ∈ (arrived l o m).members ↔
    k = m.setNext o (m.nextOf o + 1#32) ∨ (k ∈ l.members ∧ k.uid ≠ m.uid) := by
  rw [arrived_members hn, changeAll, List.mem_map]
  constructor
  · rintro ⟨j, hj, rfl⟩
    by_cases e : j.uid = m.uid
    · obtain rfl := List.inj_on_of_nodup_map hn hj hm e
      simp
    · simp [e, hj]
  · rintro (rfl | ⟨hk, e⟩)
    · exact ⟨m, hm, by simp⟩
    · exact ⟨k, hk, by simp [e]⟩

end

theorem succ_ne_self (c : BitVec 32) : c + 1#32 ≠ c := by bv_omega

/-- What an arrival at the current phase leaves of a league: the arrival counts, and the phase completes exactly when no other
member still owes one (R46). -/
theorem arrive_leagueOf {s : State} {l : League} {o : BitVec 3} {m : Member} (hm : m ∈ l.members)
    (hn : (l.members.map (·.uid)).Nodup) (hc : m.nextOf o = (l.object o).c)
    (hu : ∀ k ∈ m.uid :: (l.object o).arrived, s.unacked k = false) (hp : s.planesMove = true) :
    ∃ l', (s.arrive l o m).leagueOf l.id = some l' ∧ l'.members = (arrived l o m).members ∧
      ((∀ k ∈ l.members, k.uid ≠ m.uid → k.nextOf o ≠ (l.object o).c) → (l'.object o).c = (l.object o).c + 1#32) ∧
      ((∃ k ∈ l.members, k.uid ≠ m.uid ∧ k.nextOf o = (l.object o).c) → (l'.object o).c = (l.object o).c) := by
  have stored : (s.putLeague (arrived l o m)).leagueOf l.id = some (arrived l o m) := leagueOf_putLeague s (arrived l o m)
  have object : (arrived l o m).object o = { l.object o with arrived := m.uid :: (l.object o).arrived } := object_setObject _ _ _
  have moved : m.setNext o (m.nextOf o + 1#32) ∈ (arrived l o m).members := (mem_arrived hn hm).2 (.inl rfl)
  rw [arrive_eq hc]
  by_cases owed : ∃ k ∈ l.members, k.uid ≠ m.uid ∧ k.nextOf o = (l.object o).c
  · obtain ⟨k, hk, hku, hkc⟩ := owed
    rw [settlePhases_owed stored ⟨k, (mem_arrived hn hm).2 (.inr ⟨hk, hku⟩), by rw [object, hkc]⟩ 3]
    exact ⟨_, stored, rfl, fun h => absurd hkc (h k hk hku), fun _ => by rw [object]⟩
  · have owes (k : Member) (hk : k ∈ (arrived l o m).members) : k.nextOf o ≠ ((arrived l o m).object o).c := by
      rw [object]
      obtain rfl | ⟨hk, hku⟩ := (mem_arrived hn hm).1 hk
      · rw [nextOf_setNext, hc]
        exact succ_ne_self _
      · exact fun e => owed ⟨k, hk, hku, e⟩
    obtain ⟨l', hl', hms, hcs⟩ := settlePhases_once stored owes (by rw [object]; exact hu) hp
      ⟨_, moved, by rw [object, nextOf_setNext, hc]⟩ 2
    exact ⟨l', hl', hms, fun _ => by rw [hcs, object], fun h => absurd h owed⟩

/-! ## BINIT, BARR and BWAIT (R225) -/

theorem getB_bound (h : Hart) (n k : BitVec 3) (b : Option Binding) :
    ({ h with b := h.b.set n.toNat b n.isLt } : Hart).getB k = if k = n then b else h.getB k := by
  unfold Hart.getB
  by_cases e : k = n
  · subst e; simp
  · have : n.toNat ≠ k.toNat := fun h => e (BitVec.eq_of_toNat_eq h.symm)
    simp [e, this]

theorem needPlanes_ok {s : State} {sc : BitVec 2} (h : s.planesFor sc) : M.needPlanes sc s = .ok ((), s) := by
  rw [M.needPlanes, if_pos]
  by_cases e : 2 ≤ sc.toNat
  · simp [h e]
  · simp [show sc.toNat ≤ 1 by omega]

theorem exec_binit_eq {s : State} {n : BitVec 3} {id : Nat} (h : s.hart.league = some id) : exec (.binit n) s =
    .next (State.advance { s with hart := { s.hart with b := s.hart.b.set n.toNat (some ⟨id, n⟩) n.isLt } }).clearReplies := by
  refine settle_ok ?_
  rw [bind_ok (run_get s), h]
  rfl

theorem exec_barr_eq {s : State} {d : BitVec 5} {n o : BitVec 3} {l : League} {m : Member} (hb : s.barrierOf n = some (l, o, m))
    (hw : s.walkAhead none = none) (hp : (m.nextOf o - (l.object o).c).toNat < 2) (hu : s.unacked s.hart.uid = false) :
    exec (.barr d n) s = .next ((s.arrive l o m).clearReplies.result d (zext (m.nextOf o))) := by
  rw [← clear_result]
  refine settle_ok ?_
  rw [bind_ok (wait_none hw), bind_ok (run_get s), hb]
  simp only
  rw [bind_ok (run_get s), if_neg (by rw [hu, Bool.or_false, decide_eq_true_eq]; omega), bind_ok (run_modify s _)]
  rfl

theorem exec_bwait_eq {s : State} {a : BitVec 5} {n o : BitVec 3} {l : League} {m : Member} {sc : BitVec 2}
    (hb : s.barrierOf n = some (l, o, m)) (hp : ((l.object o).c - (s.getX a).setWidth 32 - 1#32).toNat < 2 ^ 31)
    (hsc : sc = (((l.object o).scopes.find? (fun e => e.1 == (s.getX a).setWidth 32)).map (·.2)).getD 2#2)
    (hw : s.walkAhead (some sc) = none) (hpl : s.planesFor sc) : exec (.bwait a n) s =
      .next ({ s.acquireMine sc with hart := { (s.acquireMine sc).hart with atBarrier := false } } : State).clearReplies.advance := by
  rw [← clear_advance]
  refine settle_ok ?_
  rw [bind_ok (run_get s), hb]
  simp only
  rw [bind_ok (run_get s), if_pos hp, ← hsc, bind_ok (wait_none hw), bind_ok (needPlanes_ok hpl), M.acquire,
    bind_ok (run_modify s _), bind_ok (run_modify _ _)]
  rfl

section
variable {s : State} {n : BitVec 3} (ht : s.takesTraps)
include ht

theorem exec_binit_trap (h : s.hart.league = none) : ∃ u, exec (.binit n) s = .next u ∧
    Entered s.clearReplies 8#8 false s.hart.pc 0#64 (zext n) 0#64 u := by
  refine settle_cause ht ?_ (by decide)
  rw [bind_ok (run_get s), h]
  rfl

theorem exec_barr_trap (d : BitVec 5) (hb : s.barrierOf n = none) (hw : s.walkAhead none = none) :
    ∃ u, exec (.barr d n) s = .next u ∧ Entered s.clearReplies 8#8 false s.hart.pc 0#64 (zext n) 0#64 u := by
  refine settle_cause ht ?_ (by decide)
  rw [bind_ok (wait_none hw), bind_ok (run_get s), hb]
  rfl

theorem exec_bwait_trap (a : BitVec 5) (hb : s.barrierOf n = none) :
    ∃ u, exec (.bwait a n) s = .next u ∧ Entered s.clearReplies 8#8 false s.hart.pc 0#64 (zext n) 0#64 u := by
  refine settle_cause ht ?_ (by decide)
  rw [bind_ok (run_get s), hb]
  rfl

end

/-- Settles O14: binding, arrival and wait with their traps, and the completion of a phase with its last arrival. A BWAIT whose
phase has no recorded scope acquires at package scope (log entry 53). -/
theorem barriers : Obligations.Barriers := by
  unfold Obligations.Barriers
  refine ⟨fun s n id h => ⟨_, exec_binit_eq h, ?_⟩, fun s d n o l m hb hw hp hu => ⟨_, exec_barr_eq hb hw hp hu, ?_⟩,
    fun s a n o l m p sc hb hp hc hsc hw hpl => ?_, fun s n ht => ?_, fun s l o m _ hm hn hall hc hu hp => ?_⟩
  · have hb : (State.advance { s with hart := { s.hart with b := s.hart.b.set n.toNat (some ⟨id, n⟩) n.isLt } }).clearReplies.hart.b =
        s.hart.b.set n.toNat (some ⟨id, n⟩) n.isLt := by simp [Hart.atStart]
    have bound := getB_bound s.hart n (b := some ⟨id, n⟩)
    refine ⟨(getB_congr hb n).trans ((bound n).trans (if_pos rfl)), fun k hk => (getB_congr hb k).trans ((bound k).trans (if_neg hk)), ?_⟩
    rw [hb]
    rfl
  · rw [← zext_eq_ofNat]
    exact wrote_result _ _ _
  · have hx : p = (s.getX a).setWidth 32 := hp.trans (BitVec.eq_of_toNat_eq (by simp))
    subst hx
    exact ⟨_, exec_bwait_eq hb hc hsc hw hpl, passed_advance _⟩
  · rw [← zext_eq_ofNat]
    exact ⟨exec_binit_trap ht, fun hb x => ⟨exec_barr_trap ht x hb, exec_bwait_trap ht x hb⟩⟩
  · obtain ⟨l', hl', hms, hdone, howed⟩ := arrive_leagueOf hm hn hc hu hp
    refine ⟨l', hl', ?_, fun k hk hku => ?_, fun h => hdone fun k hk hku => ?_, howed⟩
    · rw [hms, arrived_members hn, changeAll, List.length_map]
    · obtain rfl | ⟨-, hne⟩ := (mem_arrived hn hm).1 (hms ▸ hk)
      · exact nextOf_setNext _ _ _
      · exact absurd hku hne
    · exact h k hk hku ▸ succ_ne_self _

end Sys2Proof.Proofs
end

section
/-!
SUPPORT. CSRs (R25, R170 to R174, R228): what each write holds, and the causes of forbidden accesses; from these the statement
O18.
-/

namespace Sys2Proof.Proofs

open Sys2Proof Sys2Proof.Machine Sys2Proof.Laws

/-! ## Held bits (R25, R171 to R174) -/

theorem and_mask_eq_mod (v : Word) (k : Nat) (hk : k ≤ 64) : v &&& BitVec.ofNat 64 (2 ^ k - 1) = BitVec.ofNat 64 (v.toNat % 2 ^ k) := by
  apply BitVec.eq_of_toNat_eq
  have : 2 ^ k - 1 < 2 ^ 64 := Nat.lt_of_lt_of_le (Nat.sub_lt (Nat.two_pow_pos k) Nat.one_pos) (Nat.pow_le_pow_right (by decide) hk)
  rw [BitVec.toNat_and, BitVec.toNat_ofNat, Nat.mod_eq_of_lt this, Nat.and_two_pow_sub_one_eq_mod, BitVec.toNat_ofNat,
    Nat.mod_eq_of_lt (Nat.lt_of_le_of_lt (Nat.mod_le _ _) v.isLt)]

/-- Clearing the low `k` bits rounds down to a multiple of 2^k. -/
theorem and_not_mask_eq (v : Word) (k : Nat) :
    v &&& ~~~(BitVec.ofNat 64 (2 ^ k - 1)) = BitVec.ofNat 64 (v.toNat / 2 ^ k * 2 ^ k) := by
  refine BitVec.eq_of_getLsbD_eq fun i hi => ?_
  rw [BitVec.getLsbD_and, BitVec.getLsbD_not, BitVec.getLsbD_ofNat, BitVec.getLsbD_ofNat, Nat.testBit_two_pow_sub_one,
    Nat.testBit_mul_two_pow, Nat.testBit_div_two_pow]
  by_cases h : k ≤ i
  · simp [hi, h, Nat.not_lt.2 h, BitVec.getLsbD]
  · simp [hi, h, Nat.lt_of_not_le h]

theorem wrapPc_eq_mod (v : Word) : wrapPc v = BitVec.ofNat 64 (v.toNat % 2 ^ 57) := and_mask_eq_mod v 57 (by decide)

theorem pcBits_eq (v : Word) : wrapPc v &&& ~~~3#64 = BitVec.ofNat 64 (v.toNat % 2 ^ 57 / 4 * 4) := by
  rw [wrapPc_eq_mod]
  refine (and_not_mask_eq _ 2).trans ?_
  rw [BitVec.toNat_ofNat, Nat.mod_eq_of_lt (show v.toNat % 2 ^ 57 < 2 ^ 64 by omega)]
  rfl

theorem clampSlip_eq (v : Word) : clampSlip v = BitVec.ofNat 64 (Max.max 1 (Min.min 256 v.toNat)) := by
  unfold clampSlip
  split
  · next h => subst h; rfl
  · next h =>
    have : v.toNat ≠ 0 := fun e => h (BitVec.eq_of_toNat_eq e)
    split
    · rw [Nat.min_eq_left (by omega)]; rfl
    · rw [Nat.min_eq_right (by omega), Nat.max_eq_right (by omega), BitVec.ofNat_toNat, BitVec.setWidth_eq]

/-! ## Reading what was written (R171, R228) -/

/-- No write of a CSR sets HM or the CSRs that are read alone. -/
theorem write_readOnly (c : Csrs) (n : BitVec 12) (v : Word) : (c.write n v).hm = c.hm ∧ (c.write n v).runCount = c.runCount ∧
    (c.write n v).wdLimit = c.wdLimit ∧ (c.write n v).hartId = c.hartId := by
  unfold Csrs.write
  split <;> exact ⟨rfl, rfl, rfl, rfl⟩

/-- A write of a CSR sets the field of its number alone. -/
theorem write_others (c : Csrs) (n : BitVec 12) (v : Word) :
    (n.toNat ≠ 0 → (c.write n v).sove = c.sove) ∧ (n.toNat ≠ 1 → (c.write n v).cause = c.cause) ∧
    (n.toNat ≠ 2 → (c.write n v).epc = c.epc) ∧ (n.toNat ≠ 3 → (c.write n v).elemStart = c.elemStart) ∧
    (n.toNat ≠ 4 → (c.write n v).faultVa = c.faultVa) ∧ (n.toNat ≠ 5 → (c.write n v).faultStride = c.faultStride) ∧
    (n.toNat ≠ 6 → (c.write n v).faultRemain = c.faultRemain) ∧ (n.toNat ≠ 7 → (c.write n v).tvec = c.tvec) ∧
    (n.toNat ≠ 8 → (c.write n v).scratch = c.scratch) ∧ (n.toNat ≠ 9 → (c.write n v).flags = c.flags) ∧
    (n.toNat ≠ 10 → (c.write n v).slip = c.slip) ∧ (n.toNat ≠ 11 → (c.write n v).walkSpill = c.walkSpill) ∧
    (n.toNat ≠ 12 → (c.write n v).walkMax = c.walkMax) := by
  unfold Csrs.write
  split <;> simp_all

/-- A write of a CSR stands in that CSR alone. -/
theorem readCsr_writeCsr_other (s : State) {n m : BitVec 12} (v : Word) (h : n.toNat ≠ m.toNat) :
    (s.writeCsr n v).readCsr m = s.readCsr m := by
  obtain ⟨hm, runCount, wdLimit, hartId⟩ := write_readOnly s.hart.csr n v
  obtain ⟨sove, cause, epc, elemStart, faultVa, faultStride, faultRemain, tvec, scratch, flags, slip, walkSpill, walkMax⟩ :=
    write_others s.hart.csr n v
  unfold State.readCsr
  generalize m.toNat = k at h
  split
  case h_1 =>
    have hs : (s.writeCsr n v).hart.csr.sove = s.hart.csr.sove := sove h
    have hh : (s.writeCsr n v).hart.csr.hm = s.hart.csr.hm := hm
    unfold State.statusWord
    simp only [hs, hh]
    rfl
  case h_2 => exact cause h
  case h_3 => exact epc h
  case h_4 => exact elemStart h
  case h_5 => exact faultVa h
  case h_6 => exact faultStride h
  case h_7 => exact faultRemain h
  case h_8 => exact tvec h
  case h_9 => exact scratch h
  case h_10 => exact flags h
  case h_11 => exact slip h
  case h_12 => exact walkSpill h
  case h_13 => exact walkMax h
  case h_15 => exact runCount
  case h_16 => exact wdLimit
  case h_17 => exact hartId
  all_goals rfl

/-- The CSRs 1 to 12 after a write, bit by bit of R171 to R174 and R25. -/
theorem readCsr_writeCsr_same (s : State) (v : Word) :
    (s.writeCsr 1#12 v).readCsr 1#12 = BitVec.ofNat 64 (v.toNat % 512) ∧
    (s.writeCsr 2#12 v).readCsr 2#12 = BitVec.ofNat 64 (v.toNat % 2 ^ 57 / 4 * 4) ∧
    (s.writeCsr 3#12 v).readCsr 3#12 = v ∧ (s.writeCsr 4#12 v).readCsr 4#12 = v ∧ (s.writeCsr 5#12 v).readCsr 5#12 = v ∧
    (s.writeCsr 6#12 v).readCsr 6#12 = v ∧
    (s.writeCsr 7#12 v).readCsr 7#12 = BitVec.ofNat 64 (v.toNat % 2 ^ 57 / 4 * 4) ∧
    (s.writeCsr 8#12 v).readCsr 8#12 = v ∧
    (s.writeCsr 9#12 v).readCsr 9#12 = BitVec.ofNat 64 (v.toNat % 64) ∧
    (s.writeCsr 10#12 v).readCsr 10#12 = BitVec.ofNat 64 (Max.max 1 (Min.min 256 v.toNat)) ∧
    (s.writeCsr 11#12 v).readCsr 11#12 = BitVec.ofNat 64 (v.toNat / 8 * 8) ∧
    (s.writeCsr 12#12 v).readCsr 12#12 = v :=
  ⟨and_mask_eq_mod v 9 (by decide), pcBits_eq v, rfl, rfl, rfl, rfl, pcBits_eq v, rfl, and_mask_eq_mod v 6 (by decide),
    clampSlip_eq v, and_not_mask_eq v 3, rfl⟩

/-! ## Accesses that a class or number forbids (R170) -/

section
variable {s : State} {i : Instr} {d : BitVec 5} {n : BitVec 12}

/-- A write of a read-only CSR, or of a handler's CSR outside a handler, raises cause 0x03. -/
theorem csrAccess_forbidden (hh : s.hart.csr.hm = false) (hc : csrClass n = some .r ∨ csrClass n = some .h) (f : Word → Word) :
    csrAccess i d n (some f) s = .error (.trap s (s.cause 3#8 (zext n) 0#64 0#64)) := by
  rw [csrAccess, bind_ok (run_get s)]
  rcases hc with hc | hc
  · rw [hc]
    rfl
  · rw [hc]
    simp only
    rw [if_pos (by simp [hh])]
    rfl

/-- An access of an unassigned number is illegal. -/
theorem csrAccess_unassigned (hc : csrClass n = none) (new : Option (Word → Word)) :
    csrAccess i d n new s = .error (.trap s (s.illegalVals (wordOf i))) := by
  rw [csrAccess, bind_ok (run_get s), hc]
  rfl

end

/-- The fields of a CSR instruction's word do not overlap (R182). -/
theorem csrWord_toNat {f : Nat} (hf : f < 8) (d a : BitVec 5) (c : BitVec 12) :
    (BitVec.ofNat 32 (0x56000000 + f * 2 ^ 12) ||| field 20 d ||| field 15 a ||| field 0 c).toNat =
      0x2B * 2 ^ 25 + d.toNat * 2 ^ 20 + a.toNat * 2 ^ 15 + f * 2 ^ 12 + c.toNat := by
  have hd := d.isLt
  have ha := a.isLt
  have hc := c.isLt
  have nested : 0x56000000 + f * 2 ^ 12 = 2 ^ 25 * 0x2B ||| 2 ^ 12 * f := by
    rw [← Nat.two_pow_add_eq_or_of_lt (by omega)]
    omega
  have fields : (BitVec.ofNat 32 (0x56000000 + f * 2 ^ 12) ||| field 20 d ||| field 15 a ||| field 0 c).toNat =
      2 ^ 25 * 0x2B ||| (2 ^ 20 * d.toNat ||| (2 ^ 15 * a.toNat ||| (2 ^ 12 * f ||| c.toNat))) := by
    simp only [field, BitVec.toNat_or, BitVec.toNat_ofNat, BitVec.toNat_shiftLeft, BitVec.toNat_setWidth, Nat.shiftLeft_eq]
    rw [Nat.mod_eq_of_lt (by omega), Nat.mod_eq_of_lt (by omega), Nat.mod_eq_of_lt (by omega), Nat.mod_eq_of_lt (by omega),
      Nat.mod_eq_of_lt (by omega), Nat.mod_eq_of_lt (by omega), Nat.mod_eq_of_lt (by omega), nested]
    ac_rfl
  rw [fields, ← Nat.two_pow_add_eq_or_of_lt hc, ← Nat.two_pow_add_eq_or_of_lt (i := 15) (by omega),
    ← Nat.two_pow_add_eq_or_of_lt (i := 20) (by omega), ← Nat.two_pow_add_eq_or_of_lt (i := 25) (by omega)]
  omega

theorem vectorMajor_eq (w : BitVec 32) : vectorMajor w = decide (0x30 ≤ w.toNat / 2 ^ 25 ∧ w.toNat / 2 ^ 25 ≤ 0x3A) := by
  have h : (w.extractLsb' 25 7).toNat = w.toNat / 2 ^ 25 := by
    rw [BitVec.extractLsb'_toNat, Nat.shiftRight_eq_div_pow]
    exact Nat.mod_eq_of_lt (by omega)
  rw [vectorMajor, h, Bool.decide_and]

/-- The word of each CSR instruction. -/
theorem wordOf_csr {d a : BitVec 5} {c : BitVec 12} {i : Instr} {f : Nat}
    (hi : (i = .csrr d c ∧ f = 0 ∧ a = 0#5) ∨ (i = .csrw d a c ∧ f = 1) ∨ (i = .csrs d a c ∧ f = 2) ∨ (i = .csrc d a c ∧ f = 3)) :
    (wordOf i).toNat = 0x2B * 2 ^ 25 + d.toNat * 2 ^ 20 + a.toNat * 2 ^ 15 + f * 2 ^ 12 + c.toNat := by
  rcases hi with ⟨rfl, rfl, rfl⟩ | ⟨rfl, rfl⟩ | ⟨rfl, rfl⟩ | ⟨rfl, rfl⟩
  · refine Eq.trans (congrArg (fun w => (w ||| field 0 c).toNat) ?_) (csrWord_toNat (f := 0) (by decide) d 0#5 c)
    exact (BitVec.or_zero (x := 0x56000000#32 ||| field 20 d)).symm
  · exact csrWord_toNat (f := 1) (by decide) d a c
  · exact csrWord_toNat (f := 2) (by decide) d a c
  · exact csrWord_toNat (f := 3) (by decide) d a c

/-- A CSR instruction is an access with its own function of the old value (R228). -/
theorem exec_csr {d a : BitVec 5} {c : BitVec 12} {i : Instr} {f : Nat} (s : State)
    (hi : (i = .csrr d c ∧ f = 0 ∧ a = 0#5) ∨ (i = .csrw d a c ∧ f = 1) ∨ (i = .csrs d a c ∧ f = 2) ∨ (i = .csrc d a c ∧ f = 3)) :
    ∃ new, exec i s = settle (csrAccess i d c new) s := by
  rcases hi with ⟨rfl, -⟩ | ⟨rfl, -⟩ | ⟨rfl, -⟩ | ⟨rfl, -⟩ <;> exact ⟨_, rfl⟩

theorem exec_csrw_eq (s : State) (d a : BitVec 5) (c : BitVec 12) :
    exec (.csrw d a c) s = settle (csrAccess (.csrw d a c) d c (some (fun _ => s.getX a))) s := rfl
theorem exec_csrs_eq (s : State) (d : BitVec 5) {a : BitVec 5} (c : BitVec 12) (ha : a ≠ 0#5) :
    exec (.csrs d a c) s = settle (csrAccess (.csrs d a c) d c (some (fun t => t ||| s.getX a))) s := by
  show settle _ s = _
  rw [if_neg ha]
theorem exec_csrc_eq (s : State) (d : BitVec 5) {a : BitVec 5} (c : BitVec 12) (ha : a ≠ 0#5) :
    exec (.csrc d a c) s = settle (csrAccess (.csrc d a c) d c (some (fun t => t &&& ~~~(s.getX a)))) s := by
  show settle _ s = _
  rw [if_neg ha]

/-- Settles O18: each CSR after a write, the others beside it, and the two causes of forbidden accesses. -/
theorem csrFields : Obligations.CsrFields := by
  unfold Obligations.CsrFields
  refine ⟨fun s v => ?_, fun s n ht => ⟨fun hc d a => ?_, fun hc d a i f hi => ?_⟩⟩
  · obtain ⟨h1, h2, h3, h4, h5, h6, h7, h8, h9, h10, h11, h12⟩ := readCsr_writeCsr_same s v
    exact ⟨⟨rfl, rfl⟩, h1, h2, h3, h4, h5, h6, h7, h8, h9, h10, h11, h12,
      fun n m _ h => readCsr_writeCsr_other s v fun e => h (BitVec.eq_of_toNat_eq e.symm)⟩
  · have forbidden (i : Instr) (f : Word → Word) := settle_cause ht (csrAccess_forbidden (i := i) (d := d) ht.1 hc f) (by decide)
    rw [← zext_eq_ofNat]
    refine ⟨forbidden _ _, fun ha => ⟨?_, ?_⟩⟩
    · rw [exec_csrs_eq s d n ha]
      exact forbidden _ _
    · rw [exec_csrc_eq s d n ha]
      exact forbidden _ _
  · obtain ⟨new, e⟩ := exec_csr s hi
    have word := wordOf_csr hi
    have scalar : vectorMajor (wordOf i) = false := by
      have hd := d.isLt
      have ha := a.isLt
      have hn := n.isLt
      rw [vectorMajor_eq, word]
      rcases hi with ⟨-, rfl, -⟩ | ⟨-, rfl⟩ | ⟨-, rfl⟩ | ⟨-, rfl⟩ <;> exact decide_eq_false (by omega)
    rw [e, ← word, ← zext_eq_ofNat, ← scalar]
    exact settle_illegal ht (csrAccess_unassigned hc new)

end Sys2Proof.Proofs
end

section
/-!
SUPPORT. Vector set-up (R27, R29, R235 to R237, R241, R242): lengths, register counts, modes; from these the statement O28.
-/

namespace Sys2Proof.Proofs

open Sys2Proof Sys2Proof.Machine Sys2Proof.Laws

/-! ## VSETL (R236, R237) -/

theorem setX_setVl (h : Hart) (d : BitVec 5) (v : Word) (n : Nat) :
    ({ h.setX d v with vl := n } : Hart) = ({ h with vl := n } : Hart).setX d v := by
  unfold Hart.setX
  split <;> rfl

/-- Outside rewindable jobs VSETL sets the length alone. -/
theorem exec_vsetl_plain {s : State} (d a b : BitVec 5) (h : s.frw = false) : exec (.vsetl d a b) s =
    .next (({ s with hart := { s.hart with vl := min (s.getX a).toNat s.hart.vlMax } } : State).clearReplies.result d
      (BitVec.ofNat 64 (min (s.getX a).toNat s.hart.vlMax))) := by
  rw [← clear_result]
  refine settle_ok ?_
  rw [bind_ok (run_get s)]
  simp only [h, Bool.not_false, if_true, run_modify, setX_setVl]
  rfl

/-- In a rewindable job the open furlong commits first, and VSETL opens the next one (R237). -/
theorem exec_vsetl_furlong {s t : State} (d a b : BitVec 5) (h : s.frw = true) (hc : commitFurlong s = .ok ((), t)) :
    ∃ again, exec (.vsetl d a b) s = .next (State.advance { t with hart :=
      { t.hart.setX d (BitVec.ofNat 64 (min (s.getX a).toNat s.hart.vlMax)) with
        vl := min (s.getX a).toNat s.hart.vlMax, strip := [],
        furlong := some (openFurlong (t.hart.setX d (BitVec.ofNat 64 (min (s.getX a).toNat s.hart.vlMax)))
          s.hart.pc (s.getX b) again) } }).clearReplies := by
  refine ⟨s.hart.furlong.any (·.again), settle_ok ?_⟩
  have commit : M.commit s = .ok ((), t) := by rw [M.commit, hc]
  rw [bind_ok (run_get s)]
  simp only [h, Bool.not_true, Bool.false_eq_true, if_false]
  rw [bind_ok commit]
  rfl

/-! ## VDECL (R241) -/

/-- A table of the vector registers with every entry from `n` on replaced. -/
theorem getElem?_fillFrom {α : Type} (n : Nat) (a : α) (v : Vector α 48) (i : Nat) :
    ((List.range 48).foldl (fun (v : Vector α 48) (r : Nat) =>
      if hr : r < 48 then (if n ≤ r then v.set r a else v) else v) v)[i]? =
      if i < 48 then (if n ≤ i then some a else v[i]?) else v[i]? := by
  refine foldl_range_read (N := 48) (fun (v : Vector α 48) i => v[i]?) _ (fun r x => if n ≤ r then some a else x) (fun v r i hr => ?_)
    v 48 (Nat.le_refl _) i
  simp only [hr, dif_pos]
  by_cases hn : n ≤ r
  · simp only [hn, if_true, Vector.getElem?_set]
    by_cases e : i = r
    · simp [e]
    · simp [e, Ne.symm e]
  · by_cases e : i = r
    · simp [hn, e]
    · simp [hn, e]

theorem nregsOf_eq (v : Nat) : nregsOf (bitsOf v 0 2) = [6, 12, 24, 48].getD (v % 4) 0 := by
  rw [bitsOf_eq_div_mod, Nat.pow_zero, Nat.div_one]
  have h : v % 4 < 4 := Nat.mod_lt _ (by decide)
  show nregsOf (v % 4) = _
  generalize v % 4 = c at h
  interval_cases c <;> rfl

section
variable {s : State} {d a : BitVec 5} {n : Nat} (hq : s.hart.matQ = []) (hn : n = nregsOf (bitsOf (s.getX a).toNat 0 2))
include hq hn

theorem exec_vdecl_shrink (h : n ≤ s.hart.nregs) : ∃ v psn, exec (.vdecl d a) s =
      .next (({ s with hart := { s.hart with nregs := n, v := v, vPsn := psn } } : State).result d 0#64) ∧
    ∀ r, v[r]?.getD 0 = if n ≤ r then 0#262144 else s.hart.getV r := by
  subst hn
  refine ⟨_, _, (if_neg (by simp [hq])).trans (if_pos h), fun r => ?_⟩
  rw [getElem?_fillFrom]
  by_cases hr : r < 48
  · by_cases hl : nregsOf (bitsOf (s.getX a).toNat 0 2) ≤ r <;> simp [hr, hl, Hart.getV]
  · simp [hr, Hart.getV]

theorem exec_vdecl_grow (h : s.hart.nregs < n)
    (hf : (n - s.hart.nregs) * s.hart.vlMax * 8 ≤ s.freeFile s.hart.place.die s.hart.place.core) :
    ∃ pi, exec (.vdecl d a) s = .next (({ s with hart := { s.hart with nregs := n, vPi := pi } } : State).result d 0#64) ∧
      ∀ r < 48, pi[r]? = if s.hart.nregs ≤ r then some s.hart.vlMax else s.hart.vPi[r]? := by
  subst hn
  refine ⟨_, (if_neg (by simp [hq])).trans ((if_neg (Nat.not_le.2 h)).trans (if_pos hf)), fun r hr => ?_⟩
  rw [getElem?_fillFrom, if_pos hr]

theorem exec_vdecl_refused (h : s.hart.nregs < n)
    (hf : s.freeFile s.hart.place.die s.hart.place.core < (n - s.hart.nregs) * s.hart.vlMax * 8) :
    exec (.vdecl d a) s = .next (s.result d 1#64) := by
  subst hn
  exact (if_neg (by simp [hq])).trans ((if_neg (Nat.not_le.2 h)).trans (if_neg (Nat.not_le.2 hf)))

end

@[simp] theorem getV_result (s : State) (d : BitVec 5) (v : Word) (r : Nat) : (s.result d v).hart.getV r = s.hart.getV r := by
  simp [Hart.getV, Hart.atStart]

/-! ## VMODE (R242) -/

theorem modeReserved_iff (v : BitVec 32) : modeReserved v = true ↔
    2 ^ 18 ≤ v.toNat ∨ 14 ≤ v.toNat % 16 ∨ 5 ≤ v.toNat / 16 % 8 ∨ (12 ≤ v.toNat / 128 % 16 ∧ v.toNat / 128 % 16 ≤ 14) := by
  have hv := v.isLt
  simp only [modeReserved, bitsOf_eq_div_mod, Bool.or_eq_true, bne_iff_ne, ne_eq, decide_eq_true_eq, Bool.and_eq_true, ge_iff_le,
    Nat.reducePow, Nat.div_one]
  omega

/-- A field that lies below the major opcode leaves it alone (R182). -/
theorem major_or_field {k : Nat} (w : BitVec 32) (lo : Nat) (v : BitVec k) (h : lo + k ≤ 25) :
    (w ||| field lo v).extractLsb' 25 7 = w.extractLsb' 25 7 := by
  refine BitVec.eq_of_getLsbD_eq fun i hi => ?_
  have : v.getLsbD (25 + i - lo) = false := BitVec.getLsbD_of_ge _ _ (by omega)
  simp [field, hi, this]

theorem vectorMajor_vmode (n : BitVec 2) (d a : BitVec 5) : vectorMajor (wordOf (.vmode n d a)) = true := by
  have h : (wordOf (.vmode n d a)).extractLsb' 25 7 = 0x30#7 := by
    show (0x60000002#32 ||| field 23 n ||| field 17 d ||| field 11 a).extractLsb' 25 7 = _
    rw [major_or_field _ _ _ (by decide), major_or_field _ _ _ (by decide), major_or_field _ _ _ (by decide)]
    rfl
  rw [vectorMajor, h]
  rfl

theorem getMd_congr {g h : Hart} (e : g.md = h.md) (n : BitVec 2) : g.getMd n = h.getMd n := by simp only [Hart.getMd, e]

@[simp] theorem md_result (s : State) (d : BitVec 5) (v : Word) : (s.result d v).hart.md = s.hart.md := by simp [Hart.atStart]

/-- Settles O28: lengths, register counts with their refusal, and modes with their reserved values. -/
theorem vectorSetUp : Obligations.VectorSetUp := by
  unfold Obligations.VectorSetUp
  refine ⟨fun s d a b h => ⟨_, exec_vsetl_plain d a b h, ?_⟩, fun s t d a b h hc => ?_, fun s d a n hq hn => ?_,
    fun s n d a v hv h18 he hr hg => ?_, fun s n d a v hv ht hbad => ?_⟩
  · have hvl (N : Nat) (w : Word) :
        (({ s with hart := { s.hart with vl := N } } : State).clearReplies.result d w).hart.vl = N := by simp [Hart.atStart]
    rw [hvl]
    exact ⟨rfl, wrote_result _ _ _⟩
  · obtain ⟨again, e⟩ := exec_vsetl_furlong d a b h hc
    generalize min (s.getX a).toNat s.hart.vlMax = N at e
    refine ⟨_, openFurlong (t.hart.setX d (BitVec.ofNat 64 N)) s.hart.pc (s.getX b) again, e, ?_⟩
    have gx (r : BitVec 5) := hart_getX_setX t.hart d r (BitVec.ofNat 64 N)
    refine ⟨by simp [Hart.atStart], fun hd => ?_, fun r hr => ?_, by simp, by simp [Hart.atStart], rfl,
      by simp [Hart.atStart, openFurlong], by simp [openFurlong], by simp [openFurlong], fun r hr => ?_, fun pa => ?_⟩
    · rw [State_clearReplies_hart_vl, getX_clearReplies]
      exact (gx d).trans (if_pos ⟨rfl, hd⟩)
    · exact (getX_clearReplies _ r).trans ((gx r).trans (if_neg fun e => hr e.1))
    · have hne : r.toNat ≠ 0 := fun e => hr (BitVec.eq_of_toNat_eq e)
      have hlt : r.toNat < 32 := r.isLt
      simp only [openFurlong, BitVec.getLsbD_and, BitVec.getLsbD_setWidth, BitVec.getLsbD_not, BitVec.getLsbD_one]
      simp [hne, hlt]
    · simp [State.byteAt]
  · rw [← nregsOf_eq] at hn
    rcases Nat.lt_or_ge s.hart.nregs n with hlt | hle
    · by_cases hf : (n - s.hart.nregs) * s.hart.vlMax * 8 ≤ s.freeFile s.hart.place.die s.hart.place.core
      · obtain ⟨pi, e, hpi⟩ := exec_vdecl_grow (d := d) hq hn hlt hf
        refine ⟨_, e, fun h => absurd hlt (Nat.not_lt.2 h), fun _ _ hz => ?_, fun _ h => absurd hf (Nat.not_le.2 h)⟩
        refine ⟨by simp [Hart.atStart], fun hd => ?_, fun r _ => ?_, fun r hr _ => ?_, fun r hr => ?_, fun r hr => ?_⟩
        · rw [getX_result, if_pos ⟨rfl, hd⟩]
        · exact getV_result _ _ _ r
        · exact (getV_result _ _ _ r).trans (hz r hr)
        · exact (getV_result _ _ _ r).trans (hz r (by omega))
        · rw [← hpi r hr]
          simp [Hart.atStart]
      · refine ⟨_, exec_vdecl_refused hq hn hlt (Nat.not_le.1 hf), fun h => absurd hlt (Nat.not_lt.2 h), fun _ h => absurd h hf,
          fun _ _ => wrote_result _ _ _⟩
    · obtain ⟨v, psn, e, hv⟩ := exec_vdecl_shrink (d := d) hq hn hle
      refine ⟨_, e, fun _ => ?_, fun h => absurd h (Nat.not_lt.2 hle), fun h => absurd h (Nat.not_lt.2 hle)⟩
      refine ⟨by simp [Hart.atStart], fun hd => ?_, fun r hr => ?_, fun r hr => ?_⟩
      · rw [getX_result, if_pos ⟨rfl, hd⟩]
      · exact (getV_result _ _ _ r).trans ((hv r).trans (if_neg (Nat.not_le.2 hr)))
      · exact (getV_result _ _ _ r).trans ((hv r).trans (if_pos hr))
  · subst hv
    have ok : ¬ modeReserved ((s.getX a).setWidth 32) = true := by
      rw [modeReserved_iff, BitVec.toNat_setWidth]
      omega
    refine ⟨_, if_neg ok, ?_, fun k hk => ?_, ?_⟩
    · rw [getMd_congr (md_result _ _ _) n, getMd_setMd, if_pos rfl]
      exact BitVec.eq_of_toNat_eq (by simp)
    · rw [getMd_congr (md_result _ _ _) k, getMd_setMd, if_neg hk]
    · rw [← zext_eq_ofNat, md_result]
      exact wrote_result _ _ _
  · subst hv
    have bad : modeReserved ((s.getX a).setWidth 32) = true := by
      rw [modeReserved_iff, BitVec.toNat_setWidth]
      omega
    refine ⟨_, if_pos bad, ?_, ?_⟩
    · rw [Laws.raise_entered ht (by decide : 1#8 ≠ 5#8) (by decide : 1#8 ≠ 6#8) (by decide : 1#8 ≠ 7#8)]
      rfl
    · have h := raise_entered_of_given ht (v := s.illegalVals (wordOf (.vmode n d a))) rfl rfl
        (show 1#8 ≠ 5#8 ∧ 1#8 ≠ 6#8 ∧ 1#8 ≠ 7#8 by decide)
      rw [show (s.illegalVals (wordOf (.vmode n d a))).epc = s.hart.pc from takesTraps_position ht,
        show (s.illegalVals (wordOf (.vmode n d a))).vec = true from vectorMajor_vmode n d a] at h
      rw [← zext_eq_ofNat]
      exact h

end Sys2Proof.Proofs
end

section
/-! SUPPORT. A turn by what it decodes (R181, R203, R290): obligation O20. -/

namespace Sys2Proof.Proofs

open Sys2Proof Sys2Proof.Machine

/-! ## A hart's turn -/

@[simp] theorem clock_uid (s : State) : s.clock.hart.uid = s.hart.uid := by
  simp only [State.clock, State.onHarts]
  split <;> rfl

theorem wait_none_of_isReady {h : Hart} (hr : h.isReady = true) : h.wait = .none := by
  simp only [Hart.isReady, Bool.and_eq_true, beq_iff_eq] at hr
  exact hr.2

/-- What a hart's turn answers when its word has run: an instruction that issued counts (R70). -/
def afterRun (t : State) : Host.Outcome State Fault Refusal → Host.Outcome State Fault Refusal
  | .next u => .next (u.afterTurn (t.readyBeside t.hart))
  | r => r

/-- A hart that may move has no entry to take, no watchdog to serve and no WFI to end: it runs a word. -/
theorem hartTurn_of_mayTurn {t : State} (h : t.mayTurn) :
    t.hartTurn t.hart.uid = afterRun t ({ t with hart := { t.hart with held := false, fetched := true } } : State).runHart := by
  obtain ⟨hr, hg, hw⟩ := h
  have hn := wait_none_of_isReady hr
  have hd : t.hart.trapDue = none := by rw [Hart.trapDue, hn]
  have hwd : (t.hart.watchdogDue && !t.midRemote t.hart.uid) = false := by
    rcases hw with h | h <;> simp [h]
  have he : t.wfiEnds t.hart = false := by rw [State.wfiEnds, hn]
  rw [State.hartTurn, focusOn_self]
  exact (if_neg (not_not_intro rfl)).trans ((dif_neg (by simp [hd])).trans ((if_neg (by simp [hg])).trans
    ((if_neg (by simp [hwd])).trans ((if_neg (by simp [he])).trans (if_pos hr)))))

theorem runHart_of_decoded {f u : State} {w : BitVec 32} {i : Instr} {l : List Byte}
    (hf : fetchWord f.who f.hart.pc f = .ok (w, u)) (hd : decodeBytes (bytesOfWord w) = .ok (i, l)) :
    f.runHart = u.runInstr i := by
  simp [State.runHart, hf, hd]

theorem runInstr_of_open {u v : State} {i : Instr} (ha : u.awaitsStream i = false) (hp : furlongPre i u = .ok ((), v)) :
    u.runInstr i = exec i (v.begin i) := by
  simp [State.runInstr, ha, hp]

/-! ## A bank's turn -/

theorem bankStep_of_decoded {t : State} {b : Nat} {c row span : Nat} {i : Instr} {l : List Byte}
    (hrun : (t.bank b).run = .program c row span)
    (hrow : (t.bank b).nextIsRow = true → t.bankHeld b = false ∧ (t.bank b).susp = false ∧ (t.bank b).moving = none ∧
      ((t.bank b).pending = [] ∨ (t.bank b).resumed = true))
    (hpc : (t.bank b).upc < 64) (hp : (t.bank b).microPsn.getLsbD (t.bank b).upc = false)
    (hd : decodeMicroBytes [(BitVec.ofNat 16 (getElt (t.bank b).micro 16 (t.bank b).upc)).extractLsb' 0 8,
      (BitVec.ofNat 16 (getElt (t.bank b).micro 16 (t.bank b).upc)).extractLsb' 8 8] = .ok (i, l)) :
    t.bankStep b = exec i { t with bankSel := b } := by
  have moves : ((t.bank b).nextIsRow && (t.bankHeld b || (t.bank b).susp || (t.bank b).moving.isSome ||
      ((t.bank b).pending != [] && !(t.bank b).resumed))) = false := by
    cases hn : (t.bank b).nextIsRow with
    | false => rfl
    | true =>
      obtain ⟨hh, hs, hm, hpend | hres⟩ := hrow hn
      · simp [hh, hs, hm, hpend]
      · simp [hh, hs, hm, hres]
  simp only [State.bankStep, hrun, moves, hp, hd, hpc, decide_true, Bool.and_false, if_false, Bool.false_eq_true,
    if_neg (Nat.not_le.2 hpc)]

/-! ## The step -/

theorem step_of_agenda {s : State} {a : Turn} {rest : List Turn} (h : s.agenda = a :: rest) :
    step s = ({ s with agenda := rest } : State).clock.turn a := by
  rw [step, h]

/-- Settles O20: the turn that the agenda names is unfolded under each agent's conditions. The order of turns is the
agenda's (log entry 7). -/
theorem stepRunsDecoded : Obligations.StepRunsDecoded := by
  unfold Obligations.StepRunsDecoded
  refine ⟨?_, ?_, fun s rest i ha => step_of_agenda ha⟩
  · rintro s t f u v rest w i l ha ht hm rfl hf hd haw hp
    have uid : t.hart.uid = s.hart.uid := ht ▸ clock_uid _
    rw [step_of_agenda ha, ← ht, ← uid]
    have run := (runHart_of_decoded hf hd).trans (runInstr_of_open haw hp)
    exact (hartTurn_of_mayTurn hm).trans (congrArg (afterRun t) run)
  · rintro s t rest b k h i l c row span ha rfl rfl hrun hrow hpc hp rfl hd
    rw [step_of_agenda ha]
    exact bankStep_of_decoded hrun hrow hpc hp hd

end Sys2Proof.Proofs
end

section
/-!
SUPPORT. How a hart ends without a trap entry (R69, R367), what a hart gives up when a cause is forced on it, and the error log's
frame (R349 to R351): for the statement about events that befall a hart.
-/

namespace Sys2Proof.Proofs

open Sys2Proof Sys2Proof.Machine Sys2Proof.Laws

/-! ## The end of a hart (R69, R367) -/

/-- A hart out of the league it was in, if any. -/
def outOfLeague (h : Hart) : Hart :=
  match h.league with
  | none => h
  | some id => unleagued h id

theorem outOfLeague_eq (h : Hart) : outOfLeague h = { h with b := (outOfLeague h).b, league := none } := by
  unfold outOfLeague
  split
  next hn => rw [← hn]
  next id _ => rw [unleagued, mapB_eq]

theorem leaveLeague_self (s : State) : LeagueMoves { s with hart := outOfLeague s.hart } (s.leaveLeague s.hart.uid) := by
  unfold outOfLeague
  split
  next h => rw [leaveLeague_alone h]; exact LeagueMoves.refl s
  next id h => exact leaveLeague_moves h

/-- What is left of a hart that is freed: it holds no place, wait, queue, furlong or tile any more. -/
def freedHart (h : Hart) (phase : Phase) : Hart :=
  { outOfLeague h with phase := phase, wait := .none, matQ := [], region := none, strip := [], furlong := none, nt := 0 }

theorem freeHart_self (s : State) (phase : Phase) : (s.freeHart s.hart.uid phase).hart = freedHart s.hart phase := by
  have hl := (leaveLeague_self s).hart
  rw [State.freeHart, hartOf_self]
  dsimp only
  generalize s.leaveLeague s.hart.uid = t at hl
  have uid : (t.unpin s.hart.uid).hart.uid = s.hart.uid :=
    (congrArg Hart.uid hl).trans (by dsimp only; rw [outOfLeague_eq])
  rw [(packetHartGone_moves _ _ _).hart]
  generalize hu : t.unpin s.hart.uid = u at uid
  rw [← uid, onHart_self]
  have e : u.hart = outOfLeague s.hart := hu ▸ hl
  rw [freedHart, ← e]

/-- A hart that no furlong holds up ends: it is out of its place and its league, and its failure record is kept (R367). -/
theorem endHart_ended {s : State} (hf : s.hart.furlong = none) (hs : s.hart.strip = []) (v : FaultVals) :
    (s.endHart v).hart = freedHart s.hart .ended ∧
      (⟨s.hart.queue, s.hart.asid, s.hart.csr.hartId, v.epc, v.elem, causeWord v⟩ : FailRecord) ∈ (s.endHart v).fe.fails := by
  rw [State.endHart, closing_of_none hf hs]
  have hh := freeHart_self s .ended
  dsimp only
  generalize s.freeHart s.hart.uid .ended = t at hh
  exact ⟨(failPacket_moves _ _ _ _).hart.trans hh,
    by rw [(failPacket_moves _ _ _ _).fails]; exact List.mem_append_right _ (List.mem_singleton_self _)⟩

/-! ## Giving up a wait, and entering the handler -/

theorem abandon_self (s : State) : ∃ banks fab,
    s.abandon s.hart.uid = { s with banks := banks, fab := fab, hart := { s.hart with replies := [] } } :=
  ⟨_, _, onHart_self ({ s with banks := _, fab := _ } : State) _⟩

/-- Entry into a handler is the same seen from a state that has the same registers, TVEC and memory. -/
theorem entered_of_same {s t u : State} {c : BitVec 8} {vec : Bool} {epc va stride remain : Word}
    (h : Entered t c vec epc va stride remain u) (tvec : t.hart.csr.tvec = s.hart.csr.tvec)
    (kept : t.hart.x = s.hart.x ∧ t.hart.v = s.hart.v ∧ t.hart.m = s.hart.m ∧ t.hart.tiles = s.hart.tiles ∧ t.hart.k = s.hart.k)
    (mm : t.mm = s.mm) : Entered s c vec epc va stride remain u := by
  obtain ⟨x, v, m, tiles, k⟩ := kept
  obtain ⟨hm, cause, epc, elem, fault, pc, ⟨kx, kv, km, kt, kk⟩, mem⟩ := h
  exact ⟨hm, cause, epc, elem, fault, pc.trans tvec, ⟨kx.trans x, kv.trans v, km.trans m, kt.trans tiles, kk.trans k⟩,
    fun pa => (mem pa).trans (by rw [State.byteAt, mm]; rfl)⟩

/-- A hart that takes causes gives up what it waits for and enters its handler. -/
theorem abandon_trapEntry_entered {s : State} (ht : s.takesTraps) {v : FaultVals} (hg : v.given = true) (he : v.elem = 0) :
    Entered s v.cause v.vec v.epc v.va v.stride v.remain ((s.abandon s.hart.uid).trapEntry v) ∧
      ((s.abandon s.hart.uid).trapEntry v).hart.wait = .none := by
  obtain ⟨banks, fab, e⟩ := abandon_self s
  have ht' : (s.abandon s.hart.uid).takesTraps := e ▸ ht
  exact ⟨entered_of_same (trapEntry_entered ht' hg he) (by rw [e]) (by rw [e]; exact ⟨rfl, rfl, rfl, rfl, rfl⟩) (by rw [e]),
    by rw [trapEntry_eq ht']⟩

/-! ## The error log (R349 to R351, R357) -/

/-- `t` is `s` but for errors logged, counted and told to the owner, and no error is counted against a part anew. -/
def LogMoves (s t : State) : Prop :=
  t = { s with err := t.err, fe := { s.fe with errCount := t.fe.errCount, outbox := t.fe.outbox, errMsgOut := t.fe.errMsgOut } } ∧
    t.err.counts ⊆ s.err.counts

section
variable {s t u : State}

theorem LogMoves.refl (s : State) : LogMoves s s := ⟨rfl, List.Subset.refl _⟩

theorem LogMoves.trans (h : LogMoves s t) (k : LogMoves t u) : LogMoves s u :=
  ⟨Eq.trans k.1 (by rw [h.1]), List.Subset.trans k.2 h.2⟩

theorem LogMoves.hart (h : LogMoves s t) : t.hart = s.hart := by rw [h.1]
theorem LogMoves.harts (h : LogMoves s t) : t.harts = s.harts := by rw [h.1]; rfl
theorem LogMoves.mm (h : LogMoves s t) : t.mm = s.mm := by rw [h.1]
theorem LogMoves.jobs (h : LogMoves s t) : t.fe.jobs = s.fe.jobs := by rw [h.1]

theorem LogMoves.coreCounts (h : LogMoves s t) {id : BitVec 32} (hc : s.coreCounts id) : t.coreCounts id :=
  fun e he => hc e (h.2 he)

theorem setErr_logMoves {err : Errors} (h : err.counts ⊆ s.err.counts) : LogMoves s { s with err := err } := ⟨rfl, h⟩

end

theorem countErr_moves (s : State) (die : Nat) : LogMoves s (s.countErr die) := by
  unfold State.countErr
  split
  · exact ⟨rfl, List.Subset.refl _⟩
  · exact LogMoves.refl s

theorem errorMessage_moves (s : State) (die : Nat) : LogMoves s (s.errorMessage die) := by
  unfold State.errorMessage
  split
  · exact countErr_moves s die
  · split
    · exact LogMoves.refl s
    · split
      · exact countErr_moves s die
      · exact ⟨rfl, List.Subset.refl _⟩

theorem putErrBank_moves (s : State) (b : ErrBank) : LogMoves s (s.putErrBank b) := setErr_logMoves (List.Subset.refl _)

theorem logEntry_moves (s : State) (die : Nat) (e : LogEntry) : LogMoves s (s.logEntry die e) := by
  unfold State.logEntry
  split
  · exact setErr_logMoves (List.Subset.refl _)
  · exact LogMoves.refl s

theorem drainRecord_moves (s : State) (id : BitVec 32) (act : Nat) : LogMoves s (s.drainRecord id act) := by
  unfold State.drainRecord
  dsimp only
  split
  · exact LogMoves.refl s
  · exact (logEntry_moves _ _ _).trans (putErrBank_moves _ _)

theorem drainBank_moves (s : State) (id : BitVec 32) (act : Nat) : LogMoves s (s.drainBank id act) := by
  unfold State.drainBank
  dsimp only
  split
  · exact (drainRecord_moves _ _ _).trans (errorMessage_moves _ _)
  · exact drainRecord_moves _ _ _

theorem askRepair_moves (s : State) (p : Part) (spare : Option Nat) : LogMoves s (s.askRepair p spare) :=
  setErr_logMoves (List.Subset.refl _)

theorem retireCore_moves (s : State) (die c : Nat) : LogMoves s (s.retireCore die c).1 := by
  unfold State.retireCore
  split
  · exact LogMoves.refl s
  · dsimp only
    split <;> exact askRepair_moves _ _ _

/-- The counts of a bank whose parts are cores alone retire cores alone, which asks for repairs (R357, R359). -/
theorem checkLimits_moves {s : State} {id k : BitVec 32} (hc : s.coreCounts id) (hk : k = id ∨ drainer k = drainer id) :
    LogMoves s (s.checkLimits k).1 := by
  unfold State.checkLimits
  dsimp only
  generalize hd : s.err.counts.filter (fun e => e.1 == k && _) = due
  have cores : ∀ e ∈ due, ∃ d c, e.2.1 = Part.core d c := fun e he => by
    subst hd
    obtain ⟨hm, hp⟩ := List.mem_filter.1 he
    have : e.1 = k := by simpa using (Bool.and_eq_true_iff.1 hp).1
    exact hc e hm (this ▸ hk)
  have start : LogMoves s { s with err := { s.err with counts := s.err.counts.filter (fun e => !due.contains e) } } :=
    setErr_logMoves List.filter_sublist.subset
  refine List.foldlRecOn (motive := fun a : State × Nat => LogMoves s a.1) due _ start (fun a ha e he => ?_)
  obtain ⟨d, c, hp⟩ := cores e he
  rw [hp]
  exact ha.trans (retireCore_moves _ _ _)

theorem takeRecord_moves {s : State} {id k : BitVec 32} (hc : s.coreCounts id) (hk : k = id ∨ drainer k = drainer id)
    (act : Option Nat) : LogMoves s (s.takeRecord k act) := (checkLimits_moves hc hk).trans (drainBank_moves _ _ _)

theorem mem_insertBank {b c : ErrBank} : ∀ {l : List ErrBank}, c ∈ insertBank b l → c = b ∨ c ∈ l
  | [], h => .inl (List.mem_singleton.1 h)
  | d :: l, h => by
    rw [insertBank] at h
    split at h
    · exact List.mem_cons.1 h
    · rcases List.mem_cons.1 h with rfl | h
      · exact .inr List.mem_cons_self
      · exact (mem_insertBank h).imp_right (List.mem_cons_of_mem _)

/-- What a list built by insertions holds was inserted or there at the start. -/
theorem mem_of_mem_foldl_insert {α : Type} {ins : α → List α → List α} (hi : ∀ {a b l}, a ∈ ins b l → a = b ∨ a ∈ l) {a : α} :
    ∀ {l acc : List α}, a ∈ l.foldl (fun l b => ins b l) acc → a ∈ l ∨ a ∈ acc
  | [], _, h => .inr h
  | c :: l, acc, h => by
    rcases mem_of_mem_foldl_insert hi (l := l) h with h | h
    · exact .inl (List.mem_cons_of_mem _ h)
    · exact (hi h).imp_left (by rintro rfl; exact List.mem_cons_self)

theorem drainer_of_mem_drainOrder {s : State} {p : Option Processor} {b : ErrBank} (h : b ∈ s.drainOrder p) : drainer b.id = p := by
  obtain h | h := mem_of_mem_foldl_insert mem_insertBank h
  · simpa using (Bool.and_eq_true_iff.1 (List.mem_filter.1 h).2).2
  · exact absurd h (by simp)

theorem flushBank_moves {s : State} {id : BitVec 32} (hc : s.coreCounts id) : LogMoves s (s.flushBank id) := by
  unfold State.flushBank
  split
  · exact LogMoves.refl s
  dsimp only
  generalize hb : List.takeWhile _ _ = before
  have hk : ∀ k ∈ before ++ [id], k = id ∨ drainer k = drainer id := fun k hk => by
    rcases List.mem_append.1 hk with hk | hk
    · obtain ⟨b, hbm, rfl⟩ := List.mem_map.1 ((List.takeWhile_sublist _).subset (hb ▸ hk))
      exact .inr (drainer_of_mem_drainOrder hbm)
    · exact .inl (List.mem_singleton.1 hk)
  exact List.foldlRecOn (motive := LogMoves s) _ _ (LogMoves.refl s) fun t h k hm =>
    h.trans (takeRecord_moves (h.coreCounts hc) (hk k hm) none)

theorem logEvent_moves {s : State} {id : BitVec 32} (hc : s.coreCounts id) (asid act : Nat) (kind : BitVec 8) (addr misc : Word) :
    LogMoves s (s.logEvent asid act id kind addr misc) := by
  have h := (flushBank_moves hc).trans (putErrBank_moves (s.flushBank id) (((s.flushBank id).errBank id).event true false kind asid addr misc))
  exact h.trans (takeRecord_moves (h.coreCounts hc) (.inl rfl) _)

/-- What a consumption of poison on a hart logs, where the hart's core bank counts errors of cores alone. -/
theorem logPoison_moves {s : State} {h : Hart} (hc : s.coreCounts (s.coreBank h.place)) (act : Nat) :
    LogMoves s (s.logPoison h act) := by
  unfold State.logPoison
  dsimp only
  split
  · exact takeRecord_moves hc (.inl rfl) _
  · split
    · exact LogMoves.refl s
    · exact logEvent_moves hc _ _ _ _ _

end Sys2Proof.Proofs
end

section
/-!
SUPPORT. Events that befall a hart from outside (R31, R73, R227, R240, R355, R365, R373, R377): obligation O49.
-/

namespace Sys2Proof.Proofs

open Sys2Proof Sys2Proof.Machine Sys2Proof.Laws

/-! ## The end of a job (R138, R355) -/

/-- No hart of an address space runs or waits to run. -/
def Stopped (asid : Nat) (s : State) : Prop :=
  ∀ g ∈ s.harts, g.asid = asid → g.phase = .ended ∨ g.phase = .absent ∨ g.phase = .retired

theorem harts_onHarts (s : State) (f : Hart → Hart) : (s.onHarts f).harts = s.harts.map f := rfl

theorem stopped_of_map {asid : Nat} {s t : State} {f : Hart → Hart} (ht : t.harts = s.harts.map f)
    (hf : ∀ h : Hart, (f h).asid = asid → (f h).phase = .ended ∨ (f h).phase = .absent ∨ (f h).phase = .retired) : Stopped asid t := by
  intro g hg
  rw [ht] at hg
  obtain ⟨h, -, rfl⟩ := List.mem_map.1 hg
  exact hf h

/-- Scrubbing ranges of bytes leaves the front ends and the harts. -/
theorem scrubAll_frame (enc : Bool) (l : List (Nat × Nat)) (s : State) :
    (l.foldl (fun (t : State) (p : Nat × Nat) => if enc then t.freeRange p.1 p.2 else t.scrubRange p.1 p.2) s).fe = s.fe ∧
    (l.foldl (fun (t : State) (p : Nat × Nat) => if enc then t.freeRange p.1 p.2 else t.scrubRange p.1 p.2) s).harts = s.harts :=
  foldl_keeps (fun t : State => t.fe = s.fe ∧ t.harts = s.harts) _ (fun t p h => by split <;> exact h) _ _ ⟨rfl, rfl⟩

/-- A scrub leaves the front ends, and clears the registers of the job's harts alone. -/
theorem jobScrub_frame (s : State) (j : Job) : (s.jobScrub j).fe = s.fe ∧
    (s.jobScrub j).harts = s.harts.map (fun h => if h.asid = j.asid then h.scrubbed else h) :=
  ⟨(scrubAll_frame j.enc _ _).1,
    congrArg (List.map fun h : Hart => if h.asid = j.asid then h.scrubbed else h) (scrubAll_frame j.enc _ _).2⟩

/-- A hart as the end of its address space's job leaves it, before the scrub. -/
def stoppedHart (asid : Nat) (h : Hart) : Hart :=
  if h.asid = asid ∧ h.phase ≠ .absent ∧ h.phase ≠ .retired then
    { h with phase := .ended, wait := .none, matQ := [], region := none, strip := [], furlong := none, replies := [] }
  else h

theorem stoppedHart_phase {asid : Nat} {h : Hart} (ha : (stoppedHart asid h).asid = asid) :
    (stoppedHart asid h).phase = .ended ∨ (stoppedHart asid h).phase = .absent ∨ (stoppedHart asid h).phase = .retired := by
  by_cases hp : h.asid = asid ∧ h.phase ≠ .absent ∧ h.phase ≠ .retired
  · rw [stoppedHart, if_pos hp]
    exact .inl rfl
  · rw [stoppedHart, if_neg hp] at ha ⊢
    rw [not_and_or, not_and_or, not_ne_iff, not_ne_iff] at hp
    rcases hp with hn | hn | hn
    · exact absurd ha hn
    · exact .inr (.inl hn)
    · exact .inr (.inr hn)

/-- The record that the end of a job keeps of one of its harts. -/
def endRecord (s : State) (asid : Nat) (hit : Option (Nat × Nat)) (h : Hart) : FailRecord :=
  ⟨h.queue, asid, h.csr.hartId, h.position, s.positionElem h, if hit.any (fun r => r.2 == h.uid) then 0xF#64 else 0#64⟩

/-- The harts of an address space stop and its engine operations are discarded. -/
def stopWork (s : State) (asid : Nat) : State :=
  { s.onHarts (stoppedHart asid) with
    cmds := s.cmds.filter (fun c => c.asid != asid), copies := s.copies.filter (fun c => c.asid != asid),
    walks := s.walks.filter (fun w => w.asid != asid) }

/-- The queues of an address space fail. -/
def failQueues (s : State) (asid code : Nat) : State :=
  (s.queuesOf asid).foldl (fun t q => t.putQcb q (qSet (qSet (t.qcb q) 8 39 32 code) 8 9 9 1)) s

/-- The queues of an address space are unmapped and its job is gone from the front ends. -/
def dropJob (s : State) (asid : Nat) : State :=
  let slots := s.queuesOf asid
  let t := slots.foldl (fun t q => t.unmapQueue q) s
  { t with fe := { t.fe with jobs := t.fe.jobs.filter (fun k => k.asid != asid), fails := t.fe.fails.filter (fun f => f.asid != asid),
                             held := t.fe.held.filter (fun e => !slots.contains e.1), mapWait := t.fe.mapWait.filter (fun q => !slots.contains q),
                             roots := t.fe.roots.filter (fun r => r.1 != asid) } }

/-- A job-end record is kept. -/
def recordEnd (s : State) (r : JobEnd) : State := { s with fe := { s.fe with jobEnds := r :: s.fe.jobEnds } }

theorem endJob_eq {s : State} {asid : Nat} {j : Job} (hj : s.jobOf asid = some j) (code seq uid : Nat) :
    ∃ t : State, s.endJob asid code (some (seq, uid)) = (dropJob ((recordEnd (failQueues (stopWork t asid) asid code)
      ⟨asid, seq, (s.harts.filter (fun h => h.asid == asid && h.isResident)).map (endRecord s asid (some (seq, uid)))⟩).jobScrub j)
      asid).serveMapWait := by
  rw [State.endJob, hj]
  dsimp -zeta only
  extract_lets mine recs s1 s2 s3 s4 s5 fe5 s6 s7 slots s8 fe8 s9
  have e4 : s4 = stopWork s2 asid := rfl
  have e5 : s5 = failQueues s4 asid code := rfl
  have e6 : s6 = recordEnd s5 ⟨asid, seq, recs⟩ := rfl
  have e7 : s7 = s6.jobScrub j := rfl
  clear_value s7
  have e9 : s9 = dropJob s7 asid := rfl
  exact ⟨s2, by rw [e9, e7, e6, e5, e4]; rfl⟩

theorem failQueues_moves (s : State) (asid code : Nat) : QueueMoves s (failQueues s asid code) :=
  foldl_keeps (QueueMoves s) _ (fun _ _ h => h.trans (putQcb_moves _ _ _)) _ _ (QueueMoves.refl s)

theorem dropJob_frame (s : State) (asid : Nat) : (dropJob s asid).harts = s.harts ∧ (dropJob s asid).fe.jobEnds = s.fe.jobEnds ∧
    (dropJob s asid).jobOf asid = none := by
  have h : QueueMoves s ((s.queuesOf asid).foldl (fun t q => t.unmapQueue q) s) :=
    foldl_keeps (QueueMoves s) _ (fun _ _ h => h.trans (unmapQueue_moves _ _)) _ _ (QueueMoves.refl s)
  refine ⟨h.harts, h.jobEnds, List.find?_eq_none.2 fun k hk => ?_⟩
  simpa using (List.mem_filter.1 hk).2

theorem stopped_of_harts {asid : Nat} {s t : State} (hs : Stopped asid s) (h : t.harts = s.harts) : Stopped asid t := by
  rwa [Stopped, h]

theorem jobScrub_stopped {asid : Nat} {s : State} (hs : Stopped asid s) (j : Job) : Stopped asid (s.jobScrub j) := by
  intro g hg ha
  rw [(jobScrub_frame s j).2] at hg
  obtain ⟨h, hm, rfl⟩ := List.mem_map.1 hg
  have := hs h hm
  by_cases hj : h.asid = j.asid
  · rw [if_pos hj] at ha ⊢
    exact this ha
  · rw [if_neg hj] at ha ⊢
    exact this ha

/-- A job that ends: its address space has no job, none of its harts runs, and its job-end record names every hart that was
resident (R355). -/
theorem endJob_ended {s : State} {asid : Nat} {j : Job} (hj : s.jobOf asid = some j) (code seq uid : Nat) :
    (s.endJob asid code (some (seq, uid))).jobOf asid = none ∧ Stopped asid (s.endJob asid code (some (seq, uid))) ∧
    (⟨asid, seq, (s.harts.filter (fun h => h.asid == asid && h.isResident)).map (endRecord s asid (some (seq, uid)))⟩ : JobEnd) ∈
      (s.endJob asid code (some (seq, uid))).fe.jobEnds := by
  obtain ⟨t, e⟩ := endJob_eq hj code seq uid
  rw [e]
  generalize (List.map (endRecord s asid (some (seq, uid))) _) = recs
  have stop : Stopped asid (recordEnd (failQueues (stopWork t asid) asid code) ⟨asid, seq, recs⟩) :=
    stopped_of_harts (stopped_of_map (s := t) (f := stoppedHart asid) rfl fun _ => stoppedHart_phase) (failQueues_moves _ _ _).harts
  have kept : (⟨asid, seq, recs⟩ : JobEnd) ∈ (recordEnd (failQueues (stopWork t asid) asid code) ⟨asid, seq, recs⟩).fe.jobEnds :=
    List.mem_cons_self
  generalize recordEnd _ _ = u at stop kept
  have scrub := jobScrub_stopped stop j
  rw [← (jobScrub_frame u j).1] at kept
  generalize u.jobScrub j = v at scrub kept
  obtain ⟨harts, ends, job⟩ := dropJob_frame v asid
  have moves := serveMapWait_moves (dropJob v asid)
  exact ⟨by rw [State.jobOf, moves.jobs]; exact job, stopped_of_harts (stopped_of_harts scrub harts) moves.harts,
    by rw [moves.jobEnds, ends]; exact kept⟩

end Sys2Proof.Proofs
end

section
/-! SUPPORT. Furlongs that end from outside, the pager's answers, and the statement O49 (R227, R240, R365, R373, R377). -/

namespace Sys2Proof.Proofs

open Sys2Proof Sys2Proof.Machine Sys2Proof.Laws

/-! ## Furlongs (R238, R240) -/

theorem commitFurlong_clears {s t : State} (h : commitFurlong s = .ok ((), t)) : t.hart.furlong = none ∧ t.hart.strip = [] := by
  rw [commitFurlong, bind_ok (run_get s)] at h
  split at h
  next hs =>
    cases h
    exact ⟨rfl, hs⟩
  next =>
    cases hl : locateStrip s.who s.hart.strip s with
    | error e =>
      rw [bind_error hl] at h
      exact nomatch h
    | ok r =>
      rw [bind_ok hl, bind_ok (run_get r.2)] at h
      cases hp : performStrip s.who r.1 r.2 with
      | error e => cases e <;> simp only [hp] at h <;> exact nomatch h
      | ok q =>
        simp only [hp] at h
        cases h
        exact ⟨rfl, rfl⟩

theorem closing_of_ok {s t : State} (h : commitFurlong s = .ok ((), t)) : s.closing = .ok t := by rw [State.closing, h]

/-- A furlong's snapshot of the registers named by its mask is restored (R240). -/
def restoreX (f : Furlong) (h : Hart) : Hart :=
  (List.range 32).foldl (fun (g : Hart) (i : Nat) =>
    if 1 ≤ i && f.snapMask.getLsbD i then g.setX (BitVec.ofNat 5 i) (f.snapX[i]?.getD 0) else g) h

theorem setX_frame (h : Hart) (r : BitVec 5) (v : Word) : h.setX r v = { h with x := (h.setX r v).x } := by
  unfold Hart.setX
  split <;> rfl

theorem restoreX_frame (f : Furlong) (h : Hart) : restoreX f h = { h with x := (restoreX f h).x } := by
  refine foldl_keeps (fun g : Hart => g = { h with x := g.x }) _ (fun g i hg => ?_) _ _ rfl
  split
  · exact (setX_frame _ _ _).trans (by rw [hg])
  · exact hg

theorem rewind_of_furlong {s : State} {f : Furlong} (h : s.hart.furlong = some f) :
    s.rewind = { s with hart := { (restoreX f s.hart).atStart with
      md := f.snapMd, ix := f.snapIx, strip := [], pc := f.start, furlong := some { f with again := true } } } := by
  rw [State.rewind, h]
  rfl

theorem getX_restoreX (f : Furlong) (h : Hart) {r : BitVec 5} (hr : r ≠ 0#5) :
    (restoreX f h).getX r = if f.snapMask.getLsbD r.toNat then (f.snapX[r.toNat]?).getD 0#64 else h.getX r := by
  have hlt : r.toNat < 32 := r.isLt
  have hpos : 1 ≤ r.toNat := Nat.one_le_iff_ne_zero.2 fun e => hr (BitVec.eq_of_toNat_eq e)
  have pass := foldl_range_read (N := 32) (fun (g : Hart) i => if i < 32 then g.getX (BitVec.ofNat 5 i) else 0#64)
    (fun (g : Hart) (i : Nat) => if 1 ≤ i && f.snapMask.getLsbD i then g.setX (BitVec.ofNat 5 i) (f.snapX[i]?.getD 0) else g)
    (fun i x => if 1 ≤ i && f.snapMask.getLsbD i then f.snapX[i]?.getD 0 else x) (fun g k i hk => by
      by_cases hc : (decide (1 ≤ k) && f.snapMask.getLsbD k) = true
      · have hk0 : BitVec.ofNat 5 k ≠ 0#5 := by
          have h1 : 1 ≤ k := by simpa using (Bool.and_eq_true_iff.1 hc).1
          simp only [ne_eq, ← BitVec.toNat_inj, BitVec.toNat_ofNat]
          omega
        simp only [if_pos hc, hart_getX_setX, hk0, ne_eq, not_false_eq_true, and_true, ← BitVec.toNat_inj, BitVec.toNat_ofNat]
        by_cases hi : i < 32
        · by_cases e : i = k
          · subst e
            simp [hi]
          · simp [hi, e, Nat.mod_eq_of_lt hi, Nat.mod_eq_of_lt hk]
        · simp [hi, show i ≠ k by omega]
      · simp only [if_neg hc]
        by_cases e : i = k
        · rw [e, if_pos rfl]
        · rw [if_neg e]) h 32 (Nat.le_refl _) r.toNat
  simpa [restoreX, hlt, hpos] using pass

/-! ## The pager (R373) -/

theorem pageIn_moves (s : State) (entries : List (Nat × Word)) : MemMoves s (s.pageIn entries) := by
  refine foldl_keeps (MemMoves s) _ (fun t e h => ?_) _ _ (MemMoves.refl s)
  dsimp only
  generalize hu : (if t.isLocal e.1 then _ else t) = u
  have hm : MemMoves s u := by
    subst hu
    split
    · exact h.trans (writeSeen_moves _ _ _ _ _)
    · exact h
  split
  · exact hm
  · exact h

end Sys2Proof.Proofs
end

section
/-! SUPPORT. Settling O49. -/

namespace Sys2Proof.Proofs

open Sys2Proof Sys2Proof.Machine Sys2Proof.Laws

/-! ## The watchdog (R377) -/

theorem positionElem_of_start {s : State} (h : s.hart.startElem = 0) : s.positionElem s.hart = 0 := if_pos (.inl h)

theorem causeWord_watchdog (s : State) : causeWord s.watchdogVals = 0x10#64 := by
  show 0#64 ||| zext 0x10#8 = 0x10#64
  decide

/-- The state in which the watchdog of the hart in focus has expired. -/
def expired (s : State) : State := { s with hart := { s.hart with expired := true } }

section
variable {s : State} (hd : s.hart.watchdogDue = true) (hr : s.midRemote s.hart.uid = false)
include hd hr

theorem exec_watchdog_in_handler (hm : s.hart.csr.hm = true) : exec (.kernelWatchdogExpiry s.hart.uid) s = .next (expired s) := by
  show execKernelWatchdogExpiry s.hart.uid s = _
  rw [execKernelWatchdogExpiry, withHart_self, if_neg (by simp [hd, hr])]
  exact congrArg _ (if_pos hm)

theorem exec_watchdog (ht : s.takesTraps) : exec (.kernelWatchdogExpiry s.hart.uid) s =
    .next (((expired s).abandon s.hart.uid).trapEntry s.watchdogVals) := by
  obtain ⟨hm, -, hf, hs, -, -⟩ := ht
  show execKernelWatchdogExpiry s.hart.uid s = _
  rw [execKernelWatchdogExpiry, withHart_self, if_neg (by simp [hd, hr])]
  simp only [hm, Bool.false_eq_true, if_false, closing_of_none hf hs]
  rfl

end

/-- While the grace of an expired watchdog runs, causes are still taken. -/
theorem takesTraps_expired {s : State} (ht : s.takesTraps) (hw : s.hart.csr.runCount.toNat < s.hart.csr.wdLimit.toNat + 65536) :
    (expired s).takesTraps := by
  obtain ⟨hm, tv, fu, st, re, -⟩ := ht
  exact ⟨hm, tv, fu, st, re, by simp [Hart.graceDue, expired, Nat.not_le.2 hw]⟩

/-! ## The pager (R373, R374) -/

theorem exec_pager {s t : State} {v : FaultVals} {entries : List (Nat × Word)} {ok : Bool}
    (hfe : s.frontEndAt (s.dieOf s.hart.uid) = true) (hw : s.hart.wait = .pager v) (hdue : s.hart.watchdogDue = false)
    (ht : t = if ok then s.pageIn entries else s) : exec (.pageFaultService s.hart.uid entries ok) s = .next (
      if !ok || !t.pageable s.hart.asid v.va then t.trapEntry v
      else if (t.pageSet s.hart.asid v).all (fun p => t.resident s.hart.place.die s.hart.asid (p * 65536)) then
        { t with hart := { t.hart with wait := .none, kept := t.pageSet s.hart.asid v } }
      else t) := by
  have hh : t.hart = s.hart := by
    rw [ht]
    split
    · exact (pageIn_moves s entries).hart
    · rfl
  show execPageFaultService s.hart.uid entries ok s = _
  rw [execPageFaultService, if_neg (by simp [hfe])]
  dsimp only
  rw [← ht, ← hh, hartOf_self, withHart_self, if_pos (by rfl), State.pagerAnswers, hh, hw]
  dsimp only
  rw [hdue, if_neg (by simp)]

/-! ## Settling O49 -/

/-- Settles O49: each event by the operation it names, through what that operation leaves alone. -/
theorem hartEvents : Obligations.HartEvents := by
  unfold Obligations.HartEvents
  refine ⟨fun s die core bank => ⟨?_, rfl⟩,
    fun s => ⟨⟨_, congrArg Host.Outcome.next (onHart_self s _), ?_, rfl⟩, _, congrArg Host.Outcome.next (onHart_self s _), rfl⟩,
    fun s k p hw hres hdbg hdue => ⟨_, ?_, passed_advance _⟩,
    fun s hres hdbg htw hexp hne hle hrem => ?_, fun s hres hdbg hexp hne hle hf hs hreg => ?_,
    fun s v hres hrem hdue ht hg he => ?_, fun s t v entries hfe hw hdue ht => ?_, fun s t hc => ?_,
    fun s f hf hres hown hrw hag hcc => ?_, fun s j hj hres hcc => ?_⟩
  · by_cases h : s.mm.drowsy.contains (die, core, bank) = true
    · refine ⟨s, congrArg Host.Outcome.next (if_pos h), rfl, fun x => ⟨.inr, ?_⟩⟩
      rintro (rfl | hx)
      · exact List.contains_iff_mem.1 h
      · exact hx
    · exact ⟨_, congrArg Host.Outcome.next (if_neg h), rfl, fun x => List.mem_cons⟩
  · simp [Hart.isReady]
  · show execWfiTimeout s.hart.uid s = _
    rw [execWfiTimeout, withHart_self, hw]
    exact congrArg _ (if_pos (by simp [hres, hdbg, hdue]))
  · have due : s.hart.watchdogDue = true := by simp [Hart.watchdogDue, hres, hdbg, htw, hexp, hne, hle]
    refine ⟨fun ht hlt hse => ⟨_, exec_watchdog due hrem ht, ?_⟩, fun hm => ⟨_, exec_watchdog_in_handler due hrem hm, rfl⟩⟩
    obtain ⟨entered, wait⟩ := abandon_trapEntry_entered (takesTraps_expired ht hlt) (v := s.watchdogVals) rfl (positionElem_of_start hse)
    refine ⟨wait, ?_⟩
    rw [show s.watchdogVals.epc = s.hart.pc from takesTraps_position ht] at entered
    exact entered_of_same entered rfl ⟨rfl, rfl, rfl, rfl, rfl⟩ rfl
  · have grace : s.hart.graceDue = true := by simp [Hart.graceDue, hres, hdbg, hexp, hne, hle]
    obtain ⟨hh, rec'⟩ := endHart_ended hf hs s.watchdogVals
    refine ⟨s.endHart s.watchdogVals, ?_, by rw [hh]; rfl, by rw [hh, freedHart, outOfLeague_eq], by rw [hh, freedHart, outOfLeague_eq],
      _, rec', rfl, rfl, position_of_none hreg, causeWord_watchdog s⟩
    show execWatchdogGraceExpiry s.hart.uid s = _
    rw [execWatchdogGraceExpiry, withHart_self, if_pos grace]
  · refine ⟨_, ?_, (abandon_trapEntry_entered ht hg he).1⟩
    show execTrapEntry s.hart.uid v s = _
    rw [execTrapEntry, withHart_self, if_pos (by simp [hres, hrem, hdue])]
  · have hm : MemMoves s t := ht ▸ pageIn_moves s entries
    have ok := exec_pager (ok := true) hfe hw hdue ht
    refine ⟨fun hp hr => ⟨_, ok.trans (congrArg _ ((if_neg (by simp [hp])).trans (if_pos ?_))), hm.others, by rw [hm.hart]⟩,
      fun hp hr => ⟨ok.trans (congrArg _ ((if_neg (by simp [hp])).trans (if_neg ?_))), hm.hart⟩,
      fun ht hg he => ⟨_, exec_pager (ok := false) hfe hw hdue rfl, trapEntry_entered ht hg he⟩⟩
    · simpa using hr
    · simpa using hr
  · obtain ⟨hf, hs⟩ := commitFurlong_clears hc
    refine ⟨?_, hf, hs⟩
    show execFurlongCommit s.hart.uid s = _
    rw [execFurlongCommit, withHart_self, closing_of_ok hc]
  · have moves := logPoison_moves (h := s.hart) hcc 2
    have e : exec (.furlongRewind s.hart.uid) s = .next (s.logPoison s.hart 2).rewind := by
      show execFurlongRewind s.hart.uid s = _
      rw [execFurlongRewind, withHart_self, hf]
      exact congrArg _ (if_pos (by simp [hres, hown, hrw, hag]))
    refine ⟨_, e, ?_⟩
    generalize s.logPoison s.hart 2 = t at moves
    rw [rewind_of_furlong (moves.hart ▸ hf), moves.hart, restoreX_frame]
    refine ⟨rfl, rfl, rfl, rfl, rfl, rfl, rfl, rfl, fun r hr => getX_restoreX f s.hart hr, fun pa => ?_⟩
    rw [State.byteAt, State.byteAt, ← moves.mm]
  · have moves := logPoison_moves (h := s.hart) hcc 3
    have e : exec (.jobEndByError s.hart.asid s.hart.uid) s = .next (s.poisonEndsJob s.hart) := by
      show execJobEndByError s.hart.asid s.hart.uid s = _
      have found : s.harts.find? (fun h => h.uid == s.hart.uid && h.asid == s.hart.asid && h.isResident) = some s.hart :=
        List.find?_cons_of_pos (by simp [hres])
      rw [execJobEndByError, found]
    refine ⟨_, e, ?_⟩
    rw [State.poisonEndsJob]
    generalize s.logPoison s.hart 3 = t at moves
    have hj' : t.jobOf s.hart.asid = some j := by rw [State.jobOf, moves.jobs]; exact hj
    obtain ⟨gone, stopped, kept⟩ := endJob_ended hj' 6 ((t.err.nextSeq[s.hart.place.die]?.getD 0) - 1) s.hart.uid
    have mine : s.hart ∈ t.harts.filter (fun h => h.asid == s.hart.asid && h.isResident) := by
      rw [moves.harts]
      exact List.mem_filter.2 ⟨List.mem_cons_self, by simp [hres]⟩
    exact ⟨gone, stopped, _, kept, rfl, _, List.mem_map_of_mem mine, rfl, by simp [endRecord]⟩

end Sys2Proof.Proofs
end

section
/-!
SUPPORT. Placement on cores (R64, R65, R67, R68): what an acquire and a seat leave alone, the fields of a new hart, and the
ranges of a launch.
-/

namespace Sys2Proof.Proofs

open Sys2Proof Sys2Proof.Machine Sys2Proof.Laws

/-! ## Acquire actions (R144, R145) -/

/-- `t` is `s` but for memory, the fabric and what the replies that have come bring. -/
def SpoilMoves (s t : State) : Prop :=
  ∃ f : Hart → Hart, (∀ h, (f h).plain = h.plain) ∧
    t = { s.onHarts f with mm := t.mm, fab := t.fab, engineReplies := t.engineReplies }

section
variable {s t u : State}

theorem MemMoves.toSpoil (h : MemMoves s t) : SpoilMoves s t :=
  ⟨id, fun _ => rfl, Eq.trans h (by rw [State.onHarts, List.map_id, h]; rfl)⟩

theorem SpoilMoves.trans (h : SpoilMoves s t) (k : SpoilMoves t u) : SpoilMoves s u := by
  obtain ⟨f, hf, h⟩ := h
  obtain ⟨g, hg, k⟩ := k
  refine ⟨g ∘ f, fun x => (hg _).trans (hf x), k.trans ?_⟩
  rw [h]
  simp [State.onHarts]

theorem SpoilMoves.hart (h : SpoilMoves s t) : t.hart.plain = s.hart.plain := by
  obtain ⟨f, hf, h⟩ := h
  rw [h]
  exact hf _

theorem SpoilMoves.others (h : SpoilMoves s t) : t.others.map Hart.plain = s.others.map Hart.plain := by
  obtain ⟨f, hf, h⟩ := h
  rw [h]
  simp [State.onHarts, Function.comp_def, hf]

theorem SpoilMoves.fe (h : SpoilMoves s t) : t.fe = s.fe := by
  obtain ⟨f, hf, h⟩ := h
  rw [h]
  rfl

end

theorem setMm_memMoves (s : State) (mm : MemSys) : MemMoves s { s with mm := mm } := rfl

theorem bumpGen_moves (s : State) (die : Nat) : MemMoves s (s.bumpGen die) := by
  unfold State.bumpGen
  split
  · exact setMm_memMoves s _
  · exact MemMoves.refl s

/-- A reply that comes for a read which has been overtaken. -/
def spoiled (hit : Nat → Bool) (p : Reply) : Reply := if p.op == 0#6 && hit p.line then { p with keep := false } else p

/-- A hart of a die whose reads have been overtaken. -/
def spoiledHart (die : Nat) (hit : Nat → Bool) (h : Hart) : Hart :=
  if h.place.die = die then { h with replies := h.replies.map (spoiled hit) } else h

theorem spoilReads_moves (s : State) (die : Nat) (hit : Nat → Bool) : SpoilMoves s (s.spoilReads die hit) := by
  refine ⟨spoiledHart die hit, fun h => ?_, rfl⟩
  unfold spoiledHart
  split <;> rfl

theorem acquire_moves (s : State) (die core : Nat) (scope : BitVec 2) : SpoilMoves s (s.acquire die core scope) := by
  unfold State.acquire
  split
  · exact (MemMoves.refl s).toSpoil
  · dsimp only
    split
    · exact MemMoves.toSpoil (by rfl)
    · refine SpoilMoves.trans (MemMoves.toSpoil ?_) ((spoilReads_moves _ _ _).trans (bumpGen_moves _ _).toSpoil)
      exact (setMm_memMoves s _).trans ((cleanL2_moves _ _).toMem.trans (setMm_memMoves _ _))

/-! ## A seat on a core (R65) -/

/-- A hart in the slot that a core gives it. -/
def seatedHart (s : State) (h : Hart) (die core v : Nat) : Hart :=
  { h with phase := .resident, place := ⟨die, core, (s.freeHartSlot die core).getD 0⟩, vlMax := v, waitCount := 0, promoted := 0,
           fetched := false, pins := [] }

theorem seat_hart (s : State) (h : Hart) (die core v : Nat) : (s.seat h die core v).2 = seatedHart s h die core v := rfl

theorem seat_moves (s : State) (h : Hart) (die core v : Nat) : SpoilMoves s (s.seat h die core v).1 := by
  show SpoilMoves s (State.acquire _ die core 2#2)
  refine SpoilMoves.trans (MemMoves.toSpoil ?_) (acquire_moves _ _ _ _)
  exact foldl_keeps (MemMoves s) _ (fun _ _ k => k.trans (setMm_memMoves _ _)) _ _ (MemMoves.refl s)

theorem reachCore_moves (s : State) (q idx die core asid : Nat) : QueueMoves s (s.reachCore q idx die core asid) := by
  have first (f : Entry → Entry) : QueueMoves s ((s.icacheDrop die core asid).onEntry q idx f) :=
    (setMm_memMoves s _).toQueue.trans (onEntry_moves _ _ _ _)
  unfold State.reachCore
  dsimp only
  split
  · split
    · exact QueueMoves.refl s
    · exact first _
  · exact first _

/-! ## New harts (R67, R68) -/

theorem qField_eq (p : Line) {off hi lo e w : Nat} (he : 8 * off + lo = e) (hw : hi - lo + 1 = w) :
    qField p off hi lo = p.toNat / 2 ^ e % 2 ^ w := by
  subst he hw
  exact bitsOf_eq_div_mod _ _ _

/-- A hart of a launch before it is placed: reset but for its identity, its needs, its entry point, its CSRs and x1 to x3. -/
theorem newHart_eq (s : State) (t : Slot) (e : Entry) (i : Nat) : ∃ csr : Csrs, csr.hm = false ∧ csr.runCount = 0#64 ∧
    csr.hartId = BitVec.ofNat 64 (i % 2 ^ 32 + t.qid * 2 ^ 32) ∧ s.newHart t e i = { Hart.reset with
      uid := s.fresh, asid := s.qAsid t.qid, prio := pkPrio e.packet, queue := t.qid, packet := e.idx, vlLo := pkVlLo e.packet
      vlHi := pkVlHi e.packet, nregs := nregsOf (pkNregsCode e.packet), aTiles := pkATiles e.packet
      pc := BitVec.ofNat 64 (pkEntry e.packet), csr := csr, x := (s.newHart t e i).x } :=
  ⟨_, rfl, rfl, rfl, rfl⟩

/-- What the registers of a hart read that nothing has written. -/
theorem reset_reads : (∀ n, Hart.reset.getV n = 0#262144) ∧ (∀ n, Hart.reset.getM n = 0#4096) ∧ (∀ n, Hart.reset.getMd n = 0x780#32) ∧
    (∀ n, Hart.reset.getIx n = 0#64) ∧ (∀ n, Hart.reset.getK n = 0#64) ∧ (∀ n, Hart.reset.getBs n = 0#64) ∧
    ∀ n, Hart.reset.getB n = none := by
  refine ⟨fun n => ?_, fun n => ?_, fun n => Vector.getElem_replicate _, fun n => Vector.getElem_replicate _,
    fun n => Vector.getElem_replicate _, fun n => Vector.getElem_replicate _, fun n => Vector.getElem_replicate _⟩
  · rw [Hart.getV, Hart.reset, Vector.getElem?_replicate]
    split <;> rfl
  · rw [Hart.getM, Hart.reset, Vector.getElem?_replicate]
    split <;> rfl

theorem nregsOf_code (p : Line) : nregsOf (pkNregsCode p) = [6, 12, 24, 48].getD (p.toNat / 2 ^ 352 % 4) 0 := by
  rw [← nregsOf_eq, bitsOf_eq_div_mod, Nat.pow_zero, Nat.div_one]
  exact congrArg nregsOf (qField_eq p rfl rfl)

theorem getX_newHart (s : State) (t : Slot) (e : Entry) (i : Nat) (r : BitVec 5) : (s.newHart t e i).getX r =
    if r = 3#5 then BitVec.ofNat 64 (pkHarts e.packet) else if r = 2#5 then BitVec.ofNat 64 i
    else if r = 1#5 then pkArgPtr e.packet else 0#64 := by
  rw [State.newHart, hart_getX_setX, hart_getX_setX, hart_getX_setX]
  simp [Hart.getX, Hart.reset]

theorem rangeRefused_congr {s t : State} {g h : Hart} (jobs : t.fe.jobs = s.fe.jobs) (asid : g.asid = h.asid) (pc : g.pc = h.pc)
    (lo : g.vlLo = h.vlLo) (hi : g.vlHi = h.vlHi) : t.rangeRefused g = s.rangeRefused h := by
  unfold State.rangeRefused State.jobGet State.jobOf
  rw [jobs, asid, pc, lo, hi]

/-- A hart as its launch leaves it in its slot. -/
def launchedHart (s : State) (h : Hart) (die core v : Nat) : Hart :=
  { seatedHart s h die core v with vl := v, vPi := Vector.replicate 48 v, mPi := Vector.replicate 12 v }

/-- A launch whose kernel holds the packet's range puts the new hart beside the others (R67, R68). -/
theorem launchHart_eq {s : State} {t : Slot} {e : Entry} {i : Nat} (hr : s.rangeRefused (s.newHart t e i) = false) (die core v : Nat) :
    ∃ r u : State, SpoilMoves r u ∧ QueueMoves s r ∧ (s.launchHart t e i die core v).hart = u.hart ∧
      (s.launchHart t e i die core v).others = u.others ++ [launchedHart r (s.newHart t e i) die core v] := by
  have reach := reachCore_moves s t.qid e.idx die core (s.newHart t e i).asid
  unfold State.launchHart
  dsimp only
  generalize s.newHart t e i = h at hr reach
  generalize s.reachCore t.qid e.idx die core h.asid = r at reach
  have seat := seat_moves r h die core v
  rw [seat_hart]
  generalize (r.seat h die core v).1 = u at seat
  have entry := onEntry_moves u t.qid e.idx (fun x => { x with alive := x.alive + 1 })
  generalize u.onEntry t.qid e.idx _ = w at entry
  rw [if_neg]
  · exact ⟨r, u, seat, reach, entry.hart, rfl⟩
  · rw [Bool.not_eq_true, ← hr]
    exact rangeRefused_congr (entry.jobs.trans ((congrArg FrontEnd.jobs seat.fe).trans reach.jobs)) rfl rfl rfl rfl

/-! ## The ranges of a launch (R64) -/

theorem launchDies_ne_nil (p : Line) (home : Nat) : launchDies p home ≠ [] := by
  unfold launchDies
  split
  · simp
  next h =>
    have lt : pkDieMask p < 2 ^ 4 := Nat.mod_lt _ (by decide)
    obtain ⟨d, hd⟩ := Nat.exists_testBit_of_ne_zero h
    have hlt : d < 4 := by
      by_contra hge
      exact absurd (Nat.testBit_lt_two_pow (lt.trans_le (Nat.pow_le_pow_right (by decide) (Nat.not_lt.1 hge)))) (by simp [hd])
    exact List.ne_nil_of_mem (List.mem_filter.2 ⟨List.mem_range.2 hlt, hd⟩)

theorem ceil_le_of_div {i m n : Nat} (hm : 0 < m) : (i * m / n * n + m - 1) / m ≤ i := by
  have := Nat.div_mul_le_self (i * m) n
  rw [Nat.div_le_iff_le_mul_add_pred hm]
  rw [Nat.mul_comm m i]
  omega

theorem lt_ceil_of_div {i m n : Nat} (hm : 0 < m) (hn : 0 < n) : i < ((i * m / n + 1) * n + m - 1) / m := by
  have h := (Nat.div_lt_iff_lt_mul hn).1 (Nat.lt_succ_self (i * m / n))
  rw [Nat.lt_iff_add_one_le, Nat.le_div_iff_mul_le hm, Nat.add_mul, Nat.one_mul]
  rw [Nat.succ_eq_add_one] at h
  omega

end Sys2Proof.Proofs
end

section
/-! SUPPORT. A save, the room made for a waiting hart, and the statement O48 (R37, R38, R64 to R68, R70). -/

namespace Sys2Proof.Proofs

open Sys2Proof Sys2Proof.Machine Sys2Proof.Laws

/-! ## Placement again (R39, R41) -/

theorem launchRanges_covers (p : Line) (home : Nat) {i : Nat} (hi : i < pkHarts p) :
    ∃ r ∈ launchRanges p home, r.next ≤ i ∧ i < r.stop ∧
      r.die = (launchDies p home).getD (i * (launchDies p home).length / pkHarts p) 0 := by
  have hm : 0 < (launchDies p home).length := List.length_pos_iff.2 (launchDies_ne_nil p home)
  have hn : 0 < pkHarts p := Nat.zero_lt_of_lt hi
  have lo := ceil_le_of_div (i := i) (n := pkHarts p) hm
  have hi' := lt_ceil_of_div (i := i) hm hn
  have hk : i * (launchDies p home).length / pkHarts p < (launchDies p home).length :=
    (Nat.div_lt_iff_lt_mul hn).2 (by rw [Nat.mul_comm]; exact Nat.mul_lt_mul_of_pos_left hi hm)
  exact ⟨_, List.mem_filter.2 ⟨List.mem_map_of_mem (List.mem_range.2 hk), by simpa using lo.trans_lt hi'⟩, lo, hi', rfl⟩

theorem league_of_plain {g h : Hart} (e : g.plain = h.plain) : g.league = h.league :=
  show g.plain.league = h.plain.league from congrArg Hart.league e

theorem uid_of_plain {g h : Hart} (e : g.plain = h.plain) : g.uid = h.uid :=
  show g.plain.uid = h.plain.uid from congrArg Hart.uid e

/-- A hart in focus that is placed again has its registers; the others stand but for what their replies bring (R39, R41). -/
theorem resume_self (s : State) (die core : Nat) {slot : Nat} (hs : s.freeHartSlot die core = some slot) :
    (s.resume s.hart.uid die core).others.map Hart.plain = s.others.map Hart.plain ∧
    (s.resume s.hart.uid die core).hart = { s.hart with
      phase := .resident, place := ⟨die, core, slot⟩, waitCount := 0, promoted := 0, fetched := false, pins := [],
      vDirty := Vector.replicate 48 0 } := by
  have reach := reachCore_moves s s.hart.queue s.hart.packet die core s.hart.asid
  rw [State.resume, hartOf_self]
  dsimp only
  generalize s.reachCore s.hart.queue s.hart.packet die core s.hart.asid = r at reach
  have free : r.freeHartSlot die core = some slot := by
    rw [← hs, State.freeHartSlot, State.freeHartSlot, State.onCore, State.onCore, reach.harts]
  have seat := seat_moves r s.hart die core s.hart.vlMax
  rw [seat_hart, seatedHart, free]
  generalize (r.seat s.hart die core s.hart.vlMax).1 = u at seat
  have uid : u.hart.uid = s.hart.uid := (uid_of_plain seat.hart).trans (congrArg Hart.uid reach.hart)
  rw [← uid, onHart_self]
  exact ⟨seat.others.trans (by rw [reach.others]), rfl⟩

theorem leagueCalls_nil {s : State} (h : ∀ g ∈ s.harts, g.league = none) (die : Nat) : s.leagueCalls die = [] := by
  refine List.filter_eq_nil_iff.2 fun g hg => ?_
  simp [State.leagueWaits, h g hg]

/-! ## A save (R37, R38) -/

theorem preempt_self {s : State} (hr : s.hart.isResident = true) (hf : s.hart.furlong = none) (hs : s.hart.strip = []) {t : State}
    (ht : t = ((s.unpin s.hart.uid).release s.hart.place.die s.hart.place.core 2#2).abandon s.hart.uid) :
    s.preempt s.hart.uid = { t with hart := { s.hart with
      phase := .waiting, wait := .none, leaving := false, held := false
      pins := (s.mm.l1.filter (fun c => c.pin == some s.hart.uid)).map (fun c => (⟨c.line, c.data, c.psn⟩ : SavedPin))
      pc := s.hart.position, startElem := t.savedElem t.hart, elemFrom := t.savedElem t.hart, vPi := s.hart.restPi 0#48
      records := t.producing t.hart ++ s.hart.records, region := none, pathAt := none, kept := [], replies := [] } } ∧
    t.others = s.others ∧ t.mm.l1 = s.mm.l1.filter (fun c => c.pin != some s.hart.uid) := by
  have moves := release_moves (s.unpin s.hart.uid) s.hart.place.die s.hart.place.core 2#2
  rw [State.preempt, hartOf_self]
  simp only [hr, Bool.not_true, Bool.false_eq_true, if_false, focusOn_self, closing_of_none hf hs, ← ht]
  generalize (s.unpin s.hart.uid).release s.hart.place.die s.hart.place.core 2#2 = r at ht moves
  have hh : r.hart = s.hart := moves.toMem.hart
  obtain ⟨banks, fab, e⟩ := abandon_self r
  rw [hh, ← ht] at e
  have th : t.hart = { s.hart with replies := [] } := by rw [e]
  have uid : s.hart.uid = t.hart.uid := by rw [th]
  refine ⟨?_, by rw [e]; exact moves.toMem.others, by rw [e]; exact moves.l1⟩
  rw [uid, onHart_self, th]
  rfl

theorem preemptNow_self {s : State} (hr : s.hart.isResident = true) (hh : s.saveHeld s.hart.uid = false) :
    s.preemptNow s.hart.uid = s.preempt s.hart.uid := by
  rw [State.preemptNow, hartOf_self]
  simp [hr, hh]

/-! ## Room for a waiting hart (R66) -/

theorem mem_lowestClasses {l : List (Nat × List Hart)} {x : Nat × List Hart} (h : lowestClasses l = some x) : x ∈ l := by
  cases l with
  | nil => exact nomatch h
  | cons c l =>
    cases h
    refine List.foldlRecOn (motive := fun b => b ∈ c :: l) l _ List.mem_cons_self fun b hb x hx => ?_
    split
    · exact List.mem_cons_of_mem _ hx
    · exact hb

theorem subset_of_mem_sublistsOf {α : Type} : ∀ {l : List α} {k : Nat} {g : List α}, g ∈ sublistsOf l k → g ⊆ l
  | [], 0, g, h => by simp_all [sublistsOf]
  | _ :: _, 0, g, h => by simp_all [sublistsOf]
  | [], k + 1, g, h => nomatch h
  | a :: l, k + 1, g, h => by
    rcases List.mem_append.1 h with h | h
    · obtain ⟨g, hg, rfl⟩ := List.mem_map.1 h
      exact List.cons_subset_cons a (subset_of_mem_sublistsOf hg)
    · exact List.subset_cons_of_subset a (subset_of_mem_sublistsOf h)

theorem mem_insertByClass {g h : Hart} : ∀ {l : List Hart}, g ∈ insertByClass h l → g = h ∨ g ∈ l
  | [], hg => .inl (List.mem_singleton.1 hg)
  | x :: l, hg => by
    rw [insertByClass] at hg
    split at hg
    · exact List.mem_cons.1 hg
    · rcases List.mem_cons.1 hg with rfl | hg
      · exact .inr List.mem_cons_self
      · exact (mem_insertByClass hg).imp_right (List.mem_cons_of_mem _)

/-- Those that give way to a waiting hart are harts of one core of the die that may be asked to (R66). -/
theorem roomOn_mem {s : State} {die c : Nat} {need : Hart} {vs : List Nat} {ok : Hart → Bool} {l : List Hart}
    (h : s.roomOn die need vs ok = some (c, l)) {g : Hart} (hg : g ∈ l) : ok g = true ∧ g ∈ s.onCore die c := by
  obtain ⟨k, -, hk⟩ := List.exists_of_findSome?_eq_some h
  obtain ⟨c', -, hc⟩ := List.mem_filterMap.1 (mem_lowestClasses hk)
  dsimp only at hc
  obtain ⟨l', hl, e⟩ := Option.map_eq_some_iff.1 hc
  cases e
  have hm := subset_of_mem_sublistsOf (List.mem_of_find?_eq_some hl) hg
  obtain h | h := mem_of_mem_foldl_insert mem_insertByClass hm
  · exact (List.mem_filter.1 h).symm
  · exact nomatch h

/-! ## Settling O48 -/

/-- Settles O48: each clause by the operation of the dispatcher that it speaks of. The slot of a hart placed again is the
lowest free one (log entry 64). -/
theorem placement : Obligations.Placement := by
  unfold Obligations.Placement
  refine ⟨?_, fun p home i hi => launchRanges_covers p home hi, ?_, ?_, ?_, ?_⟩
  · intro s t e i h hh
    have x := getX_newHart s t e i
    obtain ⟨csr, hm, rc, hid, eq⟩ := newHart_eq s t e i
    rw [← hh] at x eq
    have launch (die core v : Nat) := launchHart_eq (s := s) (t := t) (e := e) (i := i) (die := die) (core := core) (v := v)
    rw [← hh] at launch
    -- from here on the new hart is the record that its fields are read off from
    clear hh
    generalize h.x = xs at eq
    subst eq
    have x1 := (x 1#5).trans (congrArg (BitVec.ofNat 64) (qField_eq e.packet (e := 256) rfl rfl))
    have x3 := (x 3#5).trans (congrArg (BitVec.ofNat 64) (qField_eq e.packet (e := 320) rfl rfl))
    have pc := congrArg (BitVec.ofNat 64) (qField_eq e.packet (off := 0x18) (hi := 56) (lo := 0) (e := 192) rfl rfl)
    obtain ⟨hv, hmr, hmd, hix, hk, hbs, hb⟩ := reset_reads
    refine ⟨x1, x 2#5, x3, fun r h1 h2 h3 => by rw [x, if_neg h3, if_neg h2, if_neg h1], hv, hmr, hmd, hix, hk, hbs, hb, pc, rfl, hm, rc,
      rfl, nregsOf_code e.packet, hid, fun die core v hr => ?_⟩
    obtain ⟨r, u, seat, reach, hart, others⟩ := launch die core v hr
    exact ⟨_, u.others, others, seat.others.trans (by rw [reach.others]), by rw [hart, seat.hart, reach.hart], rfl, rfl, rfl, rfl, rfl, rfl,
      rfl, rfl, rfl⟩
  · intro s d core v slot n hfe hp hw hto hslot hl
    obtain ⟨others, hart⟩ := resume_self s d core hslot
    refine ⟨s.resume s.hart.uid d core, ?_, others, hart⟩
    have serve : s.dispatch d = s.resume s.hart.uid d core := by
      rw [State.dispatch, hw, List.foldl_cons, List.foldl_nil, State.serve, hto]
    have unbound : ∀ g ∈ (s.resume s.hart.uid d core).harts, g.league = none := by
      intro g hg
      rcases List.mem_cons.1 hg with rfl | hg
      · rw [hart]
        exact hl s.hart List.mem_cons_self
      · obtain ⟨g', hg', e⟩ := List.mem_map.1 (others ▸ List.mem_map_of_mem hg)
        rw [← league_of_plain e]
        exact hl _ (List.mem_cons_of_mem _ hg')
    show execDispatch d s = _
    rw [execDispatch, if_pos (by simp [hfe, hp]), serve, leagueCalls_nil unbound]
    rfl
  · intro s t hfe hp hr hq htw hcp hcm hf hs hu hmr ht
    have free : s.saveHeld s.hart.uid = false := by simpa [State.saveHeld, hq, htw, hu, hmr, hp] using ⟨hcp, hcm⟩
    obtain ⟨e, others, l1⟩ := preempt_self hr hf hs ht
    refine ⟨s.preempt s.hart.uid, ?_, ?_⟩
    · show execHartPreempt s.hart.uid s = _
      rw [execHartPreempt, if_pos hfe, preemptNow_self hr free]
    · rw [e]
      refine ⟨others, rfl, fun c hc hpin => ?_, fun c hc => ?_⟩
      · exact List.mem_map_of_mem (List.mem_filter.2 ⟨hc, by simp [hpin]⟩)
      · dsimp only at hc
        rw [l1] at hc
        simpa using (List.mem_filter.1 hc).2
  · intro s who d c w l hw hfe hp hroom
    refine ⟨_, ?_, rfl, fun g hg => ?_⟩
    · show execPriorityPreemptTimeout who s = _
      rw [execPriorityPreemptTimeout, hw]
      dsimp only
      rw [if_pos (by simp [hfe, hp]), State.yieldTo, hroom]
    · obtain ⟨hlt, hm⟩ := roomOn_mem hroom hg
      obtain ⟨hm, hat⟩ := List.mem_filter.1 hm
      obtain ⟨⟨-, hd⟩, hc⟩ : (g.isResident = true ∧ g.place.die = d) ∧ g.place.core = c := by simpa using hat
      exact ⟨by simpa using hlt, hm, hd, hc⟩
  · intro s hr hw hpr
    have e : exec (.hartPromotion s.hart.uid) s = .next { s with hart := { s.hart with promoted := s.tick + 1 } } := by
      show execHartPromotion s.hart.uid s = _
      rw [execHartPromotion, onHart_self, if_pos (by simp [hr, hw]), Hart.promote, if_pos hpr]
    refine ⟨_, e, Nat.succ_ne_zero _, rfl, fun g hg => ?_⟩
    simp [issuesBefore, hg]

end Sys2Proof.Proofs
end

section
/-!
SUPPORT. The completion word of a packet and the lines of an L2 (R62, R126, R153): a state whose L2 holds one line twice, at two
physical places, and from it the refutation of O50.
-/

namespace Sys2Proof.Proofs

open Sys2Proof Sys2Proof.Machine

/-- A launch packet whose completion word stands at 0x800. -/
def wordPacket : Line := 1#1024 ||| (1#1024 <<< 30) ||| (0x800#1024 <<< 448)

/-- The packet, launched, with no hart left. -/
def wordEntry : Entry := { Entry.fresh 1 wordPacket with launched := true }

/-- A queue whose window holds that packet behind one that has not completed. -/
def wordSlot : Slot :=
  { die := 0, slot := 0, qid := 0, writeIdx := 2, readIdx := 2, retireIdx := 0, tokens := 0#64,
    window := [Entry.fresh 0 0, wordEntry], idleSince := 0 }

/-- A line of ASID 0 in the L2 of die 0 under a leaf that permits stores; its byte 0 is 1. -/
def heldLine (line pa : Nat) (dirty : BitVec 128) : L2Line :=
  { die := 0, asid := 0, line := line, pa := pa, leaf := 8#64, way := 0, rrpv := 0, data := 1#1024, tags := 0#16, psn := 0#4,
    dirty := dirty, writers := 0#48, heirs := 0#48, out := false }

/-- A started machine with that queue. Its L2 holds the line of the completion word, and holds virtual line 17 twice: dirty at
physical line 17, and dirty at the physical line of the completion word. -/
def twiceHeld : State :=
  { State.reset with
    terak := Terak.reset.started
    fe := { FrontEnd.reset with slots := [wordSlot], qcbCache := [(0, 0, 0#1024)] }
    mm := { MemSys.reset with l2 := [heldLine 16 16 0#128, heldLine 17 17 1#128, heldLine 17 16 1#128] } }

/-- The L2 holds the line of the completion word with its leaf, so that the store needs no translation (R115). -/
theorem classify_twiceHeld :
    classify (frontEnd 0 (twiceHeld.qAsid 0)) (BitVec.ofNat 64 (pkCompAddr wordPacket)) 8 .store twiceHeld =
      .ok (.cached 0x800 8#64, twiceHeld) := by decide +kernel

theorem checkWord_twiceHeld : twiceHeld.checkWord wordSlot wordPacket = .ready (.cached 0x800 8#64) twiceHeld := by
  have word : (!pkCwv wordPacket) = false := by decide +kernel
  rw [State.checkWord, word, if_neg Bool.false_ne_true]
  dsimp only [wordSlot]
  rw [classify_twiceHeld]

/-- With no key slot in use memory is plain to ASID 0 (R137). -/
theorem plainTo_twiceHeld : (twiceHeld.gather 16 true).plainTo 0 16 := by
  have noTags : (twiceHeld.gather 16 true).tagAddr 16 = none := by decide +kernel
  refine ⟨by decide +kernel, fun a ha => ?_⟩
  rw [noTags] at ha
  exact nomatch ha

theorem exec_packetComplete_twiceHeld : exec (.packetComplete 0 0 1) twiceHeld =
    .next (twiceHeld.completePacket wordSlot wordEntry (some (.cached 0x800 8#64))) := by
  have slot : twiceHeld.slotAt 0 0 = some wordSlot := by decide +kernel
  have up : (!twiceHeld.frontEndAt 0) = false := by decide +kernel
  have found : wordSlot.window.find? (fun e => e.idx == 1) = some wordEntry := by decide +kernel
  have ends : (!wordEntry.finished) = false := by decide +kernel
  have free : (twiceHeld.packetUnacked 0 1 || !twiceHeld.planesMove) = false := by decide +kernel
  have leaves : twiceHeld.wordMayLeave (.cached 0x800 8#64) = true := by decide +kernel
  show execPacketComplete 0 0 1 twiceHeld = _
  simp only [execPacketComplete, slot, up, found, ends, free, leaves, checkWord_twiceHeld, Bool.false_eq_true, if_false, if_true,
    show wordEntry.complete = false from rfl, show wordSlot.qid = 0 from rfl, show wordEntry.packet = wordPacket from rfl]

/-- The dirty copies of the word's line are written back before the word is written, and each is looked up by its virtual
line: the copy of line 17 that is found first goes home to physical line 17. -/
theorem byteAt_completePacket_twiceHeld :
    (twiceHeld.completePacket wordSlot wordEntry (some (.cached 0x800 8#64))).byteAt (17 * 128) = 1#8 := by decide +kernel

/-! ## Settling O50 -/

/-- Refutes O50: its clause on a completion word says that memory outside the word's line stands, for any L2 whatever. In
`twiceHeld` the L2 holds virtual line 17 of ASID 0 twice, at physical line 17 and at that of the word, both dirty; gathering the
word's line writes back the first of the two, and byte 0 of physical line 17 turns from 0 to 1. The clause lacks the premise that
an L2 holds a virtual line of an address space at most once. -/
theorem not_queueEvents : ¬ Obligations.QueueEvents := by
  unfold Obligations.QueueEvents
  rintro ⟨-, -, -, -, -, -, -, -, -, -, -, -, -, -, completesWithWord, -⟩
  have cached : (∃ leaf, Window.cached 0x800 8#64 = .cached 0x800 leaf) ∨ ∃ reach, Window.cached 0x800 8#64 = .memSide 0x800 reach :=
    .inl ⟨_, rfl⟩
  have space : 0 = spaceOf (twiceHeld.qAsid wordSlot.qid) (BitVec.ofNat 64 (pkCompAddr wordEntry.packet)) := by decide +kernel
  have cache : ∃ q ∈ twiceHeld.fe.qcbCache, q.2.1 = wordSlot.qid := ⟨_, List.mem_singleton_self _, rfl⟩
  obtain ⟨u, t, hu, -, -, -, stands, -⟩ := completesWithWord twiceHeld twiceHeld (twiceHeld.releasePacket wordEntry) 0 0 1 0x800 0 wordSlot
    wordEntry (Entry.fresh 0 0) [wordEntry] (.cached 0x800 8#64)
    (by decide +kernel) (by decide +kernel) (by decide +kernel) rfl (by decide +kernel) (by decide +kernel) (by decide +kernel)
    checkWord_twiceHeld (by decide +kernel) (by decide +kernel) (by decide +kernel) (by decide +kernel) rfl rfl rfl (by decide +kernel)
    (.inl ⟨cached, space, plainTo_twiceHeld⟩) rfl (by decide) rfl rfl (by decide +kernel) cache
  rw [exec_packetComplete_twiceHeld] at hu
  have written := byteAt_completePacket_twiceHeld
  rw [Host.Outcome.next.inj hu, stands (17 * 128) (by decide)] at written
  exact absurd written (by decide +kernel)

end Sys2Proof.Proofs
end

section
/-!
SUPPORT. Vector results (R178, R179, R230 to R234): what the shared steps of a vector instruction do when its checks find nothing,
element by element, and from them quantisation (R93, R253, R255): obligation O34.
-/

namespace Sys2Proof.Proofs

open Sys2Proof Sys2Proof.Machine Sys2Proof.Laws

/-! ## Elements of a register (R76) -/

theorem getElt_eq_extractLsb {n : Nat} (r : BitVec n) (w e : Nat) : getElt r w e = (r.extractLsb' (w * e) w).toNat := rfl

theorem getLsbD_setElt {n i : Nat} (r : BitVec n) (w e v : Nat) (hi : i < n) : (setElt r w e v).getLsbD i =
    if w * e ≤ i ∧ i < w * e + w then v.testBit (i - w * e) else r.getLsbD i := by
  simp only [setElt, BitVec.getLsbD_or, BitVec.getLsbD_and, BitVec.getLsbD_not, BitVec.getLsbD_shiftLeft, BitVec.getLsbD_ofNat,
    Nat.testBit_two_pow_sub_one, Nat.testBit_mod_two_pow, hi, decide_true, Bool.true_and]
  by_cases below : i < w * e
  · simp [below]
  · by_cases inside : i - w * e < w
    · simp [below, inside, show i - w * e < n by omega, show w * e ≤ i ∧ i < w * e + w by omega]
    · simp [inside, show ¬ i < w * e + w by omega]

theorem getElt_setElt_same {n w e : Nat} (r : BitVec n) (v : Nat) (he : w * (e + 1) ≤ n) :
    getElt (setElt r w e v) w e = v % 2 ^ w := by
  rw [Nat.mul_succ] at he
  have field : (setElt r w e v).extractLsb' (w * e) w = BitVec.ofNat w v := by
    refine BitVec.eq_of_getLsbD_eq fun j hj => ?_
    rw [BitVec.getLsbD_extractLsb', getLsbD_setElt r w e v (by omega), if_pos (by omega), BitVec.getLsbD_ofNat,
      Nat.add_sub_cancel_left]
  rw [getElt_eq_extractLsb, field, BitVec.toNat_ofNat]

theorem getElt_setElt_ne {n w e f : Nat} (r : BitVec n) (v : Nat) (hf : w * (f + 1) ≤ n) (hne : f ≠ e) :
    getElt (setElt r w e v) w f = getElt r w f := by
  have apart : w * (f + 1) ≤ w * e ∨ w * (e + 1) ≤ w * f :=
    (Nat.lt_or_gt_of_ne hne).imp (Nat.mul_le_mul_left w) (Nat.mul_le_mul_left w)
  simp only [Nat.mul_succ] at hf apart
  have field : (setElt r w e v).extractLsb' (w * f) w = r.extractLsb' (w * f) w := by
    refine BitVec.eq_of_getLsbD_eq fun j hj => ?_
    rw [BitVec.getLsbD_extractLsb', BitVec.getLsbD_extractLsb', getLsbD_setElt r w e v (by omega), if_neg (by omega)]
  rw [getElt_eq_extractLsb, field, getElt_eq_extractLsb]

/-- What element `e`, old, becomes under a result: none leaves it (R231). -/
def resultOver (w old : Nat) (x : Option Flagged) : Nat := x.elim old (·.1 % 2 ^ w)

theorem getElt_layOver_below {w f : Nat} (hf : w * (f + 1) ≤ 262144) (l : Elems) : ∀ (r : VReg) (k : Nat), f < k →
    getElt (layOver r w k l) w f = getElt r w f := by
  induction l with
  | nil => exact fun _ _ _ => rfl
  | cons x l ih =>
    intro r k hk
    cases x with
    | none => exact ih r (k + 1) (Nat.lt_succ_of_lt hk)
    | some v => exact (ih _ (k + 1) (Nat.lt_succ_of_lt hk)).trans (getElt_setElt_ne r v.1 hf (Nat.ne_of_lt hk))

theorem getElt_layOver {w : Nat} (l : Elems) : ∀ (r : VReg) (k e : Nat), w * (k + e + 1) ≤ 262144 →
    getElt (layOver r w k l) w (k + e) = resultOver w (getElt r w (k + e)) (l.getD e none) := by
  induction l with
  | nil => exact fun _ _ _ _ => rfl
  | cons x l ih =>
    intro r k e he
    cases e with
    | zero =>
      cases x with
      | none => exact getElt_layOver_below he l r (k + 1) (Nat.lt_succ_self k)
      | some v => exact (getElt_layOver_below he l _ (k + 1) (Nat.lt_succ_self k)).trans (getElt_setElt_same r v.1 he)
    | succ e =>
      rw [show k + (e + 1) = k + 1 + e by omega] at he ⊢
      cases x with
      | none => exact ih r (k + 1) e he
      | some v =>
        rw [layOver, ih _ (k + 1) e he, getElt_setElt_ne r v.1 he (by omega), List.getD_cons_succ]

/-! ## Writing a vector operand (R178, R231) -/

/-- `g` is `h` but for its vector registers, how far they are written, their poison and what an open furlong notes. -/
def VecMoves (h g : Hart) : Prop := g = { h with v := g.v, vDirty := g.vDirty, vPi := g.vPi, vPsn := g.vPsn, furlong := g.furlong }

section
variable {h g k : Hart}

theorem VecMoves.refl (h : Hart) : VecMoves h h := rfl
theorem VecMoves.trans (a : VecMoves h g) (b : VecMoves g k) : VecMoves h k := Eq.trans b (by rw [a])
theorem VecMoves.nregs (a : VecMoves h g) : g.nregs = h.nregs := by rw [a]
theorem VecMoves.ix (a : VecMoves h g) : g.ix = h.ix := by rw [a]

theorem VecMoves.foldl {α : Type} {f : Hart → α → Hart} (hf : ∀ g a, VecMoves g (f g a)) : ∀ (l : List α) (h : Hart),
    VecMoves h (l.foldl f h)
  | [], h => .refl h
  | a :: l, h => (hf h a).trans (VecMoves.foldl hf l (f h a))

theorem setVTo_moves (h : Hart) (r n : Nat) (v : VReg) : VecMoves h (h.setVTo r n v) := by
  unfold Hart.setVTo; split <;> rfl

theorem setPi_moves (h : Hart) (r e : Nat) : VecMoves h (h.setPi r e) := by
  unfold Hart.setPi; split <;> rfl

theorem noteV_moves (h : Hart) (r : Nat) (gs : List Nat) : VecMoves h (h.noteV r gs) := by
  unfold Hart.noteV; dsimp only; split <;> split <;> rfl

theorem writeLane_moves (h : Hart) (d : Regs) (w e : Nat) (x : Option Flagged) : VecMoves h (h.writeLane d w e x) := by
  unfold Hart.writeLane
  split
  · split
    · exact (setVTo_moves ..).trans (setPi_moves ..)
    · exact .refl h
  · exact .refl h

theorem writeElems_moves (h : Hart) (d : Regs) (w : Nat) (l : Elems) : VecMoves h (h.writeElems d w l) := by
  cases d with
  | one r => exact ((setVTo_moves ..).trans (setPi_moves ..)).trans (noteV_moves ..)
  | lanes regs =>
    refine (VecMoves.foldl (fun g e => writeLane_moves g _ w e _) _ h).trans (VecMoves.foldl (fun g n => ?_) _ _)
    dsimp only
    split
    · exact noteV_moves ..
    · exact .refl g

theorem getV_of_v (a : g.v = h.v) (q : Nat) : g.getV q = h.getV q := by rw [Hart.getV, Hart.getV, a]

end

theorem getV_setVTo (h : Hart) (q r n : Nat) (v : VReg) :
    (h.setVTo r n v).getV q = if q = r ∧ r < 48 then v else h.getV q := by
  by_cases hr : r < 48
  · by_cases same : q = r
    · subst same; simp [Hart.setVTo, Hart.getV, hr]
    · simp [Hart.setVTo, Hart.getV, hr, same, Ne.symm same]
  · simp [Hart.setVTo, hr]

theorem getV_setPi (h : Hart) (q r e : Nat) : (h.setPi r e).getV q = h.getV q := getV_of_v (Hart_setPi_v h r e) q

theorem noteV_v (h : Hart) (r : Nat) (gs : List Nat) : (h.noteV r gs).v = h.v := by
  unfold Hart.noteV; dsimp only; split <;> split <;> rfl

theorem getElt_writeLane (h : Hart) (d : Regs) (x : Option Flagged) {w q e f : Nat} (hq : q < 48) (hf : w * (f + 1) ≤ 262144) :
    getElt ((h.writeLane d w e x).getV q) w f =
      if f = e ∧ q = d.at e ∧ q < h.nregs then resultOver w (getElt (h.getV q) w f) x else getElt (h.getV q) w f := by
  cases x with
  | none => simp [Hart.writeLane, resultOver]
  | some v =>
    unfold Hart.writeLane
    by_cases there : q = d.at e
    · subst there
      by_cases bound : d.at e < h.nregs
      · by_cases same : f = e
        · subst same
          simp [bound, getV_setPi, getV_setVTo, hq, resultOver, getElt_setElt_same _ _ hf]
        · simp [bound, getV_setPi, getV_setVTo, hq, same, getElt_setElt_ne _ _ hf same]
      · simp [bound]
    · simp only [there, false_and, and_false, if_false]
      split
      · rw [getV_setPi, getV_setVTo, if_neg (fun c => there c.1)]
      · rfl

theorem getElt_writeLanes (h : Hart) (d : Regs) (l : Elems) {w q f : Nat} (hq : q < 48) (hf : w * (f + 1) ≤ 262144) (n : Nat) :
    getElt (((List.range n).foldl (fun (g : Hart) e => g.writeLane d w e (l.getD e none)) h).getV q) w f =
      if f < n ∧ q = d.at f ∧ q < h.nregs then resultOver w (getElt (h.getV q) w f) (l.getD f none) else getElt (h.getV q) w f := by
  induction n with
  | zero => simp
  | succ n ih =>
    have bound := (VecMoves.foldl (fun g e => writeLane_moves g d w e (l.getD e none)) (List.range n) h).nregs
    rw [List.range_succ, List.foldl_append, List.foldl_cons, List.foldl_nil, getElt_writeLane _ _ _ hq hf, ih, bound]
    by_cases last : f = n
    · subst last; simp
    · simp [last, show f < n + 1 ↔ f < n by omega]

/-- Writing results element by element: each element given goes into its register below NREGS, every other stands. -/
theorem getElt_writeElems (h : Hart) (d : Regs) (l : Elems) {w q e : Nat} (hd : ∀ r, d = .one r → r < h.nregs) (hq : q < 48)
    (he : w * (e + 1) ≤ 262144) : getElt ((h.writeElems d w l).getV q) w e =
      if q = d.at e ∧ q < h.nregs then resultOver w (getElt (h.getV q) w e) (l.getD e none) else getElt (h.getV q) w e := by
  cases d with
  | one r =>
    have written : (h.writeElems (.one r) w l).getV q = if q = r ∧ r < 48 then layOver (h.getV r) w 0 l else h.getV q := by
      rw [Hart.writeElems, getV_of_v (noteV_v ..), getV_setPi, getV_setVTo]
    rw [written]
    by_cases there : q = r
    · subst there
      have laid := getElt_layOver l (h.getV q) 0 e (by rwa [Nat.zero_add])
      rw [Nat.zero_add] at laid
      rw [if_pos ⟨rfl, hq⟩, if_pos ⟨rfl, hd q rfl⟩, laid]
    · rw [if_neg (fun c => there c.1), if_neg (fun c => there c.1)]
  | lanes regs =>
    have noted : (h.writeElems (.lanes regs) w l).v =
        ((List.range l.length).foldl (fun (g : Hart) e => g.writeLane (.lanes regs) w e (l.getD e none)) h).v := by
      refine List.foldlRecOn (motive := fun g : Hart => g.v = _) _ _ rfl fun g hg n _ => ?_
      dsimp only
      split
      · rw [noteV_v, hg]
      · exact hg
    rw [getV_of_v noted, getElt_writeLanes _ _ _ hq he]
    by_cases inside : e < l.length
    · simp only [inside, true_and]
    · rw [if_neg (fun c => inside c.1), List.getD_eq_default _ _ (Nat.le_of_not_lt inside), resultOver, Option.elim_none, ite_self]

/-! ## Index registers (R179) -/

theorem stepIndices_eq {g h : Hart} (same : g.ix = h.ix) (specs : List Nat) :
    g.stepIndices specs = { g with ix := (h.stepIndices specs).ix } := by
  unfold Hart.stepIndices
  induction (specs.filter (48 ≤ ·)).eraseDups generalizing g h with
  | nil => rw [List.foldl_nil, List.foldl_nil, ← same]
  | cons spec rest ih =>
    rw [List.foldl_cons, List.foldl_cons]
    simp only [show g.getIx = h.getIx by unfold Hart.getIx; rw [same]]
    split
    · exact ih same
    · rw [ih (h := h.setIx (BitVec.ofNat 4 (spec - 48)) (stepCur (h.getIx (BitVec.ofNat 4 (spec - 48)))))
        (by simp only [Hart.setIx, same])]
      rfl

/-! ## The shared steps of a vector instruction when nothing stops it (R230 to R234) -/

theorem firstFailure_none {l : List (Option (Nat × Nat × Nat))} (h : ∀ x ∈ l, x = none) : firstFailure l = none := by
  induction l with
  | nil => rfl
  | cons x l ih =>
    obtain rfl := h x List.mem_cons_self
    exact ih fun y hy => h y (List.mem_cons_of_mem _ hy)

theorem checkRegs_ok {s : State} {m : Mode} {w : Nat} {specs : List Nat} (h : ∀ b ∈ specs, s.hart.specFails m w b = none) :
    checkRegs m w specs s = .ok ((), s) := by
  have clear : firstFailure (specs.map (s.hart.specFails m w)) = none :=
    firstFailure_none fun x hx => by obtain ⟨b, hb, rfl⟩ := List.mem_map.1 hx; exact h b hb
  rw [checkRegs, bind_ok (run_get s)]
  simp only [clear, run_pure]

section
variable {s : State} (clean : s.cleanVectors)
include clean

theorem poisonGuard_clean (m : Mode) : s.hart.poisonGuard m = [] := by
  obtain ⟨-, hm, -, -⟩ := clean
  simp [Hart.poisonGuard, Hart.poisonM, hm]

theorem poisonV_clean (r : Regs) (w : Nat) (es : List Nat) : s.hart.poisonV r w es = [] := if_pos clean.1

theorem poisonLanes_clean (w : Nat) (es specs : List Nat) : s.hart.poisonLanes w es specs = [] := by
  simp [Hart.poisonLanes, poisonV_clean clean]

theorem poisonOf_clean (w : Nat) (es : List Nat) (srcs : List VSrc) : poisonOf s.hart w es srcs = [] := by
  simp [poisonOf, poisonV_clean clean]

end

/-- The checks pass and the operands are read. An instruction may keep some of the operands that the checks speak of for results:
these are checked, and not read. -/
theorem vectorIn_ready {s : State} {i : Instr} {md : BitVec 2} {v : VShape} {srcs : List VSrc} {outs : List Nat}
    (ready : VectorReady s i md v) (split : v.srcs.map (·.spec) = srcs.map (·.spec) ++ outs) :
    vectorIn i md { v with srcs := srcs, outs := outs } s = .ok (s.operands md { v with srcs := srcs, outs := outs }, s) := by
  obtain ⟨form, types, distinct, bounds, apart, plain, clean⟩ := ready
  have legal : (!i.wf || !v.types (s.mode md).etype || v.clash) = false := by rw [form, types, distinct]; rfl
  have regs : checkRegs (if v.selects then { s.mode md with guard := 15 } else s.mode md) (s.mode md).width
      (v.dst :: srcs.map (·.spec) ++ outs) s = .ok ((), s) := checkRegs_ok (by rwa [List.cons_append, ← split])
  have noOverlap : (v.apart.any fun p => s.hart.overlap (if v.selects then { s.mode md with guard := 15 } else s.mode md)
      (s.hart.regsOf (s.mode md).width p.1) (s.hart.regsOf (s.mode md).width p.2)) = false := by
    cases hsel : v.selects with
    | true => rw [plain hsel]; rfl
    | false => simpa using apart
  have distinct' : VShape.clash { v with srcs := srcs, outs := outs } = v.clash := rfl
  rw [vectorIn, bind_ok (run_get s)]
  simp only [distinct', legal, Bool.false_eq_true, if_false]
  rw [bind_ok regs]
  simp only [noOverlap, Bool.false_eq_true, if_false, poisonGuard_clean clean, poisonLanes_clean clean, poisonOf_clean clean]
  rw [bind_ok (a := ()) (t := s) rfl, run_pure, State.operands]
  congr 3
  funext k e
  rw [List.getElem?_map]
  cases srcs[k]? <;> rfl

theorem from_zero (l : Elems) : l.from 0 = l := by rw [Elems.from, Nat.zero_min]; rfl

theorem quietGroups_nil {α : Type} (l : List (Option (α × BitVec 6))) (per : Nat) : quietGroups l per [] = l := if_pos rfl

theorem spoil_nil (h : Hart) (d : Regs) (w per n : Nat) : h.spoil d w per n [] = h := if_pos rfl

/-- The state past a vector instruction that has made `g` of its hart, raised flags and stepped the index registers named. -/
def vectorEnd (s : State) (g : Hart) (fl : BitVec 6) (specs : List Nat) : State :=
  ({ s with hart := (g.raiseFlags fl).stepIndices specs } : State).advance

/-- The hart past a vector instruction takes only the vector registers from `g`; flags and index registers go by the hart before. -/
theorem vectorEnd_hart {s : State} {g : Hart} (moves : VecMoves s.hart g) (fl : BitVec 6) (specs : List Nat) :
    (vectorEnd s g fl specs).hart = { s.hart.atStart with
      v := g.v, vDirty := g.vDirty, vPi := g.vPi, vPsn := g.vPsn, furlong := g.furlong, ix := (s.hart.stepIndices specs).ix,
      csr := { s.hart.csr with flags := s.hart.csr.flags ||| zext fl }, pc := wrapPc (s.hart.pc + 4#64) } := by
  have stepped := stepIndices_eq (g := g.raiseFlags fl) (h := s.hart) moves.ix specs
  rw [vectorEnd, State_advance_hart, stepped, moves]
  rfl

/-- Results with no clamp to report are written from element 0 on, and the instruction ends. -/
theorem run_vectorOut {s : State} (clean : s.cleanVectors) (v : VShape) (dw w : Nat) (l : Elems) :
    vectorOut v dw w false l s = .ok ((), vectorEnd s (s.hart.writeElems (s.hart.regsOf w v.dst) dw l) l.flags
      (v.dst :: v.srcs.map (·.spec))) := by
  obtain ⟨-, -, start, split⟩ := clean
  rw [vectorOut, bind_ok (run_get s)]
  simp only [start, split, from_zero, quietGroups_nil, spoil_nil]
  rfl

/-- An operand of one register that passes the check of R178 names a register below NREGS. -/
theorem lt_nregs_of_specFails {h : Hart} {m : Mode} {w spec r : Nat} (ok : h.specFails m w spec = none)
    (one : h.regsOf w spec = .one r) : r < h.nregs := by
  rw [Hart.specFails, Hart.perLane] at ok
  rw [Hart.regsOf] at one
  by_cases direct : spec ≤ 47
  · obtain rfl : spec = r := by simpa [direct] using one
    simpa [Hart.regFails, direct, show ¬ 48 ≤ spec by omega] using ok
  · cases lane : ixLane (h.ixOf spec) with
    | true => simp [direct, lane] at one
    | false =>
      obtain rfl : ixBase (h.ixOf spec) + ixCur (h.ixOf spec) = r := by simpa [direct, lane] using one
      have within : ixBase (h.ixOf spec) + ixCur (h.ixOf spec) < h.nregs ∧
          ixBase (h.ixOf spec) + ixCur (h.ixOf spec) < ixBound (h.ixOf spec) := by
        simpa [Hart.regFails, direct, lane] using ok
      exact within.1

theorem clearReplies_eq (s : State) : s.clearReplies = { s with hart := { s.hart with replies := [] } } := by
  unfold State.clearReplies
  split
  next none => rw [← none]
  next => rfl

/-- Writing results and ending the instruction is what the statements about vector instructions ask for. -/
theorem vectorDone_vectorEnd {s : State} {d : Regs} (hd : ∀ r, d = .one r → r < s.hart.nregs) (w : Nat) (l : Elems)
    (specs : List Nat) :
    VectorDone s.clearReplies d w l specs (vectorEnd s (s.hart.writeElems d w l) l.flags specs).clearReplies := by
  have hart := vectorEnd_hart (writeElems_moves s.hart d w l) l.flags specs
  rw [clearReplies_eq, clearReplies_eq, hart]
  refine ⟨fun q e hq he => ?_, rfl, ?_, ⟨rfl, rfl, rfl, rfl, rfl, rfl, rfl⟩, rfl, rfl⟩
  · refine (getElt_writeElems s.hart d l hd hq he).trans ?_
    cases l.getD e none with
    | none => exact ite_self _
    | some v => rfl
  · exact (congrArg Hart.ix (stepIndices_eq (g := { s.hart with replies := [] }) (h := s.hart) rfl specs)).symm

/-! ## Quantisation (R93, R253, R255) -/

theorem toSigned_mod (w n : Nat) : toSigned w (n % 2 ^ w) = toSigned w n := by rw [toSigned, toSigned, Nat.mod_mod]

/-- A VQNT whose checks find nothing writes the codes of its blocks and then their scales (R253); its shape lists vb among the
operands that the checks speak of. -/
theorem exec_vqnt {s : State} {md : BitVec 2} {d a b : BitVec 6} {v : VShape}
    (shape : v = { plainShape typesF d [] with srcs := [.plain a, ⟨b.toNat, some 8, 8⟩], whole := true,
                                               apart := [(d.toNat, a.toNat), (d.toNat, b.toNat), (a.toNat, b.toNat)] })
    (ready : VectorReady s (.vqnt md d a b) md v) {blocks : List (Flagged × List Flagged)} {codes scales : Elems}
    (hblocks : blocks = quantBlocks (s.operands md v)) (hcodes : codes = (blocks.flatMap (·.2)).map some)
    (hscales : scales = blocks.map (fun q => some q.1)) :
    exec (.vqnt md d a b) s = .next (vectorEnd s
      ((s.hart.writeElems (s.hart.regsUpTo (s.mode md).width d.toNat (8 * blocks.length)) 4 codes).writeElems
        (s.hart.regsUpTo (s.mode md).width b.toNat (8 * blocks.length)) 8 scales)
      (codes.flags ||| scales.flags) [d.toNat, a.toNat, b.toNat]).clearReplies := by
  obtain ⟨-, -, start, split⟩ := ready.clean
  have reads := vectorIn_ready (srcs := [.plain a]) (outs := [b.toNat]) ready (by rw [shape]; rfl)
  have same : quantBlocks (s.operands md { v with srcs := [.plain a], outs := [b.toNat] }) = blocks := by
    rw [hblocks, shape]; rfl
  subst shape
  refine settle_ok ?_
  dsimp only [plainShape] at reads same
  rw [bind_ok reads, bind_ok (run_get s)]
  simp only [same, start, split, from_zero, quietGroups_nil, spoil_nil, hcodes, hscales, Nat.zero_div]
  rfl

/-- Settles O34: each instruction by its end when the checks find nothing. The byte that VQI8 adds is bits 32 to 39 of its
parameter, of which the statement takes the quotient by 2^32 (R255). -/
theorem quantisation : Obligations.Quantisation := by
  unfold Obligations.Quantisation
  refine ⟨?vqnt, ?vqi8⟩
  case vqnt =>
    rintro s md d a b v n codes scales g shape ready rfl hcodes hscales rfl
    refine ⟨_, exec_vqnt shape ready rfl hcodes hscales, ?_⟩
    rw [clearReplies_eq, vectorEnd_hart ((writeElems_moves ..).trans (writeElems_moves ..))]
    exact ⟨rfl, rfl, rfl, rfl, rfl, rfl⟩
  case vqi8 =>
    rintro s md d a b v x rfl ready rfl
    have reads := vectorIn_ready (outs := []) ready (List.append_nil _).symm
    have direct : ∀ r, s.hart.regsOf (s.mode md).width d.toNat = .one r → r < s.hart.nregs :=
      fun r => lt_nregs_of_specFails (ready.bounds d.toNat List.mem_cons_self)
    refine ⟨_, settle_ok ?_, vectorDone_vectorEnd direct 8 _ _⟩
    dsimp only [plainShape] at reads ⊢
    rw [bind_ok reads, bitsOf_eq_div_mod, bitsOf_eq_div_mod, Nat.pow_zero, Nat.div_one, toSigned_mod]
    exact run_vectorOut ready.clean ..

end Sys2Proof.Proofs
end

