-- ==== Sys2Proof/Proofs/CanonicalRules.lean ====
section
/-! SUPPORT. What keeping memory in its one form means for a sequence of steps: the rules of `KeepsM`, beside those of `Keeps`,
  and of an outcome that ends. -/

namespace Sys2Proof.Proofs
open Sys2Proof Sys2Proof.Machine Sys2Proof.Laws
-- one proof at a time: many at once need more thread stacks than the check's memory limit leaves
set_option Elab.async false

/-- Memory alone: bytes and marks in their one form. -/
def MemSys.canon (m : MemSys) : Prop := Memory.wf m.bytes = true ∧ m.poison.Pairwise (· < ·)

theorem canonical_iff (s : State) : s.canonical ↔ MemSys.canon s.mm := Iff.rfl

theorem canonical_foldl {α : Type} {f : State → α → State} {l : List α} {s : State} (h : s.canonical)
    (hf : ∀ t a, t.canonical → (f t a).canonical) : (l.foldl f s).canonical := foldl_keeps State.canonical f hf l s h

theorem foldl_mm {α : Type} {f : State → α → State} (hf : ∀ t a, (f t a).mm = t.mm) (l : List α) (s : State) :
    (l.foldl f s).mm = s.mm := foldl_keeps (fun t => t.mm = s.mm) f (fun t a h => (hf t a).trans h) l s rfl

/-- The state that a stopped instruction leaves. -/
def stopState : Stop → State
  | .trap t _ | .stall t | .taken t | .poison t _ _ => t

/-- From a state with `P` the steps end or stop in states with `P` only. -/
def KeepsM {α : Type} (P : State → Prop) (m : M α) : Prop :=
  ∀ s, P s → (∀ x t, m s = .ok (x, t) → P t) ∧ ∀ e, m s = .error e → P (stopState e)

/-- An outcome that is a next state has the property. -/
def Ends (P : State → Prop) (r : Host.Outcome State Machine.Fault Refusal) : Prop := ∀ t, r = .next t → P t

theorem ends_next {P : State → Prop} (t : State) : Ends P (.next t) ↔ P t := by grind [Ends]

section
variable {P : State → Prop} {α β γ : Type}
theorem keeps_get_of {f : State → A β} (hf : ∀ s, P s → Keeps P (f s)) : Keeps P ((get : A State) >>= f) :=
  fun s h => hf s h s h

theorem keeps_set {t : State} (h : P t) : Keeps P (set t : A PUnit) := fun s _ => set_keeps h s

theorem keepsM_pure (x : α) : KeepsM P (pure x : M α) := by
  intro s h
  exact ⟨fun y t e => by cases e; exact h, fun e h => by cases h⟩

theorem keepsM_bind {a : M α} {f : α → M β} (ha : KeepsM P a) (hf : ∀ x, KeepsM P (f x)) : KeepsM P (a >>= f) := by
  intro s h
  rw [run_bind]
  cases hr : a s with
  | error e => exact ⟨fun y t e' => by simp at e', fun e' he => by cases he; exact (ha s h).2 _ hr⟩
  | ok r => exact hf r.1 r.2 ((ha s h).1 r.1 r.2 hr)

theorem keepsM_get {f : State → M β} (hf : ∀ s, P s → KeepsM P (f s)) : KeepsM P ((get : M State) >>= f) :=
  fun s h => hf s h s h

theorem keepsM_set {t : State} (h : P t) : KeepsM P (set t : M PUnit) :=
  fun _ _ => ⟨fun _ _ e => by cases e; exact h, fun e h => by cases h⟩

theorem keepsM_modify {f : State → State} (hf : ∀ s, P s → P (f s)) : KeepsM P (modify f : M PUnit) :=
  fun s hs => ⟨fun _ _ e => by cases e; exact hf s hs, fun e h => by cases h⟩

theorem keepsM_stall : KeepsM P (M.stall : M α) := by grind [KeepsM, M.stall, stopState]

theorem keepsM_access {a : A α} (ha : Keeps P a) (fv : State → BitVec 8 → FaultVals) (elem : Nat) : KeepsM P (M.access fv elem a) := by
  intro s hs
  have h := ha s hs
  unfold M.access
  cases hr : a s with
  | ok r => grind
  | error e => cases e <;> grind [stopState]

theorem keepsM_scalar {a : A α} (ha : Keeps P a) (va : Word) : KeepsM P (M.scalar va a) := keepsM_access ha _ _

theorem keepsM_trap (v : FaultVals) : KeepsM P (M.trap v : M α) := by grind [KeepsM, M.trap, stopState]

theorem keepsM_cause (c : BitVec 8) (va st re : Word) : KeepsM P (M.cause c va st re : M α) := by grind [KeepsM, M.cause, stopState]

theorem keepsM_vcause (c : BitVec 8) (va st re : Word) : KeepsM P (M.vcause c va st re : M α) := by grind [KeepsM, M.vcause, stopState]

theorem keepsM_illegal (i : Instr) : KeepsM P (M.illegal i : M α) := by grind [KeepsM, M.illegal, stopState]

theorem keepsM_needPlanes (sc : BitVec 2) : KeepsM P (M.needPlanes sc) := by grind [KeepsM, M.needPlanes, stopState]

theorem keepsM_throw {f : State → Stop} (hf : ∀ t, P t → P (stopState (f t))) : KeepsM P (fun t => .error (f t) : M α) :=
  fun s h => ⟨fun _ _ e => (by cases e), fun _ e => (by cases e; exact hf s h)⟩

theorem keepsM_ite {c : Prop} [Decidable c] {a b : M α} (ha : KeepsM P a) (hb : KeepsM P b) : KeepsM P (if c then a else b) := by
  split
  · exact ha
  · exact hb

/-- `if c then m` before the rest `f` of the steps. -/
theorem keepsM_when {c : Prop} [Decidable c] {m : M Unit} {f : Unit → M β} (hm : KeepsM P m) (hf : ∀ y, KeepsM P (f y)) :
    KeepsM P (if c then m >>= f else f ()) := keepsM_ite (keepsM_bind hm hf) (hf ())

theorem keepsM_when_two {c : Prop} [Decidable c] {m : M γ} {n : γ → M Unit} {f : Unit → M β} (hm : KeepsM P m) (hn : ∀ y, KeepsM P (n y))
    (hf : ∀ y, KeepsM P (f y)) : KeepsM P (if c then m >>= fun y => n y >>= f else f ()) :=
  keepsM_ite (keepsM_bind hm fun y => keepsM_bind (hn y) hf) (hf ())

/-- `if c then let _ ← m` before the rest `k`. -/
theorem keepsM_first {c : Prop} [Decidable c] {m : M γ} {k : M β} (hm : KeepsM P m) (hk : KeepsM P k) :
    KeepsM P (if c then m >>= fun _ => k else k) := keepsM_ite (keepsM_bind hm fun _ => hk) hk

end

theorem keepsM_modify_mm {f : State → State} (hf : ∀ s, (f s).mm = s.mm) : KeepsM State.canonical (modify f : M PUnit) :=
  keepsM_modify fun s h => by rw [canonical_iff, hf]; exact h

theorem keepsM_set_mm {s t : State} (h : s.canonical) (e : t.mm = s.mm) : KeepsM State.canonical (set t : M PUnit) :=
  keepsM_set (by rw [canonical_iff, e]; exact h)

theorem ends_mm {s t : State} (e : t.mm = s.mm) (h : s.canonical) : Ends State.canonical (.next t) := by
  rw [ends_next, canonical_iff, e]
  exact h

end Sys2Proof.Proofs
end

