-- ==== Sys2Proof/Proofs/CanonicalHarts.lean ====
section
/-! SUPPORT. Harts, leagues, traps, losses and error records keep memory in its one form; so does an instruction that is settled. -/

namespace Sys2Proof.Proofs
open Sys2Proof Sys2Proof.Machine Sys2Proof.Laws
-- one proof at a time: many at once need more thread stacks than the check's memory limit leaves
set_option Elab.async false

theorem focusOn_mm (s : State) (uid : Nat) : (s.focusOn uid).mm = s.mm := by
  grind [State.focusOn]

theorem sendOn_mm (s : State) (came : Option ModuleId) (x1 : Txn) : (s.sendOn came x1).1.mm = s.mm := rfl

theorem onHarts_mm (s : State) (f : Hart → Hart) : (s.onHarts f).mm = s.mm := rfl

theorem spoilReads_mm (s : State) (die : Nat) (hit : Nat → Bool) : (s.spoilReads die hit).mm = s.mm := rfl

theorem canonical_dropL2 {s : State} (h : s.canonical) (p : L2Line → Bool) : (s.dropL2 p).canonical := by
  grind [State.dropL2, canonical_iff, MemSys.canon, canonical_foldl]

theorem pend_mm (s : State) (v : FaultVals) : (s.pend v).mm = s.mm := rfl

theorem onHart_mm (s : State) (uid : Nat) (f : Hart → Hart) : (s.onHart uid f).mm = s.mm := by
  grind [State.onHart]

theorem canonical_unpin {s : State} (h : s.canonical) (uid : Nat) : (s.unpin uid).canonical := by
  grind [State.unpin, canonical_mapL1]

theorem canonical_release {s : State} (h : s.canonical) (die core : Nat) (scope : BitVec 2) : (s.release die core scope).canonical := by
  grind [State.release, canonical_cleanL2]

theorem canonical_releaseArrivals {s : State} (h : s.canonical) (scope : BitVec 2) (uids : List Nat) :
    (s.releaseArrivals scope uids).canonical := by
  grind [State.releaseArrivals, canonical_cleanL2, canonical_release, canonical_iff, canonical_foldl]

theorem putLeague_mm (s : State) (l : League) : (s.putLeague l).mm = s.mm := rfl

theorem canonical_settlePhases (id : Nat) (n : BitVec 3) : ∀ (fuel : Nat) {s : State}, s.canonical → (s.settlePhases id n fuel).canonical
  | 0, _, h => h
  | fuel + 1, s, h => by
    have ih := @canonical_settlePhases id n fuel
    rw [State.settlePhases]
    grind [canonical_releaseArrivals, putLeague_mm, canonical_iff]

theorem canonical_settleLeague {s : State} (h : s.canonical) (id : Nat) : (s.settleLeague id).canonical := by
  grind [State.settleLeague, canonical_settlePhases, canonical_iff, canonical_foldl]

theorem canonical_leaveLeague {s : State} (h : s.canonical) (uid : Nat) : (s.leaveLeague uid).canonical := by
  grind [State.leaveLeague, putLeague_mm, canonical_settleLeague, onHart_mm, canonical_iff]

theorem canonical_dropFailed {s : State} (h : s.canonical) (qid : Nat) : (s.dropFailed qid).canonical := by
  grind [State.dropFailed, canonical_unmapQueue, canonical_serveMapWait]

theorem putSlot_mm (s : State) (t : Slot) : (s.putSlot t).mm = s.mm := rfl

theorem onEntry_mm (s : State) (qid idx : Nat) (f : Entry → Entry) : (s.onEntry qid idx f).mm = s.mm := by
  grind [State.onEntry, putSlot_mm]

theorem canonical_packetHartGone {s : State} (h : s.canonical) (qid idx : Nat) : (s.packetHartGone qid idx).canonical := by
  grind [State.packetHartGone, canonical_dropFailed, onEntry_mm, canonical_iff]

theorem canonical_freeHart {s : State} (h : s.canonical) (uid : Nat) (phase : Phase) : (s.freeHart uid phase).canonical := by
  grind [State.freeHart, canonical_unpin, canonical_leaveLeague, canonical_packetHartGone, onHart_mm, canonical_iff]

theorem closing_keeps {s : State} (h : s.canonical) :
    (∀ t, s.closing = .ok t → t.canonical) ∧ ∀ t, s.closing = .error t → t.canonical := by
  have := keeps_commitFurlong s h
  grind [State.closing, canonical_iff]

theorem canonical_endHart {s : State} (h : s.canonical) (v : FaultVals) : (s.endHart v).canonical := by
  have := closing_keeps h
  grind [State.endHart, canonical_failPacket, canonical_freeHart, pend_mm, canonical_iff]

theorem canonical_trapEntry {s : State} (h : s.canonical) (v : FaultVals) : (s.trapEntry v).canonical := by
  have := closing_keeps h
  grind [State.trapEntry, canonical_endHart, pend_mm, canonical_iff]

theorem canonical_raise {s : State} (h : s.canonical) (v : FaultVals) : (s.raise v).canonical := by
  grind [State.raise, canonical_trapEntry, canonical_iff]

theorem ends_execJalr {s : State} (h : s.canonical) (d a : BitVec 5) (i : BitVec 15) : Ends State.canonical (execJalr d a i s) := by
  grind [execJalr, State_setX_mm, canonical_raise, State_setPc_mm, ends_next, canonical_iff]

theorem branch_mm (s : State) (taken : Bool) (i : BitVec 15) : (s.branch taken i).mm = s.mm := by
  grind [State.branch, State_setPc_mm, State_advance_mm]

theorem rewind_mm (s : State) : (s.rewind).mm = s.mm := by
  grind [State.rewind]

theorem askRepair_mm (s : State) (p : Part) (spare : Option Nat) : (s.askRepair p spare).mm = s.mm := rfl

theorem canonical_mapIcache {s : State} (h : s.canonical) (f : List CoreLine → List CoreLine) : (s.mapIcache f).canonical := by
  grind [State.mapIcache, canonical_iff, MemSys.canon, canonical_foldl]

theorem askBank_mm (s : State) (bank : Nat) (l : List OrdReq) : (s.askBank bank l).mm = s.mm := rfl

theorem dissolveLeagues_mm (s : State) (asid : Nat) : (s.dissolveLeagues asid).mm = s.mm := rfl

theorem canonical_endJob {s : State} (h : s.canonical) (asid code : Nat) (record : Option (Nat × Nat)) :
    (s.endJob asid code record).canonical := by
  grind [State.endJob, canonical_putQcb, dissolveLeagues_mm, onHarts_mm, canonical_unmapQueue, canonical_serveMapWait,
    canonical_cleanL2, canonical_jobScrub, canonical_iff, canonical_foldl]

theorem canonical_endJobs {s : State} (h : s.canonical) (seq : Nat) (asids : List Nat) : (s.endJobs seq asids).canonical := by
  grind [State.endJobs, canonical_endJob, canonical_iff, canonical_foldl]

theorem countErr_mm (s : State) (die : Nat) : (s.countErr die).mm = s.mm := by
  grind [State.countErr]

theorem errorMessage_mm (s : State) (die : Nat) : (s.errorMessage die).mm = s.mm := by
  grind [State.errorMessage, countErr_mm]

theorem canonical_loseChannel {s : State} (h : s.canonical) (die c : Nat) : (s.loseChannel die c).canonical := by
  grind [State.loseChannel, errorMessage_mm, canonical_endJobs, canonical_iff]

theorem canonical_retireChannel {s : State} (h : s.canonical) (die c : Nat) : (s.retireChannel die c).1.canonical := by
  grind [State.retireChannel, canonical_loseChannel, askRepair_mm, canonical_iff]

theorem canonical_retireBank {s : State} (h : s.canonical) (b : Nat) : (s.retireBank b).1.canonical := by
  grind [State.retireBank, canonical_retireChannel, askRepair_mm, canonical_iff]

theorem canonical_retireRow {s : State} (h : s.canonical) (b row : Nat) : (s.retireRow b row).1.canonical := by
  grind [State.retireRow, canonical_retireBank, askRepair_mm, canonical_iff]

theorem canonical_retireColumn {s : State} (h : s.canonical) (b c : Nat) : (s.retireColumn b c).1.canonical := by
  grind [State.retireColumn, canonical_retireBank, askRepair_mm, canonical_iff]

theorem retireCore_mm (s : State) (die c : Nat) : (s.retireCore die c).1.mm = s.mm := by
  grind [State.retireCore, askRepair_mm]

theorem canonical_checkLimits {s : State} (h : s.canonical) (id : BitVec 32) : (s.checkLimits id).1.canonical := by
  unfold State.checkLimits
  dsimp only
  refine foldl_keeps (fun a : State × Nat => a.1.canonical) _ (fun a e ha => ?_) _ _ h
  grind [canonical_retireRow, canonical_retireColumn, canonical_retireChannel, retireCore_mm, canonical_iff]

theorem logEntry_mm (s : State) (die : Nat) (e : LogEntry) : (s.logEntry die e).mm = s.mm := by
  grind [State.logEntry]

theorem drainRecord_mm (s : State) (id : BitVec 32) (act : Nat) : (s.drainRecord id act).mm = s.mm := by
  grind [State.drainRecord, State_putErrBank_mm, logEntry_mm]

theorem drainBank_mm (s : State) (id : BitVec 32) (act : Nat) : (s.drainBank id act).mm = s.mm := by
  grind [State.drainBank, errorMessage_mm, drainRecord_mm]

theorem canonical_takeRecord {s : State} (h : s.canonical) (id : BitVec 32) (act : Option Nat) : (s.takeRecord id act).canonical := by
  grind [State.takeRecord, canonical_checkLimits, drainBank_mm, canonical_iff]

theorem bankError_mm (s : State) (id : BitVec 32) (uc psn : Bool) (kind : BitVec 8) (asid : Nat) (addr misc : Word)
    (site : optParam ErrSite ErrSite.nowhere) : (s.bankError id uc psn kind asid addr misc site).mm = s.mm := rfl

theorem canonical_flushBank {s : State} (h : s.canonical) (id : BitVec 32) : (s.flushBank id).canonical := by
  grind [State.flushBank, canonical_takeRecord, canonical_iff, canonical_foldl]

theorem canonical_logEvent {s : State} (h : s.canonical) (asid act : Nat) (id : BitVec 32) (kind : BitVec 8) (addr misc : Word) :
    (s.logEvent asid act id kind addr misc).canonical := by
  grind [State.logEvent, canonical_flushBank, canonical_takeRecord, bankError_mm, canonical_iff]

theorem canonical_logPoison {s : State} (h : s.canonical) (h1 : Hart) (act : Nat) : (s.logPoison h1 act).canonical := by
  grind [State.logPoison, canonical_takeRecord, canonical_logEvent]

theorem canonical_poisonEndsJob {s : State} (h : s.canonical) (h1 : Hart) : (s.poisonEndsJob h1).canonical := by
  grind [State.poisonEndsJob, canonical_logPoison, canonical_endJob]

theorem canonical_consumePoison {s : State} (h : s.canonical) (own : Bool) : (s.consumePoison own).canonical := by
  grind [State.consumePoison, canonical_poisonEndsJob, canonical_logPoison, rewind_mm, canonical_iff]

theorem ends_settle {m : M Unit} {s : State} (hm : KeepsM State.canonical m) (h : s.canonical) : Ends State.canonical (settle m s) := by
  have hr := hm s h
  unfold settle
  cases hs : m s with
  | ok r => grind [ends_next, State_clearReplies_mm, canonical_iff]
  | error e => cases e <;> grind [ends_next, stopState, canonical_raise, State_clearReplies_mm, State_hold_mm, canonical_consumePoison,
    canonical_iff]

end Sys2Proof.Proofs
end

