-- ==== Sys2Proof/Proofs/CanonicalScalar.lean ====
section
/-! SUPPORT. The scalar instructions keep memory in its one form. -/

namespace Sys2Proof.Proofs
open Sys2Proof Sys2Proof.Machine Sys2Proof.Laws
-- one proof at a time: many at once need more thread stacks than the check's memory limit leaves
set_option Elab.async false

theorem keepsM_result (d : BitVec 5) (v : Word) : KeepsM State.canonical (M.result d v) := by
  grind [M.result, State_result_mm, keepsM_bind, keepsM_get, keepsM_modify, canonical_iff]

theorem keepsM_scalarLoad (d a : BitVec 5) (r : BitVec 2) (i : BitVec 13) (size : Nat) (signed : Bool) :
    KeepsM State.canonical (scalarLoad d a r i size signed) := by
  grind [scalarLoad, keepsM_scalar, keeps_loadAt, keepsM_result, keepsM_bind, keepsM_get]

theorem dropWalk_mm (s : State) (id : Nat) : (s.dropWalk id).mm = s.mm := rfl

theorem keepsM_outcome {α : Type} {t : State} (h : t.canonical) (v : FaultVals) : KeepsM State.canonical (M.outcome t v : M α) :=
  fun _ _ => ⟨fun _ _ e => (by cases e), fun _ e => (by cases e; exact canonical_trapEntry h v)⟩

theorem keepsM_waitWalks (scope : Option (BitVec 2)) : KeepsM State.canonical (M.waitWalks scope) := by
  intro s h
  have ho : ∀ (w : Walk) v, (∀ x t, (M.outcome (s.dropWalk w.id) v : M Unit) s = .ok (x, t) → t.canonical) ∧
      ∀ e, (M.outcome (s.dropWalk w.id) v : M Unit) s = .error e → (stopState e).canonical := fun w v =>
    keepsM_outcome (by rw [canonical_iff, dropWalk_mm]; exact h) v s h
  have hd : ∀ id, (s.dropWalk id).canonical := fun id => by rw [canonical_iff, dropWalk_mm]; exact h
  unfold M.waitWalks
  split
  · exact ⟨fun _ _ e => (by cases e; exact h), fun _ e => (by cases e)⟩
  · split
    · dsimp only
      split
      · exact ⟨fun _ _ e => (by cases e), fun _ e => (by cases e; exact hd _)⟩
      · split <;> exact ho _ _
    · exact ⟨fun _ _ e => (by cases e), fun _ e => (by cases e; exact h)⟩

theorem canonical_inherit {s : State} (h : s.canonical) (die core : Nat) : (s.inherit die core).canonical := by
  grind [State.inherit, canonical_iff, MemSys.canon, canonical_foldl]

theorem canonical_bumpGen {s : State} (h : s.canonical) (die : Nat) : (s.bumpGen die).canonical := by
  grind [State.bumpGen, canonical_iff, MemSys.canon, canonical_foldl]

theorem canonical_acquire {s : State} (h : s.canonical) (die core : Nat) (scope : BitVec 2) : (s.acquire die core scope).canonical := by
  grind [State.acquire, canonical_inherit, canonical_cleanL2, canonical_dropL2, spoilReads_mm, canonical_bumpGen, canonical_mapL1,
    canonical_iff]

theorem canonical_acquireMine {s : State} (h : s.canonical) (scope : BitVec 2) : (s.acquireMine scope).canonical := by
  grind [State.acquireMine, canonical_acquire]

theorem keepsM_acquire (scope : BitVec 2) : KeepsM State.canonical (M.acquire scope) := by
  grind [M.acquire, canonical_acquireMine, keepsM_bind, keepsM_get, keepsM_modify, canonical_iff]

theorem ends_execLdacq {s : State} (h : s.canonical) (d a : BitVec 5) (r : BitVec 2) (o : BitVec 10) (sc : BitVec 2) :
    Ends State.canonical (execLdacq d a r o sc s) := by
  refine ends_settle ?_ h
  grind [keepsM_bind, keepsM_get, keepsM_scalar, keeps_classify, keepsM_cause, keeps_loadFrom, keepsM_acquire, keepsM_result,
    keepsM_waitWalks, keepsM_needPlanes]

theorem sendMulticast_mm (s : State) (uid pa value : Nat) : (s.sendMulticast uid pa value).mm = s.mm := by
  grind [State.sendMulticast, sendReq_mem]

theorem keepsM_advance : KeepsM State.canonical (M.advance) := by
  grind [M.advance, State_advance_mm, keepsM_bind, keepsM_get, keepsM_modify, canonical_iff]

theorem keepsM_scalarStore (b a : BitVec 5) (i : BitVec 15) (size : Nat) : KeepsM State.canonical (scalarStore b a i size) := by
  grind [scalarStore, keepsM_scalar, keepsM_advance, keeps_storeAt, keepsM_bind, keepsM_get]

theorem canonical_releaseMine {s : State} (h : s.canonical) (scope : BitVec 2) : (s.releaseMine scope).canonical := by
  grind [State.releaseMine, canonical_release]

theorem keepsM_release (scope : BitVec 2) : KeepsM State.canonical (M.release scope) := by
  grind [M.release, keepsM_stall, keepsM_needPlanes, canonical_releaseMine, keepsM_bind, keepsM_get, keepsM_set, keepsM_modify,
    keepsM_pure, canonical_iff, MemSys.canon, canonical_foldl]

theorem canonical_shown {s : State} (h : s.canonical) (die : Nat) (w : Window) (scope : BitVec 2) : (s.shown die w scope).canonical := by
  unfold State.shown
  grind [canonical_cleanL2]

theorem ends_execSdrel {s : State} (h : s.canonical) (b a : BitVec 5) (o : BitVec 12) (sc : BitVec 2) :
    Ends State.canonical (execSdrel b a o sc s) := by
  refine ends_settle (keepsM_get fun t _ => ?_) h
  grind [keepsM_scalar, keeps_storeLine, keepsM_bind, keepsM_modify, canonical_shown, keeps_classify, keepsM_release, keepsM_advance,
    keepsM_cause]

theorem ends_execLdref {s : State} (h : s.canonical) (d a : BitVec 5) (r : BitVec 2) (o : BitVec 10) (q : BitVec 1) (sc : BitVec 2) :
    Ends State.canonical (execLdref d a r o q sc s) := by
  refine ends_settle ?_ h
  grind [keepsM_scalar, keepsM_bind, keepsM_get, keeps_classify, keepsM_needPlanes, keepsM_illegal, keepsM_waitWalks, keepsM_result,
    keepsM_acquire, keeps_loadFrom, keepsM_cause]

theorem canonical_homeWord {s : State} (h : s.canonical) (space pa : Nat) : (s.homeWord space pa).1.canonical := by
  grind [State.homeWord, canonical_homeRead, canonical_gather]

theorem keeps_readHeader (who : Who) (va : Word) : Keeps State.canonical (readHeader who va) := by
  unfold readHeader
  refine keeps_bind (keeps_classify _ _ _ _) fun w => ?_
  cases w.isReach <;> cases w.pa <;>
    grind [keeps_bind, keeps_get_of, keeps_set, keeps_needWay, keeps_fault, keeps_poison, keeps_pure, canonical_homeWord, canonical_cross]

theorem keepsM_refChecks (c v : Word) (o : BitVec 12) : KeepsM State.canonical (refChecks c v o) := by
  grind [refChecks, keepsM_scalar, keeps_readHeader, keeps_classify, keeps_loadFrom, keepsM_cause, keepsM_bind, keepsM_get, keepsM_set,
    keepsM_modify, keepsM_pure, canonical_iff, MemSys.canon, canonical_foldl]

theorem ends_execSdref {s : State} (h : s.canonical) (b a : BitVec 5) (o : BitVec 12) : Ends State.canonical (execSdref b a o s) := by
  grind [execSdref, keepsM_scalar, keeps_storeLine, ends_settle, keepsM_refChecks, keepsM_waitWalks, keepsM_advance, keepsM_cause,
    keepsM_bind, keepsM_get]

theorem keepsM_fork : KeepsM State.canonical (M.fork) := by
  grind [M.fork, keepsM_stall, keepsM_bind, keepsM_get, keepsM_set, keepsM_modify, keepsM_pure, canonical_iff, MemSys.canon,
    canonical_foldl]

theorem ends_execSpub {s : State} (h : s.canonical) (b a : BitVec 5) (o : BitVec 12) (sc : BitVec 2) :
    Ends State.canonical (execSpub b a o sc s) := by
  refine ends_settle (keepsM_ite (keepsM_illegal _) (keepsM_bind (keepsM_waitWalks _) fun _ => keepsM_get fun t _ => ?_)) h
  refine keepsM_bind (keepsM_refChecks _ _ _) fun r => keepsM_ite (keepsM_cause _ _ _ _) (keepsM_bind keepsM_fork fun _ => ?_)
  exact keepsM_bind (keepsM_modify_mm fun _ => rfl) fun _ => keepsM_advance

theorem ends_execRtag {s : State} (h : s.canonical) (d a : BitVec 5) (i : BitVec 15) : Ends State.canonical (execRtag d a i s) := by
  grind [execRtag, keepsM_scalar, ends_settle, keeps_classify, keepsM_result, keeps_loadFrom, keepsM_cause, keepsM_bind, keepsM_get]

theorem keepsM_checkReach (who : Who) (stop : Nat) : ∀ fuel va, KeepsM State.canonical (checkReach who stop fuel va)
  | 0, _ => keepsM_pure _
  | fuel + 1, va => by
    have ih := keepsM_checkReach who stop fuel
    unfold checkReach
    grind [keepsM_bind, keepsM_scalar, keeps_classify, keepsM_cause, keepsM_pure]

theorem keeps_initLine (who : Who) (start stop line : Nat) (header : Word) :
    Keeps State.canonical (initLine who start stop line header) := by
  unfold initLine
  refine keeps_bind (keeps_classify _ _ _ _) fun w => ?_
  grind [keeps_bind, keeps_modify, keeps_fault, keeps_fetchHome, keeps_writeHome, keeps_writeCached, canonical_putL2, canonical_mapL1]

theorem keeps_initLines (who : Who) (start stop : Nat) (header : Word) :
    ∀ n line, Keeps State.canonical (initLines who start stop header n line)
  | 0, _ => keeps_pure _
  | n + 1, line => keeps_bind (keeps_initLine _ _ _ _ _) fun _ => keeps_initLines who start stop header n (line + 1)

theorem ends_execObjinit {s : State} (h : s.canonical) (b a : BitVec 5) (i : BitVec 15) : Ends State.canonical (execObjinit b a i s) := by
  grind [execObjinit, keepsM_scalar, ends_settle, keepsM_checkReach, keeps_classify, keeps_initLines, keepsM_advance, keepsM_cause,
    keepsM_bind, keepsM_get]

theorem canonical_bringHome {s : State} (h : s.canonical) (who : Who) (va : Word) (ln : Nat) (leaf : Option Word) :
    (s.bringHome who va ln leaf).canonical := by
  unfold State.bringHome
  grind [canonical_homeRead, canonical_fillL2]

theorem keeps_atomicAt (who : Who) (va : Word) (pa : Nat) (leaf : Option Word) (op : BitVec 4) (operand expected : Word) (attr : Nat) :
    Keeps State.canonical (atomicAt who va pa leaf op operand expected attr) := by
  grind [atomicAt, keeps_needVictim, keeps_needWay, canonical_dropCopies, canonical_atomicHome, keeps_poison, keeps_askRemote,
    canonical_bringHome, canonical_gather, keeps_bind, keeps_get_of, keeps_set, keeps_modify, keeps_pure, canonical_iff, MemSys.canon,
    canonical_foldl]

theorem keepsM_scalarAtomic (i : Instr) (op : BitVec 4) (d a b : BitVec 5) (ms l q : BitVec 1) (sc : BitVec 2) :
    KeepsM State.canonical (scalarAtomic i op d a b ms l q sc) := by
  unfold scalarAtomic
  refine keepsM_ite (keepsM_illegal _) (keepsM_when_two (keepsM_waitWalks _) (fun _ => keepsM_needPlanes _) fun _ =>
    keepsM_get fun t _ => ?_)
  refine keepsM_bind (keepsM_scalar (keeps_classify _ _ _ _) _) fun w => ?_
  split
  · exact keepsM_cause _ _ _ _
  · refine keepsM_ite (keepsM_cause _ _ _ _) (keepsM_when (keepsM_modify_mm fun _ => rfl) fun _ =>
    keepsM_when (keepsM_release _) fun _ => ?_)
    refine keepsM_bind (keepsM_scalar (keeps_atomicAt _ _ _ _ _ _ _ _) _) fun old => ?_
    exact keepsM_when (keepsM_modify fun _ ht => canonical_shown ht _ _ _) fun _ => keepsM_when (keepsM_acquire _) fun _ =>
      keepsM_result _ _

theorem keepsM_gatherBody (who : Who) (alrb : Word) : ∀ fuel k, KeepsM State.canonical (gatherBody who alrb fuel k)
  | 0, _ => keepsM_pure _
  | fuel + 1, k => by
    have ih := keepsM_gatherBody who alrb fuel
    unfold gatherBody
    refine keepsM_bind (keepsM_scalar (keeps_fetchWord _ _) _) fun w => ?_
    grind [keepsM_bind, keepsM_pure]

theorem keepsM_regionCause {α : Type} (alrb : Word) (k : Nat) : KeepsM State.canonical (regionCause alrb k : M α) := by
  grind [regionCause, KeepsM, stopState]

theorem ends_execAlrb {s : State} (h : s.canonical) : Ends State.canonical (execAlrb s) := by
  refine ends_settle (keepsM_get fun t _ => keepsM_bind (keepsM_gatherBody _ _ _ _) fun g => ?_) h
  split
  · exact keepsM_regionCause _ _
  · refine keepsM_ite (keepsM_regionCause _ _) ?_
    split
    · exact keepsM_regionCause _ _
    · refine keepsM_ite (keepsM_cause _ _ _ _) (keepsM_bind (keepsM_scalar (keeps_classify _ _ _ _) _) fun w => ?_)
      refine keepsM_first (keepsM_scalar (keeps_classify _ _ _ _) _) ?_
      dsimp only
      split
      · exact keepsM_cause _ _ _ _
      · exact keepsM_get fun u _ => keepsM_ite (keepsM_cause _ _ _ _) (keepsM_modify_mm fun v => by grind)

theorem canonical_regionHome {s : State} (h : s.canonical) (space pa line : Nat) (memSide : Bool) (core : Option Nat)
    (x1 : Vector Word 32) (body : List Instr) : (s.regionHome space pa line memSide core x1 body).1.canonical := by
  grind [State.regionHome, canonical_serveWrite, canonical_dropCopies, canonical_gather]

theorem keeps_regionAt (who : Who) (r : Region) (leaf : Option Word) (attr : Nat) : Keeps State.canonical (regionAt who r leaf attr) := by
  unfold regionAt
  refine keeps_get_of fun s h => ?_
  dsimp only
  split
  · have h1 := canonical_bringHome (canonical_gather h (r.pa / 128) leaf.isNone) who (BitVec.ofNat 64 (r.line * 128)) (r.pa / 128) leaf
    have h2 := canonical_regionHome h1 (spaceOf who.asid (BitVec.ofNat 64 (r.line * 128))) r.pa r.line leaf.isNone
      (who.coreAt (r.pa / 128)) s.hart.x (bodyInstrs r.body)
    refine keeps_bind (keeps_needWay _ _) fun _ => keeps_bind (keeps_needVictim _ _ _) fun _ => ?_
    grind [keeps_bind, keeps_set, keeps_pure, canonical_dropCopies]
  · refine keeps_bind (keeps_askRemote _ _) fun p => keeps_get_of fun t ht => ?_
    refine keeps_bind (keeps_set (canonical_dropCopies ht _ _)) fun _ => ?_
    split <;> simp only [keeps_pure, keeps_bind, implies_true]

theorem ends_runRegion {s : State} (h : s.canonical) (l q : BitVec 1) (sc : BitVec 2) : Ends State.canonical (s.runRegion l q sc) := by
  refine ends_settle (keepsM_ite (keepsM_illegal _) (keepsM_get fun t _ => ?_)) h
  split
  · exact keepsM_cause _ _ _ _
  · refine keepsM_when_two (keepsM_waitWalks _) (fun _ => keepsM_needPlanes _) fun _ => keepsM_when (keepsM_release _) fun _ => ?_
    refine keepsM_bind (keepsM_access (keeps_classify _ _ _ _) _ _) fun w =>
      keepsM_bind (keepsM_access (keeps_regionAt _ _ _ _) _ _) fun r => ?_
    split
    · exact keepsM_throw fun _ => id
    · exact keepsM_regionCause _ _
    · refine keepsM_ite (keepsM_throw fun _ => id) (keepsM_when (keepsM_modify fun _ ht => canonical_shown ht _ _ _) fun _ => ?_)
      exact keepsM_when (keepsM_acquire _) fun _ => keepsM_modify_mm fun _ => State_setPc_mm _ _

theorem sendMarkers_mm (s : State) (uid : Nat) : (s.sendMarkers uid).mm = s.mm :=
  foldl_mm (fun t a => by grind [sendReq_mem]) _ s

theorem ends_execFence {s : State} (h : s.canonical) (k : BitVec 3) (sc : BitVec 2) : Ends State.canonical (execFence k sc s) := by
  refine ends_settle ?_ h
  grind [keepsM_stall, keepsM_bind, keepsM_get, keepsM_set_mm, keepsM_modify, keepsM_needPlanes, canonical_releaseMine, keepsM_illegal,
    keepsM_waitWalks, keepsM_acquire, keepsM_advance, sendMarkers_mm]

theorem keepsM_barrierCause {α : Type} (n : BitVec 3) : KeepsM State.canonical (barrierCause n : M α) := keepsM_cause _ _ _ _

theorem ends_execBinit {s : State} (h : s.canonical) (n : BitVec 3) : Ends State.canonical (execBinit n s) := by
  grind [execBinit, ends_settle, keepsM_bind, keepsM_get, keepsM_set, keepsM_modify, keepsM_pure, keepsM_barrierCause, keepsM_advance,
    canonical_iff, MemSys.canon, canonical_foldl, ends_next]

theorem canonical_arrive {s : State} (h : s.canonical) (l : League) (n : BitVec 3) (m : Member) : (s.arrive l n m).canonical := by
  grind [State.arrive, putLeague_mm, canonical_settlePhases, canonical_iff]

theorem ends_execBarr {s : State} (h : s.canonical) (d : BitVec 5) (n : BitVec 3) : Ends State.canonical (execBarr d n s) := by
  refine ends_settle (keepsM_bind (keepsM_waitWalks _) fun _ => keepsM_get fun t _ => ?_) h
  split
  · exact keepsM_barrierCause n
  · exact keepsM_get fun u _ => keepsM_ite keepsM_stall
      (keepsM_bind (keepsM_modify fun _ ht => canonical_arrive ht _ _ _) fun _ => keepsM_result _ _)

theorem ends_execBwait {s : State} (h : s.canonical) (a : BitVec 5) (n : BitVec 3) : Ends State.canonical (execBwait a n s) := by
  refine ends_settle (keepsM_get fun t _ => ?_) h
  split
  · exact keepsM_barrierCause n
  · refine keepsM_get fun u _ => keepsM_ite ?_ (keepsM_throw fun _ => id)
    exact keepsM_bind (keepsM_waitWalks _) fun _ => keepsM_bind (keepsM_needPlanes _) fun _ => keepsM_bind (keepsM_acquire _) fun _ =>
      keepsM_bind (keepsM_modify_mm fun _ => rfl) fun _ => keepsM_advance

theorem join_mm (s : State) (id : Nat) : (s.join id).mm = s.mm := rfl

theorem ends_execLjoin {s : State} (h : s.canonical) (d a : BitVec 5) : Ends State.canonical (execLjoin d a s) := by
  grind [execLjoin, join_mm, State_result_mm, ends_next, canonical_iff]

theorem keepsM_waitCopies (k : Option (BitVec 4)) : KeepsM State.canonical (M.waitCopies k) := by
  grind [M.waitCopies, M.outcome, KeepsM, stopState, canonical_trapEntry, canonical_iff]

theorem ends_execWaitc {s : State} (h : s.canonical) (d a : BitVec 5) (k : BitVec 4) : Ends State.canonical (execWaitc d a k s) := by
  grind [execWaitc, keepsM_waitCopies, keepsM_stall, ends_settle, keepsM_result, keepsM_bind, keepsM_get]

theorem ends_execSpalloc {s : State} (h : s.canonical) (d a : BitVec 5) : Ends State.canonical (execSpalloc d a s) := by
  refine ends_settle ?_ h
  grind [keepsM_stall, keepsM_bind, keepsM_get, keepsM_modify, keepsM_result, canonical_mapL1, keepsM_cause, canonical_iff]

theorem ends_execSpfree {s : State} (h : s.canonical) (a : BitVec 5) : Ends State.canonical (execSpfree a s) := by
  refine ends_settle ?_ h
  grind [keepsM_stall, keepsM_bind, keepsM_get, keepsM_modify, keepsM_advance, canonical_mapL1, keepsM_cause, canonical_iff]

theorem ends_execEret {s : State} (h : s.canonical) : Ends State.canonical (execEret s) := by
  grind [execEret, canonical_raise, State_trapReturn_mm, ends_next, canonical_iff]

theorem abandon_mm (s : State) (uid : Nat) : (s.abandon uid).mm = s.mm := by
  grind [State.abandon, onHart_mm]

theorem canonical_preempt {s : State} (h : s.canonical) (uid : Nat) : (s.preempt uid).canonical := by
  have := fun u => @closing_keeps (s.focusOn u)
  grind [State.preempt, focusOn_mm, abandon_mm, canonical_release, canonical_unpin, onHart_mm, canonical_iff]

theorem canonical_preemptNow {s : State} (h : s.canonical) (uid : Nat) : (s.preemptNow uid).canonical := by
  grind [State.preemptNow, canonical_preempt, onHart_mm, canonical_iff]

theorem ends_execYield {s : State} (h : s.canonical) : Ends State.canonical (execYield s) := by
  grind [execYield, canonical_preemptNow, State_advance_mm, ends_next, canonical_iff]

theorem keepsM_waitAll : KeepsM State.canonical (M.waitAll) := by
  grind [M.waitAll, keepsM_waitCopies, keepsM_waitWalks, keepsM_bind, keepsM_get]

theorem ends_execHalt {s : State} (h : s.canonical) : Ends State.canonical (execHalt s) := by
  grind [execHalt, ends_settle, canonical_freeHart, keepsM_waitAll, keepsM_bind, keepsM_get, keepsM_modify, canonical_iff]

theorem keepsM_csrAccess (i : Instr) (d : BitVec 5) (n : BitVec 12) (new : Option (Word → Word)) :
    KeepsM State.canonical (csrAccess i d n new) := by
  grind [csrAccess, keepsM_stall, State_result_mm, State_writeCsr_mm, keepsM_illegal, keepsM_cause, keepsM_bind, keepsM_get,
    keepsM_set, keepsM_modify, keepsM_pure, canonical_iff, MemSys.canon, canonical_foldl]

end Sys2Proof.Proofs
end

