-- ==== Sys2Proof/Proofs/CanonicalVector.lean ====
section
/-! SUPPORT. The vector, matrix and bank-command instructions keep memory in its one form. -/

namespace Sys2Proof.Proofs
open Sys2Proof Sys2Proof.Machine Sys2Proof.Laws
-- one proof at a time: many at once need more thread stacks than the check's memory limit leaves
set_option Elab.async false

theorem keepsM_commit : KeepsM State.canonical M.commit := by
  intro s h
  have hk := keeps_commitFurlong s h
  unfold M.commit
  grind [stopState, canonical_iff]

theorem ends_execVsetl {s : State} (h : s.canonical) (d a b : BitVec 5) : Ends State.canonical (execVsetl d a b s) := by
  grind [execVsetl, keepsM_commit, ends_settle, State_advance_mm, keepsM_bind, keepsM_get, keepsM_modify, canonical_iff]

theorem ends_execVdecl {s : State} (h : s.canonical) (d a : BitVec 5) : Ends State.canonical (execVdecl d a s) := by
  grind [execVdecl, State_result_mm, State_hold_mm, ends_next, canonical_iff]

theorem ends_execVmode {s : State} (h : s.canonical) (m : BitVec 2) (d a : BitVec 5) : Ends State.canonical (execVmode m d a s) := by
  grind [execVmode, State_result_mm, canonical_raise, ends_next, canonical_iff]

theorem keepsM_commitVector (specs : List Nat) (fl : BitVec 6) : KeepsM State.canonical (commitVector specs fl) := by
  grind [commitVector, State_advance_mm, keepsM_bind, keepsM_get, keepsM_modify, canonical_iff]

theorem keepsM_consume (l : Poisons) : KeepsM State.canonical (M.consume l) := by
  unfold M.consume
  grind [KeepsM, stopState]

theorem ends_execVmvx {s : State} (h : s.canonical) (m : BitVec 2) (d : BitVec 5) (v : BitVec 6) (b : BitVec 5) :
    Ends State.canonical (execVmvx m d v b s) := by
  refine ends_settle (keepsM_get fun t _ => ?_) h
  dsimp only
  split
  · exact keepsM_vcause _ _ _ _
  · exact keepsM_when (keepsM_consume _) fun _ => keepsM_bind (keepsM_modify_mm fun _ => rfl) fun _ => keepsM_commitVector _ _

theorem keepsM_checkRegs (m : Mode) (w : Nat) (specs : List Nat) : KeepsM State.canonical (checkRegs m w specs) := by
  grind [checkRegs, keepsM_vcause, keepsM_bind, keepsM_get, keepsM_set, keepsM_modify, keepsM_pure, canonical_iff, MemSys.canon,
    canonical_foldl]

theorem keepsM_vectorIn (i : Instr) (md : BitVec 2) (v : VShape) : KeepsM State.canonical (vectorIn i md v) := by
  grind [vectorIn, keepsM_checkRegs, keepsM_consume, keepsM_illegal, keepsM_bind, keepsM_get, keepsM_set, keepsM_modify, keepsM_pure,
    canonical_iff, MemSys.canon, canonical_foldl]

theorem keepsM_satTrap (at' : Option Nat) : KeepsM State.canonical (satTrap at') := by
  unfold satTrap
  grind [KeepsM, stopState]

theorem keepsM_vectorOut (v : VShape) (dw w : Nat) (sat : Bool) (l : Elems) : KeepsM State.canonical (vectorOut v dw w sat l) := by
  grind [vectorOut, keepsM_satTrap, keepsM_commitVector, keepsM_bind, keepsM_get, keepsM_modify, canonical_iff]

theorem keepsM_vectorOp (i : Instr) (md : BitVec 2) (v : VShape) (body : VIn → Elems) :
    KeepsM State.canonical (vectorOp i md v body) := by
  grind [vectorOp, keepsM_vectorOut, keepsM_vectorIn, keepsM_bind, keepsM_get]

theorem keepsM_vectorCompare (i : Instr) (k : Nat) (md : BitVec 2) (d a b : BitVec 6) :
    KeepsM State.canonical (vectorCompare i k md d a b) := by
  grind [vectorCompare, keepsM_vectorIn, keepsM_commitVector, keepsM_bind, keepsM_get, keepsM_modify, canonical_iff]

theorem ends_execVqnt {s : State} (h : s.canonical) (m : BitVec 2) (d a b : BitVec 6) : Ends State.canonical (execVqnt m d a b s) := by
  grind [execVqnt, ends_settle, keepsM_vectorIn, keepsM_commitVector, keepsM_bind, keepsM_get, keepsM_modify, canonical_iff]

theorem ends_execVqi8 {s : State} (h : s.canonical) (m : BitVec 2) (d a b : BitVec 6) : Ends State.canonical (execVqi8 m d a b s) := by
  grind [execVqi8, keepsM_vectorOut, ends_settle, keepsM_vectorIn, keepsM_bind, keepsM_get]

theorem keepsM_vectorReduce (i : Instr) (md : BitVec 2) (types : Nat → Bool) (d a : BitVec 6) (empty : Mode → Nat)
    (f : Mode → Nat → Nat → Flagged) : KeepsM State.canonical (vectorReduce i md types d a empty f) := by
  grind [vectorReduce, keepsM_vectorOut, keepsM_vectorIn, keepsM_bind, keepsM_get]

theorem keepsM_maskIn (i : Instr) (srcs : List (BitVec 6)) : KeepsM State.canonical (maskIn i srcs) := by
  grind [maskIn, keepsM_consume, keepsM_illegal, keepsM_bind, keepsM_get, keepsM_set, keepsM_modify, keepsM_pure, canonical_iff,
    MemSys.canon, canonical_foldl]

theorem keepsM_maskOp (i : Instr) (d : BitVec 6) (srcs : List (BitVec 6)) (f : Hart → Nat → Bool) :
    KeepsM State.canonical (maskOp i d srcs f) := by
  grind [maskOp, keepsM_maskIn, keepsM_commitVector, keepsM_bind, keepsM_get, keepsM_modify, canonical_iff]

theorem ends_execMpop {s : State} (h : s.canonical) (m : BitVec 2) (d : BitVec 5) (a : BitVec 6) :
    Ends State.canonical (execMpop m d a s) := by
  grind [execMpop, keepsM_maskIn, ends_settle, keepsM_result, keepsM_bind, keepsM_get]

theorem ends_execMfirst {s : State} (h : s.canonical) (m : BitVec 2) (d : BitVec 5) (a : BitVec 6) :
    Ends State.canonical (execMfirst m d a s) := by
  grind [execMfirst, keepsM_maskIn, ends_settle, keepsM_result, keepsM_bind, keepsM_get]

theorem ends_execMsetvl {s : State} (h : s.canonical) (m : BitVec 2) (d : BitVec 5) (a : BitVec 6) :
    Ends State.canonical (execMsetvl m d a s) := by
  grind [execMsetvl, keepsM_maskIn, ends_settle, keepsM_result, keepsM_bind, keepsM_get, keepsM_modify, canonical_iff]

theorem keepsM_checkRun (d : BitVec 6) (nf : Nat) : KeepsM State.canonical (checkRun d nf) := by
  grind [checkRun, keepsM_vcause, keepsM_bind, keepsM_get, keepsM_set, keepsM_modify, keepsM_pure, canonical_iff, MemSys.canon,
    canonical_foldl]

theorem keepsM_vmemIn (i : Instr) (md : BitVec 2) (d : BitVec 6) (a : BitVec 5) (form : VForm) :
    KeepsM State.canonical (vmemIn i md d a form) := by
  unfold vmemIn
  refine keepsM_get fun s h => ?_
  grind [keepsM_illegal, keepsM_bind, keepsM_checkRun, keepsM_checkRegs, keepsM_pure]

theorem keepsM_vmemOut (x1 : VMem) (load : Bool) (d : BitVec 6) (form : VForm) : KeepsM State.canonical (vmemOut x1 load d form) := by
  grind [vmemOut, keepsM_commitVector, keepsM_bind, keepsM_get, keepsM_modify, canonical_iff]

theorem keepsM_atElem (x1 : VMem) (load : Bool) (e : Nat) : KeepsM State.canonical (M.atElem x1 load e) := by
  grind [M.atElem, keepsM_bind, keepsM_get, keepsM_modify, canonical_iff]

theorem keepsM_loadNibbles (x : VMem) (who : Who) (rd : Nat) : ∀ l, KeepsM State.canonical (loadNibbles x who rd l)
  | [] => keepsM_pure _
  | i :: is => by
    have ih := keepsM_loadNibbles x who rd is
    unfold loadNibbles
    grind [keepsM_bind, keepsM_modify, keepsM_pure, keepsM_access, keeps_loadAt, keepsM_atElem, canonical_iff]

theorem keepsM_checkFields (x : VMem) (who : Who) (acc : Access) (e : Nat) : ∀ l, KeepsM State.canonical (checkFields x who acc e l)
  | [] => keepsM_pure _
  | f :: fs => by
    have ih := keepsM_checkFields x who acc e fs
    unfold checkFields
    grind [keepsM_bind, keepsM_access, keeps_classify]

theorem keepsM_loadFields (x : VMem) (who : Who) (rd e : Nat) : ∀ l, KeepsM State.canonical (loadFields x who rd e l)
  | [] => keepsM_pure _
  | f :: fs => by
    have ih := keepsM_loadFields x who rd e fs
    unfold loadFields
    grind [keepsM_bind, keepsM_access, keeps_loadAt, keepsM_modify, canonical_iff]

theorem keepsM_loadElems (x : VMem) (who : Who) (rd : Nat) : ∀ l, KeepsM State.canonical (loadElems x who rd l)
  | [] => keepsM_pure _
  | e :: es => by
    have ih := keepsM_loadElems x who rd es
    unfold loadElems
    grind [keepsM_bind, keepsM_atElem, keepsM_checkFields, keepsM_loadFields, keepsM_modify, keepsM_pure, canonical_iff]

theorem keepsM_vload (i : Instr) (md : BitVec 2) (d : BitVec 6) (a : BitVec 5) (r : BitVec 2) (form : VForm) :
    KeepsM State.canonical (vload i md d a r form) := by
  grind [vload, keepsM_consume, keepsM_loadNibbles, keepsM_loadElems, keepsM_vmemOut, keepsM_vmemIn, keepsM_bind, keepsM_get]

theorem keepsM_forM {α : Type} {f : α → M Unit} (hf : ∀ a, KeepsM State.canonical (f a)) : ∀ l : List α, KeepsM State.canonical (l.forM f)
  | [] => keepsM_pure _
  | a :: l => keepsM_bind (hf a) fun _ => keepsM_forM hf l

theorem keepsM_Pieces_together {α : Type} {p : Pieces α} (hp : ∀ k, KeepsM State.canonical (p.check k)) (who : Who) (k : α) (l : List α) :
    KeepsM State.canonical (p.together who k l) := by
  intro s h
  have h1 := keepsM_forM hp l s h
  have h2 := fun t ht => keeps_classify who (p.addr k) 32 .store t ht
  unfold Pieces.together
  grind [stopState]

theorem keepsM_storePieces {α : Type} {p : Pieces α} (hp : ∀ k, KeepsM State.canonical (p.check k)) (who : Who) :
    ∀ (skip : Nat) (l : List α), KeepsM State.canonical (storePieces p who skip l)
  | 0, [] | _ + 1, [] => keepsM_pure _
  | skip + 1, _ :: l => keepsM_storePieces hp who skip l
  | 0, k :: l => by
    have ih := fun n => keepsM_storePieces hp who n l
    unfold storePieces
    grind [keepsM_bind, keepsM_get, keepsM_modify, keepsM_access, keeps_storeAt, keepsM_Pieces_together, canonical_iff]

theorem keepsM_storeNibbles (x : VMem) (who : Who) (is : List Nat) : KeepsM State.canonical (storeNibbles x who is) :=
  keepsM_storePieces (fun _ => keepsM_bind (keepsM_access (keeps_classify _ _ _ _) _ _) fun _ => keepsM_pure _) who 0 is

theorem keepsM_storeElems (x : VMem) (who : Who) (es : List Nat) : KeepsM State.canonical (storeElems x who es) := by
  refine keepsM_storePieces (fun k => ?_) who 0 _
  dsimp only [VMem.pieces]
  split
  · exact keepsM_checkFields _ _ _ _ _
  · exact keepsM_pure _

theorem keepsM_vstore (i : Instr) (md : BitVec 2) (d : BitVec 6) (a : BitVec 5) (form : VForm) :
    KeepsM State.canonical (vstore i md d a form) := by
  grind [vstore, keepsM_storeElems, keepsM_storeNibbles, keepsM_consume, keepsM_vmemOut, keepsM_vmemIn, keepsM_bind, keepsM_get]

theorem keepsM_matrixIdle : KeepsM State.canonical (M.matrixIdle) := by
  grind [M.matrixIdle, keepsM_stall, keepsM_bind, keepsM_get, keepsM_set, keepsM_modify, keepsM_pure, canonical_iff, MemSys.canon,
    canonical_foldl]

theorem ends_execMmode {s : State} (h : s.canonical) (d a : BitVec 5) : Ends State.canonical (execMmode d a s) := by
  grind [execMmode, ends_settle, keepsM_vcause, keepsM_illegal, keepsM_result, keepsM_matrixIdle, keepsM_bind, keepsM_get,
    keepsM_modify, canonical_iff]

theorem keepsM_tile (n : BitVec 3) : KeepsM State.canonical (M.tile n) := by
  grind [M.tile, keepsM_vcause, keepsM_bind, keepsM_get, keepsM_set, keepsM_modify, keepsM_pure, canonical_iff, MemSys.canon,
    canonical_foldl]

theorem keepsM_handOff (op : MatOp) : KeepsM State.canonical (M.handOff op) := by
  grind [M.handOff, keepsM_stall, keepsM_bind, keepsM_get, keepsM_set, keepsM_modify, keepsM_pure, canonical_iff, MemSys.canon,
    canonical_foldl]

theorem ends_execOpa {s : State} (h : s.canonical) (m : BitVec 2) (y x1 : BitVec 1) (n : BitVec 3) (a b : BitVec 6) :
    Ends State.canonical (execOpa m y x1 n a b s) := by
  grind [execOpa, ends_settle, keepsM_checkRegs, keepsM_handOff, keepsM_consume, keepsM_tile, keepsM_illegal, keepsM_commitVector,
    keepsM_bind, keepsM_get]

theorem ends_execAzero {s : State} (h : s.canonical) (n : BitVec 3) : Ends State.canonical (execAzero n s) := by
  grind [execAzero, ends_settle, keepsM_handOff, keepsM_tile, keepsM_advance, keepsM_bind, keepsM_get]

theorem keepsM_acldElems (who : Who) (r w mvl : Nat) (base stride : Word) :
    ∀ l, KeepsM State.canonical (acldElems who r w mvl base stride l)
  | [] => keepsM_pure _
  | n :: ns => by
    have ih := keepsM_acldElems who r w mvl base stride ns
    unfold acldElems
    grind [keepsM_bind, keepsM_modify, keepsM_access, keeps_loadAt, canonical_iff]

theorem ends_execAcld {s : State} (h : s.canonical) (n : BitVec 3) (a b : BitVec 5) : Ends State.canonical (execAcld n a b s) :=
  ends_settle (keepsM_bind (keepsM_tile _) fun _ => keepsM_bind keepsM_matrixIdle fun _ => keepsM_get fun _ _ =>
    keepsM_bind (keepsM_acldElems _ _ _ _ _ _ _) fun _ => keepsM_bind (keepsM_modify_mm fun _ => rfl) fun _ => keepsM_advance) h

theorem ends_execAcrd {s : State} (h : s.canonical) (m : BitVec 2) (n : BitVec 3) (d : BitVec 6) (c : BitVec 1) (b : BitVec 5) :
    Ends State.canonical (execAcrd m n d c b s) :=
  ends_settle (keepsM_get fun _ _ => keepsM_bind (keepsM_checkRegs _ _ _) fun _ => keepsM_bind (keepsM_tile _) fun _ =>
    keepsM_bind (keepsM_consume _) fun _ => keepsM_bind keepsM_matrixIdle fun _ => keepsM_ite (keepsM_throw fun _ => id)
      (keepsM_bind (keepsM_modify_mm fun _ => rfl) fun _ => keepsM_commitVector _ _)) h

theorem keepsM_acstCheck (who : Who) (base stride : Word) (mvl wo : Nat) :
    ∀ l, KeepsM State.canonical (acstCheck who base stride mvl wo l)
  | [] => keepsM_pure _
  | n :: ns => keepsM_bind (keepsM_access (keeps_classify _ _ _ _) _ _) fun _ => keepsM_acstCheck who base stride mvl wo ns

theorem keepsM_acstStore (who : Who) (base stride : Word) (mvl wo : Nat) (es : List (Nat × Flagged)) :
    KeepsM State.canonical (acstStore who base stride mvl wo es) := keepsM_storePieces (fun _ => keepsM_pure _) who 0 es

theorem canonical_losePoison {s : State} (h : s.canonical) (g : Nat) : (s.losePoison g).canonical :=
  ⟨h.1, pairwise_setPoison h.2 g true⟩

theorem canonical_spoilStored {s : State} (h : s.canonical) (who : Who) (va : Word) : (s.spoilStored who va).canonical := by
  grind [State.spoilStored, canonical_losePoison, canonical_putL2, keeps_classify, canonical_mapL1, canonical_iff]

theorem ends_execAcst {s : State} (h : s.canonical) (m : BitVec 2) (n : BitVec 3) (a c : BitVec 5) :
    Ends State.canonical (execAcst m n a c s) := by
  refine ends_settle (keepsM_get fun t _ => keepsM_ite (keepsM_illegal _) ?_) h
  refine keepsM_bind (keepsM_tile _) fun _ => keepsM_bind keepsM_matrixIdle fun _ => keepsM_bind (keepsM_acstCheck _ _ _ _ _ _) fun _ => ?_
  refine keepsM_ite (keepsM_throw fun _ => id) (keepsM_bind (keepsM_acstStore _ _ _ _ _ _) fun _ => ?_)
  refine keepsM_when (keepsM_modify fun u hu => canonical_foldl hu fun v e hv => canonical_spoilStored hv _ _) fun _ => ?_
  exact keepsM_when (keepsM_modify_mm fun _ => rfl) fun _ => keepsM_bind (keepsM_commitVector _ _) fun _ => keepsM_satTrap _

theorem ends_execMexit {s : State} (h : s.canonical) : Ends State.canonical (execMexit s) := by
  grind [execMexit, ends_settle, keepsM_matrixIdle, keepsM_advance, keepsM_bind, keepsM_get, keepsM_modify, canonical_iff]

theorem keepsM_bankSet (m : BitVec 3) : KeepsM State.canonical (M.bankSet m) := by
  grind [M.bankSet, keepsM_vcause, keepsM_bind, keepsM_get, keepsM_set, keepsM_modify, keepsM_pure, canonical_iff, MemSys.canon,
    canonical_foldl]

theorem keepsM_aligned (va : Word) (n : Nat) : KeepsM State.canonical (M.aligned va n) := by
  grind [M.aligned, keepsM_vcause, keepsM_bind, keepsM_get, keepsM_set, keepsM_modify, keepsM_pure, canonical_iff, MemSys.canon,
    canonical_foldl]

theorem keepsM_checkRange (who : Who) (acc : Access) (stop : Nat) : ∀ fuel va, KeepsM State.canonical (checkRange who acc stop fuel va)
  | 0, _ => keepsM_pure _
  | fuel + 1, va => by
    have ih := keepsM_checkRange who acc stop fuel
    unfold checkRange
    grind [keepsM_bind, keepsM_get, keepsM_access, keeps_classify, keepsM_trap, keepsM_pure]

theorem keepsM_range (acc : Access) (va : Word) (len : Nat) : KeepsM State.canonical (M.range acc va len) := by
  grind [M.range, keepsM_checkRange, keepsM_bind, keepsM_get]

theorem keeps_engineLine (who : Who) (va size : Nat) (w : Window) : Keeps State.canonical (engineLine who va size w) := by
  unfold engineLine
  split
  · exact keeps_readL2 _ _ _ _ _
  · exact keeps_readLine _ _ _ _ _

theorem keeps_engineRead (who : Who) (va : Word) (k : Nat) : Keeps State.canonical (engineRead who va k) := by
  grind [engineRead, keeps_classify, keeps_engineLine, keeps_bind, keeps_get_of, keeps_pure]

theorem keepsM_engineRead (va : Word) (k : Nat) : KeepsM State.canonical (M.engineRead va k) := by
  grind [M.engineRead, keeps_engineRead, keepsM_fork, keepsM_access, keepsM_bind, keepsM_get]

theorem keepsM_readCodebooks (va : Word) : ∀ n, KeepsM State.canonical (readCodebooks va n)
  | 0 => keepsM_pure _
  | n + 1 => keepsM_bind (keepsM_readCodebooks va n) fun _ => keepsM_bind (keepsM_engineRead _ _) fun _ => keepsM_pure _

theorem keepsM_issue (set : Word) (k : Nat) (op : Nat → BankOp) (drain : Option (Word × BitVec 256 × List (BitVec 8))) (stream : Bool) :
    KeepsM State.canonical (M.issue set k op drain stream) := by
  unfold M.issue
  refine keepsM_bind keepsM_fork fun _ => keepsM_get fun s h => ?_
  dsimp only
  split
  · exact keepsM_stall
  · refine keepsM_set ?_
    rw [canonical_iff]
    dsimp only
    rw [foldl_mm fun t i => State_onBank_mm ..]
    exact h

theorem ends_execCbld {s : State} (h : s.canonical) (k : BitVec 4) (m : BitVec 3) (p : BitVec 1) (a : BitVec 5) :
    Ends State.canonical (execCbld k m p a s) := by
  grind [execCbld, keepsM_readCodebooks, keepsM_bankSet, keepsM_issue, ends_settle, keepsM_aligned, keepsM_range, keepsM_advance,
    keepsM_bind, keepsM_get]

theorem ends_execTbld {s : State} (h : s.canonical) (m : BitVec 2) (f : BitVec 1) (d : BitVec 5) (v : BitVec 6) (c : BitVec 5) :
    Ends State.canonical (execTbld m f d v c s) := by
  refine ends_settle (keepsM_get fun t _ => keepsM_ite (keepsM_illegal _) ?_) h
  refine keepsM_bind (keepsM_bankSet _) fun set => keepsM_bind (keepsM_checkRegs _ _ _) fun _ => ?_
  dsimp only
  split
  · exact keepsM_vcause _ _ _ _
  · exact keepsM_bind (keepsM_consume _) fun _ => keepsM_bind (keepsM_issue _ _ _ _ _) fun _ =>
      keepsM_bind (keepsM_modify_mm fun _ => State_setX_mm _ _ _) fun _ => keepsM_commitVector _ _

theorem ends_execLka {s : State} (h : s.canonical) (k : BitVec 4) (m : BitVec 3) (a : BitVec 5) :
    Ends State.canonical (execLka k m a s) := by
  grind [execLka, keepsM_bankSet, keepsM_issue, ends_settle, keepsM_vcause, keepsM_illegal, keepsM_advance, keepsM_bind, keepsM_get]

theorem keepsM_mapM {α β : Type} {f : α → M β} (hf : ∀ a, KeepsM State.canonical (f a)) (l : List α) :
    KeepsM State.canonical (l.mapM f) := by
  induction l with
  | nil => exact keepsM_pure _
  | cons a l ih =>
    rw [List.mapM_cons]
    exact keepsM_bind (hf a) fun b => keepsM_bind ih fun bs => keepsM_pure _

theorem ends_execNbld {s : State} (h : s.canonical) (k : BitVec 4) (m : BitVec 3) (a : BitVec 5) :
    Ends State.canonical (execNbld k m a s) := by
  refine ends_settle ?_ h
  grind [keepsM_bankSet, keepsM_issue, keepsM_bind, keepsM_get, keepsM_mapM, keepsM_engineRead, keepsM_aligned, keepsM_range,
    keepsM_advance]

theorem ends_execNbrun {s : State} (h : s.canonical) (k : BitVec 4) (m : BitVec 3) (a : BitVec 5) :
    Ends State.canonical (execNbrun k m a s) := by
  refine ends_settle ?_ h
  have hp : KeepsM State.canonical (fun t => .error (.poison t 0 false) : M Unit) := keepsM_throw fun _ => id
  grind [keepsM_bankSet, keepsM_issue, keepsM_bind, keepsM_get, keepsM_pure, keepsM_engineRead, keepsM_aligned, keepsM_range,
    keepsM_advance]

theorem ends_execNbstat {s : State} (h : s.canonical) (d : BitVec 5) (m : BitVec 3) (c : BitVec 1) :
    Ends State.canonical (execNbstat d m c s) := by
  refine ends_settle (keepsM_bind (keepsM_bankSet m) fun set => keepsM_get fun t ht => ?_) h
  have hc : ∀ l : List Nat, (l.foldl (fun (t : State) b => t.onBank b Bank.clearStatus) t).mm = t.mm := fun l =>
    foldl_mm (fun u b => State_onBank_mm u b _) l t
  refine keepsM_set_mm ht ?_
  grind [State_result_mm]

theorem keepsM_readShifts (va : Word) : ∀ n, KeepsM State.canonical (readShifts va n)
  | 0 => keepsM_pure _
  | n + 1 => by
    have ih := keepsM_readShifts va n
    have hp : KeepsM State.canonical (fun t => .error (.poison t 0 false) : M (List (BitVec 8))) := by grind [KeepsM, stopState]
    unfold readShifts
    grind [keepsM_bind, keepsM_engineRead, keepsM_pure]

theorem ends_execNbdrain {s : State} (h : s.canonical) (st : BitVec 1) (c : BitVec 5) (m : BitVec 3) (a : BitVec 5) :
    Ends State.canonical (execNbdrain st c m a s) := by
  refine ends_settle (keepsM_get fun t _ => keepsM_ite (keepsM_illegal _) (keepsM_bind (keepsM_bankSet _) fun set => ?_)) h
  refine keepsM_when (keepsM_vcause _ _ _ _) fun _ => ?_
  extract_lets va toMem adv jp
  have hj : ∀ block, KeepsM State.canonical (jp block) := by
    refine fun block => keepsM_when (keepsM_aligned _ _) fun _ => keepsM_when (keepsM_range _ _ _) fun _ =>
      keepsM_when (keepsM_range _ _ _) fun _ => ?_
    extract_lets jq
    have hq : ∀ shifts, KeepsM State.canonical (jq shifts) := fun _ =>
      keepsM_bind (keepsM_issue _ _ _ _ _) fun _ => keepsM_when (keepsM_modify_mm fun _ => rfl) fun _ => keepsM_advance
    exact keepsM_ite (keepsM_bind (keepsM_readShifts _ _) hq) (keepsM_bind (keepsM_pure _) hq)
  refine keepsM_ite (keepsM_bind (keepsM_pure _) hj) (keepsM_bind (keepsM_aligned _ _) fun _ =>
    keepsM_bind (keepsM_range _ _ _) fun _ => ?_)
  exact keepsM_bind (keepsM_engineRead _ _) fun _ => keepsM_ite (keepsM_bind (keepsM_throw fun _ => id) hj) (keepsM_bind (keepsM_pure _) hj)

theorem ends_execTcopy {s : State} (h : s.canonical) (k : BitVec 4) (x1 : BitVec 5) : Ends State.canonical (execTcopy k x1 s) := by
  grind [execTcopy, keepsM_stall, ends_settle, keepsM_bind, keepsM_get, keepsM_set, keepsM_modify, keepsM_pure, keepsM_vcause,
    keepsM_fork, keepsM_illegal, keepsM_advance, canonical_iff, MemSys.canon, canonical_foldl, ends_next]

theorem ends_execTstat {s : State} (h : s.canonical) (d : BitVec 5) (sel : BitVec 2) (c : BitVec 1) :
    Ends State.canonical (execTstat d sel c s) := by
  grind [execTstat, ends_settle, keepsM_bind, keepsM_get, keepsM_set, keepsM_modify, keepsM_pure, keepsM_illegal, keepsM_result,
    canonical_iff, MemSys.canon, canonical_foldl, ends_next]

end Sys2Proof.Proofs
end

