-- ==== Sys2Proof/Proofs/CanonicalQueues.lean ====
section
/-! SUPPORT. Micro-operations, start-up, queues and dispatch keep memory in its one form. -/

namespace Sys2Proof.Proofs
open Sys2Proof Sys2Proof.Machine Sys2Proof.Laws
-- one proof at a time: many at once need more thread stacks than the check's memory limit leaves
set_option Elab.async false

theorem onCmd_mm (s : State) (id : Nat) (f : Cmd → Cmd) : (s.onCmd id f).mm = s.mm := rfl

theorem countTo_mm (s : State) (c : Cmd) (level : Nat) : (s.countTo c level).mm = s.mm := by
  rw [State.countTo, onCmd_mm, foldl_mm fun t _ => onHart_mm ..]

theorem countSyncs_mm (s : State) (id : Nat) : (s.countSyncs id).mm = s.mm := by
  grind [State.countSyncs, countTo_mm]

theorem cmdEnded_mm (s : State) (b id : Nat) : (s.cmdEnded b id).mm = s.mm := by
  grind [State.cmdEnded, State_onBank_mm, countSyncs_mm, onCmd_mm]

theorem endRun_mm (s : State) (b : Nat) (code : Option (BitVec 8)) : (s.endRun b code).mm = s.mm := by
  unfold State.endRun
  grind [State_onBank_mm, cmdEnded_mm]

theorem ends_execRend {s : State} (h : s.canonical) : Ends State.canonical (execRend s) := by
  grind [execRend, endRun_mm, ends_next, canonical_iff]

theorem logResidues_mm (s : State) (b : Nat) : (s.logResidues b).mm = s.mm := by
  unfold State.logResidues
  split
  · rfl
  · rw [foldl_mm fun t n => bankError_mm .., State_onBank_mm]

theorem canonical_rowOp {s : State} (h : s.canonical) (n : BitVec 2) (inc : BitVec 1) (f : Bank → RowVal → Bank × Option RowVal) :
    (s.rowOp n inc f).canonical := by
  grind [State.rowOp, State_setBank_mm, logResidues_mm, endRun_mm, canonical_putRow, canonical_iff]

theorem badW_mm (s : State) : (s.badW).mm = s.mm := by
  grind [State.badW, endRun_mm]

theorem canonical_rowOpW {s : State} (h : s.canonical) (n : BitVec 2) (inc : BitVec 1) (w : BitVec 2)
    (f : Bank → RowVal → Bank × Option RowVal) : (s.rowOpW n inc w f).canonical := by
  grind [State.rowOpW, canonical_rowOp, badW_mm, canonical_iff]

theorem ends_execRlka {s : State} (h : s.canonical) (n : BitVec 2) (i : BitVec 1) : Ends State.canonical (execRlka n i s) := by
  grind [execRlka, canonical_rowOp, State_setBank_mm, ends_next, canonical_iff]

theorem ends_execRbr {s : State} (h : s.canonical) (t : BitVec 6) : Ends State.canonical (execRbr t s) := by
  grind [execRbr, State_onBank_mm, ends_next, canonical_iff]

theorem ends_execRloop {s : State} (h : s.canonical) (c : BitVec 1) (t : BitVec 6) : Ends State.canonical (execRloop c t s) := by
  grind [execRloop, State_onBank_mm, ends_next, canonical_iff]

theorem cmdSync_mm (s : State) (b id : Nat) : (s.cmdSync b id).mm = s.mm := by
  grind [State.cmdSync, countSyncs_mm, onCmd_mm]

theorem ends_execRsync {s : State} (h : s.canonical) : Ends State.canonical (execRsync s) := by
  grind [execRsync, State_onBank_mm, cmdSync_mm, ends_next, canonical_iff]

theorem tell_mm (s : State) (n : PlaneNote) : (s.tell n).mm = s.mm := rfl

theorem canonical_logLoss {s : State} (h : s.canonical) (id : BitVec 32) (kind : BitVec 8) (addr misc : Word) (act : Nat) :
    (s.logLoss id kind addr misc act).canonical := by
  grind [State.logLoss, canonical_flushBank, drainRecord_mm, bankError_mm, canonical_iff]

theorem canonical_losePlane {s : State} (h : s.canonical) (p : Nat) : (s.losePlane p).canonical := by
  grind [State.losePlane, errorMessage_mm, tell_mm, canonical_logLoss, canonical_iff]

theorem canonical_applyRepairs {s : State} (h : s.canonical) : (s.applyRepairs).canonical := by
  grind [State.applyRepairs, canonical_losePlane, canonical_iff, MemSys.canon, canonical_foldl]

theorem startBeats_mm (s : State) (l : List Processor) : (s.startBeats l).mm = s.mm := rfl

theorem measure_mm (s : State) (n : Nat) (img : BootImage) : (s.measure n img).mm = s.mm := rfl

theorem imageFails_mm (s : State) (n : Nat) : (s.imageFails n).mm = s.mm := rfl

theorem verify_mm (s : State) (n : Nat) (img : BootImage) : (s.verify n img).mm = s.mm := by
  grind [State.verify, imageFails_mm, measure_mm, startBeats_mm]

theorem ends_execPowerGood {s : State} (h : s.canonical) (img : BootImage) : Ends State.canonical (execPowerGood img s) := by
  grind [execPowerGood, canonical_applyRepairs, verify_mm, canonical_iff, MemSys.canon, canonical_foldl, ends_next]

theorem ends_execStackManagersReady {s : State} (h : s.canonical) (img : BootImage) :
    Ends State.canonical (execStackManagersReady img s) := by
  unfold execStackManagersReady
  split
  · rwa [ends_next]
  · rw [ends_next, canonical_iff, verify_mm]
    exact ⟨rfl, List.Pairwise.nil⟩

theorem canonical_scrubbed {s : State} (h : s.canonical) (granule : Nat) (found : ScrubFound) : (s.scrubbed granule found).canonical := by
  unfold State.scrubbed
  grind [bankError_mm, canonical_losePoison, canonical_iff]

theorem answer_mm (s : State) (d : FonakDone) : (s.answer d).mm = s.mm := by
  grind [State.answer, sendOn_mm]

theorem settleAtBank_mm (s : State) : s.settleAtBank.mm = s.mm := by
  unfold State.settleAtBank
  dsimp only
  rw [foldl_mm fun t r => answer_mm ..]

theorem canonical_settleLeagues {s : State} (h : s.canonical) : (s.settleLeagues).canonical := by
  grind [State.settleLeagues, canonical_settleLeague, canonical_iff, canonical_foldl]

theorem deliver_mm (s : State) (uid : Nat) (p : Reply) : (s.deliver uid p).mm = s.mm := by
  grind [State.deliver, onHart_mm]

theorem loaded_mm (s : State) (r : OrdReq) (pa : Nat) : (s.loaded r pa).mm = s.mm := by
  grind [State.loaded, answer_mm, deliver_mm]

theorem ends_execOrdinaryRequestDataMoved {s : State} (h : s.canonical) (bank : Nat) :
    Ends State.canonical (execOrdinaryRequestDataMoved bank s) := by
  grind [execOrdinaryRequestDataMoved, State_setBank_mm, settleAtBank_mm, canonical_settleLeagues, canonical_scrubbed,
    canonical_putHome, loaded_mm, ends_next, canonical_iff]

theorem ends_execQueueMap {s : State} (h : s.canonical) (die qid : Nat) : Ends State.canonical (execQueueMap die qid s) := by
  grind [execQueueMap, canonical_mapQueue, ends_next]

theorem ends_execQueueIdleTimeout {s : State} (h : s.canonical) (die slot : Nat) :
    Ends State.canonical (execQueueIdleTimeout die slot s) := by
  grind [execQueueIdleTimeout, canonical_unmapQueue, canonical_serveMapWait, ends_next]

theorem addEntry_mm (s : State) (t : Slot) (e : Entry) : (s.addEntry t e).mm = s.mm := rfl

theorem canonical_setQ {s : State} (h : s.canonical) (qid off hi lo v : Nat) : (s.setQ qid off hi lo v).canonical := by
  grind [State.setQ, canonical_putQcb]

theorem canonical_retire {s : State} (h : s.canonical) (qid : Nat) : (s.retire qid).canonical := by
  grind [State.retire, putSlot_mm, canonical_setQ, canonical_release, canonical_iff]

theorem canonical_afterCompletion {s : State} (h : s.canonical) (qid : Nat) : (s.afterCompletion qid).canonical := by
  grind [State.afterCompletion, canonical_retire, canonical_serveMapWait, canonical_dropFailed]

/-- The state in which the read of a packet ends. -/
def ringState : RingRead → State
  | .packet _ t | .unreadable t | .waits t => t

theorem canonical_readRing {s : State} (h : s.canonical) (t : Slot) (i : Nat) : (ringState (s.readRing t i)).canonical := by
  have hk : ∀ (va : Word), Keeps State.canonical (do
      let w ← classify (frontEnd t.die (s.qAsid t.qid)) va 128 .load
      readLine (frontEnd t.die (s.qAsid t.qid)) va.toNat 128 2 w) := fun va =>
    keeps_bind (keeps_classify _ _ _ _) fun w => keeps_readLine _ _ _ _ _
  have ha := fun va => hk va _ (canonical_acquire h t.die 48 3#2)
  unfold State.readRing
  grind [ringState]

theorem ends_execPacketEnterWindow {s : State} (h : s.canonical) (die slot : Nat) :
    Ends State.canonical (execPacketEnterWindow die slot s) := by
  unfold execPacketEnterWindow
  split
  · rwa [ends_next]
  next t _ =>
    have hr := canonical_readRing h t t.nextIdx
    grind [ringState, ends_next, addEntry_mm, canonical_failPacket, canonical_afterCompletion, canonical_iff]

theorem canonical_launchGens {s : State} (h : s.canonical) (dies : List Nat) : (s.launchGens dies).canonical := by
  grind [State.launchGens, canonical_bumpGen, canonical_iff, canonical_foldl]

theorem canonical_setTokens {s : State} (h : s.canonical) (qid : Nat) (v : Word) : (s.setTokens qid v).canonical := by
  grind [State.setTokens, putSlot_mm, canonical_iff]

theorem interrupt_mm (s : State) (die : Nat) (msg : BitVec 11) : (s.interrupt die msg).mm = s.mm := by
  grind [State.interrupt, countErr_mm]

theorem canonical_packetInterrupt {s : State} (h : s.canonical) (t : Slot) (p : Line) : (s.packetInterrupt t p).canonical := by
  grind [State.packetInterrupt, interrupt_mm, canonical_iff]

theorem canonical_launch {s : State} (h : s.canonical) (t : Slot) (e : Entry) : (s.launch t e).canonical := by
  grind [State.launch, canonical_launchGens, canonical_setTokens, canonical_afterCompletion, canonical_packetInterrupt, onEntry_mm,
    canonical_iff]

theorem ends_execPacketLaunch {s : State} (h : s.canonical) (die slot : Nat) : Ends State.canonical (execPacketLaunch die slot s) := by
  grind [execPacketLaunch, canonical_launch, ends_next]

theorem canonical_releasePacket {s : State} (h : s.canonical) (e : Entry) : (s.releasePacket e).canonical := by
  grind [State.releasePacket, canonical_release, canonical_iff, canonical_foldl]

theorem canonical_stored {s : State} (h : s.canonical) {a : A Unit} (ha : Keeps State.canonical a) :
    State.canonical (match a s with | .ok (_, u) => u | .error _ => s) := by
  have := ha s h
  grind

theorem canonical_writeWord {s : State} (h : s.canonical) (t : Slot) (idx : Nat) (va : Word) (w : Window) :
    (s.writeWord t idx va w).canonical := by
  unfold State.writeWord
  cases w with
  | scratch => exact h
  | control pa => exact canonical_stored h (keeps_writeControl _ _ _)
  | bankLinear pa => exact canonical_stored h (keeps_bankStore _ _ _ _)
  | cached pa _ | memSide pa _ =>
    dsimp only
    split
    · exact canonical_writeSeen h ..
    · exact canonical_stored h (keeps_writeHome _ _ _ _ _)

theorem canonical_completePacket {s : State} (h : s.canonical) (t : Slot) (e : Entry) (w : Option Window) :
    (s.completePacket t e w).canonical := by
  unfold State.completePacket
  cases w <;>
    grind [canonical_releasePacket, onEntry_mm, canonical_setTokens, canonical_writeWord, canonical_afterCompletion,
      canonical_packetInterrupt, canonical_iff]

/-- The states in which the check of a completion word ends have a property. -/
def WordLeaves (P : State → Prop) : WordCheck → Prop
  | .ready _ t | .waits t => P t
  | .none | .refused => True

theorem canonical_checkWord {s : State} (h : s.canonical) (t : Slot) (p : Line) : WordLeaves State.canonical (s.checkWord t p) := by
  have hc := keeps_classify (frontEnd t.die (s.qAsid t.qid)) (BitVec.ofNat 64 (pkCompAddr p)) 8 .store s h
  unfold State.checkWord
  grind [WordLeaves]

theorem ends_execPacketComplete {s : State} (h : s.canonical) (die slot idx : Nat) :
    Ends State.canonical (execPacketComplete die slot idx s) := by
  have hw := canonical_checkWord h
  unfold execPacketComplete
  grind [WordLeaves, ends_next, canonical_completePacket, canonical_afterCompletion, canonical_failPacket]

theorem canonical_preemptAll {s : State} (h : s.canonical) (l : List Hart) : (s.preemptAll l).canonical := by
  grind [State.preemptAll, canonical_preemptNow, canonical_iff, canonical_foldl]

theorem canonical_seat {s : State} (h : s.canonical) (h1 : Hart) (die core v : Nat) : (s.seat h1 die core v).1.canonical := by
  grind [State.seat, canonical_acquire, canonical_mapL1, canonical_iff, canonical_foldl]

theorem canonical_icacheDrop {s : State} (h : s.canonical) (die core asid : Nat) : (s.icacheDrop die core asid).canonical := by
  grind [State.icacheDrop, canonical_mapIcache]

theorem canonical_reachCore {s : State} (h : s.canonical) (qid idx die core asid : Nat) :
    (s.reachCore qid idx die core asid).canonical := by
  grind [State.reachCore, onEntry_mm, canonical_icacheDrop, canonical_iff]

theorem canonical_resume {s : State} (h : s.canonical) (uid die core : Nat) : (s.resume uid die core).canonical := by
  grind [State.resume, canonical_seat, canonical_reachCore, onHart_mm, canonical_iff]

theorem canonical_seatLeague {s : State} (h : s.canonical) (h1 : Hart) : (s.seatLeague h1).canonical := by
  grind [State.seatLeague, canonical_resume, canonical_preemptAll]

theorem rangeOn_mm (s : State) (qid idx die : Nat) : (s.rangeOn qid idx die).mm = s.mm := by
  grind [State.rangeOn, putSlot_mm]

theorem canonical_withHart {s : State} (h : s.canonical) (uid : Nat) {f : State → State} (hf : ∀ t, t.canonical → (f t).canonical) :
    (s.withHart uid f).canonical := by
  grind [State.withHart, focusOn_mm, canonical_iff]

theorem canonical_launchHart {s : State} (h : s.canonical) (t : Slot) (e : Entry) (i die core v : Nat) :
    (s.launchHart t e i die core v).canonical := by
  grind [State.launchHart, canonical_trapEntry, canonical_seat, canonical_withHart, onEntry_mm, canonical_reachCore, canonical_iff]

theorem canonical_placeRange (qid idx die : Nat) : ∀ (fuel : Nat) {s : State}, s.canonical → (s.placeRange qid idx die fuel).canonical
  | 0, _, h => h
  | fuel + 1, s, h => by
    have ih := @canonical_placeRange qid idx die fuel
    rw [State.placeRange]
    grind [canonical_launchHart, rangeOn_mm, canonical_iff]

theorem canonical_serve {s : State} (h : s.canonical) (die : Nat) (w : Waiting) : (s.serve die w).canonical := by
  unfold State.serve
  cases w <;> grind [canonical_resume, canonical_placeRange]

theorem canonical_dispatch {s : State} (h : s.canonical) (die : Nat) : (s.dispatch die).canonical := by
  grind [State.dispatch, canonical_serve, canonical_iff, canonical_foldl]

theorem ends_execDispatch {s : State} (h : s.canonical) (die : Nat) : Ends State.canonical (execDispatch die s) := by
  grind [execDispatch, canonical_dispatch, canonical_seatLeague, ends_next, canonical_iff, canonical_foldl]

theorem canonical_yieldTo {s : State} (h : s.canonical) (die : Nat) (w : Waiting) : (s.yieldTo die w).canonical := by
  grind [State.yieldTo, canonical_serve, canonical_preemptAll]

theorem ends_execPriorityPreemptTimeout {s : State} (h : s.canonical) (who : WaitingHart) :
    Ends State.canonical (execPriorityPreemptTimeout who s) := by
  grind [execPriorityPreemptTimeout, canonical_yieldTo, ends_next]

theorem ends_execHartPreempt {s : State} (h : s.canonical) (uid : Nat) : Ends State.canonical (execHartPreempt uid s) := by
  grind [execHartPreempt, canonical_preemptNow, ends_next]

theorem ends_execVrfBankDrowsy {s : State} (h : s.canonical) (die core bank : Nat) :
    Ends State.canonical (execVrfBankDrowsy die core bank s) := by
  grind [execVrfBankDrowsy, canonical_iff, MemSys.canon, canonical_foldl, ends_next]

theorem wfiCommit_mm (s : State) : (s.wfiCommit).mm = s.mm := rfl

theorem ends_execWfiTimeout {s : State} (h : s.canonical) (uid : Nat) : Ends State.canonical (execWfiTimeout uid s) := by
  grind [execWfiTimeout, wfiCommit_mm, canonical_withHart, ends_next, canonical_iff]

theorem ends_execKernelWatchdogExpiry {s : State} (h : s.canonical) (uid : Nat) :
    Ends State.canonical (execKernelWatchdogExpiry uid s) := by
  unfold execKernelWatchdogExpiry
  rw [ends_next]
  refine canonical_withHart h uid fun t ht => ?_
  have hc := closing_keeps ht
  grind [abandon_mm, canonical_trapEntry, canonical_iff]

theorem ends_execWatchdogGraceExpiry {s : State} (h : s.canonical) (uid : Nat) :
    Ends State.canonical (execWatchdogGraceExpiry uid s) := by
  grind [execWatchdogGraceExpiry, canonical_endHart, canonical_withHart, ends_next]

theorem ends_execTrapEntry {s : State} (h : s.canonical) (uid : Nat) (vals : FaultVals) :
    Ends State.canonical (execTrapEntry uid vals s) := by
  grind [execTrapEntry, canonical_trapEntry, abandon_mm, canonical_withHart, ends_next, canonical_iff]

theorem canonical_pageIn {s : State} (h : s.canonical) (entries : List (Nat × Word)) : (s.pageIn entries).canonical := by
  grind [State.pageIn, canonical_writeSeen, canonical_iff, canonical_foldl]

theorem canonical_pagerAnswers {s : State} (h : s.canonical) (backingOk : Bool) : (s.pagerAnswers backingOk).canonical := by
  grind [State.pagerAnswers, canonical_trapEntry, canonical_iff]

theorem canonical_withoutPaging {s : State} (h : s.canonical) (asid : Nat) {f : State → State} (hf : ∀ t, t.canonical → (f t).canonical) :
    (s.withoutPaging asid f).canonical := by
  unfold State.withoutPaging
  exact hf _ h

theorem canonical_forgetL1 {s : State} (h : s.canonical) (who : Who) (va : Nat) : (s.forgetL1 who va).canonical := by
  grind [State.forgetL1, canonical_mapL1]

theorem keeps_engineWrite (who : Who) (va : Word) (k v : Nat) (psn : Bool) : Keeps State.canonical (engineWrite who va k v psn) := by
  grind [engineWrite, keeps_writeCached, keeps_writeHome, keeps_classify, keeps_bankStore, keeps_fault, canonical_forgetL1,
    canonical_mapL1, keeps_bind, keeps_get_of, keeps_modify]

end Sys2Proof.Proofs
end

