-- ==== Sys2Proof/Proofs/CanonicalWalks.lean ====
section
/-! SUPPORT. The copy engine, walks and memory fronts keep memory in its one form. -/

namespace Sys2Proof.Proofs
open Sys2Proof Sys2Proof.Machine Sys2Proof.Laws
-- one proof at a time: many at once need more thread stacks than the check's memory limit leaves
set_option Elab.async false

theorem dropReplies_mm (s : State) (id : Nat) : (s.dropReplies id).mm = s.mm := rfl

theorem onCopy_mm (s : State) (id : Nat) (f : Copy → Copy) : (s.onCopy id f).mm = s.mm := rfl

theorem dropCopy_mm (s : State) (id : Nat) : (s.dropCopy id).mm = s.mm := rfl

theorem stopCopy_mm (s : State) (c : Copy) (cause : BitVec 8) (va : Word) : (s.stopCopy c cause va).mm = s.mm := by
  grind [State.stopCopy, dropCopy_mm, onHart_mm]

/-- The state in which an engine's way through a row ends. -/
def endState {α : Type} : EngineEnd α → State
  | .done _ t | .waits _ t | .fails _ _ _ t => t

theorem canonical_engineAt {α β : Type} {s : State} (h : s.canonical) (va : Word) (was : β) {a : A α} (ha : Keeps State.canonical a)
    {next : α → State → EngineEnd β} (hn : ∀ x t, t.canonical → (endState (next x t)).canonical) :
    (endState (engineAt va was a next s)).canonical := by
  have := ha s h
  unfold engineAt
  grind [endState]

theorem canonical_copyRead (who : Who) : ∀ (fuel : Nat) (va : Word) (n : Nat) (got : List Byte) {s : State}, s.canonical →
    (endState (copyRead who fuel va n got s)).canonical
  | 0, _, _, _, _, h => h
  | fuel + 1, va, n, got, s, h => by
    rw [copyRead]
    split
    · exact h
    · refine canonical_engineAt h _ _ (keeps_engineRead _ _ _) fun r t ht => ?_
      have ih := canonical_copyRead who fuel
      grind [endState]

theorem canonical_copyWrite (who : Who) : ∀ (l : List (Word × List Byte)) (n : Nat) {s : State}, s.canonical →
    (endState (copyWrite who l n s)).canonical
  | [], _, _, h => h
  | _ :: rest, n, _, h => canonical_engineAt h _ _ (keeps_engineWrite _ _ _ _ _) fun _ _ ht => canonical_copyWrite who rest (n + 1) ht

theorem canonical_moveRow {s : State} (h : s.canonical) (c : Copy) : (endState (c.moveRow s)).canonical := by
  have hr := canonical_copyRead c.who 4097 (c.srcAddr c.row + BitVec.ofNat 64 c.got.length) (c.cols * c.unit - c.got.length) c.got h
  have hw := @canonical_copyWrite c.who
  unfold Copy.moveRow
  grind [endState]

theorem canonical_copyTurn {s : State} (h : s.canonical) (c : Copy) : (s.copyTurn c).canonical := by
  have hm := canonical_moveRow h c
  unfold State.copyTurn
  grind [endState, onCopy_mm, dropReplies_mm, stopCopy_mm, canonical_iff]

theorem stopWalk_mm (s : State) (id : Nat) (cause : BitVec 8) (va : Word) (count depth : Nat) :
    (s.stopWalk id cause va count depth).mm = s.mm := rfl

theorem canonical_finishWalk {s : State} (h : s.canonical) (w : Walk) : (s.finishWalk w).canonical := by
  have hk : Keeps State.canonical (do
      let x ← classify w.who w.field 8 .store
      if !x.isReach then A.fault 8#8
      storeLine w.who w.field 8 w.ref.toNat true x
      modify (fun t => t.shown w.die x w.scope)) := by
    refine keeps_bind (keeps_classify _ _ _ _) fun x => ?_
    grind [keeps_bind, keeps_fault, keeps_pure, keeps_storeLine, keeps_modify, canonical_shown]
  have hs := hk s h
  unfold State.finishWalk
  grind [dropWalk_mm, stopWalk_mm, canonical_iff]

theorem onWalk_mm (s : State) (id : Nat) (f : Walk → Walk) : (s.onWalk id f).mm = s.mm := rfl

theorem canonical_patchHeader {s : State} (h : s.canonical) (die ln k : Nat) (h1 : Word) : (s.patchHeader die ln k h1).canonical := by
  grind [State.patchHeader, canonical_iff, MemSys.canon, canonical_foldl]

theorem canonical_putHeader {s : State} (h : s.canonical) (w : Walk) (pa : Nat) (h1 : Word) : (s.putHeader w pa h1).canonical := by
  grind [State.putHeader, canonical_serveWrite, canonical_cleanL2, canonical_patchHeader]

theorem canonical_showObject {s : State} (h : s.canonical) (w : Walk) (o : Word) (pa len : Nat) :
    (s.showObject w o pa len).canonical := by
  grind [State.showObject, canonical_cleanL2]

/-- The states in which the search for the page of a reference ends have a property. -/
def PageLeaves (P : State → Prop) : RefPage → Prop
  | .follow _ t | .skip t | .waits t => P t
  | .stops _ => True

/-- The same of the reading of an object's fields. -/
def FieldsLeave (P : State → Prop) : Fields → Prop
  | .refs _ t | .waits t => P t
  | .stops _ _ => True

/-- The same of the spills. -/
def SpillLeaves (P : State → Prop) : Spill → Prop
  | .done t | .waits t => P t
  | .stops _ _ => True

theorem canonical_refPage {s : State} (h : s.canonical) (w : Walk) (f : Word) : PageLeaves State.canonical (s.refPage w f) := by
  have hl := keeps_leafOf w.who f .load s h
  unfold State.refPage
  grind [PageLeaves]

theorem canonical_fields (w : Walk) (o : Word) : ∀ (n : Nat) (acc : List Word) {s : State}, s.canonical →
    FieldsLeave State.canonical (s.fields w o n acc)
  | 0, _, _, h => h
  | n + 1, acc, s, h => by
    have ih := fun l t => @canonical_fields w o n l t
    have hp := fun (t : State) ht f => @canonical_refPage t ht w f
    have h0 := hp s h (o + BitVec.ofNat 64 (8 * (n + 1)))
    rw [State.fields]
    dsimp only
    split
    next e => rw [e] at h0; exact h0
    · trivial
    · trivial
    next pa t0 e =>
      rw [e] at h0
      have ht := canonical_readServed h0 w.asid (pa / 128)
      generalize t0.readServed w.asid (pa / 128) = t at ht
      generalize t0.homeField w.asid pa = fld
      obtain ⟨f, tag, psn⟩ := fld
      have h2 := hp t ht f
      grind [FieldsLeave, PageLeaves]

/-- The store that pushes one reference to the spill area. -/
def spillStore (w : Walk) (va f : Word) : A Unit := do
  let x ← classify w.who va 8 .store
  match x with
  | .cached pa leaf => writeCached w.who va.toNat pa leaf (placeBytes va.toNat f.toNat false) (byteMask va.toNat 8)
  | .memSide pa _ => writeHome w.who w.asid pa (placeBytes va.toNat f.toNat false) (byteMask va.toNat 8)
  | _ => A.fault 8#8

theorem spill_nil (s : State) (w : Walk) (area : Word) (d : Nat) : s.spill w area d [] = .done s := rfl

theorem spill_shallow (s : State) (w : Walk) (area : Word) (d : Nat) (f : Word) (rest : List Word) (h : d < 64) :
    s.spill w area d (f :: rest) = s.spill w area (d + 1) rest := by
  show (if d < 64 then s.spill w area (d + 1) rest else _) = _
  rw [if_pos h]

theorem spill_deep (s : State) (w : Walk) (area : Word) (d : Nat) (f : Word) (rest : List Word) (h : ¬ d < 64) (va : Word)
    (hv : va = area + BitVec.ofNat 64 (8 * (d - 64))) :
    s.spill w area d (f :: rest) =
        if va.getLsbD 56 then .stops 8#8 va
        else match spillStore w va f s with
        | .ok (_, t) => t.spill w area (d + 1) rest
        | .error (.wait t) => .waits t
        | .error (.poison _) => .stops 0xF#8 va
        | .error (.fault c) => if c = 6#8 ∧ s.pageable w.asid va then .waits s else .stops 8#8 va := by
  subst hv
  show (if d < 64 then s.spill w area (d + 1) rest else _) = _
  rw [if_neg h]
  rfl

theorem keeps_spillStore (w : Walk) (va f : Word) : Keeps State.canonical (spillStore w va f) := by
  unfold spillStore
  refine keeps_bind (keeps_classify _ _ _ _) fun x => ?_
  cases x <;> grind [keeps_writeCached, keeps_writeHome, keeps_fault]

theorem canonical_spill (w : Walk) (area : Word) : ∀ (l : List Word) (depth : Nat) {s : State}, s.canonical →
    SpillLeaves State.canonical (s.spill w area depth l)
  | [], _, _, h => by rw [spill_nil]; exact h
  | f :: rest, depth, s, h => by
    have ih := fun d t => @canonical_spill w area rest d t
    by_cases hd : depth < 64
    · rw [spill_shallow s w area depth f rest hd]
      exact ih _ _ h
    · have hs := keeps_spillStore w (area + BitVec.ofNat 64 (8 * (depth - 64))) f s h
      rw [spill_deep s w area depth f rest hd _ rfl]
      grind [SpillLeaves]

theorem canonical_pushFields {s : State} (h : s.canonical) (w : Walk) (o : Word) (len count area : Nat) (rest : List (Word × Bool)) :
    (s.pushFields w o len count area rest).canonical := by
  have hf := canonical_fields w o (len - 1) [] h
  have hs := fun l d t => @canonical_spill w (BitVec.ofNat 64 area) l d t
  unfold State.pushFields
  grind [FieldsLeave, SpillLeaves, stopWalk_mm, onWalk_mm, dropReplies_mm, canonical_iff]

theorem canonical_enterObject {s : State} (h : s.canonical) (w : Walk) (o : Word) (rest : List (Word × Bool)) :
    (s.enterObject w o rest).canonical := by
  have hp := canonical_refPage h w o
  unfold State.enterObject
  grind [PageLeaves, onWalk_mm, stopWalk_mm, canonical_readServed, canonical_putHeader, canonical_showObject, canonical_pushFields,
    canonical_iff]

theorem canonical_leaveObject {s : State} (h : s.canonical) (w : Walk) (o : Word) (rest : List (Word × Bool)) :
    (s.leaveObject w o rest).canonical := by
  have hp := canonical_refPage h w o
  unfold State.leaveObject
  grind [PageLeaves, onWalk_mm, stopWalk_mm, canonical_readServed, canonical_putHeader, canonical_iff]

theorem canonical_visit {s : State} (h : s.canonical) (w : Walk) : (s.visit w).canonical := by
  grind [State.visit, canonical_enterObject, canonical_leaveObject]

theorem canonical_refuseWords {s : State} (h : s.canonical) (die : Nat) : (s.refuseWords die).canonical := by
  grind [State.refuseWords, canonical_failPacket, canonical_withoutPaging, canonical_iff, canonical_foldl]

theorem canonical_pagerFails {s : State} (h : s.canonical) (id : Nat) : (s.pagerFails id).canonical := by
  grind [State.pagerFails, canonical_copyTurn, canonical_finishWalk, canonical_withoutPaging, canonical_visit, canonical_refuseWords]

theorem ends_execPageFaultService {s : State} (h : s.canonical) (uid : Nat) (entries : List (Nat × Word)) (backingOk : Bool) :
    Ends State.canonical (execPageFaultService uid entries backingOk s) := by
  grind [execPageFaultService, canonical_pagerAnswers, canonical_pageIn, canonical_withHart, canonical_pagerFails, ends_next]

theorem ends_execFurlongCommit {s : State} (h : s.canonical) (uid : Nat) : Ends State.canonical (execFurlongCommit uid s) := by
  unfold execFurlongCommit
  rw [ends_next]
  refine canonical_withHart h uid fun t ht => ?_
  have hc := closing_keeps ht
  grind

theorem ends_execFurlongRewind {s : State} (h : s.canonical) (uid : Nat) : Ends State.canonical (execFurlongRewind uid s) := by
  grind [execFurlongRewind, canonical_logPoison, rewind_mm, canonical_withHart, ends_next, canonical_iff]

theorem ends_execJobEndByError {s : State} (h : s.canonical) (asid uid : Nat) : Ends State.canonical (execJobEndByError asid uid s) := by
  grind [execJobEndByError, canonical_poisonEndsJob, canonical_endJob, canonical_logEvent, ends_next]

theorem keeps_frontRequest (who : Who) (va : Word) (acc : Access) : Keeps State.canonical (frontRequest who va acc) := by
  grind [frontRequest, keeps_translate, keeps_fetchCached, keeps_fetchHome, keeps_bankLoad, keeps_bind, keeps_get_of, keeps_pure]

theorem ends_execMemoryFrontRequest {s : State} (h : s.canonical) (die asid : Nat) (va : Word) (acc : Access) :
    Ends State.canonical (execMemoryFrontRequest die asid va acc s) := by
  have hf := keeps_frontRequest (memoryFront die asid) va acc s h
  unfold execMemoryFrontRequest
  grind [ends_next, dropReplies_mm, canonical_iff]

theorem ends_execBloomSliceClear {s : State} (h : s.canonical) (stack slice : Nat) :
    Ends State.canonical (execBloomSliceClear stack slice s) := by
  grind [execBloomSliceClear, canonical_iff, MemSys.canon, canonical_foldl, ends_next]

theorem ends_execAtomicAtHome {s : State} (h : s.canonical) (pa : Nat) (op : BitVec 4) (operand expected : Word) (memSide : Bool) :
    Ends State.canonical (execAtomicAtHome pa op operand expected memSide s) := by
  grind [execAtomicAtHome, canonical_atomicHome, ends_next, canonical_iff]

theorem ends_execRegionAtHome {s : State} (h : s.canonical) (uid : Nat) : Ends State.canonical (execRegionAtHome uid s) := by
  refine (ends_next _).2 (canonical_withHart h uid fun t ht => ?_)
  have hk := keeps_fetchWord t.who t.hart.pc t ht
  grind [ends_runRegion, Ends]

theorem ends_execWalkStart {s : State} (h : s.canonical) (id : Nat) : Ends State.canonical (execWalkStart id s) := by
  grind [execWalkStart, onWalk_mm, ends_next, canonical_iff]

theorem ends_execWalkObjectVisit {s : State} (h : s.canonical) (id : Nat) : Ends State.canonical (execWalkObjectVisit id s) := by
  grind [execWalkObjectVisit, canonical_visit, ends_next]

theorem ends_execWalkComplete {s : State} (h : s.canonical) (id : Nat) : Ends State.canonical (execWalkComplete id s) := by
  grind [execWalkComplete, canonical_finishWalk, ends_next]

end Sys2Proof.Proofs
end

