-- ==== Sys2Proof/Proofs/CanonicalRepairs.lean ====
section
/-! SUPPORT. Bank commands, drains, errors and repairs keep memory in its one form. -/

namespace Sys2Proof.Proofs
open Sys2Proof Sys2Proof.Machine Sys2Proof.Laws
-- one proof at a time: many at once need more thread stacks than the check's memory limit leaves
set_option Elab.async false

theorem startCommand_mm (s : State) (b : Nat) (c : BankCmd) : (s.startCommand b c).mm = s.mm := by
  grind [State.startCommand, State_onBank_mm, cmdEnded_mm]

theorem ends_execBankCommandStart {s : State} (h : s.canonical) (bank : Nat) : Ends State.canonical (execBankCommandStart bank s) := by
  grind [execBankCommandStart, startCommand_mm, ends_next, canonical_iff]

theorem ends_execBankCommandComplete {s : State} (h : s.canonical) (cmd : Nat) :
    Ends State.canonical (execBankCommandComplete cmd s) := by
  grind [execBankCommandComplete, countTo_mm, ends_next, canonical_iff]

theorem drainEnded_mm (s : State) (c : Cmd) : (s.drainEnded c).mm = s.mm := foldl_mm (fun t i => cmdEnded_mm ..) _ s

theorem onSet_mm (s : State) (c : Cmd) (f : Bank → Bank) : (s.onSet c f).mm = s.mm := foldl_mm (fun t i => State_onBank_mm ..) _ s

theorem checkSums_mm (s : State) (c : Cmd) (js : List Nat) : (s.checkSums c js).mm = s.mm := foldl_mm (fun t i => bankError_mm ..) _ s

theorem checkResidues_mm (s : State) (c : Cmd) (js : List Nat) : (s.checkResidues c js).mm = s.mm :=
  foldl_mm (fun t i => foldl_mm (fun u j => (bankError_mm ..).trans (State_onBank_mm ..)) _ t) _ s

theorem keeps_engineWrites (who : Who) : ∀ fuel va l, Keeps State.canonical (engineWrites who fuel va l)
  | 0, _, _ => keeps_pure _
  | fuel + 1, va, l => by
    have ih := keeps_engineWrites who fuel
    unfold engineWrites
    grind [keeps_pure, keeps_bind, keeps_engineWrite]

theorem ends_execReductionDrain {s : State} (h : s.canonical) (cmd : Nat) : Ends State.canonical (execReductionDrain cmd s) := by
  have hp : ∀ uid {t : State}, t.canonical → (t.withHart uid (fun t => t.poisonEndsJob t.hart)).canonical := fun uid t ht =>
    canonical_withHart ht uid fun u hu => canonical_poisonEndsJob hu _
  have hk : ∀ who fuel va l, (∀ x t, engineWrites who fuel va l s = .ok (x, t) → t.canonical) ∧
    (∀ t, engineWrites who fuel va l s = .error (.wait t) → t.canonical) := fun who fuel va l => keeps_engineWrites who fuel va l s h
  unfold execReductionDrain
  grind [ends_next, onHart_mm, onSet_mm, drainEnded_mm, checkSums_mm, checkResidues_mm, dropReplies_mm, canonical_iff]

theorem lookupStep_mm (s : State) (b : Nat) : (s.lookupStep b).mm = s.mm := by
  grind [State.lookupStep, cmdEnded_mm, State_setBank_mm, logResidues_mm]

theorem ends_execRowOperationEnd {s : State} (h : s.canonical) (bank : Nat) : Ends State.canonical (execRowOperationEnd bank s) := by
  grind [execRowOperationEnd, State_setBank_mm, lookupStep_mm, ends_next, canonical_iff]

theorem ends_execSuspensionWindowEnd {s : State} (h : s.canonical) (bank : Nat) :
    Ends State.canonical (execSuspensionWindowEnd bank s) := by
  grind [execSuspensionWindowEnd, State_setBank_mm, ends_next, canonical_iff]

theorem ends_execPowerBudgetExceeded {s : State} (h : s.canonical) (who : Consumer) :
    Ends State.canonical (execPowerBudgetExceeded who s) := by
  unfold execPowerBudgetExceeded
  cases who <;> grind [ends_next, onHarts_mm, canonical_iff]

theorem canonical_matrixTurn {s : State} (h : s.canonical) (uid : Nat) : (s.matrixTurn uid).canonical := by
  grind [State.matrixTurn, canonical_poisonEndsJob, canonical_withHart, canonical_iff]

theorem ends_execMatrixOperation {s : State} (h : s.canonical) (uid : Nat) : Ends State.canonical (execMatrixOperation uid s) := by
  grind [execMatrixOperation, canonical_matrixTurn, ends_next, canonical_iff]

theorem ends_execTcopyRow {s : State} (h : s.canonical) (id : Nat) : Ends State.canonical (execTcopyRow id s) := by
  grind [execTcopyRow, canonical_copyTurn, ends_next, canonical_iff]

theorem endCopy_mm (s : State) (c : Copy) : (s.endCopy c).mm = s.mm := by
  grind [State.endCopy, dropCopy_mm, onHart_mm]

theorem ends_execTcopyComplete {s : State} (h : s.canonical) (id : Nat) : Ends State.canonical (execTcopyComplete id s) := by
  grind [execTcopyComplete, endCopy_mm, ends_next, canonical_iff]

theorem ends_execTcopyStop {s : State} (h : s.canonical) (id : Nat) (cause : BitVec 8) (va : Word) :
    Ends State.canonical (execTcopyStop id cause va s) := by
  grind [execTcopyStop, stopCopy_mm, ends_next, canonical_iff]

theorem poisonRun_mm (s : State) (b : Nat) : (s.poisonRun b).mm = s.mm := by
  grind [State.poisonRun, State_onBank_mm, endRun_mm]

theorem canonical_errorEffect {s : State} (h : s.canonical) (ev : ErrEvent) : (s.errorEffect ev).1.canonical := by
  grind [State.errorEffect, State_onBank_mm, canonical_losePoison, canonical_putQcb, canonical_mapIcache, canonical_putL2,
    canonical_freeRange, canonical_dropFailed, canonical_dropL2, canonical_mapL1, onHart_mm, poisonRun_mm, canonical_iff, MemSys.canon,
    canonical_foldl]

theorem canonical_jobFatal {s : State} (h : s.canonical) (id : BitVec 32) (kind : BitVec 8) (addr misc : Word) (asids : List Nat) :
    (s.jobFatal id kind addr misc asids).canonical := by
  grind [State.jobFatal, canonical_endJob, canonical_logEvent, canonical_iff, canonical_foldl]

theorem ends_execErrorBankEvent {s : State} (h : s.canonical) (bankId : BitVec 32) (ev : ErrEvent) :
    Ends State.canonical (execErrorBankEvent bankId ev s) := by
  grind [execErrorBankEvent, canonical_jobFatal, canonical_errorEffect, bankError_mm, ends_next, canonical_iff]

theorem ends_execErrorBankReadAndClear {s : State} (h : s.canonical) (bankId : BitVec 32) (_act : BitVec 16) :
    Ends State.canonical (execErrorBankReadAndClear bankId _act s) := by
  grind [execErrorBankReadAndClear, canonical_takeRecord, ends_next]

theorem ends_execErrorCountWindowEnd {s : State} (h : s.canonical) (bankId : BitVec 32) :
    Ends State.canonical (execErrorCountWindowEnd bankId s) := by
  grind [execErrorCountWindowEnd, canonical_flushBank, ends_next, canonical_iff]

theorem settleReq_mm (s : State) (key : StreamKey) (eseq : BitVec 20) : (s.settleReq key eseq).mm = s.mm := rfl

theorem ends_execCompletionTimeout {s : State} (h : s.canonical) (key : StreamKey) (eseq : BitVec 20) :
    Ends State.canonical (execCompletionTimeout key eseq s) := by
  grind [execCompletionTimeout, bankError_mm, deliver_mm, settleReq_mm, ends_next, canonical_iff]

theorem ends_execPostedWriteTimeout {s : State} (h : s.canonical) (key : StreamKey) (eseq : BitVec 20) :
    Ends State.canonical (execPostedWriteTimeout key eseq s) := by
  grind [execPostedWriteTimeout, canonical_jobFatal, canonical_settleLeagues, bankError_mm, settleReq_mm, ends_next, canonical_iff]

theorem ends_execPcieAtomicopCompletion {s : State} (h : s.canonical) (uid : Nat) (ok : Bool) (old : Word) :
    Ends State.canonical (execPcieAtomicopCompletion uid ok old s) := by
  grind [execPcieAtomicopCompletion, bankError_mm, deliver_mm, settleReq_mm, ends_next, canonical_iff]

theorem canonical_disableWays {s : State} (h : s.canonical) (stack row : Nat) : (s.disableWays stack row).canonical := by
  grind [State.disableWays, canonical_iff, MemSys.canon, canonical_foldl]

theorem canonical_exhausted {s : State} (h : s.canonical) (p : Part) : (s.exhausted p).1.canonical := by
  unfold State.exhausted
  cases p <;> grind [canonical_loseChannel, canonical_retireChannel, canonical_retireBank, canonical_disableWays]

theorem giveCore_mm (s : State) (die core : Nat) : (s.giveCore die core).mm = s.mm := by
  grind [State.giveCore]

theorem ends_execRepairCommit {s : State} (h : s.canonical) (idx : Nat) : Ends State.canonical (execRepairCommit idx s) := by
  grind [execRepairCommit, giveCore_mm, errorMessage_mm, canonical_exhausted, canonical_logLoss, ends_next, canonical_iff]

theorem ends_execCoreReplace {s : State} (h : s.canonical) (die core : Nat) : Ends State.canonical (execCoreReplace die core s) := by
  grind [execCoreReplace, giveCore_mm, canonical_preemptAll, ends_next, canonical_iff]

theorem ends_execRowSpareCopy {s : State} (h : s.canonical) (bank row : Nat) : Ends State.canonical (execRowSpareCopy bank row s) := by
  grind [execRowSpareCopy, ends_next, canonical_iff]

theorem canonical_toVictimOnly {s : State} (h : s.canonical) (ks : List Nat) : (s.toVictimOnly ks).canonical := by
  grind [State.toVictimOnly, canonical_iff, MemSys.canon, canonical_foldl]

theorem ends_execChannelCopy {s : State} (h : s.canonical) (part : Part) (target : Nat) :
    Ends State.canonical (execChannelCopy part target s) := by
  unfold execChannelCopy
  cases part <;> grind [ends_next, canonical_toVictimOnly, canonical_iff]

theorem canonical_toNormal {s : State} (h : s.canonical) (ks : List Nat) : (s.toNormal ks).canonical := by
  grind [State.toNormal, canonical_iff, MemSys.canon, canonical_foldl]

theorem canonical_copyCacheRow {s : State} (h : s.canonical) (stack row n : Nat) : (s.copyCacheRow stack row n).canonical := by
  grind [State.copyCacheRow, canonical_toVictimOnly, canonical_toNormal, canonical_iff]

theorem ends_execCacheRowSpare {s : State} (h : s.canonical) (stack row : Nat) :
    Ends State.canonical (execCacheRowSpare stack row s) := by
  grind [execCacheRowSpare, canonical_disableWays, canonical_copyCacheRow, askRepair_mm, canonical_logLoss, ends_next, canonical_iff]

theorem ends_execScrubRead {s : State} (h : s.canonical) (granule : Nat) (found : ScrubFound) :
    Ends State.canonical (execScrubRead granule found s) := by
  grind [execScrubRead, askBank_mm, canonical_scrubbed, ends_next, canonical_iff]

theorem ends_execSramRailChange {s : State} (h : s.canonical) (die : Nat) (below : Bool) :
    Ends State.canonical (execSramRailChange die below s) := by
  grind [execSramRailChange, canonical_evictL2, canonical_iff, MemSys.canon, canonical_foldl, ends_next]

end Sys2Proof.Proofs
end

