-- ==== Sys2Proof/Proofs/CanonicalMailbox.lean ====
section
/-! SUPPORT. Fonak requests, control writes and mailbox commands keep memory in its one form. -/

namespace Sys2Proof.Proofs
open Sys2Proof Sys2Proof.Machine Sys2Proof.Laws
-- one proof at a time: many at once need more thread stacks than the check's memory limit leaves
set_option Elab.async false

theorem receiveFlit_mm (s : State) (m : ModuleId) (flit : Flit) : (s.receiveFlit m flit).1.mm = s.mm := by
  grind [State.receiveFlit]

theorem violation_mm (s : State) (r : FonakReq) : (s.violation r).mm = s.mm := rfl

theorem sourceSent_mm (s : State) (r : FonakReq) : (s.sourceSent r).mm = s.mm := by
  grind [State.sourceSent]

theorem answerAll_mm (s : State) (d : Option FonakDone) : (s.answerAll d).mm = s.mm := by
  cases d
  · rfl
  · exact answer_mm ..

theorem canonical_receive {s : State} (h : s.canonical) (op : BitVec 6) (r : FonakReq) (legal keep twice : Bool)
    {perform : State → State × Option FonakDone} (hp : ∀ t, t.canonical → (perform t).1.canonical) :
    (s.receive op r legal keep twice perform).canonical := by
  have h1 := hp _ (show (s.sourceSent r).canonical by rw [canonical_iff, sourceSent_mm]; exact h)
  have h2 := hp s h
  simp only [canonical_iff] at h h1 h2 ⊢
  unfold State.receive
  grind [violation_mm, answerAll_mm, answer_mm]

theorem holdReq_mm (s : State) (r : FonakReq) : (s.holdReq r).1.mm = s.mm := rfl

theorem waitAtBank_mm (s : State) (r : FonakReq) (l : Nat → List OrdReq) : (s.waitAtBank r l).mm = s.mm := rfl

theorem canonical_takeRead {s : State} (h : s.canonical) (req : FonakReq) : (s.takeRead req).canonical := by
  grind [State.takeRead, canonical_receive, canonical_readServed, waitAtBank_mm, canonical_iff]

theorem forwardMulticast_mm (s : State) (r : FonakReq) : (s.forwardMulticast r).1.mm = s.mm := by
  grind [State.forwardMulticast, holdReq_mm, sendMulticast_mm]

theorem startLease_mm (s : State) : (s.startLease).mm = s.mm := rfl

theorem ownerWrote_mm (s : State) (who : Agent) : (s.ownerWrote who).mm = s.mm := by
  grind [State.ownerWrote, startLease_mm]

theorem claim_mm (s : State) (who : Agent) (v : Word) : (s.claim who v).mm = s.mm := by
  grind [State.claim, startLease_mm, ownerWrote_mm]

theorem refusedWrite_mm (s : State) : (s.refusedWrite).mm = s.mm := rfl

theorem handoff_mm (s : State) (who : Agent) (v : Word) : (s.handoff who v).mm = s.mm := by
  grind [State.handoff, startLease_mm, refusedWrite_mm]

theorem writePower_mm (s : State) (who : Agent) (v : Word) : (s.writePower who v).mm = s.mm := by
  grind [State.writePower, startLease_mm, refusedWrite_mm]

theorem writeOther_mm (s : State) (who : Agent) (off : Nat) (v : Word) : (s.writeOther who off v).mm = s.mm := by
  grind [State.writeOther, startLease_mm, refusedWrite_mm]

theorem terakWrite_mm (s : State) (who : Agent) (off : Nat) (v : Word) : (s.terakWrite who off v).mm = s.mm := by
  grind [State.terakWrite, claim_mm, handoff_mm, writeOther_mm, writePower_mm]

theorem mbSet_mm (s : State) (die n : Nat) (v : Word) : (s.mbSet die n v).mm = s.mm := rfl

theorem mbStart_mm (s : State) (code : Nat) (c : MbCmd) : (s.mbStart code c).mm = s.mm := by
  grind [State.mbStart, mbSet_mm]

theorem mbFinish_mm (s : State) (code : Nat) (c : MbCmd) (status : Nat) (rets : List (Nat × Word)) :
    (s.mbFinish code c status rets).mm = s.mm := by
  rw [State.mbFinish]
  dsimp only
  rw [mbSet_mm, foldl_mm fun t r => mbSet_mm ..]

/-- The state in which a command ends or waits. -/
def mbState : MbEnd → State
  | .done t _ _ | .waits t => t

theorem canonical_mbRun {s : State} (h : s.canonical) (code : Nat) (c : MbCmd) {f : State → MbEnd}
    (hf : ∀ t, t.canonical → (mbState (f t)).canonical) :
    (s.mbRun code c f).canonical := by
  have hs : (s.mbStart code c).canonical := by rw [canonical_iff, mbStart_mm]; exact h
  unfold State.mbRun
  grind [mbState, mbFinish_mm, dropReplies_mm, canonical_iff]

theorem mbWritten_mm (s : State) (code : Nat) (c : MbCmd) (ownerOnly : Bool) : (s.mbWritten code c ownerOnly).mm = s.mm := by
  grind [State.mbWritten, ownerWrote_mm]

theorem canonical_mailboxRun {s : State} (h : s.canonical) (up : Bool) (code : Nat) (c : MbCmd) (ownerOnly : Bool) {f : State → MbEnd}
    (hf : ∀ t, t.canonical → (mbState (f t)).canonical) : (s.mailboxRun up code c ownerOnly f).canonical := by
  have hw : (s.mbWritten code c ownerOnly).canonical := by rw [canonical_iff, mbWritten_mm]; exact h
  have := canonical_mbRun hw code c hf
  unfold State.mailboxRun
  grind [ownerWrote_mm, canonical_iff]

theorem keeps_checkPieces (who : Who) (acc : Access) : ∀ l, Keeps State.canonical (checkPieces who acc l)
  | [] => keeps_pure _
  | _ :: l => keeps_bind (keeps_classify _ _ _ _) fun _ => keeps_bind (keeps_checkPieces who acc l) fun _ => keeps_pure _

theorem keeps_readPieces (who : Who) : ∀ l, Keeps State.canonical (readPieces who l)
  | [] => keeps_pure _
  | (va, n, w) :: l => by
    have ih := keeps_readPieces who l
    unfold readPieces
    refine keeps_get_of fun s h => ?_
    cases w <;>
      grind [keeps_bind, keeps_pure, keeps_set, keeps_needWay, keeps_fetchHome, keeps_bankLoad, keeps_readLine, canonical_readServed,
        canonical_cross]

theorem keeps_readRange (who : Who) (va n : Nat) : Keeps State.canonical (readRange who va n) := by
  grind [readRange, keeps_readPieces, keeps_checkPieces, keeps_bind]

theorem createJob_mm (s : State) (j : Job) (banks : BitVec 65536) (key : Nat) : (s.createJob j banks key).mm = s.mm := rfl

theorem canonical_invalidate {s : State} (h : s.canonical) (asid : Nat) (va : Word) (bits : Nat) :
    (s.invalidate asid va bits).canonical := by
  grind [State.invalidate, canonical_mapIcache, canonical_cleanL2, canonical_dropL2, canonical_mapL1, canonical_iff, MemSys.canon,
    canonical_foldl]

theorem uncacheQcb_mm (s : State) (qid : Nat) : (s.uncacheQcb qid).mm = s.mm := rfl

theorem keeps_writePieces (who : Who) : ∀ l bs, Keeps State.canonical (writePieces who l bs)
  | [], _ => keeps_pure _
  | (va, n, w) :: l, bs => by
    have ih := keeps_writePieces who l
    unfold writePieces
    refine keeps_get_of fun s h => ?_
    cases w <;>
      grind [keeps_bind, keeps_set, keeps_needWay, keeps_writeHome, keeps_bankStore, keeps_writeControl, keeps_fault,
        canonical_writeSeen, canonical_cross]

theorem keeps_writeRange (who : Who) (va : Nat) (bs : List Byte) : Keeps State.canonical (writeRange who va bs) := by
  grind [writeRange, keeps_writePieces, keeps_checkPieces, keeps_bind]

theorem canonical_withRead {s : State} (h : s.canonical) (die : Nat) (va : Word) (n : Nat) {f : State → List Byte → MbEnd}
    (hf : ∀ t l, t.canonical → (mbState (f t l)).canonical) : (mbState (withRead s die va n f)).canonical := by
  have := keeps_readRange (frontEnd die 0) va.toNat n s h
  unfold withRead
  grind [mbState, MbEnd.refuse]

theorem canonical_withWrite {s : State} (h : s.canonical) (die : Nat) (va : Word) (bs : List Byte) {f : State → MbEnd}
    (hf : ∀ t, t.canonical → (mbState (f t)).canonical) : (mbState (withWrite s die va bs f)).canonical := by
  have := keeps_writeRange (frontEnd die 0) va.toNat bs s h
  unfold withWrite
  grind [mbState, MbEnd.refuse]

theorem canonical_assignJob {s : State} (h : s.canonical) (j : Job) (map : Option (BitVec 65536)) :
    (mbState (s.assignJob j map)).canonical := by
  unfold State.assignJob
  grind [mbState, MbEnd.refuse, createJob_mm, canonical_iff]

theorem canonical_mbJobcreate {s : State} (h : s.canonical) (c : MbCmd) : (mbState (s.mbJobcreate c)).canonical := by
  unfold State.mbJobcreate
  split
  · exact h
  · refine canonical_withRead h _ _ _ fun t l ht => ?_
    have h2 := fun va n (f : State → List Byte → MbEnd) hf => @canonical_withRead t ht c.die va n f hf
    have h3 := @canonical_assignJob
    dsimp only
    split
    · exact ht
    · split
      · exact h3 ht ..
      · exact h2 _ _ _ fun u m hu => h3 hu ..

theorem canonical_mbJobend {s : State} (h : s.canonical) (c : MbCmd) : (mbState (s.mbJobend c)).canonical := by
  grind [State.mbJobend, mbState, MbEnd.refuse, MbEnd.ok, canonical_endJob]

theorem canonical_mbSetroot {s : State} (h : s.canonical) (c : MbCmd) : (mbState (s.mbSetroot c)).canonical := by
  grind [State.mbSetroot, mbState, MbEnd.refuse, MbEnd.ok, canonical_iff]

theorem canonical_mbInval {s : State} (h : s.canonical) (c : MbCmd) : (mbState (s.mbInval c)).canonical := by
  grind [State.mbInval, mbState, MbEnd.refuse, MbEnd.ok, canonical_invalidate]

theorem canonical_mbKreg {s : State} (h : s.canonical) (c : MbCmd) : (mbState (s.mbKreg c)).canonical := by
  grind [State.mbKreg, mbState, MbEnd.refuse, MbEnd.ok, canonical_iff]

theorem canonical_mbQstop {s : State} (h : s.canonical) (c : MbCmd) : (mbState (s.mbQstop c)).canonical := by
  grind [State.mbQstop, mbState, MbEnd.refuse, MbEnd.ok, canonical_setQ, canonical_unmapQueue, uncacheQcb_mm, canonical_serveMapWait,
    canonical_iff]

theorem canonical_mbSetqtab {s : State} (h : s.canonical) (c : MbCmd) : (mbState (s.mbSetqtab c)).canonical := by
  grind [State.mbSetqtab, mbState, MbEnd.refuse, MbEnd.ok, canonical_iff]

theorem canonical_mbQrestart {s : State} (h : s.canonical) (c : MbCmd) : (mbState (s.mbQrestart c)).canonical := by
  grind [State.mbQrestart, mbState, MbEnd.refuse, MbEnd.ok, canonical_putQcb, putSlot_mm, canonical_retire, canonical_mapQueue,
    canonical_iff]

theorem canonical_mbSetbar2 {s : State} (h : s.canonical) (c : MbCmd) : (mbState (s.mbSetbar2 c)).canonical := by
  grind [State.mbSetbar2, mbState, MbEnd.refuse, MbEnd.ok, canonical_iff]

theorem canonical_mbSetdev {s : State} (h : s.canonical) (c : MbCmd) : (mbState (s.mbSetdev c)).canonical := by
  unfold State.mbSetdev
  split
  · exact h
  · split
    · exact h
    · exact ⟨foldl_keeps (fun b => Memory.wf b = true) _ (fun _ _ hw => wf_set hw _ _) _ _ rfl,
        foldl_keeps (fun p : List Nat => p.Pairwise (· < ·)) _ (fun _ _ hw => pairwise_setPoison hw _ _) _ _ List.Pairwise.nil⟩

theorem canonical_mbSetpcap {s : State} (h : s.canonical) (c : MbCmd) : (mbState (s.mbSetpcap c)).canonical := by
  grind [State.mbSetpcap, mbState, MbEnd.refuse, MbEnd.ok, canonical_iff]

theorem canonical_mbSetmcast {s : State} (h : s.canonical) (c : MbCmd) : (mbState (s.mbSetmcast c)).canonical := by
  grind [State.mbSetmcast, mbState, MbEnd.refuse, MbEnd.ok, canonical_iff]

theorem canonical_copyReport {s : State} (h : s.canonical) (c : MbCmd) (l : List Byte) : (mbState (s.copyReport c l)).canonical := by
  have := keeps_writeRange (frontEnd c.die 0) c.a1.toNat l s h
  unfold State.copyReport
  grind [mbState, MbEnd.refuse, canonical_iff]

theorem canonical_mbAttest {s : State} (h : s.canonical) (c : MbCmd) : (mbState (s.mbAttest c)).canonical := by
  unfold State.mbAttest
  split
  · exact canonical_copyReport h ..
  · split
    · exact h
    · split
      · exact h
      · refine canonical_withRead h _ _ _ fun t nonce ht => ?_
        have hu : (t.signReport nonce).canonical := ht
        have := canonical_copyReport hu c ((t.signReport nonce).terak.report.getD [])
        grind [mbState, MbEnd.refuse]

theorem canonical_mbReadlog {s : State} (h : s.canonical) (c : MbCmd) : (mbState (s.mbReadlog c)).canonical := by
  unfold State.mbReadlog
  split
  · exact h
  · exact canonical_withWrite h _ _ _ fun t ht => ht

theorem canonical_mbJobstat {s : State} (h : s.canonical) (c : MbCmd) : (mbState (s.mbJobstat c)).canonical := by
  have hg : ∀ l : List Byte, (mbState (if c.a2.toNat < l.length then MbEnd.refuse s 2
      else withWrite s c.die c.a1 l (fun t => .done t 0 [(3, BitVec.ofNat 64 l.length)]))).canonical := by
    intro l
    split
    · exact h
    · exact canonical_withWrite h _ _ _ fun t ht => ht
  unfold State.mbJobstat
  dsimp only
  split
  · exact hg _
  · split
    · exact hg _
    · exact h

theorem canonical_mbCommand {s : State} (h : s.canonical) (code : Nat) (c : MbCmd) : (mbState ((mbCommand code).2 s c)).canonical := by
  unfold mbCommand
  split
  · exact canonical_mbJobcreate h c
  · exact canonical_mbJobend h c
  · exact canonical_mbSetroot h c
  · exact canonical_mbInval h c
  · exact canonical_mbQstop h c
  · exact canonical_mbSetqtab h c
  · exact canonical_mbKreg h c
  · exact canonical_mbSetbar2 h c
  · exact canonical_mbSetdev h c
  · exact canonical_mbSetpcap h c
  · exact canonical_mbSetmcast h c
  · exact canonical_mbAttest h c
  · exact canonical_mbReadlog h c
  · exact h
  · exact canonical_mbJobstat h c
  · exact canonical_mbQrestart h c
  · exact canonical_withWrite h _ _ _ fun t ht => ht
  · exact h

theorem canonical_mailboxWrite {s : State} (h : s.canonical) (c : MbCmd) (code : Nat) : (s.mailboxWrite c code).canonical :=
  canonical_mailboxRun h _ _ _ _ fun t ht => canonical_mbCommand ht code c

theorem canonical_mailboxReg {s : State} (h : s.canonical) (who : Agent) (die off : Nat) (v : Word) :
    (s.mailboxReg who die off v).canonical := by
  grind [State.mailboxReg, mbSet_mm, canonical_mailboxWrite, ownerWrote_mm, canonical_iff]

theorem canonical_controlWrite {s : State} (h : s.canonical) (who : Agent) (die off : Nat) (mask : BitVec 8) (v : Word) :
    (s.controlWrite who die off mask v).canonical := by
  grind [State.controlWrite, canonical_notify, terakWrite_mm, canonical_mailboxReg, canonical_iff]

theorem canonical_controlLineWrite {s : State} (h : s.canonical) (r : FonakReq) : (s.controlLineWrite r).canonical := by
  grind [State.controlLineWrite, canonical_controlWrite, canonical_iff, canonical_foldl]

theorem canonical_storeFor {s : State} (h : s.canonical) (r : FonakReq) (ln : Nat) (v : LineVal) (mask : BitVec 128) :
    (s.storeFor r ln v mask).1.canonical := by
  grind [State.storeFor, canonical_writeSeen, waitAtBank_mm, canonical_iff]

theorem canonical_takeWrite {s : State} (h : s.canonical) (req : FonakReq) : (s.takeWrite req).canonical := by
  grind [State.takeWrite, canonical_controlLineWrite, canonical_receive, canonical_storeFor, forwardMulticast_mm, canonical_iff]

theorem canonical_takeAtomic {s : State} (h : s.canonical) (req : FonakReq) : (s.takeAtomic req).canonical := by
  grind [State.takeAtomic, canonical_receive, canonical_atomicHome]

theorem canonical_takeRegion {s : State} (h : s.canonical) (req : FonakReq) : (s.takeRegion req).canonical := by
  grind [State.takeRegion, canonical_receive, canonical_regionHome]

theorem canonical_takeMarker {s : State} (h : s.canonical) (r : FonakReq) : (s.takeMarker r).canonical :=
  canonical_receive h _ _ _ _ _ fun t ht => by split <;> exact ht

theorem canonical_takeInterrupt {s : State} (h : s.canonical) (r : FonakReq) : (s.takeInterrupt r).canonical :=
  canonical_receive h _ _ _ _ _ fun t ht => by rw [canonical_iff, interrupt_mm]; exact ht

theorem canonical_outLines {s : State} (h : s.canonical) (die ln : Nat) (v : LineVal) : (s.outLines die ln v).canonical := by
  grind [State.outLines, canonical_iff, MemSys.canon, canonical_foldl]

theorem canonical_takeCheckout {s : State} (h : s.canonical) (req : FonakReq) : (s.takeCheckout req).canonical := by
  grind [State.takeCheckout, canonical_receive, canonical_outLines, canonical_checkOut]

theorem canonical_checkInHome {s : State} (h : s.canonical) (r : FonakReq) : (s.checkInHome r).canonical := by
  grind [State.checkInHome, canonical_takeTwin, canonical_freeTwin, canonical_iff, MemSys.canon, canonical_foldl]

theorem canonical_takeCheckIn {s : State} (h : s.canonical) (req : FonakReq) : (s.takeCheckIn req).canonical := by
  grind [State.takeCheckIn, canonical_receive, canonical_checkInHome]

theorem canonical_takeRecall {s : State} (h : s.canonical) (req : FonakReq) : (s.takeRecall req).canonical := by
  grind [State.takeRecall, canonical_receive, canonical_cleanL2]

theorem canonical_takeMulticast {s : State} (h : s.canonical) (req : FonakReq) (group : Nat) : (s.takeMulticast req group).canonical := by
  grind [State.takeMulticast, canonical_receive, canonical_storeFor]

theorem canonical_takeRequest {s : State} (h : s.canonical) (r : FonakReq) : (s.takeRequest r).canonical := by
  grind [State.takeRequest, canonical_takeInterrupt, canonical_takeWrite, canonical_takeRecall, canonical_takeCheckout,
    canonical_takeRegion, canonical_takeMarker, canonical_takeAtomic, canonical_takeMulticast, violation_mm, canonical_takeCheckIn,
    canonical_takeRead, canonical_iff]

theorem canonical_takeCompletion {s : State} (h : s.canonical) (fin : FonakDone) : (s.takeCompletion fin).canonical := by
  grind [State.takeCompletion, settleAtBank_mm, canonical_settleLeagues, deliver_mm, settleReq_mm, canonical_iff]

theorem canonical_handOver {s : State} (h : s.canonical) (m : ModuleId) (x : Txn) : (s.handOver m x).canonical := by
  have hm := sendOn_mm s (some m) x
  unfold State.handOver
  grind [canonical_takeRequest, canonical_takeCompletion, canonical_iff]

theorem ends_execFlitReceive {s : State} (h : s.canonical) (m : ModuleId) (flit : Flit) :
    Ends State.canonical (execFlitReceive m flit s) := by
  grind [execFlitReceive, receiveFlit_mm, canonical_handOver, ends_next, canonical_iff]

theorem ends_execNulFlitTimer {s : State} (h : s.canonical) (m : ModuleId) : Ends State.canonical (execNulFlitTimer m s) := by
  grind [execNulFlitTimer, ends_next, canonical_iff]

theorem ends_execLaneLockLoss {s : State} (h : s.canonical) (m : ModuleId) : Ends State.canonical (execLaneLockLoss m s) := by
  grind [execLaneLockLoss, ends_next, canonical_iff]

theorem canonical_retireModule {s : State} (h : s.canonical) (m : ModuleId) (test : Option LaneTest) :
    (s.retireModule m test).canonical := by
  grind [State.retireModule, canonical_losePlane, canonical_flushBank, askRepair_mm, canonical_logLoss, canonical_iff]

theorem ends_execModuleRetrainEnd {s : State} (h : s.canonical) (m : ModuleId) (test : LaneTest) :
    Ends State.canonical (execModuleRetrainEnd m test s) := by
  grind [execModuleRetrainEnd, canonical_flushBank, bankError_mm, askRepair_mm, canonical_logLoss, canonical_retireModule, ends_next,
    canonical_iff]

theorem ends_execEseqGapTimeout {s : State} (h : s.canonical) (key : StreamKey) : Ends State.canonical (execEseqGapTimeout key s) := by
  grind [execEseqGapTimeout, ends_next, canonical_iff]

end Sys2Proof.Proofs
end

