-- ==== Sys2Proof/Proofs/CanonicalLinks.lean ====
section
/-! SUPPORT. Planes, restarts, leases and the host's windows keep memory in its one form. -/

namespace Sys2Proof.Proofs
open Sys2Proof Sys2Proof.Machine Sys2Proof.Laws
-- one proof at a time: many at once need more thread stacks than the check's memory limit leaves
set_option Elab.async false

theorem resend_mm (s : State) (key : StreamKey) (p : FonakReq → Bool) : (s.resend key p).mm = s.mm := by
  unfold State.resend
  dsimp only
  split
  · rw [foldl_mm fun t r => sendOn_mm ..]
  · rfl

theorem ends_execResendRequest {s : State} (h : s.canonical) (key : StreamKey) (eseq : BitVec 20) :
    Ends State.canonical (execResendRequest key eseq s) := by
  grind [execResendRequest, resend_mm, ends_next, canonical_iff]

theorem ends_execRouterCreditTimeout {s : State} (h : s.canonical) (plane x1 y : Nat) :
    Ends State.canonical (execRouterCreditTimeout plane x1 y s) := by
  grind [execRouterCreditTimeout, errorMessage_mm, canonical_losePlane, canonical_logLoss, canonical_retireModule, ends_next,
    canonical_iff, canonical_foldl]

theorem ends_execPlaneDead {s : State} (h : s.canonical) (plane : Nat) : Ends State.canonical (execPlaneDead plane s) := by
  grind [execPlaneDead, canonical_losePlane, ends_next]

theorem quiescePlane_mm (s : State) (p : Nat) : (s.quiescePlane p).mm = s.mm := by
  grind [State.quiescePlane]

theorem drainPlane_mm (s : State) (p : Nat) : (s.drainPlane p).mm = s.mm := by
  grind [State.drainPlane, tell_mm]

theorem packageFatal_mm (s : State) (code : BitVec 8) (bankId : BitVec 32) : (s.packageFatal code bankId).mm = s.mm := rfl

theorem remapPlane_mm (s : State) (p : Nat) : (s.remapPlane p).mm = s.mm := by
  grind [State.remapPlane, packageFatal_mm]

theorem canonical_resumePlane {s : State} (h : s.canonical) (p : Nat) : (s.resumePlane p).canonical := by
  grind [State.resumePlane, resend_mm, canonical_settleLeagues, canonical_iff, canonical_foldl]

theorem restart_mm (s : State) (who : Processor) (n : Nat) (img : BootImage) : (s.restart who n img).mm = s.mm := by
  grind [State.restart, imageFails_mm, bankError_mm, measure_mm]

theorem canonical_retireStack {s : State} (h : s.canonical) (k : Nat) : (s.retireStack k).canonical := by
  grind [State.retireStack, canonical_flushBank, askRepair_mm, canonical_logLoss, canonical_endJobs, canonical_iff]

theorem ends_execFirmwareWatchdogExpiry {s : State} (h : s.canonical) (who : Processor) (img : BootImage) :
    Ends State.canonical (execFirmwareWatchdogExpiry who img s) := by
  unfold execFirmwareWatchdogExpiry
  cases who <;> grind [ends_next, restart_mm, packageFatal_mm, canonical_retireStack, canonical_iff]

theorem ends_execDeadmanRefresh {s : State} (h : s.canonical) : Ends State.canonical (execDeadmanRefresh s) := by
  grind [execDeadmanRefresh, ends_next, canonical_iff]

theorem ends_execDeadmanExpiry {s : State} (h : s.canonical) : Ends State.canonical (execDeadmanExpiry s) := by
  refine (ends_next _).2 ?_
  split
  · rw [canonical_iff, packageFatal_mm]
    exact h
  · exact h

theorem ends_execClass5Declare {s : State} (h : s.canonical) (part : Part) (id : Option (BitVec 32)) :
    Ends State.canonical (execClass5Declare part id s) := by
  cases id <;> grind [execClass5Declare, ends_next, packageFatal_mm, canonical_iff]

theorem ends_execFrontEndsReady {s : State} (h : s.canonical) : Ends State.canonical (execFrontEndsReady s) := by
  grind [execFrontEndsReady, canonical_toNormal, ends_next, canonical_iff]

theorem ends_execRegisterWrite {s : State} (h : s.canonical) (who : Agent) (p : CtlPlace) (v : DwordWrite) :
    Ends State.canonical (execRegisterWrite who p v s) := by
  grind [execRegisterWrite, canonical_controlWrite, ends_next]

theorem ends_execLeaseWarning {s : State} (h : s.canonical) : Ends State.canonical (execLeaseWarning s) := by
  grind [execLeaseWarning, errorMessage_mm, ends_next, canonical_iff]

theorem ends_execLeaseExpiry {s : State} (h : s.canonical) : Ends State.canonical (execLeaseExpiry s) := by
  grind [execLeaseExpiry, ends_next, canonical_iff]

theorem barReturns_mm (s : State) (l : List Byte) : (s.barReturns l).mm = s.mm := rfl

theorem ends_execBar2Read {s : State} (h : s.canonical) (p : HostAddr) (size : Nat) : Ends State.canonical (execBar2Read p size s) := by
  have hr := keeps_readRange s.barHost (s.fe.bar2.2 + p.offset) size s h
  unfold execBar2Read
  grind [ends_next, barReturns_mm, canonical_iff]

theorem canonical_controlPosted {s : State} (h : s.canonical) (offset : Nat) (data : List Byte) :
    (s.controlPosted offset data).canonical := by
  grind [State.controlPosted, canonical_controlWrite, canonical_iff, canonical_foldl]

theorem canonical_performPosted {s : State} (h : s.canonical) (p : Bar × Nat × List Byte) : (s.performPosted p).1.canonical := by
  have hw := keeps_writeRange s.barHost (s.fe.bar2.2 + p.2.1) p.2.2 s h
  unfold State.performPosted
  grind [canonical_controlPosted]

theorem canonical_drainPosted : ∀ (fuel : Nat) {s : State}, s.canonical → (s.drainPosted fuel).canonical
  | 0, _, h => h
  | fuel + 1, s, h => by
    have ih := @canonical_drainPosted fuel
    have hp := @canonical_performPosted s h
    rw [State.drainPosted]
    grind [dropReplies_mm, canonical_iff]

theorem ends_execBar2Write {s : State} (h : s.canonical) (p : HostAddr) (data : List Byte) :
    Ends State.canonical (execBar2Write p data s) := by
  grind [execBar2Write, canonical_drainPosted, ends_next, canonical_iff]

theorem ends_execResendsCompleteSignal {s : State} (h : s.canonical) (key : StreamKey) :
    Ends State.canonical (execResendsCompleteSignal key s) := by
  grind [execResendsCompleteSignal, ends_next, canonical_iff]

theorem canonical_endChannelCopy {s : State} (h : s.canonical) (c : ChanCopy) : (s.endChannelCopy c).canonical := by
  grind [State.endChannelCopy, canonical_toNormal, canonical_iff]

theorem ends_execChannelCopyRow {s : State} (h : s.canonical) (id : Nat) : Ends State.canonical (execChannelCopyRow id s) := by
  grind [execChannelCopyRow, canonical_endChannelCopy, canonical_iff, MemSys.canon, canonical_foldl, ends_next]

end Sys2Proof.Proofs
end

