-- ==== Sys2Proof/Proofs/CanonicalStep.lean ====
section
/-! SUPPORT. Every instruction, event and duty keeps memory in its one form, and so does every step. -/

namespace Sys2Proof.Proofs
open Sys2Proof Sys2Proof.Machine Sys2Proof.Laws
-- one proof at a time: many at once need more thread stacks than the check's memory limit leaves
set_option Elab.async false

theorem ends_exec {s : State} (h : s.canonical) (i : Instr) : Ends State.canonical (exec i s) := by
  cases i with
  | add | sub | and | or | xor | sll | srl | sra | slt | sltu | min | max | minu | maxu | clz | ctz | popc | mul | mulh | mulhu
    | div | divu | rem | remu | addi | andi | ori | xori | slti | sltiu | slli | srli | srai | lui | auipc | jal | vdrain | wfi
    | ixset | ixbnd | ixstep | ixlane | nbset | vrfRefreshStep | bankOrdinaryRequest | arbitrationWindowBoundary
    | firmwareHeartbeat | packageReset | errorMessageDelivered =>
    exact (ends_next _).2 h
  | lb | lh | lw | ld | lbu | lhu | lwu =>
    exact ends_settle (keepsM_scalarLoad _ _ _ _ _ _) h
  | vmvv | vadd | vsub | vmul | vmac | vnmac | vmin | vmax | vabs | vneg | vand | vor | vxor | vsll | vsrl | vsra | vmerge | vdiv
    | vsqrt | vrcp | vrsq | vexp2 | vlog2 | vclass | vconj | vcvt | vdqnt | vshrr | vscansum | vslideup | vslidedn | vgathr
    | vcompress | vexpand | vbcast | viota =>
    exact ends_settle (keepsM_vectorOp _ _ _ _) h
  | vcmpeq | vcmpne | vcmplt | vcmple =>
    exact ends_settle (keepsM_vectorCompare _ _ _ _ _ _) h
  | vredsum | vredmax | vredmin | vredand | vredor =>
    exact ends_settle (keepsM_vectorReduce _ _ _ _ _ _ _) h
  | mand | mor | mxor | mnot =>
    exact ends_settle (keepsM_maskOp _ _ _ _) h
  | vld | vlds | vldg | vldseg =>
    exact ends_settle (keepsM_vload _ _ _ _ _ _) h
  | vst | vsts | vstsc | vstseg =>
    exact ends_settle (keepsM_vstore _ _ _ _ _) h
  | beq | bne | blt | bge | bltu | bgeu =>
    exact ends_mm (branch_mm _ _ _) h
  | sb | sh | sw | sd =>
    exact ends_settle (keepsM_scalarStore _ _ _ _) h
  | amoadd | amoswap | amocas | amomin | amomax | amominu | amomaxu | amoand | amoor | amoxor =>
    exact ends_settle (keepsM_scalarAtomic _ _ _ _ _ _ _ _ _) h
  | alre =>
    exact ends_runRegion h _ _ _
  | lleave =>
    exact (ends_next _).2 (canonical_leaveLeague h _)
  | ecall | ebreak | poolMarker =>
    exact (ends_next _).2 (canonical_raise h _)
  | csrr | csrw | csrs | csrc =>
    exact ends_settle (keepsM_csrAccess _ _ _ _) h
  | ract | rcopy | rclr =>
    exact (ends_next _).2 (canonical_rowOp h _ _ _)
  | radd | rshadd | racc =>
    exact (ends_next _).2 (canonical_rowOpW h _ _ _ _)
  | notifyWrite =>
    exact (ends_next _).2 (canonical_notify h _ _ _ _ _)
  | hartPromotion | debuggerHalt | debuggerResume =>
    exact ends_mm (onHart_mm _ _ _) h
  | fonakRead =>
    exact (ends_next _).2 (canonical_takeRead h _)
  | fonakPostedWrite =>
    exact (ends_next _).2 (canonical_takeWrite h _)
  | fonakAtomic =>
    exact (ends_next _).2 (canonical_takeAtomic h _)
  | fonakRegion =>
    exact (ends_next _).2 (canonical_takeRegion h _)
  | fonakFenceMarker =>
    exact (ends_next _).2 (canonical_takeMarker h _)
  | fonakInterrupt =>
    exact (ends_next _).2 (canonical_takeInterrupt h _)
  | fonakCheckout =>
    exact (ends_next _).2 (canonical_takeCheckout h _)
  | fonakCheckIn =>
    exact (ends_next _).2 (canonical_takeCheckIn h _)
  | fonakRecall =>
    exact (ends_next _).2 (canonical_takeRecall h _)
  | fonakCompletion =>
    exact (ends_next _).2 (canonical_takeCompletion h _)
  | fonakMulticastWrite =>
    exact (ends_next _).2 (canonical_takeMulticast h _ _)
  | planeQuiesce =>
    exact ends_mm (quiescePlane_mm _ _) h
  | planeDrainComplete =>
    exact ends_mm (drainPlane_mm _ _) h
  | planeRemap =>
    exact ends_mm (remapPlane_mm _ _) h
  | planeResume =>
    exact (ends_next _).2 (canonical_resumePlane h _)
  | claim =>
    exact ends_mm (claim_mm _ _ _) h
  | handoff =>
    exact ends_mm (handoff_mm _ _ _) h
  | powerWrite =>
    exact ends_mm (writePower_mm _ _ _) h
  | jobcreate | jobend | setroot | inval | qstop | setqtab | kreg | setbar2 | setdev | setpcap | setmcast | attest | readlog
    | seterrmsg | jobstat | qrestart | repairs =>
    exact (ends_next _).2 (canonical_mailboxWrite h _ _)
  | jalr => exact ends_execJalr h _ _ _
  | ldacq => exact ends_execLdacq h _ _ _ _ _
  | sdrel => exact ends_execSdrel h _ _ _ _
  | ldref => exact ends_execLdref h _ _ _ _ _ _
  | sdref => exact ends_execSdref h _ _ _
  | spub => exact ends_execSpub h _ _ _ _
  | rtag => exact ends_execRtag h _ _ _
  | objinit => exact ends_execObjinit h _ _ _
  | alrb => exact ends_execAlrb h
  | fence => exact ends_execFence h _ _
  | binit => exact ends_execBinit h _
  | barr => exact ends_execBarr h _ _
  | bwait => exact ends_execBwait h _ _
  | ljoin => exact ends_execLjoin h _ _
  | waitc => exact ends_execWaitc h _ _ _
  | spalloc => exact ends_execSpalloc h _ _
  | spfree => exact ends_execSpfree h _
  | eret => exact ends_execEret h
  | yield => exact ends_execYield h
  | halt => exact ends_execHalt h
  | vsetl => exact ends_execVsetl h _ _ _
  | vdecl => exact ends_execVdecl h _ _
  | vmode => exact ends_execVmode h _ _ _
  | vmvx => exact ends_execVmvx h _ _ _ _
  | vqnt => exact ends_execVqnt h _ _ _ _
  | vqi8 => exact ends_execVqi8 h _ _ _ _
  | mpop => exact ends_execMpop h _ _ _
  | mfirst => exact ends_execMfirst h _ _ _
  | msetvl => exact ends_execMsetvl h _ _ _
  | mmode => exact ends_execMmode h _ _
  | opa => exact ends_execOpa h _ _ _ _ _ _
  | azero => exact ends_execAzero h _
  | acld => exact ends_execAcld h _ _ _
  | acrd => exact ends_execAcrd h _ _ _ _ _
  | acst => exact ends_execAcst h _ _ _ _
  | mexit => exact ends_execMexit h
  | cbld => exact ends_execCbld h _ _ _ _
  | tbld => exact ends_execTbld h _ _ _ _ _
  | lka => exact ends_execLka h _ _ _
  | nbld => exact ends_execNbld h _ _ _
  | nbrun => exact ends_execNbrun h _ _ _
  | nbstat => exact ends_execNbstat h _ _ _
  | nbdrain => exact ends_execNbdrain h _ _ _ _
  | tcopy => exact ends_execTcopy h _ _
  | tstat => exact ends_execTstat h _ _ _
  | rend => exact ends_execRend h
  | rlka => exact ends_execRlka h _ _
  | rbr => exact ends_execRbr h _
  | rloop => exact ends_execRloop h _ _
  | rsync => exact ends_execRsync h
  | powerGood => exact ends_execPowerGood h _
  | stackManagersReady => exact ends_execStackManagersReady h _
  | ordinaryRequestDataMoved => exact ends_execOrdinaryRequestDataMoved h _
  | queueMap => exact ends_execQueueMap h _ _
  | queueIdleTimeout => exact ends_execQueueIdleTimeout h _ _
  | packetEnterWindow => exact ends_execPacketEnterWindow h _ _
  | packetLaunch => exact ends_execPacketLaunch h _ _
  | packetComplete => exact ends_execPacketComplete h _ _ _
  | dispatch => exact ends_execDispatch h _
  | priorityPreemptTimeout => exact ends_execPriorityPreemptTimeout h _
  | hartPreempt => exact ends_execHartPreempt h _
  | vrfBankDrowsy => exact ends_execVrfBankDrowsy h _ _ _
  | wfiTimeout => exact ends_execWfiTimeout h _
  | kernelWatchdogExpiry => exact ends_execKernelWatchdogExpiry h _
  | watchdogGraceExpiry => exact ends_execWatchdogGraceExpiry h _
  | trapEntry => exact ends_execTrapEntry h _ _
  | pageFaultService => exact ends_execPageFaultService h _ _ _
  | furlongCommit => exact ends_execFurlongCommit h _
  | furlongRewind => exact ends_execFurlongRewind h _
  | jobEndByError => exact ends_execJobEndByError h _ _
  | memoryFrontRequest => exact ends_execMemoryFrontRequest h _ _ _ _
  | bloomSliceClear => exact ends_execBloomSliceClear h _ _
  | atomicAtHome => exact ends_execAtomicAtHome h _ _ _ _ _
  | regionAtHome => exact ends_execRegionAtHome h _
  | walkStart => exact ends_execWalkStart h _
  | walkObjectVisit => exact ends_execWalkObjectVisit h _
  | walkComplete => exact ends_execWalkComplete h _
  | bankCommandStart => exact ends_execBankCommandStart h _
  | bankCommandComplete => exact ends_execBankCommandComplete h _
  | reductionDrain => exact ends_execReductionDrain h _
  | rowOperationEnd => exact ends_execRowOperationEnd h _
  | suspensionWindowEnd => exact ends_execSuspensionWindowEnd h _
  | powerBudgetExceeded => exact ends_execPowerBudgetExceeded h _
  | matrixOperation => exact ends_execMatrixOperation h _
  | tcopyRow => exact ends_execTcopyRow h _
  | tcopyComplete => exact ends_execTcopyComplete h _
  | tcopyStop => exact ends_execTcopyStop h _ _ _
  | errorBankEvent => exact ends_execErrorBankEvent h _ _
  | errorBankReadAndClear id act => exact ends_execErrorBankReadAndClear h id act
  | errorCountWindowEnd => exact ends_execErrorCountWindowEnd h _
  | completionTimeout => exact ends_execCompletionTimeout h _ _
  | postedWriteTimeout => exact ends_execPostedWriteTimeout h _ _
  | pcieAtomicopCompletion => exact ends_execPcieAtomicopCompletion h _ _ _
  | repairCommit => exact ends_execRepairCommit h _
  | coreReplace => exact ends_execCoreReplace h _ _
  | rowSpareCopy => exact ends_execRowSpareCopy h _ _
  | channelCopy => exact ends_execChannelCopy h _ _
  | cacheRowSpare => exact ends_execCacheRowSpare h _ _
  | scrubRead => exact ends_execScrubRead h _ _
  | sramRailChange => exact ends_execSramRailChange h _ _
  | flitReceive => exact ends_execFlitReceive h _ _
  | nulFlitTimer => exact ends_execNulFlitTimer h _
  | laneLockLoss => exact ends_execLaneLockLoss h _
  | moduleRetrainEnd => exact ends_execModuleRetrainEnd h _ _
  | eseqGapTimeout => exact ends_execEseqGapTimeout h _
  | resendRequest => exact ends_execResendRequest h _ _
  | routerCreditTimeout => exact ends_execRouterCreditTimeout h _ _ _
  | planeDead => exact ends_execPlaneDead h _
  | firmwareWatchdogExpiry => exact ends_execFirmwareWatchdogExpiry h _ _
  | deadmanRefresh => exact ends_execDeadmanRefresh h
  | deadmanExpiry => exact ends_execDeadmanExpiry h
  | class5Declare part id => exact ends_execClass5Declare h part id
  | frontEndsReady => exact ends_execFrontEndsReady h
  | registerWrite => exact ends_execRegisterWrite h _ _ _
  | leaseWarning => exact ends_execLeaseWarning h
  | leaseExpiry => exact ends_execLeaseExpiry h
  | bar2Read => exact ends_execBar2Read h _ _
  | bar2Write => exact ends_execBar2Write h _ _
  | resendsCompleteSignal => exact ends_execResendsCompleteSignal h _
  | channelCopyRow => exact ends_execChannelCopyRow h _

theorem keeps_furlongPre (i : Instr) : Keeps State.canonical (furlongPre i) := by
  grind [furlongPre, keeps_commitFurlong, keeps_bind, keeps_get_of, keeps_set, keeps_modify, keeps_pure, canonical_iff, MemSys.canon,
    canonical_foldl]

theorem canonical_wakeFile {s : State} (h : s.canonical) (i : Instr) : (s.wakeFile i).canonical := by
  grind [State.wakeFile, canonical_iff, MemSys.canon, canonical_foldl]

theorem canonical_begin {s : State} (h : s.canonical) (i : Instr) : (s.begin i).canonical := by
  grind [State.begin, canonical_wakeFile, canonical_iff]

theorem dropFurlong_mm (s : State) : (s.dropFurlong).mm = s.mm := rfl

theorem ends_runInstr {s : State} (h : s.canonical) (i : Instr) : Ends State.canonical (s.runInstr i) := by
  have hk := keeps_furlongPre i s h
  have hd : s.dropFurlong.canonical := by rw [canonical_iff, dropFurlong_mm]; exact h
  unfold State.runInstr
  grind [ends_next, ends_exec, canonical_begin, State_hold_mm, canonical_iff]

theorem ends_runHart {s : State} (h : s.canonical) : Ends State.canonical s.runHart := by
  have hk := keeps_fetchWord s.who s.hart.pc s h
  unfold State.runHart
  grind [ends_next, ends_runInstr, canonical_raise, canonical_consumePoison, State_hold_mm, canonical_iff]

theorem countIssue_mm (s : State) (ready : List Nat) : (s.countIssue ready).mm = s.mm := rfl

theorem afterTurn_mm (s : State) (ready : List Nat) : (s.afterTurn ready).mm = s.mm := by
  grind [State.afterTurn, countIssue_mm]

theorem ends_hartTurn {s : State} (h : s.canonical) (uid : Nat) : Ends State.canonical (s.hartTurn uid) := by
  grind [State.hartTurn, canonical_trapEntry, wfiCommit_mm, ends_runHart, focusOn_mm, afterTurn_mm, ends_exec, ends_next, canonical_iff]

theorem ends_bankStep {s : State} (h : s.canonical) (b : Nat) : Ends State.canonical (s.bankStep b) := by
  grind [State.bankStep, ends_exec, endRun_mm, poisonRun_mm, ends_next, canonical_iff]

theorem canonical_stateOr {r : Res} {s : State} (hr : Ends State.canonical r) (h : s.canonical) : (r.stateOr s).canonical := by
  unfold Res.stateOr
  grind [Ends]

theorem released_mm (s : State) (who : Processor) : (s.released who).mm = s.mm := rfl

theorem canonical_mailboxVisit {s : State} (h : s.canonical) (c : MbCmd) (code : Nat) : (s.mailboxVisit c code).canonical :=
  canonical_mbRun h _ _ fun t ht => canonical_mbCommand ht code c

/-- The function keeps memory canonical. -/
def KeepsCanonical (f : State → State) : Prop := ∀ s, s.canonical → (f s).canonical

theorem keepsCanonical_stateOr {f : State → Res} (hf : ∀ s : State, s.canonical → Ends State.canonical (f s)) :
    KeepsCanonical fun s => (f s).stateOr s := fun s h => canonical_stateOr (hf s h) h

theorem flitDuty_keeps (s : State) : ∀ f ∈ s.flitDuty, KeepsCanonical f := by
  intro f hf
  unfold State.flitDuty at hf
  split at hf
  · obtain ⟨x, -, rfl⟩ := Option.mem_map.1 hf
    exact keepsCanonical_stateOr fun t ht => ends_execFlitReceive ht _ _
  · obtain ⟨x, -, rfl⟩ := Option.mem_map.1 hf
    exact keepsCanonical_stateOr fun t ht => ends_execNulFlitTimer ht _

theorem streamDuty_keeps (s : State) : ∀ f ∈ s.streamDuty, KeepsCanonical f := by
  intro f hf
  unfold State.streamDuty at hf
  split at hf
  · obtain rfl := Option.mem_some_iff.1 hf
    intro t ht
    rw [canonical_iff, resend_mm]
    exact ht
  · obtain ⟨x, -, rfl⟩ := Option.mem_map.1 hf
    exact keepsCanonical_stateOr fun t ht => ends_execResendsCompleteSignal ht _

theorem mem_ite_none {α : Type} {p : α → Prop} {c : Prop} [Decidable c] {x f : α} (hx : p x) (hf : f ∈ if c then some x else none) :
    p f := by
  split at hf
  · obtain rfl := Option.mem_some_iff.1 hf
    exact hx
  · cases hf

theorem repairDuty_keeps (s : State) (i : Nat) (r : Repair) : ∀ f ∈ s.repairDuty i r, KeepsCanonical f := by
  have h1 : KeepsCanonical fun t => (execRepairCommit i t).stateOr t := keepsCanonical_stateOr fun t ht => ends_execRepairCommit ht _
  have h2 : KeepsCanonical fun t => (execChannelCopy r.part (r.spare.getD 0) t).stateOr t :=
    keepsCanonical_stateOr fun t ht => ends_execChannelCopy ht _ _
  have h3 : ∀ d c, KeepsCanonical fun t => (execCoreReplace d c t).stateOr t := fun d c =>
    keepsCanonical_stateOr fun t ht => ends_execCoreReplace ht _ _
  have h4 : ∀ d c, KeepsCanonical fun t => (execRowSpareCopy d c t).stateOr t := fun d c =>
    keepsCanonical_stateOr fun t ht => ends_execRowSpareCopy ht _ _
  have h5 : ∀ d c, KeepsCanonical fun t => (execCacheRowSpare d c t).stateOr t := fun d c =>
    keepsCanonical_stateOr fun t ht => ends_execCacheRowSpare ht _ _
  intro f hf
  unfold State.repairDuty at hf
  extract_lets commit copy at hf
  have hc : commit = none ∨ commit = some fun t => (execRepairCommit i t).stateOr t := ite_eq_or_eq _ _ _
  have hd : copy = commit ∨ copy = none ∨ copy = some fun t => (execChannelCopy r.part (r.spare.getD 0) t).stateOr t :=
    by grind
  have hc' : ∀ f ∈ commit, KeepsCanonical f := by
    rcases hc with e | e <;> rw [e] <;> simp [h1]
  have hd' : ∀ f ∈ copy, KeepsCanonical f := by
    rcases hd with e | e | e <;> rw [e]
    · exact hc'
    · simp
    · simp [h2]
  clear_value commit copy
  split at hf
  · split at hf
    · obtain rfl := Option.mem_some_iff.1 hf
      exact h3 _ _
    · split at hf
      · exact hc' f hf
      · exact mem_ite_none (h3 _ _) hf
  · split at hf
    · exact hc' f hf
    · exact mem_ite_none (h4 _ _) hf
  · split at hf
    · exact hc' f hf
    · exact mem_ite_none (h5 _ _) hf
  · split at hf
    · cases hf
    · exact hd' f hf
  · exact hd' f hf
  · exact hd' f hf
  · exact hc' f hf

theorem planeDuty_keeps (s : State) : ∀ f ∈ s.planeDuty, KeepsCanonical f := by
  have h1 : ∀ p, KeepsCanonical fun t => t.quiescePlane p := fun p t ht => by rw [canonical_iff, quiescePlane_mm]; exact ht
  have h2 : ∀ p, KeepsCanonical fun t => t.drainPlane p := fun p t ht => by rw [canonical_iff, drainPlane_mm]; exact ht
  have h3 : ∀ p, KeepsCanonical fun t => t.remapPlane p := fun p t ht => by rw [canonical_iff, remapPlane_mm]; exact ht
  have h4 : ∀ p, KeepsCanonical fun t => t.resumePlane p := fun p t ht => canonical_resumePlane ht p
  intro f hf
  have hn : ∀ next : Option (State → State), (∀ f ∈ next, KeepsCanonical f) →
    ∀ f ∈ (if next.isSome && s.fe.devSet && Config.domainSize s.tick != 1 then none else next), KeepsCanonical f := by grind
  unfold State.planeDuty at hf
  refine hn _ (fun g hg => ?_) f hf
  split at hg
  · obtain ⟨p, -, rfl⟩ := Option.mem_map.1 hg
    exact h1 p
  · split at hg <;> simp at hg
    subst hg; exact h2 _
  · split at hg <;> simp at hg <;> subst hg
    · exact h3 _
    · exact h4 _
  · simp at hg
    subst hg; exact h4 _

theorem messageDuty_keeps (s : State) (h : s.canonical) : ∀ f ∈ s.messageDuty, KeepsCanonical f := by
  intro f hf
  unfold State.messageDuty at hf
  split at hf
  next m hm =>
    extract_lets pa ln fe t line key at hf
    have ht : State.canonical t := h
    clear_value t line key ln
    split at hf
    · obtain rfl := Option.mem_some_iff.1 hf
      exact fun _ _ => canonical_writeSeen ht _ _ _ _
    · split at hf
      · obtain rfl := Option.mem_some_iff.1 hf
        intro _ _
        rw [canonical_iff, sendReq_mem]
        exact ht
      · simp at hf
  · simp at hf

theorem duties_keep {s : State} (h : s.canonical) : ∀ f ∈ s.duties, KeepsCanonical f := by
  have hv : ∀ c code, KeepsCanonical fun t => t.mailboxVisit c code := fun c code t ht => canonical_mailboxVisit ht _ _
  have hb : ∀ b, KeepsCanonical fun t => (execErrorBankReadAndClear b 0 t).stateOr t := fun b =>
    keepsCanonical_stateOr fun t ht => ends_execErrorBankReadAndClear ht _ _
  have hd : ∀ d, KeepsCanonical fun t => (execDispatch d t).stateOr t := fun d =>
    keepsCanonical_stateOr fun t ht => ends_execDispatch ht _
  have hc : ∀ d, KeepsCanonical fun t => (execChannelCopyRow d t).stateOr t := fun d =>
    keepsCanonical_stateOr fun t ht => ends_execChannelCopyRow ht _
  have hr : ∀ p, KeepsCanonical fun t => t.released p := fun p t ht => by rw [canonical_iff, released_mm]; exact ht
  have hp : KeepsCanonical fun t => t.drainPosted t.fe.posted.length := fun t ht => canonical_drainPosted _ ht
  have hq : ∀ u, KeepsCanonical fun t => t.withHart u (·.pagerAnswers true) := fun u t ht =>
    canonical_withHart ht u fun v hv => canonical_pagerAnswers hv true
  have hn : ∀ u, KeepsCanonical fun t => t.preemptNow u := fun u t ht => canonical_preemptNow ht u
  intro f hf
  unfold State.duties at hf
  split at hf <;> simp only [List.mem_append, or_assoc, Option.mem_toList, List.mem_map, List.mem_filterMap, Option.bind_eq_some_iff] at hf
  · rcases hf with hf | hf | ⟨_, _, rfl⟩ | ⟨_, _, rfl⟩ | hf
    · exact flitDuty_keeps s f hf
    · exact streamDuty_keeps s f hf
    · exact hr _
    · exact hb _
    · by_cases hz : s.terak.fail = 0
      · rw [if_pos hz] at hf
        cases hf
      · rw [if_neg hz] at hf
        obtain ⟨_, _, rfl⟩ := List.mem_map.1 hf
        exact hv _ _
  · rcases hf with hf | hf | ⟨_, _, rfl⟩ | ⟨_, _, rfl⟩ | hf | ⟨_, _, rfl⟩ | ⟨_, _, rfl⟩ | ⟨_, _, rfl⟩ | ⟨i, _, r, _, hf⟩ | ⟨_, _, rfl⟩ |
    hf | hf | ⟨_, _, rfl⟩
    · exact flitDuty_keeps s f hf
    · exact streamDuty_keeps s f hf
    · exact hr _
    · exact hv _ _
    · obtain rfl : f = fun t => t.drainPosted t.fe.posted.length := by grind
      exact hp
    · exact hq _
    · exact hd _
    · exact hb _
    · exact repairDuty_keeps s i r f hf
    · exact hc _
    · exact planeDuty_keeps s f hf
    · exact messageDuty_keeps s h f hf
    · exact hn _

theorem canonical_duty {s : State} (h : s.canonical) : s.duty.canonical := by
  have hd := duties_keep h
  unfold State.duty
  dsimp only
  split
  next f hf => exact hd f (List.mem_of_getElem? hf) s h
  · exact h

theorem ends_turn {s : State} (h : s.canonical) (t : Turn) : Ends State.canonical (s.turn t) := by
  cases t with
  | hart uid => exact ends_hartTurn h uid
  | bank b => exact ends_bankStep h b
  | event i => exact ends_exec h i
  | engines => exact (ends_next _).2 h
  | duty => exact (ends_next _).2 (canonical_duty h)

theorem clock_mm (s : State) : (s.clock).mm = s.mm := rfl

theorem ends_step {s : State} (h : s.canonical) : Ends State.canonical (step s) := by
  grind [step, ends_turn, clock_mm, canonical_iff]

/-- Settles O25: each turn of a step keeps memory in its one form, the turn's instruction or event by `ends_exec`. -/
theorem memoryStaysCanonical : Obligations.MemoryStaysCanonical := by
  unfold Obligations.MemoryStaysCanonical
  exact fun s t h e => ends_step h t e

end Sys2Proof.Proofs
end

