-- ==== Sys2Proof/Proofs/Scratchpad.lean ====
section
/-!
SUPPORT. SPALLOC and SPFREE (R125, R226): what each leaves in each case of the line that it names, and from it the statement O15.
-/

namespace Sys2Proof.Proofs

open Sys2Proof Sys2Proof.Machine Sys2Proof.Laws

/-! ## The L1 lines of a core -/

theorem findCore_fillCore (sets : Nat) (l : List CoreLine) (c : CoreLine) :
    ∃ w, findCore (fillCore sets l c) c.die c.core c.asid c.line = some { c with way := w } :=
  ⟨_, List.find?_cons_of_pos (by simp)⟩

theorem findCore_unlisted (l : List CoreLine) (die core asid line : Nat) :
    findCore (l.filter (fun e => !(e.die == die && e.core == core && e.asid == asid && e.line == line))) die core asid line = none := by
  refine List.find?_eq_none.2 fun e he => ?_
  obtain ⟨-, hn⟩ := List.mem_filter.1 he
  simp only [Bool.not_eq_true'] at hn
  simp [hn]

theorem findCore_asid {l : List CoreLine} {die core asid line : Nat} {c : CoreLine} (h : findCore l die core asid line = some c) :
    c.asid = asid := by
  have := List.find?_some h
  simp only [Bool.and_eq_true, beq_iff_eq] at this
  exact this.1.2

/-! ## SPALLOC and SPFREE where the address is in the window and no copy is on the line (R226) -/

/-- The line that SPALLOC pins: zero, and the hart's in focus (R125). -/
def pinnedLine (s : State) (line : Nat) : CoreLine :=
  ⟨s.hart.place.die, s.hart.place.core, s.hart.asid, line, 0, 0, 0, 2, 0, 0, 0, some s.hart.uid⟩

/-- The machine after SPALLOC has pinned a line. -/
def pinned (s : State) (line : Nat) : State :=
  { s.mapL1 (fun l => fillCore 512 l (pinnedLine s line)) with hart := s.hart.dropStrip line }

/-- The machine after SPFREE has freed a line of an address space. -/
def unpinned (s : State) (asid line : Nat) : State :=
  { s.mapL1 (fun l => l.filter (fun e => !(e.die == s.hart.place.die && e.core == s.hart.place.core && e.asid == asid && e.line == line)))
    with hart := s.hart.dropStrip line }

theorem findCore_unpinned (s : State) (asid line : Nat) :
    findCore (unpinned s asid line).mm.l1 s.hart.place.die s.hart.place.core asid line = none := findCore_unlisted ..

section
variable {s : State} {a : BitVec 5} (hw : s.inScratch s.hart.asid (s.getX a) = true)
  (hb : s.rangeBusy s.who ((s.getX a).toNat / 128 * 128) 128 = false)
include hw hb

theorem exec_spalloc_found (d : BitVec 5) {c : CoreLine}
    (hc : findCore s.mm.l1 s.hart.place.die s.hart.place.core s.hart.asid ((s.getX a).toNat / 128) = some c) :
    exec (.spalloc d a) s = .next (s.clearReplies.result d (if c.pin = some s.hart.uid then 1#64 else 3#64)) := by
  rw [← clear_result]
  refine settle_ok ?_
  rw [bind_ok (run_get s)]
  simp only [hw, hb, hc]
  rfl

section
variable (hc : findCore s.mm.l1 s.hart.place.die s.hart.place.core s.hart.asid ((s.getX a).toNat / 128) = none)
include hc

theorem exec_spalloc_full (d : BitVec 5) (hp : 6 ≤ s.pinnedWays s.hart.place.die s.hart.place.core ((s.getX a).toNat / 128)) :
    exec (.spalloc d a) s = .next (s.clearReplies.result d 2#64) := by
  rw [← clear_result]
  refine settle_ok ?_
  rw [bind_ok (run_get s)]
  simp only [hw, hb, hc, ge_iff_le, if_pos hp]
  rfl

theorem exec_spalloc_pins (d : BitVec 5) (hp : s.pinnedWays s.hart.place.die s.hart.place.core ((s.getX a).toNat / 128) < 6) :
    exec (.spalloc d a) s = .next ((pinned s ((s.getX a).toNat / 128)).result d 0#64).clearReplies := by
  refine settle_ok ?_
  rw [bind_ok (run_get s)]
  simp only [hw, hb, hc, ge_iff_le, if_neg (Nat.not_le.2 hp)]
  rfl

theorem exec_spfree_absent : exec (.spfree a) s = .next s.clearReplies.advance := by
  rw [← clear_advance]
  refine settle_ok ?_
  rw [bind_ok (run_get s)]
  simp only [hw, hb, hc]
  rfl

end

theorem exec_spfree_frees {c : CoreLine}
    (hc : findCore s.mm.l1 s.hart.place.die s.hart.place.core s.hart.asid ((s.getX a).toNat / 128) = some c)
    (hp : c.pin = some s.hart.uid) :
    exec (.spfree a) s = .next (unpinned s c.asid ((s.getX a).toNat / 128)).advance.clearReplies := by
  refine settle_ok ?_
  rw [bind_ok (run_get s)]
  simp only [hw, hb, hc, hp, ne_eq, not_true_eq_false]
  rfl

theorem exec_spfree_trap (ht : s.takesTraps) {c : CoreLine}
    (hc : findCore s.mm.l1 s.hart.place.die s.hart.place.core s.hart.asid ((s.getX a).toNat / 128) = some c)
    (hp : c.pin ≠ some s.hart.uid) :
    ∃ u, exec (.spfree a) s = .next u ∧ Entered s.clearReplies 8#8 false s.hart.pc (s.getX a) 0#64 1#64 u := by
  refine settle_cause ht ?_ (by decide)
  rw [bind_ok (run_get s)]
  simp only [hw, hb, hc, if_pos hp]
  rfl

end

/-! ## Outside the window (R125) -/

theorem exec_spalloc_outside {s : State} (d : BitVec 5) {a : BitVec 5} (ht : s.takesTraps)
    (hw : s.inScratch s.hart.asid (s.getX a) = false) :
    ∃ u, exec (.spalloc d a) s = .next u ∧ Entered s.clearReplies 8#8 false s.hart.pc (s.getX a) 0#64 1#64 u := by
  refine settle_cause ht ?_ (by decide)
  rw [bind_ok (run_get s)]
  simp only [hw]
  rfl

theorem exec_spfree_outside {s : State} {a : BitVec 5} (ht : s.takesTraps) (hw : s.inScratch s.hart.asid (s.getX a) = false) :
    ∃ u, exec (.spfree a) s = .next u ∧ Entered s.clearReplies 8#8 false s.hart.pc (s.getX a) 0#64 1#64 u := by
  refine settle_cause ht ?_ (by decide)
  rw [bind_ok (run_get s)]
  simp only [hw]
  rfl

/-- Settles O15: an SPALLOC by the line that it finds and the ways pinned beside it, an SPFREE by the line and its pin. -/
theorem scratchpadAllocation : Obligations.ScratchpadAllocation := by
  unfold Obligations.ScratchpadAllocation
  refine ⟨?spalloc, ?spfree, fun s d a hw ht => ⟨exec_spalloc_outside d ht hw, exec_spfree_outside ht hw⟩⟩
  case spalloc =>
    rintro s d a _ rfl hw hb
    cases hc : findCore s.mm.l1 s.hart.place.die s.hart.place.core s.hart.asid ((s.getX a).toNat / 128) with
    | some c => exact ⟨_, exec_spalloc_found hw hb d hc, fun c' e => (by cases e; exact wrote_result ..), fun e => (by cases e)⟩
    | none =>
      by_cases hp : 6 ≤ s.pinnedWays s.hart.place.die s.hart.place.core ((s.getX a).toNat / 128)
      · exact ⟨_, exec_spalloc_full hw hb hc d hp, fun c e => (by cases e), fun _ =>
          ⟨fun _ => wrote_result .., fun h => absurd hp (Nat.not_le.2 h)⟩⟩
      · refine ⟨_, exec_spalloc_pins hw hb hc d (Nat.not_le.1 hp), fun c e => (by cases e), fun _ => ⟨fun h => absurd h hp, fun _ => ?_⟩⟩
        obtain ⟨w, found⟩ := findCore_fillCore 512 s.mm.l1 (pinnedLine s ((s.getX a).toNat / 128))
        refine ⟨fun hd => ?_, fun r hr => ?_, fun pa => ?_, { pinnedLine s ((s.getX a).toNat / 128) with way := w }, ?_⟩
        · rw [getX_clearReplies, getX_result, if_pos ⟨rfl, hd⟩]
        · rw [getX_clearReplies, getX_result, if_neg fun h => hr h.1]
          rfl
        · rw [State.byteAt, State_clearReplies_mm, State_result_mm]
          rfl
        · rw [State_clearReplies_mm, State_result_mm]
          exact ⟨found, rfl, rfl⟩
  case spfree =>
    rintro s a _ rfl hw hb
    refine ⟨fun hc => ⟨_, exec_spfree_absent hw hb hc, passed_advance _⟩, fun c hc hp => ?_, ?_⟩
    · refine ⟨_, exec_spfree_frees hw hb hc hp, ?_⟩
      rw [findCore_asid hc, State_clearReplies_mm, State_advance_mm]
      refine ⟨?_, ?_, fun pa => ?_, findCore_unpinned ..⟩
      · rw [clearReplies_eq]
        rfl
      · rw [clearReplies_eq]
        rfl
      · rw [State.byteAt, State_clearReplies_mm, State_advance_mm]
        rfl
    · rintro c hc ⟨n, hn, hne⟩ ht
      exact exec_spfree_trap hw hb ht hc fun h => hne (Option.some.inj (hn.symm.trans h))

end Sys2Proof.Proofs
end

