-- ==== Sys2Proof/Proofs/MailboxRuns.lean ====
section
/-!
SUPPORT. How a mailbox command begins and ends (R336, R337, R361): what is written when it starts and when it has ended, and that one
for an idle mailbox does at once what its code says.
-/

namespace Sys2Proof.Proofs

open Sys2Proof Sys2Proof.Machine Sys2Proof.Laws

/-! ## Mailbox registers -/

/-- `t` is `s` but for the registers of the mailboxes. -/
def MailboxMoves (s t : State) : Prop := t = { s with fe := { s.fe with mailbox := t.fe.mailbox } }

theorem MailboxMoves.refl (s : State) : MailboxMoves s s := rfl

theorem MailboxMoves.trans {s t u : State} (h : MailboxMoves s t) (k : MailboxMoves t u) : MailboxMoves s u :=
  Eq.trans k (by rw [h])

theorem mbSet_moves (s : State) (die n : Nat) (v : Word) : MailboxMoves s (s.mbSet die n v) := rfl

theorem mbGet_mbSet (s : State) {die n m : Nat} (v : Word) (hd : die < 4) (hn : n < 6) :
    (s.mbSet die n v).mbGet die m = if m = n then v else s.mbGet die m := by
  unfold State.mbSet State.mbGet
  simp only [Vector.getElem?_setIfInBounds, hd, if_true, Option.bind_some]
  rw [Vector.getElem?_eq_getElem hd]
  simp only [Option.getD_some, Option.bind_some]
  by_cases h : m = n
  · simp [h, hn]
  · simp [h, Ne.symm h]

/-! ## Start and end of a command -/

theorem mbStart_moves (s : State) (code : Nat) (c : MbCmd) : MailboxMoves s (s.mbStart code c) :=
  (mbSet_moves ..).trans ((mbSet_moves ..).trans ((mbSet_moves ..).trans ((mbSet_moves ..).trans ((mbSet_moves ..).trans (mbSet_moves ..)))))

theorem ownerWrote_fail (s : State) (who : Agent) : (s.ownerWrote who).terak.fail = s.terak.fail := by
  unfold State.ownerWrote
  split <;> rfl

theorem ownerWrote_restarting (s : State) (who : Agent) : (s.ownerWrote who).terak.restarting = s.terak.restarting := by
  unfold State.ownerWrote
  split <;> rfl

theorem mbWritten_eq (s : State) (code : Nat) (c : MbCmd) (own : Bool) : s.mbWritten code c own = { s with
    terak := (s.ownerWrote c.agent).terak,
    fe := { s.fe with running := s.fe.running ++ [(code, c)],
                      refused := if own && !s.owns c.agent then (code, c) :: s.fe.refused else s.fe.refused } } := by
  unfold State.mbWritten State.ownerWrote
  by_cases h : s.owns c.agent = true
  · rw [if_pos h]
    rfl
  · rw [if_neg h]

theorem mbBegun_eq (s : State) (code : Nat) (c : MbCmd) : ∃ m, s.mbBegun code c = { s with
    terak := (s.ownerWrote c.agent).terak,
    fe := { s.fe with mailbox := m, running := s.fe.running ++ [(code, c)] } } := by
  obtain ⟨m, e⟩ : ∃ m, s.mbBegun code c = { s.mbWritten code c false with fe := { (s.mbWritten code c false).fe with mailbox := m } } :=
    ⟨_, mbStart_moves ..⟩
  rw [e, mbWritten_eq]
  exact ⟨m, rfl⟩

theorem mbFinish_eq (s : State) (code : Nat) (c : MbCmd) (status : Nat) (rets : List (Nat × Word)) :
    ∃ m, s.mbFinish code c status rets = { s with fe := { s.fe with
      mailbox := m, running := s.fe.running.erase (code, c), refused := s.fe.refused.erase (code, c) } } := by
  have moves : MailboxMoves s (rets.foldl (fun (u : State) (r : Nat × Word) => u.mbSet c.die (r.1 + 1) r.2) s) :=
    foldl_keeps (MailboxMoves s) _ (fun _ _ h => h.trans (mbSet_moves ..)) _ _ (MailboxMoves.refl s)
  have e := moves.trans (mbSet_moves _ c.die 5 (BitVec.ofNat 64 status))
  unfold State.mbFinish
  dsimp only
  rw [e]
  exact ⟨_, rfl⟩

theorem mbGet_mbFinish (s : State) (code : Nat) {c : MbCmd} (status : Nat) (rets : List (Nat × Word)) (hd : c.die < 4) (m : Nat) :
    (s.mbFinish code c status rets).mbGet c.die m = if m = 5 then BitVec.ofNat 64 status
      else (rets.foldl (fun (u : State) r => u.mbSet c.die (r.1 + 1) r.2) s).mbGet c.die m :=
  mbGet_mbSet _ _ hd (by decide)

/-- The machine in which a command has ended over `u`. -/
def mbEnded (u : State) (code : Nat) (c : MbCmd) (status : Nat) (rets : List (Nat × Word)) : State :=
  (u.dropReplies (frontEnd c.die 0).uid).mbFinish code c status rets

section
variable (u : State) (code : Nat) (c : MbCmd) (status : Nat) (rets : List (Nat × Word))

theorem mbEnded_eq : ∃ m, mbEnded u code c status rets = { u.dropReplies (frontEnd c.die 0).uid with fe := { u.fe with
    mailbox := m, running := u.fe.running.erase (code, c), refused := u.fe.refused.erase (code, c) } } :=
  mbFinish_eq ..

@[simp] theorem mbEnded_jobs : (mbEnded u code c status rets).fe.jobs = u.fe.jobs := by
  obtain ⟨m, e⟩ := mbEnded_eq u code c status rets
  rw [e]
@[simp] theorem mbEnded_roots : (mbEnded u code c status rets).fe.roots = u.fe.roots := by
  obtain ⟨m, e⟩ := mbEnded_eq u code c status rets
  rw [e]
@[simp] theorem mbEnded_running : (mbEnded u code c status rets).fe.running = u.fe.running.erase (code, c) := by
  obtain ⟨m, e⟩ := mbEnded_eq u code c status rets
  rw [e]
@[simp] theorem mbEnded_mm : (mbEnded u code c status rets).mm = u.mm := by
  obtain ⟨m, e⟩ := mbEnded_eq u code c status rets
  rw [e]
  rfl
@[simp] theorem mbEnded_jobOf (asid : Nat) : (mbEnded u code c status rets).jobOf asid = u.jobOf asid := by
  rw [State.jobOf, mbEnded_jobs]
  rfl

end

theorem mbEnded_done {u t : State} {code : Nat} {c : MbCmd} (status : Nat) (rets : List (Nat × Word)) (hd : c.die < 4)
    (hr : u.fe.running.erase (code, c) = t.fe.running.erase (code, c)) : MailboxDone t code c status (mbEnded u code c status rets) where
  status := (mbGet_mbFinish _ _ _ _ hd 5).trans (if_pos rfl)
  running := (mbEnded_running ..).trans hr

/-! ## A command for an idle mailbox (R361) -/

section
variable {s : State} {c : MbCmd} (idle : MailboxIdle s c) {code : Nat}
include idle

theorem MailboxIdle.fail : s.terak.fail = 0#8 := by
  have := idle.up
  simp only [State.frontEndsUp, Bool.and_eq_true, beq_iff_eq] at this
  exact this.2

theorem mbBegun_running : (s.mbBegun code c).fe.running = [(code, c)] := by
  obtain ⟨m, e⟩ := mbBegun_eq s code c
  rw [e]
  exact congrArg (· ++ _) idle.idle.1

/-- What is written for a command of an idle mailbox starts at once. -/
theorem mailboxRun_starts {up : Bool} (served : up = true) (own : Bool) (f : State → MbEnd) {t : State}
    (ht : t = (s.mbWritten code c own).mbStart code c) : s.mailboxRun up code c own f =
      if own && !s.owns c.agent then t.mbFinish code c 1 []
      else match f t with
        | .done u st rets => mbEnded u code c st rets
        | .waits u => u := by
  obtain ⟨running, refused⟩ := idle.idle
  have hrun : (s.mbWritten code c own).fe.running = [(code, c)] := by
    rw [mbWritten_eq]
    exact congrArg (· ++ _) running
  have hat : (s.mbWritten code c own).runningAt c.die = some (code, c) := by
    rw [State.runningAt, hrun, List.find?_cons_of_pos (by simp)]
  have hheld : (s.mbWritten code c own).mbHeld code c.die = false := by
    have : (s.mbWritten code c own).terak.restarting = [] := by
      rw [mbWritten_eq]
      exact (ownerWrote_restarting s c.agent).trans idle.awake
    rw [State.mbHeld, this]
    simp
  have hst : (s.mbWritten code c own).mbGet c.die 5 ≠ 0xFFFF#64 := by
    rw [mbWritten_eq]
    exact idle.status
  have htrun : t.fe.running = [(code, c)] := by rw [ht, mbStart_moves, hrun]
  have htref : t.fe.refused = if own && !s.owns c.agent then [(code, c)] else [] := by
    rw [ht, mbStart_moves, mbWritten_eq, refused]
  have hturn : t.mbTurn code c = true := by
    rw [State.mbTurn, htrun]
    simp
  rw [State.mailboxRun, if_neg (Nat.not_le.2 idle.die), served, if_neg (by decide), State.mbRun, if_neg (by simp [hat, hheld])]
  dsimp only
  rw [if_neg hst, ← ht, htrun, htref, hturn]
  by_cases h : (own && !s.owns c.agent) = true
  · simp [h]
  · simp only [h, if_false, Bool.false_eq_true]
    rfl

theorem mailboxWrite_done (served : s.mbServed code = true) (owns : s.owns c.agent = true) {u : State} {st : Nat}
    {rets : List (Nat × Word)} (e : (mbCommand code).2 (s.mbBegun code c) c = .done u st rets) :
    s.mailboxWrite c code = mbEnded u code c st rets := by
  have hw : s.mbBegun code c = (s.mbWritten code c (mbCommand code).1).mbStart code c := by
    rw [State.mbBegun, mbWritten_eq, mbWritten_eq, owns]
    simp
  rw [State.mailboxWrite, mailboxRun_starts idle served _ _ hw, owns, e]
  simp

/-- An owner-only command of another agent ends with status 1. -/
theorem mailboxWrite_refused (served : s.mbServed code = true) (owns : s.owns c.agent = false) (own : (mbCommand code).1 = true) :
    s.mailboxWrite c code = ((s.mbWritten code c true).mbStart code c).mbFinish code c 1 [] := by
  rw [State.mailboxWrite, mailboxRun_starts idle served _ _ rfl, owns, own]
  simp

end

/-! ## The owner's commands (R338) -/

theorem ownerOnly_exec {i : Instr} {code : Nat} {c : MbCmd} (h : ownerOnly i = some (code, c)) (s : State) :
    exec i s = .next (s.mailboxWrite c code) ∧ (mbCommand code).1 = true ∧
      s.mbServed code = (s.frontEndsUp && (code != 1 || s.terak.ready)) := by
  unfold ownerOnly at h
  split at h <;> cases h <;> refine ⟨rfl, rfl, ?_⟩ <;> simp [State.mbServed]

end Sys2Proof.Proofs
end

