-- ==== Sys2Proof/Proofs/JobCommands.lean ====
section
/-!
SUPPORT. What the mailbox commands on jobs and address spaces leave (R116, R338 to R340), and from it the statement O59.
-/

namespace Sys2Proof.Proofs

open Sys2Proof Sys2Proof.Machine Sys2Proof.Laws

/-! ## The state in which a command begins -/

section
variable (s : State) (code : Nat) (c : MbCmd)

@[simp] theorem mbBegun_jobs : (s.mbBegun code c).fe.jobs = s.fe.jobs := by
  obtain ⟨m, e⟩ := mbBegun_eq s code c
  rw [e]
@[simp] theorem mbBegun_roots : (s.mbBegun code c).fe.roots = s.fe.roots := by
  obtain ⟨m, e⟩ := mbBegun_eq s code c
  rw [e]
@[simp] theorem mbBegun_mm : (s.mbBegun code c).mm = s.mm := by
  obtain ⟨m, e⟩ := mbBegun_eq s code c
  rw [e]
@[simp] theorem mbBegun_harts : (s.mbBegun code c).harts = s.harts := by
  obtain ⟨m, e⟩ := mbBegun_eq s code c
  rw [e]
  rfl
@[simp] theorem mbBegun_planesMove : (s.mbBegun code c).planesMove = s.planesMove := by
  obtain ⟨m, e⟩ := mbBegun_eq s code c
  rw [e]
  rfl
@[simp] theorem mbBegun_jobOf (asid : Nat) : (s.mbBegun code c).jobOf asid = s.jobOf asid := by
  rw [State.jobOf, mbBegun_jobs]
  rfl
@[simp] theorem mbBegun_spaceExists (asid : Nat) : (s.mbBegun code c).spaceExists asid = s.spaceExists asid := by
  rw [State.spaceExists, mbBegun_jobOf]
  rfl

end

/-! ## An owner's command for an idle mailbox -/

section
variable {s : State} {c : MbCmd} (idle : MailboxIdle s c) {code : Nat}
include idle

theorem exec_ended (owns : s.owns c.agent = true) {i : Instr} (hi : ownerOnly i = some (code, c))
    (hready : code = 1 → s.terak.ready = true) {u : State} {st : Nat} {rets : List (Nat × Word)}
    (e : (mbCommand code).2 (s.mbBegun code c) c = .done u st rets) : exec i s = .next (mbEnded u code c st rets) := by
  obtain ⟨he, -, hs⟩ := ownerOnly_exec hi s
  have served : s.mbServed code = true := by
    rw [hs, idle.up]
    by_cases h : code = 1
    · simp [hready h]
    · simp [h]
  rw [he, mailboxWrite_done idle served owns e]

/-- The end of a command that leaves the list of running ones. -/
theorem mbEnded_done_idle {u : State} (st : Nat) (rets : List (Nat × Word)) (hr : u.fe.running = [(code, c)]) :
    MailboxDone s code c st (mbEnded u code c st rets) := mbEnded_done st rets idle.die (by simp [hr, idle.idle.1])

/-- A command that is refused. -/
theorem mbEnded_refused (st : Nat) : MailboxDone s code c st (mbEnded (s.mbBegun code c) code c st []) :=
  mbEnded_done_idle idle st [] (mbBegun_running idle)

theorem exec_owner_refused {i : Instr} (hi : ownerOnly i = some (code, c)) (hready : code = 1 → s.terak.ready = true)
    (owns : s.owns c.agent = false) : ∃ u, exec i s = .next u ∧ MailboxDone s code c 1 u ∧
      u = { s with fe := { s.fe with mailbox := u.fe.mailbox } } := by
  obtain ⟨he, own, hs⟩ := ownerOnly_exec hi s
  have served : s.mbServed code = true := by
    rw [hs, idle.up]
    by_cases h : code = 1
    · simp [hready h]
    · simp [h]
  have running := idle.idle.1
  refine ⟨_, by rw [he, mailboxWrite_refused idle served owns own], ⟨?_, ?_⟩, ?_⟩
  · rw [mbGet_mbFinish _ _ _ _ idle.die]
    rfl
  · obtain ⟨m, e⟩ := mbFinish_eq ((s.mbWritten code c true).mbStart code c) code c 1 []
    rw [e, mbStart_moves, mbWritten_eq]
    simp [running]
  · obtain ⟨m, e⟩ := mbFinish_eq ((s.mbWritten code c true).mbStart code c) code c 1 []
    have hw : s.ownerWrote c.agent = s := by rw [State.ownerWrote, owns, if_neg (by decide)]
    have hr : (s.fe.running ++ [(code, c)]).erase (code, c) = s.fe.running := by simp [running]
    rw [e, mbStart_moves, mbWritten_eq, hw, owns]
    simp only [Bool.not_false, Bool.and_self, if_true, List.erase_cons_head, hr]

end

/-- An owner-only command for a mailbox that runs another waits (log entry 40). -/
theorem exec_waits {s : State} {c : MbCmd} {i : Instr} {code : Nat} {r : Nat × MbCmd} (hi : ownerOnly i = some (code, c))
    (up : s.frontEndsUp = true) (hd : c.die < 4) (hf : s.terak.fail = 0#8) (hr : s.runningAt c.die = some r)
    (hn : (code, c) ∉ s.fe.running) (hready : code = 1 → s.terak.ready = true) :
    ∃ own, exec i s = .next (s.mbWritten code c own) := by
  obtain ⟨he, -, hs⟩ := ownerOnly_exec hi s
  have served : s.mbServed code = true := by
    rw [hs, up]
    by_cases h : code = 1
    · simp [hready h]
    · simp [h]
  refine ⟨(mbCommand code).1, ?_⟩
  have hat : (s.mbWritten code c (mbCommand code).1).runningAt c.die = some r := by
    rw [mbWritten_eq]
    exact List.find?_append.trans (by rw [show s.fe.running.find? (fun r => r.2.die == c.die) = some r from hr]; rfl)
  have hne : r ≠ (code, c) := fun e => hn (e ▸ List.mem_of_find?_eq_some hr)
  have hfail : (s.mbWritten code c (mbCommand code).1).terak.fail = 0 := by
    rw [mbWritten_eq]
    exact (ownerWrote_fail s c.agent).trans hf
  rw [he, State.mailboxWrite, State.mailboxRun, if_neg (Nat.not_le.2 hd), served, if_neg (by decide), State.mbRun,
    if_pos ⟨hfail, .inl (by rw [hat]; simpa using hne)⟩]

/-! ## JOBCREATE (R340) -/

theorem withRead_ok {s t : State} {die n : Nat} {va : Word} {l : List (Byte × Bool)}
    (h : readRange (frontEnd die 0) va.toNat n s = .ok (l, t)) (hm : ∀ b ∈ l, b.2 = false) (f : State → List Byte → MbEnd) :
    withRead s die va n f = f t (l.map (·.1)) := by
  have : l.any (·.2) = false := List.any_eq_false.2 fun b hb => by simp [hm b hb]
  rw [withRead, h]
  simp [this]

/-- The banks that a job asks for: none without bank-linear areas, those of its map, or every free one. -/
def askedBanks (s : State) (j : Job) (map : Option (BitVec 65536)) : BitVec 65536 :=
  if j.bl = 0 then 0#65536 else map.getD (realBanks &&& ~~~s.heldBanks &&& ~~~s.lostBanks)

theorem askedBanks_free (s : State) (j : Job) : askedBanks s j none &&& ~~~realBanks = 0#65536 ∧
    askedBanks s j none &&& (s.heldBanks ||| s.lostBanks) = 0#65536 := by
  unfold askedBanks
  generalize realBanks = r
  generalize s.heldBanks = h
  generalize s.lostBanks = l
  split
  · simp
  · rw [Option.getD_none]
    constructor
    all_goals
      ext i
      simp only [BitVec.getElem_and, BitVec.getElem_not, BitVec.getElem_or, BitVec.getElem_zero]
      cases r[i] <;> cases h[i] <;> cases l[i] <;> rfl

section
variable {s : State} {j : Job} {map : Option (BitVec 65536)}

theorem assignJob_unreal (h : askedBanks s j map &&& ~~~realBanks ≠ 0#65536) : s.assignJob j map = .done s 2 [] := if_pos h

theorem assignJob_held (hr : askedBanks s j map &&& ~~~realBanks = 0#65536)
    (h : askedBanks s j map &&& (s.heldBanks ||| s.lostBanks) ≠ 0#65536 ∨ s.barredJob j = true) : s.assignJob j map = .done s 4 [] :=
  (if_neg (not_not.2 hr)).trans (if_pos h)

theorem assignJob_keyless (hr : askedBanks s j map &&& ~~~realBanks = 0#65536)
    (h : askedBanks s j map &&& (s.heldBanks ||| s.lostBanks) = 0#65536) (he : j.enc = true) (hk : s.freeKey = none) :
    s.assignJob j map = .done s 4 [] := by
  by_cases hb : s.barredJob j = true
  · exact assignJob_held hr (.inr hb)
  · refine (if_neg (not_not.2 hr)).trans ((if_neg (not_or.2 ⟨not_not.2 h, hb⟩)).trans ((if_pos he).trans ?_))
    rw [hk]
    rfl

theorem assignJob_taken (hr : askedBanks s j map &&& ~~~realBanks = 0#65536)
    (h : askedBanks s j map &&& (s.heldBanks ||| s.lostBanks) = 0#65536) (hb : s.barredJob j = false) {key : Nat}
    (hk : (j.enc = false ∧ key = 0) ∨ (j.enc = true ∧ s.freeKey = some key)) :
    s.assignJob j map = .done (s.createJob j (askedBanks s j map) key) 0 [(1, BitVec.ofNat 64 key)] := by
  refine (if_neg (not_not.2 hr)).trans ((if_neg (not_or.2 ⟨not_not.2 h, by simp [hb]⟩)).trans ?_)
  rcases hk with ⟨he, rfl⟩ | ⟨he, hk⟩
  · exact if_neg (by simp [he])
  · refine (if_pos he).trans ?_
    rw [hk]
    rfl

end

/-- What the creation of a job leaves when its command has ended. -/
theorem mbEnded_createJob (s : State) (j : Job) (banks : BitVec 65536) (key : Nat) {c : MbCmd} (hd : c.die < 4) {u : State}
    (hu : u = mbEnded (s.createJob j banks key) 1 c 0 [(1, BitVec.ofNat 64 key)]) :
    MailboxDone s 1 c 0 u ∧ u.mbGet c.die 2 = BitVec.ofNat 64 key ∧ u.mm = s.mm ∧
      u.fe.jobs = s.fe.jobs ++ [{ j with banks := banks, key := key, barred := s.err.barred, paged := Config.pagedRegions s.tick }] := by
  subst hu
  refine ⟨mbEnded_done _ _ hd rfl, ?_, by rw [mbEnded_mm]; rfl, by rw [mbEnded_jobs]; rfl⟩
  exact (mbGet_mbFinish _ _ _ _ hd 2).trans (mbGet_mbSet _ _ hd (show 1 + 1 < 6 by decide))

/-! ## JOBEND (R355) -/

theorem endJob_unrecorded {s : State} {asid : Nat} {j : Job} (hj : s.jobOf asid = some j) (code : Nat) :
    ∃ t : State, t.fe.running = s.fe.running ∧
      s.endJob asid code none = (dropJob ((failQueues (stopWork t asid) asid code).jobScrub j) asid).serveMapWait := by
  rw [State.endJob, hj]
  dsimp -zeta only
  extract_lets s1 s2 s3 s4 s5 s6 s7 slots s8 fe8 s9
  have e2 : s2.fe.running = s.fe.running := by rw [(cleanL2_moves s1 _).toMem.fe]; rfl
  have e4 : s4 = stopWork s2 asid := rfl
  have e5 : s5 = failQueues s4 asid code := rfl
  have e7 : s7 = s5.jobScrub j := rfl
  clear_value s7
  have e9 : s9 = dropJob s7 asid := rfl
  exact ⟨s2, e2, by rw [e9, e7, e5, e4]⟩

theorem QueueMoves.running {s t : State} (h : QueueMoves s t) : t.fe.running = s.fe.running := by rw [h]

theorem dropJob_running (s : State) (asid : Nat) : (dropJob s asid).fe.running = s.fe.running :=
  (foldl_keeps (QueueMoves s) _ (fun _ _ h => h.trans (unmapQueue_moves _ _)) _ _ (QueueMoves.refl s)).running

theorem endJob_ended_unrecorded {s : State} {asid : Nat} {j : Job} (hj : s.jobOf asid = some j) (code : Nat) :
    (s.endJob asid code none).jobOf asid = none ∧ (s.endJob asid code none).fe.running = s.fe.running := by
  obtain ⟨t, ht, e⟩ := endJob_unrecorded hj code
  have moves := serveMapWait_moves (dropJob ((failQueues (stopWork t asid) asid code).jobScrub j) asid)
  rw [e]
  constructor
  · rw [State.jobOf, moves.jobs]
    exact (dropJob_frame ..).2.2
  · rw [moves.running, dropJob_running, (jobScrub_frame ..).1, (failQueues_moves ..).running]
    exact ht

/-! ## KREG (R338) -/

theorem bitsOf_low (n w : Nat) : bitsOf n 0 w = n % 2 ^ w := by rw [bitsOf, Nat.shiftRight_zero]

/-- A job with its kernel table entry for an address replaced, or dropped. -/
def withKernel (c : MbCmd) (j : Job) : Job :=
  { j with kernels := if c.a2 = 0 then j.kernels.filter (fun k => k.1 != c.a1)
                      else (c.a1, bitsOf c.a2.toNat 0 4, bitsOf c.a2.toNat 4 4) :: j.kernels.filter (fun k => k.1 != c.a1) }

theorem find?_changeAll {α : Type} (p q : α → Bool) (f : α → α) (hf : ∀ a, q (f a) = q a) (l : List α) :
    (changeAll p f l).find? q = (l.find? q).map (fun a => if p a then f a else a) := by
  rw [changeAll, List.find?_map]
  congr 2
  funext a
  rw [Function.comp_apply]
  split
  · exact hf a
  · rfl

section
variable {s : State} {c : MbCmd}

theorem mbKreg_unknown (hj : s.jobOf c.a0.toNat = none) : s.mbKreg c = .done s 3 [] := by
  rw [State.mbKreg, hj]
  rfl

theorem mbKreg_bad {j : Job} (hj : s.jobOf c.a0.toNat = some j) (h0 : c.a2 ≠ 0#64)
    (hb : c.a2.toNat % 16 < 7 ∨ 12 < c.a2.toNat % 16 ∨ 12 < c.a2.toNat / 16 ∨ c.a2.toNat / 16 < c.a2.toNat % 16) :
    s.mbKreg c = .done s 2 [] := by
  rw [State.mbKreg, hj]
  refine (if_neg (by simp)).trans (if_pos ⟨h0, ?_⟩)
  rw [bitsOf_eq_div_mod, bitsOf_eq_div_mod]
  omega

theorem mbKreg_kept {j : Job} (hj : s.jobOf c.a0.toNat = some j)
    (hk : c.a2 = 0#64 ∨ ∃ lo hi, c.a2.toNat = lo + 16 * hi ∧ 7 ≤ lo ∧ lo ≤ hi ∧ hi ≤ 12) :
    ∃ u, s.mbKreg c = .done u 0 [] ∧ u.fe.running = s.fe.running ∧ u.jobOf c.a0.toNat = some (withKernel c j) := by
  refine ⟨{ s with fe := { s.fe with jobs := changeAll (fun j => j.asid == c.a0.toNat) (withKernel c) s.fe.jobs } }, ?_, rfl, ?_⟩
  · rw [State.mbKreg, hj]
    refine (if_neg (by simp)).trans (if_neg ?_)
    rintro ⟨h0, hb⟩
    rcases hk with h | ⟨lo, hi, h⟩
    · exact h0 h
    · rw [bitsOf_eq_div_mod, bitsOf_eq_div_mod] at hb
      omega
  · have ha : j.asid = c.a0.toNat := by simpa using List.find?_some hj
    refine (find?_changeAll _ _ (withKernel c) (fun _ => rfl) _).trans ?_
    rw [show s.fe.jobs.find? (fun j => j.asid == c.a0.toNat) = some j from hj, Option.map_some, if_pos (by simpa using ha)]

end

/-! ## INVAL (R116) -/

section
variable (s : State)

theorem cross_tlb (a b ln : Nat) : (s.cross a b ln).mm.tlb = s.mm.tlb := by
  unfold State.cross
  split
  · rfl
  · split <;> rfl

theorem mscAlloc_tlb (stack block sec bl : Nat) (d : Bool) : (s.mscAlloc stack block sec bl d).mm.tlb = s.mm.tlb := by
  unfold State.mscAlloc
  dsimp only
  split <;> rfl

theorem mscTouch_tlb (space ln : Nat) (w : Bool) : (s.mscTouch space ln w).mm.tlb = s.mm.tlb := by
  unfold State.mscTouch
  split
  · rfl
  · dsimp only
    split
    · rfl
    · split
      · rfl
      · split
        · exact mscAlloc_tlb ..
        · rfl

theorem mscServe_tlb (space ln : Nat) (w : Bool) : (s.mscServe space ln w).mm.tlb = s.mm.tlb := by
  unfold State.mscServe
  dsimp only
  split
  · exact mscTouch_tlb ..
  · exact (mscTouch_tlb ..).trans (mscTouch_tlb ..)

theorem rekey_tlb (space ln : Nat) (mask : BitVec 128) : (s.rekey space ln mask).mm.tlb = s.mm.tlb := by
  unfold State.rekey
  dsimp only
  split <;> rfl

theorem homeWrite_tlb (space ln : Nat) (v : LineVal) (mask : BitVec 128) (words : BitVec 16) :
    (s.homeWrite space ln v mask words).mm.tlb = s.mm.tlb := by
  unfold State.homeWrite
  split
  · rfl
  · refine (mscServe_tlb ..).trans ((rekey_tlb ..).trans ?_)
    split
    · split
      · rfl
      · exact rekey_tlb ..
    · rfl

theorem takeIn_tlb (space src ln : Nat) (v : LineVal) (mask : BitVec 128) (words : BitVec 16) :
    (s.takeIn space src ln v mask words).mm.tlb = s.mm.tlb := by
  unfold State.takeIn
  exact homeWrite_tlb s space ln v mask words

theorem takeTwin_tlb (space src ln : Nat) (v : LineVal) (t : Twin) : (s.takeTwin space src ln v t).mm.tlb = s.mm.tlb :=
  takeIn_tlb s space src ln v _ _

theorem freeTwin_tlb (ln writer : Nat) : (s.freeTwin ln writer).mm.tlb = s.mm.tlb := rfl

theorem putL2_tlb (e : L2Line) : (s.putL2 e).mm.tlb = s.mm.tlb := rfl

theorem checkIn_tlb (e : L2Line) : (s.checkIn e).mm.tlb = s.mm.tlb := by
  unfold State.checkIn
  dsimp only
  rw [putL2_tlb]
  split
  · rfl
  · rw [cross_tlb, freeTwin_tlb, takeTwin_tlb]

theorem writeBack_tlb (e : L2Line) : (s.writeBack e).mm.tlb = s.mm.tlb := by
  unfold State.writeBack
  split
  · exact checkIn_tlb ..
  · split
    · rfl
    · exact homeWrite_tlb ..

theorem cleanL2_tlb (p : L2Line → Bool) : (s.cleanL2 p).mm.tlb = s.mm.tlb :=
  foldl_keeps (fun t : State => t.mm.tlb = s.mm.tlb) _ (fun t e h => by
    split
    · exact (writeBack_tlb ..).trans h
    · exact h) _ _ rfl

end

theorem HomeMoves.harts {s t : State} (h : HomeMoves s t) : t.harts = s.harts := by rw [State.harts, h.toMem.hart, h.toMem.others]; rfl
theorem HomeMoves.running {s t : State} (h : HomeMoves s t) : t.fe.running = s.fe.running := by rw [h.toMem.fe]

/-- A line of an address space lies in the page. -/
def inPage (space lo hi : Nat) (a line : Nat) : Bool := a == space && decide (lo ≤ line * 128) && decide (line * 128 < hi)

/-- The dies whose caches an invalidate reaches: every die for the global half (log entry 61), and those with resident harts of
the address space. -/
def reached (s : State) (space d : Nat) : Bool := space == 0 || s.harts.any (fun h => h.isResident && h.asid == space && h.place.die == d)

theorem not_reached {s : State} {space d : Nat} (h : reached s space d = false) :
    space ≠ 0 ∧ ∀ g ∈ s.harts, g.isResident = true → g.asid = space → g.place.die ≠ d := by
  simp only [reached, Bool.or_eq_false_iff, beq_eq_false_iff_ne, List.any_eq_false, Bool.and_eq_true, beq_iff_eq, not_and] at h
  exact ⟨h.1, fun g hg hr ha => h.2 g hg ⟨hr, ha⟩⟩

/-- What an invalidate leaves in the caches of address translations, lines and instructions. -/
theorem invalidate_left (s : State) {asid bits lo hi space : Nat} {va : Word} (hlo : lo = va.toNat / 2 ^ bits * 2 ^ bits)
    (hhi : hi = lo + 2 ^ bits) (hs : space = spaceOf asid va) :
    (s.invalidate asid va bits).fe.running = s.fe.running ∧
    (∀ e ∈ (s.invalidate asid va bits).mm.tlb, e.asid = space → e.page + 2 ^ e.bits ≤ lo ∨ hi ≤ e.page) ∧
    (∀ e ∈ (s.invalidate asid va bits).mm.l2, inPage space lo hi e.asid e.line = true → reached s space e.die = false) ∧
    (∀ e ∈ (s.invalidate asid va bits).mm.icache, inPage space lo hi e.asid e.line = true → e.pin = none →
      reached s space e.die = false) := by
  subst hlo hhi hs
  obtain ⟨u, hu⟩ : ∃ u, u = s.invalidate asid va bits := ⟨_, rfl⟩
  rw [← hu]
  unfold State.invalidate at hu
  extract_lets space lo hi tlb mm s1 mine s2 lives s3 cut at hu
  have moves : HomeMoves s1 s2 := cleanL2_moves ..
  have hl : lives = reached s space := by
    funext d
    show (_ || s2.harts.any _) = _
    rw [moves.harts]
    rfl
  have ht : s2.mm.tlb = tlb := cleanL2_tlb ..
  clear_value s2 lives
  subst hl hu
  refine ⟨moves.running, fun e he ha => ?_, fun e he hm => ?_, fun e he hm hp => ?_⟩
  · have := (List.mem_filter.1 (ht ▸ he : e ∈ tlb)).2
    have hs : (e.asid == space) = true := beq_iff_eq.2 ha
    simp only [hs, Bool.true_and, Bool.not_eq_true', Bool.and_eq_false_iff, decide_eq_false_iff_not, not_lt] at this
    exact this.symm
  · have := (List.mem_filter.1 (show e ∈ s2.mm.l2.filter _ from he)).2
    simp only [Bool.not_eq_true', Bool.and_eq_false_iff] at this
    exact this.resolve_left (by rw [show mine e.asid e.line = true from hm]; simp)
  · have := (List.mem_filter.1 (show e ∈ cut s3.mm.icache from he)).2
    rw [show mine e.asid e.line = true from hm, hp] at this
    simpa using this

theorem mbInval_ok {s : State} {c : MbCmd} {bits : Nat} (moves : s.planesMove = true)
    (hb : (c.a2 = 0#64 ∧ bits = 16) ∨ (c.a2 = 1#64 ∧ bits = 21) ∨ (c.a2 = 2#64 ∧ bits = 30)) :
    s.mbInval c = .done (s.invalidate c.a0.toNat c.a1 bits) 0 [] := by
  rw [State.mbInval, if_neg (by simp [moves])]
  rcases hb with ⟨h, rfl⟩ | ⟨h, rfl⟩ | ⟨h, rfl⟩ <;> rw [h] <;> rfl

theorem mbInval_bad {s : State} {c : MbCmd} (h : 2 < c.a2.toNat) : s.mbInval c = .done s 2 [] := by
  rw [State.mbInval, if_neg (by omega)]
  split
  · omega
  · omega
  · omega
  · rfl

/-! ## The statement -/

section
variable {s t : State} {c : MbCmd} {l : List (Byte × Bool)} (idle : MailboxIdle s c) (ready : s.terak.ready = true)
  (owns : s.owns c.agent = true) (ha : c.a0.toNat % 8 = 0)
  (hl : readRange (frontEnd c.die 0) c.a0.toNat 128 (s.mbBegun 1 c) = .ok (l, t)) (clean : ∀ b ∈ l, b.2 = false)
include idle ready owns ha hl clean

/-- JOBCREATE goes by what its descriptor says, once it is read. -/
theorem exec_jobcreate_ended {u : State} {st : Nat} {rets : List (Nat × Word)}
    (e : (if t.badDesc (l.map (·.1)) (descJob (l.map (·.1))) then .done t 2 []
      else if (descJob (l.map (·.1))).bl = 0 ∨ fieldAt (l.map (·.1)) 0x10 8 = 0 then t.assignJob (descJob (l.map (·.1))) none
      else withRead t c.die (BitVec.ofNat 64 (fieldAt (l.map (·.1)) 0x10 8)) 8192
        (fun u m => u.assignJob (descJob (l.map (·.1))) (some (BitVec.ofNat 65536 (natOfBytes m))))) = .done u st rets) :
    exec (.jobcreate c) s = .next (mbEnded u 1 c st rets) := by
  refine exec_ended idle owns rfl (fun _ => ready) ((if_neg (by simp [ha])).trans ?_)
  rw [withRead_ok hl clean]
  exact e

theorem exec_jobcreate_badDesc (hb : t.badDesc (l.map (·.1)) (descJob (l.map (·.1))) = true) :
    ∃ u, exec (.jobcreate c) s = .next u ∧ MailboxDone t 1 c 2 u ∧ u.fe.jobs = t.fe.jobs ∧ u.mm = t.mm :=
  ⟨_, exec_jobcreate_ended idle ready owns ha hl clean (if_pos hb), mbEnded_done _ _ idle.die rfl, mbEnded_jobs .., mbEnded_mm ..⟩

section
variable (hb : t.badDesc (l.map (·.1)) (descJob (l.map (·.1))) = false)
include hb

theorem exec_jobcreate_free (hm : (descJob (l.map (·.1))).bl = 0 ∨ fieldAt (l.map (·.1)) 0x10 8 = 0) {u : State} {st : Nat}
    {rets : List (Nat × Word)} (e : t.assignJob (descJob (l.map (·.1))) none = .done u st rets) :
    exec (.jobcreate c) s = .next (mbEnded u 1 c st rets) :=
  exec_jobcreate_ended idle ready owns ha hl clean ((if_neg (by simp [hb])).trans ((if_pos hm).trans e))

theorem exec_jobcreate_mapped (h0 : (descJob (l.map (·.1))).bl ≠ 0) (hm : fieldAt (l.map (·.1)) 0x10 8 ≠ 0) {w : State}
    {m : List (Byte × Bool)}
    (hw : readRange (frontEnd c.die 0) (BitVec.ofNat 64 (fieldAt (l.map (·.1)) 0x10 8)).toNat 8192 t = .ok (m, w))
    (clean' : ∀ b ∈ m, b.2 = false) {u : State} {st : Nat} {rets : List (Nat × Word)}
    (e : w.assignJob (descJob (l.map (·.1))) (some (BitVec.ofNat 65536 (natOfBytes (m.map (·.1))))) = .done u st rets) :
    exec (.jobcreate c) s = .next (mbEnded u 1 c st rets) := by
  refine exec_jobcreate_ended idle ready owns ha hl clean
    ((if_neg (by simp [hb])).trans ((if_neg (not_or.2 ⟨h0, hm⟩)).trans ?_))
  rw [withRead_ok hw clean']
  exact e

end

end

/-- A command that is refused ends with its status and leaves the jobs, the roots and memory alone. -/
theorem exec_refused {s : State} {c : MbCmd} {code : Nat} (idle : MailboxIdle s c) (owns : s.owns c.agent = true) {i : Instr}
    (hi : ownerOnly i = some (code, c)) (hready : code = 1 → s.terak.ready = true) {st : Nat}
    (e : (mbCommand code).2 (s.mbBegun code c) c = .done (s.mbBegun code c) st []) :
    ∃ u, exec i s = .next u ∧ MailboxDone s code c st u ∧ u.fe.jobs = s.fe.jobs ∧ u.fe.roots = s.fe.roots ∧ u.mm = s.mm :=
  ⟨_, exec_ended idle owns hi hready e, mbEnded_refused idle st, by simp, by simp, by simp⟩

section
variable {s : State} {c : MbCmd}

theorem mbSetroot_misaligned (ha : c.a1.toNat % 2 ^ 20 ≠ 0) : s.mbSetroot c = .done s 2 [] := if_pos ha

theorem mbSetroot_unknown (ha : c.a1.toNat % 2 ^ 20 = 0) (hs : s.spaceExists c.a0.toNat = false) :
    s.mbSetroot c = .done s 3 [] := by
  rw [State.mbSetroot, if_neg (not_not.2 ha), hs]
  exact if_pos rfl

theorem mbSetroot_kept (ha : c.a1.toNat % 2 ^ 20 = 0) (hs : s.spaceExists c.a0.toNat = true) :
    ∃ u, s.mbSetroot c = .done u 0 [] ∧ u.fe.running = s.fe.running ∧ u.fe.roots = putKey c.a0.toNat c.a1.toNat s.fe.roots := by
  rw [State.mbSetroot, if_neg (not_not.2 ha), hs]
  exact ⟨_, if_neg Bool.false_ne_true, rfl, rfl⟩

theorem mbJobend_unknown (hj : s.jobOf c.a0.toNat = none) : s.mbJobend c = .done s 3 [] := by
  rw [State.mbJobend, hj]
  rfl

theorem mbJobend_ended {j : Job} (moves : s.planesMove = true) (hj : s.jobOf c.a0.toNat = some j) :
    s.mbJobend c = .done (s.endJob c.a0.toNat 7 none) 0 [] := by
  rw [State.mbJobend, hj, moves]
  rfl

theorem mbJobcreate_misaligned (ha : c.a0.toNat % 8 ≠ 0) : s.mbJobcreate c = .done s 2 [] := if_pos ha

end

section
variable {s : State} {c : MbCmd} (idle : MailboxIdle s c) (owns : s.owns c.agent = true)
include idle owns

theorem exec_jobend_ended {j : Job} (moves : s.planesMove = true) (hj : s.jobOf c.a0.toNat = some j) :
    ∃ u, exec (.jobend c) s = .next u ∧ MailboxDone s 2 c 0 u ∧ u.jobOf c.a0.toNat = none := by
  have hj' : (s.mbBegun 2 c).jobOf c.a0.toNat = some j := (mbBegun_jobOf ..).trans hj
  obtain ⟨gone, running⟩ := endJob_ended_unrecorded hj' 7
  exact ⟨_, exec_ended idle owns (code := 2) (i := .jobend c) rfl nofun (mbJobend_ended ((mbBegun_planesMove ..).trans moves) hj'),
    mbEnded_done_idle idle 0 [] (running.trans (mbBegun_running idle)), (mbEnded_jobOf ..).trans gone⟩

theorem exec_setroot_kept (ha : c.a1.toNat % 2 ^ 20 = 0) (hs : s.spaceExists c.a0.toNat = true) :
    ∃ u, exec (.setroot c) s = .next u ∧ MailboxDone s 3 c 0 u ∧ getKey c.a0.toNat u.fe.roots = some c.a1.toNat := by
  obtain ⟨u, e, running, roots⟩ := mbSetroot_kept ha ((mbBegun_spaceExists s 3 c _).trans hs)
  refine ⟨_, exec_ended idle owns (code := 3) (i := .setroot c) rfl nofun e,
    mbEnded_done_idle idle 0 [] (running.trans (mbBegun_running idle)), ?_⟩
  rw [mbEnded_roots, roots]
  exact (getKey_putKey ..).trans (if_pos rfl)

theorem exec_kreg_kept {j : Job} (hj : s.jobOf c.a0.toNat = some j)
    (hk : c.a2 = 0#64 ∨ ∃ lo hi, c.a2.toNat = lo + 16 * hi ∧ 7 ≤ lo ∧ lo ≤ hi ∧ hi ≤ 12) :
    ∃ u, exec (.kreg c) s = .next u ∧ MailboxDone s 7 c 0 u ∧ u.jobOf c.a0.toNat = some (withKernel c j) := by
  obtain ⟨u, e, running, job⟩ := mbKreg_kept ((mbBegun_jobOf s 7 c _).trans hj) hk
  exact ⟨_, exec_ended idle owns (code := 7) (i := .kreg c) rfl nofun e, mbEnded_done_idle idle 0 [] (running.trans (mbBegun_running idle)),
    (mbEnded_jobOf ..).trans job⟩

end

theorem withKernel_removed {c : MbCmd} (h0 : c.a2 = 0#64) (j : Job) : ∀ e ∈ (withKernel c j).kernels, e.1 ≠ c.a1 := by
  intro e he
  have kernels : (withKernel c j).kernels = j.kernels.filter (fun k => k.1 != c.a1) := if_pos h0
  rw [kernels] at he
  simpa using (List.mem_filter.1 he).2

theorem withKernel_put {c : MbCmd} {lo hi : Nat} (ha : c.a2.toNat = lo + 16 * hi) (h1 : 7 ≤ lo) (h2 : lo ≤ hi) (h3 : hi ≤ 12)
    (j : Job) : (c.a1, lo, hi) ∈ (withKernel c j).kernels ∧ ∀ e ∈ (withKernel c j).kernels, e.1 = c.a1 → e = (c.a1, lo, hi) := by
  have h0 : c.a2 ≠ 0#64 := fun h => by
    have : c.a2.toNat = 0 := by rw [h]; rfl
    omega
  have hlo : bitsOf c.a2.toNat 0 4 = lo := by rw [bitsOf_eq_div_mod]; omega
  have hhi : bitsOf c.a2.toNat 4 4 = hi := by rw [bitsOf_eq_div_mod]; omega
  have kernels : (withKernel c j).kernels = _ := if_neg h0
  rw [kernels, hlo, hhi]
  refine ⟨List.mem_cons_self, fun e he ha => ?_⟩
  rcases List.mem_cons.1 he with rfl | he
  · rfl
  · exact absurd ha (by simpa using (List.mem_filter.1 he).2)

/-- Settles O59: each command by what its code does from the state in which it begins. -/
theorem jobCommands : Obligations.JobCommands := by
  unfold Obligations.JobCommands
  refine ⟨?foreign, ?jobcreate, ?refused, ?busy, ?taken, ?inval⟩
  case foreign => exact fun s c i code hi idle ready owns => exec_owner_refused idle hi ready owns
  case jobcreate =>
    rintro s t c l j idle ready owns ha hl clean rfl
    refine ⟨exec_jobcreate_badDesc idle ready owns ha hl clean, ?_, ?_⟩
    · rintro banks map hb rfl hm rfl
      obtain ⟨real, free⟩ := askedBanks_free t (descJob (l.map (·.1)))
      refine ⟨fun key hd hk => ⟨_, exec_jobcreate_free idle ready owns ha hl clean hb hm (assignJob_taken real free hd hk),
        mbEnded_createJob _ _ _ _ idle.die rfl⟩, fun h => ?_⟩
      have e : t.assignJob (descJob (l.map (·.1))) none = .done t 4 [] := by
        rcases h with h | ⟨he, hk⟩
        · exact assignJob_held real (.inr h)
        · exact assignJob_keyless real free he hk
      exact ⟨_, exec_jobcreate_free idle ready owns ha hl clean hb hm e, mbEnded_done _ _ idle.die rfl, mbEnded_jobs .., mbEnded_mm ..⟩
    · rintro banks map w m hb rfl h0 hm hw clean' rfl
      have asked : askedBanks w (descJob (l.map (·.1))) (some (BitVec.ofNat 65536 (natOfBytes (m.map (·.1))))) =
          BitVec.ofNat 65536 (natOfBytes (m.map (·.1))) := if_neg h0
      refine ⟨fun h => ?_, fun real h => ?_, fun key real free hd hk => ?_⟩
      · exact ⟨_, exec_jobcreate_mapped idle ready owns ha hl clean hb h0 hm hw clean' (assignJob_unreal (by rwa [asked])),
          mbEnded_done _ _ idle.die rfl, mbEnded_jobs .., mbEnded_mm ..⟩
      · exact ⟨_, exec_jobcreate_mapped idle ready owns ha hl clean hb h0 hm hw clean'
          (assignJob_held (by rwa [asked]) (.inl (by rwa [asked]))), mbEnded_done _ _ idle.die rfl, mbEnded_jobs .., mbEnded_mm ..⟩
      · have e := assignJob_taken (map := some (BitVec.ofNat 65536 (natOfBytes (m.map (·.1))))) (by rwa [asked]) (by rwa [asked]) hd hk
        rw [asked] at e
        exact ⟨_, exec_jobcreate_mapped idle ready owns ha hl clean hb h0 hm hw clean' e, mbEnded_createJob _ _ _ _ idle.die rfl⟩
  case refused =>
    intro s c idle owns
    refine ⟨fun ready ha => ?_, fun ready fail => ?_, fun ha => ?_, fun ha hs => ?_, fun hj => ?_, ?_, fun h => ?_⟩
    · obtain ⟨u, e, done, jobs, -, mm⟩ := exec_refused idle owns (code := 1) (i := .jobcreate c) rfl (fun _ => ready) (mbJobcreate_misaligned ha)
      exact ⟨u, e, done, jobs, mm⟩
    · show Host.Outcome.next (s.mailboxWrite c 1) = _
      have served : s.mbServed 1 = false := by simp [State.mbServed, ready]
      rw [State.mailboxWrite, State.mailboxRun, if_neg (Nat.not_le.2 idle.die), served, if_pos (by decide : (!false) = true)]
      exact congrArg _ (if_pos fail)
    · obtain ⟨u, e, done, -, roots, mm⟩ := exec_refused idle owns (code := 3) (i := .setroot c) rfl nofun (mbSetroot_misaligned ha)
      exact ⟨u, e, done, roots, mm⟩
    · obtain ⟨u, e, done, -, roots, mm⟩ := exec_refused idle owns (code := 3) (i := .setroot c) rfl nofun
        (mbSetroot_unknown ha ((mbBegun_spaceExists ..).trans hs))
      exact ⟨u, e, done, roots, mm⟩
    · obtain ⟨u, e, done, jobs, -, mm⟩ := exec_refused idle owns (code := 7) (i := .kreg c) rfl nofun
        (mbKreg_unknown ((mbBegun_jobOf ..).trans hj))
      exact ⟨u, e, done, jobs, mm⟩
    · rintro j lo hi hj rfl rfl h0 hb
      obtain ⟨u, e, done, jobs, -, mm⟩ := exec_refused idle owns (code := 7) (i := .kreg c) rfl nofun
        (mbKreg_bad ((mbBegun_jobOf ..).trans hj) h0 hb)
      exact ⟨u, e, done, jobs, mm⟩
    · obtain ⟨u, e, done, -, -, mm⟩ := exec_refused idle owns (code := 4) (i := .inval c) rfl nofun (mbInval_bad h)
      exact ⟨u, e, done, mm⟩
  case busy =>
    intro s c i code r hi up hd hf hr hn ready
    obtain ⟨own, e⟩ := exec_waits hi up hd hf hr hn ready
    refine ⟨_, e, ?_⟩
    rw [mbWritten_eq]
    exact ⟨rfl, rfl, rfl, rfl⟩
  case taken =>
    intro s c idle owns
    refine ⟨fun j => exec_jobend_ended idle owns, fun hj => ?_, exec_setroot_kept idle owns,
      fun j hj => ⟨fun h0 => ?_, fun lo hi ha h1 h2 h3 => ?_⟩⟩
    · obtain ⟨u, e, done, jobs, -, mm⟩ := exec_refused idle owns (code := 2) (i := .jobend c) rfl nofun
        (mbJobend_unknown ((mbBegun_jobOf ..).trans hj))
      exact ⟨u, e, done, mm, jobs⟩
    · obtain ⟨u, e, done, job⟩ := exec_kreg_kept idle owns hj (.inl h0)
      exact ⟨u, _, e, done, job, withKernel_removed h0 j⟩
    · obtain ⟨u, e, done, job⟩ := exec_kreg_kept idle owns hj (.inr ⟨lo, hi, ha, h1, h2, h3⟩)
      exact ⟨u, _, e, done, job, withKernel_put ha h1 h2 h3 j⟩
  case inval =>
    intro s c bits lo hi space idle owns moves hb hlo hhi hs
    obtain ⟨running, tlb, l2, icache⟩ := invalidate_left (s.mbBegun 4 c) hlo hhi hs
    have left : ∀ d, reached (s.mbBegun 4 c) space d = false →
        space ≠ 0 ∧ ∀ h ∈ s.harts, h.isResident = true → h.asid = space → h.place.die ≠ d := fun d h => by
      simpa using not_reached h
    refine ⟨_, exec_ended idle (code := 4) (i := .inval c) owns rfl nofun (mbInval_ok (by simpa using moves) hb),
      mbEnded_done_idle idle 0 [] (running.trans (mbBegun_running idle)), ?_⟩
    rw [mbEnded_mm]
    exact ⟨tlb, fun e he ha h1 h2 => left _ (l2 e he (by simp [inPage, ha, h1, h2])),
      fun e he ha h1 h2 hp => left _ (icache e he (by simp [inPage, ha, h1, h2]) hp)⟩

end Sys2Proof.Proofs
end

