-- ==== Sys2Proof/Proofs/RegionRuns.lean ====
section
/-!
SUPPORT. What an ALRE leaves when its body has run at the home (R219, R220): the registers that the body wrote, the place after
it, and the memory of the release and acquire that the ALRE asks for.
-/

namespace Sys2Proof.Proofs

open Sys2Proof Sys2Proof.Machine Sys2Proof.Laws

/-- The first registers of a hart take what a body wrote in them. -/
def tookBody (h : HomeRun) (g : Hart) (n : Nat) : Hart :=
  (List.range n).foldl (fun (g : Hart) (k : Nat) =>
    if h.written.getLsbD k then g.setX (BitVec.ofNat 5 k) (h.x[k]?.getD 0#64) else g) g

theorem tookBody_succ (h : HomeRun) (g : Hart) (n : Nat) : tookBody h g (n + 1) =
    if h.written.getLsbD n then (tookBody h g n).setX (BitVec.ofNat 5 n) (h.x[n]?.getD 0#64) else tookBody h g n := by
  rw [tookBody, List.range_succ, List.foldl_append]
  rfl

theorem getX_tookBody (h : HomeRun) (g : Hart) {r : BitVec 5} (hr : r ≠ 0#5) : ∀ n ≤ 32, (tookBody h g n).getX r =
    if r.toNat < n ∧ h.written.getLsbD r.toNat = true then h.getX r else g.getX r
  | 0, _ => by simp [tookBody]
  | n + 1, hn => by
    have ih := getX_tookBody h g hr n (by omega)
    rw [tookBody_succ]
    have value : h.x[r.toNat]?.getD 0#64 = h.getX r := by
      rw [HomeRun.getX, if_neg hr, Vector.getElem?_eq_getElem r.isLt, Option.getD_some]
    by_cases e : r.toNat = n
    · subst e
      have same : BitVec.ofNat 5 r.toNat = r := by simp
      split
      next hw => rw [hart_getX_setX, same, if_pos ⟨rfl, hr⟩, if_pos ⟨Nat.lt_succ_self _, hw⟩, value]
      next hw => rw [ih, if_neg (fun x => Nat.lt_irrefl _ x.1), if_neg (fun x => hw x.2)]
    · have other : r ≠ BitVec.ofNat 5 n := fun x => e (by rw [x, BitVec.toNat_ofNat]; omega)
      have bound : r.toNat < n + 1 ↔ r.toNat < n := by omega
      split
      · simp only [hart_getX_setX, other, false_and, if_false, ih, bound]
      · simp only [ih, bound]

/-- The body's registers are written back, the region ends and the hart goes on after its ALRE. -/
def regionCommitted (r : Region) (h : HomeRun) (t : State) : State :=
  { t with hart := { tookBody h t.hart 32 with region := none } }.setPc
    (wrapPc (r.alrb + BitVec.ofNat 64 (4 * (r.body.length + 2))))

theorem getX_regionCommitted (r : Region) (h : HomeRun) (t : State) {n : BitVec 5} (hn : n ≠ 0#5) :
    (regionCommitted r h t).getX n = if h.written.getLsbD n.toNat then h.getX n else t.getX n := by
  have e := getX_tookBody h t.hart hn 32 (Nat.le_refl _)
  simp only [n.isLt, true_and] at e
  exact e

theorem getX_acquireMine (s : State) (sc : BitVec 2) (r : BitVec 5) : (s.acquireMine sc).getX r = s.getX r := by
  have e : (s.acquireMine sc).hart.plain = s.hart.plain := (acquire_moves ..).hart
  show (s.acquireMine sc).hart.plain.getX r = s.hart.plain.getX r
  rw [e]

theorem getX_ifAcquire (s : State) (q : BitVec 1) (sc : BitVec 2) (r : BitVec 5) : (s.ifAcquire q sc).getX r = s.getX r := by
  unfold State.ifAcquire
  split
  · exact getX_acquireMine s sc r
  · rfl

theorem shown_moves (s : State) (die : Nat) (w : Window) (sc : BitVec 2) : HomeMoves s (s.shown die w sc) := by
  unfold State.shown
  split
  · split
    · exact HomeMoves.refl s
    · exact cleanL2_moves _ _
  · exact HomeMoves.refl s

/-- Release actions let an operation that must not wait go on. -/
theorem release_run {s : State} {l : BitVec 1} {sc : BitVec 2} (may : s.mayRelease l sc) (hl : l = 1#1) :
    M.release sc s = .ok ((), s.releaseMine sc) := by
  obtain ⟨planes, acked⟩ := may hl
  have hart : (s.releaseMine sc).hart = s.hart := (release_moves _ _ _ _).toMem.hart
  rw [M.release, bind_ok (needPlanes_ok planes), bind_ok (run_modify s _), bind_ok (run_get (s.releaseMine sc))]
  rw [hart, if_neg fun h => Bool.false_ne_true ((acked h.1).symm.trans h.2), run_pure]

/-- A step that is done under a condition, before what comes after it. -/
theorem run_when {c : Prop} [Decidable c] {β : Type} {a b : M β} {s t : State} (h : c → a s = b t) (h' : ¬c → s = t) :
    (if c then a else b) s = b t := by
  split
  next hc => exact h hc
  next hc => rw [h' hc]

/-- What an ALRE leaves when its body has run (R219, R220). -/
theorem runRegion_done {f t0 t : State} {r : Region} {l q : BitVec 1} {sc : BitVec 2} {w : Window} {h : HomeRun}
    (hwf : Instr.wf (.alre l q sc) = true) (hr : f.hart.region = some r) (noWalk : f.noWalk q sc) (may : f.mayRelease l sc)
    (hc : classify f.who (BitVec.ofNat 64 (r.line * 128)) 1
      (if ((bodyInstrs r.body).filterMap memShape).any (·.2) then .store else .load) (f.ifRelease l sc) = .ok (w, t0))
    (hb : regionAt f.who r (if w.isMemSide then none else w.leaf)
      (16 * sc.toNat + 64 * q.toNat + 128 * l.toNat + 512 * ((bodyInstrs r.body).filterMap memShape).length) t0 = .ok (.ok h, t))
    (hp : h.poisoned = false) :
    f.runRegion l q sc =
      .next (regionCommitted r h ((if l = 1#1 then t.shown (paDie r.pa) w sc else t).ifAcquire q sc)).clearReplies := by
  rw [State.runRegion]
  refine settle_ok ?_
  have q0 (x : BitVec 1) : isSet x = true ↔ x = 1#1 := beq_iff_eq
  rw [hwf, if_neg (by decide), bind_ok (run_get f), hr]
  refine (run_when (t := f) (fun hq => ?_) fun _ => rfl).trans ?_
  · obtain ⟨planes, none⟩ := noWalk ((q0 q).1 hq)
    exact (bind_ok (wait_none none) _).trans (bind_ok (needPlanes_ok planes) _)
  refine (run_when (t := f.ifRelease l sc) (fun hl => ?_) fun hl => (if_neg fun x => hl ((q0 l).2 x)).symm).trans ?_
  · rw [State.ifRelease, if_pos ((q0 l).1 hl)]
    exact bind_ok (release_run may ((q0 l).1 hl)) _
  refine (bind_ok (access_ok hc _ _) _).trans ((bind_ok (access_ok hb _ _) _).trans ?_)
  refine (congrFun (if_neg (by rw [hp]; decide)) t).trans ?_
  refine (run_when (t := if l = 1#1 then t.shown (paDie r.pa) w sc else t) (fun hl => ?_)
    fun hl => (if_neg fun x => hl ((q0 l).2 x)).symm).trans ?_
  · rw [if_pos ((q0 l).1 hl)]
    rfl
  generalize (if l = 1#1 then t.shown (paDie r.pa) w sc else t) = v
  refine (run_when (t := v.ifAcquire q sc) (fun hq => ?_) fun hq => (if_neg fun x => hq ((q0 q).2 x)).symm).trans ?_
  · rw [State.ifAcquire, if_pos ((q0 q).1 hq)]
    rfl
  rfl

/-- A hart's open region runs at its home as its ALRE does (R219). -/
theorem exec_regionAtHome_eq {s f u : State} {word : BitVec 32} {l q : BitVec 1} {sc : BitVec 2} (ready : s.hart.isReady = true)
    (due : s.hart.watchdogDue = false ∨ s.midRemote s.hart.uid = true) (region : s.hart.region.isSome = true)
    (hf : fetchWord s.who s.hart.pc s = .ok (word, f)) (hd : decodeWord word = .ok (.alre l q sc))
    (he : exec (.alre l q sc) f = .next u) : exec (.regionAtHome s.hart.uid) s = .next u := by
  show execRegionAtHome s.hart.uid s = _
  have run : f.runRegion l q sc = .next u := he
  have busy : (!s.hart.isReady || s.hart.region.isNone || (s.hart.watchdogDue && !s.midRemote s.hart.uid)) = false := by
    rcases due with h | h <;> simp [ready, Option.isNone_eq_false_iff.2 region, h]
  rw [execRegionAtHome, State.withHart, if_pos rfl, busy, if_neg Bool.false_ne_true, hf]
  dsimp only
  rw [hd]
  dsimp only
  rw [run]

end Sys2Proof.Proofs
end

