-- ==== Sys2Proof/Proofs/WalksAndHomes.lean ====
section
/-!
SUPPORT. What memory fronts, homes and walks leave (R115, R135, R153, R159 to R162, R214), and from it the statement O51.
-/

namespace Sys2Proof.Proofs

open Sys2Proof Sys2Proof.Machine Sys2Proof.Laws

/-! ## Frames -/

theorem MemMoves.walks {s t : State} (h : MemMoves s t) : t.walks = s.walks := by rw [h]
theorem MemMoves.harts {s t : State} (h : MemMoves s t) : t.harts = s.harts := by rw [h]; rfl

theorem serveWrite_moves (s : State) (space ln : Nat) (v : LineVal) (mask : BitVec 128) (core : Option Nat) :
    HomeMoves s (s.serveWrite space ln v mask core) := by
  unfold State.serveWrite
  split
  · exact readServed_moves ..
  · split
    · exact setMm_homeMoves (by rfl)
    · exact takeIn_moves ..

theorem putHeader_moves (s : State) (w : Walk) (pa : Nat) (h : Word) : MemMoves s (s.putHeader w pa h) :=
  (cleanL2_moves s _).toMem.trans ((serveWrite_moves ..).toMem.trans (setMm_memMoves _ _))

/-! ## Walks by their number -/

theorem walkOf_congr {s t : State} (h : t.walks = s.walks) (id : Nat) : t.walkOf id = s.walkOf id := by
  rw [State.walkOf, State.walkOf, h]

theorem walkOf_onWalk {s : State} {w : Walk} (hw : s.walkOf w.id = some w) {f : Walk → Walk} (hf : ∀ v, (f v).id = v.id) :
    (s.onWalk w.id f).walkOf w.id = some (f w) := by
  have same : ∀ v : Walk, ((fun v : Walk => v.id == w.id) (f v)) = (v.id == w.id) := fun v => by simp [hf]
  have found := find?_changeAll (fun v : Walk => v.id == w.id) (fun v : Walk => v.id == w.id) f same s.walks
  have hw' : s.walks.find? (fun v : Walk => v.id == w.id) = some w := hw
  rw [hw'] at found
  rw [State.walkOf, State.onWalk]
  simpa using found

theorem walkOf_dropWalk (s : State) (id : Nat) : (s.dropWalk id).walkOf id = none := by
  rw [State.walkOf, State.dropWalk, List.find?_eq_none]
  intro w hw
  simpa using (List.mem_filter.1 hw).2

/-! ## Headers (R159, R160) -/

/-- The bits of a header that its PSCOPE and WALKMARK leave. -/
theorem getLsbD_headerMask : ∀ b < 64, (0xFFFFFFF8FFFFFFFF#64).getLsbD b = decide (b ≠ 32 ∧ b ≠ 33 ∧ b ≠ 34) := by decide

/-- A PSCOPE and a WALKMARK in their places. -/
theorem getLsbD_headerFields : ∀ scope < 4, ∀ mark : Bool, ∀ b < 64,
    (BitVec.ofNat 64 (scope % 4 * 2 ^ 32 + (if mark then 2 ^ 34 else 0))).getLsbD b =
      if b = 34 then mark else if b = 32 ∨ b = 33 then scope.testBit (b - 32) else false := by decide

theorem getLsbD_setHeader (h : Word) {scope : Nat} (hs : scope < 4) (mark : Bool) {b : Nat} (hb : b < 64) :
    (setHeader h scope mark).getLsbD b =
      if b = 34 then mark else if b = 32 ∨ b = 33 then scope.testBit (b - 32) else h.getLsbD b := by
  rw [setHeader, BitVec.getLsbD_or, BitVec.getLsbD_and, getLsbD_headerMask b hb, getLsbD_headerFields scope hs mark b hb]
  by_cases h34 : b = 34
  · simp [h34]
  · by_cases h32 : b = 32 ∨ b = 33
    · rcases h32 with rfl | rfl <;> simp
    · obtain ⟨h32, h33⟩ := not_or.1 h32
      simp [h34, h32, h33]

theorem hdrScope_setHeader (h : Word) {scope : Nat} (hs : scope < 4) (mark : Bool) : hdrScope (setHeader h scope mark) = scope := by
  refine Nat.eq_of_testBit_eq fun i => ?_
  have bit (hi : i < 2) : (setHeader h scope mark).toNat.testBit (32 + i) = scope.testBit i := by
    rw [← BitVec.getLsbD, getLsbD_setHeader h hs mark (by omega), if_neg (by omega), if_pos (by omega), Nat.add_sub_cancel_left]
  rw [hdrScope, bitsOf, Nat.testBit_mod_two_pow, Nat.testBit_shiftRight]
  by_cases hi : i < 2
  · rw [bit hi, decide_eq_true hi, Bool.true_and]
  · have small : scope < 2 ^ i := Nat.lt_of_lt_of_le hs (Nat.pow_le_pow_right (by decide) (Nat.not_lt.1 hi) : 2 ^ 2 ≤ 2 ^ i)
    rw [decide_eq_false hi, Bool.false_and, Nat.testBit_lt_two_pow small]

/-! ## Fronts, filters and homes -/

theorem exec_bloomSliceClear_full {s : State} {b : Bloom} (hb : b ∈ s.mm.blooms) (full : 65536 ≤ b.misses) :
    exec (.bloomSliceClear b.stack b.slice) s = .next { s with mm := { s.mm with
      blooms := s.mm.blooms.filter (fun x => !(x.stack == b.stack && x.slice == b.slice)) } } := by
  show execBloomSliceClear b.stack b.slice s = _
  have any : s.mm.blooms.any (fun x => x.stack == b.stack && x.slice == b.slice && decide (65536 ≤ x.misses)) = true :=
    List.any_eq_true.2 ⟨b, hb, by simp [full]⟩
  rw [execBloomSliceClear, any]
  rfl

theorem exec_atomicAtHome_performed {s : State} {pa : Nat} {op : BitVec 4} (here : s.isLocal pa = true) (region : paRegion pa = 0)
    (ho : op.toNat < 10) (operand expected : Word) (m : Bool) : exec (.atomicAtHome pa op operand expected m) s =
    .next { (s.atomicHome 0 pa op operand expected m none).1 with
      homeReply := some (s.atomicHome 0 pa op operand expected m none).2.1 } := by
  show execAtomicAtHome pa op operand expected m s = _
  have may : (!s.isLocal pa || paRegion pa != 0 || decide (9 < op.toNat)) = false := by
    have : ¬ 9 < op.toNat := by omega
    simp [here, region, this]
  rw [execAtomicAtHome, may]
  rfl

theorem exec_walkStart_active {s : State} {w : Walk} (hw : s.walkOf w.id = some w) (queued : w.state = .queued)
    (room : (s.walks.filter (fun v => v.die == w.die && v.state == WalkState.active)).length < 16) :
    exec (.walkStart w.id) s = .next (s.onWalk w.id (fun v => { v with state := .active })) := by
  show execWalkStart w.id s = _
  have starts : (w.state == WalkState.queued &&
      decide ((s.walks.filter (fun v => v.die == w.die && v.state == WalkState.active)).length < 16)) = true := by
    rw [queued, decide_eq_true room]
    rfl
  rw [execWalkStart, hw]
  exact congrArg _ (if_pos starts)

/-! ## Visits of a walk (R159 to R162) -/

section
variable {s t0 t : State} {w : Walk} {o h : Word} {rest : List (Word × Bool)} {pa : Nat} {tag : Bool}
  (hw : s.walkOf w.id = some w) (active : w.state = .active) (moves : s.planesMove = true)
include hw active moves

theorem exec_visit : exec (.walkObjectVisit w.id) s = .next (match w.stack with
    | [] => s
    | (o, false) :: rest => s.enterObject w o rest
    | (o, true) :: rest => s.leaveObject w o rest) := by
  show execWalkObjectVisit w.id s = _
  have runs : (w.state != WalkState.active || !s.planesMove) = false := by rw [active, moves]; rfl
  rw [execWalkObjectVisit, hw]
  dsimp only
  rw [State.visit, runs]
  rfl

variable (page : s.refPage w o = .follow pa t0) (field : t0.homeField w.asid pa = (h, tag, false))
  (ht : t = t0.readServed w.asid (pa / 128))
include page field ht

theorem exec_visit_shared (stack : w.stack = (o, false) :: rest) (shared : w.scope.toNat ≤ hdrScope h) (mark : hdrMark h = false) :
    exec (.walkObjectVisit w.id) s = .next (t.onWalk w.id (fun v => { v with stack := rest })) := by
  have done : (decide (w.scope.toNat ≤ hdrScope h) && !hdrMark h) = true := by rw [decide_eq_true shared, mark]; rfl
  rw [exec_visit hw active moves, stack]
  dsimp only
  rw [State.enterObject, page]
  dsimp only
  rw [field, ht]
  exact congrArg _ ((if_neg Bool.false_ne_true).trans (if_pos done))

theorem exec_visit_left (stack : w.stack = (o, true) :: rest) : exec (.walkObjectVisit w.id) s =
    .next ((t.putHeader w pa (setHeader h (hdrScope h) false)).onWalk w.id (fun v => { v with stack := rest })) := by
  rw [exec_visit hw active moves, stack]
  dsimp only
  rw [State.leaveObject, page]
  dsimp only
  rw [field, ht]
  exact congrArg _ (if_neg Bool.false_ne_true)

variable {g : Hart} (stack : w.stack = (o, false) :: rest) (new : hdrScope h < w.scope.toNat ∨ hdrMark h = true)
  (hart : t.hartOf w.uid = some g)
include stack new hart

/-- An object that is not yet visible is entered, when its walk may count one more. -/
theorem exec_visit_new : exec (.walkObjectVisit w.id) s = .next (
    if g.csr.walkMax ≠ 0#64 ∧ g.csr.walkMax.toNat < w.count + 1 then t.stopWalk w.id 0xB#8 o (w.count + 1) w.stack.length
    else
      let t1 := t.putHeader w pa (setHeader h (max (hdrScope h) w.scope.toNat) true)
      (if hdrScope h < w.scope.toNat then t1.showObject w o pa (hdrLength h) else t1).pushFields w o (hdrLength h) (w.count + 1)
        g.csr.walkSpill.toNat rest) := by
  have enters : (decide (w.scope.toNat ≤ hdrScope h) && !hdrMark h) = false := by
    rcases new with new | new
    · rw [decide_eq_false (Nat.not_le.2 new)]; rfl
    · rw [new]; exact Bool.and_false _
  rw [exec_visit hw active moves, stack]
  dsimp only
  rw [State.enterObject, page]
  dsimp only
  rw [field]
  dsimp only
  rw [if_neg Bool.false_ne_true, enters, if_neg Bool.false_ne_true, ← ht, hart, stack]
  rfl

end

theorem pushFields_done {s t u : State} {w : Walk} {o : Word} {len count : Nat} {area : Word} {rest : List (Word × Bool)} {l : List Word}
    (hf : s.fields w o (len - 1) [] = .refs l t) (fits : area ≠ 0#64 ∨ l.length + rest.length + 1 ≤ 64)
    (hs : t.spill w area (rest.length + 1) l = .done u) : s.pushFields w o len count area.toNat rest =
      (u.onWalk w.id (fun v => { v with count := count, stack := l.reverse.map (fun f => (f, false)) ++ (o, true) :: rest })).dropReplies
        w.id := by
  have same : BitVec.ofNat 64 area.toNat = area := by simp
  have room : ¬(area.toNat = 0 ∧ l.length + rest.length + 1 > 64) := by
    rintro ⟨h0, h64⟩
    rcases fits with fits | fits
    · exact fits (BitVec.eq_of_toNat_eq h0)
    · omega
  rw [State.pushFields, hf]
  dsimp only
  rw [if_neg room, same, hs]

theorem exec_walkComplete_stored {s t0 t : State} {w : Walk} {x : Window} (hw : s.walkOf w.id = some w) (active : w.state = .active)
    (stack : w.stack = []) (moves : s.planesMove = true) (hc : classify w.who w.field 8 .store s = .ok (x, t0))
    (reach : x.isReach = true) (hs : storeLine w.who w.field 8 w.ref.toNat true x t0 = .ok ((), t)) :
    exec (.walkComplete w.id) s = .next ((t.shown w.die x w.scope).dropWalk w.id) := by
  show execWalkComplete w.id s = _
  have runs : (w.state != WalkState.active || w.stack != [] || !s.planesMove) = false := by rw [active, stack, moves]; rfl
  rw [execWalkComplete, hw]
  dsimp only
  rw [State.finishWalk, runs, if_neg Bool.false_ne_true]
  dsimp only
  rw [bind_ok hc, reach, if_neg (by decide), bind_ok hs, run_modify]

/-- Settles O51: each front, home and walk by what its step leaves, the regions at their homes by the ALRE that they are. -/
theorem walksAndHomes : Obligations.WalksAndHomes := by
  unfold Obligations.WalksAndHomes
  refine ⟨?front, ?bloom, ?atomic, ?region, ?regionDone, ?start, ?header, ?visit, ?complete⟩
  case front =>
    intro s t die asid va acc h
    refine ⟨t.dropReplies (memoryFront die asid).uid, ?_, rfl, rfl⟩
    show execMemoryFrontRequest die asid va acc s = _
    rw [execMemoryFrontRequest, h]
  case bloom =>
    rintro s stack slice b hb rfl rfl full
    refine ⟨_, exec_bloomSliceClear_full hb full, rfl, fun x => ?_⟩
    simp [List.mem_filter, imp_iff_not_or]
  case atomic =>
    exact fun s pa op operand expected m here region ho =>
      ⟨_, exec_atomicAtHome_performed here region ho operand expected m, rfl, rfl, rfl⟩
  case region =>
    exact fun s t u r w l q sc ready region hf hd he due => exec_regionAtHome_eq ready due (by simp [region]) hf hd he
  case regionDone =>
    intro s f t0 t r word l q sc w h ready due region hf hd hwf hr noWalk may hc hb hp
    have run := runRegion_done hwf hr noWalk may hc hb hp
    refine ⟨_, exec_regionAtHome_eq ready due (by simp [region]) hf hd run, by simp [regionCommitted], by simp [regionCommitted],
      fun n hn => ?_, fun pa => ?_⟩
    · rw [getX_clearReplies, getX_regionCommitted r h _ hn, getX_ifAcquire]
      split
      · rfl
      · split
        · exact congrArg (fun g : Hart => g.getX n) (shown_moves ..).toMem.hart
        · rfl
    · rw [State.byteAt, State_clearReplies_mm]
      rfl
  case start =>
    intro s w hw queued room
    exact ⟨_, exec_walkStart_active hw queued room, rfl, walkOf_onWalk hw (fun _ => rfl)⟩
  case header =>
    intro h scope mark hs
    refine ⟨hdrScope_setHeader h hs mark, ?_, fun b h1 h2 h3 => ?_⟩
    · rw [hdrMark, getLsbD_setHeader h hs mark (by decide), if_pos rfl]
    · by_cases hb : b < 64
      · rw [getLsbD_setHeader h hs mark hb, if_neg h3, if_neg (not_or.2 ⟨h1, h2⟩)]
      · rw [BitVec.getLsbD_of_ge _ _ (Nat.not_lt.1 hb), BitVec.getLsbD_of_ge _ _ (Nat.not_lt.1 hb)]
  case visit =>
    intro s t0 t w o h rest pa tag hw active moves page field ht hw'
    refine ⟨fun stack shared mark => ?_, fun stack => ?_, fun g stack new hart => ⟨fun h0 above => ?_, fun l t2 t3 count hf fits hs hw3 => ?_⟩⟩
    · exact ⟨_, exec_visit_shared hw active moves page field ht stack shared mark, rfl, walkOf_onWalk hw' (fun _ => rfl)⟩
    · refine ⟨_, exec_visit_left hw active moves page field ht stack, rfl, walkOf_onWalk ?_ (fun _ => rfl)⟩
      rw [walkOf_congr (putHeader_moves ..).walks, hw']
    · refine ⟨_, exec_visit_new hw active moves page field ht stack new hart, ?_⟩
      rw [if_pos ⟨h0, above⟩]
      exact ⟨rfl, walkOf_onWalk hw' (fun _ => rfl)⟩
    · refine ⟨_, exec_visit_new hw active moves page field ht stack new hart, ?_⟩
      have counts : ¬(g.csr.walkMax ≠ 0#64 ∧ g.csr.walkMax.toNat < w.count + 1) := by
        rintro ⟨h0, above⟩
        rcases count with count | count
        · exact h0 count
        · omega
      rw [if_neg counts, pushFields_done hf fits hs]
      exact ⟨rfl, walkOf_onWalk hw3 (fun _ => rfl)⟩
  case complete =>
    rintro s t0 t w x who hw active stack moves rfl hc reach hs
    refine ⟨_, exec_walkComplete_stored hw active stack moves hc reach hs, walkOf_dropWalk .., rfl, ?_⟩
    exact (shown_moves ..).toMem.harts

end Sys2Proof.Proofs
end

