-- ==== Sys2Proof/Proofs/LoadedBytes.lean ====
section
/-!
SUPPORT. Loads and the memory that they leave (R111, R126): a state whose memory is out of its one form, and from it the refutation
of O4.
-/

namespace Sys2Proof.Proofs

open Sys2Proof Sys2Proof.Machine

/-- A line that fills one way of the set of virtual line 0 in the L2 of die 0. -/
def setLine (way : Nat) (dirty : BitVec 128) : L2Line :=
  { die := 0, asid := 0, line := 65 * 2 ^ 12 * (way + 1), pa := 100 + way, leaf := 0, way := way, rrpv := 3, data := 0#1024, tags := 0#16,
    psn := 0#4, dirty := dirty, writers := 0#48, heirs := 0#48, out := false }

/-- A state whose L2 holds a full set, its way 0 written, and whose memory lists byte 0 of physical line 100 before byte 0 of physical
line 50: the second cell lies behind a higher one, so that byte 0 of line 50 reads as unlisted. -/
def unsortedMemory : State :=
  { State.reset with mm := { MemSys.reset with
      bytes := [(100 * 128, 1#8), (50 * 128, 7#8)]
      l2 := setLine 0 1#128 :: (List.range 15).map (fun way => setLine (way + 1) 0#128) } }

/-- The load's line takes way 0, and the write-back of the line there unlists the first cell. -/
theorem loadFrom_unsortedMemory : ∃ v tag t, loadFrom unsortedMemory.who 0#64 8 2 (.cached 0 0#64) unsortedMemory = .ok ((v, tag), t) ∧
    t.byteAt (50 * 128) = 7#8 := by
  have read : (loadFrom unsortedMemory.who 0#64 8 2 (.cached 0 0#64) unsortedMemory).toOption.map (fun r => r.2.byteAt (50 * 128)) =
      some 7#8 := by decide +kernel
  match h : loadFrom unsortedMemory.who 0#64 8 2 (.cached 0 0#64) unsortedMemory with
  | .ok ((v, tag), t) => exact ⟨v, tag, t, rfl, by rw [h] at read; exact Option.some.inj read⟩
  | .error _ => rw [h] at read; exact nomatch read

/-- The one written line of that L2 is physical line 100. -/
theorem written_unsortedMemory : ∀ e ∈ unsortedMemory.mm.l2, e.out = true ∨ e.dirty ≠ 0#128 → e.pa = 100 := by decide +kernel

/-- Refutes O4: its clause on the bytes of memory holds of the states alone whose memory is in its one form (O25), and it lacks that
premise. In `unsortedMemory` a load evicts the written line 100; its write-back unlists byte 0 of that line, and byte 0 of line 50,
whose cell the removed one hid, turns from 0 to 7. -/
theorem not_loadedBytes : ¬ Obligations.LoadedBytes := by
  unfold Obligations.LoadedBytes
  rintro ⟨-, loads⟩
  obtain ⟨v, tag, t, h, changed⟩ := loadFrom_unsortedMemory
  obtain ⟨-, -, -, bytes, -⟩ := loads unsortedMemory t 0#64 8 2 (.cached 0 0#64) v tag rfl h
  have before : unsortedMemory.byteAt (50 * 128) = 0#8 := by decide
  obtain ⟨e, he, written, place⟩ := bytes (50 * 128) (by rw [changed, before]; decide)
  have line := written_unsortedMemory e he written
  rcases place with place | ⟨ta, tags, -⟩
  · rw [line] at place
    exact absurd place (by decide)
  · have none : unsortedMemory.tagAddr 100 = none := by decide +kernel
    rw [line, none] at tags
    exact nomatch tags

end Sys2Proof.Proofs
end

