-- ==== Sys2Proof/Proofs/FonakRequests.lean ====
section
/-!
SUPPORT. Requests that a filter has recorded (R403, R404): a filter that holds the completion of another stream, and from it the
refutation of O56.
-/

namespace Sys2Proof.Proofs

open Sys2Proof Sys2Proof.Machine

/-- An atomic ADD from device 1, the first of its stream. -/
def farAtomic : FonakReq := { plainReq ⟨5, 4, 0⟩ 2#6 0 with bmask := byteMask 0 8 }

/-- The completion of a request that die 0 sent to die 1. -/
def diesDone : FonakDone := plainDone (plainReq ⟨0, 1, 0⟩ 2#6 0)

/-- A device whose filter for the stream of device 1 records, under the ESEQ of that atomic, the completion of another stream. -/
def strayRecord : State :=
  { State.reset with
    fe := { FrontEnd.reset with devSet := true }
    fab := { Fabric.reset with filters := [⟨⟨5, 4, 0⟩, 1#20, [(0#20, some diesDone)], false, none⟩] } }

/-- The completion leaves by the modules between the dies that it names. -/
theorem exec_fonakAtomic_strayRecord : exec (.fonakAtomic farAtomic) strayRecord = .next (strayRecord.takeAtomic farAtomic) := rfl

theorem modules_strayRecord : (strayRecord.takeAtomic farAtomic).fab.modules ≠ strayRecord.fab.modules := by
  have moved : (strayRecord.takeAtomic farAtomic).fab.modules.isEmpty = false := by decide +kernel
  intro h
  rw [h] at moved
  exact absurd moved (by decide)

/-- Refutes O56: its clause on a recorded request leaves the modules alone when the request has come from another device, whatever
completion the filter records, and it lacks the premise that this completion is one of the request's stream. In `strayRecord` the
filter of device 1 records a completion between dies 0 and 1, and the answer to the repeated atomic enters a module of their
boundary. -/
theorem not_fonakRequests : ¬ Obligations.FonakRequests := by
  unfold Obligations.FonakRequests
  rintro ⟨-, -, -, -, -, -, -, -, recorded, -⟩
  have arrives : strayRecord.arrives farAtomic = true := by decide
  have early : farAtomic.eseq ≠ (strayRecord.fab.filterOf farAtomic.key).expected := by decide
  have found : (strayRecord.fab.filterOf farAtomic.key).recorded.find? (fun x => x.1 == farAtomic.eseq) = some (0#20, some diesDone) := rfl
  obtain ⟨again, -⟩ := recorded strayRecord farAtomic (.fonakAtomic farAtomic) (some diesDone) arrives rfl early
    (.inr (.inl ⟨rfl, rfl, by decide, by decide⟩))
  obtain ⟨u, hu, stands, -⟩ := again _ found rfl (by simp [strayRecord, Fabric.reset])
  rw [exec_fonakAtomic_strayRecord] at hu
  rw [← Host.Outcome.next.inj hu] at stands
  exact modules_strayRecord (stands (by decide))

end Sys2Proof.Proofs
end

