-- ==== Sys2Proof/Proofs/LineValues.lean ====
section
/-!
SUPPORT. A store's bytes over a line, byte by byte and tag by tag (R122, R209).
-/

namespace Sys2Proof.Proofs

open Sys2Proof Sys2Proof.Machine Sys2Proof.Laws

/-! ## Sets of bits -/

theorem sumBits_lt (f : Nat → Bool) (n : Nat) : ((List.range n).map (fun i => if f i then 2 ^ i else 0)).sum < 2 ^ n := by
  induction n with
  | zero => simp
  | succ n ih =>
    rw [List.range_succ, List.map_append, List.sum_append, List.map_singleton, List.sum_singleton, Nat.pow_succ]
    split <;> omega

theorem testBit_sumBits (f : Nat → Bool) (n k : Nat) :
    ((List.range n).map (fun i => if f i then 2 ^ i else 0)).sum.testBit k = (decide (k < n) && f k) := by
  induction n with
  | zero => simp
  | succ n ih =>
    rw [List.range_succ, List.map_append, List.sum_append, List.map_singleton, List.sum_singleton]
    by_cases hf : f n = true
    · have top := Nat.two_pow_add_eq_or_of_lt (sumBits_lt f n) 1
      rw [Nat.mul_one] at top
      rw [if_pos hf, Nat.add_comm, top, Nat.testBit_or, ih, Nat.testBit_two_pow]
      by_cases hk : n = k
      · simp [← hk, hf]
      · simp [hk, show k < n + 1 ↔ k < n by omega]
    · rw [if_neg hf, Nat.add_zero, ih]
      by_cases hk : k = n
      · simp [hk, hf]
      · simp [show k < n + 1 ↔ k < n by omega]

/-! ## Masks -/

theorem getLsbD_byteMask (va size : Nat) {i : Nat} (hi : i < 128) :
    (byteMask va size).getLsbD i = decide (va % 128 ≤ i ∧ i < va % 128 + size) := by
  rw [byteMask, BitVec.getLsbD_ofNat, Nat.testBit_mul_two_pow, Nat.testBit_two_pow_sub_one, decide_eq_true hi, Bool.true_and,
    Bool.decide_and]
  by_cases h : va % 128 ≤ i
  · simp [h, show i - va % 128 < size ↔ i < va % 128 + size by omega]
  · simp [h]

/-- An element of a bit vector is not 0 exactly where one of its bits is set. -/
theorem getElt_ne_zero {n : Nat} (r : BitVec n) (w e : Nat) : getElt r w e ≠ 0 ↔ ∃ i, i < w ∧ r.getLsbD (w * e + i) = true := by
  have bit (i : Nat) : (getElt r w e).testBit i = (decide (i < w) && r.getLsbD (w * e + i)) := by
    rw [getElt, bitsOf, Nat.testBit_mod_two_pow, Nat.testBit_shiftRight]
    rfl
  refine ⟨fun h => ?_, fun ⟨i, hi, h⟩ h0 => ?_⟩
  · obtain ⟨i, hi⟩ := Nat.exists_testBit_of_ne_zero h
    rw [bit] at hi
    exact ⟨i, by simpa using hi⟩
  · have set := bit i
    rw [h0, Nat.zero_testBit, h, decide_eq_true hi] at set
    exact Bool.false_ne_true set

theorem getLsbD_wordsOf (mask : BitVec 128) {k : Nat} (hk : k < 16) : (wordsOf mask).getLsbD k = decide (getElt mask 8 k ≠ 0) := by
  have sum : (List.range 16).map (fun i => if getElt mask 8 i = 0 then 0 else 2 ^ i) =
      (List.range 16).map (fun i => if decide (getElt mask 8 i ≠ 0) = true then 2 ^ i else 0) :=
    List.map_congr_left fun i _ => by by_cases h : getElt mask 8 i = 0 <;> simp [h]
  rw [wordsOf, BitVec.getLsbD_ofNat, sum, testBit_sumBits, decide_eq_true hk, Bool.true_and, Bool.true_and]

/-- The words that a store of some bytes touches. -/
theorem getLsbD_wordsOf_byteMask {va size k : Nat} (hs : 0 < size) (hk : k < 16) : (wordsOf (byteMask va size)).getLsbD k =
    decide (8 * k < va % 128 + size ∧ va % 128 < 8 * k + 8) := by
  rw [getLsbD_wordsOf _ hk, decide_eq_decide, getElt_ne_zero]
  refine ⟨fun ⟨i, hi, h⟩ => ?_, fun h => ⟨max (va % 128) (8 * k) - 8 * k, by omega, ?_⟩⟩
  · rw [getLsbD_byteMask _ _ (by omega), decide_eq_true_iff] at h
    omega
  · rw [getLsbD_byteMask _ _ (by omega), decide_eq_true_iff]
    omega

theorem getLsbD_setElts {n : Nat} (l : List Nat) : ∀ (r : BitVec n) (e : Nat) {i : Nat}, i < n → (setElts r 8 e l).getLsbD i =
    if e ≤ i / 8 ∧ i / 8 < e + l.length then (l.getD (i / 8 - e) 0).testBit (i % 8) else r.getLsbD i := by
  induction l with
  | nil => intro r e i _; rw [setElts, if_neg (by simp)]
  | cons v vs ih =>
    intro r e i hi
    rw [setElts, ih _ _ hi, List.length_cons]
    by_cases later : e + 1 ≤ i / 8 ∧ i / 8 < e + 1 + vs.length
    · rw [if_pos later, if_pos (by omega), show i / 8 - e = (i / 8 - (e + 1)) + 1 by omega, List.getD_cons_succ]
    · rw [if_neg later, getLsbD_setElt _ _ _ _ hi]
      by_cases here : i / 8 = e
      · rw [if_pos (by omega), if_pos (by omega), here, Nat.sub_self, List.getD_cons_zero, show i - 8 * e = i % 8 by omega]
      · rw [if_neg (by omega), if_neg (by omega)]

theorem testBit_255 {i : Nat} (hi : i < 8) : Nat.testBit 255 i = true := by
  have := Nat.testBit_two_pow_sub_one 8 i
  simpa [hi] using this

theorem getLsbD_spread (mask : BitVec 128) {i : Nat} (hi : i < 1024) : (spread mask).getLsbD i = mask.getLsbD (i / 8) := by
  have hi8 : i / 8 < 128 := by omega
  rw [spread, getLsbD_setElts _ _ _ hi, List.length_map, List.length_range, if_pos (by omega), Nat.sub_zero, List.getD_eq_getElem?_getD,
    List.getElem?_map, List.getElem?_range hi8, Option.map_some, Option.getD_some]
  cases mask.getLsbD (i / 8)
  · exact Nat.zero_testBit _
  · exact testBit_255 (Nat.mod_lt _ (by decide))

/-! ## One line value laid over another -/

theorem testBit_getElt {n : Nat} (r : BitVec n) (w e i : Nat) : (getElt r w e).testBit i = (decide (i < w) && r.getLsbD (w * e + i)) := by
  rw [getElt, bitsOf, Nat.testBit_mod_two_pow, Nat.testBit_shiftRight]
  rfl

theorem getElt_merge (old new : LineVal) (mask : BitVec 128) (words : BitVec 16) {i : Nat} (hi : i < 128) :
    getElt (old.merge new mask words).data 8 i = if mask.getLsbD i then getElt new.data 8 i else getElt old.data 8 i := by
  refine Nat.eq_of_testBit_eq fun j => ?_
  rw [testBit_getElt, LineVal.merge]
  by_cases hj : j < 8
  · have place : (8 * i + j) / 8 = i := by omega
    rw [BitVec.getLsbD_or, BitVec.getLsbD_and, BitVec.getLsbD_and, BitVec.getLsbD_not, getLsbD_spread mask (by omega), place]
    cases mask.getLsbD i <;> simp [testBit_getElt, hj, show 8 * i + j < 1024 by omega]
  · split <;> simp [testBit_getElt, hj]

theorem getLsbD_merge_tags (old new : LineVal) (mask : BitVec 128) (words : BitVec 16) {k : Nat} (hk : k < 16) :
    (old.merge new mask words).tags.getLsbD k = if words.getLsbD k then new.tags.getLsbD k else old.tags.getLsbD k := by
  rw [LineVal.merge, BitVec.getLsbD_or, BitVec.getLsbD_and, BitVec.getLsbD_and, BitVec.getLsbD_not, decide_eq_true hk]
  cases words.getLsbD k <;> simp

/-- Byte `i` of a number placed at an address of a line. -/
theorem getElt_placeBytes {va v i : Nat} (tag : Bool) (hv : va % 128 ≤ i) (hi : i < 128) :
    getElt (placeBytes va v tag).data 8 i = v / 2 ^ (8 * (i - va % 128)) % 256 := by
  have split : 2 ^ (8 * i) = 2 ^ (8 * (va % 128)) * 2 ^ (8 * (i - va % 128)) := by rw [← Nat.pow_add]; congr 1; omega
  rw [placeBytes, getElt_ofNat_byte (by omega), bitsOf_eq_div_mod, split, ← Nat.div_div_eq_div_mul, Nat.mul_div_cancel _ (Nat.two_pow_pos _)]
  rfl

theorem getLsbD_placeBytes_tags (va v : Nat) (tag : Bool) {k : Nat} (hk : k < 16) : (placeBytes va v tag).tags.getLsbD k = tag := by
  cases tag
  · exact BitVec.getLsbD_zero
  · show (~~~0#16).getLsbD k = true
    rw [BitVec.getLsbD_not, decide_eq_true hk, BitVec.getLsbD_zero]
    rfl

/-- A store over a line leaves its bytes under its mask and its tag on the words that it touches (R122). -/
theorem storedOver_overlay {va size : Nat} (hs : 0 < size) (v : Nat) (tag : Bool) (d : Line) (g : BitVec 16) (p : BitVec 4) :
    StoredOver va size v tag d g ((LineVal.mk d g p).overlay (placeBytes va v tag) (byteMask va size)).data
      ((LineVal.mk d g p).overlay (placeBytes va v tag) (byteMask va size)).tags := by
  refine ⟨fun i hi => ?_, fun k hk => ?_⟩
  · rw [LineVal.overlay, getElt_merge _ _ _ _ hi, getLsbD_byteMask _ _ hi]
    by_cases h : va % 128 ≤ i ∧ i < va % 128 + size
    · rw [if_pos h, if_pos (decide_eq_true h), getElt_placeBytes tag h.1 hi]
    · rw [if_neg h, if_neg (by rw [decide_eq_false h]; exact Bool.false_ne_true)]
  · rw [LineVal.overlay, getLsbD_merge_tags _ _ _ _ hk, getLsbD_wordsOf_byteMask hs hk, getLsbD_placeBytes_tags _ _ _ hk]
    by_cases h : 8 * k < va % 128 + size ∧ va % 128 < 8 * k + 8
    · rw [if_pos h, if_pos (decide_eq_true h)]
    · rw [if_neg h, if_neg (by rw [decide_eq_false h]; exact Bool.false_ne_true)]

end Sys2Proof.Proofs
end

