-- ==== Sys2Proof/Proofs/HomeWrites.lean ====
section
/-!
SUPPORT. A write at the home of a line (R119, R122, R134, R137): the bytes and the tags that it leaves, the bytes that it does not
touch, and the parts of memory that stand.
-/

namespace Sys2Proof.Proofs

open Sys2Proof Sys2Proof.Machine Sys2Proof.Laws

/-! ## Frames -/

/-- `t` is `s` but for the bookkeeping of the memory-side caches and for the fabric. -/
def ServeMoves (s t : State) : Prop := t = { s with mm := { s.mm with msc := t.mm.msc, blooms := t.mm.blooms }, fab := t.fab }

/-- `t` is `s` but for the bytes of memory with their marks and keys, the memory-side caches and the fabric. -/
def WriteMoves (s t : State) : Prop := t = { s with
  mm := { s.mm with bytes := t.mm.bytes, poison := t.mm.poison, sure := t.mm.sure, keys := t.mm.keys, msc := t.mm.msc, blooms := t.mm.blooms }
  fab := t.fab }

section
variable {s t u : State}

theorem ServeMoves.refl (s : State) : ServeMoves s s := rfl
theorem ServeMoves.trans (h : ServeMoves s t) (k : ServeMoves t u) : ServeMoves s u := Eq.trans k (by rw [h])
theorem ServeMoves.bytes (h : ServeMoves s t) : t.mm.bytes = s.mm.bytes := by rw [h]
theorem ServeMoves.keys (h : ServeMoves s t) : t.mm.keys = s.mm.keys := by rw [h]
theorem ServeMoves.toWrite (h : ServeMoves s t) : WriteMoves s t := Eq.trans h (by rw [h])

theorem WriteMoves.refl (s : State) : WriteMoves s s := rfl
theorem WriteMoves.trans (h : WriteMoves s t) (k : WriteMoves t u) : WriteMoves s u := Eq.trans k (by rw [h])
theorem WriteMoves.l1 (h : WriteMoves s t) : t.mm.l1 = s.mm.l1 := by rw [h]
theorem WriteMoves.l2 (h : WriteMoves s t) : t.mm.l2 = s.mm.l2 := by rw [h]
theorem WriteMoves.twins (h : WriteMoves s t) : t.mm.twins = s.mm.twins := by rw [h]
theorem WriteMoves.fe (h : WriteMoves s t) : t.fe = s.fe := by rw [h]

end

theorem cross_serves (s : State) (a b ln : Nat) : ServeMoves s (s.cross a b ln) := by
  unfold State.cross
  split
  · rfl
  · split <;> rfl

theorem mscAlloc_serves (s : State) (stack block sec bl : Nat) (d : Bool) : ServeMoves s (s.mscAlloc stack block sec bl d) := by
  unfold State.mscAlloc
  dsimp only
  split <;> rfl

theorem mscTouch_serves (s : State) (space ln : Nat) (w : Bool) : ServeMoves s (s.mscTouch space ln w) := by
  unfold State.mscTouch
  split
  · rfl
  · dsimp only
    split
    · rfl
    · split
      · rfl
      · split
        · exact ServeMoves.trans (by rfl) (mscAlloc_serves _ _ _ _ _ _)
        · rfl

theorem mscServe_serves (s : State) (space ln : Nat) (w : Bool) : ServeMoves s (s.mscServe space ln w) := by
  unfold State.mscServe
  dsimp only
  split
  · exact mscTouch_serves _ _ _ _
  · exact (mscTouch_serves _ _ _ _).trans (mscTouch_serves _ _ _ _)

theorem mscVictim_serves (s : State) (space ln : Nat) (d : Bool) : ServeMoves s (s.mscVictim space ln d) := by
  unfold State.mscVictim
  dsimp only
  split
  · rfl
  · exact mscAlloc_serves _ _ _ _ _ _

theorem rekey_writes (s : State) (space ln : Nat) (mask : BitVec 128) : WriteMoves s (s.rekey space ln mask) := by
  unfold State.rekey
  dsimp only
  split <;> rfl

theorem putWords_writes (s : State) (ln : Nat) (v : LineVal) (mask : BitVec 128) (words : BitVec 16) :
    WriteMoves s (s.putWords ln v mask words) := by rfl

/-- The tags of a line come under the writer's key before they are written. -/
def tagsRekeyed (s : State) (space ln : Nat) (words : BitVec 16) : State :=
  match s.tagAddr ln with
  | some a => if words = 0 then s else s.rekey space (a / 128) (BitVec.ofNat 128 (3 * 2 ^ (a % 128)))
  | none => s

theorem homeWrite_eq (s : State) (space ln : Nat) (v : LineVal) (mask : BitVec 128) (words : BitVec 16) :
    s.homeWrite space ln v mask words = if mask = 0 ∧ words = 0 then s
      else (((tagsRekeyed s space ln words).rekey space ln mask).mscServe space ln true).putWords ln v mask words := rfl

theorem tagsRekeyed_writes (s : State) (space ln : Nat) (words : BitVec 16) : WriteMoves s (tagsRekeyed s space ln words) := by
  unfold tagsRekeyed
  split
  · split
    · rfl
    · exact rekey_writes _ _ _ _
  · rfl

theorem homeWrite_writes (s : State) (space ln : Nat) (v : LineVal) (mask : BitVec 128) (words : BitVec 16) :
    WriteMoves s (s.homeWrite space ln v mask words) := by
  rw [homeWrite_eq]
  split
  · rfl
  · exact (tagsRekeyed_writes _ _ _ _).trans ((rekey_writes _ _ _ _).trans ((mscServe_serves _ _ _ _).toWrite.trans (putWords_writes _ _ _ _ _)))

/-! ## What depends on the jobs and the device alone -/

section
variable {s t : State}

theorem isLocal_congr (fe : t.fe = s.fe) (pa : Nat) : t.isLocal pa = s.isLocal pa := by rw [State.isLocal, State.isLocal, fe]

theorem tagAddr_congr (fe : t.fe = s.fe) (ln : Nat) : t.tagAddr ln = s.tagAddr ln := by
  rw [State.tagAddr, State.tagAddr, isLocal_congr fe, fe]

theorem keyOf_congr (fe : t.fe = s.fe) (space ln : Nat) : t.keyOf space ln = s.keyOf space ln := by
  rw [State.keyOf, State.keyOf, State.jobGet, State.jobGet, State.jobOf, State.jobOf, fe]

theorem plainTo_congr (fe : t.fe = s.fe) (keys : t.mm.keys = s.mm.keys) {space ln : Nat} (h : s.plainTo space ln) : t.plainTo space ln := by
  have block (b : Nat) : t.blockKey b = s.blockKey b := by rw [State.blockKey, State.blockKey, keys]
  have foreign (k l : Nat) : t.foreign k l = s.foreign k l := by simp only [State.foreign, block]
  refine ⟨by rw [keyOf_congr fe, foreign]; exact h.1, fun a ha => ?_⟩
  rw [tagAddr_congr fe] at ha
  rw [block, keyOf_congr fe, keyOf_congr fe]
  exact h.2 a ha

end

/-! ## Where the tags of a line stand (R122) -/

/-- The tags of a line stand at an even address. -/
theorem tagAddr_even {s : State} {ln ta : Nat} (h : s.tagAddr ln = some ta) : ta % 2 = 0 := by
  unfold State.tagAddr at h
  dsimp only at h
  split at h
  · exact nomatch h
  · obtain ⟨j, -, rfl⟩ := Option.map_eq_some_iff.1 h
    rw [mkPa]
    omega

/-- The tags of a line stand behind the line. -/
theorem tagAddr_above {s : State} {ln ta : Nat} (h : s.tagAddr ln = some ta) (hln : ln * 128 < 2 ^ 63) : ln * 128 + 128 ≤ ta := by
  unfold State.tagAddr at h
  dsimp only at h
  split at h
  · exact nomatch h
  next hr =>
    obtain ⟨region, here⟩ : paRegion (ln * 128) = 0 ∧ s.isLocal (ln * 128) = true := by simpa using hr
    obtain ⟨j, hj, rfl⟩ := Option.map_eq_some_iff.1 h
    have inside := List.find?_some hj
    have dev : paDev (ln * 128) = s.fe.devSelf.toNat := by simpa [State.isLocal] using here
    simp only [Bool.and_eq_true, decide_eq_true_iff, bitsOf_eq_div_mod] at inside
    rw [paRegion, bitsOf_eq_div_mod] at region
    rw [paDev, bitsOf_eq_div_mod] at dev
    rw [mkPa, ← dev, paDie, bitsOf_eq_div_mod, bitsOf_eq_div_mod]
    rw [paDie, bitsOf_eq_div_mod] at inside
    generalize j.rb[ln * 128 / 2 ^ 42 % 2 ^ 2]?.getD 0 = rb at inside ⊢
    generalize j.rn[ln * 128 / 2 ^ 42 % 2 ^ 2]?.getD 0 = rn at inside ⊢
    omega

/-! ## Bytes of memory -/

/-- A byte of a line, or of the block that its tags lie in. -/
def lineByte (s : State) (ln a : Nat) : Prop := a / 128 = ln ∨ ∃ ta, s.tagAddr ln = some ta ∧ ta / 16 = a / 16

theorem lineByte_congr {s t : State} (fe : t.fe = s.fe) {ln a : Nat} : lineByte t ln a ↔ lineByte s ln a := by
  rw [lineByte, lineByte, tagAddr_congr fe]

/-- `m` is a memory in its one form that differs from `l` where `p` holds at most. -/
def SparesBut (p : Nat → Prop) (l m : List Host.Cell) : Prop := Memory.wf m = true ∧ ∀ a, ¬p a → Memory.get m a = Memory.get l a

section
variable {p q : Nat → Prop} {l m n : List Host.Cell}

theorem SparesBut.refl (w : Memory.wf l = true) : SparesBut p l l := ⟨w, fun _ _ => rfl⟩

theorem SparesBut.trans (h : SparesBut p l m) (k : SparesBut p m n) : SparesBut p l n :=
  ⟨k.1, fun a ha => (k.2 a ha).trans (h.2 a ha)⟩

theorem SparesBut.mono (h : SparesBut p l m) (pq : ∀ a, p a → q a) : SparesBut q l m := ⟨h.1, fun a ha => h.2 a fun x => ha (pq a x)⟩

theorem set_spares (w : Memory.wf l = true) {a : Nat} (b : Byte) (ha : p a) : SparesBut p l (Memory.set l a b) :=
  ⟨wf_set w a b, fun x hx => by rw [get_set w, if_neg]; rintro rfl; exact hx ha⟩

theorem write_spares (w : Memory.wf l = true) {a : Nat} (bs : List Byte) (ha : ∀ i < bs.length, p (a + i)) :
    SparesBut p l (Memory.write l a bs) := by
  refine ⟨wf_write bs a w, fun x hx => get_write_outside bs a x w ?_⟩
  by_contra h
  refine hx ?_
  rw [show x = a + (x - a) by omega]
  exact ha _ (by omega)

theorem foldl_spares {α : Type} {f : List Host.Cell → α → List Host.Cell} {xs : List α}
    (hf : ∀ x ∈ xs, ∀ b, Memory.wf b = true → SparesBut p b (f b x)) (w : Memory.wf l = true) : SparesBut p l (xs.foldl f l) := by
  induction xs generalizing l with
  | nil => exact SparesBut.refl w
  | cons x xs ih =>
    have h := hf x List.mem_cons_self l w
    exact h.trans (ih (fun y hy => hf y (List.mem_cons_of_mem _ hy)) h.1)

end

/-- The masked bytes of a line, the first `n` of them, are written. -/
def putLine (b : List Host.Cell) (ln : Nat) (d : Line) (mask : BitVec 128) (n : Nat) : List Host.Cell :=
  (List.range n).foldl (fun b i => if mask.getLsbD i then Memory.set b (ln * 128 + i) (BitVec.ofNat 8 (getElt d 8 i)) else b) b

theorem putLine_succ (b : List Host.Cell) (ln : Nat) (d : Line) (mask : BitVec 128) (n : Nat) : putLine b ln d mask (n + 1) =
    if mask.getLsbD n then Memory.set (putLine b ln d mask n) (ln * 128 + n) (BitVec.ofNat 8 (getElt d 8 n)) else putLine b ln d mask n := by
  rw [putLine, List.range_succ, List.foldl_append]
  rfl

theorem wf_putLine {b : List Host.Cell} (w : Memory.wf b = true) (ln : Nat) (d : Line) (mask : BitVec 128) (n : Nat) :
    Memory.wf (putLine b ln d mask n) = true :=
  foldl_keeps (fun b => Memory.wf b = true) _ (fun b i hw => by split; exacts [wf_set hw _ _, hw]) _ _ w

theorem get_putLine {b : List Host.Cell} (w : Memory.wf b = true) (ln : Nat) (d : Line) (mask : BitVec 128) (i : Nat) :
    ∀ n, Memory.get (putLine b ln d mask n) (ln * 128 + i) =
      if i < n ∧ mask.getLsbD i = true then BitVec.ofNat 8 (getElt d 8 i) else Memory.get b (ln * 128 + i)
  | 0 => by simp [putLine]
  | n + 1 => by
    have ih := get_putLine w ln d mask i n
    rw [putLine_succ]
    by_cases e : i = n
    · subst e
      split
      next hm => rw [get_set (wf_putLine w _ _ _ _), if_pos rfl, if_pos ⟨Nat.lt_succ_self _, hm⟩]
      next hm => rw [ih, if_neg (fun x => Nat.lt_irrefl _ x.1), if_neg (fun x => hm x.2)]
    · have bound : i < n + 1 ↔ i < n := by omega
      split
      · simp only [get_set (wf_putLine w _ _ _ _), show ¬(ln * 128 + i = ln * 128 + n) by omega, if_false, ih, bound]
      · simp only [ih, bound]

theorem putLine_spares {b : List Host.Cell} (w : Memory.wf b = true) (ln : Nat) (d : Line) (mask : BitVec 128) {p : Nat → Prop}
    (hp : ∀ i < 128, mask.getLsbD i = true → p (ln * 128 + i)) : SparesBut p b (putLine b ln d mask 128) := by
  refine foldl_spares (fun i hi b hb => ?_) w
  split
  next hm => exact set_spares hb _ (hp i (List.mem_range.1 hi) hm)
  · exact SparesBut.refl hb

/-! ## The bytes that a write at its home leaves -/

/-- The value that a line has after a write at its home, its poison aside. -/
def putValue (s : State) (ln : Nat) (v : LineVal) (mask : BitVec 128) (words : BitVec 16) : LineVal :=
  ({ s.homeLine ln with psn := s.ownMarks ln }).merge v mask words

theorem putWords_bytes_eq (s : State) (ln : Nat) (v : LineVal) (mask : BitVec 128) (words : BitVec 16) :
    (s.putWords ln v mask words).mm.bytes = match s.tagAddr ln with
      | none => putLine s.mm.bytes ln (putValue s ln v mask words).data mask 128
      | some a => if words = 0 then putLine s.mm.bytes ln (putValue s ln v mask words).data mask 128
          else Memory.write (putLine s.mm.bytes ln (putValue s ln v mask words).data mask 128) a
            (bytesOfNat 2 (putValue s ln v mask words).tags.toNat) := rfl

theorem length_bytesOfNat (k n : Nat) : (bytesOfNat k n).length = k := by
  induction k generalizing n with
  | zero => rfl
  | succ k ih => rw [bytesOfNat, List.length_cons, ih]

theorem natOfBytes_bytesOfNat (k n : Nat) : natOfBytes (bytesOfNat k n) = n % 2 ^ (8 * k) := by
  induction k generalizing n with
  | zero => simp [bytesOfNat, natOfBytes, Nat.mod_one]
  | succ k ih =>
    rw [bytesOfNat, natOfBytes, ih, BitVec.toNat_ofNat, Nat.mul_succ, Nat.add_comm (8 * k), Nat.pow_add, Nat.mod_mul]

/-- Bytes read are those of a number where they agree with it one by one. -/
theorem read_eq_bytesOfNat {l : List Host.Cell} {a k n : Nat}
    (h : ∀ i < k, Memory.get l (a + i) = BitVec.ofNat 8 (n / 2 ^ (8 * i))) : Memory.read l a k = bytesOfNat k n := by
  induction k generalizing a n with
  | zero => rfl
  | succ k ih =>
    rw [Memory.read, bytesOfNat, ih (n := n / 256)]
    · have first := h 0 (Nat.succ_pos _)
      rw [Nat.add_zero, Nat.mul_zero, Nat.pow_zero, Nat.div_one] at first
      rw [first]
    · intro i hi
      rw [Nat.add_assoc, Nat.add_comm 1, h (i + 1) (by omega), Nat.div_div_eq_div_mul, Nat.mul_succ, Nat.pow_add, Nat.mul_comm]

section
variable {s : State} {ln : Nat} {v : LineVal} {mask : BitVec 128} {words : BitVec 16} (w : Memory.wf s.mm.bytes = true)
include w

theorem putWords_spares : SparesBut (fun a => (∃ i < 128, mask.getLsbD i = true ∧ a = ln * 128 + i) ∨
    ∃ ta, s.tagAddr ln = some ta ∧ (a = ta ∨ a = ta + 1)) s.mm.bytes (s.putWords ln v mask words).mm.bytes := by
  have line : SparesBut (fun a => (∃ i < 128, mask.getLsbD i = true ∧ a = ln * 128 + i) ∨
      ∃ ta, s.tagAddr ln = some ta ∧ (a = ta ∨ a = ta + 1)) s.mm.bytes
      (putLine s.mm.bytes ln (putValue s ln v mask words).data mask 128) := putLine_spares w _ _ _ fun i hi hm => .inl ⟨i, hi, hm, rfl⟩
  rw [putWords_bytes_eq]
  split
  · exact line
  next a ha =>
    split
    · exact line
    · refine line.trans (write_spares line.1 _ fun i hi => .inr ⟨a, ha, ?_⟩)
      rw [length_bytesOfNat] at hi
      omega

/-- The bytes under the mask are those of the value written. -/
theorem get_putWords {i : Nat} (hi : i < 128) (hm : mask.getLsbD i = true) (hln : ln * 128 < 2 ^ 63) :
    Memory.get (s.putWords ln v mask words).mm.bytes (ln * 128 + i) = BitVec.ofNat 8 (getElt v.data 8 i) := by
  have line : Memory.get (putLine s.mm.bytes ln (putValue s ln v mask words).data mask 128) (ln * 128 + i) =
      BitVec.ofNat 8 (getElt v.data 8 i) := by
    rw [get_putLine w, if_pos ⟨hi, hm⟩, putValue, getElt_merge _ _ _ _ hi, if_pos hm]
  rw [putWords_bytes_eq]
  split
  · exact line
  next a ha =>
    split
    · exact line
    · rw [get_write_outside _ _ _ (wf_putLine w _ _ _ _) (.inl (by have := tagAddr_above ha hln; omega)), line]

/-- The tags of the words written are those of the value written; the others stand. -/
theorem tags_putWords {ta : Nat} (ht : s.tagAddr ln = some ta) (hw : words ≠ 0) {k : Nat} (hk : k < 16) :
    (natOfBytes (Memory.read (s.putWords ln v mask words).mm.bytes ta 2)).testBit k =
      if words.getLsbD k then v.tags.getLsbD k else (natOfBytes (Memory.read s.mm.bytes ta 2)).testBit k := by
  have old : (s.homeLine ln).tags = BitVec.ofNat 16 (natOfBytes (Memory.read s.mm.bytes ta 2)) := by rw [State.homeLine, ht]
  have merged : (putValue s ln v mask words).tags.getLsbD k =
      if words.getLsbD k then v.tags.getLsbD k else (natOfBytes (Memory.read s.mm.bytes ta 2)).testBit k := by
    rw [putValue, getLsbD_merge_tags _ _ _ _ hk]
    dsimp only
    rw [old, BitVec.getLsbD_ofNat, decide_eq_true hk, Bool.true_and]
  have written := read_write (bytesOfNat 2 (putValue s ln v mask words).tags.toNat) ta
    (wf_putLine w ln (putValue s ln v mask words).data mask 128)
  rw [length_bytesOfNat] at written
  rw [putWords_bytes_eq, ht]
  dsimp only
  rw [if_neg hw, written, natOfBytes_bytesOfNat, Nat.testBit_mod_two_pow, decide_eq_true hk, Bool.true_and]
  exact merged

end

/-! ## Keys (R137) -/

/-- A line that an address space finds in plain is written without a change of keys. -/
theorem rekey_plain {s : State} {space ln : Nat} (h : s.foreign (s.keyOf space ln) ln = []) (mask : BitVec 128) :
    s.rekey space ln mask = s := by
  rw [State.rekey, h]
  exact if_pos rfl

/-- The bits of two bytes at an even address lie in its block. -/
theorem block_of_pair {ta i : Nat} (h : getElt (BitVec.ofNat 128 (3 * 2 ^ (ta % 128))) 16 i ≠ 0) (even : ta % 2 = 0) :
    8 * (ta / 128) + i = ta / 16 := by
  obtain ⟨j, hj, bit⟩ := (getElt_ne_zero _ _ _).1 h
  rw [BitVec.getLsbD_ofNat, Nat.testBit_mul_two_pow] at bit
  simp only [Bool.and_eq_true, decide_eq_true_iff] at bit
  obtain ⟨below, above, three⟩ := bit
  have two : 16 * i + j - ta % 128 < 2 := by
    by_contra hge
    have big : 3 < 2 ^ (16 * i + j - ta % 128) :=
      Nat.lt_of_lt_of_le (by decide : 3 < 2 ^ 2) (Nat.pow_le_pow_right (by decide) (by omega))
    rw [Nat.testBit_lt_two_pow big] at three
    exact Bool.false_ne_true three
  omega

theorem tagsRekeyed_plain {s : State} {space ln : Nat} (h : s.plainTo space ln) (words : BitVec 16) : tagsRekeyed s space ln words = s := by
  unfold tagsRekeyed
  split
  next a ha =>
    split
    · rfl
    · obtain ⟨held, same⟩ := h.2 a ha
      rw [State.rekey]
      refine if_pos (List.filter_eq_nil_iff.2 fun i hi => ?_)
      intro hit
      have other := (List.mem_filter.1 hi).2
      rw [block_of_pair (by simpa using hit) (tagAddr_even ha), held, same] at other
      simp at other
  · rfl

/-- What a write that an address space makes in plain leaves of the bytes. -/
theorem homeWrite_plain {s : State} {space ln : Nat} (h : s.plainTo space ln) (v : LineVal) (mask : BitVec 128) {words : BitVec 16}
    (hw : words ≠ 0) : s.homeWrite space ln v mask words = (s.mscServe space ln true).putWords ln v mask words := by
  rw [homeWrite_eq, if_neg (fun x => hw x.2), tagsRekeyed_plain h, rekey_plain h.1]

/-- A change of the keys of a line changes bytes of the blocks that a mask touches alone. -/
theorem rekey_spares {s : State} (w : Memory.wf s.mm.bytes = true) (space ln : Nat) (mask : BitVec 128) :
    SparesBut (fun a => ∃ i < 8, getElt mask 16 i ≠ 0 ∧ a / 16 = 8 * ln + i) s.mm.bytes (s.rekey space ln mask).mm.bytes := by
  unfold State.rekey
  dsimp only
  split
  · exact SparesBut.refl w
  · refine foldl_spares (fun i hi b hb => write_spares hb _ fun j hj => ?_) w
    rw [length_bytesOfNat] at hj
    obtain ⟨foreign, hit⟩ := List.mem_filter.1 hi
    have range : i < 8 := List.mem_range.1 (List.mem_filter.1 foreign).1
    exact ⟨i, range, by simpa using hit, by omega⟩

/-- A write at the home of a line changes its bytes and the block of its tags alone. -/
theorem homeWrite_spares {s : State} (w : Memory.wf s.mm.bytes = true) (space ln : Nat) (v : LineVal) (mask : BitVec 128)
    (words : BitVec 16) : SparesBut (lineByte s ln) s.mm.bytes (s.homeWrite space ln v mask words).mm.bytes := by
  have tags : SparesBut (lineByte s ln) s.mm.bytes (tagsRekeyed s space ln words).mm.bytes := by
    unfold tagsRekeyed
    split
    next a ha =>
      split
      · exact SparesBut.refl w
      · refine (rekey_spares w _ _ _).mono fun x ⟨i, _, hit, hx⟩ => .inr ⟨a, ha, ?_⟩
        rw [hx, block_of_pair hit (tagAddr_even ha)]
    · exact SparesBut.refl w
  have line : SparesBut (lineByte s ln) s.mm.bytes ((tagsRekeyed s space ln words).rekey space ln mask).mm.bytes :=
    tags.trans ((rekey_spares tags.1 _ _ _).mono fun x ⟨i, hi, _, hx⟩ => .inl (by omega))
  rw [homeWrite_eq]
  split
  · exact SparesBut.refl w
  · have serves := mscServe_serves ((tagsRekeyed s space ln words).rekey space ln mask) space ln true
    have moves : WriteMoves s _ := ((tagsRekeyed_writes s space ln words).trans (rekey_writes _ space ln mask)).trans serves.toWrite
    rw [← serves.bytes] at line
    refine line.trans ((putWords_spares line.1).mono fun x hx => ?_)
    rcases hx with ⟨i, hi, -, rfl⟩ | ⟨ta, ht, hx⟩
    · exact .inl (by omega)
    · rw [tagAddr_congr moves.fe] at ht
      have even := tagAddr_even ht
      exact .inr ⟨ta, ht, by omega⟩

end Sys2Proof.Proofs
end

