-- ==== Sys2Proof/Proofs/RoomMade.lean ====
section
/-!
SUPPORT. Lines of the L2s that make room (R126, R129, R130): what a write-back, a check-in, an eviction, a fill, a recall and a
check-out leave of memory, of the other lines and of the twins.
-/

namespace Sys2Proof.Proofs

open Sys2Proof Sys2Proof.Machine Sys2Proof.Laws

/-! ## Entries of the L2s -/

theorem find?_replaceFirst {α : Type} {p : α → Bool} {a b : α} (hb : p b = true) : ∀ {l : List α}, l.find? p = some a →
    (replaceFirst p (fun _ => b) l).find? p = some b
  | x :: l, h => by
    rw [replaceFirst]
    by_cases hx : p x = true
    · rw [if_pos hx, List.find?_cons_of_pos hb]
    · rw [if_neg hx, List.find?_cons_of_neg hx]
      rw [List.find?_cons_of_neg hx] at h
      exact find?_replaceFirst hb h

theorem mem_replaceFirst {α : Type} {p : α → Bool} {b x : α} : ∀ {l : List α}, x ∈ replaceFirst p (fun _ => b) l → x ∈ l ∨ x = b
  | y :: l, h => by
    rw [replaceFirst] at h
    split at h
    · rcases List.mem_cons.1 h with rfl | h
      · exact .inr rfl
      · exact .inl (List.mem_cons_of_mem _ h)
    · rcases List.mem_cons.1 h with rfl | h
      · exact .inl List.mem_cons_self
      · exact (mem_replaceFirst h).imp_left (List.mem_cons_of_mem _)

theorem mem_changeAll {α : Type} {p : α → Bool} {f : α → α} {x : α} {l : List α} (h : x ∈ changeAll p f l) :
    ∃ y ∈ l, x = y ∨ p y = true ∧ x = f y := by
  obtain ⟨y, hy, rfl⟩ := List.mem_map.1 h
  refine ⟨y, hy, ?_⟩
  split
  next hp => exact .inr ⟨hp, rfl⟩
  · exact .inl rfl

theorem mem_putL2 {s : State} {e f : L2Line} (h : f ∈ (s.putL2 e).mm.l2) : f ∈ s.mm.l2 ∨ f = e := mem_replaceFirst h

theorem findL2_key {s : State} {die asid line : Nat} {e : L2Line} (h : s.findL2 die asid line = some e) :
    e.die = die ∧ e.asid = asid ∧ e.line = line := by
  have key := List.find?_some h
  simp only [Bool.and_eq_true, beq_iff_eq] at key
  exact ⟨key.1.1, key.1.2, key.2⟩

theorem findL2_mem {s : State} {die asid line : Nat} {e : L2Line} (h : s.findL2 die asid line = some e) : e ∈ s.mm.l2 :=
  List.mem_of_find?_eq_some h

theorem findL2_congr {s t : State} (h : t.mm.l2 = s.mm.l2) (die asid line : Nat) : t.findL2 die asid line = s.findL2 die asid line := by
  rw [State.findL2, State.findL2, h]

/-- A line that is put in the place of the entry found is found there. -/
theorem findL2_putL2 {s : State} {die asid line : Nat} {e f : L2Line} (h : s.findL2 die asid line = some e)
    (hf : f.die = die ∧ f.asid = asid ∧ f.line = line) : (s.putL2 f).findL2 die asid line = some f := by
  obtain ⟨rfl, rfl, rfl⟩ := hf
  exact find?_replaceFirst (by simp) h

/-! ## Fills -/

/-- The L2 of a die once the line in the way that a fill takes has left it. -/
def roomFor (s : State) (die asid line : Nat) : State :=
  match (s.l2Mates die asid line).find? (fun e => e.way == (s.pickL2 die (s.l2Mates die asid line)).1) with
  | none => s
  | some e => s.evictL2 e

/-- A line as a fill brings it into an L2. -/
def filledLine (s : State) (die asid line ln : Nat) (leaf : Word) (rrpv : Nat) (v : LineVal) : L2Line :=
  ⟨die, asid, line, ln, leaf, (s.pickL2 die (s.l2Mates die asid line)).1, rrpv, v.data, v.tags, v.psn, 0, 0, 0, false⟩

theorem fillL2_eq (s : State) (die asid line ln : Nat) (leaf : Word) (rrpv : Nat) (v : LineVal) :
    s.fillL2 die asid line ln leaf rrpv v = { roomFor s die asid line with mm := { (roomFor s die asid line).mm with
      l2 := filledLine s die asid line ln leaf rrpv v :: changeAll (fun e => e.die == die && l2SameSet e.asid e.line asid line)
        (fun e => { e with rrpv := min 3 (e.rrpv + (s.pickL2 die (s.l2Mates die asid line)).2) }) (roomFor s die asid line).mm.l2 } } := rfl

/-- The line filled is found where it was filled. -/
theorem findL2_fillL2 (s : State) (die asid line ln : Nat) (leaf : Word) (rrpv : Nat) (v : LineVal) :
    (s.fillL2 die asid line ln leaf rrpv v).findL2 die asid line = some (filledLine s die asid line ln leaf rrpv v) := by
  rw [fillL2_eq, State.findL2]
  exact List.find?_cons_of_pos (by simp [filledLine])

/-! ## Written lines that make room -/

/-- A line of an L2 holds something that its home does not. -/
def written (e : L2Line) : Prop := e.out = true ∨ e.dirty ≠ 0#128

theorem not_written {e : L2Line} (out : e.out = false) (dirty : e.dirty = 0#128) : ¬written e := by
  rintro (h | h)
  · exact Bool.false_ne_true (out.symm.trans h)
  · exact h dirty

/-- `t` has come from `s` by making room: memory has changed in lines alone of which an L2 held written copies, and what an L2 still
holds written was so held before. -/
structure Roomed (s t : State) : Prop where
  fe : t.fe = s.fe
  bytes : SparesBut (fun a => ∃ e ∈ s.mm.l2, written e ∧ lineByte s e.pa a) s.mm.bytes t.mm.bytes
  lines : ∀ x ∈ t.mm.l2, written x → ∃ e ∈ s.mm.l2, written e ∧ e.pa = x.pa

section
variable {s t u : State}

theorem Roomed.refl (w : Memory.wf s.mm.bytes = true) : Roomed s s := ⟨rfl, SparesBut.refl w, fun x hx h => ⟨x, hx, h, rfl⟩⟩

/-- A change that leaves memory and writes no line keeps the room made. -/
theorem Roomed.frame (h : Roomed s t) (fe : u.fe = t.fe) (bytes : u.mm.bytes = t.mm.bytes)
    (lines : ∀ x ∈ u.mm.l2, written x → ∃ y ∈ t.mm.l2, written y ∧ y.pa = x.pa) : Roomed s u := by
  refine ⟨fe.trans h.fe, by rw [bytes]; exact h.bytes, fun x hx wx => ?_⟩
  obtain ⟨y, hy, wy, yx⟩ := lines x hx wx
  obtain ⟨e, he, we, ey⟩ := h.lines y hy wy
  exact ⟨e, he, we, ey.trans yx⟩

theorem Roomed.serves (h : Roomed s t) (moves : ServeMoves t u) : Roomed s u :=
  h.frame moves.toWrite.fe moves.bytes fun x hx wx => ⟨x, by rwa [moves.toWrite.l2] at hx, wx, rfl⟩

/-- The line of a written copy is written at its home. -/
theorem Roomed.homeWrite (h : Roomed s t) {x : L2Line} (hx : x ∈ t.mm.l2) (wx : written x) (space : Nat) (v : LineVal)
    (mask : BitVec 128) (words : BitVec 16) : Roomed s (t.homeWrite space x.pa v mask words) := by
  have moves := homeWrite_writes t space x.pa v mask words
  obtain ⟨e, he, we, ex⟩ := h.lines x hx wx
  refine ⟨moves.fe.trans h.fe, h.bytes.trans ((homeWrite_spares h.bytes.1 space x.pa v mask words).mono fun a ha => ⟨e, he, we, ?_⟩),
    fun y hy wy => h.lines y (by rwa [moves.l2] at hy) wy⟩
  rw [ex]
  exact (lineByte_congr h.fe).1 ha

/-- A copy in place of which a clean one is put. -/
theorem Roomed.putL2 (h : Roomed s t) {f : L2Line} (clean : ¬written f) : Roomed s (t.putL2 f) :=
  h.frame rfl rfl fun x hx wx => by
    rcases mem_putL2 hx with hx | rfl
    · exact ⟨x, hx, wx, rfl⟩
    · exact absurd wx clean

theorem Roomed.dropL2 (h : Roomed s t) (p : L2Line → Bool) : Roomed s (t.dropL2 p) :=
  h.frame rfl rfl fun x hx wx => ⟨x, (List.mem_filter.1 hx).1, wx, rfl⟩

theorem Roomed.freeTwin (h : Roomed s t) (ln writer : Nat) : Roomed s (t.freeTwin ln writer) :=
  h.frame rfl rfl fun x hx wx => ⟨x, hx, wx, rfl⟩

theorem Roomed.takeIn (h : Roomed s t) {x : L2Line} (hx : x ∈ t.mm.l2) (wx : written x) (space src : Nat) (v : LineVal)
    (mask : BitVec 128) (words : BitVec 16) : Roomed s (t.takeIn space src x.pa v mask words) := by
  refine (h.homeWrite hx wx space v mask words).frame rfl rfl fun y hy wy => ?_
  obtain ⟨z, hz, rfl | ⟨-, rfl⟩⟩ := mem_changeAll hy
  · exact ⟨y, hz, wy, rfl⟩
  · refine ⟨z, hz, wy.imp_right fun dirty clean => ?_, rfl⟩
    dsimp only at dirty
    rw [clean, BitVec.zero_and] at dirty
    exact dirty rfl

theorem Roomed.checkIn (h : Roomed s t) {x : L2Line} (hx : x ∈ t.mm.l2) (wx : written x) : Roomed s (t.checkIn x) := by
  unfold State.checkIn
  refine Roomed.putL2 ?_ (not_written rfl rfl)
  split
  · exact h
  next twin _ =>
    have taken : Roomed s (t.takeTwin x.asid x.die x.pa ⟨x.data, x.tags, x.psn⟩ twin) := h.takeIn hx wx _ _ _ _ _
    exact (taken.freeTwin x.pa x.die).serves (cross_serves _ _ _ _)

theorem Roomed.writeBack (h : Roomed s t) {x : L2Line} (hx : x ∈ t.mm.l2) : Roomed s (t.writeBack x) := by
  unfold State.writeBack
  split
  next out => exact h.checkIn hx (.inl out)
  next out =>
    split
    · exact h
    next dirty => exact (h.homeWrite hx (.inr dirty) _ _ _ _).putL2 (not_written (by simpa using out) rfl)

theorem Roomed.cleanL2 (h : Roomed s t) (p : L2Line → Bool) : Roomed s (t.cleanL2 p) := by
  refine foldl_keeps (Roomed s) _ (fun u e k => ?_) _ _ h
  split
  next x hx => exact k.writeBack (findL2_mem hx)
  · exact k

theorem Roomed.evictL2 (h : Roomed s t) {x : L2Line} (hx : x ∈ t.mm.l2) : Roomed s (t.evictL2 x) := by
  have dropped := (h.writeBack hx).dropL2 (fun y => y.same x)
  unfold State.evictL2
  dsimp only
  split
  · exact dropped.serves (mscVictim_serves _ _ _ _)
  · exact dropped

theorem Roomed.roomFor (h : Roomed s t) (die asid line : Nat) : Roomed s (roomFor t die asid line) := by
  unfold Proofs.roomFor
  split
  · exact h
  next e he => exact h.evictL2 (List.mem_filter.1 (List.mem_of_find?_eq_some he)).1

theorem Roomed.fillL2 (h : Roomed s t) (die asid line ln : Nat) (leaf : Word) (rrpv : Nat) (v : LineVal) :
    Roomed s (t.fillL2 die asid line ln leaf rrpv v) := by
  rw [fillL2_eq]
  refine (h.roomFor die asid line).frame rfl rfl fun x hx wx => ?_
  rcases List.mem_cons.1 hx with rfl | hx
  · exact absurd wx (not_written rfl rfl)
  · obtain ⟨y, hy, rfl | ⟨-, rfl⟩⟩ := mem_changeAll hx
    · exact ⟨x, hy, wx, rfl⟩
    · exact ⟨y, hy, wx, rfl⟩

theorem Roomed.recallTwin (h : Roomed s t) (mates : List Twin) (way : Nat) : Roomed s (t.recallTwin mates way) := by
  unfold State.recallTwin
  split
  · split
    next e he =>
      have out := List.find?_some he
      simp only [Bool.and_eq_true] at out
      exact h.checkIn (List.mem_of_find?_eq_some he) (.inl out.1.1)
    · exact h.freeTwin _ _
  · exact h

end

end Sys2Proof.Proofs
end

