-- ==== Sys2Proof/Proofs/StoreRuns.lean ====
section
/-!
SUPPORT. The ways of a store (R119, R124, R126, R129, R131, R209): the state that each ends in, by the window and by where the line
is homed.
-/

namespace Sys2Proof.Proofs

open Sys2Proof Sys2Proof.Machine Sys2Proof.Laws

/-! ## Steps that have ended well -/

theorem ok_of_bind {ε α β : Type} {m : StateT State (Except ε) α} {f : α → StateT State (Except ε) β} {s u : State} {b : β}
    (h : (m >>= f) s = .ok (b, u)) : ∃ a t, m s = .ok (a, t) ∧ f a t = .ok (b, u) := by
  rw [run_bind] at h
  match hm : m s with
  | .ok (a, t) => exact ⟨a, t, rfl, by rw [hm] at h; exact h⟩
  | .error e => rw [hm] at h; exact nomatch h

theorem gate_ok {c : Prop} [Decidable c] {s t : State} {a : Unit} (h : (if c then .ok ((), s) else .error (.wait s) : Except AccStop (Unit × State)) =
    .ok (a, t)) : t = s := by
  split at h
  · exact (Prod.mk.inj (Except.ok.inj h)).2.symm
  · exact nomatch h

theorem needWay_ok {die ln : Nat} {s t : State} {a : Unit} (h : needWay die ln s = .ok (a, t)) : t = s := gate_ok h
theorem needVictim_ok {die asid line : Nat} {s t : State} {a : Unit} (h : needVictim die asid line s = .ok (a, t)) : t = s := gate_ok h
theorem needRecall_ok {asid ln : Nat} {s t : State} {a : Unit} (h : needRecall asid ln s = .ok (a, t)) : t = s := gate_ok h
theorem needRoom_ok {key : StreamKey} {op : BitVec 6} {s t : State} {a : Unit} (h : needRoom key op s = .ok (a, t)) : t = s := gate_ok h

theorem ok_of_modify {f : State → State} {s t : State} {a : Unit} (h : (modify f : A Unit) s = .ok (a, t)) : t = f s :=
  (Prod.mk.inj (Except.ok.inj h)).2.symm

theorem fetchHome_ok {who : Who} {space ln : Nat} {s t : State} {v : LineVal} (here : s.isLocal (ln * 128) = true)
    (h : fetchHome who space ln s = .ok (v, t)) :
    t = ((s.cross who.die (paDie (ln * 128)) ln).homeRead space ln).1 ∧ v = ((s.cross who.die (paDie (ln * 128)) ln).homeRead space ln).2 := by
  rw [fetchHome, fetchFrom, bind_ok (run_get s), if_pos here] at h
  obtain ⟨_, t1, way, h⟩ := ok_of_bind h
  rw [needWay_ok way] at h
  obtain ⟨e1, e2⟩ := Prod.mk.inj (Except.ok.inj h)
  exact ⟨e2.symm, e1.symm⟩

/-! ## Lines homed on this device -/

theorem isLocal_line (s : State) (pa : Nat) : s.isLocal (pa / 128 * 128) = s.isLocal pa := by
  have dev : paDev (pa / 128 * 128) = paDev pa := by rw [paDev, paDev, bitsOf_eq_div_mod, bitsOf_eq_div_mod]; omega
  rw [State.isLocal, State.isLocal, dev]

theorem paDie_line (pa : Nat) : paDie (pa / 128 * 128) = paDie pa := by
  rw [paDie, paDie, bitsOf_eq_div_mod, bitsOf_eq_div_mod]
  omega

theorem cross_self (s : State) (die ln : Nat) : s.cross die die ln = s := if_pos rfl

/-! ## Stores by their window -/

/-- A store with no furlong open, its checks done. -/
def storeInto (who : Who) (va : Word) (size value : Nat) (tag : Bool) : Window → A Unit
  | .control pa => writeControl who pa value
  | .memSide pa _ => writeHome who (spaceOf who.asid va) pa (placeBytes va.toNat value tag) (byteMask va.toNat size)
  | .bankLinear pa => bankStore who pa (placeBytes va.toNat value tag) (byteMask va.toNat size)
  | .scratch => modify (fun t => t.mapL1 (fun l => writeCore l who.die who.core who.asid (va.toNat / 128)
      (placeBytes va.toNat value tag) (byteMask va.toNat size)))
  | .cached pa leaf => writeCached who va.toNat pa leaf (placeBytes va.toNat value tag) (byteMask va.toNat size)

theorem storeLine_direct {s : State} (hf : s.hart.furlong = none) {who : Who} {va : Word} {size value : Nat} {tag : Bool} {w : Window}
    {r : Unit × State} (h : storeLine who va size value tag w s = .ok r) : storeInto who va size value tag w s = .ok r := by
  rw [storeLine, bind_ok (run_get s)] at h
  dsimp only at h
  have direct : (s.hart.uid == who.uid && s.hart.furlong.isSome) = false := by rw [hf]; exact Bool.and_false _
  simp only [direct, Bool.false_and, Bool.false_eq_true, if_false] at h
  split at h
  · exact nomatch h
  · cases w <;> exact h

theorem writeHome_ok {who : Who} {space pa : Nat} {v : LineVal} {mask : BitVec 128} {s t : State} (here : s.isLocal pa = true)
    (h : writeHome who space pa v mask s = .ok ((), t)) :
    t = (s.cross who.die (paDie pa) (pa / 128)).homeWrite space (pa / 128) v mask (wordsOf mask) := by
  obtain ⟨_, t1, way, h⟩ := ok_of_bind h
  rw [needWay_ok way, bind_ok (run_get s), if_pos here] at h
  exact (Prod.mk.inj (Except.ok.inj h)).2.symm

theorem bankStore_free {who : Who} {pa : Nat} (v : LineVal) (mask : BitVec 128) {s : State} (free : (s.bank (paBank pa)).free = true) :
    bankStore who pa v mask s = writeHome who 0 pa v mask s := by
  rw [bankStore, bind_ok (run_get s), if_pos (by rw [free]; exact Bool.or_true _)]

theorem bankStore_busy {who : Who} {pa : Nat} {v : LineVal} {mask : BitVec 128} {s t : State} (here : s.isLocal pa = true)
    (busy : (s.bank (paBank pa)).free = false) (h : bankStore who pa v mask s = .ok ((), t)) :
    t = (s.cross who.die (paDie pa) (pa / 128)).askBank (paBank pa) (storeReqs who.uid v mask (pa / 128)) := by
  rw [bankStore, bind_ok (run_get s), if_neg (by simp [here, busy])] at h
  obtain ⟨_, t1, way, h⟩ := ok_of_bind h
  rw [needWay_ok way] at h
  exact (Prod.mk.inj (Except.ok.inj h)).2.symm

/-! ## Stores to cached lines -/

/-- A line of an L2 with a core's store over it; one that has hit is the newest of its set. -/
def markStored (hit : Bool) (core : Nat) (v : LineVal) (mask : BitVec 128) (e : L2Line) : L2Line :=
  if hit then { markWritten e core v mask with rrpv := 0 } else markWritten e core v mask

/-- A store performed at its line in the L2 of its die and in its core's L1. -/
def storedIn (who : Who) (line asid : Nat) (v : LineVal) (mask : BitVec 128) (hit : Bool) (t : State) : State :=
  match t.findL2 who.die asid line with
  | some e => (t.mapL1 (fun l => writeCore l who.die who.core asid line v mask)).putL2 (markStored hit who.core v mask e)
  | none => t

/-- A line that has been checked out beside its twin is taken into the L2 of its writer's die. -/
def takenOut (who : Who) (line asid pa : Nat) (leaf : Word) (s : State) : State :=
  let (t1, cur) := s.checkOut who.asid asid who.die (pa / 128)
  let t2 := (t1.cross who.die (paDie pa) (pa / 128)).rdcDrop who.die (pa / 128)
  let t3 := if (t2.findL2 who.die asid line).isSome then t2 else t2.fillL2 who.die asid line (pa / 128) leaf 2 cur
  match t3.findL2 who.die asid line with
  | some e => t3.putL2 { e with data := cur.data, tags := cur.tags, psn := cur.psn, out := true }
  | none => t3

/-- A store to a line of another device leaves as a posted write, past the caches of its die. -/
def postedFrom (who : Who) (line asid pa : Nat) (v : LineVal) (mask : BitVec 128) (s : State) : State :=
  let t := ((((s.mapL1 (fun l => writeCore l who.die who.core asid line v mask)).sendReq who.uid
    { plainReq (s.devStream (paDev pa) (pa / 128)) 1 (pa / 128) with
      bmask := mask, data := v.data, gmask := touchedGranules mask, psn := v.psn }).rdcDrop who.die (pa / 128)).spoilReads who.die
        (fun l => l == pa / 128))
  match t.findL2 who.die asid line with
  | some e => t.putL2 { e with data := ((LineVal.mk e.data e.tags e.psn).overlay v mask).data,
                               tags := ((LineVal.mk e.data e.tags e.psn).overlay v mask).tags,
                               psn := ((LineVal.mk e.data e.tags e.psn).overlay v mask).psn, rrpv := 0 }
  | none => t

section
variable {who : Who} {va pa : Nat} {leaf : Word} {v : LineVal} {mask : BitVec 128} {s t : State}

theorem writeCached_far (far : s.isLocal pa = false) (h : writeCached who va pa leaf v mask s = .ok ((), t)) :
    t = postedFrom who (va / 128) (spaceOf who.asid (BitVec.ofNat 64 va)) pa v mask s := by
  rw [writeCached, bind_ok (run_get s)] at h
  dsimp only at h
  rw [if_pos (by rw [far]; rfl)] at h
  obtain ⟨_, t1, way, h⟩ := ok_of_bind h
  rw [needWay_ok way] at h
  obtain ⟨_, t2, room, h⟩ := ok_of_bind h
  rw [needRoom_ok room] at h
  exact ok_of_modify h

variable (here : s.isLocal pa = true)
include here

theorem writeCached_hit (home : paDie pa = who.die)
    (hit : (s.findL2 who.die (spaceOf who.asid (BitVec.ofNat 64 va)) (va / 128)).isSome = true)
    (h : writeCached who va pa leaf v mask s = .ok ((), t)) :
    t = storedIn who (va / 128) (spaceOf who.asid (BitVec.ofNat 64 va)) v mask true s := by
  rw [writeCached, bind_ok (run_get s)] at h
  dsimp only at h
  rw [if_neg (by simp [here]), if_pos home, hit, if_neg (by decide)] at h
  exact ok_of_modify h

theorem writeCached_fills (home : paDie pa = who.die) (miss : s.findL2 who.die (spaceOf who.asid (BitVec.ofNat 64 va)) (va / 128) = none)
    (h : writeCached who va pa leaf v mask s = .ok ((), t)) :
    t = storedIn who (va / 128) (spaceOf who.asid (BitVec.ofNat 64 va)) v mask false
      ((s.mscServe (spaceOf who.asid (BitVec.ofNat 64 va)) (pa / 128) false).fillL2 who.die (spaceOf who.asid (BitVec.ofNat 64 va))
        (va / 128) (pa / 128) leaf 2 (s.homeAs (spaceOf who.asid (BitVec.ofNat 64 va)) (pa / 128))) := by
  rw [writeCached, bind_ok (run_get s)] at h
  dsimp only at h
  rw [if_neg (by simp [here]), if_pos home, miss, if_pos (by decide)] at h
  obtain ⟨_, t1, victim, h⟩ := ok_of_bind h
  rw [needVictim_ok victim] at h
  obtain ⟨old, t2, fetched, h⟩ := ok_of_bind h
  obtain ⟨rfl, rfl⟩ := fetchHome_ok (by rw [isLocal_line, here]) fetched
  rw [paDie_line, home, cross_self] at h
  rw [bind_ok (run_modify _ _)] at h
  exact ok_of_modify h

theorem writeCached_out (home : paDie pa ≠ who.die)
    (out : (s.findL2 who.die (spaceOf who.asid (BitVec.ofNat 64 va)) (va / 128)).any (fun e => e.out) = true)
    (h : writeCached who va pa leaf v mask s = .ok ((), t)) :
    t = storedIn who (va / 128) (spaceOf who.asid (BitVec.ofNat 64 va)) v mask
      (s.findL2 who.die (spaceOf who.asid (BitVec.ofNat 64 va)) (va / 128)).isSome s := by
  rw [writeCached, bind_ok (run_get s)] at h
  dsimp only at h
  rw [if_neg (by simp [here]), if_neg home, out, if_neg (by decide)] at h
  exact ok_of_modify h

theorem writeCached_checksOut (home : paDie pa ≠ who.die)
    (out : (s.findL2 who.die (spaceOf who.asid (BitVec.ofNat 64 va)) (va / 128)).any (fun e => e.out) = false)
    (h : writeCached who va pa leaf v mask s = .ok ((), t)) :
    t = storedIn who (va / 128) (spaceOf who.asid (BitVec.ofNat 64 va)) v mask
      (s.findL2 who.die (spaceOf who.asid (BitVec.ofNat 64 va)) (va / 128)).isSome
      (takenOut who (va / 128) (spaceOf who.asid (BitVec.ofNat 64 va)) pa leaf s) := by
  rw [writeCached, bind_ok (run_get s)] at h
  dsimp only at h
  rw [if_neg (by simp [here]), if_neg home, out, if_pos (by decide)] at h
  obtain ⟨_, t1, way, h⟩ := ok_of_bind h
  rw [needWay_ok way] at h
  obtain ⟨_, t2, victim, h⟩ := ok_of_bind h
  rw [needVictim_ok victim] at h
  obtain ⟨_, t3, back, h⟩ := ok_of_bind h
  rw [needRecall_ok back, bind_ok (run_modify _ _)] at h
  exact ok_of_modify h

end

end Sys2Proof.Proofs
end

