-- ==== Sys2Proof/Proofs/StoredBytes.lean ====
section
/-!
SUPPORT. What a store leaves at the copy or the memory that takes it (R119, R122 to R126, R129 to R131, R209, R238).
-/

namespace Sys2Proof.Proofs

open Sys2Proof Sys2Proof.Machine Sys2Proof.Laws

/-! ## Stores at their home -/

theorem wordsOf_byteMask_ne_zero {va size : Nat} (hs : 0 < size) : wordsOf (byteMask va size) ≠ 0 := by
  intro h
  have bit := getLsbD_wordsOf_byteMask (va := va) hs (by omega : va % 128 / 8 < 16)
  rw [h, decide_eq_true (by omega)] at bit
  exact Bool.false_ne_true (BitVec.getLsbD_zero.symm.trans bit)

section
variable {s : State} (wf : Memory.wf s.mm.bytes = true) {space pa va size : Nat} (hs : 0 < size)
  (plain : s.plainTo space (pa / 128)) (v : Nat) (tag : Bool) (src dst : Nat)
include hs plain

/-- A store in plain at its home is a write of its words, once the home has served the line. -/
theorem homeStore_eq : ∃ u, ServeMoves s u ∧ (s.cross src dst (pa / 128)).homeWrite space (pa / 128) (placeBytes va v tag) (byteMask va size)
    (wordsOf (byteMask va size)) = u.putWords (pa / 128) (placeBytes va v tag) (byteMask va size) (wordsOf (byteMask va size)) := by
  have crossed := cross_serves s src dst (pa / 128)
  refine ⟨_, crossed.trans (mscServe_serves _ space (pa / 128) true), ?_⟩
  exact homeWrite_plain (plainTo_congr crossed.toWrite.fe crossed.keys plain) _ _ (wordsOf_byteMask_ne_zero hs)

include wf

theorem homeStore_read (fit : va % 128 + size ≤ 128) (hpa : pa < 2 ^ 63) (same : pa % 128 = va % 128) :
    Memory.read ((s.cross src dst (pa / 128)).homeWrite space (pa / 128) (placeBytes va v tag) (byteMask va size)
      (wordsOf (byteMask va size))).mm.bytes pa size = bytesOfNat size v := by
  obtain ⟨u, serves, e⟩ := homeStore_eq hs plain v tag src dst
  rw [e]
  refine read_eq_bytesOfNat fun i hi => ?_
  have place : pa + i = pa / 128 * 128 + (va % 128 + i) := by omega
  rw [place, get_putWords (by rw [serves.bytes]; exact wf) (by omega) _ (by omega), getElt_placeBytes tag (by omega) (by omega),
    Nat.add_sub_cancel_left]
  · exact BitVec.eq_of_toNat_eq (by rw [BitVec.toNat_ofNat, BitVec.toNat_ofNat, Nat.mod_mod])
  · rw [getLsbD_byteMask _ _ (by omega), decide_eq_true (by omega)]

theorem homeStore_outside (same : pa % 128 = va % 128) {a : Nat} (ha : a < pa ∨ pa + size ≤ a)
    (tags : ∀ ta, s.tagAddr (pa / 128) = some ta → a < ta ∨ ta + 2 ≤ a) :
    ((s.cross src dst (pa / 128)).homeWrite space (pa / 128) (placeBytes va v tag) (byteMask va size)
      (wordsOf (byteMask va size))).byteAt a = s.byteAt a := by
  obtain ⟨u, serves, e⟩ := homeStore_eq hs plain v tag src dst
  rw [e, State.byteAt, State.byteAt, ← serves.bytes]
  refine (putWords_spares (by rw [serves.bytes]; exact wf)).2 a ?_
  rintro (⟨i, hi, hm, rfl⟩ | ⟨ta, ht, h⟩)
  · rw [getLsbD_byteMask _ _ hi, decide_eq_true_iff] at hm
    omega
  · rw [tagAddr_congr serves.toWrite.fe] at ht
    have := tags ta ht
    omega

theorem homeStore_tags {ta k : Nat} (ht : s.tagAddr (pa / 128) = some ta) (hk : k < 16) :
    (natOfBytes (Memory.read ((s.cross src dst (pa / 128)).homeWrite space (pa / 128) (placeBytes va v tag) (byteMask va size)
      (wordsOf (byteMask va size))).mm.bytes ta 2)).testBit k =
      if 8 * k < va % 128 + size ∧ va % 128 < 8 * k + 8 then tag else (natOfBytes (Memory.read s.mm.bytes ta 2)).testBit k := by
  obtain ⟨u, serves, e⟩ := homeStore_eq hs plain v tag src dst
  rw [e, tags_putWords (by rw [serves.bytes]; exact wf) (by rw [tagAddr_congr serves.toWrite.fe, ht])
    (wordsOf_byteMask_ne_zero hs) hk, getLsbD_wordsOf_byteMask hs hk, getLsbD_placeBytes_tags _ _ _ hk, serves.bytes]
  simp only [decide_eq_true_iff]

end

/-- A line as an address space reads it in plain is the line that its home holds. -/
theorem homeAs_plain {s : State} {space ln : Nat} (h : s.plainTo space ln) :
    (s.homeAs space ln).data = (s.homeLine ln).data ∧ (s.homeAs space ln).tags = (s.homeLine ln).tags := by
  refine ⟨?_, ?_⟩
  · show s.dataAs (s.keyOf space ln) ln (s.homeLine ln).data = _
    rw [State.dataAs, h.1]
    rfl
  · show (match s.tagAddr ln with
      | none => _
      | some a => _) = _
    split
    · rfl
    next a ha => exact if_pos (h.2 a ha).1

/-! ## Stores at a line of an L2 -/

section
variable {who : Who} {line asid va size value : Nat} {tag hit : Bool} {e : L2Line} {t : State}

theorem markStored_key (hit : Bool) (core : Nat) (v : LineVal) (mask : BitVec 128) (e : L2Line) :
    (markStored hit core v mask e).die = e.die ∧ (markStored hit core v mask e).asid = e.asid ∧
      (markStored hit core v mask e).line = e.line := by
  cases hit <;> exact ⟨rfl, rfl, rfl⟩

theorem markStored_out (hit : Bool) (core : Nat) (v : LineVal) (mask : BitVec 128) (e : L2Line) :
    (markStored hit core v mask e).out = e.out ∧ (markStored hit core v mask e).pa = e.pa ∧
      (markStored hit core v mask e).dirty = e.dirty ||| mask := by
  cases hit <;> exact ⟨rfl, rfl, rfl⟩

theorem markStored_writers (hit : Bool) (core : Nat) (v : LineVal) (mask : BitVec 128) (e : L2Line) :
    (markStored hit core v mask e).writers.getLsbD core = (decide (core < 48) || e.writers.getLsbD core) := by
  have marked : (markStored hit core v mask e).writers = e.writers ||| (1#48 <<< core) := by cases hit <;> rfl
  rw [marked, BitVec.getLsbD_or, BitVec.getLsbD_shiftLeft, Nat.sub_self]
  by_cases h : core < 48
  · simp [h]
  · simp [h]

theorem markStored_storedOver (hs : 0 < size) (hit : Bool) (core v : Nat) (tag : Bool) (e : L2Line) :
    StoredOver va size v tag e.data e.tags (markStored hit core (placeBytes va v tag) (byteMask va size) e).data
      (markStored hit core (placeBytes va v tag) (byteMask va size) e).tags := by
  have laid := storedOver_overlay (va := va) hs v tag e.data e.tags e.psn
  cases hit <;> exact laid

theorem storedIn_found (v : LineVal) (mask : BitVec 128) (h : t.findL2 who.die asid line = some e) :
    storedIn who line asid v mask hit t =
      (t.mapL1 (fun l => writeCore l who.die who.core asid line v mask)).putL2 (markStored hit who.core v mask e) := by
  rw [storedIn, h]

theorem storedIn_bytes (v : LineVal) (mask : BitVec 128) : (storedIn who line asid v mask hit t).mm.bytes = t.mm.bytes := by
  unfold storedIn
  split <;> rfl

theorem storedIn_twins (v : LineVal) (mask : BitVec 128) : (storedIn who line asid v mask hit t).mm.twins = t.mm.twins := by
  unfold storedIn
  split <;> rfl

theorem findL2_storedIn (v : LineVal) (mask : BitVec 128) (h : t.findL2 who.die asid line = some e) :
    (storedIn who line asid v mask hit t).findL2 who.die asid line = some (markStored hit who.core v mask e) := by
  rw [storedIn_found v mask h]
  obtain ⟨die, space, ln⟩ := markStored_key hit who.core v mask e
  obtain ⟨d, a, l⟩ := findL2_key h
  exact findL2_putL2 (s := t.mapL1 _) h ⟨die.trans d, space.trans a, ln.trans l⟩

/-- The other lines of the L2s stand. -/
theorem mem_storedIn (v : LineVal) (mask : BitVec 128) (h : t.findL2 who.die asid line = some e) {f : L2Line}
    (hf : f ∈ (storedIn who line asid v mask hit t).mm.l2) (other : f.same e = false) : f ∈ t.mm.l2 := by
  rw [storedIn_found v mask h] at hf
  rcases mem_putL2 hf with hf | rfl
  · exact hf
  · obtain ⟨die, space, ln⟩ := markStored_key hit who.core v mask e
    rw [L2Line.same, die, space, ln] at other
    simp at other

end

end Sys2Proof.Proofs
end

