-- ==== Sys2Proof/Proofs/StoresOfLines.lean ====
section
/-!
SUPPORT. Stores to lines that are filled, checked out or homed on another device, to the scratchpad and to the strip buffer (R125,
R126, R129 to R131, R238).
-/

namespace Sys2Proof.Proofs

open Sys2Proof Sys2Proof.Machine Sys2Proof.Laws

/-! ## Check-outs (R129, R130) -/

theorem cleanL2_none {s : State} {p : L2Line → Bool} (h : ∀ e ∈ s.mm.l2, p e = false) : s.cleanL2 p = s := by
  rw [State.cleanL2, List.filter_eq_nil_iff.2 fun e he => by rw [h e he]; exact Bool.false_ne_true]
  rfl

/-- A check-out from a twin set with a free way of a line that no L2 holds. -/
theorem checkOut_free {s : State} {asid ln : Nat} (space die : Nat) (free : (freeTwinWay (s.twinSet asid ln).2.1).isSome = true)
    (unheld : ∀ e ∈ s.mm.l2, e.pa ≠ ln) : ∃ r : Twin, r.line = ln ∧ r.writer = die ∧ r.die = paDie (ln * 128) ∧
      r.data = (s.homeAs space ln).data ∧ r.tags = (s.homeAs space ln).tags ∧
      s.checkOut asid space die ln = ({ s.mscServe space ln false with mm := { (s.mscServe space ln false).mm with
        twins := r :: (s.mscServe space ln false).mm.twins } }, s.homeAs space ln) := by
  obtain ⟨way, hw⟩ := Option.isSome_iff_exists.1 free
  refine ⟨⟨paDie (ln * 128), asid, (s.twinSet asid ln).1, way, ln, die, (s.homeAs space ln).data, (s.homeAs space ln).tags,
    (s.homeAs space ln).psn⟩, rfl, rfl, rfl, rfl, rfl, ?_⟩
  unfold State.checkOut
  dsimp only
  rw [hw]
  dsimp only
  rw [cleanL2_none fun e he => by simp [unheld e he]]
  rfl

theorem takeIn_twins (s : State) (space src ln : Nat) (v : LineVal) (mask : BitVec 128) (words : BitVec 16) :
    (s.takeIn space src ln v mask words).mm.twins = s.mm.twins :=
  (homeWrite_writes s space ln v mask words).twins

theorem checkIn_twins {s : State} {e : L2Line} {r : Twin} (hr : r ∈ s.mm.twins) (other : e.pa ≠ r.line) : r ∈ (s.checkIn e).mm.twins := by
  have put (t : State) (f : L2Line) : (t.putL2 f).mm.twins = t.mm.twins := rfl
  have freed (t : State) : (t.freeTwin e.pa e.die).mm.twins = t.mm.twins.filter (fun q => !(q.line == e.pa && q.writer == e.die)) := rfl
  have taken (v : LineVal) (q : Twin) : (s.takeTwin e.asid e.die e.pa v q).mm.twins = s.mm.twins := takeIn_twins ..
  unfold State.checkIn
  dsimp only
  rw [put]
  split
  · exact hr
  · rw [cross_mem, freed, taken]
    exact List.mem_filter.2 ⟨hr, by simp [other.symm]⟩

theorem writeBack_twins {s : State} {e : L2Line} {r : Twin} (hr : r ∈ s.mm.twins) (other : e.pa ≠ r.line) :
    r ∈ (s.writeBack e).mm.twins := by
  have put (t : State) (f : L2Line) : (t.putL2 f).mm.twins = t.mm.twins := rfl
  unfold State.writeBack
  split
  · exact checkIn_twins hr other
  · split
    · exact hr
    · rwa [put, (homeWrite_writes s e.asid e.pa ⟨e.data, e.tags, e.psn⟩ e.dirty (wordsOf e.dirty)).twins]

/-- A fill keeps the twins of lines that the L2s do not hold. -/
theorem fillL2_twins {s : State} {r : Twin} (hr : r ∈ s.mm.twins) (unheld : ∀ e ∈ s.mm.l2, e.pa ≠ r.line) (die asid line ln : Nat)
    (leaf : Word) (rrpv : Nat) (v : LineVal) : r ∈ (s.fillL2 die asid line ln leaf rrpv v).mm.twins := by
  rw [fillL2_eq]
  show r ∈ (roomFor s die asid line).mm.twins
  unfold roomFor
  split
  · exact hr
  next e he =>
    have gone := writeBack_twins hr (unheld e (List.mem_filter.1 (List.mem_of_find?_eq_some he)).1)
    unfold State.evictL2
    dsimp only
    split
    · rw [(mscVictim_serves _ _ _ _).toWrite.twins]
      exact gone
    · exact gone

theorem Roomed.setTwins {s t : State} (h : Roomed s t) (l : List Twin) : Roomed s { t with mm := { t.mm with twins := l } } :=
  h.frame rfl rfl fun x hx wx => ⟨x, hx, wx, rfl⟩

theorem Roomed.setTwinPtr {s t : State} (h : Roomed s t) (home asid set ptr : Nat) : Roomed s (t.setTwinPtr home asid set ptr) :=
  h.frame rfl rfl fun x hx wx => ⟨x, hx, wx, rfl⟩

theorem Roomed.checkOut {s t : State} (h : Roomed s t) (asid space die ln : Nat) : Roomed s (t.checkOut asid space die ln).1 := by
  unfold State.checkOut
  dsimp only
  split
  · exact ((h.cleanL2 _).serves (mscServe_serves ..)).setTwins _
  · exact ((((h.recallTwin _ _).setTwinPtr ..).cleanL2 _).serves (mscServe_serves ..)).setTwins _

/-- A check-out changes memory in lines alone that make room. -/
theorem takenOut_bytes {s : State} (w : Memory.wf s.mm.bytes = true) (who : Who) (line asid pa : Nat) (leaf : Word) :
    SparesBut (fun a => ∃ e ∈ s.mm.l2, written e ∧ lineByte s e.pa a) s.mm.bytes (takenOut who line asid pa leaf s).mm.bytes := by
  have out := ((Roomed.refl w).checkOut who.asid asid who.die (pa / 128)).serves (cross_serves _ who.die (paDie pa) (pa / 128))
  have dropped : Roomed s ((((s.checkOut who.asid asid who.die (pa / 128)).1.cross who.die (paDie pa) (pa / 128))).rdcDrop who.die
      (pa / 128)) := out.frame rfl rfl fun x hx wx => ⟨x, hx, wx, rfl⟩
  unfold takenOut
  dsimp only
  split
  · split
    · exact dropped.bytes
    · exact (dropped.fillL2 who.die asid line (pa / 128) leaf 2 (s.checkOut who.asid asid who.die (pa / 128)).2).bytes
  · split
    · exact dropped.bytes
    · exact (dropped.fillL2 who.die asid line (pa / 128) leaf 2 (s.checkOut who.asid asid who.die (pa / 128)).2).bytes

/-- A line that no L2 holds is taken out as its home gives it, beside its twin. -/
theorem takenOut_free {s : State} {who : Who} {line asid pa : Nat} (leaf : Word)
    (free : (freeTwinWay (s.twinSet who.asid (pa / 128)).2.1).isSome = true) (unheld : ∀ e ∈ s.mm.l2, e.pa ≠ pa / 128)
    (miss : s.findL2 who.die asid line = none) :
    (∃ e, (takenOut who line asid pa leaf s).findL2 who.die asid line = some e ∧ e.out = true ∧ e.pa = pa / 128 ∧
      e.data = (s.homeAs asid (pa / 128)).data ∧ e.tags = (s.homeAs asid (pa / 128)).tags) ∧
    ∃ r ∈ (takenOut who line asid pa leaf s).mm.twins, r.line = pa / 128 ∧ r.writer = who.die ∧ r.die = paDie (pa / 128 * 128) ∧
      r.data = (s.homeAs asid (pa / 128)).data ∧ r.tags = (s.homeAs asid (pa / 128)).tags := by
  obtain ⟨r, hl, hw, hd, data, tags, e⟩ := checkOut_free asid who.die free unheld
  have serves := mscServe_serves s asid (pa / 128) false
  unfold takenOut
  rw [e]
  dsimp only
  generalize ht : (State.rdcDrop _ who.die (pa / 128)) = t
  have l2 : t.mm.l2 = s.mm.l2 := by
    rw [← ht]
    show (State.cross _ _ _ _).mm.l2 = _
    rw [cross_mem]
    exact serves.toWrite.l2
  have twin : r ∈ t.mm.twins := by
    rw [← ht]
    show r ∈ (State.cross _ _ _ _).mm.twins
    rw [cross_mem]
    exact List.mem_cons_self
  rw [findL2_congr l2, miss, if_neg (by decide), findL2_fillL2]
  dsimp only
  refine ⟨⟨_, findL2_putL2 (findL2_fillL2 t who.die asid line (pa / 128) leaf 2 (s.homeAs asid (pa / 128))) ⟨rfl, rfl, rfl⟩,
    rfl, rfl, rfl, rfl⟩, r, ?_, hl, hw, hd, data, tags⟩
  exact fillL2_twins (s := t) twin (fun e he => by rw [hl]; exact unheld e (by rwa [l2] at he)) who.die asid line
    (pa / 128) leaf 2 (s.homeAs asid (pa / 128))

/-! ## Posted writes (R131) -/

theorem stream_key (f : Fabric) (key : StreamKey) : (f.stream key).key = key := by
  rw [Fabric.stream]
  cases h : f.streams.find? (fun t => t.key == key) with
  | none => rfl
  | some t => exact beq_iff_eq.1 (List.find?_some h :)

theorem stream_setStream (f : Fabric) {t : Stream} {key : StreamKey} (h : t.key = key) : (f.setStream t).stream key = t := by
  subst h
  rw [Fabric.stream, Fabric.setStream, List.find?_cons_of_pos (by simp)]
  rfl

/-- A request for another device is the newest of its stream that is outstanding. -/
theorem sendReq_outstanding (s : State) (uid : Nat) (r : FonakReq) (hr : 4 ≤ r.key.src) :
    ∃ q, ((s.sendReq uid r).fab.stream r.key).outstanding = (s.fab.stream r.key).outstanding ++ [q] ∧ q.op = r.op ∧ q.line = r.line ∧
      q.bmask = r.bmask ∧ q.data = r.data ∧ q.eseq = (s.fab.stream r.key).next := by
  refine ⟨{ r with eseq := (s.fab.stream r.key).next, srcDie := if r.key.src < 4 then r.key.src else s.dieOf uid }, ?_, rfl, rfl, rfl, rfl, rfl⟩
  rw [State.sendReq, if_neg (Nat.not_lt.2 hr)]
  show ((Fabric.setStream s.fab { s.fab.stream r.key with next := _, outstanding := _, waiting := _ }).stream r.key).outstanding = _
  rw [stream_setStream]
  exact stream_key s.fab r.key

/-- Reads that are overtaken stay outstanding. -/
theorem spoilReads_outstanding (s : State) (die : Nat) (hit : Nat → Bool) (key : StreamKey) :
    ((s.spoilReads die hit).fab.stream key).outstanding = (s.fab.stream key).outstanding := by
  rw [Fabric.stream, Fabric.stream]
  show Stream.outstanding (((s.fab.streams.map _).find? _).getD _) = _
  rw [List.find?_map]
  show Stream.outstanding (((s.fab.streams.find? (fun t => t.key == key)).map _).getD _) = _
  cases s.fab.streams.find? (fun t => t.key == key) <;> rfl

section
variable {who : Who} {line asid pa : Nat} {v : LineVal} {mask : BitVec 128} {s : State}

/-- A posted write as it leaves, before a copy in the L2 takes its bytes. -/
def postedOut (who : Who) (line asid pa : Nat) (v : LineVal) (mask : BitVec 128) (s : State) : State :=
  (((s.mapL1 (fun l => writeCore l who.die who.core asid line v mask)).sendReq who.uid
    { plainReq (s.devStream (paDev pa) (pa / 128)) 1 (pa / 128) with
      bmask := mask, data := v.data, gmask := touchedGranules mask, psn := v.psn }).rdcDrop who.die (pa / 128)).spoilReads who.die
        (fun l => l == pa / 128)

theorem postedOut_mm : (postedOut who line asid pa v mask s).mm = { s.mm with
    l1 := writeCore s.mm.l1 who.die who.core asid line v mask
    rdc := s.mm.rdc.filter (fun r => !(r.die == who.die && r.line == pa / 128)) } := by
  show (State.rdcDrop _ _ _).mm = _
  rw [State.rdcDrop]
  dsimp only
  rw [sendReq_mem]
  rfl

theorem postedFrom_eq : postedFrom who line asid pa v mask s = match s.findL2 who.die asid line with
    | some e => (postedOut who line asid pa v mask s).putL2 { e with
        data := ((LineVal.mk e.data e.tags e.psn).overlay v mask).data, tags := ((LineVal.mk e.data e.tags e.psn).overlay v mask).tags,
        psn := ((LineVal.mk e.data e.tags e.psn).overlay v mask).psn, rrpv := 0 }
    | none => postedOut who line asid pa v mask s := by
  rw [← findL2_congr (s := s) (t := postedOut who line asid pa v mask s) (by rw [postedOut_mm])]
  rfl

theorem postedFrom_bytes : (postedFrom who line asid pa v mask s).mm.bytes = s.mm.bytes := by
  have out : (postedOut who line asid pa v mask s).mm.bytes = s.mm.bytes := by rw [postedOut_mm]
  rw [postedFrom_eq]
  split <;> exact out

theorem postedFrom_rdc : ∀ r ∈ (postedFrom who line asid pa v mask s).mm.rdc, r.die = who.die → r.line ≠ pa / 128 := by
  have dropped : (postedFrom who line asid pa v mask s).mm.rdc = s.mm.rdc.filter (fun r => !(r.die == who.die && r.line == pa / 128)) := by
    have out : (postedOut who line asid pa v mask s).mm.rdc = _ := congrArg MemSys.rdc postedOut_mm
    rw [postedFrom_eq]
    split <;> exact out
  rw [dropped]
  intro r hr die line
  have kept := (List.mem_filter.1 hr).2
  simp [die, line] at kept

theorem postedFrom_stream : ∃ q, ((postedFrom who line asid pa v mask s).fab.stream (s.devStream (paDev pa) (pa / 128))).outstanding =
    (s.fab.stream (s.devStream (paDev pa) (pa / 128))).outstanding ++ [q] ∧ q.op = 1#6 ∧ q.line = pa / 128 ∧ q.bmask = mask ∧
    q.data = v.data ∧ q.eseq = (s.fab.stream (s.devStream (paDev pa) (pa / 128))).next := by
  have fab : (postedFrom who line asid pa v mask s).fab = (postedOut who line asid pa v mask s).fab := by
    rw [postedFrom_eq]
    split <;> rfl
  rw [fab, postedOut, spoilReads_outstanding]
  exact sendReq_outstanding (s.mapL1 (fun l => writeCore l who.die who.core asid line v mask)) who.uid
    { plainReq (s.devStream (paDev pa) (pa / 128)) 1 (pa / 128) with
      bmask := mask, data := v.data, gmask := touchedGranules mask, psn := v.psn } (Nat.le_add_right 4 _)

theorem findL2_postedFrom {e : L2Line} (h : s.findL2 who.die asid line = some e) : ∃ e',
    (postedFrom who line asid pa v mask s).findL2 who.die asid line = some e' ∧ e'.dirty = e.dirty ∧ e'.out = e.out ∧
      e'.data = ((LineVal.mk e.data e.tags e.psn).overlay v mask).data ∧ e'.tags = ((LineVal.mk e.data e.tags e.psn).overlay v mask).tags := by
  have held : (postedOut who line asid pa v mask s).findL2 who.die asid line = some e := by
    exact (findL2_congr (by rw [postedOut_mm]) ..).trans h
  have key := findL2_key h
  rw [postedFrom_eq, h]
  exact ⟨_, findL2_putL2 held key, rfl, rfl, rfl, rfl⟩

end

/-! ## The scratchpad and the strip buffer (R125, R238) -/

theorem findCore_writeCore {l : List CoreLine} {die core asid line : Nat} {c : CoreLine} (h : findCore l die core asid line = some c)
    (v : LineVal) (mask : BitVec 128) : ∃ c', findCore (writeCore l die core asid line v mask) die core asid line = some c' ∧
      c'.data = ((LineVal.mk c.data c.tags c.psn).overlay v mask).data ∧ c'.tags = ((LineVal.mk c.data c.tags c.psn).overlay v mask).tags := by
  have hit := List.find?_some h
  refine ⟨{ c with
    data := ((LineVal.mk c.data c.tags c.psn).overlay v mask).data
    tags := ((LineVal.mk c.data c.tags c.psn).overlay v mask).tags
    psn := ((LineVal.mk c.data c.tags c.psn).overlay v mask).psn, rrpv := 0 }, ?_, rfl, rfl⟩
  rw [findCore, writeCore, find?_changeAll]
  · rw [show l.find? _ = some c from h, Option.map_some, if_pos hit]
  · exact fun _ => rfl

/-- A store with a furlong open waits in the strip buffer, whose other lines stand. -/
theorem storeLine_buffers {s : State} {va : Word} {size v pa : Nat} {leaf : Word} (hf : s.hart.furlong.isSome = true)
    (here : s.isLocal pa = true) (idle : s.rangeBusy s.who va.toNat size = false) (room : s.stripRoom s.who (va.toNat / 128) = true) :
    storeLine s.who va size v false (.cached pa leaf) s = .ok ((), { s with
      hart := s.hart.buffer (va.toNat / 128) (placeBytes va.toNat v false) (byteMask va.toNat size) }) := by
  rw [storeLine, bind_ok (run_get s)]
  dsimp only
  rw [idle, if_neg Bool.false_ne_true, if_pos (by rw [hf, here, room]; simp [State.who])]
  rfl

end Sys2Proof.Proofs
end

