-- ==== Sys2Proof/Proofs/StoresByWindow.lean ====
section
/-!
SUPPORT. What a store leaves for each window that takes it (R119, R122 to R126, R129 to R131, R209, R238), and the statement O6.
-/

namespace Sys2Proof.Proofs

open Sys2Proof Sys2Proof.Machine Sys2Proof.Laws

section
variable {s t : State} {va : Word} {size v pa : Nat} {tag : Bool} {leaf : Word}

/-! ## Homes and banks -/

/-- A store at a home in plain, by way of the memory side or of a free bank. -/
theorem storedAtHome {space : Nat} (wf : Memory.wf s.mm.bytes = true) (hs : 0 < size) (fit : va.toNat % 128 + size ≤ 128)
    (hpa : pa < 2 ^ 63) (here : s.isLocal pa = true) (same : pa % 128 = va.toNat % 128) (plain : s.plainTo space (pa / 128))
    (h : writeHome s.who space pa (placeBytes va.toNat v tag) (byteMask va.toNat size) s = .ok ((), t)) :
    Memory.read t.mm.bytes pa size = bytesOfNat size v ∧ t.mm.l1 = s.mm.l1 ∧ t.mm.l2 = s.mm.l2 ∧
    (∀ a, a < pa ∨ pa + size ≤ a → (∀ ta, s.tagAddr (pa / 128) = some ta → a < ta ∨ ta + 2 ≤ a) → t.byteAt a = s.byteAt a) ∧
    (∀ ta k, s.tagAddr (pa / 128) = some ta → k < 16 → (natOfBytes (Memory.read t.mm.bytes ta 2)).testBit k =
      if 8 * k < va.toNat % 128 + size ∧ va.toNat % 128 < 8 * k + 8 then tag
      else (natOfBytes (Memory.read s.mm.bytes ta 2)).testBit k) := by
  obtain rfl := writeHome_ok here h
  have moves := (cross_serves s s.who.die (paDie pa) (pa / 128)).toWrite.trans (homeWrite_writes _ space (pa / 128)
    (placeBytes va.toNat v tag) (byteMask va.toNat size) (wordsOf (byteMask va.toNat size)))
  exact ⟨homeStore_read wf hs plain v tag _ _ fit hpa same, moves.l1, moves.l2,
    fun a ha ht => homeStore_outside wf hs plain v tag _ _ same ha ht, fun ta k ht hk => homeStore_tags wf hs plain v tag _ _ ht hk⟩

/-- A store to a bank that is busy waits among the bank's requests. -/
theorem storedAtBank {who : Who} {v : LineVal} {mask : BitVec 128} (here : s.isLocal pa = true)
    (busy : (s.bank (paBank pa)).free = false) (h : bankStore who pa v mask s = .ok ((), t)) :
    t.mm = s.mm ∧ t.harts = s.harts ∧
      (t.bank (paBank pa)).pending = (s.bank (paBank pa)).pending ++ storeReqs who.uid v mask (pa / 128) := by
  have crossed : (s.cross who.die (paDie pa) (pa / 128)).harts = s.harts ∧ (s.cross who.die (paDie pa) (pa / 128)).banks = s.banks := by
    unfold State.cross
    split
    · exact ⟨rfl, rfl⟩
    · split <;> exact ⟨rfl, rfl⟩
  obtain rfl := bankStore_busy here busy h
  refine ⟨cross_mem .., crossed.1, ?_⟩
  rw [State.askBank, bank_setBank, if_pos rfl, State.bank, State.bank, crossed.2]

/-! ## Cached lines -/

section
variable {who : Who} {a : Nat} {value : LineVal} {mask : BitVec 128}
  (h : writeCached who a pa leaf value mask s = .ok ((), t))
include h

/-- A store to a line that its die may write is performed at the copy in the die's L2. -/
theorem writeCached_stored {e : L2Line} (here : s.isLocal pa = true) (own : paDie pa = who.die ∨ e.out = true)
    (found : s.findL2 who.die (spaceOf who.asid (BitVec.ofNat 64 a)) (a / 128) = some e) :
    ∃ hit, t = storedIn who (a / 128) (spaceOf who.asid (BitVec.ofNat 64 a)) value mask hit s := by
  by_cases home : paDie pa = who.die
  · exact ⟨_, writeCached_hit here home (by rw [found]; rfl) h⟩
  · exact ⟨_, writeCached_out here home (by rw [found]; exact own.resolve_left home) h⟩

/-- A store to a cached line changes memory in lines alone whose written copies make room or are recalled. -/
theorem writeCached_bytes (wf : Memory.wf s.mm.bytes = true) :
    SparesBut (fun a => ∃ e ∈ s.mm.l2, written e ∧ lineByte s e.pa a) s.mm.bytes t.mm.bytes := by
  cases here : s.isLocal pa with
  | false =>
    rw [writeCached_far here h, postedFrom_bytes]
    exact SparesBut.refl wf
  | true =>
    by_cases home : paDie pa = who.die
    · cases found : s.findL2 who.die (spaceOf who.asid (BitVec.ofNat 64 a)) (a / 128) with
      | some e =>
        rw [writeCached_hit here home (by rw [found]; rfl) h, storedIn_bytes]
        exact SparesBut.refl wf
      | none =>
        rw [writeCached_fills here home found h, storedIn_bytes]
        exact (((Roomed.refl wf).serves (mscServe_serves ..)).fillL2 ..).bytes
    · cases out : (s.findL2 who.die (spaceOf who.asid (BitVec.ofNat 64 a)) (a / 128)).any (fun e => e.out) with
      | true =>
        rw [writeCached_out here home out h, storedIn_bytes]
        exact SparesBut.refl wf
      | false =>
        rw [writeCached_checksOut here home out h, storedIn_bytes]
        exact takenOut_bytes wf ..

end

/-- The memory that a store to a cached line may change lies in lines that the L2s hold written. -/
theorem storedCached_byte (wf : Memory.wf s.mm.bytes = true) {who : Who} {n : Nat} {value : LineVal} {mask : BitVec 128}
    (h : writeCached who n pa leaf value mask s = .ok ((), t)) {a : Nat} (changed : t.byteAt a ≠ s.byteAt a) :
    ∃ e ∈ s.mm.l2, (e.out = true ∨ e.dirty ≠ 0#128) ∧ (a / 128 = e.pa ∨ ∃ ta, s.tagAddr e.pa = some ta ∧ ta / 16 = a / 16) :=
  by_contra fun spared => changed ((writeCached_bytes h wf).2 a spared)

section
variable {space : Nat} (hspace : space = spaceOf s.hart.asid va) (hs : 0 < size)
  (h : writeCached s.who va.toNat pa leaf (placeBytes va.toNat v tag) (byteMask va.toNat size) s = .ok ((), t))
include hspace hs h

theorem storedAtCopy {e : L2Line} (here : s.isLocal pa = true) (own : paDie pa = s.hart.place.die ∨ e.out = true)
    (found : s.findL2 s.hart.place.die space (va.toNat / 128) = some e) :
    t.mm.bytes = s.mm.bytes ∧ t.mm.twins = s.mm.twins ∧ (∀ f ∈ t.mm.l2, f.same e = false → f ∈ s.mm.l2) ∧
    ∃ e', t.findL2 s.hart.place.die space (va.toNat / 128) = some e' ∧ e'.out = e.out ∧
      e'.writers.getLsbD s.hart.place.core = (decide (s.hart.place.core < 48) || e.writers.getLsbD s.hart.place.core) ∧
      StoredOver va.toNat size v tag e.data e.tags e'.data e'.tags := by
  obtain ⟨hit, rfl⟩ := writeCached_stored h here own (by rw [BitVec.ofNat_toNat, BitVec.setWidth_eq]; exact hspace ▸ found)
  rw [BitVec.ofNat_toNat, BitVec.setWidth_eq, ← show space = spaceOf s.who.asid va from hspace]
  exact ⟨storedIn_bytes .., storedIn_twins .., fun f hf other => mem_storedIn (who := s.who) _ _ found hf other, _,
    findL2_storedIn (who := s.who) _ _ found, (markStored_out ..).1, markStored_writers ..,
    markStored_storedOver hs hit s.who.core v tag e⟩

theorem storedByFill (here : s.isLocal pa = true) (home : paDie pa = s.hart.place.die)
    (miss : s.findL2 s.hart.place.die space (va.toNat / 128) = none) (plain : s.plainTo space (pa / 128)) :
    ∃ e', t.findL2 s.hart.place.die space (va.toNat / 128) = some e' ∧ e'.out = false ∧ e'.pa = pa / 128 ∧
      e'.dirty = byteMask va.toNat size ∧
      StoredOver va.toNat size v tag (s.homeLine (pa / 128)).data (s.homeLine (pa / 128)).tags e'.data e'.tags := by
  obtain rfl := writeCached_fills here home (by rw [BitVec.ofNat_toNat, BitVec.setWidth_eq]; exact hspace ▸ miss) h
  rw [BitVec.ofNat_toNat, BitVec.setWidth_eq, ← show space = spaceOf s.who.asid va from hspace]
  obtain ⟨data, tags⟩ := homeAs_plain plain
  obtain ⟨out, line, dirty⟩ := markStored_out false s.who.core (placeBytes va.toNat v tag) (byteMask va.toNat size)
    (filledLine (s.mscServe space (pa / 128) false) s.who.die space (va.toNat / 128) (pa / 128) leaf 2 (s.homeAs space (pa / 128)))
  refine ⟨_, findL2_storedIn (who := s.who) _ _ (findL2_fillL2 ..), out, line, dirty.trans (BitVec.zero_or ..), ?_⟩
  rw [← data, ← tags]
  exact markStored_storedOver hs false s.who.core v tag (filledLine ..)

theorem storedByCheckOut (here : s.isLocal pa = true) (away : paDie pa ≠ s.hart.place.die) (unheld : ∀ e ∈ s.mm.l2, e.pa ≠ pa / 128)
    (miss : s.findL2 s.hart.place.die space (va.toNat / 128) = none)
    (free : (freeTwinWay (s.twinSet s.hart.asid (pa / 128)).2.1).isSome = true) (plain : s.plainTo space (pa / 128)) :
    (∃ e', t.findL2 s.hart.place.die space (va.toNat / 128) = some e' ∧ e'.out = true ∧ e'.pa = pa / 128 ∧
      StoredOver va.toNat size v tag (s.homeLine (pa / 128)).data (s.homeLine (pa / 128)).tags e'.data e'.tags) ∧
    ∃ r ∈ t.mm.twins, r.line = pa / 128 ∧ r.writer = s.hart.place.die ∧ r.die = paDie (pa / 128 * 128) ∧
      r.data = (s.homeLine (pa / 128)).data ∧ r.tags = (s.homeLine (pa / 128)).tags := by
  have missed : s.findL2 s.who.die (spaceOf s.who.asid va) (va.toNat / 128) = none := hspace ▸ miss
  obtain rfl := writeCached_checksOut here away (by rw [BitVec.ofNat_toNat, BitVec.setWidth_eq, missed]; rfl) h
  rw [BitVec.ofNat_toNat, BitVec.setWidth_eq, ← show space = spaceOf s.who.asid va from hspace]
  obtain ⟨data, tags⟩ := homeAs_plain plain
  obtain ⟨⟨e, found, out, line, ed, et⟩, r, hr, twin, writer, die, rd, rt⟩ := takenOut_free (who := s.who) leaf free unheld miss
  obtain ⟨mout, mline, _⟩ := markStored_out (s.findL2 s.who.die space (va.toNat / 128)).isSome s.who.core (placeBytes va.toNat v tag)
    (byteMask va.toNat size) e
  refine ⟨⟨_, findL2_storedIn (who := s.who) _ _ found, mout.trans out, mline.trans line, ?_⟩, r, ?_, twin, writer, die, rd.trans data,
    rt.trans tags⟩
  · rw [← data, ← tags, ← ed, ← et]
    exact markStored_storedOver hs _ s.who.core v tag e
  · rw [storedIn_twins]
    exact hr

theorem storedAway (far : s.isLocal pa = false) : t.mm.bytes = s.mm.bytes ∧
    (∀ r ∈ t.mm.rdc, r.die = s.hart.place.die → r.line ≠ pa / 128) ∧
    (∃ r, (t.fab.stream (s.devStream (paDev pa) (pa / 128))).outstanding =
        (s.fab.stream (s.devStream (paDev pa) (pa / 128))).outstanding ++ [r] ∧
      r.op = 1#6 ∧ r.line = pa / 128 ∧ r.bmask = byteMask va.toNat size ∧ r.data = (placeBytes va.toNat v tag).data ∧
      r.eseq = (s.fab.stream (s.devStream (paDev pa) (pa / 128))).next) ∧
    ∀ e, s.findL2 s.hart.place.die space (va.toNat / 128) = some e →
      ∃ e', t.findL2 s.hart.place.die space (va.toNat / 128) = some e' ∧ e'.dirty = e.dirty ∧ e'.out = e.out ∧
        StoredOver va.toNat size v tag e.data e.tags e'.data e'.tags := by
  obtain rfl := writeCached_far far h
  rw [BitVec.ofNat_toNat, BitVec.setWidth_eq, ← show space = spaceOf s.who.asid va from hspace]
  refine ⟨postedFrom_bytes, postedFrom_rdc, postedFrom_stream, fun e found => ?_⟩
  obtain ⟨e', held, dirty, out, data, tags⟩ := findL2_postedFrom (who := s.who) (pa := pa) (v := placeBytes va.toNat v tag)
    (mask := byteMask va.toNat size) found
  refine ⟨e', held, dirty, out, ?_⟩
  rw [data, tags]
  exact storedOver_overlay hs v tag e.data e.tags e.psn

end

/-! ## The scratchpad and the strip buffer -/

theorem storedInScratch {c : CoreLine} (hs : 0 < size) {who : Who}
    (found : findCore s.mm.l1 who.die who.core who.asid (va.toNat / 128) = some c)
    (h : storeInto who va size v tag .scratch s = .ok ((), t)) :
    t.mm.bytes = s.mm.bytes ∧ t.mm.l2 = s.mm.l2 ∧
    ∃ c', findCore t.mm.l1 who.die who.core who.asid (va.toNat / 128) = some c' ∧
      StoredOver va.toNat size v tag c.data c.tags c'.data c'.tags := by
  obtain rfl := ok_of_modify h
  obtain ⟨c', held, data, tags⟩ := findCore_writeCore found (placeBytes va.toNat v tag) (byteMask va.toNat size)
  refine ⟨rfl, rfl, c', held, ?_⟩
  rw [data, tags]
  exact storedOver_overlay hs v tag c.data c.tags c.psn

/-- The strip buffer after a store: the line's one entry takes the bytes, and the other lines' entries stand. -/
theorem mem_buffer_other (h : Hart) {line : Nat} (value : LineVal) (mask : BitVec 128) {e : StripEntry} (other : e.line ≠ line) :
    e ∈ (h.buffer line value mask).strip ↔ e ∈ h.strip := by
  rw [Hart.buffer]
  simp only [List.mem_append, List.mem_filter, List.mem_singleton, bne_iff_ne, ne_eq, other, not_false_eq_true, and_true, or_iff_left_iff_imp]
  rintro rfl
  exact absurd rfl other

theorem storedOver_untagged (hs : 0 < size) (d : Line) (p : BitVec 4) : StoredOver va.toNat size v false d 0
    ((LineVal.mk d 0 p).overlay (placeBytes va.toNat v false) (byteMask va.toNat size)).data 0 :=
  ⟨(storedOver_overlay hs v false d 0 p).1, fun k _ => by
    rw [show (0 : BitVec 16).getLsbD k = false from BitVec.getLsbD_zero, ite_self]⟩

end

/-! ## The statement -/

/-- Settles O6, by the window that takes the store: a home, a busy bank, a copy in the L2, a fill, a check-out, another device, the
scratchpad, and with an open furlong the strip buffer. -/
theorem storedBytes : Obligations.StoredBytes := by
  unfold Obligations.StoredBytes
  constructor
  · intro s t va size v tag w hf wf hs fit store
    have into := storeLine_direct hf store
    refine ⟨?_, ?_, ?_, ?_, ?_⟩
    · rintro pa space (⟨⟨reach, rfl⟩, rfl⟩ | ⟨rfl, free, rfl⟩) hpa here same plain
      · exact storedAtHome wf hs fit hpa here same plain into
      · exact storedAtHome wf hs fit hpa here same plain ((bankStore_free _ _ free).symm.trans into)
    · rintro pa rfl here busy
      exact storedAtBank here busy into
    · rintro pa leaf line space rfl rfl hspace -
      exact ⟨fun e here own found => storedAtCopy hspace hs into here own found,
        fun here home miss plain => storedByFill hspace hs into here home miss plain,
        fun here away unheld miss free plain => storedByCheckOut hspace hs into here away unheld miss free plain,
        fun far => storedAway hspace hs into far⟩
    · rintro c rfl found
      exact storedInScratch (who := s.who) hs found into
    · rintro pa leaf rfl a changed
      exact storedCached_byte wf into changed
  · rintro s va size v pa leaf b hf here idle room hs - rfl
    exact ⟨_, _, storeLine_buffers hf here idle room, rfl, List.mem_append_right _ List.mem_cons_self, rfl, rfl,
      storedOver_untagged hs _ _, fun e other => mem_buffer_other _ _ _ other⟩

end Sys2Proof.Proofs
end

