-- ==== Sys2Proof/Proofs/Encoding.lean ====
section
/-! SUPPORT. Decoder and encoder agree (R181, R182): the rows of the decoder's tables never overlap, the fields of a row are the bits
outside its mask, and each instruction is built by the row of its place in the table; from these the statements O22 to O24. -/

namespace Sys2Proof.Proofs
open Sys2Proof

/-! ## Fields of a word -/

section
variable {W n : Nat} (lo : Nat) (v : BitVec n)

theorem extractLsb'_placed (h : lo + n ≤ W) : (v.setWidth W <<< lo).extractLsb' lo n = v := by
  ext k hk
  simp [hk, show lo + k < W by omega]

theorem extractLsb'_placed_apart {lo' n' : Nat} (h : lo' + n' ≤ lo ∨ lo + n ≤ lo') :
    (v.setWidth W <<< lo).extractLsb' lo' n' = 0#n' := by
  ext k hk
  rcases h with below | above
  · simp [show lo' + k < lo by omega]
  · simp [BitVec.getLsbD_of_ge v (lo' + k - lo) (by omega)]

/-- A mask without a bit of the field finds nothing in it. -/
theorem placed_and_eq_zero {m : BitVec W} (h : m.extractLsb' lo n = 0#n) : v.setWidth W <<< lo &&& m = 0#W := by
  ext k hk
  by_cases inside : lo ≤ k ∧ k < lo + n
  · have bit := congrArg (fun x => x.getLsbD (k - lo)) h
    simp only [BitVec.getLsbD_extractLsb', BitVec.getLsbD_zero, Nat.add_sub_cancel' inside.1, Bool.and_eq_false_imp, decide_eq_true_eq] at bit
    simp [← BitVec.getLsbD_eq_getElem, bit (by omega)]
  · have outside : k < lo ∨ n ≤ k - lo := by omega
    rcases outside with below | above
    · simp [below]
    · simp [BitVec.getLsbD_of_ge v (k - lo) above]

/-- A field taken out of a word and put back is the word under the field's bits. -/
theorem placed_extractLsb' (w : BitVec W) : (w.extractLsb' lo n).setWidth W <<< lo = w &&& (BitVec.allOnes n).setWidth W <<< lo := by
  ext k hk
  by_cases below : k < lo
  · simp [below]
  · simp [below, Nat.add_sub_cancel' (Nat.le_of_not_lt below), BitVec.getLsbD_eq_getElem hk, Bool.and_comm]

theorem and_or_and_not (w m : BitVec W) : w &&& m ||| w &&& ~~~m = w := by
  rw [← BitVec.and_or_distrib_left, BitVec.or_not_self, BitVec.and_allOnes]

/-- Patterns found in one word agree at the bits of both masks. -/
theorem patterns_agree {w m q p r : BitVec W} (hp : w &&& m = p) (hr : w &&& q = r) : m &&& q &&& (p ^^^ r) = 0#W := by
  subst hp hr
  ext k hk
  simp only [BitVec.getElem_and, BitVec.getElem_xor, BitVec.getElem_zero]
  cases w[k] <;> cases m[k] <;> cases q[k] <;> rfl

end

/-! ## The one row of a word -/

/-- Where no two entries of a list can both be hit, a search finds the entry that is. -/
theorem find?_of_pairwise {α : Type} {R : α → α → Prop} {hit : α → Bool} (excl : ∀ a b, R a b → hit a = true → hit b ≠ true) {a : α} :
    ∀ {l : List α}, l.Pairwise R → a ∈ l → hit a = true → l.find? hit = some a
  | b :: l, pw, mem, ha => by
    obtain ⟨first, rest⟩ := List.pairwise_cons.1 pw
    rcases List.mem_cons.1 mem with rfl | tail
    · exact List.find?_cons_of_pos ha
    · rw [List.find?_cons_of_neg fun hb => excl b a (first a tail) hb ha]
      exact find?_of_pairwise excl rest tail ha

theorem rows_apart : rows.Pairwise (fun r q => r.apart q = true) := by decide +kernel

theorem microRows_apart : microRows.Pairwise (fun r q => r.apart q = true) := by decide +kernel

theorem decodeWord_of_hits {r : Row} (mem : r ∈ rows) {w : BitVec 32} (hit : r.hits w = true) : decodeWord w = .ok (r.build w) := by
  have excl : ∀ a b : Row, a.apart b = true → a.hits w = true → b.hits w ≠ true := fun a b apart ha hb =>
    bne_iff_ne.1 apart (patterns_agree (beq_iff_eq.1 ha) (beq_iff_eq.1 hb))
  rw [decodeWord, find?_of_pairwise excl rows_apart mem hit]

theorem decodeMicro_of_hits {r : MicroRow} (mem : r ∈ microRows) {h : BitVec 16} (hit : r.hits h = true) :
    decodeMicro h = .ok (r.build h) := by
  have excl : ∀ a b : MicroRow, a.apart b = true → a.hits h = true → b.hits h ≠ true := fun a b apart ha hb =>
    bne_iff_ne.1 apart (patterns_agree (beq_iff_eq.1 ha) (beq_iff_eq.1 hb))
  rw [decodeMicro, find?_of_pairwise excl microRows_apart mem hit]

theorem row_of_decodeWord {w : BitVec 32} {i : Instr} (h : decodeWord w = .ok i) : ∃ r ∈ rows, r.hits w = true ∧ r.build w = i := by
  unfold decodeWord at h
  split at h
  next r found =>
    cases h
    exact ⟨r, List.mem_of_find?_eq_some found, List.find?_some (p := fun r : Row => r.hits w) found, rfl⟩
  next =>
    dsimp only at h
    split at h <;> cases h

theorem row_of_decodeMicro {w : BitVec 16} {i : Instr} (h : decodeMicro w = .ok i) :
    ∃ r ∈ microRows, r.hits w = true ∧ r.build w = i := by
  unfold decodeMicro at h
  split at h
  next r found =>
    cases h
    exact ⟨r, List.mem_of_find?_eq_some found, List.find?_some (p := fun r : MicroRow => r.hits w) found, rfl⟩
  next => cases h

/-! ## What a row builds is encoded as the word (R181) -/

/-- The fields of the row are the bits outside its mask: none overlaps another, and no bit is left out. -/
def RowExact (r : Row) : Prop := ∀ w, encodeWord (r.build w) = some (r.pat ||| w &&& ~~~r.mask)

/-- The same of a row of the µops. -/
def MicroRowExact (r : MicroRow) : Prop := ∀ w, encodeMicro (r.build w) = some (r.pat ||| w &&& ~~~r.mask)

theorem rows_exact : ∀ r ∈ rows, RowExact r := by
  unfold rows rows0 rows1 rows2 rows3 rows4 rows5 rows6
  simp only [List.forall_mem_append]
  and_intros
  all_goals repeat' refine List.forall_mem_cons.2 ⟨fun w => congrArg some ?_, ?_⟩
  any_goals exact List.forall_mem_nil _
  all_goals
    simp only [field, placed_extractLsb', BitVec.or_assoc, ← BitVec.and_or_distrib_left]
    simp

theorem microRows_exact : ∀ r ∈ microRows, MicroRowExact r := by
  unfold microRows
  repeat' refine List.forall_mem_cons.2 ⟨fun w => congrArg some ?_, ?_⟩
  any_goals exact List.forall_mem_nil _
  all_goals
    simp only [microField, placed_extractLsb', BitVec.or_assoc, ← BitVec.and_or_distrib_left]
    simp

theorem encodeWord_of_hits {r : Row} (mem : r ∈ rows) {w : BitVec 32} (hit : r.hits w = true) : encodeWord (r.build w) = some w := by
  rw [rows_exact r mem w, ← show w &&& r.mask = r.pat from beq_iff_eq.1 hit, and_or_and_not]

theorem encodeMicro_of_hits {r : MicroRow} (mem : r ∈ microRows) {h : BitVec 16} (hit : r.hits h = true) :
    encodeMicro (r.build h) = some h := by
  rw [microRows_exact r mem h, ← show h &&& r.mask = r.pat from beq_iff_eq.1 hit, and_or_and_not]

/-! ## Each instruction is built by its row -/

/-- The rows stand in the order of the instructions, and the word of an instruction is found by its own row, which gives the
instruction back. -/
theorem row_of_encodeWord {i : Instr} {w : BitVec 32} (h : encodeWord i = some w) :
    ∃ r, rows[i.ctorIdx]? = some r ∧ r.hits w = true ∧ r.build w = i := by
  cases i <;> cases h
  all_goals
    refine ⟨_, rfl, ?hits, ?build⟩
    case hits => simp (disch := decide) [Row.hits, field, BitVec.and_or_distrib_right, placed_and_eq_zero, -BitVec.shiftLeft_zero]
    case build =>
      simp (disch := omega) [field, BitVec.extractLsb'_or, extractLsb'_placed, extractLsb'_placed_apart, -BitVec.shiftLeft_zero]

/-- The µops follow the 181 words, in the order of their rows. -/
theorem row_of_encodeMicro {i : Instr} {w : BitVec 16} (h : encodeMicro i = some w) :
    ∃ k r, i.ctorIdx = k + 181 ∧ microRows[k]? = some r ∧ r.hits w = true ∧ r.build w = i := by
  cases i <;> cases h
  all_goals
    refine ⟨_, _, rfl, rfl, ?hits, ?build⟩
    case hits => simp (disch := decide) [MicroRow.hits, microField, BitVec.and_or_distrib_right, placed_and_eq_zero, -BitVec.shiftLeft_zero]
    case build =>
      simp (disch := omega) [microField, BitVec.extractLsb'_or, extractLsb'_placed, extractLsb'_placed_apart, -BitVec.shiftLeft_zero]

theorem decodeWord_of_encodeWord {i : Instr} {w : BitVec 32} (h : encodeWord i = some w) : decodeWord w = .ok i := by
  obtain ⟨r, place, hit, built⟩ := row_of_encodeWord h
  rw [decodeWord_of_hits (List.mem_of_getElem? place) hit, built]

theorem decodeMicro_of_encodeMicro {i : Instr} {h : BitVec 16} (e : encodeMicro i = some h) : decodeMicro h = .ok i := by
  obtain ⟨_, r, -, place, hit, built⟩ := row_of_encodeMicro e
  rw [decodeMicro_of_hits (List.mem_of_getElem? place) hit, built]

/-! ## Bytes -/

theorem wordOfBytes_bytes (w : BitVec 32) :
    wordOfBytes (w.extractLsb' 0 8) (w.extractLsb' 8 8) (w.extractLsb' 16 8) (w.extractLsb' 24 8) = w := by
  rw [wordOfBytes, BitVec.extractLsb'_append_extractLsb'_eq_extractLsb' (by rfl), BitVec.extractLsb'_append_extractLsb'_eq_extractLsb' (by rfl),
    BitVec.extractLsb'_append_extractLsb'_eq_extractLsb' (by rfl)]
  exact BitVec.extractLsb'_eq_self

theorem halfOfBytes_bytes (h : BitVec 16) : h.extractLsb' 8 8 ++ h.extractLsb' 0 8 = h := by
  rw [BitVec.extractLsb'_append_extractLsb'_eq_extractLsb' (by rfl)]
  exact BitVec.extractLsb'_eq_self

/-! ## The statements -/

/-- Settles O23: the row of an instruction is the one row that its word hits, and the bytes give the word back. -/
theorem encodeDecode : Obligations.EncodeDecode := by
  unfold Obligations.EncodeDecode
  constructor
  · intro i w rest h
    show (decodeWord (wordOfBytes _ _ _ _)).map (·, rest) = _
    rw [wordOfBytes_bytes, decodeWord_of_encodeWord h]
    rfl
  · intro i h rest e
    show (decodeMicro (_ ++ _)).map (·, rest) = _
    rw [halfOfBytes_bytes, decodeMicro_of_encodeMicro e]
    rfl

/-- Settles O24: the row that a word hits builds an instruction whose fields are the word's bits outside the row's mask. -/
theorem decodeEncode : Obligations.DecodeEncode := by
  unfold Obligations.DecodeEncode
  constructor
  · intro w i h
    obtain ⟨r, mem, hit, rfl⟩ := row_of_decodeWord h
    exact encodeWord_of_hits mem hit
  · intro h i e
    obtain ⟨r, mem, hit, rfl⟩ := row_of_decodeMicro e
    exact encodeMicro_of_hits mem hit

/-- Settles O22: each word is looked up in the table. -/
theorem decodeWords : Obligations.DecodeWords := by
  unfold Obligations.DecodeWords
  and_intros <;> decide +kernel

end Sys2Proof.Proofs
end

