-- ==== Sys2Proof/Proofs/Answers.lean ====
section
/-! SUPPORT. Every instruction and event answers a next state (R181, R365), and so does every step; from this the statement O27. -/

namespace Sys2Proof.Proofs
open Sys2Proof Sys2Proof.Machine Sys2Proof.Laws

theorem ite_answers {c : Prop} [Decidable c] {a b : Res} (ha : ∃ t, a = .next t) (hb : ∃ t, b = .next t) :
    ∃ t, (if c then a else b) = .next t := by
  split
  · exact ha
  · exact hb

theorem execReductionDrain_answers (cmd : Nat) (s : State) : ∃ t, execReductionDrain cmd s = .next t := by
  unfold execReductionDrain
  split
  · exact ⟨_, rfl⟩
  next c _ =>
    split
    · exact ⟨_, rfl⟩
    next w block shifts _ =>
      refine ite_answers ⟨_, rfl⟩ (ite_answers ⟨_, rfl⟩ (ite_answers (ite_answers ⟨_, rfl⟩ ⟨_, rfl⟩) (ite_answers ⟨_, rfl⟩ ?_)))
      cases engineWrites (s.engineWho c) 4096 (blDst block) (drainBytes w _) s with
      | ok r => exact ⟨_, rfl⟩
      | error e => cases e <;> exact ⟨_, rfl⟩

/-- An arm that is written in steps is settled; the others end each of their branches in a next state. -/
theorem exec_answers (i : Instr) (s : State) : ∃ t, exec i s = .next t := by
  cases i with
  | add | sub | and | or | xor | sll | srl | sra | slt | sltu | min | max | minu | maxu | clz | ctz | popc | mul | mulh | mulhu
    | div | divu | rem | remu | addi | andi | ori | xori | slti | sltiu | slli | srli | srai | lui | auipc | jal | beq | bne
    | blt | bge | bltu | bgeu | vdrain | ljoin | lleave | ecall | ebreak | wfi | yield | ixset | ixbnd | ixstep | ixlane | nbset
    | poolMarker | rend | ract | radd | rshadd | rcopy | rclr | racc | rbr | rloop | notifyWrite | queueMap | dispatch
    | priorityPreemptTimeout | hartPreempt | hartPromotion | vrfBankDrowsy | vrfRefreshStep | wfiTimeout | kernelWatchdogExpiry
    | watchdogGraceExpiry | trapEntry | furlongCommit | furlongRewind | bloomSliceClear | regionAtHome | bankOrdinaryRequest
    | arbitrationWindowBoundary | powerBudgetExceeded | errorBankReadAndClear | flitReceive | nulFlitTimer | laneLockLoss
    | fonakRead | fonakPostedWrite | fonakAtomic | fonakRegion | fonakFenceMarker | fonakInterrupt | fonakCheckout
    | fonakCheckIn | fonakRecall | fonakCompletion | fonakMulticastWrite | eseqGapTimeout | resendRequest | planeDead
    | planeQuiesce | planeDrainComplete | planeRemap | planeResume | firmwareHeartbeat | deadmanRefresh | deadmanExpiry
    | class5Declare | claim | handoff | powerWrite | registerWrite | leaseWarning | leaseExpiry | jobcreate | jobend | setroot
    | inval | qstop | setqtab | kreg | setbar2 | setdev | setpcap | setmcast | attest | readlog | seterrmsg | jobstat | qrestart
    | repairs | packageReset | debuggerHalt | debuggerResume | errorMessageDelivered | resendsCompleteSignal =>
    exact ⟨_, rfl⟩
  | reductionDrain cmd => exact execReductionDrain_answers cmd s
  | jalr | eret | vdecl | vmode | rlka | rsync | powerGood | stackManagersReady | ordinaryRequestDataMoved | queueIdleTimeout
    | packetEnterWindow | packetLaunch | packetComplete | pageFaultService | jobEndByError | memoryFrontRequest | atomicAtHome
    | walkStart | walkObjectVisit | walkComplete | bankCommandStart | bankCommandComplete | rowOperationEnd
    | suspensionWindowEnd | matrixOperation | tcopyRow | tcopyComplete | tcopyStop | errorBankEvent | errorCountWindowEnd
    | completionTimeout | postedWriteTimeout | pcieAtomicopCompletion | repairCommit | coreReplace | rowSpareCopy | channelCopy
    | cacheRowSpare | scrubRead | sramRailChange | moduleRetrainEnd | routerCreditTimeout | firmwareWatchdogExpiry
    | frontEndsReady | bar2Read | bar2Write | channelCopyRow =>
    dsimp only [exec, execJalr, execEret, execVdecl, execVmode, execRlka, execRsync, execPowerGood, execStackManagersReady,
      execOrdinaryRequestDataMoved, execQueueIdleTimeout, execPacketEnterWindow, execPacketLaunch, execPacketComplete,
      execPageFaultService, execJobEndByError, execMemoryFrontRequest, execAtomicAtHome, execWalkStart, execWalkObjectVisit,
      execWalkComplete, execBankCommandStart, execBankCommandComplete, execRowOperationEnd, execSuspensionWindowEnd,
      execMatrixOperation, execTcopyRow, execTcopyComplete, execTcopyStop, execErrorBankEvent, execErrorCountWindowEnd,
      execCompletionTimeout, execPostedWriteTimeout, execPcieAtomicopCompletion, execRepairCommit, execCoreReplace,
      execRowSpareCopy, execChannelCopy, execCacheRowSpare, execScrubRead, execSramRailChange, execModuleRetrainEnd,
      execRouterCreditTimeout, execFirmwareWatchdogExpiry, execFrontEndsReady, execBar2Read, execBar2Write, execChannelCopyRow]
    repeat' split
    all_goals exact ⟨_, rfl⟩
  | _ => exact settle_next _ _

theorem runInstr_answers (s : State) (i : Instr) : ∃ t, s.runInstr i = .next t := by
  unfold State.runInstr
  refine ite_answers ⟨_, rfl⟩ ?_
  split
  · exact exec_answers _ _
  · exact ⟨_, rfl⟩
  · exact exec_answers _ _

theorem runHart_answers (s : State) : ∃ t, s.runHart = .next t := by
  unfold State.runHart
  split
  · exact ⟨_, rfl⟩
  · exact ⟨_, rfl⟩
  · exact ⟨_, rfl⟩
  next w t _ =>
    split
    · exact ⟨_, rfl⟩
    · exact runInstr_answers _ _

theorem hartTurn_answers (s : State) (uid : Nat) : ∃ t, s.hartTurn uid = .next t := by
  unfold State.hartTurn
  refine ite_answers ⟨_, rfl⟩ ?_
  split
  · exact ⟨_, rfl⟩
  · refine ite_answers (exec_answers _ _) (ite_answers (exec_answers _ _) (ite_answers ⟨_, rfl⟩ (ite_answers ?_ ⟨_, rfl⟩)))
    obtain ⟨u, ran⟩ := runHart_answers { s.focusOn uid with hart := { (s.focusOn uid).hart with held := false, fetched := true } }
    rw [ran]
    exact ⟨_, rfl⟩

theorem bankStep_answers (s : State) (b : Nat) : ∃ t, s.bankStep b = .next t := by
  unfold State.bankStep
  dsimp only
  split
  · refine ite_answers ⟨_, rfl⟩ (ite_answers ⟨_, rfl⟩ (ite_answers ⟨_, rfl⟩ ?_))
    split
    · exact exec_answers _ _
    · exact ⟨_, rfl⟩
  · exact ⟨_, rfl⟩

theorem turn_answers (s : State) (t : Turn) : ∃ u, s.turn t = .next u := by
  cases t with
  | hart uid => exact hartTurn_answers s uid
  | bank b => exact bankStep_answers s b
  | event i => exact exec_answers i s
  | engines => exact ⟨_, rfl⟩
  | duty => exact ⟨_, rfl⟩

theorem step_answers (s : State) : ∃ t, step s = .next t := by
  unfold step
  split
  · exact turn_answers _ _
  · exact turn_answers _ _

/-- Settles O27: a meaning written in steps is settled, every other arm and every kind of turn ends in a next state. -/
theorem everyStepAnswersNext : Obligations.EveryStepAnswersNext := by
  unfold Obligations.EveryStepAnswersNext
  exact ⟨step_answers, exec_answers⟩

end Sys2Proof.Proofs
end

