-- ==== Sys2Proof/Proofs/SystemInstructions.lean ====
section
/-! SUPPORT. System instructions, permitted CSR accesses and illegal words (R181, R186, R227, R228, R365): the statements O16, O17 and
O21. -/

namespace Sys2Proof.Proofs
open Sys2Proof Sys2Proof.Machine Sys2Proof.Laws

/-! ## ECALL, EBREAK, the pool marker and ERET (R186, R227, R369) -/

theorem wrapPc_wrapPc (v : Word) : wrapPc (wrapPc v) = wrapPc v := by
  rw [wrapPc, wrapPc, BitVec.and_assoc, BitVec.and_self]

/-- What a cause enters its handler with depends on the bits of EPC alone that a PC has. -/
theorem entered_of_wrapPc {s t : State} {c : BitVec 8} {vec : Bool} {epc va stride remain : Word}
    (h : Entered s c vec (wrapPc epc) va stride remain t) : Entered s c vec epc va stride remain t :=
  { h with epc := by rw [h.epc, wrapPc_wrapPc] }

/-- A cause raised at the PC, page faults aside. -/
theorem raise_cause_entered {s : State} (ht : s.takesTraps) {c : BitVec 8} {a b r : Word} (hp : c ≠ 5#8 ∧ c ≠ 6#8 ∧ c ≠ 7#8) :
    Entered s c false s.hart.pc a b r (s.raise (s.cause c a b r)) := by
  have h := raise_entered_of_given ht (v := s.cause c a b r) rfl rfl hp
  rwa [show (s.cause c a b r).epc = s.hart.pc from takesTraps_position ht] at h

/-- The number lies below the major opcode 0x7F (R186). -/
theorem wordOf_poolMarker (n : BitVec 25) : (wordOf (.poolMarker n)).toNat = 0x7F * 2 ^ 25 + n.toNat := by
  have lt := n.isLt
  show (0xFE000000#32 ||| field 0 n).toNat = _
  have number : (field 0 n).toNat = n.toNat := by
    rw [field, BitVec.shiftLeft_zero, BitVec.toNat_setWidth, Nat.mod_eq_of_lt (by omega)]
  rw [BitVec.toNat_or, number, Nat.mul_comm]
  exact (Nat.two_pow_add_eq_or_of_lt lt 0x7F).symm

theorem exec_ecall_entered {s : State} (ht : s.takesTraps) :
    ∃ u, exec .ecall s = .next u ∧ Entered s 0x12#8 false (s.hart.pc + 4#64) 0#64 0#64 0#64 u :=
  ⟨_, rfl, entered_of_wrapPc (raise_entered_of_given ht
    (v := { s.cause 0x12#8 0#64 0#64 0#64 with epc := wrapPc (s.hart.pc + 4#64) }) rfl rfl
    (show 0x12#8 ≠ 5#8 ∧ 0x12#8 ≠ 6#8 ∧ 0x12#8 ≠ 7#8 by decide))⟩

theorem exec_poolMarker_entered {s : State} (ht : s.takesTraps) (n : BitVec 25) : ∃ u, exec (.poolMarker n) s = .next u ∧
    Entered s 2#8 false s.hart.pc (BitVec.ofNat 64 (0x7F * 2 ^ 25 + n.toNat)) 0#64 0#64 u := by
  rw [← wordOf_poolMarker, ← zext_eq_ofNat]
  exact ⟨_, rfl, raise_cause_entered ht (by decide)⟩

theorem exec_eret_inside {s : State} (hm : s.hart.csr.hm = true) : exec .eret s = .next s.trapReturn := if_pos hm

theorem exec_eret_outside {s : State} (hm : s.hart.csr.hm = false) :
    exec .eret s = .next (s.raise (s.cause 3#8 0#64 0#64 0#64)) := if_neg (by simp [hm])

/-- Settles O16: each instruction by the cause that it raises, ERET inside a handler by its return. -/
theorem systemInstructions : Obligations.SystemInstructions := by
  unfold Obligations.SystemInstructions
  refine ⟨fun s ht => ⟨exec_ecall_entered ht, ⟨_, rfl, raise_cause_entered ht (by decide)⟩, exec_poolMarker_entered ht⟩, ?_, ?_⟩
  · exact fun s hm => ⟨_, exec_eret_inside hm, rfl, rfl, rfl, rfl, rfl, rfl, rfl, fun _ => rfl⟩
  · exact fun s hm ht => ⟨_, exec_eret_outside hm, raise_cause_entered ht (by decide)⟩

/-! ## Permitted CSR accesses (R170, R228) -/

/-- FLAGS alone waits, and for the matrix queue (R174, R304). -/
theorem csr_not_held {s : State} {n : BitVec 12} (hq : n = 9#12 → s.hart.matQ = []) : ¬(n == 9#12 && s.hart.matQ != []) = true := by
  intro h
  obtain ⟨flags, busy⟩ := Bool.and_eq_true_iff.1 h
  exact bne_iff_ne.1 busy (hq (beq_iff_eq.1 flags))

section
variable {s : State} {n : BitVec 12} {cls : CsrClass} (hc : csrClass n = some cls) (hq : n = 9#12 → s.hart.matQ = [])
  (i : Instr) (d : BitVec 5)
include hc hq

theorem csrAccess_read : csrAccess i d n none s = .ok ((), s.result d (s.readCsr n)) := by
  rw [csrAccess, bind_ok (run_get s), hc]
  dsimp only
  rw [if_neg (by simp), if_neg (csr_not_held hq), run_set]

theorem csrAccess_write (hw : cls = .rw ∨ (cls = .h ∧ s.hart.csr.hm = true)) (f : Word → Word) :
    csrAccess i d n (some f) s = .ok ((), (s.writeCsr n (f (s.readCsr n))).result d (s.readCsr n)) := by
  have allowed : ¬((some f).isSome && (cls == .r || (cls == .h && !s.hart.csr.hm))) = true := by
    rcases hw with rfl | ⟨rfl, hm⟩
    · exact Bool.false_ne_true
    · simp [hm]
  rw [csrAccess, bind_ok (run_get s), hc]
  dsimp only
  rw [if_neg allowed, if_neg (csr_not_held hq), run_set]

theorem settle_csr_read : ∃ u, settle (csrAccess i d n none) s = .next u ∧ Wrote s.clearReplies d (s.readCsr n) u := by
  rw [settle_ok (csrAccess_read hc hq i d), clear_result]
  exact ⟨_, rfl, wrote_result ..⟩

theorem settle_csr_write (hw : cls = .rw ∨ (cls = .h ∧ s.hart.csr.hm = true)) (f : Word → Word) :
    ∃ u, settle (csrAccess i d n (some f)) s = .next u ∧
      Wrote (s.writeCsr n (f (s.readCsr n))).clearReplies d (s.readCsr n) u := by
  rw [settle_ok (csrAccess_write hc hq i d hw f), clear_result]
  exact ⟨_, rfl, wrote_result ..⟩

end

/-- Settles O17: a read and a write of a permitted class; CSRS and CSRC with x0 read. -/
theorem csrAccess : Obligations.CsrAccess := by
  unfold Obligations.CsrAccess
  refine fun s n cls hc hq => ⟨fun d => settle_csr_read hc hq _ d,
    fun d => ⟨settle_csr_read hc hq (.csrs d 0#5 n) d, settle_csr_read hc hq (.csrc d 0#5 n) d⟩,
    fun hw d a => ⟨settle_csr_write hc hq _ d hw _, fun ha => ⟨?_, ?_⟩⟩⟩
  · rw [exec_csrs_eq s d n ha]
    exact settle_csr_write hc hq _ d hw _
  · rw [exec_csrc_eq s d n ha]
    exact settle_csr_write hc hq _ d hw _

/-! ## Words that do not decode (R181) -/

/-- Counting an issue leaves what a trap entry is stated of. -/
theorem entered_afterTurn {s t : State} {c : BitVec 8} {vec : Bool} {epc va stride remain : Word}
    (h : Entered s c vec epc va stride remain t) (ready : List Nat) : Entered s c vec epc va stride remain (t.afterTurn ready) := by
  obtain ⟨hm, cause, epc, elem, fault, pc, kept, memory⟩ := h
  unfold State.afterTurn
  split
  · exact ⟨hm, cause, epc, elem, fault, pc, kept, memory⟩
  · exact ⟨hm, cause, epc, elem, fault, pc, kept, memory⟩

theorem runHart_of_undecoded {f u : State} {w : BitVec 32} {e : DecodeError} (hf : fetchWord f.who f.hart.pc f = .ok (w, u))
    (hd : decodeBytes (bytesOfWord w) = .error e) : f.runHart = .next (u.raise (u.illegalVals w)) := by
  simp [State.runHart, hf, hd]

theorem raise_illegal_entered {s : State} (ht : s.takesTraps) (w : BitVec 32) :
    Entered s 1#8 (vectorMajor w) s.hart.pc (zext w) 0#64 0#64 (s.raise (s.illegalVals w)) := by
  have h := raise_entered_of_given ht (v := s.illegalVals w) rfl rfl (show 1#8 ≠ 5#8 ∧ 1#8 ≠ 6#8 ∧ 1#8 ≠ 7#8 by decide)
  rwa [show (s.illegalVals w).epc = s.hart.pc from takesTraps_position ht] at h

theorem step_of_undecoded {s t f u : State} {rest : List Turn} {w : BitVec 32} {e : DecodeError}
    (ha : s.agenda = .hart s.hart.uid :: rest) (ht : t = ({ s with agenda := rest } : State).clock) (hm : t.mayTurn)
    (hf : f = { t with hart := { t.hart with held := false, fetched := true } })
    (fetched : fetchWord f.who f.hart.pc f = .ok (w, u)) (hd : decodeBytes (bytesOfWord w) = .error e) :
    step s = .next ((u.raise (u.illegalVals w)).afterTurn (t.readyBeside t.hart)) := by
  subst hf
  have uid : t.hart.uid = s.hart.uid := ht ▸ clock_uid _
  rw [step_of_agenda ha, ← ht, ← uid]
  exact (hartTurn_of_mayTurn hm).trans (congrArg (afterRun t) (runHart_of_undecoded fetched hd))

/-! ## Reserved field values (R181) -/

/-- The steps find the instruction illegal before they do anything. -/
def Refuses (i : Instr) (s : State) {α : Type} (m : M α) : Prop := m s = .error (.trap s (s.illegalVals (wordOf i)))

section
variable {i : Instr} {s : State} {α β : Type}

theorem refuses_illegal : Refuses i s (M.illegal i : M α) := rfl

theorem refuses_bind {m : M α} (h : Refuses i s m) (f : α → M β) : Refuses i s (m >>= f) := bind_error h f

theorem refuses_get {f : State → M β} (h : Refuses i s (f s)) : Refuses i s ((get : M State) >>= f) := by
  unfold Refuses
  rw [bind_ok (run_get s)]
  exact h

theorem refuses_if {c : Prop} [Decidable c] (hc : c) {m : M α} : Refuses i s (if c then M.illegal i else m) := by
  rw [if_pos hc]
  exact refuses_illegal

variable (h : i.wf = false)
include h

theorem scalarAtomic_refuses (op : BitVec 4) (d a b : BitVec 5) (ms l q : BitVec 1) (sc : BitVec 2) :
    Refuses i s (scalarAtomic i op d a b ms l q sc) := refuses_if (by simp [h])

theorem vectorIn_refuses (md : BitVec 2) (v : VShape) : Refuses i s (vectorIn i md v) :=
  refuses_get (refuses_if (by simp [h]))

theorem vmemIn_refuses (md : BitVec 2) (d : BitVec 6) (a : BitVec 5) (form : VForm) : Refuses i s (vmemIn i md d a form) :=
  refuses_get (refuses_if (by simp [h]))

theorem maskIn_refuses (srcs : List (BitVec 6)) : Refuses i s (maskIn i srcs) := refuses_if (by simp [h])

end

/-- Each instruction that can hold a reserved value checks it first. -/
theorem exec_refuses {i : Instr} (h : i.wf = false) (he : encodeWord i ≠ none) (s : State) :
    ∃ m, exec i s = settle m s ∧ Refuses i s m := by
  cases i with
  | ldref | spub | alre | fence | tstat => exact ⟨_, rfl, refuses_if (by simp [h])⟩
  | amoadd | amoswap | amocas | amomin | amomax | amominu | amomaxu | amoand | amoor | amoxor =>
    exact ⟨_, rfl, scalarAtomic_refuses h _ _ _ _ _ _ _ _⟩
  | vcmpeq | vcmpne | vcmplt | vcmple | vcvt => exact ⟨_, rfl, refuses_bind (vectorIn_refuses h _ _) _⟩
  | mand | mor | mxor | mnot | mpop | mfirst | msetvl => exact ⟨_, rfl, refuses_bind (maskIn_refuses h _) _⟩
  | vldseg | vstseg => exact ⟨_, rfl, refuses_bind (vmemIn_refuses h _ _ _ _) _⟩
  | acst | tbld | tcopy => exact ⟨_, rfl, refuses_get (refuses_if (by simp [h]))⟩
  | radd | rshadd | racc => exact absurd rfl he
  | _ => cases h

/-- Settles O21: a word without an instruction raises its cause at the fetch, an ill-formed instruction at its first check. -/
theorem illegalWordsTrap : Obligations.IllegalWordsTrap := by
  unfold Obligations.IllegalWordsTrap
  constructor
  · intro s t f u rest w e ha ht hm hf fetched hd hu
    rw [← vectorMajor_eq, ← zext_eq_ofNat]
    exact ⟨_, step_of_undecoded ha ht hm hf fetched hd, entered_afterTurn (raise_illegal_entered hu w) _⟩
  · intro s i w hi he ht
    obtain ⟨m, run, refuses⟩ := exec_refuses hi (by simp [he]) s
    have word : wordOf i = w := by rw [wordOf, he, Option.getD_some]
    rw [← vectorMajor_eq, ← zext_eq_ofNat, run, ← word]
    exact settle_illegal ht refuses

end Sys2Proof.Proofs
end

