-- ==== Sys2Proof/Proofs/ElementToScalar.lean ====
section
/-! SUPPORT. VMVX (R178, R244): the register that its operand names, the element that it reads and what it leaves: the statement O30. -/

namespace Sys2Proof.Proofs
open Sys2Proof Sys2Proof.Machine Sys2Proof.Laws

/-! ## The element -/

/-- An element as VMVX extends it: the signed integer types by sign, every other by zeros. -/
def extended (m : Mode) (n : Nat) : Word :=
  match etypeOf m.etype with
  | some (.int k true) => BitVec.ofInt 64 (toSigned k n)
  | _ => BitVec.ofNat 64 n

theorem etypeOf_of_le_three {c : Nat} (h : c ≤ 3) : ∃ k, etypeOf c = some (.int k true) := by
  interval_cases c <;> exact ⟨_, rfl⟩

theorem le_three_of_etypeOf {c k : Nat} (h : etypeOf c = some (.int k true)) : c ≤ 3 := by
  unfold etypeOf at h
  split at h <;> simp at h ⊢

/-- The ETYPE codes 0 to 3 are the signed integers. -/
theorem extended_eq (m : Mode) (n : Nat) :
    extended m n = if m.etype ≤ 3 then BitVec.ofInt 64 (toSigned m.width n) else BitVec.ofNat 64 n := by
  by_cases signed : m.etype ≤ 3
  · obtain ⟨k, type⟩ := etypeOf_of_le_three signed
    simp [extended, Mode.width, EType.width, type, signed]
  · rw [if_neg signed]
    unfold extended
    split
    · next k type => exact absurd (le_three_of_etypeOf type) signed
    · rfl

theorem extended_zero (m : Mode) : extended m 0 = 0#64 := by
  rw [extended_eq, toSigned, Nat.zero_mod, if_pos (Nat.two_pow_pos _)]
  exact ite_self _

/-- The register of element `e` of an operand, without any check. -/
def laneSource (h : Hart) (w spec e : Nat) : Nat :=
  if spec ≤ 47 then spec
  else if ixLane (h.ixOf spec) then h.laneReg (h.ixOf spec) w e else ixBase (h.ixOf spec) + ixCur (h.ixOf spec)

theorem laneSource_eq (h : Hart) (w spec e : Nat) : laneSource h w spec e =
    if spec ≤ 47 then spec
    else if h.perLane spec then h.laneReg (h.ixOf spec) w e else ixBase (h.ixOf spec) + ixCur (h.ixOf spec) := by
  unfold laneSource Hart.perLane
  split
  · rfl
  · next indirect => rw [decide_eq_true (show 48 ≤ spec by omega), Bool.true_and]

/-! ## No poison -/

theorem poisonV_of_vPsn {h : Hart} (hp : h.vPsn = []) (r : Regs) (w : Nat) (es : List Nat) : h.poisonV r w es = [] :=
  if_pos hp

theorem poisonLanes_of_vPsn {h : Hart} (hp : h.vPsn = []) (w : Nat) (es specs : List Nat) : h.poisonLanes w es specs = [] := by
  simp [Hart.poisonLanes, poisonV_of_vPsn hp]

/-! ## The instruction -/

/-- A state after VMVX of a value. -/
def afterVmvx (s : State) (d : BitVec 5) (spec : Nat) (x : Word) : State :=
  { s with hart := ((s.hart.setX d x).raiseFlags 0#6).stepIndices [spec] }.advance

theorem exec_vmvx (s : State) (m : BitVec 2) (d b : BitVec 5) (v : BitVec 6) (hp : s.hart.vPsn = [])
    (hr : (s.hart.perLane v.toNat = true ∧ s.hart.vlMax ≤ (s.getX b).toNat) ∨
      s.hart.regFails (s.mode m).width v.toNat (s.getX b).toNat = none) :
    exec (.vmvx m d v b) s = .next (afterVmvx s d v.toNat (extended (s.mode m) (if (s.getX b).toNat < s.hart.vlMax
      then getElt (s.hart.getV (laneSource s.hart (s.mode m).width v.toNat (s.getX b).toNat)) (s.mode m).width (s.getX b).toNat
      else 0))).clearReplies := by
  have checked : (if s.hart.perLane v.toNat && decide ((s.getX b).toNat ≥ s.hart.vlMax) then none
      else s.hart.regFails (s.mode m).width v.toNat (s.getX b).toNat) = none := by
    rcases hr with ⟨lane, above⟩ | fits
    · exact if_pos (by simp [lane, above])
    · rw [fits, ite_self]
  refine settle_ok ?_
  rw [bind_ok (run_get s)]
  dsimp only
  rw [checked]
  dsimp only
  rw [← laneSource_eq]
  by_cases below : (s.getX b).toNat < s.hart.vlMax
  · simp only [if_pos below, poisonV_of_vPsn hp, poisonLanes_of_vPsn hp]
    rfl
  · simp only [if_neg below]
    rfl

/-- The hart after VMVX: xd, the index registers, the pc and the start at element 0 are all that it writes. -/
theorem afterVmvx_hart (s : State) (d : BitVec 5) (spec : Nat) (x : Word) : (afterVmvx s d spec x).hart =
    { (s.hart.setX d x).atStart with ix := (s.hart.stepIndices [spec]).ix, pc := wrapPc (s.hart.pc + 4#64) } := by
  have noFlags : (s.hart.setX d x).raiseFlags 0#6 = s.hart.setX d x := by
    have same : (s.hart.setX d x).csr.flags ||| zext 0#6 = (s.hart.setX d x).csr.flags := BitVec.or_zero
    rw [Hart.raiseFlags, same]
  have indices : (s.hart.setX d x).stepIndices [spec] = { s.hart.setX d x with ix := (s.hart.stepIndices [spec]).ix } :=
    stepIndices_eq (Hart_setX_ix ..) _
  rw [afterVmvx, noFlags, indices, ← Hart_setX_pc s.hart d x]
  rfl

theorem getX_afterVmvx (s : State) (d q : BitVec 5) (spec : Nat) (x : Word) :
    (afterVmvx s d spec x).getX q = if q = d ∧ d ≠ 0#5 then x else s.getX q := by
  rw [State.getX, afterVmvx_hart]
  exact hart_getX_setX s.hart d q x

/-- Settles O30: the operand's register is read without its checks, and the element is extended by the type of the mode. -/
theorem elementToScalar : Obligations.ElementToScalar := by
  unfold Obligations.ElementToScalar
  rintro s m d b v e r w rfl rfl hp hr rfl
  refine ⟨_, exec_vmvx s m d b v hp hr, fun q other => ?_, ?_, ?_, ?_, ?_, fun nonzero => ?_, fun pa => ?_⟩
  · rw [getX_clearReplies, getX_afterVmvx, if_neg (fun h => other h.1)]
  · simp [afterVmvx_hart]
  · simp [afterVmvx_hart]
  · simp [afterVmvx_hart]
  · simp [afterVmvx_hart]
  · rw [getX_clearReplies, getX_afterVmvx, if_pos ⟨rfl, nonzero⟩]
    split
    · exact extended_eq ..
    · exact extended_zero _
  · rw [State.byteAt, State_clearReplies_mm]
    rfl

end Sys2Proof.Proofs
end

