-- ==== Sys2Proof/Proofs/IntegerInstructions.lean ====
section
/-! SUPPORT. The scalar unit's operations as integer arithmetic (R204 to R206) and the words that its tables reserve (R181): the
statement O1. -/

namespace Sys2Proof.Proofs
open Sys2Proof Sys2Proof.Machine Sys2Proof.Laws

/-! ## Sign-extended fields -/

theorem sext_eq_ofInt {n : Nat} (v : BitVec n) : sext v = BitVec.ofInt 64 v.toInt := rfl

theorem toInt_sext {n : Nat} (v : BitVec n) (h : n ≤ 64) : (sext v).toInt = v.toInt := BitVec.toInt_signExtend_of_le h

theorem sext_shiftLeft {n : Nat} (v : BitVec n) (k : Nat) : sext v <<< k = BitVec.ofInt 64 (2 ^ k * v.toInt) := by
  have two : BitVec.ofInt 64 (2 ^ k) = BitVec.twoPow 64 k := by
    rw [show (2 ^ k : Int) = ((2 ^ k : Nat) : Int) by push_cast; rfl, BitVec.ofInt_natCast]
    exact BitVec.eq_of_toNat_eq (by rw [BitVec.toNat_ofNat, BitVec.toNat_twoPow])
  rw [BitVec.shiftLeft_eq_mul_twoPow, BitVec.ofInt_mul, two, BitVec.mul_comm]
  rfl

/-- The immediate of LUI and AUIPC is shifted and then sign-extended from bit 31 (R206). -/
theorem upperImm_eq_ofInt (i : BitVec 20) : upperImm i = BitVec.ofInt 64 (BitVec.ofNat 32 (i.toNat * 4096)).toInt := by
  have placed : i ++ 0#12 = BitVec.ofNat 32 (i.toNat * 4096) := by
    have lt := i.isLt
    refine BitVec.eq_of_toNat_eq ?_
    rw [BitVec.toNat_append, BitVec.toNat_ofNat, Nat.shiftLeft_eq, BitVec.toNat_ofNat,
      Nat.mod_eq_of_lt (a := i.toNat * 4096) (by omega)]
    exact Nat.or_zero _
  rw [upperImm, placed]
  rfl

/-! ## Operations (R204) -/

theorem truth_eq_boolWord (p : Prop) [Decidable p] : boolWord (decide p) = truth p := by simp [boolWord, truth]

theorem shiftCount_eq_mod (b : Word) : shiftCount b = b.toNat % 64 := by simp [shiftCount, bitsOf]

section
variable (a b : Word)

theorem add_eq_ofNat : a + b = BitVec.ofNat 64 (a.toNat + b.toNat) := by simp [BitVec.ofNat_add]

theorem add_ofInt_eq (i : Int) : a + BitVec.ofInt 64 i = BitVec.ofInt 64 (a.toInt + i) := by
  rw [BitVec.ofInt_add, BitVec.ofInt_toInt]

theorem sub_eq_ofInt : a - b = BitVec.ofInt 64 (a.toInt - b.toInt) :=
  BitVec.eq_of_toInt_eq (by rw [BitVec.toInt_sub, BitVec.toInt_ofInt])

theorem mul_eq_ofInt : a * b = BitVec.ofInt 64 (a.toInt * b.toInt) := by
  rw [BitVec.ofInt_mul, BitVec.ofInt_toInt, BitVec.ofInt_toInt]

theorem shiftLeft_eq_ofNat (n : Nat) : a <<< n = BitVec.ofNat 64 (a.toNat * 2 ^ n) :=
  BitVec.eq_of_toNat_eq (by rw [BitVec.toNat_shiftLeft, Nat.shiftLeft_eq, BitVec.toNat_ofNat])

theorem ushiftRight_eq_ofNat (n : Nat) : a >>> n = BitVec.ofNat 64 (a.toNat / 2 ^ n) := by
  rw [← Nat.shiftRight_eq_div_pow, ← BitVec.toNat_ushiftRight, BitVec.ofNat_toNat, BitVec.setWidth_eq]

theorem sshiftRight_eq_ofInt (n : Nat) : a.sshiftRight n = BitVec.ofInt 64 (a.toInt / (2 ^ n : Nat)) := by
  rw [← Int.shiftRight_eq_div_pow, ← BitVec.toInt_sshiftRight, BitVec.ofInt_toInt]

theorem min_eq_ofInt : (if b.slt a then b else a) = BitVec.ofInt 64 (min a.toInt b.toInt) := by
  by_cases less : b.toInt < a.toInt
  · simp [BitVec.slt, less, min_eq_right less.le]
  · simp [BitVec.slt, less, min_eq_left (not_lt.1 less)]

theorem max_eq_ofInt : (if a.slt b then b else a) = BitVec.ofInt 64 (max a.toInt b.toInt) := by
  by_cases less : a.toInt < b.toInt
  · simp [BitVec.slt, less, max_eq_right less.le]
  · simp [BitVec.slt, less, max_eq_left (not_lt.1 less)]

theorem min_eq_ofNat : (if b.ult a then b else a) = BitVec.ofNat 64 (min a.toNat b.toNat) := by
  by_cases less : b.toNat < a.toNat
  · simp [BitVec.ult, less, min_eq_right less.le]
  · simp [BitVec.ult, less, min_eq_left (not_lt.1 less)]

theorem max_eq_ofNat : (if a.ult b then b else a) = BitVec.ofNat 64 (max a.toNat b.toNat) := by
  by_cases less : a.toNat < b.toNat
  · simp [BitVec.ult, less, max_eq_right less.le]
  · simp [BitVec.ult, less, max_eq_left (not_lt.1 less)]

theorem toInt_eq_zero_iff : b.toInt = 0 ↔ b = 0#64 := ⟨fun h => BitVec.eq_of_toInt_eq h, fun h => h ▸ rfl⟩

theorem toNat_eq_zero_iff : b.toNat = 0 ↔ b = 0#64 := ⟨fun h => BitVec.eq_of_toNat_eq h, fun h => h ▸ rfl⟩

/-- Division by zero gives all ones; the quotient of the least number by -1 wraps (R79, R204). -/
theorem quotS_eq : quotS a b = if b.toInt = 0 then BitVec.ofInt 64 (-1) else BitVec.ofInt 64 (a.toInt.tdiv b.toInt) := by
  have quotient : a.sdiv b = BitVec.ofInt 64 (a.toInt.tdiv b.toInt) :=
    BitVec.eq_of_toInt_eq (by rw [BitVec.toInt_sdiv, BitVec.toInt_ofInt])
  rw [quotS, if_congr (toInt_eq_zero_iff b).symm rfl rfl, quotient]
  rfl

theorem quotU_eq : quotU a b = if b.toNat = 0 then BitVec.ofInt 64 (-1) else BitVec.ofNat 64 (a.toNat / b.toNat) := by
  rw [quotU, if_congr (toNat_eq_zero_iff b).symm rfl rfl, ← BitVec.toNat_udiv, BitVec.ofNat_toNat, BitVec.setWidth_eq]
  rfl

theorem remS_eq : remS a b = if b.toInt = 0 then a else BitVec.ofInt 64 (a.toInt.tmod b.toInt) := by
  rw [remS, if_congr (toInt_eq_zero_iff b).symm rfl rfl, ← BitVec.toInt_srem, BitVec.ofInt_toInt]

theorem remU_eq : remU a b = if b.toNat = 0 then a else BitVec.ofNat 64 (a.toNat % b.toNat) := by
  rw [remU, if_congr (toNat_eq_zero_iff b).symm rfl rfl, ← BitVec.toNat_umod, BitVec.ofNat_toNat, BitVec.setWidth_eq]

end

/-! ## Counts of bits (R204) -/

theorem length_takeWhile_range {p : Nat → Bool} {n m : Nat} (le : m ≤ n) (all : ∀ k < m, p k = true)
    (stop : m < n → p m = false) : ((List.range n).takeWhile p).length = m := by
  obtain ⟨k, rfl⟩ := Nat.exists_eq_add_of_le le
  rw [List.range_add, List.takeWhile_append_of_pos (by simpa using all), List.length_append, List.length_range]
  cases k with
  | zero => simp
  | succ k =>
    rw [List.range_succ_eq_map, List.map_cons, List.takeWhile_cons_of_neg (by simp [stop]), List.length_nil]
    rfl

section
variable (a : Word)

theorem leadingZeros_eq_length :
    leadingZeros a = BitVec.ofNat 64 (((List.range 64).takeWhile (fun k => !a.getLsbD (63 - k))).length) := by
  rw [leadingZeros]
  by_cases zero : a = 0#64
  · subst zero
    rfl
  · have nonzero : a.toNat ≠ 0 := fun h => zero (BitVec.eq_of_toNat_eq h)
    have below : a.toNat.log2 < 64 := (Nat.log2_lt nonzero).2 a.isLt
    rw [if_neg zero, length_takeWhile_range (m := 63 - a.toNat.log2) (by omega) (fun k hk => ?above) (fun _ => ?highest)]
    case above =>
      rw [BitVec.getLsbD, Nat.testBit_lt_two_pow ((Nat.log2_lt nonzero).1 (by omega))]
      rfl
    case highest =>
      rw [show 63 - (63 - a.toNat.log2) = a.toNat.log2 by omega, BitVec.getLsbD, Nat.testBit_log2 nonzero]
      rfl

theorem trailingZeros_eq_length :
    trailingZeros a = BitVec.ofNat 64 (((List.range 64).takeWhile (fun k => !a.getLsbD k)).length) := by
  rw [trailingZeros, lowBit]
  cases first : (List.range 64).find? (fun i => a.toNat.testBit i) with
  | none =>
    rw [length_takeWhile_range (p := fun k => !a.getLsbD k) le_rfl (List.find?_range_eq_none.1 first) (fun h => absurd h (lt_irrefl _))]
    rfl
  | some m =>
    obtain ⟨set, mem, clear⟩ := List.find?_range_eq_some.1 first
    rw [length_takeWhile_range (p := fun k => !a.getLsbD k) (List.mem_range.1 mem).le clear (fun _ => congrArg not set)]
    rfl

theorem countOnes_eq_length : countOnes a = BitVec.ofNat 64 (((List.range 64).filter (fun k => a.getLsbD k)).length) := by
  rw [countOnes, popCount, List.countP_eq_length_filter]
  rfl

end

/-! ## The instructions -/

/-- An integer instruction meets its rule when it answers a result of the value that the rule gives. -/
theorem wrote_of_rule {s : State} {i : Instr} {d d' : BitVec 5} {v v' w : Word} (rule : some (d, v) = some (d', v'))
    (run : exec i s = .next (s.result d w)) (value : w = v) : ∃ t, exec i s = .next t ∧ Wrote s d' v' t := by
  obtain ⟨rfl, rfl⟩ := Prod.mk.inj (Option.some.inj rule)
  exact wrote_of_result run value

theorem exec_integer {s : State} {i : Instr} {d : BitVec 5} {v : Word} (h : integerRule s.hart.pc s.getX i = some (d, v)) :
    ∃ t, exec i s = .next t ∧ Wrote s d v t := by
  cases i with
  | add => exact wrote_of_rule h rfl (add_eq_ofNat ..)
  | sub => exact wrote_of_rule h rfl (sub_eq_ofInt ..)
  | and | or | xor | mulh | mulhu | andi | ori | xori => exact wrote_of_rule h rfl rfl
  | sll => exact wrote_of_rule h rfl ((shiftCount_eq_mod _).symm ▸ shiftLeft_eq_ofNat ..)
  | srl => exact wrote_of_rule h rfl ((shiftCount_eq_mod _).symm ▸ ushiftRight_eq_ofNat ..)
  | sra => exact wrote_of_rule h rfl ((shiftCount_eq_mod _).symm ▸ sshiftRight_eq_ofInt ..)
  | slt | sltu => exact wrote_of_rule h rfl (truth_eq_boolWord _)
  | min => exact wrote_of_rule h rfl (min_eq_ofInt ..)
  | max => exact wrote_of_rule h rfl (max_eq_ofInt ..)
  | minu => exact wrote_of_rule h rfl (min_eq_ofNat ..)
  | maxu => exact wrote_of_rule h rfl (max_eq_ofNat ..)
  | clz => exact wrote_of_rule h rfl (leadingZeros_eq_length _)
  | ctz => exact wrote_of_rule h rfl (trailingZeros_eq_length _)
  | popc => exact wrote_of_rule h rfl (countOnes_eq_length _)
  | mul => exact wrote_of_rule h rfl (mul_eq_ofInt ..)
  | div => exact wrote_of_rule h rfl (quotS_eq ..)
  | divu => exact wrote_of_rule h rfl (quotU_eq ..)
  | rem => exact wrote_of_rule h rfl (remS_eq ..)
  | remu => exact wrote_of_rule h rfl (remU_eq ..)
  | addi => exact wrote_of_rule h rfl (add_ofInt_eq ..)
  | slti d a imm =>
    refine wrote_of_rule h rfl ?_
    rw [BitVec.slt, toInt_sext imm (by decide), truth_eq_boolWord]
  | sltiu => exact wrote_of_rule h rfl (truth_eq_boolWord _)
  | slli => exact wrote_of_rule h rfl (shiftLeft_eq_ofNat ..)
  | srli => exact wrote_of_rule h rfl (ushiftRight_eq_ofNat ..)
  | srai => exact wrote_of_rule h rfl (sshiftRight_eq_ofInt ..)
  | lui => exact wrote_of_rule h rfl (upperImm_eq_ofInt _)
  | auipc => exact wrote_of_rule h rfl (congrArg _ (upperImm_eq_ofInt _))
  | _ => cases h

/-! ## Reserved words (R204, R205) -/

/-- A field of `n` bits of a word, from bit `lo` up. -/
abbrev fieldAt (w : BitVec 32) (lo n : Nat) : Nat := w.toNat / 2 ^ lo % 2 ^ n

/-- A row looks at every bit of a field. -/
abbrev Fixes (r : Row) (lo n : Nat) : Prop := r.mask.extractLsb' lo n = BitVec.allOnes n

theorem fieldAt_of_hits {r : Row} {lo n : Nat} (fixed : Fixes r lo n) {w : BitVec 32} (hit : r.hits w = true) :
    fieldAt w lo n = fieldAt r.pat lo n := by
  have masked : w &&& r.mask = r.pat := by simpa [Row.hits] using hit
  have field : w.extractLsb' lo n = r.pat.extractLsb' lo n := by
    rw [← masked, BitVec.extractLsb'_and, fixed, BitVec.and_allOnes]
  simpa [Nat.shiftRight_eq_div_pow] using congrArg BitVec.toNat field

/-- A row of the majors 0x01, 0x02 and 0x09 fixes the fields of which R204 and R205 reserve values, at a value that they assign. -/
abbrev AssignsFunction (r : Row) : Prop :=
  Fixes r 25 7 ∧
  (fieldAt r.pat 25 7 = 1 → Fixes r 0 10 ∧ fieldAt r.pat 0 10 ≤ 16 ∧
    (14 ≤ fieldAt r.pat 0 10 → Fixes r 10 5 ∧ fieldAt r.pat 10 5 = 0)) ∧
  (fieldAt r.pat 25 7 = 2 → Fixes r 0 10 ∧ fieldAt r.pat 0 10 ≤ 6) ∧
  (fieldAt r.pat 25 7 = 9 → Fixes r 12 3 ∧ fieldAt r.pat 12 3 ≤ 2 ∧ Fixes r 6 6 ∧ fieldAt r.pat 6 6 = 0)

theorem rows_assignFunction : ∀ r ∈ rows, AssignsFunction r := by decide +kernel

/-- A word that decodes holds no reserved value in the function fields of these majors. -/
theorem function_of_decodeWord {w : BitVec 32} {i : Instr} (h : decodeWord w = .ok i) :
    (fieldAt w 25 7 = 1 → fieldAt w 0 10 ≤ 16 ∧ (14 ≤ fieldAt w 0 10 → fieldAt w 10 5 = 0)) ∧
    (fieldAt w 25 7 = 2 → fieldAt w 0 10 ≤ 6) ∧ (fieldAt w 25 7 = 9 → fieldAt w 12 3 ≤ 2 ∧ fieldAt w 6 6 = 0) := by
  obtain ⟨r, mem, hit, -⟩ := row_of_decodeWord h
  obtain ⟨major, one, two, nine⟩ := rows_assignFunction r mem
  rw [fieldAt_of_hits major hit]
  refine ⟨fun op => ?_, fun op => ?_, fun op => ?_⟩
  · obtain ⟨fixed, assigned, unary⟩ := one op
    rw [fieldAt_of_hits fixed hit]
    refine ⟨assigned, fun above => ?_⟩
    obtain ⟨source, zero⟩ := unary above
    rw [fieldAt_of_hits source hit, zero]
  · obtain ⟨fixed, assigned⟩ := two op
    rwa [fieldAt_of_hits fixed hit]
  · obtain ⟨shift, assigned, rest, zero⟩ := nine op
    rw [fieldAt_of_hits shift hit, fieldAt_of_hits rest hit]
    exact ⟨assigned, zero⟩

/-- Settles O1: each instruction by its operation as integer arithmetic; a reserved word has no row in the decoder's table. -/
theorem integerResults : Obligations.IntegerResults := by
  unfold Obligations.IntegerResults
  refine ⟨fun s i d v => exec_integer, ?_⟩
  rintro w op fn rfl rfl reserved
  cases decoded : decodeWord w with
  | error e => exact ⟨e, rfl⟩
  | ok i =>
    have lt := w.isLt
    obtain ⟨one, two, nine⟩ := function_of_decodeWord decoded
    simp only [fieldAt] at one two nine
    omega

end Sys2Proof.Proofs
end

