-- ==== Sys2Proof/Proofs/BranchesAndJumps.lean ====
section
/-! SUPPORT. Targets, links and traps of branches and jumps (R207, R208): the statement O2. -/

namespace Sys2Proof.Proofs
open Sys2Proof Sys2Proof.Machine Sys2Proof.Laws

/-! ## Targets modulo 2^57 (R207) -/

theorem wrapPc_add_ofInt (pc : Word) (k : Int) :
    wrapPc (pc + BitVec.ofInt 64 k) = BitVec.ofInt 64 (((pc.toNat : Int) + k) % 2 ^ 57) := by
  have value : (((pc + BitVec.ofInt 64 k).toNat % 2 ^ 57 : Nat) : Int) = ((pc.toNat : Int) + k) % 2 ^ 57 := by
    rw [BitVec.toNat_add, BitVec.toNat_ofInt]
    omega
  rw [wrapPc_eq_mod, ← BitVec.ofInt_natCast, value]

theorem branchTarget_eq {n : Nat} (pc : Word) (i : BitVec n) : branchTarget pc i = pcPlus pc i.toInt := by
  rw [branchTarget, sext_shiftLeft, wrapPc_add_ofInt]
  rfl

theorem wrapPc_add_four (pc : Word) : wrapPc (pc + 4#64) = pcPlus pc 1 := wrapPc_add_ofInt pc 4

/-! ## Where an instruction goes -/

theorem jumped_setPc (s : State) (pc : Word) : Jumped s none pc (s.setPc pc) where
  target := rfl
  result := fun _ _ h => nomatch h
  others := fun _ _ => rfl
  memory := fun _ => rfl
  rest := rfl

theorem jumped_link (s : State) (d : BitVec 5) (link pc : Word) : Jumped s (some (d, link)) pc ((s.setX d link).setPc pc) where
  target := rfl
  result := by
    rintro d' v ⟨⟩ nonzero
    rw [getX_setPc, getX_setX, if_pos ⟨rfl, nonzero⟩]
  others := fun r other => by
    rw [getX_setPc, getX_setX, if_neg]
    rintro ⟨rfl, -⟩
    exact other rfl
  memory := fun _ => rfl
  rest := by
    rw [State.setX, setX_frame]
    rfl

theorem jumped_branch (s : State) (taken : Bool) (i : BitVec 15) :
    Jumped s none (pcPlus s.hart.pc (if taken then i.toInt else 1)) (s.branch taken i) := by
  cases taken with
  | true => exact branchTarget_eq s.hart.pc i ▸ jumped_setPc s _
  | false => exact wrapPc_add_four s.hart.pc ▸ jumped_setPc s _

/-- A branch meets its rule when the condition that it tests is that of the rule. -/
theorem jumped_of_rule {s : State} {i : Instr} {taken taken' c : Bool} {n : Int} {imm : BitVec 15}
    (rule : some (taken, imm.toInt) = some (taken', n)) (run : exec i s = .next (s.branch c imm)) (value : c = taken) :
    ∃ t, exec i s = .next t ∧ Jumped s none (pcPlus s.hart.pc (if taken' then n else 1)) t := by
  obtain ⟨rfl, rfl⟩ := Prod.mk.inj (Option.some.inj rule)
  exact ⟨_, run, value ▸ jumped_branch s c imm⟩

theorem exec_branch {s : State} {i : Instr} {taken : Bool} {n : Int} (h : branchRule s.getX i = some (taken, n)) :
    ∃ t, exec i s = .next t ∧ Jumped s none (pcPlus s.hart.pc (if taken then n else 1)) t := by
  cases i with
  | beq => exact jumped_of_rule h rfl (beq_eq_decide ..)
  | bne => exact jumped_of_rule h rfl (Bool.eq_iff_iff.2 (by simp))
  | blt | bltu => exact jumped_of_rule h rfl rfl
  | bge => exact jumped_of_rule h rfl (Bool.eq_iff_iff.2 (by simp [BitVec.slt]))
  | bgeu => exact jumped_of_rule h rfl (Bool.eq_iff_iff.2 (by simp [BitVec.ult]))
  | _ => cases h

/-! ## JALR (R208) -/

theorem extractLsb'_eq_zero_iff (v : Word) (lo n : Nat) : v.extractLsb' lo n = 0#n ↔ v.toNat / 2 ^ lo % 2 ^ n = 0 := by
  rw [← BitVec.toNat_inj, BitVec.extractLsb'_toNat, Nat.shiftRight_eq_div_pow, BitVec.toNat_ofNat, Nat.zero_mod]

theorem misaligned_iff (target : Word) : target.extractLsb' 0 2 ≠ 0#2 ↔ target.toNat % 4 ≠ 0 := by
  rw [Ne, extractLsb'_eq_zero_iff, Nat.pow_zero, Nat.div_one]
  rfl

theorem tooWide_iff (target : Word) : target.extractLsb' 57 7 ≠ 0#7 ↔ 2 ^ 57 ≤ target.toNat := by
  have lt := target.isLt
  rw [Ne, extractLsb'_eq_zero_iff]
  omega

theorem exec_jalr_eq (s : State) (d a : BitVec 5) (i : BitVec 15) {target : Word} (h : target = s.getX a + BitVec.ofInt 64 i.toInt) :
    exec (.jalr d a i) s = .next (
      if target.toNat % 4 ≠ 0 then s.raise (s.cause 4#8 target 0#64 1#64)
      else if 2 ^ 57 ≤ target.toNat then s.raise (s.cause 8#8 target 0#64 1#64)
      else (s.setX d (s.hart.pc + 4#64)).setPc target) := by
  subst h
  show execJalr d a i s = _
  rw [← sext_eq_ofInt, execJalr]
  simp only [misaligned_iff, tooWide_iff]
  split
  · rfl
  · split <;> rfl

/-- Settles O2: branches by their conditions, jumps by their targets, JALR by the two checks of its target. -/
theorem branchesAndJumps : Obligations.BranchesAndJumps := by
  unfold Obligations.BranchesAndJumps
  refine ⟨fun s i taken n => exec_branch, fun s d i => ?jal, fun s d a i target ht aligned narrow => ?jalr,
    fun s d a i t traps ht => ⟨fun misaligned => ?misaligned, fun aligned wide => ?wide⟩⟩
  case jal => exact ⟨_, rfl, branchTarget_eq s.hart.pc i ▸ jumped_link s d _ _⟩
  case jalr =>
    refine ⟨_, exec_jalr_eq s d a i ht, ?_⟩
    rw [if_neg (not_not.2 aligned), if_neg (Nat.not_le.2 narrow)]
    exact jumped_link s d _ _
  case misaligned =>
    refine ⟨_, exec_jalr_eq s d a i ht, ?_⟩
    rw [if_pos misaligned]
    exact raise_cause_entered traps (by decide)
  case wide =>
    refine ⟨_, exec_jalr_eq s d a i ht, ?_⟩
    rw [if_neg (not_not.2 aligned), if_pos wide]
    exact raise_cause_entered traps (by decide)

end Sys2Proof.Proofs
end

