-- ==== Sys2Proof/Proofs/ScalarAccesses.lean ====
section
/-!
SUPPORT. Scalar loads and stores with their acquire and release forms (R209, R210), and the causes that they raise (R203, R365 to
R367, R373): the statements O3, O5 and O19.
-/

namespace Sys2Proof.Proofs
open Sys2Proof Sys2Proof.Machine Sys2Proof.Laws

/-! ## The checks of an access leave the hart alone (R112 to R115, R203) -/

section
variable {s : State}

theorem homeMoves_gate {c : State → Bool} :
    Keeps (HomeMoves s) (fun t => if c t then .ok ((), t) else .error (.wait t) : A Unit) := by
  intro t h
  dsimp only
  refine ⟨fun y u e => ?_, fun u e => ?_⟩ <;> split at e <;> cases e <;> exact h

theorem sendReq_moves (s : State) (uid : Nat) (r : FonakReq) : HomeMoves s (s.sendReq uid r) := by
  unfold State.sendReq State.sendOn
  dsimp only
  split <;> rfl

theorem rdcFill_moves (s : State) (asid die ln : Nat) (v : LineVal) : HomeMoves s (s.rdcFill asid die ln v) := by
  unfold State.rdcFill
  dsimp only
  split <;> rfl

theorem homeMoves_askRemote (who : Who) (r : FonakReq) : Keeps (HomeMoves s) (askRemote who r) := by
  intro t h
  unfold askRemote
  split
  · exact ⟨fun _ _ e => by cases e; exact h, fun _ e => by cases e⟩
  · refine ⟨fun _ _ e => (nomatch e), fun u e => ?_⟩
    simp only [Except.error.injEq, AccStop.wait.injEq] at e
    subst e
    split
    · exact h
    · exact h.trans (sendReq_moves _ _ _)

theorem homeMoves_fetchTable (who : Who) (ln : Nat) : Keeps (HomeMoves s) (fetchTable who ln) := by
  unfold fetchTable fetchFrom
  refine keeps_get_bind fun t h => ?_
  split
  · refine keeps_bind (P := HomeMoves s) homeMoves_gate (fun _ => ?_) t h
    exact keeps_bind (P := HomeMoves s)
      (fun u _ => set_keeps (h.trans ((cross_moves _ _ _ _).trans (mscServe_moves _ _ _ _))) u) fun _ => keeps_pure _
  · exact keeps_bind (homeMoves_askRemote _ _) (fun _ => keeps_pure _) t h

theorem homeMoves_throughRdc (who : Who) (ln : Nat) {fetch : A LineVal} (hf : Keeps (HomeMoves s) fetch) :
    Keeps (HomeMoves s) (throughRdc who ln fetch) := by
  unfold throughRdc
  refine keeps_bind keeps_get fun t => keeps_ite hf ?_
  split
  · exact keeps_pure _
  · refine keeps_bind hf fun v => keeps_bind (keeps_modify fun u hu => ?_) fun _ => keeps_pure _
    split
    · exact hu.trans (rdcFill_moves _ _ _ _ _)
    · exact hu

theorem homeMoves_readEntry (who : Who) (pa : Nat) : Keeps (HomeMoves s) (readEntry who pa) := by
  unfold readEntry
  refine keeps_bind keeps_get fun t => ?_
  have fetched := homeMoves_throughRdc (s := s) who (pa / 128) (homeMoves_fetchTable who (pa / 128))
  have used (v : LineVal) : Keeps (HomeMoves s) (if v.psn.getLsbD (bitsOf pa 5 2) = true then do
        A.poison
        pure (BitVec.ofNat 64 (getElt v.data 64 (bitsOf pa 3 4)))
      else pure (BitVec.ofNat 64 (getElt v.data 64 (bitsOf pa 3 4))) : A Word) :=
    keeps_ite (keeps_bind keeps_poison fun _ => keeps_pure _) (keeps_pure _)
  exact keeps_ite (keeps_bind (keeps_fault _) fun _ => keeps_bind fetched used) (keeps_bind fetched used)

theorem homeMoves_walkFrom (who : Who) (va : Word) (acc : Access) : ∀ fuel level table,
    Keeps (HomeMoves s) (walkFrom who va acc fuel level table)
  | 0, _, _ => keeps_fault _
  | fuel + 1, level, table => by
    unfold walkFrom
    dsimp only
    exact keeps_bind (homeMoves_readEntry _ _) fun p => keeps_ite (keeps_fault _) <| keeps_ite (keeps_fault _) <|
      keeps_ite (keeps_ite (keeps_fault _) (keeps_pure _)) (homeMoves_walkFrom who va acc fuel _ _)

theorem homeMoves_leafOf (who : Who) (va : Word) (acc : Access) : Keeps (HomeMoves s) (leafOf who va acc) := by
  unfold leafOf
  refine keeps_bind keeps_get fun t => ?_
  dsimp only
  split
  · exact keeps_pure _
  · split
    · exact keeps_fault _
    · exact keeps_bind (homeMoves_walkFrom _ _ _ _ _ _) fun _ =>
        keeps_bind (keeps_modify fun u hu => hu.trans (setMm_homeMoves rfl)) fun _ => keeps_pure _

theorem homeMoves_translate (who : Who) (va : Word) (acc : Access) : Keeps (HomeMoves s) (Machine.translate who va acc) := by
  unfold Machine.translate
  exact keeps_bind (homeMoves_leafOf _ _ _) fun _ => keeps_bind keeps_get fun t =>
    keeps_ite (keeps_fault _) <| keeps_ite (keeps_fault _) <| keeps_ite (keeps_fault _) (keeps_pure _)

theorem homeMoves_locate (who : Who) (va : Word) (acc : Access) : Keeps (HomeMoves s) (locate who va acc) := by
  unfold locate
  refine keeps_bind keeps_get fun t => ?_
  split
  · exact keeps_ite (keeps_pure _) (keeps_fault _)
  · exact homeMoves_translate _ _ _

theorem homeMoves_classify (who : Who) (va : Word) (align : Nat) (acc : Access) :
    Keeps (HomeMoves s) (classify who va align acc) := by
  unfold classify
  refine keeps_bind keeps_get fun t => keeps_ite (keeps_fault _) <| keeps_ite (keeps_fault _) <| keeps_ite ?_ <|
    keeps_bind (homeMoves_locate _ _ _) fun _ => keeps_ite (keeps_fault _) (keeps_pure _)
  split
  · exact keeps_ite (keeps_pure _) (keeps_fault _)
  · exact keeps_fault _

theorem classify_moves {t : State} {who : Who} {va : Word} {align : Nat} {acc : Access} {w : Window}
    (h : classify who va align acc s = .ok (w, t)) : HomeMoves s t :=
  (homeMoves_classify who va align acc s (HomeMoves.refl s)).1 w t h

/-! ## What the checks refuse at once (R203) -/

theorem classify_of_wide {va : Word} (h : 2 ^ 57 ≤ va.toNat) (who : Who) (align : Nat) (acc : Access) :
    classify who va align acc s = .error (.fault 8#8) := by
  rw [classify, bind_ok (run_get s), if_pos h]
  rfl

theorem classify_of_misaligned {va : Word} {align : Nat} (h : va.toNat < 2 ^ 57) (h' : va.toNat % align ≠ 0) (who : Who)
    (acc : Access) : classify who va align acc s = .error (.fault 4#8) := by
  rw [classify, bind_ok (run_get s), if_neg (Nat.not_le.2 h), if_pos h']
  rfl

/-! ## Loaded values (R209) -/

theorem loadFrom_lt {t : State} {who : Who} {va : Word} {size rd : Nat} {w : Window} {v : Nat} {tag : Bool}
    (h : loadFrom who va size rd w s = .ok ((v, tag), t)) : v < 2 ^ (8 * size) := by
  rw [loadFrom, bind_ok (run_get s)] at h
  split at h
  · cases h
  · cases read : readLine who va.toNat size rd w s with
    | error e =>
      rw [bind_error read] at h
      cases h
    | ok r =>
      rw [bind_ok read] at h
      split at h
      · cases h
      · cases h
        exact Nat.mod_lt _ (Nat.two_pow_pos _)

theorem loadAt_lt {t : State} {who : Who} {va : Word} {size rd v : Nat} {tag : Bool}
    (h : loadAt who va size rd s = .ok ((v, tag), t)) : v < 2 ^ (8 * size) := by
  cases found : classify who va size .load s with
  | error e =>
    rw [loadAt, bind_error found] at h
    cases h
  | ok r =>
    rw [loadAt, bind_ok found] at h
    exact loadFrom_lt h

end

theorem toSigned_eq_toInt {w : Nat} (hw : 0 < w) (v : Nat) : toSigned w v = (BitVec.ofNat w v).toInt := by
  obtain ⟨w, rfl⟩ := Nat.exists_eq_add_of_le' hw
  rw [toSigned, BitVec.toInt_eq_toNat_cond, BitVec.toNat_ofNat, Nat.add_sub_cancel, Nat.pow_succ]
  congr 1
  exact propext (by omega)

theorem setWidth_ofNat_of_lt {w v : Nat} (h : v < 2 ^ w) : (BitVec.ofNat w v).setWidth 64 = BitVec.ofNat 64 v :=
  BitVec.eq_of_toNat_eq (by rw [BitVec.toNat_setWidth, BitVec.toNat_ofNat, BitVec.toNat_ofNat, Nat.mod_eq_of_lt h])

theorem extended_eq_extendTo {size v : Nat} (hs : 0 < size) (hv : v < 2 ^ (8 * size)) (signed : Bool) :
    (if signed then BitVec.ofInt 64 (toSigned (8 * size) v) else BitVec.ofNat 64 v) = extendTo size v signed := by
  cases signed with
  | true => exact congrArg (BitVec.ofInt 64) (toSigned_eq_toInt (by omega) v)
  | false => exact (setWidth_ofNat_of_lt hv).symm

/-! ## Loads and stores by their address (R209) -/

/-- A scalar load from an address. -/
def loadTo (d : BitVec 5) (va : Word) (r size : Nat) (signed : Bool) : M Unit := do
  let s ← get
  let (v, _) ← M.scalar va (loadAt s.who va size r)
  M.result d (if signed then BitVec.ofInt 64 (toSigned (8 * size) v) else BitVec.ofNat 64 v)

/-- A scalar store of a register's low bytes to an address. -/
def storeTo (b : BitVec 5) (va : Word) (size : Nat) : M Unit := do
  let s ← get
  M.scalar va (storeAt s.who va size (bitsOf (s.getX b).toNat 0 (8 * size)))
  M.advance

theorem settle_congr {m n : M Unit} {s : State} (h : m s = n s) : settle m s = settle n s := by rw [settle, h, settle]

theorem exec_load {s : State} {i : Instr} {d : BitVec 5} {va : Word} {r size : Nat} {signed : Bool}
    (h : loadRule s.getX i = some (d, va, r, size, signed)) : exec i s = settle (loadTo d va r size signed) s ∧ 0 < size := by
  have run (d a : BitVec 5) (r : BitVec 2) (o : BitVec 13) (size : Nat) (signed : Bool) :
      settle (scalarLoad d a r o size signed) s = settle (loadTo d (s.getX a + BitVec.ofInt 64 o.toInt) r.toNat size signed) s :=
    settle_congr (by rw [scalarLoad, loadTo, bind_ok (run_get s), bind_ok (run_get s), sext_eq_ofInt])
  cases i with
  | lb | lh | lw | ld | lbu | lhu | lwu =>
    cases h
    exact ⟨run .., by decide⟩
  | _ => cases h

theorem exec_store {s : State} {i : Instr} {b : BitVec 5} {va : Word} {size : Nat} (h : storeRule s.getX i = some (b, va, size)) :
    exec i s = settle (storeTo b va size) s := by
  have run (b a : BitVec 5) (o : BitVec 15) (size : Nat) :
      settle (scalarStore b a o size) s = settle (storeTo b (s.getX a + BitVec.ofInt 64 o.toInt) size) s :=
    settle_congr (by rw [scalarStore, storeTo, bind_ok (run_get s), bind_ok (run_get s), sext_eq_ofInt])
  cases i with
  | sb | sh | sw | sd =>
    cases h
    exact run ..
  | _ => cases h

theorem loadTo_done {s t : State} {d : BitVec 5} {va : Word} {r size v : Nat} {signed tag : Bool} (hs : 0 < size)
    (h : loadAt s.who va size r s = .ok ((v, tag), t)) :
    settle (loadTo d va r size signed) s = .next (t.clearReplies.result d (extendTo size v signed)) := by
  rw [← clear_result, ← extended_eq_extendTo hs (loadAt_lt h)]
  refine settle_ok ?_
  rw [loadTo, bind_ok (run_get s), bind_ok (scalar_ok h va)]
  rfl

theorem storeTo_done {s t : State} {b : BitVec 5} {va : Word} {size : Nat}
    (h : storeAt s.who va size ((s.getX b).toNat % 2 ^ (8 * size)) s = .ok ((), t)) :
    settle (storeTo b va size) s = .next t.clearReplies.advance := by
  rw [← clear_advance]
  refine settle_ok ?_
  rw [storeTo, bind_ok (run_get s), bitsOf_low, bind_ok (scalar_ok h va)]
  rfl

theorem loadTo_fault {s : State} {d : BitVec 5} {va : Word} {r size : Nat} {signed : Bool} {c : BitVec 8}
    (h : classify s.who va size .load s = .error (.fault c)) :
    loadTo d va r size signed s = .error (.trap s (s.cause c va 0#64 1#64)) := by
  rw [loadTo, bind_ok (run_get s), bind_error (scalar_fault (c := c) (by rw [loadAt, bind_error h]) va)]

theorem storeTo_fault {s : State} {b : BitVec 5} {va : Word} {size : Nat} {c : BitVec 8}
    (h : classify s.who va size .store s = .error (.fault c)) :
    storeTo b va size s = .error (.trap s (s.cause c va 0#64 1#64)) := by
  rw [storeTo, bind_ok (run_get s), bind_error (scalar_fault (c := c) (by rw [storeAt, bind_error h]) va)]

/-! ## LDACQ and SDREL (R210) -/

theorem fieldOffset_eq {n : Nat} (o : BitVec n) : sext o <<< 3 = BitVec.ofInt 64 (8 * o.toInt) := sext_shiftLeft o 3

theorem exec_ldacq_eq {s t0 t : State} {d a : BitVec 5} {r : BitVec 2} {o : BitVec 10} {sc : BitVec 2} {va : Word} {w : Window}
    {v : Nat} {tag : Bool} (hva : va = s.getX a + BitVec.ofInt 64 (8 * o.toInt)) (walk : s.walkAhead (some sc) = none)
    (planes : s.planesFor sc) (found : classify s.who va 8 .load s = .ok (w, t0)) (plain : w.isPlainOnly = false)
    (read : loadFrom s.who va 8 r.toNat w t0 = .ok ((v, tag), t)) :
    exec (.ldacq d a r o sc) s = .next ((t.acquireMine sc).clearReplies.result d (BitVec.ofNat 64 v)) := by
  rw [← clear_result]
  refine settle_ok ?_
  rw [bind_ok (wait_none walk), bind_ok (needPlanes_ok planes), bind_ok (run_get s)]
  dsimp only
  rw [fieldOffset_eq, ← hva, bind_ok (scalar_ok found va), plain, if_neg Bool.false_ne_true, bind_ok (scalar_ok read va), M.acquire,
    bind_ok (run_modify t _)]
  rfl

theorem exec_sdrel_eq {s t0 t : State} {b a : BitVec 5} {o : BitVec 12} {sc : BitVec 2} {va : Word} {w : Window}
    (hva : va = s.getX a + BitVec.ofInt 64 (8 * o.toInt)) (found : classify s.who va 8 .store s = .ok (w, t0))
    (plain : w.isPlainOnly = false) (planes : t0.planesFor sc)
    (acked : sc = 0#2 ∨ (t0.releaseMine sc).unacked s.hart.uid = false)
    (stored : storeLine s.who va 8 (s.getX b).toNat false w (t0.releaseMine sc) = .ok ((), t)) :
    exec (.sdrel b a o sc) s = .next (t.shown s.hart.place.die w sc).clearReplies.advance := by
  have hart : t0.hart = s.hart := (classify_moves found).toMem.hart
  rw [← clear_advance]
  refine settle_ok ?_
  rw [bind_ok (run_get s), fieldOffset_eq, ← hva, bind_ok (scalar_ok found va), plain, if_neg Bool.false_ne_true,
    bind_ok (release_run (l := 1#1) (fun _ => ⟨planes, by rwa [hart, ← or_iff_not_imp_left]⟩) rfl),
    bind_ok (scalar_ok stored va), bind_ok (run_modify t _)]
  rfl

/-! ## Settling O3 and O5 -/

/-- Settles O3: every load is `loadTo` its address; LDACQ by its steps. -/
theorem scalarLoads : Obligations.ScalarLoads := by
  unfold Obligations.ScalarLoads
  refine ⟨fun s t i d va r size signed v tag rule loaded => ?load,
    fun s t d a r o sc va w t0 v tag hva walk planes found plain read => ?acq⟩
  case load =>
    obtain ⟨run, positive⟩ := exec_load rule
    exact ⟨_, run.trans (loadTo_done positive loaded), wrote_result _ _ _⟩
  case acq => exact ⟨_, exec_ldacq_eq hva walk planes found plain read, wrote_result _ _ _⟩

/-- Settles O5: every store is `storeTo` its address; SDREL by its steps. -/
theorem scalarStores : Obligations.ScalarStores := by
  unfold Obligations.ScalarStores
  refine ⟨fun s t i b va size rule stored => ?store, fun s t0 t b a o sc va w hva found plain planes acked stored => ?rel⟩
  case store => exact ⟨_, (exec_store rule).trans (storeTo_done stored), passed_advance _⟩
  case rel => exact ⟨_, exec_sdrel_eq hva found plain planes acked stored, passed_advance _⟩

/-! ## Causes of loads and stores, and of a breakpoint (R203, R365 to R367, R373) -/

/-- A load or store of a size to an address, by its rule. -/
def Accesses (s : State) (i : Instr) (va : Word) (size : Nat) (acc : Access) : Prop :=
  (acc = .load ∧ ∃ d r signed, loadRule s.getX i = some (d, va, r, size, signed)) ∨
    (acc = .store ∧ ∃ b, storeRule s.getX i = some (b, va, size))

theorem exec_fault {s : State} {i : Instr} {va : Word} {size : Nat} {acc : Access} {c : BitVec 8} (h : Accesses s i va size acc)
    (fault : classify s.who va size acc s = .error (.fault c)) :
    ∃ m : M Unit, exec i s = settle m s ∧ m s = .error (.trap s (s.cause c va 0#64 1#64)) := by
  rcases h with ⟨rfl, d, r, signed, rule⟩ | ⟨rfl, b, rule⟩
  · exact ⟨_, (exec_load rule).1, loadTo_fault fault⟩
  · exact ⟨_, exec_store rule, storeTo_fault fault⟩

theorem fault_entered {s : State} {i : Instr} {va : Word} {size : Nat} {acc : Access} {c : BitVec 8} (h : Accesses s i va size acc)
    (traps : s.takesTraps) (fault : classify s.who va size acc s = .error (.fault c)) (taken : c ≠ 5#8 ∧ c ≠ 6#8 ∧ c ≠ 7#8) :
    ∃ u, exec i s = .next u ∧ Entered s.clearReplies c false s.hart.pc va 0#64 1#64 u := by
  obtain ⟨m, run, trap⟩ := exec_fault h fault
  rw [run]
  exact settle_cause traps trap taken

theorem page_fault_waits {s : State} {i : Instr} {va : Word} {size : Nat} {acc : Access} {c : BitVec 8}
    (h : Accesses s i va size acc) (page : c = 5#8 ∨ c = 6#8 ∨ c = 7#8)
    (fault : classify s.who va size acc s = .error (.fault c)) :
    ∃ u v, exec i s = .next u ∧ u.hart.wait = .pager v ∧ v.cause = c ∧ v.va = va ∧ u.hart.csr = s.hart.csr ∧
      u.hart.pc = s.hart.pc ∧ u.hart.x = s.hart.x ∧ u.hart.isReady = false ∧ ∀ pa, u.byteAt pa = s.byteAt pa := by
  obtain ⟨m, run, trap⟩ := exec_fault h fault
  refine ⟨_, s.cause c va 0#64 1#64, run.trans (settle_trap trap), ?_⟩
  rw [raise_page page, clearReplies_eq]
  exact ⟨rfl, rfl, rfl, rfl, rfl, rfl, by simp [Hart.isReady], fun _ => rfl⟩

theorem raise_eq_trapEntry {s : State} {v : FaultVals} (taken : v.cause ≠ 5#8 ∧ v.cause ≠ 6#8 ∧ v.cause ≠ 7#8) :
    s.raise v = s.trapEntry v := by
  obtain ⟨h5, h6, h7⟩ := taken
  rw [State.raise, if_neg (by simp [h5, h6, h7])]

/-- A hart in a handler, or without one, ends where it would take a cause that is no page fault (R367). -/
theorem raise_eq_endHart {s : State} {v : FaultVals} (noHandler : s.hart.csr.hm = true ∨ s.hart.csr.tvec = 0#64)
    (taken : v.cause ≠ 5#8 ∧ v.cause ≠ 6#8 ∧ v.cause ≠ 7#8) : s.raise v = s.endHart v := by
  rw [raise_eq_trapEntry taken, State.trapEntry, if_pos]
  rcases noHandler with h | h <;> simp [h]

/-- Settles O19: the checks of R203 fault before anything is done; a page fault stops for the pager; and a cause that no handler
takes ends the hart. -/
theorem scalarTraps : Obligations.ScalarTraps := by
  unfold Obligations.ScalarTraps
  refine ⟨fun s i va size traps rule => ?checks, fun s i va size c page rule => ?page,
    fun s noHandler furlong strip region => ?ends⟩
  case checks =>
    obtain ⟨acc, access⟩ : ∃ acc, Accesses s i va size acc := rule.elim (fun h => ⟨_, .inl ⟨rfl, h⟩⟩) fun h => ⟨_, .inr ⟨rfl, h⟩⟩
    exact ⟨fun wide => fault_entered access traps (classify_of_wide wide _ _ _) (by decide),
      fun narrow misaligned => fault_entered access traps (classify_of_misaligned narrow misaligned _ _) (by decide)⟩
  case page =>
    rcases rule with ⟨d, r, signed, rule, fault⟩ | ⟨b, rule, fault⟩
    · exact page_fault_waits (.inl ⟨rfl, d, r, signed, rule⟩) page fault
    · exact page_fault_waits (.inr ⟨rfl, b, rule⟩) page fault
  case ends =>
    obtain ⟨hart, failed⟩ := endHart_ended furlong strip (s.cause 0x11#8 0#64 0#64 0#64)
    have run : exec .ebreak s = .next (s.endHart (s.cause 0x11#8 0#64 0#64 0#64)) :=
      congrArg Host.Outcome.next (raise_eq_endHart noHandler (show 0x11#8 ≠ 5#8 ∧ 0x11#8 ≠ 6#8 ∧ 0x11#8 ≠ 7#8 by decide))
    refine ⟨_, run, ?_, ?_, ?_, ?_, _, failed, rfl, rfl, position_of_none region, ?_⟩
    · rw [hart]; rfl
    · rw [hart, freedHart, outOfLeague_eq]
    · rw [hart, freedHart, outOfLeague_eq]
    · rw [hart, freedHart, outOfLeague_eq]
    · show 0#64 ||| zext 0x11#8 = 0x11#64
      decide

end Sys2Proof.Proofs
end

