-- ==== Sys2Proof/Proofs/References.lean ====
section
/-!
SUPPORT. Reference instructions (R211 to R216) and their escape checks (R159, R212, R213): the statements O7 and O8.
-/

namespace Sys2Proof.Proofs
open Sys2Proof Sys2Proof.Machine Sys2Proof.Laws

/-! ## Fields and offsets (R156, R212) -/

theorem hdrLength_eq (h : Word) : hdrLength h = h.toNat % 2 ^ 32 := bitsOf_low _ _

theorem hdrScope_eq (h : Word) : hdrScope h = h.toNat / 2 ^ 32 % 4 := bitsOf_eq_div_mod _ _ _

theorem hdrScope_ofNat (n : Nat) : hdrScope (BitVec.ofNat 64 n) = n / 2 ^ 32 % 4 := by
  rw [hdrScope_eq, BitVec.toNat_ofNat]
  omega

theorem aligned_iff (v : Word) : v.extractLsb' 0 3 = 0#3 ↔ v.toNat % 8 = 0 := by
  rw [extractLsb'_eq_zero_iff, Nat.pow_zero, Nat.div_one]
  rfl

theorem toInt_fieldOffset (o : BitVec 12) : (BitVec.ofInt 64 (8 * o.toInt)).toInt = 8 * o.toInt := by
  have low := BitVec.le_toInt o
  have high := BitVec.toInt_lt (x := o)
  rw [BitVec.toInt_ofInt]
  exact Int.bmod_eq_of_le (by omega) (by omega)

/-! ## The checks of a reference (R212) -/

/-- The PSCOPE of the object that a reference names, 3 for null. -/
def refScope (who : Who) (v : Word) : M Nat :=
  if v = 0#64 then pure 3
  else if v.extractLsb' 0 3 ≠ 0#3 then M.cause 8#8 v 0#64 1#64
  else do
    let w ← M.scalar v (classify who v 8 .load)
    if !w.isReach then M.cause 8#8 v 0#64 1#64
    else
      let (h, _) ← M.scalar v (loadFrom who v 8 2 w)
      pure (hdrScope (BitVec.ofNat 64 h))

theorem refScope_null (who : Who) (s : State) : refScope who 0#64 s = .ok (3, s) := by
  rw [refScope, if_pos rfl, run_pure]

theorem refScope_object {who : Who} {v : Word} {w : Window} {s t u : State} {h : Nat} {tag : Bool} (nonzero : v ≠ 0#64)
    (aligned : v.toNat % 8 = 0) (found : classify who v 8 .load s = .ok (w, t)) (reach : w.isReach = true)
    (read : loadFrom who v 8 2 w t = .ok ((h, tag), u)) : refScope who v s = .ok (h / 2 ^ 32 % 4, u) := by
  rw [refScope, if_neg nonzero, if_neg (not_not.2 ((aligned_iff v).2 aligned)), bind_ok (scalar_ok found v), reach,
    if_neg (by decide), bind_ok (scalar_ok read v)]
  dsimp only
  rw [run_pure, hdrScope_ofNat]

theorem refChecks_ok {s t : State} {c v va : Word} {o : BitVec 12} {w : Window} {pc pt : Nat}
    (h : RefChecked s c v o va w pc pt t) : refChecks c v o s = .ok ((va, w, pc, pt), t) := by
  obtain ⟨aligned, address, hdr, t1, t2, header, hpc, low, high, object, found, reach⟩ := h
  have scope : refScope s.who v t1 = .ok (pt, t2) := by
    rcases object with ⟨rfl, rfl, rfl⟩ | ⟨nonzero, alignedV, wv, t3, hv, tag, foundV, reachV, read, rfl⟩
    · exact refScope_null _ _
    · exact refScope_object nonzero alignedV foundV reachV read
  rw [refChecks, bind_ok (run_get s), fieldOffset_eq, ← address, if_neg (not_not.2 ((aligned_iff c).2 aligned)),
    bind_ok (scalar_ok header c), toInt_fieldOffset, hdrLength_eq, if_neg (by push_cast at *; omega)]
  refine (bind_ok scope _).trans ?_
  rw [bind_ok (scalar_ok found va), reach, if_neg (by decide), run_pure, hdrScope_eq, ← hpc]

/-! ## LDREF (R211) -/

theorem isSet_iff (q : BitVec 1) : isSet q = true ↔ q = 1#1 := beq_iff_eq

theorem exec_ldref_eq {s t0 t : State} {d a : BitVec 5} {r : BitVec 2} {o : BitVec 10} {q : BitVec 1} {sc : BitVec 2} {va : Word}
    {w : Window} {v : Nat} {tag : Bool} (wf : Instr.wf (.ldref d a r o q sc) = true) (noWalk : s.noWalk q sc)
    (hva : va = s.getX a + BitVec.ofInt 64 (8 * o.toInt)) (found : classify s.who va 8 .load s = .ok (w, t0))
    (reach : w.isReach = true) (read : loadFrom s.who va 8 r.toNat w t0 = .ok ((v, tag), t)) :
    exec (.ldref d a r o q sc) s =
      .next ((t.ifAcquire q sc).clearReplies.result d (if tag then BitVec.ofNat 64 v else 0#64)) := by
  rw [← clear_result]
  refine settle_ok ?_
  rw [wf, if_neg (by decide)]
  refine (run_when (t := s) (fun hq => ?waits) fun _ => rfl).trans ?_
  case waits =>
    obtain ⟨planes, none⟩ := noWalk ((isSet_iff q).1 hq)
    exact (bind_ok (wait_none none) _).trans (bind_ok (needPlanes_ok planes) _)
  dsimp only
  rw [bind_ok (run_get s), fieldOffset_eq, ← hva, bind_ok (scalar_ok found va), reach, if_neg (by decide),
    bind_ok (scalar_ok read va)]
  refine (run_when (t := t.ifAcquire q sc) (fun hq => ?_) fun hq => (if_neg fun x => hq ((isSet_iff q).2 x)).symm).trans rfl
  rw [State.ifAcquire, if_pos ((isSet_iff q).1 hq)]
  rfl

/-! ## SDREF and SPUB (R212, R213) -/

/-- An instruction that raises a cause after steps that have changed the state enters the handler from the state they left. -/
theorem settle_cause_at {s t : State} (traps : t.takesTraps) {m : M Unit} {c : BitVec 8} {va stride remain : Word}
    (hm : m s = .error (.trap t (t.cause c va stride remain))) (taken : c ≠ 5#8 ∧ c ≠ 6#8 ∧ c ≠ 7#8) :
    ∃ u, settle m s = .next u ∧ Entered t.clearReplies c false t.hart.pc va stride remain u :=
  settle_cause traps (m := fun _ => m s) hm taken

theorem fork_ok {s : State} (acked : s.unacked s.hart.uid = false) : M.fork s = .ok ((), s) := by
  rw [M.fork, bind_ok (run_get s), acked, if_neg Bool.false_ne_true, run_pure]

/-- A walk that a publication forks (R213, R214). -/
def forked (s : State) (sc : BitVec 2) (field ref : Word) : State :=
  { s with fresh := s.fresh + 1, walks := s.walks ++
      [{ id := s.fresh, uid := s.hart.uid, die := s.hart.place.die, core := s.hart.place.core, asid := s.hart.asid, scope := sc,
         field := field, ref := ref, stack := if ref = 0#64 then [] else [(ref, false)], count := 0, state := .queued }] }

section
variable {s t : State} {b a : BitVec 5} {o : BitVec 12} {sc : BitVec 2} {va : Word} {w : Window} {pc pt : Nat}
variable (walk : s.walkAhead none = none) (checked : RefChecked s (s.getX a) (s.getX b) o va w pc pt t)
include walk checked

theorem exec_sdref_eq {u : State} (le : pc ≤ pt) (stored : storeLine s.who va 8 (s.getX b).toNat true w t = .ok ((), u)) :
    exec (.sdref b a o) s = .next u.clearReplies.advance := by
  rw [← clear_advance]
  refine settle_ok ?_
  rw [bind_ok (wait_none walk), bind_ok (run_get s), bind_ok (refChecks_ok checked)]
  dsimp only
  rw [if_neg (Nat.not_lt.2 le), bind_ok (scalar_ok stored va)]
  rfl

theorem exec_sdref_escape (lt : pt < pc) (traps : t.takesTraps) : ∃ u, exec (.sdref b a o) s = .next u ∧
    Entered t.clearReplies 0xA#8 false t.hart.pc va (BitVec.ofNat 64 pc) (BitVec.ofNat 64 pt) u := by
  refine settle_cause_at traps ?_ (by decide)
  rw [bind_ok (wait_none walk), bind_ok (run_get s), bind_ok (refChecks_ok checked)]
  dsimp only
  rw [if_pos lt]
  rfl

theorem exec_spub_eq (wf : sc ≠ 0#2) (le : pc ≤ sc.toNat) (acked : t.unacked t.hart.uid = false) :
    exec (.spub b a o sc) s = .next (forked t sc va (s.getX b)).clearReplies.advance := by
  rw [← clear_advance]
  refine settle_ok ?_
  rw [show Instr.wf (.spub b a o sc) = true from bne_iff_ne.2 wf, if_neg (by decide), bind_ok (wait_none walk),
    bind_ok (run_get s), bind_ok (refChecks_ok checked)]
  dsimp only
  rw [if_neg (Nat.not_lt.2 le), bind_ok (fork_ok acked), bind_ok (run_modify t _)]
  rfl

theorem exec_spub_escape (wf : sc ≠ 0#2) (lt : sc.toNat < pc) (traps : t.takesTraps) : ∃ u, exec (.spub b a o sc) s = .next u ∧
    Entered t.clearReplies 0xA#8 false t.hart.pc va (BitVec.ofNat 64 pc) (BitVec.ofNat 64 sc.toNat) u := by
  refine settle_cause_at traps ?_ (by decide)
  rw [show Instr.wf (.spub b a o sc) = true from bne_iff_ne.2 wf, if_neg (by decide), bind_ok (wait_none walk),
    bind_ok (run_get s), bind_ok (refChecks_ok checked)]
  dsimp only
  rw [if_pos lt, zext_eq_ofNat]
  rfl

end

/-! ## RTAG (R215) -/

section
variable {s t0 : State} {d a : BitVec 5} {i : BitVec 15} {va : Word} {w : Window} (hva : va = s.getX a + BitVec.ofInt 64 i.toInt)
variable (found : classify s.who va 8 .load s = .ok (w, t0)) (plain : w.isPlainOnly = false) (held : ∀ pa, w ≠ .control pa)
include hva found plain held

theorem exec_rtag_eq {t : State} {v : Word} (answer : (if !w.isReach then M.result d 0#64
      else (do
        let (_, tag) ← M.scalar va (loadFrom s.who va 8 2 w)
        M.result d (boolWord tag)) : M Unit) t0 = .ok ((), t.result d v)) :
    exec (.rtag d a i) s = .next (t.clearReplies.result d v) := by
  rw [← clear_result]
  refine settle_ok ?_
  rw [bind_ok (run_get s), sext_eq_ofInt, ← hva, bind_ok (scalar_ok found va)]
  cases w with
  | cached | memSide => exact answer
  | scratch | bankLinear => cases plain
  | control pa => exact absurd rfl (held pa)

theorem exec_rtag_plain (reach : w.isReach = false) : exec (.rtag d a i) s = .next (t0.clearReplies.result d 0#64) :=
  exec_rtag_eq hva found plain held (by rw [reach]; rfl)

theorem exec_rtag_reach {t : State} {v : Nat} {tag : Bool} (reach : w.isReach = true)
    (read : loadFrom s.who va 8 2 w t0 = .ok ((v, tag), t)) :
    exec (.rtag d a i) s = .next (t.clearReplies.result d (boolWord tag)) :=
  exec_rtag_eq hva found plain held (by rw [reach, if_neg (by decide), bind_ok (scalar_ok read va)]; rfl)

end

/-! ## OBJINIT (R216) -/

theorem headerWord_eq (h : Word) : (h &&& 0xFFFFFFF800000000#64) ||| zext (h.extractLsb' 0 32) =
    BitVec.ofNat 64 (h.toNat / 2 ^ 35 * 2 ^ 35 + h.toNat % 2 ^ 32) := by
  have bound := h.isLt
  have whole : h.toNat / 2 ^ 35 * 2 ^ 35 + h.toNat % 2 ^ 32 < 2 ^ 64 := by omega
  have shifted : h.toNat / 2 ^ 35 * 2 ^ 35 < 2 ^ 64 := (Nat.le_add_right _ _).trans_lt whole
  have high : h &&& 0xFFFFFFF800000000#64 = h >>> 35 <<< 35 := by
    rw [BitVec.shiftLeft_ushiftRight]
    rfl
  have low : (zext (h.extractLsb' 0 32)).toNat = h.toNat % 2 ^ 32 := by
    rw [zext_eq_ofNat, BitVec.toNat_ofNat, BitVec.extractLsb'_toNat, Nat.shiftRight_zero]
    omega
  refine BitVec.eq_of_toNat_eq ?_
  rw [high, BitVec.toNat_or, low, BitVec.toNat_shiftLeft, BitVec.toNat_ushiftRight, Nat.shiftRight_eq_div_pow, Nat.shiftLeft_eq,
    Nat.mod_eq_of_lt shifted, ← Nat.shiftLeft_eq, ← Nat.shiftLeft_add_eq_or_of_lt (by omega), Nat.shiftLeft_eq,
    BitVec.toNat_ofNat, Nat.mod_eq_of_lt whole]

theorem exec_objinit_eq {s t1 t0 t : State} {b a : BitVec 5} {i : BitVec 15} {va : Word} {w : Window} {len first last : Nat}
    (hva : va = s.getX a + BitVec.ofInt 64 i.toInt) (hlen : len = (s.getX b).toNat % 2 ^ 32)
    (found : classify s.who va 8 .store s = .ok (w, t1)) (positive : 0 < len) (hfirst : first = va.toNat / 128)
    (hlast : last = (va.toNat + 8 * len - 1) / 128)
    (reach : checkReach s.who (va.toNat + 8 * len) (len / 8192 + 2) va.toNat t1 = .ok ((), t0))
    (done : initLines s.who va.toNat (va.toNat + 8 * len)
      (BitVec.ofNat 64 ((s.getX b).toNat / 2 ^ 35 * 2 ^ 35 + len)) (last - first + 1) first t0 = .ok ((), t)) :
    exec (.objinit b a i) s = .next t.clearReplies.advance := by
  rw [← clear_advance]
  refine settle_ok ?_
  rw [bind_ok (run_get s), sext_eq_ofInt, ← hva, hdrLength_eq, ← hlen, bind_ok (scalar_ok found va), if_neg positive.ne',
    bind_ok reach, headerWord_eq, ← hlen, ← hfirst, ← hlast, bind_ok (scalar_ok done va)]
  rfl

/-! ## Settling O7 and O8 -/

/-- Settles O7: each reference instruction by its steps, the checks of R212 once for SDREF and SPUB. -/
theorem references : Obligations.References := by
  unfold Obligations.References
  refine ⟨fun s t d a r o q sc va w t0 v tag wf noWalk hva found reach read => ?ldref,
    fun s t0 t b a o va w pc pt walk checked le stored => ?sdref,
    fun s t b a o sc va w pc pt wf walk checked le acked => ?spub,
    fun s t0 t d a i va w hva found plain held => ⟨?untagged, ?tagged⟩,
    fun s t1 t0 t b a i va w len first last hva hlen found positive hfirst hlast reach done => ?objinit⟩
  case ldref => exact ⟨_, exec_ldref_eq wf noWalk hva found reach read, wrote_result _ _ _⟩
  case sdref => exact ⟨_, exec_sdref_eq walk checked le stored, passed_advance _⟩
  case spub => exact ⟨_, exec_spub_eq walk checked wf le acked, passed_advance _⟩
  case untagged =>
    rintro ⟨reach, rfl⟩
    exact ⟨_, exec_rtag_plain hva found plain held reach, wrote_result _ _ _⟩
  case tagged =>
    intro v tag reach read
    exact ⟨_, exec_rtag_reach hva found plain held reach read, wrote_result _ _ _⟩
  case objinit => exact ⟨_, exec_objinit_eq hva hlen found positive hfirst hlast reach done, passed_advance _⟩

/-- Settles O8: the comparison of scopes comes after the checks of R212 and before anything is stored. -/
theorem escapeTraps : Obligations.EscapeTraps := by
  unfold Obligations.EscapeTraps
  exact ⟨fun s t b a o va w pc pt walk checked lt traps => exec_sdref_escape walk checked lt traps,
    fun s t b a o sc va w pc pt wf walk checked lt traps => exec_spub_escape walk checked wf lt traps⟩

end Sys2Proof.Proofs
end

