-- ==== Sys2Proof/Proofs/WaitsAndHalt.lean ====
section
/-! SUPPORT. WAITC, WFI, YIELD and HALT (R69, R223, R227): the statement O12. -/

namespace Sys2Proof.Proofs
open Sys2Proof Sys2Proof.Machine Sys2Proof.Laws

/-! ## Wait points that find nothing to deliver (R214, R314) -/

theorem waitCopies_ok {s : State} (told : s.hart.copyFault = none ∨ s.hart.copyTold = true) (k : Option (BitVec 4)) :
    M.waitCopies k s = .ok ((), s) := by
  unfold M.waitCopies
  split
  · rfl
  next f fault =>
    have told' : s.hart.copyTold = true := told.resolve_left (by rw [fault]; exact Option.some_ne_none f)
    exact if_pos (by rw [told']; rfl)

theorem waitAll_ok {s : State} (walk : s.walkAhead none = none) (told : s.hart.copyFault = none ∨ s.hart.copyTold = true) :
    M.waitAll s = .ok ((), s) := by
  rw [M.waitAll, bind_ok (run_get s), walk, Option.any_none, if_neg Bool.false_ne_true, bind_ok (wait_none walk), waitCopies_ok told]

/-! ## WAITC (R223) -/

/-- WAITC with no copy fault to deliver: the count once it has reached the target, else the hart waits. -/
theorem exec_waitc_eq {s : State} (told : s.hart.copyFault = none ∨ s.hart.copyTold = true) (d a : BitVec 5) (k : BitVec 4) :
    exec (.waitc d a k) s =
      if ((s.hart.getK k).toNat + 2 ^ 64 - (s.getX a).toNat) % 2 ^ 64 < 2 ^ 63 then .next (s.clearReplies.result d (s.hart.getK k))
      else .next s.hold := by
  have distance : (s.hart.getK k - s.getX a).toNat = ((s.hart.getK k).toNat + 2 ^ 64 - (s.getX a).toNat) % 2 ^ 64 := by
    rw [BitVec.toNat_sub]
    congr 1
    have := (s.getX a).isLt
    omega
  show settle _ s = _
  rw [← distance, ← clear_result]
  split
  next reached =>
    refine settle_ok ?_
    rw [bind_ok (waitCopies_ok told _), bind_ok (run_get s)]
    exact congrFun (if_pos reached) s
  next short =>
    refine settle_stall ?_
    rw [bind_ok (waitCopies_ok told _), bind_ok (run_get s)]
    exact congrFun (if_neg short) s

/-! ## A hart that is freed leaves no pinned line (R69, R125) -/

/-- The L1s of `t` hold only lines that those of `s` held. -/
def L1Shrinks (s t : State) : Prop := t.mm.l1 ⊆ s.mm.l1

section
variable {s t u : State}

theorem L1Shrinks.refl (s : State) : L1Shrinks s s := List.Subset.refl _

theorem L1Shrinks.trans (h : L1Shrinks s t) (k : L1Shrinks t u) : L1Shrinks s u := List.Subset.trans k h

theorem L1Shrinks.of_eq (h : t.mm.l1 = s.mm.l1) : L1Shrinks s t := fun _ held => h ▸ held

theorem HomeMoves.l1Shrinks (h : HomeMoves s t) : L1Shrinks s t := .of_eq h.l1

end

theorem gather_l1Shrinks (s : State) (ln : Nat) (memSide : Bool) : L1Shrinks s (s.gather ln memSide) := by
  have cleaned := (cleanL2_moves s (fun e => e.pa == ln && (e.out || (e.dirty != 0)))).l1Shrinks
  unfold State.gather
  dsimp only
  split
  · exact cleaned.trans (List.filter_subset_self _)
  · exact cleaned

theorem putQcb_l1Shrinks (s : State) (q : Nat) (v : Line) : L1Shrinks s (s.putQcb q v) :=
  (gather_l1Shrinks s _ true).trans (homeWrite_moves _ _ _ _ _ _).l1Shrinks

theorem cacheQcb_l1Shrinks (s : State) (die q : Nat) : L1Shrinks s (s.cacheQcb die q) := by
  unfold State.cacheQcb
  split
  · exact L1Shrinks.refl s
  · exact (readServed_moves s 0 (s.qcbLine q)).l1Shrinks

theorem unmapQueue_l1Shrinks (s : State) (q : Nat) : L1Shrinks s (s.unmapQueue q) := by
  unfold State.unmapQueue
  split
  · exact L1Shrinks.refl s
  · exact putQcb_l1Shrinks _ _ _

theorem installQueue_l1Shrinks (s : State) (die n q : Nat) : L1Shrinks s (s.installQueue die n q) := by
  have cached := cacheQcb_l1Shrinks s die q
  unfold State.installQueue
  generalize s.cacheQcb die q = s0 at cached
  exact cached.trans ((L1Shrinks.of_eq (by rfl)).trans (putQcb_l1Shrinks _ _ _))

theorem mapQueue_l1Shrinks (s : State) (q : Nat) : L1Shrinks s (s.mapQueue q) := by
  unfold State.mapQueue
  dsimp only
  split
  · exact L1Shrinks.refl s
  · split
    · exact installQueue_l1Shrinks _ _ _ _
    · split
      · split <;> exact L1Shrinks.refl s
      · split
        · exact (unmapQueue_l1Shrinks _ _).trans (installQueue_l1Shrinks _ _ _ _)
        · exact unmapQueue_l1Shrinks _ _

theorem serveMapWait_l1Shrinks (s : State) : L1Shrinks s s.serveMapWait := by
  refine foldl_keeps (L1Shrinks s) _ (fun t q h => ?_) _ _ (L1Shrinks.refl s)
  split
  · exact h.trans ((L1Shrinks.of_eq (by rfl)).trans (mapQueue_l1Shrinks _ _))
  · exact h

theorem packetHartGone_l1Shrinks (s : State) (q idx : Nat) : L1Shrinks s (s.packetHartGone q idx) := by
  have entry (f : Entry → Entry) : L1Shrinks s (s.onEntry q idx f) := L1Shrinks.of_eq (by rw [onEntry_mm])
  unfold State.packetHartGone State.dropFailed
  split
  · split
    · exact (entry _).trans ((unmapQueue_l1Shrinks _ _).trans (serveMapWait_l1Shrinks _))
    · exact entry _
  · exact entry _

theorem freeHart_unpins (s : State) (phase : Phase) : ∀ c ∈ (s.freeHart s.hart.uid phase).mm.l1, c.pin ≠ some s.hart.uid := by
  intro c hc
  rw [State.freeHart, hartOf_self] at hc
  have held := packetHartGone_l1Shrinks _ _ _ hc
  rw [onHart_mm] at held
  have unpinned : (c.pin != some s.hart.uid) = true := (List.mem_filter.1 held).2
  exact bne_iff_ne.1 unpinned

/-! ## HALT (R69, R227) -/

theorem exec_halt_eq {s : State} (walk : s.walkAhead none = none) (told : s.hart.copyFault = none ∨ s.hart.copyTold = true) :
    exec .halt s = .next (s.freeHart s.hart.uid .retired).clearReplies := by
  refine settle_ok ?_
  rw [bind_ok (waitAll_ok walk told)]
  rfl

theorem not_isReady_of_retired {h : Hart} (e : h.phase = .retired) : h.isReady = false := by
  simp [Hart.isReady, Hart.isResident, e]

/-! ## Settling O12 -/

/-- Settles O12: WAITC by the distance of count and target, WFI and YIELD as they stand, HALT by what freeing a hart leaves. -/
theorem waitsAndHalt : Obligations.WaitsAndHalt := by
  unfold Obligations.WaitsAndHalt
  refine ⟨fun s d a k told reached => ?reached, fun s d a k told short => ?short, fun s => ⟨_, rfl, rfl, rfl⟩, fun s => ?yield,
    fun s walk told => ?halt⟩
  case reached => exact ⟨_, (exec_waitc_eq told d a k).trans (if_pos reached), wrote_result _ _ _⟩
  case short => exact (exec_waitc_eq told d a k).trans (if_neg (Nat.not_lt.2 short))
  case yield =>
    refine ⟨_, rfl, fun stays => ?_, fun goes => if_pos goes⟩
    rw [if_neg (by rw [stays]; decide)]
    exact passed_advance s
  case halt =>
    have freed := freeHart_self s .retired
    refine ⟨_, exec_halt_eq walk told, ?_⟩
    rw [clearReplies_eq]
    dsimp only
    rw [freed]
    refine ⟨?_, rfl, ?_, rfl, not_isReady_of_retired rfl, freeHart_unpins s .retired⟩
    · rw [freedHart, outOfLeague_eq]
    · rw [freedHart, outOfLeague_eq]

end Sys2Proof.Proofs
end

