-- ==== Sys2Proof/Proofs/VectorForms.lean ====
section
/-!
SUPPORT. The results of the vector instructions that write a register (R244 to R260), and the SAT-overflow trap that ends one
(R80).
-/

namespace Sys2Proof.Proofs
open Sys2Proof Sys2Proof.Machine Sys2Proof.Laws

/-! ## The results of each form (R231, R244 to R260) -/

theorem activeBelow_eq_length_filter (x : VIn) (e : Nat) : x.activeBelow e = ((List.range e).filter x.act).length :=
  List.countP_eq_length_filter

/-- VCOMPRESS: the packed elements, then what the others receive (R260). -/
theorem packed_eq_map_range (x : VIn) (idle : Option Flagged) :
    let packed := ((List.range x.vl).filter x.act).map (fun e => some (x.src 0 e, 0#6))
    packed ++ List.replicate (x.vl - packed.length) idle =
      (List.range x.vl).map (fun e => ((List.range x.vl).filter x.act)[e]?.elim idle (fun k => some (x.src 0 k, 0#6))) := by
  have le : ((List.range x.vl).filter x.act).length ≤ x.vl := (List.length_filter_le _ _).trans_eq List.length_range
  generalize (List.range x.vl).filter x.act = es at le
  refine List.ext_getElem (by simp [le]) fun e he he' => ?_
  rw [List.getElem_map, List.getElem_range]
  by_cases inside : e < es.length
  · rw [List.getElem?_eq_getElem inside, List.getElem_append_left (by simpa using inside), List.getElem_map, Option.elim_some]
  · rw [List.getElem?_eq_none (Nat.le_of_not_lt inside), List.getElem_append_right (by simpa using inside),
      List.getElem_replicate, Option.elim_none]

/-- A vector instruction of this group is `vectorOp` of its shape, with a body that gives the results of its rule. -/
theorem exec_vectorForm {s : State} {i : Instr} {md : BitVec 2} {v : VShape} (h : vectorForm s i = some (md, v)) :
    v.outs = [] ∧ ∃ body, exec i s = settle (vectorOp i md v body) s ∧
      body (s.operands md v) = vectorResult s.getX i (s.operands md v) := by
  cases i with
  | vmvv | vadd | vsub | vmul | vmac | vnmac | vmin | vmax | vabs | vneg | vand | vor | vxor | vsll | vsra | vmerge | vdiv | vsqrt
  | vrcp | vrsq | vexp2 | vlog2 | vclass | vconj | vcvt | vdqnt | vscansum | vslideup | vslidedn | vgathr =>
    cases h
    exact ⟨rfl, _, rfl, rfl⟩
  | vsrl =>
    cases h
    refine ⟨rfl, _, rfl, ?_⟩
    simp only [eachElem, guarded, srlElem, Nat.shiftRight_eq_div_pow]
    rfl
  | vshrr | vbcast =>
    cases h
    refine ⟨rfl, _, rfl, ?_⟩
    simp only [eachElem, guarded, bitsOf_low]
    rfl
  | vexpand | viota =>
    cases h
    refine ⟨rfl, _, rfl, ?_⟩
    simp only [eachElem, guarded, activeBelow_eq_length_filter]
    rfl
  | vcompress =>
    cases h
    refine ⟨rfl, _, rfl, ?_⟩
    generalize s.operands md _ = x
    refine (packed_eq_map_range x _).trans (List.map_congr_left fun e _ => ?_)
    cases ((List.range x.vl).filter x.act)[e]? with
    | none => rfl
    | some k => rfl
  | _ => cases h

/-! ## A vector instruction that ends, by what it leaves -/

/-- Writing results and ending the instruction is what the statements about vector instructions ask for, the replies that have
come for the hart still there. -/
theorem vectorDone_of_vectorEnd {s : State} {d : Regs} (hd : ∀ r, d = .one r → r < s.hart.nregs) (w : Nat) (l : Elems)
    (specs : List Nat) : VectorDone s d w l specs (vectorEnd s (s.hart.writeElems d w l) l.flags specs) := by
  have hart := vectorEnd_hart (writeElems_moves s.hart d w l) l.flags specs
  refine ⟨fun q e hq he => ?_, by rw [hart], by rw [hart], by rw [hart]; exact ⟨rfl, rfl, rfl, rfl, rfl, rfl, rfl⟩, by rw [hart], rfl⟩
  have written := getElt_writeElems s.hart d l hd hq he
  rw [getV_of_v (g := (vectorEnd s (s.hart.writeElems d w l) l.flags specs).hart) (h := s.hart.writeElems d w l) (by rw [hart]), written]
  cases l.getD e none with
  | none => exact ite_self _
  | some v => rfl

/-! ## No furlong opens while results are written (R238, R394) -/

theorem noteV_furlong {h : Hart} (closed : h.furlong = none) (r : Nat) (gs : List Nat) : (h.noteV r gs).furlong = none := by
  unfold Hart.noteV
  by_cases clean : h.vPsn = []
  · simp only [if_pos clean, closed]
  · simp only [if_neg clean, closed]

theorem setVTo_furlong (h : Hart) (r n : Nat) (v : VReg) : (h.setVTo r n v).furlong = h.furlong := by
  unfold Hart.setVTo
  split <;> rfl

theorem setPi_furlong (h : Hart) (r e : Nat) : (h.setPi r e).furlong = h.furlong := by
  unfold Hart.setPi
  split <;> rfl

theorem writeLane_furlong (h : Hart) (d : Regs) (w e : Nat) (x : Option Flagged) : (h.writeLane d w e x).furlong = h.furlong := by
  unfold Hart.writeLane
  split
  · split
    · rw [setPi_furlong, setVTo_furlong]
    · rfl
  · rfl

theorem writeElems_furlong {h : Hart} (closed : h.furlong = none) (d : Regs) (w : Nat) (l : Elems) :
    (h.writeElems d w l).furlong = none := by
  cases d with
  | one r => exact noteV_furlong (by rw [setPi_furlong, setVTo_furlong, closed]) _ _
  | lanes regs =>
    refine foldl_keeps (fun g : Hart => g.furlong = none) _ (fun g n hg => ?noted) _ _ ?written
    case noted =>
      dsimp only
      split
      · exact noteV_furlong hg _ _
      · exact hg
    case written => exact foldl_keeps (fun g : Hart => g.furlong = none) _ (fun g e hg => by rw [writeLane_furlong, hg]) _ _ closed

/-- A hart that takes causes takes them after a vector instruction too. -/
theorem takesTraps_vectorEnd {s : State} (traps : s.takesTraps) (d : Regs) (w : Nat) (l : Elems) (fl : BitVec 6) (specs : List Nat) :
    (vectorEnd s (s.hart.writeElems d w l) fl specs).takesTraps := by
  have hart := vectorEnd_hart (writeElems_moves s.hart d w l) fl specs
  obtain ⟨hm, tvec, furlong, strip, region, grace⟩ := traps
  rw [State.takesTraps, hart]
  exact ⟨hm, tvec, writeElems_furlong furlong d w l, strip, region, grace⟩

/-! ## The SAT-overflow trap (R80) -/

/-- Results with a clamp to report, where it traps: they are written and the instruction ends before the cause is raised. -/
theorem run_vectorOut_clamped {s t : State} {w : Nat} {l : Elems} {e : Nat} (clean : s.cleanVectors) (v : VShape) (dw : Nat)
    (clamped : l.clamped = some e) (sove : s.hart.csr.sove = true)
    (ht : t = vectorEnd s (s.hart.writeElems (s.hart.regsOf w v.dst) dw l) l.flags (v.dst :: v.srcs.map (·.spec))) :
    vectorOut v dw w true l s = .error (.trap t { t.cause 0x16#8 0#64 (BitVec.ofNat 64 e) 0#64 with vec := true }) := by
  have enabled : t.hart.csr.sove = true := by rw [ht, vectorEnd_hart (writeElems_moves ..)]; exact sove
  obtain ⟨-, -, start, split⟩ := clean
  rw [vectorOut, bind_ok (run_get s)]
  simp only [start, split, from_zero, quietGroups_nil, spoil_nil, clamped]
  rw [bind_ok (run_modify s _), commitVector, bind_ok (run_modify _ _)]
  exact (congrArg (satTrap (some e)) ht.symm).trans (if_pos enabled)

theorem vcause_entered {t : State} (traps : t.takesTraps) {c : BitVec 8} {va stride remain : Word}
    (taken : c ≠ 5#8 ∧ c ≠ 6#8 ∧ c ≠ 7#8) : Entered t.clearReplies c true t.hart.pc va stride remain
      (t.clearReplies.raise { t.cause c va stride remain with vec := true }) := by
  have entered := raise_entered_of_given (takesTraps_clearReplies traps) (v := { t.cause c va stride remain with vec := true })
    rfl rfl taken
  rwa [show ({ t.cause c va stride remain with vec := true } : FaultVals).epc = t.hart.pc from takesTraps_position traps] at entered

/-- An instruction whose steps raise a cause of the vector unit after changes enters the handler with CAUSE.VEC. -/
theorem settle_vcause_at {s t : State} (traps : t.takesTraps) {m : M Unit} {c : BitVec 8} {va stride remain : Word}
    (hm : m s = .error (.trap t { t.cause c va stride remain with vec := true })) (taken : c ≠ 5#8 ∧ c ≠ 6#8 ∧ c ≠ 7#8) :
    ∃ u, settle m s = .next u ∧ Entered t.clearReplies c true t.hart.pc va stride remain u :=
  ⟨_, settle_trap hm, vcause_entered traps taken⟩

theorem vectorIn_of_ready {s : State} {i : Instr} {md : BitVec 2} {v : VShape} (ready : VectorReady s i md v) (noOuts : v.outs = []) :
    vectorIn i md v s = .ok (s.operands md v, s) := by
  obtain ⟨types, dst, srcs, apart, whole, selects, outs⟩ := v
  subst noOuts
  exact vectorIn_ready ready (List.append_nil _).symm

theorem exec_clamped {s : State} {i : Instr} {md : BitVec 2} {v : VShape} {l : Elems} {e : Nat}
    (form : vectorForm s i = some (md, v)) (ready : VectorReady s i md v) (hl : l = vectorResult s.getX i (s.operands md v))
    (sat : (s.mode md).sat = true) (sove : s.hart.csr.sove = true) (clamped : l.clamped = some e) (traps : s.takesTraps) :
    ∃ u t, exec i s = .next u ∧
      VectorDone s (s.hart.regsOf (s.mode md).width v.dst) (s.mode md).width l (v.dst :: v.srcs.map (·.spec)) t ∧
      Entered t.clearReplies 0x16#8 true t.hart.pc 0#64 (BitVec.ofNat 64 e) 0#64 u := by
  obtain ⟨noOuts, body, run, result⟩ := exec_vectorForm form
  have direct : ∀ r, s.hart.regsOf (s.mode md).width v.dst = .one r → r < s.hart.nregs :=
    fun r => lt_nregs_of_specFails (ready.bounds v.dst List.mem_cons_self)
  obtain ⟨t, ht⟩ : ∃ t, t = vectorEnd s (s.hart.writeElems (s.hart.regsOf (s.mode md).width v.dst) (s.mode md).width l) l.flags
    (v.dst :: v.srcs.map (·.spec)) := ⟨_, rfl⟩
  have trap : vectorOp i md v body s = .error (.trap t { t.cause 0x16#8 0#64 (BitVec.ofNat 64 e) 0#64 with vec := true }) := by
    rw [vectorOp, bind_ok (vectorIn_of_ready ready noOuts), result, ← hl, show (s.operands md v).m.sat = true from sat]
    exact run_vectorOut_clamped ready.clean v _ clamped sove ht
  obtain ⟨u, settled, entered⟩ := settle_vcause_at (ht ▸ takesTraps_vectorEnd traps _ _ _ _ _) trap (by decide)
  exact ⟨u, t, run.trans settled, ht ▸ vectorDone_of_vectorEnd direct _ _ _, entered⟩

end Sys2Proof.Proofs
end

