-- ==== Sys2Proof/Proofs/VectorTraps.lean ====
section
/-!
SUPPORT. Causes of the vector unit: a misaligned element of a load (R203, R264, R366), a tile that is not allocated (R298, R302,
R303), and with the SAT-overflow trap of the results the statement O32.
-/

namespace Sys2Proof.Proofs
open Sys2Proof Sys2Proof.Machine Sys2Proof.Laws

/-! ## The checks of a vector load that find nothing (R178, R184, R233) -/

theorem checkRun_ok {s : State} {d : BitVec 6} {nf : Nat} (h : d.toNat + nf ≤ s.hart.nregs) : checkRun d nf s = .ok ((), s) := by
  rw [checkRun, bind_ok (run_get s)]
  exact congrFun (if_neg (Nat.not_lt.2 h)) s

theorem vmemIn_ready {s : State} {i : Instr} {md : BitVec 2} {d : BitVec 6} {form : VForm} (ready : VmemReady s i md d form)
    (a : BitVec 5) : vmemIn i md d a form s = .ok (s.vmem md d a form, s) := by
  obtain ⟨accepted, types, bounds, clean⟩ := ready
  obtain ⟨-, -, -, split⟩ := clean
  have whole : s.hart.accessed (s.mode md) = s.hart.active (s.mode md) := if_pos split
  have legal {types : Nat → Bool} (h : types (s.mode md).etype = true) : ¬(!i.wf || !types (s.mode md).etype) = true := by
    rw [accepted, h]
    decide
  unfold vmemIn State.vmem
  rw [bind_ok (run_get s), ← whole]
  cases form with
  | unit =>
    exact (congrFun (if_neg (legal (types := typesAny) (decide_eq_true types))) s).trans (bind_ok (checkRegs_ok bounds) _)
  | strided | indexed =>
    exact (congrFun (if_neg (legal (types := fun c => decide (c ≤ 12)) (decide_eq_true types))) s).trans
      (bind_ok (checkRegs_ok bounds) _)
  | segment =>
    exact (congrFun (if_neg (legal (types := fun c => decide (c ≤ 12)) (decide_eq_true types))) s).trans
      (bind_ok (checkRun_ok bounds) _)

theorem vmemPoison_clean {s : State} (clean : s.cleanVectors) (m : Mode) (d : BitVec 6) (form : VForm) :
    s.hart.vmemPoison m d form = [] := by
  unfold Hart.vmemPoison
  dsimp only
  rw [poisonGuard_clean clean, poisonLanes_clean clean]
  cases form with
  | indexed => exact poisonV_clean clean _ _ _
  | unit | strided | segment => rfl

/-- A vector load whose checks find nothing begins at element 0 (R264). -/
theorem vload_ready {s : State} {i : Instr} {md : BitVec 2} {d : BitVec 6} {a : BitVec 5} {form : VForm} {x : VMem}
    (ready : VmemReady s i md d form) (hx : x = s.vmem md d a form) (wide : x.w ≠ 4) (r : BitVec 2) :
    vload i md d a r form s = (loadElems x s.who r.toNat (List.range x.vl) >>= fun _ => vmemOut x true d form) s := by
  obtain ⟨-, -, start, -⟩ := ready.clean
  rw [vload, bind_ok (vmemIn_ready ready a), ← hx, bind_ok (run_get s), vmemPoison_clean ready.clean,
    bind_ok (t := s) (a := ()) rfl, start, List.drop_zero]
  exact congrFun (if_neg wide) s

/-! ## Elements that a load passes over (R231, R264) -/

/-- `t` is `s` with the hart in focus at some element, and with some progress noted of its vector registers. -/
def Reaches (s t : State) : Prop := t = { s with hart := { s.hart with startElem := t.hart.startElem, vPi := t.hart.vPi } }

theorem Reaches.trans {s t u : State} (h : Reaches s t) (k : Reaches t u) : Reaches s u := Eq.trans k (by rw [h])

theorem setPi_eq (h : Hart) (r e : Nat) : h.setPi r e = { h with vPi := (h.setPi r e).vPi } := by
  unfold Hart.setPi
  split <;> rfl

theorem setProgress_eq (h : Hart) (x : VMem) (e : Nat) : h.setProgress x e = { h with vPi := (h.setProgress x e).vPi } := by
  have step {α : Type} (reg : α → Nat) (l : List α) :
      l.foldl (fun (g : Hart) a => g.setPi (reg a) e) h = { h with vPi := (l.foldl (fun (g : Hart) a => g.setPi (reg a) e) h).vPi } :=
    foldl_keeps (fun g : Hart => g = { h with vPi := g.vPi }) _ (fun g a hg => (setPi_eq g _ e).trans (by rw [hg])) l h rfl
  unfold Hart.setProgress
  split
  · exact step _ _
  · exact step _ _

theorem atElem_reaches (x : VMem) (e : Nat) (s : State) : ∃ t, M.atElem x true e s = .ok ((), t) ∧ Reaches s t := by
  have moved : Hart.setProgress { s.hart with startElem := e } x e = { s.hart with
      startElem := (Hart.setProgress { s.hart with startElem := e } x e).startElem,
      vPi := (Hart.setProgress { s.hart with startElem := e } x e).vPi } := by rw [setProgress_eq]
  exact ⟨{ s with hart := Hart.setProgress { s.hart with startElem := e } x e }, rfl,
    congrArg (fun h => ({ s with hart := h } : State)) moved⟩

theorem loadElems_inactive {x : VMem} (keep : x.m.zero = false) (who : Who) (rd : Nat) (rest : List Nat) : ∀ (es : List Nat) (s : State),
    (∀ k ∈ es, x.act k = false) → ∃ t, loadElems x who rd (es ++ rest) s = loadElems x who rd rest t ∧ Reaches s t
  | [], s, _ => ⟨s, rfl, rfl⟩
  | k :: es, s, idle => by
    obtain ⟨t, run, reached⟩ := atElem_reaches x k s
    obtain ⟨u, rests, reached'⟩ := loadElems_inactive keep who rd rest es t fun j hj => idle j (List.mem_cons_of_mem _ hj)
    refine ⟨u, ?_, reached.trans reached'⟩
    rw [List.cons_append, loadElems, bind_ok run, idle k List.mem_cons_self, if_neg Bool.false_ne_true, keep, if_neg Bool.false_ne_true]
    exact rests

/-! ## A misaligned element (R203, R366) -/

theorem loadElems_misaligned {x : VMem} {e : Nat} (one : x.nf = 1) (active : x.act e = true) (narrow : (x.addr e 0).toNat < 2 ^ 57)
    (misaligned : (x.addr e 0).toNat % (x.w / 8) ≠ 0) (who : Who) (rd : Nat) (rest : List Nat) (s : State) :
    ∃ t, loadElems x who rd (e :: rest) s = .error (.trap t (x.vals e (x.addr e 0) t 4#8)) ∧ Reaches s t := by
  obtain ⟨t, run, reached⟩ := atElem_reaches x e s
  have check : checkFields x who .load e [0] t = .error (.trap t (x.vals e (x.addr e 0) t 4#8)) := by
    rw [checkFields]
    exact bind_error (access_fault (classify_of_misaligned narrow misaligned who .load) _ _) _
  refine ⟨t, ?_, reached⟩
  rw [loadElems, bind_ok run, active, if_pos rfl, one]
  exact bind_error check _

theorem range_eq_append_cons {e n : Nat} (h : e < n) : ∃ rest, List.range n = List.range e ++ e :: rest := by
  obtain ⟨k, rfl⟩ := Nat.exists_eq_add_of_lt h
  refine ⟨(List.range k).map (fun j => e + (j + 1)), ?_⟩
  rw [Nat.add_assoc, List.range_add, List.range_succ_eq_map, List.map_cons, List.map_map]
  rfl

/-- A load whose first active element is misaligned stops there, having only noted how far it has come. -/
theorem vload_misaligned {s : State} {i : Instr} {md : BitVec 2} {d : BitVec 6} {a : BitVec 5} {form : VForm} {x : VMem} {e : Nat}
    (ready : VmemReady s i md d form) (hx : x = s.vmem md d a form) (wide : x.w ≠ 4) (keep : x.m.zero = false) (one : x.nf = 1)
    (active : x.act e = true) (idle : ∀ k < e, x.act k = false) (narrow : (x.addr e 0).toNat < 2 ^ 57)
    (misaligned : (x.addr e 0).toNat % (x.w / 8) ≠ 0) (r : BitVec 2) :
    ∃ t, vload i md d a r form s = .error (.trap t (x.vals e (x.addr e 0) t 4#8)) ∧ Reaches s t := by
  have below : e < x.vl := by
    rw [hx] at active ⊢
    exact of_decide_eq_true (Bool.and_eq_true_iff.1 active).1
  obtain ⟨rest, split⟩ := range_eq_append_cons below
  obtain ⟨t, passed, reached⟩ := loadElems_inactive keep s.who r.toNat (e :: rest) (List.range e) s
    fun k hk => idle k (List.mem_range.1 hk)
  obtain ⟨u, trap, reached'⟩ := loadElems_misaligned one active narrow misaligned s.who r.toNat rest t
  refine ⟨u, ?_, reached.trans reached'⟩
  rw [vload_ready ready hx wide, split]
  exact bind_error (passed.trans trap) _

/-- The state in the handler after a cause at element `e` of a vector memory instruction that has changed no register and no
memory. -/
theorem raise_element {s t : State} (traps : s.takesTraps) (h : Reaches s t) (x : VMem) (e : Nat) (va : Word) :
    let u := t.clearReplies.raise (x.vals e va t 4#8)
    u.hart.csr.hm = true ∧ u.hart.csr.cause = 0x104#64 ∧ u.hart.csr.elemStart = BitVec.ofNat 64 e ∧ u.hart.csr.faultVa = va ∧
      u.hart.csr.faultStride = x.stride ∧ u.hart.csr.faultRemain = BitVec.ofNat 64 (x.remain e) ∧ u.hart.v = s.hart.v ∧
      ∀ pa, u.byteAt pa = s.byteAt pa := by
  have traps' : t.takesTraps := by rw [h]; exact traps
  have vectors : t.hart.v = s.hart.v := by rw [h]
  have memory : t.mm = s.mm := by rw [h]
  dsimp only
  rw [raise_eq_trapEntry (show 4#8 ≠ 5#8 ∧ 4#8 ≠ 6#8 ∧ 4#8 ≠ 7#8 by decide), trapEntry_eq (takesTraps_clearReplies traps'), clearReplies_eq]
  refine ⟨rfl, ?cause, rfl, rfl, rfl, rfl, vectors, fun pa => congrArg (fun mm : MemSys => Memory.get mm.bytes pa) memory⟩
  case cause =>
    show 0x100#64 ||| zext 4#8 = 0x104#64
    decide

theorem remain_eq_length_filter (x : VMem) (e : Nat) :
    x.remain e = ((List.range x.vl).filter (fun k => decide (e ≤ k) && x.act k)).length := List.countP_eq_length_filter

theorem exec_misaligned {s : State} {i : Instr} {md : BitVec 2} {d : BitVec 6} {a : BitVec 5} {form : VForm} {x : VMem} {e : Nat}
    (traps : s.takesTraps) (ready : VmemReady s i md d form) (hx : x = s.vmem md d a form) (wide : x.w ≠ 4) (keep : x.m.zero = false)
    (one : x.nf = 1) (active : x.act e = true) (idle : ∀ k < e, x.act k = false) (narrow : (x.addr e 0).toNat < 2 ^ 57)
    (misaligned : (x.addr e 0).toNat % (x.w / 8) ≠ 0) (r : BitVec 2) (run : exec i s = settle (vload i md d a r form) s) :
    ∃ u, exec i s = .next u ∧ u.hart.csr.hm = true ∧ u.hart.csr.cause = 0x104#64 ∧ u.hart.csr.elemStart = BitVec.ofNat 64 e ∧
      u.hart.csr.faultVa = x.addr e 0 ∧ u.hart.csr.faultStride = x.stride ∧
      u.hart.csr.faultRemain = BitVec.ofNat 64 ((List.range x.vl).filter (fun k => decide (e ≤ k) && x.act k)).length ∧
      u.hart.v = s.hart.v ∧ ∀ pa, u.byteAt pa = s.byteAt pa := by
  obtain ⟨t, trap, reached⟩ := vload_misaligned ready hx wide keep one active idle narrow misaligned r
  rw [← remain_eq_length_filter]
  exact ⟨_, run.trans (settle_trap trap), raise_element traps reached x e (x.addr e 0)⟩

/-! ## Tiles that are not allocated (R298, R302, R303) -/

section
variable {s : State} (traps : s.takesTraps)
include traps

theorem tile_trap {n : BitVec 3} (h : s.hart.nt ≤ n.toNat) (rest : M Unit) : ∃ u, settle (M.tile n >>= fun _ => rest) s = .next u ∧
    Entered s.clearReplies 0x14#8 true s.hart.pc 0#64 (BitVec.ofNat 64 n.toNat) (BitVec.ofNat 64 s.hart.nt) u := by
  refine settle_vcause_at traps (bind_error ?_ _) (by decide)
  rw [M.tile, bind_ok (run_get s), ← zext_eq_ofNat]
  exact congrFun (if_pos h) s

theorem raise_tiles {v : FaultVals} (taken : v.cause ≠ 5#8 ∧ v.cause ≠ 6#8 ∧ v.cause ≠ 7#8) :
    (s.clearReplies.raise v).hart.tiles = s.hart.tiles ∧ (s.clearReplies.raise v).hart.nt = s.hart.nt := by
  rw [raise_eq_trapEntry taken, trapEntry_eq (takesTraps_clearReplies traps), clearReplies_eq]
  exact ⟨rfl, rfl⟩

theorem mmode_trap {d a : BitVec 5} {t : Nat} (ht : t = (s.getX a).toNat) (small : t < 256)
    (type : t % 16 = 0 ∨ t % 16 = 9 ∨ t % 16 = 10 ∨ t % 16 = 11) (count : t / 16 ≤ 8) (short : s.hart.aTiles < t / 16) :
    ∃ u, exec (.mmode d a) s = .next u ∧ u.hart.tiles = s.hart.tiles ∧ u.hart.nt = s.hart.nt ∧
      Entered s.clearReplies 0x14#8 true s.hart.pc 0#64 (BitVec.ofNat 64 (t / 16)) (BitVec.ofNat 64 s.hart.aTiles) u := by
  have high : bitsOf t 4 4 = t / 16 := by
    rw [bitsOf_eq_div_mod]
    omega
  have accepted : matrixType (bitsOf t 0 4) = true := by
    rw [bitsOf_low, matrixType]
    rcases type with h | h | h | h <;> rw [show t % 2 ^ 4 = _ from h] <;> rfl
  obtain ⟨tiles, nt⟩ := raise_tiles traps
    (v := { s.cause 0x14#8 0#64 (BitVec.ofNat 64 (t / 16)) (BitVec.ofNat 64 s.hart.aTiles) with vec := true })
    (show 0x14#8 ≠ 5#8 ∧ 0x14#8 ≠ 6#8 ∧ 0x14#8 ≠ 7#8 by decide)
  refine ⟨_, settle_trap ?_, tiles, nt, vcause_entered traps (by decide)⟩
  rw [bind_ok (run_get s), ← ht, high,
    if_neg (not_or.2 ⟨Nat.not_le.2 small, not_or.2 ⟨not_not.2 accepted, Nat.not_lt.2 count⟩⟩), if_pos short]
  rfl

end

/-! ## Settling O32 -/

/-- Settles O32: a load stops at its first active element, a tile is checked before anything else, and a clamp traps when the
results stand. -/
theorem vectorTraps : Obligations.VectorTraps := by
  unfold Obligations.VectorTraps
  refine ⟨fun s md d a r b x i form e traps kind ready hx wide keep active idle narrow misaligned => ?misaligned,
    fun s n traps free => ⟨?azero, fun a b => ?acld⟩,
    fun s d a t traps ht small type count short => ?mmode,
    fun s i md v l e form ready hl sat sove clamped traps => exec_clamped form ready hl sat sove clamped traps⟩
  case misaligned =>
    subst hx
    obtain ⟨rfl, rfl⟩ | ⟨rfl, rfl⟩ := kind
    · exact exec_misaligned traps ready rfl wide keep rfl active idle narrow misaligned r rfl
    · exact exec_misaligned traps ready rfl wide keep rfl active idle narrow misaligned r rfl
  case azero => exact tile_trap traps free _
  case acld => exact tile_trap traps free _
  case mmode => exact mmode_trap traps ht small type count short

end Sys2Proof.Proofs
end

