-- ==== Sys2Proof/Proofs/IndexRegisters.lean ====
section
/-!
SUPPORT. IXSET, IXBND, IXSTEP and IXLANE (R177, R243): a field of a word bit by bit, and from it the statement O29.
-/

namespace Sys2Proof.Proofs
open Sys2Proof Sys2Proof.Machine Sys2Proof.Laws

theorem getLsbD_putField (old v : Word) {lo w b : Nat} (hb : b < 64) : (putField old lo w v).getLsbD b =
    if lo ≤ b ∧ b < lo + w then v.getLsbD (b - lo) else old.getLsbD b := by
  simp only [putField, BitVec.getLsbD_or, BitVec.getLsbD_and, BitVec.getLsbD_not, BitVec.getLsbD_shiftLeft, BitVec.getLsbD_ofNat,
    Nat.testBit_two_pow_sub_one, hb, decide_true, Bool.true_and]
  by_cases below : b < lo
  · simp [below]
  · by_cases inside : b - lo < w
    · simp [below, inside, show b - lo < 64 by omega, show lo ≤ b ∧ b < lo + w by omega]
    · simp [inside, show ¬ b < lo + w by omega]

@[simp] theorem changeIx_ix (s : State) (n : BitVec 4) (d : BitVec 5) (v : Word) :
    (s.changeIx n d v).hart.ix = (s.hart.setIx n v).ix := by
  simp [State.changeIx, Hart.atStart]

theorem getIx_changeIx (s : State) (n k : BitVec 4) (d : BitVec 5) (v : Word) :
    (s.changeIx n d v).hart.getIx k = if k = n then v else s.hart.getIx k := by
  rw [← getIx_setIx]
  simp only [Hart.getIx, changeIx_ix]

/-- A change of an index register is what the statement asks of an instruction, given the bits of the new value. -/
theorem exec_changeIx {s : State} {i : Instr} {n : BitVec 4} {d : BitVec 5} {v : Word} {bit : Nat → Bool}
    (run : exec i s = .next (s.changeIx n d v)) (bits : ∀ b < 64, v.getLsbD b = bit b) :
    ∃ u, exec i s = .next u ∧ (∀ k, k ≠ n → u.hart.getIx k = s.hart.getIx k) ∧
      Wrote { s with hart := { s.hart with ix := u.hart.ix } } d (s.hart.getIx n) u ∧
      ∀ b, b < 64 → (u.hart.getIx n).getLsbD b = bit b := by
  refine ⟨_, run, fun k other => (getIx_changeIx ..).trans (if_neg other), ?wrote, fun b hb => ?bits⟩
  case wrote =>
    rw [changeIx_ix]
    exact wrote_result _ _ _
  case bits => rw [getIx_changeIx, if_pos rfl, bits b hb]

/-- Settles O29: each instruction puts its fields into the old index register, which xd receives. -/
theorem indexRegisters : Obligations.IndexRegisters := by
  unfold Obligations.IndexRegisters
  rintro s n a d i (rfl | rfl | rfl | rfl)
  case inl =>
    refine exec_changeIx rfl fun b hb => ?_
    rw [getLsbD_putField _ _ hb]
    simp only [Nat.zero_le, true_and, Nat.zero_add, Nat.sub_zero]
  case inr.inl => exact exec_changeIx rfl fun b hb => getLsbD_putField _ _ hb
  case inr.inr.inl => exact exec_changeIx rfl fun b hb => getLsbD_putField _ _ hb
  case inr.inr.inr =>
    refine exec_changeIx rfl fun b hb => ?_
    rw [getLsbD_putField _ _ hb, getLsbD_putField _ _ hb]
    by_cases lane : b = 22
    · subst lane
      simp
    · rw [if_neg (by omega : ¬(22 ≤ b ∧ b < 22 + 1)), if_neg lane]

end Sys2Proof.Proofs
end

