-- ==== Sys2Proof/Proofs/VectorResults.lean ====
section
/-!
SUPPORT. Vector instructions whose results are written without a trap, and reductions (R80, R106, R230 to R233, R244 to R260):
the statements O31 and O35.
-/

namespace Sys2Proof.Proofs
open Sys2Proof Sys2Proof.Machine Sys2Proof.Laws

/-! ## The end of an instruction whose shape is that of `vectorOp` -/

theorem satTrap_quiet {s : State} {clamp : Option Nat} (quiet : s.hart.csr.sove = false ∨ clamp = none) :
    satTrap clamp s = .ok ((), s) := by
  cases clamp with
  | none => rfl
  | some e =>
    obtain off | none := quiet
    · exact if_neg (by rw [off]; decide)
    · cases none

/-- Results of which no clamp is reported are written from element 0 on, and the instruction ends. -/
theorem run_vectorOut_quiet {s : State} (clean : s.cleanVectors) (v : VShape) (dw w : Nat) {sat : Bool} {l : Elems}
    (quiet : sat = false ∨ s.hart.csr.sove = false ∨ l.clamped = none) :
    vectorOut v dw w sat l s = .ok ((), vectorEnd s (s.hart.writeElems (s.hart.regsOf w v.dst) dw l) l.flags
      (v.dst :: v.srcs.map (·.spec))) := by
  cases sat with
  | false => exact run_vectorOut clean v dw w l
  | true =>
    obtain ⟨-, -, start, split⟩ := clean
    have quiet : s.hart.csr.sove = false ∨ l.clamped = none := quiet.resolve_left (by decide)
    rw [vectorOut, bind_ok (run_get s)]
    simp only [start, split, from_zero, quietGroups_nil, spoil_nil]
    rw [bind_ok (run_modify s _), commitVector, bind_ok (run_modify _ _)]
    refine satTrap_quiet (s := vectorEnd s _ _ _) ?_
    rw [vectorEnd_hart (writeElems_moves ..)]
    exact quiet

section
variable {s : State} {i : Instr} {md : BitVec 2} {v : VShape} {body : VIn → Elems} {l : Elems}
  (run : exec i s = settle (vectorOp i md v body) s) (noOuts : v.outs = []) (ready : VectorReady s i md v)
  (result : body (s.operands md v) = l)
include noOuts ready result

/-- With its checks behind it, a vector instruction only writes what its body gives. -/
theorem vectorOp_eq_vectorOut :
    vectorOp i md v body s = vectorOut v (s.mode md).width (s.mode md).width (s.mode md).sat l s := by
  rw [vectorOp, bind_ok (vectorIn_of_ready ready noOuts), result]
  rfl

include run

/-- An instruction whose results raise no trap. -/
theorem exec_vectorOp_quiet (quiet : (s.mode md).sat = false ∨ s.hart.csr.sove = false ∨ l.clamped = none) :
    ∃ u, exec i s = .next u ∧
      VectorDone s.clearReplies (s.hart.regsOf (s.mode md).width v.dst) (s.mode md).width l (v.dst :: v.srcs.map (·.spec)) u :=
  ⟨_, run.trans (settle_ok ((vectorOp_eq_vectorOut noOuts ready result).trans (run_vectorOut_quiet ready.clean v _ _ quiet))),
    vectorDone_vectorEnd (fun _ => lt_nregs_of_specFails (ready.bounds v.dst List.mem_cons_self)) _ _ _⟩

/-- An instruction that traps on a clamp does so when its results stand (R80). -/
theorem exec_vectorOp_clamped {e : Nat} (sat : (s.mode md).sat = true) (sove : s.hart.csr.sove = true)
    (clamped : l.clamped = some e) (traps : s.takesTraps) :
    ∃ u t, exec i s = .next u ∧
      VectorDone s (s.hart.regsOf (s.mode md).width v.dst) (s.mode md).width l (v.dst :: v.srcs.map (·.spec)) t ∧
      Entered t.clearReplies 0x16#8 true t.hart.pc 0#64 (BitVec.ofNat 64 e) 0#64 u := by
  have writes := vectorOp_eq_vectorOut noOuts ready result
  rw [sat] at writes
  obtain ⟨u, settled, entered⟩ := settle_vcause_at (takesTraps_vectorEnd traps _ _ _ _ _)
    (writes.trans (run_vectorOut_clamped ready.clean v _ clamped sove rfl)) (by decide)
  exact ⟨u, _, run.trans settled,
    vectorDone_of_vectorEnd (fun _ => lt_nregs_of_specFails (ready.bounds v.dst List.mem_cons_self)) _ _ _, entered⟩

end

/-- Settles O31: each form is `vectorOp` of its shape, with results by the rule of the form. -/
theorem vectorResults : Obligations.VectorResults := by
  unfold Obligations.VectorResults
  rintro s i md v l form ready rfl quiet
  obtain ⟨noOuts, body, run, result⟩ := exec_vectorForm form
  exact exec_vectorOp_quiet run noOuts ready result quiet

/-! ## Reductions (R80, R106, R257) -/

/-- A reduction reports a clamp in element 0 alone; one over no element writes nothing. -/
theorem clamped_root {vl : Nat} {r : Flagged} (empty : vl = 0 → r.2 = 0#6) :
    Elems.clamped (if vl = 0 then [] else [some r]) = if r.2.getLsbD 5 then some 0 else none := by
  by_cases none : vl = 0
  · rw [if_pos none, empty none]
    rfl
  · rw [if_neg none, Elems.clamped]
    simp only [List.length_singleton, List.range_one, List.find?_singleton, List.getD_cons_zero]

theorem leaves_eq_nil {x : VIn} (h : x.vl = 0) : x.leaves = [] := by rw [VIn.leaves, h]; rfl

/-- Settles O35: a reduction is `vectorOp` with one result, the root of its tree. -/
theorem reductions : Obligations.Reductions := by
  unfold Obligations.Reductions
  rintro s i md d a types f none' w r rfl kind ready root
  obtain ⟨body, run, result⟩ : ∃ body, exec i s = settle (vectorOp i md (plainShape types d [a]) body) s ∧
      body (s.operands md (plainShape types d [a])) = if s.hart.vl = 0 then [] else [some r] := by
    rw [root]
    obtain ⟨rfl, rfl, rfl, rfl⟩ | ⟨rfl, rfl, rfl, rfl⟩ | ⟨rfl, rfl, rfl, rfl⟩ | ⟨rfl, rfl, rfl, rfl⟩ | ⟨rfl, rfl, rfl, rfl⟩ := kind
    · exact ⟨_, rfl, rfl⟩
    · exact ⟨_, rfl, rfl⟩
    · exact ⟨_, rfl, rfl⟩
    · exact ⟨_, rfl, rfl⟩
    · exact ⟨_, rfl, rfl⟩
  have clamped : Elems.clamped (if s.hart.vl = 0 then [] else [some r]) = if r.2.getLsbD 5 then some 0 else none :=
    clamped_root fun none => by rw [root, leaves_eq_nil none]; rfl
  refine ⟨fun quiet => ?ends, fun sat sove flag traps => ?traps⟩
  case ends =>
    exact exec_vectorOp_quiet run rfl ready result (quiet.imp_right (Or.imp_right fun flag => by rw [clamped, flag]; rfl))
  case traps => exact exec_vectorOp_clamped run rfl ready result sat sove (clamped.trans (by rw [flag]; rfl)) traps

end Sys2Proof.Proofs
end

