-- ==== Sys2Proof/Proofs/MaskWrites.lean ====
section
/-!
SUPPORT. Mask registers (R231, R232, R261): what writing bits into one leaves, bit by bit, and the instructions that write them or
count them: the statements O33 and O36.
-/

namespace Sys2Proof.Proofs
open Sys2Proof Sys2Proof.Machine Sys2Proof.Laws

/-! ## Writing bits (R231, R232) -/

theorem getLsbD_setBit {n : Nat} (r : BitVec n) (e : Nat) (b : Bool) (i : Nat) :
    (setBit r e b).getLsbD i = if i = e ∧ i < n then b else r.getLsbD i := by
  by_cases hi : i < n
  · rw [setBit, getLsbD_setElt r _ _ _ hi]
    by_cases here : i = e
    · subst here
      rw [if_pos (by omega), if_pos (⟨rfl, hi⟩ : i = i ∧ i < n), Nat.one_mul, Nat.sub_self]
      cases b <;> rfl
    · rw [if_neg (by omega), if_neg fun c => here c.1]
  · rw [BitVec.getLsbD_of_ge _ _ (Nat.le_of_not_lt hi), if_neg fun c => hi c.2, BitVec.getLsbD_of_ge _ _ (Nat.le_of_not_lt hi)]

/-- A mask register with bits laid over it, none of them for a bit that stays. -/
def layBits (l : List (Option Bool)) (r : MReg) : MReg :=
  (List.range l.length).foldl (fun (v : MReg) (e : Nat) => match l.getD e none with
    | some b => setBit v e b
    | none => v) r

theorem getLsbD_layBits (l : List (Option Bool)) (r : MReg) {i : Nat} (hi : i < 4096) :
    (layBits l r).getLsbD i = (l.getD i none).getD (r.getLsbD i) := by
  have read := foldl_range_read (N := l.length) (fun (v : MReg) i => v.getLsbD i)
    (fun (v : MReg) (e : Nat) => match l.getD e none with
      | some b => setBit v e b
      | none => v) (fun e old => if e < 4096 then (l.getD e none).getD old else old) ?step r l.length (Nat.le_refl _) i
  case step =>
    intro v e j _
    cases l.getD e none with
    | none =>
      simp only [Option.getD_none, ite_self]
      split
      · next same => rw [same]
      · rfl
    | some b =>
      simp only [Option.getD_some, getLsbD_setBit]
      by_cases same : j = e
      · simp only [same, true_and, if_true]
      · simp only [same, false_and, if_false]
  refine read.trans ?_
  rw [if_pos hi]
  by_cases given : i < l.length
  · rw [if_pos given]
  · rw [if_neg given, List.getD_eq_default _ _ (Nat.le_of_not_lt given), Option.getD_none]

/-- `g` is `h` but for its mask registers, how far they are written, their poison and what an open furlong notes. -/
def MaskMoves (h g : Hart) : Prop := g = { h with m := g.m, mPi := g.mPi, mPsn := g.mPsn, furlong := g.furlong }

theorem writeBits_m (h : Hart) (r : Nat) (l : List (Option Bool)) : (h.writeBits r l).m = (h.setM r (layBits l (h.getM r))).m := by
  unfold Hart.writeBits
  dsimp only
  split <;> rfl

theorem setM_moves (h : Hart) (r : Nat) (v : MReg) : MaskMoves h (h.setM r v) := by
  unfold Hart.setM; split <;> rfl

theorem writeBits_moves (h : Hart) (r : Nat) (l : List (Option Bool)) : MaskMoves h (h.writeBits r l) := by
  unfold Hart.writeBits
  dsimp only
  rw [setM_moves h r]
  split <;> rfl

theorem getLsbD_writeBits (h : Hart) (r : Nat) (l : List (Option Bool)) {q i : Nat} (hq : q < 12) (hi : i < 4096) :
    ((h.writeBits r l).getM q).getLsbD i = if q = r then (l.getD i none).getD ((h.getM q).getLsbD i) else (h.getM q).getLsbD i := by
  have written : (h.writeBits r l).getM q = (h.setM r (layBits l (h.getM r))).getM q := by rw [Hart.getM, Hart.getM, writeBits_m]
  rw [written, getM_setM]
  by_cases here : q = r
  · subst here
    rw [if_pos ⟨rfl, hq⟩, if_pos rfl, getLsbD_layBits l _ hi]
  · rw [if_neg (fun c => here c.1), if_neg here]

/-! ## The end of an instruction that writes a mask -/

theorem maskEnd_hart {s : State} {g : Hart} (moves : MaskMoves s.hart g) (fl : BitVec 6) (specs : List Nat) :
    (vectorEnd s g fl specs).hart = { s.hart.atStart with
      m := g.m, mPi := g.mPi, mPsn := g.mPsn, furlong := g.furlong, ix := (s.hart.stepIndices specs).ix,
      csr := { s.hart.csr with flags := s.hart.csr.flags ||| zext fl }, pc := wrapPc (s.hart.pc + 4#64) } := by
  have same : g.ix = s.hart.ix := by rw [moves]
  have stepped := stepIndices_eq (g := g.raiseFlags fl) (h := s.hart) same specs
  rw [vectorEnd, State_advance_hart, stepped, moves]
  rfl

theorem maskDone_vectorEnd (s : State) (d : Nat) (l : List (Option Bool)) (fl : BitVec 6) (specs : List Nat) :
    MaskDone s.clearReplies d l fl specs (vectorEnd s (s.hart.writeBits d l) fl specs).clearReplies := by
  have hart := maskEnd_hart (writeBits_moves s.hart d l) fl specs
  rw [clearReplies_eq, clearReplies_eq, hart]
  refine ⟨fun q e hq he => ?_, rfl, ?_, ⟨rfl, rfl, rfl, rfl, rfl, rfl, rfl⟩, rfl, rfl⟩
  · refine (getLsbD_writeBits s.hart d l hq he).trans ?_
    cases l.getD e none with
    | none => exact ite_self _
    | some b => rfl
  · exact (congrArg Hart.ix (stepIndices_eq (g := { s.hart with replies := [] }) (h := s.hart) rfl specs)).symm

theorem spoilBits_nil (h : Hart) (r per n : Nat) : h.spoilBits r per n [] = h := if_pos rfl

/-! ## Compares (R245, R246) -/

/-- What a compare gives each element below vl. -/
def compared (k : Nat) (x : VIn) : List (Option (Bool × BitVec 6)) :=
  (List.range x.vl).map (fun e =>
    if x.act e then some (cmpElem x.m k (x.src 0 e) (x.src 1 e)) else if x.m.zero then some (false, 0#6) else none)

/-- The flags that the given results raise together. -/
def flagsOf (l : List (Option (Bool × BitVec 6))) : BitVec 6 :=
  l.foldl (fun fl o => match o with
    | some y => fl ||| y.2
    | none => fl) 0#6

theorem bits_compared (k : Nat) (x : VIn) : (compared k x).map (fun o => o.map (·.1)) =
    (List.range x.vl).map (fun e => if x.act e then some (cmpElem x.m k (x.src 0 e) (x.src 1 e)).1
      else if x.m.zero then some false else none) := by
  rw [compared, List.map_map]
  refine List.map_congr_left fun e _ => ?_
  rw [Function.comp_apply]
  split
  · rfl
  · split <;> rfl

theorem flagsOf_compared (k : Nat) (x : VIn) : flagsOf (compared k x) =
    ((List.range x.vl).filter x.act).foldl (fun fl e => fl ||| (cmpElem x.m k (x.src 0 e) (x.src 1 e)).2) 0#6 := by
  rw [flagsOf, compared, List.foldl_map, List.foldl_filter]
  congr 1
  funext fl e
  by_cases active : x.act e = true
  · simp only [active, if_true]
  · cases x.m.zero <;> simp [active]

theorem exec_vectorCompare {s : State} {i : Instr} {k : Nat} {md : BitVec 2} {d a b : BitVec 6}
    (run : exec i s = settle (vectorCompare i k md d a b) s) (ready : VectorReady s i md (plainShape typesA a [a, b])) :
    ∃ u, exec i s = .next u ∧ MaskDone s.clearReplies d.toNat
      ((compared k (s.operands md (plainShape typesA a [a, b]))).map (fun o => o.map (·.1)))
      (flagsOf (compared k (s.operands md (plainShape typesA a [a, b])))) [a.toNat, b.toNat] u := by
  obtain ⟨-, -, start, split⟩ := ready.clean
  refine ⟨_, run.trans (settle_ok ?_), maskDone_vectorEnd s _ _ _ _⟩
  rw [vectorCompare, bind_ok (vectorIn_of_ready ready rfl), bind_ok (run_get s)]
  simp only [start, split, Nat.zero_min, List.replicate_zero, List.nil_append, List.drop_zero, quietGroups_nil, spoilBits_nil]
  rfl

/-- Settles O33: each compare by its code. -/
theorem vectorCompares : Obligations.VectorCompares := by
  unfold Obligations.VectorCompares
  intro s i k md d a b form ready
  have run : exec i s = settle (vectorCompare i k md d a b) s := by
    match k, form with
    | 0, form => cases form; rfl
    | 1, form => cases form; rfl
    | 2, form => cases form; rfl
    | 3, form => cases form; rfl
  dsimp only
  rw [← bits_compared, ← flagsOf_compared]
  exact exec_vectorCompare run ready

/-! ## Mask instructions (R261) -/

theorem maskIn_ok {s : State} {i : Instr} (legal : i.wf = true) (clean : s.cleanVectors) (srcs : List (BitVec 6)) :
    maskIn i srcs s = .ok (s.hart.vl, s) := by
  obtain ⟨-, psn, -, -⟩ := clean
  have none : srcs.flatMap (fun a => s.hart.poisonM a.toNat s.hart.vl) = [] := by simp [Hart.poisonM, psn]
  rw [maskIn, legal]
  simp only [Bool.not_true, Bool.false_eq_true, if_false]
  rw [bind_ok (run_get s), none]
  rfl

theorem exec_maskOp {s : State} {i : Instr} {d : BitVec 6} {srcs : List (BitVec 6)} {f : Hart → Nat → Bool}
    (run : exec i s = settle (maskOp i d srcs f) s) (legal : i.wf = true) (clean : s.cleanVectors) :
    ∃ u, exec i s = .next u ∧
      MaskDone s.clearReplies d.toNat ((List.range s.hart.vl).map (fun e => some (f s.hart e))) 0#6 [] u := by
  have reads := maskIn_ok legal clean srcs
  obtain ⟨-, -, start, split⟩ := clean
  refine ⟨_, run.trans (settle_ok ?_), maskDone_vectorEnd s _ _ _ _⟩
  rw [maskOp, bind_ok reads, bind_ok (run_modify s _)]
  simp only [start, split, Nat.not_lt_zero, if_false, spoilBits_nil]
  rfl

section
variable {s : State} (md : BitVec 2) (d : BitVec 5) {a : BitVec 6} (legal : isMask a = true) (clean : s.cleanVectors)
include legal clean

theorem exec_mpop : exec (.mpop md d a) s =
    .next (s.clearReplies.result d (BitVec.ofNat 64 (popCount s.hart.vl (s.hart.getM a.toNat).toNat))) := by
  rw [← clear_result]
  refine settle_ok ?_
  rw [bind_ok (maskIn_ok (i := .mpop md d a) legal clean _)]
  rfl

theorem exec_mfirst : exec (.mfirst md d a) s = .next (s.clearReplies.result d
    (((lowBit s.hart.vl (s.hart.getM a.toNat).toNat).map (BitVec.ofNat 64)).getD (BitVec.ofInt 64 (-1)))) := by
  rw [← clear_result]
  refine settle_ok ?_
  rw [bind_ok (maskIn_ok (i := .mfirst md d a) legal clean _), bind_ok (run_get s)]
  cases lowBit s.hart.vl (s.hart.getM a.toNat).toNat with
  | none => rfl
  | some e => rfl

theorem exec_msetvl {vl : Nat} (hvl : vl = ((lowBit s.hart.vl (s.hart.getM a.toNat).toNat).map (· + 1)).getD s.hart.vl) :
    exec (.msetvl md d a) s =
      .next (({ s with hart := { s.hart with vl := vl } } : State).clearReplies.result d (BitVec.ofNat 64 vl)) := by
  rw [← clear_result, hvl]
  refine settle_ok ?_
  rw [bind_ok (maskIn_ok (i := .msetvl md d a) legal clean _), bind_ok (run_get s)]
  cases lowBit s.hart.vl (s.hart.getM a.toNat).toNat with
  | none => rfl
  | some e => rfl

end

@[simp] theorem result_vl (s : State) (d : BitVec 5) (v : Word) : (s.result d v).hart.vl = s.hart.vl := by simp [Hart.atStart]

/-- Settles O36: the results of the bitwise instructions bit by bit, and those of MPOP, MFIRST and MSETVL by the list of set bits. -/
theorem maskInstructions : Obligations.MaskInstructions := by
  unfold Obligations.MaskInstructions
  refine ⟨?bitwise, fun s md d a es mask clean hes => ?counts⟩
  case bitwise =>
    rintro s i md d a b f legal clean (⟨rfl, rfl⟩ | ⟨rfl, rfl⟩ | ⟨rfl, rfl⟩ | ⟨rfl, rfl⟩)
    · exact exec_maskOp rfl legal clean
    · exact exec_maskOp rfl legal clean
    · exact exec_maskOp rfl legal clean
    · exact exec_maskOp rfl legal clean
  case counts =>
    have legal : isMask a = true := decide_eq_true (Nat.le_of_lt_succ mask)
    have count : popCount s.hart.vl (s.hart.getM a.toNat).toNat = es.length := by
      rw [hes, popCount, List.countP_eq_length_filter]
      rfl
    have lowest : lowBit s.hart.vl (s.hart.getM a.toNat).toNat = es.head? := by
      rw [hes, List.head?_filter]
      rfl
    refine ⟨⟨_, exec_mpop md d legal clean, ?pop⟩, ⟨_, exec_mfirst md d legal clean, ?first⟩,
      ⟨_, exec_msetvl md d legal clean rfl, ?setvl⟩⟩
    case pop =>
      rw [count]
      exact wrote_result _ _ _
    case first =>
      rw [lowest]
      exact wrote_result _ _ _
    case setvl =>
      rw [lowest, result_vl, State_clearReplies_hart_vl]
      exact ⟨rfl, wrote_result _ _ _⟩

end Sys2Proof.Proofs
end

