-- ==== Sys2Proof/Proofs/VectorMemory.lean ====
section
/-!
SUPPORT. Vector loads and stores (R262 to R265): what ends one once its elements have been accessed, and the access of one
element: the statements O37 and O38.
-/

namespace Sys2Proof.Proofs
open Sys2Proof Sys2Proof.Machine Sys2Proof.Laws

/-! ## The end of a vector memory instruction (R39, R264, R393) -/

/-- `g` is `h` but for the progress and the marks of its vector registers. -/
def Remarked (h g : Hart) : Prop := g = { h with vPi := g.vPi, vPsn := g.vPsn }

section
variable {h g k : Hart}

theorem Remarked.trans (a : Remarked h g) (b : Remarked g k) : Remarked h k := Eq.trans b (by rw [a])
theorem Remarked.moves (a : Remarked h g) : VecMoves h g := by rw [a]; rfl
theorem Remarked.v (a : Remarked h g) : g.v = h.v := by rw [a]

theorem spoil_remarked (h : Hart) (d : Regs) (w per n : Nat) (gs : List Nat) : Remarked h (h.spoil d w per n gs) := by
  unfold Hart.spoil
  split <;> rfl

theorem setProgress_remarked (h : Hart) (x : VMem) (e : Nat) : Remarked h (h.setProgress x e) := by
  rw [setProgress_eq]
  rfl

end

/-- Ending a vector memory instruction changes progress and marks of the vector registers alone, beside what the end of every
vector instruction changes. -/
theorem run_vmemOut (x : VMem) (load : Bool) (d : BitVec 6) (form : VForm) (t : State) :
    ∃ g, vmemOut x load d form t = .ok ((), vectorEnd t g 0#6 (d.toNat :: form.specs)) ∧ Remarked t.hart g := by
  cases load with
  | false => exact ⟨t.hart, rfl, rfl⟩
  | true =>
    exact ⟨_, rfl, foldl_keeps (Remarked t.hart) _ (fun _ _ marks => marks.trans (spoil_remarked ..)) _ _ (setProgress_remarked ..)⟩

/-- An instruction whose elements are all accessed, and which has only to end, is what the statements ask for. -/
theorem exec_vmemOut {s t : State} {i : Instr} {m : M Unit} {x : VMem} {load : Bool} {d : BitVec 6} {form : VForm}
    (run : exec i s = settle m s) (ends : m s = vmemOut x load d form t) :
    ∃ u, exec i s = .next u ∧ u.hart.v = t.hart.v ∧ u.hart.x = t.hart.x ∧ u.hart.m = t.hart.m ∧
      u.hart.pc = wrapPc (t.hart.pc + 4#64) ∧ u = { t with hart := u.hart } := by
  obtain ⟨g, out, marks⟩ := run_vmemOut x load d form t
  refine ⟨_, run.trans (settle_ok (ends.trans out)), ?_⟩
  rw [clearReplies_eq, vectorEnd_hart marks.moves]
  exact ⟨marks.v, rfl, rfl, rfl, rfl⟩

/-! ## Accessing every element (R262 to R264) -/

section
variable {s t : State} {i : Instr} {md : BitVec 2} {d : BitVec 6} {a : BitVec 5} {form : VForm} {x : VMem}
  (ready : VmemReady s i md d form) (hx : x = s.vmem md d a form)
include ready hx

theorem vload_eq_vmemOut {r : BitVec 2}
    (loaded : if x.w = 4 then loadNibbles x s.who r.toNat (List.range ((x.vl + 1) / 2)) s = .ok ((), t)
      else loadElems x s.who r.toNat (List.range x.vl) s = .ok ((), t)) :
    vload i md d a r form s = vmemOut x true d form t := by
  by_cases nibbles : x.w = 4
  · obtain ⟨-, -, start, -⟩ := ready.clean
    rw [if_pos nibbles] at loaded
    rw [vload, bind_ok (vmemIn_ready ready a), ← hx, bind_ok (run_get s), vmemPoison_clean ready.clean,
      bind_ok (t := s) (a := ()) rfl, start, Nat.zero_div, List.drop_zero, if_pos nibbles]
    exact bind_ok loaded _
  · rw [if_neg nibbles] at loaded
    exact (vload_ready ready hx nibbles r).trans (bind_ok loaded _)

theorem vstore_eq_vmemOut
    (stored : if x.w = 4 then storeNibbles x s.who (List.range ((x.vl + 1) / 2)) s = .ok ((), t)
      else storeElems x s.who (List.range x.vl) s = .ok ((), t)) :
    vstore i md d a form s = vmemOut x false d form t := by
  obtain ⟨-, -, start, -⟩ := ready.clean
  rw [vstore, bind_ok (vmemIn_ready ready a), ← hx, bind_ok (run_get s), start]
  by_cases nibbles : x.w = 4
  · rw [if_pos nibbles] at stored
    simp only [if_pos nibbles, vmemPoison_clean ready.clean, poisonV_clean ready.clean, Nat.zero_div, List.drop_zero,
      List.append_nil]
    rw [bind_ok (t := s) (a := ()) rfl]
    exact bind_ok stored _
  · rw [if_neg nibbles] at stored
    have noData : ((List.range x.nf).flatMap fun _ => ([] : Poisons)) = [] := List.flatMap_eq_nil_iff.2 fun _ _ => rfl
    simp only [if_neg nibbles, vmemPoison_clean ready.clean, poisonV_clean ready.clean, List.drop_zero, noData, List.append_nil]
    rw [bind_ok (t := s) (a := ()) rfl]
    exact bind_ok stored _

end

/-- Settles O37: each form is `vload` or `vstore`, which only end when their elements have been accessed. -/
theorem vectorMemory : Obligations.VectorMemory := by
  unfold Obligations.VectorMemory
  refine ⟨fun s t i md d a r form x kind ready hx loaded => ?load, fun s t i md d a form x kind ready hx stored => ?store⟩
  case load =>
    have run : exec i s = settle (vload i md d a r form) s := by
      obtain ⟨rfl, rfl⟩ | ⟨b, rfl, rfl⟩ | ⟨v, rfl, rfl⟩ | ⟨n, rfl, rfl⟩ := kind
      · rfl
      · rfl
      · rfl
      · rfl
    exact exec_vmemOut run (vload_eq_vmemOut ready hx loaded)
  case store =>
    have run : exec i s = settle (vstore i md d a form) s := by
      obtain ⟨rfl, rfl⟩ | ⟨b, rfl, rfl⟩ | ⟨v, rfl, rfl⟩ | ⟨n, rfl, rfl⟩ := kind
      · rfl
      · rfl
      · rfl
      · rfl
    exact exec_vmemOut run (vstore_eq_vmemOut ready hx stored)

/-! ## One element (R231, R262) -/

theorem addr_eq_ofInt {form : VForm} {h : Hart} {a : BitVec 5} {w e f : Nat} {ix : Regs} (wide : w ≠ 4) :
    form.addr h a w ix e f = h.getX a + BitVec.ofInt 64 (match form with
      | .unit => ((e * (w / 8) : Nat) : Int)
      | .strided b => (e : Int) * (h.getX b).toInt
      | .indexed _ => (BitVec.ofNat 64 (getElt (h.getV (ix.at e)) 64 e)).toInt
      | .segment nf => (((e * nf + f) * (w / 8) : Nat) : Int)) := by
  cases form with
  | unit => exact (if_neg wide).trans (by rw [BitVec.ofInt_natCast])
  | strided b => rw [VForm.addr, BitVec.ofInt_mul, BitVec.ofInt_toInt, BitVec.ofInt_natCast]
  | indexed v => rw [VForm.addr, BitVec.ofInt_toInt]
  | segment nf => rw [VForm.addr, BitVec.ofInt_natCast]

theorem putElem_moves (h : Hart) (x : VMem) (f e v : Nat) : VecMoves h (h.putElem x f e v) := by
  unfold Hart.putElem
  dsimp only
  split
  · split
    · exact (setVTo_moves ..).trans (noteV_moves ..)
    · exact setVTo_moves ..
  · exact .refl h

/-- A load into one register puts the element into it and leaves every other register alone. -/
theorem getV_putElem {h : Hart} {x : VMem} {r : Nat} (one : x.data = .one r) (below : r < h.nregs) (hr : r < 48) (e v q : Nat) :
    (h.putElem x 0 e v).getV q = if q = r then setElt (h.getV r) x.w e v else h.getV q := by
  unfold Hart.putElem
  rw [one]
  dsimp only [Regs.at, Nat.add_zero]
  rw [if_pos below, getV_of_v (noteV_v ..), getV_setVTo]
  simp only [hr, and_true]

/-- An element of one field, whose check and access succeed. -/
theorem loadElems_single {x : VMem} {s s0 t t' : State} {who : Who} {rd e v : Nat} {w : Window} {tag : Bool} (one : x.nf = 1)
    (active : x.act e = true) (hs0 : s0 = { s with hart := Hart.setProgress { s.hart with startElem := e } x e })
    (checked : classify who (x.addr e 0) (x.w / 8) .load s0 = .ok (w, t))
    (loaded : loadAt who (x.addr e 0) (x.w / 8) rd t = .ok ((v, tag), t')) :
    loadElems x who rd [e] s = .ok ((), { t' with hart := t'.hart.putElem x 0 e v }) := by
  have reached : M.atElem x true e s = .ok ((), s0) := by rw [hs0]; rfl
  have checks : checkFields x who .load e [0] s0 = .ok ((), t) := by
    rw [checkFields, bind_ok (access_ok checked _ _)]
    rfl
  have loads : loadFields x who rd e [0] t = .ok ((), { t' with hart := t'.hart.putElem x 0 e v }) := by
    rw [loadFields, bind_ok (access_ok loaded _ _)]
    rfl
  rw [loadElems, bind_ok reached, active, if_pos rfl, one, List.range_one, bind_ok checks]
  exact bind_ok loads _

theorem storePieces_inactive {α : Type} {p : Pieces α} (who : Who) (s : State) : ∀ {l : List α}, (∀ k ∈ l, p.act k = false) →
    storePieces p who 0 l s = .ok ((), s)
  | [], _ => rfl
  | k :: l, idle => by
    rw [storePieces, idle k List.mem_cons_self]
    exact storePieces_inactive who s fun j hj => idle j (List.mem_cons_of_mem _ hj)

theorem storeElems_inactive {x : VMem} {e : Nat} (idle : x.act e = false) (who : Who) (s : State) :
    storeElems x who [e] s = .ok ((), s) := by
  refine storePieces_inactive who s fun k hk => ?_
  rw [List.flatMap_singleton] at hk
  obtain ⟨f, hf, rfl⟩ := List.mem_map.1 hk
  have field : f < x.nf := List.mem_range.1 hf
  have element : (e * x.nf + f) / x.nf = e := by
    rw [Nat.mul_comm, Nat.mul_add_div (Nat.zero_lt_of_lt field), Nat.div_eq_of_lt field, Nat.add_zero]
  show x.act ((e * x.nf + f) / x.nf) = false
  rw [element, idle]

/-- Settles O38: addresses as integers, one element loaded into its register, and what an inactive one leaves. -/
theorem vectorElementAccess : Obligations.VectorElementAccess := by
  unfold Obligations.VectorElementAccess
  refine ⟨fun form h a w e f ix widths => addr_eq_ofInt (by omega), ?loaded, fun x s rd e idle keep => ?idleLoad,
    fun x s e idle => storeElems_inactive idle _ s⟩
  case loaded =>
    intro x s s0 t t' rd e v r w tag one data active within hr hs0 checked loaded below
    have written := getV_putElem data below hr e v
    refine ⟨_, loadElems_single one active hs0 checked loaded, ?_, fun k other inside => ?_, fun q other => ?_, ?_, fun _ => rfl⟩
    · rw [written, if_pos rfl, getElt_setElt_same _ _ within]
    · rw [written, if_pos rfl, getElt_setElt_ne _ _ inside other]
    · rw [written, if_neg other]
    · rw [putElem_moves t'.hart x 0 e v]
  case idleLoad =>
    obtain ⟨u, run, reached⟩ := loadElems_inactive keep s.who rd [] [e] s fun k hk => by rw [List.mem_singleton.1 hk, idle]
    exact ⟨u, run, by rw [reached], by rw [reached]⟩

end Sys2Proof.Proofs
end
